-- ==== Sys2Proof/Word.lean ====
section
/-! DEFINITION. The word types of the FS-9880 and their plainest views.
Multi-byte values in memory are little-endian (00_scope.md R3). -/

namespace Sys2Proof

/-- A byte of memory. -/
abbrev Byte := BitVec 8

/-- A 32-bit instruction word or element container (R12, R69). -/
abbrev Word32 := BitVec 32

/-- A scalar register's contents (R10). -/
abbrev Word64 := BitVec 64

end Sys2Proof
end

