-- ==== Sys2Proof/Config.lean ====
section
/-! DEFINITION. What an implementation fixes and what the manual leaves open. Each constant without a body is a value
that the manual does not give: nothing can evaluate it, so a statement holds whatever it is. -/

namespace Sys2Proof.Config

/-- The device timestamp when the model's tick counter stands at n (18 R438: a fixed 2.9 GHz reference; the cycle in
which an event falls is open, 00 R4). UNVERIFIED, log entry 11. -/
opaque timestamp (n : Nat) : BitVec 64

/-- Measured energy of a partition in millijoules (16 R415, ecount). UNVERIFIED, log entry 11. -/
opaque energyUsed (part tick : Nat) : BitVec 64

/-- How far a performance counter of 15 R398 went on since it was last sampled: event, instance, tick. UNVERIFIED, log entry 11. -/
opaque counter (event inst tick : Nat) : BitVec 64

/-- Byte i of a load of a service core from the register space that is not one aligned 8-byte access (16 R409 gives it no value).
DESIGN CHOICE, log entry 94. -/
opaque brokenRead (i tick : Nat) : Byte

/-- A trigger of the snapshot falls in the same cycle as the one before it (15 R403). UNVERIFIED, log entry 11. -/
opaque sameCycle (tick : Nat) : Bool

/-- Which of the instructions of an engine that can have their result now has it (08 R212). UNVERIFIED, log entry 11. -/
opaque completesFirst (tick : Nat) : Nat

/-- Busy and idle cycles of a unit for its idle/busy entry (09 R241). UNVERIFIED, log entry 11. -/
opaque busyCycles (task tick : Nat) : BitVec 32
@[inherit_doc busyCycles] opaque idleCycles (task tick : Nat) : BitVec 32

/-- Silicon stepping, form and serial number (18 R442, read only, no value given). UNVERIFIED, log entry 8. -/
opaque stepping : BitVec 4
@[inherit_doc stepping] opaque form : BitVec 1
@[inherit_doc stepping] opaque serial : BitVec 64

/-- Hottest junction and coolant inlet in degrees Celsius, and what picks each compute rail within its range (18 R439), as
measured (18 R442). Log entry 8. -/
opaque junction (tick : Nat) : BitVec 8
@[inherit_doc junction] opaque inlet (tick : Nat) : BitVec 8
@[inherit_doc junction] opaque computeRail (die tick : Nat) : BitVec 9

/-- Verification and signing of ML-DSA-44 by FIPS 204 (18 R447, R450), which the manual names and does not restate.
Log entry 12. -/
opaque mldsaVerify (key msg sig : List Byte) : Bool
@[inherit_doc mldsaVerify] opaque mldsaSign (msg : List Byte) : List Byte

/-- The device identity public key of this boot (18 R450) and the key digest fused into the device (18 R447). Log entry 12. -/
opaque identityKey : List Byte
@[inherit_doc identityKey] opaque fusedKeyDigest : List Byte

/-- The contents of the boot ROM (18 R445, R450 meas0). Log entry 12. -/
opaque bootRom : List Byte

/-- The MCTP vendor identifier that the device reports (18 R448). Log entry 12. -/
opaque vendorId : BitVec 32

/-- The origin (14 R375) that uncorrectable local-store data leaves: a local store has no physical address. Log entry 13. -/
opaque localOrigin (core off : Nat) : Nat

/-- The k.tval of a cause whose description names none (14 R361). Log entry 21. -/
opaque openTval (cause tick : Nat) : BitVec 64

/-- Byte i of an entry of the reliability log (14 R379, R380; 10 R259; 18 R441), whose fields the manual does not give: 0 an
abandoned swap of a group, 1 a granule that the scrubber found uncorrectable, 2 a trip. Log entry 10. -/
opaque logByte (kind a i : Nat) : BitVec 8

/-- The part of a semaphore's lease that is left (16 R418). Log entry 11. -/
opaque leaseLeft (lease tick : Nat) : BitVec 30

/-- What a block of the device other than the modelled core shows in a pulse record or a snapshot window (15 R396, R404; 18
R444). Log entry 38. -/
opaque otherLatch (offset tick : Nat) : BitVec 64

/-- A byte that a Beryl walk reads under a name that is not live (12 R301, R303 keep every name of a tree live). Log
entry 23. -/
opaque deadLeafByte (name : BitVec 128) (off tick : Nat) : Byte

end Sys2Proof.Config
end

