-- ==== Sys2Proof/Machine/Num.lean ====
section
/-! DEFINITION. Number formats and exact arithmetic (02_number_formats.md). A floating-point value is an exact dyadic
number, an infinity or a NaN; one function rounds it into a format. -/

namespace Sys2Proof.Machine

/-- A floating-point value: `fin s m e` is (-1)^s * m * 2^e, a signed zero when m is 0. -/
inductive FVal where
  | nan
  | inf (s : Bool)
  | fin (s : Bool) (m : Nat) (e : Int)
  deriving DecidableEq, Repr

/-- How a format uses its top exponent (R44). -/
inductive FKind where
  /-- e all ones: infinity when m = 0, else NaN. -/
  | ieee
  /-- fp8e4: only e and m all ones is NaN; there is no infinity. -/
  | e4m3
  /-- Every encoding is finite. -/
  | finite
  deriving DecidableEq, Repr

/-- A floating-point layout: exponent bits, mantissa bits, use of the top exponent (R44). -/
structure FFmt where
  E : Nat
  M : Nat
  kind : FKind
  deriving DecidableEq, Repr

def fp64 : FFmt := ⟨11, 52, .ieee⟩
def fp32 : FFmt := ⟨8, 23, .ieee⟩
def bf16 : FFmt := ⟨8, 7, .ieee⟩
def fp16 : FFmt := ⟨5, 10, .ieee⟩
def fp8e4 : FFmt := ⟨4, 3, .e4m3⟩
def fp8e5 : FFmt := ⟨5, 2, .ieee⟩
def fp6e3 : FFmt := ⟨3, 2, .finite⟩
def fp6e2 : FFmt := ⟨2, 3, .finite⟩
def fp4 : FFmt := ⟨2, 1, .finite⟩

/-- The bias column of R44. -/
def FFmt.bias (f : FFmt) : Nat := 2 ^ (f.E - 1) - 1

/-- The width in bits. -/
def FFmt.width (f : FFmt) : Nat := 1 + f.E + f.M

/-- Saturating targets of R59. -/
def FFmt.saturating (f : FFmt) : Bool := f.kind != .ieee

/-- Formats on which k.fpmode.ftz acts (R61): fp32, bf16 and fp16. -/
def FFmt.ftzApplies (f : FFmt) : Bool := f == fp32 || f == bf16 || f == fp16

/-- Largest finite magnitude, as exponent and mantissa fields (R44). -/
def FFmt.maxFinite (f : FFmt) : Nat :=
  match f.kind with
  | .ieee => (2 ^ f.E - 2) * 2 ^ f.M + (2 ^ f.M - 1)
  | .e4m3 => (2 ^ f.E - 1) * 2 ^ f.M + (2 ^ f.M - 2)
  | .finite => 2 ^ (f.E + f.M) - 1

/-- The sign bit in place. -/
def FFmt.signBit (f : FFmt) (s : Bool) : Nat := if s then 2 ^ (f.E + f.M) else 0

/-- An infinity's encoding, in the formats that have one (R44). -/
def FFmt.infBits (f : FFmt) (s : Bool) : Nat := f.signBit s + (2 ^ f.E - 1) * 2 ^ f.M

/-- The canonical NaN of R45, and +0 in a format without NaN (R59). -/
def FFmt.nanBits (f : FFmt) : Nat :=
  match f.kind with
  | .ieee => (2 ^ f.E - 1) * 2 ^ f.M + 2 ^ (f.M - 1)
  | .e4m3 => 2 ^ (f.E + f.M) - 1
  | .finite => 0

/-- The value of an encoding (R44), a subnormal read as a zero of its sign when ftz acts on the format (R61). -/
def FFmt.read (f : FFmt) (ftz : Bool) (bits : Nat) : FVal :=
  let s := bits / 2 ^ (f.E + f.M) % 2 == 1
  let e := bits / 2 ^ f.M % 2 ^ f.E
  let m := bits % 2 ^ f.M
  let top := e == 2 ^ f.E - 1
  if f.kind == .ieee && top then (if m == 0 then .inf s else .nan)
  else if f.kind == .e4m3 && top && m == 2 ^ f.M - 1 then .nan
  else if e == 0 then
    (if ftz && f.ftzApplies then .fin s 0 0 else .fin s m (1 - (f.bias : Int) - f.M))
  else .fin s (2 ^ f.M + m) ((e : Int) - f.bias - f.M)

/-- Rounding directions of k.fpmode.rm (R23). -/
inductive Rm where
  | rne | rtz | rdn | rup
  deriving DecidableEq, Repr

/-- rm of R23. -/
def Rm.ofBits (b : BitVec 2) : Rm :=
  match b.toNat with
  | 0 => .rne
  | 1 => .rtz
  | 2 => .rdn
  | _ => .rup

/-- m / 2^k rounded to an integer; s is the sign of the value. -/
def shiftRound (rm : Rm) (s : Bool) (m k : Nat) : Nat :=
  let q := m >>> k
  let r := m % 2 ^ k
  if r == 0 then q
  else
    match rm with
    | .rtz => q
    | .rdn => if s then q + 1 else q
    | .rup => if s then q else q + 1
    | .rne => if 2 * r > 2 ^ k || (2 * r == 2 ^ k && q % 2 == 1) then q + 1 else q

/-- m * 2^e in units of 2^q, rounded to an integer. -/
def unitRound (rm : Rm) (s : Bool) (m : Nat) (e q : Int) : Nat :=
  if q ≤ e then m * 2 ^ (e - q).toNat else shiftRound rm s m (q - e).toNat

/-- An encoding and whether a finite value became an infinity (R59). -/
structure Rounded where
  bits : Nat
  toInf : Bool
  deriving DecidableEq, Repr

/-- R59 for a magnitude above the largest finite one. -/
def FFmt.overflow (f : FFmt) (rm : Rm) (sat s : Bool) : Rounded :=
  let toInf := !(sat || f.saturating) &&
    (match rm with
     | .rne => true
     | .rtz => false
     | .rdn => s
     | .rup => !s)
  if toInf then ⟨f.infBits s, true⟩ else ⟨f.signBit s + f.maxFinite, false⟩

/-- R59 and R61: the encoding of a value in a format. -/
def FFmt.round (f : FFmt) (rm : Rm) (sat ftz : Bool) (v : FVal) : Rounded :=
  match v with
  | .nan => ⟨f.nanBits, false⟩
  | .inf s => if sat || f.saturating then ⟨f.signBit s + f.maxFinite, false⟩ else ⟨f.infBits s, false⟩
  | .fin s m e =>
    if m == 0 then ⟨f.signBit s, false⟩
    else
      let emin : Int := 1 - (f.bias : Int) - f.M
      let q := max ((m.log2 : Int) + e - f.M) emin
      let r := unitRound rm s m e q
      -- magnitude fields: r has at most M + 2 bits, and r = 2^M or more is normal
      let mag := if r < 2 ^ f.M then r else ((q - emin).toNat) * 2 ^ f.M + r
      if mag > f.maxFinite then f.overflow rm sat s
      else if ftz && f.ftzApplies && mag < 2 ^ f.M then ⟨f.signBit s, false⟩
      else ⟨f.signBit s + mag, false⟩

/-- rne32 of R8 under ftz: the fp32 encoding. -/
def rne32Bits (ftz : Bool) (v : FVal) : Nat := (fp32.round .rne false ftz v).bits

/-- rne32 as a value. -/
def rne32 (ftz : Bool) (v : FVal) : FVal := fp32.read false (rne32Bits ftz v)

namespace FVal

def isNan : FVal → Bool
  | .nan => true
  | _ => false

def isFinite : FVal → Bool
  | .fin _ _ _ => true
  | _ => false

def isZero : FVal → Bool
  | .fin _ m _ => m == 0
  | _ => false

def sign : FVal → Bool
  | .nan => false
  | .inf s => s
  | .fin s _ _ => s

def neg : FVal → FVal
  | .nan => .nan
  | .inf s => .inf !s
  | .fin s m e => .fin (!s) m e

def abs : FVal → FVal
  | .nan => .nan
  | .inf _ => .inf false
  | .fin _ m e => .fin false m e

/-- The signed mantissa. -/
def signed (s : Bool) (m : Nat) : Int := if s then -(m : Int) else m

/-- An integer as a value; zero is +0. -/
def ofInt (i : Int) : FVal := .fin (decide (i < 0)) i.natAbs 0

/-- A signed mantissa with the sign a zero takes. -/
def ofSigned (zeroSign : Bool) (i : Int) (e : Int) : FVal :=
  if i == 0 then .fin zeroSign 0 e else .fin (decide (i < 0)) i.natAbs e

/-- The exact sum; an exact zero sum of unlike signs is +0, or -0 when rounding toward -inf (R64, R110). -/
def add (rdn : Bool) (a b : FVal) : FVal :=
  match a, b with
  | .nan, _ => .nan
  | _, .nan => .nan
  | .inf s, .inf t => if s == t then .inf s else .nan
  | .inf s, _ => .inf s
  | _, .inf t => .inf t
  | .fin s m e, .fin t n g =>
    let q := min e g
    let i := signed s (m * 2 ^ (e - q).toNat) + signed t (n * 2 ^ (g - q).toNat)
    ofSigned (if s == t then s else rdn) i q

/-- The exact product (R110). -/
def mul (a b : FVal) : FVal :=
  match a, b with
  | .nan, _ => .nan
  | _, .nan => .nan
  | .inf s, .inf t => .inf (s != t)
  | .inf s, .fin t n _ => if n == 0 then .nan else .inf (s != t)
  | .fin s m _, .inf t => if m == 0 then .nan else .inf (s != t)
  | .fin s m e, .fin t n g => .fin (s != t) (m * n) (e + g)

/-- The quotient, with enough bits and a sticky bit for one correct rounding (R110). -/
def div (a b : FVal) : FVal :=
  match a, b with
  | .nan, _ => .nan
  | _, .nan => .nan
  | .inf _, .inf _ => .nan
  | .inf s, .fin t _ _ => .inf (s != t)
  | .fin s _ _, .inf t => .fin (s != t) 0 0
  | .fin s m e, .fin t n g =>
    if n == 0 then (if m == 0 then .nan else .inf (s != t))
    else
      let k := 192 + n.log2
      let num := m * 2 ^ k
      .fin (s != t) (2 * (num / n) + (if num % n == 0 then 0 else 1)) (e - g - k - 1)

end FVal

/-- The integer square root, found bit by bit from bit k down. -/
def isqrtBits (n : Nat) : Nat → Nat → Nat
  | 0, r => if (r + 1) * (r + 1) ≤ n then r + 1 else r
  | k + 1, r => isqrtBits n k (if (r + 2 ^ (k + 1)) * (r + 2 ^ (k + 1)) ≤ n then r + 2 ^ (k + 1) else r)

/-- The integer square root. -/
def isqrt (n : Nat) : Nat := isqrtBits n (n.log2 / 2 + 1) 0

/-- The square root with a sticky bit (R110): the root of a value below -0 is NaN, and of -0 is -0. -/
def FVal.sqrt (a : FVal) : FVal :=
  match a with
  | .nan => .nan
  | .inf s => if s then .nan else .inf false
  | .fin s m e =>
    if m == 0 then .fin s 0 0
    else if s then .nan
    else
      let k := 256 + (e % 2).toNat
      let n := m * 2 ^ k
      let r := isqrt n
      .fin false (2 * r + (if r * r == n then 0 else 1)) ((e - k) / 2 - 1)

/-- The order of two values that are not NaN: less than, with -0 equal to +0. -/
def FVal.lt (a b : FVal) : Bool :=
  match a, b with
  | .nan, _ => false
  | _, .nan => false
  | .inf s, .inf t => s && !t
  | .inf s, _ => s
  | _, .inf t => !t
  | .fin s m e, .fin t n g =>
    let q := min e g
    decide (FVal.signed s (m * 2 ^ (e - q).toNat) < FVal.signed t (n * 2 ^ (g - q).toNat))

/-- Numeric equality, with -0 equal to +0 and NaN unequal to everything. -/
def FVal.eq (a b : FVal) : Bool := !a.isNan && !b.isNan && !(a.lt b) && !(b.lt a)

/-- Less or equal. -/
def FVal.le (a b : FVal) : Bool := a.lt b || a.eq b

/-- The order of fmin, fmax, tmin, tmax and the reductions: -0 below +0 (R111, R185, R193). -/
def FVal.below (a b : FVal) : Bool := a.lt b || (a.isZero && b.isZero && a.sign && !b.sign)

/-- A value rounded to an integer (R60); infinities and NaN have none. -/
def FVal.toInt (rm : Rm) (v : FVal) : Option Int :=
  match v with
  | .fin s m e => some (FVal.signed s (unitRound rm s m e 0))
  | _ => none

/-- An integer clamped to a range. -/
def clampInt (lo hi i : Int) : Int := if i < lo then lo else if hi < i then hi else i

/-- Conversion to an integer range (R60): saturating; NaN gives 0. -/
def FVal.toRange (rm : Rm) (lo hi : Int) (v : FVal) : Int :=
  match v with
  | .nan => 0
  | .inf s => if s then lo else hi
  | .fin s m e => clampInt lo hi (FVal.signed s (unitRound rm s m e 0))

/-! Element formats (R42). -/

/-- The floating-point layout of a format code. -/
def floatOf (c : BitVec 5) : Option FFmt :=
  match c.toNat with
  | 0x01 => some fp32
  | 0x02 => some bf16
  | 0x03 => some fp16
  | 0x04 => some fp8e4
  | 0x05 => some fp8e5
  | 0x06 => some fp6e3
  | 0x07 => some fp6e2
  | 0x08 => some fp4
  | _ => none

/-- The range of an integer format code (R46). -/
def intRange (c : BitVec 5) : Option (Int × Int) :=
  match c.toNat with
  | 0x09 => some (-128, 127)
  | 0x0A => some (-8, 7)
  | 0x0C => some (-2 ^ 31, 2 ^ 31 - 1)
  | 0x0D => some (0, 255)
  | 0x0E => some (-32768, 32767)
  | 0x0F => some (0, 2 ^ 32 - 1)
  | _ => none

/-- The element width of a format code; xe4 is fp8e4 in a tile. -/
def widthOf (c : BitVec 5) : Nat :=
  match c.toNat with
  | 0x00 | 0x01 | 0x0C | 0x0F => 32
  | 0x02 | 0x03 | 0x0E => 16
  | 0x04 | 0x05 | 0x09 | 0x0B | 0x0D => 8
  | 0x06 | 0x07 => 6
  | 0x08 | 0x0A => 4
  | _ => 32

def isFloatCode (c : BitVec 5) : Bool := (floatOf c).isSome
def isIntCode (c : BitVec 5) : Bool := (intRange c).isSome

/-- A reserved code (R42). -/
def reservedCode (c : BitVec 5) : Bool := decide (0x10 ≤ c.toNat)

/-- Formats that allow block scales (R42): the floating-point formats of 8 bits or fewer, and xe4. -/
def scalesAllowed (c : BitVec 5) : Bool := (4 ≤ c.toNat && c.toNat ≤ 8) || c.toNat == 0x0B

/-- The integer that a container holds under an integer code (R12, R46). -/
def intElem (c : BitVec 5) (bits : Word32) : Int :=
  let n := bits.toNat % 2 ^ widthOf c
  match intRange c with
  | some (lo, _) => if lo < 0 && 2 ^ (widthOf c - 1) ≤ n then (n : Int) - 2 ^ widthOf c else n
  | none => n

/-- A value times a block scale (R48). -/
def applyScale (scl : Bool) (sc : Byte) (v : FVal) : FVal :=
  if !scl then v
  else if sc == 0xFF then .nan
  else
    match v with
    | .fin s m e => .fin s m (e + (sc.toNat : Int) - 127)
    | v => v

/-- The exact value of a floating-point element, scale included (R48, R61). -/
def floatElem (c : BitVec 5) (ftz scl : Bool) (sc : Byte) (bits : Word32) : FVal :=
  match floatOf c with
  | some f => applyScale scl sc (f.read ftz (bits.toNat % 2 ^ f.width))
  | none => .nan

end Sys2Proof.Machine
end

