-- ==== Sys2Proof/Machine/Mem.lean ====
section
/-! DEFINITION. Home memory as bytes by physical address (10 R255, R257), and the overlays that caches keep over it.
Memory is a list of cells in one canonical form: addresses strictly rising, no listed byte equal to the byte its address reads
as when it is not listed, which is 0 (DESIGN CHOICE, log entry 4) but for the remap entries of 10 R258, whose reset contents
the manual gives. -/

namespace Sys2Proof.Machine

/-- Home memory. -/
abbrev Mem := List Host.Cell

/-- The remap entries of 10 R258: 2^23 of two bytes. -/
def remapBase : Nat := 0x7FC0000000

/-- A remap entry at reset (10 R258): way 0 occupies the fast frame, and way w the frame of port w - 1. -/
def remapReset : Nat := 1 * 8 + 2 * 64 + 3 * 512 + 4 * 4096

/-- What an unlisted address reads as: the remap entries' reset contents (10 R258), and 0 elsewhere. DESIGN CHOICE, log entry
4: the manual gives other memory no contents at power-on. -/
def Mem.unlisted (a : Nat) : Byte :=
  if remapBase ≤ a ∧ a < remapBase + 2 ^ 24 then BitVec.ofNat 8 (remapReset / 256 ^ (a % 2)) else 0

/-- The canonical form. -/
def Mem.wf (m : Mem) : Bool :=
  match m with
  | [] => true
  | [c] => c.2 != Mem.unlisted c.1
  | c :: d :: r => c.2 != Mem.unlisted c.1 && decide (c.1 < d.1) && Mem.wf (d :: r)

/-- The byte at an address, where the list holds one. -/
def cellAt (m : List Host.Cell) (a : Nat) : Option Byte :=
  match m with
  | [] => none
  | c :: r => if c.1 == a then some c.2 else cellAt r a

/-- Reading one byte of memory. -/
def Mem.read (m : Mem) (a : Nat) : Byte := (cellAt m a).getD (Mem.unlisted a)

/-- The n bytes from an address. -/
def Mem.readBytes (m : Mem) (a n : Nat) : List Byte := (List.range n).map (fun i => m.read (a + i))

/-- Bytes placed at consecutive addresses. -/
def cellsFrom (a : Nat) (bs : List Byte) : List Host.Cell :=
  match bs with
  | [] => []
  | b :: r => (a, b) :: cellsFrom (a + 1) r

/-- Replacing the bytes from an address on, in a sorted list of cells. -/
def putCells (m : List Host.Cell) (a : Nat) (bs : List Byte) : List Host.Cell :=
  m.filter (fun c => decide (c.1 < a)) ++ cellsFrom a bs ++ m.filter (fun c => decide (a + bs.length ≤ c.1))

/-- Removing the n bytes from an address on. -/
def dropCells (m : List Host.Cell) (a n : Nat) : List Host.Cell :=
  m.filter (fun c => !(decide (a ≤ c.1) && decide (c.1 < a + n)))

/-- Writing bytes to memory keeps the canonical form: a byte that an unlisted address reads as is not listed. -/
def Mem.write (m : Mem) (a : Nat) (bs : List Byte) : Mem :=
  m.filter (fun c => decide (c.1 < a)) ++ (cellsFrom a bs).filter (fun c => c.2 != Mem.unlisted c.1)
    ++ m.filter (fun c => decide (a + bs.length ≤ c.1))

/-- A little-endian number (R3). -/
def leNat (bs : List Byte) : Nat :=
  match bs with
  | [] => 0
  | b :: r => b.toNat + 256 * leNat r

/-- The n little-endian bytes of a number (R3). -/
def leBytes (n v : Nat) : List Byte :=
  match n with
  | 0 => []
  | k + 1 => BitVec.ofNat 8 v :: leBytes k (v / 256)

/-- A little-endian word of memory. -/
def Mem.readNat (m : Mem) (a n : Nat) : Nat := leNat (m.readBytes a n)

/-- The 8-byte word at an address. -/
def Mem.read64 (m : Mem) (a : Nat) : Word64 := BitVec.ofNat 64 (m.readNat a 8)

/-- The ECC state of a 64-byte granule that is not clean (14 R374, R379). -/
inductive Granule where
  /-- A read corrects it. -/
  | correctable
  /-- Damaged beyond correction. -/
  | uncorrectable
  /-- Marked with the reserved poison pattern. -/
  | poisoned
  deriving DecidableEq, Repr

/-- Bytes of a granule of R374. -/
def granuleSize : Nat := 64

/-- The granule of a physical address. -/
def granuleOf (pa : Nat) : Nat := pa / granuleSize

/-- The 128-byte line of a physical address (10 R248). -/
def lineOf (pa : Nat) : Nat := pa / 128

/-- The granules that n bytes from an address touch. -/
def granulesOf (a n : Nat) : List Nat :=
  if n == 0 then [] else (List.range ((a + n - 1) / granuleSize - a / granuleSize + 1)).map (fun i => a / granuleSize + i)

/-- The lines that n bytes from an address touch. -/
def linesOf (a n : Nat) : List Nat :=
  if n == 0 then [] else (List.range ((a + n - 1) / 128 - a / 128 + 1)).map (fun i => a / 128 + i)

/-- Two ranges share a byte (01 R29). -/
def overlap (a n b m : Nat) : Bool := n != 0 && m != 0 && decide (a < b + m) && decide (b < a + n)

end Sys2Proof.Machine
end

