-- ==== Sys2Proof/Syntax.lean ====
section
/-! DEFINITION. The steps of the part: one constructor per row of spec/opcode_table.json. The first 172 are the
instruction words of 03_encoding_and_assembly.md, with their fields as the word formats of R70 give them. The last
100 are the events of 95_what_each_step_holds.md, which have no word: they carry what the outside world or the engine
supplies. -/

namespace Sys2Proof

/-- Who writes a device register or answers on a port (16 R417, R418). -/
inductive Source where
  /-- Control port 0 or 1 of R417. -/
  | port (n : Fin 2)
  /-- The service core of a quadrant, 0 to 7 (R408). -/
  | service (quadrant : Nat)
  deriving DecidableEq, Repr

/-- The kind of an access that is translated (R263). -/
inductive Access where
  | read | write | readWrite | fetch
  deriving DecidableEq, Repr

/-- What one member of an all-to-all group brought to the start of the exchange (R351). -/
structure A2aMember where
  /-- The member's unit ended before it issued its a2a. -/
  ended : Bool
  schedPa : Nat
  csz : Nat
  nsteps : Nat
  /-- The physical address of the member's barrier, when it named one. -/
  barrier : Option Nat
  deriving DecidableEq, Repr

/-- A contribution to a reduction object that another core issued (R353), with the partition of its unit. -/
structure Contribution where
  part : BitVec 3
  objPa : Nat
  index : Nat
  det : Bool
  /-- Its bytes; none stands for an uncorrectable one (R333). -/
  data : List (Option Byte)
  deriving DecidableEq, Repr

/-- Which contribution the collective engine applies next (R354). -/
inductive CredSource where
  /-- A contribution of this core; `accepted` is the answer of the peer that holds the object, when a peer does (R428). -/
  | own (cmd : Nat) (accepted : Bool)
  | other (c : Contribution)
  deriving DecidableEq, Repr

/-- A request that a peer device makes of this one (R425, R426). -/
inductive RemoteOp where
  | get (n : Nat)
  | put (data : List Byte)
  /-- An atomic: operation code of R84, width in bytes, operand and comparand. -/
  | atomic (op : BitVec 4) (n : Nat) (b cmp : Word64)
  /-- A cross-device contribution (R428), its bytes as in a contribution of this device. -/
  | reduce (index : Nat) (det : Bool) (data : List (Option Byte))
  deriving DecidableEq, Repr

/-- What a peer did with a part of a copy that lies in its aperture (R424, R427). -/
inductive PeerPart where
  /-- It took the bytes written, or no byte of the part lies in an aperture. -/
  | taken
  /-- It returned the bytes read; none stands for an uncorrectable byte. -/
  | read (bytes : List (Option Byte))
  /-- It refused the transfer, or it is unreachable. -/
  | failed
  deriving DecidableEq, Repr

/-- What comes back for a remote access of this core (R427). -/
inductive RemoteReply where
  /-- The value that a rget or ramo reads. -/
  | value (v : Word64)
  | ack
  | refused
  | unreachable
  | uncorrectable
  deriving DecidableEq, Repr

/-- One message event at a network interface (R238 to R240). -/
inductive MsgEvent where
  /-- A message of a unit on another core (its core, partition, launch and task) for a mailbox: of a core through send, or through
  send.u of a unit of its launch. -/
  | inbound (sender : Nat) (part : BitVec 3) (launch task : BitVec 32) (toUnit : Bool) (target : Nat) (m : BitVec 3) (value : Word64)
  /-- Message i of this core's interface reaches its target, which accepts it. -/
  | delivered (i : Nat)
  /-- Message i is refused by a full mailbox or a unit that has not started. -/
  | refused (i : Nat)
  /-- Message i finds no unit (R240). -/
  | dropped (i : Nat)
  deriving DecidableEq, Repr

/-- The engine classes of R210. -/
inductive EngineClass where
  | copy | matrix | vector
  /-- Every instruction that is not tile-class. -/
  | scalar
  deriving DecidableEq, Repr

/-- The stacking key that a tile carries (12 R319). -/
inductive StackKey where
  /-- A name key of tldb. -/
  | name (region : BitVec 4) (leaf : BitVec 128) (fmt : BitVec 5) (lbl : BitVec 3) (tr : Bool) (rext cext : Nat)
  /-- A range key of tld. -/
  | range (pa stride : Nat) (fmt : BitVec 5) (lbl : BitVec 3) (tr : Bool) (rext cext : Nat) (slotPa : Nat) (ver : BitVec 16)
  deriving DecidableEq, Repr

/-- The stacking offer that an issuing matrix instruction makes to its cluster (R320, R322). -/
structure StackOffer where
  core : Nat
  /-- Number of the instruction in its core's dispatch order. -/
  tag : Nat
  key : StackKey
  aFmt : BitVec 5
  k : Nat
  bc : Bool
  ftz : Bool
  rows : Nat
  part : Nat
  pri : Nat
  /-- Cycles that it may wait for joiners (R321). -/
  hold : Nat
  deriving DecidableEq, Repr

/-- One step of the part. -/
inductive Instr where
  -- 0x01: integer and address arithmetic (R105, R106)
  | add (d a b : BitVec 5) | sub (d a b : BitVec 5) | padd (d a b : BitVec 5) | ptag (d a b : BitVec 5)
  | and (d a b : BitVec 5) | or (d a b : BitVec 5) | xor (d a b : BitVec 5)
  | shl (d a b : BitVec 5) | shr (d a b : BitVec 5) | sar (d a b : BitVec 5)
  | min (d a b : BitVec 5) | max (d a b : BitVec 5) | minu (d a b : BitVec 5) | maxu (d a b : BitVec 5)
  | mul (d a b : BitVec 5) | mulh (d a b : BitVec 5) | mulhu (d a b : BitVec 5)
  | div (d a b : BitVec 5) | divu (d a b : BitVec 5) | rem (d a b : BitVec 5) | remu (d a b : BitVec 5)
  | popc (d a : BitVec 5) | clz (d a : BitVec 5) | ctz (d a : BitVec 5)
  | seq (d a b : BitVec 5) | sne (d a b : BitVec 5) | slt (d a b : BitVec 5) | sltu (d a b : BitVec 5)
  -- 0x02 to 0x0F: immediate forms (R107)
  | addi (d a : BitVec 5) (i : BitVec 15) | andi (d a : BitVec 5) (i : BitVec 15) | ori (d a : BitVec 5) (i : BitVec 15)
  | xori (d a : BitVec 5) (i : BitVec 15) | shli (d a : BitVec 5) (h : BitVec 6) | shri (d a : BitVec 5) (h : BitVec 6)
  | sari (d a : BitVec 5) (h : BitVec 6) | paddi (d a : BitVec 5) (i : BitVec 15) | li (d : BitVec 5) (i : BitVec 15)
  | lih (d a : BitVec 5) (i : BitVec 15) | slti (d a : BitVec 5) (i : BitVec 15) | sltiu (d a : BitVec 5) (i : BitVec 15)
  | seqi (d a : BitVec 5) (i : BitVec 15) | muli (d a : BitVec 5) (i : BitVec 15)
  -- 0x10 and 0x11: scalar floating point (R109)
  | faddS (d a b : BitVec 5) | fsubS (d a b : BitVec 5) | fmulS (d a b : BitVec 5) | fdivS (d a b : BitVec 5)
  | fminS (d a b : BitVec 5) | fmaxS (d a b : BitVec 5) | fsqrtS (d a : BitVec 5) | ffmaS (d a b : BitVec 5)
  | feqS (d a b : BitVec 5) | fltS (d a b : BitVec 5) | fleS (d a b : BitVec 5)
  | faddD (d a b : BitVec 5) | fsubD (d a b : BitVec 5) | fmulD (d a b : BitVec 5) | fdivD (d a b : BitVec 5)
  | fminD (d a b : BitVec 5) | fmaxD (d a b : BitVec 5) | fsqrtD (d a : BitVec 5) | ffmaD (d a b : BitVec 5)
  | feqD (d a b : BitVec 5) | fltD (d a b : BitVec 5) | fleD (d a b : BitVec 5)
  -- 0x12 (R113): sat, source code, target code
  | fcvt (d a : BitVec 5) (sat : BitVec 1) (src tgt : BitVec 4)
  -- 0x18 to 0x1F: control flow (R114 to R121)
  | beq (a b : BitVec 5) (o : BitVec 15) | bne (a b : BitVec 5) (o : BitVec 15)
  | blt (a b : BitVec 5) (o : BitVec 15) | bge (a b : BitVec 5) (o : BitVec 15)
  | j (o : BitVec 25) | call (o : BitVec 25)
  | rep (n1 : BitVec 4) (k1 : BitVec 8) (std sta stb stc : BitVec 2)
  | jr (a : BitVec 5) | callr (d a : BitVec 5)
  -- 0x20 to 0x23: mailboxes (R124, R227)
  | mrd (m : BitVec 3) (bt : BitVec 1) (d : BitVec 5) | mpk (m : BitVec 3) (bt : BitVec 1) (d : BitVec 5)
  | wfm (m : BitVec 3) (bt : BitVec 1) | mwr (m : BitVec 3) (b : BitVec 5)
  | send (m : BitVec 3) (a b : BitVec 5) | sendU (m : BitVec 3) (a b : BitVec 5)
  | mclr (m : BitVec 3) | mfull (d : BitVec 5)
  -- 0x24 to 0x28: scalar memory (R148)
  | ld (d a : BitVec 5) (sz : BitVec 3) (off : BitVec 12) | ldz (d a : BitVec 5) (sz : BitVec 3) (off : BitVec 12)
  | st (s a : BitVec 5) (sz : BitVec 3) (off : BitVec 12)
  | ldAcq (d a : BitVec 5) (sz : BitVec 3) (scope : BitVec 2) | stRel (s a : BitVec 5) (sz : BitVec 3) (scope : BitVec 2)
  -- 0x29 to 0x2C: atomics, fences, cache maintenance (R84 to R86)
  | amo (d a b : BitVec 5) (ord scope : BitVec 2) (sz : BitVec 1) (op : BitVec 4)
  | ared (a b : BitVec 5) (ord scope : BitVec 2) (sz : BitVec 1) (op : BitVec 4)
  | fence (scope : BitVec 2) | fenceAcq (scope : BitVec 2) | fenceRel (scope : BitVec 2)
  | xfence (src dst : BitVec 3)
  | cwbr (a b : BitVec 5) (scope : BitVec 2) | cinv (a b : BitVec 5) (scope : BitVec 2)
  -- 0x30 to 0x37: Beryl (R307)
  | bloa (d a : BitVec 5) (node : BitVec 1) (rg : BitVec 4) | bref (a : BitVec 5) (rg : BitVec 4)
  | brel (a : BitVec 5) (rg : BitVec 4) | bcas (d a b : BitVec 5) (dep : BitVec 3) | bout (d a b : BitVec 5)
  | tldb (d : BitVec 4) (a b : BitVec 5) (ai tr : BitVec 1) (hint esrc : BitVec 2) (pin : BitVec 1)
  | vpub (d a b : BitVec 5) (dep : BitVec 3) | vsw (d a : BitVec 5) | vswDrop (d : BitVec 5)
  -- 0x38 to 0x3C: tile memory (R133)
  | tld (d : BitVec 4) (a b : BitVec 5) (ai tr : BitVec 1) (hint esrc : BitVec 2) (dir half : BitVec 1)
  | tst (s : BitVec 4) (a b : BitVec 5) (ai : BitVec 1) (hint esrc : BitVec 2) (dir half : BitVec 1)
  | tldi (d : BitVec 4) (a b : BitVec 5) (ai : BitVec 1) (hint esrc : BitVec 2) (dir : BitVec 1) (ti : BitVec 4)
  | tlds (d : BitVec 4) (a b : BitVec 5) (ai tr : BitVec 1) (esrc : BitVec 2) (dir half : BitVec 1)
  | tsts (s : BitVec 4) (a b : BitVec 5) (ai : BitVec 1) (esrc : BitVec 2) (dir half : BitVec 1)
  -- 0x48 to 0x4B: matrix (R152)
  | mma (d a b c : BitVec 4) (stk bc : BitVec 1) | mmz (d a b : BitVec 4) (stk bc : BitVec 1)
  | mmg (d i b c : BitVec 4) (stk bc : BitVec 1) (hint : BitVec 2) (xp : BitVec 5)
  | tadw (d a b c : BitVec 4) (xh : BitVec 5)
  -- 0x50 to 0x5F: vector, reduction, sampling (R175)
  | tadd (d a b : BitVec 4) (w : BitVec 1) | tsub (d a b : BitVec 4) (w : BitVec 1) | tmul (d a b : BitVec 4) (w : BitVec 1)
  | tfma (d a b c : BitVec 4) (w : BitVec 1) | tmax (d a b : BitVec 4) (w : BitVec 1) | tmin (d a b : BitVec 4) (w : BitVec 1)
  | tcmp (d a b : BitVec 4) (cond : BitVec 3) | tsel (d a b c : BitVec 4)
  | tcvt (d a : BitVec 4) (sat : BitVec 1) (tgt : BitVec 5) | ttr (d a : BitVec 4)
  | tred (d a : BitVec 4) (d64 dst : BitVec 1) (op : BitVec 3) (axis : BitVec 2)
  | tsfu (d a : BitVec 4) (fn : BitVec 3)
  | tbcRow (d a b : BitVec 4) | tbcCol (d a b : BitVec 4) | tbcEl (d a b : BitVec 4) | tbcX (d b : BitVec 4) (xs : BitVec 5)
  | tsc (d a : BitVec 4) (tgt : BitVec 5) | tnf (d a : BitVec 4) (dst : BitVec 1) | smpl (m : BitVec 3) (a : BitVec 4) (xs : BitVec 5)
  -- 0x60 to 0x69: engines, streams, barriers (R338 to R356)
  | bcp (d a b : BitVec 5) | bcpLd (d a b : BitVec 5) | bcpSt (d a b : BitVec 5)
  | sbind (q : BitVec 2) (a b : BitVec 5) (esz : BitVec 2) | qrd (q : BitVec 2) (bt : BitVec 1) (d : BitVec 5)
  | sunbind (q : BitVec 2) | qavail (q : BitVec 2) (d : BitVec 5)
  | barExp (a b : BitVec 5) | barExpArr (a b : BitVec 5) | barArr (a : BitVec 5) | barInit (a b : BitVec 5)
  | barDrop (a : BitVec 5) | barWait (d a b : BitVec 5) | barTest (d a : BitVec 5)
  | a2aCl (d a b : BitVec 5) | a2aQ (d a b : BitVec 5) | cred (d a b : BitVec 5) | credLs (d a b : BitVec 5)
  | ofldOut (d a b : BitVec 5) | ofldIn (d a b : BitVec 5)
  -- 0x6A to 0x6C: remote (R426)
  | rget (d a : BitVec 5) (acq : BitVec 1) (sz : BitVec 2) | rput (a b : BitVec 5) (rel : BitVec 1) (sz : BitVec 2)
  | ramo (d a b : BitVec 5) (ord : BitVec 2) (sz : BitVec 1) (op : BitVec 4)
  -- 0x70 to 0x76: launches (R227)
  | larm (d a : BitVec 5) | lpat (a b : BitVec 5) (width : BitVec 2) (off : BitVec 4) | cncl (d a : BitVec 5) (level : BitVec 3)
  | trig | draw (d : BitVec 5) | smrg (d : BitVec 4) (op : BitVec 2) (xp : BitVec 5) | exit
  -- 0x78 to 0x7D: system (R369, R270)
  | trap (code : BitVec 15) | sret | kget (d : BitVec 5) (k : BitVec 15) | kset (a : BitVec 5) (k : BitVec 15)
  | brk | halt | spt (a : BitVec 5) | tlbiAll | tlbiVa (a : BitVec 5) | tlbiBlk (a : BitVec 5) (n : BitVec 7)
  -- events: Beryl (R302, R317)
  | pinEntryRelease (entry : Nat) | blockReclaim (quadrant : Nat)
  -- events: engines (R343 to R357); cmd is the command's number in the core's list
  | bcpChunkDelivery (cmd off len : Nat) (peer : PeerPart) | streamElementFill (q : BitVec 2)
  | a2aExchangeStart (cmd : Nat) (members : List A2aMember) | a2aStep (cmd : Nat) (incoming : List (Option Byte))
  | credSourceRead (cmd : Nat) | credContribution (c : CredSource)
  | ofldPageCompletion (cmd page status : Nat) (data : List Byte) | ofldTimeout (cmd page : Nat)
  -- events: peers (R425 to R427)
  | rputSend | inboundRemoteRequest (dev part pa : Nat) (op : RemoteOp) | remoteResponse (va task launch : Nat) (r : RemoteReply)
  -- events: inside the core (chapter 08, R27, R292, R322, R323)
  | instructionFetch (va : BitVec 56) | dispatch (c : EngineClass) (tiles scalars : Nat) | issue (c : EngineClass) (offer : Option StackOffer)
  | pageWalk (va : BitVec 56) (acc : Access) | engineCompletion (engine : Nat) | retirement | storePerformed | aredPerform
  | stackHoldExpiry (entry : Nat) | stackedOperationIssue (entry : Nat)
  -- events: traps (R362, R364, R365)
  | trapEntry (cause : BitVec 6) (inFetch : Bool) (epc : BitVec 56) (tval : Word64)
  | reportAndSuspend (cause : BitVec 6) (inFetch : Bool) (epc : BitVec 56) (tval : Word64) (paddr : Nat)
  | heldFaultRecordWrite (p : Fin 8)
  -- events: dispatcher (R217, R231, R232, R238, R243)
  | unitStart (p : Fin 8) (core : Nat) | timeSlicePreemption (p : Fin 8) (task : BitVec 32) | unitEnd (p : Fin 8) (task : BitVec 32)
  | launchCompletion (p : Fin 8) (launch : BitVec 32) | heldEventRecordWrite (p : Fin 8) | eventRingTimeout (p : Fin 8)
  | messageArrival (e : MsgEvent) | messageRetry (i : Nat)
  -- events: spill engine (R382 to R391)
  | eviction (p : Fin 8) (task : BitVec 32) (slot : Nat) | restoration (p : Fin 8) (slot : Nat) (core : Nat)
  | migration (dest : Nat) | forwardingEntryExpiry (task : BitVec 32)
  -- events: memory system (R259, R379, R406, R407, R417)
  | pageSwap (group way : Nat) (portError : Bool) | patrolScrubRead (granule : Nat) | scrubWriteback (granule : Nat)
  | l2mapAdoption (slice : Nat) | lineHandoff (line : Nat) | requestRedirect
  | hostMemoryAccess (pa : Nat) (data : List Byte)
  -- events: submission rings and partition registers (R410 to R422)
  | submissionRecordCopy (p k : Fin 8) | stailWrite (p k : Fin 8) (v : BitVec 32) | srst (p k : Fin 8)
  | qmask (src : Source) (p : Fin 8) (mask : BitVec 8) (en : Bool) | qpark (src : Source) (p : Fin 8) (park deep : BitVec 8)
  | quadrantParked (p q : Fin 8) | quadrantUnparked (p q : Fin 8)
  | resume (p : Fin 8) (task : BitVec 32) (action : BitVec 1) | evict (p : Fin 8) (task : BitVec 32) | close (p : Fin 8)
  -- events: breakpoints (R400) and plain registers (R410)
  | bkpt (viaPart : Option (Fin 8)) (slot : Fin 8) (word : Fin 4) (v : Word64) | breakpointSlotActivation (slot : Fin 8)
  | matchClear (mask : BitVec 8) | hitsClear (slot : Fin 8) | registerWrite (src : Source) (addr : Nat) (v : Word64)
  -- events: energy, memory clock, semaphore, links (R415 to R423)
  | energyIntervalStart (p : Fin 8) | req (src : Source) (point : BitVec 2) (wlim : BitVec 32) | hbmPointChange | waitLimitExpiry
  | semaphoreAcquire (src : Source) (owner : BitVec 16) (lease : BitVec 30) | semaphoreRelease (owner : BitVec 16)
  | semaphoreRenew (owner : BitVec 16) (lease : BitVec 30) | semaphoreClearGerr | leaseExpiry
  | deviceNumber (src : Source) (n : BitVec 3) | linkUp (l : Fin 12) (far : BitVec 3) | linkDown (l : Fin 12) | flitCrcRetry (l : Fin 12)
  -- events: observation (R395 to R403)
  | now | pulsePeriod | counterSample | ringBaseSize (sampler : Bool) (base : Nat) (size : BitVec 32)
  | arm (onseq onbrk onmc : Bool) (seqMatch : BitVec 32) | fire | snapshotLatch
  -- events: power, management, boot, attestation (R438 to R450)
  | clklim (mhz : BitVec 12) | plim (watts : BitVec 11) | thermalCeilingStep (celsius : Nat) | powerCeilingStep (milliwatts : Nat) | trip
  | go (abuf : Nat) | attestationReport | lock | bann (src : Source) (mask : BitVec 16) | powerOnReset
  | identify | readRegister (off : BitVec 16) | readLog (index : BitVec 16) | state
  | raiseMinimum (minimum : Word64) (key sig : List Byte) | writeFlash (slot : Fin 2) (off : BitVec 32) (data : List Byte)
  | eraseSlot (slot : Fin 2) | getVendorDefinedMessageSupport
  | cxlPortDown (port : Fin 4) | lostLink (port : Fin 4)
  deriving DecidableEq, Repr

/-- The constructor stands for an instruction word (and not for an event). -/
def Instr.isWord : Instr → Bool
  | .pinEntryRelease _ | .blockReclaim _ | .bcpChunkDelivery _ _ _ _ | .streamElementFill _ | .a2aExchangeStart _ _
  | .a2aStep _ _ | .credSourceRead _ | .credContribution _ | .ofldPageCompletion _ _ _ _ | .ofldTimeout _ _
  | .rputSend | .inboundRemoteRequest _ _ _ _ | .remoteResponse _ _ _ _ | .instructionFetch _ | .dispatch _ _ _
  | .issue _ _ | .pageWalk _ _ | .engineCompletion _ | .retirement | .storePerformed | .aredPerform
  | .stackHoldExpiry _ | .stackedOperationIssue _ | .trapEntry _ _ _ _ | .reportAndSuspend _ _ _ _ _
  | .heldFaultRecordWrite _ | .unitStart _ _ | .timeSlicePreemption _ _ | .unitEnd _ _ | .launchCompletion _ _
  | .heldEventRecordWrite _ | .eventRingTimeout _ | .messageArrival _ | .messageRetry _ | .eviction _ _ _
  | .restoration _ _ _ | .migration _ | .forwardingEntryExpiry _ | .pageSwap _ _ _ | .patrolScrubRead _
  | .scrubWriteback _ | .l2mapAdoption _ | .lineHandoff _ | .requestRedirect | .hostMemoryAccess _ _
  | .submissionRecordCopy _ _ | .stailWrite _ _ _ | .srst _ _ | .qmask _ _ _ _ | .qpark _ _ _ _
  | .quadrantParked _ _ | .quadrantUnparked _ _ | .resume _ _ _ | .evict _ _ | .close _ | .bkpt _ _ _ _
  | .breakpointSlotActivation _ | .matchClear _ | .hitsClear _ | .registerWrite _ _ _ | .energyIntervalStart _
  | .req _ _ _ | .hbmPointChange | .waitLimitExpiry | .semaphoreAcquire _ _ _ | .semaphoreRelease _
  | .semaphoreRenew _ _ | .semaphoreClearGerr | .leaseExpiry | .deviceNumber _ _ | .linkUp _ _ | .linkDown _
  | .flitCrcRetry _ | .now | .pulsePeriod | .counterSample | .ringBaseSize _ _ _ | .arm _ _ _ _ | .fire
  | .snapshotLatch | .clklim _ | .plim _ | .thermalCeilingStep _ | .powerCeilingStep _ | .trip | .go _
  | .attestationReport | .lock | .bann _ _ | .powerOnReset | .identify | .readRegister _ | .readLog _ | .state
  | .raiseMinimum _ _ _ | .writeFlash _ _ _ | .eraseSlot _ | .getVendorDefinedMessageSupport | .cxlPortDown _
  | .lostLink _ => false
  | _ => true

end Sys2Proof
end

