-- ==== Sys2Proof/Machine/State.lean ====
section
/-! DEFINITION. The state of the machine: everything the manual names, as plain data. One NPU core is modelled in full
with its unit (DESIGN CHOICE, log entry 2); the dispatchers, the Beryl services, the engines, the observation, control
and management registers and memory are those of the whole device. The agenda holds what the outside world and the
engines do next, in order (DESIGN CHOICE, log entry 1). -/

namespace Sys2Proof.Machine

/-! The unit (chapter 01). -/

/-- A tile register (01 R12, R13): the elements inside its extents, and its tag. Elements outside the extents read as
zero (R15), so they are not stored. -/
structure Tile where
  fmt : BitVec 5
  rext : Nat
  cext : Nat
  scl : Bool
  /-- rext rows of cext containers. -/
  rows : List (List Word32)
  /-- One scale byte a row. -/
  scale : List Byte
  poison : BitVec 32
  /-- 14 R375. -/
  origin : Nat
  key : Option StackKey
  /-- 08 R205: false is the null mapping. -/
  mapped : Bool
  deriving DecidableEq, Repr

/-- The null tile of 08 R205, the reset value of 01 R10. -/
def Tile.null : Tile := ⟨0, 0, 0, false, [], [], 0, 0, none, false⟩

/-- A mailbox register (01 R17). -/
structure Mbox where
  val : Word64
  full : Bool
  deriving DecidableEq, Repr

/-- Consecutive bytes of physical memory. -/
structure Run where
  pa : Nat
  len : Nat
  deriving DecidableEq, Repr

/-- What a bound stream holds beside its saved fields (13 R332, R347; 14 R384). -/
structure StreamData where
  /-- Translations of the whole source. -/
  runs : List Run
  /-- The virtual pages that they use (10 R271), each with log2 of its size. -/
  pages : List (Nat × Nat)
  /-- Elements in the ring that were read as uncorrectable, by index, with their virtual addresses. -/
  bad : List (Nat × Nat)
  /-- The first virtual address of the source. -/
  base : Nat
  /-- The number that the core's next detached command took when the stream was bound (13 R331). -/
  order : Nat
  deriving DecidableEq, Repr

/-- A stream register (13 R346, 14 R384). -/
structure Stream where
  bound : Bool
  esz : BitVec 2
  /-- Virtual address of the next unfetched element. -/
  addr : BitVec 56
  count : BitVec 32
  next : BitVec 32
  lsbase : BitVec 19
  lsz : BitVec 4
  /-- Elements in the ring not yet read. -/
  arrived : BitVec 32
  data : StreamData
  deriving DecidableEq, Repr

/-- An unbound stream register. -/
def Stream.unbound : Stream := ⟨false, 0, 0, 0, 0, 0, 0, 0, ⟨[], [], [], 0, 0⟩⟩

/-- The identity registers of 01 R19 that the dispatcher writes; id.core is the core's own number and id.ver is read
from k.vpin. -/
structure Ident where
  unit : BitVec 32
  launch : BitVec 32
  task : BitVec 32
  org0 : BitVec 32
  org1 : BitVec 32
  ext0 : BitVec 32
  ext1 : BitVec 32
  slice : BitVec 32
  nslice : BitVec 32
  part : BitVec 3
  deriving DecidableEq, Repr

/-- The control registers of a unit (01 R20); k.l2map is the device's. -/
structure KRegs where
  status : Word64
  fpmode : Word64
  sticky : Word64
  repst : Word64
  repbase : Word64
  vpin : Word64
  stkhold : Word64
  tvec : Word64
  tcause : Word64
  epc : Word64
  tval : Word64
  tdeleg : Word64
  deriving DecidableEq, Repr

/-- The context of a unit (01 R10). -/
structure UnitCtx where
  x : Vector Word64 32
  t : Vector Tile 16
  m : Vector Mbox 8
  q : Vector Stream 4
  ident : Ident
  k : KRegs
  pc : BitVec 56
  /-- The unit has triggered (09 R230). -/
  trig : Bool
  deriving DecidableEq, Repr

/-! The core (chapters 08, 10, 13, 14). -/

/-- What the oldest instruction waits for (15 R396). -/
inductive WaitKind where
  | none
  /-- A mailbox instruction waits (01 R36). -/
  | mailbox
  | barrier
  | stream
  /-- The network interface is full (09 R237). -/
  | network
  /-- The limit of 13 R330. -/
  | engine
  /-- Any other wait at the head of the reorder buffer, which the sampler shows as running. -/
  | other
  deriving DecidableEq, Repr

/-- What the record of a suspension holds (14 R364, R365), which a resume request uses (R366). -/
structure Suspension where
  cause : BitVec 6
  inFetch : Bool
  nested : Bool
  tval : Word64
  paddr : Nat
  deriving DecidableEq, Repr

/-- A suspension on another core: also the level, the address and k.repst of its record, and whether the unit's k.tvec is 0 (14 R365,
R366). -/
structure FarSuspension where
  susp : Suspension
  pl : BitVec 2
  epc : BitVec 56
  repst : Word64
  noHandler : Bool
  deriving DecidableEq, Repr

/-- The run state of the core (15 R396). -/
inductive RunState where
  | idle
  | running
  /-- Report and suspend (14 R364). -/
  | suspended (r : Suspension)
  /-- Stopped for the debugger, and parked (14 R381; 15 R402). -/
  | stopped
  /-- The unit's exit has retired and R231 has not yet let the unit end. -/
  | exited
  /-- 14 R373, and a trap at firmware level (R360). -/
  | halted
  deriving DecidableEq, Repr

/-- The path classes of 00_scope.md. -/
inductive Path where
  | c | y | l | f | h
  deriving DecidableEq, Repr

/-- What an entry of the unit's stores in program order does when it is performed (01 R27, 08 R213). -/
inductive SbKind where
  /-- A scalar store. -/
  | scalar
  /-- A release store with its scope (11 R289). -/
  | release (scope : BitVec 2)
  /-- A tile store: it takes no store-buffer entry. -/
  | tile
  /-- A posted reduction (11 R292). -/
  | ared (op : BitVec 4) (n : Nat) (operand : Word64) (rel : Bool) (scope : BitVec 2)
  /-- A remote write (16 R426). -/
  | rput (rel : Bool)
  /-- The leaves of a tree (12 R313): region, root, depth, first leaf, count. -/
  | bout (region : BitVec 4) (root : BitVec 128) (depth first count : Nat)
  deriving DecidableEq, Repr

/-- One retired store that is not yet performed. -/
structure SbEntry where
  kind : SbKind
  /-- The virtual range of 01 R29. -/
  va : Nat
  len : Nat
  /-- Bytes to write on cacheable pages, by physical address. -/
  writes : List (Nat × List Byte)
  /-- Bytes to write on uncached and device pages (10 R264). -/
  raw : List (Nat × List Byte)
  /-- The destination runs of a bout. -/
  runs : List Run
  /-- Every byte is cacheable (attribute 0). -/
  cached : Bool
  /-- Some byte lies on a device page (attribute 2). -/
  device : Bool
  /-- Granules that poisoned rows reach (05 R141). -/
  poison : List Nat
  part : BitVec 3
  task : BitVec 32
  launch : BitVec 32
  /-- The cache hint of a tile store (05 R139). -/
  hint : BitVec 2 := 0
  deriving DecidableEq, Repr

/-- A message that the network interface holds (09 R237). -/
structure Msg where
  /-- The target core, or for send.u the unit. -/
  toUnit : Bool
  target : Nat
  mbox : BitVec 3
  value : Word64
  part : BitVec 3
  launch : BitVec 32
  task : BitVec 32
  refused : Bool
  deriving DecidableEq, Repr

/-- Where an operand of a detached command lies. -/
inductive Place where
  | mem (runs : List Run)
  | ls (off : Nat)
  deriving DecidableEq, Repr

/-- The detached commands (13 R329). -/
inductive CmdKind where
  /-- bcp: the destination's virtual address fixes its chunks; `done` holds the parts already counted. -/
  | bcp (src dst : Place) (dstVa len : Nat) (done : List (Nat × Nat))
  /-- a2a: `started` holds the schedule words once the exchange has started; `step` counts finished steps. -/
  | a2a (quad : Bool) (sched : List Run) (sbase dbase csz nsteps : Nat) (started : Option (List Nat)) (step : Nat)
  /-- cred: the contribution's bytes once its source has been read; none stands for an uncorrectable one (13 R333). -/
  | cred (obj : Nat) (src : Place) (index : Nat) (nelem : Nat) (data : Option (List (Option Byte)))
  /-- ofld: `issued` pages have been given to the drive, in ascending order; those that succeeded, and those that failed
  with their NVMe status. -/
  | ofld (out : Bool) (drive : Nat) (lba : Nat) (memory : List Run) (npages issued : Nat) (ok : List Nat)
      (failed : List (Nat × Nat))
  deriving DecidableEq, Repr

/-- A detached command in flight. -/
structure Cmd where
  id : Nat
  kind : CmdKind
  barrier : Option Nat
  part : BitVec 3
  task : BitVec 32
  launch : BitVec 32
  det : Bool
  /-- The virtual pages whose translations it uses (10 R271), each with log2 of its size. -/
  vpages : List (Nat × Nat)
  /-- For bcp: parts that are written and not yet counted, each with whether it failed (13 R343, R344). -/
  moved : List ((Nat × Nat) × Bool)
  /-- For bcp: source bytes that were read with their 16-byte granule and are not yet written, by offset; none for an uncorrectable one
  (11 R273). -/
  held : List (Nat × Option Byte) := []
  deriving DecidableEq, Repr

/-- The L1 data cache of the core (10 R244 to R246): the 32-byte sectors that are valid, bytes written and not yet at the home,
bytes of valid sectors that differ from the home, and granules whose dirty data is poisoned. The sectors stand in the order of their
retention (05 R139), highest first. -/
structure L1 where
  sectors : List Nat
  dirty : List Host.Cell
  stale : List Host.Cell
  poison : List Nat
  fused : Bool
  /-- Sectors with the bytes of a fill that its home performed before a later write of the line, and that has not arrived (13 R344 case 4). -/
  late : List (Nat × List Byte)
  deriving DecidableEq, Repr

/-- A translation that a TLB holds (10 R265): a range of consecutive pages of one size. -/
structure TlbEntry where
  part : BitVec 3
  /-- The first virtual address. -/
  vbase : Nat
  /-- log2 of the page size. -/
  size : Nat
  /-- The leaf entry of the first page (R262). -/
  pte : Word64
  /-- Pages in the range, 1 to 16. -/
  pages : Nat
  /-- The line of the leaf table that the walk read: the virtual address of the page of its first entry, and its 16 entries. -/
  line : Nat × List Word64
  deriving DecidableEq, Repr

/-- A request to a peer that the oldest instruction waits for (16 R426). -/
structure RemoteReq where
  va : Nat
  pa : Nat
  op : RemoteOp
  deriving DecidableEq, Repr

/-- Why an eviction is requested (14 R381). -/
inductive EvictSource where
  | slice | priority | parking | debug | supervisor | coreNeed
  /-- With a unit of its concurrent launch that stops for the debugger (15 R402). -/
  | mate
  deriving DecidableEq, Repr

/-- A forwarding entry (14 R391): the unit that left, its new core, and whether its context is installed there. -/
structure Forward where
  part : BitVec 3
  task : BitVec 32
  core : Nat
  installed : Bool
  deriving DecidableEq, Repr

/-- An entry of the reorder buffer (08 R203 to R214). -/
structure RobEntry where
  /-- Number in dispatch order. -/
  tag : Nat
  pc : BitVec 56
  /-- The word, staggered when a frame supplies it (R214). -/
  instr : Instr
  /-- Iteration and position of a captured execution (R214). -/
  at_ : Option (Nat × Nat)
  /-- The address predicted to come next (R204). -/
  next : BitVec 56
  /-- The engine that it issued to (R210). -/
  engine : Option Nat
  /-- The merge buffer entry that it waits in (12 R320). -/
  stacked : Option Nat
  complete : Bool
  /-- The checks of a complete instruction's result found it wrong twice, in this lowest row (06 R172). -/
  wrong : Option Nat
  deriving DecidableEq, Repr

/-- The front end (08 R202, R204): words decoded and not yet dispatched, with the address predicted after each, and the
predictors. -/
structure Front where
  decoded : List (BitVec 56 × Instr × BitVec 56)
  /-- Branch history: the predicted direction by address. -/
  history : List (Nat × Bool)
  returns : List (BitVec 56)
  targets : List (Nat × BitVec 56)
  nextTag : Nat
  deriving DecidableEq, Repr

/-- What the next checksum or residue check of the matrix engine finds (06 R172). -/
inductive Mismatch where
  /-- One mismatch, which the rerun corrects. -/
  | once
  /-- The rerun mismatches too, in this lowest result row. -/
  | twice (row : Nat)
  deriving DecidableEq, Repr

/-- An open or dispatched entry of the cluster's merge buffer (12 R320). -/
structure MergeEntry where
  id : Nat
  offers : List StackOffer
  dispatched : Bool
  deriving DecidableEq, Repr

/-- The core. -/
structure Core where
  unit : UnitCtx
  run : RunState
  wait : WaitKind
  /-- 15 R401: exempt from instruction breakpoints. -/
  exempt : Bool
  num : BitVec 7
  /-- The core is the service core of this quadrant (16 R408). -/
  service : Option (BitVec 3)
  /-- The words that rep captured (01 R37); empty until they are fetched again. -/
  frame : List Instr
  sb : List SbEntry
  net : List Msg
  cmds : List Cmd
  nextCmd : Nat
  /-- The 512 KiB local store (10 R247). -/
  ls : Mem
  lsPoison : List Nat
  lsPart : Option (BitVec 3)
  /-- The unit, by partition and task, that holds the local store (14 R385). -/
  lsHolder : Option (BitVec 3 × BitVec 32)
  l1 : L1
  /-- Lines with a home write whose invalidation is not complete, and its path (10 R249). -/
  invals : List (Nat × Path)
  tlb : List TlbEntry
  /-- Remote writes sent and not yet acknowledged (16 R426). -/
  unacked : List SbEntry
  remote : Option RemoteReq
  reply : Option RemoteReply
  evictReq : Option EvictSource
  /-- The unit stands at a safe point for its eviction, with this live-tile mask (14 R389). -/
  safe : Option (BitVec 16)
  /-- Pin entries whose holder count falls when the walks under them end (12 R315). -/
  oldPins : List Nat
  /-- Forwarding entries (14 R391). -/
  forward : List Forward
  front : Front
  rob : List RobEntry
  /-- Engines inside the occupancy of an instruction (08 R210). -/
  busy : List Nat
  /-- Lines of the L1 instruction cache with their bytes (08 R202). -/
  icache : List (Nat × List Byte)
  /-- Scalar registers that cannot be corrected (14 R374). -/
  badX : List (BitVec 5)
  mismatch : Option Mismatch
  /-- Mismatches that a rerun corrected (14 R378). -/
  reruns : Word64
  retired : Word64
  retiredTile : Word64
  deriving DecidableEq, Repr

/-! The partitions (chapters 09, 14, 16). -/

/-- The state of a launch (09 R225). -/
inductive LaunchPhase where
  | armed (remaining : Nat)
  | ready
  | running
  deriving DecidableEq, Repr

/-- Where a unit that has started stands. -/
inductive UnitWhere where
  /-- Resident on the modelled core. -/
  | here
  | elsewhere (core : Nat)
  /-- In a save slot (14 R383). -/
  | saved (slot : Nat)
  /-- Exited but not yet ended (09 R231). -/
  | exiting (core : Nat)
  | ended (cancelled : Bool)
  deriving DecidableEq, Repr

/-- The dispatcher's record of a unit that has started or been cancelled. -/
structure UnitRec where
  u : Nat
  place : UnitWhere
  triggered : Bool
  drawn : Nat
  core : Nat
  /-- The pin table entry of a unit on another core (12 R318). -/
  pin : Option Nat
  /-- A unit on another core is suspended (14 R364). -/
  susp : Option FarSuspension
  /-- A unit on another core is stopped for the debugger (15 R402). -/
  stopped : Bool
  /-- A unit on another core was resumed there by R366 and has executed nothing since (15 R401). -/
  exempt : Bool
  deriving DecidableEq, Repr

/-- The record of a unit that starts. -/
def UnitRec.start (u : Nat) (place : UnitWhere) (core : Nat) : UnitRec := ⟨u, place, false, 0, core, none, none, false, false⟩

/-- A live launch (09 R221). -/
structure Launch where
  id : BitVec 32
  /-- The pool entry it was armed from; none when it was submitted. -/
  entry : Option Nat
  /-- The copied record: sixteen 8-byte words. -/
  words : List Word64
  phase : LaunchPhase
  /-- Order in which launches became ready. -/
  readySeq : Nat
  admitted : Bool
  units : List UnitRec
  /-- Lowest unit index not yet looked at for starting. -/
  nextUnit : Nat
  /-- Slices left to draw (09 R226). -/
  remaining : Nat
  released : Bool
  partialEnd : Bool
  cancelled : Bool
  nfault : Nat
  fcause : BitVec 6
  ftask : BitVec 32
  /-- Tasks of the units that the count holds (09 R242). -/
  faulty : List (BitVec 32)
  /-- The slice that is home to the hot range, when it translates (09 R233). -/
  hot : Option Nat
  /-- Cores that a time slice has freed for the launch's unstarted units (09 R232). -/
  turns : List Nat
  /-- The translations of ccaddr and ibt that the dispatcher keeps (09 R220): 4 KiB block, physical address, log2 of the
  page size. -/
  xlat : List (Nat × Nat × Nat)
  deriving DecidableEq, Repr

/-- A round of the deficit scheme at one priority (09 R232). -/
structure Round where
  pri : Nat
  current : Nat
  visited : List Nat
  deriving DecidableEq, Repr

/-- A unit in a save slot. -/
structure SavedUnit where
  slot : Nat
  task : BitVec 32
  launch : BitVec 32
  /-- Suspended with this record (14 R364). -/
  susp : Option Suspension
  /-- A debug stop (15 R402). -/
  stopped : Bool
  /-- Resumed by R366 and not yet restored: its first instruction is exempt from breakpoints (15 R401). -/
  exempt : Bool
  /-- What its paused streams hold. -/
  streams : List StreamData
  /-- The pin table entry that it holds (12 R318). -/
  pin : Option Nat
  /-- The slot holds its context: that of a unit of another core arrives when that core has saved it. -/
  image : Bool
  /-- The other core that holds its local store, and what it holds (14 R385). -/
  far : Option (Nat × Mem)
  /-- What its suspension on another core recorded, until its context is in the slot (14 R366). -/
  noted : Option FarSuspension
  /-- Its handler is to be entered once its context is in the slot (14 R366). -/
  enter : Option Suspension
  deriving DecidableEq, Repr

/-- A submission ring (16 R410). -/
structure Ring where
  sbase : Word64
  slog : BitVec 4
  sen : Bool
  ovr : Bool
  shead : BitVec 32
  stail : BitVec 32
  deriving DecidableEq, Repr

/-- A drive of the table of 13 R355. -/
structure Drive where
  dv : Bool
  dport : BitVec 2
  dctl : BitVec 16
  nsid : BitVec 32
  deriving DecidableEq, Repr

/-- An inbound window (16 R425): its two words. -/
structure Window where
  ctl : Word64
  len : Word64
  deriving DecidableEq, Repr

/-- A partition: its register block (16 R410) and its dispatcher. -/
structure Part where
  qmask : BitVec 8
  en : Bool
  pmode : Bool
  irq : BitVec 2
  qpark : BitVec 8
  qdeep : BitVec 8
  qstate : BitVec 8
  qshal : BitVec 8
  troot : Word64
  tvecdef : Word64
  tdlgdef : Word64
  poolbase : Word64
  poolsize : Word64
  evbase : Word64
  evlog : Word64
  evhead : BitVec 32
  evtail : BitVec 32
  coal : BitVec 16
  tmo : BitVec 32
  fbase : Word64
  flog : Word64
  fhead : BitVec 32
  ftail : BitVec 32
  savebase : Word64
  savecnt : Word64
  lsbase : Word64
  budget : Word64
  intvl : Word64
  /-- The energy counted when the count was last brought up to date (16 R415; log entry 11). -/
  ecount : Word64
  /-- budget has been written: intervals run (16 R415). -/
  budgetSet : Bool
  eremain : Word64
  closing : Bool
  /-- cncl.job has cancelled the current job (09 R229; 16 R414). -/
  jobCancel : Bool
  jobcnt : Word64
  rings : Vector Ring 8
  drives : Vector Drive 16
  windows : Vector Window 8
  /-- Pending counts of IDLE pool entries (09 R225), by entry; an unlisted entry has 0. -/
  pending : List (Nat × Nat)
  nextId : BitVec 32
  launches : List Launch
  /-- Ended launches whose record is not yet written: their task ranges are still taken (09 R221). -/
  unwritten : List (BitVec 32 × Nat × Nat)
  nextReady : Nat
  /-- Graphs (level 2) and phases (level 3) whose ending launch has ended, with its status (09 R452). -/
  endings : List (Nat × Nat × BitVec 8)
  deficits : List (Nat × Nat × Int)
  rounds : List Round
  /-- The concurrent launch that reserves every core that becomes free (09 R233). -/
  reserve : Option (BitVec 32)
  /-- Records that wait for room, oldest first, as 8-byte words (09 R243, 14 R365); a completion record has no time yet. -/
  heldEvents : List (List Word64)
  heldFaults : List (List Word64)
  /-- Records written since the last interrupt, interrupts raised (09 R243), and those of them that went to each port (16 R410). -/
  sinceIrq : Nat
  irqs : Nat
  portIrqs : Vector Nat 2
  saved : List SavedUnit
  /-- Eviction requests of units that run on other cores (14 R381). -/
  evictReqs : List (BitVec 32 × EvictSource)
  /-- Held for a change of memory clock (16 R416). -/
  held : Bool
  deriving DecidableEq, Repr

/-! Beryl (chapter 12). -/

/-- A region descriptor in force (12 R296). -/
structure Region where
  v : Bool
  pmask : BitVec 8
  share : BitVec 8
  salt : Word64
  pool : Nat
  nblk : Nat
  deriving DecidableEq, Repr

/-- A live block (12 R298 to R302). Its contents lie in memory at pool + 2,048 * index. -/
structure Block where
  region : BitVec 4
  index : Nat
  name : BitVec 128
  node : Bool
  /-- One count a partition. -/
  counts : List Nat
  /-- The partition that allocated it: a node's references on its children are counted there (12 R301). -/
  part : BitVec 3
  queued : Bool
  deriving DecidableEq, Repr

/-- A pin table entry (12 R317). -/
structure Pin where
  entry : Nat
  part : BitVec 3
  slotPa : Nat
  ver : BitVec 16
  root : BitVec 128
  depth : Nat
  region : BitVec 4
  holders : Nat
  deriving DecidableEq, Repr

/-- The Beryl services. -/
structure Beryl where
  regions : Vector Region 16
  blocks : List Block
  /-- Blocks queued for the reclaimers, oldest first (12 R302). -/
  queue : List (BitVec 4 × BitVec 128)
  pins : List Pin
  /-- Name keys of the leaf cache, most recently used first (12 R324). -/
  leafCache : List StackKey
  deriving DecidableEq, Repr

/-! The device (chapters 10, 14 to 16, 18). -/

/-- The interleave table (10 R250): the register, each slice's generation, and a switch in progress. -/
structure L2Map where
  reg : Word64
  /-- The table that the register's generation selects: eight pairs of words (R251); empty under the boot map. -/
  entries : List (Word64 × Word64)
  slices : Vector (BitVec 4) 32
  switching : Option (Word64 × List (Word64 × Word64))
  /-- Lines whose handoff to their new home is not complete, with their directory entries (16 R407). -/
  handoffs : List (Nat × BitVec 32)
  /-- The generation that the modelled core's requests carry (16 R406). -/
  core : BitVec 4
  deriving DecidableEq, Repr

/-- The semaphore (16 R418). -/
structure Semaphore where
  owner : BitVec 16
  held : Bool
  gerr : Bool
  lease : BitVec 30
  deriving DecidableEq, Repr

/-- The memory clock register (16 R416). -/
structure MemClock where
  req : BitVec 2
  pend : Bool
  cur : BitVec 2
  abnd : Bool
  wlim : BitVec 32
  deriving DecidableEq, Repr

/-- A device link (16 R423). -/
structure Link where
  up : Bool
  far : BitVec 3
  retry : BitVec 32
  deriving DecidableEq, Repr

/-- What the management interface answers as the state (18 R448). -/
inductive BootState where
  | booting | running | recovery | tripped
  deriving DecidableEq, Repr

/-- Management registers, boot and attestation (chapter 18). -/
structure Mgmt where
  clklim : Nat
  thermal : Nat
  /-- The thermal ceiling is being lowered until the junction is below 92 degrees (18 R441). -/
  hot : Bool
  power : Nat
  plim : Nat
  pmeas : BitVec 32
  /-- The coolant inlet, as last measured (18 R442). -/
  inlet : BitVec 8
  abuf : Nat
  /-- The buffer of the request in progress (18 R449). -/
  target : Nat
  busy : Bool
  done : Bool
  missed : Bool
  btab : Nat
  brefu : BitVec 16
  lock : Bool
  boot : BootState
  /-- The reliability log of the service core of quadrant 0 of die 0: 32-byte entries. -/
  log : List (List Byte)
  /-- The entries of the other quadrants' service cores, by quadrant. -/
  otherLogs : List (Nat × List Byte)
  flash : Mem
  fuseMin : Word64
  svn : Word64
  meas1 : List Byte
  meas2 : List Byte
  /-- The last response of the management target (18 R448). -/
  response : List Byte
  /-- A core reported to its service core: firmware trap or halt (14 R360, R373), by core and cause. -/
  reports : List (BitVec 7 × BitVec 6)
  deriving DecidableEq, Repr

/-- A record ring of the observation block (15 R394). -/
structure ObsRing where
  base : Nat
  size : BitVec 32
  head : BitVec 32
  tail : BitVec 32
  lost : Bool
  deriving DecidableEq, Repr

/-- A breakpoint slot (15 R400). -/
structure Slot where
  ctl : Word64
  lo : BitVec 56
  hi : BitVec 56
  hits : BitVec 32
  last : BitVec 32
  deriving DecidableEq, Repr

/-- The snapshot windows (15 R404, 18 R444), as words by offset. -/
structure Snapshot where
  arm : Bool
  onseq : Bool
  onbrk : Bool
  onmc : Bool
  seqMatch : BitVec 32
  done : Bool
  src : BitVec 4
  time : Word64
  /-- Sources of a trigger whose latch is due (R403). -/
  due : Option (BitVec 4)
  windows : List (Nat × Word64)
  deriving DecidableEq, Repr

/-- The observation registers (chapter 15). -/
structure Obs where
  pulseEn : Bool
  period : BitVec 32
  seq : BitVec 32
  sampler : Word64
  sels : Vector (BitVec 16) 16
  sample : BitVec 32
  pulseRing : ObsRing
  sampleRing : ObsRing
  /-- The slots in force at every core. -/
  slots : Vector Slot 8
  /-- The slots as written, before they take effect (R400). -/
  written : Vector Slot 8
  matched : BitVec 8
  irqs : Nat
  snap : Snapshot
  /-- The counters of blocks that the model does not follow, by event and instance, as last sampled (15 R398). -/
  counts : List ((Nat × Nat) × Word64)
  deriving DecidableEq, Repr

/-- A line that its L2 slice holds (10 R248). -/
structure L2Line where
  line : Nat
  dirty : Bool
  /-- What memory holds below the line, where that differs. -/
  under : Option (List Byte)
  deriving DecidableEq, Repr

/-- A table entry that a quadrant's translation service holds (10 R265): the partition, the lowest index bit of its level, the
virtual address bits from there up, and the entry. -/
structure UpperEntry where
  part : BitVec 3
  lo : Nat
  index : Nat
  entry : Word64
  deriving DecidableEq, Repr

/-- The caches between the cores and memory: the L2 slices (10 R248), the directories (R249), the TLB of the modelled core's
cluster and the upper-level entries of its quadrant's translation service (R265), and what decides swaps (R259). -/
structure Hier where
  l2 : List L2Line
  /-- The clusters whose L1s may hold a line. -/
  dir : List (Nat × BitVec 32)
  tlb : List TlbEntry
  upper : List UpperEntry
  /-- Misses of capacity pages, by way and group, and firmware's threshold (10 R259). -/
  misses : List ((Nat × Nat) × Nat)
  swapAt : Nat
  deriving DecidableEq, Repr

/-- The caches at reset. -/
def Hier.empty : Hier := ⟨[], [], [], [], [], 0⟩

/-- A barrier operation of a core (13 R339). -/
inductive BarOp where
  | post (n : Int)
  | postArrive (n : Int)
  | arrive
  | drop
  /-- The set-up word of bar.init. -/
  | setup (v : BitVec 17)
  deriving DecidableEq, Repr

/-- A cycle of a barrier's home in which operations arrive (13 R337): the barrier, and the place of the last operation in the
cycle's order, cores first by number, then engines by kind and number. -/
structure BarCycle where
  pa : Nat
  last : Nat × Nat
  deriving DecidableEq, Repr

/-- Storage whose corrected errors are counted (14 R374): memory by stack (4 of each die) or port, and the rest by core or slice. -/
inductive Storage where
  | stack
  | capacity
  | l2
  | localStore
  | l1
  | tileFile
  | scalarFile
  deriving DecidableEq, Repr

/-- A host request that waits for its service core (16 R420): the quadrant, the port, the address and what is written; a read writes
nothing. -/
structure HostRequest where
  quadrant : Nat
  port : Fin 2
  addr : Nat
  value : Option Word64
  deriving DecidableEq, Repr

/-- The device beside its partitions. -/
structure Dev where
  hier : Hier
  /-- ECC state of the granules that are not clean (14 R374). -/
  granules : List (Nat × Granule)
  /-- Scrub reservations (14 R379). -/
  reserved : List Nat
  /-- Bytes of capacity on each CXL port, and ports that are down (10 R257, R259). -/
  cxl : List Nat
  portDown : BitVec 4
  l2 : L2Map
  sem : Semaphore
  clk : MemClock
  devnum : BitVec 3
  links : Vector Link 12
  merge : List MergeEntry
  /-- Eviction requests in the order of their arrival, by partition and task (14 R381). -/
  evictions : List (BitVec 3 × BitVec 32)
  /-- Stacked operations that the modelled core's cluster has dispatched (15 R398). -/
  stackedOps : Word64
  /-- The cycle that is held open at one barrier's home (13 R337). -/
  barCycle : Option BarCycle
  /-- Host requests in the order of their arrival (16 R420). -/
  requests : List HostRequest
  /-- Reliability counters, by storage and block (14 R374); one that is not listed is 0. -/
  reliability : List ((Storage × Nat) × Nat)
  /-- The memory that the partitions' register blocks name, first address and length, in the order in which it was named (00 R7; 14 R383;
  log entry 68). -/
  claims : List (BitVec 3 × Nat × Nat)
  deriving DecidableEq, Repr

/-- What a unit on another core does that the device shows. -/
inductive Away where
  | trig
  | draw
  /-- It suspends (14 R364). -/
  | suspended (f : FarSuspension)
  /-- Its context is in its save slot (14 R382): the context, the local store that its core holds (R385), and the live-tile mask when it
  stood at a safe point (R389). -/
  | saved (u : UnitCtx) (ls : Mem) (live : Option (BitVec 16))
  /-- Its handler takes a machine check (14 R376): the fields of the record. -/
  | handled (f : FarSuspension)
  /-- It migrates to the modelled core, with its context and its local store (14 R390). -/
  | arrives (u : UnitCtx) (ls : Mem)
  /-- It migrates to another core (14 R390). -/
  | moved (core : Nat)
  /-- Its context, which left the modelled core, is installed at its new core (14 R391). -/
  | installed
  /-- Bytes of one line that it stored reach their home (11 R274, R280): written back, or by an atomic or a release write at .dev or
  .sys (10 R249). -/
  | store (pa : Nat) (bs : List Byte) (atHome : Bool)
  /-- It cancels (09 R229): the level and the operand. -/
  | cncl (level : BitVec 3) (v : Word64)
  /-- It allocates a block of a region, or changes the references of one (12 R309, R310). -/
  | bloa (rg : BitVec 4) (node : Bool) (c : List Byte)
  | bref (rg : BitVec 4) (name : BitVec 128)
  | brel (rg : BitVec 4) (name : BitVec 128)
  /-- It changes the root slot at an address, or publishes a version there (12 R311, R312). -/
  | bcas (pa : Nat) (expected new : BitVec 128) (depth : BitVec 3)
  | vpub (pa : Nat) (expected : BitVec 16) (new : BitVec 128) (depth : BitVec 3)
  /-- It pins the version of the slot at an address, or drops its pin (12 R315). -/
  | vsw (pa : Nat)
  | vswDrop
  /-- It has executed an instruction since it was resumed (15 R401). -/
  | executed
  deriving DecidableEq, Repr

/-- An input of the outside world or of an engine, or a choice that the manual leaves to the hardware. -/
inductive Input where
  /-- One of the events of 95_what_each_step_holds.md. -/
  | event (i : Instr)
  /-- The L1 drops a line, its dirty sectors being written back first (10 R244). -/
  | l1Evict (line : Nat)
  /-- A fill needs room in a set that holds these lines: the one of the lowest retention goes (05 R139). -/
  | l1Replace (lines : List Nat)
  /-- A fill that its home performed before a write whose invalidation is under way arrives in the L1 (13 R344 case 4). -/
  | lateFill (sector : Nat)
  /-- A core other than the modelled one discards an instruction whose rows wait in a stacking entry (08 R208; 06 R170). -/
  | offerGone (core tag : Nat)
  /-- The L1 takes a sector speculatively (01 R26). -/
  | l1Fill (sector : Nat)
  /-- The TLB drops its i-th entry. -/
  | tlbEvict (i : Nat)
  /-- The invalidation that a home write sent for a line completes (10 R249). -/
  | invalDone (line : Nat)
  /-- The core takes its turn, so that later inputs of the agenda follow an instruction. -/
  | turn
  /-- The instruction of this entry of the reorder buffer retires, when it is the oldest (08 R212). -/
  | retire (tag : Nat)
  /-- The service core of the quadrant restarts the core that halt stopped (14 R373). -/
  | restart
  /-- The L2 slice takes, or gives up, a line (10 R248). -/
  | l2Fill (line : Nat)
  | l2Evict (line : Nat)
  /-- Another cluster fills a line, which its directory entry records; or the entry is evicted (10 R249). -/
  | dirFill (line : Nat) (cluster : Nat)
  | dirEvict (line : Nat)
  /-- The i-th entry of the L1 TLB becomes a range from a page back, of so many pages (10 R265). -/
  | tlbWiden (i back pages : Nat)
  /-- The cluster's TLB, or the translation service, drops an entry; the service keeps the table entries of a walk (10 R265). -/
  | clusterTlbEvict (i : Nat)
  | upperFill (va : Nat)
  | upperEvict (i : Nat)
  /-- The L1 instruction cache drops a line (08 R202). -/
  | icacheEvict (line : Nat)
  /-- The occupancy of an engine ends (08 R210). -/
  | engineFree (engine : Nat)
  /-- Firmware sets the threshold of swaps (10 R259). -/
  | swapThreshold (n : Nat)
  /-- What the next checksum of the matrix engine finds (06 R172). -/
  | checksum (m : Mismatch)
  /-- Storage fails beyond correction (14 R374): a row of a tile, a scalar register, a granule of memory, of the local store. -/
  | tileUpset (t : BitVec 4) (row : Nat)
  | scalarUpset (r : BitVec 5)
  | memoryUpset (granule : Nat) (correctable : Bool)
  | localUpset (granule : Nat)
  | l1Upset (granule : Nat)
  /-- A block's storage corrects an error (14 R374). -/
  | corrected (storage : Storage) (block : Nat)
  /-- A unit of a partition, on another core. -/
  | away (p : BitVec 3) (task : BitVec 32) (a : Away)
  /-- Units on other cores match a breakpoint slot in one cycle (15 R402). -/
  | matched (k : Fin 8) (units : List (BitVec 3 × BitVec 32))
  /-- A pulse and a capture that is due fall in one cycle (15 R403). -/
  | pulseLatch
  /-- The firmware starts the service core of a quadrant other than 0 (18 R445). -/
  | serviceStart (pc : BitVec 56)
  /-- The operations that follow at a barrier's home arrive in one cycle, until that cycle ends (13 R337). -/
  | barrierCycle (pa : Nat)
  | barrierCycleEnd
  /-- Another core operates on a barrier, or an engine that serves another core delivers to it (13 R337). -/
  | barrierOp (pa core : Nat) (op : BarOp)
  | barrierDelivery (pa : Nat) (path : Path) (engine bytes : Nat) (failed : Bool)
  /-- The bulk copy engine writes a part of a chunk before the chunk is counted (13 R344). -/
  | bcpPart (cmd off len : Nat) (peer : PeerPart)
  /-- A host request arrives at the device, in the cycle of the one before it or in a later one; and the service core of a
  quadrant carries out its oldest (16 R420). -/
  | hostRequest (port : Fin 2) (sameCycle : Bool) (addr : Nat) (value : Option Word64)
  | hostServed (quadrant : Nat)
  deriving DecidableEq, Repr

/-- The state of the machine. -/
structure State where
  core : Core
  mem : Mem
  parts : Vector Part 8
  beryl : Beryl
  dev : Dev
  mgmt : Mgmt
  obs : Obs
  agenda : List Input
  /-- Counter that the free values are applied to (DESIGN CHOICE, log entry 11). -/
  tick : Nat
  deriving DecidableEq, Repr

/-- Reasons for which the machine stops. -/
inductive Fault where
  /-- Raised by no meaning: every instruction and every event of the model has an effect. The host's interface asks for a type of
  faults. Safe: nothing is claimed of it. -/
  | none
  deriving DecidableEq, Repr

/-- Reasons for which the model gives no meaning. -/
inductive Refusal where
  /-- Raised by an arm of exec whose instruction has no meaning yet. Safe: nothing is claimed of it. -/
  | notModelled (mnemonic : String)
  deriving DecidableEq, Repr

/-! The machine right after reset. -/

/-- An identity with every register 0. DESIGN CHOICE, log entry 3, while no unit is resident. -/
def Ident.zero : Ident := ⟨0, 0, 0, 0, 0, 0, 0, 0, 0, 0⟩

/-- The reset column of the control registers: k.stkhold.hold is 64 (12 R321), every other field 0. -/
def KRegs.reset : KRegs := ⟨0, 0, 0, 0, 0, 0, 64, 0, 0, 0, 0, 0⟩

/-- The state of a unit at its start, before the launch record fills it in (01 R10). -/
def UnitCtx.reset : UnitCtx :=
  { x := Vector.replicate 32 0, t := Vector.replicate 16 Tile.null, m := Vector.replicate 8 ⟨0, false⟩,
    q := Vector.replicate 4 Stream.unbound, ident := Ident.zero, k := KRegs.reset, pc := 0, trig := false }

/-- The front end with nothing fetched and nothing learned. -/
def Front.empty : Front := ⟨[], [], [], [], 0⟩

/-- A core with no unit resident. -/
def Core.reset : Core :=
  { unit := UnitCtx.reset, run := .idle, wait := .none, exempt := false, num := 0, service := none, frame := [], sb := [],
    net := [], cmds := [], nextCmd := 0, ls := [], lsPoison := [], lsPart := none, lsHolder := none,
    l1 := ⟨[], [], [], [], false, []⟩, invals := [], tlb := [], unacked := [], remote := none, reply := none, evictReq := none, safe := none,
    oldPins := [], forward := [], front := Front.empty, rob := [], busy := [], icache := [], badX := [], mismatch := none, reruns := 0,
    retired := 0, retiredTile := 0 }

/-- A partition's register block and dispatcher at reset (16 R410). -/
def Part.reset : Part :=
  { qmask := 0, en := false, pmode := false, irq := 0, qpark := 0, qdeep := 0, qstate := 0, qshal := 0, troot := 0,
    tvecdef := 0, tdlgdef := 0, poolbase := 0, poolsize := 0, evbase := 0, evlog := 0, evhead := 0, evtail := 0,
    coal := 0, tmo := 0, fbase := 0, flog := 0, fhead := 0, ftail := 0, savebase := 0, savecnt := 0, lsbase := 0,
    budget := 0, intvl := 0, ecount := 0, budgetSet := false, eremain := 0, closing := false, jobCancel := false, jobcnt := 0,
    rings := Vector.replicate 8 ⟨0, 0, false, false, 0, 0⟩, drives := Vector.replicate 16 ⟨false, 0, 0, 0⟩,
    windows := Vector.replicate 8 ⟨0, 0⟩, pending := [], nextId := 0, launches := [], unwritten := [], nextReady := 0, endings := [],
    deficits := [], rounds := [], reserve := none, heldEvents := [], heldFaults := [], sinceIrq := 0, irqs := 0,
    portIrqs := Vector.replicate 2 0, saved := [],
    evictReqs := [], held := false }

/-- The Beryl services at reset: no region (12 R296). -/
def Beryl.reset : Beryl :=
  { regions := Vector.replicate 16 ⟨false, 0, 0, 0, 0, 0⟩, blocks := [], queue := [], pins := [], leafCache := [] }

/-- The device at reset. The capacity of the CXL ports is 0, the FS-9880-LM (18 R451; DESIGN CHOICE, log entry 7). -/
def Dev.reset : Dev :=
  { hier := Hier.empty, granules := [], reserved := [], cxl := [0, 0, 0, 0], portDown := 0,
    l2 := ⟨0, [], Vector.replicate 32 0, none, [], 0⟩, sem := ⟨0, false, false, 0⟩, clk := ⟨0, false, 0, false, 0⟩, devnum := 0,
    links := Vector.replicate 12 ⟨false, 0, 0⟩, merge := [], evictions := [], stackedOps := 0, barCycle := none, requests := [], reliability := [], claims := [] }

/-- The management block at power-on reset (18 R442, R445); the ceilings by log entry 9, the flash, the log, the fuses
and the measurements by log entry 10. -/
def Mgmt.reset : Mgmt :=
  { clklim := 2900, thermal := 2900, hot := false, power := 2900, plim := 1200, pmeas := 0, inlet := 0, abuf := 0, target := 0, busy := false, done := false,
    missed := false, btab := 0, brefu := 0, lock := false, boot := .booting, log := [], otherLogs := [], flash := [], fuseMin := 0,
    svn := 0, meas1 := List.replicate 32 0, meas2 := List.replicate 32 0, response := [], reports := [] }

/-- The observation registers at reset (chapter 15). -/
def Obs.reset : Obs :=
  { pulseEn := false, period := 0, seq := 0, sampler := 0, sels := Vector.replicate 16 0, sample := 0,
    pulseRing := ⟨0, 0, 0, 0, false⟩, sampleRing := ⟨0, 0, 0, 0, false⟩,
    slots := Vector.replicate 8 ⟨0, 0, 0, 0, 0⟩, written := Vector.replicate 8 ⟨0, 0, 0, 0, 0⟩, matched := 0, irqs := 0,
    snap := ⟨false, false, false, false, 0, false, 0, 0, none, []⟩, counts := [] }

/-- The machine right after power-on reset. -/
def State.reset : State :=
  { core := Core.reset, mem := [], parts := Vector.replicate 8 Part.reset, beryl := Beryl.reset, dev := Dev.reset,
    mgmt := Mgmt.reset, obs := Obs.reset, agenda := [], tick := 0 }

end Sys2Proof.Machine
end

