-- ==== Sys2Proof/Machine/Regs.lean ====
section
/-! DEFINITION. Registers: every read and write of a unit's registers goes through these. -/

namespace Sys2Proof.Machine

/-- The 6-bit cause codes of 14 R359. -/
inductive Cause where
  | illegalInsn | privilege | pcAlign | trap | brk | repContent | badFormat | tileShape | addrRange | localRange
  | gatherWindow | atomicAlign | mboxEmpty | streamUnbound | streamEmpty | streamBusy | pageFault | badPte | protection
  | berylWrite | physRange | machineCheck | l2mapInvalid | launchPool | launchState | sendTarget | engineArg
  | barrierRange | berylRegion | berylName | berylSlot | berylTree | berylFull | nameCollision | pinLimit | versionLimit
  deriving DecidableEq, Repr

/-- The code of a cause (14 R359). -/
def Cause.code : Cause → BitVec 6
  | .illegalInsn => 0x01 | .privilege => 0x02 | .pcAlign => 0x03 | .trap => 0x04 | .brk => 0x05 | .repContent => 0x06
  | .badFormat => 0x07 | .tileShape => 0x08 | .addrRange => 0x09 | .localRange => 0x0A | .gatherWindow => 0x0B
  | .atomicAlign => 0x0C | .mboxEmpty => 0x0D | .streamUnbound => 0x0E | .streamEmpty => 0x0F | .streamBusy => 0x10
  | .pageFault => 0x11 | .badPte => 0x12 | .protection => 0x13 | .berylWrite => 0x14 | .physRange => 0x15
  | .machineCheck => 0x16 | .l2mapInvalid => 0x17 | .launchPool => 0x18 | .launchState => 0x19 | .sendTarget => 0x1A
  | .engineArg => 0x1B | .barrierRange => 0x1C | .berylRegion => 0x1D | .berylName => 0x1E | .berylSlot => 0x1F
  | .berylTree => 0x20 | .berylFull => 0x21 | .nameCollision => 0x22 | .pinLimit => 0x23 | .versionLimit => 0x24

/-- How an instruction that does not complete ends. -/
inductive Stop where
  /-- It traps: the cause, k.tval, and the physical granule of 14 R365. -/
  | trap (c : Cause) (tval : Word64) (paddr : Nat)
  /-- It stays the oldest unretired instruction (08 R211). -/
  | wait (k : WaitKind)
  | fault (f : Fault)
  deriving DecidableEq, Repr

/-- A meaning's checks and effects: a value, or how the instruction ends. -/
abbrev Run? := Except Stop

/-- The bits [hi:lo] of a word as a number. -/
def bits (v : Word64) (hi lo : Nat) : Nat := v.toNat / 2 ^ lo % 2 ^ (hi + 1 - lo)

/-- Scalar register r; x0 reads as zero (01 R11). -/
def State.x (s : State) (r : BitVec 5) : Word64 := if r = 0 then 0 else s.core.unit.x[r.toNat]'r.isLt

/-- Writing scalar register r; a write to x0 is discarded (01 R11). -/
def State.setX (s : State) (r : BitVec 5) (v : Word64) : State :=
  if r = 0 then s else { s with core.unit.x := s.core.unit.x.set r.toNat v r.isLt }

/-- A register pair: the register and the next one (01 R10, 03 R72). -/
def State.setPair (s : State) (r : BitVec 5) (lo hi : Word64) : State := (s.setX r lo).setX (r + 1) hi

/-- Tile register r. -/
def State.t (s : State) (r : BitVec 4) : Tile := s.core.unit.t[r.toNat]'r.isLt

/-- Replacing tile register r whole (01 R15). -/
def State.setT (s : State) (r : BitVec 4) (v : Tile) : State :=
  { s with core.unit.t := s.core.unit.t.set r.toNat v r.isLt }

/-- Mailbox register r. -/
def State.mbox (s : State) (r : BitVec 3) : Mbox := s.core.unit.m[r.toNat]'r.isLt

/-- Replacing mailbox r. -/
def State.setMbox (s : State) (r : BitVec 3) (v : Mbox) : State :=
  { s with core.unit.m := s.core.unit.m.set r.toNat v r.isLt }

/-- Stream register r. -/
def State.stream (s : State) (r : BitVec 2) : Stream := s.core.unit.q[r.toNat]'r.isLt

/-- Replacing stream register r. -/
def State.setStream (s : State) (r : BitVec 2) (v : Stream) : State :=
  { s with core.unit.q := s.core.unit.q.set r.toNat v r.isLt }

/-- The program counter. -/
def State.pc (s : State) : BitVec 56 := s.core.unit.pc

/-- Writing the program counter. -/
def State.setPc (s : State) (p : BitVec 56) : State := { s with core.unit.pc := p }

/-- The unit's control registers. -/
def State.k (s : State) : KRegs := s.core.unit.k

/-- Replacing the unit's control registers. -/
def State.setK (s : State) (k : KRegs) : State := { s with core.unit.k := k }

/-- The partition of the resident unit. -/
def State.part (s : State) : BitVec 3 := s.core.unit.ident.part

/-- k.status.pl (01 R22). -/
def KRegs.pl (k : KRegs) : BitVec 2 := k.status.extractLsb' 0 2

/-- k.status.rf (01 R22). -/
def KRegs.rf (k : KRegs) : Bool := k.status.getLsbD 2

/-- k.status with a level and a frame flag; every other field reads as zero in a running unit. -/
def statusOf (pl : BitVec 2) (rf : Bool) : Word64 := BitVec.ofNat 64 (pl.toNat + if rf then 4 else 0)

/-- k.fpmode.ftz (01 R23). -/
def KRegs.ftz (k : KRegs) : Bool := k.fpmode.getLsbD 0

/-- k.fpmode.rm (01 R23). -/
def KRegs.rm (k : KRegs) : BitVec 2 := k.fpmode.extractLsb' 1 2

/-- Setting a bit of k.sticky when a condition holds (01 R24): 0 nf, 1 iov, 2 mov. -/
def State.stick (s : State) (bit : Nat) (c : Bool) : State :=
  if c then { s with core.unit.k.sticky := s.core.unit.k.sticky ||| BitVec.ofNat 64 (2 ^ bit) } else s

/-! k.repst (01 R39). -/

def KRegs.n1 (k : KRegs) : Nat := bits k.repst 3 0
def KRegs.k1 (k : KRegs) : Nat := bits k.repst 11 4
def KRegs.std (k : KRegs) : Nat := bits k.repst 13 12
def KRegs.sta (k : KRegs) : Nat := bits k.repst 15 14
def KRegs.stb (k : KRegs) : Nat := bits k.repst 17 16
def KRegs.stc (k : KRegs) : Nat := bits k.repst 19 18
def KRegs.iter (k : KRegs) : Nat := bits k.repst 27 20
def KRegs.pos (k : KRegs) : Nat := bits k.repst 31 28
def KRegs.v (k : KRegs) : Bool := k.repst.getLsbD 32

/-- The unit resumes inside its frame (01 R41). At supervisor level v may be that of the frame that the handler interrupted: there
rf decides too (DEDUCED, log entry 75). -/
def KRegs.inFrame (k : KRegs) : Bool := k.v && (k.rf || k.pl == 0)

/-- k.repst with another iteration, position and v. -/
def KRegs.withPos (k : KRegs) (iter pos : Nat) (v : Bool) : KRegs :=
  { k with repst := BitVec.ofNat 64 (bits k.repst 19 0 + iter * 2 ^ 20 + pos * 2 ^ 28 + if v then 2 ^ 32 else 0) }

/-- k.repbase + 4 * n, modulo 2^56. -/
def KRegs.frameAddr (k : KRegs) (n : Nat) : BitVec 56 := BitVec.ofNat 56 (k.repbase.toNat + 4 * n)

/-- Where a unit resumes after a retry or a restoration (01 R40, R41): inside its frame, at the execution that its fields name, or at
its pc. -/
def UnitCtx.resumed (u : UnitCtx) : UnitCtx :=
  { u with k.status := statusOf u.k.pl u.k.inFrame, pc := if u.k.inFrame then u.k.frameAddr u.k.pos else u.pc }

/-- The suspension of the resident unit. -/
def RunState.susp : RunState → Option Suspension
  | .suspended r => some r
  | _ => none

/-! k.vpin (12 R317). -/

def KRegs.pinned (k : KRegs) : Bool := k.vpin.getLsbD 16
def KRegs.pinVer (k : KRegs) : BitVec 16 := k.vpin.extractLsb' 0 16
def KRegs.pinEntry (k : KRegs) : Nat := bits k.vpin 33 24

/-- id.ver (01 R19): the pin's presence and version, from k.vpin. -/
def KRegs.idVer (k : KRegs) : Word64 := if k.pinned then BitVec.ofNat 64 (2 ^ 16 + k.pinVer.toNat) else 0

/-- The low n bits of a word. -/
def lowBits (n : Nat) (v : Word64) : Word64 := BitVec.ofNat 64 (v.toNat % 2 ^ n)

/-- k.stkhold as a write leaves it (12 R321): a hold above 1,024 is taken as 1,024. -/
def stkholdOf (v : Word64) : Word64 :=
  BitVec.ofNat 64 (min (bits v 10 0) 1024 + if v.getLsbD 11 then 2 ^ 11 else 0)

/-- A write of a control register of the unit, reserved bits ignored (01 R21 to R24, R39; 12 R321; 14 R361). -/
def KRegs.write (k : KRegs) (n : Nat) (v : Word64) : KRegs :=
  match n with
  | 0x101 => { k with fpmode := lowBits 3 v }
  | 0x102 => { k with sticky := lowBits 3 v }
  | 0x103 => { k with repst := lowBits 33 v }
  | 0x104 => { k with repbase := BitVec.ofNat 64 (bits v 55 2 * 4) }
  | 0x106 => { k with stkhold := stkholdOf v }
  | 0x200 => { k with tvec := BitVec.ofNat 64 (bits v 55 2 * 4) }
  | 0x201 => { k with tcause := lowBits 10 v }
  | 0x202 => { k with epc := lowBits 56 v }
  | 0x203 => { k with tval := v }
  | 0x204 => { k with tdeleg := BitVec.ofNat 64 (bits v 36 1 * 2) }
  | _ => k

/-- A partition. -/
def State.partAt (s : State) (p : BitVec 3) : Part := s.parts[p.toNat]'p.isLt

/-- Changing a partition. -/
def State.modPart (s : State) (p : BitVec 3) (f : Part → Part) : State :=
  { s with parts := s.parts.set p.toNat (f (s.partAt p)) p.isLt }

/-- The next value of the model's own counter (log entry 11). -/
def State.ticked (s : State) : State := { s with tick := s.tick + 1 }

end Sys2Proof.Machine
end

