-- ==== Sys2Proof/Machine/Home.lean ====
section
/-! DEFINITION. Home memory and the paths that reach it (10 R248 to R259, 11 R282), the core's L1 over it (R244 to
R246), and the records that the device writes into rings (09 R242, R243; 14 R365). -/

namespace Sys2Proof.Machine

/-! Physical addresses. -/

/-- The end of the tiered physical space (10 R257). -/
def tierEnd : Nat := 5 * 2 ^ 39

/-- The reserved region (10 R258). -/
def reservedBase : Nat := 0x7FC0000000

/-- The congruence group of an address (10 R257). -/
def groupOf (pa : Nat) : Nat := pa / 2 ^ 16 % 2 ^ 23

/-- The way of an address (10 R257). -/
def wayOf (pa : Nat) : Nat := pa / 2 ^ 39

/-- The page of memory that holds an address exists (10 R255, R257). -/
def State.exists? (s : State) (pa : Nat) : Bool :=
  if pa < 2 ^ 39 then true
  else decide (pa < tierEnd) && decide ((groupOf pa + 1) * 65536 ≤ (s.dev.cxl.getD (wayOf pa - 1) 0))

/-- The address lies in the reserved region. -/
def reserved? (pa : Nat) : Bool := decide (reservedBase ≤ pa) && decide (pa < 2 ^ 39)

/-- A pair of words of the interleave table is a valid entry (10 R251). -/
def domainValid (e : Word64 × Word64) : Bool := e.1.getLsbD 0

/-- First address and end of a domain (10 R251). -/
def domainBase (e : Word64 × Word64) : Nat := bits e.1 51 30 * 2 ^ 30
@[inherit_doc domainBase] def domainEnd (e : Word64 × Word64) : Nat := (bits e.1 51 30 + bits e.2 63 32) * 2 ^ 30

/-- The address lies in a domain of a table (10 R252, R254): the boot map has one domain of every cacheable address. -/
def inDomain (tbase : Nat) (entries : List (Word64 × Word64)) (pa : Nat) : Bool :=
  tbase == 0 || entries.any (fun e => domainValid e && decide (domainBase e ≤ pa) && decide (pa < domainEnd e))

/-- k.l2map.tbase (10 R250). -/
def L2Map.tbase (l : L2Map) : Nat := bits l.reg 51 12

/-- The five-bit pieces of p[51:7], folded (10 R252). -/
def hashPieces (p : Nat) : Nat → Nat
  | 0 => 0
  | i + 1 => Nat.xor (p / 2 ^ (7 + 5 * i) % 32) (hashPieces p i)

/-- h of 10 R252. -/
def homeHash (p : Nat) : Nat := hashPieces p 9

/-- The set bits of a mask below n, ascending. -/
def maskBits (mask : Nat) (n : Nat) : List Nat := (List.range n).filter (fun i => mask.testBit i)

/-- The home slice of a line (10 R252), under a table; none for an address in no domain. -/
def homeSlice (tbase : Nat) (entries : List (Word64 × Word64)) (pa : Nat) : Option Nat :=
  if tbase == 0 then some (homeHash pa)
  else
    (entries.find? (fun e => domainValid e && decide (domainBase e ≤ pa) && decide (pa < domainEnd e))).map (fun e =>
      let sl := maskBits (bits e.2 31 0) 32
      sl.getD (homeHash pa % 2 ^ (sl.length.log2)) 0)

/-- The home slice of a line under the table in force. -/
def Dev.homeOf (d : Dev) (pa : Nat) : Option Nat := homeSlice d.l2.tbase d.l2.entries pa

/-- A cacheable access of a unit may be made to the address (10 R254, R257, R258; 16 R409). -/
def State.physOk (s : State) (pa : Nat) : Bool :=
  s.exists? pa && !reserved? pa && inDomain s.dev.l2.tbase s.dev.l2.entries pa

/-- An access of an engine, a dispatcher or a service core may be made to the address: these reach the reserved region (10 R254,
R257, R258). -/
def State.physHome (s : State) (pa : Nat) : Bool := s.exists? pa && inDomain s.dev.l2.tbase s.dev.l2.entries pa

/-- An uncached access is subject to no interleave domain (10 R254). -/
def State.physOkUncached (s : State) (pa : Nat) : Bool := s.exists? pa && !reserved? pa

/-! Peers. -/

/-- The aperture of a peer (16 R409). -/
def apertureBase : Nat := 0xC000000000000

/-- The device whose aperture holds an address (16 R409). -/
def apertureOf (pa : Nat) : Option Nat :=
  if apertureBase ≤ pa ∧ pa < apertureBase + 8 * 2 ^ 47 then some ((pa - apertureBase) / 2 ^ 47) else none

/-- The aperture of a device other than this one (16 R424). -/
def State.peerOf (s : State) (pa : Nat) : Option Nat :=
  match apertureOf pa with
  | some n => if n == s.dev.devnum.toNat then none else some n
  | none => none

/-- Some link to a peer is up (16 R423). -/
def State.reachable (s : State) (peer : Nat) : Bool := s.dev.links.toList.any (fun l => l.up && l.far.toNat == peer)

/-- The address lies in the aperture of a peer that no link reaches (16 R427). -/
def State.cutOff (s : State) (pa : Nat) : Bool := ((s.peerOf pa).map (fun n => !s.reachable n)).getD false

/-- The remap entry of a group, in the reserved region (10 R258). -/
def State.remapOf (s : State) (g : Nat) : Nat := s.mem.readNat (remapBase + 2 * g) 2

/-- The CXL port whose capacity frame holds an address, if any (10 R258). -/
def State.portOf (s : State) (pa : Nat) : Option Nat :=
  let e := s.remapOf (groupOf pa)
  if e % 8 == wayOf pa then none else (List.range 4).find? (fun j => e / 2 ^ (3 + 3 * j) % 8 == wayOf pa)

/-- The ECC state of a granule, when it is not clean. -/
def Dev.granule (d : Dev) (g : Nat) : Option Granule := (d.granules.find? (fun e => e.1 == g)).map (·.2)

/-- Setting the ECC state of a granule. -/
def Dev.setGranule (d : Dev) (g : Nat) (v : Option Granule) : Dev :=
  let rest := d.granules.filter (fun e => e.1 != g)
  { d with granules := match v with
                       | none => rest
                       | some x => (g, x) :: rest }

/-! The L2 slices and the directories (10 R248, R249). -/

/-- The L2's copy of a line. -/
def Hier.line? (h : Hier) (line : Nat) : Option L2Line := h.l2.find? (fun e => e.line == line)

/-- Lines of a slice: 8 MiB (10 R248), and entries of its directory (R249). -/
def sliceLines : Nat := 65536

/-- A list without the element that another of the same slice displaces when the slice is full: the oldest that `may` says; none when no
element may go. -/
def roomFor {α : Type} (slice : α → Option Nat) (may : α → Bool) (x : α) (l : List α) : Option (List α) :=
  if l.length < sliceLines || decide ((l.filter (fun e => slice e == slice x)).length < sliceLines) then some l
  else if l.any (fun e => slice e == slice x && may e) then some (l.reverse.eraseP (fun e => slice e == slice x && may e)).reverse
  else none

/-- A list with an element in front, or at its end. -/
def pushBounded {α : Type} (slice : α → Option Nat) (may : α → Bool) (x : α) (l : List α) (last : Bool := false) : List α :=
  match roomFor slice may x l with
  | none => l
  | some r => if last then r ++ [x] else x :: r

/-- A dirty line is written back to memory: the scrub reservations of its granules are cancelled (14 R379), an uncorrectable granule
arrives poisoned and a correctable one corrected (R374). -/
def Dev.l2Back (d : Dev) (line : Nat) : Dev :=
  { d with reserved := d.reserved.filter (fun g => g / 2 != line),
           granules := d.granules.filterMap (fun e =>
             if e.1 / 2 != line then some e else if e.2 == .correctable then none else some (e.1, .poisoned)) }

/-- The slice takes a line, clean, or moves it to the front; a streaming access, and a write-back from an L1, takes it at the end and
does not move it (05 R139). DESIGN CHOICE, log entry 67: a full slice gives up its least recently used line whose leaving changes no
byte. -/
def Dev.l2Take (d : Dev) (line : Nat) (hint : BitVec 2 := 0) : Dev :=
  if hint == 1 && (d.hier.line? line).isSome then d
  else
    let e := (d.hier.line? line).getD ⟨line, false, none⟩
    let rest := d.hier.l2.filter (fun f => f.line != line)
    let l2 := pushBounded (fun f => d.homeOf (f.line * 128)) (fun f => f.dirty || f.under.isNone) e rest (hint == 1)
    let gone := if l2.length ≤ rest.length then rest.filter (fun f => f.dirty && !l2.contains f) else []
    { gone.foldl (fun d f => d.l2Back f.line) d with hier.l2 := l2 }

/-- The slice's line becomes dirty: memory keeps the bytes that it held (10 R248). -/
def Dev.l2Dirty (d : Dev) (m : Mem) (line : Nat) (hint : BitVec 2 := 0) : Dev :=
  let t := d.l2Take line hint
  { t with hier.l2 := t.hier.l2.map (fun e => if e.line == line then
      { e with dirty := true, under := some (e.under.getD (m.readBytes (line * 128) 128)) } else e) }

/-- The slice writes a dirty line back and keeps it clean (10 R253, R268). -/
def Dev.l2Clean (d : Dev) (line : Nat) : Dev :=
  if (d.hier.line? line).any (·.dirty) then
    { d.l2Back line with hier.l2 := d.hier.l2.map (fun e => if e.line == line then { e with dirty := false, under := none } else e) }
  else d

/-- The slice gives a line up: a dirty one is written back, and memory below a clean one shows (10 R248). -/
def State.l2Drop (s : State) (line : Nat) : State :=
  match s.dev.hier.line? line with
  | none => s
  | some e =>
    let s : State := { s with dev.hier.l2 := s.dev.hier.l2.filter (fun f => f.line != line) }
    if e.dirty then { s with dev := s.dev.l2Back line }
    else (e.under.map (fun bs => ({ s with mem := s.mem.write (line * 128) bs } : State))).getD s

/-- A byte as memory holds it, below the L2 (10 R264). -/
def State.memByte (s : State) (pa : Nat) : Byte :=
  (((s.dev.hier.line? (lineOf pa)).bind (·.under)).map (fun bs => bs.getD (pa % 128) 0)).getD (s.mem.read pa)

/-- The clusters that the directory records for a line (10 R249). -/
def Hier.recorded (h : Hier) (line : Nat) : BitVec 32 := ((h.dir.find? (fun e => e.1 == line)).map (·.2)).getD 0

/-- The cluster of the modelled core. -/
def State.cluster (s : State) : Nat := s.core.num.toNat / 4

/-- Entries of the directory with one set, or removed when it records no cluster; the entry that leaves a full directory goes. -/
def Dev.dirPut (d : Dev) (line : Nat) (v : BitVec 32) (es : List (Nat × BitVec 32)) : List (Nat × BitVec 32) :=
  let rest := es.filter (fun e => e.1 != line)
  if v == 0 then rest else pushBounded (fun e => d.homeOf (e.1 * 128)) (fun _ => true) (line, v) rest

/-- Lines with an invalidation on a path under way: one of a line and path is enough. -/
def addInvals (path : Path) (lines : List Nat) (iv : List (Nat × Path)) : List (Nat × Path) :=
  lines.foldl (fun iv l => if iv.contains (l, path) then iv else iv ++ [(l, path)]) iv

/-- The bit of the modelled cluster. -/
def State.clusterBit (s : State) : BitVec 32 := BitVec.ofNat 32 (2 ^ s.cluster)

/-- A directory entry set. The modelled cluster invalidates the lines whose entries a full directory gives up (10 R249), and its bit stays
until that is done (11 R286): an entry with an invalidation under way is not given up again. -/
def State.dirSet (s : State) (line : Nat) (v : BitVec 32) : State :=
  let wait (e : Nat × BitVec 32) : Bool := e.1 != line && s.core.invals.any (fun i => i.1 == e.1)
  let live := s.dev.hier.dir.filter (fun e => !wait e)
  let es := s.dev.dirPut line v live
  let gone := if live.length < sliceLines then []
    else live.filter (fun e => e.1 != line && e.2.getLsbD s.cluster && !es.contains e)
  { s with dev.hier.dir := es ++ s.dev.hier.dir.filter wait ++ gone.map (fun e => (e.1, s.clusterBit)),
           core.invals := addInvals .c (gone.map (·.1)) s.core.invals }

/-- A fill into the L1 of a cluster sets its bit (10 R249). -/
def State.dirFill (s : State) (line cluster : Nat) : State := s.dirSet line (s.dev.hier.recorded line ||| BitVec.ofNat 32 (2 ^ cluster))

/-- The capacity frame that holds a granule has a port that is down (10 R259). -/
def State.portLost (s : State) (g : Nat) : Bool :=
  match s.portOf (g * granuleSize) with
  | some j => s.dev.portDown.getLsbD j
  | none => false

/-- Memory's own data of the granule is uncorrectable. -/
def State.memBad (s : State) (g : Nat) : Bool :=
  (match s.dev.granule g with
   | some .uncorrectable => true
   | some .poisoned => true
   | _ => false) || s.portLost g

/-- A read of the granule at its home is uncorrectable (14 R374): a line that the L2 slice holds needs no port (10 R259). -/
def State.badGranule (s : State) (g : Nat) : Bool :=
  (match s.dev.granule g with
   | some .uncorrectable => true
   | some .poisoned => true
   | _ => false) || (s.portLost g && (s.dev.hier.line? (g / 2)).isNone)

/-! Requests while the interleave table changes (16 R406, R407). -/

/-- What a home slice does with a request of the modelled core for a line (16 R406). -/
inductive Reception where
  | accepted
  | held
  | redirected
  deriving DecidableEq, Repr

/-- The table of 16 R406: the core's generation is that of the table in force or of the one that is broadcast. -/
def L2Map.receive (l : L2Map) (line : Nat) : Reception :=
  match l.switching with
  | none => .accepted
  | some (reg, es) =>
    let old := homeSlice l.tbase l.entries (line * 128)
    let new := homeSlice (bits reg 51 12) es (line * 128)
    let g1 : BitVec 4 := reg.setWidth 4
    let at_ (h : Option Nat) : BitVec 4 := ((h.bind (fun n => l.slices.toList[n]?)).getD 0)
    if l.core == g1 then
      if at_ new != g1 then .held
      else if old != new && (at_ old != g1 || l.handoffs.any (fun e => e.1 == line)) then .held
      else .accepted
    else if at_ old == g1 && old != new then .redirected
    else .accepted

/-- A request of the modelled core for a line is accepted, and one of another requester is, which replays a request that is redirected
under the new table (16 R406). DESIGN CHOICE, log entry 37: of another requester the model keeps no generation. -/
def L2Map.accepts (l : L2Map) (line : Nat) : Bool := l.receive line == .accepted
@[inherit_doc L2Map.accepts] def L2Map.takes (l : L2Map) (line : Nat) : Bool :=
  match l.switching with
  | none => true
  | some (reg, _) => ({ l with core := reg.setWidth 4 - 1 } : L2Map).accepts line || ({ l with core := reg.setWidth 4 } : L2Map).accepts line

/-- The homes of lines accept the modelled core's requests, and those of an engine, a walk or the service core. -/
def State.homesAccept (s : State) (lines : List Nat) : Bool := s.dev.l2.switching.isNone || lines.all s.dev.l2.accepts
@[inherit_doc State.homesAccept] def State.homesTake (s : State) (lines : List Nat) : Bool :=
  s.dev.l2.switching.isNone || lines.all s.dev.l2.takes

/-! Writes at the home. -/

/-- The granules that n bytes from pa cover whole. -/
def wholeGranules (pa n : Nat) : List Nat :=
  (granulesOf pa n).filter (fun g => decide (pa ≤ g * granuleSize) && decide ((g + 1) * granuleSize ≤ pa + n))

/-- A write of a whole granule ends its poison (14 R374), and any demand write cancels a scrub reservation (R379). -/
def Dev.written (d : Dev) (pa n : Nat) : Dev :=
  let whole := wholeGranules pa n
  let hit := granulesOf pa n
  { d with granules := d.granules.filter (fun e => !whole.contains e.1), reserved := d.reserved.filter (fun g => !hit.contains g) }

/-- The owner of a group counts a miss of the page of a line whose frame is on a CXL port (10 R259). DESIGN CHOICE, log entry 37: the
misses of the lines that a slice takes. -/
def State.missed (s : State) (h : Hier) (line : Nat) : Hier :=
  if (s.portOf (line * 128)).isNone then h
  else
    let key := (wayOf (line * 128), groupOf (line * 128))
    let n := ((h.misses.find? (fun e => e.1 == key)).map (·.2)).getD 0
    { h with misses := (key, n + 1) :: h.misses.filter (fun e => e.1 != key) }

/-- The device when a slice is to take a line that it does not hold: granules on a port that is down enter it poisoned (10 R259;
14 R374). -/
def State.l2Enter (s : State) (d : Dev) (line : Nat) : Dev :=
  if (s.dev.hier.line? line).isSome then d
  else
    let d := ([2 * line, 2 * line + 1].filter s.portLost).foldl (fun d g => d.setGranule g (some .poisoned)) d
    { d with hier := s.missed d.hier line }

/-- Bytes written at the home with no L1 looked at: the slice's lines become dirty (10 R248). -/
def State.rawWrite (s : State) (pa : Nat) (bs : List Byte) : State :=
  let lines := linesOf pa bs.length
  let d := (lines.foldl s.l2Enter s.dev).written pa bs.length
  { s with mem := s.mem.write pa bs, dev := lines.foldl (fun d l => d.l2Dirty s.mem l) d }

/-- Bytes of one line written at memory, below the L2 (10 R264): a line that the slice holds keeps its own bytes. -/
def State.memWriteLine (s : State) (line : Nat) (cells : List Host.Cell) : State :=
  match s.dev.hier.line? line with
  | none => { s with mem := cells.foldl (fun m c => m.write c.1 [c.2]) s.mem }
  | some _ =>
    let below := cells.foldl (fun bs c => bs.set (c.1 % 128) c.2) ((List.range 128).map (fun i => s.memByte (line * 128 + i)))
    { s with dev.hier.l2 := s.dev.hier.l2.map (fun e => if e.line == line then { e with under := some below } else e) }

/-- Bytes written at memory, bypassing the caches (10 R264). -/
def State.memWrite (s : State) (pa : Nat) (bs : List Byte) : State :=
  let s : State := { s with dev := s.dev.written pa bs.length }
  (linesOf pa bs.length).foldl (fun s l => s.memWriteLine l ((cellsFrom pa bs).filter (fun c => lineOf c.1 == l))) s

/-- Some of n bytes are pool or table memory of a region: its blocks, and 64 bytes for each behind them (12 R296). -/
def State.inPool (s : State) (pa n : Nat) : Bool := s.beryl.regions.toList.any (fun r => r.v && overlap r.pool (2112 * r.nblk) pa n)

/-- Bytes from an address on without those of pool and table memory, as stretches with their addresses. -/
def State.apart (s : State) : Nat → List Byte → List (Nat × List Byte)
  | _, [] => []
  | a, b :: r =>
    if s.inPool a 1 then s.apart (a + 1) r
    else
      match s.apart (a + 1) r with
      | (k, bs) :: rest => if k == a + 1 then (a, b :: bs) :: rest else (a, [b]) :: (k, bs) :: rest
      | [] => [(a, [b])]

/-- A write as a path other than the Beryl services performs it: none reaches pool or table memory (12 R296). DEDUCED, log entry 95. -/
def State.outside (s : State) (w : Nat × List Byte) : List (Nat × List Byte) :=
  if s.inPool w.1 w.2.length then s.apart w.1 w.2 else [w]

/-- Granules marked poisoned at the home, but those of pool and table memory (12 R296). -/
def State.poisonHome (s : State) (gs : List Nat) : State :=
  { s with dev := (gs.filter (fun g => !s.inPool (g * granuleSize) granuleSize)).foldl (fun d g => d.setGranule g (some .poisoned)) s.dev }

/-- The home after cells of one line are written back: a granule whose 64 bytes are all among them is written whole. -/
def Dev.writtenCells (d : Dev) (cells : List Host.Cell) : Dev :=
  let n (g : Nat) : Nat := (cells.filter (fun c => granuleOf c.1 == g)).length
  { d with granules := d.granules.filter (fun e => n e.1 != granuleSize), reserved := d.reserved.filter (fun g => n g == 0) }

/-- The device once its slice has taken cells of a line that are written back: that moves no line to the front (05 R139). -/
def State.backDev (s : State) (line : Nat) (cells : List Host.Cell) : Dev :=
  if cells.isEmpty then s.dev else ((s.l2Enter s.dev line).writtenCells cells).l2Dirty s.mem line 1

/-- The dirty bytes of a line are written back (10 R244, R249); granules whose dirty data is poisoned arrive poisoned
(14 R374). -/
def State.writeBackLine (s : State) (line : Nat) : State :=
  let mine := s.core.l1.dirty.filter (fun c => lineOf c.1 == line)
  let bad := s.core.l1.poison.filter (fun g => lineOf (g * granuleSize) == line)
  let s : State := { s with mem := mine.foldl (fun m c => m.write c.1 [c.2]) s.mem, dev := s.backDev line mine }
  let s := s.poisonHome bad
  { s with core.l1.dirty := s.core.l1.dirty.filter (fun c => lineOf c.1 != line),
           core.l1.poison := s.core.l1.poison.filter (fun g => lineOf (g * granuleSize) != line) }

/-- The line of a sector. -/
def sectorLine (n : Nat) : Nat := n / 4

/-- The L1 holds a sector of the line. -/
def L1.holds (l : L1) (line : Nat) : Bool := l.sectors.any (fun n => sectorLine n == line)

/-- The L1 gives up its copy of a line, dirty bytes first written back; the instruction cache gives up its own. -/
def State.dropLine (s : State) (line : Nat) : State :=
  let s := s.writeBackLine line
  { s with core.l1.sectors := s.core.l1.sectors.filter (fun n => sectorLine n != line),
           core.l1.stale := s.core.l1.stale.filter (fun c => lineOf c.1 != line),
           core.l1.late := s.core.l1.late.filter (fun e => sectorLine e.1 != line),
           core.icache := s.core.icache.filter (fun e => e.1 != line) }

/-- Lines of the L1's dirty sectors. -/
def State.dirtyLines (s : State) : List Nat := (s.core.l1.dirty.map (fun c => lineOf c.1)).dedup

/-- Every dirty sector of the L1 is written to its home (10 R246). -/
def State.writeBackAll (s : State) : State := s.dirtyLines.foldl State.writeBackLine s

/-- Every clean line of the L1 is invalidated (10 R246, 11 R281). Stale bytes go with them; DEDUCED, log entry 15: those of a line
with dirty sectors go too, as 11 R283 requires. -/
def State.dropClean (s : State) : State :=
  { s with core.l1.sectors := s.core.l1.sectors.filter (fun n => s.core.l1.dirty.any (fun c => lineOf c.1 == sectorLine n)),
           core.l1.stale := [], core.l1.late := [] }

/-- A fill of a sector may be under way that its home performed before a write of path y, l, f or h whose invalidation has not come
(13 R344 case 4; 11 R294). DEDUCED, log entry 80: path c has not written its line since, and the L1 holds nothing dirty of it. -/
def State.fillUnderWay (s : State) (sector : Nat) : Bool :=
  let line := sectorLine sector
  s.core.invals.any (fun e => e.1 == line) && s.core.invals.all (fun e => e.1 != line || e.2 != .c)
    && !s.core.l1.dirty.any (fun c => lineOf c.1 == line)

/-- What the core's clean copy of a byte shows after a home write, when the L1 holds the sector (10 R244). -/
def State.keepStale (s : State) (line pa : Nat) (bs : List Byte) : List Host.Cell :=
  let here := (cellsFrom pa bs).filter (fun c => lineOf c.1 == line && s.core.l1.sectors.contains (c.1 / 32)
    && (cellAt s.core.l1.dirty c.1).isNone)
  let old := here.map (fun c => (c.1, (cellAt s.core.l1.stale c.1).getD (s.mem.read c.1)))
  old.foldl (fun st c => putCells st c.1 [c.2]) s.core.l1.stale

/-- The directory keeps of lines only these clusters (10 R249, R286): the bit of a cluster goes when its invalidation is complete. -/
def State.dirKeep (s : State) (lines : List Nat) (v : BitVec 32) : State :=
  { s with dev.hier.dir := (s.dev.hier.dir.map (fun e => if lines.contains e.1 then (e.1, e.2 &&& v) else e)).filter (fun e => e.2 != 0) }

/-- The copies of lines that the L1 or the directory says are held, before a home write on a path: they stay readable until their
invalidation completes. -/
def State.keepCopies (s : State) (path : Path) (pa : Nat) (bs : List Byte) (held : List Nat) : State :=
  let t := held.foldl (fun (s : State) l => { s with core.l1.stale := s.keepStale l pa bs }) s
  { t with core.invals := addInvals path held t.core.invals }

/-- The invalidation of a line in the modelled cluster is complete: its copy is gone, and then its bit (10 R249, R286). -/
def State.invalDone (s : State) (line : Nat) : State :=
  let t := s.dropLine line
  { t.dirKeep [line] (~~~ t.clusterBit) with core.invals := t.core.invals.filter (fun e => e.1 != line) }

/-- Those lines, among these. -/
def State.heldLines (s : State) (lines : List Nat) : List Nat :=
  lines.filter (fun l => s.core.l1.holds l || (s.dev.hier.recorded l).getLsbD s.cluster)

/-- A write that the home performs on path y, l, f or h (10 R249): the L1's dirty sectors of the lines are written back
first, its clean copies stay readable until their invalidation completes. The Beryl services write their pools so. -/
def State.homeStore (s : State) (path : Path) (pa : Nat) (bs : List Byte) : State :=
  let s := (linesOf pa bs.length).foldl State.writeBackLine s
  ((s.keepCopies path pa bs (s.heldLines (linesOf pa bs.length))).rawWrite pa bs).dirKeep (linesOf pa bs.length) s.clusterBit

/-- The same for any other writer. -/
def State.homeWrite (s : State) (path : Path) (pa : Nat) (bs : List Byte) : State :=
  (s.outside (pa, bs)).foldl (fun t w => t.homeStore path w.1 w.2) s

/-- A write of the core itself that the home performs (11 R280, R290): the issuing cluster's copies are written back and invalidated,
and its bit stays (10 R249). -/
def State.ownHomeStore (s : State) (pa : Nat) (bs : List Byte) : State :=
  let s := (linesOf pa bs.length).foldl State.dropLine s
  (s.rawWrite pa bs).dirKeep (linesOf pa bs.length) s.clusterBit
@[inherit_doc State.ownHomeStore] def State.ownHomeWrite (s : State) (pa : Nat) (bs : List Byte) : State :=
  (s.outside (pa, bs)).foldl (fun t w => t.ownHomeStore w.1 w.2) s

/-- Bytes read at the home, as an engine or the home itself reads them. -/
def State.homeRead (s : State) (pa n : Nat) : List Byte := s.mem.readBytes pa n

/-- Some granule of the n bytes from pa is uncorrectable at its home. -/
def State.homeBad (s : State) (pa n : Nat) : Bool := (granulesOf pa n).any s.badGranule

/-- Bytes written at the home and the granules marked poisoned (13 R333: data read as uncorrectable is written
poisoned). -/
def State.homeWritePoison (s : State) (path : Path) (pa : Nat) (bs : List Byte) : State :=
  (s.homeWrite path pa bs).poisonHome (granulesOf pa bs.length)

/-! Records (09 R242, R243; 14 R365). -/

/-- The timestamp of a record (18 R438), and the state with the model's counter advanced. -/
def State.stamp (s : State) : Word64 := Config.timestamp s.tick

/-- Bytes of 8-byte words. -/
def wordBytes (ws : List Word64) : List Byte := (ws.map (fun w => leBytes 8 w.toNat)).flatten

/-- A ring with a size field: 2^log records when log is 4 to 16 (16 R410). -/
def ringSize (log : Word64) : Option Nat :=
  if 4 ≤ log.toNat && log.toNat ≤ 16 then some (2 ^ log.toNat) else none

/-- The event ring has room. -/
def Part.evRoom (p : Part) : Bool :=
  match ringSize p.evlog with
  | none => false
  | some n => (p.evhead - p.evtail).toNat < n

/-- The fault ring has room. -/
def Part.faultRoom (p : Part) : Bool :=
  match ringSize p.flog with
  | none => false
  | some n => (p.fhead - p.ftail).toNat < n

/-- An interrupt of the partition's rings, at the ports that irq names: 3 is as 2 (16 R410). -/
def Part.raiseIrq (p : Part) : Part :=
  { p with sinceIrq := 0, irqs := p.irqs + 1,
           portIrqs := Vector.ofFn (fun (i : Fin 2) => if 2 ≤ p.irq.toNat || p.irq.toNat == i.val then p.portIrqs[i] + 1 else p.portIrqs[i]) }

/-- The coalescing count after one more record (09 R243): the interrupt is raised when the count is reached. -/
def Part.countIrq (p : Part) : Part :=
  let n := p.sinceIrq + 1
  if max p.coal.toNat 1 ≤ n then p.raiseIrq else { p with sinceIrq := n }

/-- The memory that a partition's register block names: its launch pool, rings and save pools (16 R410; 14 R383). -/
def Part.memory (p : Part) : List (Nat × Nat) :=
  ([(p.poolbase.toNat, 128 * min p.poolsize.toNat 4096), (p.evbase.toNat, 32 * (ringSize p.evlog).getD 0),
    (p.fbase.toNat, 64 * (ringSize p.flog).getD 0), (p.savebase.toNat, 0x12000 * p.savecnt.toNat), (p.lsbase.toNat, 0x80000 * p.savecnt.toNat)]
    ++ p.rings.toList.map (fun (r : Ring) => (r.sbase.toNat, if r.sen then 128 * 2 ^ r.slog.toNat else 0))).filter (fun r => r.2 != 0)

/-- What a register block names after a write of it: memory that it did not name before comes last. -/
def State.nameMemory (s : State) (p : BitVec 3) : State :=
  let now := (s.partAt p).memory
  let kept := s.dev.claims.filter (fun c => c.1 != p || now.contains c.2)
  { s with dev.claims := kept ++ (now.filter (fun r => !kept.contains (p, r))).map (fun r => (p, r)) }

/-- Bytes that a dispatcher writes for itself on path h (10 R258: it reaches the reserved region): where no memory or no domain holds
them, nothing is written (10 R254, R257; log entry 68). -/
def State.recordWrite (s : State) (pa : Nat) (bs : List Byte) : State := if s.physHome pa then s.homeWrite .h pa bs else s

/-- What a dispatcher reads of its structures at an address: memory as it is where nothing has been written, when it may not read
there (log entry 68). -/
def State.recordView (s : State) (pa : Nat) : State := if s.physHome pa then s else { s with mem := [] }

/-- One record into the event ring, which has room, with the time of its writing (09 R242); an ended launch is then no longer live
(R221). -/
def State.putEvent (s : State) (p : BitVec 3) (ws : List Word64) : State :=
  let pt := s.partAt p
  let n := (ringSize pt.evlog).getD 1
  let s := s.recordWrite (pt.evbase.toNat + 32 * (pt.evhead.toNat % n)) (wordBytes (s.stamp :: ws))
  let launch? := bits (ws.getD 0 0) 34 32 == 1
  s.modPart p (fun q =>
    { q with evhead := q.evhead + 1,
             unwritten := q.unwritten.filter (fun e => !(launch? && e.1 == (ws.getD 0 0).setWidth 32)) }.countIrq)

/-- One record into the fault ring, which has room. -/
def State.putFault (s : State) (p : BitVec 3) (ws : List Word64) : State :=
  let pt := s.partAt p
  let n := (ringSize pt.flog).getD 1
  let s := s.recordWrite (pt.fbase.toNat + 64 * (pt.fhead.toNat % n)) (wordBytes ws)
  s.modPart p (fun q => { q with fhead := q.fhead + 1 })

/-- A completion record is written, or held behind those that wait (09 R243). -/
def State.eventRecord (s : State) (p : BitVec 3) (ws : List Word64) : State :=
  let pt := s.partAt p
  if pt.heldEvents.isEmpty && pt.evRoom then s.putEvent p ws
  else s.modPart p (fun q => { q with heldEvents := q.heldEvents ++ [ws] })

/-- A fault record is written, or held behind those that wait (14 R365). -/
def State.faultRecord (s : State) (p : BitVec 3) (ws : List Word64) : State :=
  let pt := s.partAt p
  if pt.heldFaults.isEmpty && pt.faultRoom then s.putFault p ws
  else s.modPart p (fun q => { q with heldFaults := q.heldFaults ++ [ws] })

/-- A completion record of 09 R242. -/
def State.completion (s : State) (p : BitVec 3) (ident : BitVec 32) (level status : Nat) (nfault : Nat) (cause : BitVec 6)
    (ftask : BitVec 32) (aux : Word64) : State :=
  (s.eventRecord p [
    BitVec.ofNat 64 (ident.toNat + level * 2 ^ 32 + status * 2 ^ 40 + p.toNat * 2 ^ 48),
    BitVec.ofNat 64 (min nfault 65535 + cause.toNat * 2 ^ 16 + ftask.toNat * 2 ^ 32), aux]).ticked

/-- A fault record of 14 R365. -/
def State.faultLog (s : State) (p : BitVec 3) (type : Nat) (cause : BitVec 6) (inFetch nested : Bool) (pl : BitVec 2)
    (core : BitVec 7) (task launch : BitVec 32) (epc : BitVec 56) (tval repst : Word64) (paddr : Nat) : State :=
  (s.faultRecord p [s.stamp,
    BitVec.ofNat 64 (type + cause.toNat * 2 ^ 4 + (if inFetch then 2 ^ 10 else 0) + (if nested then 2 ^ 11 else 0)
      + pl.toNat * 2 ^ 12 + core.toNat * 2 ^ 14 + p.toNat * 2 ^ 21),
    BitVec.ofNat 64 (task.toNat + launch.toNat * 2 ^ 32), BitVec.ofNat 64 epc.toNat, tval, repst,
    BitVec.ofNat 64 (paddr / 64 * 64), 0]).ticked

/-- A record of type 2: a posted error (14 R380, 16 R427, 09 R220). DESIGN CHOICE, log entry 54: one with the cause MACHINE_CHECK does
not trigger the snapshot (15 R403). -/
def State.postedError (s : State) (p : BitVec 3) (cause : Cause) (task launch : BitVec 32) (tval : Word64) (paddr : Nat) : State :=
  s.faultLog p 2 cause.code false false 0 s.core.num task launch 0 tval 0 paddr

/-- A byte that the reliability log takes of an event: the manual gives an entry's length and not its fields (log entry 10). -/
def logBytes (kind a : Nat) : List Byte := (List.range 32).map (fun i => Config.logByte kind a i)

/-- An entry of the reliability log of a quadrant's service core (14 R379, R380; 10 R259): 32 bytes. -/
def State.logEntry (s : State) (quadrant : Nat) (e : List Byte) : State :=
  if quadrant == 0 then { s with mgmt.log := s.mgmt.log ++ [e] } else { s with mgmt.otherLogs := s.mgmt.otherLogs ++ [(quadrant, e)] }

end Sys2Proof.Machine
end

