-- ==== Sys2Proof/Machine/Ops.lean ====
section
/-! DEFINITION. The operations that every meaning is built from: retiring an instruction, taking a trap and returning from
one (14 R360 to R373), translating addresses (10 R260 to R267), and the core's own accesses to memory (01 R27 to R32;
10 R244 to R246; 11 R280, R281). -/

namespace Sys2Proof.Machine

/-! Retirement. -/

/-- What retiring any instruction does: the counts of 15 R398, and the end of a wait and of the exemption of 15 R401. -/
def State.retired (s : State) (tile : Bool) : State :=
  { s with core.wait := .none, core.exempt := false, core.retired := s.core.retired + 1,
           core.retiredTile := if tile then s.core.retiredTile + 1 else s.core.retiredTile }

/-- The position after a captured execution (01 R38, R40; 04 R122): the next position, the next iteration, or the end
of the frame, which clears v and k.status.rf. -/
def State.nextInFrame (s : State) : State :=
  let k := s.k
  if k.pos < k.n1 then (s.setK (k.withPos k.iter (k.pos + 1) true)).setPc (k.frameAddr (k.pos + 1))
  else if k.iter < k.k1 then (s.setK (k.withPos (k.iter + 1) 0 true)).setPc (k.frameAddr 0)
  else
    let k' := { k.withPos k.iter k.pos false with status := statusOf k.pl false }
    let s := (s.setK k').setPc (k.frameAddr (k.n1 + 1))
    { s with core.frame := [] }

/-- The instruction retires and the next one in order becomes the oldest (01 R25, R38). -/
def State.advance (s : State) (tile : Bool := false) : State :=
  let s := s.retired tile
  if s.k.rf then s.nextInFrame else s.setPc (s.pc + 4)

/-- The instruction retires and transfers control (04 R114 to R116). -/
def State.jump (s : State) (target : BitVec 56) : State := (s.retired false).setPc target

/-! Taking a trap. -/

/-- A trigger of the snapshot (15 R403): 0 fire, 1 onseq, 2 onbrk, 3 onmc. One that falls in the cycle of the trigger whose latch is
due adds its source. -/
def State.trigger (s : State) (src : Nat) (enabled : Bool) : State :=
  if enabled && s.obs.snap.arm then
    match s.obs.snap.due with
    | none => { s with obs.snap.due := some (BitVec.ofNat 4 (2 ^ src)) }
    | some v => if Config.sameCycle s.tick then { s with obs.snap.due := some (v ||| BitVec.ofNat 4 (2 ^ src)) } else s
  else s

/-- The device answers at its ports: not in recovery mode or after a trip (18 R441, R447). -/
def State.deviceUp (s : State) : Bool := s.mgmt.boot != .recovery && s.mgmt.boot != .tripped

/-- What an access of a port or a service core to the device's registers does: nothing when the device does not answer. -/
def State.ifUp (s t : State) : State := if s.deviceUp then t else s

/-- A live launch of a partition, by its identifier. -/
def Part.launch (p : Part) (id : BitVec 32) : Option Launch := p.launches.find? (fun l => l.id == id)

/-- Changing a live launch. -/
def Part.modLaunch (p : Part) (id : BitVec 32) (f : Launch → Launch) : Part :=
  { p with launches := p.launches.map (fun l => if l.id == id then f l else l) }

/-- The launch's count of units that took a report-and-suspend fault, with the first one's cause and task (09 R242). -/
def Launch.faulted (l : Launch) (cause : BitVec 6) (task : BitVec 32) : Launch :=
  if l.faulty.contains task then l
  else
    let l : Launch := { l with faulty := l.faulty ++ [task] }
    if l.nfault == 0 then { l with nfault := 1, fcause := cause, ftask := task } else { l with nfault := l.nfault + 1 }

/-! Discarding instructions (08 R208). -/

/-- The merge buffer without the waiting contributions of a core that a test drops: an entry with none left is freed (12 R322; 06
R170). A dispatched operation runs on. -/
def Dev.dropOffers (d : Dev) (core : Nat) (drop : Nat → Bool) : Dev :=
  { d with merge := (d.merge.map (fun e =>
      if e.dispatched then e
      else { e with offers := e.offers.filter (fun o => !(o.core == core && drop o.tag)) })).filter (fun e => !e.offers.isEmpty) }

/-- The instructions that the front end and the reorder buffer hold are discarded, and fetch restarts (08 R204, R208): their tiles
and scalar registers are free, and their engines complete their occupancies. -/
def State.discard (s : State) : State :=
  { s with core.front.decoded := [], core.rob := [],
           dev := s.dev.dropOffers s.core.num.toNat (fun n => s.core.rob.any (fun r => r.tag == n)) }

/-- The unit stops being executed: what the front end and the reorder buffer held of it go (14 R364; 01 R41; 08 R208). -/
def State.park (s : State) (run : RunState) (pc : BitVec 56) : State :=
  ({ s.setPc pc with core.run := run, core.frame := [], core.wait := .none, core.exempt := false,
                     core.remote := none, core.reply := none } : State).discard

/-- Report and suspend (14 R364, R365): the unit parks, a record of type 0 is written and the launch counts the fault. -/
def State.reportSuspend (s : State) (cause : BitVec 6) (inFetch : Bool) (epc : BitVec 56) (tval : Word64) (paddr : Nat) : State :=
  let id := s.core.unit.ident
  let nested := s.k.pl == 1
  let s' := s.faultLog id.part 0 cause inFetch nested s.k.pl s.core.num id.task id.launch epc tval s.k.repst paddr
  let s' := s'.modPart id.part (fun p => p.modLaunch id.launch (fun l => l.faulted cause id.task))
  s'.park (.suspended ⟨cause, inFetch, nested, tval, paddr⟩) epc

/-- The in-core handler is entered (14 R362); a machine check also writes a record of type 1 (R376). -/
def State.enterHandler (s : State) (cause : BitVec 6) (inFetch : Bool) (epc : BitVec 56) (tval : Word64) (paddr : Nat) : State :=
  let k := s.k
  let id := s.core.unit.ident
  let s := if cause == Cause.machineCheck.code then
      s.faultLog id.part 1 cause inFetch false k.pl s.core.num id.task id.launch epc tval k.repst paddr
    else s
  let k' := { k with
    epc := BitVec.ofNat 64 epc.toNat,
    tcause := BitVec.ofNat 64 (cause.toNat + (if inFetch then 2 ^ 6 else 0) + k.pl.toNat * 2 ^ 7 + if k.rf then 2 ^ 9 else 0),
    tval := tval,
    status := statusOf 1 false }
  (s.setK k').park .running (k.tvec.setWidth 56)

/-- The core halts and reports to the service core of its quadrant (14 R360). -/
def State.haltReport (s : State) (cause : BitVec 6) (epc : BitVec 56) : State :=
  let s := s.park .halted epc
  { s with mgmt.reports := s.mgmt.reports ++ [(s.core.num, cause)] }

/-- Where a trap goes (14 R360). The model's counter advances, so that a free value of one trap is not that of another. -/
def State.takeTrap (s : State) (cause : BitVec 6) (inFetch : Bool) (epc : BitVec 56) (tval : Word64) (paddr : Nat) : State :=
  let s := (s.trigger 3 (s.obs.snap.onmc && cause == Cause.machineCheck.code)).ticked
  if s.k.pl == 2 then s.haltReport cause epc
  else if s.k.pl == 1 then s.reportSuspend cause inFetch epc tval paddr
  else if s.k.tdeleg.getLsbD cause.toNat || s.k.tvec == 0 then s.reportSuspend cause inFetch epc tval paddr
  else s.enterHandler cause inFetch epc tval paddr

/-- A cause code of 14 R359. -/
def causeLegal (c : BitVec 6) : Bool := c != 0 && decide (c.toNat ≤ 0x24)

/-- A trap of the oldest instruction. -/
def State.trapHere (s : State) (c : Cause) (tval : Word64) (paddr : Nat) : State :=
  s.takeTrap c.code false s.pc tval paddr

/-- The outcome of one step. -/
abbrev Out := Host.Outcome State Fault Refusal

/-- The outcome of an instruction: its next state, its trap, or its wait. -/
def State.finish (s : State) (r : Run? State) : Host.Outcome State Fault Refusal :=
  match r with
  | .ok t => .next t
  | .error (.trap c v p) => .next (s.trapHere c v p)
  | .error (.wait k) => .next { s with core.wait := k }
  | .error (.fault f) => .fault f

/-- The condition holds, or the instruction ends with a trap. -/
def need (ok : Bool) (c : Cause) (tval : Word64) : Run? Unit := if ok then .ok () else .error (.trap c tval 0)

/-- The privilege level is at least the one required (01 R20; 10 R270; 14 R371, R373). The manual names no k.tval for
PRIVILEGE: it is a free value (log entry 21). -/
def State.needLevel (s : State) (ok : Bool) : Run? Unit :=
  if ok then .ok () else .error (.trap .privilege (Config.openTval Cause.privilege.code.toNat s.tick) 0)

/-! Translation (10 R260 to R267). -/

/-- The outcome of translating one address: the leaf and where it was read. -/
structure Xl where
  pte : Word64
  /-- log2 of the page size. -/
  size : Nat
  /-- Physical address of the leaf entry; none when a TLB answered. -/
  entry : Option Nat
  deriving DecidableEq, Repr

/-- The fields of a leaf (10 R262). -/
def Xl.attr (x : Xl) : Nat := bits x.pte 10 9
@[inherit_doc Xl.attr] def Xl.by? (x : Xl) : Bool := x.pte.getLsbD 52
@[inherit_doc Xl.attr] def Xl.sh? (x : Xl) : Bool := x.pte.getLsbD 53

/-- The physical address of a virtual address in the page. A page has at least 4 KiB (10 R262). -/
def Xl.paOf (x : Xl) (va : Nat) : Nat :=
  let n := max 12 x.size
  bits x.pte 51 12 * 4096 / 2 ^ n * 2 ^ n + va % 2 ^ n

/-- log2 of the leaf sizes by sz (10 R262). -/
def leafSize (sz : Nat) : Nat :=
  match sz with
  | 0 => 12
  | 1 => 16
  | 2 => 21
  | 3 => 25
  | 4 => 30
  | _ => 34

/-- The access writes. -/
def accStores : Access → Bool
  | .write | .readWrite => true
  | _ => false

/-- The access reads. -/
def accReads : Access → Bool
  | .read | .readWrite => true
  | _ => false

/-- The levels of 10 R261: lowest index bit, index bits, leaf sizes allowed, alignment of the next table. -/
structure Level where
  lo : Nat
  nbits : Nat
  sizes : List Nat
  nextAlign : Nat

/-- The walk's levels, 3 down to 0. -/
def walkLevels : List Level :=
  [⟨45, 11, [], 14⟩, ⟨34, 11, [5], 16⟩, ⟨21, 13, [2, 3, 4], 12⟩, ⟨12, 9, [0, 1], 0⟩]

/-- The reserved bits of a table entry are zero, its size code is 0 and its table is aligned (10 R262). -/
def tableOk (e : Word64) (l : Level) : Bool :=
  bits e 11 2 == 0 && bits e 63 52 == 0 && l.nextAlign != 0 && bits e 51 12 * 4096 % 2 ^ l.nextAlign == 0

/-- A leaf entry is well formed at a level (10 R262, R263). -/
def leafOk (e : Word64) (l : Level) : Bool :=
  bits e 63 55 == 0 && l.sizes.contains (bits e 4 2) && bits e 10 9 != 3
    && bits e 51 12 * 4096 % 2 ^ leafSize (bits e 4 2) == 0 && !(e.getLsbD 53 && !e.getLsbD 52)

/-- An entry of a table as the walker reads it at its home. DESIGN CHOICE, log entry 16: an address where no memory
exists reads as 0, an invalid entry. -/
def State.readEntry (s : State) (pa : Nat) : Word64 := if s.physOk pa then s.mem.read64 pa else 0

/-- The table entry that the translation service holds for an address at a level (10 R265). -/
def Hier.upper? (h : Hier) (p : BitVec 3) (l : Level) (va : Nat) : Option Word64 :=
  (h.upper.find? (fun u => u.part == p && u.lo == l.lo && u.index == va / 2 ^ l.lo)).map (·.entry)

/-- The walk of 10 R263 from a table. -/
def State.walkFrom (s : State) (p : BitVec 3) (va : Nat) : List Level → Nat → Except Cause Xl
  | [], _ => .error .badPte
  | l :: rest, tab =>
    let ea := tab + 8 * (va / 2 ^ l.lo % 2 ^ l.nbits)
    let e := (s.dev.hier.upper? p l va).getD (s.readEntry ea)
    if !e.getLsbD 0 then .error .pageFault
    else if e.getLsbD 1 then
      if tableOk e l then s.walkFrom p va rest (bits e 51 12 * 4096) else .error .badPte
    else if leafOk e l then .ok ⟨e, leafSize (bits e 4 2), some ea⟩
    else .error .badPte

/-- The walk of 10 R263 through a partition's tables, without its checks of the leaf. -/
def State.walk (s : State) (p : BitVec 3) (va : Nat) : Except Cause Xl :=
  let root := (s.partAt p).troot
  if !root.getLsbD 0 then .error .pageFault else s.walkFrom p va walkLevels (bits root 51 14 * 2 ^ 14)

/-- The table entries that memory lists of a table at a level, the valid ones. -/
def State.tableEntries (s : State) (l : Level) (tab : Nat) : List Word64 :=
  ((((s.mem.filter (fun c => decide (tab ≤ c.1) && decide (c.1 < tab + 8 * 2 ^ l.nbits))).map (fun c => (c.1 - tab) / 8)).dedup).map
    (fun i => s.mem.read64 (tab + 8 * i))).filter (fun e => e.getLsbD 0)

/-- Some of n bytes lie in the tables below a table, or in a page that they map. -/
def State.mapsFrom (s : State) (pa n : Nat) : List Level → Nat → Bool
  | [], _ => false
  | l :: rest, tab => overlap tab (8 * 2 ^ l.nbits) pa n || (s.tableEntries l tab).any (fun e =>
      if e.getLsbD 1 then s.mapsFrom pa n rest (bits e 51 12 * 4096)
      else
        let k := max 12 (leafSize (bits e 4 2))
        overlap (bits e 51 12 * 4096 / 2 ^ k * 2 ^ k) (2 ^ k) pa n)

/-- Some of n bytes lie in a partition's tables or in the pages that they map. -/
def State.mapsBytes (s : State) (p : BitVec 3) (pa n : Nat) : Bool :=
  (s.partAt p).troot.getLsbD 0 && s.mapsFrom pa n walkLevels (bits (s.partAt p).troot 51 14 * 2 ^ 14)

/-- Some of n bytes are another partition's memory (00 R7): the partition's own tables do not hold them, and another one's block named
them first or another one's tables hold them. DEDUCED, log entry 68. -/
def State.foreign (s : State) (p : BitVec 3) (pa n : Nat) : Bool :=
  !s.mapsBytes p pa n && (((s.dev.claims.find? (fun c => overlap c.2.1 c.2.2 pa n)).map (·.1)).any (· != p)
    || (List.finRange 8).any (fun q => q.val != p.toNat && s.mapsBytes (BitVec.ofFin q) pa n))

/-- The spill engine may use n bytes of one block for a slot of a partition: cacheable memory of the partition, as 14 R383 obliges
software (log entry 68). -/
def State.ownBytes (s : State) (p : BitVec 3) (pa n : Nat) : Bool := s.physOk pa && !s.foreign p pa n

/-- Bytes of a save slot written on path h: where they may not stand, nothing is written (log entry 68). -/
def State.slotWrite (s : State) (p : BitVec 3) (pa : Nat) (bs : List Byte) : State :=
  if s.ownBytes p pa bs.length then s.homeWrite .h pa bs else s

/-- Memory for a read of n bytes of a save slot: as where nothing has been written, when they may not stand there (log entry 68). -/
def State.slotRead (s : State) (p : BitVec 3) (pa n : Nat) : State := if s.ownBytes p pa n then s else { s with mem := [] }

/-- The checks of a leaf (10 R263; 05 R146): permissions at the level, the memory kind where only cacheable memory will
do, then Beryl pages. -/
def leafCheck (x : Xl) (acc : Access) (pl : BitVec 2) (cacheOnly : Bool) : Except Cause Unit :=
  let perm := (!accReads acc || x.pte.getLsbD 5) && (!accStores acc || x.pte.getLsbD 6)
    && (acc != .fetch || x.pte.getLsbD 7) && (pl != 0 || x.pte.getLsbD 8)
  if !perm then .error .protection
  else if (cacheOnly || acc == .fetch) && x.attr != 0 then .error .protection
  else if accStores acc && x.by? then .error .berylWrite
  else .ok ()

/-- The page of a range that holds an address, counted from its first (10 R265); none outside the range. -/
def TlbEntry.page? (e : TlbEntry) (va : Nat) : Option Nat :=
  let i := va / 2 ^ e.size - e.vbase / 2 ^ e.size
  if e.vbase / 2 ^ e.size ≤ va / 2 ^ e.size && i < max e.pages 1 then some i else none

/-- The leaf of page i of a range: the pages are contiguous in physical address. -/
def TlbEntry.leaf (e : TlbEntry) (i : Nat) : Word64 := e.pte + BitVec.ofNat 64 (i * 2 ^ e.size)

/-- The TLBs' answer (10 R265), of the core and then of its cluster: the page of the partition that holds the address. DEDUCED,
log entry 17: a store does not use an entry whose dt bit is clear, so that its walk can set dt. -/
def State.tlbHit (s : State) (p : BitVec 3) (va : Nat) (acc : Access) : Option Xl :=
  ((s.core.tlb ++ s.dev.hier.tlb).find? (fun e => e.part == p && (e.page? va).isSome
      && (!accStores acc || e.pte.getLsbD 54))).map (fun e => ⟨e.leaf ((e.page? va).getD 0), e.size, none⟩)

/-- A service core translates nothing: its addresses are physical and cacheable outside the register space (16 R408). DESIGN CHOICE, log
entry 96: bits [55:52] of its 56-bit addresses take no part. -/
def serviceXl (va : Nat) : Xl :=
  ⟨BitVec.ofNat 64 (0x1E1 + (if 2 ^ 51 ≤ va then 2 * 2 ^ 9 else 0) + va % 2 ^ 52 / 4096 * 4096), 12, none⟩

/-- Translating one address with its checks. -/
def State.translate (s : State) (acc : Access) (cacheOnly : Bool) (va : Nat) : Except Cause Xl :=
  do
    let x ← if s.core.service.isSome then .ok (serviceXl va)
      else match s.tlbHit s.part va acc with
        | some x => .ok x
        | none => s.walk s.part va
    leafCheck x acc s.k.pl cacheOnly
    .ok x

/-- The translations of an access: each 4 KiB block of virtual addresses with its leaf. -/
abbrev XMap := List (Nat × Xl)

/-- The leaf of an address. -/
def XMap.leaf (m : XMap) (va : Nat) : Option Xl := (m.find? (fun e => e.1 == va / 4096)).map (·.2)

/-- The physical address of a translated virtual address. -/
def XMap.pa (m : XMap) (va : Nat) : Nat := ((m.leaf va).map (fun x => x.paOf va)).getD 0

/-- Adding the block of an address, with the lowest accessed byte in it, in ascending order. -/
def addBlock (va : Nat) : List Nat → List Nat
  | [] => [va]
  | b :: r =>
    if va / 4096 < b / 4096 then va :: b :: r
    else if va / 4096 == b / 4096 then min va b :: r
    else b :: addBlock va r

/-- The lowest byte in each 4 KiB block that n bytes from va touch. -/
def blocksOf (va n : Nat) : List Nat :=
  if n == 0 then []
  else (List.range ((va + n - 1) / 4096 - va / 4096 + 1)).map (fun i => if i == 0 then va else (va / 4096 + i) * 4096)

/-- The blocks that a list of byte ranges touches, in ascending address order (05 R145). -/
def blocksOfAll (ranges : List (Nat × Nat)) : List Nat :=
  (ranges.map (fun r => blocksOf r.1 r.2)).flatten.foldl (fun acc b => addBlock b acc) []

/-- The leaf of the page that holds an address, when it is the page just translated: an access translates each page once (10
R266). -/
def samePage (last : Option (Nat × Xl)) (va : Nat) : Option Xl :=
  match last with
  | some (b, x) => if b / 2 ^ (max 12 x.size) == va / 2 ^ (max 12 x.size) then some { x with entry := none } else none
  | none => none

/-- The addresses of the table entries that a walk reads, level by level (10 R263). -/
def State.walkReads (s : State) (p : BitVec 3) (va : Nat) : List Level → Nat → List Nat
  | [], _ => []
  | l :: rest, tab =>
    let ea := tab + 8 * (va / 2 ^ l.lo % 2 ^ l.nbits)
    match s.dev.hier.upper? p l va with
    | some e => if e.getLsbD 0 && e.getLsbD 1 then s.walkReads p va rest (bits e 51 12 * 4096) else []
    | none =>
      let e := s.readEntry ea
      ea :: (if e.getLsbD 0 && e.getLsbD 1 && tableOk e l then s.walkReads p va rest (bits e 51 12 * 4096) else [])

/-- The homes take the reads of the walk for an address of the resident unit, when its TLBs do not hold it (16 R406). -/
def State.walkTaken (s : State) (acc : Access) (va : Nat) : Bool :=
  s.dev.l2.switching.isNone || s.core.service.isSome || (s.tlbHit s.part va acc).isSome
    || s.homesTake ((s.walkReads s.part va walkLevels (bits (s.partAt s.part).troot 51 14 * 2 ^ 14)).map lineOf)

/-- The homes of what an instruction reads accept it, or it waits (16 R406). -/
def needTaken (ok : Bool) : Run? Unit := if ok then .ok () else .error (.wait .other)

/-- Translating blocks in order, each page once (10 R266), when the homes take the reads of its walk (16 R406): the first that fails ends the
access, with k.tval its lowest accessed byte. -/
def State.translateFrom (s : State) (acc : Access) (cacheOnly : Bool) : Option (Nat × Xl) → List Nat → Run? XMap
  | _, [] => .ok []
  | last, b :: r =>
    match samePage last b with
    | some x => do
      let m ← s.translateFrom acc cacheOnly (some (b, x)) r
      .ok ((b / 4096, x) :: m)
    | none => do
      needTaken (s.walkTaken acc b)
      match s.translate acc cacheOnly b with
      | .error c => .error (.trap c (BitVec.ofNat 64 b) 0)
      | .ok x => do
        let m ← s.translateFrom acc cacheOnly (some (b, x)) r
        .ok ((b / 4096, x) :: m)
@[inherit_doc State.translateFrom] def State.translateBlocks (s : State) (acc : Access) (cacheOnly : Bool) (bs : List Nat) : Run? XMap :=
  s.translateFrom acc cacheOnly none bs

/-- The physical checks of an access of a unit, block by block (10 R254, R257, R258; 16 R424): `apertures` says that the
access may reach a peer's aperture. -/
def State.physCheck (s : State) (apertures : Bool) (m : XMap) : List Nat → Run? Unit
  | [] => .ok ()
  | b :: r =>
    let x := (m.leaf b).getD ⟨0, 12, none⟩
    let pa := x.paOf b
    let ok := if s.core.service.isSome then decide (2 ^ 51 ≤ pa) || s.physHome pa
      else if x.attr == 0 then s.physOk pa else s.physOkUncached pa
    if ok || (apertures && decide (0xC000000000000 ≤ pa) && x.attr == 0) then s.physCheck apertures m r
    else .error (.trap .physRange (BitVec.ofNat 64 b) 0)

/-- The physical runs of n bytes from va, block by block. -/
def XMap.runs (m : XMap) (va n : Nat) : List Run :=
  (blocksOf va n).map (fun b => ⟨m.pa b, min (va + n) ((b / 4096 + 1) * 4096) - b⟩)

/-- The same for the byte ranges of an access. -/
def XMap.runsOf (m : XMap) (ranges : List (Nat × Nat)) : List Run := ranges.flatMap (fun r => m.runs r.1 r.2)

/-- The sectors that n bytes from an address touch (10 R244). -/
def sectorsOf (pa n : Nat) : List Nat :=
  if n == 0 then [] else (List.range ((pa + n - 1) / 32 - pa / 32 + 1)).map (fun i => pa / 32 + i)

/-- A fill that was under way arrives (13 R344 case 4; log entry 80): its bytes are older than the home's. -/
def State.lateFill (s : State) (sector : Nat) : State :=
  match s.core.l1.late.find? (fun e => e.1 == sector) with
  | none => s
  | some e =>
    if !s.fillUnderWay sector || s.core.l1.sectors.contains sector then s
    else
      let old := (cellsFrom (32 * sector) (e.2.take 32)).filter (fun c => c.2 != s.mem.read c.1)
      { s with core.l1.sectors := sector :: s.core.l1.sectors, core.l1.late := s.core.l1.late.filter (fun f => f.1 != sector),
               core.l1.stale := old.foldl (fun st c => putCells st c.1 [c.2]) s.core.l1.stale }

/-- Sectors that n bytes touch and that the L1 does not hold. -/
def State.missingSectors (s : State) (pa n : Nat) : List Nat := (sectorsOf pa n).filter (fun k => !s.core.l1.sectors.contains k)

/-- The lines of those sectors, which a fill asks for. -/
def State.missingLines (s : State) (pa n : Nat) : List Nat := ((s.missingSectors pa n).map sectorLine).dedup

/-- While the interleave table changes, an access waits for every line that it asks of a home which does not yet take the core's request
(16 R406): the lines of sectors that the L1 does not hold, and every line for an access that its home performs. -/
def State.needHomes (s : State) (atHome : Bool) (runs : List Run) : Run? Unit :=
  needTaken (s.homesAccept (runs.flatMap (fun r => if atHome then linesOf r.pa r.len else s.missingLines r.pa r.len)))

/-- Translation and permission of byte ranges, then their physical checks (05 R145 step 5; 11 R291), and the answers of the lines'
homes. -/
def State.access (s : State) (acc : Access) (cacheOnly : Bool) (ranges : List (Nat × Nat)) (atHome : Bool := false) : Run? XMap := do
  let bs := blocksOfAll ranges
  let m ← s.translateBlocks acc cacheOnly bs
  s.physCheck false m bs
  s.needHomes (atHome || acc == .readWrite) (m.runsOf ranges)
  .ok m

/-- The bits that a walk sets in the leaf: ac, and dt for a store (10 R263). -/
def pteBits (acc : Access) : Word64 := 0x800 ||| (if accStores acc then 0x40000000000000 else 0)

/-- ac and dt set in an entry at its home by an atomic or, unless the walk read them set (10 R263): the L1's newer bytes of the
entry are at the home first (R249). -/
def State.setPteBits (s : State) (acc : Access) (x : Xl) (ea : Nat) : State :=
  if x.pte ||| pteBits acc == x.pte then s
  else
    let s := s.writeBackLine (lineOf ea)
    s.homeWrite .h ea (leBytes 8 (s.mem.read64 ea ||| pteBits acc).toNat)

/-- A TLB with an entry put in front of those that it does not replace. DESIGN CHOICE, log entry 85: a full TLB gives up its oldest entry,
and the 8-way TLB of a cluster (10 R265) is one list without sets. -/
def putTlb (e : TlbEntry) (n : Nat) (l : List TlbEntry) : List TlbEntry :=
  (e :: l.filter (fun t => !(t.part == e.part && t.vbase == e.vbase && t.size == e.size))).take n

/-- What a completed walk leaves behind: ac and dt in the leaf (10 R263), and the page in the TLBs of the core and of its cluster,
with the line of the leaf table that the walk read (R265). -/
def State.touch (s : State) (acc : Access) (va : Nat) (x : Xl) : State :=
  match x.entry with
  | none => s
  | some ea =>
    let s := s.setPteBits acc x ea
    let first := va / 2 ^ (x.size + 4) * 2 ^ (x.size + 4)
    let entry : TlbEntry := ⟨s.part, va / 2 ^ x.size * 2 ^ x.size, x.size, x.pte ||| pteBits acc, 1,
      first, if x.size == 12 || x.size == 21 || x.size == 34 then (List.range 16).map (fun i => s.readEntry (ea / 128 * 128 + 8 * i)) else []⟩
    { s with core.tlb := putTlb entry 128 s.core.tlb, dev.hier.tlb := putTlb entry 4096 s.dev.hier.tlb }

/-- The i-th entry of the core's TLB as a range that starts `back` pages earlier and holds n pages (10 R265): every page's entry
was in the line that the walk read, with the same bits, contiguous in physical address. -/
def TlbEntry.widened (e : TlbEntry) (back n : Nat) : Option TlbEntry :=
  let own := (e.vbase - e.line.1) / 2 ^ e.size
  let page (i : Nat) : Option Word64 := e.line.2[i]?
  let fits (i : Nat) : Bool := page i == (page own).map (fun w => w + BitVec.ofNat 64 (i * 2 ^ e.size) - BitVec.ofNat 64 (own * 2 ^ e.size))
  if e.pages == 1 && page own == some e.pte && back ≤ own && back < n && n ≤ 16 && own - back + n ≤ 16
      && (List.range n).all (fun j => fits (own - back + j)) then
    some { e with vbase := e.vbase - back * 2 ^ e.size, pte := (page (own - back)).getD 0, pages := n }
  else none

/-- The same for every block of an access. -/
def State.touchAll (s : State) (acc : Access) (m : XMap) : State :=
  m.foldl (fun s e => s.touch acc (e.1 * 4096) e.2) s

/-! The core's accesses to cacheable memory on path c. -/

/-- A byte as the core's loads see it: its own dirty byte, its clean copy, or the home. -/
def State.cacheByte (s : State) (pa : Nat) : Byte :=
  (cellAt s.core.l1.dirty pa).getD ((cellAt s.core.l1.stale pa).getD (s.mem.read pa))

/-- The n bytes from pa as the core's loads see them; a service core reads at the home (16 R408). -/
def State.cacheRead (s : State) (pa n : Nat) : List Byte := (List.range n).map (fun i => s.cacheByte (pa + i))

/-- The whole sector of an address was written in the L1. -/
def State.wholeSector (s : State) (pa : Nat) : Bool := (s.core.l1.dirty.filter (fun c => c.1 / 32 == pa / 32)).length == 32

/-- A byte reads as uncorrectable: its dirty data is poisoned, or its granule is bad at the home and its sector is not wholly written in
the L1, which then holds it without having read it (10 R244). -/
def State.cacheBad (s : State) (pa : Nat) : Bool :=
  s.core.l1.poison.contains (granuleOf pa) || (s.badGranule (granuleOf pa) && !s.wholeSector pa)

/-- The first uncorrectable byte of the n bytes from pa. -/
def State.firstBad (s : State) (pa n : Nat) : Option Nat :=
  ((List.range n).map (fun i => pa + i)).find? s.cacheBad

/-- The home's side of a fill of one line (10 R248, R249): the slice takes the line, and its directory records the cluster. -/
def State.fillHome (s : State) (line : Nat) (hint : BitVec 2 := 0) : State :=
  ({ s with dev := (s.l2Enter s.dev line).l2Take line hint } : State).dirFill line s.cluster

/-- The home's side of a write that needs no byte of its line: the slice allocates the line without reading it (10 R244; 05 R139). -/
def State.allocHome (s : State) (line : Nat) (hint : BitVec 2 := 0) : State :=
  ({ s with dev := ({ s.l2Enter s.dev line with hier := s.dev.hier } : Dev).l2Take line hint } : State).dirFill line s.cluster

/-- The sectors of n bytes become valid in the L1 (10 R244), in the order of their retention: a streaming access puts them last (05
R139), and no older fill of them arrives any more. -/
def State.fillSectors (s : State) (pa n : Nat) (hint : BitVec 2 := 0) : State :=
  { s with core.l1.sectors := (sectorsOf pa n).foldl (fun ls l =>
             if ls.contains l then ls else if hint == 1 then ls ++ [l] else l :: ls) s.core.l1.sectors,
           core.l1.late := s.core.l1.late.filter (fun e => !(sectorsOf pa n).contains e.1) }

/-- An access allocates its sectors in the L1 (10 R244); the lines of sectors that were not valid are filled from their homes. -/
def State.fillLines (s : State) (pa n : Nat) (hint : BitVec 2 := 0) : State :=
  ((s.missingLines pa n).foldl (fun t l => t.fillHome l hint) s).fillSectors pa n hint

/-- A sector lies whole in the n bytes from an address. -/
def coversSector (pa n k : Nat) : Bool := decide (pa ≤ 32 * k) && decide (32 * k + 32 ≤ pa + n)

/-- A write allocates its sectors (10 R244) and the L2 their lines (05 R139): memory is read for those that it covers in part. -/
def State.fillForWrite (s : State) (pa n : Nat) (hint : BitVec 2 := 0) : State :=
  let missing := s.missingSectors pa n
  let read := ((missing.filter (fun k => !coversSector pa n k)).map sectorLine).dedup
  let blind := ((missing.filter (coversSector pa n)).map sectorLine).dedup
  (blind.foldl (fun t l => t.allocHome l hint) (read.foldl (fun t l => t.fillHome l hint) s)).fillSectors pa n hint

/-- A write into the L1: the bytes are dirty, and their sectors are held. -/
def State.cacheWrite (s : State) (pa : Nat) (bs : List Byte) (hint : BitVec 2 := 0) : State :=
  let whole := wholeGranules pa bs.length
  let s := s.fillForWrite pa bs.length hint
  { s with core.l1.dirty := putCells s.core.l1.dirty pa bs,
           core.l1.stale := dropCells s.core.l1.stale pa bs.length,
           core.l1.poison := s.core.l1.poison.filter (fun g => !whole.contains g) }

/-- A store's bytes when it is performed: into the L1, or at memory for uncached space and for a service core. None reaches pool or
table memory of Beryl (12 R296; log entry 95). -/
def State.performWrite (s : State) (cached : Bool) (w : Nat × List Byte) (hint : BitVec 2 := 0) : State :=
  if s.core.service.isSome then s.homeWrite .h w.1 w.2
  else (s.outside w).foldl (fun s w => if cached then s.cacheWrite w.1 w.2 hint else s.memWrite w.1 w.2) s

end Sys2Proof.Machine
end

