-- ==== Sys2Proof/Machine/Tree.lean ====
section
/-! DEFINITION. Beryl names, reference counts and trees (12 R298 to R306), as the instructions, the walks and the
reclaimers use them. A block's contents lie in memory at pool + 2,048 * index. -/

namespace Sys2Proof.Machine

/-- Bytes of a block (12 R298). -/
def blockSize : Nat := 2048

/-- A count that has become immortal (12 R301). -/
def immortal : Nat := 2 ^ 28 - 1

/-- A region's descriptor in force. -/
def State.region (s : State) (rg : BitVec 4) : Region := s.beryl.regions[rg.toNat]'rg.isLt

/-- The region exists and the unit's partition may use it (12 R297). -/
def Region.usable (r : Region) (p : BitVec 3) : Bool := r.v && r.pmask.getLsbD p.toNat

/-- The live block of a name (12 R300). -/
def Beryl.find (b : Beryl) (rg : BitVec 4) (name : BitVec 128) : Option Block :=
  b.blocks.find? (fun k => k.region == rg && k.name == name)

/-- The quadrant whose service owns a name (12 R300): 4 * die + quadrant. -/
def ownerOf (name : BitVec 128) : Nat := name.toNat / 2 ^ 9 % 2 * 4 + name.toNat / 2 ^ 7 % 4

/-- Changing the block of a name. -/
def Beryl.modBlock (b : Beryl) (rg : BitVec 4) (name : BitVec 128) (f : Block → Block) : Beryl :=
  { b with blocks := b.blocks.map (fun k => if k.region == rg && k.name == name then f k else k) }

/-- A block's count for a partition. -/
def Block.count (k : Block) (p : BitVec 3) : Nat := k.counts.getD p.toNat 0

/-- Setting a block's count for a partition. -/
def Block.setCount (k : Block) (p : BitVec 3) (n : Nat) : Block := { k with counts := k.counts.set p.toNat n }

/-- Taking a reference: it saturates at the immortal count (12 R301). The null name takes none (R298). -/
def Beryl.ref (b : Beryl) (rg : BitVec 4) (name : BitVec 128) (p : BitVec 3) : Beryl :=
  if name == 0 then b
  else b.modBlock rg name (fun k => k.setCount p (min (k.count p + 1) immortal))

/-- A block whose counts are all 0 is queued for its reclaimer (12 R302). -/
def Beryl.enqueue (b : Beryl) (rg : BitVec 4) (name : BitVec 128) : Beryl :=
  match b.find rg name with
  | none => b
  | some k =>
    if k.counts.all (· == 0) && !k.queued then
      { b.modBlock rg name (fun k => { k with queued := true }) with queue := b.queue ++ [(rg, name)] }
    else b

/-- Releasing a reference (12 R301): a count of 0 and an immortal one do not change. -/
def Beryl.unref (b : Beryl) (rg : BitVec 4) (name : BitVec 128) (p : BitVec 3) : Beryl :=
  if name == 0 then b
  else
    let b := b.modBlock rg name (fun k =>
      if k.count p == 0 || k.count p == immortal then k else k.setCount p (k.count p - 1))
    b.enqueue rg name

/-- The physical address of a block's contents. -/
def State.blockPa (s : State) (k : Block) : Nat := (s.region k.region).pool + blockSize * k.index

/-- Where a walk ends (12 R303). -/
inductive Leaf where
  /-- A null name on the path: 2,048 zero bytes. -/
  | null
  /-- The leaf's name and the physical address of its contents. -/
  | at (name : BitVec 128) (pa : Nat)
  /-- A node on the path is uncorrectable in this granule. -/
  | bad (granule : Nat)
  /-- The path reaches a name that is not live. -/
  | dead (name : BitVec 128)
  deriving DecidableEq, Repr

/-- The child names of a node block, read at the home: child c occupies bytes 16c to 16c + 15 (12 R298). -/
def State.childName (s : State) (pa c : Nat) : BitVec 128 := BitVec.ofNat 128 (s.mem.readNat (pa + 16 * c) 16)

/-- The walk to leaf j from a name at level d (12 R303). -/
def State.leafFrom (s : State) (rg : BitVec 4) : Nat → BitVec 128 → Nat → Leaf
  | d, name, j =>
    if name == 0 then .null
    else
      match s.beryl.find rg name with
      | none => .dead name
      | some k =>
        match d with
        | 0 => .at name (s.blockPa k)
        | d' + 1 =>
          let c := j / 128 ^ d' % 128
          let pa := s.blockPa k
          if s.badGranule (granuleOf (pa + 16 * c)) then .bad (granuleOf (pa + 16 * c))
          else s.leafFrom rg d' (s.childName pa c) j

/-- The 2,048 bytes of a leaf as a walk reads them. What a walk reads under a name that is not live is a free value (log
entry 23). -/
def State.leafBytes (s : State) (l : Leaf) : List Byte :=
  match l with
  | .at _ pa => s.mem.readBytes pa blockSize
  | .dead name => (List.range blockSize).map (fun i => Config.deadLeafByte name i s.tick)
  | _ => List.replicate blockSize 0

/-- The offset of a leaf's byte lies in an uncorrectable granule. -/
def State.leafBad (s : State) (l : Leaf) (off : Nat) : Bool :=
  match l with
  | .at _ pa => s.badGranule (granuleOf (pa + off))
  | .bad _ => true
  | _ => false

/-- The first granule of a leaf's uncorrectable data, for an origin (14 R375). -/
def Leaf.origin (l : Leaf) (off : Nat) : Nat :=
  match l with
  | .at _ pa => granuleOf (pa + off) * granuleSize
  | .bad g => g * granuleSize
  | _ => 0

/-- The leaf's name, the null name where the path ends early (12 R319); none where it cannot be read. -/
def Leaf.name? (l : Leaf) : Option (BitVec 128) :=
  match l with
  | .at n _ => some n
  | .dead n => some n
  | .null => some 0
  | .bad _ => none

/-- The leaf cache may keep the leaf's tile (12 R324). -/
def Leaf.cacheable (l : Leaf) : Bool :=
  match l with
  | .at _ _ => true
  | .null => true
  | _ => false

/-- A root slot as it is read at its home (12 R305). -/
structure Root where
  name : BitVec 128
  ver : BitVec 16
  region : BitVec 4
  depth : Nat
  pub : Bool
  /-- Depth 6 or 7, or a reserved field not zero (R306). -/
  invalid : Bool
  deriving DecidableEq, Repr

/-- Reading a root slot (12 R305, R306). -/
def State.readRoot (s : State) (pa : Nat) : Root :=
  let w2 := s.mem.read64 (pa + 16)
  { name := BitVec.ofNat 128 (s.mem.readNat pa 16), ver := w2.extractLsb' 0 16, region := w2.extractLsb' 16 4,
    depth := bits w2 22 20, pub := w2.getLsbD 23,
    invalid := decide (5 < bits w2 22 20) || bits w2 63 24 != 0 || s.mem.read64 (pa + 24) != 0 }

/-- The 32 bytes of a root slot. -/
def Root.bytes (r : Root) : List Byte :=
  leBytes 16 r.name.toNat
    ++ leBytes 8 (r.ver.toNat + r.region.toNat * 2 ^ 16 + r.depth * 2 ^ 20 + if r.pub then 2 ^ 23 else 0) ++ leBytes 8 0

/-- k.vpin for a pin entry (12 R317). -/
def pinWord (e : Pin) : Word64 :=
  BitVec.ofNat 64 (e.ver.toNat + 2 ^ 16 + e.depth * 2 ^ 17 + e.region.toNat * 2 ^ 20 + e.entry * 2 ^ 24)

end Sys2Proof.Machine
end

