-- ==== Sys2Proof/Machine/Store.lean ====
section
/-! DEFINITION. Retired stores and their performance (01 R27 to R32; 08 R213), posted reductions (11 R292), and the
actions of releases and acquires (11 R280, R281). -/

namespace Sys2Proof.Machine

/-- The low n bytes of a word. -/
def truncTo (n : Nat) (v : Word64) : Nat := v.toNat % 2 ^ (8 * n)

/-- n bytes as a signed number. -/
def signedOf (n v : Nat) : Int := if 2 ^ (8 * n - 1) ≤ v then (v : Int) - 2 ^ (8 * n) else v

/-- f(op, old, b, cmp) of 11 R290, on n-byte values. -/
def amoFn (op : BitVec 4) (n old b cmp : Nat) : Nat :=
  match op.toNat with
  | 0 => (old + b) % 2 ^ (8 * n)
  | 1 => if signedOf n b < signedOf n old then b else old
  | 2 => if signedOf n old < signedOf n b then b else old
  | 3 => min old b
  | 4 => max old b
  | 5 => Nat.land old b
  | 6 => Nat.lor old b
  | 7 => Nat.xor old b
  | 8 => b
  | 9 => if old == cmp then b else old
  | _ => rne32Bits false (FVal.add false (fp32.read false old) (fp32.read false b))

/-- The release actions of 11 R280 that take no waiting: the L1's dirty sectors go home at .dev and .sys. -/
def State.releaseCache (s : State) (scope : BitVec 2) : State := if 2 ≤ scope.toNat then s.writeBackAll else s

/-- A posted reduction is applied at its home, and every cluster's copy is invalidated (11 R292; 10 R249). Uncorrectable data refuses it:
the error goes to the service core of the home's quadrant (11 R292) and into a record of the partition (14 R380). -/
def State.applyAred (s : State) (e : SbEntry) (op : BitVec 4) (n : Nat) (operand : Word64) (pa : Nat) : State :=
  let s := (linesOf pa n).foldl State.dropLine s
  if s.homeBad pa n then
    (s.logEntry (((s.dev.homeOf pa).getD 0) / 4) (logBytes 1 (granuleOf pa))).postedError e.part .machineCheck e.task e.launch 0 pa
  else (s.ownHomeWrite pa (leBytes n (amoFn op n (s.mem.readNat pa n) (truncTo n operand) 0))).dirKeep (linesOf pa n) 0

/-- Granules marked poisoned in the L1, but those of pool and table memory (12 R296). -/
def State.markL1 (s : State) (gs : List Nat) : State :=
  { s with core.l1.poison := gs.foldl (fun ps g => if ps.contains g || s.inPool (g * granuleSize) granuleSize then ps else g :: ps) s.core.l1.poison }

/-- The bytes of one leaf written to its destination runs (12 R313): granules read as uncorrectable arrive poisoned. -/
def State.writeLeaf (s : State) (e : SbEntry) (rg : BitVec 4) (root : BitVec 128) (depth j off : Nat) : State :=
  let leaf := s.leafFrom rg depth root j
  let img := s.leafBytes leaf
  let place (i : Nat) : Option Nat :=
    (e.runs.foldl (fun (acc : Option Nat × Nat) r =>
      match acc with
      | (some p, k) => (some p, k)
      | (none, k) => if k < r.len then (some (r.pa + k), 0) else (none, k - r.len)) (none, i)).1
  let pieces := e.runs.foldl (fun (acc : List (Nat × Nat × Nat) × Nat) r =>
    let lo := max acc.2 off
    let hi := min (acc.2 + r.len) (off + blockSize)
    (if lo < hi then acc.1 ++ [(r.pa + (lo - acc.2), lo - off, hi - lo)] else acc.1, acc.2 + r.len)) ([], 0)
  let s := pieces.1.foldl (fun s p => s.performWrite true (p.1, (img.drop p.2.1).take p.2.2)) s
  let bad := (List.range blockSize).filterMap (fun i => if s.leafBad leaf i then (place (off + i)).map granuleOf else none)
  s.markL1 bad

/-- A retired store is performed (01 R27): its bytes reach the L1, the home or memory; a remote write to a peer that no link reaches is
dropped with a record (16 R427). The granules that its poisoned rows reach
are marked after every row is written (DESIGN CHOICE, log entry 66). -/
def State.performEntry (s : State) (e : SbEntry) : State :=
  match e.kind with
  | .scalar | .tile =>
    let s := e.raw.foldl (fun s w => s.performWrite false w) (e.writes.foldl (fun s w => s.performWrite true w e.hint) s)
    s.markL1 e.poison
  | .release scope =>
    let s := s.releaseCache scope
    let s := if 2 ≤ scope.toNat then e.writes.foldl (fun s w => s.ownHomeWrite w.1 w.2) s
      else e.writes.foldl (fun s w => s.performWrite true w) s
    e.raw.foldl (fun s w => s.performWrite false w) s
  | .ared op n operand rel scope =>
    let s := if rel then s.releaseCache scope else s
    match e.writes with
    | w :: _ => s.applyAred e op n operand w.1
    | [] => s
  | .rput rel =>
    let s := if rel then s.releaseCache 3 else s
    if e.writes.any (fun w => s.cutOff w.1) then s.postedError e.part .machineCheck e.task e.launch (BitVec.ofNat 64 e.va) 0
    else { s with core.unacked := s.core.unacked ++ [e] }
  | .bout rg root depth first count =>
    let s := ((List.range count).foldl (fun s i => s.writeLeaf e rg root depth (first + i) (blockSize * i)) s).ticked
    { s with beryl := s.beryl.unref rg root e.part }

/-- A release at .sys waits until every older remote access is acknowledged (11 R280). -/
def SbKind.sysRelease : SbKind → Bool
  | .release scope => scope == 3
  | .ared _ _ _ rel scope => rel && scope == 3
  | .rput rel => rel
  | _ => false

/-- Lines that the performance of an entry writes. -/
def SbEntry.lines (e : SbEntry) : List Nat :=
  (e.writes.map (fun w => linesOf w.1 (max w.2.length 1))).flatten ++ (e.runs.map (fun r => linesOf r.pa r.len)).flatten

/-- The lines of the sectors that it writes and the L1 does not hold; a service core writes every line at its home (16 R408). -/
def State.entryFills (s : State) (e : SbEntry) : List Nat :=
  if s.core.service.isSome then e.lines
  else (e.writes.map (fun w => s.missingLines w.1 w.2.length)).flatten ++ (e.runs.map (fun r => s.missingLines r.pa r.len)).flatten

/-- The homes accept what the performance of an entry asks of them (16 R406): a write that its home performs, with the dirty lines of a
release, or the fills of what the L1 does not hold. -/
def State.entryAccepted (s : State) (e : SbEntry) : Bool :=
  match e.kind with
  | .scalar | .tile | .bout .. => s.homesAccept (s.entryFills e)
  | .release scope => s.homesAccept (if 2 ≤ scope.toNat then e.lines ++ s.dirtyLines else s.entryFills e)
  | .ared _ _ _ rel scope => s.homesAccept (e.lines ++ if rel && 2 ≤ scope.toNat then s.dirtyLines else [])
  | .rput rel => !rel || s.homesAccept s.dirtyLines

/-- The oldest retired store is performed, unless it waits for an acknowledgement or for a home. -/
def State.drainOne (s : State) : State :=
  match s.core.sb with
  | [] => s
  | e :: r => if (e.kind.sysRelease && !s.core.unacked.isEmpty) || !s.entryAccepted e then s else { s with core.sb := r }.performEntry e

/-- The n oldest retired stores are performed, in order. -/
def State.drainN (s : State) : Nat → State
  | 0 => s
  | n + 1 => s.drainOne.drainN n

/-- Every retired store is performed (01 R27). -/
def State.drainAll (s : State) : State := s.drainN s.core.sb.length

/-- How many of the oldest stores must be performed before an access: up to the last that a test names. -/
def depthOf? (before : SbEntry → Bool) (sb : List SbEntry) : Nat :=
  match sb with
  | [] => 0
  | e :: r =>
    let d := depthOf? before r
    if d != 0 then d + 1 else if before e then 1 else 0

/-- Every older store that a test names is performed; a remote write that is not acknowledged is waited for. -/
def State.settleIf (s : State) (before : SbEntry → Bool) : Run? State :=
  let t := s.drainN (depthOf? before s.core.sb)
  if (t.core.sb ++ t.core.unacked).any before then .error (.wait .other) else .ok t

/-- The store writes some byte of a list of runs. -/
def SbEntry.meets (e : SbEntry) (rs : List Run) : Bool :=
  rs.any (fun r => (e.writes ++ e.raw).any (fun w => overlap w.1 w.2.length r.pa r.len) || e.runs.any (fun q => overlap q.pa q.len r.pa r.len))

/-- Every older store is performed that overlaps a virtual range (01 R30), or writes the same bytes at another address (11 R274). -/
def State.settle (s : State) (va n : Nat) (rs : List Run) : Run? State := s.settleIf (fun e => overlap e.va e.len va n || e.meets rs)

/-- A remote write (16 R426). -/
def SbKind.remote : SbKind → Bool
  | .rput _ => true
  | _ => false

/-- The same before the translations of an access are known: every older store but a remote write is performed, whatever it writes. -/
def State.settleLocal (s : State) (va n : Nat) : Run? State := s.settleIf (fun e => overlap e.va e.len va n || !e.kind.remote)

/-- The store is a remote write to the aligned 8-byte granule of an address (16 R426). -/
def SbEntry.remoteTo (e : SbEntry) (pa : Nat) : Bool :=
  match e.kind with
  | .rput _ => e.writes.any (fun w => w.1 / 8 == pa / 8)
  | _ => false

/-- The same for a remote access, which follows every older remote write of its granule too (16 R426). -/
def State.settleRemote (s : State) (va n pa : Nat) : Run? State := s.settleIf (fun e => overlap e.va e.len va n || e.remoteTo pa)

/-- The same for an access whose range is the whole address space (01 R32). -/
def State.settleAll (s : State) : Run? State :=
  let t := s.drainAll
  if t.core.sb.isEmpty && t.core.unacked.isEmpty then .ok t else .error (.wait .other)

/-- Every retired store has left the store buffer: what an instruction at the head waits for (11 R290, 12 R308). -/
def State.settleStores (s : State) : Run? State :=
  let t := s.drainAll
  if t.core.sb.isEmpty then .ok t else .error (.wait .other)

/-- The release actions of 11 R280 at a scope. At .sys every older remote access is acknowledged first. -/
def State.release (s : State) (scope : BitVec 2) : Run? State :=
  let t := s.drainAll
  if t.core.sb.isEmpty && (scope != 3 || t.core.unacked.isEmpty) && (scope.toNat < 2 || t.homesAccept t.dirtyLines) then
    .ok (t.releaseCache scope)
  else .error (.wait .other)

/-- The acquire actions of 11 R281 at a scope. -/
def State.acquire (s : State) (scope : BitVec 2) : State := if 2 ≤ scope.toNat then s.dropClean else s

/-- A tile store or a bout takes no store-buffer entry (08 R213). -/
def SbKind.buffered : SbKind → Bool
  | .tile => false
  | .bout _ _ _ _ _ => false
  | _ => true

/-- Scalar stores in the store buffer (08 R213). -/
def State.scalarStores (s : State) : Nat :=
  (s.core.sb.filter (fun e => e.kind.buffered)).length

/-- A store retires; a full buffer first performs its oldest stores when the store takes an entry of it (08 R213). -/
def State.pushStore (s : State) (e : SbEntry) : Run? State :=
  let full (t : State) : Bool := e.kind.buffered && decide (32 ≤ t.scalarStores)
  let t := if full s then s.drainAll else s
  if full t then .error (.wait .other) else .ok { t with core.sb := t.core.sb ++ [e] }

end Sys2Proof.Machine
end

