-- ==== Sys2Proof/Machine/MemSys.lean ====
section
/-! DEFINITION. What the memory system and the Beryl services do on their own (10 R259; 12 R302, R317; 14 R379, R380; 16 R406,
R407, R417). -/

namespace Sys2Proof.Machine

/-! Page swap (10 R258, R259). -/

/-- The capacity page of a way exists in a group (10 R257). -/
def State.wayExists (s : State) (g w : Nat) : Bool := decide ((g + 1) * 65536 ≤ s.dev.cxl.getD (w - 1) 0)

/-- The way that occupies the fast frame of a remap entry, and the frame of a port (10 R258). -/
def fastWay (e : Nat) : Nat := e % 8
@[inherit_doc fastWay] def portWay (e j : Nat) : Nat := e / 2 ^ (3 + 3 * j) % 8

/-- An entry with the fast frame's way and that of port j exchanged. -/
def swapEntry (e j : Nat) : Nat :=
  let f := fastWay e
  let w := portWay e j
  e - f + w - w * 2 ^ (3 + 3 * j) + f * 2 ^ (3 + 3 * j)

/-- What a swap does to the granules of a page: a corrected error is gone and an uncorrectable granule arrives poisoned (10
R259), and scrub reservations are cancelled (14 R379). -/
def Dev.moved (d : Dev) (pa : Nat) : Dev :=
  let here (g : Nat) : Bool := g * granuleSize / 65536 == pa / 65536
  { d with granules := d.granules.filterMap (fun e =>
             if !here e.1 then some e
             else if e.2 == .correctable then none else some (e.1, .poisoned)),
           reserved := d.reserved.filter (fun g => !here g) }

/-- The page whose frame is the capacity frame of port j has missed often enough for a swap (10 R259). -/
def Hier.mayswap (h : Hier) (g w : Nat) : Bool := decide (h.swapAt ≤ ((h.misses.find? (fun e => e.1 == (w, g))).map (·.2)).getD 0)

/-- PAGE_SWAP (10 R259): the fast frame of a group and the capacity frame of port way - 1 exchange their pages, when the owner's
count of the capacity page's misses has reached firmware's threshold; the count starts again. An address keeps its contents: the
entry tells where they lie. A port error leaves everything and goes to the service core of the owner's quadrant. -/
def execPageSwap (group way : Nat) (portError : Bool) (s : State) : Out :=
  .next (
    let g := group % 2 ^ 23
    let j := way - 1
    if way < 1 || 4 < way || 0x7FC000 ≤ g || !s.wayExists g way then s
    else if !s.dev.hier.mayswap g (portWay (s.remapOf g) j) then s
    else if portError || s.dev.portDown.getLsbD j then s.logEntry (g % 32 / 4) (logBytes 0 g)
    else
      let e := s.remapOf g
      let s : State := { s with dev.hier.misses := s.dev.hier.misses.filter (fun m => m.1 != (portWay e j, g)) }
      let t : State := { s with dev := (s.dev.moved (g * 65536 + fastWay e * 2 ^ 39)).moved (g * 65536 + portWay e j * 2 ^ 39) }
      t.homeWrite .h (remapBase + 2 * g) (leBytes 2 (swapEntry e j)))

/-- CXL_PORT_DOWN (10 R259). -/
def execCxlPortDown (port : Fin 4) (s : State) : Out :=
  .next { s with dev.portDown := s.dev.portDown ||| BitVec.ofNat 4 (2 ^ port.val) }

/-! The patrol scrubber (14 R379). -/

/-- The quadrant whose service core hears of a granule: that of the slice that its stack's lines are wired to (10 R255). PRESUMED,
log entry 10: quadrant 0 for a capacity frame. -/
def scrubQuadrant (granule : Nat) : Nat := if granule * granuleSize < 2 ^ 39 then homeHash (granule * granuleSize) / 4 else 0

/-- PATROL_SCRUB_READ: a correctable granule is reserved, an uncorrectable one that is not poisoned is logged (R379, R380). -/
def execPatrolScrubRead (granule : Nat) (s : State) : Out :=
  .next (match s.dev.granule granule with
    | some .correctable => { s with dev.reserved := granule :: s.dev.reserved.filter (· != granule) }
    | some .uncorrectable => s.logEntry (scrubQuadrant granule) (logBytes 1 granule)
    | _ => s)

/-- A corrected error is counted in its block's reliability counter (14 R374). -/
def Dev.countCorrected (d : Dev) (k : Storage × Nat) : Dev :=
  let n := ((d.reliability.find? (fun e => e.1 == k)).map (·.2)).getD 0
  { d with reliability := (k, n + 1) :: d.reliability.filter (fun e => e.1 != k) }

/-- The block that holds a granule: the CXL port of a capacity frame, or the stack of an HBM4 frame, that of its native slice (10 R255,
R258). -/
def State.memoryBlock (s : State) (granule : Nat) : Storage × Nat :=
  match s.portOf (granule * granuleSize) with
  | some j => (.capacity, j)
  | none => (.stack, homeHash (granule * granuleSize % 2 ^ 39) / 4)

/-- SCRUB_WRITEBACK: the corrected granule is written, unless its reservation was cancelled, and the correction is counted (R374). -/
def execScrubWriteback (granule : Nat) (s : State) : Out :=
  .next (if s.dev.reserved.contains granule then
    { s with dev := ({ s.dev.setGranule granule none with reserved := s.dev.reserved.filter (· != granule) } : Dev).countCorrected
                      (s.memoryBlock granule) } else s)

/-! The interleave table (16 R406, R407). -/

/-- The lines that a slice homes under the table in force and not under the one that is broadcast (16 R407), among those that it
or its directory holds. -/
def State.leaving (s : State) (slice : Nat) (reg : Word64) (es : List (Word64 × Word64)) : List Nat :=
  ((s.dev.hier.l2.map (·.line) ++ s.dev.hier.dir.map (·.1)).dedup).filter (fun l =>
    s.dev.homeOf (l * 128) == some slice && homeSlice (bits reg 51 12) es (l * 128) != some slice)

/-- L2MAP_ADOPTION (16 R407): a slice takes the generation of the table that is broadcast, once. The lines that leave it are written
back or invalidated, and their directory entries pass to their new homes, which hold requests until the handoff. -/
def execL2mapAdoption (slice : Nat) (s : State) : Out :=
  .next (match s.dev.l2.switching with
    | some (reg, es) =>
      if s.dev.l2.slices.toList[slice]? == some (reg.setWidth 4) then s
      else
        let ls := s.leaving slice reg es
        let t := ls.foldl State.l2Drop s
        { t with dev := { t.dev with
            hier.dir := t.dev.hier.dir.filter (fun e => !ls.contains e.1),
            l2.slices := t.dev.l2.slices.setIfInBounds slice (reg.setWidth 4),
            l2.handoffs := t.dev.l2.handoffs ++ ls.map (fun l => (l, t.dev.hier.recorded l)) } }
    | none => s)

/-- LINE_HANDOFF (16 R407): the new home takes the line's directory entry, and takes the requests that it held. -/
def execLineHandoff (line : Nat) (s : State) : Out :=
  .next (match s.dev.l2.handoffs.find? (fun e => e.1 == line) with
    | none => s
    | some e =>
      { s.dirSet line (s.dev.hier.recorded line ||| e.2) with
          dev.l2.handoffs := s.dev.l2.handoffs.filter (fun f => f.1 != line) })

/-- REQUEST_REDIRECT (16 R406): a slice that has adopted the broadcast generation rejects a request of the core, which adopts that
generation; its access, which has changed nothing, is made again at the new home. -/
def execRequestRedirect (s : State) : Out :=
  .next (match s.dev.l2.switching with
    | some (reg, _) => if s.dev.l2.slices.any (fun g => g == reg.setWidth 4) then { s with dev.l2.core := reg.setWidth 4 } else s
    | none => s)

/-! Memory accesses of the control ports (16 R417). -/

/-- HOST_MEMORY_ACCESS: a write, or with no data a read, on path h at .sys scope. An address in no domain or in the reserved
region fails (10 R254, R258). -/
def execHostMemoryAccess (pa : Nat) (data : List Byte) (s : State) : Out :=
  .next (
    if !s.deviceUp || !((blocksOf pa (max data.length 1)).all s.physOk) then s
    else if data.isEmpty then s.writeBackLine (lineOf pa)
    else s.homeWrite .h pa data)

/-! Beryl (12 R302, R317). -/

/-- PIN_ENTRY_RELEASE (12 R315, R317): the walks under an entry have ended. At a count of 0 it is removed, with its reference. -/
def execPinEntryRelease (entry : Nat) (s : State) : Out :=
  .next (if !s.core.oldPins.contains entry then s
    else
      let t : State := { s with core.oldPins := s.core.oldPins.erase entry }
      match t.beryl.pins.find? (fun p => p.entry == entry) with
      | none => t
      | some p =>
        if 1 < p.holders then
          { t with beryl.pins := t.beryl.pins.map (fun k => if k.entry == entry then { k with holders := k.holders - 1 } else k) }
        else { t with beryl := { t.beryl with pins := t.beryl.pins.filter (fun k => k.entry != entry) }.unref p.region p.root p.part })

/-- A stacking key names a block. -/
def keyNames (k : StackKey) (rg : BitVec 4) (name : BitVec 128) : Bool :=
  match k with
  | .name r l _ _ _ _ _ => r == rg && l == name
  | .range .. => false

/-- A block is reclaimed (12 R302): its name goes, with its leaf-cache entries, and a node releases its children. -/
def State.reclaim (s : State) (k : Block) : State :=
  let pa := s.blockPa k
  let kids := if k.node then (List.range 128).map (s.childName pa) else []
  let b : Beryl := { s.beryl with blocks := s.beryl.blocks.filter (fun j => !(j.region == k.region && j.name == k.name)),
                                  leafCache := s.beryl.leafCache.filter (fun c => !keyNames c k.region k.name) }
  { s with beryl := kids.foldl (fun b n => b.unref k.region n k.part) b }

/-- BLOCK_RECLAIM (12 R302): the reclaimer of a quadrant takes its next block. -/
def execBlockReclaim (quadrant : Nat) (s : State) : Out :=
  .next (match s.beryl.queue.find? (fun e => ownerOf e.2 == quadrant) with
    | none => s
    | some e =>
      let t : State := { s with beryl.queue := s.beryl.queue.filter (fun f => f != e) }
      match t.beryl.find e.1 e.2 with
      | none => t
      | some k =>
        if k.counts.all (· == 0) then t.reclaim k
        else { t with beryl := t.beryl.modBlock e.1 e.2 (fun k => { k with queued := false }) })

end Sys2Proof.Machine
end

