-- ==== Sys2Proof/Machine/Operands.lean ====
section
/-! DEFINITION. Operand forms: immediates, fat pointers (02 R55, R56), the shape register (05 R130 to R132), element
packing (02 R47) and tile elements (01 R12, R15). -/

namespace Sys2Proof.Machine

/-- A sign-extended immediate. -/
def sextImm {n : Nat} (i : BitVec n) : Word64 := i.signExtend 64

/-- The low 56 bits of a register, as an address (02 R56). -/
def addrOf (v : Word64) : Nat := v.toNat % 2 ^ 56

/-- The format code of a fat pointer (02 R55). -/
def ptrFmt (p : Word64) : BitVec 5 := p.extractLsb' 59 5

/-- The block length field of a fat pointer (02 R55). -/
def ptrLbl (p : Word64) : BitVec 3 := p.extractLsb' 56 3

/-- The block length of a fat pointer: 0 for no scales. -/
def ptrBlock (p : Word64) : Nat :=
  match (ptrLbl p).toNat with
  | 4 => 16
  | 5 => 32
  | 6 => 64
  | _ => 0

/-- The xe4 code. -/
def xe4 : BitVec 5 := 0x0B

/-- The tag is valid (02 R56; R49, R51). -/
def tagOk (p : Word64) : Bool :=
  let f := ptrFmt p
  let l := (ptrLbl p).toNat
  !reservedCode f && (l == 0 || l == 4 || l == 5 || l == 6) && (l == 0 || scalesAllowed f) && (f != xe4 || l == 0 || l == 5)

/-- packed(c) of 05 R132. -/
def packed (f : BitVec 5) (c : Nat) : Nat :=
  if widthOf f == 6 then 3 * ((c + 3) / 4) else (c * widthOf f + 7) / 8

/-- Fields of the shape register (05 R130). -/
def shStride (sh : Word64) : Nat := bits sh 31 0
@[inherit_doc shStride] def shRows (sh : Word64) : Nat := bits sh 37 32
@[inherit_doc shStride] def shCols (sh : Word64) : Nat := bits sh 45 40
@[inherit_doc shStride] def shAux (sh : Word64) : Nat := bits sh 63 48

/-- The memory shape and the tile shape (05 R131). -/
structure Shape where
  mr : Nat
  mc : Nat
  rext : Nat
  cext : Nat
  deriving DecidableEq, Repr

/-- R131: `rows` and `cols` from the register under esrc 0, the full shape under 1, the tag of `old` under 2. -/
def shapeOf (esrc : BitVec 2) (tr : Bool) (rows cols : Nat) (old : Tile) : Shape :=
  match esrc.toNat with
  | 0 => if tr then ⟨rows, cols, cols, rows⟩ else ⟨rows, cols, rows, cols⟩
  | 1 => ⟨32, 32, 32, 32⟩
  | _ => if tr then ⟨old.cext, old.rext, old.rext, old.cext⟩ else ⟨old.rext, old.cext, old.rext, old.cext⟩

/-- A row of the memory shape: its element bytes and its scale byte, as offsets from the row's address (05 R132). -/
structure RowSpan where
  elemOff : Nat
  elemLen : Nat
  scaleOff : Option Nat
  deriving DecidableEq, Repr

/-- R132. -/
def rowSpan (f : BitVec 5) (block : Nat) (half : Bool) (mc : Nat) : RowSpan :=
  if block == 0 then ⟨0, packed f mc, none⟩
  else if block == 64 then ⟨if half then packed f 32 else 0, packed f mc, some (packed f 64)⟩
  else ⟨0, packed f mc, some (packed f block)⟩

/-- Bytes from the row's first byte to the end of its span. -/
def RowSpan.len (r : RowSpan) : Nat :=
  match r.scaleOff with
  | none => r.elemOff + r.elemLen
  | some o => o + 1

/-- Element j of packed bytes (02 R47): sub-byte elements follow one another from bit 0 up. -/
def unpackElem (f : BitVec 5) (bs : List Byte) (j : Nat) : Word32 :=
  BitVec.ofNat 32 (leNat bs / 2 ^ (widthOf f * j) % 2 ^ widthOf f)

/-- c elements of packed bytes. -/
def unpackRow (f : BitVec 5) (bs : List Byte) (c : Nat) : List Word32 := (List.range c).map (unpackElem f bs)

/-- The packed bytes of elements, padding bits zero (02 R47). -/
def packRow (f : BitVec 5) (es : List Word32) : List Byte :=
  leBytes (packed f es.length)
    ((es.mapIdx (fun j e => e.toNat % 2 ^ widthOf f * 2 ^ (widthOf f * j))).foldl (· + ·) 0)

/-- A container of a tile: zero outside the extents (01 R15). -/
def Tile.elem (t : Tile) (i j : Nat) : Word32 := (t.rows.getD i []).getD j 0

/-- The scale byte of a row. -/
def Tile.scaleAt (t : Tile) (i : Nat) : Byte := t.scale.getD i 0

/-- The rows of a tile from a function of position. -/
def buildRows (r c : Nat) (f : Nat → Nat → Word32) : List (List Word32) :=
  (List.range r).map (fun i => (List.range c).map (fun j => f i j))

/-- An unscaled, unpoisoned tile from a function of position: what an arithmetic instruction writes. -/
def Tile.build (fmt : BitVec 5) (r c : Nat) (f : Nat → Nat → Word32) : Tile :=
  { fmt := fmt, rext := r, cext := c, scl := false, rows := buildRows r c f, scale := List.replicate r 0, poison := 0,
    origin := 0, key := none, mapped := true }

/-- The exact value of an element of a floating-point tile, scale included (02 R48, R61). Outside the extents it is zero,
whatever the row's scale (01 R15; 07 R177). -/
def Tile.val (t : Tile) (ftz : Bool) (i j : Nat) : FVal :=
  floatElem t.fmt ftz (t.scl && decide (j < t.cext)) (t.scaleAt i) (t.elem i j)

/-- The integer that an element of an integer tile holds. -/
def Tile.int (t : Tile) (i j : Nat) : Int := intElem t.fmt (t.elem i j)

/-- Row i is poisoned. -/
def Tile.bad (t : Tile) (i : Nat) : Bool := t.poison.getLsbD i

/-- A poison mask from row numbers. -/
def maskOf (rows : List Nat) : BitVec 32 := BitVec.ofNat 32 ((rows.dedup.map (2 ^ ·)).foldl (· + ·) 0)

end Sys2Proof.Machine
end

