-- ==== Sys2Proof/Machine/Barrier.lean ====
section
/-! DEFINITION. Barriers and their instructions, opcodes 0x62 to 0x65 (13 R334 to R341). -/

namespace Sys2Proof.Machine

/-- A barrier (13 R335), its reserved bits left out. -/
structure Barrier where
  pend : Int
  xp : Bool
  ovf : Bool
  flt : Bool
  arr : Nat
  exp : Nat
  phase : Bool
  lflt : Bool
  nb : Bool
  ndrop : Nat
  gen : Nat
  deriving DecidableEq, Repr

/-- The limits of pend: a signed 24-bit value (13 R335). -/
def pendOk (v : Int) : Bool := decide (-2 ^ 23 ≤ v) && decide (v < 2 ^ 23)

/-- A Boolean as a bit. -/
def bit (b : Bool) : Nat := if b then 1 else 0

/-- Reading a barrier at its home. -/
def State.readBarrier (s : State) (pa : Nat) : Barrier :=
  let a := s.mem.read64 pa
  let b := s.mem.read64 (pa + 8)
  let p := bits a 23 0
  { pend := if p < 2 ^ 23 then (p : Int) else (p : Int) - 2 ^ 24, xp := a.getLsbD 24, ovf := a.getLsbD 25, flt := a.getLsbD 26,
    arr := bits a 47 32, exp := bits a 63 48, phase := b.getLsbD 0, lflt := b.getLsbD 1, nb := b.getLsbD 2,
    ndrop := bits b 31 16, gen := bits b 63 32 }

/-- The word at 0x08 (13 R335). -/
def Barrier.word1 (b : Barrier) : Word64 :=
  BitVec.ofNat 64 (bit b.phase + 2 * bit b.lflt + 4 * bit b.nb + b.ndrop * 2 ^ 16 + b.gen % 2 ^ 32 * 2 ^ 32)

/-- The 32 bytes of a barrier, reserved bits zero. -/
def Barrier.bytes (b : Barrier) : List Byte :=
  leBytes 8 ((b.pend % 2 ^ 24).toNat + bit b.xp * 2 ^ 24 + bit b.ovf * 2 ^ 25 + bit b.flt * 2 ^ 26 + b.arr * 2 ^ 32 + b.exp * 2 ^ 48)
    ++ leBytes 8 b.word1.toNat ++ leBytes 16 0

/-- The test for completion that follows an operation (13 R336). -/
def Barrier.settle (b : Barrier) : Barrier :=
  if b.exp != 0 && b.arr == b.exp && b.pend == 0 && !b.ovf && (b.xp || b.nb) then
    { b with phase := !b.phase, gen := (b.gen + 1) % 2 ^ 32, lflt := b.flt, flt := false, arr := 0, xp := false,
             exp := b.exp - b.ndrop, ndrop := 0 }
  else b

/-- A delivery of n bytes, or a failed one, before the test (13 R333, R335). -/
def Barrier.deliver (b : Barrier) (n : Nat) (failed : Bool) : Barrier :=
  let b := if pendOk (b.pend - n) then { b with pend := b.pend - n } else { b with ovf := true }
  if failed then { b with flt := true } else b

/-! Operations of one cycle (13 R337). DEDUCED, log entry 81: the agenda says which operations arrive in one cycle. -/

/-- The path of the last operation of a cycle. -/
def BarCycle.path (c : BarCycle) : Path :=
  match c.last.1 with
  | 0 => .c
  | 1 => .y
  | 2 => .l
  | _ => .f

/-- The cycle that is open at a home ends with the test of R336, when an operation came in it. -/
def State.endBarCycle (s : State) : State :=
  match s.dev.barCycle with
  | none => s
  | some c =>
    let t := (linesOf c.pa 32).foldl State.writeBackLine { s with dev.barCycle := none }
    let b := (t.readBarrier c.pa).settle.bytes
    if c.last == (0, 0) || t.homeBad c.pa 32 then t
    else if c.last == (0, s.core.num.toNat + 1) then t.ownHomeWrite c.pa b
    else t.homeWrite c.path c.pa b

/-- The open cycle of a barrier ends, when it is this barrier's. -/
def State.endBarCycleAt (s : State) (pa : Nat) : State := if s.dev.barCycle.any (fun c => c.pa == pa) then s.endBarCycle else s

/-- A place in a cycle's order follows another. -/
def follows (last key : Nat × Nat) : Bool := decide (last.1 < key.1) || (last.1 == key.1 && decide (last.2 < key.2))

/-- An operation with its place in the order arrives at a barrier's home: the open cycle takes it, or ends when the operation's turn
there is over. -/
def State.joinBarCycle (s : State) (pa : Nat) (key : Nat × Nat) : State :=
  match s.dev.barCycle with
  | none => s
  | some c =>
    if c.pa != pa then s
    else if follows c.last key then { s with dev.barCycle := some { c with last := key } }
    else s.endBarCycle

/-- A barrier after an operation: the test waits for the end of an open cycle. -/
def State.barTest (s : State) (pa : Nat) (b : Barrier) : Barrier := if s.dev.barCycle.any (fun c => c.pa == pa) then b else b.settle

/-- The place of a core, and of an engine of a path, in a cycle's order. -/
def coreKey (core : Nat) : Nat × Nat := (0, core + 1)
@[inherit_doc coreKey] def engineKey (path : Path) (n : Nat) : Nat × Nat :=
  match path with
  | .y => (1, n)
  | .l => (2, n)
  | _ => (3, n)

/-- The engine of a path that serves the modelled core (13 R328): that of its cluster, of its quadrant; an offload engine is named by
its port. -/
def State.engineNo (s : State) (path : Path) : Nat :=
  match path with
  | .y => s.core.num.toNat / 4
  | .l => s.core.num.toNat / 16
  | _ => 0

/-- Engine n of a path updates a barrier at the home (13 R333, R337). A barrier whose granule is uncorrectable cannot be
read there and stays as it is (DEDUCED, log entry 28). -/
def State.deliverBy (s : State) (path : Path) (engine : Nat) (bar : Option Nat) (n : Nat) (failed : Bool) : State :=
  match bar with
  | none => s
  | some pa =>
    let t := (linesOf pa 32).foldl State.writeBackLine (s.joinBarCycle pa (engineKey path engine))
    if t.homeBad pa 32 then t else t.homeWrite path pa (t.barTest pa ((t.readBarrier pa).deliver n failed)).bytes

/-- An engine that serves the modelled core updates a barrier. -/
def State.deliver (s : State) (path : Path) (bar : Option Nat) (n : Nat) (failed : Bool) : State :=
  s.deliverBy path (s.engineNo path) bar n failed

/-! Instructions. -/

/-- The address checks of a barrier operand (13 R334 steps 2 and 4): the translation, and the address of the barrier. -/
def State.needBarrier (s : State) (va : Nat) : Run? XMap := do
  need (va % 32 == 0) .atomicAlign (BitVec.ofNat 64 va)
  s.access .readWrite true [(va, 32)]

/-- The barrier as the home holds it, the core's own dirty bytes written back first. Uncorrectable data is a machine check
(DEDUCED from 14 R376, log entry 25). -/
def State.barrierAt (s : State) (va pa : Nat) : Run? (Barrier × State) :=
  let t := (linesOf pa 32).foldl State.dropLine s
  if t.homeBad pa 32 then .error (.trap .machineCheck (BitVec.ofNat 64 va) pa) else .ok (t.readBarrier pa, t)

/-- BARRIER_RANGE (13 R339). -/
def needRange (ok : Bool) (va : Nat) : Run? Unit := need ok .barrierRange (BitVec.ofNat 64 va)

/-- A barrier operation of the core (13 R338, R339): every older access performed, the release of the forms that release, the
operation at the home, and the test of R336. -/
def State.barrierOp (s : State) (va : Nat) (rel : Bool) (op : Barrier → Run? Barrier) : Run? State := do
  let m ← s.needBarrier va
  let s1 ← s.settleAll
  let s2 ← if rel then s1.release 2 else .ok s1
  let pa := m.pa va
  let (b, s3) ← (s2.joinBarCycle pa (coreKey s.core.num.toNat)).barrierAt va pa
  let b' ← op b
  .ok ((s3.ownHomeWrite pa (s3.barTest pa b').bytes).touchAll .readWrite m).advance

/-- The posted bytes of bar.exp: a register as a signed number (13 R339). -/
def needPosted (v : Word64) : Run? Unit := need (pendOk v.toInt) .engineArg v

/-- The effect of bar.exp. -/
def Barrier.post (b : Barrier) (va : Nat) (n : Int) : Run? Barrier := do
  needRange (b.exp != 0 && !b.ovf && pendOk (b.pend + n)) va
  .ok { b with pend := b.pend + n, xp := true }

/-- The effect of bar.arr. -/
def Barrier.arrive (b : Barrier) (va : Nat) : Run? Barrier := do
  needRange (b.exp != 0 && !b.ovf && decide (b.arr < b.exp)) va
  .ok { b with arr := b.arr + 1 }

/-- The effect of bar.drop. -/
def Barrier.drop (b : Barrier) (va : Nat) : Run? Barrier := do
  needRange (b.ndrop < b.exp) va
  let b ← b.arrive va
  .ok { b with ndrop := b.ndrop + 1 }

/-- The barrier that bar.init makes of its set-up word. -/
def barrierOf (v : BitVec 17) : Barrier := ⟨0, false, false, false, 0, bits (v.setWidth 64) 15 0, false, false, v.getLsbD 16, 0, 0⟩

/-- bar.exp (13 R339). -/
def execBarExp (a b : BitVec 5) (s : State) : Out :=
  s.finish (do
    let va := addrOf (s.x a)
    needPosted (s.x b)
    s.barrierOp va false (fun r => r.post va (s.x b).toInt))

/-- bar.exp.arr (13 R339): both effects as one operation. -/
def execBarExpArr (a b : BitVec 5) (s : State) : Out :=
  s.finish (do
    let va := addrOf (s.x a)
    needPosted (s.x b)
    s.barrierOp va true (fun r => do
      let r ← r.post va (s.x b).toInt
      r.arrive va))

/-- bar.arr (13 R339). -/
def execBarArr (a : BitVec 5) (s : State) : Out :=
  s.finish (s.barrierOp (addrOf (s.x a)) true (fun r => r.arrive (addrOf (s.x a))))

/-- bar.drop (13 R339). -/
def execBarDrop (a : BitVec 5) (s : State) : Out :=
  s.finish (s.barrierOp (addrOf (s.x a)) true (fun r => r.drop (addrOf (s.x a))))

/-- bar.init (13 R339). -/
def execBarInit (a b : BitVec 5) (s : State) : Out :=
  s.finish (do
    let v := s.x b
    need (bits v 15 0 != 0 && bits v 63 17 == 0) .engineArg v
    let va := addrOf (s.x a)
    let m ← s.needBarrier va
    let s1 ← s.settleAll
    let s2 ← s1.release 2
    let s3 := s2.joinBarCycle (m.pa va) (coreKey s.core.num.toNat)
    .ok ((s3.ownHomeWrite (m.pa va) (barrierOf (v.setWidth 17)).bytes).touchAll .readWrite m).advance)

/-- The fills of its clean sectors that may be under way as the L1 invalidates its clean lines (13 R344 case 4; log entry 80). -/
def State.lateFills (s : State) : List (Nat × List Byte) :=
  (s.core.l1.late ++ (s.core.l1.sectors.map (fun k => (k, s.cacheRead (32 * k) 32)))).filter (fun e => s.fillUnderWay e.1)

/-- bar.wait (13 R340): an acquire at .dev. DEDUCED, log entry 80: a fill that an engine's write has overtaken may still arrive. -/
def execBarWait (d a b : BitVec 5) (s : State) : Out :=
  s.finish (do
    let va := addrOf (s.x a)
    let m ← s.needBarrier va
    let s1 ← s.settleAll
    let (r, s2) ← (s1.endBarCycleAt (m.pa va)).barrierAt va (m.pa va)
    if r.phase != (s.x b).getLsbD 0 then do
      let s3 := s2.touchAll .readWrite m
      .ok (({ s3.dropClean with core.l1.late := s3.lateFills } : State).setX d r.word1).advance
    else do
      needRange (!r.ovf && r.exp != 0) va
      .error (.wait .barrier))

/-- bar.test (13 R340): xb is zero in the word. -/
def execBarTest (d a : BitVec 5) (s : State) : Out :=
  s.finish (do
    let va := addrOf (s.x a)
    let m ← s.needBarrier va
    let s1 ← s.settleAll
    let (r, s2) ← (s1.endBarCycleAt (m.pa va)).barrierAt va (m.pa va)
    needRange (!r.ovf && r.exp != 0) va
    .ok ((s2.touchAll .readWrite m).setX d r.word1).advance)

/-! Operations of other cores and engines. -/

/-- An operation of a core on a barrier; the checks are those of the instruction (13 R339). -/
def Barrier.apply (b : Barrier) (op : BarOp) : Run? Barrier :=
  match op with
  | .post n => if pendOk n then b.post 0 n else .error (.trap .engineArg 0 0)
  | .postArrive n => do
    let b ← if pendOk n then b.post 0 n else .error (.trap .engineArg 0 0)
    b.arrive 0
  | .arrive => b.arrive 0
  | .drop => b.drop 0
  | .setup v => if bits (v.setWidth 64) 15 0 != 0 then .ok (barrierOf v) else .error (.trap .engineArg 0 0)

/-- A barrier that some core may use: aligned, in memory, and readable. -/
def State.barrierThere (s : State) (pa : Nat) : Bool := pa % 32 == 0 && s.physOk pa

/-- Another core's operation reaches a barrier's home: one that fails its check changes nothing (13 R337). -/
def State.barrierOpAway (s : State) (pa core : Nat) (op : BarOp) : State :=
  if core == s.core.num.toNat || 128 ≤ core || !s.barrierThere pa || !s.homesTake (linesOf pa 32) then s
  else
    let t := (linesOf pa 32).foldl State.writeBackLine (s.joinBarCycle pa (coreKey core))
    if t.homeBad pa 32 then t
    else
      match (t.readBarrier pa).apply op with
      | .error _ => t
      | .ok b => t.homeWrite .c pa (t.barTest pa b).bytes

/-- A delivery of an engine that serves another core. -/
def State.barrierDeliveryAway (s : State) (pa : Nat) (path : Path) (engine n : Nat) (failed : Bool) : State :=
  if s.barrierThere pa && s.homesTake (linesOf pa 32) && [Path.y, .l, .f].contains path then s.deliverBy path engine (some pa) n failed else s

/-- A cycle opens at a barrier's home; one that is open elsewhere ends. -/
def State.openBarCycle (s : State) (pa : Nat) : State :=
  let t := s.endBarCycle
  if t.barrierThere pa then { t with dev.barCycle := some ⟨pa, (0, 0)⟩ } else t

end Sys2Proof.Machine
end

