-- ==== Sys2Proof/Machine/Record.lean ====
section
/-! DEFINITION. Launch records: their fields (09 R218), extent division (R222, R223, R226), the checks of R219 to R221, and
the dispatcher's own translations and writes (R220). -/

namespace Sys2Proof.Machine

/-- A copied launch record: sixteen 8-byte words. -/
abbrev Rec := List Word64

/-- The word at byte offset 8 * i. -/
def Rec.w (r : Rec) (i : Nat) : Word64 := List.getD r i 0

/-! Fields (09 R218). -/

def Rec.prog (r : Rec) : Nat := bits (r.w 0) 55 0
def Rec.param (r : Rec) : Word64 := r.w 1
def Rec.ext0 (r : Rec) : Nat := bits (r.w 2) 31 0
def Rec.ext1 (r : Rec) : Nat := bits (r.w 2) 63 32
def Rec.ext2 (r : Rec) : Nat := bits (r.w 3) 31 0
def Rec.tile0 (r : Rec) : Nat := bits (r.w 3) 47 32
def Rec.tile1 (r : Rec) : Nat := bits (r.w 3) 63 48
def Rec.grid0 (r : Rec) : Nat := bits (r.w 4) 15 0
def Rec.grid1 (r : Rec) : Nat := bits (r.w 4) 31 16
def Rec.cls (r : Rec) : Nat := bits (r.w 4) 33 32
def Rec.pri (r : Rec) : Nat := bits (r.w 4) 36 34
def Rec.part (r : Rec) : Nat := bits (r.w 4) 39 37
def Rec.l1m (r : Rec) : Bool := (r.w 4).getLsbD 40
def Rec.smode (r : Rec) : Bool := (r.w 4).getLsbD 41
def Rec.det (r : Rec) : Bool := (r.w 4).getLsbD 42
def Rec.egraph (r : Rec) : Bool := (r.w 4).getLsbD 43
def Rec.ephase (r : Rec) : Bool := (r.w 4).getLsbD 44
def Rec.depcnt (r : Rec) : Nat := bits (r.w 4) 63 48
def Rec.ssz0 (r : Rec) : Nat := bits (r.w 5) 15 0
def Rec.ssz1 (r : Rec) : Nat := bits (r.w 5) 31 16
def Rec.energy (r : Rec) : Nat := bits (r.w 5) 63 32
def Rec.ccaddr (r : Rec) : Nat := bits (r.w 6) 55 0
def Rec.graph (r : Rec) : Nat := bits (r.w 7) 15 0
def Rec.phase (r : Rec) : Nat := bits (r.w 7) 31 16
def Rec.tbase (r : Rec) : Nat := bits (r.w 7) 63 32
def Rec.hotbase (r : Rec) : Nat := bits (r.w 8) 55 0
def Rec.hotlen (r : Rec) : Nat := bits (r.w 9) 31 0
def Rec.maxc (r : Rec) : Nat := bits (r.w 9) 39 32
def Rec.ibt (r : Rec) : Nat := bits (r.w 12) 55 0

/-- Successor k, 0 to 7. -/
def Rec.succ (r : Rec) (k : Nat) : Nat := bits (r.w (10 + k / 4)) (16 * (k % 4) + 15) (16 * (k % 4))

/-- The record of a live launch. -/
def Launch.record (l : Launch) : Rec := l.words

/-- The priority of a launch, its graph and its phase. -/
def Launch.pri (l : Launch) : Nat := l.record.pri
@[inherit_doc Launch.pri] def Launch.graph (l : Launch) : Nat := l.record.graph
@[inherit_doc Launch.pri] def Launch.phaseId (l : Launch) : Nat := l.record.phase

/-! Extent division. -/

/-- Division rounded up. -/
def ceilDiv (a b : Nat) : Nat := (a + b - 1) / b

/-- The units along a dimension and the extent of each (09 R222). -/
def division (e t g : Nat) : Nat × Nat :=
  if g == 0 then (ceilDiv e t, t) else (g, max t 1 * ceilDiv (ceilDiv e g) (max t 1))

/-- The divisions of dimensions 0 and 1 of a static record. -/
def Rec.div0 (r : Rec) : Nat × Nat := division r.ext0 r.tile0 r.grid0
@[inherit_doc Rec.div0] def Rec.div1 (r : Rec) : Nat × Nat := division r.ext1 r.tile1 r.grid1

/-- U of 09 R222, R226. -/
def Rec.units (r : Rec) : Nat := if r.smode then r.grid0 * r.grid1 else r.div0.1 * r.div1.1 * max r.ext2 1

/-- S of 09 R226; 0 in static mode. -/
def Rec.slices (r : Rec) : Nat :=
  if r.smode then ceilDiv r.ext0 r.ssz0 * ceilDiv r.ext1 r.ssz1 * max r.ext2 1 else 0

/-- Origin and extent of chunk c of a dimension (09 R222). -/
def chunkAt (e chunk c : Nat) : Nat × Nat := (c * chunk, min chunk (e - c * chunk))

/-- The identity registers of unit u (09 R223). -/
def Rec.ident (r : Rec) (id : BitVec 32) (part : BitVec 3) (u : Nat) : Ident :=
  let task := BitVec.ofNat 32 (r.tbase + u)
  if r.smode then
    { unit := BitVec.ofNat 32 u, launch := id, task := task, org0 := 0, org1 := 0, ext0 := BitVec.ofNat 32 r.ext0,
      ext1 := BitVec.ofNat 32 r.ext1, slice := BitVec.allOnes 32, nslice := BitVec.ofNat 32 r.slices, part := part }
  else
    let c0 := chunkAt r.ext0 r.div0.2 (u / r.div1.1 % r.div0.1)
    let c1 := chunkAt r.ext1 r.div1.2 (u % r.div1.1)
    { unit := BitVec.ofNat 32 u, launch := id, task := task, org0 := BitVec.ofNat 32 c0.1, org1 := BitVec.ofNat 32 c1.1,
      ext0 := BitVec.ofNat 32 c0.2, ext1 := BitVec.ofNat 32 c1.2, slice := BitVec.ofNat 32 u,
      nslice := BitVec.ofNat 32 r.units, part := part }

/-! The dispatcher's translations (09 R220; 10 R263). -/

/-- The physical checks of an access at unit level (10 R254, R257, R258). -/
def State.dispPhys (s : State) (pa : Nat) : Except Cause Unit := if s.physOk pa then .ok () else .error .physRange

/-- One page as the dispatcher translates it: an access at unit level that needs rd and wr, attribute 0 and by 0. -/
def State.dispLeaf (s : State) (p : BitVec 3) (va : Nat) : Except Cause Xl := do
  let x ← s.walk p va
  leafCheck x .readWrite 0 true
  s.dispPhys (x.paOf va)
  .ok x

/-- The walk's bits are set in the leaf (10 R263). -/
def State.walkBits (s : State) (acc : Access) (x : Xl) : State :=
  match x.entry with
  | none => s
  | some ea => s.setPteBits acc x ea

/-- A page that the dispatcher keeps: its 4 KiB block, the block's physical address, log2 of the page size. -/
abbrev Kept := Nat × Nat × Nat

/-- Translating the blocks of a range, lowest first: the pages kept, or the first cause with its address; and the state after it. -/
def State.dispBlocks (s : State) (p : BitVec 3) : List Nat → Except (Cause × Nat) (List Kept) × State
  | [] => (.ok [], s)
  | b :: r =>
    match s.dispLeaf p b with
    | .error c => (.error (c, b), s)
    | .ok x =>
      let (ks, t) := (s.walkBits .readWrite x).dispBlocks p r
      (ks.map (fun ks => (b / 4096, x.paOf (b / 4096 * 4096), x.size) :: ks), t)

/-- Translating a range of the dispatcher. A range past the end of the address space gives ADDR_RANGE (DEDUCED, log entry
27). -/
def State.dispRange (s : State) (p : BitVec 3) (va n : Nat) : Except (Cause × Nat) (List Kept) × State :=
  if va == 0 then (.ok [], s)
  else if 2 ^ 56 < va + n then (.error (.addrRange, va), s)
  else s.dispBlocks p (blocksOf va n)

/-- The bytes that the idle/busy table occupies (09 R220). -/
def Rec.ibtLen (r : Rec) : Nat := 16 * r.units + 4 * r.slices

/-! The checks of 09 R219. -/

/-- A rejection: the status and the aux word. -/
structure Reject where
  status : Nat
  aux : Word64
  deriving DecidableEq, Repr

/-- REJECT_RECORD with a word and a bit, and a cause for check 10. -/
def rejectAt (word bit cause : Nat) : Reject := ⟨3, BitVec.ofNat 64 (word + bit * 2 ^ 8 + cause * 2 ^ 14)⟩

/-- The reserved bits of word i of a record. -/
def reservedMask (i : Nat) : Nat :=
  match i with
  | 0 | 6 | 8 | 12 => 2 ^ 64 - 2 ^ 56
  | 4 => 7 * 2 ^ 45
  | 9 => 2 ^ 64 - 2 ^ 40
  | 13 | 14 | 15 => 2 ^ 64 - 1
  | _ => 0

/-- The lowest set bit of a word below 64. -/
def lowBit (v : Nat) : Nat := ((List.range 64).find? (fun i => v.testBit i)).getD 0

/-- Check 1. -/
def Rec.reservedBad (r : Rec) : Option Reject :=
  ((List.range 16).find? (fun i => Nat.land (r.w i).toNat (reservedMask i) != 0)).map (fun i =>
    rejectAt (8 * i) (lowBit (Nat.land (r.w i).toNat (reservedMask i))) 0)

/-- Check 2. -/
def Rec.alignBad (r : Rec) : Option Reject :=
  if r.prog % 4 != 0 then some (rejectAt 0x00 0 0)
  else if r.ccaddr % 8 != 0 then some (rejectAt 0x30 0 0)
  else if r.ibt % 16 != 0 then some (rejectAt 0x60 0 0)
  else none

/-- Check 5, for a pool of n entries. -/
def Rec.succBad (r : Rec) (n : Nat) : Option Reject :=
  ((List.range 8).find? (fun k => r.succ k != 0xFFFF && decide (n ≤ r.succ k))).map (fun k =>
    rejectAt (0x50 + 8 * (k / 4)) (16 * (k % 4)) 0)

/-- Checks 6 and 7. -/
def Rec.gridBad (r : Rec) : Option Reject :=
  if !r.smode then
    if r.grid0 == 0 && r.tile0 == 0 then some (rejectAt 0x20 0 0)
    else if r.grid1 == 0 && r.tile1 == 0 then some (rejectAt 0x20 16 0)
    else none
  else if r.grid0 == 0 then some (rejectAt 0x20 0 0)
  else if r.grid1 == 0 then some (rejectAt 0x20 16 0)
  else if r.ssz0 == 0 then some (rejectAt 0x28 0 0)
  else if r.ssz1 == 0 then some (rejectAt 0x28 16 0)
  else none

/-- Checks 1 to 9 (09 R219), in order. -/
def Rec.fieldsBad (r : Rec) (p : BitVec 3) (pool : Nat) : Option Reject :=
  r.reservedBad.orElse (fun _ => r.alignBad.orElse (fun _ =>
    if r.cls == 3 then some (rejectAt 0x20 32 0)
    else if r.part != p.toNat then some (rejectAt 0x20 37 0)
    else (r.succBad pool).orElse (fun _ => r.gridBad.orElse (fun _ =>
      if 16777216 < r.units then some (rejectAt 0x20 0 0)
      else if 128 < r.maxc then some (rejectAt 0x48 32 0)
      else none))))

/-- Entries of the launch pool (16 R410). -/
def Part.poolEntries (p : Part) : Nat := min p.poolsize.toNat 4096

/-- Check 10: the translations of ccaddr and ibt, which the dispatcher keeps, and the state after the walks. -/
def State.tablesBad (s : State) (p : BitVec 3) (r : Rec) : Except Reject (List Kept) × State :=
  match s.dispRange p r.ccaddr 8 with
  | (.error c, s1) => (.error (rejectAt 0x30 0 c.1.code.toNat), s1)
  | (.ok k1, s1) =>
    match s1.dispRange p r.ibt r.ibtLen with
    | (.error c, s2) => (.error (rejectAt 0x60 0 c.1.code.toNat), s2)
    | (.ok k2, s2) => (.ok (k1 ++ k2), s2)

/-- Two task ranges modulo 2^32 share a value: the lowest one that they share (09 R221). -/
def sharedTask (a n b m : Nat) : Option Nat :=
  let cands := ([a, b, 0].filter (fun t => decide ((t + 2 ^ 32 - a) % 2 ^ 32 < n) && decide ((t + 2 ^ 32 - b) % 2 ^ 32 < m)))
  cands.foldl (fun acc t =>
    match acc with
    | some u => some (min u t)
    | none => some t) none

/-- The task ranges of the live launches (09 R221): those whose record is not yet written are live. -/
def Part.taskRanges (p : Part) : List (BitVec 32 × Nat × Nat) :=
  p.launches.map (fun l => (l.id, l.record.tbase, l.record.units)) ++ p.unwritten

/-- REJECT_TASK (09 R221). DESIGN CHOICE, log entry 71: of several live launches whose task ranges meet the record's, the first
of that list. -/
def Part.taskClash (p : Part) (r : Rec) : Option Reject :=
  p.taskRanges.findSome? (fun l => (sharedTask r.tbase r.units l.2.1 l.2.2).map (fun t =>
    ⟨0xB, BitVec.ofNat 64 (l.1.toNat + t * 2 ^ 32)⟩))

/-- The open launches of a graph, and of a phase (09 R216): the live ones that joined it. -/
def Part.openGraph (p : Part) (g : Nat) : Nat := (p.launches.filter (fun l => l.graph == g)).length
@[inherit_doc Part.openGraph] def Part.openPhase (p : Part) (h : Nat) : Nat := (p.launches.filter (fun l => l.phaseId == h)).length

/-- REJECT_LIMIT (09 R216): the launch would open a graph beyond 1,024 or a phase beyond 64. -/
def Part.limitBad (p : Part) (r : Rec) : Bool :=
  (p.openGraph r.graph == 0 && decide (1024 ≤ (p.launches.map Launch.graph).dedup.length))
  || (p.openPhase r.phase == 0 && decide (64 ≤ (p.launches.map Launch.phaseId).dedup.length))

/-- A record at its arming or submission (09 R219 to R221, R216): the translations kept, or why it is rejected; and the state after
the dispatcher's walks. -/
def State.validate (s : State) (p : BitVec 3) (r : Rec) : Except Reject (List Kept) × State :=
  let pt := s.partAt p
  match r.fieldsBad p pt.poolEntries with
  | some e => (.error e, s)
  | none =>
    match s.tablesBad p r with
    | (.error e, t) => (.error e, t)
    | (.ok ks, t) =>
      if pt.budget != 0 && decide (pt.budget.toNat < r.energy) then (.error ⟨5, 0⟩, t)
      else
        match pt.taskClash r with
        | some e => (.error e, t)
        | none => if pt.limitBad r then (.error ⟨6, 0⟩, t) else (.ok ks, t)

/-! The dispatcher's writes (09 R217, R220, R241). -/

/-- The physical address of a block that a launch's dispatcher writes to: kept, or translated again and then kept (09 R220). -/
def State.dispPa (s : State) (p : BitVec 3) (l : Launch) (va : Nat) : Except Cause (Nat × State) :=
  match (((s.partAt p).launch l.id).getD l).xlat.find? (fun k => k.1 == va / 4096) with
  | some k => do
    s.dispPhys (k.2.1 + va % 4096)
    .ok (k.2.1 + va % 4096, s)
  | none => do
    let x ← s.dispLeaf p va
    .ok (x.paOf va, (s.walkBits .readWrite x).modPart p (fun q => q.modLaunch l.id (fun k =>
      { k with xlat := (va / 4096, x.paOf (va / 4096 * 4096), x.size) :: k.xlat })))

/-- A write of the dispatcher through path h (09 R220): when its page no longer translates, or its address no longer lies in memory and
a domain (10 R254, R257), it is not performed, and a record of type 2 tells it. The bytes lie in one block. -/
def State.dispWrite (s : State) (p : BitVec 3) (l : Launch) (va : Nat) (f : Nat → State → List Byte) : State :=
  match s.dispPa p l va with
  | .ok (pa, t) => t.homeWrite .h pa (f pa t)
  | .error c =>
    s.faultLog p 2 c.code false false 0 0 (BitVec.ofNat 32 l.record.tbase) l.id 0 (BitVec.ofNat 64 va) 0 0

/-- The idle/busy entry of a unit (09 R241). -/
def State.busyEntry (s : State) (p : BitVec 3) (l : Launch) (u : UnitRec) (ended : Bool) : State :=
  if l.record.ibt == 0 then s
  else
    let task := BitVec.ofNat 32 (l.record.tbase + u.u)
    (s.dispWrite p l (l.record.ibt + 16 * u.u) (fun _ t =>
      leBytes 4 (Config.busyCycles task.toNat t.tick).toNat ++ leBytes 4 (Config.idleCycles task.toNat t.tick).toNat
        ++ leBytes 4 (u.core % 128 + 2 ^ 7 + if ended then 2 ^ 8 else 0) ++ leBytes 4 u.drawn)).ticked

/-- The entry of a slice that a core drew (09 R241). -/
def State.sliceEntry (s : State) (p : BitVec 3) (l : Launch) (slice core u : Nat) : State :=
  if l.record.ibt == 0 then s
  else s.dispWrite p l (l.record.ibt + 16 * l.record.units + 4 * slice) (fun _ _ => leBytes 4 (core % 128 + 2 ^ 7 + u * 2 ^ 8))

/-- The completion counter is incremented at its home by an atomic add, released at .dev on path h (09 R217). DESIGN CHOICE, log
entry 72: data there that cannot be corrected is added to as it is stored. -/
def State.countUp (s : State) (p : BitVec 3) (l : Launch) : State :=
  if l.record.ccaddr == 0 then s
  else s.dispWrite p l l.record.ccaddr (fun pa t =>
    let home := (linesOf pa 8).foldl State.writeBackLine t
    leBytes 8 (home.mem.readNat pa 8 + 1))

end Sys2Proof.Machine
end

