-- ==== Sys2Proof/Machine/Mailbox.lean ====
section
/-! DEFINITION. The local mailbox instructions (04 R124 to R128; 01 R33 to R35). -/

namespace Sys2Proof.Machine

/-- A local write to a mailbox (01 R35; 04 R126): a full one is overwritten and k.sticky.mov is set. -/
def State.mwrite (s : State) (m : BitVec 3) (v : Word64) : State :=
  (s.stick 2 (s.mbox m).full).setMbox m ⟨v, true⟩

/-- The mailbox is full; otherwise the T form traps and the B form waits (01 R34). -/
def State.needFull (s : State) (m : BitVec 3) (bt : BitVec 1) : Run? Unit :=
  if (s.mbox m).full then .ok ()
  else if bt == 1 then .error (.trap .mboxEmpty (m.setWidth 64) 0)
  else .error (.wait .mailbox)

/-- mrd (04 R125): the value is consumed. -/
def execMrd (m : BitVec 3) (bt : BitVec 1) (d : BitVec 5) (s : State) : Out :=
  s.finish (do
    s.needFull m bt
    .ok ((s.setX d (s.mbox m).val).setMbox m ⟨(s.mbox m).val, false⟩).advance)

/-- mpk (04 R125): the value stays. -/
def execMpk (m : BitVec 3) (bt : BitVec 1) (d : BitVec 5) (s : State) : Out :=
  s.finish (do
    s.needFull m bt
    .ok (s.setX d (s.mbox m).val).advance)

/-- wfm (04 R125). -/
def execWfm (m : BitVec 3) (bt : BitVec 1) (s : State) : Out :=
  s.finish (do
    s.needFull m bt
    .ok s.advance)

/-- mwr (04 R126). -/
def execMwr (m : BitVec 3) (b : BitVec 5) (s : State) : Out := .next (s.mwrite m (s.x b)).advance

/-- mclr (04 R127). -/
def execMclr (m : BitVec 3) (s : State) : Out := .next (s.setMbox m ⟨(s.mbox m).val, false⟩).advance

/-- The full bits of m7 to m0 (04 R128). -/
def State.fullMask (s : State) : Nat :=
  ((List.range 8).map (fun i => if (s.mbox (BitVec.ofNat 3 i)).full then 2 ^ i else 0)).foldl (· + ·) 0

/-- mfull (04 R128). -/
def execMfull (d : BitVec 5) (s : State) : Out := .next (s.setX d (BitVec.ofNat 64 s.fullMask)).advance

end Sys2Proof.Machine
end

