-- ==== Sys2Proof/Machine/Flags.lean ====
section
/-! DEFINITION. The flag computations of tile arithmetic (01 R24; 02 R59, R63, R65; 07 R179, R193) and the results that
carry them: a value with the flags that computing it raises. -/

namespace Sys2Proof.Machine

/-- A container and the flags that computing it raises. -/
structure Flagged where
  bits : Word32
  nf : Bool
  iov : Bool
  deriving DecidableEq, Repr

/-- An fp32, bf16 or fp16 result rounded to nearest-even (02 R57, R61). nf: it is NaN or infinite and every value that
fed it was finite (07 R179). -/
def floatResult (f : FFmt) (ftz fed : Bool) (v : FVal) : Flagged :=
  let r := f.round .rne false ftz v
  ⟨BitVec.ofNat 32 r.bits, fed && !(f.read false r.bits).isFinite, false⟩

/-- An integer result written modulo 2^32; iov: the exact value lies outside the result format (07 R179). -/
def intResult (fmt : BitVec 5) (i : Int) : Flagged :=
  match intRange fmt with
  | some (lo, hi) => ⟨BitVec.ofInt 32 i, false, decide (i < lo) || decide (hi < i)⟩
  | none => ⟨BitVec.ofInt 32 i, false, false⟩

/-- The tile of a matrix of flagged results. -/
def tileOf (fmt : BitVec 5) (r c : Nat) (rows : List (List Flagged)) : Tile :=
  { Tile.build fmt r c (fun _ _ => 0) with rows := rows.map (fun row => row.map (·.bits)) }

/-- Rows of flagged results from a function of position. -/
def flaggedRows (r c : Nat) (f : Nat → Nat → Flagged) : List (List Flagged) :=
  (List.range r).map (fun i => (List.range c).map (fun j => f i j))

/-- Some element raised nf; some raised iov. -/
def anyNf (rows : List (List Flagged)) : Bool := rows.any (fun r => r.any (·.nf))
@[inherit_doc anyNf] def anyIov (rows : List (List Flagged)) : Bool := rows.any (fun r => r.any (·.iov))

/-- A tile of flagged results is written, with its flags (01 R24, R25). -/
def State.writeFlagged (s : State) (d : BitVec 4) (fmt : BitVec 5) (r c : Nat) (rows : List (List Flagged)) : State :=
  ((s.setT d (tileOf fmt r c rows)).stick 0 (anyNf rows)).stick 1 (anyIov rows)

/-- fp32 values from their encodings, for accumulation: an encoding read under ftz (02 R61). -/
def fp32Val (ftz : Bool) (b : Nat) : FVal := fp32.read ftz b

/-- rne32 of a sum as an encoding (02 R64, R66). -/
def addRne (ftz : Bool) (a b : FVal) : FVal := rne32 ftz (FVal.add false a b)

/-- k.tval of a tile machine check (06 R171; 07 R181). -/
def poisonVal (row reg role kind : Nat) : Word64 := BitVec.ofNat 64 (row + reg * 2 ^ 5 + role * 2 ^ 9 + kind * 2 ^ 11)

/-- An operand of a tile instruction whose rows are consumed: its register, its role, and how many rows count. -/
structure Consumed where
  reg : BitVec 4
  role : Nat
  rows : Nat
  deriving DecidableEq, Repr

/-- The lowest poisoned row that is consumed, in the order of the operands (06 R171; 07 R181), ends the instruction. -/
def State.needClean (s : State) : List Consumed → Run? Unit
  | [] => .ok ()
  | c :: r =>
    match (List.range c.rows).find? (fun i => (s.t c.reg).bad i) with
    | some i => .error (.trap .machineCheck (poisonVal i c.reg.toNat c.role 0) (s.t c.reg).origin)
    | none => s.needClean r

end Sys2Proof.Machine
end

