-- ==== Sys2Proof/Machine/TileMem.lean ====
section
/-! DEFINITION. Tile memory: row addresses, reading and writing rows, the xe4 decoder, and opcodes 0x38 to 0x3C
(05 R130 to R147; 02 R47 to R56; 12 R319; 13 R331, R348). -/

namespace Sys2Proof.Machine

/-- The end of the virtual address space. -/
def vaEnd : Nat := 2 ^ 56

/-- The size of a local store (10 R247). -/
def lsSize : Nat := 0x80000

/-! Sources of bytes. -/

/-- Where a load reads: a byte by address, and the origin that the byte leaves when it is uncorrectable (14 R375). -/
structure Reader where
  byte : Nat → Byte
  bad : Nat → Option Nat

/-- Memory as the core's loads see it, through translations. -/
def State.memReader (s : State) (m : XMap) : Reader :=
  { byte := fun va => s.cacheByte (m.pa (va % vaEnd)),
    bad := fun va => let pa := m.pa (va % vaEnd)
                     if s.cacheBad pa then some (granuleOf pa * granuleSize) else none }

/-- The local store (10 R247). -/
def State.lsReader (s : State) : Reader :=
  { byte := fun o => s.core.ls.read o,
    bad := fun o => if s.core.lsPoison.contains (granuleOf o) then some (Config.localOrigin s.core.num.toNat o) else none }

/-! Ranges. -/

/-- A byte range that wraps at the end of the address space, as ranges that do not. -/
def wrapRange (a n : Nat) : List (Nat × Nat) :=
  let a := a % vaEnd
  if a + n ≤ vaEnd then [(a, n)] else [(a, vaEnd - a), (0, a + n - vaEnd)]

/-- The bytes of a memory row: its elements and its scale byte (05 R132). A row without elements still has its scale byte. -/
def rowBytes (sp : RowSpan) (ra : Nat) : List (Nat × Nat) :=
  (if sp.elemLen == 0 then [] else wrapRange (ra + sp.elemOff) sp.elemLen) ++ (match sp.scaleOff with
    | some o => wrapRange (ra + o) 1
    | none => [])

/-- The bytes of a memory row that a load reads: none when mc is 0 (05 R135). -/
def rowRanges (sp : RowSpan) (mc ra : Nat) : List (Nat × Nat) := if mc == 0 then [] else rowBytes sp ra

/-- The addresses of the memory rows (05 R132). -/
def rowAddrs (addr stride mr : Nat) : List Nat := (List.range mr).map (fun i => addr + i * stride)

/-- The length of the range of a row access (05 R144): row 0 to the span of the last row; 0 when it is empty. -/
def rangeLen (sp : RowSpan) (stride mr mc : Nat) : Nat :=
  if mr == 0 || mc == 0 then 0 else (mr - 1) * stride + sp.len

/-- ADDR_RANGE (05 R144). -/
def needAddr (addr len : Nat) : Run? Unit := need (addr + len ≤ vaEnd) .addrRange (BitVec.ofNat 64 addr)

/-- LOCAL_RANGE (05 R142): k.tval is the lowest byte of the range beyond the limit. -/
def needLocal (addr len : Nat) : Run? Unit :=
  need (len == 0 || addr + len ≤ lsSize) .localRange (BitVec.ofNat 64 (max addr lsSize))

/-! Local-store ranges that detached work holds (13 R331, R348). -/

/-- The local-store range of a place. -/
def Place.lsRange (p : Place) (len : Nat) : List (Nat × Nat) :=
  match p with
  | .ls o => [(o, len)]
  | .mem _ => []

/-- The local-store ranges that a detached command still reads or writes (13 R331). -/
def Cmd.lsRanges (c : Cmd) : List (Nat × Nat) :=
  match c.kind with
  | .bcp src dst _ len _ => src.lsRange len ++ dst.lsRange len
  | .a2a quad _ sbase dbase csz _ _ _ =>
    let g := if quad then 16 else 4
    [(sbase, g * csz), (dbase, g * csz)]
  | .cred _ src _ nelem data => if data.isSome then [] else src.lsRange (4 * nelem)
  | .ofld .. => []

/-- A bound stream whose ring overlaps a range: its number (13 R348). -/
def State.ringClash (s : State) (a n : Nat) : Option Nat :=
  (List.range 4).find? (fun i =>
    let q := s.stream (BitVec.ofNat 2 i)
    q.bound && overlap q.lsbase.toNat (2 ^ q.lsz.toNat) a n)

/-- The wait or the trap of a local-store access that overlaps detached work (13 R331, R348). -/
def State.needLocalFree (s : State) (a n : Nat) : Run? Unit :=
  match s.ringClash a n with
  | some q => .error (.trap .streamBusy (BitVec.ofNat 64 q) 0)
  | none =>
    if s.core.cmds.any (fun c => c.lsRanges.any (fun r => overlap r.1 r.2 a n)) then .error (.wait .other) else .ok ()

/-! Rows read. -/

/-- One memory row as it is read: elements, scale byte, the element columns and the scale that uncorrectable bytes
reach, whether any byte was uncorrectable, and the first origin. -/
structure RowData where
  elems : List Word32
  scale : Byte
  badCols : List Nat
  bad : Bool
  origin : Option Nat

/-- Reading one row, its scale byte included (05 R132, R136). DESIGN CHOICE, log entry 63: a scale byte that is uncorrectable keeps
its stored value beside the poison of its row. -/
def Reader.wholeRow (rd : Reader) (f : BitVec 5) (sp : RowSpan) (mc ra : Nat) : RowData :=
  let a := ra + sp.elemOff
  let badBytes := (List.range sp.elemLen).filter (fun i => (rd.bad (a + i)).isSome)
  let w := widthOf f
  let hit (j : Nat) : Bool := badBytes.any (fun i => decide (w * j / 8 ≤ i) && decide (i ≤ (w * j + w - 1) / 8))
  let firstE := (badBytes.head?).bind (fun i => rd.bad (a + i))
  let scaleBad := sp.scaleOff.bind (fun o => rd.bad (ra + o))
  { elems := unpackRow f ((List.range sp.elemLen).map (fun i => rd.byte (a + i))) mc,
    scale := (match sp.scaleOff with
      | some o => rd.byte (ra + o)
      | none => 0),
    badCols := (List.range mc).filter hit,
    bad := !badBytes.isEmpty || scaleBad.isSome,
    origin := firstE.orElse (fun _ => scaleBad) }

/-- Reading one row of memory (05 R135): a row without columns reads no byte. -/
def Reader.row (rd : Reader) (f : BitVec 5) (sp : RowSpan) (mc ra : Nat) : RowData :=
  if mc == 0 then ⟨[], 0, [], false, none⟩ else rd.wholeRow f sp mc ra

/-- Memory rows placed in a tile (05 R135, R136): with tr the element (i, j) goes to row j. -/
def placeRows (fmt : BitVec 5) (scl tr : Bool) (rext cext : Nat) (rows : List RowData) (key : Option StackKey) : Tile :=
  let el (i j : Nat) : Word32 := ((rows[i]?).map (fun r => r.elems.getD j 0)).getD 0
  let badRow (i : Nat) : Bool :=
    if tr then rows.any (fun r => r.badCols.contains i) else ((rows[i]?).map (·.bad)).getD false
  let bad := (List.range rext).filter badRow
  { fmt := fmt, rext := rext, cext := cext, scl := scl,
    rows := buildRows rext cext (fun i j => if badRow i then 0 else if tr then el j i else el i j),
    scale := (List.range rext).map (fun i => if scl then ((rows[i]?).map (·.scale)).getD 0 else 0),
    poison := maskOf bad, origin := if bad.isEmpty then 0 else ((rows.filterMap (·.origin)).head?).getD 0,
    key := key, mapped := true }

/-! Pointer and shape checks (05 R145 steps 1 and 2). -/

/-- The pointer of a tile memory instruction: its tag, its block length against the half bit, the transpose bit and
the memory columns, and whether xe4 is accepted (05 R132, R135, R137). -/
def needPointer (p : Word64) (half tr xe4Ok : Bool) (mc : Nat) : Run? Unit :=
  need (tagOk p && !(tr && (ptrBlock p != 0 || ptrFmt p == xe4)) && (xe4Ok || ptrFmt p != xe4)
    && (!half || ptrBlock p == 64) && !(ptrBlock p == 16 && decide (16 < mc))) .badFormat p

/-- The shape register under esrc 0 (05 R131), and nblk of an xe4 load. -/
def needShape (esrc : BitVec 2) (p sh : Word64) : Run? Unit :=
  need (!(esrc == 0 && (decide (32 < shRows sh) || decide (32 < shCols sh))) && !(ptrFmt p == xe4 && shAux sh == 0))
    .tileShape sh

/-- The step of 05 R138, as the register written and its value. -/
def autoStep (xa xb : BitVec 5) (ai dir : BitVec 1) (p sh : Word64) (sz : Shape) : Option (BitVec 5 × Word64) :=
  if ai == 0 then none
  else if ptrFmt p == xe4 then
    let d := if dir == 1 then 1 else sz.mr * shAux sh
    some (xb, BitVec.ofNat 64 (bits sh 63 32 * 2 ^ 32 + (shStride sh + d) % 2 ^ 32))
  else
    let d := if dir == 0 then shStride sh * sz.mr
      else if ptrBlock p == 0 then packed (ptrFmt p) sz.mc else packed (ptrFmt p) (ptrBlock p) + 1
    some (xa, BitVec.ofNat 64 (bits p 63 56 * 2 ^ 56 + (addrOf p + d) % vaEnd))

/-- The pointer advances (05 R138). -/
def State.autoInc (s : State) (u : Option (BitVec 5 × Word64)) : State :=
  match u with
  | some (r, v) => s.setX r v
  | none => s

/-- The range key of a load (12 R319): its first byte lies `first` bytes past the pointer. -/
def State.rangeKey (s : State) (m : XMap) (p sh : Word64) (tr : Bool) (sz : Shape) (first : Nat) : Option StackKey :=
  if s.k.pinned && ptrFmt p != xe4 && !m.isEmpty && m.all (fun e => e.2.by? && e.2.sh?) then
    match s.beryl.pins.find? (fun e => e.entry == s.k.pinEntry) with
    | some pin => some (.range (m.pa (addrOf p + first)) (shStride sh) (ptrFmt p) (ptrLbl p) tr sz.rext sz.cext pin.slotPa s.k.pinVer)
    | none => none
  else none

/-! xe4 (02 R51 to R54; 05 R137). -/

/-- Why a row-block is not decoded. -/
inductive XeStop where
  /-- The byte's page does not translate, or its address is refused. -/
  | fault (c : Cause) (va : Nat)
  /-- The byte is uncorrectable, with its origin. -/
  | bad (origin : Nat)
  /-- 02 R53. -/
  | format
  /-- A home does not take the request yet (16 R406). -/
  | wait

/-- A byte as it is read: its value, and its origin when it is uncorrectable. -/
abbrev XeByte := Byte × Option Nat

/-- One byte of an xe4 tensor, translated when it is reached. -/
def State.xeRaw (s : State) (va : Nat) : Except XeStop XeByte :=
  let a := va % vaEnd
  if !s.walkTaken .read a then .error .wait
  else
  match s.translate .read true a with
  | .error c => .error (.fault c a)
  | .ok x =>
    let pa := x.paOf a
    if !s.physOk pa then .error (.fault .physRange a)
    else if !s.core.l1.holds (lineOf pa) && !s.homesAccept [lineOf pa] then .error .wait
    else .ok (s.cacheByte pa, if s.cacheBad pa then some (granuleOf pa * granuleSize) else none)

/-- n bytes of an xe4 tensor: every one is translated before any is looked at. -/
def State.xeRaws (s : State) (va : Nat) : Nat → Except XeStop (List XeByte)
  | 0 => .ok []
  | n + 1 => do
    let b ← s.xeRaw va
    let r ← s.xeRaws (va + 1) n
    .ok (b :: r)

/-- Bytes that must be clean: the first uncorrectable one stops the row. -/
def xeClean (bs : List XeByte) : Except XeStop (List Byte) :=
  match (bs.filterMap (·.2)).head? with
  | some o => .error (.bad o)
  | none => .ok (bs.map (·.1))

/-- n bytes of an xe4 tensor. -/
def State.xeBytes (s : State) (va n : Nat) : Except XeStop (List Byte) := do
  let bs ← s.xeRaws va n
  xeClean bs

/-- The bytes that the tokens of a row-block occupy at most (02 R51). -/
def xeTokenMax : Nat := 124

/-- One bit of the token stream of the row-block at va. No row-block has a token beyond the longest part of 02 R51. -/
def State.xeBit (s : State) (va pos : Nat) : Except XeStop Bool := do
  if 8 * xeTokenMax ≤ pos then .ok false
  else
    let bs ← s.xeBytes (va + 17 + pos / 8) 1
    .ok ((bs.getD 0 0).getLsbD (pos % 8))

/-- A unary run and its closing zero-bit (02 R52): its length, and the next position; n is at least what is left of the token
part. -/
def State.xeUnary (s : State) (va : Nat) : Nat → Nat → Nat → Except XeStop (Nat × Nat)
  | 0, pos, q => .ok (q, pos)
  | n + 1, pos, q => do
    let b ← s.xeBit va pos
    if b then s.xeUnary va n (pos + 1) (q + 1) else .ok (q, pos + 1)

/-- The k low bits of a token. -/
def State.xeLow (s : State) (va pos : Nat) : Nat → Nat → Except XeStop Nat
  | 0, _ => .ok 0
  | k + 1, i => do
    let b ← s.xeBit va (pos + i)
    let r ← s.xeLow va pos k (i + 1)
    .ok (r + if b then 2 ^ i else 0)

/-- Tokens decoded to exponents, none for one that 02 R53 refuses (02 R52, R53), from element 0 on, and the position after the
last. A refused token does not end the reading of the row-block (05 R137). -/
def State.xeTokens (s : State) (va b k : Nat) : Nat → Nat → Except XeStop (List (Option Nat) × Nat)
  | 0, pos => .ok ([], pos)
  | n + 1, pos => do
    let (q, pos) ← s.xeUnary va (8 * xeTokenMax - pos) pos 0
    let low ← s.xeLow va pos k 0
    let z := q * 2 ^ k + low
    let e : Int := if z % 2 == 0 then (b : Int) + z / 2 else (b : Int) - (z + 1) / 2
    let ok := decide (q ≤ 30 / 2 ^ k) && decide (z ≤ 30) && decide (0 ≤ e) && decide (e ≤ 15)
    let (es, last) ← s.xeTokens va b k n (pos + k)
    .ok ((if ok then some e.toNat else none) :: es, last)

/-- A decoded row-block: 32 fp8e4 elements, the scale byte, and the bytes it occupies. -/
structure XeBlock where
  elems : List Word32
  scale : Byte
  len : Nat

/-- The row-block at va (02 R51 to R53). Its header, its nibbles and the four bytes that 32 tokens take at least are read
first, then the tokens and the scale byte; uncorrectable data keeps the decoder from checking it (05 R137). -/
def State.xeBlock (s : State) (va : Nat) (scaled : Bool) : Except XeStop XeBlock := do
  let hd ← s.xeBytes va 21
  let h := (hd.getD 0 0).toNat
  let (es, pos) ← s.xeTokens va (h / 16) (h / 4 % 4) 32 0
  let used := 17 + min ((pos + 7) / 8) xeTokenMax
  let sc ← if scaled then s.xeBytes (va + used) 1 else .ok [0]
  if h % 4 != 0 || es.any (·.isNone) then .error .format
  else
    let el (i : Nat) (e : Option Nat) : Word32 :=
      let nib := (hd.getD (1 + i / 2) 0).toNat / 2 ^ (4 * (i % 2)) % 16
      BitVec.ofNat 32 (nib / 8 * 128 + e.getD 0 * 8 + nib % 8)
    .ok ⟨es.mapIdx el, sc.getD 0 0, used + if scaled then 1 else 0⟩

/-- One row of an xe4 load (05 R137), with the header address of its row-block. -/
def State.xeRow (s : State) (addr entry : Nat) (scaled : Bool) : Nat × Except XeStop XeBlock :=
  match s.xeBytes (addr + 4 * entry) 4 with
  | .error e => (0, .error e)
  | .ok bs =>
    let va := (addr + leNat bs) % vaEnd
    (va, s.xeBlock va scaled)

/-- The lowest of the faulting addresses: translation before the physical checks. -/
def lowestFault (phys : Bool) (fs : List (Cause × Nat)) : Option (Cause × Nat) :=
  (fs.filter (fun f => (f.1 == .physRange) == phys)).foldl (fun m f =>
    match m with
    | some b => if f.2 < b.2 then some f else some b
    | none => some f) none

/-- The rows of an xe4 load with its checks in the order of 05 R145 steps 5 and 6, and the byte ranges that were read. -/
def State.xeRows (s : State) (p sh : Word64) (sz : Shape) : Run? (List RowData × List (Nat × Nat)) := do
  let scaled := ptrBlock p != 0
  let rows := (List.range sz.mr).map (fun i => s.xeRow (addrOf p) (shStride sh + i * shAux sh) scaled)
  let faults := rows.filterMap (fun r =>
    match r.2 with
    | .error (.fault c va) => some (c, va)
    | _ => none)
  needTaken (rows.all (fun r => match r.2 with
    | .error .wait => false
    | _ => true))
  match (lowestFault false faults).orElse (fun _ => lowestFault true faults) with
  | some (c, va) => .error (.trap c (BitVec.ofNat 64 va) 0)
  | none =>
    match rows.find? (fun r => match r.2 with
      | .error .format => true
      | _ => false) with
    | some r => .error (.trap .badFormat (BitVec.ofNat 64 r.1) 0)
    | none =>
      let entries := ((List.range sz.mr).map (fun i => wrapRange ((addrOf p + 4 * (shStride sh + i * shAux sh)) % vaEnd) 4)).flatten
      let blocks := (rows.map (fun r =>
        match r.2 with
        | .ok k => wrapRange r.1 k.len
        | .error _ => [])).flatten
      .ok (rows.map (fun r =>
        match r.2 with
        | .ok k => ⟨k.elems.take sz.mc, k.scale, [], false, none⟩
        | .error (.bad g) => ⟨List.replicate sz.mc 0, 0, List.range sz.mc, true, some g⟩
        | .error _ => ⟨[], 0, [], false, none⟩), entries ++ blocks)

/-- What an address range that was read leaves behind: the walks' bits and the L1 lines. -/
def State.readTouch (s : State) (m : XMap) (ranges : List (Nat × Nat)) (hint : BitVec 2 := 0) : State :=
  ranges.foldl (fun s r => (m.runs r.1 r.2).foldl (fun s q => s.fillLines q.pa q.len hint) s) (s.touchAll .read m)

/-! tld and tlds. -/

/-- The length of the range of an xe4 load (05 R144): to the last byte of the last table entry that it reads, or to the last byte that a
row-block at the largest offset reaches. -/
def xeLen (p sh : Word64) (sz : Shape) : Nat :=
  if sz.mr == 0 || sz.mc == 0 then 0
  else
    let addr := addrOf p
    max (addr + 4 * (shStride sh + (sz.mr - 1) * shAux sh) + 4) (addr + 2 ^ 32 + 141) - addr

/-- tld through an xe4 pointer (05 R137). -/
def loadXe4 (d : BitVec 4) (a b : BitVec 5) (ai dir : BitVec 1) (hint esrc : BitVec 2) (s : State) : Run? State := do
  let p := s.x a
  let sh := s.x b
  let sz := shapeOf esrc false (shRows sh) (shCols sh) (s.t d)
  let addr := addrOf p
  let len := xeLen p sh sz
  needAddr addr len
  let s1 ← s.settleLocal addr len
  let (rows, ranges) ← if len == 0 then .ok ([], []) else s1.xeRows p sh sz
  let t := placeRows 0x04 (ptrBlock p != 0) false sz.rext sz.cext rows none
  let s2 := match s1.access .read true ranges with
    | .ok m => s1.readTouch m ranges hint
    | .error _ => s1
  .ok (((s2.setT d t).autoInc (autoStep a b ai dir p sh sz)).advance true)

/-- tld (05 R135, R136, R138). -/
def execTld (d : BitVec 4) (a b : BitVec 5) (ai tr : BitVec 1) (hint esrc : BitVec 2) (dir half : BitVec 1) (s : State) : Out :=
  s.finish (do
    let p := s.x a
    let sh := s.x b
    let sz := shapeOf esrc (tr == 1) (shRows sh) (shCols sh) (s.t d)
    needPointer p (half == 1) (tr == 1) true sz.mc
    needShape esrc p sh
    if ptrFmt p == xe4 then loadXe4 d a b ai dir hint esrc s
    else
      let sp := rowSpan (ptrFmt p) (ptrBlock p) (half == 1) sz.mc
      let len := rangeLen sp (shStride sh) sz.mr sz.mc
      needAddr (addrOf p) len
      let ras := rowAddrs (addrOf p) (shStride sh) sz.mr
      let ranges := (ras.map (rowRanges sp sz.mc)).flatten
      let m ← s.access .read true ranges
      let s1 ← s.settle (addrOf p) len (m.runsOf ranges)
      let rows := ras.map ((s1.memReader m).row (ptrFmt p) sp sz.mc)
      let t := placeRows (ptrFmt p) (ptrBlock p != 0) (tr == 1) sz.rext sz.cext rows (s.rangeKey m p sh (tr == 1) sz sp.elemOff)
      .ok ((((s1.readTouch m ranges hint).setT d t).autoInc (autoStep a b ai dir p sh sz)).advance true))

/-- tlds (05 R142). -/
def execTlds (d : BitVec 4) (a b : BitVec 5) (ai tr : BitVec 1) (esrc : BitVec 2) (dir half : BitVec 1) (s : State) : Out :=
  s.finish (do
    let p := s.x a
    let sh := s.x b
    let sz := shapeOf esrc (tr == 1) (shRows sh) (shCols sh) (s.t d)
    needPointer p (half == 1) (tr == 1) false sz.mc
    needShape esrc p sh
    let sp := rowSpan (ptrFmt p) (ptrBlock p) (half == 1) sz.mc
    let len := rangeLen sp (shStride sh) sz.mr sz.mc
    needLocal (addrOf p) len
    s.needLocalFree (addrOf p) len
    let rows := (rowAddrs (addrOf p) (shStride sh) sz.mr).map (s.lsReader.row (ptrFmt p) sp sz.mc)
    let t := placeRows (ptrFmt p) (ptrBlock p != 0) (tr == 1) sz.rext sz.cext rows none
    .ok (((s.setT d t).autoInc (autoStep a b ai dir p sh sz)).advance true))

/-! tst and tsts. -/

/-- The pointer against the tile (05 R140). -/
def needStorable (p : Word64) (t : Tile) : Run? Unit :=
  need (ptrFmt p == 0 || (ptrFmt p == t.fmt && !(t.scl && ptrBlock p == 0))) .badFormat p

/-- The bytes that a tile store writes for one row, by address (05 R141). The scale byte of a row without elements is written too. -/
def rowWrites (t : Tile) (f : BitVec 5) (sp : RowSpan) (mc i ra : Nat) : List (Nat × List Byte) :=
  (if mc == 0 then [] else [(ra + sp.elemOff, packRow f ((List.range mc).map (t.elem i)))]) ++ (match sp.scaleOff with
    | some o => [(ra + o, [if t.scl then t.scaleAt i else 0x7F])]
    | none => [])

/-- The writes of a whole tile store, and those of its poisoned rows. -/
def tileWrites (t : Tile) (f : BitVec 5) (sp : RowSpan) (mc : Nat) (ras : List Nat) : List (Nat × List Byte) :=
  (ras.mapIdx (fun i ra => rowWrites t f sp mc i ra)).flatten
@[inherit_doc tileWrites] def poisonWrites (t : Tile) (f : BitVec 5) (sp : RowSpan) (mc : Nat) (ras : List Nat) : List (Nat × List Byte) :=
  (ras.mapIdx (fun i ra => if t.bad i then rowWrites t f sp mc i ra else [])).flatten

/-- The writes of a tst: a row without elements has an empty range, so nothing stops its scale byte from lying beyond the address space,
where it wraps (DEDUCED, log entry 41). -/
def wrapWrites (ws : List (Nat × List Byte)) : List (Nat × List Byte) := ws.map (fun w => (w.1 % vaEnd, w.2))

/-- The writes of a tsts: there is no byte beyond the local store (DEDUCED, log entry 41). -/
def localWrites (ws : List (Nat × List Byte)) : List (Nat × List Byte) := ws.filter (fun w => decide (w.1 < lsSize))

/-- Bytes cut at block borders of a translation map: physical writes. -/
def XMap.split (m : XMap) (w : Nat × List Byte) : List (Nat × List Byte) :=
  (blocksOf w.1 w.2.length).map (fun b =>
    (m.pa b, (w.2.drop (b - w.1)).take (min (w.1 + w.2.length) ((b / 4096 + 1) * 4096) - b)))

/-- tst (05 R140, R141; 01 R27). -/
def execTst (r : BitVec 4) (a b : BitVec 5) (ai : BitVec 1) (hint esrc : BitVec 2) (dir half : BitVec 1) (s : State) : Out :=
  s.finish (do
    let p := s.x a
    let sh := s.x b
    let t := s.t r
    let sz := shapeOf esrc false (shRows sh) (shCols sh) t
    needPointer p (half == 1) false false sz.mc
    needStorable p t
    needShape esrc p sh
    let sp := rowSpan (ptrFmt p) (ptrBlock p) (half == 1) sz.mc
    let len := rangeLen sp (shStride sh) sz.mr sz.mc
    needAddr (addrOf p) len
    let ras := rowAddrs (addrOf p) (shStride sh) sz.mr
    let m ← s.access .write true (ras.map (rowBytes sp)).flatten
    let id := s.core.unit.ident
    let e : SbEntry :=
      { kind := .tile, va := addrOf p, len := len,
        writes := ((wrapWrites (tileWrites t (ptrFmt p) sp sz.mc ras)).map m.split).flatten, raw := [], runs := [], cached := true, device := false,
        poison := ((wrapWrites (poisonWrites t (ptrFmt p) sp sz.mc ras)).map (fun w =>
          ((m.split w).map (fun q => granulesOf q.1 q.2.length)).flatten)).flatten.dedup,
        part := id.part, task := id.task, launch := id.launch, hint := hint }
    let s1 ← if e.writes.isEmpty then .ok s else (s.touchAll .write m).pushStore e
    .ok ((s1.autoInc (autoStep a b ai dir p sh sz)).advance true))

/-- Bytes written into the local store: whole granules end their poison (14 R374). -/
def State.lsWrite (s : State) (off : Nat) (bs : List Byte) : State :=
  let whole := wholeGranules off bs.length
  { s with core.ls := s.core.ls.write off bs, core.lsPoison := s.core.lsPoison.filter (fun g => !whole.contains g) }

/-- Local-store granules marked poisoned. -/
def State.lsMark (s : State) (gs : List Nat) : State :=
  { s with core.lsPoison := gs.foldl (fun ps g => if ps.contains g then ps else g :: ps) s.core.lsPoison }

/-- tsts (05 R142). -/
def execTsts (r : BitVec 4) (a b : BitVec 5) (ai : BitVec 1) (esrc : BitVec 2) (dir half : BitVec 1) (s : State) : Out :=
  s.finish (do
    let p := s.x a
    let sh := s.x b
    let t := s.t r
    let sz := shapeOf esrc false (shRows sh) (shCols sh) t
    needPointer p (half == 1) false false sz.mc
    needStorable p t
    needShape esrc p sh
    let sp := rowSpan (ptrFmt p) (ptrBlock p) (half == 1) sz.mc
    let len := rangeLen sp (shStride sh) sz.mr sz.mc
    needLocal (addrOf p) len
    s.needLocalFree (addrOf p) len
    let ras := rowAddrs (addrOf p) (shStride sh) sz.mr
    let s1 := (localWrites (tileWrites t (ptrFmt p) sp sz.mc ras)).foldl (fun s w => s.lsWrite w.1 w.2) s
    let s1 := s1.lsMark ((localWrites (poisonWrites t (ptrFmt p) sp sz.mc ras)).map (fun w => granulesOf w.1 w.2.length)).flatten
    .ok ((s1.autoInc (autoStep a b ai dir p sh sz)).advance true))

/-! Row gathers (05 R143; 06 R160). -/

/-- The index formats (05 R143). -/
def indexFormat (f : BitVec 5) : Bool := isIntCode f

/-- The row addresses of a gather (05 R143): the product is exact, the sum is taken modulo 2^56. -/
def gatherRows (p sh : Word64) (ti : Tile) (mr : Nat) : List Nat :=
  (List.range mr).map (fun i => (((addrOf p : Int) + ti.int 0 i * (shStride sh : Int)) % (vaEnd : Int)).toNat)

/-- The rows of a gather with its checks, from the address limit on (05 R145 steps 3 to 5): what was read, the state
after it, and nothing yet consumed. DESIGN CHOICE, log entry 64: rows without elements have no span, so the window is not
checked for them. -/
def State.gather (s : State) (p sh : Word64) (ti : Tile) (mr mc : Nat) (hint : BitVec 2) : Run? (List RowData × State) := do
  let addr := addrOf p
  let win := shAux sh * 4096
  needAddr addr win
  let sp := rowSpan (ptrFmt p) (ptrBlock p) false mc
  let ras := gatherRows p sh ti mr
  match ras.find? (fun ra => win != 0 && mc != 0 && (decide (ra < addr) || decide (addr + win < ra + sp.len))) with
  | some ra => .error (.trap .gatherWindow (BitVec.ofNat 64 ra) 0)
  | none =>
    let ranges := (ras.map (rowRanges sp mc)).flatten
    let m ← s.access .read true ranges
    let s1 ← if win == 0 then s.settleAll else s.settle addr win (m.runsOf ranges)
    .ok (ras.map ((s1.memReader m).row (ptrFmt p) sp mc), s1.readTouch m ranges hint)

/-- A poisoned index element is consumed (05 R143; 06 R171). -/
def State.needIndex (s : State) (r : BitVec 4) (mr : Nat) : Run? Unit :=
  if mr != 0 && (s.t r).bad 0 then .error (.trap .machineCheck (poisonVal 0 r.toNat 0 0) (s.t r).origin) else .ok ()

/-- tldi (05 R143). -/
def execTldi (d : BitVec 4) (a b : BitVec 5) (ai : BitVec 1) (hint esrc : BitVec 2) (dir : BitVec 1) (ti : BitVec 4) (s : State) : Out :=
  s.finish (do
    let p := s.x a
    let sh := s.x b
    let sz := shapeOf esrc false (shRows sh) (shCols sh) (s.t d)
    needPointer p false false false sz.mc
    if !indexFormat (s.t ti).fmt then .error (.trap .badFormat ((s.t ti).fmt.setWidth 64) 0)
    needShape esrc p sh
    let (rows, s1) ← s.gather p sh (s.t ti) sz.mr sz.mc hint
    s.needIndex ti sz.mr
    let t := placeRows (ptrFmt p) (ptrBlock p != 0) false sz.rext sz.cext rows none
    .ok (((s1.setT d t).autoInc (autoStep a b ai dir p sh sz)).advance true))

end Sys2Proof.Machine
end

