-- ==== Sys2Proof/Machine/Engines.lean ====
section
/-! DEFINITION. Detached commands and bound streams: what they share (13 R328 to R334), the bulk copy engine (R342 to R344)
and streams (R345 to R349). -/

namespace Sys2Proof.Machine

/-! What the commands share. -/

/-- The live launch of the resident unit. -/
def State.launch? (s : State) : Option Launch := (s.partAt s.part).launch s.core.unit.ident.launch

/-- Detached commands in flight; a bound stream counts (13 R330). -/
def State.inFlight (s : State) : Nat :=
  s.core.cmds.length + ((List.range 4).filter (fun i => (s.stream (BitVec.ofNat 2 i)).bound)).length

/-- The limit of 13 R330. -/
def State.needCommand (s : State) : Run? Unit := if s.inFlight < 32 then .ok () else .error (.wait .engine)

/-- The translation of an engine's operand (13 R334 step 4), its physical addresses not yet looked at. -/
def State.engineMap (s : State) (acc : Access) (va n : Nat) : Run? XMap := s.translateBlocks acc true (blocksOf va n)

/-- A barrier address that is not 0 is aligned (13 R334 step 2). -/
def needBarAlign (va : Nat) : Run? Unit := need (va % 32 == 0) .atomicAlign (BitVec.ofNat 64 va)

/-- The physical address of a barrier, object or schedule is one that the core may reach (13 R334 step 4): each block of the
operand at va; `peers` allows a peer's aperture (16 R424). -/
def State.needPhys (s : State) (peers : Bool) (va : Nat) (m : XMap) : Run? Unit :=
  need (m.all (fun e => s.physOk (e.2.paOf (max va (e.1 * 4096)))
    || (peers && (s.peerOf (e.2.paOf (max va (e.1 * 4096)))).isSome))) .physRange (BitVec.ofNat 64 va)

/-- The source of a stream at va is memory that a cacheable access may reach (10 R254; 16 R424): the lowest address that is not is
k.tval. -/
def State.needSource (s : State) (va : Nat) (m : XMap) : Run? Unit :=
  match m.find? (fun e => !s.physOk (e.2.paOf (max va (e.1 * 4096)))) with
  | none => .ok ()
  | some e => .error (.trap .physRange (BitVec.ofNat 64 (max va (e.1 * 4096))) 0)

/-- The barrier of a command: its translation, none for address 0. -/
def State.barrierMap (s : State) (va : Nat) : Run? XMap := if va == 0 then .ok [] else s.engineMap .readWrite va 32

/-- The physical address of the command's barrier. -/
def barrierPa (va : Nat) (m : XMap) : Option Nat := if va == 0 then none else some (m.pa va)

/-- The virtual pages of translations. -/
def XMap.pages (m : XMap) : List (Nat × Nat) := m.map (fun e => (e.1 * 4096, e.2.size))

/-- A command is issued to its engine at retirement (13 R329). -/
def State.issue (s : State) (kind : CmdKind) (barrier : Option Nat) (vpages : List (Nat × Nat)) : State :=
  let id := s.core.unit.ident
  let c : Cmd :=
    { id := s.core.nextCmd, kind := kind, barrier := barrier, part := id.part, task := id.task, launch := id.launch,
      det := (s.launch?.map (fun l => l.record.det)).getD false, vpages := vpages, moved := [] }
  { s with core.cmds := s.core.cmds ++ [c], core.nextCmd := s.core.nextCmd + 1 }

/-- A command in flight. -/
def State.cmd (s : State) (id : Nat) : Option Cmd := s.core.cmds.find? (fun c => c.id == id)

/-- A command goes on with another kind of progress. -/
def State.setCmd (s : State) (id : Nat) (kind : CmdKind) : State :=
  { s with core.cmds := s.core.cmds.map (fun c => if c.id == id then { c with kind := kind } else c) }

/-- A command completes (13 R330). -/
def State.endCmd (s : State) (id : Nat) : State := { s with core.cmds := s.core.cmds.filter (fun c => c.id != id) }

/-- Commands issued before one (13 R329). -/
def State.older (s : State) (id : Nat) : List Cmd := s.core.cmds.takeWhile (fun c => c.id != id)

/-- The local-store ranges of a command are free of those of the commands and streams before it (13 R331; 01 R30). -/
def State.lsTurn (s : State) (c : Cmd) : Bool :=
  let mine := c.lsRanges
  !(s.older c.id).any (fun o => o.lsRanges.any (fun r => mine.any (fun q => overlap r.1 r.2 q.1 q.2)))
    && !(List.range 4).any (fun i =>
      let r := s.stream (BitVec.ofNat 2 i)
      r.bound && decide (r.data.order ≤ c.id) && mine.any (fun q => overlap r.lsbase.toNat (2 ^ r.lsz.toNat) q.1 q.2))

/-- The command is one of the collective engine and has not started. -/
def CmdKind.unstarted : CmdKind → Bool
  | .a2a _ _ _ _ _ _ started _ => started.isNone
  | .cred _ _ _ _ data => data.isNone
  | _ => false

/-- A command of the collective engine may start: those issued before it have (13 R329), and its local-store ranges are free (R331).
The starts of the other engines' commands show nothing. -/
def State.mayStart (s : State) (c : Cmd) : Bool := (s.older c.id).all (fun o => !o.kind.unstarted) && s.lsTurn c

/-! Bytes as engines move them. -/

/-- A byte on its way: read, read as uncorrectable, or not to be had (13 R333). -/
inductive Moved where
  | ok (b : Byte)
  | bad
  | failed
  deriving DecidableEq, Repr

/-- A byte that an engine holds: none stands for one that it read as uncorrectable. -/
def Moved.held (m : Moved) : Option Byte :=
  match m with
  | .ok b => some b
  | _ => none

/-- A byte that an engine holds, on its way again. -/
def movedOf (b : Option Byte) : Moved := b.elim .bad .ok

/-- The n bytes from an offset of a list of runs, as runs. -/
def runsSlice (rs : List Run) (off n : Nat) : List Run :=
  match rs with
  | [] => []
  | r :: rest =>
    if n == 0 then []
    else if r.len ≤ off then runsSlice rest (off - r.len) n
    else
      let k := min n (r.len - off)
      ⟨r.pa + off, k⟩ :: runsSlice rest 0 (n - k)

/-- The part of a place. -/
def Place.slice (p : Place) (off n : Nat) : Place :=
  match p with
  | .mem rs => .mem (runsSlice rs off n)
  | .ls o => .ls (o + off)

/-- Bytes of a peer, from an index on. -/
def peerBytes (p : PeerPart) (i n : Nat) : List Moved :=
  match p with
  | .read bs => (List.range n).map (fun j => match bs[i + j]? with
    | some (some b) => .ok b
    | some none => .bad
    | none => .failed)
  | _ => List.replicate n .failed

/-- A run of memory as an engine reads it at its home; a peer that no link reaches gives none (16 R427). -/
def State.moveRun (s : State) (r : Run) (peer : PeerPart) (i : Nat) : List Moved :=
  if s.cutOff r.pa then List.replicate r.len .failed
  else if (s.peerOf r.pa).isSome then peerBytes peer i r.len
  else if !s.physOk r.pa then List.replicate r.len .failed
  else (List.range r.len).map (fun j =>
    if s.badGranule (granuleOf (r.pa + j)) then .bad else .ok (s.mem.read (r.pa + j)))

/-- Runs of memory as an engine reads them; i counts the bytes read before. -/
def State.moveRuns (s : State) (peer : PeerPart) : List Run → Nat → List Moved
  | [], _ => []
  | r :: rest, i => s.moveRun r peer i ++ s.moveRuns peer rest (i + r.len)

/-- n bytes of a place as an engine reads them. -/
def State.moveFrom (s : State) (p : Place) (n : Nat) (peer : PeerPart) : List Moved :=
  match p with
  | .mem rs => s.moveRuns peer rs 0
  | .ls o => (List.range n).map (fun j =>
    if s.core.lsPoison.contains (granuleOf (o + j)) then .bad else .ok (s.core.ls.read (o + j)))

/-- Maximal stretches of bytes that can be written, with their offsets; an uncorrectable byte is written as 0 into a
granule that is marked. -/
def stretches : List Moved → Nat → List (Nat × List Byte)
  | [], _ => []
  | m :: r, i =>
    match m with
    | .failed => stretches r (i + 1)
    | _ =>
      let b : Byte := match m with
        | .ok v => v
        | _ => 0
      match stretches r (i + 1) with
      | (j, bs) :: rest => if j == i + 1 then (i, b :: bs) :: rest else (i, [b]) :: (j, bs) :: rest
      | [] => [(i, [b])]

/-- Offsets of uncorrectable bytes. -/
def badOffsets (ms : List Moved) : List Nat := (List.range ms.length).filter (fun i => ms.getD i .failed == .bad)

/-- Bytes written to memory at pa by an engine on its path; granules that uncorrectable bytes reach are written poisoned. -/
def State.moveToMem (s : State) (path : Path) (pa : Nat) (ms : List Moved) : State :=
  let t := (stretches ms 0).foldl (fun s w => s.homeWrite path (pa + w.1) w.2) s
  t.poisonHome ((badOffsets ms).map (fun i => granuleOf (pa + i))).dedup

/-- Bytes written to the local store by an engine. DESIGN CHOICE, log entry 98: to the store of the core that issued the command, whichever
unit has started there since. -/
def State.moveToLs (s : State) (off : Nat) (ms : List Moved) : State :=
  let t := (stretches ms 0).foldl (fun s w => s.lsWrite (off + w.1) w.2) s
  t.lsMark ((badOffsets ms).map (fun i => granuleOf (off + i))).dedup

/-- Bytes written to a place, with whether some part could not be written; the runs of memory take them in turn. -/
def State.moveRunsTo (s : State) (path : Path) (peer : PeerPart) : List Run → List Moved → State × Bool
  | [], _ => (s, false)
  | r :: rest, ms =>
    let mine := ms.take r.len
    let (t, bad) :=
      if (s.peerOf r.pa).isSome then (s, s.cutOff r.pa || peer == .failed || mine.contains .failed)
      else if s.physOk r.pa then (s.moveToMem path r.pa mine, mine.contains .failed)
      else (s, true)
    let (u, bad') := t.moveRunsTo path peer rest (ms.drop r.len)
    (u, bad || bad')

/-- Bytes written to a place. -/
def State.moveTo (s : State) (path : Path) (p : Place) (ms : List Moved) (peer : PeerPart) : State × Bool :=
  match p with
  | .mem rs => s.moveRunsTo path peer rs ms
  | .ls o => (s.moveToLs o ms, ms.contains .failed)

/-! bcp. -/

/-- One operand of bcp: memory through its translation, or the local store. -/
def State.bcpMap (s : State) (memory : Bool) (acc : Access) (va n : Nat) : Run? XMap :=
  if memory then s.engineMap acc va n else .ok []

/-- The address limits of the operands of bcp (13 R334 step 3): memory, then local store. -/
def needPlaces (srcMem dstMem : Bool) (src dst n : Nat) : Run? Unit := do
  if srcMem then needAddr src n
  if dstMem then needAddr dst n
  if !srcMem then needLocal src n
  if !dstMem then needLocal dst n

/-- bcp in its three directions (13 R342): the checks of R334, then the issue. DESIGN CHOICE, log entry 97: an offset in the local store
is taken from bits [55:0] of its register, as an address is. -/
def State.bcpIssue (s : State) (d a b : BitVec 5) (srcMem dstMem : Bool) : Run? State := do
  s.needCommand
  let n := (s.x b).toNat
  let src := addrOf (s.x a)
  let dst := addrOf (s.x d)
  let bar := addrOf (s.x (b + 1))
  need (1 ≤ n && decide (n ≤ 4194304)) .engineArg (s.x b)
  need (!(srcMem && dstMem && overlap src n dst n)) .engineArg (s.x a)
  needBarAlign bar
  needPlaces srcMem dstMem src dst n
  let ms ← s.bcpMap srcMem .read src n
  let md ← s.bcpMap dstMem .write dst n
  let mb ← s.barrierMap bar
  s.needPhys false bar mb
  let place (memory : Bool) (m : XMap) (va : Nat) : Place := if memory then .mem (m.runs va n) else .ls va
  let t := ((s.touchAll .read ms).touchAll .write md).touchAll .readWrite mb
  .ok ((t.issue (.bcp (place srcMem ms src) (place dstMem md dst) dst n []) (barrierPa bar mb)
    (ms.pages ++ md.pages ++ mb.pages)).advance)

/-- bcp (13 R342). -/
def execBcp (d a b : BitVec 5) (s : State) : Out := s.finish (s.bcpIssue d a b true true)

/-- bcp.ld (13 R342): memory to local store. -/
def execBcpLd (d a b : BitVec 5) (s : State) : Out := s.finish (s.bcpIssue d a b true false)

/-- bcp.st (13 R342): local store to memory. -/
def execBcpSt (d a b : BitVec 5) (s : State) : Out := s.finish (s.bcpIssue d a b false true)

/-- A part of a copy that lies inside it, within one aligned 4 KiB block of the destination, and ends at multiples of a size or at the
ends of the copy. -/
def partOk (dstVa total size off n : Nat) : Bool :=
  n != 0 && decide (off + n ≤ total) && (dstVa + off) / 4096 == (dstVa + off + n - 1) / 4096
    && (off == 0 || (dstVa + off) % size == 0) && (off + n == total || (dstVa + off + n) % size == 0)

/-- A chunk (13 R343): all of the copy that lies in one aligned 4 KiB block of the destination, not yet counted. -/
def chunkOk (dstVa total off n : Nat) (done : List (Nat × Nat)) : Bool :=
  partOk dstVa total 4096 off n && !done.any (fun d => overlap d.1 d.2 off n)

/-- What of a range of offsets lies outside another. -/
def cutRange (p m : Nat × Nat) : List (Nat × Nat) :=
  if overlap p.1 p.2 m.1 m.2 then
    (if p.1 < m.1 then [(p.1, m.1 - p.1)] else [])
      ++ (if m.1 + m.2 < p.1 + p.2 then [(m.1 + m.2, p.1 + p.2 - (m.1 + m.2))] else [])
  else [p]

/-- What of a range of offsets lies outside all of these. -/
def gaps (p : Nat × Nat) (ms : List (Nat × Nat)) : List (Nat × Nat) := ms.foldl (fun ps m => (ps.map (fun q => cutRange q m)).flatten) [p]

/-- The peer's bytes from an index on. -/
def peerFrom (p : PeerPart) (i : Nat) : PeerPart :=
  match p with
  | .read bs => .read (bs.drop i)
  | p => p

/-- Where the 16-byte granules of a place lie: the first byte's offset in its granule. -/
def Place.skew (p : Place) : Nat :=
  match p with
  | .mem rs => (rs.head?.map (fun r => r.pa % 16)).getD 0
  | .ls o => o % 16

/-- The lines of a place in memory. -/
def Place.lines (p : Place) : List Nat :=
  match p with
  | .mem rs => (rs.map (fun r => linesOf r.pa r.len)).flatten
  | .ls _ => []

/-- The homes of the lines of a place's part that are this device's memory take the engine's requests (16 R406). -/
def State.placeTaken (s : State) (p : Place) (off n : Nat) : Bool :=
  s.dev.l2.switching.isNone || s.homesTake ((p.slice off n).lines.filter (fun l => s.physOk (l * 128)))

/-- The home of a command's barrier takes the engine's update, in a cycle of the home that some of the device's events bring (16 R406). -/
def State.barrierTaken (s : State) (bar : Option Nat) : Bool := s.homesTake ((bar.map (fun pa => linesOf pa 32)).getD [])

/-- Some byte of a place is a peer's. -/
def State.remotePlace (s : State) (p : Place) : Bool :=
  match p with
  | .mem rs => rs.any (fun r => (s.peerOf r.pa).isSome)
  | .ls _ => false

/-- A copy in progress: its operands, and its source bytes that were read and not yet written. -/
structure Copying where
  src : Place
  dst : Place
  total : Nat
  held : List (Nat × Option Byte)

/-- The granules of the source that a part touches, as a range of offsets inside the copy. -/
def Copying.span (c : Copying) (off n : Nat) : Nat × Nat :=
  let lo := (c.src.skew + off) / 16 * 16 - c.src.skew
  (lo, min c.total ((c.src.skew + off + n + 15) / 16 * 16 - c.src.skew))

/-- The source bytes of a part: each granule is read as one piece (11 R273), so the bytes of it that the part does not take are held, and
those that an earlier part read are not read again (13 R343). -/
def State.readPart (s : State) (c : Copying) (off n : Nat) (peer : PeerPart) : List Moved × List (Nat × Option Byte) :=
  if s.remotePlace c.src then (s.moveFrom (c.src.slice off n) n peer, c.held)
  else
    let (lo, hi) := c.span off n
    let fresh := s.moveFrom (c.src.slice lo (hi - lo)) (hi - lo) peer
    let held? (o : Nat) : Option (Option Byte) := (c.held.find? (fun h => h.1 == o)).map (·.2)
    let rest := ((List.range (hi - lo)).map (lo + ·)).filterMap (fun o =>
      if (off ≤ o && o < off + n) || (held? o).isSome then none
      else match fresh.getD (o - lo) .failed with
        | .ok b => some (o, some b)
        | .bad => some (o, none)
        | .failed => none)
    ((List.range n).map (fun i => match held? (off + i) with
      | some (some b) => .ok b
      | some none => .bad
      | none => fresh.getD (off + i - lo) .failed),
     c.held.filter (fun h => !(off ≤ h.1 && h.1 < off + n)) ++ rest)

/-- The engine moves a part of a copy: each byte is read once and written (13 R343). -/
def State.movePart (s : State) (c : Copying) (off n : Nat) (peer : PeerPart) : State × Bool × Copying :=
  let (ms, held) := s.readPart c off n peer
  let (t, bad) := s.moveTo .y (c.dst.slice off n) ms peer
  (t, bad, { c with held := held })

/-- The parts of a chunk that are not yet written, moved in turn; and whether one failed. -/
def State.moveGaps (s : State) (c : Copying) (off : Nat) (peer : PeerPart) (ps : List (Nat × Nat)) : State × Bool × Copying :=
  ps.foldl (fun acc p =>
    let (t, bad, c) := acc.1.movePart acc.2.2 p.1 p.2 (peerFrom peer (p.1 - off))
    (t, acc.2.1 || bad, c)) (s, false, c)

/-- Parts of a command that have been written, and the bytes that it holds. -/
def State.setMoved (s : State) (id : Nat) (moved : List ((Nat × Nat) × Bool)) (held : List (Nat × Option Byte)) : State :=
  { s with core.cmds := s.core.cmds.map (fun c => if c.id == id then { c with moved := moved, held := held } else c) }

/-- Held bytes that no part still to come takes. -/
def dropHeld (held : List (Nat × Option Byte)) (done : List (Nat × Nat)) : List (Nat × Option Byte) :=
  held.filter (fun h => !done.any (fun d => decide (d.1 ≤ h.1) && decide (h.1 < d.1 + d.2)))

/-- The engine writes a part of a chunk, of whole 16-byte granules of the destination, before the chunk is counted (13 R344; 11
R273). -/
def State.bcpPart (s : State) (cmd off len : Nat) (peer : PeerPart) : State :=
  match s.cmd cmd with
  | some c =>
    match c.kind with
    | .bcp src dst dstVa total done =>
      let gone := done ++ c.moved.map (·.1)
      if partOk dstVa total 16 off len && s.lsTurn c && s.placeTaken src off len && s.placeTaken dst off len
          && !gone.any (fun d => overlap d.1 d.2 off len) then
        let (t, failed, k) := s.movePart ⟨src, dst, total, c.held⟩ off len peer
        t.setMoved cmd (((off, len), failed) :: c.moved) (dropHeld k.held gone)
      else s
    | _ => s
  | none => s

/-- BCP_CHUNK_DELIVERY (13 R343, R333): a chunk is performed and its length is subtracted from the barrier. -/
def execBcpChunkDelivery (cmd off len : Nat) (peer : PeerPart) (s : State) : Out :=
  .next (match s.cmd cmd with
    | some c =>
      match c.kind with
      | .bcp src dst dstVa total done =>
        if chunkOk dstVa total off len done && s.lsTurn c && s.placeTaken src off len && s.placeTaken dst off len
            && s.barrierTaken c.barrier then
          let (t, failed, k) := s.moveGaps ⟨src, dst, total, c.held⟩ off peer (gaps (off, len) (c.moved.map (·.1)))
          let mine := c.moved.filter (fun m => overlap m.1.1 m.1.2 off len)
          let t := t.deliver .y c.barrier len (failed || mine.any (·.2))
          let done := (off, len) :: done
          if (done.map (·.2)).sum == total then t.endCmd cmd
          else (t.setMoved cmd c.moved (dropHeld k.held (done ++ c.moved.map (·.1)))).setCmd cmd (.bcp src dst dstVa total done)
        else s
      | _ => s
    | none => s)

/-! Streams. -/

/-- sbind (13 R346). A source that a cacheable access may not reach ends it (10 R254; 16 R424; DEDUCED, log entry 29). DESIGN CHOICE, log
entry 87: of both register values that break a limit k.tval takes that of x[xb]. -/
def execSbind (q : BitVec 2) (a b : BitVec 5) (esz : BitVec 2) (s : State) : Out :=
  s.finish (do
    s.needCommand
    let v := s.x b
    let w := s.x (b + 1)
    let lsbase := bits v 18 0
    let lsz := bits v 23 20
    need (decide (8 ≤ lsz) && lsbase % 2 ^ lsz == 0 && bits v 63 24 == 0 && !v.getLsbD 19) .engineArg v
    need (bits w 31 0 != 0 && bits w 63 32 == 0) .engineArg w
    let va := addrOf (s.x a)
    let n := bits w 31 0 * 2 ^ esz.toNat
    needAddr va n
    needLocal lsbase (2 ^ lsz)
    let m ← s.engineMap .read va n
    s.needSource va m
    need (!(s.stream q).bound && (s.ringClash lsbase (2 ^ lsz)).isNone) .streamBusy (q.setWidth 64)
    let r : Stream :=
      { bound := true, esz := esz, addr := BitVec.ofNat 56 va, count := BitVec.ofNat 32 (bits w 31 0), next := 0,
        lsbase := BitVec.ofNat 19 lsbase, lsz := BitVec.ofNat 4 lsz, arrived := 0, data := ⟨m.runs va n, m.pages, [], va, s.core.nextCmd⟩ }
    .ok ((s.touchAll .read m).setStream q r).advance)

/-- The ring offset of element i (13 R346). -/
def Stream.offset (r : Stream) (i : Nat) : Nat := r.lsbase.toNat + i * 2 ^ r.esz.toNat % 2 ^ r.lsz.toNat

/-- The stream can take its next element: one is left, and it lies within the ring's bytes ahead of the reader (13 R346). -/
def Stream.canFill (r : Stream) : Bool :=
  r.bound && decide (r.next.toNat + r.arrived.toNat < r.count.toNat)
    && decide ((r.arrived.toNat + 1) * 2 ^ r.esz.toNat ≤ 2 ^ r.lsz.toNat)

/-- The ring is free of the local-store ranges of the commands issued before the stream was bound (13 R331). -/
def State.ringTurn (s : State) (r : Stream) : Bool :=
  !s.core.cmds.any (fun c => decide (c.id < r.data.order) && c.lsRanges.any (fun q => overlap r.lsbase.toNat (2 ^ r.lsz.toNat) q.1 q.2))

/-- STREAM_ELEMENT_FILL (13 R346, R348): the next element is read at its home on path y and placed in the ring. An element that
cannot be read is taken as uncorrectable (DEDUCED, log entry 29). -/
def execStreamElementFill (q : BitVec 2) (s : State) : Out :=
  .next (
    let r := s.stream q
    if !r.canFill || !s.ringTurn r
        || !s.placeTaken (.mem r.data.runs) (r.addr.toNat - r.data.base) (2 ^ r.esz.toNat) then s
    else
      let i := r.next.toNat + r.arrived.toNat
      let n := 2 ^ r.esz.toNat
      let ms := (s.moveFrom (.mem (runsSlice r.data.runs (r.addr.toNat - r.data.base) n)) n .taken).map (fun m =>
        if m == .failed then .bad else m)
      let bad := match badOffsets ms with
        | [] => r.data.bad
        | o :: _ => r.data.bad ++ [(i, r.addr.toNat + o)]
      (s.moveToLs (r.offset i) ms).setStream q
        { r with addr := r.addr + BitVec.ofNat 56 n, arrived := r.arrived + 1, data := { r.data with bad := bad } })

/-- STREAM_UNBOUND (13 R347). -/
def State.needBound (s : State) (q : BitVec 2) : Run? Unit := need (s.stream q).bound .streamUnbound (q.setWidth 64)

/-- The physical address of a virtual one within a stream's source. -/
def Stream.paOf (r : Stream) (va : Nat) : Nat := ((runsSlice r.data.runs (va - r.data.base) 1).head?.map (·.pa)).getD 0

/-- The next element holds uncorrectable data (13 R347): it was read so, or its granule of the ring is bad (14 R374). k.tval is the
address in the source of its lowest bad byte (14 R376; DEDUCED, log entry 86, for data that failed in the ring). -/
def Stream.badElement (r : Stream) (bad : List Nat) : Option Nat :=
  match r.data.bad.find? (fun e => e.1 == r.next.toNat) with
  | some e => some e.2
  | none =>
    ((List.range (2 ^ r.esz.toNat)).find? (fun j => bad.contains (granuleOf (r.offset r.next.toNat + j)))).map (fun j =>
      r.data.base + r.next.toNat * 2 ^ r.esz.toNat + j)

/-- qrd (13 R347). -/
def execQrd (q : BitVec 2) (bt : BitVec 1) (d : BitVec 5) (s : State) : Out :=
  s.finish (do
    s.needBound q
    let r := s.stream q
    if r.arrived == 0 then
      if bt == 1 then .error (.trap .streamEmpty (q.setWidth 64) 0)
      else .error (.wait .stream)
    match r.badElement s.core.lsPoison with
    | some va => .error (.trap .machineCheck (BitVec.ofNat 64 va) (r.paOf va))
    | none =>
      let v := leNat (s.core.ls.readBytes (r.offset r.next.toNat) (2 ^ r.esz.toNat))
      let r' := if r.next + 1 == r.count then Stream.unbound else { r with next := r.next + 1, arrived := r.arrived - 1 }
      .ok ((s.setStream q r').setX d (BitVec.ofNat 64 v)).advance)

/-- sunbind (13 R347). -/
def execSunbind (q : BitVec 2) (s : State) : Out := .next (s.setStream q Stream.unbound).advance

/-- qavail (13 R347). -/
def execQavail (q : BitVec 2) (d : BitVec 5) (s : State) : Out :=
  s.finish (do
    s.needBound q
    .ok (s.setX d (BitVec.ofNat 64 (2 ^ 63 + (s.stream q).arrived.toNat))).advance)

end Sys2Proof.Machine
end

