-- ==== Sys2Proof/Machine/Dispatcher.lean ====
section
/-! DEFINITION. The launch dispatcher: arming, readiness, triggers, endings and cancellation of launches (09 R216, R217, R224,
R225, R229, R230, R452; 16 R414), and the choice and start of units (09 R232, R233; 16 R415). -/

namespace Sys2Proof.Machine

/-! Endings. -/

/-- The memory-clock hold of 16 R416: a partition whose phase completes while a change waits starts no further unit. -/
def State.phaseHold (s : State) (p : BitVec 3) : State := if s.dev.clk.pend then s.modPart p (fun q => { q with held := true }) else s

/-- A graph or phase whose ending launch has ended and that has no open launch writes its record (09 R216, R452). -/
def State.closeLevel (s : State) (p : BitVec 3) (level id : Nat) : State :=
  let pt := s.partAt p
  let opened := if level == 2 then pt.openGraph id else pt.openPhase id
  match pt.endings.find? (fun e => e.1 == level && e.2.1 == id) with
  | some e =>
    if opened != 0 then s
    else
      let t := s.modPart p (fun q => { q with endings := q.endings.filter (fun e => !(e.1 == level && e.2.1 == id)) })
      let t := t.completion p (BitVec.ofNat 32 id) level e.2.2.toNat 0 0 0 0
      if level == 3 then t.phaseHold p else t
  | none => s

/-- The job completes (16 R414; 09 R229). -/
def State.closeJob (s : State) (p : BitVec 3) : State :=
  let pt := s.partAt p
  if (pt.closing || pt.jobCancel) && pt.launches.isEmpty then
    let t := s.modPart p (fun q => { q with closing := false, jobCancel := false, jobcnt := q.jobcnt + 1 })
    t.completion p (p.setWidth 32) 4 (if pt.jobCancel then 2 else 0) 0 0 0 0
  else s

/-- Units of a launch that have ended. -/
def Launch.endedUnits (l : Launch) : Nat :=
  (l.units.filter (fun u => match u.place with
    | .ended _ => true
    | _ => false)).length

/-- A live launch ends with a status: its record, then those of its graph, its phase and the job (09 R217, R452; DESIGN CHOICE, log
entry 73: in that order, and the record of a graph or phase with several ending launches has the status of the one that ended last). Its
task range stays taken until its record is written (R221). -/
def State.endLaunch (s : State) (p : BitVec 3) (l : Launch) (status : Nat) : State :=
  let note (level id : Nat) (on : Bool) (es : List (Nat × Nat × BitVec 8)) : List (Nat × Nat × BitVec 8) :=
    if on then es.filter (fun e => !(e.1 == level && e.2.1 == id)) ++ [(level, id, BitVec.ofNat 8 status)] else es
  let t := s.modPart p (fun q =>
    { q with launches := q.launches.filter (fun k => k.id != l.id),
             unwritten := q.unwritten ++ [(l.id, l.record.tbase, l.record.units)],
             endings := note 3 l.phaseId l.record.ephase (note 2 l.graph l.record.egraph q.endings),
             reserve := if q.reserve == some l.id then none else q.reserve })
  let t := t.completion p l.id 1 status l.nfault l.fcause l.ftask (BitVec.ofNat 64 l.endedUnits)
  ((t.closeLevel p 2 l.graph).closeLevel p 3 l.phaseId).closeJob p

/-! Readiness and triggers. -/

/-- Cores of a partition (16 R410). -/
def Part.coreCount (p : Part) : Nat := 16 * (maskBits p.qmask.toNat 8).length

/-- The class check (09 R224). -/
def Part.classOk (p : Part) (r : Rec) : Bool :=
  r.units == 0 || match r.cls with
    | 0 => true
    | 1 => p.coreCount != 0
    | _ => decide (r.units ≤ if r.maxc == 0 then p.coreCount else min p.coreCount r.maxc)

/-- The slice that is home to the hot range, translated when the launch becomes ready (09 R233). -/
def State.hotSlice (s : State) (p : BitVec 3) (r : Rec) : Option Nat :=
  if r.hotlen == 0 then none
  else
    match s.walk p r.hotbase with
    | .ok x => s.dev.homeOf (x.paOf r.hotbase)
    | .error _ => none

/-- The successors of a launch, in field order (09 R230). -/
def Launch.successors (l : Launch) : List Nat := ((List.range 8).map l.record.succ).filter (· != 0xFFFF)

/-- The launch becomes ready (09 R224, R225): it is rejected for its class, or it joins the ready list. A launch without units
triggers at once (R222): its successors. Launches become ready one after another, those that one trigger releases in the order of
its fields, so that no two are ready in the same order (R232; DESIGN CHOICE, log entry 74). -/
def State.makeReady (s : State) (p : BitVec 3) (id : BitVec 32) : State × List Nat :=
  let pt := s.partAt p
  match pt.launch id with
  | none => (s, [])
  | some l =>
    if !pt.classOk l.record then (s.endLaunch p l 4, [])
    else
      let none? := l.record.units == 0
      let t := s.modPart p (fun q =>
        { q.modLaunch id (fun k => { k with phase := .ready, readySeq := q.nextReady, hot := s.hotSlice p k.record,
                                            released := none? }) with nextReady := q.nextReady + 1 })
      (t, if none? then l.successors else [])

/-- One release of a pool entry (09 R225): an armed entry counts down, an idle one remembers it. A ready or running entry does
not change (DEDUCED, log entry 34). -/
def State.releaseEntry (s : State) (p : BitVec 3) (entry : Nat) : State × List Nat :=
  let pt := s.partAt p
  match pt.launches.find? (fun l => l.entry == some entry) with
  | none =>
    let n := (pt.pending.find? (fun e => e.1 == entry)).elim 0 (·.2)
    (s.modPart p (fun q => { q with pending := (entry, min (n + 1) 65535) :: q.pending.filter (fun e => e.1 != entry) }), [])
  | some l =>
    match l.phase with
    | .armed n =>
      if n ≤ 1 then s.makeReady p l.id
      else (s.modPart p (fun q => q.modLaunch l.id (fun k => { k with phase := .armed (n - 1) })), [])
    | _ => (s, [])

/-- Releases applied one by one, with those that they cause. -/
def State.releaseLoop (p : BitVec 3) : Nat → List Nat → State → State
  | 0, _, s => s
  | _ + 1, [], s => s
  | n + 1, e :: r, s =>
    let (t, more) := s.releaseEntry p e
    State.releaseLoop p n (r ++ more) t

/-- Releases of a partition: each launch is released for its trigger once, so they end. -/
def State.releaseAll (s : State) (p : BitVec 3) (es : List Nat) : State :=
  State.releaseLoop p (es.length + 8 * (s.partAt p).launches.length) es s

/-- A unit counts for its launch's trigger (09 R230). -/
def UnitRec.counts (u : UnitRec) : Bool :=
  u.triggered || match u.place with
    | .exiting _ => true
    | .ended _ => true
    | _ => false

/-- The launch's trigger (09 R230): when every unit has triggered, exited or been cancelled. -/
def State.checkTrigger (s : State) (p : BitVec 3) (id : BitVec 32) : State :=
  match (s.partAt p).launch id with
  | none => s
  | some l =>
    if l.released || l.cancelled || (l.units.filter UnitRec.counts).length != l.record.units then s
    else (s.modPart p (fun q => q.modLaunch id (fun k => { k with released := true }))).releaseAll p l.successors

/-! Arming and submission. -/

/-- A record as it is armed or submitted (09 R219 to R225; 16 R421): its identifier, and the state after it. A disabled
partition arms nothing (16 R410; log entry 35). -/
def State.enterLaunch (s : State) (p : BitVec 3) (entry : Option Nat) (words : Rec) : BitVec 32 × State :=
  let pt := s.partAt p
  let id := pt.nextId
  let s := s.modPart p (fun q => { q with nextId := q.nextId + 1 })
  let pend := entry.elim 0 (fun i => (pt.pending.find? (fun e => e.1 == i)).elim 0 (·.2))
  let clear (t : State) : State :=
    t.modPart p (fun q => { q with pending := q.pending.filter (fun e => some e.1 != entry) })
  if !pt.en then (id, s)
  else
    match s.validate p words with
    | (.error e, t) => (id, (clear t).completion p id 1 e.status 0 0 0 e.aux)
    | (.ok ks, t) =>
      let wait := if entry.isSome then words.depcnt - pend else 0
      let l : Launch :=
        { id := id, entry := entry, words := words, phase := .armed wait, readySeq := 0, admitted := false, units := [],
          nextUnit := 0, remaining := words.slices, released := false, partialEnd := false, cancelled := false, nfault := 0,
          fcause := 0, ftask := 0, faulty := [], hot := none, turns := [], xlat := ks }
      let t := (clear t).modPart p (fun q => { q with launches := q.launches ++ [l] })
      if wait == 0 then
        let (u, more) := t.makeReady p id
        (id, u.releaseAll p more)
      else (id, t)

/-- The sixteen words of a record in memory, as they are stored there: DESIGN CHOICE, log entry 72, for words that cannot be
corrected. -/
def State.readRec (s : State) (pa : Nat) : Rec := (List.range 16).map (fun i => (s.recordView pa).mem.read64 (pa + 8 * i))

/-! Units. -/

/-- Changing the record of a unit. -/
def Launch.modUnit (l : Launch) (u : Nat) (f : UnitRec → UnitRec) : Launch :=
  { l with units := l.units.map (fun k => if k.u == u then f k else k) }

/-- The live launch of a task, and the unit's record, when it has started. -/
def Part.findUnit (p : Part) (task : BitVec 32) : Option (Launch × UnitRec) :=
  p.launches.findSome? (fun l => (l.units.find? (fun u => BitVec.ofNat 32 (l.record.tbase + u.u) == task)).map (fun u => (l, u)))

/-- Changing the place of a unit. -/
def State.setPlace (s : State) (p : BitVec 3) (l : BitVec 32) (u : Nat) (w : UnitWhere) : State :=
  s.modPart p (fun q => q.modLaunch l (fun k => k.modUnit u (fun r => { r with place := w })))

/-- The unit is resident on the modelled core. -/
def State.residentIs (s : State) (p : BitVec 3) (task : BitVec 32) : Bool :=
  s.core.run != .idle && s.part == p && s.core.unit.ident.task == task

/-- A unit of another core ends there, or leaves it for a slot: the pin that it holds is handed on (12 R318). -/
def State.releasePin (s : State) (p : BitVec 3) (l : BitVec 32) (u : UnitRec) : State :=
  let t := s.modPart p (fun q => q.modLaunch l (fun k => k.modUnit u.u (fun r => { r with pin := none, susp := none, stopped := false, exempt := false })))
  { t with core.oldPins := t.core.oldPins ++ u.pin.toList }

/-- The rows of the unit on another core that wait in a stacking entry leave it (06 R170; 12 R322; 14 R392). -/
def State.withdraw (s : State) (core : Nat) : State := { s with dev := s.dev.dropOffers core (fun _ => true) }

/-- The resident unit executes nothing more (09 R229, R231): its streams are unbound (13 R349), its pin will be released (12
R318) and its mailboxes are empty. -/
def State.stopUnit (s : State) : State :=
  let pin := if s.k.pinned then [s.k.pinEntry] else []
  let u := s.core.unit
  let s := s.park .exited s.pc
  { s with
    core.unit := { u with m := u.m.map (fun m => { m with full := false }), q := Vector.replicate 4 Stream.unbound,
                          k := { u.k with vpin := 0 } },
    core.oldPins := s.core.oldPins ++ pin, core.evictReq := none, core.safe := none }

/-- A unit in a save slot is discarded (09 R229, 12 R318): its pin will be released and its slot is free. -/
def State.dropSaved (s : State) (p : BitVec 3) (task : BitVec 32) : State :=
  match (s.partAt p).saved.find? (fun v => v.task == task) with
  | none => s
  | some v =>
    let t := s.modPart p (fun q => { q with saved := q.saved.filter (fun w => w.task != task) })
    { t with core.oldPins := t.core.oldPins ++ v.pin.toList,
             core.lsHolder := if t.core.lsHolder == some (p, task) then none else t.core.lsHolder }

/-- A unit is cancelled, wherever it stands (09 R229). -/
def State.cancelUnit (s : State) (p : BitVec 3) (l : Launch) (u : UnitRec) : State :=
  let task := BitVec.ofNat 32 (l.record.tbase + u.u)
  let s := s.modPart p (fun q => { q with evictReqs := q.evictReqs.filter (fun e => e.1 != task) })
  match u.place with
  | .here => (s.stopUnit).setPlace p l.id u.u (.exiting s.core.num.toNat)
  | .elsewhere c => ((s.withdraw c).releasePin p l.id u).setPlace p l.id u.u (.exiting c)
  | .saved _ => ((s.dropSaved p task).setPlace p l.id u.u (.ended true)).busyEntry p l u true
  | _ => s

/-- A launch is cancelled (09 R229): unstarted units never start, and the entry of an armed or ready one is idle again (R225). -/
def State.cancelLaunch (s : State) (p : BitVec 3) (l : Launch) : State :=
  let t := s.modPart p (fun q =>
    { q.modLaunch l.id (fun k => { k with cancelled := true, entry := if k.phase == .running then k.entry else none }) with
      reserve := if q.reserve == some l.id then none else q.reserve })
  l.units.foldl (fun t u => t.cancelUnit p l u) t

/-! Eviction requests (14 R381). -/

/-- The free slots of the partition's save pool (14 R383), and the lowest one (DESIGN CHOICE, log entry 22). -/
def Part.freeSlots (p : Part) : List Nat := (List.range p.savecnt.toNat).filter (fun i => !p.saved.any (fun u => u.slot == i))
@[inherit_doc Part.freeSlots] def Part.freeSlot (p : Part) : Option Nat :=
  (List.range p.savecnt.toNat).find? (fun i => !p.saved.any (fun u => u.slot == i))

/-- A request that is dropped when no save slot is free (14 R381). -/
def EvictSource.drops : EvictSource → Bool
  | .slice => true
  | .priority => true
  | .coreNeed => true
  | _ => false

/-- A debug stop takes the place of a pending request that the lack of a slot drops (14 R381). -/
def EvictSource.after (new old : EvictSource) : EvictSource := if new == .debug && old.drops then new else old

/-- The core that a unit occupies. -/
def UnitRec.occupies (u : UnitRec) (me : Nat) : Option Nat :=
  match u.place with
  | .here => some me
  | .elsewhere c => some c
  | .exiting c => some c
  | _ => none

/-- A request for the eviction of the unit is under way (14 R381). -/
def State.evictPending (s : State) (p : BitVec 3) (task : BitVec 32) (u : UnitRec) : Bool :=
  match u.place with
  | .here => s.core.evictReq.isSome
  | .elsewhere _ => (s.partAt p).evictReqs.any (fun e => e.1 == task)
  | _ => false

/-- The eviction of one unit is requested, behind the requests that have arrived (14 R381). -/
def State.requestOne (s : State) (p : BitVec 3) (src : EvictSource) (l : Launch) (u : UnitRec) : State :=
  let task := BitVec.ofNat 32 (l.record.tbase + u.u)
  let queued : State :=
    if s.evictPending p task u then s else { s with dev.evictions := s.dev.evictions.filter (· != (p, task)) ++ [(p, task)] }
  match u.place with
  | .here => { queued with core.evictReq := some ((s.core.evictReq.map src.after).getD src) }
  | .elsewhere _ => queued.modPart p (fun q =>
      { q with evictReqs := if s.evictPending p task u then q.evictReqs.map (fun e => if e.1 == task then (task, src.after e.2) else e)
                            else q.evictReqs ++ [(task, src)] })
  | _ => s

/-- Units in ascending order of their cores: requests of one cycle are taken so (14 R381). -/
def byCore (me : Nat) (us : List (Launch × UnitRec)) : List (Launch × UnitRec) :=
  (List.range 128).flatMap (fun c => us.filter (fun e => e.2.occupies me == some c))

/-- The units that are pre-empted together with a unit (09 R224), itself among them: those of a concurrent launch that are resident. -/
def Launch.together (l : Launch) (u : UnitRec) : List UnitRec :=
  if l.record.cls == 2 then l.units.filter (fun k => match k.place with
    | .here => true
    | .elsewhere _ => true
    | _ => false)
  else [u]

/-- The save pool has a slot for every unit that is pre-empted with one. -/
def Part.roomToSave (p : Part) (l : Launch) (u : UnitRec) : Bool := decide ((l.together u).length ≤ p.freeSlots.length)

/-- The dispatcher requests the eviction of a unit (14 R381); the units of a concurrent launch are pre-empted only together, but only
the one that matched stops for the debugger (09 R224; 15 R402). -/
def State.requestEvict (s : State) (p : BitVec 3) (task : BitVec 32) (src : EvictSource) : State :=
  let pt := s.partAt p
  match pt.findUnit task with
  | none => s
  | some (l, u) =>
    if src.drops && !pt.roomToSave l u then s
    else if l.record.cls == 2 then
      (byCore s.core.num.toNat (l.units.map (fun k => (l, k)))).foldl (fun t e =>
        t.requestOne p (if src == .debug && e.2.u != u.u then .mate else src) l e.2) s
    else s.requestOne p src l u

/-- The request for the eviction of a unit is dropped when the save pool has no slot for what it pre-empts and its source is one that
drops (14 R381): a unit that stood at a safe point for it goes on (R389). -/
def State.dropRequest (s : State) (p : BitVec 3) (l : Launch) (u : UnitRec) : State :=
  let task := BitVec.ofNat 32 (l.record.tbase + u.u)
  let unqueued : State := { s with dev.evictions := s.dev.evictions.filter (· != (p, task)) }
  let drops (e : Option EvictSource) : Bool := e.any EvictSource.drops && !(s.partAt p).roomToSave l u
  match u.place with
  | .here => if drops s.core.evictReq then { unqueued with core.evictReq := none, core.safe := none } else s
  | .elsewhere _ =>
    if drops (((s.partAt p).evictReqs.find? (fun e => e.1 == task)).map (·.2)) then
      unqueued.modPart p (fun q => { q with evictReqs := q.evictReqs.filter (fun e => e.1 != task) })
    else s
  | _ => s

/-- Every pending request of a partition that its save pool has no slots for, and that drops then (14 R381). -/
def State.dropRequests (s : State) (p : BitVec 3) : State :=
  ((s.partAt p).launches.flatMap (fun l => l.units.map (fun u => (l, u)))).foldl (fun t e => t.dropRequest p e.1 e.2) s

/-! Choosing a unit (09 R232). -/

/-- Cores that a launch occupies. -/
def Launch.cores (l : Launch) (me : Nat) : List Nat := l.units.filterMap (fun u => u.occupies me)

/-- The launch has a unit to start (09 R232): an unstarted one. -/
def Launch.hasUnstarted (l : Launch) : Bool := decide (l.nextUnit < l.record.units)

/-- The launch may run. -/
def Launch.runnable (l : Launch) : Bool :=
  !l.cancelled && match l.phase with
    | .armed _ => false
    | _ => true

/-- The launch that starts its next unit on a core, which a time slice has freed for it (09 R232). -/
def Part.turnOf (p : Part) (core : Nat) : Option Launch :=
  p.launches.find? (fun l => l.runnable && l.hasUnstarted && l.turns.contains core)

/-- Free cores of a partition on which a unit may start, ascending (16 R411, R412): a core is free once its unit is saved (14 R382). -/
def State.emptyCores (s : State) (p : BitVec 3) : List Nat :=
  let pt := s.partAt p
  let me := s.core.num.toNat
  let leaving := pt.saved.filterMap (fun v => if v.image then none else (pt.findUnit v.task).map (·.2.core))
  let busy := (pt.launches.map (fun l => l.cores me)).flatten ++ leaving
  (List.range 128).filter (fun c =>
    pt.qmask.getLsbD (c / 16) && !pt.qpark.getLsbD (c / 16) && !pt.qstate.getLsbD (c / 16) && !busy.contains c
      && (c != me || (s.core.run == .idle && s.core.service.isNone)))

/-- The free cores that no time slice has given away. -/
def State.freeCores (s : State) (p : BitVec 3) : List Nat :=
  (s.emptyCores p).filter (fun c => ((s.partAt p).turnOf c).isNone)

/-- The rank of a core for a hot slice: its cluster, its quadrant, its die, the other die (09 R233). -/
def hotRank (hot : Option Nat) (c : Nat) : Nat :=
  match hot with
  | none => 0
  | some h => if c / 4 == h then 0 else if c / 16 == h / 4 then 1 else if c / 64 == h / 16 then 2 else 3

/-- A unit of a launch with this L1 mode may run in the cluster of a core (09 R233). -/
def State.modeOk (s : State) (p : BitVec 3) (l : Launch) (c : Nat) : Bool :=
  !(s.partAt p).launches.any (fun k => k.record.l1m != l.record.l1m && (k.cores s.core.num.toNat).any (fun d => d / 4 == c / 4))

/-- The launch may occupy one core more (09 R233). -/
def State.maxcOk (s : State) (l : Launch) : Bool := l.record.maxc == 0 || decide ((l.cores s.core.num.toNat).length < l.record.maxc)

/-- Cores on which a launch's next unit may be placed, the preferred one first (09 R233). -/
def State.placement (s : State) (p : BitVec 3) (l : Launch) : List Nat :=
  if !s.maxcOk l then []
  else
    let ok := (s.freeCores p).filter (s.modeOk p l)
    (List.range 4).flatMap (fun r => ok.filter (fun c => hotRank l.hot c == r))

/-- Saved units of a launch that can run again: they go before its unstarted units (09 R232). -/
def Part.waitingSaved (p : Part) (l : Launch) : List SavedUnit :=
  p.saved.filter (fun v => v.launch == l.id && v.susp.isNone && !v.stopped)

/-- The energy rule of 16 R415. -/
def Part.energyOk (p : Part) (l : Launch) : Bool := l.admitted || p.budget == 0 || decide (l.record.energy ≤ p.eremain.toNat)

/-- An eligible launch (09 R232). -/
def State.eligible (s : State) (p : BitVec 3) (l : Launch) : Bool :=
  let pt := s.partAt p
  l.runnable && (l.hasUnstarted || !(pt.waitingSaved l).isEmpty) && pt.energyOk l && !(s.placement p l).isEmpty

/-- A graph's deficit at a priority. -/
def deficitOf (ds : List (Nat × Nat × Int)) (pri g : Nat) : Int := (ds.find? (fun d => d.1 == pri && d.2.1 == g)).elim 0 (·.2.2)

/-- A deficit replaced. -/
def setDeficit (ds : List (Nat × Nat × Int)) (pri g : Nat) (v : Int) : List (Nat × Nat × Int) :=
  (pri, g, v) :: ds.filter (fun d => !(d.1 == pri && d.2.1 == g))

/-- The next identifier of a list above g, wrapping; the flag says that it wrapped. -/
def nextAbove (gs : List Nat) (g : Nat) : Nat × Bool :=
  match (gs.filter (fun h => decide (g < h))).min? with
  | some h => (h, false)
  | none => (gs.min?.getD g, true)

/-- The loop of 09 R232: the graph that starts a unit, with the visited marks and the deficits. -/
def roundLoop (gs : List Nat) (pri : Nat) : Nat → Nat → List Nat → List (Nat × Nat × Int) → Option (Nat × List Nat × List (Nat × Nat × Int))
  | 0, _, _, _ => none
  | n + 1, g, visited, ds =>
    let (visited, ds) := if visited.contains g then (visited, ds) else (g :: visited, setDeficit ds pri g (deficitOf ds pri g + 128))
    if 1 ≤ deficitOf ds pri g then some (g, visited, ds)
    else
      let (h, wrapped) := nextAbove gs g
      roundLoop gs pri n h (if wrapped then [] else visited) ds

/-- A choice of the dispatcher: the launch, and the rounds and deficits after it. -/
structure Choice where
  launch : Launch
  rounds : List Round
  deficits : List (Nat × Nat × Int)

/-- The launch of a graph that became ready first. -/
def firstReady (ls : List Launch) : Option Launch :=
  ls.foldl (fun acc l =>
    match acc with
    | none => some l
    | some k => if l.readySeq < k.readySeq then some l else some k) none

/-- Steps of the loop that raise some graph's deficit to 1: each round adds 128 to every graph. -/
def roundFuel (gs : List Nat) (pri : Nat) (ds : List (Nat × Nat × Int)) : Nat :=
  (gs.length + 1) * (3 + (gs.map (fun g => (1 - deficitOf ds pri g).toNat / 128)).foldl max 0)

/-- The choice at one priority (09 R232). -/
def Part.chooseAt (p : Part) (ls : List Launch) (pri : Nat) (ds : List (Nat × Nat × Int)) : Option Choice :=
  let mine := ls.filter (fun l => l.pri == pri)
  let gs := (mine.map Launch.graph).dedup
  match gs.min? with
  | none => none
  | some low =>
    let (g0, visited) := match p.rounds.find? (fun r => r.pri == pri) with
      | none => (low, [])
      | some r => (if gs.contains r.current then r.current else (nextAbove gs r.current).1, r.visited)
    match roundLoop gs pri (roundFuel gs pri ds) g0 visited ds with
    | none => none
    | some (g, visited, ds) =>
      (firstReady (mine.filter (fun l => l.graph == g))).map (fun l =>
        ⟨l, ⟨pri, g, visited⟩ :: p.rounds.filter (fun r => r.pri != pri), ds⟩)

/-- The deficits of the graphs with an eligible launch at their priority: the others' are 0 (09 R232). -/
def State.deficitsNow (s : State) (p : BitVec 3) : List (Nat × Nat × Int) :=
  let ls := (s.partAt p).launches.filter (s.eligible p)
  (s.partAt p).deficits.filter (fun d => ls.any (fun l => l.pri == d.1 && l.graph == d.2.1))

/-- The choice of 09 R232, from priority 7 down. -/
def State.choose (s : State) (p : BitVec 3) : Option Choice :=
  let pt := s.partAt p
  let ls := pt.launches.filter (s.eligible p)
  ([7, 6, 5, 4, 3, 2, 1, 0]).findSome? (fun pri => pt.chooseAt ls pri (s.deficitsNow p))

/-! Starting a unit. -/

/-- The physical address of a save slot, and of its local-store image (14 R383). -/
def Part.slotPa (p : Part) (slot : Nat) : Nat := p.savebase.toNat + 0x12000 * slot
@[inherit_doc Part.slotPa] def Part.lsImagePa (p : Part) (slot : Nat) : Nat := p.lsbase.toNat + 0x80000 * slot

/-- The bytes of a word of a save slot changed by a mask of bits set. -/
def State.slotOr (s : State) (p : BitVec 3) (pa v : Nat) : State := s.slotWrite p pa (leBytes 8 (Nat.lor (s.mem.readNat pa 8) v))

/-- The whole local store as engine bytes. -/
def State.lsImage (s : State) (off n : Nat) : List Moved := s.moveFrom (.ls off) n .taken

/-- A local store's image in a partition's pool, by blocks of 4 KiB (log entry 68). -/
def State.putLsImage (s : State) (p : BitVec 3) (pa : Nat) (bytes : Nat → List Moved) : State :=
  (List.range (lsSize / 4096)).foldl (fun t i =>
    if t.ownBytes p (pa + 4096 * i) 4096 then t.moveToMem .h (pa + 4096 * i) (bytes (4096 * i)) else t) s

/-- The image of a saved unit's local store is in its place in the pool, and its slot says so (14 R385). DESIGN CHOICE, log entry 90:
lsheld and lscore stay as they were saved. -/
def State.lsSaved (s : State) (p : BitVec 3) (v : SavedUnit) (bytes : Nat → List Moved) : State :=
  (s.putLsImage p ((s.partAt p).lsImagePa v.slot) bytes).slotOr p ((s.partAt p).slotPa v.slot + 0x10690) (2 ^ 41)

/-- A held local store is written to its image before another unit starts on the core (14 R385); DESIGN CHOICE, log entry 90, for
lsheld. -/
def State.writeOutLs (s : State) : State :=
  match s.core.lsHolder with
  | none => s
  | some (p, task) =>
    match (s.partAt p).saved.find? (fun v => v.task == task) with
    | none => { s with core.lsHolder := none }
    | some v => { s.lsSaved p v (fun o => s.lsImage o 4096) with core.lsHolder := none }

/-- The same on another core: the saved units whose local stores it holds (14 R385). -/
def State.writeOutFar (s : State) (core : Nat) : State :=
  (List.finRange 8).foldl (fun t i =>
    let p := BitVec.ofFin i
    ((t.partAt p).saved.filter (fun v => v.far.any (fun f => f.1 == core))).foldl (fun (t : State) (v : SavedUnit) =>
      (t.lsSaved p v (fun o => (((v.far.map Prod.snd).getD []).readBytes o 4096).map .ok)).modPart p (fun q =>
        { q with saved := q.saved.map (fun w => if w.slot == v.slot then { w with far := none } else w) })) t) s

/-- The local store as a unit of a partition finds it (10 R247). -/
def State.enterLs (s : State) (p : BitVec 3) : State :=
  let s := s.writeOutLs
  let s : State := if s.core.lsPart == some p || s.core.lsPart.isNone then s else { s with core.ls := [], core.lsPoison := [] }
  { s with core.lsPart := some p }

/-- The cluster's L1 mode for a launch (10 R245): a switch writes back every dirty sector and invalidates every line. -/
def State.l1Mode (s : State) (fused : Bool) : State :=
  if s.core.l1.fused == fused then s
  else { s.writeBackAll.dropClean with core.l1.sectors := [], core.l1.stale := [], core.l1.fused := fused }

/-- A core of the modelled core's cluster. -/
def State.inCluster (s : State) (core : Nat) : Bool := core / 4 == s.core.num.toNat / 4

/-- A unit of a launch comes to another core: the local stores that it holds go to their images (14 R385), and in the modelled core's
cluster its mode may switch the L1's (10 R245). -/
def State.occupyFar (s : State) (l : Launch) (core : Nat) : State :=
  let t := s.writeOutFar core
  if t.inCluster core then t.l1Mode l.record.l1m else t

/-- The context of a unit at its start (01 R10, R11; 09 R223). -/
def unitStartCtx (pt : Part) (l : Launch) (id : Ident) : UnitCtx :=
  { UnitCtx.reset with
    x := UnitCtx.reset.x.set 10 l.record.param, ident := id, pc := BitVec.ofNat 56 l.record.prog,
    k := { KRegs.reset with tvec := pt.tvecdef, tdeleg := pt.tdlgdef } }

/-- The unit occupies the modelled core, with acquire at .dev (09 R230). -/
def State.install (s : State) (p : BitVec 3) (fused : Bool) (u : UnitCtx) : State :=
  let t := (s.enterLs p).l1Mode fused
  let t : State := { t with core.unit := u, core.run := .running, core.wait := .none, core.exempt := false, core.frame := [],
                            core.evictReq := none, core.safe := none, core.badX := [] }
  t.acquire 2

/-- Starting unit u of a launch on a core. -/
def State.startOn (s : State) (p : BitVec 3) (l : Launch) (u core : Nat) : State :=
  let me := core == s.core.num.toNat
  let t := if me then s.install p l.record.l1m (unitStartCtx (s.partAt p) l (l.record.ident l.id p u)) else s.occupyFar l core
  let r := UnitRec.start u (if me then .here else .elsewhere core) core
  t.modPart p (fun q => q.modLaunch l.id (fun k => { k with units := k.units ++ [r], nextUnit := u + 1, phase := .running }))

/-- The first start of a launch admits it and charges its estimate (16 R415). -/
def Part.charge (p : Part) (l : Launch) : Part :=
  if l.admitted then p
  else
    let q := p.modLaunch l.id (fun k => { k with admitted := true })
    if p.budget == 0 then q else { q with eremain := q.eremain - BitVec.ofNat 64 l.record.energy }

/-- A concurrent launch starts all its units in one cycle, or reserves the free cores (09 R233). -/
def State.startAll (s : State) (p : BitVec 3) (c : Choice) : State :=
  let l := c.launch
  let n := l.record.units
  let cores := s.placement p l
  if cores.length < n then s.modPart p (fun q => { q with reserve := some l.id, rounds := c.rounds, deficits := c.deficits })
  else
    let ds := setDeficit c.deficits l.pri l.graph (deficitOf c.deficits l.pri l.graph - n)
    let t := s.modPart p (fun q => { (q.charge l) with reserve := none, rounds := c.rounds, deficits := ds })
    (List.range n).foldl (fun t i => t.startOn p l i (cores.getD i 0)) t

/-- One unit starts on a core, when the dispatcher's choice falls on it. -/
def State.startOne (s : State) (p : BitVec 3) (c : Choice) (core : Nat) : State :=
  let l := c.launch
  if (s.placement p l).head? != some core || !((s.partAt p).waitingSaved l).isEmpty || !l.hasUnstarted then s
  else
    let ds := setDeficit c.deficits l.pri l.graph (deficitOf c.deficits l.pri l.graph - 1)
    let t := s.modPart p (fun q => { (q.charge l) with rounds := c.rounds, deficits := ds })
    t.startOn p l l.nextUnit core

/-- The lowest unstarted unit of a launch starts on a core that a time slice has freed for it (09 R232). DESIGN CHOICE, log entry 91: its
start takes 1 from its graph's deficit, as one of the loop does. -/
def State.startTurn (s : State) (p : BitVec 3) (l : Launch) (core : Nat) : State :=
  let t := s.modPart p (fun q =>
    { (q.charge l).modLaunch l.id (fun k => { k with turns := k.turns.erase core }) with
      deficits := setDeficit q.deficits l.pri l.graph (deficitOf q.deficits l.pri l.graph - 1) })
  t.startOn p l l.nextUnit core

/-- A launch could take one core more: it has a unit to run, energy, and its maxc allows it (09 R232, R233). -/
def State.wantsMore (s : State) (p : BitVec 3) (l : Launch) : Bool :=
  let pt := s.partAt p
  l.runnable && (l.hasUnstarted || !(pt.waitingSaved l).isEmpty) && pt.energyOk l && s.maxcOk l

/-- A launch's L1 mode would let it run on a core that one unit leaves (09 R233). -/
def State.modeOkWithout (s : State) (p : BitVec 3) (l : Launch) (task : BitVec 32) (core : Nat) : Bool :=
  !(s.partAt p).launches.any (fun k => k.record.l1m != l.record.l1m && k.units.any (fun u =>
    BitVec.ofNat 32 (k.record.tbase + u.u) != task && ((u.occupies s.core.num.toNat).map (· / 4)) == some (core / 4)))

/-- The unit that a waiting launch of priority 6 or 7 pre-empts (09 R232): lowest priority, then highest core number, of weakly
parallel and parallel launches below it, on a core that the launch may take. -/
def State.victim (s : State) (p : BitVec 3) (w : Launch) : Option (BitVec 32) :=
  let me := s.core.num.toNat
  let units := ((s.partAt p).launches.filter (fun l => decide (l.pri < w.pri) && decide (l.record.cls < 2))).flatMap (fun l =>
    l.units.filterMap (fun u =>
      let task := BitVec.ofNat 32 (l.record.tbase + u.u)
      let at_ (c : Nat) : Option (Nat × Nat × BitVec 32) := if s.modeOkWithout p w task c then some (l.pri, c, task) else none
      match u.place with
      | .here => at_ me
      | .elsewhere c => at_ c
      | _ => none))
  (units.foldl (fun acc e =>
    match acc with
    | none => some e
    | some b => if e.1 < b.1 || (e.1 == b.1 && decide (b.2.1 < e.2.1)) then some e else some b) none).map (·.2.2)

/-- The launch of priority 6 or 7 that waits for a core (09 R232): of the highest priority, the first that became ready. -/
def State.urgent (s : State) (p : BitVec 3) : Option Launch :=
  ([7, 6]).findSome? (fun pri => firstReady ((s.partAt p).launches.filter (fun l => l.pri == pri && s.wantsMore p l)))

/-- A launch waits for a core: for an unstarted unit, or for a saved one. -/
def Part.wantsCore (p : Part) : Bool :=
  p.launches.any (fun l => l.runnable && (l.hasUnstarted || !(p.waitingSaved l).isEmpty) && p.energyOk l)

/-- The parked units of a partition, whose cores a launch needs (14 R364, R381), in ascending order of their cores: those whose eviction
is not requested yet. -/
def State.parked (s : State) (p : BitVec 3) : List (BitVec 32) :=
  let pt := s.partAt p
  if !pt.wantsCore then []
  else
    (byCore s.core.num.toNat (pt.launches.flatMap (fun l => l.units.map (fun u => (l, u))))).filterMap (fun e =>
      let parked := match e.2.place with
        | .here => s.core.run.susp.isSome || s.core.run == .stopped
        | .elsewhere _ => e.2.susp.isSome || e.2.stopped
        | _ => false
      let task := BitVec.ofNat 32 (e.1.record.tbase + e.2.u)
      if parked && !s.evictPending p task e.2 then some task else none)

/-- A concurrent launch whose units were pre-empted waits for cores for all of them: it reserves those that become free (09 R224,
R233). -/
def State.reserveFor (s : State) (p : BitVec 3) (c : Choice) : State :=
  s.modPart p (fun q => { q with reserve := some c.launch.id, rounds := c.rounds, deficits := c.deficits })

/-- The dispatcher asks for the core of a parked unit, when a launch waits for one (14 R364, R381). -/
def State.requestParked (s : State) (p : BitVec 3) : State :=
  match s.parked p with
  | task :: _ => s.requestEvict p task .coreNeed
  | [] => s

/-- No core is free: the dispatcher makes room for an urgent launch (09 R232), or asks for the core of a parked unit. -/
def State.makeRoom (s : State) (p : BitVec 3) : State :=
  match (s.urgent p).bind (s.victim p) with
  | some task => s.requestEvict p task .priority
  | none => s.requestParked p

/-- A concurrent launch starts, or waits for more cores than are free, and then those of parked units are asked for. -/
def State.startGroup (s : State) (p : BitVec 3) (c : Choice) : State :=
  let t := s.startAll p c
  if (t.partAt p).reserve == some c.launch.id then t.requestParked p else t

/-- UNIT_START (09 R232, R233): the dispatcher of a partition fills a free core, or makes room: for an urgent launch, or where
a parked unit holds the core that a launch needs. A graph that has no eligible launch then has a deficit of 0. -/
def execUnitStart (p : Fin 8) (core : Nat) (s : State) : Out :=
  let p := BitVec.ofFin p
  let pt := s.partAt p
  .next (
    if !pt.en || pt.held then s
    else
      match pt.turnOf core with
      | some l => if (s.emptyCores p).contains core && s.maxcOk l && s.modeOk p l core then s.startTurn p l core else s
      | none =>
        if (s.freeCores p).isEmpty then s.makeRoom p
        else
          match pt.reserve.bind pt.launch with
          | some l => if l.nextUnit == 0 then s.startGroup p ⟨l, pt.rounds, pt.deficits⟩ else s.requestParked p
          | none =>
            match s.choose p with
            | none => (s.modPart p (fun q => { q with deficits := s.deficitsNow p })).requestParked p
            | some c =>
              if c.launch.record.cls != 2 then s.startOne p c core
              else if c.launch.nextUnit == 0 then s.startGroup p c
              else (s.reserveFor p c).requestParked p)

/-- TIME_SLICE_PREEMPTION (09 R232): a unit of a parallel launch with unstarted units, no core being free. -/
def execTimeSlicePreemption (p : Fin 8) (task : BitVec 32) (s : State) : Out :=
  let p := BitVec.ofFin p
  .next (match (s.partAt p).findUnit task with
    | some (l, _) => if l.record.cls == 1 && l.hasUnstarted && (s.freeCores p).isEmpty then s.requestEvict p task .slice else s
    | none => s)

/-- The sends of the resident unit that the network interface holds (09 R237). -/
def State.ownSends (s : State) : List Msg :=
  s.core.net.filter (fun m => m.part == s.part && m.task == s.core.unit.ident.task)

/-- What a resident unit that has exited still waits for (09 R231): stores, remote writes and its sends. -/
def State.drained (s : State) : Bool := s.core.sb.isEmpty && s.core.unacked.isEmpty && s.ownSends.isEmpty

/-- UNIT_END (09 R231, R241): the unit ends, its core is free and its idle/busy entry is written; its drained stores reach their
homes before the launch counts it (R217). A unit on another core ends when that core says so. -/
def execUnitEnd (p : Fin 8) (task : BitVec 32) (s : State) : Out :=
  let p := BitVec.ofFin p
  .next (match (s.partAt p).findUnit task with
    | none => s
    | some (l, u) =>
      let done (t : State) : State :=
        ((t.setPlace p l.id u.u (.ended false)).busyEntry p l u true).checkTrigger p l.id
      match u.place with
      | .elsewhere _ => done (s.releasePin p l.id u)
      | .exiting c =>
        if c == s.core.num.toNat && s.residentIs p task then
          if s.core.run == .exited && s.drained && s.homesAccept s.dirtyLines then done { s.releaseCache 2 with core.run := .idle, core.lsPart := some p } else s
        else done s
      | _ => s)

/-- LAUNCH_COMPLETION (09 R217): every unit that started has ended and every detached command of the launch has completed. -/
def execLaunchCompletion (p : Fin 8) (launch : BitVec 32) (s : State) : Out :=
  let p := BitVec.ofFin p
  .next (match (s.partAt p).launch launch with
    | none => s
    | some l =>
      let started := l.endedUnits == l.units.length
      let whole := l.cancelled || (l.runnable && l.units.length == l.record.units)
      let idle := !s.core.cmds.any (fun c => c.part == p && c.launch == launch)
      if started && whole && idle then (s.countUp p l).endLaunch p l (if l.cancelled then 2 else if l.partialEnd then 1 else 0)
      else s)

end Sys2Proof.Machine
end

