-- ==== Sys2Proof/Machine/Spill.lean ====
section
/-! DEFINITION. The spill engine: eviction, restoration and migration of units and what ends a suspension (14 R366, R368, R381
to R391). -/

namespace Sys2Proof.Machine

/-! The image of a context (14 R384). -/

/-- Bytes filled up with zeros to a length. -/
def padTo (n : Nat) (bs : List Byte) : List Byte := bs ++ List.replicate (n - bs.length) 0

/-- The tag word of 01 R13. -/
def Tile.tagWord (t : Tile) : Nat := t.fmt.toNat + t.rext * 2 ^ 5 + t.cext * 2 ^ 11 + if t.scl then 2 ^ 17 else 0

/-- The 64 bytes of a tile beside its containers. -/
def Tile.head (t : Tile) : List Byte :=
  if t.mapped then padTo 64 (leBytes 4 t.tagWord ++ leBytes 4 t.poison.toNat ++ leBytes 8 t.origin ++ padTo 32 t.scale ++ leBytes 8 1)
  else List.replicate 64 0

/-- The containers of a tile, row by row. -/
def Tile.image (t : Tile) : List Byte :=
  (List.range 32).flatMap (fun i => padTo 128 (((t.rows.getD i []).take 32).flatMap (fun e => leBytes 4 e.toNat)))

/-- The 32 bytes of a stream register. -/
def Stream.image (r : Stream) : List Byte :=
  if r.bound then
    leBytes 8 (r.addr.toNat + r.esz.toNat * 2 ^ 56 + 2 ^ 58) ++ leBytes 8 (r.count.toNat + r.next.toNat * 2 ^ 32)
      ++ leBytes 8 (r.lsbase.toNat + r.lsz.toNat * 2 ^ 20) ++ leBytes 8 r.arrived.toNat
  else List.replicate 32 0

/-- k.status as it is saved (01 R22, R36): mw tells a unit that waits at a mailbox instruction. -/
def savedStatus (k : KRegs) (w : WaitKind) : Word64 := statusOf k.pl k.rf ||| if w == .mailbox then 8 else 0

/-- The control registers in the order of R384. -/
def KRegs.image (k : KRegs) (status : Word64) : List Word64 :=
  [status, k.fpmode, k.sticky, k.repst, k.repbase, k.vpin, k.stkhold, k.tvec, k.tcause, k.epc, k.tval, k.tdeleg]

/-- The identity registers in the order of 01 R19. -/
def UnitCtx.identImage (u : UnitCtx) (core : BitVec 7) : List Word64 :=
  let w (v : BitVec 32) : Word64 := v.setWidth 64
  let id := u.ident
  [w id.unit, w id.launch, w id.task, core.setWidth 64, w id.org0, w id.org1, w id.ext0, w id.ext1, w id.slice, w id.nslice,
   id.part.setWidth 64, u.k.idVer]

/-- The word of flags at 0x1_0690: spt and susp are the arguments, and the local store is held on the core. -/
def UnitCtx.flags (u : UnitCtx) (core : BitVec 7) (spt susp : Bool) : Nat :=
  u.ident.task.toNat + (if spt then 2 ^ 32 else 0) + 2 ^ 33 + core.toNat * 2 ^ 34 + (if u.trig then 2 ^ 42 else 0)
    + if susp then 2 ^ 43 else 0

/-- A saved slot from 0x1_0000 on. -/
def UnitCtx.image (u : UnitCtx) (status : Word64) (core : BitVec 7) (spt susp : Bool) (live : BitVec 16) : List Byte :=
  padTo 0x2000
    (u.t.toList.flatMap Tile.head ++ wordBytes u.x.toList ++ wordBytes (u.m.toList.map (·.val))
      ++ leBytes 8 (((List.finRange 8).map (fun i => if u.m[i].full then 2 ^ i.val else 0)).sum)
      ++ leBytes 8 u.pc.toNat ++ wordBytes (u.k.image status) ++ wordBytes (u.identImage core)
      ++ u.q.toList.flatMap Stream.image ++ leBytes 8 (u.flags core spt susp) ++ leBytes 8 live.toNat)

/-- Tiles outside a live mask are saved as null (14 R389). -/
def UnitCtx.onlyLive (u : UnitCtx) (live : BitVec 16) : UnitCtx :=
  { u with t := u.t.mapIdx (fun i t => if live.getLsbD i then t else Tile.null) }

/-- The context is written to a slot on path h (14 R382): mapped tiles' containers, and everything else. -/
def State.saveCtx (s : State) (p : BitVec 3) (pa : Nat) (u : UnitCtx) (bytes : List Byte) : State :=
  let s := (List.finRange 16).foldl (fun (s : State) i =>
    if u.t[i].mapped then s.slotWrite p (pa + 0x1000 * i.val) u.t[i].image else s) s
  (s.slotWrite p (pa + 0x10000) (bytes.take 0x1000)).slotWrite p (pa + 0x11000) (bytes.drop 0x1000)

/-! Eviction (14 R382). -/

/-- The core has no unit (14 R382; log entry 3). -/
def State.freeCore (s : State) : State :=
  { s.park .idle 0 with core.unit := UnitCtx.reset, core.evictReq := none, core.safe := none }

/-- The pin table entry that the resident unit holds (12 R318). -/
def State.pinHere (s : State) : Option Nat := if s.k.pinned then some s.k.pinEntry else none

/-- A time slice frees a core for the launch's lowest unstarted unit (09 R232). -/
def State.giveTurn (s : State) (p : BitVec 3) (l : Launch) (src : Option EvictSource) (core : Nat) : State :=
  if src == some .slice && l.hasUnstarted then
    s.modPart p (fun q => q.modLaunch l.id (fun k => { k with turns := k.turns ++ [core] }))
  else s

/-- The live-tile mask with which the resident unit may be evicted now: in safe-point mode its last instruction is an spt (14 R389).
DESIGN CHOICE, log entry 92: that holds for a unit that is suspended or stopped as well. -/
def State.evictMask (s : State) (p : BitVec 3) : Option (BitVec 16) := if (s.partAt p).pmode then s.core.safe else some 0xFFFF

/-- The resident unit goes to a slot. -/
def State.evictHere (s : State) (p : BitVec 3) (l : Launch) (u : UnitRec) (task : BitVec 32) (slot : Nat) (live : BitVec 16) : State :=
  let s := s.releaseCache 2
  let c := s.core
  let stopped := c.run == .stopped
  let ctx := c.unit.onlyLive live
  let bytes := ctx.image (savedStatus c.unit.k c.wait) c.num c.safe.isSome (stopped || c.run.susp.isSome) live
  let v : SavedUnit :=
    { slot := slot, task := task, launch := l.id, susp := c.run.susp, stopped := stopped, exempt := c.exempt,
      streams := c.unit.q.toList.map (·.data), pin := s.pinHere, image := true, far := none, noted := none, enter := none }
  let t := (s.saveCtx p ((s.partAt p).slotPa slot) ctx bytes).modPart p (fun q => { q with saved := q.saved ++ [v] })
  let t := ((t.setPlace p l.id u.u (.saved slot)).busyEntry p l u false).giveTurn p l c.evictReq c.num.toNat
  { t.freeCore with core.lsHolder := some (p, task), core.lsPart := some p }

/-- The source of the request for the eviction of a unit on another core. -/
def Part.evictSource (p : Part) (task : BitVec 32) : Option EvictSource := (p.evictReqs.find? (fun e => e.1 == task)).map (·.2)

/-- What a unit on another core leaves there: its pin, its suspension or debug stop, and its rows that wait in a stacking entry (06
R170; 14 R392). -/
def State.leaveFar (s : State) (p : BitVec 3) (l : Launch) (u : UnitRec) : State :=
  (s.withdraw u.core).modPart p (fun q =>
    q.modLaunch l.id (fun k => k.modUnit u.u (fun r => { r with pin := none, susp := none, stopped := false, exempt := false })))

/-- A unit on another core goes to a slot, whose contents that core writes. -/
def State.evictElsewhere (s : State) (p : BitVec 3) (l : Launch) (u : UnitRec) (task : BitVec 32) (slot : Nat) : State :=
  let src := (s.partAt p).evictSource task
  let v : SavedUnit := ⟨slot, task, l.id, u.susp.map (·.susp), u.stopped, u.exempt, [], u.pin, false, none, u.susp, none⟩
  let t := (s.leaveFar p l u).modPart p (fun q =>
    { q with saved := q.saved ++ [v], evictReqs := q.evictReqs.filter (fun e => e.1 != task) })
  ((t.setPlace p l.id u.u (.saved slot)).busyEntry p l u false).giveTurn p l src u.core

/-- A running unit of a weakly parallel or parallel launch leaves a parking quadrant by migration when a core is free (16 R412). -/
def State.mustMigrate (s : State) (p : BitVec 3) (l : Launch) (u : UnitRec) : Bool :=
  decide (l.record.cls < 2) && (s.freeCores p).any (s.modeOk p l)
    && match u.place with
       | .here => s.core.evictReq == some .parking && s.core.run == .running
       | .elsewhere _ => (s.partAt p).evictSource (BitVec.ofNat 32 (l.record.tbase + u.u)) == some .parking && u.susp.isNone && !u.stopped
       | _ => false

/-- The eviction of a unit, which is requested, need wait for nothing: a slot is free, and a unit of a partition in safe-point mode
stands at a safe point (14 R381, R389). -/
def State.evictReady (s : State) (e : BitVec 3 × BitVec 32) : Bool :=
  match (s.partAt e.1).findUnit e.2 with
  | none => false
  | some (l, u) =>
    s.evictPending e.1 e.2 u && (s.partAt e.1).roomToSave l u && !s.mustMigrate e.1 l u
      && match u.place with
         | .here => (s.evictMask e.1).isSome && s.core.run != .exited && s.core.run != .halted
         | _ => !(s.partAt e.1).pmode

/-- The cluster of a unit that occupies a core. -/
def State.clusterOf (s : State) (e : BitVec 3 × BitVec 32) : Option Nat :=
  ((s.partAt e.1).findUnit e.2).bind (fun f => (f.2.occupies s.core.num.toNat).map (· / 4))

/-- The spill engine of a cluster takes requests in the order of their arrival (14 R381). DEDUCED, log entry 77: one that must wait
does not hold back the later ones. -/
def State.evictTurn (s : State) (p : BitVec 3) (task : BitVec 32) : Bool :=
  (s.dev.evictions.takeWhile (fun e => e != (p, task))).all (fun e => s.clusterOf e != s.clusterOf (p, task) || !s.evictReady e)

/-- One unit whose eviction is requested goes to a slot, when it need not wait: once its stores are performed. -/
def State.evictOne (s : State) (p : BitVec 3) (l : Launch) (u : UnitRec) (slot : Nat) : Option State :=
  let task := BitVec.ofNat 32 (l.record.tbase + u.u)
  if !s.evictPending p task u || s.mustMigrate p l u then none
  else
    match u.place with
    | .here =>
      let t := s.drainAll
      if s.core.run == .exited || s.core.run == .halted || !t.core.sb.isEmpty || !t.core.unacked.isEmpty || !t.homesAccept t.dirtyLines then none
      else (s.evictMask p).map (fun live => t.evictHere p l u task slot live)
    | .elsewhere _ => if (s.partAt p).pmode && (u.susp.isSome || u.stopped) then none else some (s.evictElsewhere p l u task slot)
    | _ => none

/-- The same for units with a slot each: all of them, or none. -/
def State.evictEach (s : State) (p : BitVec 3) (l : Launch) (us : List (UnitRec × Nat)) : Option State :=
  us.foldl (fun t e => t.bind (fun t => t.evictOne p l e.1 e.2)) (some s)

/-- EVICTION (14 R382): a unit whose eviction is requested goes to a free slot, and with it, to the lowest other ones, those that are
pre-empted together with it (09 R224), in the order of their cores. The requests that need slots and find none are dropped (R381). -/
def execEviction (p : Fin 8) (task : BitVec 32) (slot : Nat) (s : State) : Out :=
  let p := BitVec.ofFin p
  .next (
    let pt := s.partAt p
    if pt.saved.any (fun v => v.slot == slot) || pt.savecnt.toNat ≤ slot || !s.evictTurn p task then s
    else
      match pt.findUnit task with
      | none => s
      | some (l, u) =>
        let mates := (byCore s.core.num.toNat (((l.together u).filter (fun k => k.u != u.u)).map (fun k => (l, k)))).map (·.2)
        let slots := pt.freeSlots.filter (· != slot)
        if slots.length < mates.length then s
        else ((s.evictEach p l ((u, slot) :: mates.zip slots)).map (fun t => t.dropRequests p)).getD s)

/-! Reading a slot back (14 R387). -/

/-- Memory as the spill engine reads the slot at an address: what it may not read holds nothing (log entry 68). -/
def State.slotView (s : State) (p : BitVec 3) (pa : Nat) : State :=
  { s with mem := s.mem.filter (fun c => decide (pa ≤ c.1) && decide (c.1 < pa + 0x12000) && s.ownBytes p c.1 1) }

/-- The tile of a slot. -/
def State.slotTile (s : State) (pa n : Nat) : Tile :=
  let h := pa + 0x10000 + 64 * n
  if s.mem.readNat (h + 0x30) 1 % 2 == 0 then Tile.null
  else
    let tag := s.mem.readNat h 4
    let fmt := BitVec.ofNat 5 tag
    let r := tag / 2 ^ 5 % 64
    let c := tag / 2 ^ 11 % 64
    { fmt := fmt, rext := r, cext := c, scl := tag.testBit 17,
      rows := (List.range r).map (fun i => (List.range c).map (fun j =>
        BitVec.ofNat 32 (s.mem.readNat (pa + 0x1000 * n + 128 * i + 4 * j) 4 % 2 ^ widthOf fmt))),
      scale := s.mem.readBytes (h + 0x10) r, poison := BitVec.ofNat 32 (s.mem.readNat (h + 4) 4),
      origin := s.mem.readNat (h + 8) 8 % 2 ^ 52, key := none, mapped := true }

/-- A tag that a restoration accepts (14 R387). -/
def Tile.tagLegal (t : Tile) : Bool :=
  !t.mapped || (!reservedCode t.fmt && t.fmt != xe4 && decide (t.rext ≤ 32) && decide (t.cext ≤ 32))

/-- The pages of a stream's whole source, translated again where the model has not kept them. -/
def State.streamRuns (s : State) (p : BitVec 3) (base n : Nat) : StreamData :=
  let bs := (blocksOf base n).filterMap (fun b =>
    match s.walk p b with
    | .ok x => some (b, x)
    | .error _ => none)
  { runs := bs.map (fun e => ⟨e.2.paOf e.1, min (base + n) ((e.1 / 4096 + 1) * 4096) - e.1⟩),
    pages := bs.map (fun e => (e.1 / 4096 * 4096, e.2.size)), bad := [], base := base, order := s.core.nextCmd }

/-- The stream register of a slot, with what the core kept of it. -/
def State.slotStream (s : State) (p : BitVec 3) (pa n : Nat) (kept : Option StreamData) : Stream :=
  let a := s.mem.read64 (pa + 0x10610 + 32 * n)
  let b := s.mem.read64 (pa + 0x10618 + 32 * n)
  let c := s.mem.read64 (pa + 0x10620 + 32 * n)
  if !a.getLsbD 58 then Stream.unbound
  else
    let r : Stream :=
      { bound := true, esz := a.extractLsb' 56 2, addr := a.setWidth 56, count := b.setWidth 32, next := b.extractLsb' 32 32,
        lsbase := c.setWidth 19, lsz := c.extractLsb' 20 4, arrived := BitVec.ofNat 32 (s.mem.readNat (pa + 0x10628 + 32 * n) 4),
        data := ⟨[], [], [], 0, 0⟩ }
    let base := r.addr.toNat - (r.next.toNat + r.arrived.toNat) * 2 ^ r.esz.toNat
    { r with data := { kept.getD (s.streamRuns p base (r.count.toNat * 2 ^ r.esz.toNat)) with order := s.core.nextCmd } }

/-- A stream state that keeps 13 R346. -/
def Stream.legal (r : Stream) : Bool :=
  !r.bound || (decide (8 ≤ r.lsz.toNat) && r.lsbase.toNat % 2 ^ r.lsz.toNat == 0 && r.count != 0
    && decide (r.next.toNat + r.arrived.toNat ≤ r.count.toNat) && r.next != r.count
    && decide (r.arrived.toNat * 2 ^ r.esz.toNat ≤ 2 ^ r.lsz.toNat))

/-- The rings of two streams are disjoint (13 R346). -/
def Stream.apart (r q : Stream) : Bool :=
  !r.bound || !q.bound || !overlap r.lsbase.toNat (2 ^ r.lsz.toNat) q.lsbase.toNat (2 ^ q.lsz.toNat)

/-- The control registers of a slot, reserved bits read as zero (01 R20 to R24; 12 R317, R321; 14 R361). -/
def State.slotK (s : State) (pa : Nat) : KRegs :=
  let w (i : Nat) : Word64 := s.mem.read64 (pa + 0x10550 + 8 * i)
  { status := lowBits 3 (w 0), fpmode := lowBits 3 (w 1), sticky := lowBits 3 (w 2), repst := lowBits 33 (w 3),
    repbase := BitVec.ofNat 64 (bits (w 4) 55 2 * 4), vpin := lowBits 34 (w 5), stkhold := stkholdOf (w 6),
    tvec := BitVec.ofNat 64 (bits (w 7) 55 2 * 4), tcause := lowBits 10 (w 8), epc := lowBits 56 (w 9), tval := w 10,
    tdeleg := BitVec.ofNat 64 (bits (w 11) 36 1 * 2) }

/-- The identity registers of a slot for unit u of a launch. The unit, the launch, the task and the partition are those that the
dispatcher holds, which software cannot change (00 R7; 14 R384). -/
def State.slotIdent (s : State) (p : BitVec 3) (pa : Nat) (u : Nat) (launch task : BitVec 32) : Ident :=
  let w (i : Nat) : BitVec 32 := (s.mem.read64 (pa + 0x105B0 + 8 * i)).setWidth 32
  ⟨BitVec.ofNat 32 u, launch, task, w 4, w 5, w 6, w 7, w 8, w 9, p⟩

/-- k.vpin of a unit that holds a pin table entry (12 R317, R318): the pin belongs to the unit, whatever software wrote to its slot
(00 R7; DEDUCED, log entry 76). -/
def Beryl.vpinOf (b : Beryl) (pin : Option Nat) : Word64 :=
  ((pin.bind (fun e => b.pins.find? (fun k => k.entry == e))).map pinWord).getD 0

/-- The context of unit u of a launch in its slot (14 R384). -/
def State.slotCtx (s : State) (p : BitVec 3) (v : SavedUnit) (u : Nat) : UnitCtx :=
  let pa := (s.partAt p).slotPa v.slot
  let s := s.slotView p pa
  { x := Vector.ofFn (fun (i : Fin 32) => if i.val == 0 then 0 else s.mem.read64 (pa + 0x10400 + 8 * i.val)),
    t := Vector.ofFn (fun (i : Fin 16) => s.slotTile pa i.val),
    m := Vector.ofFn (fun (i : Fin 8) => ⟨s.mem.read64 (pa + 0x10500 + 8 * i.val), (s.mem.readNat (pa + 0x10540) 1).testBit i.val⟩),
    q := Vector.ofFn (fun (i : Fin 4) => s.slotStream p pa i.val v.streams[i.val]?),
    ident := s.slotIdent p pa u v.launch v.task, k := { s.slotK pa with vpin := s.beryl.vpinOf v.pin },
    pc := BitVec.ofNat 56 (s.mem.readNat (pa + 0x10548) 7 / 4 * 4), trig := (s.mem.read64 (pa + 0x10690)).getLsbD 42 }

/-- The checks of 14 R387 step 1. -/
def UnitCtx.restorable (u : UnitCtx) : Bool :=
  u.t.toList.all Tile.tagLegal && u.k.pl != 3 && u.q.toList.all Stream.legal
    && (List.finRange 4).all (fun i => (List.finRange 4).all (fun j => i == j || u.q[i].apart u.q[j]))

/-- A record of type 3 (14 R366, R387): fields that the rules do not name are 0. -/
def State.refusal (s : State) (p : BitVec 3) (core : Nat) (task launch : BitVec 32) : State :=
  s.faultLog p 3 0 false false 0 (BitVec.ofNat 7 core) task launch 0 0 0 0

/-- The bytes of an image as a local store lists them: an unlisted byte of either reads as 0 (log entry 68 for an image that lies where
the partition may not read). -/
def State.lsCells (s : State) (p : BitVec 3) (pa : Nat) : Mem :=
  (s.mem.filter (fun c => decide (pa ≤ c.1) && decide (c.1 < pa + lsSize) && s.ownBytes p c.1 1)).map (fun c => (c.1 - pa, c.2))

/-- The local store loaded from an image (14 R385). -/
def State.loadLs (s : State) (p : BitVec 3) (pa : Nat) : State :=
  { s with core.ls := s.lsCells p pa,
           core.lsPoison := (List.range (lsSize / granuleSize)).filter (fun g =>
             s.badGranule (granuleOf pa + g) && s.ownBytes p (pa + granuleSize * g) granuleSize) }

/-- A local store that arrives from another core. -/
def State.copyLs (s : State) (ls : Mem) : State :=
  { s with core.ls := Mem.write [] 0 (ls.readBytes 0 lsSize), core.lsPoison := [] }

/-- The local store as the unit that is restored finds it: the bytes that it left, on this core, on the core that holds them, or in
the image (14 R385). -/
def State.resumeLs (s : State) (p : BitVec 3) (v : SavedUnit) : State :=
  let t := if s.core.lsHolder == some (p, v.task) then s
    else v.far.elim (s.writeOutLs.loadLs p ((s.partAt p).lsImagePa v.slot)) (fun f => s.writeOutLs.copyLs f.2)
  { t with core.lsHolder := none, core.lsPart := some p }

/-- A context becomes resident on the modelled core (14 R387 steps 3 to 5), at the place where it resumes unless it is suspended or
stopped; its registers are written anew. -/
def State.enterCtx (s : State) (l : Launch) (u : UnitCtx) (run : RunState) : State :=
  let t := s.l1Mode l.record.l1m
  let t : State := { t with core.unit := if run == .running then u.resumed else u, core.run := run, core.wait := .none,
                            core.exempt := false, core.frame := [], core.evictReq := none, core.safe := none, core.badX := [] }
  t.acquire 2

/-- How a saved unit comes back: as it was suspended or stopped, or running. -/
def SavedUnit.run (v : SavedUnit) : RunState :=
  match v.susp with
  | some r => .suspended r
  | none => if v.stopped then .stopped else .running

/-- The saved unit is resident on the modelled core again (14 R387 steps 2 to 5). -/
def State.restoreHere (s : State) (p : BitVec 3) (l : Launch) (v : SavedUnit) (u : UnitCtx) : State :=
  { (s.resumeLs p v).enterCtx l u v.run with core.exempt := v.exempt }

/-- The choice of 09 R232 that falls on a launch, when no other holds a reservation. -/
def State.chosen (s : State) (p : BitVec 3) (l : Launch) : Option Choice :=
  if (s.partAt p).reserve.isSome then none else (s.choose p).filter (fun c => c.launch.id == l.id)

/-- The dispatcher would run this launch's saved unit now: the choice of 09 R232 falls on it, or it holds a reservation, and the
partition starts units. -/
def State.mayRestore (s : State) (p : BitVec 3) (l : Launch) : Bool :=
  let pt := s.partAt p
  pt.en && !pt.held && (pt.reserve == some l.id || (s.chosen p l).isSome)

/-- The rounds and deficits of the loop of 09 R232 after the units that it chose come back. DESIGN CHOICE, log entry 91: the quantum of a
visited graph is added, and a unit that resumes takes nothing from its graph's deficit. -/
def State.keepChoice (s : State) (p : BitVec 3) (c : Option Choice) : State :=
  c.elim s (fun c => s.modPart p (fun q => { q with rounds := c.rounds, deficits := c.deficits }))

/-- The saved units that one restoration brings back, with their cores: a group resumes together, when there are cores for all of it
(09 R224), once all of it has left, and any other unit alone. -/
def State.restoreGroup (s : State) (p : BitVec 3) (l : Launch) (v : SavedUnit) (core : Nat) : List (SavedUnit × Nat) :=
  let cs := s.placement p l
  if l.record.cls == 2 then
    let vs := (s.partAt p).saved.filter (fun w => w.launch == l.id)
    if (l.cores s.core.num.toNat).isEmpty && vs.length ≤ cs.length then vs.zip cs else []
  else if cs.contains core then [(v, core)] else []

/-- One saved unit is restored on a core (14 R387 steps 2 to 5). DESIGN CHOICE, log entry 91: the return of a unit that the loop of 09 R232
has chosen takes nothing from its graph's deficit. -/
def State.restoreOn (s : State) (p : BitVec 3) (l : Launch) (r : UnitRec) (v : SavedUnit) (core : Nat) : State :=
  let me := core == s.core.num.toNat
  let u := s.slotCtx p v r.u
  let t := if me then s.restoreHere p l v u
    else
      let t : State := if s.core.lsHolder == some (p, v.task) then { s with core.lsHolder := none } else s
      (t.modPart p (fun q => { q with saved := q.saved.filter (fun w => w.slot != v.slot) })).occupyFar l core
  t.modPart p (fun q =>
    { q.modLaunch l.id (fun k => k.modUnit r.u (fun r =>
        { r with place := if me then .here else .elsewhere core, core := core, pin := if me then none else v.pin,
                 susp := if me then none else v.susp.map (fun x => ⟨x, u.k.pl, u.pc, u.k.repst, u.k.tvec == 0⟩),
                 stopped := !me && v.stopped && v.susp.isNone, exempt := !me && v.exempt })) with
      saved := q.saved.filter (fun w => w.slot != v.slot),
      reserve := if q.reserve == some l.id then none else q.reserve })

/-- The record of the unit in a save slot. -/
def Launch.unitOf (l : Launch) (v : SavedUnit) : Option UnitRec := l.units.find? (fun u => u.place == .saved v.slot)

/-- RESTORATION (14 R387): a saved unit that may run goes to a free core, and a suspended one may as well; a group goes together. -/
def execRestoration (p : Fin 8) (slot : Nat) (core : Nat) (s : State) : Out :=
  let p := BitVec.ofFin p
  .next (
    let pt := s.partAt p
    match pt.saved.find? (fun v => v.slot == slot) with
    | none => s
    | some v =>
      match pt.findUnit v.task with
      | none => s
      | some (l, _) =>
        let parked := v.susp.isSome || v.stopped
        let group := s.restoreGroup p l v core
        if !group.contains (v, core) || !(parked || s.mayRestore p l) || !group.all (fun e => e.1.image) then s
        else
          let us := group.filterMap (fun e => (l.unitOf e.1).map (fun r => (e.1, e.2, r)))
          match us.find? (fun e => !(s.slotCtx p e.1 e.2.2.u).restorable) with
          | some e => s.refusal p e.2.2.core e.1.task l.id
          | none => (us.foldl (fun t e => t.restoreOn p l e.2.2 e.1 e.2.1) s).keepChoice p (if parked then none else s.chosen p l))

/-! Migration (14 R390, R391). -/

/-- A command that keeps the unit from leaving its core: an a2a, or a copy or contribution that touches the local store. -/
def Cmd.holdsCore (c : Cmd) : Bool :=
  match c.kind with
  | .bcp (.mem _) (.mem _) _ _ _ => false
  | .cred _ (.mem _) _ _ _ => false
  | .ofld .. => false
  | _ => true

/-- A unit's new core: the lowest free one when it leaves a parking quadrant (16 R412), and one whose cluster has its launch's L1 mode
(09 R233). -/
def State.mayMoveTo (s : State) (p : BitVec 3) (l : Launch) (src : Option EvictSource) (dest : Nat) : Bool :=
  let cs := (s.freeCores p).filter (s.modeOk p l)
  if src == some .parking then cs.head? == some dest else cs.contains dest

/-- MIGRATION (14 R390): the running unit moves to a free core of its partition. -/
def execMigration (dest : Nat) (s : State) : Out :=
  .next (
    let id := s.core.unit.ident
    let p := id.part
    let t := s.drainAll
    match (s.partAt p).findUnit id.task with
    | some (l, u) =>
      if s.core.run != .running || u.place != .here || !t.core.sb.isEmpty || !t.core.unacked.isEmpty
          || !t.homesAccept t.dirtyLines || s.core.cmds.any (fun c => c.part == p && c.task == id.task && c.holdsCore) || dest == s.core.num.toNat
          || !s.mayMoveTo p l s.core.evictReq dest then s
      else
        let t := ((t.releaseCache 2).occupyFar l dest).modPart p (fun q => q.modLaunch l.id (fun k => k.modUnit u.u (fun r =>
          { r with place := .elsewhere dest, core := dest, pin := s.pinHere, exempt := s.core.exempt })))
        { t.freeCore with core.forward := t.core.forward ++ [⟨p, id.task, dest, false⟩], core.lsPart := some p }
    | none => s)

/-- FORWARDING_ENTRY_EXPIRY (14 R391). -/
def execForwardingEntryExpiry (task : BitVec 32) (s : State) : Out :=
  .next { s with core.forward := s.core.forward.filter (fun e => e.task != task) }

/-! Ending a suspension (14 R366). -/

/-- A word of a slot replaced, on path h. -/
def State.slotSet (s : State) (p : BitVec 3) (pa : Nat) (v : Word64) : State := s.slotWrite p pa (leBytes 8 v.toNat)

/-- The saved unit is no longer suspended, and its slot says so. -/
def State.unsuspend (s : State) (p : BitVec 3) (v : SavedUnit) : State :=
  let pa := (s.partAt p).slotPa v.slot + 0x10690
  let w := (s.slotRead p pa 8).mem.read64 pa
  let t := s.modPart p (fun q => { q with saved := q.saved.map (fun k =>
    if k.slot == v.slot then { k with susp := none, stopped := false, exempt := true } else k) })
  if v.image && w.getLsbD 43 then t.slotSet p pa (w - BitVec.ofNat 64 (2 ^ 43)) else t

/-- Entry to the handler written into a slot (14 R362, R366). -/
def State.handlerInSlot (s : State) (p : BitVec 3) (l : Launch) (u : UnitRec) (v : SavedUnit) (r : Suspension) : State :=
  let pa := (s.partAt p).slotPa v.slot
  let k := (s.slotView p pa).slotK pa
  let pc := (s.slotView p pa).mem.readNat (pa + 0x10548) 7
  let t := if r.cause == Cause.machineCheck.code then
      s.faultLog p 1 r.cause r.inFetch false k.pl (BitVec.ofNat 7 u.core) v.task l.id (BitVec.ofNat 56 pc) r.tval k.repst r.paddr
    else s
  let cause := r.cause.toNat + (if r.inFetch then 2 ^ 6 else 0) + k.pl.toNat * 2 ^ 7 + if k.rf then 2 ^ 9 else 0
  let t := ((t.slotSet p (pa + 0x10550) 1).slotSet p (pa + 0x10590) (BitVec.ofNat 64 cause)).slotSet p (pa + 0x10598) (BitVec.ofNat 64 pc)
  ((t.slotSet p (pa + 0x105A0) r.tval).slotSet p (pa + 0x10548) k.tvec).unsuspend p v

/-- Entry to the handler of a unit whose context another core has not saved yet: it is made in the slot when the context comes (14 R366,
R382). -/
def State.handlerLater (s : State) (p : BitVec 3) (l : Launch) (u : UnitRec) (v : SavedUnit) (f : FarSuspension) : State :=
  let r := f.susp
  let t := if r.cause == Cause.machineCheck.code then
      s.faultLog p 1 r.cause r.inFetch false f.pl (BitVec.ofNat 7 u.core) v.task l.id f.epc r.tval f.repst r.paddr
    else s
  t.modPart p (fun q => { q with saved := q.saved.map (fun k =>
    if k.slot == v.slot then { k with susp := none, stopped := false, exempt := true, enter := some r } else k) })

/-- A unit that stops no longer: the request for its eviction goes, but that of a group stays (09 R224; 15 R402). -/
def EvictSource.resumed (l : Launch) (e : EvictSource) : Option EvictSource :=
  if e != .debug then some e else if l.record.cls == 2 then some .mate else none

/-- A resume request for the resident unit; none when it is refused. DESIGN CHOICE, log entry 89: it is taken as well while the
unit's own record waits outside a full ring (14 R365). -/
def State.resumeHere (s : State) (l : Launch) (action : BitVec 1) : Option State :=
  match s.core.run.susp with
  | some r =>
    if action == 0 then some { s with core.unit := s.core.unit.resumed, core.run := .running, core.exempt := true }
    else if r.nested || s.k.tvec == 0 then none
    else some { s.enterHandler r.cause r.inFetch s.pc r.tval r.paddr with core.exempt := true }
  | none =>
    if s.core.run == .stopped && action == 0 then
      some { s with core.unit := s.core.unit.resumed, core.run := .running, core.exempt := true,
                    core.evictReq := s.core.evictReq.bind (EvictSource.resumed l) }
    else none

/-- A resume request for a saved unit; none when it is refused. Until its context is in the slot, what its record says decides. -/
def State.resumeSaved (s : State) (p : BitVec 3) (l : Launch) (u : UnitRec) (v : SavedUnit) (action : BitVec 1) : Option State :=
  if action == 0 then (if v.susp.isSome || v.stopped then some (s.unsuspend p v) else none)
  else
    match v.susp with
    | none => none
    | some r =>
      let pa := (s.partAt p).slotPa v.slot
      if r.nested then none
      else if !v.image then (v.noted.filter (fun f => !f.noHandler)).map (fun f => s.handlerLater p l u v f)
      else if ((s.slotView p pa).slotK pa).tvec == 0 then none
      else some (s.handlerInSlot p l u v r)

/-- A resume request for a unit on another core; none when it is refused. -/
def State.resumeElsewhere (s : State) (p : BitVec 3) (l : Launch) (u : UnitRec) (task : BitVec 32) (action : BitVec 1) : Option State :=
  let freed : State := s.modPart p (fun q => q.modLaunch l.id (fun k => k.modUnit u.u (fun r => { r with susp := none, exempt := true })))
  match u.susp with
  | some f =>
    let r := f.susp
    if action == 0 then some freed
    else if r.nested || f.noHandler then none
    else some (if r.cause == Cause.machineCheck.code then
      freed.faultLog p 1 r.cause r.inFetch false f.pl (BitVec.ofNat 7 u.core) task l.id f.epc r.tval f.repst r.paddr else freed)
  | none =>
    if action == 0 && u.stopped then
      some (s.modPart p (fun q =>
        { q.modLaunch l.id (fun k => k.modUnit u.u (fun r => { r with stopped := false, exempt := true })) with
          evictReqs := q.evictReqs.filterMap (fun e => if e.1 == task then (e.2.resumed l).map (fun x => (task, x)) else some e) }))
    else none

/-- A resume request (14 R366): a refused one writes a record of type 3. -/
def State.resumeRequest (s : State) (p : BitVec 3) (task : BitVec 32) (action : BitVec 1) : State :=
  let pt := s.partAt p
  match pt.findUnit task with
  | none => s.refusal p 0 task 0
  | some (l, u) =>
    let r := match u.place with
      | .here => s.resumeHere l action
      | .saved slot => (pt.saved.find? (fun (v : SavedUnit) => v.slot == slot)).bind (fun v => s.resumeSaved p l u v action)
      | .elsewhere _ => s.resumeElsewhere p l u task action
      | _ => none
    r.getD (s.refusal p u.core task l.id)

/-- RESUME (14 R366). -/
def execResume (p : Fin 8) (task : BitVec 32) (action : BitVec 1) (s : State) : Out :=
  .next (s.ifUp (s.resumeRequest (BitVec.ofFin p) task action))

/-- EVICT (14 R381): a supervisor's request. -/
def execEvict (p : Fin 8) (task : BitVec 32) (s : State) : Out := .next (s.ifUp (s.requestEvict (BitVec.ofFin p) task .supervisor))

/-! Parking (16 R412). -/

/-- The quadrant of a core. -/
def quadrantOf (core : Nat) : Nat := core / 16

/-- Units resident on a quadrant. -/
def Part.unitsOn (p : Part) (me q : Nat) : List (Launch × UnitRec) :=
  p.launches.flatMap (fun l => (l.units.filter (fun u => (u.occupies me).map quadrantOf == some q)).map (fun u => (l, u)))

/-- The units of a quadrant that parks must leave it (16 R412 steps 2 and 3). -/
def State.clearQuadrant (s : State) (p : BitVec 3) (q : Nat) : State :=
  (byCore s.core.num.toNat ((s.partAt p).unitsOn s.core.num.toNat q)).foldl (fun t e => t.requestEvict p (BitVec.ofNat 32 (e.1.record.tbase + e.2.u)) .parking) s

/-- A valid interleave domain includes a slice of the quadrant. -/
def L2Map.uses (l : L2Map) (q : Nat) : Bool :=
  l.tbase == 0 || l.entries.any (fun e => domainValid e && bits e.2 31 0 / 2 ^ (4 * q) % 16 != 0)

/-- The core belongs to a quadrant. -/
def State.inQuadrant (s : State) (q : Nat) : Bool := quadrantOf s.core.num.toNat == q

/-- An a2a or cred of the quadrant is in flight. -/
def State.collectiveBusy (s : State) (q : Nat) : Bool :=
  s.inQuadrant q && s.core.cmds.any (fun c =>
    match c.kind with
    | .a2a .. => true
    | .cred .. => true
    | _ => false)

/-- The local stores that a quadrant's cores hold are written to their images (16 R412 step 4; 14 R385). -/
def State.writeOutQuadrant (s : State) (q : Nat) : State :=
  (List.range 16).foldl (fun (t : State) i =>
    if 16 * q + i == t.core.num.toNat then t.writeOutLs else t.writeOutFar (16 * q + i)) s

/-- QUADRANT_UNPARKED (16 R412): the cores are available again. -/
def execQuadrantUnparked (p q : Fin 8) (s : State) : Out :=
  .next (s.modPart (BitVec.ofFin p) (fun k =>
    if k.qpark.getLsbD q.val || !k.qstate.getLsbD q.val then k
    else
      let keep := ~~~ BitVec.ofNat 8 (2 ^ q.val)
      { k with qstate := k.qstate &&& keep, qshal := k.qshal &&& keep }))

end Sys2Proof.Machine
end

