-- ==== Sys2Proof/Machine/Partition.lean ====
section
/-! DEFINITION. Partitions, submission rings and the device control registers (16 R409 to R423), with the records that wait for
room (09 R243; 14 R365). -/

namespace Sys2Proof.Machine

/-! Guarded writes (16 R418, R419). -/

/-- The value of owner[15:14] that names a source. -/
def sourceCode : Source → Nat
  | .port n => n.val
  | .service _ => 2

/-- The semaphore is held by the source's kind (16 R419). -/
def State.guarded (s : State) (src : Source) : Bool := s.dev.sem.held && s.dev.sem.owner.toNat / 2 ^ 14 == sourceCode src

/-- A guarded write: one that is not accepted is ignored and sets gerr. -/
def State.guard (s : State) (src : Source) (f : State → State) : State := if s.guarded src then f s else { s with dev.sem.gerr := true }

/-- SEMAPHORE_ACQUIRE (16 R418). -/
def execSemaphoreAcquire (_src : Source) (owner : BitVec 16) (lease : BitVec 30) (s : State) : Out :=
  .next (s.ifUp (if s.dev.sem.held || lease == 0 then s
    else { s with dev.sem := { s.dev.sem with owner := owner, held := true, lease := lease } }))

/-- The written owner holds the semaphore. -/
def State.holds (s : State) (owner : BitVec 16) : Bool := s.dev.sem.held && s.dev.sem.owner == owner

/-- SEMAPHORE_RELEASE (16 R418). -/
def execSemaphoreRelease (owner : BitVec 16) (s : State) : Out :=
  .next (s.ifUp (if s.holds owner then { s with dev.sem.held := false } else s))

/-- SEMAPHORE_RENEW (16 R418): a lease is at least 1. -/
def execSemaphoreRenew (owner : BitVec 16) (lease : BitVec 30) (s : State) : Out :=
  .next (s.ifUp (if s.holds owner && lease != 0 then { s with dev.sem.lease := lease } else s))

/-- SEMAPHORE_CLEAR_GERR (16 R418). -/
def execSemaphoreClearGerr (s : State) : Out := .next (s.ifUp { s with dev.sem.gerr := false })

/-- LEASE_EXPIRY (16 R418). -/
def execLeaseExpiry (s : State) : Out := .next { s with dev.sem.held := false }

/-! Quadrants (16 R411, R412). -/

/-- Bits of quadrants as a mask. -/
def quadBit (i : Nat) : BitVec 8 := BitVec.ofNat 8 (2 ^ i)

/-- A quadrant belongs to a partition other than p. -/
def State.takenByOther (s : State) (p : BitVec 3) (i : Nat) : Bool :=
  (List.finRange 8).any (fun q => BitVec.ofFin q != p && s.parts[q].qmask.getLsbD i)

/-- A bit of qmask may change (16 R411). -/
def State.mayChange (s : State) (p : BitVec 3) (i : Nat) (on : Bool) : Bool :=
  let pt := s.partAt p
  if on then !s.takenByOther p i else pt.qstate.getLsbD i && (pt.unitsOn s.core.num.toNat i).isEmpty

/-- One bit of qmask as it is written (16 R411): an added quadrant arrives parked, and one that leaves takes the partition's TLB
entries with it. -/
def State.qmaskBit (s : State) (p : BitVec 3) (mask : BitVec 8) (i : Nat) : State :=
  let on := mask.getLsbD i
  if (s.partAt p).qmask.getLsbD i == on then s
  else if !s.mayChange p i on then { s with dev.sem.gerr := true }
  else
    let b := quadBit i
    let keep := ~~~ b
    let t := s.modPart p (fun k =>
      if on then { k with qmask := k.qmask ||| b, qpark := k.qpark ||| b, qstate := k.qstate ||| b }
      else { k with qmask := k.qmask &&& keep, qpark := k.qpark &&& keep, qstate := k.qstate &&& keep, qshal := k.qshal &&& keep })
    if !on && s.inQuadrant i then
      { t with core.tlb := t.core.tlb.filter (fun e => e.part != p), dev.hier.tlb := t.dev.hier.tlb.filter (fun e => e.part != p),
               dev.hier.upper := t.dev.hier.upper.filter (fun e => e.part != p) }
    else t

/-- qmask and en (16 R410, R411). -/
def State.setQmask (s : State) (p : BitVec 3) (mask : BitVec 8) (en : Bool) : State :=
  ((List.range 8).foldl (fun t i => t.qmaskBit p mask i) s).modPart p (fun k => { k with en := en })

/-- QMASK (16 R411). -/
def execQmask (src : Source) (p : Fin 8) (mask : BitVec 8) (en : Bool) (s : State) : Out :=
  .next (s.ifUp (s.guard src (fun t => t.setQmask (BitVec.ofFin p) mask en)))

/-- qpark and qdeep (16 R412): units leave the quadrants that are now to park. -/
def State.setQpark (s : State) (p : BitVec 3) (park deep : BitVec 8) : State :=
  let pt := s.partAt p
  let t := s.modPart p (fun k => { k with qpark := park, qdeep := deep })
  (List.range 8).foldl (fun (t : State) i =>
    if park.getLsbD i && !pt.qpark.getLsbD i && pt.qmask.getLsbD i then t.clearQuadrant p i else t) t

/-- QPARK (16 R412). -/
def execQpark (src : Source) (p : Fin 8) (park deep : BitVec 8) (s : State) : Out :=
  .next (s.ifUp (s.guard src (fun t => t.setQpark (BitVec.ofFin p) park deep)))

/-- CLOSE (16 R414): a job with no incomplete launch completes at once. -/
def execClose (p : Fin 8) (s : State) : Out :=
  let p := BitVec.ofFin p
  .next (s.ifUp ((s.modPart p (fun k => { k with closing := true })).closeJob p))

/-! Submission rings (16 R420 to R422). -/

/-- Changing ring k of a partition. -/
def Part.modRing (p : Part) (k : Fin 8) (f : Ring → Ring) : Part := { p with rings := p.rings.set k.val (f p.rings[k]) }

/-- SUBMISSION_RECORD_COPY (16 R421): the next record is copied, counted and submitted. -/
def execSubmissionRecordCopy (p k : Fin 8) (s : State) : Out :=
  let p := BitVec.ofFin p
  .next (
    let pt := s.partAt p
    let r := pt.rings[k]
    if !pt.en || !r.sen || r.ovr || r.shead == r.stail then s
    else
      let words := s.readRec (r.sbase.toNat + 128 * (r.shead.toNat % 2 ^ r.slog.toNat))
      ((s.modPart p (fun q => q.modRing k (fun r => { r with shead := r.shead + 1 }))).enterLaunch p none words).2)

/-- A write of stail (16 R422). DESIGN CHOICE, log entry 103: in OVERRUN a further stail that exceeds the ring writes no second record. -/
def State.setStail (s : State) (p : BitVec 3) (k : Fin 8) (v : BitVec 32) : State :=
  let r := (s.partAt p).rings[k]
  let t := s.modPart p (fun q => q.modRing k (fun r => { r with stail := v }))
  if r.ovr || (v - r.shead).toNat ≤ 2 ^ r.slog.toNat then t
  else
    let t := t.modPart p (fun q => q.modRing k (fun r => { r with ovr := true }))
    t.completion p (BitVec.ofNat 32 k.val) 7 0xA 0 0 0 (BitVec.ofNat 64 (r.shead.toNat + v.toNat * 2 ^ 32))

/-- STAIL_WRITE (16 R422). -/
def execStailWrite (p k : Fin 8) (v : BitVec 32) (s : State) : Out := .next (s.ifUp (s.setStail (BitVec.ofFin p) k v))

/-- SRST (16 R422). -/
def execSrst (p k : Fin 8) (s : State) : Out :=
  .next (s.ifUp (s.modPart (BitVec.ofFin p) (fun q => q.modRing k (fun r => { r with shead := 0, stail := 0, ovr := false }))))

/-! Energy (16 R415). -/

/-- ENERGY_INTERVAL_START (16 R415): from the first write of budget onward. The measured energy is brought up to date. -/
def execEnergyIntervalStart (p : Fin 8) (s : State) : Out :=
  let q := BitVec.ofFin p
  .next (s.modPart q (fun k =>
    if k.budgetSet then { k with eremain := k.budget, ecount := k.ecount + Config.energyUsed p.val s.tick } else k)).ticked

/-- A write of budget (16 R415): the first one starts the first interval. -/
def Part.setBudget (p : Part) (v : Word64) : Part :=
  if p.budgetSet then { p with budget := v } else { p with budget := v, budgetSet := true, eremain := v }

/-! The memory clock (16 R416). -/

/-- A request of a point, taken from the semaphore holder. -/
def State.setReq (s : State) (point : BitVec 2) (wlim : BitVec 32) : State :=
  let c := s.dev.clk
  { s with dev.clk := { c with req := point, wlim := wlim, abnd := false, pend := c.pend || point != c.cur } }

/-- REQ (16 R416). -/
def execReq (src : Source) (point : BitVec 2) (wlim : BitVec 32) (s : State) : Out :=
  .next (s.ifUp (s.guard src (fun t => t.setReq point wlim)))

/-- Held partitions resume. -/
def State.unhold (s : State) : State := { s with parts := s.parts.map (fun p => { p with held := false }) }

/-- Units of a partition that are resident on some core. -/
def Part.resident (p : Part) (me : Nat) : Nat := (p.launches.map (fun l => (l.cores me).length)).sum

/-- Every enabled partition is held or has no resident unit, and every detached command has completed (16 R416). DESIGN CHOICE, log entry
102: a partition that counts for want of a resident unit may start one meanwhile. -/
def State.clockFree (s : State) : Bool :=
  s.parts.toList.all (fun p => !p.en || p.held || p.resident s.core.num.toNat == 0) && s.inFlight == 0

/-- HBM_POINT_CHANGE (16 R416). -/
def execHbmPointChange (s : State) : Out :=
  .next (if s.dev.clk.pend && s.clockFree then
    { s with dev.clk := { s.dev.clk with cur := s.dev.clk.req, pend := false } }.unhold else s)

/-- WAIT_LIMIT_EXPIRY (16 R416): the request is abandoned. -/
def execWaitLimitExpiry (s : State) : Out :=
  .next (if s.dev.clk.pend && s.dev.clk.wlim != 0 then
    { s with dev.clk := { s.dev.clk with pend := false, abnd := true } }.unhold else s)

/-- DEVICE_NUMBER (16 R423). -/
def execDeviceNumber (src : Source) (n : BitVec 3) (s : State) : Out :=
  .next (s.ifUp (s.guard src (fun t => { t with dev.devnum := n })))

/-! Records that wait for room (09 R243, 14 R365). -/

/-- HELD_EVENT_RECORD_WRITE (09 R243): the oldest held record, with the time of its writing (R242). -/
def execHeldEventRecordWrite (p : Fin 8) (s : State) : Out :=
  let p := BitVec.ofFin p
  .next (match (s.partAt p).heldEvents with
    | ws :: r => if (s.partAt p).evRoom then ((s.modPart p (fun q => { q with heldEvents := r })).putEvent p ws).ticked else s
    | [] => s)

/-- HELD_FAULT_RECORD_WRITE (14 R365): the oldest held record. -/
def execHeldFaultRecordWrite (p : Fin 8) (s : State) : Out :=
  let p := BitVec.ofFin p
  .next (match (s.partAt p).heldFaults with
    | ws :: r => if (s.partAt p).faultRoom then (s.modPart p (fun q => { q with heldFaults := r })).putFault p ws else s
    | [] => s)

/-- EVENT_RING_TIMEOUT (09 R243): the interrupt is raised when a record was written since the last one. -/
def execEventRingTimeout (p : Fin 8) (s : State) : Out :=
  .next (s.modPart (BitVec.ofFin p) (fun q =>
    if q.tmo != 0 && q.sinceIrq != 0 then q.raiseIrq else q))

end Sys2Proof.Machine
end

