-- ==== Sys2Proof/Machine/Sha3.lean ====
section
/-! DEFINITION. SHA3-256 as FIPS 202 defines it: the hash that names blocks (12 R299) and measures images (18 R447,
R450). -/

namespace Sys2Proof.Machine.Sha3

/-- The state: 25 lanes, lane x + 5 * y. -/
abbrev Lanes := List Word64

/-- Lane (x, y), coordinates modulo 5. -/
def lane (a : Lanes) (x y : Nat) : Word64 := a.getD (x % 5 + 5 * (y % 5)) 0

/-- Lanes from a function of (x, y). -/
def build (f : Nat → Nat → Word64) : Lanes := (List.range 25).map (fun i => f (i % 5) (i / 5))

/-- The column parities. -/
def parities (a : Lanes) : List Word64 :=
  (List.range 5).map (fun x => lane a x 0 ^^^ lane a x 1 ^^^ lane a x 2 ^^^ lane a x 3 ^^^ lane a x 4)

/-- theta. -/
def theta (a : Lanes) : Lanes :=
  let c := parities a
  let d (x : Nat) : Word64 := c.getD ((x + 4) % 5) 0 ^^^ (c.getD ((x + 1) % 5) 0).rotateLeft 1
  build (fun x y => lane a x y ^^^ d x)

/-- The lanes in the order in which rho visits them, from one lane on, with their offsets: visit t turns its lane by the
triangular number (t + 1)(t + 2) / 2. -/
def visits (x y t : Nat) : Nat → List (Nat × Nat)
  | 0 => []
  | n + 1 => (x + 5 * y, (t + 1) * (t + 2) / 2 % 64) :: visits y ((2 * x + 3 * y) % 5) (t + 1) n

/-- The offset of each lane x + 5 * y. Lane (0, 0) is not visited: it does not turn. -/
def offsets : List Nat := (List.range 25).map (fun i => (((visits 1 0 0 24).find? (fun v => v.1 == i)).map (·.2)).getD 0)

/-- rho, then pi: lane (x, y) moves to (y, 2x + 3y). -/
def rhoPi (a : Lanes) : Lanes :=
  build (fun x y =>
    let sx := (x + 3 * y) % 5
    let sy := x
    (lane a sx sy).rotateLeft (offsets.getD (sx + 5 * sy) 0))

/-- chi. -/
def chi (a : Lanes) : Lanes := build (fun x y => lane a x y ^^^ (~~~(lane a (x + 1) y) &&& lane a (x + 2) y))

/-- The bits rc(t), t from 0 on, of the shift register with feedback x^8 + x^6 + x^5 + x^4 + 1. -/
def rcBits (r : Nat) : Nat → List Bool
  | 0 => []
  | n + 1 => (r % 2 == 1) :: rcBits (if r < 128 then 2 * r else Nat.xor (2 * r) 0x171) n

/-- The constant of a round: bit 2^j - 1 is rc(j + 7 * round), j from 0 to 6. -/
def constant (round : Nat) : Word64 :=
  BitVec.ofNat 64 (((((rcBits 1 168).drop (7 * round)).take 7).mapIdx (fun j b => if b then 2 ^ (2 ^ j - 1) else 0)).sum)

/-- The constants of the 24 rounds. -/
def constants : List Word64 := (List.range 24).map constant

/-- One round. -/
def round (a : Lanes) (rc : Word64) : Lanes :=
  match chi (rhoPi (theta a)) with
  | [] => []
  | l :: r => (l ^^^ rc) :: r

/-- The permutation. -/
def permute (a : Lanes) : Lanes := constants.foldl round a

/-- The rate of SHA3-256 in bytes. -/
def rate : Nat := 136

/-- The padded message: 0x06, zeros, and the top bit of the last byte of the block. -/
def pad (m : List Byte) : List Byte :=
  let k := rate - m.length % rate
  if k == 1 then m ++ [0x86] else m ++ 0x06 :: (List.replicate (k - 2) 0 ++ [0x80])

/-- One block of 136 bytes is absorbed. -/
def absorb (a : Lanes) (b : List Byte) : Lanes :=
  permute (build (fun x y =>
    let i := x + 5 * y
    if i < rate / 8 then lane a x y ^^^ BitVec.ofNat 64 (leNat ((b.drop (8 * i)).take 8)) else lane a x y))

/-- Every block of a padded message is absorbed; n is at least the number of blocks. -/
def absorbAll : Nat → Lanes → List Byte → Lanes
  | 0, a, _ => a
  | n + 1, a, m => if m.isEmpty then a else absorbAll n (absorb a (m.take rate)) (m.drop rate)

/-- SHA3-256: 32 bytes. -/
def sha3_256 (m : List Byte) : List Byte :=
  let a := absorbAll (m.length / rate + 1) (List.replicate 25 0) (pad m)
  ((List.range 4).map (fun i => leBytes 8 (a.getD i 0).toNat)).flatten

end Sys2Proof.Machine.Sha3
end

