-- ==== Sys2Proof/Machine/Manage.lean ====
section
/-! DEFINITION. Clocks and power, the management registers and interface, boot and attestation (chapter 18). -/

namespace Sys2Proof.Machine

/-! Clocks and power (18 R438, R441, R442). -/

/-- A clock limit within its range (18 R442). -/
def clampClock (mhz : Nat) : Nat := max 1000 (min mhz 2900)

/-- The clock in force (18 R438): the lowest of the three, in steps of 100 MHz, at least 1.0 GHz. -/
def Mgmt.clock (m : Mgmt) : Nat := max 1000 (min m.clklim (min m.thermal m.power) / 100 * 100)

/-- CLKLIM (18 R442): firmware writes the limit, unless lock has frozen it. -/
def execClklim (mhz : BitVec 12) (s : State) : Out :=
  .next (s.ifUp (if s.mgmt.lock then s else { s with mgmt.clklim := clampClock mhz.toNat }))

/-- PLIM (18 R442). -/
def execPlim (watts : BitVec 11) (s : State) : Out := .next (s.ifUp { s with mgmt.plim := min watts.toNat 1200 })

/-- A ceiling moved by 100 MHz within the range of clocks. -/
def stepCeiling (c : Nat) (down : Bool) : Nat := clampClock (if down then c - 100 else c + 100)

/-- The core that the model follows, with no unit. -/
def Core.blank (c : Core) : Core := { Core.reset with num := c.num, service := c.service }

/-- A trip (18 R441): every core stops, every link goes down, memory and all architectural state are lost. What only a power-on
reset leaves is the state after reset, tripped, with the flash, the fuses and the log. -/
def State.tripped (s : State) : State :=
  let m := s.mgmt
  { State.reset with
    core := s.core.blank, agenda := s.agenda, tick := s.tick, dev := { Dev.reset with cxl := s.dev.cxl },
    mgmt := { Mgmt.reset with boot := .tripped, flash := m.flash, fuseMin := m.fuseMin, log := m.log ++ [logBytes 2 0], otherLogs := m.otherLogs } }

/-- TRIP (18 R441): the junction is at 110 degrees or above. A tripped device stays so. -/
def execTrip (s : State) : Out := .next (if s.mgmt.boot == .tripped then s else s.tripped)

/-- THERMAL_CEILING_STEP (18 R441): at 110 degrees or above the device trips; from 95 degrees the ceiling falls until the junction is
below 92, then it rises. The inlet is measured too (R442). -/
def execThermalCeilingStep (celsius : Nat) (s : State) : Out :=
  let hot := decide (95 ≤ celsius) || (s.mgmt.hot && decide (92 ≤ celsius))
  .next (if s.mgmt.boot == .tripped then s
    else if 110 ≤ celsius then s.tripped
    else { s with mgmt.hot := hot, mgmt.thermal := stepCeiling s.mgmt.thermal hot,
                  mgmt.inlet := if Config.form == 0 then 0 else Config.inlet s.tick })

/-- POWER_CEILING_STEP (18 R442): the average power over the last 1 ms is measured; above plim the ceiling falls, below 95 % of it
the ceiling rises. -/
def execPowerCeilingStep (milliwatts : Nat) (s : State) : Out :=
  let m := s.mgmt
  let power := if m.plim * 1000 < milliwatts then stepCeiling m.power true
    else if milliwatts < m.plim * 950 then stepCeiling m.power false else m.power
  .next (if s.mgmt.boot == .tripped then s else { s with mgmt.pmeas := BitVec.ofNat 32 milliwatts, mgmt.power := power })

/-! The management registers (18 R442). -/

/-- The compute rail of a die in mV (18 R439, R442): a free value in its range of 320 to 450. -/
def railOf (die tick : Nat) : Nat := 320 + (Config.computeRail die tick).toNat % 131

/-- A register's value by offset. -/
def State.mgmtRead (s : State) (off : Nat) : Word64 :=
  let m := s.mgmt
  let flag (b : Bool) (i : Nat) : Nat := if b then 2 ^ i else 0
  match off with
  | 0x000 => BitVec.ofNat 64 (0x9880 + Config.stepping.toNat * 2 ^ 16 + Config.form.toNat * 2 ^ 20)
  | 0x008 => Config.serial
  | 0x010 => BitVec.ofNat 64 m.clklim
  | 0x018 => BitVec.ofNat 64 (m.clock + flag (decide (m.thermal < 2900)) 12 + flag (decide (m.power < 2900)) 13)
  | 0x020 => BitVec.ofNat 64 m.plim
  | 0x028 => m.pmeas.setWidth 64
  | 0x030 => BitVec.ofNat 64 ((Config.junction s.tick).toNat + m.inlet.toNat * 2 ^ 8)
  | 0x038 => BitVec.ofNat 64 (railOf 0 s.tick + railOf 1 s.tick * 2 ^ 16)
  | 0x040 => BitVec.ofNat 64 m.abuf
  | 0x048 => BitVec.ofNat 64 (flag m.busy 0 + flag m.done 1 + flag m.missed 2)
  | 0x050 => BitVec.ofNat 64 m.btab
  | 0x060 => m.brefu.setWidth 64
  | 0x068 => BitVec.ofNat 64 (flag m.lock 0)
  | _ => 0

/-- The registers that answer in recovery mode (18 R447). -/
def State.mgmtValue (s : State) (off : Nat) : Word64 :=
  if s.mgmt.boot == .recovery && off != 0x000 && off != 0x008 then 0 else s.mgmtRead off

/-! Attestation (18 R449, R450). -/

/-- A write of abuf with go = 1: the buffer of the request stays as it is until the report is written. -/
def State.setGo (s : State) (abuf : Nat) : State :=
  let pa := abuf % 2 ^ 52 / 4096 * 4096
  if s.mgmt.busy then { s with mgmt.missed := true }
  else { s with mgmt.abuf := pa, mgmt.target := pa, mgmt.busy := true, mgmt.done := false }

/-- GO (18 R449). -/
def execGo (abuf : Nat) (s : State) : Out := .next (s.ifUp (s.setGo abuf))

/-- A list made n bytes long. -/
def fitTo (n : Nat) (bs : List Byte) : List Byte := (List.range n).map (fun i => bs.getD i 0)

/-- The part of the report that is signed (18 R450). -/
def State.reportBody (s : State) (nonce : List Byte) : List Byte :=
  wordBytes [0x30001, Config.serial] ++ nonce ++ Sha3.sha3_256 Config.bootRom ++ s.mgmt.meas1 ++ s.mgmt.meas2
    ++ wordBytes [s.mgmt.svn, 0] ++ fitTo 1312 Config.identityKey

/-- ATTESTATION_REPORT (18 R449, R450): the signed report is written over the buffer on path h, where that
exists and lies in a domain (10 R254, R257). -/
def execAttestationReport (s : State) : Out :=
  .next (if !s.mgmt.busy then s
    else
      let t : State := { s with mgmt.busy := false, mgmt.done := true }
      if !s.physHome s.mgmt.target then t
      else
        let home := s.writeBackLine (lineOf s.mgmt.target)
        let body := s.reportBody (home.mem.readBytes s.mgmt.target 32)
        t.homeWrite .h s.mgmt.target (body ++ fitTo 2420 (Config.mldsaSign body)))

/-- What lock measures (18 R450): the management registers 0x000 to 0x068 as they read once lock is set. -/
def State.measured (s : State) : List Byte := wordBytes ((List.range 14).map (fun i => s.mgmtRead (8 * i)))

/-- Firmware writes lock, once (18 R442, R445 step 5): the boot is over. -/
def State.setLock (s : State) : State :=
  if s.mgmt.lock then s
  else
    let t : State := { s with mgmt.lock := true }
    let boot : BootState := if s.mgmt.boot == .booting then .running else s.mgmt.boot
    ({ t with mgmt.meas2 := Sha3.sha3_256 t.measured, mgmt.boot := boot } : State).ticked

/-- LOCK (18 R442). -/
def execLock (s : State) : Out := .next (s.ifUp s.setLock)

/-! Beryl regions (12 R296; 18 R443). -/

/-- The descriptor of a region as memory holds it (12 R296). -/
def State.descriptor (s : State) (r : Nat) : Region :=
  let w (i : Nat) : Word64 := s.mem.read64 (s.mgmt.btab + 32 * r + 8 * i)
  { v := (w 0).getLsbD 0, pmask := (w 0).extractLsb' 1 8, share := (w 0).extractLsb' 9 8, salt := w 1,
    pool := bits (w 2) 51 11 * 2048, nblk := bits (w 3) 31 0 }

/-- A change that is refused while a name of the region is live (18 R443). -/
def Region.breaks (old new : Region) : Bool :=
  new.salt != old.salt || new.pool != old.pool || new.nblk != old.nblk || (old.v && !new.v)

/-- One announced region. -/
def State.announceOne (s : State) (r : Fin 16) : State :=
  let old := s.beryl.regions[r]
  let new := s.descriptor r.val
  if old.breaks new && s.beryl.blocks.any (fun k => k.region == BitVec.ofFin r) then
    { s with mgmt.brefu := s.mgmt.brefu ||| BitVec.ofNat 16 (2 ^ r.val) }
  else { s with beryl.regions := s.beryl.regions.set r.val new }

/-- The announcement of a mask of regions (18 R443): brefu is rewritten. -/
def State.announce (s : State) (mask : BitVec 16) : State :=
  ((List.finRange 16).filter (fun r => mask.getLsbD r.val)).foldl State.announceOne { s with mgmt.brefu := 0 }

/-- BANN (18 R443). -/
def execBann (src : Source) (mask : BitVec 16) (s : State) : Out := .next (s.ifUp (s.guard src (fun t => t.announce mask)))

/-! Boot (18 R445 to R447). -/

/-- A byte of the flash: the model lists what differs from an erased byte, 0xFF (log entry 10). -/
def Mgmt.flashByte (m : Mgmt) (a : Nat) : Byte := ~~~ (m.flash.read a)

/-- Bytes of the flash. -/
def Mgmt.flashBytes (m : Mgmt) (a n : Nat) : List Byte := (List.range n).map (fun i => m.flashByte (a + i))

/-- The n bytes from an offset of a list, as a number. -/
def numAt (bs : List Byte) (off n : Nat) : Nat := leNat ((bs.drop off).take n)

/-- The header table of 18 R446 holds. -/
def headerOk (h : List Byte) : Bool :=
  numAt h 0 4 == 0x46534657 && numAt h 4 2 == 1 && (h.drop 0xED4).all (· == 0)
    && numAt h 0x10 4 % 64 == 0 && decide (64 ≤ numAt h 0x10 4) && decide (numAt h 0x10 4 ≤ 2 ^ 24)

/-- An image is accepted (18 R447). -/
def Mgmt.accepts (m : Mgmt) (base : Nat) : Bool :=
  let h := m.flashBytes base 4096
  let body := m.flashBytes (base + 4096) (numAt h 0x10 4)
  let pkey := (h.drop 0x40).take 1312
  headerOk h && Sha3.sha3_256 pkey == Config.fusedKeyDigest
    && Config.mldsaVerify pkey (h.take 0x560) ((h.drop 0x560).take 2420)
    && (h.drop 0x20).take 32 == Sha3.sha3_256 body && decide (m.fuseMin.toNat ≤ numAt h 8 8)

/-- The slot whose image boots: A, else B (18 R445). -/
def Mgmt.bootSlot (m : Mgmt) : Option Nat := [0, 0x2000000].find? m.accepts

/-- The boot ROM jumps to the body at firmware level (18 R445): what the service core of quadrant 0 of die 0 runs. -/
def Core.booted (c : Core) (load : Nat) : Core :=
  if c.service == some 0 then
    { c with run := .running, unit := { UnitCtx.reset with pc := BitVec.ofNat 56 load, k := { KRegs.reset with status := statusOf 2 false } } }
  else c

/-- The firmware starts the service core of a quadrant other than 0 at an address (18 R445 step 3). -/
def State.startService (s : State) (pc : BitVec 56) : State :=
  match s.core.service with
  | some q =>
    if q != 0 && s.core.run == .idle && s.deviceUp then
      { s with core.run := .running, core.unit := { UnitCtx.reset with pc := pc, k := { KRegs.reset with status := statusOf 2 false } } }
    else s
  | none => s

/-- POWER_ON_RESET (18 R445): everything but the flash and the fuses is as after reset; the boot ROM starts an accepted image, or
the device enters recovery mode. -/
def execPowerOnReset (s : State) : Out :=
  let m := s.mgmt
  let t : State := { State.reset with
    core := s.core.blank, agenda := s.agenda, tick := s.tick, dev := { Dev.reset with cxl := s.dev.cxl },
    mgmt := { Mgmt.reset with flash := m.flash, fuseMin := m.fuseMin } }
  .next (match m.bootSlot with
    | none => { t with mgmt.boot := .recovery }
    | some base =>
      let h := m.flashBytes base 4096
      let load := numAt h 0x18 8 % 2 ^ 52
      { t with core := t.core.booted load, mem := t.mem.write load (m.flashBytes (base + 4096) (numAt h 0x10 4)),
               mgmt.meas1 := Sha3.sha3_256 (h.take 0xED4), mgmt.svn := BitVec.ofNat 64 (numAt h 8 8) })

/-! The management target (18 R448). -/

/-- A response: its status and its data. -/
def State.respond (s : State) (status : Nat) (data : List Byte) : State :=
  { s with mgmt.response := BitVec.ofNat 8 status :: data }

/-- The target does not answer a command in the tripped state, but for those that R448 names. -/
def State.unlessTripped (s : State) (t : State) : State := if s.mgmt.boot == .tripped then { s with mgmt.response := [] } else t

/-- IDENTIFY, command 0x01: the registers 0x000 and 0x008. -/
def execIdentify (s : State) : Out := .next (s.respond 0 (wordBytes [s.mgmtValue 0x000, s.mgmtValue 0x008]))

/-- READ_REGISTER, command 0x02: an offset that R442 reserves reads as zero; one that is not aligned names no register. -/
def execReadRegister (off : BitVec 16) (s : State) : Out :=
  .next (s.unlessTripped (if off.toNat % 8 == 0 then
    (s.respond 0 (wordBytes [s.mgmtValue off.toNat])).ticked else s.respond 2 []))

/-- READ_LOG, command 0x03. -/
def execReadLog (index : BitVec 16) (s : State) : Out :=
  .next (match s.mgmt.log[index.toNat]? with
    | some e => s.respond 0 e
    | none => s.respond 2 [])

/-- STATE, command 0x04. -/
def execState (s : State) : Out :=
  .next (s.respond 0 [match s.mgmt.boot with
    | .booting => 0
    | .running => 1
    | .recovery => 2
    | .tripped => 3])

/-- The conditions of command 0x05. -/
def State.mayRaise (s : State) (minimum : Word64) (key sig : List Byte) : Bool :=
  key.length == 1312 && sig.length == 2420 && Sha3.sha3_256 key == Config.fusedKeyDigest
    && Config.mldsaVerify key (wordBytes [Config.serial, minimum]) sig && decide (s.mgmt.fuseMin.toNat ≤ minimum.toNat)

/-- RAISE_MINIMUM, command 0x05. -/
def execRaiseMinimum (minimum : Word64) (key sig : List Byte) (s : State) : Out :=
  .next (s.unlessTripped (if s.mayRaise minimum key sig then ({ s with mgmt.fuseMin := minimum } : State).respond 0 [] else s.respond 1 []))

/-- The flash address of a slot. -/
def slotBase (slot : Fin 2) : Nat := 0x2000000 * slot.val

/-- WRITE_FLASH, command 0x06: refused outside recovery mode, and where the bytes leave the slot. -/
def execWriteFlash (slot : Fin 2) (off : BitVec 32) (data : List Byte) (s : State) : Out :=
  .next (s.unlessTripped (
    if s.mgmt.boot == .recovery && decide (1 ≤ data.length) && decide (data.length ≤ 256) && decide (off.toNat + data.length ≤ 0x2000000) then
      ({ s with mgmt.flash := s.mgmt.flash.write (slotBase slot + off.toNat) (data.map (~~~ ·)) } : State).respond 0 []
    else s.respond 1 []))

/-- ERASE_SLOT, command 0x07: refused outside recovery mode. -/
def execEraseSlot (slot : Fin 2) (s : State) : Out :=
  .next (s.unlessTripped (
    if s.mgmt.boot == .recovery then
      ({ s with mgmt.flash := dropCells s.mgmt.flash (slotBase slot) 0x2000000 } : State).respond 0 []
    else s.respond 1 []))

/-- GET_VENDOR_DEFINED_MESSAGE_SUPPORT (18 R448): the vendor identifier. -/
def execGetVendorDefinedMessageSupport (s : State) : Out :=
  .next (s.respond 0 (leBytes 4 Config.vendorId.toNat))

end Sys2Proof.Machine
end

