-- ==== Sys2Proof/WellFormed.lean ====
section
/-! DEFINITION. The field limits that an instruction word must meet (R6, R72, R73, R75 and each instruction's own
table). A word whose fields break one of them raises ILLEGAL_INSN. -/

namespace Sys2Proof

/-- A register number that names an even register pair from 2 to 30. -/
def pairReg (r : BitVec 5) : Bool := r.getLsbD 0 == false && r != 0

/-- A register number that is even. -/
def evenReg (r : BitVec 5) : Bool := r.getLsbD 0 == false

/-- The size field of an SM word and its register (R72). -/
def sizeOk (sz : BitVec 3) (r : BitVec 5) : Bool := sz.toNat ≤ 4 && (sz != 4 || evenReg r)

/-- An atomic's operation and width (R84). -/
def amoOk (op : BitVec 4) (sz : BitVec 1) : Bool := op.toNat ≤ 0xA && (op != 0xA || sz == 0)

/-- The register numbers that kget reads: the identity registers of R19 and the control registers of R20. -/
def kgetOk (k : BitVec 15) : Bool :=
  k.toNat ≤ 0x00B || (0x100 ≤ k.toNat && k.toNat ≤ 0x106) || (0x200 ≤ k.toNat && k.toNat ≤ 0x204) || k.toNat == 0x300

/-- The register numbers that kset may name: the control registers of R20 and not the identity registers (R19). -/
def ksetOk (k : BitVec 15) : Bool := kgetOk k && 0x100 ≤ k.toNat

/-- The auto-increment, hint, extent source and direction fields of a TM word (R133). -/
def tmOk (ai : BitVec 1) (hint esrc : BitVec 2) (dir : BitVec 1) : Bool :=
  hint != 3 && esrc != 3 && (dir == 0 || ai == 1)

/-- The word's fields are within the limits that the instruction's description states. -/
def wellFormed : Instr → Bool
  | .fcvt _ _ sat src tgt => src != tgt && src.toNat < 8 && tgt.toNat < 8 && (sat == 0 || 4 ≤ tgt.toNat)
  | .ld d _ sz _ | .ldz d _ sz _ | .st d _ sz _ | .ldAcq d _ sz _ | .stRel d _ sz _ => sizeOk sz d
  | .amo _ _ _ _ _ sz op => amoOk op sz
  | .ared _ _ ord _ sz op => amoOk op sz && op != 8 && op != 9 && (ord == 0 || ord == 2)
  | .ramo _ _ _ _ sz op => amoOk op sz
  | .xfence src dst => src.toNat ≤ 4 && dst.toNat ≤ 4
  | .bloa d _ _ _ => pairReg d
  | .bref a _ | .brel a _ => pairReg a
  | .bcas d _ b dep => pairReg d && evenReg b && dep.toNat ≤ 5
  | .vpub _ _ b dep => evenReg b && dep.toNat ≤ 5
  | .tldb _ _ _ _ _ hint esrc _ => hint != 3 && esrc != 3
  | .tld _ _ _ ai _ hint esrc dir _ => tmOk ai hint esrc dir
  | .tst _ _ _ ai hint esrc dir _ => tmOk ai hint esrc dir
  | .tldi _ _ _ ai hint esrc dir _ => tmOk ai hint esrc dir
  | .tlds _ _ _ ai _ esrc dir _ => tmOk ai 0 esrc dir
  | .tsts _ _ _ ai esrc dir _ => tmOk ai 0 esrc dir
  | .mmg _ _ _ _ _ _ hint xp => hint != 3 && pairReg xp
  | .tadw d _ b c xh => evenReg xh && d != b && d != c && b != c
  | .tcmp _ _ _ cond => cond != 7
  | .tcvt _ _ sat tgt => tgt != 0 && tgt != 0x0B && tgt.toNat < 0x10 && (sat == 0 || tgt.toNat ≤ 8)
  | .tred d _ d64 dst op axis =>
    axis != 3 && op.toNat ≤ 3 && (dst == 0 || axis == 2) && (d64 == 0 || dst == 1) && (dst == 0 || d.getLsbD 3 == false)
  | .tsc _ _ tgt => 4 ≤ tgt.toNat && tgt.toNat ≤ 8
  | .tnf d _ dst => dst == 0 || d.getLsbD 3 == false
  | .smpl _ _ xs => evenReg xs
  | .bcp _ _ b | .bcpLd _ _ b | .bcpSt _ _ b | .sbind _ _ b _ | .a2aCl _ _ b | .a2aQ _ _ b | .cred _ _ b | .credLs _ _ b
  | .ofldOut _ _ b | .ofldIn _ _ b => pairReg b
  | .lpat _ _ width off => off.toNat ≤ 12 && width != 3
  | .cncl _ _ level => level.toNat ≤ 4
  | .smrg _ _ xp => pairReg xp
  | .kget _ k => kgetOk k
  | .kset _ k => ksetOk k
  | .tlbiBlk _ n => 12 ≤ n.toNat && n.toNat ≤ 56
  | _ => true

end Sys2Proof
end

