-- ==== Sys2Proof/Decode.lean ====
section
/-! DEFINITION. The decoder and the encoder of instruction words (03_encoding_and_assembly.md R69 to R89 and the
encoding tables of the later chapters). Decoding is total: a word that is no instruction is refused by name (R75), and
the machine raises ILLEGAL_INSN for it. -/

namespace Sys2Proof

/-- Why a word is no instruction (R75). -/
inductive DecodeError where
  /-- Major opcode 0x00 or 0x7F. -/
  | illegalOpcode
  /-- Major opcode 0x7E, reserved for extensions. -/
  | extensionOpcode
  /-- A major opcode that the map shows as a dash. -/
  | unassignedOpcode
  /-- A function value that the manual does not assign. -/
  | unassignedFunction
  /-- A reserved field or an unused register field that is not zero (R6, R73). -/
  | reservedField
  /-- A field value outside the limit that the instruction's description states. -/
  | fieldLimit
  /-- Fewer than four bytes. -/
  | truncated
  deriving DecidableEq, Repr

/-- Field [lo+n-1 : lo] of a word. -/
abbrev fld (w : Word32) (lo n : Nat) : BitVec n := w.extractLsb' lo n

/-- The word holds instruction i when its unused fields are zero. -/
def unusedZero (zero : Bool) (i : Instr) : Except DecodeError Instr :=
  if zero then .ok i else .error .reservedField

/-- Opcode 0x01, fn10 of R77. -/
def decodeInteger (w : Word32) : Except DecodeError Instr :=
  let d := fld w 20 5
  let a := fld w 15 5
  let b := fld w 10 5
  match (fld w 0 10).toNat with
  | 0x000 => .ok (.add d a b) | 0x001 => .ok (.sub d a b) | 0x002 => .ok (.padd d a b) | 0x003 => .ok (.ptag d a b)
  | 0x004 => .ok (.and d a b) | 0x005 => .ok (.or d a b) | 0x006 => .ok (.xor d a b) | 0x007 => .ok (.shl d a b)
  | 0x008 => .ok (.shr d a b) | 0x009 => .ok (.sar d a b) | 0x00A => .ok (.min d a b) | 0x00B => .ok (.max d a b)
  | 0x00C => .ok (.minu d a b) | 0x00D => .ok (.maxu d a b) | 0x00E => .ok (.mul d a b) | 0x00F => .ok (.mulh d a b)
  | 0x010 => .ok (.mulhu d a b) | 0x011 => .ok (.div d a b) | 0x012 => .ok (.divu d a b) | 0x013 => .ok (.rem d a b)
  | 0x014 => .ok (.remu d a b) | 0x015 => unusedZero (b == 0) (.popc d a) | 0x016 => unusedZero (b == 0) (.clz d a)
  | 0x017 => unusedZero (b == 0) (.ctz d a) | 0x018 => .ok (.seq d a b) | 0x019 => .ok (.sne d a b)
  | 0x01A => .ok (.slt d a b) | 0x01B => .ok (.sltu d a b)
  | _ => .error .unassignedFunction

/-- Opcodes 0x10 and 0x11, fn10 of R78. -/
def decodeFloat (w : Word32) (dbl : Bool) : Except DecodeError Instr :=
  let d := fld w 20 5
  let a := fld w 15 5
  let b := fld w 10 5
  match (fld w 0 10).toNat with
  | 0x000 => .ok (if dbl then .faddD d a b else .faddS d a b)
  | 0x001 => .ok (if dbl then .fsubD d a b else .fsubS d a b)
  | 0x002 => .ok (if dbl then .fmulD d a b else .fmulS d a b)
  | 0x003 => .ok (if dbl then .fdivD d a b else .fdivS d a b)
  | 0x004 => .ok (if dbl then .fminD d a b else .fminS d a b)
  | 0x005 => .ok (if dbl then .fmaxD d a b else .fmaxS d a b)
  | 0x006 => unusedZero (b == 0) (if dbl then .fsqrtD d a else .fsqrtS d a)
  | 0x007 => .ok (if dbl then .ffmaD d a b else .ffmaS d a b)
  | 0x008 => .ok (if dbl then .feqD d a b else .feqS d a b)
  | 0x009 => .ok (if dbl then .fltD d a b else .fltS d a b)
  | 0x00A => .ok (if dbl then .fleD d a b else .fleS d a b)
  | _ => .error .unassignedFunction

/-- Opcodes 0x20 to 0x23, by R81 and R227. -/
def decodeMailbox (w : Word32) : Except DecodeError Instr :=
  let m := fld w 22 3
  let bt := fld w 21 1
  let r := fld w 16 5
  let b := fld w 11 5
  match (fld w 25 7).toNat, (fld w 0 11).toNat with
  | 0x20, 0x000 => unusedZero (b == 0) (.mrd m bt r)
  | 0x20, 0x001 => unusedZero (b == 0) (.mpk m bt r)
  | 0x20, 0x002 => unusedZero (r == 0 && b == 0) (.wfm m bt)
  | 0x21, 0x000 => unusedZero (bt == 0 && r == 0) (.mwr m b)
  | 0x22, 0x000 => unusedZero (bt == 0) (.send m r b)
  | 0x22, 0x001 => unusedZero (bt == 0) (.sendU m r b)
  | 0x23, 0x000 => unusedZero (bt == 0 && r == 0 && b == 0) (.mclr m)
  | 0x23, 0x001 => unusedZero (m == 0 && bt == 0 && b == 0) (.mfull r)
  | _, _ => .error .unassignedFunction

/-- Opcodes 0x29 to 0x2C, by R84 to R86. -/
def decodeOrdering (w : Word32) : Except DecodeError Instr :=
  let d := fld w 20 5
  let a := fld w 15 5
  let b := fld w 10 5
  match (fld w 25 7).toNat with
  | 0x29 => unusedZero (fld w 9 1 == 0) (.amo d a b (fld w 7 2) (fld w 5 2) (fld w 4 1) (fld w 0 4))
  | 0x2A => unusedZero (fld w 9 1 == 0 && d == 0) (.ared a b (fld w 7 2) (fld w 5 2) (fld w 4 1) (fld w 0 4))
  | 0x2B =>
    if fld w 14 1 == 0 then
      if d == 0 && a == 0 && fld w 4 10 == 0 then
        match (fld w 2 2).toNat with
        | 0 => .ok (.fence (fld w 0 2))
        | 1 => .ok (.fenceAcq (fld w 0 2))
        | 2 => .ok (.fenceRel (fld w 0 2))
        | _ => .error .fieldLimit
      else .error .reservedField
    else unusedZero (d == 0 && a == 0 && fld w 0 8 == 0) (.xfence (fld w 11 3) (fld w 8 3))
  | _ =>
    unusedZero (d == 0 && fld w 3 7 == 0)
      (if fld w 0 1 == 0 then .cwbr a b (fld w 1 2) else .cinv a b (fld w 1 2))

/-- Opcodes 0x30 to 0x37, by R307 and R314. -/
def decodeBeryl (w : Word32) : Except DecodeError Instr :=
  let d := fld w 20 5
  let a := fld w 15 5
  let b := fld w 10 5
  match (fld w 25 7).toNat with
  | 0x30 => unusedZero (b == 0 && fld w 5 5 == 0) (.bloa d a (fld w 4 1) (fld w 0 4))
  | 0x31 => unusedZero (d == 0 && b == 0 && fld w 4 6 == 0) (.bref a (fld w 0 4))
  | 0x32 => unusedZero (d == 0 && b == 0 && fld w 4 6 == 0) (.brel a (fld w 0 4))
  | 0x33 => unusedZero (fld w 3 7 == 0) (.bcas d a b (fld w 0 3))
  | 0x34 => unusedZero (fld w 0 10 == 0) (.bout d a b)
  | 0x35 =>
    unusedZero (fld w 0 4 == 0)
      (.tldb (fld w 21 4) (fld w 16 5) (fld w 11 5) (fld w 10 1) (fld w 9 1) (fld w 7 2) (fld w 5 2) (fld w 4 1))
  | 0x36 => unusedZero (fld w 3 7 == 0) (.vpub d a b (fld w 0 3))
  | _ =>
    match (fld w 0 15).toNat with
    | 0 => .ok (.vsw d a)
    | 1 => unusedZero (a == 0) (.vswDrop d)
    | _ => .error .unassignedFunction

/-- Opcodes 0x38 to 0x3C, by R133. -/
def decodeTileMemory (w : Word32) : Except DecodeError Instr :=
  let t := fld w 21 4
  let a := fld w 16 5
  let b := fld w 11 5
  let ai := fld w 10 1
  let tr := fld w 9 1
  let hint := fld w 7 2
  let esrc := fld w 5 2
  let dir := fld w 4 1
  let half := fld w 3 1
  match (fld w 25 7).toNat with
  | 0x38 => unusedZero (fld w 0 3 == 0) (.tld t a b ai tr hint esrc dir half)
  | 0x39 => unusedZero (fld w 0 3 == 0 && tr == 0) (.tst t a b ai hint esrc dir half)
  | 0x3A => unusedZero (tr == 0) (.tldi t a b ai hint esrc dir (fld w 0 4))
  | 0x3B => unusedZero (fld w 0 3 == 0 && hint == 0) (.tlds t a b ai tr esrc dir half)
  | _ => unusedZero (fld w 0 3 == 0 && tr == 0 && hint == 0) (.tsts t a b ai esrc dir half)

/-- Opcodes 0x48 to 0x5F and 0x75, by R152, R175 and R227. -/
def decodeTile (w : Word32) : Except DecodeError Instr :=
  let d := fld w 21 4
  let a := fld w 17 4
  let b := fld w 13 4
  let c := fld w 9 4
  match (fld w 25 7).toNat with
  | 0x48 => unusedZero (fld w 0 7 == 0) (.mma d a b c (fld w 8 1) (fld w 7 1))
  | 0x49 => unusedZero (fld w 0 7 == 0 && c == 0) (.mmz d a b (fld w 8 1) (fld w 7 1))
  | 0x4A => .ok (.mmg d a b c (fld w 8 1) (fld w 7 1) (fld w 5 2) (fld w 0 5))
  | 0x4B => unusedZero (fld w 5 4 == 0) (.tadw d a b c (fld w 0 5))
  | 0x50 => unusedZero (c == 0 && fld w 1 8 == 0) (.tadd d a b (fld w 0 1))
  | 0x51 => unusedZero (c == 0 && fld w 1 8 == 0) (.tsub d a b (fld w 0 1))
  | 0x52 => unusedZero (c == 0 && fld w 1 8 == 0) (.tmul d a b (fld w 0 1))
  | 0x53 => unusedZero (fld w 1 8 == 0) (.tfma d a b c (fld w 0 1))
  | 0x54 => unusedZero (c == 0 && fld w 1 8 == 0) (.tmax d a b (fld w 0 1))
  | 0x55 => unusedZero (c == 0 && fld w 1 8 == 0) (.tmin d a b (fld w 0 1))
  | 0x56 => unusedZero (c == 0 && fld w 3 6 == 0) (.tcmp d a b (fld w 0 3))
  | 0x57 => unusedZero (fld w 0 9 == 0) (.tsel d a b c)
  | 0x58 => unusedZero (b == 0 && c == 0 && fld w 6 3 == 0) (.tcvt d a (fld w 5 1) (fld w 0 5))
  | 0x59 => unusedZero (b == 0 && c == 0 && fld w 0 9 == 0) (.ttr d a)
  | 0x5A => unusedZero (b == 0 && c == 0 && fld w 7 2 == 0) (.tred d a (fld w 6 1) (fld w 5 1) (fld w 2 3) (fld w 0 2))
  | 0x5B => unusedZero (b == 0 && c == 0 && fld w 3 6 == 0) (.tsfu d a (fld w 0 3))
  | 0x5C =>
    if c == 0 && fld w 7 2 == 0 then
      match (fld w 0 2).toNat with
      | 0 => unusedZero (fld w 2 5 == 0) (.tbcRow d a b)
      | 1 => unusedZero (fld w 2 5 == 0) (.tbcCol d a b)
      | 2 => unusedZero (fld w 2 5 == 0) (.tbcEl d a b)
      | _ => unusedZero (a == 0) (.tbcX d b (fld w 2 5))
    else .error .reservedField
  | 0x5D => unusedZero (b == 0 && c == 0 && fld w 5 4 == 0) (.tsc d a (fld w 0 5))
  | 0x5E => unusedZero (b == 0 && c == 0 && fld w 1 8 == 0) (.tnf d a (fld w 0 1))
  | 0x5F => unusedZero (b == 0 && c == 0 && fld w 5 4 == 0 && fld w 24 1 == 0) (.smpl (fld w 21 3) a (fld w 0 5))
  | _ => unusedZero (a == 0 && b == 0 && c == 0 && fld w 7 2 == 0) (.smrg d (fld w 5 2) (fld w 0 5))

/-- Opcodes 0x60 to 0x69, by R338, R342, R345, R350, R353 and R356. -/
def decodeEngine (w : Word32) : Except DecodeError Instr :=
  let d := fld w 20 5
  let a := fld w 15 5
  let b := fld w 10 5
  match (fld w 25 7).toNat, (fld w 0 10).toNat with
  | 0x60, 0 => .ok (.bcp d a b)
  | 0x60, 1 => .ok (.bcpLd d a b)
  | 0x60, 2 => .ok (.bcpSt d a b)
  | 0x62, 0 => unusedZero (d == 0) (.barExp a b)
  | 0x62, 1 => unusedZero (d == 0) (.barExpArr a b)
  | 0x63, 0 => unusedZero (d == 0 && b == 0) (.barArr a)
  | 0x63, 1 => unusedZero (d == 0) (.barInit a b)
  | 0x64, 0 => unusedZero (d == 0 && b == 0) (.barDrop a)
  | 0x65, 0 => .ok (.barWait d a b)
  | 0x65, 1 => unusedZero (b == 0) (.barTest d a)
  | 0x66, 0 => .ok (.a2aCl d a b)
  | 0x66, 1 => .ok (.a2aQ d a b)
  | 0x67, 0 => .ok (.cred d a b)
  | 0x67, 1 => .ok (.credLs d a b)
  | 0x68, 0 => .ok (.ofldOut d a b)
  | 0x69, 0 => .ok (.ofldIn d a b)
  | _, _ => .error .unassignedFunction

/-- Opcode 0x61, by R345. -/
def decodeStream (w : Word32) : Except DecodeError Instr :=
  let q := fld w 22 2
  let bt := fld w 21 1
  let r := fld w 16 5
  let b := fld w 11 5
  if fld w 24 1 == 0 then
    match (fld w 0 11).toNat with
    | 0 => unusedZero (bt == 0) (.sbind q r b 0)
    | 1 => unusedZero (bt == 0) (.sbind q r b 1)
    | 2 => unusedZero (bt == 0) (.sbind q r b 2)
    | 3 => unusedZero (bt == 0) (.sbind q r b 3)
    | 4 => unusedZero (b == 0) (.qrd q bt r)
    | 5 => unusedZero (bt == 0 && r == 0 && b == 0) (.sunbind q)
    | 6 => unusedZero (bt == 0 && b == 0) (.qavail q r)
    | _ => .error .unassignedFunction
  else .error .reservedField

/-- Opcodes 0x6A to 0x74 and 0x76, by R227 and R426. -/
def decodeLaunch (w : Word32) : Except DecodeError Instr :=
  let d := fld w 20 5
  let a := fld w 15 5
  let b := fld w 10 5
  match (fld w 25 7).toNat with
  | 0x6A => unusedZero (b == 0 && fld w 3 7 == 0) (.rget d a (fld w 2 1) (fld w 0 2))
  | 0x6B => unusedZero (d == 0 && fld w 3 7 == 0) (.rput a b (fld w 2 1) (fld w 0 2))
  | 0x6C =>
    if fld w 9 1 == 0 then
      if fld w 5 2 == 3 then .ok (.ramo d a b (fld w 7 2) (fld w 4 1) (fld w 0 4)) else .error .fieldLimit
    else .error .reservedField
  | 0x70 => unusedZero (b == 0 && fld w 0 10 == 0) (.larm d a)
  | 0x71 => unusedZero (d == 0 && fld w 6 4 == 0) (.lpat a b (fld w 4 2) (fld w 0 4))
  | 0x72 => unusedZero (b == 0 && fld w 3 7 == 0) (.cncl d a (fld w 0 3))
  | 0x73 => unusedZero (fld w 0 25 == 0) .trig
  | 0x74 => unusedZero (fld w 0 20 == 0) (.draw d)
  | _ => unusedZero (fld w 0 25 == 0) .exit

/-- Opcodes 0x78 to 0x7D, by R87 and R270. -/
def decodeSystem (w : Word32) : Except DecodeError Instr :=
  let d := fld w 20 5
  let a := fld w 15 5
  let fn := fld w 0 15
  match (fld w 25 7).toNat with
  | 0x78 => unusedZero (d == 0 && a == 0) (.trap fn)
  | 0x79 => unusedZero (fld w 0 25 == 0) .sret
  | 0x7A => unusedZero (a == 0) (.kget d fn)
  | 0x7B => unusedZero (d == 0) (.kset a fn)
  | 0x7C =>
    match fn.toNat with
    | 0 => unusedZero (d == 0 && a == 0) .brk
    | 1 => unusedZero (d == 0 && a == 0) .halt
    | 2 => unusedZero (d == 0) (.spt a)
    | _ => .error .unassignedFunction
  | _ =>
    match (fld w 0 4).toNat with
    | 0 => unusedZero (d == 0 && a == 0 && fld w 4 11 == 0) .tlbiAll
    | 1 => unusedZero (d == 0 && fld w 4 11 == 0) (.tlbiVa a)
    | 2 => unusedZero (d == 0 && fld w 11 4 == 0) (.tlbiBlk a (fld w 4 7))
    | _ => .error .unassignedFunction

/-- The instruction of a word by the major opcode map of R74, its field limits not yet checked. -/
def decodeFields (w : Word32) : Except DecodeError Instr :=
  let d := fld w 20 5
  let a := fld w 15 5
  let i := fld w 0 15
  match (fld w 25 7).toNat with
  | 0x01 => decodeInteger w
  | 0x02 => .ok (.addi d a i) | 0x03 => .ok (.andi d a i) | 0x04 => .ok (.ori d a i) | 0x05 => .ok (.xori d a i)
  | 0x06 => unusedZero (fld w 6 9 == 0) (.shli d a (fld w 0 6))
  | 0x07 => unusedZero (fld w 6 9 == 0) (.shri d a (fld w 0 6))
  | 0x08 => unusedZero (fld w 6 9 == 0) (.sari d a (fld w 0 6))
  | 0x09 => .ok (.paddi d a i) | 0x0A => unusedZero (a == 0) (.li d i) | 0x0B => .ok (.lih d a i)
  | 0x0C => .ok (.slti d a i) | 0x0D => .ok (.sltiu d a i) | 0x0E => .ok (.seqi d a i) | 0x0F => .ok (.muli d a i)
  | 0x10 => decodeFloat w false
  | 0x11 => decodeFloat w true
  | 0x12 => unusedZero (fld w 10 5 == 0 && fld w 9 1 == 0) (.fcvt d a (fld w 8 1) (fld w 4 4) (fld w 0 4))
  | 0x18 => .ok (.beq d a i) | 0x19 => .ok (.bne d a i) | 0x1A => .ok (.blt d a i) | 0x1B => .ok (.bge d a i)
  | 0x1C => .ok (.j (fld w 0 25)) | 0x1D => .ok (.call (fld w 0 25))
  | 0x1E => unusedZero (fld w 0 5 == 0)
      (.rep (fld w 21 4) (fld w 13 8) (fld w 11 2) (fld w 9 2) (fld w 7 2) (fld w 5 2))
  | 0x1F =>
    match (fld w 0 10).toNat with
    | 0 => unusedZero (d == 0 && fld w 10 5 == 0) (.jr a)
    | 1 => unusedZero (fld w 10 5 == 0) (.callr d a)
    | _ => .error .unassignedFunction
  | 0x20 | 0x21 | 0x22 | 0x23 => decodeMailbox w
  | 0x24 => .ok (.ld d a (fld w 12 3) (fld w 0 12))
  | 0x25 => .ok (.ldz d a (fld w 12 3) (fld w 0 12))
  | 0x26 => .ok (.st d a (fld w 12 3) (fld w 0 12))
  | 0x27 => unusedZero (fld w 0 10 == 0) (.ldAcq d a (fld w 12 3) (fld w 10 2))
  | 0x28 => unusedZero (fld w 0 10 == 0) (.stRel d a (fld w 12 3) (fld w 10 2))
  | 0x29 | 0x2A | 0x2B | 0x2C => decodeOrdering w
  | 0x30 | 0x31 | 0x32 | 0x33 | 0x34 | 0x35 | 0x36 | 0x37 => decodeBeryl w
  | 0x38 | 0x39 | 0x3A | 0x3B | 0x3C => decodeTileMemory w
  | 0x48 | 0x49 | 0x4A | 0x4B | 0x50 | 0x51 | 0x52 | 0x53 | 0x54 | 0x55 | 0x56 | 0x57
  | 0x58 | 0x59 | 0x5A | 0x5B | 0x5C | 0x5D | 0x5E | 0x5F | 0x75 => decodeTile w
  | 0x60 | 0x62 | 0x63 | 0x64 | 0x65 | 0x66 | 0x67 | 0x68 | 0x69 => decodeEngine w
  | 0x61 => decodeStream w
  | 0x6A | 0x6B | 0x6C | 0x70 | 0x71 | 0x72 | 0x73 | 0x74 | 0x76 => decodeLaunch w
  | 0x78 | 0x79 | 0x7A | 0x7B | 0x7C | 0x7D => decodeSystem w
  | 0x7E => .error .extensionOpcode
  | 0x00 | 0x7F => .error .illegalOpcode
  | _ => .error .unassignedOpcode

/-- The instruction that a word holds, or why it is none (R75). -/
def decode (w : Word32) : Except DecodeError Instr :=
  match decodeFields w with
  | .ok i => if wellFormed i then .ok i else .error .fieldLimit
  | .error e => .error e

/-- Four bytes as a little-endian word (R3, R69). -/
def wordOfBytes (b0 b1 b2 b3 : Byte) : Word32 := b3 ++ b2 ++ b1 ++ b0

/-- The instruction at the head of a byte sequence, with the bytes after it. -/
def decodeBytes : List Byte → Except DecodeError (Instr × List Byte)
  | b0 :: b1 :: b2 :: b3 :: rest =>
    match decode (wordOfBytes b0 b1 b2 b3) with
    | .ok i => .ok (i, rest)
    | .error e => .error e
  | _ => .error .truncated

/-- The four bytes of a word as memory holds them (R3). -/
def bytesOfWord (w : Word32) : List Byte := [fld w 0 8, fld w 8 8, fld w 16 8, fld w 24 8]

/-- The instruction that the decoder reads from a table word of nbits bits: the word's bytes are laid out as memory
holds them and given to the decoder. -/
def decodeTableWord (nbits w : Nat) : Option Instr :=
  match decodeBytes (bytesOfWord (BitVec.ofNat 32 (w % 2 ^ nbits))) with
  | .ok (i, _) => some i
  | .error _ => none

/-! The encoder, from the same tables. -/

/-- An SA word (R70). -/
abbrev wordSA (op : BitVec 7) (d a b : BitVec 5) (fn : BitVec 10) : Word32 := op ++ d ++ a ++ b ++ fn

/-- An SI, SY or BR word (R70). -/
abbrev wordSI (op : BitVec 7) (d a : BitVec 5) (i : BitVec 15) : Word32 := op ++ d ++ a ++ i

/-- An SM word (R70). -/
abbrev wordSM (op : BitVec 7) (d a : BitVec 5) (sz : BitVec 3) (off : BitVec 12) : Word32 := op ++ d ++ a ++ sz ++ off

/-- A TT word (R70). -/
abbrev wordTT (op : BitVec 7) (d a b c : BitVec 4) (fn : BitVec 9) : Word32 := op ++ d ++ a ++ b ++ c ++ fn

/-- A TM word (R70). -/
abbrev wordTM (op : BitVec 7) (t : BitVec 4) (a b : BitVec 5) (fn : BitVec 11) : Word32 := op ++ t ++ a ++ b ++ fn

/-- An MX word (R70). -/
abbrev wordMX (op : BitVec 7) (m : BitVec 3) (bt : BitVec 1) (a b : BitVec 5) (fn : BitVec 11) : Word32 :=
  op ++ m ++ bt ++ a ++ b ++ fn

/-- A BJ word (R70). -/
abbrev wordBJ (op : BitVec 7) (o : BitVec 25) : Word32 := op ++ o

/-- The word of an instruction; an event has none. -/
def encode : Instr → Option Word32
  | .add d a b => wordSA 0x01 d a b 0x000 | .sub d a b => wordSA 0x01 d a b 0x001
  | .padd d a b => wordSA 0x01 d a b 0x002 | .ptag d a b => wordSA 0x01 d a b 0x003
  | .and d a b => wordSA 0x01 d a b 0x004 | .or d a b => wordSA 0x01 d a b 0x005
  | .xor d a b => wordSA 0x01 d a b 0x006 | .shl d a b => wordSA 0x01 d a b 0x007
  | .shr d a b => wordSA 0x01 d a b 0x008 | .sar d a b => wordSA 0x01 d a b 0x009
  | .min d a b => wordSA 0x01 d a b 0x00A | .max d a b => wordSA 0x01 d a b 0x00B
  | .minu d a b => wordSA 0x01 d a b 0x00C | .maxu d a b => wordSA 0x01 d a b 0x00D
  | .mul d a b => wordSA 0x01 d a b 0x00E | .mulh d a b => wordSA 0x01 d a b 0x00F
  | .mulhu d a b => wordSA 0x01 d a b 0x010 | .div d a b => wordSA 0x01 d a b 0x011
  | .divu d a b => wordSA 0x01 d a b 0x012 | .rem d a b => wordSA 0x01 d a b 0x013
  | .remu d a b => wordSA 0x01 d a b 0x014 | .popc d a => wordSA 0x01 d a 0 0x015
  | .clz d a => wordSA 0x01 d a 0 0x016 | .ctz d a => wordSA 0x01 d a 0 0x017
  | .seq d a b => wordSA 0x01 d a b 0x018 | .sne d a b => wordSA 0x01 d a b 0x019
  | .slt d a b => wordSA 0x01 d a b 0x01A | .sltu d a b => wordSA 0x01 d a b 0x01B
  | .addi d a i => wordSI 0x02 d a i | .andi d a i => wordSI 0x03 d a i | .ori d a i => wordSI 0x04 d a i
  | .xori d a i => wordSI 0x05 d a i
  | .shli d a h => wordSI 0x06 d a (0#9 ++ h) | .shri d a h => wordSI 0x07 d a (0#9 ++ h)
  | .sari d a h => wordSI 0x08 d a (0#9 ++ h) | .paddi d a i => wordSI 0x09 d a i | .li d i => wordSI 0x0A d 0 i
  | .lih d a i => wordSI 0x0B d a i | .slti d a i => wordSI 0x0C d a i | .sltiu d a i => wordSI 0x0D d a i
  | .seqi d a i => wordSI 0x0E d a i | .muli d a i => wordSI 0x0F d a i
  | .faddS d a b => wordSA 0x10 d a b 0x000 | .fsubS d a b => wordSA 0x10 d a b 0x001
  | .fmulS d a b => wordSA 0x10 d a b 0x002 | .fdivS d a b => wordSA 0x10 d a b 0x003
  | .fminS d a b => wordSA 0x10 d a b 0x004 | .fmaxS d a b => wordSA 0x10 d a b 0x005
  | .fsqrtS d a => wordSA 0x10 d a 0 0x006 | .ffmaS d a b => wordSA 0x10 d a b 0x007
  | .feqS d a b => wordSA 0x10 d a b 0x008 | .fltS d a b => wordSA 0x10 d a b 0x009
  | .fleS d a b => wordSA 0x10 d a b 0x00A
  | .faddD d a b => wordSA 0x11 d a b 0x000 | .fsubD d a b => wordSA 0x11 d a b 0x001
  | .fmulD d a b => wordSA 0x11 d a b 0x002 | .fdivD d a b => wordSA 0x11 d a b 0x003
  | .fminD d a b => wordSA 0x11 d a b 0x004 | .fmaxD d a b => wordSA 0x11 d a b 0x005
  | .fsqrtD d a => wordSA 0x11 d a 0 0x006 | .ffmaD d a b => wordSA 0x11 d a b 0x007
  | .feqD d a b => wordSA 0x11 d a b 0x008 | .fltD d a b => wordSA 0x11 d a b 0x009
  | .fleD d a b => wordSA 0x11 d a b 0x00A
  | .fcvt d a sat src tgt => wordSA 0x12 d a 0 (0#1 ++ sat ++ src ++ tgt)
  | .beq a b o => wordSI 0x18 a b o | .bne a b o => wordSI 0x19 a b o | .blt a b o => wordSI 0x1A a b o
  | .bge a b o => wordSI 0x1B a b o | .j o => wordBJ 0x1C o | .call o => wordBJ 0x1D o
  | .rep n1 k1 std sta stb stc => wordBJ 0x1E (n1 ++ k1 ++ std ++ sta ++ stb ++ stc ++ 0#5)
  | .jr a => wordSA 0x1F 0 a 0 0x000 | .callr d a => wordSA 0x1F d a 0 0x001
  | .mrd m bt d => wordMX 0x20 m bt d 0 0x000 | .mpk m bt d => wordMX 0x20 m bt d 0 0x001
  | .wfm m bt => wordMX 0x20 m bt 0 0 0x002 | .mwr m b => wordMX 0x21 m 0 0 b 0x000
  | .send m a b => wordMX 0x22 m 0 a b 0x000 | .sendU m a b => wordMX 0x22 m 0 a b 0x001
  | .mclr m => wordMX 0x23 m 0 0 0 0x000 | .mfull d => wordMX 0x23 0 0 d 0 0x001
  | .ld d a sz off => wordSM 0x24 d a sz off | .ldz d a sz off => wordSM 0x25 d a sz off
  | .st s a sz off => wordSM 0x26 s a sz off
  | .ldAcq d a sz scope => wordSM 0x27 d a sz (scope ++ 0#10) | .stRel s a sz scope => wordSM 0x28 s a sz (scope ++ 0#10)
  | .amo d a b ord scope sz op => wordSA 0x29 d a b (0#1 ++ ord ++ scope ++ sz ++ op)
  | .ared a b ord scope sz op => wordSA 0x2A 0 a b (0#1 ++ ord ++ scope ++ sz ++ op)
  | .fence scope => wordSI 0x2B 0 0 (0#11 ++ 0#2 ++ scope) | .fenceAcq scope => wordSI 0x2B 0 0 (0#11 ++ 1#2 ++ scope)
  | .fenceRel scope => wordSI 0x2B 0 0 (0#11 ++ 2#2 ++ scope)
  | .xfence src dst => wordSI 0x2B 0 0 (1#1 ++ src ++ dst ++ 0#8)
  | .cwbr a b scope => wordSA 0x2C 0 a b (0#7 ++ scope ++ 0#1) | .cinv a b scope => wordSA 0x2C 0 a b (0#7 ++ scope ++ 1#1)
  | .bloa d a node rg => wordSA 0x30 d a 0 (0#5 ++ node ++ rg) | .bref a rg => wordSA 0x31 0 a 0 (0#6 ++ rg)
  | .brel a rg => wordSA 0x32 0 a 0 (0#6 ++ rg) | .bcas d a b dep => wordSA 0x33 d a b (0#7 ++ dep)
  | .bout d a b => wordSA 0x34 d a b 0
  | .tldb d a b ai tr hint esrc pin => wordTM 0x35 d a b (ai ++ tr ++ hint ++ esrc ++ pin ++ 0#4)
  | .vpub d a b dep => wordSA 0x36 d a b (0#7 ++ dep) | .vsw d a => wordSI 0x37 d a 0 | .vswDrop d => wordSI 0x37 d 0 1
  | .tld d a b ai tr hint esrc dir half => wordTM 0x38 d a b (ai ++ tr ++ hint ++ esrc ++ dir ++ half ++ 0#3)
  | .tst s a b ai hint esrc dir half => wordTM 0x39 s a b (ai ++ 0#1 ++ hint ++ esrc ++ dir ++ half ++ 0#3)
  | .tldi d a b ai hint esrc dir ti => wordTM 0x3A d a b (ai ++ 0#1 ++ hint ++ esrc ++ dir ++ ti)
  | .tlds d a b ai tr esrc dir half => wordTM 0x3B d a b (ai ++ tr ++ 0#2 ++ esrc ++ dir ++ half ++ 0#3)
  | .tsts s a b ai esrc dir half => wordTM 0x3C s a b (ai ++ 0#1 ++ 0#2 ++ esrc ++ dir ++ half ++ 0#3)
  | .mma d a b c stk bc => wordTT 0x48 d a b c (stk ++ bc ++ 0#7) | .mmz d a b stk bc => wordTT 0x49 d a b 0 (stk ++ bc ++ 0#7)
  | .mmg d i b c stk bc hint xp => wordTT 0x4A d i b c (stk ++ bc ++ hint ++ xp)
  | .tadw d a b c xh => wordTT 0x4B d a b c (0#4 ++ xh)
  | .tadd d a b w => wordTT 0x50 d a b 0 (0#8 ++ w) | .tsub d a b w => wordTT 0x51 d a b 0 (0#8 ++ w)
  | .tmul d a b w => wordTT 0x52 d a b 0 (0#8 ++ w) | .tfma d a b c w => wordTT 0x53 d a b c (0#8 ++ w)
  | .tmax d a b w => wordTT 0x54 d a b 0 (0#8 ++ w) | .tmin d a b w => wordTT 0x55 d a b 0 (0#8 ++ w)
  | .tcmp d a b cond => wordTT 0x56 d a b 0 (0#6 ++ cond) | .tsel d a b c => wordTT 0x57 d a b c 0
  | .tcvt d a sat tgt => wordTT 0x58 d a 0 0 (0#3 ++ sat ++ tgt) | .ttr d a => wordTT 0x59 d a 0 0 0
  | .tred d a d64 dst op axis => wordTT 0x5A d a 0 0 (0#2 ++ d64 ++ dst ++ op ++ axis)
  | .tsfu d a fn => wordTT 0x5B d a 0 0 (0#6 ++ fn)
  | .tbcRow d a b => wordTT 0x5C d a b 0 0 | .tbcCol d a b => wordTT 0x5C d a b 0 1 | .tbcEl d a b => wordTT 0x5C d a b 0 2
  | .tbcX d b xs => wordTT 0x5C d 0 b 0 (0#2 ++ xs ++ 3#2)
  | .tsc d a tgt => wordTT 0x5D d a 0 0 (0#4 ++ tgt) | .tnf d a dst => wordTT 0x5E d a 0 0 (0#8 ++ dst)
  | .smpl m a xs => wordTT 0x5F (0#1 ++ m) a 0 0 (0#4 ++ xs)
  | .bcp d a b => wordSA 0x60 d a b 0 | .bcpLd d a b => wordSA 0x60 d a b 1 | .bcpSt d a b => wordSA 0x60 d a b 2
  | .sbind q a b esz => wordMX 0x61 (0#1 ++ q) 0 a b (0#9 ++ esz) | .qrd q bt d => wordMX 0x61 (0#1 ++ q) bt d 0 4
  | .sunbind q => wordMX 0x61 (0#1 ++ q) 0 0 0 5 | .qavail q d => wordMX 0x61 (0#1 ++ q) 0 d 0 6
  | .barExp a b => wordSA 0x62 0 a b 0 | .barExpArr a b => wordSA 0x62 0 a b 1 | .barArr a => wordSA 0x63 0 a 0 0
  | .barInit a b => wordSA 0x63 0 a b 1 | .barDrop a => wordSA 0x64 0 a 0 0 | .barWait d a b => wordSA 0x65 d a b 0
  | .barTest d a => wordSA 0x65 d a 0 1 | .a2aCl d a b => wordSA 0x66 d a b 0 | .a2aQ d a b => wordSA 0x66 d a b 1
  | .cred d a b => wordSA 0x67 d a b 0 | .credLs d a b => wordSA 0x67 d a b 1
  | .ofldOut d a b => wordSA 0x68 d a b 0 | .ofldIn d a b => wordSA 0x69 d a b 0
  | .rget d a acq sz => wordSA 0x6A d a 0 (0#7 ++ acq ++ sz) | .rput a b rel sz => wordSA 0x6B 0 a b (0#7 ++ rel ++ sz)
  | .ramo d a b ord sz op => wordSA 0x6C d a b (0#1 ++ ord ++ 3#2 ++ sz ++ op)
  | .larm d a => wordSA 0x70 d a 0 0 | .lpat a b width off => wordSA 0x71 0 a b (0#4 ++ width ++ off)
  | .cncl d a level => wordSA 0x72 d a 0 (0#7 ++ level) | .trig => wordBJ 0x73 0 | .draw d => wordSI 0x74 d 0 0
  | .smrg d op xp => wordTT 0x75 d 0 0 0 (0#2 ++ op ++ xp) | .exit => wordBJ 0x76 0
  | .trap code => wordSI 0x78 0 0 code | .sret => wordBJ 0x79 0 | .kget d k => wordSI 0x7A d 0 k
  | .kset a k => wordSI 0x7B 0 a k | .brk => wordSI 0x7C 0 0 0 | .halt => wordSI 0x7C 0 0 1 | .spt a => wordSI 0x7C 0 a 2
  | .tlbiAll => wordSI 0x7D 0 0 0 | .tlbiVa a => wordSI 0x7D 0 a 1 | .tlbiBlk a n => wordSI 0x7D 0 a (0#4 ++ n ++ 2#4)
  | _ => none

end Sys2Proof
end

