-- ==== Sys2Proof/Machine/Frame.lean ====
section
/-! DEFINITION. Fetching words (10 R264; 04 R117) and the words of a repeat frame (01 R37 to R41; 04 R120). -/

namespace Sys2Proof.Machine

/-- A fetch that fails: its cause and the granule of a machine check. -/
abbrev FetchFault := Cause × Nat

/-- The L1 instruction cache's copy of the word at a physical address (08 R202). -/
def Core.cachedWord (c : Core) (pa : Nat) : Option Word32 :=
  (c.icache.find? (fun e => e.1 == lineOf pa)).map (fun e => BitVec.ofNat 32 (leNat ((e.2.drop (pa % 128)).take 4)))

/-- One instruction word (10 R264): from the L1 instruction cache where it holds the line, or at its home (DESIGN CHOICE, log entry
18: only INSTRUCTION_FETCH fills that cache). -/
def State.fetchWord (s : State) (va : BitVec 56) : Except FetchFault (Word32 × Xl) :=
  match s.translate .fetch true va.toNat with
  | .error c => .error (c, 0)
  | .ok x =>
    let pa := x.paOf va.toNat
    if !(if s.core.service.isSome then s.physHome pa else s.physOk pa) then .error (.physRange, 0)
    else
      match s.core.cachedWord pa with
      | some w => .ok (w, x)
      | none => if s.homeBad pa 4 then .error (.machineCheck, pa) else .ok (BitVec.ofNat 32 (s.mem.readNat pa 4), x)

/-- The homes of the words that a fetch reads, and of its walk, accept it (16 R406): words of the instruction cache need none. -/
def State.fetchTaken (s : State) (va : BitVec 56) (n : Nat) : Bool :=
  s.dev.l2.switching.isNone || (List.range n).all (fun i =>
    let a := (va + BitVec.ofNat 56 (4 * i)).toNat
    s.walkTaken .fetch a && match s.translate .fetch true a with
      | .ok x => (s.core.cachedWord (x.paOf a)).isSome || s.homesAccept [lineOf (x.paOf a)]
      | .error _ => true)

/-- A fetched word leaves ac set and its page in the TLB (10 R263, R265). -/
def State.fetched (s : State) (va : BitVec 56) (x : Xl) : State := s.touch .fetch va.toNat x

/-- An instruction of the tile-class opcodes, which a repeat frame may capture (08 R203; 04 R120). -/
def tileClass : Instr → Bool
  | .tldb .. | .tld .. | .tst .. | .tldi .. | .tlds .. | .tsts .. | .mma .. | .mmz .. | .mmg .. | .tadw ..
  | .tadd .. | .tsub .. | .tmul .. | .tfma .. | .tmax .. | .tmin .. | .tcmp .. | .tsel .. | .tcvt .. | .ttr ..
  | .tred .. | .tsfu .. | .tbcRow .. | .tbcCol .. | .tbcEl .. | .tbcX .. | .tsc .. | .tnf .. | .smpl .. => true
  | _ => false

/-- A captured tile memory instruction uses auto-increment (01 R37). -/
def autoIncrement : Instr → Bool
  | .tldb _ _ _ ai _ _ _ _ => ai == 1
  | .tld _ _ _ ai _ _ _ _ _ => ai == 1
  | .tst _ _ _ ai _ _ _ _ => ai == 1
  | .tldi _ _ _ ai _ _ _ _ => ai == 1
  | .tlds _ _ _ ai _ _ _ _ => ai == 1
  | .tsts _ _ _ ai _ _ _ => ai == 1
  | _ => true

/-- The instruction of a word that a frame may capture. -/
def captured (w : Word32) : Option Instr :=
  match decode w with
  | .ok i => if tileClass i && autoIncrement i then some i else none
  | .error _ => none

/-- What a frame's words come to: the deciding failure, or the instructions (01 R37). -/
inductive Capture where
  | words (is : List Instr)
  /-- A fetch fault, with the faulting address. -/
  | fetchFault (c : Cause) (va : BitVec 56) (paddr : Nat)
  /-- A word that may not be captured, with its address. -/
  | content (va : BitVec 56)
  deriving DecidableEq, Repr

/-- The n words from an address examined in ascending order (01 R37). -/
def State.capture (s : State) (va : BitVec 56) : Nat → Capture
  | 0 => .words []
  | n + 1 =>
    match s.fetchWord va with
    | .error f => .fetchFault f.1 va f.2
    | .ok (w, _) =>
      match captured w with
      | none => .content va
      | some i =>
        match s.capture (va + 4) n with
        | .words is => .words (i :: is)
        | c => c

/-- What fetching n words leaves behind. -/
def State.fetchedAll (s : State) (va : BitVec 56) (n : Nat) : State :=
  (List.range n).foldl (fun s i =>
    let a := va + BitVec.ofNat 56 (4 * i)
    match s.translate .fetch true a.toNat with
    | .ok x => s.fetched a x
    | .error _ => s) s

/-- The outcome of a capture as a check of the instruction that asks for it: a fetch fault keeps its cause, with k.tval
the faulting address (01 R37, R41). -/
def Capture.get (c : Capture) : Run? (List Instr) :=
  match c with
  | .words is => .ok is
  | .fetchFault c va p => .error (.trap c (BitVec.ofNat 64 va.toNat) p)
  | .content va => .error (.trap .repContent (BitVec.ofNat 64 va.toNat) 0)

/-- The frame's words are fetched again before it resumes (01 R41): a position outside the frame, and a failure, are traps. -/
def State.refetchFrame (s : State) : Run? State :=
  if s.k.n1 < s.k.pos || s.k.k1 < s.k.iter then .error (.trap .repContent s.k.repst 0)
  else do
    let base := s.k.frameAddr 0
    needTaken (s.fetchTaken base (s.k.n1 + 1))
    let is ← (s.capture base (s.k.n1 + 1)).get
    .ok { s.fetchedAll base (s.k.n1 + 1) with core.frame := is }

/-- A staggered tile register (01 R38). -/
def stag (f : BitVec 4) (iter step : Nat) : BitVec 4 := BitVec.ofNat 4 (f.toNat + iter * step)

/-- A captured execution of iteration `it` (01 R38; 07 R183): each field that names a tile register moves by its
stagger; pointers, ti of tldi, mailbox numbers and scalar registers do not. -/
def staggered (k : KRegs) (it : Nat) (i : Instr) : Instr :=
  let D (f : BitVec 4) := stag f it k.std
  let A (f : BitVec 4) := stag f it k.sta
  let B (f : BitVec 4) := stag f it k.stb
  let C (f : BitVec 4) := stag f it k.stc
  match i with
  | .tldb d a b ai tr h e p => .tldb (D d) a b ai tr h e p
  | .tld d a b ai tr h e dir half => .tld (D d) a b ai tr h e dir half
  | .tst d a b ai h e dir half => .tst (D d) a b ai h e dir half
  | .tldi d a b ai h e dir ti => .tldi (D d) a b ai h e dir ti
  | .tlds d a b ai tr e dir half => .tlds (D d) a b ai tr e dir half
  | .tsts d a b ai e dir half => .tsts (D d) a b ai e dir half
  | .mma d a b c st bc => .mma (D d) (A a) (B b) (C c) st bc
  | .mmz d a b st bc => .mmz (D d) (A a) (B b) st bc
  | .mmg d a b c st bc h x => .mmg (D d) (A a) (B b) (C c) st bc h x
  | .tadw d a b c x => .tadw (D d) (A a) (B b) (C c) x
  | .tadd d a b w => .tadd (D d) (A a) (B b) w
  | .tsub d a b w => .tsub (D d) (A a) (B b) w
  | .tmul d a b w => .tmul (D d) (A a) (B b) w
  | .tfma d a b c w => .tfma (D d) (A a) (B b) (C c) w
  | .tmax d a b w => .tmax (D d) (A a) (B b) w
  | .tmin d a b w => .tmin (D d) (A a) (B b) w
  | .tcmp d a b c => .tcmp (D d) (A a) (B b) c
  | .tsel d a b c => .tsel (D d) (A a) (B b) (C c)
  | .tcvt d a sat t => .tcvt (D d) (A a) sat t
  | .ttr d a => .ttr (D d) (A a)
  | .tred d a d64 dst op ax => .tred (if dst == 1 then d else D d) (A a) d64 dst op ax
  | .tsfu d a f => .tsfu (D d) (A a) f
  | .tbcRow d a b => .tbcRow (D d) (A a) (B b)
  | .tbcCol d a b => .tbcCol (D d) (A a) (B b)
  | .tbcEl d a b => .tbcEl (D d) (A a) (B b)
  | .tbcX d b x => .tbcX (D d) (B b) x
  | .tsc d a t => .tsc (D d) (A a) t
  | .tnf d a dst => .tnf (if dst == 1 then d else D d) (A a) dst
  | .smpl m a x => .smpl m (A a) x
  | i => i

end Sys2Proof.Machine
end

