-- ==== Sys2Proof/Machine/Uses.lean ====
section
/-! DEFINITION. What the renamer and the issue logic look at in an instruction word (08 R203 to R211): the registers that it reads
and writes, and the engines that take it. -/

namespace Sys2Proof.Machine

/-- The class that an instruction issues to (08 R210). -/
def engineClass : Instr → EngineClass
  | .tldb .. | .tld .. | .tst .. | .tldi .. | .tlds .. | .tsts .. => .copy
  | .mma .. | .mmz .. | .mmg .. | .tadw .. => .matrix
  | i => if tileClass i then .vector else .scalar

/-! Registers. -/

/-- A register and the next one, for an operand of two registers. -/
def twoRegs (r : BitVec 5) : List (BitVec 5) := [r, r + 1]

/-- The scalar registers that an instruction reads. -/
def xReads : Instr → List (BitVec 5)
  | .add _ a b | .sub _ a b | .padd _ a b | .ptag _ a b | .and _ a b | .or _ a b | .xor _ a b | .shl _ a b | .shr _ a b
  | .sar _ a b | .min _ a b | .max _ a b | .minu _ a b | .maxu _ a b | .mul _ a b | .mulh _ a b | .mulhu _ a b | .div _ a b
  | .divu _ a b | .rem _ a b | .remu _ a b | .seq _ a b | .sne _ a b | .slt _ a b | .sltu _ a b
  | .faddS _ a b | .fsubS _ a b | .fmulS _ a b | .fdivS _ a b | .fminS _ a b | .fmaxS _ a b | .feqS _ a b | .fltS _ a b
  | .fleS _ a b | .faddD _ a b | .fsubD _ a b | .fmulD _ a b | .fdivD _ a b | .fminD _ a b | .fmaxD _ a b | .feqD _ a b
  | .fltD _ a b | .fleD _ a b | .beq a b _ | .bne a b _ | .blt a b _ | .bge a b _ | .barExp a b | .barExpArr a b | .barInit a b
  | .barWait _ a b | .send _ a b | .sendU _ a b | .ared a b _ _ _ _ | .cwbr a b _ | .cinv a b _ | .rput a b _ _
  | .lpat a b _ _ => [a, b]
  | .popc _ a | .clz _ a | .ctz _ a | .addi _ a _ | .andi _ a _ | .ori _ a _ | .xori _ a _ | .shli _ a _ | .shri _ a _
  | .sari _ a _ | .paddi _ a _ | .lih _ a _ | .slti _ a _ | .sltiu _ a _ | .seqi _ a _ | .muli _ a _ | .fsqrtS _ a
  | .fsqrtD _ a | .fcvt _ a _ _ _ | .jr a | .callr _ a | .ld _ a _ _ | .ldz _ a _ _ | .ldAcq _ a _ _ | .bloa _ a _ _
  | .vsw _ a | .barArr a | .barDrop a | .barTest _ a | .rget _ a _ _ | .larm _ a | .cncl _ a _ | .kset a _ | .spt a
  | .tlbiVa a | .tlbiBlk a _ => [a]
  | .ffmaS d a b | .ffmaD d a b | .bout d a b | .amo d a b _ _ _ _ | .ramo d a b _ _ _ => [d, a, b]
  | .mwr _ b => [b]
  | .st r a sz _ => (if sz == 4 then twoRegs r else [r]) ++ [a]
  | .stRel r a sz _ => (if sz == 4 then twoRegs r else [r]) ++ [a]
  | .bref a _ | .brel a _ => twoRegs a
  | .bcas d a b _ => twoRegs d ++ [a] ++ twoRegs b
  | .vpub d a b _ => [d, a] ++ twoRegs b
  | .tldb _ a b _ _ _ _ _ | .tld _ a b _ _ _ _ _ _ | .tst _ a b _ _ _ _ _ | .tldi _ a b _ _ _ _ _ | .tlds _ a b _ _ _ _ _
  | .tsts _ a b _ _ _ _ => [a, b]
  | .mmg _ _ _ _ _ _ _ xp => twoRegs xp
  | .tadw _ _ _ _ xh => twoRegs xh
  | .tbcX _ _ xs => [xs]
  | .smpl _ _ xs => twoRegs xs
  | .smrg _ _ xp => twoRegs xp
  | .bcp d a b | .bcpLd d a b | .bcpSt d a b | .a2aCl d a b | .a2aQ d a b | .cred d a b | .credLs d a b | .ofldOut d a b
  | .ofldIn d a b => [d, a] ++ twoRegs b
  | .sbind _ a b _ => [a] ++ twoRegs b
  | _ => []

/-- The scalar registers that an instruction writes (08 R207): an auto-increment, and the second register of a pair, like any other. -/
def xWrites : Instr → List (BitVec 5)
  | .add d _ _ | .sub d _ _ | .padd d _ _ | .ptag d _ _ | .and d _ _ | .or d _ _ | .xor d _ _ | .shl d _ _ | .shr d _ _
  | .sar d _ _ | .min d _ _ | .max d _ _ | .minu d _ _ | .maxu d _ _ | .mul d _ _ | .mulh d _ _ | .mulhu d _ _ | .div d _ _
  | .divu d _ _ | .rem d _ _ | .remu d _ _ | .seq d _ _ | .sne d _ _ | .slt d _ _ | .sltu d _ _
  | .faddS d _ _ | .fsubS d _ _ | .fmulS d _ _ | .fdivS d _ _ | .fminS d _ _ | .fmaxS d _ _ | .feqS d _ _ | .fltS d _ _
  | .fleS d _ _ | .faddD d _ _ | .fsubD d _ _ | .fmulD d _ _ | .fdivD d _ _ | .fminD d _ _ | .fmaxD d _ _ | .feqD d _ _
  | .fltD d _ _ | .fleD d _ _ | .ffmaS d _ _ | .ffmaD d _ _
  | .popc d _ | .clz d _ | .ctz d _ | .addi d _ _ | .andi d _ _ | .ori d _ _ | .xori d _ _ | .shli d _ _ | .shri d _ _
  | .sari d _ _ | .paddi d _ _ | .li d _ | .lih d _ _ | .slti d _ _ | .sltiu d _ _ | .seqi d _ _ | .muli d _ _ | .fsqrtS d _
  | .fsqrtD d _ | .fcvt d _ _ _ _ | .callr d _ | .mrd _ _ d | .mpk _ _ d | .mfull d | .amo d _ _ _ _ _ _ | .vpub d _ _ _
  | .vsw d _ | .vswDrop d | .qrd _ _ d | .qavail _ d | .barWait d _ _ | .barTest d _ | .rget d _ _ _ | .ramo d _ _ _ _ _
  | .larm d _ | .cncl d _ _ | .draw d | .kget d _ => [d]
  | .call _ => [1]
  | .ld d _ sz _ | .ldz d _ sz _ | .ldAcq d _ sz _ => if sz == 4 then twoRegs d else [d]
  | .bloa d _ _ _ | .bcas d _ _ _ => twoRegs d
  | .tldb _ _ b ai _ _ _ _ => if ai == 1 then [b] else []
  | .tld _ a _ ai _ _ _ _ _ | .tst _ a _ ai _ _ _ _ | .tldi _ a _ ai _ _ _ _ | .tlds _ a _ ai _ _ _ _ | .tsts _ a _ ai _ _ _ =>
    if ai == 1 then [a] else []
  | _ => []

/-- The registers that a younger instruction must wait for: an auto-increment through an xe4 pointer writes the shape register
instead (05 R138), which only the pointer's value tells. -/
def xBlocks (i : Instr) : List (BitVec 5) :=
  match i with
  | .tld _ _ b ai _ _ _ _ _ => if ai == 1 then b :: xWrites i else xWrites i
  | _ => xWrites i

/-- The physical scalar registers that an instruction takes at dispatch (08 R207): x0 is not renamed. -/
def scalarsTaken (i : Instr) : Nat := ((xWrites i).filter (· != 0)).length

/-- The tile registers that an instruction reads. A load whose shape comes from the tile it replaces reads that tile's tag (05
R131). -/
def tReads : Instr → List (BitVec 4)
  | .tld d _ _ _ _ _ e _ _ | .tldi d _ _ _ _ e _ _ | .tlds d _ _ _ _ e _ _ | .tldb d _ _ _ _ _ e _ => if e == 2 then [d] else []
  | .tst r _ _ _ _ _ _ _ | .tsts r _ _ _ _ _ _ => [r]
  | .mma _ a b c _ _ => [a, b, c]
  | .mmz _ a b _ _ => [a, b]
  | .mmg _ i b c _ _ _ _ => [i, b, c]
  | .tadw d a b c _ => [d, a, b, c]
  | .tadd _ a b _ | .tsub _ a b _ | .tmul _ a b _ | .tmax _ a b _ | .tmin _ a b _ | .tcmp _ a b _ | .tbcRow _ a b | .tbcCol _ a b
  | .tbcEl _ a b => [a, b]
  | .tfma _ a b c _ | .tsel _ a b c => [a, b, c]
  | .tcvt _ a _ _ | .ttr _ a | .tsfu _ a _ | .tsc _ a _ | .tnf _ a _ | .smpl _ a _ => [a]
  | .tred _ a _ _ _ _ => [a]
  | .tbcX _ b _ => [b]
  | _ => []

/-- The index tile of tldi is one of its sources. -/
def tSources (i : Instr) : List (BitVec 4) :=
  match i with
  | .tldi _ _ _ _ _ _ _ ti => ti :: tReads i
  | _ => tReads i

/-- The tile registers that an instruction writes (08 R205). -/
def tWrites : Instr → List (BitVec 4)
  | .tldb d _ _ _ _ _ _ _ | .tld d _ _ _ _ _ _ _ _ | .tldi d _ _ _ _ _ _ _ | .tlds d _ _ _ _ _ _ _ | .mma d _ _ _ _ _
  | .mmz d _ _ _ _ | .mmg d _ _ _ _ _ _ _ | .tadd d _ _ _ | .tsub d _ _ _ | .tmul d _ _ _ | .tfma d _ _ _ _ | .tmax d _ _ _
  | .tmin d _ _ _ | .tcmp d _ _ _ | .tsel d _ _ _ | .tcvt d _ _ _ | .ttr d _ | .tsfu d _ _ | .tbcRow d _ _ | .tbcCol d _ _
  | .tbcEl d _ _ | .tbcX d _ _ | .tsc d _ _ | .smrg d _ _ => [d]
  | .tadw d _ b c _ => [d, b, c]
  | .tred d _ _ dst _ _ | .tnf d _ dst => if dst == 1 then [] else [d]
  | _ => []

/-- smrg (09 R236). -/
def isSmrg : Instr → Bool
  | .smrg .. => true
  | _ => false

/-- The physical tiles that an instruction takes at dispatch (08 R205; 09 R236): smrg and the tile-class instructions take them. -/
def tilesTaken (i : Instr) : Nat := if tileClass i || isSmrg i then (tWrites i).length else 0

/-- The scalar registers that the range of an access comes from (01 R29; 08 R209): of a scalar access its pointer, not its data. -/
def rangeRegs (i : Instr) : List (BitVec 5) :=
  match i with
  | .st _ a _ _ | .stRel _ a _ _ | .amo _ a _ _ _ _ _ | .ared a _ _ _ _ _ | .rput a _ _ _ | .ramo _ a _ _ _ _ | .bcas _ a _ _
  | .vpub _ a _ _ | .barExp a _ | .barExpArr a _ | .barInit a _ | .barWait _ a _ => [a]
  | _ => xReads i

/-- The tile register whose tag the range of an access comes from (05 R131, R144): under esrc 2 the tile that a store reads, or one that
a load replaces. The window of a gather and the slot of tldb come from scalars alone (12 R314). -/
def rangeTiles : Instr → List (BitVec 4)
  | .tld d _ _ _ _ _ e _ _ | .tlds d _ _ _ _ e _ _ | .tst d _ _ _ _ e _ _ | .tsts d _ _ _ e _ _ => if e == 2 then [d] else []
  | _ => []

/-- The same of the step of an auto-increment (05 R138), which a gather takes from its shape. -/
def stepTiles (i : Instr) : List (BitVec 4) :=
  match i with
  | .tldi d _ _ _ _ e _ _ => if e == 2 then [d] else []
  | _ => rangeTiles i

/-- The physical tiles and scalar registers that entries of the reorder buffer hold (08 R205, R207). -/
def Core.robTiles (c : Core) : Nat := (c.rob.map (fun r => tilesTaken r.instr)).sum
@[inherit_doc Core.robTiles] def Core.robScalars (c : Core) : Nat := (c.rob.map (fun r => scalarsTaken r.instr)).sum

/-- Tile-class entries. -/
def Core.tileEntries (c : Core) : Nat := (c.rob.filter (fun r => tileClass r.instr)).length

/-! Engines (08 R210, R211). -/

/-- A detached command (13 R329). -/
def detached : Instr → Bool
  | .bcp .. | .bcpLd .. | .bcpSt .. | .a2aCl .. | .a2aQ .. | .cred .. | .credLs .. | .ofldOut .. | .ofldIn .. => true
  | _ => false

/-- The instruction does not issue early: it begins to execute as the oldest (08 R211, and the owning chapters). -/
def headOnly : Instr → Bool
  | .mrd .. | .mpk .. | .wfm .. | .mfull .. | .kget .. | .kset .. | .exit | .trap .. | .brk | .sret | .halt | .spt .. | .send .. | .sendU ..
  | .amo .. | .ldAcq .. | .fence .. | .fenceAcq .. | .fenceRel .. | .xfence .. | .cwbr .. | .cinv .. | .bloa .. | .bref .. | .brel ..
  | .bcas .. | .bout .. | .vpub .. | .vsw .. | .vswDrop .. | .sbind .. | .qrd .. | .sunbind .. | .qavail .. | .barExp .. | .barExpArr ..
  | .barArr .. | .barInit .. | .barDrop .. | .barWait .. | .barTest .. | .rget .. | .ramo .. | .larm .. | .lpat .. | .cncl .. | .trig
  | .draw .. | .smrg .. | .rep .. | .tlbiAll | .tlbiVa .. | .tlbiBlk .. => true
  | i => detached i

end Sys2Proof.Machine
end

