-- ==== Sys2Proof/Machine/Observe.lean ====
section
/-! DEFINITION. Observation (chapter 15): the sampling pulse, the counter sampler, breakpoint slots as registers, and whole-state
capture, with the snapshot windows of 18 R444. -/

namespace Sys2Proof.Machine

/-! Rings (15 R394). -/

/-- The ring is enabled. -/
def ObsRing.on (r : ObsRing) : Bool := decide (4096 ≤ r.size.toNat) && decide (r.size.toNat ≤ 2 ^ 31) && r.size.toNat % 64 == 0

/-- The record of n bytes fits. -/
def ObsRing.fits (r : ObsRing) (n : Nat) : Bool :=
  let size := r.size.toNat
  r.on && decide (n + 1 + (r.head.toNat + size - r.tail.toNat % size) % size ≤ size)

/-- Bytes of a record, line by line: a line that lies in no memory or in no domain takes none (DESIGN CHOICE, log entry 68). -/
def State.putBytes (s : State) (pa : Nat) (bs : List Byte) : State :=
  (linesOf pa bs.length).foldl (fun t l =>
    let lo := max pa (l * 128)
    if t.physHome lo then t.homeWrite .h lo ((bs.drop (lo - pa)).take ((l + 1) * 128 - lo)) else t) s

/-- The bytes of a record at a ring's head, around its end (15 R394); DESIGN CHOICE, log entry 68, where no memory or no domain lies
there. -/
def State.putRing (s : State) (r : ObsRing) (bs : List Byte) : State :=
  let k := r.size.toNat - r.head.toNat
  let t := s.putBytes (r.base + r.head.toNat) (bs.take k)
  if bs.length ≤ k then t else t.putBytes r.base (bs.drop k)

/-- The ring after a record of n bytes, written or dropped. A disabled ring drops nothing. -/
def ObsRing.after (r : ObsRing) (n : Nat) : ObsRing :=
  if r.fits n then { r with head := BitVec.ofNat 32 ((r.head.toNat + n) % r.size.toNat), lost := false }
  else { r with lost := r.lost || r.on }

/-- RING_BASE_SIZE (15 R394): writing base or size sets head to 0. -/
def execRingBaseSize (sampler : Bool) (base : Nat) (size : BitVec 32) (s : State) : Out :=
  let set (r : ObsRing) : ObsRing := { r with base := base % 2 ^ 52 / 64 * 64, size := size, head := 0 }
  .next (s.ifUp (if sampler then { s with obs.sampleRing := set s.obs.sampleRing } else { s with obs.pulseRing := set s.obs.pulseRing }))

/-! The sampling pulse (15 R395 to R397). -/

/-- The eviction of the resident unit, which is due and need not wait, may have begun: a free value (14 R382; log entry 38). -/
def State.evicting (s : State) : Bool :=
  s.core.evictReq.isSome && (s.partAt s.part).freeSlot.isSome && (s.evictMask s.part).isSome
    && (s.core.safe.isSome || s.core.run == .stopped || (Config.otherLatch (0x10000 + 0x100 * s.core.num.toNat) s.tick).getLsbD 60)

/-- The migration of the resident unit to a free core may have begun: a free value (14 R390; log entry 38). -/
def State.migrating (s : State) : Bool :=
  ((s.partAt s.part).findUnit s.core.unit.ident.task).any (fun e =>
      ((s.freeCores s.part).filter (· != s.core.num.toNat)).any (s.mayMoveTo s.part e.1 s.core.evictReq))
    && (Config.otherLatch (0x10000 + 0x100 * s.core.num.toNat) s.tick).getLsbD 61

/-- The task of a saved unit whose restoration on the modelled core, which is idle, may have begun: a free value (14 R387; log entry
38). -/
def State.restoring (s : State) : Option (BitVec 32) :=
  if s.core.service.isSome || !(Config.otherLatch (0x10000 + 0x100 * s.core.num.toNat) s.tick).getLsbD 59 then none
  else
    (List.finRange 8).findSome? (fun i =>
      let p := BitVec.ofFin i
      let pt := s.partAt p
      pt.saved.findSome? (fun v => (pt.findUnit v.task).bind (fun e =>
        if v.image && (v.susp.isSome || v.stopped || s.mayRestore p e.1) && (s.restoreGroup p e.1 v s.core.num.toNat).contains (v, s.core.num.toNat)
        then some v.task else none)))

/-- The run state of the modelled core (15 R396). A waiting handler shows as a handler (DESIGN CHOICE, log entry 38); a unit that
stands at the boundary of its eviction is being evicted, and one that a debug stop parks for want of a slot is suspended (14 R381). -/
def State.latchState (s : State) : Nat :=
  let shown (n : Nat) : Nat := if s.evicting then 5 else n
  match s.core.run with
  | .idle => if s.restoring.isSome then 5 else 0
  | .exited => 0
  | .halted => 6
  | .suspended _ => shown 4
  | .stopped => shown 4
  | .running =>
    shown (
      if s.migrating then 5
      else if s.core.safe.isSome then 5
      else if s.k.pl == 1 then 3
      else
        match s.core.wait with
        | .none => 1
        | .other => 1
        | _ => 2)

/-- The latched pc with the run state (15 R397): pc is 0 in states 5 and 6. -/
def State.latchWord (s : State) : Word64 :=
  let st := s.latchState
  BitVec.ofNat 64 ((if 5 ≤ st then 0 else s.pc.toNat) + st * 2 ^ 56)

/-- The task of the modelled core's entry: that of the unit that is restored there, or that is resident. -/
def State.restoringOr (s : State) : BitVec 32 := if s.core.run == .idle then s.restoring.getD 0 else s.core.unit.ident.task

/-- An entry of a pulse record. -/
structure Latched where
  core : Nat
  word : Word64
  task : BitVec 32
  deriving DecidableEq, Repr

/-- The latched word of a unit on another core (log entry 38): a suspended one is at its trapping instruction; of any other, its pc is a
free value, and so is its state, but that one which is stopped is suspended. Whether an eviction that is due has begun is a free value
too; the pc is 0 in states 5 and 6. -/
def UnitRec.latchWord (u : UnitRec) (due : Bool) (core tick : Nat) : Word64 :=
  let v := Config.otherLatch (0x10000 + 0x100 * core) tick
  let begun := due && v.getLsbD 60
  let word (pc st : Nat) : Word64 := BitVec.ofNat 64 ((if 5 ≤ st then 0 else pc) + st * 2 ^ 56)
  match u.susp with
  | some f => word f.epc.toNat (if begun then 5 else 4)
  | none =>
    if u.stopped then word (bits v 55 0) (if begun then 5 else 4)
    else
      let st := 1 + bits v 58 56 % 6
      word (bits v 55 0) (if st == 4 then 1 else st)

/-- The entries of units on other cores; one that its core is still saving is being evicted (14 R382). -/
def State.otherEntries (s : State) : List Latched :=
  s.parts.toList.flatMap (fun p => p.launches.flatMap (fun l => l.units.filterMap (fun u =>
    let task := BitVec.ofNat 32 (l.record.tbase + u.u)
    match u.place with
    | .elsewhere c => some ⟨c, u.latchWord (p.freeSlot.isSome && (p.evictSource task).isSome && !p.pmode) c s.tick, task⟩
    | .saved slot => if p.saved.any (fun v => v.slot == slot && !v.image) then some ⟨u.core, BitVec.ofNat 64 (5 * 2 ^ 56), task⟩ else none
    | _ => none)))

/-- Entries in ascending core number. -/
def insertLatched (e : Latched) : List Latched → List Latched
  | [] => [e]
  | f :: r => if e.core < f.core then e :: f :: r else f :: insertLatched e r

/-- The entries of a pulse (15 R397). A service core is no NPU core. -/
def State.latched (s : State) : List Latched :=
  let own := if s.latchState == 0 || s.core.service.isSome then []
    else [⟨s.core.num.toNat, s.latchWord, s.restoringOr⟩]
  (s.otherEntries ++ own).foldr insertLatched []

/-- The record of a pulse (15 R397). -/
def State.pulseBytes (s : State) : List Byte :=
  let es := s.latched
  let mask := (es.map (fun e => 2 ^ e.core)).sum
  wordBytes [s.stamp, BitVec.ofNat 64 (s.obs.seq.toNat + es.length * 2 ^ 32 + if s.obs.pulseRing.lost then 2 ^ 40 else 0)]
    ++ leBytes 16 mask ++ es.flatMap (fun e => wordBytes [e.word, BitVec.ofNat 64 (e.task.toNat + e.core * 2 ^ 32)])

/-- One pulse (15 R395 to R397): its record, its number, and the trigger of R403. -/
def State.pulse (s : State) : State :=
  let o := s.obs
  let bs := s.pulseBytes
  let t := if o.pulseRing.fits bs.length then s.putRing o.pulseRing bs else s
  let t : State := { t with obs.pulseRing := o.pulseRing.after bs.length, obs.seq := o.seq + 1 }
  (t.trigger 1 (o.snap.onseq && o.seq == o.snap.seqMatch)).ticked

/-- NOW (15 R395). -/
def execNow (s : State) : Out := .next (s.ifUp s.pulse)

/-- PULSE_PERIOD (15 R395, R396). -/
def execPulsePeriod (s : State) : Out := .next (if s.obs.pulseEn then s.pulse else s)

/-! The counter sampler (15 R398, R399). -/

/-- Instances of an event; none for a reserved event (15 R398). -/
def eventInstances (e : Nat) : Option Nat :=
  match e with
  | 0x01 => some 256
  | 0x02 | 0x03 | 0x04 | 0x05 | 0x06 | 0x07 | 0x0C => some 128
  | 0x08 | 0x09 | 0x0A | 0x0B => some 32
  | 0x0D => some 8
  | _ => none

/-- A counter that the model does not follow, as it was last sampled; 0 at reset (15 R398). -/
def Obs.counted (o : Obs) (e i : Nat) : Word64 := ((o.counts.find? (fun c => c.1 == (e, i))).map (·.2)).getD 0

/-- The block of a counter is parked, so that the counter keeps its value (15 R398): the cores of a parked quadrant and its merge buffers,
and the slices of one that is parked deep (16 R412). -/
def State.blockParked (s : State) (e i : Nat) : Bool :=
  let core := e == 0x02 || e == 0x03 || e == 0x04 || e == 0x05 || e == 0x06 || e == 0x07 || e == 0x0C
  let q := if core then i / 16 else i / 4
  let slice := e == 0x08 || e == 0x09
  (core || slice || e == 0x0B) && s.parts.toList.any (fun p =>
    p.qmask.getLsbD q && p.qstate.getLsbD q && (!slice || (p.qdeep.getLsbD q && !p.qshal.getLsbD q)))

/-- The event and the instance of a counter: the cycles have none (15 R398). -/
def counterKey (sel : BitVec 16) : Nat × Nat := (sel.toNat % 256, if sel.toNat % 256 == 0x01 then 0 else sel.toNat / 256)

/-- A selected counter (15 R398). The retirements and the checksum reruns of the modelled core and the stacked operations of its
cluster are counted; every other counter goes on from its last sample by a free value (log entry 11). -/
def State.counter (s : State) (sel : BitVec 16) : Word64 :=
  let e := sel.toNat % 256
  let i := (counterKey sel).2
  let own := i == s.core.num.toNat && s.core.service.isNone
  match eventInstances e with
  | none => BitVec.allOnes 64
  | some n =>
    if n ≤ i then BitVec.allOnes 64
    else if e == 0x02 && own then s.core.retired
    else if e == 0x03 && own then s.core.retiredTile
    else if e == 0x0C && own then s.core.reruns
    else if e == 0x0B && i == s.cluster then s.dev.stackedOps
    else if s.blockParked e i then s.obs.counted e i
    else s.obs.counted e i + Config.counter e i s.tick

/-- Selectors used. -/
def Obs.selectors (o : Obs) : List (BitVec 16) := o.sels.toList.take (bits o.sampler 7 4 + 1)

/-- A row of the sampler (15 R399). -/
def State.rowBytes (s : State) : List Byte :=
  wordBytes ([s.stamp, BitVec.ofNat 64 (s.obs.sample.toNat + if s.obs.sampleRing.lost then 2 ^ 32 else 0)]
    ++ s.obs.selectors.map s.counter)

/-- The counters after a sample of some selectors. -/
def State.countsAfter (s : State) (sels : List (BitVec 16)) : List ((Nat × Nat) × Word64) :=
  sels.foldl (fun cs sel =>
    let key := counterKey sel
    (key, s.counter sel) :: cs.filter (fun c => c.1 != key)) s.obs.counts

/-- The selectors of the counters whose block parks with a quadrant (15 R398): its cores and merge buffers, and with a deep park its
slices. -/
def parkedSelectors (q : Nat) (deep : Bool) : List (BitVec 16) :=
  let sel (e i : Nat) : BitVec 16 := BitVec.ofNat 16 (e + 256 * i)
  ([0x02, 0x03, 0x04, 0x05, 0x06, 0x07, 0x0C].flatMap (fun e => (List.range 16).map (fun i => sel e (16 * q + i))))
    ++ ((0x0B :: if deep then [0x08, 0x09] else []).flatMap (fun e => (List.range 4).map (fun i => sel e (4 * q + i))))

/-- QUADRANT_PARKED (16 R412 steps 4 and 5): nothing is resident on the quadrant, held local stores go to their images, and the counters
of what parks keep the values that they have (15 R398). -/
def execQuadrantParked (p q : Fin 8) (s : State) : Out :=
  let p := BitVec.ofFin p
  .next (
    let pt := s.partAt p
    if !pt.qpark.getLsbD q.val || !pt.qmask.getLsbD q.val || pt.qstate.getLsbD q.val
        || !(pt.unitsOn s.core.num.toNat q.val).isEmpty then s
    else
      let t := s.writeOutQuadrant q.val
      let bit := BitVec.ofNat 8 (2 ^ q.val)
      let shallow := pt.qdeep.getLsbD q.val && (s.dev.l2.uses q.val || s.collectiveBusy q.val)
      let counts := t.countsAfter (parkedSelectors q.val (pt.qdeep.getLsbD q.val && !shallow))
      (({ t with obs.counts := counts } : State).modPart p (fun k =>
        { k with qstate := k.qstate ||| bit, qshal := if shallow then k.qshal ||| bit else k.qshal })).ticked)

/-- COUNTER_SAMPLE (15 R399). DESIGN CHOICE, log entry 100: the first sample has number 0, and a row that its ring drops takes a number. -/
def execCounterSample (s : State) : Out :=
  .next (if !s.obs.sampler.getLsbD 0 then s
    else
      let o := s.obs
      let bs := s.rowBytes
      let t := if o.sampleRing.fits bs.length then s.putRing o.sampleRing bs else s
      ({ t with obs.sampleRing := o.sampleRing.after bs.length, obs.sample := o.sample + 1,
                obs.counts := s.countsAfter o.selectors } : State).ticked)

/-! Breakpoint slots as registers (15 R393, R400). -/

/-- The partition of a slot. -/
def Slot.part (b : Slot) : BitVec 3 := b.ctl.extractLsb' 4 3

/-- A word of a slot as a read returns it. -/
def Slot.word (b : Slot) (i : Nat) : Word64 :=
  match i with
  | 0 => b.ctl
  | 1 => b.lo.setWidth 64
  | 2 => b.hi.setWidth 64
  | _ => BitVec.ofNat 64 (b.hits.toNat + b.last.toNat * 2 ^ 32)

/-- A word of a slot written, reserved bits reading as zero; a write of the fourth clears hits. -/
def Slot.write (b : Slot) (i : Nat) (v : Word64) : Slot :=
  match i with
  | 0 => { b with ctl := BitVec.ofNat 64 (bits v 6 0 + bits v 63 32 * 2 ^ 32) }
  | 1 => { b with lo := v.setWidth 56 }
  | 2 => { b with hi := v.setWidth 56 }
  | _ => { b with hits := 0 }

/-- Changing a slot's registers. -/
def State.modSlot (s : State) (k : Fin 8) (f : Slot → Slot) : State :=
  { s with obs.written := s.obs.written.set k.val (f s.obs.written[k]) }

/-- hits is cleared, at the registers and in the slot in force (15 R400). -/
def State.clearHits (s : State) (k : Fin 8) : State :=
  let t := s.modSlot k (fun b => { b with hits := 0 })
  { t with obs.slots := t.obs.slots.set k.val { t.obs.slots[k] with hits := 0 } }

/-- A write of a slot's word: through a partition's block it reaches only slots of that partition, and part keeps its value. -/
def State.setSlot (s : State) (via : Option (BitVec 3)) (k : Fin 8) (i : Nat) (v : Word64) : State :=
  if via.any (fun p => s.obs.written[k].part != p) then s
  else if 3 ≤ i then s.clearHits k
  else
    let v' := match via with
      | some p => if i == 0 then (v &&& ~~~ (0x70 : Word64)) ||| (p.setWidth 64 <<< 4) else v
      | none => v
    s.modSlot k (fun b => b.write i v')

/-- BKPT (15 R393, R400). -/
def execBkpt (viaPart : Option (Fin 8)) (slot : Fin 8) (word : Fin 4) (v : Word64) (s : State) : Out :=
  .next (s.ifUp (s.setSlot (viaPart.map BitVec.ofFin) slot word.val v))

/-- BREAKPOINT_SLOT_ACTIVATION (15 R400): the written slot takes effect. -/
def execBreakpointSlotActivation (slot : Fin 8) (s : State) : Out :=
  let w := s.obs.written[slot]
  .next { s with obs.slots := s.obs.slots.set slot.val { s.obs.slots[slot] with ctl := w.ctl, lo := w.lo, hi := w.hi } }

/-- The bits of the match register cleared by a write. -/
def State.clearMatch (s : State) (mask : BitVec 8) : State := { s with obs.matched := s.obs.matched &&& ~~~ mask }

/-- MATCH_CLEAR (15 R400). -/
def execMatchClear (mask : BitVec 8) (s : State) : Out := .next (s.ifUp (s.clearMatch mask))

/-- HITS_CLEAR (15 R400). -/
def execHitsClear (slot : Fin 8) (s : State) : Out := .next (s.ifUp (s.clearHits slot))

/-! Whole-state capture (15 R403, R404; 18 R444). -/

/-- A write of the capture control register with arm = 1: the registers keep a capture until then. -/
def State.setArm (s : State) (arm onseq onbrk onmc : Bool) (seqMatch : BitVec 32) : State :=
  let n := s.obs.snap
  { s with obs.snap := { n with arm := arm, onseq := onseq, onbrk := onbrk, onmc := onmc, seqMatch := seqMatch,
                                done := n.done && !arm, src := if arm then 0 else n.src } }

/-- ARM (15 R403). -/
def execArm (onseq onbrk onmc : Bool) (seqMatch : BitVec 32) (s : State) : Out := .next (s.ifUp (s.setArm true onseq onbrk onmc seqMatch))

/-- FIRE (15 R403). -/
def execFire (s : State) : Out := .next (s.ifUp (s.trigger 0 true))

/-- Physical scalar registers that are free: 31 are mapped, and each younger write holds one (08 R207). -/
def Core.freeScalars (c : Core) : Nat := 128 - 31 - c.robScalars

/-- Physical tiles that are free: each mapped tile and each younger write holds one (08 R205, R206). -/
def Core.freeTiles (c : Core) : Nat := 512 - (c.unit.t.toList.filter (·.mapped)).length - c.robTiles

/-- The snapshot window of the modelled core (15 R404): none when it is a service core. -/
def State.coreWindow (s : State) : List (Nat × Word64) :=
  let c := s.core
  if c.service.isSome then []
  else
  let w (off : Nat) (v : Nat) : Nat × Word64 := (0x10000 + 0x100 * c.num.toNat + off, BitVec.ofNat 64 v)
  [w 0x00 s.latchWord.toNat, w 0x08 c.unit.ident.task.toNat,
   w 0x10 (c.rob.length + c.tileEntries * 2 ^ 16),
   w 0x18 (c.freeTiles + c.freeScalars * 2 ^ 16), w 0x20 (s.scalarStores + s.inFlight * 2 ^ 8),
   w 0x28 ((List.finRange 8).map (fun i => if c.unit.m[i].full then 2 ^ i.val else 0)).sum,
   w 0x30 s.k.repst.toNat]

/-- The words at 0x00 and 0x08 of the other cores' windows: as in their entries; a core with no unit is idle. -/
def State.otherWindows (s : State) : List (Nat × Word64) :=
  (List.range 128).flatMap (fun c =>
    let base := 0x10000 + 0x100 * c
    if c == s.core.num.toNat && s.core.service.isNone then []
    else
      match s.otherEntries.find? (fun e => e.core == c) with
      | some e => [(base, e.word), (base + 8, e.task.setWidth 64)]
      | none => [(base, Config.otherLatch base s.tick &&& BitVec.ofNat 64 (2 ^ 56 - 1))])

/-- The window of the modelled core's cluster (18 R444): what its spill engine does is a free value. -/
def State.clusterWindow (s : State) : List (Nat × Word64) :=
  let base := 0x30000 + 0x100 * (s.core.num.toNat / 4)
  [(base, BitVec.ofNat 64 (s.dev.merge.filter (fun e => !e.dispatched)).length), (base + 8, BitVec.ofNat 64 s.beryl.leafCache.length)]

/-- The windows of the slices: the generation and the directory entries. -/
def State.sliceWindows (s : State) : List (Nat × Word64) :=
  (List.finRange 32).flatMap (fun i =>
    [(0x50000 + 0x100 * i.val, s.dev.l2.slices[i].setWidth 64),
     (0x50008 + 0x100 * i.val, BitVec.ofNat 64 (s.dev.hier.dir.filter (fun e => s.dev.homeOf (e.1 * 128) == some i.val)).length)])

/-- The windows of the quadrants: the reclaimers' queues. -/
def State.quadWindows (s : State) : List (Nat × Word64) :=
  (List.range 8).map (fun q =>
    (0x70008 + 0x100 * q, BitVec.ofNat 64 (s.beryl.queue.filter (fun e => ownerOf e.2 == q)).length))

/-- The partition whose dispatcher stands in a quadrant: the one whose lowest quadrant it is (DEDUCED, log entry 38). -/
def State.dispatcherOf (s : State) (q : Nat) : Option Part :=
  s.parts.toList.find? (fun p => (maskBits p.qmask.toNat 8).head? == some q)

/-- The windows of the dispatchers: one that serves no partition has nothing. -/
def State.dispWindows (s : State) : List (Nat × Word64) :=
  (List.range 8).flatMap (fun q =>
    let base := 0x78000 + 0x100 * q
    let n (f : Part → Nat) : Word64 := BitVec.ofNat 64 ((s.dispatcherOf q).elim 0 f)
    [(base, n (fun p => (p.launches.filter (fun l => l.phase == .ready)).length)),
     (base + 8, n (fun p => (p.launches.map (fun l => (l.cores s.core.num.toNat).length)).sum)),
     (base + 0x10, n (fun p => p.heldEvents.length))])

/-- What every block latches in one cycle. -/
def State.windows (s : State) : List (Nat × Word64) :=
  s.coreWindow ++ s.otherWindows ++ s.clusterWindow ++ s.sliceWindows ++ s.quadWindows ++ s.dispWindows

/-- The capture that is due, of the state `at_` (15 R403). -/
def State.latchFrom (s at_ : State) : State :=
  match s.obs.snap.due with
  | none => s
  | some src =>
    ({ s with obs.snap := { s.obs.snap with
                arm := false, done := true, src := src, time := at_.stamp, due := none, windows := at_.windows } } : State).ticked

/-- A pulse in the cycle of a capture that is due: both latch one state. The capture clears arm, so that this pulse triggers none (15
R403). -/
def State.pulseAndLatch (s : State) : State :=
  if s.obs.snap.due.isNone then s
  else { ({ s with obs.snap.arm := false } : State).pulse with obs.snap := (s.latchFrom s).obs.snap }

/-- SNAPSHOT_LATCH (15 R403). -/
def execSnapshotLatch (s : State) : Out := .next (s.latchFrom s)

/-- The bits of the fields of a window register; 0 where no window lies (15 R404; 18 R444). -/
def windowMask (off : Nat) : Nat :=
  let f := off % 0x100
  if 0x10000 ≤ off && off < 0x18000 then
    match f with
    | 0x00 => 2 ^ 60 - 1
    | 0x08 => 2 ^ 32 - 1
    | 0x10 => 0x1FF01FF
    | 0x18 => 0xFF03FF
    | 0x20 => 0x3F3F
    | 0x28 => 0xFF
    | 0x30 => 2 ^ 64 - 1
    | _ => 0
  else if 0x30000 ≤ off && off < 0x32000 then
    match f with
    | 0x00 => 0x1F
    | 0x08 => 0xFFFF
    | 0x10 => 0xFF
    | _ => 0
  else if 0x50000 ≤ off && off < 0x52000 then
    match f with
    | 0x00 => 0xF
    | 0x08 => 0x1FFFF
    | 0x10 => 0xFF
    | _ => 0
  else if 0x70000 ≤ off && off < 0x70800 then
    match f with
    | 0x00 => 0x3F
    | 0x08 => 2 ^ 32 - 1
    | 0x10 => 0xFFFF
    | _ => 0
  else if 0x78000 ≤ off && off < 0x78800 then
    match f with
    | 0x00 => 0xFFFF
    | 0x08 => 0xFF
    | 0x10 => 0xFFFF
    | _ => 0
  else 0

/-- A read of a snapshot window: 0 before a capture; what the model does not hold of a block is a free value. -/
def State.readWindow (s : State) (off : Nat) : Word64 :=
  let n := s.obs.snap
  match n.windows.find? (fun w => w.1 == off) with
  | some w => w.2
  | none => if n.windows.isEmpty then 0 else Config.otherLatch off n.time.toNat &&& BitVec.ofNat 64 (windowMask off)

/-! The observation registers (15 R393 to R403), by offset. -/

/-- A ring's registers. -/
def ObsRing.read (r : ObsRing) (i : Nat) : Word64 :=
  match i with
  | 0 => BitVec.ofNat 64 r.base
  | 1 => r.size.setWidth 64
  | 2 => r.head.setWidth 64
  | 3 => r.tail.setWidth 64
  | _ => 0

/-- A write of a ring's register. -/
def ObsRing.write (r : ObsRing) (i : Nat) (v : Word64) : ObsRing :=
  match i with
  | 0 => { r with base := bits v 51 6 * 64, head := 0 }
  | 1 => { r with size := v.setWidth 32, head := 0 }
  | 3 => { r with tail := v.setWidth 32 }
  | _ => r

/-- A read of an observation register. -/
def State.obsRead (s : State) (off : Nat) : Word64 :=
  let o := s.obs
  let n := o.snap
  let flag (b : Bool) (i : Nat) : Nat := if b then 2 ^ i else 0
  if off == 0x0000 then BitVec.ofNat 64 (flag o.pulseEn 0 + o.period.toNat * 2 ^ 8)
  else if 0x0008 ≤ off && off < 0x0028 then o.pulseRing.read ((off - 0x0008) / 8)
  else if off == 0x0040 then o.sampler
  else if 0x0048 ≤ off && off < 0x0068 then o.sampleRing.read ((off - 0x0048) / 8)
  else if 0x0080 ≤ off && off < 0x0100 then (o.sels.toList.getD ((off - 0x0080) / 8) 0).setWidth 64
  else if 0x0100 ≤ off && off < 0x0200 then (o.written[Fin.ofNat 8 ((off - 0x0100) / 32)]).word (off % 32 / 8)
  else if off == 0x0200 then
    BitVec.ofNat 64 (flag n.arm 0 + flag n.onseq 2 + flag n.onbrk 3 + flag n.onmc 4 + n.seqMatch.toNat * 2 ^ 32)
  else if off == 0x0208 then BitVec.ofNat 64 (flag n.done 0 + n.src.toNat * 2)
  else if off == 0x0210 then n.time
  else if off == 0x0300 then o.matched.setWidth 64
  else if 0x10000 ≤ off then s.readWindow off
  else 0

/-- A write of an observation register. DESIGN CHOICE, log entry 100: one write that arms the snapshot and fires it arms first. -/
def State.obsWrite (s : State) (off : Nat) (v : Word64) : State :=
  let o := s.obs
  if off == 0x0000 then
    let t : State := { s with obs.pulseEn := v.getLsbD 0, obs.period := v.extractLsb' 8 32 }
    if v.getLsbD 1 then t.pulse else t
  else if 0x0008 ≤ off && off < 0x0028 then { s with obs.pulseRing := o.pulseRing.write ((off - 0x0008) / 8) v }
  else if off == 0x0040 then
    { s with obs.sampler := BitVec.ofNat 64 (bits v 0 0 + bits v 7 4 * 2 ^ 4 + bits v 39 8 * 2 ^ 8) }
  else if 0x0048 ≤ off && off < 0x0068 then { s with obs.sampleRing := o.sampleRing.write ((off - 0x0048) / 8) v }
  else if 0x0080 ≤ off && off < 0x0100 then { s with obs.sels := o.sels.setIfInBounds ((off - 0x0080) / 8) (v.setWidth 16) }
  else if 0x0100 ≤ off && off < 0x0200 then s.setSlot none (Fin.ofNat 8 ((off - 0x0100) / 32)) (off % 32 / 8) v
  else if off == 0x0200 then
    let t := s.setArm (v.getLsbD 0) (v.getLsbD 2) (v.getLsbD 3) (v.getLsbD 4) (v.extractLsb' 32 32)
    if v.getLsbD 1 then t.trigger 0 true else t
  else if off == 0x0300 then s.clearMatch (v.setWidth 8)
  else s

end Sys2Proof.Machine
end

