-- ==== Sys2Proof/Machine/Registers.lean ====
section
/-! DEFINITION. The device register space (16 R409): what a read returns and what a write does, over the operations of the
partitions, the observation block and the management block. -/

namespace Sys2Proof.Machine

/-- Bits [hi:lo] of a word in place. -/
def inPlace (v : Word64) (hi lo : Nat) : Word64 := BitVec.ofNat 64 (bits v hi lo * 2 ^ lo)

/-! The partition register block (16 R410). -/

/-- A read of a submission ring's register. -/
def Ring.read (r : Ring) (o : Nat) : Word64 :=
  match o with
  | 0x00 => r.sbase
  | 0x08 => BitVec.ofNat 64 (r.slog.toNat + (if r.sen then 2 ^ 8 else 0) + if r.ovr then 2 ^ 9 else 0)
  | 0x10 => r.shead.setWidth 64
  | 0x18 => r.stail.setWidth 64
  | _ => 0

/-- A read of a drive's entry (13 R355). -/
def Drive.read (d : Drive) (o : Nat) : Word64 :=
  if o == 0 then BitVec.ofNat 64 ((if d.dv then 1 else 0) + d.dport.toNat * 2 + d.dctl.toNat * 2 ^ 8) else d.nsid.setWidth 64

/-- A read of a register of partition p's block, offset o. -/
def State.partRead (s : State) (p : BitVec 3) (o : Nat) : Word64 :=
  let k := s.partAt p
  let flag (b : Bool) (i : Nat) : Nat := if b then 2 ^ i else 0
  if o < 0x100 then
    match o with
    | 0x000 => BitVec.ofNat 64 (k.qmask.toNat + flag k.en 8 + flag k.pmode 9 + k.irq.toNat * 2 ^ 10)
    | 0x008 => BitVec.ofNat 64 (k.qpark.toNat + k.qdeep.toNat * 2 ^ 8 + k.qstate.toNat * 2 ^ 16 + k.qshal.toNat * 2 ^ 24)
    | 0x010 => k.troot
    | 0x018 => k.tvecdef
    | 0x020 => k.tdlgdef
    | 0x028 => k.poolbase
    | 0x030 => k.poolsize
    | 0x038 => k.evbase
    | 0x040 => k.evlog
    | 0x048 => k.evhead.setWidth 64
    | 0x050 => k.evtail.setWidth 64
    | 0x058 => BitVec.ofNat 64 (k.coal.toNat + k.tmo.toNat * 2 ^ 16)
    | 0x060 => k.fbase
    | 0x068 => k.flog
    | 0x070 => k.fhead.setWidth 64
    | 0x078 => k.ftail.setWidth 64
    | 0x090 => k.savebase
    | 0x098 => k.savecnt
    | 0x0A0 => k.lsbase
    | 0x0A8 => k.budget
    | 0x0B0 => k.intvl
    | 0x0B8 => k.ecount + Config.energyUsed p.toNat s.tick
    | 0x0C0 => if k.budget == 0 then 0 else k.eremain
    | 0x0C8 => BitVec.ofNat 64 (flag k.closing 0)
    | 0x0D0 => k.jobcnt
    | _ => 0
  else if o < 0x300 then (k.rings[Fin.ofNat 8 ((o - 0x100) / 0x40)]).read (o % 0x40)
  else if 0x400 ≤ o && o < 0x500 then (k.drives[Fin.ofNat 16 ((o - 0x400) / 16)]).read (o % 16)
  else if 0x500 ≤ o && o < 0x580 then
    let w := k.windows[Fin.ofNat 8 ((o - 0x500) / 16)]
    if o % 16 == 0 then w.ctl else w.len
  else if 0x800 ≤ o && o < 0x900 then
    let b := s.obs.written[Fin.ofNat 8 ((o - 0x800) / 32)]
    if b.part == p then b.word (o % 32 / 8) else 0
  else 0

/-- A plain field of a partition's registers as a write leaves it; registers that are read only, or whose write does more, do not
change. -/
def Part.plainWrite (k : Part) (o : Nat) (v : Word64) : Part :=
  match o with
  | 0x000 => { k with pmode := v.getLsbD 9, irq := v.extractLsb' 10 2 }
  | 0x010 => { k with troot := inPlace v 51 14 ||| inPlace v 0 0 }
  | 0x018 => { k with tvecdef := inPlace v 55 2 }
  | 0x028 => { k with poolbase := inPlace v 51 7 }
  | 0x030 => { k with poolsize := inPlace v 12 0 }
  | 0x038 => { k with evbase := inPlace v 51 5 }
  | 0x040 => { k with evlog := inPlace v 4 0 }
  | 0x050 => { k with evtail := v.setWidth 32 }
  | 0x058 => { k with coal := v.setWidth 16, tmo := v.extractLsb' 16 32 }
  | 0x060 => { k with fbase := inPlace v 51 6 }
  | 0x068 => { k with flog := inPlace v 4 0 }
  | 0x078 => { k with ftail := v.setWidth 32 }
  | 0x090 => { k with savebase := inPlace v 51 12 }
  | 0x098 => { k with savecnt := inPlace v 15 0 }
  | 0x0A0 => { k with lsbase := inPlace v 51 19 }
  | 0x0A8 => k.setBudget v
  | 0x0B0 => { k with intvl := v }
  | _ => k

/-- A write of a submission ring's register: srst resets the ring (16 R422). -/
def State.ringWrite (s : State) (p : BitVec 3) (k : Fin 8) (o : Nat) (v : Word64) : State :=
  match o with
  | 0x00 => s.modPart p (fun q => q.modRing k (fun r => { r with sbase := inPlace v 51 7 }))
  | 0x08 =>
    s.modPart p (fun q => q.modRing k (fun r =>
      let r : Ring := { r with slog := v.setWidth 4, sen := v.getLsbD 8 }
      if v.getLsbD 10 then { r with shead := 0, stail := 0, ovr := false } else r))
  | 0x18 => s.setStail p k (v.setWidth 32)
  | _ => s

/-- A write of a drive's entry, and of a window's word (13 R355; 16 R425). -/
def Drive.write (d : Drive) (o : Nat) (v : Word64) : Drive :=
  if o == 0 then { d with dv := v.getLsbD 0, dport := v.extractLsb' 1 2, dctl := v.extractLsb' 8 16 } else { d with nsid := v.setWidth 32 }
@[inherit_doc Drive.write] def Window.write (w : Window) (o : Nat) (v : Word64) : Window :=
  if o == 0 then { w with ctl := inPlace v 51 12 ||| inPlace v 8 0 } else { w with len := inPlace v 39 0 }

/-- A write comes from a service core: what R410 and R442 call firmware. -/
def isFirmware : Source → Bool
  | .service _ => true
  | .port _ => false

/-- A write of a register of partition p's block. One that names memory gives it its place among what the blocks name (log entry 68). -/
def State.partWrite (s : State) (src : Source) (p : BitVec 3) (o : Nat) (v : Word64) : State :=
  if o < 0x100 then
    let t := (s.modPart p (fun k => k.plainWrite o v)).nameMemory p
    match o with
    | 0x000 => t.guard src (fun t => t.setQmask p (v.setWidth 8) (v.getLsbD 8))
    | 0x008 => t.guard src (fun t => t.setQpark p (v.setWidth 8) (v.extractLsb' 8 8))
    | 0x020 => if isFirmware src then t.modPart p (fun k => { k with tdlgdef := inPlace v 36 1 }) else t
    | 0x080 => t.resumeRequest p (v.setWidth 32) (v.extractLsb' 32 1)
    | 0x088 => t.requestEvict p (v.setWidth 32) .supervisor
    | 0x098 => t.dropRequests p
    | 0x0C8 => if v.getLsbD 0 then (t.modPart p (fun k => { k with closing := true })).closeJob p else t
    | _ => t
  else if o < 0x300 then (s.ringWrite p (Fin.ofNat 8 ((o - 0x100) / 0x40)) (o % 0x40) v).nameMemory p
  else if 0x400 ≤ o && o < 0x500 then
    s.modPart p (fun k => { k with drives := k.drives.mapIdx (fun i d => if i == (o - 0x400) / 16 then d.write (o % 16) v else d) })
  else if 0x500 ≤ o && o < 0x580 then
    s.modPart p (fun k => { k with windows := k.windows.mapIdx (fun i w => if i == (o - 0x500) / 16 then w.write (o % 16) v else w) })
  else if 0x800 ≤ o && o < 0x900 then s.setSlot (some p) (Fin.ofNat 8 ((o - 0x800) / 32)) (o % 32 / 8) v
  else s

/-! The device control registers (16 R416, R418, R423). -/

/-- A link's register. -/
def Link.read (l : Link) : Word64 := BitVec.ofNat 64 ((if l.up then 1 else 0) + l.far.toNat * 2 + l.retry.toNat * 2 ^ 32)

/-- A read of a device control register. The remaining lease is a free value within the lease (log entry 11). -/
def State.ctlRead (s : State) (o : Nat) : Word64 :=
  let m := s.dev.sem
  let c := s.dev.clk
  let flag (b : Bool) (i : Nat) : Nat := if b then 2 ^ i else 0
  if o == 0x0000 then
    let left := if m.held then min m.lease.toNat (Config.leaseLeft m.lease.toNat s.tick).toNat else 0
    BitVec.ofNat 64 (m.owner.toNat + flag m.held 16 + flag m.gerr 17 + left * 2 ^ 18)
  else if o == 0x0008 then
    BitVec.ofNat 64 (c.req.toNat + flag c.pend 2 + c.cur.toNat * 2 ^ 3 + flag c.abnd 5 + c.wlim.toNat * 2 ^ 16)
  else if o == 0x0010 then s.dev.devnum.setWidth 64
  else if 0x0020 ≤ o && o < 0x0080 then (s.dev.links[Fin.ofNat 12 ((o - 0x0020) / 8)]).read
  else 0

/-- A write of the semaphore register (16 R418). -/
def State.semWrite (s : State) (v : Word64) : State :=
  let owner : BitVec 16 := v.setWidth 16
  let lease : BitVec 30 := v.extractLsb' 18 30
  let m := s.dev.sem
  match bits v 63 62 with
  | 0 => if m.held || lease == 0 then s else { s with dev.sem := { m with owner := owner, held := true, lease := lease } }
  | 1 => if s.holds owner then { s with dev.sem.held := false } else s
  | 2 => if s.holds owner && lease != 0 then { s with dev.sem.lease := lease } else s
  | _ => { s with dev.sem.gerr := false }

/-- A write of a device control register. -/
def State.ctlWrite (s : State) (src : Source) (o : Nat) (v : Word64) : State :=
  match o with
  | 0x0000 => s.semWrite v
  | 0x0008 => s.guard src (fun t => t.setReq (v.setWidth 2) (v.extractLsb' 16 32))
  | 0x0010 => s.guard src (fun t => { t with dev.devnum := v.setWidth 3 })
  | _ => s

/-- A write of a management register (18 R442). -/
def State.mgmtWrite (s : State) (src : Source) (o : Nat) (v : Word64) : State :=
  let m := s.mgmt
  match o with
  | 0x010 => if isFirmware src && !m.lock then { s with mgmt.clklim := clampClock (bits v 11 0) } else s
  | 0x020 => { s with mgmt.plim := min (bits v 10 0) 1200 }
  | 0x040 => if v.getLsbD 0 then s.setGo (bits v 51 12 * 4096) else { s with mgmt.abuf := bits v 51 12 * 4096 }
  | 0x050 => if isFirmware src && !m.lock then { s with mgmt.btab := bits v 51 9 * 512 } else s
  | 0x058 => s.guard src (fun t => t.announce (v.setWidth 16))
  | 0x068 => if isFirmware src && v.getLsbD 0 then s.setLock else s
  | _ => s

/-! The register space (16 R409). -/

/-- The first address of the register space. -/
def deviceBase : Nat := 0x8000000000000

/-- A read of a device register. In recovery mode the management registers still answer as R447 says. -/
def State.deviceRead (s : State) (pa : Nat) : Word64 :=
  let o := pa - deviceBase
  if pa < deviceBase then 0
  else if 0x200000 ≤ o && o < 0x300000 then (if s.mgmt.boot == .tripped then 0 else s.mgmtValue (o - 0x200000))
  else if !s.deviceUp then 0
  else if o < 0x100000 then s.obsRead o
  else if o < 0x180000 then s.partRead (BitVec.ofNat 3 ((o - 0x100000) / 0x10000)) (o % 0x10000)
  else if o < 0x190000 then s.ctlRead (o - 0x180000)
  else 0

/-- A write of a device register. -/
def State.deviceWrite (s : State) (src : Source) (pa : Nat) (v : Word64) : State :=
  let o := pa - deviceBase
  if pa < deviceBase || !s.deviceUp then s
  else if o < 0x100000 then s.obsWrite o v
  else if o < 0x180000 then s.partWrite src (BitVec.ofNat 3 ((o - 0x100000) / 0x10000)) (o % 0x10000) v
  else if o < 0x190000 then s.ctlWrite src (o - 0x180000) v
  else if 0x200000 ≤ o && o < 0x300000 then s.mgmtWrite src (o - 0x200000) v
  else s

/-- REGISTER_WRITE (16 R409, R410): one aligned 8-byte write of a control port or a service core. -/
def execRegisterWrite (src : Source) (addr : Nat) (v : Word64) (s : State) : Out :=
  .next (if addr % 8 == 0 then s.deviceWrite src addr v else s)

/-! Host requests (16 R420). -/

/-- The address is that of a host request: a partition register block, the device control registers (16 R420) or the management
registers (18 R442). -/
def hostRegister (addr : Nat) : Bool :=
  (decide (deviceBase + 0x100000 ≤ addr) && decide (addr < deviceBase + 0x190000))
    || (decide (deviceBase + 0x200000 ≤ addr) && decide (addr < deviceBase + 0x300000))

/-- The quadrant whose service core carries a host request out (16 R420): of ring k, quadrant k; of another register of a partition, its
lowest quadrant; else quadrant 0. -/
def State.servingQuadrant (s : State) (addr : Nat) : Nat :=
  let o := addr - deviceBase
  if o < 0x180000 then
    let r := o % 0x10000
    if 0x100 ≤ r && r < 0x300 then (r - 0x100) / 0x40
    else ((maskBits (s.partAt (BitVec.ofNat 3 ((o - 0x100000) / 0x10000))).qmask.toNat 8).head?).getD 0
  else 0

/-- A host request arrives at the device, behind those that wait; of one cycle, that of port 0 goes first (16 R420).
DESIGN CHOICE, log entry 94: an access that is not one aligned 8-byte access reaches no register (R409). -/
def State.hostArrives (s : State) (port : Fin 2) (sameCycle : Bool) (addr : Nat) (v : Option Word64) : State :=
  if addr % 8 != 0 || !hostRegister addr || !s.deviceUp then s
  else
    let r : HostRequest := ⟨s.servingQuadrant addr, port, addr, v⟩
    let swap := sameCycle && port == 0 && (s.dev.requests.getLast?.map (·.port)) == some 1
    { s with dev.requests := if swap then s.dev.requests.dropLast ++ r :: s.dev.requests.getLast?.toList else s.dev.requests ++ [r] }

/-- The service core of a quadrant carries out the oldest of its host requests (16 R420). -/
def State.serveHost (s : State) (quadrant : Nat) : State :=
  match s.dev.requests.find? (fun r => r.quadrant == quadrant) with
  | none => s
  | some r =>
    let t : State := { s with dev.requests := s.dev.requests.erase r }
    r.value.elim t (t.deviceWrite (.port r.port) r.addr)

end Sys2Proof.Machine
end

