-- ==== Sys2Proof/Machine/ScalarMem.lean ====
section
/-! DEFINITION. Scalar loads and stores, opcodes 0x24 to 0x28 (05 R148 to R151; 01 R27 to R32; 10 R264; 11 R280, R281,
R289; 16 R408, R409). -/

namespace Sys2Proof.Machine

/-- The address of a scalar access (05 R149). -/
def State.ea (s : State) (a : BitVec 5) (off : BitVec 12) : Nat := addrOf (s.x a + off.signExtend 64)

/-- The size in bytes (03 R72). -/
def sizeBytes (sz : BitVec 3) : Nat := 2 ^ sz.toNat

/-- Every block of an access is cacheable. -/
def XMap.allCached (m : XMap) : Bool := m.all (fun e => e.2.attr == 0)

/-- The youngest retired store that overlaps a range, or writes the same bytes at another address (11 R274). -/
def youngestOverlap (sb : List SbEntry) (va n : Nat) (rs : List Run) : Option SbEntry :=
  (sb.filter (fun e => overlap e.va e.len va n || e.meets rs)).getLast?

/-- A scalar store (01 R30). -/
def SbKind.isScalar : SbKind → Bool
  | .scalar => true
  | .release _ => true
  | _ => false

/-- The bytes that a load takes from the store buffer (01 R30): its range lies wholly within the youngest overlapping
store, which is a scalar store to cacheable memory. -/
def State.forwarded (s : State) (va n : Nat) (rs : List Run) : Option (List Byte) :=
  match youngestOverlap s.core.sb va n rs with
  | none => none
  | some e =>
    if e.kind.isScalar && e.cached && decide (e.va ≤ va) && decide (va + n ≤ e.va + e.len) then
      some (((e.writes.map (·.2)).flatten.drop (va - e.va)).take n)
    else none

/-- How a load reads its bytes. -/
inductive LoadPath where
  /-- Through the L1. -/
  | cache
  /-- At the home: an acquiring read at .dev or .sys (11 R281), and every read of a service core (16 R408). -/
  | home
  deriving DecidableEq, Repr

/-- The value of one loaded byte, by its block's attribute. -/
def State.loadByte (s : State) (m : XMap) (path : LoadPath) (va : Nat) : Byte :=
  let cached := ((m.leaf va).map (fun x => x.attr == 0)).getD false
  if !cached then s.memByte (m.pa va) else if path == .cache then s.cacheByte (m.pa va) else s.mem.read (m.pa va)

/-- A loaded byte is uncorrectable. -/
def State.loadBad (s : State) (m : XMap) (path : LoadPath) (va : Nat) : Bool :=
  let cached := ((m.leaf va).map (fun x => x.attr == 0)).getD false
  let g := granuleOf (m.pa va)
  if !cached then s.memBad g else if path == .cache then s.cacheBad (m.pa va) else s.badGranule g

/-- Some block of an access is a device page (10 R264). -/
def XMap.device (m : XMap) : Bool := m.any (fun e => e.2.attr == 2)

/-- What a load returns, with the state after it: forwarded bytes, or the bytes read once every older overlapping store is
performed. Uncorrectable data is a machine check with the lowest such byte in k.tval (05 R150, 14 R376). -/
def State.loadBytes (s : State) (m : XMap) (path : LoadPath) (va n : Nat) : Run? (List Byte × State) := do
  match if m.allCached && path == .cache then s.forwarded va n (m.runs va n) else none with
  | some bs => .ok (bs, s)
  | none =>
    let runs := m.runs va n
    let s1 ← s.settleIf (fun e => overlap e.va e.len va n || e.meets runs || (m.device && e.device))
    let s2 := if path == .home then (runs.map (fun r => linesOf r.pa r.len)).flatten.foldl State.writeBackLine s1 else s1
    match (List.range n).find? (fun i => s2.loadBad m path (va + i)) with
    | some i => .error (.trap .machineCheck (BitVec.ofNat 64 (va + i)) (m.pa (va + i)))
    | none =>
      let bs := (List.range n).map (fun i => s2.loadByte m path (va + i))
      let s3 := if path == .cache then
          m.foldl (fun s e => if e.2.attr == 0 then (runs.filter (fun r => r.pa / 4096 == m.pa (e.1 * 4096) / 4096)).foldl
            (fun s r => s.fillLines r.pa r.len) s else s) s2
        else s2
      .ok (bs, s3)

/-- An access to the register space is one aligned 8-byte access, as 16 R409 obliges software. -/
def registerAligned (pa n : Nat) : Bool := n == 8 && pa % 8 == 0

/-- The address is that of a register, or of an observation register (16 R409); every other one from 2^51 is reserved. -/
def registerSpace (pa : Nat) : Bool := hostRegister pa || (decide (deviceBase ≤ pa) && decide (pa < deviceBase + 0x100000))

/-- What a service core loads from the register space: reserved bytes read 0 (16 R409). DESIGN CHOICE, log entry 94: an access of registers
that is not one aligned 8-byte access returns open bytes. -/
def State.registerBytes (s : State) (pa n : Nat) : List Byte :=
  if registerAligned pa n then leBytes 8 (s.deviceRead pa).toNat
  else (List.range n).map (fun i => if registerSpace (pa + i) then Config.brokenRead i s.tick else 0)

/-- The quadrant of a service core. -/
def State.serviceSource (s : State) : Source := .service ((s.core.service.map (·.toNat)).getD 0)

/-- The bytes of a load with its checks (05 R149). -/
def State.load (s : State) (path : LoadPath) (va n : Nat) : Run? (List Byte × State) := do
  needAddr va n
  let m ← s.access .read false [(va, n)] (path == .home || s.core.service.isSome)
  if s.core.service.isSome then
    if 2 ^ 51 ≤ m.pa va then
      let s1 ← s.settleStores
      .ok (s1.registerBytes (m.pa va) n, s1.ticked)
    else s.loadBytes m .home va n
  else
    let (bs, s1) ← s.loadBytes m path va n
    .ok (bs, s1.touchAll .read m)

/-- A loaded value in its register or pair (05 R149). -/
def State.setLoaded (s : State) (d : BitVec 5) (sz : BitVec 3) (signed : Bool) (bs : List Byte) : State :=
  let v := leNat bs
  let n := sizeBytes sz
  if n == 16 then s.setPair d (BitVec.ofNat 64 v) (BitVec.ofNat 64 (v / 2 ^ 64))
  else s.setX d (if signed then BitVec.ofInt 64 (signedOf n v) else BitVec.ofNat 64 v)

/-- ld (05 R149). -/
def execLd (d a : BitVec 5) (sz : BitVec 3) (off : BitVec 12) (s : State) : Out :=
  s.finish (do
    let (bs, s1) ← s.load .cache (s.ea a off) (sizeBytes sz)
    .ok (s1.setLoaded d sz true bs).advance)

/-- ldz (05 R149). -/
def execLdz (d a : BitVec 5) (sz : BitVec 3) (off : BitVec 12) (s : State) : Out :=
  s.finish (do
    let (bs, s1) ← s.load .cache (s.ea a off) (sizeBytes sz)
    .ok (s1.setLoaded d sz false bs).advance)

/-- ld.acq (05 R151; 11 R281): at .dev and .sys the read is performed at the home, then the acquire actions follow. -/
def execLdAcq (d a : BitVec 5) (sz : BitVec 3) (scope : BitVec 2) (s : State) : Out :=
  s.finish (do
    let (bs, s1) ← s.load (if 2 ≤ scope.toNat then .home else .cache) (s.ea a 0) (sizeBytes sz)
    .ok ((s1.acquire scope).setLoaded d sz true bs).advance)

/-- The data of a store (05 R149). -/
def State.storeData (s : State) (r : BitVec 5) (sz : BitVec 3) : List Byte :=
  if sizeBytes sz == 16 then leBytes 8 (s.x r).toNat ++ leBytes 8 (s.x (r + 1)).toNat else leBytes (sizeBytes sz) (s.x r).toNat

/-- The store-buffer entry of a scalar store (08 R213): its bytes on cacheable pages, and those on the others. -/
def State.storeEntry (s : State) (m : XMap) (kind : SbKind) (va : Nat) (bs : List Byte) : SbEntry :=
  let id := s.core.unit.ident
  let parts := (blocksOf va bs.length).map (fun b =>
    (b, (bs.drop (b - va)).take (min (va + bs.length) ((b / 4096 + 1) * 4096) - b)))
  let cached (w : Nat × List Byte) : Bool := ((m.leaf w.1).map (fun x => x.attr == 0)).getD false
  { kind := kind, va := va, len := bs.length, writes := ((parts.filter cached).map m.split).flatten,
    raw := ((parts.filter (fun w => !cached w)).map m.split).flatten, runs := [], cached := m.allCached, device := m.device,
    poison := [], part := id.part, task := id.task, launch := id.launch }

/-- A scalar store with its checks (05 R149; 01 R27). A service core's write of a device register is performed at once,
after every older store; DESIGN CHOICE, log entry 94: one that is not one aligned 8-byte access writes no register. -/
def State.store (s : State) (kind : SbKind) (va : Nat) (bs : List Byte) : Run? State := do
  needAddr va bs.length
  let m ← s.access .write false [(va, bs.length)]
  if s.core.service.isSome && decide (2 ^ 51 ≤ m.pa va) then
    let s1 ← s.settleStores
    .ok (if registerAligned (m.pa va) bs.length then s1.deviceWrite s.serviceSource (m.pa va) (BitVec.ofNat 64 (leNat bs)) else s1)
  else (s.touchAll .write m).pushStore (s.storeEntry m kind va bs)

/-- st (05 R149). -/
def execSt (r a : BitVec 5) (sz : BitVec 3) (off : BitVec 12) (s : State) : Out :=
  s.finish (do
    let s1 ← s.store .scalar (s.ea a off) (s.storeData r sz)
    .ok s1.advance)

/-- st.rel (05 R151; 11 R289): the release write is performed when it is the oldest in the store buffer. -/
def execStRel (r a : BitVec 5) (sz : BitVec 3) (scope : BitVec 2) (s : State) : Out :=
  s.finish (do
    let s1 ← s.store (.release scope) (s.ea a 0) (s.storeData r sz)
    .ok s1.advance)

end Sys2Proof.Machine
end

