-- ==== Sys2Proof/Machine/Atomics.lean ====
section
/-! DEFINITION. Atomics, posted reductions, fences and cache maintenance, opcodes 0x29 to 0x2C (11 R280 to R294;
10 R268, R269). -/

namespace Sys2Proof.Machine

/-- The width of an atomic (03 R84). -/
def amoBytes (sz : BitVec 1) : Nat := if sz == 1 then 8 else 4

/-- The ordering field holds a release, or an acquire (03 R83). -/
def ordRel (ord : BitVec 2) : Bool := ord.getLsbD 1
@[inherit_doc ordRel] def ordAcq (ord : BitVec 2) : Bool := ord.getLsbD 0

/-- ATOMIC_ALIGN (11 R290). -/
def needAligned (ea n : Nat) : Run? Unit := need (ea % n == 0) .atomicAlign (BitVec.ofNat 64 ea)

/-- amo (11 R290, R291). -/
def execAmo (d a b : BitVec 5) (ord scope : BitVec 2) (sz : BitVec 1) (op : BitVec 4) (s : State) : Out :=
  s.finish (do
    let ea := addrOf (s.x a)
    let n := amoBytes sz
    needAligned ea n
    let m ← s.access .readWrite true [(ea, n)]
    let s1 ← (s.touchAll .readWrite m).settleStores
    let s1 ← s1.settle ea n (m.runs ea n)
    let s2 ← if ordRel ord then s1.release scope else .ok s1
    let pa := m.pa ea
    let s3 := (linesOf pa n).foldl State.dropLine s2
    if s3.homeBad pa n then .error (.trap .machineCheck (BitVec.ofNat 64 ea) pa)
    let old := s3.mem.readNat pa n
    let new := amoFn op n old (truncTo n (s.x b)) (truncTo n (s.x d))
    let s4 := (s3.ownHomeWrite pa (leBytes n new)).setX d (BitVec.ofInt 64 (signedOf n old))
    .ok (if ordAcq ord then s4.acquire scope else s4).advance)

/-- ared (11 R292): it retires into the store buffer once its checks pass. -/
def execAred (a b : BitVec 5) (ord scope : BitVec 2) (sz : BitVec 1) (op : BitVec 4) (s : State) : Out :=
  s.finish (do
    let ea := addrOf (s.x a)
    let n := amoBytes sz
    needAligned ea n
    let m ← s.access .readWrite true [(ea, n)]
    let id := s.core.unit.ident
    let e : SbEntry :=
      { kind := .ared op n (s.x b) (ordRel ord) scope, va := ea, len := n, writes := [(m.pa ea, [])], runs := [],
        raw := [], cached := true, device := false, poison := [], part := id.part, task := id.task, launch := id.launch }
    let s1 ← (s.touchAll .readWrite m).pushStore e
    .ok s1.advance)

/-- fence (11 R288): release actions, then acquire actions. -/
def execFence (scope : BitVec 2) (s : State) : Out :=
  s.finish (do
    let s1 ← s.release scope
    .ok (s1.acquire scope).advance)

/-- fence.acq (11 R288): every older load is performed when it retires. -/
def execFenceAcq (scope : BitVec 2) (s : State) : Out := .next (s.acquire scope).advance

/-- fence.rel (11 R288). -/
def execFenceRel (scope : BitVec 2) (s : State) : Out :=
  s.finish (do
    let s1 ← s.release scope
    .ok s1.advance)

/-- The path of a class code (03 R85). -/
def pathOf (c : BitVec 3) : Path :=
  match c.toNat with
  | 0 => .c
  | 1 => .y
  | 2 => .l
  | 3 => .f
  | _ => .h

/-- The invalidations that the home writes of a path sent are complete (10 R249). -/
def State.completeInvals (s : State) (p : Path) : State :=
  ((s.core.invals.filter (fun e => e.2 == p)).map (·.1)).foldl State.invalDone s

/-- xfence (11 R293). -/
def execXfence (src dst : BitVec 3) (s : State) : Out :=
  s.finish (do
    let s1 ← if src == 0 then s.release 2 else .ok (s.completeInvals (pathOf src))
    .ok (if dst == 0 then s1.acquire 2 else s1).advance)

/-- The page allows reads or writes at a level (10 R269). -/
def rangeLeafOk (x : Xl) (pl : BitVec 2) : Bool := (x.pte.getLsbD 5 || x.pte.getLsbD 6) && (pl != 0 || x.pte.getLsbD 8)

/-- The 4 KiB blocks that n bytes from va touch. -/
def blockCount (va n : Nat) : Nat := if n == 0 then 0 else (va + n - 1) / 4096 - va / 4096 + 1

/-- The translation of a block of a maintenance range: that of the page just translated, or its own (10 R266, R269). -/
def State.rangeLeaf (s : State) (last : Option (Nat × Xl)) (b : Nat) : Except Cause Xl :=
  match samePage last b with
  | some x => .ok x
  | none =>
    if s.core.service.isSome then .ok (serviceXl b)
    else match s.tlbHit s.part b .read with
      | some x => .ok x
      | none => s.walk s.part b

/-- The translations of a maintenance range (10 R269), so many blocks from b on, lowest first: a page needs a valid translation
that allows reads or writes, and the first that has none ends the range. -/
def State.rangeBlocks (s : State) (last : Option (Nat × Xl)) : Nat → Nat → Run? XMap
  | 0, _ => .ok []
  | k + 1, b =>
    match s.rangeLeaf last b with
    | .error c => .error (.trap c (BitVec.ofNat 64 b) 0)
    | .ok x => do
      need (rangeLeafOk x s.k.pl) .protection (BitVec.ofNat 64 b)
      let m ← s.rangeBlocks (some (b, x)) k ((b / 4096 + 1) * 4096)
      .ok ((b / 4096, x) :: m)

/-- The home's side of cwbr and cinv at .sys (10 R268): the slice writes the line back, and for cinv gives it up. -/
def State.maintainHome (s : State) (drop : Bool) (line : Nat) : State :=
  let s : State := { s with dev := s.dev.l2Clean line }
  if drop then (s.l2Drop line).dirKeep [line] 0 else s

/-- cwbr and cinv (10 R268, R269): each line of the range on a cacheable page is written back, and for cinv invalidated. The pages
have their physical checks (R254, R257, R258). -/
def State.maintain (s : State) (va n : Nat) (scope : BitVec 2) (drop : Bool) : Run? State := do
  if n == 0 then .ok s
  else do
    needAddr va n
    let m ← s.rangeBlocks none (blockCount va n) va
    s.physCheck false m (m.map (fun e => max va (e.1 * 4096)))
    let s1 ← s.settle va n (m.map (fun e => ⟨e.2.paOf (e.1 * 4096), 4096⟩))
    let runs := (m.filter (fun e => e.2.attr == 0)).map (fun e =>
      let lo := max va (e.1 * 4096)
      (m.pa lo, min (va + n) ((e.1 + 1) * 4096) - lo))
    let lines := (runs.map (fun r => linesOf r.1 r.2)).flatten
    needTaken ((m.map (fun e => max va (e.1 * 4096))).all (s.walkTaken .read) && s1.homesAccept lines)
    let s2 := s1.touchAll .read m
    let s3 := if 2 ≤ scope.toNat then lines.foldl (if drop then State.dropLine else State.writeBackLine) s2 else s2
    .ok (if scope == 3 then lines.foldl (fun s l => s.maintainHome drop l) s3 else s3)

/-- cwbr (10 R268). -/
def execCwbr (a b : BitVec 5) (scope : BitVec 2) (s : State) : Out :=
  s.finish (do
    let s1 ← s.maintain (addrOf (s.x a)) (s.x b).toNat scope false
    .ok s1.advance)

/-- cinv (10 R268). -/
def execCinv (a b : BitVec 5) (scope : BitVec 2) (s : State) : Out :=
  s.finish (do
    let s1 ← s.maintain (addrOf (s.x a)) (s.x b).toNat scope true
    .ok s1.advance)

end Sys2Proof.Machine
end

