-- ==== Sys2Proof/Machine/Beryl.lean ====
section
/-! DEFINITION. The Beryl instructions, opcodes 0x30 to 0x37 (12 R297 to R319, R324, R327). Each form but tldb executes at
the head of the reorder buffer when every older access has been performed (R308). -/

namespace Sys2Proof.Machine

/-! Names. -/

/-- The 128-bit value of a register pair (12 R298). -/
def State.pair (s : State) (r : BitVec 5) : BitVec 128 := s.x (r + 1) ++ s.x r

/-- Writing a name to a register pair. -/
def State.setName (s : State) (r : BitVec 5) (n : BitVec 128) : State :=
  s.setPair r (n.setWidth 64) ((n >>> 64).setWidth 64)

/-- BERYL_REGION (12 R297). -/
def State.needRegion (s : State) (rg : BitVec 4) : Run? Unit :=
  need ((s.region rg).usable s.part) .berylRegion (rg.setWidth 64)

/-- The name is live (12 R300, R302). -/
def Beryl.live (b : Beryl) (rg : BitVec 4) (name : BitVec 128) : Bool := (b.find rg name).isSome

/-- A new name of a slot is null or live (12 R311). -/
def State.needLive (s : State) (rg : BitVec 4) (name : BitVec 128) : Run? Unit :=
  need (name == 0 || s.beryl.live rg name) .berylName (name.setWidth 64)

/-- D of 12 R299: the first 16 bytes of the hash, little-endian. -/
def blockHash (salt : Word64) (node : Bool) (c : List Byte) : BitVec 128 :=
  BitVec.ofNat 128 (leNat ((Sha3.sha3_256 (leBytes 8 salt.toNat ++ (if node then 1 else 0) :: c)).take 16))

/-- The name of a prefix and an ordinal (12 R299). -/
def nameOf (d : BitVec 128) (ord : Nat) : BitVec 128 := BitVec.ofNat 128 (d.toNat / 4 * 4 + ord)

/-- The lowest free ordinal of a prefix (12 R299). -/
def Beryl.freeOrdinal (b : Beryl) (rg : BitVec 4) (d : BitVec 128) : Option Nat :=
  (List.range 4).find? (fun o => !(o == 0 && d.toNat / 4 == 0) && !b.live rg (nameOf d o))

/-- A free block of a region's pool: the lowest index not in use (DESIGN CHOICE, log entry 24; no instruction shows it). -/
def Beryl.freeBlock (b : Beryl) (rg : BitVec 4) (nblk : Nat) : Option Nat :=
  let used := (b.blocks.filter (fun k => k.region == rg)).map (·.index)
  (List.range (min nblk (used.length + 1))).find? (fun i => !used.contains i)

/-! bloa. -/

/-- The child names of a node image, in ascending order (12 R298). -/
def childrenOf (c : List Byte) : List (BitVec 128) :=
  (List.range 128).map (fun i => BitVec.ofNat 128 (leNat ((c.drop (16 * i)).take 16)))

/-- The first child of a node that is neither null nor live. -/
def Beryl.deadChild (b : Beryl) (rg : BitVec 4) (cs : List (BitVec 128)) : Option Nat :=
  (List.range cs.length).find? (fun i => cs.getD i 0 != 0 && !b.live rg (cs.getD i 0))

/-- The live block with a prefix, a kind and contents (12 R309). -/
def State.sameBlock (s : State) (rg : BitVec 4) (d : BitVec 128) (node : Bool) (c : List Byte) : Option Block :=
  s.beryl.blocks.find? (fun k => k.region == rg && k.name.toNat / 4 == d.toNat / 4 && k.node == node
    && s.mem.readBytes (s.blockPa k) blockSize == c)

/-- What bloa does at the owner (12 R309): the block's name and the state after it. -/
def State.lookupBlock (s : State) (rg : BitVec 4) (node : Bool) (c : List Byte) : Run? (BitVec 128 × State) :=
  let r := s.region rg
  let d := blockHash r.salt node c
  match s.sameBlock rg d node c with
  | some k => .ok (k.name, { s with beryl := s.beryl.ref rg k.name s.part })
  | none =>
    match s.beryl.freeOrdinal rg d with
    | none => .error (.trap .nameCollision (d.setWidth 64) 0)
    | some o =>
      match s.beryl.freeBlock rg r.nblk with
      | none => .error (.trap .berylFull (rg.setWidth 64) 0)
      | some i =>
        let k : Block := { region := rg, index := i, name := nameOf d o, node := node,
                           counts := (List.replicate 8 0).set s.part.toNat 1, part := s.part, queued := false }
        let t := s.homeStore .h (r.pool + blockSize * i) c
        let b := { t.beryl with blocks := t.beryl.blocks ++ [k] }
        let kids := if node then childrenOf c else []
        .ok (nameOf d o, { t with beryl := kids.foldl (fun b n => b.ref rg n s.part) b })

/-- bloa (12 R309). -/
def execBloa (d a : BitVec 5) (node : BitVec 1) (rg : BitVec 4) (s : State) : Out :=
  s.finish (do
    let src := addrOf (s.x a)
    let s1 ← s.settleAll
    s1.needRegion rg
    needAddr src blockSize
    let m ← s1.access .read true [(src, blockSize)] true
    let runs := m.runs src blockSize
    let s2 := (runs.map (fun r => linesOf r.pa r.len)).flatten.foldl State.writeBackLine s1
    match (List.range blockSize).find? (fun i => s2.badGranule (granuleOf (m.pa (src + i)))) with
    | some i => .error (.trap .machineCheck (BitVec.ofNat 64 ((src + i) / 64 * 64)) (m.pa (src + i)))
    | none =>
      let c := (runs.map (fun r => s2.homeRead r.pa r.len)).flatten
      match if node == 1 then s2.beryl.deadChild rg (childrenOf c) else none with
      | some i => .error (.trap .berylName (BitVec.ofNat 64 (16 * i)) 0)
      | none =>
        let (name, s3) ← s2.lookupBlock rg (node == 1) c
        .ok ((s3.touchAll .read m).setName d name).advance)

/-! bref and brel. -/

/-- bref (12 R310). -/
def execBref (a : BitVec 5) (rg : BitVec 4) (s : State) : Out :=
  s.finish (do
    let n := s.pair a
    let s1 ← s.settleAll
    s1.needRegion rg
    s1.needLive rg n
    .ok { s1 with beryl := s1.beryl.ref rg n s.part }.advance)

/-- brel (12 R310). -/
def execBrel (a : BitVec 5) (rg : BitVec 4) (s : State) : Out :=
  s.finish (do
    let n := s.pair a
    let s1 ← s.settleAll
    s1.needRegion rg
    s1.needLive rg n
    need (n == 0 || ((s1.beryl.find rg n).map (·.count s.part)).getD 0 != 0) .berylName (n.setWidth 64)
    .ok { s1 with beryl := s1.beryl.unref rg n s.part }.advance)

/-! Root slots. -/

/-- The address checks of a slot (12 R311). -/
def State.needSlot (s : State) (va : Nat) (acc : Access) : Run? XMap := do
  need (va % 32 == 0) .berylSlot (BitVec.ofNat 64 va)
  s.access acc true [(va, 32)] true

/-- Reading a slot at its home (12 R306): the core's own dirty bytes are first written back there and its copy goes, so that no later
load reads an older one (11 R274). A slot whose granule is uncorrectable is a machine check (DEDUCED from 14 R376, log entry 25). -/
def State.slotAt (s : State) (va pa : Nat) : Run? (Root × State) :=
  let t := (linesOf pa 32).foldl State.dropLine s
  if t.homeBad pa 32 then .error (.trap .machineCheck (BitVec.ofNat 64 va) pa)
  else
    let r := t.readRoot pa
    if r.invalid then .error (.trap .berylSlot (BitVec.ofNat 64 va) 0) else .ok (r, t)

/-- The slot's pub value suits the instruction (12 R311, R312, R315). -/
def needPub (r : Root) (pub : Bool) (va : Nat) : Run? Unit := need (r.pub == pub) .berylSlot (BitVec.ofNat 64 va)

/-- The new name of bcas and vpub: an xb of 0 is the null name (12 R307). -/
def State.newName (s : State) (b : BitVec 5) : BitVec 128 := if b == 0 then 0 else s.pair b

/-- bcas (12 R311). -/
def execBcas (d a b : BitVec 5) (dep : BitVec 3) (s : State) : Out :=
  s.finish (do
    let va := addrOf (s.x a)
    let new := s.newName b
    let s1 ← s.settleAll
    let m ← s1.needSlot va .readWrite
    let s2 ← s1.release 2
    let pa := m.pa va
    let (r, s3) ← s2.slotAt va pa
    needPub r false va
    s3.needRegion r.region
    s3.needLive r.region new
    let s4 := if r.name == s.pair d then
        s3.ownHomeWrite pa { r with name := new, depth := dep.toNat, ver := r.ver + 1 }.bytes
      else s3
    .ok (((s4.touchAll .readWrite m).setName d r.name).acquire 2).advance)

/-- vpub (12 R312): the device releases the slot's reference on the old name, in the executing unit's partition (DEDUCED
from R301, log entry 26). -/
def execVpub (d a b : BitVec 5) (dep : BitVec 3) (s : State) : Out :=
  s.finish (do
    let va := addrOf (s.x a)
    let new := s.newName b
    let expected : BitVec 16 := (s.x d).setWidth 16
    let s1 ← s.settleAll
    let m ← s1.needSlot va .readWrite
    let s2 ← s1.release 2
    let pa := m.pa va
    let (r, s3) ← s2.slotAt va pa
    needPub r true va
    s3.needRegion r.region
    s3.needLive r.region new
    need (!(r.ver == expected && expected == 0xFFFF)) .versionLimit 0xFFFF
    let s4 := if r.ver == expected then
        let t := s3.ownHomeWrite pa { r with name := new, depth := dep.toNat, ver := r.ver + 1 }.bytes
        { t with beryl := t.beryl.unref r.region r.name s.part }
      else s3
    let ver := if r.ver == expected then r.ver + 1 else r.ver
    .ok (((s4.touchAll .readWrite m).setX d (ver.setWidth 64)).acquire 2).advance)

/-! bout and tldb. -/

/-- The slot of bout and of tldb in slot mode, checked as bcas checks it, without wr (12 R313, R314). -/
def State.walkSlot (s : State) (va : Nat) : Run? (XMap × Root × State) := do
  let m ← s.needSlot va .read
  let (r, t) ← s.slotAt va (m.pa va)
  needPub r false va
  t.needRegion r.region
  .ok (m, r, t)

/-- bout (12 R313): the leaves are written after it retires, in program order with the unit's stores. -/
def execBout (d a b : BitVec 5) (s : State) : Out :=
  s.finish (do
    let v := s.x d
    let first := bits v 39 0
    let count := bits v 52 40
    let s1 ← s.settleAll
    let (m, r, s2) ← s1.walkSlot (addrOf (s.x a))
    need (count != 0 && decide (count ≤ 4096)) .berylTree v
    need (first + count ≤ 128 ^ r.depth) .berylTree v
    let dest := addrOf (s.x b)
    let len := blockSize * count
    needAddr dest len
    let md ← s2.access .write true [(dest, len)]
    let id := s.core.unit.ident
    let e : SbEntry :=
      { kind := .bout r.region r.name r.depth first count, va := dest, len := len, writes := [], runs := md.runs dest len,
        raw := [], cached := true, device := false, poison := [], part := id.part, task := id.task, launch := id.launch }
    let s3 := (s2.touchAll .read m).touchAll .write md
    let s4 ← { s3 with beryl := s3.beryl.ref r.region r.name s.part }.pushStore e
    .ok s4.advance)

/-- The formats of a leaf (12 R304). -/
def leafFormat (f : BitVec 5) (lbl : BitVec 3) : Bool :=
  [2, 3, 4, 5, 6, 7, 8, 9, 0xA, 0xD, 0xE].contains f.toNat && (lbl == 0 || (lbl == 5 && scalesAllowed f))

/-- The leaf as a source of bytes, by offset; a hit of the leaf cache reads no memory (12 R324). -/
def State.leafReader (s : State) (l : Leaf) (hit : Bool) : Reader :=
  let img := s.leafBytes l
  { byte := fun o => img.getD o 0,
    bad := fun o => if !hit && s.leafBad l o then some (l.origin o) else none }

/-- The leaf cache after a load of a key: 16 keys, the least recently used replaced; a poisoned tile is not kept (12 R324). -/
def Beryl.cacheKey (b : Beryl) (key : StackKey) (keep : Bool) : Beryl :=
  let rest := b.leafCache.filter (fun k => !(k == key))
  if keep then { b with leafCache := (key :: rest).take 16 } else b

/-- The tree that a tldb reads: region, root, depth, with the state after its slot is read. -/
def State.tldbTree (s : State) (p : Word64) (pin : Bool) : Run? ((BitVec 4 × BitVec 128 × Nat) × State) := do
  if pin then
    need s.k.pinned .berylSlot 0
    match s.beryl.pins.find? (fun e => e.entry == s.k.pinEntry) with
    | some e => .ok ((e.region, e.root, e.depth), s)
    | none => .ok ((s.k.vpin.extractLsb' 20 4, 0, bits s.k.vpin 19 17), s)
  else
    let s1 ← s.settleLocal (addrOf p) 32
    let (m, r, s2) ← s1.walkSlot (addrOf p)
    .ok ((r.region, r.name, r.depth), s2.touchAll .read m)

/-- The step of tldb: xb[39:0] advances by 1 (12 R314). -/
def leafStep (lr : Word64) : Word64 := BitVec.ofNat 64 (bits lr 63 40 * 2 ^ 40 + (bits lr 39 0 + 1) % 2 ^ 40)

/-- The lines of a leaf's block. -/
def Leaf.lines (l : Leaf) : List Nat :=
  match l with
  | .at _ pa => linesOf pa blockSize
  | _ => []

/-- A leaf that is read from memory allocates its sectors, with a hint (05 R139). -/
def State.fillLeaf (s : State) (l : Leaf) (hint : BitVec 2) : State :=
  match l with
  | .at _ pa => s.fillLines pa blockSize hint
  | _ => s

/-- tldb (12 R314, R319, R324): in slot mode its walk holds the root. -/
def execTldb (d : BitVec 4) (a b : BitVec 5) (ai tr : BitVec 1) (hint esrc : BitVec 2) (pin : BitVec 1) (s : State) : Out :=
  s.finish (do
    let p := s.x a
    let lr := s.x b
    let f := ptrFmt p
    let scl := ptrBlock p != 0
    need (leafFormat f (ptrLbl p) && !(tr == 1 && scl)) .badFormat p
    need (!(esrc == 0 && (decide (32 < bits lr 45 40) || decide (32 < bits lr 51 46)))) .tileShape lr
    let sz := shapeOf esrc (tr == 1) (bits lr 45 40) (bits lr 51 46) (s.t d)
    let ((rg, root, depth), s1) ← s.tldbTree p (pin == 1)
    let j := bits lr 39 0
    need (j < 128 ^ depth) .berylTree (BitVec.ofNat 64 j)
    let leaf := s1.leafFrom rg depth root j
    let key := leaf.name?.map (fun n => StackKey.name rg n f (ptrLbl p) (tr == 1) sz.rext sz.cext)
    let hit := key.any s1.beryl.leafCache.contains
    needTaken (hit || s1.homesAccept leaf.lines)
    let sp := rowSpan f (ptrBlock p) false sz.mc
    let rows := ((List.range sz.mr).map (64 * ·)).map ((s1.leafReader leaf hit).wholeRow f
      { sp with scaleOff := sp.scaleOff.map (fun _ => packed f 32) } sz.mc)
    let t := placeRows f scl (tr == 1) sz.rext sz.cext rows key
    let held := if pin == 1 then s1.beryl else (s1.beryl.ref rg root s.part).unref rg root s.part
    let s2 := { s1 with beryl := key.elim held (fun k => held.cacheKey k (t.poison == 0 && leaf.cacheable)) }
    let s3 := (if hit then s2 else s2.fillLeaf leaf hint).ticked.setT d t
    .ok ((if ai == 1 then s3.setX b (leafStep lr) else s3).advance true))

/-! vsw. -/

/-- The lowest free entry of the pin table (12 R317). -/
def Beryl.freePin (b : Beryl) : Option Nat := (List.range 1024).find? (fun i => !b.pins.any (fun e => e.entry == i))

/-- The unit's pin becomes another one or none (12 R315): its old entry's holder count falls when the walks under it have
ended. -/
def State.switchPin (s : State) (new : Option Pin) : State :=
  let old := if s.k.pinned then [s.k.pinEntry] else []
  let s := s.setK { s.k with vpin := (new.map pinWord).getD 0 }
  { s with core.oldPins := s.core.oldPins ++ old }

/-- The entry that vsw pins, inserted if absent (12 R315, R317), with its holder count raised. -/
def State.pinFor (s : State) (pa : Nat) (r : Root) : Run? (Pin × State) :=
  match s.beryl.pins.find? (fun e => e.part == s.part && e.slotPa == pa && e.ver == r.ver) with
  | some e =>
    .ok (e, { s with beryl.pins := s.beryl.pins.map (fun x => if x.entry == e.entry then { x with holders := x.holders + 1 } else x) })
  | none =>
    match s.beryl.freePin with
    | none => .error (.trap .pinLimit (r.ver.setWidth 64) 0)
    | some i =>
      let e : Pin := ⟨i, s.part, pa, r.ver, r.name, r.depth, r.region, 1⟩
      let b := s.beryl.ref r.region r.name s.part
      .ok (e, { s with beryl := { b with pins := b.pins ++ [e] } })

/-- The unit's pin is this slot's version (12 R315). -/
def State.pinsThis (s : State) (pa : Nat) (ver : BitVec 16) : Bool :=
  s.k.pinned && s.beryl.pins.any (fun e => e.entry == s.k.pinEntry && e.slotPa == pa && e.ver == ver)

/-- vsw (12 R315). -/
def execVsw (d a : BitVec 5) (s : State) : Out :=
  s.finish (do
    let va := addrOf (s.x a)
    let s1 ← s.settleAll
    let m ← s1.needSlot va .read
    let pa := m.pa va
    let (r, s2) ← s1.slotAt va pa
    s2.needRegion r.region
    needPub r true va
    let s3 := s2.touchAll .read m
    if r.ver == 0 || r.name == 0 then .ok (((s3.switchPin none).setX d 0).acquire 2).advance
    else if s3.pinsThis pa r.ver then .ok ((s3.setX d (r.ver.setWidth 64)).acquire 2).advance
    else do
      let (e, s4) ← s3.pinFor pa r
      .ok (((s4.switchPin (some e)).setX d (r.ver.setWidth 64)).acquire 2).advance)

/-- vsw.drop (12 R315). -/
def execVswDrop (d : BitVec 5) (s : State) : Out :=
  s.finish (do
    let s1 ← s.settleAll
    .ok (((s1.switchPin none).setX d 0).acquire 2).advance)

end Sys2Proof.Machine
end

