-- ==== Sys2Proof/Machine/Sfu.lean ====
section
/-! DEFINITION. The special functions of R68: the exact mathematical value, rounded once. A transcendental value is
computed in fixed point with 320 fraction bits and a sticky bit below them. DEDUCED, log entry 14: no fp32 argument has
a value so near a rounding boundary that 290 further bits do not decide it; the values that are exact are decided apart. -/

namespace Sys2Proof.Machine

/-- Fraction bits of the fixed-point computation. -/
def sfuP : Nat := 320

/-- The number 1 in fixed point. -/
def sfuOne : Nat := 2 ^ sfuP

/-- ln 2 in fixed point. -/
def sfuLn2 : Nat := 0xb17217f7d1cf79abc9e3b39803f2f6af40f343267298b62d8a0d175b8baafa2be7b876206debac98

/-- The number pi in fixed point. -/
def sfuPi : Nat := 0x3243f6a8885a308d313198a2e03707344a4093822299f31d0082efa98ec4e6c89452821e638d01377

/-- The terms y^k / k! from term k on, `n` of them. -/
def expTerms (y : Nat) : Nat → Nat → Nat → Nat
  | 0, _, _ => 0
  | n + 1, k, t => t + expTerms y n (k + 1) (t * y / (sfuOne * (k + 1)))

/-- e^y for a fixed-point y below 1. -/
def expFix (y : Nat) : Nat := expTerms y 90 0 sfuOne

/-- The terms of sine (first term y, k = 1) or cosine (first term 1, k = 0), with alternating signs. -/
def circTerms (y2 : Nat) : Nat → Nat → Nat → Int
  | 0, _, _ => 0
  | n + 1, k, t => (t : Int) - circTerms y2 n (k + 2) (t * y2 / (sfuOne * ((k + 1) * (k + 2))))

/-- sin y and cos y for a fixed-point y from 0 to pi/2. -/
def sinFix (y : Nat) : Nat := (circTerms (y * y / sfuOne) 60 1 y).toNat
@[inherit_doc sinFix] def cosFix (y : Nat) : Nat := (circTerms (y * y / sfuOne) 60 0 sfuOne).toNat

/-- The terms z^k / k over odd k. -/
def atanhTerms (z2 : Nat) : Nat → Nat → Nat → Nat
  | 0, _, _ => 0
  | n + 1, k, t => t / k + atanhTerms z2 n (k + 2) (t * z2 / sfuOne)

/-- ln f for a fixed-point f from 1 to 2. -/
def lnFix (f : Nat) : Nat :=
  let z := (f - sfuOne) * sfuOne / (f + sfuOne)
  2 * atanhTerms (z * z / sfuOne) 110 1 z

/-- A fixed-point magnitude whose true value is not exact. -/
def inexact (s : Bool) (v : Nat) : FVal := .fin s (2 * v + 1) (-(sfuP : Int) - 1)

/-- A magnitude in fixed point; every fp32 magnitude is exact there. -/
def toFix (m : Nat) (e : Int) : Nat := m * 2 ^ (e + sfuP).toNat

/-- rcp (R68). -/
def sfuRcp (x : FVal) : FVal := FVal.div (.fin false 1 0) x

/-- rsqrt (R68). -/
def sfuRsqrt (x : FVal) : FVal :=
  match x with
  | .nan => .nan
  | .inf s => if s then .nan else .fin false 0 0
  | .fin s m e =>
    if m == 0 then .inf s
    else if s then .nan
    else
      let odd := (e % 2).toNat
      let n := m * 2 ^ odd
      let p : Nat := 128
      let r := isqrt (2 ^ (2 * p) / n)
      .fin false (2 * r + (if r * r * n == 2 ^ (2 * p) then 0 else 1)) (-((e - (odd : Int)) / 2) - (p : Int) - 1)

/-- exp2 (R68). -/
def sfuExp2 (x : FVal) : FVal :=
  match x with
  | .nan => .nan
  | .inf s => if s then .fin false 0 0 else .inf false
  | .fin s m e =>
    let v := toFix m e
    if m == 0 then .fin false 1 0
    else if !s && 128 * sfuOne ≤ v then .inf false
    else if s && 150 * sfuOne ≤ v then .fin false 0 0
    else
      let i : Int := FVal.signed s v
      let n := i / (sfuOne : Int)
      let f := (i % (sfuOne : Int)).toNat
      if f == 0 then .fin false 1 n
      else .fin false (2 * expFix (f * sfuLn2 / sfuOne) + 1) (n - sfuP - 1)

/-- log2 (R68). -/
def sfuLog2 (x : FVal) : FVal :=
  match x with
  | .nan => .nan
  | .inf s => if s then .nan else .inf false
  | .fin s m e =>
    if m == 0 then .inf true
    else if s then .nan
    else
      let k := m.log2
      let n : Int := e + k
      if m == 2 ^ k then FVal.ofInt n
      else
        let frac := lnFix (m * 2 ^ (sfuP - k)) * sfuOne / sfuLn2
        let i : Int := n * (sfuOne : Int) + frac
        inexact (decide (i < 0)) (if i < 0 then (-i).toNat - 1 else i.toNat)

/-- tanh (R68); a zero keeps its sign. -/
def sfuTanh (x : FVal) : FVal :=
  match x with
  | .nan => .nan
  | .inf s => .fin s 1 0
  | .fin s m e =>
    let v := toFix m e
    if m == 0 then .fin s 0 0
    else if 128 * sfuOne ≤ v then inexact s (sfuOne - 1)
    else
      let n := 2 * v / sfuLn2
      let ex := expFix (2 * v - n * sfuLn2) * 2 ^ n
      inexact s ((ex - sfuOne) * sfuOne / (ex + sfuOne))

/-- sin(pi h) for a fixed-point h from 0 to 1/2, exact at the ends. -/
def sinHalf (s : Bool) (h : Nat) : FVal :=
  if h == 0 then .fin s 0 0
  else if 2 * h == sfuOne then .fin s 1 0
  else if 4 * h ≤ sfuOne then inexact s (sinFix (h * sfuPi / sfuOne))
  else inexact s (cosFix ((sfuOne / 2 - h) * sfuPi / sfuOne))

/-- sinpi (R68): a zero result has the argument's sign. -/
def sfuSinpi (x : FVal) : FVal :=
  match x with
  | .fin s m e =>
    let r := toFix m e % (2 * sfuOne)
    let neg := decide (sfuOne ≤ r)
    let h := r % sfuOne
    if h == 0 then .fin s 0 0
    else sinHalf (s != neg) (if 2 * h ≤ sfuOne then h else sfuOne - h)
  | _ => .nan

/-- cospi (R68): a zero result is +0. -/
def sfuCospi (x : FVal) : FVal :=
  match x with
  | .fin _ m e =>
    let r := toFix m e % (2 * sfuOne)
    let h := if r ≤ sfuOne then r else 2 * sfuOne - r
    if 2 * h == sfuOne then .fin false 0 0
    else if 2 * h < sfuOne then sinHalf false (sfuOne / 2 - h)
    else sinHalf true (h - sfuOne / 2)
  | _ => .nan

/-- The special functions by fn of R195. -/
def sfuApply (fn : BitVec 3) (x : FVal) : FVal :=
  match fn.toNat with
  | 0 => sfuRcp x
  | 1 => FVal.sqrt x
  | 2 => sfuRsqrt x
  | 3 => sfuExp2 x
  | 4 => sfuLog2 x
  | 5 => sfuTanh x
  | 6 => sfuSinpi x
  | _ => sfuCospi x

end Sys2Proof.Machine
end

