-- ==== Sys2Proof/Machine/Vector.lean ====
section
/-! DEFINITION. Vector, reduction and sampling instructions, opcodes 0x50 to 0x5F (chapter 07). -/

namespace Sys2Proof.Machine

/-- A BAD_FORMAT trap with a format code in k.tval (07 R182). -/
def badFormat (f : BitVec 5) : Stop := .trap .badFormat (f.setWidth 64) 0

/-- The format of the first operand that fails a test, in operand order (07 R182). -/
def needFormats (ok : BitVec 5 → Bool) : List (BitVec 5) → Run? Unit
  | [] => .ok ()
  | f :: r => if ok f then needFormats ok r else .error (badFormat f)

/-- A format of arithmetic: floating point or integer (01 R16). -/
def isArith (f : BitVec 5) : Bool := isFloatCode f || isIntCode f

/-- Every operand is arithmetic and of the kind of the first (07 R179, R182). -/
def needOneKind (fs : List (BitVec 5)) : Run? Unit :=
  let first := isFloatCode (fs.headD 0)
  needFormats (fun g => isArith g && isFloatCode g == first) fs

/-- Every row below an operand's row extent is consumed (07 R181). -/
def State.allRows (s : State) (reg : BitVec 4) (role : Nat) : Consumed := ⟨reg, role, (s.t reg).rext⟩

/-- The result format of the arithmetic instructions (07 R179). -/
def arithFormat (w : BitVec 1) (minMax : Bool) (fs : List (BitVec 5)) : BitVec 5 :=
  match fs with
  | [] => 0
  | f :: _ =>
    if isFloatCode f then
      if fs.all (· == 0x02) && w == 0 then 0x02
      else if fs.all (· == 0x03) && w == 0 then 0x03
      else 0x01
    else if minMax && fs.all (fun g => g == 0x0D || g == 0x0F) then 0x0F
    else 0x0C

/-- The union of the operands' extents (07 R184). -/
def maxExt (ts : List Tile) : Nat × Nat := (ts.foldl (fun m t => max m t.rext) 0, ts.foldl (fun m t => max m t.cext) 0)

/-- An elementwise instruction (07 R179, R184): a floating-point or an integer function of the operands' elements. -/
def elementwise (d : BitVec 4) (srcs : List (BitVec 4)) (w : BitVec 1) (minMax : Bool)
    (ff : List FVal → FVal) (fi : List Int → Int) (s : State) : Out :=
  s.finish (do
    let ts := srcs.map s.t
    let fs := ts.map (·.fmt)
    needOneKind fs
    s.needClean (srcs.mapIdx (fun i r => s.allRows r i))
    let ftz := s.k.ftz
    let rf := arithFormat w minMax fs
    let (r, c) := maxExt ts
    let cell (i j : Nat) : Flagged :=
      match floatOf rf with
      | some f =>
        let vs := ts.map (fun t => t.val ftz i j)
        floatResult f ftz (vs.all (·.isFinite)) (ff vs)
      | none => intResult rf (fi (ts.map (fun t => t.int i j)))
    .ok ((s.writeFlagged d rf r c (flaggedRows r c cell)).advance true))

/-- Functions of two or three operands as functions of the operand list. -/
def on2 {α : Type} (d : α) (f : α → α → α) (l : List α) : α :=
  match l with
  | [a, b] => f a b
  | _ => d
@[inherit_doc on2] def on3 {α : Type} (d : α) (f : α → α → α → α) (l : List α) : α :=
  match l with
  | [a, b, c] => f a b c
  | _ => d

/-- The larger and the smaller of two values in tmax and tmin (07 R185): NaN when either is NaN, -0 below +0. -/
def vmax (a b : FVal) : FVal := if a.isNan || b.isNan then .nan else if a.below b then b else a
@[inherit_doc vmax] def vmin (a b : FVal) : FVal := if a.isNan || b.isNan then .nan else if b.below a then b else a

def execTadd (d a b : BitVec 4) (w : BitVec 1) (s : State) : Out :=
  elementwise d [a, b] w false (on2 .nan (FVal.add false)) (on2 0 (· + ·)) s
def execTsub (d a b : BitVec 4) (w : BitVec 1) (s : State) : Out :=
  elementwise d [a, b] w false (on2 .nan (fun x y => FVal.add false x y.neg)) (on2 0 (· - ·)) s
def execTmul (d a b : BitVec 4) (w : BitVec 1) (s : State) : Out :=
  elementwise d [a, b] w false (on2 .nan FVal.mul) (on2 0 (· * ·)) s
def execTfma (d a b c : BitVec 4) (w : BitVec 1) (s : State) : Out :=
  elementwise d [a, b, c] w false (on3 .nan (fun x y z => FVal.add false (FVal.mul x y) z)) (on3 0 (fun x y z => x * y + z)) s
def execTmax (d a b : BitVec 4) (w : BitVec 1) (s : State) : Out :=
  elementwise d [a, b] w true (on2 .nan vmax) (on2 0 max) s
def execTmin (d a b : BitVec 4) (w : BitVec 1) (s : State) : Out :=
  elementwise d [a, b] w true (on2 .nan vmin) (on2 0 min) s

/-- A condition of tcmp on floating-point values (07 R186). -/
def condF (cond : BitVec 3) (a b : FVal) : Bool :=
  let un := a.isNan || b.isNan
  match cond.toNat with
  | 0 => FVal.eq a b
  | 1 => un || !FVal.eq a b
  | 2 => FVal.lt a b
  | 3 => FVal.le a b
  | 4 => FVal.lt b a
  | 5 => FVal.le b a
  | _ => un

/-- A condition of tcmp on integers (07 R186). -/
def condI (cond : BitVec 3) (a b : Int) : Bool :=
  match cond.toNat with
  | 0 => a == b
  | 1 => a != b
  | 2 => decide (a < b)
  | 3 => decide (a ≤ b)
  | 4 => decide (b < a)
  | 5 => decide (b ≤ a)
  | _ => false

/-- A container 1 or 0. -/
def bitWord (c : Bool) : Word32 := if c then 1 else 0

/-- tcmp (07 R186). -/
def execTcmp (d a b : BitVec 4) (cond : BitVec 3) (s : State) : Out :=
  s.finish (do
    let ta := s.t a
    let tb := s.t b
    needOneKind [ta.fmt, tb.fmt]
    s.needClean [s.allRows a 0, s.allRows b 1]
    let ftz := s.k.ftz
    let (r, c) := maxExt [ta, tb]
    let cell (i j : Nat) : Word32 :=
      bitWord (if isFloatCode ta.fmt then condF cond (ta.val ftz i j) (tb.val ftz i j) else condI cond (ta.int i j) (tb.int i j))
    .ok ((s.setT d (Tile.build 0x0D r c cell)).advance true))

/-- The poison mask and origin of a moved result: `pick a i` says that source a supplies data of row i (14 R375). -/
def movedPoison (r : Nat) (ta tb : Tile) (fromA fromB : Nat → Bool) : BitVec 32 × Nat :=
  let pa := (List.range r).filter (fun i => ta.bad i && decide (i < ta.rext) && fromA i)
  let pb := (List.range r).filter (fun i => tb.bad i && decide (i < tb.rext) && fromB i)
  (maskOf (pa ++ pb), if !pa.isEmpty then ta.origin else if !pb.isEmpty then tb.origin else 0)

/-- tsel (07 R187). -/
def execTsel (d a b c : BitVec 4) (s : State) : Out :=
  s.finish (do
    let ta := s.t a
    let tb := s.t b
    let tc := s.t c
    if ta.scl then .error (badFormat ta.fmt)
    if tb.scl || tb.fmt != ta.fmt then .error (badFormat tb.fmt)
    if !isIntCode tc.fmt then .error (badFormat tc.fmt)
    s.needClean [s.allRows c 2]
    let (r, n) := maxExt [ta, tb, tc]
    let sel (i j : Nat) : Bool := tc.int i j != 0
    let p := movedPoison r ta tb (fun i => (List.range n).any (sel i)) (fun i => (List.range n).any (fun j => !sel i j))
    let t := Tile.build ta.fmt r n (fun i j => if sel i j then ta.elem i j else tb.elem i j)
    .ok ((s.setT d { t with poison := p.1, origin := p.2 }).advance true))

/-- One element converted to a format (07 R188; 02 R59, R60): the container and whether it became an infinity. -/
def convertElem (rm : Rm) (sat ftz : Bool) (src : Tile) (tgt : BitVec 5) (i j : Nat) : Flagged :=
  let v := if isFloatCode src.fmt then src.val ftz i j else FVal.ofInt (src.int i j)
  match floatOf tgt, intRange tgt with
  | some f, _ =>
    let r := f.round rm sat ftz v
    ⟨BitVec.ofNat 32 r.bits, r.toInf, false⟩
  | none, some (lo, hi) => ⟨BitVec.ofNat 32 ((v.toRange rm lo hi) % 2 ^ widthOf tgt).toNat, false, false⟩
  | none, none => ⟨0, false, false⟩

/-- tcvt (07 R188). -/
def execTcvt (d a : BitVec 4) (sat : BitVec 1) (tgt : BitVec 5) (s : State) : Out :=
  s.finish (do
    let ta := s.t a
    needFormats isArith [ta.fmt]
    s.needClean [s.allRows a 0]
    let rows := flaggedRows ta.rext ta.cext (convertElem (Rm.ofBits s.k.rm) (sat == 1) s.k.ftz ta tgt)
    .ok ((s.writeFlagged d tgt ta.rext ta.cext rows).advance true))

/-- emax of a tsc target (07 R189). -/
def tscEmax (tgt : BitVec 5) : Int :=
  match tgt.toNat with
  | 4 => 8
  | 5 => 15
  | 6 => 4
  | _ => 2

/-- The scale that tsc chooses for a row and the row's containers (07 R189). -/
def tscRow (tgt : BitVec 5) (vals : List FVal) : Byte × List Word32 :=
  if vals.any (·.isNan) then (0xFF, vals.map (fun _ => 0))
  else
    let amax := vals.foldl (fun m v => if m.lt v.abs then v.abs else m) (.fin false 0 0)
    let sc : Int := match amax with
      | .fin _ m e => if m == 0 then 0x7F else clampInt 0 254 ((m.log2 : Int) + e - tscEmax tgt + 127)
      | _ => 254
    let conv (v : FVal) : Word32 :=
      match floatOf tgt with
      | some f =>
        let w := match v with
          | .fin sg m e => FVal.fin sg m (e + 127 - sc)
          | v => v
        BitVec.ofNat 32 (f.round .rne true false w).bits
      | none => 0
    (BitVec.ofInt 8 sc, vals.map conv)

/-- tsc (07 R189). -/
def execTsc (d a : BitVec 4) (tgt : BitVec 5) (s : State) : Out :=
  s.finish (do
    let ta := s.t a
    needFormats isFloatCode [ta.fmt]
    s.needClean [s.allRows a 0]
    let rows := (List.range ta.rext).map (fun i => tscRow tgt ((List.range ta.cext).map (fun j => ta.val s.k.ftz i j)))
    let t : Tile := { Tile.build tgt ta.rext ta.cext (fun _ _ => 0) with
      scl := true, rows := rows.map (·.2), scale := rows.map (·.1) }
    .ok ((s.setT d t).advance true))

/-- ttr (07 R190). -/
def execTtr (d a : BitVec 4) (s : State) : Out :=
  s.finish (do
    let ta := s.t a
    if ta.scl then .error (badFormat ta.fmt)
    let bad := (List.range ta.rext).any ta.bad
    let t := Tile.build ta.fmt ta.cext ta.rext (fun j i => ta.elem i j)
    .ok ((s.setT d { t with poison := if bad then maskOf (List.range ta.cext) else 0,
                            origin := if bad then ta.origin else 0 }).advance true))

/-- tbc in modes 0 to 2 (07 R191): the source element of a position and the source row of a result row. -/
def broadcast (d a b : BitVec 4) (src : Nat → Nat → Nat × Nat) (s : State) : Out :=
  let ta := s.t a
  let tb := s.t b
  let row (i : Nat) : Nat := (src i 0).1
  let bad := (List.range tb.rext).filter (fun i => ta.bad (row i))
  let t := Tile.build ta.fmt tb.rext tb.cext (fun i j => ta.elem (src i j).1 (src i j).2)
  .next ((s.setT d { t with scl := ta.scl, scale := (List.range tb.rext).map (fun i => ta.scaleAt (row i)),
                            poison := maskOf bad, origin := if bad.isEmpty then 0 else ta.origin }).advance true)

def execTbcRow (d a b : BitVec 4) (s : State) : Out := broadcast d a b (fun _ j => (0, j)) s
def execTbcCol (d a b : BitVec 4) (s : State) : Out := broadcast d a b (fun i _ => (i, 0)) s
def execTbcEl (d a b : BitVec 4) (s : State) : Out := broadcast d a b (fun _ _ => (0, 0)) s

/-- tbc in mode 3 (07 R191): a constant in the template's format. -/
def execTbcX (d b : BitVec 4) (x : BitVec 5) (s : State) : Out :=
  let tb := s.t b
  let v := BitVec.ofNat 32 ((s.x x).toNat % 2 ^ widthOf tb.fmt)
  .next ((s.setT d (Tile.build tb.fmt tb.rext tb.cext (fun _ _ => v))).advance true)

/-! Reductions (02 R66, R67; 07 R192 to R194). -/

/-- One level of the tree: adjacent present positions are combined, a last one alone passes on (02 R66). -/
def treeLevel {α : Type} (op : α → α → α) : List α → List α
  | a :: b :: r => op a b :: treeLevel op r
  | l => l

/-- The five levels of the tree over at most 32 present positions (02 R66). -/
def treeReduce {α : Type} (op : α → α → α) (l : List α) : Option α :=
  (treeLevel op (treeLevel op (treeLevel op (treeLevel op (treeLevel op l))))).head?

/-- Ascending combination (02 R67). -/
def chainReduce {α : Type} (op : α → α → α) : List α → Option α
  | [] => none
  | a :: r => some (r.foldl op a)

/-- The operator on fp32 values, each sum rounded (07 R193). -/
def redF (op : BitVec 3) (ftz : Bool) (a b : FVal) : FVal :=
  match op.toNat with
  | 0 => addRne ftz a b
  | 2 => vmin a b
  | _ => vmax a b

/-- An integer in a reduction with the overflow seen so far. -/
abbrev IntAcc := Int × Bool

/-- The operator on integers (07 R193): a sum is wrapped modulo 2^32 at every node and read in the result format. One that lies outside
that format (R193) or outside s32 (02 R67) sets iov (DEDUCED, log entry 65). -/
def redI (op : BitVec 3) (rf : BitVec 5) (a b : IntAcc) : IntAcc :=
  match op.toNat with
  | 0 =>
    let r := intResult rf (a.1 + b.1)
    (intElem rf r.bits, a.2 || b.2 || r.iov || (intResult 0x0C (a.1 + b.1)).iov)
  | 2 => (min a.1 b.1, a.2 || b.2)
  | _ => (max a.1 b.1, a.2 || b.2)

/-- The identity of an empty floating-point reduction, as an fp32 encoding (07 R193). -/
def idF (op : BitVec 3) : Nat :=
  match op.toNat with
  | 1 => 0xFF800000
  | 2 => 0x7F800000
  | _ => 0

/-- The identity of an empty integer reduction (07 R193). -/
def idI (op : BitVec 3) (rf : BitVec 5) : Int :=
  match op.toNat, intRange rf with
  | 1, some (lo, _) => lo
  | 2, some (_, hi) => hi
  | _, _ => 0

/-- The groups of element positions that a reduction combines: rows of the tree, or one chain of rows (07 R192). -/
def redGroups (axis : BitVec 2) (t : Tile) : List (List (List (Nat × Nat))) :=
  match axis.toNat with
  | 0 => (List.range t.rext).map (fun i => [(List.range t.cext).map (fun j => (i, j))])
  | 1 => (List.range t.cext).map (fun j => (List.range t.rext).map (fun i => [(i, j)]))
  | _ => [(List.range t.rext).map (fun i => (List.range t.cext).map (fun j => (i, j)))]

/-- One result: each row by the tree, then the row values in ascending order (02 R66, R67). -/
def redOne {α : Type} (op : α → α → α) (at_ : Nat × Nat → α) (g : List (List (Nat × Nat))) : Option α :=
  chainReduce op (g.filterMap (fun row => treeReduce op (row.map at_)))

/-- The results of a reduction, with their flags (07 R193). -/
def redResults (op : BitVec 3) (axis : BitVec 2) (ftz : Bool) (t : Tile) : List Flagged :=
  (redGroups axis t).map (fun g =>
    if isFloatCode t.fmt then
      let at_ (p : Nat × Nat) : FVal := if op == 3 then (t.val ftz p.1 p.2).abs else t.val ftz p.1 p.2
      match redOne (redF op ftz) at_ g with
      | none => ⟨BitVec.ofNat 32 (idF op), false, false⟩
      | some v => floatResult fp32 ftz (g.all (fun row => row.all (fun p => (t.val ftz p.1 p.2).isFinite))) v
    else
      let rf : BitVec 5 := if t.fmt == 0x0D || t.fmt == 0x0F then 0x0F else 0x0C
      let at_ (p : Nat × Nat) : IntAcc :=
        let v := if op == 3 then (((t.int p.1 p.2).natAbs : Nat) : Int) else t.int p.1 p.2
        (v, (intResult rf v).iov || (op == 0 && (intResult 0x0C v).iov))
      match redOne (redI op rf) at_ g with
      | none => ⟨BitVec.ofInt 32 (idI op rf), false, false⟩
      | some v => ⟨BitVec.ofInt 32 v.1, false, v.2⟩)

/-- The result format of a reduction (07 R193). -/
def redFormat (t : Tile) : BitVec 5 :=
  if isFloatCode t.fmt then 0x01 else if t.fmt == 0x0D || t.fmt == 0x0F then 0x0F else 0x0C

/-- The final value as a mailbox holds it (07 R194). -/
def redMailbox (fmt : BitVec 5) (d64 : BitVec 1) (b : Word32) : Word64 :=
  if fmt == 0x0C then b.signExtend 64
  else if fmt == 0x01 && d64 == 1 then BitVec.ofNat 64 (fp64.round .rne false false (fp32.read false b.toNat)).bits
  else b.setWidth 64

/-- tred (07 R192 to R194). -/
def execTred (d a : BitVec 4) (d64 dst : BitVec 1) (op : BitVec 3) (axis : BitVec 2) (s : State) : Out :=
  s.finish (do
    let ta := s.t a
    needFormats (fun f => isArith f && (d64 == 0 || isFloatCode f)) [ta.fmt]
    s.needClean [s.allRows a 0]
    let rs := redResults op axis s.k.ftz ta
    let rf := redFormat ta
    let rows : List (List Flagged) := if axis == 0 then rs.map (fun r => [r]) else [rs]
    let s' := (s.stick 0 (anyNf rows)).stick 1 (anyIov rows)
    if dst == 1 then
      let v := (rs.head?.map (·.bits)).getD 0
      .ok ((s'.mwrite (d.setWidth 3) (redMailbox rf d64 v)).advance true)
    else
      let (r, c) : Nat × Nat := if axis == 0 then (ta.rext, 1) else if axis == 1 then (1, ta.cext) else (1, 1)
      .ok ((s'.setT d (tileOf rf r c rows)).advance true))

/-- An argument converted to fp32 to nearest-even (02 R68): the value and whether a finite one became infinite. -/
def toFp32 (ftz : Bool) (v : FVal) : FVal × Bool :=
  let r := fp32.round .rne false ftz v
  (fp32.read ftz r.bits, r.toInf)

/-- One element of tsfu (07 R195; 02 R68). -/
def sfuElem (fn : BitVec 3) (ftz : Bool) (v : FVal) : Flagged :=
  let a := toFp32 ftz v
  let r := fp32.round .rne false ftz (sfuApply fn a.1)
  ⟨BitVec.ofNat 32 r.bits, a.2 || (a.1.isFinite && !(fp32.read false r.bits).isFinite), false⟩

/-- tsfu (07 R195). -/
def execTsfu (d a : BitVec 4) (fn : BitVec 3) (s : State) : Out :=
  s.finish (do
    let ta := s.t a
    needFormats isFloatCode [ta.fmt]
    s.needClean [s.allRows a 0]
    let rows := flaggedRows ta.rext ta.cext (fun i j => sfuElem fn s.k.ftz (ta.val s.k.ftz i j))
    .ok ((s.writeFlagged d 0x01 ta.rext ta.cext rows).advance true))

/-- An element is non-finite (07 R196). -/
def Tile.nonFinite (t : Tile) (i j : Nat) : Bool := isFloatCode t.fmt && !(t.val false i j).isFinite

/-- tnf (07 R196). -/
def execTnf (d a : BitVec 4) (dst : BitVec 1) (s : State) : Out :=
  s.finish (do
    let ta := s.t a
    needFormats isArith [ta.fmt]
    s.needClean [s.allRows a 0]
    if dst == 1 then
      let any := (List.range ta.rext).any (fun i => (List.range ta.cext).any (fun j => ta.nonFinite i j))
      .ok ((s.mwrite (d.setWidth 3) (flag64 any)).advance true)
    else .ok ((s.setT d (Tile.build 0x0D ta.rext ta.cext (fun i j => bitWord (ta.nonFinite i j)))).advance true))
where
  flag64 (b : Bool) : Word64 := if b then 1 else 0

/-! Sampling (07 R197 to R200). -/

/-- The round constants of 07 R198. -/
def genK (r : Nat) : Word32 := BitVec.ofNat 32 ((r + 1) * 0x9E3779B9)

/-- The rounds of the generator (07 R198) on (a, b, c, d). -/
def genRounds : Nat → Nat → Word32 × Word32 × Word32 × Word32 → Word32
  | 0, _, v => v.1
  | n + 1, r, (a, b, c, d) =>
    let a := a + b + genK r
    let d := (d ^^^ a).rotateLeft 16
    let c := c + d
    let b := (b ^^^ c).rotateLeft 12
    let a := a + b
    let d := (d ^^^ a).rotateLeft 8
    let c := c + d
    let b := (b ^^^ c).rotateLeft 7
    genRounds n (r + 1) (a, b, c, d)

/-- u24 of 07 R198. -/
def genU24 (seed : Word64) (seq step : Word32) : Nat :=
  let a := seed.setWidth 32
  let o := genRounds 10 0 (a, seed.extractLsb' 32 32, seq, step) + a
  o.toNat / 256

/-- The token and the flags that smpl finds (07 R199): candidates with their flat indices, in ascending order. -/
def smplToken (ftz : Bool) (u24 : Nat) (cands : List (Nat × FVal)) : Nat × Bool × Bool :=
  let isPosInf (v : FVal) : Bool := v == .inf false
  if cands.any (fun c => c.2.isNan || isPosInf c.2) then (0xFFFFFFFF, true, false)
  else
    match cands.map (·.2) with
    | [] => (0xFFFFFFFF, false, true)
    | v :: vs =>
      let mx := vs.foldl vmax v
      if mx == .inf true then (0xFFFFFFFF, false, true)
      else
        let p (l : FVal) : FVal := rne32 ftz (sfuExp2 (fp32.read ftz (rne32Bits ftz (FVal.add false l mx.neg))))
        let step (acc : FVal × List (Nat × FVal × FVal)) (c : Nat × FVal) : FVal × List (Nat × FVal × FVal) :=
          let q := p c.2
          let cum := addRne ftz acc.1 q
          (cum, (c.1, q, cum) :: acc.2)
        let r := cands.foldl step (.fin false 0 0, [])
        let thr := rne32 ftz (FVal.mul (.fin false u24 (-24)) r.1)
        let asc := r.2.reverse
        match asc.find? (fun e => thr.lt e.2.2) with
        | some e => (e.1, false, false)
        | none => (((r.2.find? (fun e => !e.2.1.isZero)).map (·.1)).getD 0, false, false)

/-- smpl (07 R197 to R200). -/
def execSmpl (m : BitVec 3) (a : BitVec 4) (x : BitVec 5) (s : State) : Out :=
  s.finish (do
    let ta := s.t a
    needFormats isFloatCode [ta.fmt]
    s.needClean [s.allRows a 0]
    let ftz := s.k.ftz
    let cands := ((List.range ta.rext).map (fun i => (List.range ta.cext).map
      (fun j => (32 * i + j, (toFp32 ftz (ta.val ftz i j)).1)))).flatten
    let w := s.x (x + 1)
    let (tok, nonf, emp) := smplToken ftz (genU24 (s.x x) (w.extractLsb' 32 32) (w.setWidth 32)) cands
    let ver := s.k.idVer.toNat
    let rec_ := BitVec.ofNat 64 (tok + ver % 2 ^ 16 * 2 ^ 32 + s.part.toNat * 2 ^ 48 + ver / 2 ^ 16 * 2 ^ 56
      + (if nonf then 2 ^ 57 else 0) + if emp then 2 ^ 58 else 0)
    .ok ((s.mwrite m rec_).advance true))

end Sys2Proof.Machine
end

