-- ==== Sys2Proof/Machine/Collective.lean ====
section
/-! DEFINITION. The collective engine, all-to-all (13 R350, R351) and counted reductions (R352 to R354; 16 R428), and the
offload engine (13 R355 to R357). -/

namespace Sys2Proof.Machine

/-! All-to-all. -/

/-- G of 13 R350. -/
def groupSize (quad : Bool) : Nat := if quad then 16 else 4

/-- a2a.cl and a2a.q (13 R350). DESIGN CHOICE, log entry 87: of several register values that break a limit k.tval takes that of x[xb], then
that of x[xb+1], then the launch's cls. -/
def State.a2aIssue (s : State) (d a b : BitVec 5) (quad : Bool) : Run? State := do
  s.needCommand
  let v := s.x b
  let w := s.x (b + 1)
  let bar := addrOf (s.x d)
  let sched := addrOf (s.x a)
  let sbase := bits v 18 0
  let dbase := bits v 50 32
  let csz := bits w 14 0
  let nsteps := bits w 21 16
  let cls := (s.launch?.map (fun l => l.record.cls)).getD 0
  need (bits v 31 19 == 0 && bits v 63 51 == 0) .engineArg v
  need (bits w 15 15 == 0 && bits w 63 22 == 0 && csz % 16 == 0 && decide (16 ≤ csz) && decide (csz ≤ 16384)
    && decide (1 ≤ nsteps) && decide (nsteps ≤ 64)) .engineArg w
  need (cls == 2) .engineArg (BitVec.ofNat 64 cls)
  needBarAlign bar
  need (sched % 8 == 0) .atomicAlign (BitVec.ofNat 64 sched)
  needAddr sched (8 * nsteps)
  needLocal sbase (groupSize quad * csz)
  needLocal dbase (groupSize quad * csz)
  let mb ← s.barrierMap bar
  let ms ← s.engineMap .read sched (8 * nsteps)
  s.needPhys false bar mb
  s.needPhys false sched ms
  let t := (s.touchAll .readWrite mb).touchAll .read ms
  .ok ((t.issue (.a2a quad (ms.runs sched (8 * nsteps)) sbase dbase csz nsteps none 0) (barrierPa bar mb)
    (mb.pages ++ ms.pages)).advance)

/-- a2a.cl (13 R350). -/
def execA2aCl (d a b : BitVec 5) (s : State) : Out := s.finish (s.a2aIssue d a b false)

/-- a2a.q (13 R350). -/
def execA2aQ (d a b : BitVec 5) (s : State) : Out := s.finish (s.a2aIssue d a b true)

/-- The member index of the core (13 R350). -/
def State.memberIndex (s : State) (quad : Bool) : Nat := s.core.num.toNat % groupSize quad

/-- The member that word w of the schedule names for member m. -/
def schedTo (w m : Nat) : Nat := w / 2 ^ (4 * m) % 16

/-- A schedule word is a permutation of 0 to G - 1 (13 R351). -/
def permWord (quad : Bool) (w : Nat) : Bool :=
  let g := groupSize quad
  (quad || decide (w < 2 ^ 16)) && (List.range g).all (fun d => (List.range g).any (fun m => schedTo w m == d))

/-- Eight-byte words of bytes. -/
def words64 (bs : List Byte) (n : Nat) : List Nat := (List.range n).map (fun k => leNat ((bs.drop (8 * k)).take 8))

/-- A2A_EXCHANGE_START (13 R351): the group has issued; the exchange starts, or it fails with no byte moved,
and each member's barrier loses the bytes of that member's own command (R333). `members` tells of
every member by index; the entry of this core is not looked at. A schedule that cannot be read fails the exchange (DEDUCED,
log entry 28). -/
def execA2aExchangeStart (cmd : Nat) (members : List A2aMember) (s : State) : Out :=
  .next (match s.cmd cmd with
    | some c =>
      match c.kind with
      | .a2a quad sched sbase dbase csz nsteps none 0 =>
        if members.length != groupSize quad || !s.mayStart c || !s.placeTaken (.mem sched) 0 (8 * nsteps)
            || !(c.barrier :: members.map (·.barrier)).all s.barrierTaken then s
        else
          let others := (members.mapIdx (fun i m => (i, m))).filter (fun e => e.1 != s.memberIndex quad)
          let ms := s.moveFrom (.mem sched) (8 * nsteps) .taken
          let ws := words64 (ms.map (fun m => match m with
            | .ok b => b
            | _ => 0)) nsteps
          let good := ms.all (fun m => m != .bad && m != .failed) && ws.all (permWord quad) && others.all (fun e =>
            !e.2.ended && some e.2.schedPa == (sched.head?.map (·.pa)) && e.2.csz == csz && e.2.nsteps == nsteps)
          if good then s.setCmd cmd (.a2a quad sched sbase dbase csz nsteps (some ws) 0)
          else
            let t := others.foldl (fun s e => s.deliver .l e.2.barrier (e.2.nsteps * e.2.csz) true) s
            (t.deliver .l c.barrier (nsteps * csz) true).endCmd cmd
      | _ => s
    | none => s)

/-- A2A_STEP (13 R351): the transfers of one step land. `incoming` is the block that another member sends. -/
def execA2aStep (cmd : Nat) (incoming : List (Option Byte)) (s : State) : Out :=
  .next (match s.cmd cmd with
    | some c =>
      match c.kind with
      | .a2a quad sched sbase dbase csz nsteps (some ws) k =>
        let m := s.memberIndex quad
        let w := ws.getD k 0
        let src := ((List.range (groupSize quad)).find? (fun i => schedTo w i == m)).getD m
        let block := if src == m then s.moveFrom (.ls (sbase + m * csz)) csz .taken
          else incoming.map movedOf
        if block.length != csz || !s.barrierTaken c.barrier then s
        else
          let t := (s.moveToLs (dbase + src * csz) block).deliver .l c.barrier csz false
          if k + 1 == nsteps then t.endCmd cmd else t.setCmd cmd (.a2a quad sched sbase dbase csz nsteps (some ws) (k + 1))
      | _ => s
    | none => s)

/-! Counted reductions. -/

/-- nelem of a reduction object at its home (13 R352). -/
def nelemOf (w : Word64) : Nat := bits w 10 0

/-- What the engine knows of the object before cred retires: nelem, read at its home, or over the link (13 R353; 16 R428). -/
inductive ObjectRead where
  | nelem (n : Nat)
  /-- The peer has not answered yet. -/
  | ask
  | stop (e : Stop)

/-- Reading nelem of the object. Uncorrectable data, or a peer that refuses or cannot be reached, ends cred as 16 R427 ends a
rget (DEDUCED, log entry 25). While its home does not take the request cred waits (16 R406). -/
def State.readNelem (s : State) (va pa : Nat) : ObjectRead :=
  if (s.peerOf pa).isSome then
    match s.core.reply with
    | none => if s.cutOff pa then .stop (.trap .machineCheck (BitVec.ofNat 64 va) 0) else .ask
    | some (.value v) => .nelem (nelemOf v)
    | some .refused => .stop (.trap .protection (BitVec.ofNat 64 va) 0)
    | some _ => .stop (.trap .machineCheck (BitVec.ofNat 64 va) 0)
  else if !s.homesAccept (linesOf pa 64) then .stop (.wait .other)
  else
    let t := (linesOf pa 64).foldl State.writeBackLine s
    if t.homeBad pa 64 then .stop (.trap .machineCheck (BitVec.ofNat 64 va) pa) else .nelem (nelemOf (t.mem.read64 (pa + 16)))

/-- The checks of cred up to the object's translation (13 R334, R353): the maps of the first 4,096 bytes of the source, of the
barrier and of the object. DESIGN CHOICE, log entry 99: the object's page gives rd and wr and lies in no Beryl region, as a barrier's.
Log entry 97 for the bits of an offset in the local store. -/
def State.credMaps (s : State) (d a b : BitVec 5) (memory : Bool) : Run? (XMap × XMap × XMap) := do
  s.needCommand
  need (bits (s.x b) 63 32 == 0) .engineArg (s.x b)
  let obj := addrOf (s.x d)
  let src := addrOf (s.x a)
  let bar := addrOf (s.x (b + 1))
  needBarAlign bar
  need (obj % 64 == 0) .atomicAlign (BitVec.ofNat 64 obj)
  if memory then needAddr src 4096
  let ms ← s.bcpMap memory .read src 4096
  let mb ← s.barrierMap bar
  let mo ← s.engineMap .readWrite obj 64
  s.needPhys false bar mb
  s.needPhys true obj mo
  .ok (ms, mb, mo)

/-- cred once nelem is known: the limits of the source that it reaches (DEDUCED, log entry 30), and the issue. -/
def State.credIssue (s : State) (d a b : BitVec 5) (memory : Bool) (maps : XMap × XMap × XMap) (nelem : Nat) : Run? State := do
  let obj := addrOf (s.x d)
  let src := addrOf (s.x a)
  let bar := addrOf (s.x (b + 1))
  if memory then needAddr src (4 * nelem) else needLocal src (4 * nelem)
  let ms ← s.bcpMap memory .read src (4 * nelem)
  let (m0, mb, mo) := maps
  let place : Place := if memory then .mem (ms.runs src (4 * nelem)) else .ls src
  let t := (((s.touchAll .read m0).touchAll .read ms).touchAll .readWrite mb).touchAll .readWrite mo
  .ok ((t.issue (.cred (mo.pa obj) place (bits (s.x b) 31 0) nelem none) (barrierPa bar mb)
    (m0.pages ++ ms.pages ++ mb.pages ++ mo.pages)).advance)

/-- cred and cred.ls (13 R353): an object of a peer is read over the link first. -/
def State.credStart (s : State) (d a b : BitVec 5) (memory : Bool) : Out :=
  match s.credMaps d a b memory with
  | .error e => s.finish (.error e)
  | .ok maps =>
    let obj := addrOf (s.x d)
    match s.readNelem obj (maps.2.2.pa obj) with
    | .nelem n =>
      let t : State := { s with core.remote := none, core.reply := none }
      t.finish (t.credIssue d a b memory maps n)
    | .ask => .next { s with core.remote := some ⟨obj, maps.2.2.pa obj + 16, .get 8⟩, core.wait := .other }
    | .stop e => s.finish (.error e)

/-- cred (13 R353). -/
def execCred (d a b : BitVec 5) (s : State) : Out := s.credStart d a b true

/-- cred.ls (13 R353). -/
def execCredLs (d a b : BitVec 5) (s : State) : Out := s.credStart d a b false

/-- CRED_SOURCE_READ (13 R353, R333): the engine reads the source and reduces the barrier. A source that cannot be read is a
failed delivery, and nothing is contributed. -/
def execCredSourceRead (cmd : Nat) (s : State) : Out :=
  .next (match s.cmd cmd with
    | some c =>
      match c.kind with
      | .cred obj src index nelem none =>
        if !s.mayStart c || !s.placeTaken src 0 (4 * nelem) || !s.barrierTaken c.barrier then s
        else
        let ms := s.moveFrom src (4 * nelem) .taken
        let failed := ms.contains .failed
        let t := s.deliver .l c.barrier (4 * nelem) failed
        if failed then t.endCmd cmd else t.setCmd cmd (.cred obj src index nelem (some (ms.map Moved.held)))
      | _ => s
    | none => s)

/-- The header of a reduction object (13 R352). -/
structure RedObject where
  cnt : Nat
  n : Nat
  op : Nat
  fmt : Nat
  det : Bool
  data : Nat
  nelem : Nat
  stage : Nat
  valid : Bool

/-- Reading the header at its home (13 R352, R354). -/
def State.readObject (s : State) (pa : Nat) : RedObject :=
  let w (i : Nat) : Word64 := s.mem.read64 (pa + 8 * i)
  let n := bits (w 0) 31 16
  let nelem := bits (w 2) 10 0
  let data := bits (w 1) 55 0
  let stage := bits (w 3) 55 0
  let reserved := bits (w 0) 63 39 == 0 && bits (w 1) 63 56 == 0 && bits (w 2) 63 11 == 0 && bits (w 3) 63 56 == 0
    && (List.range 4).all (fun i => w (4 + i) == 0)
  { cnt := bits (w 0) 15 0, n := n, op := bits (w 0) 35 34, fmt := bits (w 0) 37 36, det := (w 0).getLsbD 38, data := data,
    nelem := nelem, stage := stage,
    valid := reserved && bits (w 0) 35 34 != 3 && bits (w 0) 37 36 != 3 && n != 0 && decide (1 ≤ nelem)
      && decide (nelem ≤ 1024) && data % 16 == 0 && stage % 16 == 0 }

/-- One element combined (13 R354): fp32 with subnormals honoured, or integers. -/
def redElem (o : RedObject) (a b : Word32) : Word32 :=
  if o.fmt == 0 then
    let x := fp32Val false a.toNat
    let y := fp32Val false b.toNat
    BitVec.ofNat 32 (rne32Bits false (match o.op with
      | 0 => FVal.add false x y
      | 1 => vmax x y
      | _ => vmin x y))
  else
    let val (v : Word32) : Int := if o.fmt == 1 then v.toInt else v.toNat
    match o.op with
    | 0 => a + b
    | 1 => if val a < val b then b else a
    | _ => if val b < val a then b else a

/-- The result and staging areas are virtual addresses of the contributor's partition (DEDUCED, log entry 31): the pages of a
range, as physical runs. -/
def State.objectRuns (s : State) (p : BitVec 3) (va n : Nat) : Option (List Run) :=
  if 2 ^ 56 < va + n then none
  else
    (blocksOf va n).foldr (fun b acc =>
      match acc, s.dispLeaf p b with
      | some rs, .ok x =>
        if s.physOk (x.paOf b) then some (⟨x.paOf b, min (va + n) ((b / 4096 + 1) * 4096) - b⟩ :: rs) else none
      | _, _ => none) (some [])

/-- Element i of bytes that an engine holds: none when one of its bytes is uncorrectable. -/
def heldElem (bs : List (Option Byte)) (i : Nat) : Option Word32 :=
  (((bs.drop (4 * i)).take 4).mapM id).map (fun e => BitVec.ofNat 32 (leNat e))

/-- The bytes of an element; what it was made of may be uncorrectable. -/
def elemBytes (e : Option Word32) : List (Option Byte) := e.elim (List.replicate 4 none) (fun v => (leBytes 4 v.toNat).map some)

/-- One contribution combined into data (13 R354): the first replaces it. An element that meets uncorrectable data is so itself, and it
alone makes its granule poisoned (R333). -/
def State.combine (s : State) (o : RedObject) (data : List Run) (cnt : Nat) (c : List (Option Byte)) : State :=
  let old := (s.moveRuns .taken data 0).map Moved.held
  let new := if cnt == 0 then c else (List.range o.nelem).flatMap (fun i => elemBytes (do
    let a ← heldElem old i
    let b ← heldElem c i
    some (redElem o a b)))
  (s.moveRunsTo .l .taken data (new.map movedOf)).1

/-- The header's count and flags after an operation. -/
def State.putCount (s : State) (pa cnt : Nat) (rdy flt : Bool) : State :=
  let w := s.mem.read64 pa
  let v := bits w 63 34 * 2 ^ 34 + bits w 31 16 * 2 ^ 16 + cnt % 2 ^ 16 + (if rdy || w.getLsbD 32 then 2 ^ 32 else 0)
    + (if flt || w.getLsbD 33 then 2 ^ 33 else 0)
  s.homeWrite .l pa (leBytes 8 v)

/-- The bit of contribution k in the bitmap (13 R352). -/
def slotPitch (o : RedObject) : Nat := 16 * ((o.nelem + 3) / 4)

/-- Slots taken into data in ascending order while their bits are set (13 R354). -/
def State.drainSlots (s : State) (p : BitVec 3) (o : RedObject) (data bitmap : List Run) : Nat → Nat → State × Nat
  | 0, cnt => (s, cnt)
  | fuel + 1, cnt =>
    let bitOf : Bool := match s.moveRuns .taken (runsSlice bitmap (cnt / 8) 1) 0 with
      | .ok b :: _ => b.getLsbD (cnt % 8)
      | _ => false
    if cnt < o.n && bitOf then
      match s.objectRuns p (o.stage + cnt * slotPitch o) (4 * o.nelem) with
      | none => (s, cnt)
      | some slot => (s.combine o data cnt ((s.moveRuns .taken slot 0).map Moved.held)).drainSlots p o data bitmap fuel (cnt + 1)
    else (s, cnt)

/-- A contribution that counts in a deterministic round (13 R354); none when it is dropped. -/
def State.applyDet (s : State) (p : BitVec 3) (pa : Nat) (o : RedObject) (data : List Run) (index : Nat)
    (c : List (Option Byte)) : Option State := do
  let bitmap ← s.objectRuns p (o.stage + o.n * slotPitch o) ((o.n + 7) / 8)
  let slot ← s.objectRuns p (o.stage + index * slotPitch o) (4 * o.nelem)
  let cell := runsSlice bitmap (index / 8) 1
  match s.moveRuns .taken cell 0 with
  | .ok b :: _ =>
    if o.n ≤ index || b.getLsbD (index % 8) then none
    else
      let t := (s.moveRunsTo .l .taken slot (c.map movedOf)).1
      let t := (t.moveRunsTo .l .taken cell [.ok (b ||| BitVec.ofNat 8 (2 ^ (index % 8)))]).1
      let (u, cnt) := t.drainSlots p o data bitmap (o.n - o.cnt) o.cnt
      some (u.putCount pa cnt (cnt == o.n) false)
  | _ => none

/-- A contribution applied at the object's home (13 R354): whether it counted. A length that is not the header's nelem, a result
or staging area that cannot be reached and an object that cannot be read drop it (DEDUCED, log entry 31). -/
def State.contribute (s : State) (p : BitVec 3) (pa index : Nat) (det : Bool) (c : List (Option Byte)) : State × Bool :=
  let s := (linesOf pa 64).foldl State.writeBackLine s
  if s.homeBad pa 64 || !s.physOk pa then (s, false)
  else
    let o := s.readObject pa
    let drop : State × Bool := (s.putCount pa o.cnt false true, false)
    if !o.valid || o.det != det || c.length != 4 * o.nelem then drop
    else
      match s.objectRuns p o.data (4 * o.nelem) with
      | none => drop
      | some data =>
        if o.det then
          match s.applyDet p pa o data index c with
          | some t => (t, true)
          | none => drop
        else if o.cnt == o.n then drop
        else ((s.combine o data o.cnt c).putCount pa (o.cnt + 1) ((o.cnt + 1) % 2 ^ 16 == o.n) false, true)

/-- The lines that a contribution to an object reads or writes: its own, and those of its result and of its staging area. -/
def State.objectLines (s : State) (p : BitVec 3) (pa : Nat) : List Nat :=
  let o := ((linesOf pa 64).foldl State.writeBackLine s).readObject pa
  let area (va n : Nat) : List Nat := ((s.objectRuns p va n).getD []).flatMap (fun r => linesOf r.pa r.len)
  linesOf pa 64 ++ area o.data (4 * o.nelem) ++ if o.det then area o.stage (o.n * slotPitch o + (o.n + 7) / 8) else []

/-- The homes of those lines take the collective engine's requests (16 R406). -/
def State.objectTaken (s : State) (p : BitVec 3) (pa : Nat) : Bool := s.dev.l2.switching.isNone || s.homesTake (s.objectLines p pa)

/-- CRED_CONTRIBUTION (13 R353, R354; 16 R428). A contribution of this core that is dropped, or that its peer does not take, sets
flt in its barrier; its bytes were subtracted when the source was read (DEDUCED, log entry 32). -/
def execCredContribution (c : CredSource) (s : State) : Out :=
  .next (match c with
    | .other k => if s.physOk k.objPa && s.objectTaken k.part k.objPa then (s.contribute k.part k.objPa k.index k.det k.data).1 else s
    | .own id accepted =>
      match s.cmd id with
      | some c =>
        match c.kind with
        | .cred obj _ index _ (some data) =>
          let away := (s.peerOf obj).isSome
          if !s.barrierTaken c.barrier || !(away || s.objectTaken c.part obj) then s
          else
            let (t, taken) := if away then (s, accepted && !s.cutOff obj) else s.contribute c.part obj index c.det data
            (if taken then t else t.deliver .l c.barrier 0 true).endCmd id
        | _ => s
      | none => s)

/-! Offload. -/

/-- ofld.out and ofld.in (13 R356). DESIGN CHOICE, log entry 87: of several register values that break a limit k.tval takes that of x[xd],
then that of x[xa], then that of x[xb]. -/
def State.ofldIssue (s : State) (d a b : BitVec 5) (out : Bool) : Run? State := do
  s.needCommand
  let v := s.x d
  let drive := bits v 63 60
  let va := addrOf (s.x a)
  let n := (s.x b).toNat
  let bar := addrOf (s.x (b + 1))
  need (bits v 59 48 == 0 && ((s.partAt s.part).drives[drive % 16]'(Nat.mod_lt _ (by decide))).dv) .engineArg v
  need (va % 4096 == 0) .engineArg (s.x a)
  need (n % 4096 == 0 && decide (4096 ≤ n) && decide (n ≤ 4194304)) .engineArg (s.x b)
  needBarAlign bar
  needAddr va n
  let m ← s.engineMap (if out then .read else .write) va n
  let mb ← s.barrierMap bar
  s.needPhys false bar mb
  let t := (s.touchAll (if out then .read else .write) m).touchAll .readWrite mb
  .ok ((t.issue (.ofld out drive (bits v 47 0) (m.runs va n) (n / 4096) (min 32 (n / 4096)) [] []) (barrierPa bar mb)
    (m.pages ++ mb.pages)).advance)

/-- ofld.out (13 R356). -/
def execOfldOut (d a b : BitVec 5) (s : State) : Out := s.finish (s.ofldIssue d a b true)

/-- ofld.in (13 R356). -/
def execOfldIn (d a b : BitVec 5) (s : State) : Out := s.finish (s.ofldIssue d a b false)

/-- The NVMe statuses LBA Out of Range and Capacity Exceeded, as the NVM command set numbers them (PRESUMED, log entry 33). -/
def noSpace (status : Nat) : Bool := status % 2 ^ 11 == 0x80 || status % 2 ^ 11 == 0x81

/-- The lowest failed page, with its status, which gives that of the record too (DESIGN CHOICE, log entry 33). -/
def lowestFailed (failed : List (Nat × Nat)) : Nat × Nat :=
  failed.foldl (fun m f => if f.1 < m.1 then f else m) (failed.headD (0, 0))

/-- The record of an offload that failed (13 R357). -/
def State.ofldRecord (s : State) (c : Cmd) (ok : List Nat) (failed : List (Nat × Nat)) : State :=
  let f := lowestFailed failed
  s.completion c.part c.launch 6 (if noSpace f.2 then 8 else 9) 0 0 c.task
    (BitVec.ofNat 64 (4096 * ok.length + f.1 % 2 ^ 16 * 2 ^ 32 + f.2 % 2 ^ 16 * 2 ^ 48))

/-- An offload after a page has ended: more pages are issued while none has failed, and it finishes when none is outstanding
(13 R356, R357). -/
def State.ofldProgress (s : State) (c : Cmd) (out : Bool) (drive lba : Nat) (memory : List Run) (npages issued : Nat) (ok : List Nat)
    (failed : List (Nat × Nat)) : State :=
  let issued := if failed.isEmpty then min npages (ok.length + 32) else issued
  if ok.length + failed.length < issued then s.setCmd c.id (.ofld out drive lba memory npages issued ok failed)
  else if failed.isEmpty then s.endCmd c.id
  else (s.ofldRecord c ok failed).endCmd c.id

/-- The page is outstanding. -/
def outstanding (issued page : Nat) (ok : List Nat) (failed : List (Nat × Nat)) : Bool :=
  decide (page < issued) && !ok.contains page && !failed.any (fun f => f.1 == page)

/-- The root port of a command's drive. -/
def State.cmdPort (s : State) (c : Cmd) : Option Nat :=
  match c.kind with
  | .ofld _ drive _ _ _ _ _ _ => some ((s.partAt c.part).drives[drive % 16]'(Nat.mod_lt _ (by decide))).dport.toNat
  | _ => none

/-- OFLD_PAGE_COMPLETION (13 R356, R357): the NVMe command of one page completes; for ofld.in with its data. A page of memory
that cannot be reached fails (DEDUCED, log entry 33). -/
def execOfldPageCompletion (cmd page status : Nat) (data : List Byte) (s : State) : Out :=
  .next (match s.cmd cmd with
    | some c =>
      match c.kind with
      | .ofld out drive lba memory npages issued ok failed =>
        if !outstanding issued page ok failed || (!out && status == 0 && data.length != 4096)
            || !s.placeTaken (.mem memory) (4096 * page) 4096 || !s.barrierTaken c.barrier then s
        else
          let part := runsSlice memory (4096 * page) 4096
          if status != 0 then s.ofldProgress c out drive lba memory npages issued ok (failed ++ [(page, status)])
          else if !part.all (fun r => s.physOk r.pa) then
            s.ofldProgress c out drive lba memory npages issued ok (failed ++ [(page, 0xFFFF)])
          else
            let t := if out then s else (s.moveRunsTo .f .taken part (data.map .ok)).1
            (t.deliverBy .f ((s.cmdPort c).getD 0) c.barrier 4096 false).ofldProgress c out drive lba memory npages issued (ok ++ [page]) failed
      | _ => s
    | none => s)

/-- OFLD_TIMEOUT (13 R357): the command of a page does not complete. -/
def execOfldTimeout (cmd page : Nat) (s : State) : Out :=
  .next (match s.cmd cmd with
    | some c =>
      match c.kind with
      | .ofld out drive lba memory npages issued ok failed =>
        if outstanding issued page ok failed then
          s.ofldProgress c out drive lba memory npages issued ok (failed ++ [(page, 0xFFFF)])
        else s
      | _ => s
    | none => s)

/-- LOST_LINK (13 R357): every outstanding page of the port's offloads fails, and the offloads stop. -/
def execLostLink (port : Fin 4) (s : State) : Out :=
  .next ((s.core.cmds.filter (fun c => s.cmdPort c == some port.val)).foldl (fun s c =>
    match c.kind with
    | .ofld out drive lba memory npages issued ok failed =>
      let lost := ((List.range issued).filter (fun p => outstanding issued p ok failed)).map (fun p => (p, 0xFFFF))
      s.ofldProgress c out drive lba memory npages issued ok (failed ++ lost)
    | _ => s) s)

end Sys2Proof.Machine
end

