-- ==== Sys2Proof/Machine/Control.lean ====
section
/-! DEFINITION. Branches, jumps, calls and repeat frames, opcodes 0x18 to 0x1F (04 R114 to R123). -/

namespace Sys2Proof.Machine

/-- The address of the next word (04 R114). -/
def State.nextPc (s : State) : BitVec 56 := s.pc + 4

/-- pc + 4 * offset (04 R114, R115). -/
def State.relative {n : Nat} (s : State) (o : BitVec n) : BitVec 56 := s.pc + (o.signExtend 56) * 4

/-- A compare and branch (04 R114). -/
def branch (c : Bool) (o : BitVec 15) (s : State) : Out := .next (s.jump (if c then s.relative o else s.nextPc))

def execBeq (a b : BitVec 5) (o : BitVec 15) (s : State) : Out := branch (s.x a == s.x b) o s
def execBne (a b : BitVec 5) (o : BitVec 15) (s : State) : Out := branch (s.x a != s.x b) o s
def execBlt (a b : BitVec 5) (o : BitVec 15) (s : State) : Out := branch ((s.x a).slt (s.x b)) o s
def execBge (a b : BitVec 5) (o : BitVec 15) (s : State) : Out := branch (!(s.x a).slt (s.x b)) o s

/-- The return address of call and callr (04 R115, R116). -/
def State.link (s : State) : Word64 := s.nextPc.setWidth 64

/-- j (04 R115). -/
def execJ (o : BitVec 25) (s : State) : Out := .next (s.jump (s.relative o))

/-- call (04 R115): x1 takes the address of the next word. -/
def execCall (o : BitVec 25) (s : State) : Out := .next ((s.setX 1 s.link).jump (s.relative o))

/-- jr (04 R116). -/
def execJr (a : BitVec 5) (s : State) : Out :=
  s.finish (do
    let t := s.x a
    need (bits t 1 0 == 0) .pcAlign t
    .ok (s.jump (t.setWidth 56)))

/-- callr (04 R116): the target is read before xd is written. -/
def execCallr (d a : BitVec 5) (s : State) : Out :=
  s.finish (do
    let t := s.x a
    need (bits t 1 0 == 0) .pcAlign t
    .ok ((s.setX d s.link).jump (t.setWidth 56)))

/-- k.repst as rep writes it (04 R121). -/
def repstOf (n1 : BitVec 4) (k1 : BitVec 8) (std sta stb stc : BitVec 2) : Word64 :=
  BitVec.ofNat 64 (n1.toNat + k1.toNat * 2 ^ 4 + std.toNat * 2 ^ 12 + sta.toNat * 2 ^ 14 + stb.toNat * 2 ^ 16
    + stc.toNat * 2 ^ 18 + 2 ^ 32)

/-- rep (04 R119 to R121; 01 R37): the captured words are fetched and checked, then the frame opens at its first word. -/
def execRep (n1 : BitVec 4) (k1 : BitVec 8) (std sta stb stc : BitVec 2) (s : State) : Out :=
  s.finish (do
    needTaken (s.fetchTaken s.nextPc (n1.toNat + 1))
    let is ← (s.capture s.nextPc (n1.toNat + 1)).get
    let k' := { s.k with repbase := s.link, repst := repstOf n1 k1 std sta stb stc, status := statusOf s.k.pl true }
    let s' := (((s.fetchedAll s.nextPc (n1.toNat + 1)).retired false).setK k').setPc s.nextPc
    .ok { s' with core.frame := is })

end Sys2Proof.Machine
end

