-- ==== Sys2Proof/Machine/Scalar.lean ====
section
/-! DEFINITION. Integer and address arithmetic, opcodes 0x01 to 0x0F (04 R102 to R108). -/

namespace Sys2Proof.Machine

/-- A result is written to xd and the instruction retires (04 R102). -/
def writeX (d : BitVec 5) (v : Word64) (s : State) : Out := .next (s.setX d v).advance

/-- The truth value 1 or 0 of a comparison (04 R105). -/
def flag (c : Bool) : Word64 := if c then 1 else 0

/-- padd and paddi (04 R108): only the address bits change. -/
def padd (a b : Word64) : Word64 := a.extractLsb' 56 8 ++ (a.extractLsb' 0 56 + b.extractLsb' 0 56)

/-- The number of one-bits among the lowest n bits. -/
def onesBelow (a : Word64) : Nat → Nat
  | 0 => 0
  | n + 1 => onesBelow a n + if a.getLsbD n then 1 else 0

/-- The number of zero-bits from bit n - 1 downwards before a one-bit. -/
def zerosFrom (a : Word64) : Nat → Nat
  | 0 => 0
  | n + 1 => if a.getLsbD n then 0 else zerosFrom a n + 1

/-- The number of zero-bits from bit k upwards before a one-bit, looking at n bits. -/
def zerosUp (a : Word64) : Nat → Nat → Nat
  | 0, _ => 0
  | n + 1, k => if a.getLsbD k then 0 else zerosUp a n (k + 1) + 1

/-- Signed quotient and remainder with the corners of 04 R106. -/
def divS (a b : Word64) : Word64 := if b = 0 then -1 else BitVec.ofInt 64 (a.toInt.tdiv b.toInt)
@[inherit_doc divS] def remS (a b : Word64) : Word64 := if b = 0 then a else BitVec.ofInt 64 (a.toInt.tmod b.toInt)
@[inherit_doc divS] def divU (a b : Word64) : Word64 := if b = 0 then -1 else BitVec.ofNat 64 (a.toNat / b.toNat)
@[inherit_doc divS] def remU (a b : Word64) : Word64 := if b = 0 then a else BitVec.ofNat 64 (a.toNat % b.toNat)

/-- The high halves of the exact products (04 R105). -/
def mulHighS (a b : Word64) : Word64 := BitVec.ofInt 64 ((a.toInt * b.toInt) / 2 ^ 64)
@[inherit_doc mulHighS] def mulHighU (a b : Word64) : Word64 := BitVec.ofNat 64 (a.toNat * b.toNat / 2 ^ 64)

/-- The smaller or larger of two values, signed and unsigned (04 R105). -/
def minS (a b : Word64) : Word64 := if b.slt a then b else a
@[inherit_doc minS] def maxS (a b : Word64) : Word64 := if a.slt b then b else a
@[inherit_doc minS] def minU (a b : Word64) : Word64 := if b.ult a then b else a
@[inherit_doc minS] def maxU (a b : Word64) : Word64 := if a.ult b then b else a

/-- Shift amounts are b[5:0] (04 R105). -/
def shamt (b : Word64) : Nat := b.toNat % 64

/-- The tag replaced by b[7:0] (04 R105). -/
def ptagged (a b : Word64) : Word64 := b.extractLsb' 0 8 ++ a.extractLsb' 0 56

def execAdd (d a b : BitVec 5) (s : State) : Out := writeX d (s.x a + s.x b) s
def execSub (d a b : BitVec 5) (s : State) : Out := writeX d (s.x a - s.x b) s
def execPadd (d a b : BitVec 5) (s : State) : Out := writeX d (padd (s.x a) (s.x b)) s
def execPtag (d a b : BitVec 5) (s : State) : Out := writeX d (ptagged (s.x a) (s.x b)) s
def execAnd (d a b : BitVec 5) (s : State) : Out := writeX d (s.x a &&& s.x b) s
def execOr (d a b : BitVec 5) (s : State) : Out := writeX d (s.x a ||| s.x b) s
def execXor (d a b : BitVec 5) (s : State) : Out := writeX d (s.x a ^^^ s.x b) s
def execShl (d a b : BitVec 5) (s : State) : Out := writeX d (s.x a <<< shamt (s.x b)) s
def execShr (d a b : BitVec 5) (s : State) : Out := writeX d (s.x a >>> shamt (s.x b)) s
def execSar (d a b : BitVec 5) (s : State) : Out := writeX d ((s.x a).sshiftRight (shamt (s.x b))) s
def execMin (d a b : BitVec 5) (s : State) : Out := writeX d (minS (s.x a) (s.x b)) s
def execMax (d a b : BitVec 5) (s : State) : Out := writeX d (maxS (s.x a) (s.x b)) s
def execMinu (d a b : BitVec 5) (s : State) : Out := writeX d (minU (s.x a) (s.x b)) s
def execMaxu (d a b : BitVec 5) (s : State) : Out := writeX d (maxU (s.x a) (s.x b)) s
def execMul (d a b : BitVec 5) (s : State) : Out := writeX d (s.x a * s.x b) s
def execMulh (d a b : BitVec 5) (s : State) : Out := writeX d (mulHighS (s.x a) (s.x b)) s
def execMulhu (d a b : BitVec 5) (s : State) : Out := writeX d (mulHighU (s.x a) (s.x b)) s
def execDiv (d a b : BitVec 5) (s : State) : Out := writeX d (divS (s.x a) (s.x b)) s
def execDivu (d a b : BitVec 5) (s : State) : Out := writeX d (divU (s.x a) (s.x b)) s
def execRem (d a b : BitVec 5) (s : State) : Out := writeX d (remS (s.x a) (s.x b)) s
def execRemu (d a b : BitVec 5) (s : State) : Out := writeX d (remU (s.x a) (s.x b)) s
def execPopc (d a : BitVec 5) (s : State) : Out := writeX d (BitVec.ofNat 64 (onesBelow (s.x a) 64)) s
def execClz (d a : BitVec 5) (s : State) : Out := writeX d (BitVec.ofNat 64 (zerosFrom (s.x a) 64)) s
def execCtz (d a : BitVec 5) (s : State) : Out := writeX d (BitVec.ofNat 64 (zerosUp (s.x a) 64 0)) s
def execSeq (d a b : BitVec 5) (s : State) : Out := writeX d (flag (s.x a == s.x b)) s
def execSne (d a b : BitVec 5) (s : State) : Out := writeX d (flag (s.x a != s.x b)) s
def execSlt (d a b : BitVec 5) (s : State) : Out := writeX d (flag ((s.x a).slt (s.x b))) s
def execSltu (d a b : BitVec 5) (s : State) : Out := writeX d (flag ((s.x a).ult (s.x b))) s

/-! Immediate forms (04 R107). -/

def execAddi (d a : BitVec 5) (i : BitVec 15) (s : State) : Out := writeX d (s.x a + sextImm i) s
def execAndi (d a : BitVec 5) (i : BitVec 15) (s : State) : Out := writeX d (s.x a &&& sextImm i) s
def execOri (d a : BitVec 5) (i : BitVec 15) (s : State) : Out := writeX d (s.x a ||| sextImm i) s
def execXori (d a : BitVec 5) (i : BitVec 15) (s : State) : Out := writeX d (s.x a ^^^ sextImm i) s
def execShli (d a : BitVec 5) (h : BitVec 6) (s : State) : Out := writeX d (s.x a <<< h.toNat) s
def execShri (d a : BitVec 5) (h : BitVec 6) (s : State) : Out := writeX d (s.x a >>> h.toNat) s
def execSari (d a : BitVec 5) (h : BitVec 6) (s : State) : Out := writeX d ((s.x a).sshiftRight h.toNat) s
def execPaddi (d a : BitVec 5) (i : BitVec 15) (s : State) : Out := writeX d (padd (s.x a) (sextImm i)) s
def execLi (d : BitVec 5) (i : BitVec 15) (s : State) : Out := writeX d (sextImm i) s
def execLih (d a : BitVec 5) (i : BitVec 15) (s : State) : Out := writeX d ((s.x a).extractLsb' 0 49 ++ i) s
def execSlti (d a : BitVec 5) (i : BitVec 15) (s : State) : Out := writeX d (flag ((s.x a).slt (sextImm i))) s
def execSltiu (d a : BitVec 5) (i : BitVec 15) (s : State) : Out := writeX d (flag ((s.x a).ult (sextImm i))) s
def execSeqi (d a : BitVec 5) (i : BitVec 15) (s : State) : Out := writeX d (flag (s.x a == sextImm i)) s
def execMuli (d a : BitVec 5) (i : BitVec 15) (s : State) : Out := writeX d (s.x a * sextImm i) s

end Sys2Proof.Machine
end

