-- ==== Sys2Proof/Machine/Float.lean ====
section
/-! DEFINITION. Scalar floating point, opcodes 0x10 to 0x12 (04 R109 to R113; 02 R57 to R61). -/

namespace Sys2Proof.Machine

/-- A format of the scalar floating-point forms: fp32 reads bits [31:0], fp64 the whole register (04 R104). -/
def fIn (f : FFmt) (s : State) (r : BitVec 5) : FVal := f.read s.k.ftz ((s.x r).toNat % 2 ^ f.width)

/-- The rounding direction in force (02 R57). -/
def State.rm (s : State) : Rm := Rm.ofBits s.k.rm

/-- A result rounded once by k.fpmode.rm and written, the higher bits zero (04 R104, R109). -/
def fOut (f : FFmt) (d : BitVec 5) (v : FVal) (s : State) : Out :=
  writeX d (BitVec.ofNat 64 (f.round s.rm false s.k.ftz v).bits) s

/-- An exact zero sum of unlike signs is -0 when rounding toward -inf (04 R110). -/
def State.rdn (s : State) : Bool := s.rm == .rdn

/-- a + b, a - b, a * b + d (04 R109). -/
def fAdd (f : FFmt) (d a b : BitVec 5) (s : State) : Out := fOut f d (FVal.add s.rdn (fIn f s a) (fIn f s b)) s
@[inherit_doc fAdd] def fSub (f : FFmt) (d a b : BitVec 5) (s : State) : Out :=
  fOut f d (FVal.add s.rdn (fIn f s a) (fIn f s b).neg) s
@[inherit_doc fAdd] def fFma (f : FFmt) (d a b : BitVec 5) (s : State) : Out :=
  fOut f d (FVal.add s.rdn (FVal.mul (fIn f s a) (fIn f s b)) (fIn f s d)) s

/-- The bits of a selected operand (04 R111): unchanged, but that a subnormal read as zero stays a zero of its sign. -/
def keepBits (f : FFmt) (s : State) (r : BitVec 5) : Nat :=
  let v := (s.x r).toNat % 2 ^ f.width
  match fIn f s r with
  | .fin sg 0 _ => f.signBit sg
  | _ => v

/-- fmin and fmax (04 R111): `pick b a` says that b is taken in place of a. -/
def fPick (f : FFmt) (pick : FVal → FVal → Bool) (d a b : BitVec 5) (s : State) : Out :=
  let x := fIn f s a
  let y := fIn f s b
  let r := if x.isNan && y.isNan then f.nanBits
    else if x.isNan then keepBits f s b
    else if y.isNan then keepBits f s a
    else if pick y x then keepBits f s b else keepBits f s a
  writeX d (BitVec.ofNat 64 r) s

def execFaddS (d a b : BitVec 5) (s : State) : Out := fAdd fp32 d a b s
def execFsubS (d a b : BitVec 5) (s : State) : Out := fSub fp32 d a b s
def execFmulS (d a b : BitVec 5) (s : State) : Out := fOut fp32 d (FVal.mul (fIn fp32 s a) (fIn fp32 s b)) s
def execFdivS (d a b : BitVec 5) (s : State) : Out := fOut fp32 d (FVal.div (fIn fp32 s a) (fIn fp32 s b)) s
def execFminS (d a b : BitVec 5) (s : State) : Out := fPick fp32 (fun y x => y.below x) d a b s
def execFmaxS (d a b : BitVec 5) (s : State) : Out := fPick fp32 (fun y x => x.below y) d a b s
def execFsqrtS (d a : BitVec 5) (s : State) : Out := fOut fp32 d (FVal.sqrt (fIn fp32 s a)) s
def execFfmaS (d a b : BitVec 5) (s : State) : Out := fFma fp32 d a b s
def execFeqS (d a b : BitVec 5) (s : State) : Out := writeX d (flag (FVal.eq (fIn fp32 s a) (fIn fp32 s b))) s
def execFltS (d a b : BitVec 5) (s : State) : Out := writeX d (flag (FVal.lt (fIn fp32 s a) (fIn fp32 s b))) s
def execFleS (d a b : BitVec 5) (s : State) : Out := writeX d (flag (FVal.le (fIn fp32 s a) (fIn fp32 s b))) s
def execFaddD (d a b : BitVec 5) (s : State) : Out := fAdd fp64 d a b s
def execFsubD (d a b : BitVec 5) (s : State) : Out := fSub fp64 d a b s
def execFmulD (d a b : BitVec 5) (s : State) : Out := fOut fp64 d (FVal.mul (fIn fp64 s a) (fIn fp64 s b)) s
def execFdivD (d a b : BitVec 5) (s : State) : Out := fOut fp64 d (FVal.div (fIn fp64 s a) (fIn fp64 s b)) s
def execFminD (d a b : BitVec 5) (s : State) : Out := fPick fp64 (fun y x => y.below x) d a b s
def execFmaxD (d a b : BitVec 5) (s : State) : Out := fPick fp64 (fun y x => x.below y) d a b s
def execFsqrtD (d a : BitVec 5) (s : State) : Out := fOut fp64 d (FVal.sqrt (fIn fp64 s a)) s
def execFfmaD (d a b : BitVec 5) (s : State) : Out := fFma fp64 d a b s
def execFeqD (d a b : BitVec 5) (s : State) : Out := writeX d (flag (FVal.eq (fIn fp64 s a) (fIn fp64 s b))) s
def execFltD (d a b : BitVec 5) (s : State) : Out := writeX d (flag (FVal.lt (fIn fp64 s a) (fIn fp64 s b))) s
def execFleD (d a b : BitVec 5) (s : State) : Out := writeX d (flag (FVal.le (fIn fp64 s a) (fIn fp64 s b))) s

/-- The floating-point layout of a scalar conversion code (04 R113). -/
def cvtFloat (c : BitVec 4) : Option FFmt :=
  match c.toNat with
  | 4 => some fp64
  | 5 => some fp32
  | 6 => some fp16
  | 7 => some bf16
  | _ => none

/-- The exact source value (04 R113). -/
def cvtSource (c : BitVec 4) (ftz : Bool) (v : Word64) : FVal :=
  match c.toNat with
  | 0 => FVal.ofInt v.toInt
  | 1 => FVal.ofInt v.toNat
  | 2 => FVal.ofInt (v.setWidth 32).toInt
  | 3 => FVal.ofInt (v.setWidth 32).toNat
  | _ =>
    match cvtFloat c with
    | some f => f.read ftz (v.toNat % 2 ^ f.width)
    | none => .nan

/-- The range of an integer target (04 R113; 02 R46). -/
def cvtRange (c : BitVec 4) : Int × Int :=
  match c.toNat with
  | 0 => (-2 ^ 63, 2 ^ 63 - 1)
  | 1 => (0, 2 ^ 64 - 1)
  | 2 => (-2 ^ 31, 2 ^ 31 - 1)
  | _ => (0, 2 ^ 32 - 1)

/-- The converted value and whether it became an infinity from a finite value (02 R59, R60): an s32 result is
sign-extended, every other narrow result zero-extended. -/
def fcvtResult (sat : BitVec 1) (src tgt : BitVec 4) (rm : Rm) (ftz : Bool) (v : Word64) : Word64 × Bool :=
  let x := cvtSource src ftz v
  match cvtFloat tgt with
  | some f =>
    let r := f.round rm (sat == 1) ftz x
    (BitVec.ofNat 64 r.bits, r.toInf)
  | none => (BitVec.ofInt 64 (x.toRange rm (cvtRange tgt).1 (cvtRange tgt).2), false)

def execFcvt (d a : BitVec 5) (sat : BitVec 1) (src tgt : BitVec 4) (s : State) : Out :=
  let r := fcvtResult sat src tgt s.rm s.k.ftz (s.x a)
  writeX d r.1 (s.stick 0 r.2)

end Sys2Proof.Machine
end

