-- ==== Sys2Proof/Machine/Launch.lean ====
section
/-! DEFINITION. The instructions of units on launches and messages: larm, lpat, cncl, trig, draw, smrg, exit (opcodes 0x70 to
0x76; 09 R227 to R236) and send, send.u (R237), and the messages under way (R238 to R240; 14 R386, R391). -/

namespace Sys2Proof.Machine

/-! larm and lpat. -/

/-- LAUNCH_POOL and LAUNCH_STATE (09 R228). -/
def State.needEntry (s : State) (v : Word64) : Run? Unit := do
  need (bits v 63 12 == 0 && decide (bits v 11 0 < (s.partAt s.part).poolEntries)) .launchPool v
  need (!(s.partAt s.part).launches.any (fun l => l.entry == some v.toNat)) .launchState v

/-- The record of a pool entry (09 R225). -/
def Part.entryPa (p : Part) (i : Nat) : Nat := p.poolbase.toNat + 128 * i

/-- larm (09 R228, R225). -/
def execLarm (d a : BitVec 5) (s : State) : Out :=
  s.finish (do
    let v := s.x a
    s.needEntry v
    let p := s.part
    let pa := (s.partAt p).entryPa v.toNat
    let (id, t) := s.enterLaunch p (some v.toNat) (s.readRec pa)
    .ok (t.setX d (id.setWidth 64)).advance)

/-- The word that lpat leaves (09 R228): the partition never changes. -/
def patched (w v : Word64) (width off : Nat) : Word64 :=
  let n := match width with
    | 0 => v.toNat
    | 1 => bits w 63 32 * 2 ^ 32 + bits v 31 0
    | _ => bits v 31 0 * 2 ^ 32 + bits w 31 0
  if off == 4 then BitVec.ofNat 64 (n / 2 ^ 40 * 2 ^ 40 + bits w 39 37 * 2 ^ 37 + n % 2 ^ 37) else BitVec.ofNat 64 n

/-- lpat (09 R228): performed at device scope before it retires, behind the unit's older stores to the word (11 R274). An entry where no
memory or no domain is takes nothing (10 R254, R257; log entry 68). -/
def execLpat (a b : BitVec 5) (width : BitVec 2) (off : BitVec 4) (s : State) : Out :=
  s.finish (do
    let v := s.x a
    s.needEntry v
    let pa := (s.partAt s.part).entryPa v.toNat + 8 * off.toNat
    let s ← s.settleIf (fun e => e.meets [⟨pa, 8⟩])
    needTaken (!s.physHome pa || s.homesTake [lineOf pa])
    let t := (linesOf pa 8).foldl State.dropLine s
    let w := patched (t.mem.read64 pa) (s.x b) width.toNat off.toNat
    .ok (if s.physHome pa then t.ownHomeWrite pa (leBytes 8 w.toNat) else s).advance)

/-! cncl. -/

/-- The launches that a cncl of level 1 to 4 names (09 R229): xa's bits above the identifier are ignored (DESIGN CHOICE, log entry
78). -/
def Part.named (p : Part) (level : Nat) (v : Word64) : List Launch :=
  p.launches.filter (fun l =>
    match level with
    | 1 => l.id == v.setWidth 32
    | 2 => l.graph == bits v 15 0
    | 3 => l.phaseId == bits v 15 0
    | _ => true)

/-- The unit that cncl.unit names: one that has started and whose exit has not retired (09 R229; DEDUCED, log entry 36). -/
def Part.current (p : Part) (task : BitVec 32) : Option (Launch × UnitRec) :=
  (p.findUnit task).bind (fun e =>
    match e.2.place with
    | .here => some e
    | .elsewhere _ => some e
    | .saved _ => some e
    | _ => none)

/-- The effects of a cncl once it has retired (09 R229): a unit, or the launches of a level; the job completes when none is
left. -/
def State.cancelUnitOf (s : State) (p : BitVec 3) (e : Launch × UnitRec) : State :=
  ((s.cancelUnit p e.1 e.2).modPart p (fun q => q.modLaunch e.1.id (fun l => { l with partialEnd := true }))).checkTrigger p e.1.id
@[inherit_doc State.cancelUnitOf] def State.cancelAll (s : State) (p : BitVec 3) (ls : List Launch) (job : Bool) : State :=
  let t := ls.foldl (fun s l => s.cancelLaunch p l) s
  if job then (t.modPart p (fun q => { q with jobCancel := true })).closeJob p else t

/-- The effects of a cncl of a level and an operand on the launches of a partition: nothing when it names none. -/
def State.cancelFrom (s : State) (p : BitVec 3) (level : BitVec 3) (v : Word64) : State :=
  if level == 0 then ((s.partAt p).current (v.setWidth 32)).elim s (s.cancelUnitOf p)
  else if level == 4 && v.extractLsb' 0 3 != p then s
  else s.cancelAll p ((s.partAt p).named level.toNat v) (level == 4)

/-- cncl (09 R229). -/
def execCncl (d a : BitVec 5) (level : BitVec 3) (s : State) : Out :=
  s.finish (do
    s.needLevel (!(level == 4 && s.k.pl == 0))
    let p := s.part
    let v := s.x a
    let pt := s.partAt p
    let found := if level == 0 then (pt.current (v.setWidth 32)).isSome
      else if level == 4 then v.extractLsb' 0 3 == p else !(pt.named level.toNat v).isEmpty
    .ok ((s.setX d (if found then 1 else 0)).advance.cancelFrom p level v))

/-! trig and exit. -/

/-- The resident unit's record changed. -/
def State.modMine (s : State) (f : UnitRec → UnitRec) : State :=
  let id := s.core.unit.ident
  s.modPart id.part (fun q => q.modLaunch id.launch (fun l => l.modUnit id.unit.toNat f))

/-- trig (09 R230): fence.rel.dev, and the unit is triggered. -/
def execTrig (s : State) : Out :=
  s.finish (do
    let t ← s.release 2
    let t : State := { t with core.unit.trig := true }
    .ok ((t.modMine (fun u => { u with triggered := true })).checkTrigger s.part s.core.unit.ident.launch).advance)

/-- exit (09 R231; 14 R363): a release at .dev; the unit fetches nothing further, and it counts as triggered. -/
def execExit (s : State) : Out :=
  s.finish (do
    let t ← s.release 2
    let u := ((t.retired false).stopUnit).modMine (fun u => { u with place := .exiting s.core.num.toNat })
    .ok (u.checkTrigger s.part s.core.unit.ident.launch))

/-! draw. -/

/-- The slices that the next draw takes (09 R234). -/
def Launch.chunk (l : Launch) : Nat := max 1 (l.remaining / (4 * l.record.units))

/-- A unit on a core draws the next chunk (09 R234): the counter falls, and the slices' entries are written (R241). -/
def State.drawFor (s : State) (p : BitVec 3) (l : Launch) (u core : Nat) : State :=
  let c := l.chunk
  let t := s.modPart p (fun q => q.modLaunch l.id (fun k =>
    { k.modUnit u (fun r => { r with drawn := r.drawn + c }) with remaining := k.remaining - c }))
  (List.range c).foldl (fun t i => t.sliceEntry p l (l.record.slices - l.remaining + i) core u) t

/-- draw (09 R234, R241). LAUNCH_STATE names no k.tval here: it is a free value (log entry 21). -/
def execDraw (d : BitVec 5) (s : State) : Out :=
  s.finish (do
    let id := s.core.unit.ident
    match s.launch?.filter (fun l => l.record.smode) with
    | none => .error (.trap .launchState (Config.openTval Cause.launchState.code.toNat s.tick) 0)
    | some l =>
      if l.remaining == 0 then .ok (s.setX d (BitVec.allOnes 64)).advance
      else
        let c := l.chunk
        let first := l.record.slices - l.remaining
        let t := s.drawFor id.part l id.unit.toNat s.core.num.toNat
        let t : State := { t with core.unit.ident.slice := BitVec.ofNat 32 first }
        .ok (t.setX d (BitVec.ofNat 64 (c % 2 ^ 32 * 2 ^ 32 + first % 2 ^ 32))).advance)

/-! smrg. -/

/-- The formats of smrg (09 R235). -/
def mergeFormat (op : BitVec 2) (p : Word64) : Bool :=
  let f := (ptrFmt p).toNat
  ptrLbl p == 0 && (f == 0x01 || f == 0x0C || f == 0x0D || f == 0x0F) && !(op == 3 && f == 0x01)

/-- The result format of smrg (09 R235). -/
def mergeResult (op : BitVec 2) (f : BitVec 5) : BitVec 5 := if op == 0 && f == 0x0D then 0x0F else f

/-- One element over the partials in ascending slice order (09 R235), with its flags. -/
def mergeElem (op : BitVec 2) (f : BitVec 5) (ftz : Bool) (es : List Word32) : Flagged :=
  match es with
  | [] => ⟨0, false, false⟩
  | e :: r =>
    if f == 0x01 then
      let fed := es.all (fun b => (fp32Val ftz b.toNat).isFinite)
      r.foldl (fun a b =>
        let x := fp32Val ftz a.bits.toNat
        let y := fp32Val ftz b.toNat
        match op.toNat with
        | 0 => floatResult fp32 ftz fed (FVal.add false x y)
        | 1 => floatResult fp32 ftz fed (vmax x y)
        | _ => floatResult fp32 ftz fed (vmin x y)) ⟨e, false, false⟩
    else
      let rf := mergeResult op f
      r.foldl (fun a b =>
        let x := intElem rf a.bits
        let y := intElem f b
        match op.toNat with
        | 0 => let n := intResult rf (x + y); ⟨n.bits, false, a.iov || n.iov⟩
        | 1 => ⟨if x < y then b else a.bits, false, a.iov⟩
        | 2 => ⟨if y < x then b else a.bits, false, a.iov⟩
        | _ => ⟨a.bits ||| b, false, a.iov⟩) ⟨e, false, false⟩

/-- smrg (09 R235, R236). Of several partial rows that cannot be corrected, the lowest row in memory gives k.tval its tile row (DESIGN
CHOICE, log entry 79). -/
def execSmrg (d : BitVec 4) (op : BitVec 2) (xp : BitVec 5) (s : State) : Out :=
  s.finish (do
    let p := s.x xp
    let sh := s.x (xp + 1)
    need (mergeFormat op p) .badFormat p
    let mr := shRows sh
    let mc := shCols sh
    let n := shAux sh
    need (decide (mr ≤ 32) && decide (mc ≤ 32) && n != 0) .tileShape sh
    let f := ptrFmt p
    let sp := rowSpan f 0 false mc
    let len := rangeLen sp (shStride sh) (n * mr) mc
    needAddr (addrOf p) len
    let ras := rowAddrs (addrOf p) (shStride sh) (n * mr)
    let ranges := (ras.map (rowRanges sp mc)).flatten
    let m ← s.access .read true ranges
    let s1 ← s.settle (addrOf p) len (m.runsOf ranges)
    let rows := ras.map ((s1.memReader m).row f sp mc)
    match (List.range (n * mr)).find? (fun i => ((rows[i]?).map (·.bad)).getD false) with
    | some i => .error (.trap .machineCheck (poisonVal (i % mr) 0 0 1) (((rows[i]?).bind (·.origin)).getD 0))
    | none =>
      let el (i j : Nat) : List Word32 := (List.range n).map (fun k => ((rows[k * mr + i]?).map (fun r => r.elems.getD j 0)).getD 0)
      let res := flaggedRows mr mc (fun i j => mergeElem op f s.k.ftz (el i j))
      .ok ((s1.readTouch m ranges).writeFlagged d (mergeResult op f) mr mc res).advance)

/-! Messages. -/

/-- A message goes to the network interface, which holds 8 sends of the unit (09 R237). -/
def State.pushMsg (s : State) (toUnit : Bool) (target : Nat) (m : BitVec 3) (v : Word64) : Run? State :=
  let id := s.core.unit.ident
  if s.ownSends.length < 8 then
    .ok { s with core.net := s.core.net ++ [⟨toUnit, target, m, v, id.part, id.launch, id.task, false⟩] }
  else .error (.wait .network)

/-- send (09 R237): the target core belongs to the sender's partition. -/
def execSend (m : BitVec 3) (a b : BitVec 5) (s : State) : Out :=
  s.finish (do
    let v := s.x a
    need (bits v 63 7 == 0 && (s.partAt s.part).qmask.getLsbD (bits v 6 4)) .sendTarget v
    let t ← s.pushMsg false (bits v 6 0) m (s.x b)
    .ok t.advance)

/-- send.u (09 R237): the target is a unit of the sender's launch. -/
def execSendU (m : BitVec 3) (a b : BitVec 5) (s : State) : Out :=
  s.finish (do
    let v := s.x a
    need (bits v 63 32 == 0 && decide (bits v 31 0 < (s.launch?.map (fun l => l.record.units)).getD 0)) .sendTarget v
    let t ← s.pushMsg true (bits v 31 0) m (s.x b)
    .ok t.advance)

/-- Whose mailbox a message reaches (09 R238): that of the unit on a core, or of a unit of a launch that is resident on none. -/
inductive Target where
  | core (n : Nat)
  | unit (launch : BitVec 32) (u : Nat)
  deriving DecidableEq, Repr

/-- The target of a message as its unit stands now. -/
def State.targetOf (s : State) (m : Msg) : Target :=
  if !m.toUnit then .core m.target
  else
    match ((s.partAt m.part).launch m.launch).bind (fun l => l.units.find? (fun u => u.u == m.target)) with
    | none => .unit m.launch m.target
    | some u =>
      match u.place with
      | .here => .core s.core.num.toNat
      | .elsewhere c => .core c
      | _ => .unit m.launch m.target

/-- The oldest message of its sender to one mailbox of one target: later ones wait behind a refused one (09 R238). -/
def State.msgFirst (s : State) (i : Nat) : Bool :=
  match s.core.net[i]? with
  | none => false
  | some m => !((s.core.net.take i).any (fun k =>
      k.part == m.part && k.task == m.task && k.mbox == m.mbox && s.targetOf k == s.targetOf m))

/-- The record of a dropped message (09 R240): the target core, the mailbox and the sender's task. -/
def State.dropRecord (s : State) (m : Msg) (core : Nat) : State :=
  s.completion m.part m.launch 5 7 0 0 0 (BitVec.ofNat 64 (core % 128 + m.mbox.toNat * 2 ^ 8 + m.task.toNat * 2 ^ 32))

/-- A message is taken out of the interface. -/
def State.takeMsg (s : State) (i : Nat) : State := { s with core.net := s.core.net.eraseIdx i }

/-- A message is refused and waits for its retry. -/
def State.refuseMsg (s : State) (i : Nat) : State := { s with core.net := s.core.net.modify i (fun m => { m with refused := true }) }

/-- An arrival at a mailbox of the resident unit (09 R238): none when it is full. -/
def State.arrive (s : State) (m : BitVec 3) (v : Word64) : Option State :=
  if (s.mbox m).full then none else some (s.setMbox m ⟨v, true⟩)

/-- An arrival at a saved unit (14 R386): none when the saved mailbox is full. -/
def State.arriveSaved (s : State) (p : BitVec 3) (slot : Nat) (m : BitVec 3) (v : Word64) : Option State :=
  let pa := (s.partAt p).slotPa slot
  let full := (s.slotRead p (pa + 0x10540) 1).mem.readNat (pa + 0x10540) 1
  if full.testBit m.toNat then none
  else
    let t := s.slotWrite p (pa + 0x10500 + 8 * m.toNat) (leBytes 8 v.toNat)
    some (t.slotWrite p (pa + 0x10540) [BitVec.ofNat 8 (full + 2 ^ m.toNat)])

/-- The core runs a unit of the partition (09 R240), as far as the dispatcher knows: 09 R231 lets an exited unit's core go only
at its end, but its mailboxes are gone. -/
def State.runsUnit (s : State) (p : BitVec 3) (core : Nat) : Bool :=
  (s.partAt p).launches.any (fun l => l.units.any (fun u =>
    match u.place with
    | .here => core == s.core.num.toNat
    | .elsewhere c => core == c
    | _ => false))

/-- A unit that left the modelled core is not yet installed at its new core: it refuses arrivals (14 R391). -/
def Core.moving (c : Core) (p : BitVec 3) (task : BitVec 32) : Bool :=
  c.forward.any (fun f => f.part == p && f.task == task && !f.installed)

/-- The save of the unit in a slot is complete (14 R386). -/
def State.slotFull (s : State) (p : BitVec 3) (slot : Nat) : Bool := (s.partAt p).saved.any (fun v => v.slot == slot && v.image)

/-- A message reaches its target (09 R238, R240; 14 R386, R391): the state after it is applied or dropped with its record, none when
it is refused. What units on other cores receive is not the model's. DESIGN CHOICE, log entry 88: the target core in the record of a
unit that never started, or whose launch has ended, is 0. -/
def State.receive (s : State) (m : Msg) : Option State :=
  if !m.toUnit then
    if !s.runsUnit m.part m.target then some (s.dropRecord m m.target)
    else if m.target == s.core.num.toNat then s.arrive m.mbox m.value
    else some s
  else
    match (s.partAt m.part).launch m.launch with
    | none => some (s.dropRecord m 0)
    | some l =>
      match l.units.find? (fun u => u.u == m.target) with
      | none => if l.cancelled then some (s.dropRecord m 0) else none
      | some u =>
        match u.place with
        | .here => s.arrive m.mbox m.value
        | .elsewhere _ => if s.core.moving m.part (BitVec.ofNat 32 (l.record.tbase + u.u)) then none else some s
        | .saved slot => if s.slotFull m.part slot then s.arriveSaved m.part slot m.mbox m.value else none
        | _ => some (s.dropRecord m u.core)

/-- A message of this core reaches its target, and leaves the interface unless it is refused. -/
def State.deliverMsg (s : State) (i : Nat) (m : Msg) : State :=
  match s.receive m with
  | some t => t.takeMsg i
  | none => s.refuseMsg i

/-- A message of a unit on another core; its own interface keeps one that is refused. -/
def State.inboundMsg (s : State) (m : Msg) : State := (s.receive m).getD s

/-- MESSAGE_ARRIVAL (09 R238 to R240; 14 R386, R391). -/
def execMessageArrival (e : MsgEvent) (s : State) : Out :=
  .next (match e with
    | .inbound _ part launch task toUnit target m v => s.inboundMsg ⟨toUnit, target, m, v, part, launch, task, false⟩
    | .delivered i =>
      match s.core.net[i]? with
      | some m => if s.msgFirst i && !m.refused then s.deliverMsg i m else s
      | none => s
    | .refused i => if s.msgFirst i then s.refuseMsg i else s
    | .dropped i =>
      match s.core.net[i]? with
      | some m => if s.msgFirst i && !m.toUnit && !s.runsUnit m.part m.target then (s.takeMsg i).dropRecord m m.target else s
      | none => s)

/-- MESSAGE_RETRY (09 R238): a refused message is sent again. -/
def execMessageRetry (i : Nat) (s : State) : Out :=
  .next { s with core.net := s.core.net.modify i (fun m => { m with refused := false }) }

end Sys2Proof.Machine
end

