-- ==== Sys2Proof/Machine/Matrix.lean ====
section
/-! DEFINITION. Matrix instructions, opcodes 0x48 to 0x4B (chapter 06; 02 R62 to R65). A stacked instruction has the
effect of the same instruction unstacked (06 R169). -/

namespace Sys2Proof.Machine

/-! Accumulation. -/

/-- tz(v, q) of 02 R62: truncation toward zero to a multiple of 2^q. -/
def FVal.trunc (v : FVal) (q : Int) : FVal :=
  match v with
  | .fin s m e => if q ≤ e then v else .fin s (m / 2 ^ (q - e).toNat) q
  | v => v

/-- floor(log2 |v|) of a value that is not zero. -/
def FVal.exponent (v : FVal) : Option Int :=
  match v with
  | .fin _ m e => if m == 0 then none else some ((m.log2 : Int) + e)
  | _ => none

/-- The largest exponent among values. -/
def topExponent (ps : List FVal) : Option Int :=
  ps.foldl (fun m p =>
    match m, p.exponent with
    | none, x => x
    | some a, some b => some (max a b)
    | some a, none => some a) none

/-- An exact sum whose zero is +0 unless every term is -0 (02 R64). -/
def sumExact : List FVal → FVal
  | [] => .fin false 0 0
  | p :: r => r.foldl (FVal.add false) p

/-- The sum s of one group of products (02 R62 to R64). -/
def groupSum (ps : List FVal) : FVal :=
  match topExponent ps with
  | some e => if ps.all (·.isFinite) then sumExact (ps.map (fun p => p.trunc (e - 47))) else sumExact ps
  | none => sumExact ps

/-- A list cut into groups of g, with fuel. -/
def chunksOf {α : Type} (g : Nat) : Nat → List α → List (List α)
  | 0, _ => []
  | n + 1, l => if l.isEmpty then [] else l.take g :: chunksOf g n (l.drop g)

/-- One floating-point result element (02 R62): the accumulation of the groups from Cin. -/
def accumulate (ftz : Bool) (g : Nat) (cin : FVal) (ps : List FVal) : FVal :=
  (chunksOf g ps.length ps).foldl (fun acc grp => addRne ftz acc (rne32 ftz (groupSum grp))) cin

/-- The kinds of accumulation (06 R155). -/
inductive AccKind where
  | float (g : Nat)
  | int
  deriving DecidableEq, Repr

/-- The format of a floating-point operand of 8 bits or fewer (02 R62). -/
def narrowFloat (f : BitVec 5) : Bool := 4 ≤ f.toNat && f.toNat ≤ 8

/-- s8, s4 or z8 (06 R155). -/
def matrixInt (f : BitVec 5) : Bool := f == 0x09 || f == 0x0A || f == 0x0D

/-- R155: the kind of accumulation, or the first offending format taken as A, B. -/
def accKind (fa fb : BitVec 5) : Except (BitVec 5) AccKind :=
  if isFloatCode fa then
    if !isFloatCode fb then .error fb
    else if fa == 0x01 || fb == 0x01 then .ok (.float 1)
    else if narrowFloat fa && narrowFloat fb then .ok (.float 32)
    else .ok (.float 8)
  else if matrixInt fa then (if matrixInt fb then .ok .int else .error fb)
  else .error fa

/-- The format of the accumulator and of the result (06 R155). -/
def AccKind.fmt (k : AccKind) : BitVec 5 :=
  match k with
  | .float _ => 0x01
  | .int => 0x0C

/-- The format checks of 06 R155 and R156, in the order A, B, C. -/
def needMatrixFormats (A B : Tile) (C : Option Tile) (bc : BitVec 1) : Run? AccKind :=
  match accKind A.fmt B.fmt with
  | .error f => .error (.trap .badFormat (f.setWidth 64) 0)
  | .ok k => do
    need (!(bc == 0 && B.scl)) .badFormat (B.fmt.setWidth 64)
    match C with
    | some c => need (c.fmt == k.fmt) .badFormat (c.fmt.setWidth 64)
    | none => .ok ()
    .ok k

/-- KB and N (06 R154). -/
def bShape (B : Tile) (bc : BitVec 1) : Nat × Nat := if bc == 0 then (B.rext, B.cext) else (B.cext, B.rext)

/-- TILE_SHAPE of 06 R157. -/
def needK (A B : Tile) (bc : BitVec 1) : Run? Unit :=
  let kb := (bShape B bc).1
  need (kb == A.cext) .tileShape (BitVec.ofNat 64 (kb * 64 + A.cext))

/-- One result element (06 R157): the float sum of 02 R62 or the integer sum of R65. -/
def productCell (k : AccKind) (ftz : Bool) (A B : Tile) (C : Option Tile) (bc : BitVec 1) (i j : Nat) : Flagged :=
  let at_ (n : Nat) : Nat × Nat := if bc == 0 then (n, j) else (j, n)
  let cbits : Word32 := (C.map (fun c => c.elem i j)).getD 0
  if A.cext == 0 then ⟨cbits, false, false⟩
  else
    match k with
    | .float g =>
      let cin := (FFmt.read fp32 ftz cbits.toNat)
      let as := (List.range A.cext).map (fun n => A.val ftz i n)
      let bs := (List.range A.cext).map (fun n => { B with scl := B.scl && bc == 1 }.val ftz (at_ n).1 (at_ n).2)
      let r := rne32Bits ftz (accumulate ftz g cin (List.zipWith FVal.mul as bs))
      ⟨BitVec.ofNat 32 r, cin.isFinite && as.all (·.isFinite) && bs.all (·.isFinite) && !(fp32.read false r).isFinite, false⟩
    | .int =>
      let c := (C.map (fun c => c.int i j)).getD 0
      intResult 0x0C (((List.range A.cext).map (fun n => A.int i n * B.int (at_ n).1 (at_ n).2)).foldl (· + ·) c)

/-- The product of 06 R157, from its checks of shape on: A is a register's tile or the gathered block. -/
def State.product (s : State) (d : BitVec 4) (k : AccKind) (A B : Tile) (C : Option Tile) (bc : BitVec 1) : State :=
  let n := (bShape B bc).2
  s.writeFlagged d k.fmt A.rext n (flaggedRows A.rext n (productCell k s.k.ftz A B C bc))

/-- The rows of tb that are consumed (06 R171). -/
def bRows (A B : Tile) (bc : BitVec 1) : Nat := if bc == 0 then A.cext else (bShape B bc).2

/-- mma (06 R157). The stk bit changes only timing (R169). -/
def execMma (d a b c : BitVec 4) (_stk bc : BitVec 1) (s : State) : Out :=
  s.finish (do
    let A := s.t a
    let B := s.t b
    let k ← needMatrixFormats A B (some (s.t c)) bc
    needK A B bc
    s.needClean [⟨a, 0, A.rext⟩, ⟨b, 1, bRows A B bc⟩, ⟨c, 2, A.rext⟩]
    .ok ((s.product d k A B (some (s.t c)) bc).advance true))

/-- mmz (06 R157): the accumulation starts from zero. -/
def execMmz (d a b : BitVec 4) (_stk bc : BitVec 1) (s : State) : Out :=
  s.finish (do
    let A := s.t a
    let B := s.t b
    let k ← needMatrixFormats A B none bc
    needK A B bc
    s.needClean [⟨a, 0, A.rext⟩, ⟨b, 1, bRows A B bc⟩]
    .ok ((s.product d k A B none bc).advance true))

/-- The checks of the pointer and the index tile of mmg (06 R160, R173): the tag, the formats that are never A, the index
format, then B and C. -/
def needGather (p : Word64) (mc : Nat) (ti : Tile) : Run? Unit := do
  need (tagOk p && !(ptrBlock p == 16 && decide (16 < mc))) .badFormat p
  let f := ptrFmt p
  need (!(f == 0x0E || f == 0x0C || f == 0x0F)) .badFormat (f.setWidth 64)
  need (!(f == 0 || f == xe4)) .badFormat p
  need (indexFormat ti.fmt) .badFormat (ti.fmt.setWidth 64)

/-- A poisoned gathered row is consumed as A (06 R162, R171). -/
def needGathered (A : Tile) : Run? Unit :=
  match (List.range A.rext).find? A.bad with
  | some i => .error (.trap .machineCheck (poisonVal i 0 0 1) A.origin)
  | none => .ok ()

/-- mmg (06 R160 to R162). -/
def execMmg (d ti b c : BitVec 4) (_stk bc : BitVec 1) (hint : BitVec 2) (xp : BitVec 5) (s : State) : Out :=
  s.finish (do
    let p := s.x xp
    let sh := s.x (xp + 1)
    let B := s.t b
    needGather p (shCols sh) (s.t ti)
    let k ← needMatrixFormats { Tile.null with fmt := ptrFmt p } B (some (s.t c)) bc
    need (decide (shRows sh ≤ 32) && decide (shCols sh ≤ 32)) .tileShape sh
    needK { Tile.null with cext := shCols sh } B bc
    let (rows, s1) ← s.gather p sh (s.t ti) (shRows sh) (shCols sh) hint
    let A := placeRows (ptrFmt p) (ptrBlock p != 0) false (shRows sh) (shCols sh) rows none
    needGathered A
    s.needIndex ti A.rext
    s.needClean [⟨b, 1, bRows A B bc⟩, ⟨c, 2, A.rext⟩]
    .ok ((s1.product d k A B (some (s.t c)) bc).advance true))

/-! tadw (06 R163 to R165). -/

/-- The scalar operands of tadw (06 R163). -/
structure TadwScalars where
  lr : FVal
  eps : FVal
  b1 : FVal
  b2 : FVal
  c1 : FVal
  c2 : FVal

/-- The scalar values, read under ftz. -/
def tadwScalars (ftz : Bool) (lo hi : Word64) : TadwScalars :=
  let b1 := fp32.read ftz (bits hi 31 0)
  let b2 := fp32.read ftz (bits hi 63 32)
  { lr := fp32.read ftz (bits lo 31 0), eps := fp32.read ftz (bits lo 63 32), b1 := b1, b2 := b2,
    c1 := addRne ftz (.fin false 1 0) b1.neg, c2 := addRne ftz (.fin false 1 0) b2.neg }

/-- w - u / q rounded once, with q's sign and zero as 06 R165 says: the exact value of (w * q - u) / q. -/
def subQuotient (ftz : Bool) (w u q : FVal) : FVal :=
  match w, u, q with
  | .fin sw mw ew, .fin su mu eu, .fin sq mq eq =>
    if mq == 0 then rne32 ftz (FVal.add false (.fin sw mw ew) (FVal.div (.fin su mu eu) (.fin false 0 0)).neg)
    else
      let num := FVal.add false (FVal.mul (.fin sw mw ew) (.fin sq mq eq)) (FVal.fin su mu eu).neg
      let exactZero := FVal.add false (.fin sw mw ew) (FVal.fin (su != sq) mu 0).neg
      if num.isZero then (if mu == 0 then rne32 ftz exactZero else .fin false 0 0)
      else rne32 ftz (FVal.div num (.fin sq mq eq))
  | _, _, _ => rne32 ftz (FVal.add false w (FVal.div u q).neg)

/-- The results of one element (06 R164): mn, vn, wn. -/
def tadwElem (ftz : Bool) (k : TadwScalars) (w g m v : FVal) : FVal × FVal × FVal :=
  let mn := addRne ftz (FVal.mul k.b1 m) (FVal.mul k.c1 g)
  let vn := addRne ftz (FVal.mul k.b2 v) (FVal.mul (FVal.mul k.c2 g) g)
  let q := addRne ftz (rne32 ftz vn.sqrt) k.eps
  let u := FVal.mul k.lr mn
  let u' := if q.isZero && !u.isZero && !u.isNan then FVal.inf u.sign else u
  (mn, vn, if q.isZero then rne32 ftz (FVal.add false w (if u.isZero then FVal.nan else u'.neg)) else subQuotient ftz w u q)

/-- Formats of tadw (06 R163), the first offending operand taken as A, B, C, w (R173). -/
def needTadwFormats (g m v w : Tile) : Run? Unit := do
  need ((g.fmt == 0x01 || g.fmt == 0x02 || g.fmt == 0x03) && !g.scl) .badFormat (g.fmt.setWidth 64)
  need (m.fmt == 0x01) .badFormat (m.fmt.setWidth 64)
  need (v.fmt == 0x01) .badFormat (v.fmt.setWidth 64)
  need (w.fmt == 0x01) .badFormat (w.fmt.setWidth 64)

/-- Extents of tadw (06 R163): the first of td, tb and tc that differs from ta. -/
def needTadwShape (g : Tile) : List (BitVec 4 × Tile) → Run? Unit
  | [] => .ok ()
  | (r, t) :: rest => do
    need (t.rext == g.rext && t.cext == g.cext) .tileShape (r.setWidth 64)
    needTadwShape g rest

/-- tadw (06 R163 to R165). Each output is fed by what its formula names: nf asks whether that was finite. Two equal registers among td, tb and tc raise ILLEGAL_INSN, in a repeat frame after the
stagger. -/
def execTadw (d a b c : BitVec 4) (xh : BitVec 5) (s : State) : Out :=
  s.finish (do
    let w := s.t d
    let g := s.t a
    let m := s.t b
    let v := s.t c
    needTadwFormats g m v w
    needTadwShape g [(d, w), (b, m), (c, v)]
    s.needClean [⟨a, 0, g.rext⟩, ⟨b, 1, g.rext⟩, ⟨c, 2, g.rext⟩, ⟨d, 3, g.rext⟩]
    let ftz := s.k.ftz
    let k := tadwScalars ftz (s.x xh) (s.x (xh + 1))
    let out (t : FVal × FVal × FVal → FVal) (scalars : List FVal) (tiles : List Tile) : List (List Flagged) :=
      flaggedRows g.rext g.cext (fun i j =>
        floatResult fp32 ftz (scalars.all (·.isFinite) && tiles.all (fun x => (x.val ftz i j).isFinite))
          (t (tadwElem ftz k (w.val ftz i j) (g.val ftz i j) (m.val ftz i j) (v.val ftz i j))))
    let s1 := s.writeFlagged d 0x01 g.rext g.cext (out (·.2.2) [k.lr, k.eps, k.b1, k.b2] [w, g, m, v])
    let s1 := s1.writeFlagged b 0x01 g.rext g.cext (out (·.1) [k.b1] [m, g])
    .ok ((s1.writeFlagged c 0x01 g.rext g.cext (out (·.2.1) [k.b2] [v, g])).advance true))

end Sys2Proof.Machine
end

