-- ==== Sys2Proof/Machine/Early.lean ====
section
/-! DEFINITION. What the instructions that issue before they are the oldest compute (08 R206 to R212): the registers as a younger
instruction finds them. -/

namespace Sys2Proof.Machine

/-- The result of an instruction that issues before it is the oldest; of the others, none is seen before it retires (08 R207, R211). -/
def execEarly (i : Instr) (s : State) : Out :=
  match i with
  | .add a b c => execAdd a b c s
  | .sub a b c => execSub a b c s
  | .padd a b c => execPadd a b c s
  | .ptag a b c => execPtag a b c s
  | .and a b c => execAnd a b c s
  | .or a b c => execOr a b c s
  | .xor a b c => execXor a b c s
  | .shl a b c => execShl a b c s
  | .shr a b c => execShr a b c s
  | .sar a b c => execSar a b c s
  | .min a b c => execMin a b c s
  | .max a b c => execMax a b c s
  | .minu a b c => execMinu a b c s
  | .maxu a b c => execMaxu a b c s
  | .mul a b c => execMul a b c s
  | .mulh a b c => execMulh a b c s
  | .mulhu a b c => execMulhu a b c s
  | .div a b c => execDiv a b c s
  | .divu a b c => execDivu a b c s
  | .rem a b c => execRem a b c s
  | .remu a b c => execRemu a b c s
  | .popc a b => execPopc a b s
  | .clz a b => execClz a b s
  | .ctz a b => execCtz a b s
  | .seq a b c => execSeq a b c s
  | .sne a b c => execSne a b c s
  | .slt a b c => execSlt a b c s
  | .sltu a b c => execSltu a b c s
  | .addi a b c => execAddi a b c s
  | .andi a b c => execAndi a b c s
  | .ori a b c => execOri a b c s
  | .xori a b c => execXori a b c s
  | .shli a b c => execShli a b c s
  | .shri a b c => execShri a b c s
  | .sari a b c => execSari a b c s
  | .paddi a b c => execPaddi a b c s
  | .li a b => execLi a b s
  | .lih a b c => execLih a b c s
  | .slti a b c => execSlti a b c s
  | .sltiu a b c => execSltiu a b c s
  | .seqi a b c => execSeqi a b c s
  | .muli a b c => execMuli a b c s
  | .faddS a b c => execFaddS a b c s
  | .fsubS a b c => execFsubS a b c s
  | .fmulS a b c => execFmulS a b c s
  | .fdivS a b c => execFdivS a b c s
  | .fminS a b c => execFminS a b c s
  | .fmaxS a b c => execFmaxS a b c s
  | .fsqrtS a b => execFsqrtS a b s
  | .ffmaS a b c => execFfmaS a b c s
  | .feqS a b c => execFeqS a b c s
  | .fltS a b c => execFltS a b c s
  | .fleS a b c => execFleS a b c s
  | .faddD a b c => execFaddD a b c s
  | .fsubD a b c => execFsubD a b c s
  | .fmulD a b c => execFmulD a b c s
  | .fdivD a b c => execFdivD a b c s
  | .fminD a b c => execFminD a b c s
  | .fmaxD a b c => execFmaxD a b c s
  | .fsqrtD a b => execFsqrtD a b s
  | .ffmaD a b c => execFfmaD a b c s
  | .feqD a b c => execFeqD a b c s
  | .fltD a b c => execFltD a b c s
  | .fleD a b c => execFleD a b c s
  | .fcvt a b c d e => execFcvt a b c d e s
  | .call a => execCall a s
  | .callr a b => execCallr a b s
  | .ld a b c d => execLd a b c d s
  | .ldz a b c d => execLdz a b c d s
  | .tldb a b c d e f g h => execTldb a b c d e f g h s
  | .tld a b c d e f g h k => execTld a b c d e f g h k s
  | .tst a b c d e f g h => execTst a b c d e f g h s
  | .tldi a b c d e f g h => execTldi a b c d e f g h s
  | .tlds a b c d e f g h => execTlds a b c d e f g h s
  | .tsts a b c d e f g => execTsts a b c d e f g s
  | .mma a b c d e f => execMma a b c d e f s
  | .mmz a b c d e => execMmz a b c d e s
  | .mmg a b c d e f g h => execMmg a b c d e f g h s
  | .tadw a b c d e => execTadw a b c d e s
  | .tadd a b c d => execTadd a b c d s
  | .tsub a b c d => execTsub a b c d s
  | .tmul a b c d => execTmul a b c d s
  | .tfma a b c d e => execTfma a b c d e s
  | .tmax a b c d => execTmax a b c d s
  | .tmin a b c d => execTmin a b c d s
  | .tcmp a b c d => execTcmp a b c d s
  | .tsel a b c d => execTsel a b c d s
  | .tcvt a b c d => execTcvt a b c d s
  | .ttr a b => execTtr a b s
  | .tred a b c d e f => execTred a b c d e f s
  | .tsfu a b c => execTsfu a b c s
  | .tbcRow a b c => execTbcRow a b c s
  | .tbcCol a b c => execTbcCol a b c s
  | .tbcEl a b c => execTbcEl a b c s
  | .tbcX a b c => execTbcX a b c s
  | .tsc a b c => execTsc a b c s
  | .tnf a b c => execTnf a b c s
  | .smpl a b c => execSmpl a b c s
  | _ => .next s

/-- The step of an auto-increment, from the values that its instruction finds (05 R138; 08 R209; 12 R314): the register and its new
value. -/
def State.stepOf (s : State) (i : Instr) : Option (BitVec 5 × Word64) :=
  let step (a b : BitVec 5) (ai dir : BitVec 1) (tr : Bool) (esrc : BitVec 2) (t : BitVec 4) : Option (BitVec 5 × Word64) :=
    autoStep a b ai dir (s.x a) (s.x b) (shapeOf esrc tr (shRows (s.x b)) (shCols (s.x b)) (s.t t))
  match i with
  | .tld d a b ai tr _ e dir _ => step a b ai dir (tr == 1) e d
  | .tlds d a b ai tr e dir _ => step a b ai dir (tr == 1) e d
  | .tldi d a b ai _ e dir _ => step a b ai dir false e d
  | .tst t a b ai _ e dir _ => step a b ai dir false e t
  | .tsts t a b ai e dir _ => step a b ai dir false e t
  | .tldb _ _ b ai _ _ _ _ => if ai == 1 then some (b, leafStep (s.x b)) else none
  | _ => none

/-- The registers after an entry of the reorder buffer, as its younger ones read them: an access that must wait has advanced its pointer
(08 R207, R214). -/
def State.afterEarly (s : State) (r : RobEntry) : State :=
  match execEarly r.instr { s with core.unit.pc := r.pc, core.wait := .none } with
  | .next t => if t.core.wait == .none then { s with core.unit.x := t.core.unit.x, core.unit.t := t.core.unit.t } else s.autoInc (s.stepOf r.instr)
  | _ => s

end Sys2Proof.Machine
end

