-- ==== Sys2Proof/Machine/Remote.lean ====
section
/-! DEFINITION. Remote accesses: rget, rput and ramo, opcodes 0x6A to 0x6C (16 R424, R426, R427), and what peers ask of this
device (R425). -/

namespace Sys2Proof.Machine


/-- The checks of a remote access (16 R426): alignment, translation at a page of attribute 0, and an address in the aperture of
another device; the physical address, with its map. -/
def State.remoteMap (s : State) (acc : Access) (ea n : Nat) : Run? (Nat × XMap) := do
  needAligned ea n
  let m ← s.translateBlocks acc true (blocksOf ea n)
  need (s.peerOf (m.pa ea)).isSome .physRange (BitVec.ofNat 64 ea)
  .ok (m.pa ea, m)

/-- A request that waits for its answer: an unreachable peer fails it at once (16 R427). -/
def State.ask (s : State) (ea pa : Nat) (op : RemoteOp) : Out :=
  match s.core.remote with
  | some _ => .next { s with core.wait := .other }
  | none =>
    if ((s.peerOf pa).map s.reachable).getD false then
      .next { s with core.remote := some ⟨ea, pa, op⟩, core.wait := .other }
    else s.finish (.error (.trap .machineCheck (BitVec.ofNat 64 ea) 0))

/-- The answer to a request of this core (16 R427). -/
def replyValue (ea : Nat) (r : RemoteReply) : Run? Word64 :=
  match r with
  | .value v => .ok v
  | .ack => .ok 0
  | .refused => .error (.trap .protection (BitVec.ofNat 64 ea) 0)
  | _ => .error (.trap .machineCheck (BitVec.ofNat 64 ea) 0)

/-- The request is over. -/
def State.answered (s : State) : State := { s with core.remote := none, core.reply := none }

/-- rget once its answer is there. -/
def State.rgetDone (s : State) (d : BitVec 5) (acq : Bool) (ea n : Nat) (m : XMap) (r : RemoteReply) : Run? State := do
  let v ← replyValue ea r
  let t := (s.answered.touchAll .read m).setX d (BitVec.ofNat 64 (truncTo n v))
  .ok (if acq then t.acquire 3 else t).advance

/-- rget (16 R426). -/
def execRget (d a : BitVec 5) (acq : BitVec 1) (sz : BitVec 2) (s : State) : Out :=
  let ea := addrOf (s.x a)
  let n := 2 ^ sz.toNat
  match s.remoteMap .read ea n with
  | .error e => s.finish (.error e)
  | .ok (pa, m) =>
    match s.core.reply with
    | some r => s.finish (s.rgetDone d (acq == 1) ea n m r)
    | none =>
      match s.settleRemote ea n pa with
      | .error e => s.finish (.error e)
      | .ok t => t.ask ea pa (.get n)

/-- rput (16 R426): it retires into the store buffer once its checks pass. -/
def execRput (a b : BitVec 5) (rel : BitVec 1) (sz : BitVec 2) (s : State) : Out :=
  s.finish (do
    let ea := addrOf (s.x a)
    let n := 2 ^ sz.toNat
    let (pa, m) ← s.remoteMap .write ea n
    let id := s.core.unit.ident
    let e : SbEntry :=
      { kind := .rput (rel == 1), va := ea, len := n, writes := [(pa, leBytes n (s.x b).toNat)], raw := [], runs := [], cached := true, device := false,
        poison := [], part := id.part, task := id.task, launch := id.launch }
    let s1 ← (s.touchAll .write m).pushStore e
    .ok s1.advance)

/-- ramo once its answer is there. -/
def State.ramoDone (s : State) (d : BitVec 5) (ord : BitVec 2) (ea n : Nat) (m : XMap) (r : RemoteReply) : Run? State := do
  let v ← replyValue ea r
  let t := (s.answered.touchAll .readWrite m).setX d (BitVec.ofInt 64 (signedOf n (truncTo n v)))
  .ok (if ordAcq ord then t.acquire 3 else t).advance

/-- ramo (16 R426): it waits for an empty store buffer, and its release actions are those at .sys. -/
def execRamo (d a b : BitVec 5) (ord : BitVec 2) (sz : BitVec 1) (op : BitVec 4) (s : State) : Out :=
  let ea := addrOf (s.x a)
  let n := amoBytes sz
  match s.remoteMap .readWrite ea n with
  | .error e => s.finish (.error e)
  | .ok (pa, m) =>
    match s.core.reply with
    | some r => s.finish (s.ramoDone d ord ea n m r)
    | none =>
      match (do
        let t ← s.settleStores
        let t ← t.settleRemote ea n pa
        if ordRel ord then t.release 3 else .ok t : Run? State) with
      | .error e => s.finish (.error e)
      | .ok t => t.ask ea pa (.atomic op n (s.x b) (s.x d))

/-! Events. -/

/-- RPUT_SEND (16 R426): a remote write that is the oldest in the store buffer is sent. -/
def execRputSend (s : State) : Out :=
  .next (match s.core.sb with
    | e :: _ =>
      match e.kind with
      | .rput _ => s.drainOne
      | _ => s
    | [] => s)

/-- The first entry that satisfies a test is removed. -/
def removeFirst {α : Type} (f : α → Bool) : List α → List α
  | [] => []
  | a :: r => if f a then r else a :: removeFirst f r

/-- The answer to a remote write of the core (16 R427): it counts as performed, and a refusal or a failure is a posted error. -/
def State.rputAnswer (s : State) (e : SbEntry) (r : RemoteReply) : State :=
  let mine (u : SbEntry) : Bool := u.va == e.va && u.task == e.task && u.launch == e.launch
  let t : State := { s with core.unacked := removeFirst mine s.core.unacked }
  match r with
  | .value _ => t
  | .ack => t
  | .refused => t.postedError e.part .protection e.task e.launch (BitVec.ofNat 64 e.va) 0
  | _ => t.postedError e.part .machineCheck e.task e.launch (BitVec.ofNat 64 e.va) 0

/-- The answer that comes from a peer: none but a failure from one that no link reaches (16 R427). -/
def State.answerOf (s : State) (pa : Nat) (r : RemoteReply) : RemoteReply := if s.cutOff pa then .unreachable else r

/-- REMOTE_RESPONSE (16 R427): the answer to the request that the oldest instruction waits for, or to a remote write. -/
def execRemoteResponse (va task launch : Nat) (r : RemoteReply) (s : State) : Out :=
  .next (match s.core.unacked.find? (fun e => e.va == va && e.task.toNat == task && e.launch.toNat == launch) with
    | some e => s.rputAnswer e (s.answerOf (e.writes.headD (0, [])).1 r)
    | none =>
      match s.core.remote with
      | some q =>
        if q.va == va && s.core.unit.ident.task.toNat == task && s.core.unit.ident.launch.toNat == launch && s.core.reply.isNone then
          { s with core.reply := some (s.answerOf q.pa r) }
        else s
      | none => s)

/-- The fields of an inbound window (16 R425). -/
def Window.base (w : Window) : Nat := bits w.ctl 51 12 * 4096
@[inherit_doc Window.base] def Window.bytes (w : Window) : Nat := bits w.len 39 0 * 4096

/-- The window accepts a request (16 R425). -/
def Window.accepts (w : Window) (dev part pa n : Nat) (writes : Bool) : Bool :=
  w.ctl.getLsbD 0 && (!writes || w.ctl.getLsbD 1) && bits w.ctl 4 2 == dev && (w.ctl.getLsbD 8 || bits w.ctl 7 5 == part)
    && decide (w.base ≤ pa) && decide (pa + n ≤ w.base + w.bytes)

/-- The bytes of a request, and whether it writes. -/
def reqBytes (op : RemoteOp) : Nat × Bool :=
  match op with
  | .get n => (n, false)
  | .put d => (d.length, true)
  | .atomic _ n _ _ => (n, true)
  | .reduce _ _ _ => (64, true)

/-- The partition whose window accepts a request: the lowest one (16 R425). -/
def State.acceptor (s : State) (dev part pa : Nat) (op : RemoteOp) : Option (BitVec 3) :=
  let (n, writes) := reqBytes op
  if !s.physOk pa || !s.physOk (pa + n - 1) then none
  else ((List.range 8).map (BitVec.ofNat 3)).find? (fun p => (s.partAt p).windows.toList.any (fun w => w.accepts dev part pa n writes))

/-- INBOUND_REMOTE_REQUEST (16 R425, R427, R428): an accepted request is performed at its home on path h; uncorrectable data
leaves memory as it is. -/
def execInboundRemoteRequest (dev part pa : Nat) (op : RemoteOp) (s : State) : Out :=
  .next (match s.acceptor dev part pa op with
    | none => s
    | some p =>
      match op with
      | .get _ => s
      | .put d => if decide (d.length ≤ 8) && s.homeBad pa d.length then s else s.homeWrite .h pa d
      | .atomic f n b cmp =>
        let t := (linesOf pa n).foldl State.writeBackLine s
        if t.homeBad pa n then t
        else t.homeWrite .h pa (leBytes n (amoFn f n (t.mem.readNat pa n) (truncTo n b) (truncTo n cmp)))
      | .reduce index det data => if s.objectTaken p pa then (s.contribute p pa index det data).1 else s)

/-! The device links (16 R423). -/

/-- Changing a link. -/
def State.modLink (s : State) (l : Fin 12) (f : Link → Link) : State := { s with dev.links := s.dev.links.set l (f s.dev.links[l]) }

/-- LINK_UP (16 R423). -/
def execLinkUp (l : Fin 12) (far : BitVec 3) (s : State) : Out := .next (s.ifUp (s.modLink l (fun k => { k with up := true, far := far })))

/-- LINK_DOWN (16 R423): its requests go over another link to the same peer; a peer with none is unreachable. -/
def execLinkDown (l : Fin 12) (s : State) : Out := .next (s.modLink l (fun k => { k with up := false }))

/-- FLIT_CRC_RETRY (16 R423). -/
def execFlitCrcRetry (l : Fin 12) (s : State) : Out := .next (s.modLink l (fun k => { k with retry := k.retry + 1 }))

end Sys2Proof.Machine
end

