-- ==== Sys2Proof/Machine/Touch.lean ====
section
/-! DEFINITION. The ranges of memory that instructions touch (01 R29, R31, R32). -/

namespace Sys2Proof.Machine

/-- What an access touches. -/
inductive Touch where
  | memory (va len : Nat)
  | localStore (off len : Nat)
  /-- The whole address space (01 R32). -/
  | everything
  deriving DecidableEq, Repr

/-- The range of a tile access through a pointer and a shape register (01 R29); a local-store range for tlds and tsts. -/
def State.tileTouch (s : State) (isLocal : Bool) (a b : BitVec 5) (tr half : Bool) (esrc : BitVec 2) (t : Tile) : Touch :=
  let p := s.x a
  let sh := s.x b
  let sz := shapeOf esrc tr (shRows sh) (shCols sh) t
  let len := rangeLen (rowSpan (ptrFmt p) (ptrBlock p) half sz.mc) (shStride sh) sz.mr sz.mc
  if isLocal then .localStore (addrOf p) len
  else .memory (addrOf p) (if ptrFmt p == xe4 then xeLen p sh sz else len)

/-- The local-store range of a cred.ls (13 R331, R353): its object tells the number of elements, up to 2,047. -/
def State.credTouch (s : State) (d a b : BitVec 5) : Touch :=
  let n := match s.credMaps d a b false with
    | .error _ => 0
    | .ok maps =>
      match s.readNelem (addrOf (s.x d)) (maps.2.2.pa (addrOf (s.x d))) with
      | .nelem n => n
      | .ask => 2047
      | .stop _ => 0
  .localStore (addrOf (s.x a)) (4 * n)

/-- The local-store ranges of an a2a (13 R331, R350). -/
def State.a2aTouch (s : State) (b : BitVec 5) (quad : Bool) : List Touch :=
  let n := groupSize quad * bits (s.x (b + 1)) 14 0
  [.localStore (bits (s.x b) 18 0) n, .localStore (bits (s.x b) 50 32) n]

/-- The ranges of an instruction that touches memory, from the values of its registers (01 R29); none for one that touches none. The
detached commands of 13 R329 take part with their local-store ranges alone (R331). -/
def State.touches (s : State) (i : Instr) : List Touch :=
  match i with
  | .ld _ a sz off | .ldz _ a sz off | .st _ a sz off => [.memory (s.ea a off) (sizeBytes sz)]
  | .ldAcq _ a sz _ | .stRel _ a sz _ => [.memory (s.ea a 0) (sizeBytes sz)]
  | .amo _ a _ _ _ sz _ | .ared a _ _ _ sz _ => [.memory (addrOf (s.x a)) (if sz == 1 then 8 else 4)]
  | .rget _ a _ sz => [.memory (addrOf (s.x a)) (2 ^ sz.toNat)]
  | .rput a _ _ sz => [.memory (addrOf (s.x a)) (2 ^ sz.toNat)]
  | .ramo _ a _ _ sz _ => [.memory (addrOf (s.x a)) (if sz == 1 then 8 else 4)]
  | .cwbr a b _ | .cinv a b _ => [.memory (addrOf (s.x a)) (s.x b).toNat]
  | .bout d _ b => [.memory (addrOf (s.x b)) (2048 * bits (s.x d) 52 40)]
  | .bloa _ a _ _ => [.memory (addrOf (s.x a)) 2048]
  | .bcas _ a _ _ | .vpub _ a _ _ | .vsw _ a | .barExp a _ | .barExpArr a _ | .barArr a | .barInit a _ | .barDrop a | .barWait _ a _
  | .barTest _ a => [.memory (addrOf (s.x a)) 32]
  | .tldb _ a _ _ _ _ _ pin => if pin == 1 then [] else [.memory (addrOf (s.x a)) 32]
  | .tld d a b _ tr _ e _ half => [s.tileTouch false a b (tr == 1) (half == 1) e (s.t d)]
  | .tst r a b _ _ e _ half => [s.tileTouch false a b false (half == 1) e (s.t r)]
  | .tlds d a b _ tr e _ half => [s.tileTouch true a b (tr == 1) (half == 1) e (s.t d)]
  | .tsts r a b _ e _ half => [s.tileTouch true a b false (half == 1) e (s.t r)]
  | .tldi _ a b _ _ _ _ _ =>
    let win := shAux (s.x b) * 4096
    [if win == 0 then .everything else .memory (addrOf (s.x a)) win]
  | .mmg _ _ _ _ _ _ _ xp =>
    let win := shAux (s.x (xp + 1)) * 4096
    [if win == 0 then .everything else .memory (addrOf (s.x xp)) win]
  | .smrg _ _ xp =>
    let p := s.x xp
    let sh := s.x (xp + 1)
    let mc := shCols sh
    [.memory (addrOf p) (rangeLen (rowSpan (ptrFmt p) 0 false mc) (shStride sh) (shAux sh * shRows sh) mc)]
  | .bcpLd d _ b => [.localStore (addrOf (s.x d)) (s.x b).toNat]
  | .bcpSt _ a b => [.localStore (addrOf (s.x a)) (s.x b).toNat]
  | .a2aCl _ _ b => s.a2aTouch b false
  | .a2aQ _ _ b => s.a2aTouch b true
  | .credLs d a b => [s.credTouch d a b]
  | _ => []

/-- Two ranges share a byte (01 R29): local-store ranges meet only local-store ranges. -/
def Touch.meets (a b : Touch) : Bool :=
  match a, b with
  | .memory x n, .memory y m => overlap x n y m
  | .localStore x n, .localStore y m => overlap x n y m
  | .everything, .memory _ _ => true
  | .memory _ _, .everything => true
  | .everything, .everything => true
  | _, _ => false

/-- The instruction makes accesses that take part in 01 R29 to R32. -/
def accesses : Instr → Bool
  | .ld .. | .ldz .. | .ldAcq .. | .rget .. | .cwbr .. | .cinv .. | .bloa .. | .vsw .. | .tldb .. | .tld .. | .tldi .. | .tlds .. | .mmg ..
  | .smrg .. | .bcpSt .. | .a2aCl .. | .a2aQ .. | .credLs .. | .st .. | .stRel .. | .amo .. | .ared .. | .rput .. | .ramo .. | .bout ..
  | .bcas .. | .vpub .. | .tst .. | .tsts .. | .bcpLd .. | .barExp .. | .barExpArr .. | .barArr .. | .barInit .. | .barDrop .. | .barWait ..
  | .barTest .. => true
  | _ => false

/-- The access is performed only after its instruction has retired: it writes (01 R27), or it is a detached command's (13 R331). -/
def storesMemory : Instr → Bool
  | .st .. | .stRel .. | .amo .. | .ared .. | .rput .. | .ramo .. | .bout .. | .bcas .. | .vpub .. | .tst .. | .tsts .. | .bcpLd .. | .bcpSt ..
  | .a2aCl .. | .a2aQ .. | .credLs .. | .barExp .. | .barExpArr .. | .barArr .. | .barInit .. | .barDrop .. => true
  | _ => false

end Sys2Proof.Machine
end

