-- ==== Sys2Proof/Machine/Pipeline.lean ====
section
/-! DEFINITION. Steps inside a core and its cluster (08 R202 to R214; 10 R263; 12 R320 to R323; 14 R360 to R364). An instruction
has its whole effect in the turn that retires it as the oldest (DESIGN CHOICE, log entry 39): the front end and the reorder buffer hold
the instructions in flight, and what a younger one reads of their results is computed from them. -/

namespace Sys2Proof.Machine

/-- The core executes instructions. -/
def State.fetches (s : State) : Bool := s.core.run == .running && s.core.safe.isNone

/-! The front end (08 R202, R204). -/

/-- The captured execution after one, in frame order (01 R38). -/
def KRegs.execAfter (k : KRegs) (it pos : Nat) : Option (Nat × Nat) :=
  if pos < k.n1 then some (it, pos + 1) else if it < k.k1 then some (it + 1, 0) else none

/-- The next captured execution to dispatch (08 R214). -/
def State.nextExec (s : State) : Option (Nat × Nat) :=
  match s.core.rob.getLast? with
  | none => if s.k.rf then some (s.k.iter, s.k.pos) else none
  | some r => r.at_.bind (fun p => s.k.execAfter p.1 p.2)

/-- Where fetch continues (08 R204, R214): after the last word decoded, or dispatched, along the predicted path; after a frame's last
captured word; or at pc. -/
def State.fetchPc (s : State) : BitVec 56 :=
  match s.core.front.decoded.getLast? with
  | some d => d.2.2
  | none =>
    match s.core.rob.getLast? with
    | some r => if r.at_.isSome then s.k.frameAddr (s.k.n1 + 1) else r.next
    | none => if s.k.rf then s.k.frameAddr (s.k.n1 + 1) else s.pc

/-- The target of a relative transfer. -/
def aheadOf (pc : BitVec 56) (words : Int) : BitVec 56 := pc + BitVec.ofInt 56 (4 * words)

/-- The address predicted after an instruction (08 R204). -/
def Front.predict (f : Front) (pc : BitVec 56) (i : Instr) : BitVec 56 :=
  let branch (o : BitVec 15) : BitVec 56 :=
    let taken := ((f.history.find? (fun e => e.1 == pc.toNat)).map (·.2)).getD (decide (o.toInt < 0))
    if taken then aheadOf pc o.toInt else pc + 4
  let target : BitVec 56 := ((f.targets.find? (fun e => e.1 == pc.toNat)).map (·.2)).getD (pc + 4)
  match i with
  | .beq _ _ o | .bne _ _ o | .blt _ _ o | .bge _ _ o => branch o
  | .j o | .call o => aheadOf pc o.toInt
  | .jr a => if a == 1 then f.returns.head?.getD (pc + 4) else target
  | .callr _ _ => target
  | _ => pc + 4

/-- The return-address stack after a word is fetched: 32 entries (08 R204). -/
def Front.fetched (f : Front) (pc : BitVec 56) (i : Instr) : Front :=
  match i with
  | .call _ | .callr _ _ => { f with returns := ((pc + 4) :: f.returns).take 32 }
  | .jr a => if a == 1 then { f with returns := f.returns.tail } else f
  | _ => f

/-- What the predictors keep of a branch or jump that retires (DESIGN CHOICE, log entry 69: an entry holds the last outcome; 08 R204
gives the tables' sizes and leaves their contents open). -/
def Front.learn (f : Front) (pc : BitVec 56) (i : Instr) (next : BitVec 56) : Front :=
  match i with
  | .beq .. | .bne .. | .blt .. | .bge .. =>
    { f with history := ((pc.toNat, next != pc + 4) :: f.history.filter (fun e => e.1 != pc.toNat)).take 4096 }
  | .callr .. => { f with targets := ((pc.toNat, next) :: f.targets.filter (fun e => e.1 != pc.toNat)).take 1024 }
  | .jr a => if a == 1 then f else { f with targets := ((pc.toNat, next) :: f.targets.filter (fun e => e.1 != pc.toNat)).take 1024 }
  | _ => f

/-- One word fetched and decoded along the predicted path: its line is in the L1 instruction cache, 512 lines (08 R202). A fetch that
fails is reported only when its instruction is the oldest (01 R26), so nothing is decoded then. -/
def State.fetchOne (s : State) : State :=
  let pc := s.fetchPc
  if !s.fetchTaken pc 1 then s
  else
  match s.fetchWord pc with
  | .error _ => s
  | .ok (w, x) =>
    let t := s.fetched pc x
    let line := lineOf (x.paOf pc.toNat)
    let t : State := if t.core.icache.any (fun e => e.1 == line) then t
      else { (t.fillHome line) with core.icache := ((line, t.mem.readBytes (line * 128) 128) :: t.core.icache).take 512 }
    match decode w with
    | .error _ => t
    | .ok i =>
      { t with core.front := { t.core.front.fetched pc i with
          decoded := t.core.front.decoded ++ [(pc, i, t.core.front.predict pc i)] } }

/-- INSTRUCTION_FETCH (08 R202): up to two words are fetched along the predicted path and decoded, once the words before them, and the
executions of a frame, are dispatched (R214). -/
def execInstructionFetch (va : BitVec 56) (s : State) : Out :=
  .next (if !s.fetches || va != s.fetchPc || !s.core.front.decoded.isEmpty || s.nextExec.isSome then s else s.fetchOne.fetchOne)

/-- PAGE_WALK (10 R263): a walk for an access of the unit, which may later be discarded, sets ac and dt. -/
def execPageWalk (va : BitVec 56) (acc : Access) (s : State) : Out :=
  .next (if s.core.run == .idle || s.core.service.isSome then s
    else
      match s.walk s.part va.toNat with
      | .error _ => s
      | .ok x =>
        match leafCheck x acc s.k.pl false with
        | .ok _ => s.touch acc va.toNat x
        | .error _ => s)

/-! Dispatch (08 R203, R205, R207, R214). -/

/-- Physical scalar registers that the renamer can still give (08 R207). -/
def Core.scalarsLeft (c : Core) : Nat := 128 - 31 - c.robScalars

/-- An older instruction holds every younger one at dispatch: a kset (01 R21), those that dispatch like it (09 R236; 12 R308), and a rep,
whose checks come before its executions (01 R37; 08 R214). -/
def holdsDispatch : Instr → Bool
  | .kset .. | .smrg .. | .bcas .. | .vpub .. | .vsw .. | .vswDrop .. | .rep .. => true
  | _ => false

/-- The next instruction to dispatch: a captured execution, staggered, or the first word decoded (08 R202, R214). -/
def State.dispatchNext (s : State) : Option (BitVec 56 × Instr × BitVec 56 × Option (Nat × Nat)) :=
  match s.nextExec with
  | some (it, pos) =>
    (s.core.frame[pos]?).map (fun i => (s.k.frameAddr pos, staggered s.k it i, s.k.frameAddr (pos + 1), some (it, pos)))
  | none => s.core.front.decoded.head?.map (fun d => (d.1, d.2.1, d.2.2, none))

/-- DISPATCH (08 R203): the instruction takes a reorder-buffer entry, and the physical registers of what it writes. The event tells its
class and how many physical tiles and scalar registers it takes (R205, R207): any other account of it is no dispatch. -/
def execDispatch (cls : EngineClass) (tiles scalars : Nat) (s : State) : Out :=
  .next (
    let c := s.core
    match s.dispatchNext with
    | none => s
    | some (pc, i, next, at_) =>
      if !s.fetches || 256 ≤ c.rob.length || (isSmrg i && !c.rob.isEmpty) || (tileClass i && decide (96 ≤ c.tileEntries)) || decide (c.scalarsLeft < scalarsTaken i)
          || c.rob.any (fun r => holdsDispatch r.instr) || cls != engineClass i || tiles != tilesTaken i
          || scalars != scalarsTaken i then s
      else
        let front := { c.front with nextTag := c.front.nextTag + 1, decoded := if at_.isSome then c.front.decoded else c.front.decoded.tail }
        { s with core.front := front, core.rob := c.rob ++ [⟨c.front.nextTag, pc, i, at_, next, none, none, false, none⟩] })

/-! Issue (08 R209 to R211). -/

/-- The engines of a class: the copy pipes 0 and 1, the matrix engine 2, the vector pipes 3 and 4, and the scalar side 5 (08 R210). -/
def classEngines : EngineClass → List Nat
  | .copy => [0, 1]
  | .matrix => [2]
  | .vector => [3, 4]
  | .scalar => [5]

/-- The engine number of a stacked operation on another core (12 R323). -/
def elsewhereEngine : Nat := 6

/-- An entry that has not issued. -/
def RobEntry.waits (r : RobEntry) : Bool := r.engine.isNone && r.stacked.isNone && !r.complete

/-- Two lists share a register. -/
def shares {α : Type} [BEq α] (a b : List α) : Bool := a.any (fun r => b.contains r)

/-- Registers whose value, as a younger instruction reads it, is not produced yet. -/
structure Unready where
  x : List (BitVec 5)
  t : List (BitVec 4)
  deriving DecidableEq, Repr

/-- The sources of an instruction are available (08 R206, R207, R210): each through the mapping that holds at its dispatch. -/
def Unready.ready (u : Unready) (i : Instr) : Bool := !shares u.t (tSources i) && !shares u.x (xReads i)

/-- The range of an access is known (01 R31; 08 R209). -/
def Unready.rangeKnown (u : Unready) (i : Instr) : Bool := !shares u.t (rangeTiles i) && !shares u.x (rangeRegs i)

/-- The step of an auto-increment is computed as soon as the scalar sources of its instruction are produced (08 R207, R209). -/
def Unready.stepKnown (u : Unready) (i : Instr) : Bool :=
  engineClass i == .copy && !shares u.t (stepTiles i) && !shares u.x (rangeRegs i)

/-- What is not produced yet after an entry in program order: its results while it is not complete. -/
def Unready.after (u : Unready) (r : RobEntry) : Unready :=
  let x := (xBlocks r.instr).filter (· != 0)
  let t := tWrites r.instr
  { x := if r.complete || u.stepKnown r.instr then u.x.filter (fun k => !x.contains k) else u.x ++ x,
    t := if r.complete then u.t.filter (fun k => !t.contains k) else u.t ++ t }

/-- An entry of the reorder buffer with the registers that it finds, and those that it must wait for. -/
structure RobView where
  entry : RobEntry
  seen : State
  wait : Unready

/-- The entries in program order, as each finds the registers. -/
def State.robViews (s : State) (u : Unready) : List RobEntry → List RobView
  | [] => []
  | r :: rest => ⟨r, s, u⟩ :: (s.afterEarly r).robViews (u.after r) rest

/-- The entries of the reorder buffer. -/
def State.views (s : State) : List RobView := s.robViews ⟨[], []⟩ s.core.rob

/-- The ranges of an entry. -/
def RobView.touches (v : RobView) : List Touch := v.seen.touches v.entry.instr

/-- A scalar load, which may take its bytes from the store buffer (01 R30). -/
def scalarLoad : Instr → Bool
  | .ld .. | .ldz .. => true
  | _ => false

/-- Where a range lies in memory, when its translation succeeds. -/
def State.runsAt (s : State) (va n : Nat) : List Run :=
  match s.access .read false [(va, n)] with
  | .ok m => m.runs va n
  | .error _ => []

/-- Two ranges share a byte, at one address (01 R29) or at two (11 R274). -/
def State.touchMeets (s : State) (g h : Touch) : Bool :=
  match g, h with
  | .memory a n, .memory b m =>
    overlap a n b m || (s.runsAt a n).any (fun p => (s.runsAt b m).any (fun q => overlap p.pa p.len q.pa q.len))
  | _, _ => g.meets h

/-- A retired store that is not performed holds an access to its range (01 R30) or to its bytes at another address (11 R274), unless the
access is a scalar load whose range lies wholly within the youngest store that it meets, a scalar one to a cacheable page. -/
def State.storeHolds (s : State) (i : Instr) (g : Touch) : Bool :=
  match g with
  | .memory va n =>
    let rs := if s.core.sb.isEmpty then [] else s.runsAt va n
    s.core.sb.any (fun e => overlap e.va e.len va n || e.meets rs) && !(scalarLoad i && (s.forwarded va n rs).isSome)
  | _ => s.core.sb.any (fun e => g.meets (.memory e.va e.len))

/-- A detached command in flight holds an access to the local store (13 R331). -/
def State.commandHolds (s : State) (g : Touch) : Bool :=
  match g with
  | .localStore a n => s.core.cmds.any (fun c => c.lsRanges.any (fun r => overlap r.1 r.2 a n))
  | _ => false

/-- Memory order holds an access back (01 R30 to R32): an older access whose range is not known, or one that meets its range and is
not performed. -/
def State.memoryHolds (s : State) (older : List RobView) (v : RobView) : Bool :=
  accesses v.entry.instr &&
    (older.any (fun o => accesses o.entry.instr && (!o.wait.rangeKnown o.entry.instr
        || ((storesMemory o.entry.instr || !o.entry.complete) && o.touches.any (fun h => v.touches.any (s.touchMeets h)))))
      || v.touches.any (s.storeHolds v.entry.instr) || v.touches.any s.commandHolds)

/-- The instruction can issue (08 R210, R211): its sources are available, and memory order and the order of the scalar side do not hold
it. -/
def State.canIssue (s : State) (older : List RobView) (v : RobView) : Bool :=
  !headOnly v.entry.instr && v.wait.ready v.entry.instr && !s.memoryHolds older v
    && (engineClass v.entry.instr != .scalar || older.all (fun o => engineClass o.entry.instr != .scalar || !o.entry.waits))

/-- The entry of a tag, changed. -/
def Core.modEntry (c : Core) (tag : Nat) (f : RobEntry → RobEntry) : Core :=
  { c with rob := c.rob.map (fun r => if r.tag == tag then f r else r) }

/-- The entry issues to an engine, which is busy for its occupancy; the scalar side has none (08 R210, R211). -/
def State.issueTo (s : State) (tag e : Nat) : State :=
  { s with core := { s.core.modEntry tag (fun r => { r with engine := some e }) with
      busy := if e == 5 then s.core.busy else e :: s.core.busy } }

/-! The merge buffer (12 R320 to R323). -/

/-- The highest launch priority of an entry, its rows. -/
def MergeEntry.pri (e : MergeEntry) : Nat := (e.offers.map (·.pri)).foldl max 0
@[inherit_doc MergeEntry.pri] def MergeEntry.rows (e : MergeEntry) : Nat := (e.offers.map (·.rows)).sum

/-- The key and the operation of an offer equal those of an entry. -/
def MergeEntry.same (e : MergeEntry) (o : StackOffer) : Bool :=
  e.offers.all (fun p => p.key == o.key && p.aFmt == o.aFmt && p.k == o.k && p.bc == o.bc && p.ftz == o.ftz)

/-- A partition may share the entry (12 R320): it is the entry's own, or the key is a name key of a region shared by it and by every
partition there. -/
def State.mayShare (s : State) (e : MergeEntry) (part : Nat) : Bool :=
  e.offers.all (fun p => p.part == part) ||
  e.offers.all (fun p =>
    match p.key with
    | .name rg _ _ _ _ _ _ => (s.region rg).share.getLsbD part && (s.region rg).share.getLsbD p.part
    | .range .. => false)

/-- The open entry that an offer matches. -/
def State.mergeMatch (s : State) (o : StackOffer) : Option MergeEntry :=
  s.dev.merge.find? (fun e => !e.dispatched && e.same o && s.mayShare e o.part)

/-- Changing an entry of the merge buffer. -/
def Dev.modMerge (d : Dev) (id : Nat) (f : MergeEntry → MergeEntry) : Dev :=
  { d with merge := d.merge.map (fun e => if e.id == id then f e else e) }

/-- A free entry number. -/
def Dev.freeMerge (d : Dev) : Option Nat := (List.range 16).find? (fun i => !d.merge.any (fun e => e.id == i))

/-- The offer opens an entry; none when none is free. -/
def State.mergeOpen (s : State) (o : StackOffer) : State × Option Nat :=
  match s.dev.freeMerge with
  | some i => ({ s with dev.merge := s.dev.merge ++ [⟨i, [o], decide (32 ≤ o.rows) || o.hold == 0⟩] }, some i)
  | none => (s, none)

/-- An offer arrives at the merge buffer (12 R320, R322 conditions 1, 4 and 5): the state, and the entry that it stacks in. -/
def State.mergeOffer (s : State) (o : StackOffer) : State × Option Nat :=
  match s.mergeMatch o with
  | none => s.mergeOpen o
  | some e =>
    if e.rows + o.rows ≤ 32 then
      ({ s with dev := s.dev.modMerge e.id (fun k =>
        { k with offers := k.offers ++ [o], dispatched := e.rows + o.rows == 32 || decide (e.pri < o.pri) || o.hold == 0 }) }, some e.id)
    else ({ s with dev := s.dev.modMerge e.id (fun k => { k with dispatched := true }) } : State).mergeOpen o

/-- The core of the cluster holds a possible joiner of an entry (12 R322 condition 3): a unit whose eviction is only requested still runs
(14 R381, R389). Of another core the model knows the resident unit, its partition and its launch's priority, and whether it is suspended,
stopped or not yet installed (14 R391); its k.stkhold is not known, and it counts as one (log entry 69). -/
def State.joiner (s : State) (e : MergeEntry) (core : Nat) : Bool :=
  !e.offers.any (fun o => o.core == core) &&
  (if core == s.core.num.toNat then
      s.core.run == .running && s.core.safe.isNone && !s.k.stkhold.getLsbD 11 && s.mayShare e s.part.toNat
        && decide (e.pri ≤ ((s.launch?.map (fun l => l.record.pri)).getD 0))
    else
      (List.finRange 8).any (fun p => s.mayShare e p.val && (s.parts[p]).launches.any (fun l =>
        decide (e.pri ≤ l.record.pri) && l.units.any (fun u => u.place == .elsewhere core && u.susp.isNone && !u.stopped
          && !s.core.moving (BitVec.ofFin p) (BitVec.ofNat 32 (l.record.tbase + u.u))))))

/-- Open entries that no core of the cluster could join are dispatched (12 R322 condition 3). -/
def State.mergeSettle (s : State) : State :=
  if s.dev.merge.isEmpty then s else
  { s with dev.merge := s.dev.merge.map (fun e =>
      if e.dispatched || (List.range 4).any (fun c => s.joiner e (s.cluster * 4 + c)) then e else { e with dispatched := true }) }

/-- The offer that a matrix instruction makes, when it is eligible and its unit stacks (06 R168; 12 R320, R321). -/
def State.offerOf (s : State) (r : RobEntry) : Option StackOffer :=
  let mk (b : BitVec 4) (bc : BitVec 1) (aFmt : BitVec 5) (rows k : Nat) : Option StackOffer :=
    (s.t b).key.bind (fun key =>
      if rows ≤ 16 && !s.k.stkhold.getLsbD 11 then
        some ⟨s.core.num.toNat, r.tag, key, aFmt, k, bc == 1, s.k.ftz, rows, s.part.toNat,
          (s.launch?.map (fun l => l.record.pri)).getD 0, bits s.k.stkhold 10 0⟩
      else none)
  match r.instr with
  | .mma _ a b _ st bc => if st == 1 then mk b bc (s.t a).fmt (s.t a).rext (s.t a).cext else none
  | .mmz _ a b st bc => if st == 1 then mk b bc (s.t a).fmt (s.t a).rext (s.t a).cext else none
  | .mmg _ _ b _ st bc _ xp =>
    if st == 1 then mk b bc (ptrFmt (s.x xp)) (shRows (s.x (xp + 1))) (shCols (s.x (xp + 1))) else none
  | _ => none

/-- The conditions of 06 R173 but the checksum pass: the instruction would complete (12 R325). -/
def State.matrixPasses (s : State) (i : Instr) : Bool :=
  let ok (o : Out) : Bool :=
    match o with
    | .next t => t.core.retired != s.core.retired
    | _ => false
  match i with
  | .mma d a b c st bc => ok (execMma d a b c st bc s)
  | .mmz d a b st bc => ok (execMmz d a b st bc s)
  | .mmg d t b c st bc h xp => ok (execMmg d t b c st bc h xp s)
  | _ => false

/-- A dispatched stacked operation of the core goes ahead of its own younger matrix instructions (12 R323). -/
def State.stackAhead (s : State) (tag : Nat) : Bool :=
  s.dev.merge.any (fun e => e.dispatched &&
    match e.offers.head? with
    | some o => o.core == s.core.num.toNat && decide (o.tag < tag)
    | none => false)

/-- The oldest entry of a class that can issue, with the registers that it finds. -/
def State.issuable (s : State) (c : EngineClass) : Option RobView :=
  let vs := s.views
  (vs.mapIdx (fun k v => (vs.take k, v))).findSome? (fun e =>
    let r := e.2.entry
    if engineClass r.instr == c && r.waits && s.canIssue e.1 e.2 && !(c == .matrix && s.stackAhead r.tag) then some e.2 else none)

/-- ISSUE (08 R210; 12 R320): the oldest instruction of a class that can issue goes to the lowest free engine of the class, or to the
stacking station. With an offer, the instruction is that of another core of the cluster. -/
def execIssue (c : EngineClass) (offer : Option StackOffer) (s : State) : Out :=
  .next (
    let plain (t : State) (r : RobEntry) : State :=
      match (classEngines c).find? (fun e => !t.core.busy.contains e) with
      | some e => t.issueTo r.tag e
      | none => t
    match offer with
    | some o =>
      if o.core / 4 == s.cluster && o.core != s.core.num.toNat && decide (o.rows ≤ 16) && decide (o.part < 8) then (s.mergeOffer o).1 else s
    | none =>
      match s.issuable c with
      | none => s
      | some v =>
        let r := v.entry
        match v.seen.offerOf r with
        | some o =>
          if v.seen.matrixPasses r.instr then
            match s.mergeOffer o with
            | (t, some id) => { t with core := t.core.modEntry r.tag (fun r => { r with stacked := some id }) }
            | (t, none) => plain t r
          else plain s r
        | none => plain s r)

/-- The outcome is no wait. -/
def Out.ends (o : Out) : Bool :=
  match o with
  | .next t => t.core.wait == .none
  | _ => true

/-- Rows of the result that the checksums cover: those of the destination. -/
def State.resultRows (s : State) : Instr → Nat
  | .mma d _ _ _ _ _ | .mmz d _ _ _ _ | .mmg d _ _ _ _ _ _ _ | .tadw d _ _ _ _ => (s.t d).rext
  | _ => 0

/-- A check does not wait. -/
def decided {α : Type} (r : Run? α) : Bool :=
  match r with
  | .error (.wait _) => false
  | _ => true

/-- An entry that has issued becomes complete, with its result or with an exception (08 R212; 14 R367): a store when its translation and
permission are checked, any other instruction when it has its result. A load of uncached space is performed as the oldest (01 R28). -/
def RobView.finishes (v : RobView) (oldest : Bool) : Bool :=
  let s : State := { v.seen with core.unit.pc := v.entry.pc, core.wait := .none }
  let i := v.entry.instr
  let cached (m : Run? XMap) : Bool :=
    match m with
    | .ok m => m.allCached
    | .error _ => true
  let mem := v.touches.filterMap (fun g =>
    match g with
    | .memory va n => some (va, n)
    | _ => none)
  if storesMemory i then decided (s.access .write false mem)
  else (oldest || !scalarLoad i || cached (s.access .read false mem)) && (execEarly i s).ends

/-- The instructions of an engine that can become complete. -/
def State.finishing (s : State) (engine : Nat) : List RobView :=
  (s.views.mapIdx (fun k v => (k, v))).filterMap (fun e =>
    if e.2.entry.engine == some engine && !e.2.entry.complete && e.2.finishes (e.1 == 0) then some e.2 else none)

/-- The rows of the result that an entry computes and the matrix engine or the residue check checks (06 R172); 0 for one that has none. -/
def RobView.checkedRows (v : RobView) : Nat :=
  if engineClass v.entry.instr != .matrix then 0
  else
    match execEarly v.entry.instr { v.seen with core.unit.pc := v.entry.pc, core.wait := .none } with
    | .next t => if t.core.retired == v.seen.core.retired then 0 else t.resultRows v.entry.instr
    | _ => 0

/-- An entry becomes complete. The result of the matrix engine has then passed its checksum, or the rerun that follows a mismatch has
passed or ended it (06 R172; 14 R378). -/
def State.completeEntry (s : State) (v : RobView) : State :=
  let c := s.core.modEntry v.entry.tag (fun r => { r with complete := true })
  match s.core.mismatch with
  | none => { s with core := c }
  | some m =>
    let rows := v.checkedRows
    if rows == 0 then { s with core := c }
    else
      let t : State := { s with core := { c with mismatch := none, reruns := c.reruns + 1 } }
      match m with
      | .once => t
      | .twice row => { t with core := t.core.modEntry v.entry.tag (fun r => { r with wrong := some (row % rows) }) }

/-- ENGINE_COMPLETION (08 R212): an instruction in the engine, or on the scalar side, has its result. Of several that can have it, the
cycle in which each has is open (00 R4). -/
def execEngineCompletion (engine : Nat) (s : State) : Out :=
  .next (
    match s.finishing engine with
    | [] => s
    | [v] => s.completeEntry v
    | v :: vs => (s.completeEntry ((v :: vs).getD (Config.completesFirst s.tick % (vs.length + 1)) v)).ticked)

/-- How many of the oldest instructions retire in one cycle (08 R211, R212): up to four that are complete, or the oldest alone when it
executes only then. -/
def retireCount (rob : List RobEntry) : Nat :=
  match rob with
  | [] => 0
  | r :: _ => if headOnly r.instr then 1 else min 4 (rob.takeWhile (fun r => r.complete && !headOnly r.instr)).length

/-- RETIREMENT (08 R212): up to four of the oldest complete instructions retire next, in program order, before anything else happens:
each while it is the oldest, so that none follows one that discards it. -/
def execRetirement (s : State) : Out :=
  .next { s with agenda := (s.core.rob.take (retireCount s.core.rob)).map (fun r => .retire r.tag) ++ s.agenda }

/-- rep. -/
def opensFrame : Instr → Bool
  | .rep .. => true
  | _ => false

/-- What the retirement of the oldest instruction does to the front end and the reorder buffer (08 R204, R206 to R208), from the state
before it: its entry leaves and the physical registers that it replaced are free; after a wrong prediction every younger instruction
goes. An instruction that had no entry passes through the pipeline whole. The words that the front end took for the checks of a rep are
not fetched again and not dispatched from there (R214). -/
def State.leaveRob (s t : State) (i : Instr) : State :=
  if t.core.retired == s.core.retired then t
  else
    let t : State := { t with core.front := t.core.front.learn s.pc i t.pc }
    match t.core.rob with
    | [] => t.discard
    | r :: rest =>
      if r.pc == s.pc && r.instr == i && (r.next == t.pc || (r.at_.isSome && t.k.rf)) && t.core.run == .running then
        { t with core.rob := rest, dev := t.dev.dropOffers t.core.num.toNat (· == r.tag),
                 core.front.decoded := if opensFrame i then [] else t.core.front.decoded }
      else t.discard

/-- STACK_HOLD_EXPIRY (12 R322): the earliest deadline of an open entry is reached. -/
def execStackHoldExpiry (entry : Nat) (s : State) : Out :=
  .next { s with dev := s.dev.modMerge entry (fun e => { e with dispatched := true }) }

/-- STACKED_OPERATION_ISSUE (12 R323): a dispatched entry runs on the engine of its oldest contributor, when that is free. Each
contributor's result is that of its own instruction (06 R169). -/
def execStackedOperationIssue (entry : Nat) (s : State) : Out :=
  .next (match s.dev.merge.find? (fun e => e.id == entry && e.dispatched) with
    | none => s
    | some e =>
      let own := ((e.offers.head?.map (·.core)).getD 128) == s.core.num.toNat
      if own && s.core.busy.contains 2 then s
      else
        let engine := if own then 2 else elsewhereEngine
        { s with dev.merge := s.dev.merge.filter (fun f => f.id != entry), dev.stackedOps := s.dev.stackedOps + 1,
                 core.rob := s.core.rob.map (fun r => if r.stacked == some entry then { r with stacked := none, engine := some engine } else r),
                 core.busy := if own then 2 :: s.core.busy else s.core.busy })

/-! Stores (01 R27; 11 R292). -/

/-- STORE_PERFORMED (01 R27): the oldest retired store, when it is no reduction and no remote write. -/
def execStorePerformed (s : State) : Out :=
  .next (match s.core.sb with
    | [] => s
    | e :: _ =>
      match e.kind with
      | .ared _ _ _ _ _ => s
      | .rput _ => s
      | _ => s.drainOne)

/-- ARED_PERFORM (11 R292): the oldest retired store, when it is a posted reduction. -/
def execAredPerform (s : State) : Out :=
  .next (match s.core.sb with
    | [] => s
    | e :: _ =>
      match e.kind with
      | .ared _ _ _ _ _ => s.drainOne
      | _ => s)

end Sys2Proof.Machine
end

