-- ==== Sys2Proof/Machine/Away.lean ====
section
/-! DEFINITION. What units on other cores do that the device shows (09 R229, R230, R234; 11 R274; 12 R309 to R315; 14 R364, R382, R390,
R391): one core is modelled in full, and these inputs stand for the others (DESIGN CHOICE, log entry 2). -/

namespace Sys2Proof.Machine

/-- A unit on another core suspends (14 R364, R365). -/
def State.suspendAway (s : State) (p : BitVec 3) (l : Launch) (u : UnitRec) (task : BitVec 32) (f : FarSuspension) : State :=
  let r := f.susp
  let s := (s.withdraw u.core).trigger 3 (s.obs.snap.onmc && r.cause == Cause.machineCheck.code)
  let t := s.faultLog p 0 r.cause r.inFetch r.nested f.pl (BitVec.ofNat 7 u.core) task l.id f.epc r.tval f.repst r.paddr
  t.modPart p (fun q => q.modLaunch l.id (fun k =>
    (k.faulted r.cause task).modUnit u.u (fun e => { e with susp := some f })))

/-- A unit's handler on another core takes a machine check (14 R376; 15 R403): what it had in flight is discarded (06 R170). -/
def State.checkAway (s : State) (p : BitVec 3) (l : Launch) (u : UnitRec) (task : BitVec 32) (f : FarSuspension) : State :=
  let r := f.susp
  ((s.withdraw u.core).trigger 3 s.obs.snap.onmc).faultLog p 1 Cause.machineCheck.code r.inFetch false f.pl (BitVec.ofNat 7 u.core) task l.id f.epc r.tval
    f.repst r.paddr

/-- A context at the entry to its handler after a suspension (14 R362, R366). -/
def UnitCtx.handling (u : UnitCtx) (r : Suspension) : UnitCtx :=
  { u with
    pc := u.k.tvec.setWidth 56,
    k := { u.k with
      epc := BitVec.ofNat 64 u.pc.toNat,
      tcause := BitVec.ofNat 64 (r.cause.toNat + (if r.inFetch then 2 ^ 6 else 0) + u.k.pl.toNat * 2 ^ 7 + if u.k.rf then 2 ^ 9 else 0),
      tval := r.tval, status := statusOf 1 false } }

/-- The context of a unit that another core has saved is written to its slot (14 R382, R384); that core holds its local store (R385),
and in safe-point mode it stood at a safe point (R389). A handler that a resume request has named meanwhile is entered (R366). -/
def State.saveAway (s : State) (p : BitVec 3) (v : SavedUnit) (r : UnitRec) (u : UnitCtx) (ls : Mem) (live : Option (BitVec 16)) : State :=
  let u : UnitCtx :=
    { u with ident := { u.ident with part := p, task := v.task, launch := v.launch, unit := BitVec.ofNat 32 r.u },
             k := { u.k with vpin := s.beryl.vpinOf v.pin } }
  let u := v.enter.elim (u.onlyLive (live.getD 0xFFFF)) (u.onlyLive (live.getD 0xFFFF)).handling
  let bytes := u.image u.k.status (BitVec.ofNat 7 r.core) live.isSome (v.susp.isSome || v.stopped) (live.getD 0xFFFF)
  (s.saveCtx p ((s.partAt p).slotPa v.slot) u bytes).modPart p (fun q => { q with saved := q.saved.map (fun w =>
    if w.slot == v.slot then
      { w with image := true, streams := u.q.toList.map (·.data), far := some (r.core, ls), noted := none, enter := none } else w) })

/-- A unit migrates to the modelled core (14 R390): step 2 to step 5 of R387 with the context and the local store that arrive. -/
def State.arriveUnit (s : State) (p : BitVec 3) (l : Launch) (r : UnitRec) (task : BitVec 32) (u : UnitCtx) (ls : Mem) : State :=
  let u : UnitCtx :=
    { u with ident := { u.ident with part := p, task := task, launch := l.id, unit := BitVec.ofNat 32 r.u },
             x := u.x.set 0 0, k := { u.k with vpin := s.beryl.vpinOf r.pin }, t := u.t.map (fun t => { t with key := none }) }
  let t := (s.withdraw r.core).writeOutLs.copyLs ls
  let t : State := { t with core.lsHolder := none, core.lsPart := some p }
  ({ t.enterCtx l u .running with core.exempt := r.exempt } : State).modPart p (fun q =>
    { q.modLaunch l.id (fun k => k.modUnit r.u (fun e => { e with place := .here, core := s.core.num.toNat, pin := none, exempt := false })) with
      evictReqs := q.evictReqs.filter (fun e => e.1 != task) })

/-- A unit that runs moves to another core of its partition than its own (14 R390; 16 R412). -/
def State.mayMove (s : State) (p : BitVec 3) (l : Launch) (u : UnitRec) (task : BitVec 32) (dest : Nat) : Bool :=
  u.core != dest && s.mayMoveTo p l ((s.partAt p).evictSource task) dest

/-! Stores and Beryl operations of units on other cores. -/

/-- Bytes of one line that a unit on another core wrote reach their home. In its own cluster the snoop filter has invalidated every
other copy (10 R246). An atomic or a release write invalidates the copies of other clusters, and what is only written back leaves
them as they are (R249). -/
def State.farStore (s : State) (core pa : Nat) (bs : List Byte) (atHome : Bool) : State :=
  let lines := linesOf pa bs.length
  if s.inCluster core then
    if atHome then s.ownHomeStore pa bs else (lines.foldl State.dropLine s).rawWrite pa bs
  else if atHome then
    ((((lines.foldl State.writeBackLine s).keepCopies .c pa bs (s.heldLines lines)).rawWrite pa bs).dirKeep lines
      (s.clusterBit ||| BitVec.ofNat 32 (2 ^ (core / 4))))
  else ((lines.filter s.core.l1.holds).foldl (fun (t : State) l => { t with core.l1.stale := t.keepStale l pa bs }) s).rawWrite pa bs
@[inherit_doc State.farStore] def State.farWrite (s : State) (core pa : Nat) (bs : List Byte) (atHome : Bool) : State :=
  (s.outside (pa, bs)).foldl (fun t w => t.farStore core w.1 w.2 atHome) s

/-- An operation of a unit of a partition. -/
def State.asPart (s : State) (p : BitVec 3) (f : State → State) : State :=
  let t := f { s with core.unit.ident.part := p }
  { t with core.unit.ident.part := s.part }

/-- bloa of a unit on another core (12 R309): the trap of one that fails is that core's. -/
def State.bloaAway (s : State) (p : BitVec 3) (rg : BitVec 4) (node : Bool) (c : List Byte) : State :=
  if !(s.region rg).usable p || c.length != blockSize || (node && (s.beryl.deadChild rg (childrenOf c)).isSome) then s
  else s.asPart p (fun t => match t.lookupBlock rg node c with
    | .ok r => r.2
    | .error _ => t)

/-- The root slot at an address as a unit on another core finds it: none where its instruction traps (12 R306, R311). -/
def State.slotAway (s : State) (p : BitVec 3) (pa : Nat) (pub : Bool) : Option Root :=
  let r := s.readRoot pa
  if pa % 32 != 0 || !s.physOk pa || !s.homesTake (linesOf pa 32) || s.homeBad pa 32 || r.invalid || r.pub != pub || !(s.region r.region).usable p then
    none
  else some r

/-- A name that a slot may take (12 R311). -/
def State.mayName (s : State) (rg : BitVec 4) (n : BitVec 128) : Bool := n == 0 || s.beryl.live rg n

/-- bcas of a unit on another core (12 R311). -/
def State.bcasAway (s : State) (p : BitVec 3) (core pa : Nat) (expected new : BitVec 128) (depth : BitVec 3) : State :=
  match s.slotAway p pa false with
  | none => s
  | some r =>
    if !s.mayName r.region new || r.name != expected then s
    else s.farWrite core pa { r with name := new, depth := depth.toNat, ver := r.ver + 1 }.bytes true

/-- vpub of a unit on another core (12 R312). -/
def State.vpubAway (s : State) (p : BitVec 3) (core pa : Nat) (expected : BitVec 16) (new : BitVec 128) (depth : BitVec 3) : State :=
  match s.slotAway p pa true with
  | none => s
  | some r =>
    if !s.mayName r.region new || r.ver != expected || expected == 0xFFFF then s
    else
      let t := s.farWrite core pa { r with name := new, depth := depth.toNat, ver := r.ver + 1 }.bytes true
      { t with beryl := t.beryl.unref r.region r.name p }

/-- The pin of a unit on another core becomes another one or none (12 R315): its old entry's holder count will fall. -/
def State.pinAway (s : State) (p : BitVec 3) (l : Launch) (u : UnitRec) (new : Option Nat) : State :=
  let t := s.modPart p (fun q => q.modLaunch l.id (fun k => k.modUnit u.u (fun r => { r with pin := new })))
  { t with core.oldPins := t.core.oldPins ++ u.pin.toList }

/-- vsw of a unit on another core (12 R315). -/
def State.vswAway (s : State) (p : BitVec 3) (l : Launch) (u : UnitRec) (pa : Nat) : State :=
  match s.slotAway p pa true with
  | none => s
  | some r =>
    if r.ver == 0 || r.name == 0 then s.pinAway p l u none
    else if s.beryl.pins.any (fun e => some e.entry == u.pin && e.slotPa == pa && e.ver == r.ver) then s
    else
      match ({ s with core.unit.ident.part := p } : State).pinFor pa r with
      | .ok (e, t) => ({ t with core.unit.ident.part := s.part } : State).pinAway p l u (some e.entry)
      | .error _ => s

/-- What it does shows that the unit has executed an instruction, which ends its exemption (15 R401). -/
def Away.executes : Away → Bool
  | .arrives .. | .moved _ | .installed | .saved .. | .store .. => false
  | _ => true

/-- The unit has executed an instruction since it was resumed. -/
def State.endExempt (s : State) (p : BitVec 3) (l : Launch) (u : UnitRec) : State :=
  s.modPart p (fun q => q.modLaunch l.id (fun k => k.modUnit u.u (fun r => { r with exempt := false })))

/-- What a unit that executes on another core does there. -/
def State.runsAway (s : State) (p : BitVec 3) (l : Launch) (u : UnitRec) (task : BitVec 32) (c : Nat) (a : Away) : State :=
  match a with
  | .trig => (s.modPart p (fun q => q.modLaunch l.id (fun k => k.modUnit u.u (fun r => { r with triggered := true })))).checkTrigger p l.id
  | .draw => if l.record.smode && l.remaining != 0 then s.drawFor p l u.u c else s
  | .suspended f => if causeLegal f.susp.cause then s.suspendAway p l u task f else s
  | .handled f => s.checkAway p l u task f
  | .arrives ctx ls =>
    let me := s.core.num.toNat
    if s.mayMove p l u task me && ctx.restorable then s.arriveUnit p l u task ctx ls else s
  | .moved d =>
    if d != s.core.num.toNat && s.mayMove p l u task d then
      ((s.withdraw c).occupyFar l d).modPart p (fun q =>
        { q.modLaunch l.id (fun k => k.modUnit u.u (fun r => { r with place := .elsewhere d, core := d })) with
          evictReqs := q.evictReqs.filter (fun e => e.1 != task) })
    else s
  | .cncl level v => s.cancelFrom p level v
  | .bloa rg node cs => s.bloaAway p rg node cs
  | .bref rg n => if (s.region rg).usable p && s.mayName rg n then { s with beryl := s.beryl.ref rg n p } else s
  | .brel rg n =>
    if (s.region rg).usable p && s.mayName rg n && (n == 0 || ((s.beryl.find rg n).map (·.count p)).getD 0 != 0) then
      { s with beryl := s.beryl.unref rg n p }
    else s
  | .bcas pa e n d => s.bcasAway p c pa e n d
  | .vpub pa e n d => s.vpubAway p c pa e n d
  | .vsw pa => s.vswAway p l u pa
  | .vswDrop => s.pinAway p l u none
  | _ => s

/-- Bytes that a unit stored reach their home, which takes them (16 R406). -/
def State.storeAway (s : State) (core pa : Nat) (bs : List Byte) (atHome : Bool) : State :=
  let lines := linesOf pa bs.length
  if s.physOk pa && decide (lines.length ≤ 1) && s.homesTake lines then s.farWrite core pa bs atHome else s

/-- What a unit on another core does: one that is suspended or stopped executes nothing, and its stores still drain. -/
def State.awayInput (s : State) (p : BitVec 3) (task : BitVec 32) (a : Away) : State :=
  match (s.partAt p).findUnit task with
  | none => s
  | some (l, u) =>
    match u.place, a with
    | .elsewhere c, .store pa bs atHome => s.storeAway c pa bs atHome
    | .exiting c, .store pa bs atHome => if c == s.core.num.toNat then s else s.storeAway c pa bs atHome
    | .elsewhere _, .installed =>
      { s with core.forward := s.core.forward.map (fun f => if f.part == p && f.task == task then { f with installed := true } else f) }
    | .elsewhere c, a =>
      if u.susp.isSome || u.stopped then s else (if a.executes && u.exempt then s.endExempt p l u else s).runsAway p l u task c a
    | .saved slot, .saved ctx ls live =>
      match (s.partAt p).saved.find? (fun v => v.slot == slot) with
      | some v =>
        if v.image || !ctx.restorable || live.isSome != (s.partAt p).pmode || (v.enter.isSome && ctx.k.tvec == 0) then s
        else s.saveAway p v u ctx ls live
      | none => s
    | _, _ => s

end Sys2Proof.Machine
end

