-- ==== Sys2Proof/Machine/System.lean ====
section
/-! DEFINITION. System instructions, opcodes 0x78 to 0x7D (14 R369 to R373, R389; 01 R19 to R24; 10 R250 to R254, R270,
R271; 16 R406, R407). -/

namespace Sys2Proof.Machine

/-- trap (14 R370). -/
def execTrap (code : BitVec 15) (s : State) : Out := s.finish (.error (.trap .trap (code.setWidth 64) 0))

/-- brk (14 R370). -/
def execBrk (s : State) : Out := s.finish (.error (.trap .brk 0 0))

/-! sret. -/

/-- The level that sret returns to (14 R361). -/
def KRegs.ppl (k : KRegs) : BitVec 2 := k.tcause.extractLsb' 7 2

/-- sret (14 R371; 01 R41): the return from the in-core handler, into the interrupted frame when k.repst.v is 1. -/
def execSret (s : State) : Out :=
  s.finish (do
    let k := s.k
    s.needLevel (k.pl != 0)
    s.needLevel (k.ppl != 3 && decide (k.ppl.toNat ≤ k.pl.toNat))
    need (bits k.epc 1 0 == 0) .pcAlign k.epc
    if k.v then
      let t ← s.refetchFrame
      .ok (((t.retired false).setK { k with status := statusOf k.ppl true }).setPc (k.frameAddr k.pos))
    else .ok (((s.retired false).setK { k with status := statusOf k.ppl false }).setPc (k.epc.setWidth 56)))

/-! kget and kset. -/

/-- The value of a register number (01 R19, R20). -/
def State.kread (s : State) (n : Nat) : Word64 :=
  let id := s.core.unit.ident
  let k := s.k
  match n with
  | 0x000 => id.unit.setWidth 64
  | 0x001 => id.launch.setWidth 64
  | 0x002 => id.task.setWidth 64
  | 0x003 => s.core.num.setWidth 64
  | 0x004 => id.org0.setWidth 64
  | 0x005 => id.org1.setWidth 64
  | 0x006 => id.ext0.setWidth 64
  | 0x007 => id.ext1.setWidth 64
  | 0x008 => id.slice.setWidth 64
  | 0x009 => id.nslice.setWidth 64
  | 0x00A => id.part.setWidth 64
  | 0x00B => k.idVer
  | 0x100 => statusOf k.pl k.rf
  | 0x101 => k.fpmode
  | 0x102 => k.sticky
  | 0x103 => k.repst
  | 0x104 => k.repbase
  | 0x105 => k.vpin
  | 0x106 => k.stkhold
  | 0x200 => k.tvec
  | 0x201 => k.tcause
  | 0x202 => k.epc
  | 0x203 => k.tval
  | 0x204 => k.tdeleg
  | 0x300 => s.dev.l2.reg
  | _ => 0

/-- The lowest level that reads a register (01 R20). -/
def readLevel (n : Nat) : Nat := if n < 0x200 then 0 else if n < 0x300 then 1 else 2

/-- The lowest level that writes a register (01 R20); 3 for those that no level writes. -/
def writeLevel (n : Nat) : Nat :=
  match n with
  | 0x101 | 0x102 => 0
  | 0x103 | 0x104 | 0x106 | 0x200 | 0x201 | 0x202 | 0x203 => 1
  | 0x204 | 0x300 => 2
  | _ => 3

/-- kget (14 R372; 01 R20). -/
def execKget (d : BitVec 5) (n : BitVec 15) (s : State) : Out :=
  s.finish (do
    s.needLevel (readLevel n.toNat ≤ s.k.pl.toNat)
    .ok (s.setX d (s.kread n.toNat)).advance)

/-! k.l2map (10 R250 to R254). -/

/-- The eight entries of a table, read at their homes (10 R251). -/
def State.readTable (s : State) (tbase : Nat) : List (Word64 × Word64) :=
  if tbase == 0 then []
  else (List.range 8).map (fun j => (s.mem.read64 (tbase * 4096 + 16 * j), s.mem.read64 (tbase * 4096 + 16 * j + 8)))

/-- The number of set bits of a domain's mask. -/
def maskCount (e : Word64 × Word64) : Nat := (maskBits (bits e.2 31 0) 32).length

/-- A valid entry keeps the form of 10 R251. -/
def entryOk (e : Word64 × Word64) : Bool :=
  bits e.1 29 1 == 0 && bits e.1 63 52 == 0 && bits e.2 63 32 != 0 && [1, 2, 4, 8, 16, 32].contains (maskCount e)

/-- Every address of a domain lies in memory that exists (10 R253, R255, R257): within HBM4 or the capacity fitted. DESIGN CHOICE, log
entry 93: the capacity pages that do not exist lie outside every physical range. -/
def Dev.domainExists (d : Dev) (lo hi : Nat) : Bool :=
  decide (hi ≤ tierEnd) &&
  (List.range 5).all (fun w =>
    let top := if w == 0 then 2 ^ 39 else d.cxl.getD (w - 1) 0 / 65536 * 65536
    let a := max lo (w * 2 ^ 39)
    let b := min hi ((w + 1) * 2 ^ 39)
    decide (b ≤ a) || decide (b ≤ w * 2 ^ 39 + top))

/-- Two domains share an address. -/
def domainsMeet (e f : Word64 × Word64) : Bool := decide (max (domainBase e) (domainBase f) < min (domainEnd e) (domainEnd f))

/-- The lowest offending entry of a table (10 R253). -/
def Dev.badEntry (d : Dev) (t : List (Word64 × Word64)) : Option Nat :=
  (List.range t.length).find? (fun i =>
    let e := t.getD i (0, 0)
    domainValid e && (!entryOk e || !d.domainExists (domainBase e) (domainEnd e)
      || (List.range t.length).any (fun j => j != i && domainValid (t.getD j (0, 0)) && domainsMeet e (t.getD j (0, 0)))))

/-- k.l2map with its reserved bits zero (10 R250). -/
def l2mapOf (v : Word64) : Word64 := BitVec.ofNat 64 (bits v 3 0 + bits v 51 12 * 4096)

/-- The checks of a new value (10 R253). -/
def State.needL2map (s : State) (v : Word64) : Run? Unit := do
  need (bits v 3 0 == (bits s.dev.l2.reg 3 0 + 1) % 16) .l2mapInvalid 8
  match s.dev.badEntry (s.readTable (bits v 51 12)) with
  | some i => .error (.trap .l2mapInvalid (BitVec.ofNat 64 i) 0)
  | none => .ok ()

/-- kset of k.l2map (10 R253; 16 R407): the first turn checks and broadcasts the table, the instruction waits until every
slice has acknowledged and every handoff is complete, and then the table is in force. -/
def State.ksetL2map (s : State) (v : Word64) : Out :=
  match s.dev.l2.switching with
  | none =>
    match s.needL2map v with
    | .error e => s.finish (.error e)
    | .ok _ => .next { s with dev.l2.switching := some (l2mapOf v, s.readTable (bits v 51 12)), core.wait := .other }
  | some (reg, es) =>
    if s.dev.l2.slices.all (fun g => g.toNat == bits reg 3 0) && s.dev.l2.handoffs.isEmpty then
      .next { s with dev.l2 := { s.dev.l2 with reg := reg, entries := es, switching := none, core := reg.setWidth 4 } }.advance
    else .next { s with core.wait := .other }

/-- kset (14 R372; 01 R20, R21). -/
def execKset (a : BitVec 5) (n : BitVec 15) (s : State) : Out :=
  if n == 0x300 && s.k.pl == 2 then s.ksetL2map (s.x a)
  else s.finish (do
    s.needLevel (writeLevel n.toNat ≤ s.k.pl.toNat)
    .ok (s.setK (s.k.write n.toNat (s.x a))).advance)

/-! halt and spt. -/

/-- halt (14 R373): the core stops at the next instruction and reports to its service core. -/
def execHalt (s : State) : Out :=
  s.finish (do
    s.needLevel (s.k.pl == 2)
    let t ← s.settleStores
    .ok ((t.retired false).haltReport 0 (s.pc + 4)))

/-- spt (14 R389): in safe-point mode, at unit level, a waiting eviction takes its boundary after it. DESIGN CHOICE, log entry 92: one that
finds no free slot waits for another spt. -/
def execSpt (a : BitVec 5) (s : State) : Out :=
  let t := s.advance
  let p := s.partAt s.part
  if p.pmode && s.k.pl == 0 && s.core.evictReq.isSome && p.freeSlot.isSome then
    .next { t with core.safe := some ((s.x a).setWidth 16) }
  else .next t

/-! tlbi (10 R270, R271). -/

/-- Two aligned power-of-two blocks of virtual addresses meet. -/
def pagesMeet (a sa b sb : Nat) : Bool := a / 2 ^ max sa sb == b / 2 ^ max sa sb

/-- Translations that detached commands and bound streams hold (10 R271). -/
def State.heldPages (s : State) : List (Nat × Nat) :=
  (s.core.cmds.map (·.vpages)).flatten
    ++ ((List.range 4).map (fun i =>
      let q := s.stream (BitVec.ofNat 2 i)
      if q.bound then q.data.pages else [])).flatten

/-- A page of a range translation matches. -/
def TlbEntry.hitBy (e : TlbEntry) (hit : Nat → Nat → Bool) : Bool :=
  (List.range (max e.pages 1)).any (fun i => hit (e.vbase + i * 2 ^ e.size) e.size)

/-- The caches of translations without a partition's entries that a tlbi removes: of the cluster's TLB, and of the upper-level
entries that lead to such a page (10 R271). -/
def Hier.flush (h : Hier) (p : BitVec 3) (hit : Nat → Nat → Bool) : Hier :=
  { h with tlb := h.tlb.filter (fun e => !(e.part == p && e.hitBy hit)),
           upper := h.upper.filter (fun u => !(u.part == p && hit (u.index * 2 ^ u.lo) u.lo)) }

/-- tlbi: the matching translations go, and those that the dispatcher keeps (09 R220); it retires once no store, remote access or detached command uses one. -/
def tlbi (hit : Nat → Nat → Bool) (s : State) : Out :=
  s.finish (do
    s.needLevel (s.k.pl != 0)
    let t ← s.settleAll
    if t.heldPages.any (fun g => hit g.1 g.2) then .error (.wait .other)
    let u : State := { t with core.tlb := t.core.tlb.filter (fun e => !(e.part == s.part && e.hitBy hit)),
                              dev.hier := t.dev.hier.flush s.part hit }
    let drop (l : Launch) : Launch := { l with xlat := l.xlat.filter (fun k => !hit (k.1 * 4096) k.2.2) }
    .ok (u.modPart s.part (fun q => { q with launches := q.launches.map drop })).advance)

/-- tlbi.all (10 R270). -/
def execTlbiAll (s : State) : Out := tlbi (fun _ _ => true) s

/-- tlbi.va (10 R270). -/
def execTlbiVa (a : BitVec 5) (s : State) : Out := tlbi (fun b n => pagesMeet b n (addrOf (s.x a)) 0) s

/-- tlbi.blk (10 R270). -/
def execTlbiBlk (a : BitVec 5) (n : BitVec 7) (s : State) : Out := tlbi (fun b m => pagesMeet b m (addrOf (s.x a)) n.toNat) s

end Sys2Proof.Machine
end

