-- ==== Sys2Proof/Machine/Run.lean ====
section
/-! DEFINITION. What the core does in one turn: breakpoints (15 R400 to R402), the fetch and decoding of the next
instruction, the executions of a repeat frame (01 R37 to R41), and the inputs of the agenda. The meanings of instructions
come as the argument `ex`. -/

namespace Sys2Proof.Machine

/-! Breakpoints. -/

/-- A slot's control fields (15 R400). -/
def Slot.en (b : Slot) : Bool := b.ctl.getLsbD 0
@[inherit_doc Slot.en] def Slot.store (b : Slot) : Bool := b.ctl.getLsbD 1
@[inherit_doc Slot.en] def Slot.traps (b : Slot) : Bool := b.ctl.getLsbD 2
@[inherit_doc Slot.en] def Slot.anyTask (b : Slot) : Bool := b.ctl.getLsbD 3

/-- The slot matches the resident unit (15 R401). -/
def State.slotHits (s : State) (b : Slot) : Bool :=
  b.en && b.ctl.extractLsb' 4 3 == s.part && (b.anyTask || b.ctl.extractLsb' 32 32 == s.core.unit.ident.task)
    && decide (s.k.pl.toNat ≤ 1) && s.core.service.isNone

/-- The slots of a kind that match a range of addresses. -/
def State.matching (s : State) (store : Bool) (a n : Nat) : List (Fin 8) :=
  (List.finRange 8).filter (fun k =>
    let b := s.obs.slots[k]
    s.slotHits b && b.store == store && overlap b.lo.toNat (b.hi.toNat + 1 - b.lo.toNat) a n)

/-- Matches of a slot by units of these tasks are counted (15 R400): hits saturates, last takes the first task, the match bit is set,
the interrupt is raised and the snapshot may trigger. DESIGN CHOICE, log entry 100: the interrupt of the controlling port is counted for
the block, and for no port. -/
def State.countMatches (s : State) (k : Fin 8) (tasks : List (BitVec 32)) : State :=
  match tasks with
  | [] => s
  | task :: _ =>
    let o := s.obs
    let hits := BitVec.ofNat 32 (min (o.slots[k].hits.toNat + tasks.length) (2 ^ 32 - 1))
    let o : Obs :=
      { o with slots := o.slots.set k { o.slots[k] with hits := hits, last := task },
               written := o.written.set k { o.written[k] with hits := hits, last := task },
               matched := o.matched ||| BitVec.ofNat 8 (2 ^ k.val), irqs := o.irqs + tasks.length }
    { s with obs := o }.trigger 2 o.snap.onbrk

/-- The resident unit matches a slot. -/
def State.countMatch (s : State) (k : Fin 8) : State := s.countMatches k [s.core.unit.ident.task]

/-- Units on other cores match a slot in one cycle (15 R402): last takes the task of the lowest core; each stops, unless the match
traps its instruction. What it had in flight is discarded (06 R170). -/
def State.matchAway (s : State) (k : Fin 8) (us : List (BitVec 3 × BitVec 32)) : State :=
  let b := s.obs.slots[k]
  let hit := (byCore s.core.num.toNat (us.dedup.filterMap (fun e => (s.partAt e.1).findUnit e.2))).filter (fun e =>
    let task := BitVec.ofNat 32 (e.1.record.tbase + e.2.u)
    b.en && us.contains (b.ctl.extractLsb' 4 3, task) && (b.anyTask || b.ctl.extractLsb' 32 32 == task)
      && e.2.place != .here && e.2.susp.isNone && !e.2.stopped)
  let tasks := hit.map (fun e => BitVec.ofNat 32 (e.1.record.tbase + e.2.u))
  let t := (hit.map (·.2.core)).foldl State.withdraw (s.countMatches k tasks)
  if b.traps && !b.store then t
  else hit.foldl (fun t e =>
    let p := b.ctl.extractLsb' 4 3
    (t.requestEvict p (BitVec.ofNat 32 (e.1.record.tbase + e.2.u)) .debug).modPart p (fun q =>
      q.modLaunch e.1.id (fun k => k.modUnit e.2.u (fun r => { r with stopped := true })))) t

/-- The unit stops for the debugger: it parks, and its eviction is due, with that of its group when the launch is concurrent (14 R381;
15 R402). -/
def State.debugStop (s : State) : State := (s.requestEvict s.part s.core.unit.ident.task .debug).park .stopped s.pc

/-- The outcome of an instruction match at the oldest instruction, when there is one: the lowest matching slot decides
(DESIGN CHOICE, log entry 19). One that already waits was compared when it became the oldest (15 R401). -/
def State.breakHere (s : State) : Option State :=
  if s.core.exempt || s.core.wait != .none then none
  else
    match s.matching false s.pc.toNat 1 with
    | [] => none
    | k :: r =>
      let t := (k :: r).foldl State.countMatch s
      if s.obs.slots[k].traps then some (t.trapHere .brk (BitVec.ofNat 64 (0x100 + k.val)) 0) else some t.debugStop

/-- The memory range of R29 of an instruction that a store breakpoint watches (15 R401), in the state before it. -/
def State.storedRange (s : State) (i : Instr) : Option (Nat × Nat) :=
  match i with
  | .st _ a sz off => some (s.ea a off, sizeBytes sz)
  | .stRel _ a sz _ => some (s.ea a 0, sizeBytes sz)
  | .amo _ a _ _ _ sz _ => some (addrOf (s.x a), if sz == 1 then 8 else 4)
  | .ared a _ _ _ sz _ => some (addrOf (s.x a), if sz == 1 then 8 else 4)
  | .tst r a b _ _ esrc _ half =>
    let p := s.x a
    let sh := s.x b
    let sz := shapeOf esrc false (shRows sh) (shCols sh) (s.t r)
    some (addrOf p, rangeLen (rowSpan (ptrFmt p) (ptrBlock p) (half == 1) sz.mc) (shStride sh) sz.mr sz.mc)
  | .bout d _ b => some (addrOf (s.x b), 2048 * bits (s.x d) 52 40)
  | _ => none

/-- A store match after a store retires (15 R401, R402): the unit stops after it. -/
def State.afterStore (s t : State) (i : Instr) : State :=
  match s.storedRange i with
  | none => t
  | some (a, n) =>
    if t.core.retired == s.core.retired then t
    else
      match s.matching true a n with
      | [] => t
      | ks => (ks.foldl State.countMatch t).debugStop

/-! What the core's storage and the matrix engine do to the oldest instruction (06 R172; 14 R374, R378). -/

/-- An instruction that takes a register and that the privilege level does not allow: PRIVILEGE comes before every other fault of it (03
R76; 01 R20; 09 R229; 10 R270). -/
def State.lacksLevel (s : State) (i : Instr) : Bool :=
  match i with
  | .kset _ n => decide (s.k.pl.toNat < writeLevel n.toNat)
  | .tlbiVa _ => s.k.pl == 0
  | .tlbiBlk _ _ => s.k.pl == 0
  | .cncl _ _ level => level == 4 && s.k.pl == 0
  | _ => false

/-- An instruction that reads a scalar register that cannot be corrected ends with a machine check (14 R374): the lowest such
register, in the order in which the word names them (DESIGN CHOICE, log entry 70). -/
def State.badSource (s : State) (i : Instr) : Option (BitVec 5) :=
  if s.lacksLevel i then none else (xReads i).find? (fun r => r != 0 && s.core.badX.contains r)

/-- The register that the machine check of a checksum names: that of role 0 (06 R171; DEDUCED, log entry 70), 0 for gathered rows. -/
def checksumReg : Instr → Nat
  | .mma _ a _ _ _ _ | .mmz _ a _ _ _ | .tadw _ a _ _ _ => a.toNat
  | _ => 0

/-- The complete entry of the oldest instruction. -/
def State.completed (s : State) (i : Instr) : Option RobEntry := s.core.rob.head?.filter (fun r => r.complete && r.pc == s.pc && r.instr == i)

/-- The checksum of a result (06 R172, R173 step 5; 14 R378), in the state s before the instruction and the state t after it. A
mismatch is rerun, and the rerun is counted; a second one ends the instruction with a machine check of kind 2 at a result row. An entry
that is complete has had its checks (08 R212). -/
def State.checksum (s t : State) (i : Instr) : State :=
  let wrong (u : State) (row : Nat) : State := u.trapHere .machineCheck (poisonVal row (checksumReg i) 0 2) 0
  if t.core.retired == s.core.retired then t
  else
    match s.completed i, s.core.mismatch with
    | some r, _ => r.wrong.elim t (wrong s)
    | none, none => t
    | none, some m =>
      let rows := t.resultRows i
      let n := s.core.reruns + 1
      if rows == 0 then t
      else
        match m with
        | .once => { t with core.mismatch := none, core.reruns := n }
        | .twice row => wrong { s with core.mismatch := none, core.reruns := n } (row % rows)

/-- Registers that a retired instruction wrote hold good data again. -/
def State.renewX (s t : State) (i : Instr) : State :=
  if s.core.badX.isEmpty || t.core.retired == s.core.retired then t
  else { t with core.badX := t.core.badX.filter (fun r => s.x r == t.x r && !(xWrites i).contains r) }

/-- The outcome of an instruction with what follows it in the core: the checksum, the store breakpoints, and its entry of the reorder
buffer. -/
def State.watched (s : State) (i : Instr) (o : Out) : Out :=
  match o with
  | .next t => .next (s.leaveRob (s.afterStore (s.renewX (s.checksum t i) i) i) i)
  | o => o

/-- The instruction is executed, unless one of its scalar sources cannot be corrected (14 R374). -/
def State.runInstr (ex : Instr → State → Out) (s : State) (i : Instr) : Out :=
  match s.badSource i with
  | some r => .next (s.trapHere .machineCheck (BitVec.ofNat 64 (0x100 + r.toNat)) 0)
  | none => s.watched i (ex i s)

/-! Instructions. -/

/-- A service core raises ILLEGAL_INSN for the instruction (16 R408). DESIGN CHOICE, log entry 101: one that R408 puts in neither of its
lists executes as on an NPU core. -/
def State.barred (s : State) (i : Instr) : Bool := s.core.service.isSome && (tileClass i || detached i || opensFrame i)

/-- ILLEGAL_INSN (03 R76). -/
def State.illegal (s : State) (w : Word32) : Out := .next (s.trapHere .illegalInsn (w.setWidth 64) 0)

/-- The next instruction is fetched at pc, when its home accepts that (16 R406), decoded and executed (01 R1; 10 R264; 03 R75, R76). -/
def State.runAtPc (ex : Instr → State → Out) (s : State) : Out :=
  if !s.fetchTaken s.pc 1 then .next s
  else
  match s.fetchWord s.pc with
  | .error f => .next (s.takeTrap f.1.code true s.pc (s.pc.setWidth 64) f.2)
  | .ok (w, x) =>
    let s1 := s.fetched s.pc x
    match decode w with
    | .error _ => s1.illegal w
    | .ok i => if s1.barred i then s1.illegal w else s1.runInstr ex i

/-- One captured execution (01 R38). -/
def State.runCaptured (ex : Instr → State → Out) (s : State) : Out :=
  match s.core.frame[s.k.pos]? with
  | none => .next s
  | some i =>
    let j := staggered s.k s.k.iter i
    if wellFormed j then s.runInstr ex j else s.illegal ((encode i).getD 0)

/-- One captured execution, after the words are fetched when the core does not hold them. -/
def State.runFrame (ex : Instr → State → Out) (s : State) : Out :=
  if s.core.frame.isEmpty then
    match s.refetchFrame with
    | .ok t => t.runCaptured ex
    | .error _ => s.finish s.refetchFrame
  else s.runCaptured ex

/-- The core's turn: a breakpoint, a captured execution or the instruction at pc. It stands for the cycles in which the oldest instruction
becomes complete and retires (08 R212; log entry 39). A core that is idle, suspended, halted,
stopped for the debugger, or at a safe point whose eviction is due, does nothing. -/
def State.turn (ex : Instr → State → Out) (s : State) : Out :=
  if s.core.run != .running || s.core.safe.isSome then .next s
  else
    match s.breakHere with
    | some t => .next t
    | none => if s.k.rf then s.runFrame ex else s.runAtPc ex

/-! The steps TRAP_ENTRY and REPORT_AND_SUSPEND. -/

/-- The trap that the oldest instruction takes before it executes: its cause, whether it arose in the fetch, k.tval, the granule, and
the state in which it is taken. The traps of its own meaning are taken in its turn (log entry 60). -/
def State.frontTrap (s : State) : Option (Cause × Bool × Word64 × Nat × State) :=
  let source (t : State) (i : Instr) : Option (Cause × Bool × Word64 × Nat × State) :=
    (t.badSource i).map (fun r => (.machineCheck, false, BitVec.ofNat 64 (0x100 + r.toNat), 0, t))
  let captured (t : State) : Option (Cause × Bool × Word64 × Nat × State) :=
    (t.core.frame[t.k.pos]?).bind (fun i =>
      let j := staggered t.k t.k.iter i
      if wellFormed j then source t j else some (.illegalInsn, false, ((encode i).getD 0).setWidth 64, 0, t))
  if s.core.run != .running || s.core.safe.isSome || s.breakHere.isSome then none
  else if s.k.rf then
    if s.core.frame.isEmpty then
      match s.refetchFrame with
      | .ok t => captured t
      | .error (.trap c v p) => some (c, false, v, p, s)
      | .error _ => none
    else captured s
  else if !s.fetchTaken s.pc 1 then none
  else
    match s.fetchWord s.pc with
    | .error f => some (f.1, true, s.pc.setWidth 64, f.2, s)
    | .ok (w, x) =>
      match decode w with
      | .error _ => some (.illegalInsn, false, w.setWidth 64, 0, s.fetched s.pc x)
      | .ok i =>
        if s.barred i then some (.illegalInsn, false, w.setWidth 64, 0, s.fetched s.pc x) else source (s.fetched s.pc x) i

/-- The trap would go to the in-core handler (14 R360). -/
def State.inCore (s : State) (cause : BitVec 6) : Bool := s.k.pl == 0 && !s.k.tdeleg.getLsbD cause.toNat && s.k.tvec != 0

/-- TRAP_ENTRY (14 R362): the oldest instruction's trap, of this cause and value, enters the in-core handler. -/
def execTrapEntry (cause : BitVec 6) (inFetch : Bool) (epc : BitVec 56) (tval : Word64) (s : State) : Out :=
  .next (match s.frontTrap with
    | none => s
    | some (c, f, v, p, t) =>
      if c.code == cause && f == inFetch && epc == s.pc && v == tval && s.inCore cause then t.takeTrap cause inFetch epc tval p else s)

/-- REPORT_AND_SUSPEND (14 R364): the oldest instruction's trap, of this cause, value and granule, suspends the unit. -/
def execReportAndSuspend (cause : BitVec 6) (inFetch : Bool) (epc : BitVec 56) (tval : Word64) (paddr : Nat) (s : State) : Out :=
  .next (match s.frontTrap with
    | none => s
    | some (c, f, v, p, t) =>
      if c.code == cause && f == inFetch && epc == s.pc && v == tval && p == paddr && !s.inCore cause && decide (s.k.pl.toNat ≤ 1) then
        t.takeTrap cause inFetch epc tval paddr
      else s)

/-- A row of a tile's storage fails: it is poisoned, with origin 0 (14 R374, R375). -/
def State.upsetTile (s : State) (r : BitVec 4) (row : Nat) : State :=
  let t := s.t r
  if t.mapped && row < t.rext then s.setT r { t with poison := t.poison ||| BitVec.ofNat 32 (2 ^ row), origin := 0 } else s

/-- A granule of the L1's storage fails: dirty bytes of it are poisoned, a clean copy is dropped (14 R374). -/
def State.upsetL1 (s : State) (g : Nat) : State :=
  if s.core.l1.dirty.any (fun c => granuleOf c.1 == g) then
    { s with core.l1.poison := g :: s.core.l1.poison.filter (· != g) }
  else { s with core.l1.sectors := s.core.l1.sectors.filter (fun n => n / 2 != g),
                core.l1.stale := s.core.l1.stale.filter (fun c => granuleOf c.1 != g) }

/-- The table entries of a walk's path, with their levels (10 R263). -/
def State.walkEntries (s : State) (p : BitVec 3) (va : Nat) : List Level → Nat → List UpperEntry
  | [], _ => []
  | l :: rest, tab =>
    let e := s.readEntry (tab + 8 * (va / 2 ^ l.lo % 2 ^ l.nbits))
    if e.getLsbD 0 && e.getLsbD 1 && tableOk e l then ⟨p, l.lo, va / 2 ^ l.lo, e⟩ :: s.walkEntries p va rest (bits e 51 12 * 4096)
    else []

/-- The translation service keeps the table entries that a walk of the resident unit's partition reads (10 R265). -/
def State.fillUpper (s : State) (va : Nat) : State :=
  let root := (s.partAt s.part).troot
  if s.core.run == .idle || s.core.service.isSome || !root.getLsbD 0 then s
  else
    let new := (s.walkEntries s.part va walkLevels (bits root 51 14 * 2 ^ 14)).filter (fun u =>
      !s.dev.hier.upper.any (fun v => v.part == u.part && v.lo == u.lo && v.index == u.index))
    { s with dev.hier.upper := new ++ s.dev.hier.upper }

/-- An input of the agenda. An instruction word is no event: the model ignores one in the agenda. -/
def State.takeInput (ex : Instr → State → Out) (s : State) (i : Input) : Out :=
  match i with
  | .event e => if e.isWord then .next s else ex e s
  | .l1Evict line => .next (s.dropLine line)
  | .l1Replace lines => .next (((s.core.l1.sectors.map sectorLine).filter lines.contains).getLast?.elim s s.dropLine)
  | .lateFill sector => .next (s.lateFill sector)
  | .offerGone core tag => .next (if core == s.core.num.toNat then s else { s with dev := s.dev.dropOffers core (· == tag) })
  | .l1Fill sector => .next (if s.core.service.isNone && s.physOk (sector * 32) then s.fillLines (sector * 32) 1 else s)
  | .tlbEvict n => .next { s with core.tlb := s.core.tlb.eraseIdx n }
  | .invalDone line => .next (if s.core.invals.any (fun e => e.1 == line) then s.invalDone line else s)
  | .turn => s.turn ex
  | .retire tag => if (s.core.rob.head?.map (·.tag)) == some tag then s.turn ex else .next s
  | .restart => .next (if s.core.run == .halted then { s with core.run := .running } else s)
  | .l2Fill line => .next (if s.physHome (line * 128) then { s with dev := (s.l2Enter s.dev line).l2Take line } else s)
  | .l2Evict line => .next (s.l2Drop line)
  | .dirFill line cluster => .next (if cluster < 32 && s.physHome (line * 128) then s.dirFill line cluster else s)
  | .dirEvict line => .next ((s.dropLine line).dirKeep [line] 0)
  | .tlbWiden n back pages => .next (match s.core.tlb[n]?.bind (fun e => e.widened back pages) with
    | some e => { s with core.tlb := s.core.tlb.set n e }
    | none => s)
  | .clusterTlbEvict n => .next { s with dev.hier.tlb := s.dev.hier.tlb.eraseIdx n }
  | .upperFill va => .next (s.fillUpper va)
  | .upperEvict n => .next { s with dev.hier.upper := s.dev.hier.upper.eraseIdx n }
  | .icacheEvict line => .next { s with core.icache := s.core.icache.filter (fun e => e.1 != line) }
  | .engineFree e => .next { s with core.busy := s.core.busy.erase e }
  | .swapThreshold n => .next { s with dev.hier.swapAt := n }
  | .checksum m => .next { s with core.mismatch := some m }
  | .tileUpset t row => .next (s.upsetTile t row)
  | .scalarUpset r => .next (if r == 0 || s.core.badX.contains r then s else { s with core.badX := r :: s.core.badX })
  | .memoryUpset g ok => .next { s with dev := s.dev.setGranule g (some (if ok then .correctable else .uncorrectable)) }
  | .localUpset g => .next (s.lsMark [g])
  | .l1Upset g => .next (s.upsetL1 g)
  | .corrected st b => .next { s with dev := s.dev.countCorrected (st, b) }
  | .away p task a => .next (s.awayInput p task a)
  | .matched k us => .next (s.matchAway k us)
  | .pulseLatch => .next (if s.obs.pulseEn then s.pulseAndLatch else s.ifUp s.pulseAndLatch)
  | .serviceStart pc => .next (s.startService pc)
  | .barrierCycle pa => .next (s.openBarCycle pa)
  | .barrierCycleEnd => .next s.endBarCycle
  | .barrierOp pa core op => .next (s.barrierOpAway pa core op)
  | .barrierDelivery pa path engine n failed => .next (s.barrierDeliveryAway pa path engine n failed)
  | .bcpPart cmd off len peer => .next (s.bcpPart cmd off len peer)
  | .hostRequest port same addr v => .next (s.hostArrives port same addr v)
  | .hostServed quadrant => .next (s.serveHost quadrant)

/-- What the merge buffer does at the end of a step (12 R322): its conditions are looked at after every change. -/
def Out.settled (o : Out) : Out :=
  match o with
  | .next t => .next t.mergeSettle
  | o => o

/-- One step of the machine: the next input of the agenda, or the core's turn when there is none (DESIGN CHOICE, log
entry 1). -/
def State.stepWith (ex : Instr → State → Out) (s : State) : Out :=
  (match s.agenda with
   | i :: r => { s with agenda := r }.takeInput ex i
   | [] => s.turn ex).settled

/-! Placing an instruction where the next step fetches it. -/

/-- A leaf of 4 KiB, readable, writable and executable at every level: the translation that places an instruction. -/
def pcLeaf (pa : Nat) : Word64 := BitVec.ofNat 64 (0x9E1 + 2 ^ 54 + pa / 4096 * 4096)

/-- The machine with a running unit, an empty agenda and w at its program counter (log entry 20). -/
def State.place (s : State) (nbits w : Nat) : State :=
  let pc := s.pc
  let pa := if s.core.service.isSome then pc.toNat % 2 ^ 52 else pc.toNat % 2 ^ 38
  let t : TlbEntry := ⟨s.part, pc.toNat / 4096 * 4096, 12, pcLeaf pa, 1, 0, []⟩
  { s with agenda := [], core.run := .running, core.evictReq := none, core.safe := none, core.frame := [], core.wait := .none,
           core.icache := [], core.badX := [], core.mismatch := none,
           core.exempt := true, core.unit.k.status := statusOf s.k.pl false, core.tlb := t :: s.core.tlb,
           dev := s.dev.setGranule (granuleOf pa) none, mem := s.mem.write pa (leBytes 4 (w % 2 ^ nbits)) }

end Sys2Proof.Machine
end

