-- ==== Sys2Proof/Machine/Dispatch.lean ====
section
/-! DEFINITION. The dispatch of one step to its meaning: one arm per constructor of Instr. -/

namespace Sys2Proof.Machine

/-- What one step of the part does. -/
def exec (i : Instr) (s : State) : Host.Outcome State Fault Refusal :=
  match i with
  | .add a b c => Sys2Proof.Machine.execAdd a b c s
  | .sub a b c => Sys2Proof.Machine.execSub a b c s
  | .padd a b c => Sys2Proof.Machine.execPadd a b c s
  | .ptag a b c => Sys2Proof.Machine.execPtag a b c s
  | .and a b c => Sys2Proof.Machine.execAnd a b c s
  | .or a b c => Sys2Proof.Machine.execOr a b c s
  | .xor a b c => Sys2Proof.Machine.execXor a b c s
  | .shl a b c => Sys2Proof.Machine.execShl a b c s
  | .shr a b c => Sys2Proof.Machine.execShr a b c s
  | .sar a b c => Sys2Proof.Machine.execSar a b c s
  | .min a b c => Sys2Proof.Machine.execMin a b c s
  | .max a b c => Sys2Proof.Machine.execMax a b c s
  | .minu a b c => Sys2Proof.Machine.execMinu a b c s
  | .maxu a b c => Sys2Proof.Machine.execMaxu a b c s
  | .mul a b c => Sys2Proof.Machine.execMul a b c s
  | .mulh a b c => Sys2Proof.Machine.execMulh a b c s
  | .mulhu a b c => Sys2Proof.Machine.execMulhu a b c s
  | .div a b c => Sys2Proof.Machine.execDiv a b c s
  | .divu a b c => Sys2Proof.Machine.execDivu a b c s
  | .rem a b c => Sys2Proof.Machine.execRem a b c s
  | .remu a b c => Sys2Proof.Machine.execRemu a b c s
  | .popc a b => Sys2Proof.Machine.execPopc a b s
  | .clz a b => Sys2Proof.Machine.execClz a b s
  | .ctz a b => Sys2Proof.Machine.execCtz a b s
  | .seq a b c => Sys2Proof.Machine.execSeq a b c s
  | .sne a b c => Sys2Proof.Machine.execSne a b c s
  | .slt a b c => Sys2Proof.Machine.execSlt a b c s
  | .sltu a b c => Sys2Proof.Machine.execSltu a b c s
  | .addi a b c => Sys2Proof.Machine.execAddi a b c s
  | .andi a b c => Sys2Proof.Machine.execAndi a b c s
  | .ori a b c => Sys2Proof.Machine.execOri a b c s
  | .xori a b c => Sys2Proof.Machine.execXori a b c s
  | .shli a b c => Sys2Proof.Machine.execShli a b c s
  | .shri a b c => Sys2Proof.Machine.execShri a b c s
  | .sari a b c => Sys2Proof.Machine.execSari a b c s
  | .paddi a b c => Sys2Proof.Machine.execPaddi a b c s
  | .li a b => Sys2Proof.Machine.execLi a b s
  | .lih a b c => Sys2Proof.Machine.execLih a b c s
  | .slti a b c => Sys2Proof.Machine.execSlti a b c s
  | .sltiu a b c => Sys2Proof.Machine.execSltiu a b c s
  | .seqi a b c => Sys2Proof.Machine.execSeqi a b c s
  | .muli a b c => Sys2Proof.Machine.execMuli a b c s
  | .faddS a b c => Sys2Proof.Machine.execFaddS a b c s
  | .fsubS a b c => Sys2Proof.Machine.execFsubS a b c s
  | .fmulS a b c => Sys2Proof.Machine.execFmulS a b c s
  | .fdivS a b c => Sys2Proof.Machine.execFdivS a b c s
  | .fminS a b c => Sys2Proof.Machine.execFminS a b c s
  | .fmaxS a b c => Sys2Proof.Machine.execFmaxS a b c s
  | .fsqrtS a b => Sys2Proof.Machine.execFsqrtS a b s
  | .ffmaS a b c => Sys2Proof.Machine.execFfmaS a b c s
  | .feqS a b c => Sys2Proof.Machine.execFeqS a b c s
  | .fltS a b c => Sys2Proof.Machine.execFltS a b c s
  | .fleS a b c => Sys2Proof.Machine.execFleS a b c s
  | .faddD a b c => Sys2Proof.Machine.execFaddD a b c s
  | .fsubD a b c => Sys2Proof.Machine.execFsubD a b c s
  | .fmulD a b c => Sys2Proof.Machine.execFmulD a b c s
  | .fdivD a b c => Sys2Proof.Machine.execFdivD a b c s
  | .fminD a b c => Sys2Proof.Machine.execFminD a b c s
  | .fmaxD a b c => Sys2Proof.Machine.execFmaxD a b c s
  | .fsqrtD a b => Sys2Proof.Machine.execFsqrtD a b s
  | .ffmaD a b c => Sys2Proof.Machine.execFfmaD a b c s
  | .feqD a b c => Sys2Proof.Machine.execFeqD a b c s
  | .fltD a b c => Sys2Proof.Machine.execFltD a b c s
  | .fleD a b c => Sys2Proof.Machine.execFleD a b c s
  | .fcvt a b c d e => Sys2Proof.Machine.execFcvt a b c d e s
  | .beq a b c => Sys2Proof.Machine.execBeq a b c s
  | .bne a b c => Sys2Proof.Machine.execBne a b c s
  | .blt a b c => Sys2Proof.Machine.execBlt a b c s
  | .bge a b c => Sys2Proof.Machine.execBge a b c s
  | .j a => Sys2Proof.Machine.execJ a s
  | .call a => Sys2Proof.Machine.execCall a s
  | .rep a b c d e f => Sys2Proof.Machine.execRep a b c d e f s
  | .jr a => Sys2Proof.Machine.execJr a s
  | .callr a b => Sys2Proof.Machine.execCallr a b s
  | .mrd a b c => Sys2Proof.Machine.execMrd a b c s
  | .mpk a b c => Sys2Proof.Machine.execMpk a b c s
  | .wfm a b => Sys2Proof.Machine.execWfm a b s
  | .mwr a b => Sys2Proof.Machine.execMwr a b s
  | .send a b c => Sys2Proof.Machine.execSend a b c s
  | .sendU a b c => Sys2Proof.Machine.execSendU a b c s
  | .mclr a => Sys2Proof.Machine.execMclr a s
  | .mfull a => Sys2Proof.Machine.execMfull a s
  | .ld a b c d => Sys2Proof.Machine.execLd a b c d s
  | .ldz a b c d => Sys2Proof.Machine.execLdz a b c d s
  | .st a b c d => Sys2Proof.Machine.execSt a b c d s
  | .ldAcq a b c d => Sys2Proof.Machine.execLdAcq a b c d s
  | .stRel a b c d => Sys2Proof.Machine.execStRel a b c d s
  | .amo a b c d e f g => Sys2Proof.Machine.execAmo a b c d e f g s
  | .ared a b c d e f => Sys2Proof.Machine.execAred a b c d e f s
  | .fence a => Sys2Proof.Machine.execFence a s
  | .fenceAcq a => Sys2Proof.Machine.execFenceAcq a s
  | .fenceRel a => Sys2Proof.Machine.execFenceRel a s
  | .xfence a b => Sys2Proof.Machine.execXfence a b s
  | .cwbr a b c => Sys2Proof.Machine.execCwbr a b c s
  | .cinv a b c => Sys2Proof.Machine.execCinv a b c s
  | .bloa a b c d => Sys2Proof.Machine.execBloa a b c d s
  | .bref a b => Sys2Proof.Machine.execBref a b s
  | .brel a b => Sys2Proof.Machine.execBrel a b s
  | .bcas a b c d => Sys2Proof.Machine.execBcas a b c d s
  | .bout a b c => Sys2Proof.Machine.execBout a b c s
  | .tldb a b c d e f g h => Sys2Proof.Machine.execTldb a b c d e f g h s
  | .vpub a b c d => Sys2Proof.Machine.execVpub a b c d s
  | .vsw a b => Sys2Proof.Machine.execVsw a b s
  | .vswDrop a => Sys2Proof.Machine.execVswDrop a s
  | .tld a b c d e f g h k => Sys2Proof.Machine.execTld a b c d e f g h k s
  | .tst a b c d e f g h => Sys2Proof.Machine.execTst a b c d e f g h s
  | .tldi a b c d e f g h => Sys2Proof.Machine.execTldi a b c d e f g h s
  | .tlds a b c d e f g h => Sys2Proof.Machine.execTlds a b c d e f g h s
  | .tsts a b c d e f g => Sys2Proof.Machine.execTsts a b c d e f g s
  | .mma a b c d e f => Sys2Proof.Machine.execMma a b c d e f s
  | .mmz a b c d e => Sys2Proof.Machine.execMmz a b c d e s
  | .mmg a b c d e f g h => Sys2Proof.Machine.execMmg a b c d e f g h s
  | .tadw a b c d e => Sys2Proof.Machine.execTadw a b c d e s
  | .tadd a b c d => Sys2Proof.Machine.execTadd a b c d s
  | .tsub a b c d => Sys2Proof.Machine.execTsub a b c d s
  | .tmul a b c d => Sys2Proof.Machine.execTmul a b c d s
  | .tfma a b c d e => Sys2Proof.Machine.execTfma a b c d e s
  | .tmax a b c d => Sys2Proof.Machine.execTmax a b c d s
  | .tmin a b c d => Sys2Proof.Machine.execTmin a b c d s
  | .tcmp a b c d => Sys2Proof.Machine.execTcmp a b c d s
  | .tsel a b c d => Sys2Proof.Machine.execTsel a b c d s
  | .tcvt a b c d => Sys2Proof.Machine.execTcvt a b c d s
  | .ttr a b => Sys2Proof.Machine.execTtr a b s
  | .tred a b c d e f => Sys2Proof.Machine.execTred a b c d e f s
  | .tsfu a b c => Sys2Proof.Machine.execTsfu a b c s
  | .tbcRow a b c => Sys2Proof.Machine.execTbcRow a b c s
  | .tbcCol a b c => Sys2Proof.Machine.execTbcCol a b c s
  | .tbcEl a b c => Sys2Proof.Machine.execTbcEl a b c s
  | .tbcX a b c => Sys2Proof.Machine.execTbcX a b c s
  | .tsc a b c => Sys2Proof.Machine.execTsc a b c s
  | .tnf a b c => Sys2Proof.Machine.execTnf a b c s
  | .smpl a b c => Sys2Proof.Machine.execSmpl a b c s
  | .bcp a b c => Sys2Proof.Machine.execBcp a b c s
  | .bcpLd a b c => Sys2Proof.Machine.execBcpLd a b c s
  | .bcpSt a b c => Sys2Proof.Machine.execBcpSt a b c s
  | .sbind a b c d => Sys2Proof.Machine.execSbind a b c d s
  | .qrd a b c => Sys2Proof.Machine.execQrd a b c s
  | .sunbind a => Sys2Proof.Machine.execSunbind a s
  | .qavail a b => Sys2Proof.Machine.execQavail a b s
  | .barExp a b => Sys2Proof.Machine.execBarExp a b s
  | .barExpArr a b => Sys2Proof.Machine.execBarExpArr a b s
  | .barArr a => Sys2Proof.Machine.execBarArr a s
  | .barInit a b => Sys2Proof.Machine.execBarInit a b s
  | .barDrop a => Sys2Proof.Machine.execBarDrop a s
  | .barWait a b c => Sys2Proof.Machine.execBarWait a b c s
  | .barTest a b => Sys2Proof.Machine.execBarTest a b s
  | .a2aCl a b c => Sys2Proof.Machine.execA2aCl a b c s
  | .a2aQ a b c => Sys2Proof.Machine.execA2aQ a b c s
  | .cred a b c => Sys2Proof.Machine.execCred a b c s
  | .credLs a b c => Sys2Proof.Machine.execCredLs a b c s
  | .ofldOut a b c => Sys2Proof.Machine.execOfldOut a b c s
  | .ofldIn a b c => Sys2Proof.Machine.execOfldIn a b c s
  | .rget a b c d => Sys2Proof.Machine.execRget a b c d s
  | .rput a b c d => Sys2Proof.Machine.execRput a b c d s
  | .ramo a b c d e f => Sys2Proof.Machine.execRamo a b c d e f s
  | .larm a b => Sys2Proof.Machine.execLarm a b s
  | .lpat a b c d => Sys2Proof.Machine.execLpat a b c d s
  | .cncl a b c => Sys2Proof.Machine.execCncl a b c s
  | .trig => Sys2Proof.Machine.execTrig s
  | .draw a => Sys2Proof.Machine.execDraw a s
  | .smrg a b c => Sys2Proof.Machine.execSmrg a b c s
  | .exit => Sys2Proof.Machine.execExit s
  | .trap a => Sys2Proof.Machine.execTrap a s
  | .sret => Sys2Proof.Machine.execSret s
  | .kget a b => Sys2Proof.Machine.execKget a b s
  | .kset a b => Sys2Proof.Machine.execKset a b s
  | .brk => Sys2Proof.Machine.execBrk s
  | .halt => Sys2Proof.Machine.execHalt s
  | .spt a => Sys2Proof.Machine.execSpt a s
  | .tlbiAll => Sys2Proof.Machine.execTlbiAll s
  | .tlbiVa a => Sys2Proof.Machine.execTlbiVa a s
  | .tlbiBlk a b => Sys2Proof.Machine.execTlbiBlk a b s
  | .pinEntryRelease a => Sys2Proof.Machine.execPinEntryRelease a s
  | .blockReclaim a => Sys2Proof.Machine.execBlockReclaim a s
  | .bcpChunkDelivery a b c d => Sys2Proof.Machine.execBcpChunkDelivery a b c d s
  | .streamElementFill a => Sys2Proof.Machine.execStreamElementFill a s
  | .a2aExchangeStart a b => Sys2Proof.Machine.execA2aExchangeStart a b s
  | .a2aStep a b => Sys2Proof.Machine.execA2aStep a b s
  | .credSourceRead a => Sys2Proof.Machine.execCredSourceRead a s
  | .credContribution a => Sys2Proof.Machine.execCredContribution a s
  | .ofldPageCompletion a b c d => Sys2Proof.Machine.execOfldPageCompletion a b c d s
  | .ofldTimeout a b => Sys2Proof.Machine.execOfldTimeout a b s
  | .rputSend => Sys2Proof.Machine.execRputSend s
  | .inboundRemoteRequest a b c d => Sys2Proof.Machine.execInboundRemoteRequest a b c d s
  | .remoteResponse a b c d => Sys2Proof.Machine.execRemoteResponse a b c d s
  | .instructionFetch a => Sys2Proof.Machine.execInstructionFetch a s
  | .dispatch a b c => Sys2Proof.Machine.execDispatch a b c s
  | .issue a b => Sys2Proof.Machine.execIssue a b s
  | .pageWalk a b => Sys2Proof.Machine.execPageWalk a b s
  | .engineCompletion a => Sys2Proof.Machine.execEngineCompletion a s
  | .retirement => Sys2Proof.Machine.execRetirement s
  | .storePerformed => Sys2Proof.Machine.execStorePerformed s
  | .aredPerform => Sys2Proof.Machine.execAredPerform s
  | .stackHoldExpiry a => Sys2Proof.Machine.execStackHoldExpiry a s
  | .stackedOperationIssue a => Sys2Proof.Machine.execStackedOperationIssue a s
  | .trapEntry a b c d => Sys2Proof.Machine.execTrapEntry a b c d s
  | .reportAndSuspend a b c d e => Sys2Proof.Machine.execReportAndSuspend a b c d e s
  | .heldFaultRecordWrite a => Sys2Proof.Machine.execHeldFaultRecordWrite a s
  | .unitStart a b => Sys2Proof.Machine.execUnitStart a b s
  | .timeSlicePreemption a b => Sys2Proof.Machine.execTimeSlicePreemption a b s
  | .unitEnd a b => Sys2Proof.Machine.execUnitEnd a b s
  | .launchCompletion a b => Sys2Proof.Machine.execLaunchCompletion a b s
  | .heldEventRecordWrite a => Sys2Proof.Machine.execHeldEventRecordWrite a s
  | .eventRingTimeout a => Sys2Proof.Machine.execEventRingTimeout a s
  | .messageArrival a => Sys2Proof.Machine.execMessageArrival a s
  | .messageRetry a => Sys2Proof.Machine.execMessageRetry a s
  | .eviction a b c => Sys2Proof.Machine.execEviction a b c s
  | .restoration a b c => Sys2Proof.Machine.execRestoration a b c s
  | .migration a => Sys2Proof.Machine.execMigration a s
  | .forwardingEntryExpiry a => Sys2Proof.Machine.execForwardingEntryExpiry a s
  | .pageSwap a b c => Sys2Proof.Machine.execPageSwap a b c s
  | .patrolScrubRead a => Sys2Proof.Machine.execPatrolScrubRead a s
  | .scrubWriteback a => Sys2Proof.Machine.execScrubWriteback a s
  | .l2mapAdoption a => Sys2Proof.Machine.execL2mapAdoption a s
  | .lineHandoff a => Sys2Proof.Machine.execLineHandoff a s
  | .requestRedirect => Sys2Proof.Machine.execRequestRedirect s
  | .hostMemoryAccess a b => Sys2Proof.Machine.execHostMemoryAccess a b s
  | .submissionRecordCopy a b => Sys2Proof.Machine.execSubmissionRecordCopy a b s
  | .stailWrite a b c => Sys2Proof.Machine.execStailWrite a b c s
  | .srst a b => Sys2Proof.Machine.execSrst a b s
  | .qmask a b c d => Sys2Proof.Machine.execQmask a b c d s
  | .qpark a b c d => Sys2Proof.Machine.execQpark a b c d s
  | .quadrantParked a b => Sys2Proof.Machine.execQuadrantParked a b s
  | .quadrantUnparked a b => Sys2Proof.Machine.execQuadrantUnparked a b s
  | .resume a b c => Sys2Proof.Machine.execResume a b c s
  | .evict a b => Sys2Proof.Machine.execEvict a b s
  | .close a => Sys2Proof.Machine.execClose a s
  | .bkpt a b c d => Sys2Proof.Machine.execBkpt a b c d s
  | .breakpointSlotActivation a => Sys2Proof.Machine.execBreakpointSlotActivation a s
  | .matchClear a => Sys2Proof.Machine.execMatchClear a s
  | .hitsClear a => Sys2Proof.Machine.execHitsClear a s
  | .registerWrite a b c => Sys2Proof.Machine.execRegisterWrite a b c s
  | .energyIntervalStart a => Sys2Proof.Machine.execEnergyIntervalStart a s
  | .req a b c => Sys2Proof.Machine.execReq a b c s
  | .hbmPointChange => Sys2Proof.Machine.execHbmPointChange s
  | .waitLimitExpiry => Sys2Proof.Machine.execWaitLimitExpiry s
  | .semaphoreAcquire a b c => Sys2Proof.Machine.execSemaphoreAcquire a b c s
  | .semaphoreRelease a => Sys2Proof.Machine.execSemaphoreRelease a s
  | .semaphoreRenew a b => Sys2Proof.Machine.execSemaphoreRenew a b s
  | .semaphoreClearGerr => Sys2Proof.Machine.execSemaphoreClearGerr s
  | .leaseExpiry => Sys2Proof.Machine.execLeaseExpiry s
  | .deviceNumber a b => Sys2Proof.Machine.execDeviceNumber a b s
  | .linkUp a b => Sys2Proof.Machine.execLinkUp a b s
  | .linkDown a => Sys2Proof.Machine.execLinkDown a s
  | .flitCrcRetry a => Sys2Proof.Machine.execFlitCrcRetry a s
  | .now => Sys2Proof.Machine.execNow s
  | .pulsePeriod => Sys2Proof.Machine.execPulsePeriod s
  | .counterSample => Sys2Proof.Machine.execCounterSample s
  | .ringBaseSize a b c => Sys2Proof.Machine.execRingBaseSize a b c s
  | .arm a b c d => Sys2Proof.Machine.execArm a b c d s
  | .fire => Sys2Proof.Machine.execFire s
  | .snapshotLatch => Sys2Proof.Machine.execSnapshotLatch s
  | .clklim a => Sys2Proof.Machine.execClklim a s
  | .plim a => Sys2Proof.Machine.execPlim a s
  | .thermalCeilingStep a => Sys2Proof.Machine.execThermalCeilingStep a s
  | .powerCeilingStep a => Sys2Proof.Machine.execPowerCeilingStep a s
  | .trip => Sys2Proof.Machine.execTrip s
  | .go a => Sys2Proof.Machine.execGo a s
  | .attestationReport => Sys2Proof.Machine.execAttestationReport s
  | .lock => Sys2Proof.Machine.execLock s
  | .bann a b => Sys2Proof.Machine.execBann a b s
  | .powerOnReset => Sys2Proof.Machine.execPowerOnReset s
  | .identify => Sys2Proof.Machine.execIdentify s
  | .readRegister a => Sys2Proof.Machine.execReadRegister a s
  | .readLog a => Sys2Proof.Machine.execReadLog a s
  | .state => Sys2Proof.Machine.execState s
  | .raiseMinimum a b c => Sys2Proof.Machine.execRaiseMinimum a b c s
  | .writeFlash a b c => Sys2Proof.Machine.execWriteFlash a b c s
  | .eraseSlot a => Sys2Proof.Machine.execEraseSlot a s
  | .getVendorDefinedMessageSupport => Sys2Proof.Machine.execGetVendorDefinedMessageSupport s
  | .cxlPortDown a => Sys2Proof.Machine.execCxlPortDown a s
  | .lostLink a => Sys2Proof.Machine.execLostLink a s

end Sys2Proof.Machine
end

