-- ==== Sys2Proof/Safety.lean ====
section
/-! DEFINITION. The terms in which statements are made: what a step completes with, what it leaves as it was, the forms that
every step keeps, and the manual's tables as functions. -/

namespace Sys2Proof.Machine

/-! Completion. An instruction that completes answers a state `u` whose oldest instruction has then retired; `u` holds its
effect, and `State.advance` the retirement. -/

/-- exec answers the retirement of u. -/
def Completes (i : Instr) (s u : State) (tile : Bool := false) : Prop := exec i s = .next (u.advance tile)

/-- exec answers the entry of a trap of the instruction at pc. -/
def TrapsWith (i : Instr) (s : State) (c : Cause) (tval : Word64) : Prop :=
  ∃ paddr, exec i s = .next (s.trapHere c tval paddr)

/-- exec leaves the instruction where it is: it waits (08 R211). -/
def Waits (i : Instr) (s : State) (k : WaitKind) : Prop := exec i s = .next { s with core.wait := k }

/-! What an effect leaves as it was: two states with the same blanked copies differ at most in what is blanked. -/

/-- The scalar registers blanked. -/
def State.blankX (s : State) : State := { s with core.unit.x := Vector.replicate 32 0 }

/-- The tile registers blanked. -/
def State.blankT (s : State) : State := { s with core.unit.t := Vector.replicate 16 Tile.null }

/-- The mailboxes blanked. -/
def State.blankM (s : State) : State := { s with core.unit.m := Vector.replicate 8 ⟨0, false⟩ }

/-- k.sticky blanked. -/
def State.blankSticky (s : State) : State := { s with core.unit.k.sticky := 0 }

/-- What retirement itself writes blanked: pc, k.status, k.repst, the captured words, the wait, the exemption of 15 R401 and the
counts of 15 R398. -/
def State.blankFlow (s : State) : State :=
  { s with core.unit.pc := 0, core.unit.k.status := 0, core.unit.k.repst := 0, core.frame := [], core.wait := .none,
           core.exempt := false, core.retired := 0, core.retiredTile := 0 }

/-- What the memory system and the walker hold blanked: home memory with its ECC states, the L2 and the directories, the caches of
translations, the L1 and its invalidations, the instruction cache, the TLB and the store buffer. -/
def State.blankMem (s : State) : State :=
  { s with mem := [], dev.granules := [], dev.reserved := [], dev.hier := Hier.empty, core.l1 := ⟨[], [], [], [], false, []⟩,
           core.invals := [], core.icache := [], core.tlb := [], core.sb := [] }

/-- What the front end and the reorder buffer hold blanked, with the merge buffer (08 R202 to R214; 12 R320). -/
def State.blankPipe (s : State) : State := { s with core.front := Front.empty, core.rob := [], dev.merge := [] }

/-- Every byte reads as it did: at its home, and as the core's loads see it. -/
def SameBytes (s u : State) : Prop := ∀ a, u.mem.read a = s.mem.read a ∧ u.cacheByte a = s.cacheByte a

/-- u is s but for scalar register d, which holds v; a write to x0 is discarded (01 R11). Every other register, tile, mailbox,
control register and byte is as it was. -/
structure SetsX (s u : State) (d : BitVec 5) (v : Word64) : Prop where
  dest : u.x d = if d = 0 then 0 else v
  others : ∀ r, r ≠ d → u.x r = s.x r
  rest : u.blankX = s.blankX
  bytes : SameBytes s u

/-- u is s but for tile register d, which holds v, replaced whole (01 R15), and for flags of k.sticky that are set, none of them
cleared (01 R24): bit 0 nf, bit 1 iov. -/
structure SetsT (s u : State) (d : BitVec 4) (v : Tile) (nf iov : Bool) : Prop where
  dest : u.t d = v
  others : ∀ r, r ≠ d → u.t r = s.t r
  sticky : u.k.sticky = s.k.sticky ||| BitVec.ofNat 64 ((if nf then 1 else 0) + if iov then 2 else 0)
  rest : u.blankT.blankSticky = s.blankT.blankSticky
  bytes : SameBytes s u

/-- u is s but for mailbox m, which holds v and is full or not, and for k.sticky.mov, set when `mov` says so (01 R24, R35). -/
structure SetsM (s u : State) (m : BitVec 3) (v : Word64) (full mov : Bool) : Prop where
  dest : u.mbox m = ⟨v, full⟩
  others : ∀ r, r ≠ m → u.mbox r = s.mbox r
  sticky : u.k.sticky = s.k.sticky ||| BitVec.ofNat 64 (if mov then 4 else 0)
  rest : u.blankM.blankSticky = s.blankM.blankSticky
  bytes : SameBytes s u

/-- t is s after an instruction that only transfers control to a target. -/
structure Jumps (s t : State) (target : BitVec 56) : Prop where
  pc : t.pc = target
  control : t.k = s.k
  count : t.core.retired = s.core.retired + 1
  rest : t.blankFlow = s.blankFlow
  bytes : SameBytes s t

/-- Byte q is among the n that are written at pa, and no byte of Beryl's pool or table memory, which no store, engine or host write
reaches (12 R296). -/
abbrev State.lands (s : State) (pa n q : Nat) : Prop := pa ≤ q ∧ q < pa + n ∧ s.inPool q 1 = false

/-- The newest value of a byte: the core's dirty one, or the home's. -/
def State.newest (s : State) (a : Nat) : Byte := (cellAt s.core.l1.dirty a).getD (s.mem.read a)

/-- The table entries that the translations of an access were read from, by a walk (10 R263). -/
def XMap.walked (m : XMap) : List Nat := m.filterMap (fun e => e.2.entry)

/-- The address lies in none of those 8-byte entries. -/
def XMap.spares (m : XMap) (a : Nat) : Prop := ∀ ea ∈ m.walked, a < ea ∨ ea + 8 ≤ a

/-- u is s but for what translating leaves behind: ac and dt in the walked entries, and what the L1 and the TLB hold. -/
structure Translated (s u : State) (m : XMap) : Prop where
  rest : u.blankMem = s.blankMem
  stores : u.core.sb = s.core.sb
  bytes : ∀ a, m.spares a → u.newest a = s.newest a

/-! The forms that every step keeps. -/

/-- The L1 lists a dirty byte once, and no byte both dirty and as an older clean copy. -/
def L1.Ok (l : L1) : Prop := (l.dirty.map (·.1)).Nodup ∧ ∀ c ∈ l.dirty, ∀ e ∈ l.stale, c.1 ≠ e.1

/-- k.status holds unit, supervisor or firmware level, and its reserved bits read as zero (01 R22). -/
def statusOk (v : Word64) : Prop := v.toNat < 8 ∧ v.toNat % 4 ≠ 3

/-- The invariant of the machine: home memory, the local store and the flash have their canonical form, the L1 has its form,
k.status is legal, and each Beryl block has one count for each partition (12 R301). -/
structure State.Inv (s : State) : Prop where
  memory : s.mem.wf = true
  localStore : s.core.ls.wf = true
  flash : s.mgmt.flash.wf = true
  l1 : s.core.l1.Ok
  status : statusOk s.core.unit.k.status
  counts : ∀ k ∈ s.beryl.blocks, k.counts.length = 8

/-! The manual's tables as functions. -/

/-- A truth value as a comparison writes it. -/
def truth (c : Prop) [Decidable c] : Word64 := if c then 1 else 0

/-- 04 R105 and R106: the destination and the value of a register form, from the contents of the registers. -/
def integerTable (x : BitVec 5 → Word64) : Instr → Option (BitVec 5 × Word64)
  | .add d a b => some (d, x a + x b)
  | .sub d a b => some (d, x a - x b)
  | .padd d a b => some (d, (x a).extractLsb' 56 8 ++ ((x a).setWidth 56 + (x b).setWidth 56))
  | .ptag d a b => some (d, (x b).setWidth 8 ++ (x a).setWidth 56)
  | .and d a b => some (d, x a &&& x b)
  | .or d a b => some (d, x a ||| x b)
  | .xor d a b => some (d, x a ^^^ x b)
  | .shl d a b => some (d, x a <<< (x b).extractLsb' 0 6)
  | .shr d a b => some (d, x a >>> (x b).extractLsb' 0 6)
  | .sar d a b => some (d, BitVec.ofInt 64 ((x a).toInt / 2 ^ ((x b).extractLsb' 0 6).toNat))
  | .min d a b => some (d, BitVec.ofInt 64 (Min.min (x a).toInt (x b).toInt))
  | .max d a b => some (d, BitVec.ofInt 64 (Max.max (x a).toInt (x b).toInt))
  | .minu d a b => some (d, BitVec.ofNat 64 (Min.min (x a).toNat (x b).toNat))
  | .maxu d a b => some (d, BitVec.ofNat 64 (Max.max (x a).toNat (x b).toNat))
  | .mul d a b => some (d, x a * x b)
  | .mulh d a b => some (d, ((x a).signExtend 128 * (x b).signExtend 128).extractLsb' 64 64)
  | .mulhu d a b => some (d, ((x a).zeroExtend 128 * (x b).zeroExtend 128).extractLsb' 64 64)
  | .div d a b => some (d, if x b = 0 then BitVec.allOnes 64 else (x a).sdiv (x b))
  | .divu d a b => some (d, if x b = 0 then BitVec.allOnes 64 else x a / x b)
  | .rem d a b => some (d, if x b = 0 then x a else (x a).srem (x b))
  | .remu d a b => some (d, if x b = 0 then x a else x a % x b)
  | .popc d a => some (d, BitVec.ofNat 64 ((List.range 64).countP (x a).getLsbD))
  | .clz d a => some (d, BitVec.ofNat 64 (((List.range 64).find? (fun k => (x a).getLsbD (63 - k))).getD 64))
  | .ctz d a => some (d, BitVec.ofNat 64 (((List.range 64).find? (x a).getLsbD).getD 64))
  | .seq d a b => some (d, truth (x a = x b))
  | .sne d a b => some (d, truth (x a ≠ x b))
  | .slt d a b => some (d, truth ((x a).toInt < (x b).toInt))
  | .sltu d a b => some (d, truth ((x a).toNat < (x b).toNat))
  | _ => none

/-- 04 R107: the same for an immediate form. -/
def immediateTable (x : BitVec 5 → Word64) : Instr → Option (BitVec 5 × Word64)
  | .addi d a i => some (d, x a + i.signExtend 64)
  | .andi d a i => some (d, x a &&& i.signExtend 64)
  | .ori d a i => some (d, x a ||| i.signExtend 64)
  | .xori d a i => some (d, x a ^^^ i.signExtend 64)
  | .shli d a h => some (d, BitVec.ofNat 64 ((x a).toNat * 2 ^ h.toNat))
  | .shri d a h => some (d, BitVec.ofNat 64 ((x a).toNat / 2 ^ h.toNat))
  | .sari d a h => some (d, BitVec.ofInt 64 ((x a).toInt / 2 ^ h.toNat))
  | .paddi d a i => some (d, (x a).extractLsb' 56 8 ++ ((x a).setWidth 56 + i.signExtend 56))
  | .li d i => some (d, i.signExtend 64)
  | .lih d a i => some (d, x a <<< 15 ||| i.zeroExtend 64)
  | .slti d a i => some (d, truth ((x a).toInt < i.toInt))
  | .sltiu d a i => some (d, truth ((x a).toNat < (i.signExtend 64).toNat))
  | .seqi d a i => some (d, truth (x a = i.signExtend 64))
  | .muli d a i => some (d, x a * i.signExtend 64)
  | _ => none

/-! Scalar floating point (04 R104, R109 to R113). -/

/-- An operand of a scalar form: the low bits of its register, subnormals read as zeros where ftz acts. -/
def floatOperand (f : FFmt) (s : State) (r : BitVec 5) : FVal := f.read s.k.ftz ((s.x r).toNat % 2 ^ f.width)

/-- A result rounded once by k.fpmode.rm, zero-extended to 64 bits. -/
def floatResultOf (f : FFmt) (s : State) (v : FVal) : Word64 := BitVec.ofNat 64 (f.round (Rm.ofBits s.k.rm) false s.k.ftz v).bits

/-- The sign that an exact zero sum of unlike signs takes: negative only when rounding toward -inf. -/
def zeroSumSign (s : State) : Bool := s.k.rm == 2

/-- The bits of an operand that fmin or fmax selects (04 R111): unchanged, but a subnormal that ftz acts on gives a zero of its
sign. -/
def selectedBits (f : FFmt) (s : State) (r : BitVec 5) : Nat :=
  let v := (s.x r).toNat % 2 ^ f.width
  if s.k.ftz && f.ftzApplies && v / 2 ^ f.M % 2 ^ f.E == 0 then v / 2 ^ (f.E + f.M) * 2 ^ (f.E + f.M) else v

/-- fmin and fmax (04 R111); `first` says that the second operand comes before the first. -/
def selectFloat (f : FFmt) (s : State) (a b : BitVec 5) (first : FVal → FVal → Bool) : Word64 :=
  let x := floatOperand f s a
  let y := floatOperand f s b
  BitVec.ofNat 64 (
    if x.isNan && y.isNan then f.nanBits
    else if x.isNan || (!y.isNan && first y x) then selectedBits f s b
    else selectedBits f s a)

/-- 04 R109 in one format: the value by fn10 of R78, from the destination and the two sources. -/
def floatValue (f : FFmt) (s : State) (fn : Nat) (d a b : BitVec 5) : Word64 :=
  let x := floatOperand f s a
  let y := floatOperand f s b
  match fn with
  | 0 => floatResultOf f s (FVal.add (zeroSumSign s) x y)
  | 1 => floatResultOf f s (FVal.add (zeroSumSign s) x y.neg)
  | 2 => floatResultOf f s (FVal.mul x y)
  | 3 => floatResultOf f s (FVal.div x y)
  | 4 => selectFloat f s a b (fun y x => y.below x)
  | 5 => selectFloat f s a b (fun y x => x.below y)
  | 6 => floatResultOf f s (FVal.sqrt x)
  | 7 => floatResultOf f s (FVal.add (zeroSumSign s) (FVal.mul x y) (floatOperand f s d))
  | 8 => truth (!x.isNan ∧ !y.isNan ∧ x.lt y = false ∧ y.lt x = false)
  | 9 => truth (x.lt y)
  | _ => truth (!x.isNan ∧ !y.isNan ∧ y.lt x = false)

/-- The format, the function and the registers of a scalar floating-point instruction. -/
def floatForm : Instr → Option (FFmt × Nat × BitVec 5 × BitVec 5 × BitVec 5)
  | .faddS d a b => some (fp32, 0, d, a, b) | .fsubS d a b => some (fp32, 1, d, a, b) | .fmulS d a b => some (fp32, 2, d, a, b)
  | .fdivS d a b => some (fp32, 3, d, a, b) | .fminS d a b => some (fp32, 4, d, a, b) | .fmaxS d a b => some (fp32, 5, d, a, b)
  | .fsqrtS d a => some (fp32, 6, d, a, 0) | .ffmaS d a b => some (fp32, 7, d, a, b) | .feqS d a b => some (fp32, 8, d, a, b)
  | .fltS d a b => some (fp32, 9, d, a, b) | .fleS d a b => some (fp32, 10, d, a, b)
  | .faddD d a b => some (fp64, 0, d, a, b) | .fsubD d a b => some (fp64, 1, d, a, b) | .fmulD d a b => some (fp64, 2, d, a, b)
  | .fdivD d a b => some (fp64, 3, d, a, b) | .fminD d a b => some (fp64, 4, d, a, b) | .fmaxD d a b => some (fp64, 5, d, a, b)
  | .fsqrtD d a => some (fp64, 6, d, a, 0) | .ffmaD d a b => some (fp64, 7, d, a, b) | .feqD d a b => some (fp64, 8, d, a, b)
  | .fltD d a b => some (fp64, 9, d, a, b) | .fleD d a b => some (fp64, 10, d, a, b)
  | _ => none

/-! Tiles (01 R12 to R15; chapters 05 to 07). -/

/-- No row inside the tile's extents is poisoned. -/
def Tile.clean (t : Tile) : Prop := ∀ i, i < t.rext → t.bad i = false

/-- The tile's tag and containers: a format, extents, a container for each position inside them, zero outside (01 R15), and no
stacking key. -/
structure HasElems (v : Tile) (f : BitVec 5) (r c : Nat) (e : Nat → Nat → Word32) : Prop where
  format : v.fmt = f
  rows : v.rext = r
  cols : v.cext = c
  keyless : v.key = none
  mapped : v.mapped = true
  inside : ∀ i j, i < r → j < c → v.elem i j = e i j
  outside : ∀ i j, r ≤ i ∨ c ≤ j → v.elem i j = 0

/-- The same for a result of arithmetic: unscaled, with a clear poison mask. -/
structure IsResult (v : Tile) (f : BitVec 5) (r c : Nat) (e : Nat → Nat → Word32) : Prop extends HasElems v f r c e where
  unscaled : v.scl = false
  unpoisoned : v.poison = 0

/-- An elementwise instruction: its registers, its width bit, whether it is tmax or tmin, and its functions of the operands'
values. -/
structure Elementwise where
  dst : BitVec 4
  srcs : List (BitVec 4)
  wide : BitVec 1
  minMax : Bool
  float : List FVal → FVal
  int : List Int → Int

/-- The table of 07 R184. -/
def elementTable : Instr → Option Elementwise
  | .tadd d a b w => some ⟨d, [a, b], w, false, on2 .nan (fun x y => FVal.add false x y), on2 0 (fun x y => x + y)⟩
  | .tsub d a b w => some ⟨d, [a, b], w, false, on2 .nan (fun x y => FVal.add false x y.neg), on2 0 (fun x y => x - y)⟩
  | .tmul d a b w => some ⟨d, [a, b], w, false, on2 .nan (fun x y => FVal.mul x y), on2 0 (fun x y => x * y)⟩
  | .tfma d a b c w =>
    some ⟨d, [a, b, c], w, false, on3 .nan (fun x y z => FVal.add false (FVal.mul x y) z), on3 0 (fun x y z => x * y + z)⟩
  | .tmax d a b w => some ⟨d, [a, b], w, true, on2 .nan vmax, on2 0 max⟩
  | .tmin d a b w => some ⟨d, [a, b], w, true, on2 .nan vmin, on2 0 min⟩
  | _ => none

/-- The largest row extent and the largest column extent (07 R184). -/
def mostRows (ts : List Tile) : Nat := (ts.map (·.rext)).foldl max 0
@[inherit_doc mostRows] def mostCols (ts : List Tile) : Nat := (ts.map (·.cext)).foldl max 0

/-- The floating-point result format of 07 R179. -/
def floatTarget (wide : BitVec 1) (ts : List Tile) : BitVec 5 :=
  if wide = 0 ∧ ∀ t ∈ ts, t.fmt = 2 then 2 else if wide = 0 ∧ ∀ t ∈ ts, t.fmt = 3 then 3 else 1

/-- The integer result format of 07 R179. -/
def intTarget (minMax : Bool) (ts : List Tile) : BitVec 5 :=
  if minMax = true ∧ ∀ t ∈ ts, t.fmt = 0x0D ∨ t.fmt = 0x0F then 0x0F else 0x0C

/-- An exact integer outside the range of s32, or of z32 (02 R46). -/
def outside32 (f : BitVec 5) (n : Int) : Prop := if f = 0x0F then n < 0 ∨ 2 ^ 32 ≤ n else n < -2 ^ 31 ∨ 2 ^ 31 ≤ n

/-- Node j of a level of the tree of 02 R66, level 0 being the positions themselves: a node with one absent operand passes the other
on. -/
def treeNode {α : Type} (op : α → α → α) (v : Nat → Option α) : Nat → Nat → Option α
  | 0, j => v j
  | l + 1, j =>
    match treeNode op v l (2 * j), treeNode op v l (2 * j + 1) with
    | some a, some b => some (op a b)
    | some a, none => some a
    | none, w => w

/-- The first n values combined in ascending order, absent ones left out (02 R67). -/
def ascending {α : Type} (op : α → α → α) (v : Nat → Option α) : Nat → Option α
  | 0 => none
  | n + 1 =>
    match ascending op v n, v n with
    | some a, some b => some (op a b)
    | some a, none => some a
    | none, w => w

/-- Result k of a reduction of r rows and c columns (07 R192); none when no element takes part. -/
def reduceAt {α : Type} (axis : BitVec 2) (op : α → α → α) (r c : Nat) (elem : Nat → Nat → α) (k : Nat) : Option α :=
  let row (i : Nat) : Option α := treeNode op (fun j => if j < c then some (elem i j) else none) 5 0
  match axis.toNat with
  | 0 => row k
  | 1 => ascending op (fun i => some (elem i k)) r
  | _ => ascending op row r

/-- How many results a reduction has, and where result k stands in its tile (07 R192). -/
def reduceCount (axis : BitVec 2) (r c : Nat) : Nat :=
  match axis.toNat with
  | 0 => r
  | 1 => c
  | _ => 1

/-- The elements that take part in result k (07 R192). -/
def takesPart (axis : BitVec 2) (k i j : Nat) : Prop :=
  match axis.toNat with
  | 0 => i = k
  | 1 => j = k
  | _ => True

/-- The operators of 07 R193 on fp32 values, and on exact integers. -/
def reduceFloat (op : BitVec 3) (ftz : Bool) (a b : FVal) : FVal :=
  match op.toNat with
  | 0 => fp32.read false (fp32.round .rne false ftz (FVal.add false a b)).bits
  | 2 => vmin a b
  | _ => vmax a b
@[inherit_doc reduceFloat] def reduceInt (op : BitVec 3) (a b : Int) : Int :=
  match op.toNat with
  | 0 => a + b
  | 2 => min a b
  | _ => max a b

/-- The identities of 07 R193. -/
def reduceNoneFloat (op : BitVec 3) : Word32 :=
  match op.toNat with
  | 1 => 0xFF800000
  | 2 => 0x7F800000
  | _ => 0
@[inherit_doc reduceNoneFloat] def reduceNoneInt (op : BitVec 3) (f : BitVec 5) : Int :=
  match op.toNat with
  | 1 => if f = 0x0F then 0 else -2 ^ 31
  | 2 => if f = 0x0F then 2 ^ 32 - 1 else 2 ^ 31 - 1
  | _ => 0

/-- emax of a format that tsc converts to (07 R189). -/
def scaleBias (tgt : BitVec 5) : Int := if tgt = 4 then 8 else if tgt = 5 then 15 else if tgt = 6 then 4 else 2

/-- rotl of 07 R198. -/
def rotl (v : Word32) (n : Nat) : Word32 := v <<< n ||| v >>> (32 - n)

/-- Round r of the generator of 07 R198 on (a, b, c, d). -/
def drawRound (v : Word32 × Word32 × Word32 × Word32) (r : Nat) : Word32 × Word32 × Word32 × Word32 :=
  let a1 := v.1 + v.2.1 + BitVec.ofNat 32 ((r + 1) * 0x9E3779B9)
  let d1 := rotl (v.2.2.2 ^^^ a1) 16
  let c1 := v.2.2.1 + d1
  let b1 := rotl (v.2.1 ^^^ c1) 12
  let a2 := a1 + b1
  let d2 := rotl (d1 ^^^ a2) 8
  let c2 := c1 + d2
  (a2, rotl (b1 ^^^ c2) 7, c2, d2)

/-- u24 of 07 R198, from the seed, the sequence and the step. -/
def draw24 (seed : Word64) (seq step : Word32) : Nat :=
  let v := (List.range 10).foldl drawRound (seed.setWidth 32, seed.extractLsb' 32 32, seq, step)
  ((v.1 + seed.setWidth 32).extractLsb' 8 24).toNat

/-- rne32 of 02 R57, as a value. -/
def nearest32 (ftz : Bool) (x : FVal) : FVal := fp32.read false (fp32.round .rne false ftz x).bits

/-- The weight of a candidate beside the largest one (07 R199). -/
def weightOf (ftz : Bool) (largest l : FVal) : FVal :=
  nearest32 ftz (sfuApply 3 (fp32.read ftz (fp32.round .rne false ftz (FVal.add false l largest.neg)).bits))

/-- The running sum of the first n weights, rounded at every addition (07 R199). -/
def runningSum (ftz : Bool) (p : Nat → FVal) : Nat → FVal
  | 0 => .fin false 0 0
  | n + 1 => nearest32 ftz (FVal.add false (runningSum ftz p n) (p n))

/-- The condition of tcmp on floating-point values (07 R186). -/
def holdsF (cond : BitVec 3) (a b : FVal) : Prop :=
  let un : Prop := a.isNan = true ∨ b.isNan = true
  match cond.toNat with
  | 0 => ¬un ∧ a.lt b = false ∧ b.lt a = false
  | 1 => un ∨ a.lt b = true ∨ b.lt a = true
  | 2 => a.lt b = true
  | 3 => ¬un ∧ b.lt a = false
  | 4 => b.lt a = true
  | 5 => ¬un ∧ a.lt b = false
  | _ => un

/-- The condition of tcmp on integers (07 R186). -/
def holdsI (cond : BitVec 3) (a b : Int) : Prop :=
  match cond.toNat with
  | 0 => a = b
  | 1 => a ≠ b
  | 2 => a < b
  | 3 => a ≤ b
  | 4 => b < a
  | 5 => b ≤ a
  | _ => False

/-- The exact value of an element, as tcvt takes it (07 R188). -/
def Tile.exact (t : Tile) (ftz : Bool) (i j : Nat) : FVal := if isFloatCode t.fmt then t.val ftz i j else FVal.ofInt (t.int i j)

/-- The exact integer of a matrix element (02 R65; 06 R157): the sum of the products and of the accumulator's element. -/
def matrixSum (a b c : Tile) (acc : Bool) (bc : BitVec 1) (i j : Nat) : Int :=
  (if acc then c.int i j else 0)
    + ((List.range a.cext).map (fun n => a.int i n * if bc = 0 then b.int n j else b.int j n)).sum

/-- The group size of a floating-point accumulation (02 R62). -/
def matrixGroup (f g : BitVec 5) : Nat :=
  if f = 1 ∨ g = 1 then 1 else if 4 ≤ f.toNat ∧ 4 ≤ g.toNat then 32 else 8

/-- The exact products of a floating-point matrix element (06 R157), and the factors. -/
def matrixLeft (a : Tile) (ftz : Bool) (i : Nat) : List FVal := (List.range a.cext).map (fun n => a.val ftz i n)
@[inherit_doc matrixLeft] def matrixRight (b : Tile) (ftz : Bool) (bc : BitVec 1) (k j : Nat) : List FVal :=
  (List.range k).map (fun n => if bc = 0 then b.val ftz n j else b.val ftz j n)

/-- The rows and columns of B (06 R154). -/
def depthOf (b : Tile) (bc : BitVec 1) : Nat := if bc = 0 then b.rext else b.cext
@[inherit_doc depthOf] def widthIn (b : Tile) (bc : BitVec 1) : Nat := if bc = 0 then b.cext else b.rext

/-! Memory accesses. -/

/-- Every older store of the unit is performed, and every remote write acknowledged. -/
structure Settled (s : State) : Prop where
  stores : s.core.sb = []
  acks : s.core.unacked = []

/-- The homes take the dirty lines of the L1: each does while no interleave table changes (16 R406). -/
structure Releasable (s : State) : Prop extends Settled s where
  taken : s.homesAccept s.dirtyLines = true

/-- The newest values of n bytes as a little-endian number. -/
def State.newestNat (s : State) (pa n : Nat) : Nat := leNat ((List.range n).map (fun k => s.newest (pa + k)))

/-- Byte k of a number. -/
def byteOf (v k : Nat) : Byte := BitVec.ofNat 8 (v / 256 ^ k)

/-- Writes as cells, in order. -/
def cellsOf (ws : List (Nat × List Byte)) : List Host.Cell := (ws.map (fun w => cellsFrom w.1 w.2)).flatten

/-- The last value that cells give an address. -/
def lastCell (l : List Host.Cell) (a : Nat) : Option Byte := cellAt l.reverse a

/-- The bytes of virtual addresses as cells, by their translations. -/
def XMap.cells (m : XMap) (w : Nat × List Byte) : List Host.Cell := w.2.mapIdx (fun k b => (m.pa (w.1 + k), b))

/-- The scalar registers after a load of n bytes of value v into d, or into d and d + 1 (05 R149). -/
def loadedX (s : State) (d : BitVec 5) (n : Nat) (signed : Bool) (v : Nat) (r : BitVec 5) : Word64 :=
  if r = 0 then 0
  else if n = 16 then (if r = d then BitVec.ofNat 64 v else if r = d + 1 then BitVec.ofNat 64 (v / 2 ^ 64) else s.x r)
  else if r = d then (if signed then BitVec.ofInt 64 (signedOf n v) else BitVec.ofNat 64 v)
  else s.x r

/-- u is s after an access through the translations m that writes no byte of its own: scalar registers as given, what translating
leaves behind, and nothing else. -/
structure Accesses (s u : State) (m : XMap) (x : BitVec 5 → Word64) : Prop where
  regs : ∀ r, u.x r = x r
  rest : u.blankX.blankMem = s.blankX.blankMem
  stores : u.core.sb = s.core.sb
  bytes : ∀ a, m.spares a → u.newest a = s.newest a

/-- A load: destination, base, size, offset, signedness, and the acquire scope; a plain load acquires nothing. -/
def loadForm : Instr → Option (BitVec 5 × BitVec 5 × BitVec 3 × BitVec 12 × Bool × BitVec 2)
  | .ld d a sz off => some (d, a, sz, off, true, 0)
  | .ldz d a sz off => some (d, a, sz, off, false, 0)
  | .ldAcq d a sz scope => some (d, a, sz, 0, true, scope)
  | _ => none

/-- A store: source, base, size, offset and kind. -/
def storeForm : Instr → Option (BitVec 5 × BitVec 5 × BitVec 3 × BitVec 12 × SbKind)
  | .st r a sz off => some (r, a, sz, off, .scalar)
  | .stRel r a sz scope => some (r, a, sz, 0, .release scope)
  | _ => none

/-- The bytes of a store (05 R149). -/
def storedBytes (s : State) (r : BitVec 5) (n : Nat) : List Byte :=
  if n = 16 then leBytes 8 (s.x r).toNat ++ leBytes 8 (s.x (r + 1)).toNat else leBytes n (s.x r).toNat

/-- An entry of the unit that is resident. -/
def SbEntry.Mine (e : SbEntry) (s : State) : Prop :=
  e.part = s.core.unit.ident.part ∧ e.task = s.core.unit.ident.task ∧ e.launch = s.core.unit.ident.launch

/-- The scalar registers after an auto-increment (05 R138). -/
def steppedX (s : State) (st : Option (BitVec 5 × Word64)) (r : BitVec 5) : Word64 :=
  match st with
  | some (q, v) => if r = q ∧ q ≠ 0 then v else s.x r
  | none => s.x r

/-- u is s after a tile load into d: a tile of a format, scaled or not, with extents, elements and scales, no row poisoned; the
auto-increment; and what reading leaves behind. -/
structure LoadsTile (s u : State) (d : BitVec 4) (f : BitVec 5) (scl : Bool) (r c : Nat) (e : Nat → Nat → Word32)
    (sc : Nat → Byte) (st : Option (BitVec 5 × Word64)) : Prop where
  format : (u.t d).fmt = f ∧ (u.t d).rext = r ∧ (u.t d).cext = c ∧ (u.t d).scl = scl ∧ (u.t d).mapped = true
  clean : (u.t d).poison = 0
  inside : ∀ i j, i < r → j < c → (u.t d).elem i j = e i j
  outside : ∀ i j, r ≤ i ∨ c ≤ j → (u.t d).elem i j = 0
  scales : ∀ i, i < r → (u.t d).scaleAt i = if scl then sc i else 0
  others : ∀ t, t ≠ d → u.t t = s.t t
  regs : ∀ x, u.x x = steppedX s st x
  rest : u.blankX.blankT.blankMem = s.blankX.blankT.blankMem
  stores : u.core.sb = s.core.sb

/-- Element j of the memory row at ra, and its scale byte (05 R132; 02 R47), from the bytes of a space. -/
def rowElem (rd : Nat → Byte) (f : BitVec 5) (sp : RowSpan) (ra j : Nat) : Word32 :=
  BitVec.ofNat 32 (leNat ((List.range sp.elemLen).map (fun k => rd (ra + sp.elemOff + k))) / 2 ^ (widthOf f * j) % 2 ^ widthOf f)
@[inherit_doc rowElem] def rowScale (rd : Nat → Byte) (sp : RowSpan) (ra : Nat) : Byte :=
  match sp.scaleOff with
  | some o => rd (ra + o)
  | none => 0

/-- Memory as loads see it, by virtual address modulo 2^56. -/
def State.seen (s : State) (m : XMap) (va : Nat) : Byte := s.cacheByte (m.pa (va % 2 ^ 56))

/-- No byte that the translations reach is uncorrectable. -/
def State.readable (s : State) (m : XMap) : Prop := ∀ va, s.cacheBad (m.pa va) = false

/-! Detached commands, streams and barriers (chapter 13). -/

/-- u is s after the issue of one command (13 R329): it is the last in flight, with the next number, of the resident unit, and names the
pages that it uses; nothing else but what translating leaves behind. -/
def Issued (s u : State) (m : XMap) (kind : CmdKind) (bar : Option Nat) : Prop :=
  ∃ c : Cmd, u.core.cmds = s.core.cmds ++ [c] ∧ u.core.nextCmd = s.core.nextCmd + 1
    ∧ c.id = s.core.nextCmd ∧ c.kind = kind ∧ c.barrier = bar ∧ c.part = s.core.unit.ident.part ∧ c.task = s.core.unit.ident.task
    ∧ c.launch = s.core.unit.ident.launch ∧ c.det = ((s.launch?.map (fun l => l.record.det)).getD false)
    ∧ c.vpages = m.map (fun e => (e.1 * 4096, e.2.size)) ∧ c.moved = [] ∧ c.held = []
    ∧ Accesses s { u with core.cmds := s.core.cmds, core.nextCmd := s.core.nextCmd } m s.x

/-- The three directions of bcp: whether the source, and the destination, is memory. -/
def copyForm : Instr → Option (BitVec 5 × BitVec 5 × BitVec 5 × Bool × Bool)
  | .bcp d a b => some (d, a, b, true, true)
  | .bcpLd d a b => some (d, a, b, true, false)
  | .bcpSt d a b => some (d, a, b, false, true)
  | _ => none

/-- The operands of a command lie inside their spaces (13 R334). -/
def insideSpace (memory : Bool) (a n : Nat) : Prop := if memory then a + n ≤ 2 ^ 56 else n = 0 ∨ a + n ≤ 2 ^ 19

/-- Where an operand of a command lies. -/
def placeOf (memory : Bool) (m : XMap) (a n : Nat) : Place := if memory then .mem (m.runs a n) else .ls a

/-- u is s with 32 bytes written at pa, those outside pool and table memory (12 R296), and what translating leaves behind. -/
structure WritesBarrier (s u : State) (m : XMap) (pa : Nat) (b : Barrier) : Prop where
  regs : ∀ r, u.x r = s.x r
  rest : u.blankMem = s.blankMem
  bytes : ∀ q, m.spares q → u.newest q = if s.lands pa 32 q then b.bytes.getD (q - pa) 0 else s.newest q

end Sys2Proof.Machine
end

