-- ==== Sys2Proof/Certificates/Slice0/Obligations.lean ====
section
/-! DEFINITION. The statements for the provers, family by family. -/

section

open Sys2Proof Sys2Proof.Machine

/-! Encoding. -/

/-- Every well-formed instruction word has an encoding, and decodes from it, with every operand at every value that the encoding admits
(03 R69 to R75). -/
def Obligations.DecodeOfEncode : Prop :=
  (∀ i : Instr, i.isWord = true → wellFormed i = true → (encode i).isSome = true)
  ∧ ∀ (i : Instr) (w : Word32), wellFormed i = true → encode i = some w → decode w = .ok i

/-- A word that decodes is the encoding of what it decodes to, and within its field limits: no bit of a word is overlooked, so
every reserved or unused bit that is set makes a word no instruction (03 R6, R73, R75). A word of major opcode 0x00, 0x7E or 0x7F, or of
an unassigned one, is no instruction, whatever its other bits (03 R74, R75). -/
def Obligations.EncodeOfDecode : Prop :=
  (∀ (w : Word32) (i : Instr), decode w = .ok i → encode i = some w ∧ wellFormed i = true ∧ i.isWord = true)
  ∧ (∀ (w : Word32) (i : Instr), decode w = .ok i →
    (w.toNat / 2 ^ 25) ∉ [0x00, 0x13, 0x14, 0x15, 0x16, 0x17, 0x2D, 0x2E, 0x2F, 0x3D, 0x3E, 0x3F, 0x40, 0x41, 0x42, 0x43, 0x44, 0x45,
      0x46, 0x47, 0x4C, 0x4D, 0x4E, 0x4F, 0x6D, 0x6E, 0x6F, 0x77, 0x7E, 0x7F])

/-- Words that the manual writes out decode to the instructions that it writes beside them (04 R108, R113, R116, R119, R124). -/
def Obligations.ManualWordsDecode : Prop :=
  decode 0x02A52C02 = .ok (.padd 10 10 11) ∧ decode 0x0273A003 = .ok (.ptag 7 7 8) ∧ decode 0x0EA50038 = .ok (.shri 10 10 56)
  ∧ decode 0x16738024 = .ok (.lih 7 7 0x24) ∧ decode 0x24530052 = .ok (.fcvt 5 6 0 5 2)
  ∧ decode 0x24530156 = .ok (.fcvt 5 6 1 5 6) ∧ decode 0x20531C00 = .ok (.faddS 5 6 7) ∧ decode 0x3E008000 = .ok (.jr 1)
  ∧ decode 0x3E148001 = .ok (.callr 1 9) ∧ decode 0x3C61E300 = .ok (.rep 3 15 0 1 2 0) ∧ decode 0x40C50000 = .ok (.mrd 3 0 5)
  ∧ decode 0x40E50000 = .ok (.mrd 3 1 5) ∧ decode 0x40C50001 = .ok (.mpk 3 0 5) ∧ decode 0x40800002 = .ok (.wfm 2 0)
  ∧ decode 0x46400000 = .ok (.mclr 1) ∧ decode 0x46070001 = .ok (.mfull 7)

/-! Steps. -/

/-- A step of a running core with nothing on the agenda and no breakpoint runs the instruction that the word at pc decodes to, in
the state after its fetch; the checksum of a product, the store breakpoints, the reorder buffer and the merge buffer are looked at
afterwards. Where none of them is concerned the step is exec itself, but for what the pipeline holds; a scalar source that cannot be
corrected is a machine check. A fetch that its homes do not take yet leaves the step nothing to do (01 R1; 03 R75; 12 R322; 14 R374; 16
R406). -/
def Obligations.StepRunsDecoded : Prop :=
  ∀ (s : State) (w : Word32) (x : Xl) (i : Instr),
    s.agenda = [] → s.core.run = .running → s.core.safe = none → s.breakHere = none →
    s.k.rf = false → s.fetchWord s.pc = .ok (w, x) → decode w = .ok i → s.barred i = false →
    let f := s.fetched s.pc x
    (s.fetchTaken s.pc 1 = false → step s = .next s.mergeSettle)
    ∧ (s.fetchTaken s.pc 1 = true →
    (s.badSource i = none → step s = (f.watched i (exec i f)).settled)
    ∧ (∀ r, s.badSource i = some r → step s = .next (f.trapHere .machineCheck (BitVec.ofNat 64 (0x100 + r.toNat)) 0).mergeSettle)
    ∧ ((∀ k : Fin 8, (s.obs.slots[k]).en = false) → s.core.badX = [] → s.core.mismatch = none → (∀ r ∈ s.core.rob, r.wrong = none) →
      (∀ t, exec i f = .next t → ∃ u, step s = .next u ∧ u.blankPipe = t.blankPipe) ∧ ∀ e, exec i f = .fault e → step s = .fault e))

/-- A step at a word that is no instruction, or that a service core refuses, takes ILLEGAL_INSN with the word in k.tval; a step
whose fetch fails takes the fetch's cause with pc in k.tval (03 R76, 10 R264, 16 R408). -/
def Obligations.StepTrapsOnWord : Prop :=
  ∀ (s : State), s.agenda = [] → s.core.run = .running → s.core.safe = none →
    s.breakHere = none → s.k.rf = false → s.fetchTaken s.pc 1 = true →
    (∀ w x, s.fetchWord s.pc = .ok (w, x) → (∀ i, decode w = .ok i → s.barred i = true) →
      step s = .next ((s.fetched s.pc x).trapHere .illegalInsn (w.setWidth 64) 0).mergeSettle)
    ∧ (∀ c p, s.fetchWord s.pc = .error (c, p) → step s = .next (s.takeTrap c.code true s.pc (s.pc.setWidth 64) p).mergeSettle)

/-- Inside a repeat frame a step runs the captured instruction at k.repst.pos, its tile registers moved by the staggers of the
iteration (01 R38). That a register conflict which the stagger makes is ILLEGAL_INSN is the model's reading (log entry 43). -/
def Obligations.StepRunsCaptured : Prop :=
  ∀ (s : State) (i : Instr),
    s.agenda = [] → s.core.run = .running → s.core.safe = none → s.breakHere = none →
    s.k.rf = true → s.core.frame[s.k.pos]? = some i →
    let j := staggered s.k s.k.iter i
    (wellFormed j = true → s.badSource j = none → step s = (s.watched j (exec j s)).settled)
    ∧ (wellFormed j = false → step s = .next (s.trapHere .illegalInsn (((encode i).getD 0).setWidth 64) 0).mergeSettle)

/-- A step with an event first on the agenda is that event, and the agenda loses it; the merge buffer is looked at afterwards (12 R322).
The agenda is the model's choice (log entry 1). -/
def Obligations.StepTakesEvent : Prop :=
  ∀ (s : State) (e : Instr) (r : List Input), e.isWord = false → s.agenda = .event e :: r →
    step s = Out.settled (exec e { s with agenda := r })

/-- The invariant is kept by every step: the canonical forms of memory, local store and flash, the form of the L1, a legal
level, and one count for each partition in every Beryl block. -/
def Obligations.StepKeepsInvariant : Prop := ∀ s t : State, s.Inv → step s = .next t → t.Inv

/-- The machine after reset has the invariant. -/
def Obligations.ResetHasInvariant : Prop := State.reset.Inv

/-- After power-on reset no unit is resident, no partition is enabled, its registers, rings and quadrant bits are 0 and no job has closed;
no Beryl region exists, no slot has a match, and the registers of chapters 15, 16 and 18 hold their reset values: the device number, the
links, the semaphore, the memory clock, the boot map, pulses, samples and rings of records, the breakpoint slots, the snapshot, the
attestation and the lock. Every remap entry has its reset contents. The L1, the TLB and the reorder buffer are empty and no granule is
bad: these clauses are the model's choice (log entries 6 and 4), and so is what it chose for the clock ceilings, other memory, and the
flash with its log (log entries 9, 4 and 10), which is not stated. -/
def Obligations.ResetState : Prop :=
  let s := State.reset
  let o := s.obs
  let m := s.mgmt
  s.core.run = .idle ∧ s.core.sb = [] ∧ s.core.net = [] ∧ s.core.cmds = [] ∧ s.core.unacked = [] ∧ s.core.tlb = []
  ∧ s.core.l1.sectors = [] ∧ s.core.l1.dirty = [] ∧ s.core.l1.fused = false ∧ s.core.rob = []
  ∧ (∀ p, let t := s.partAt p
      t.en = false ∧ t.qmask = 0 ∧ t.pmode = false ∧ t.qpark = 0 ∧ t.qdeep = 0 ∧ t.qstate = 0 ∧ t.qshal = 0 ∧ t.troot = 0
      ∧ t.tvecdef = 0 ∧ t.tdlgdef = 0 ∧ t.poolbase = 0 ∧ t.poolsize = 0 ∧ t.evbase = 0 ∧ t.evlog = 0 ∧ t.evhead = 0 ∧ t.evtail = 0
      ∧ t.coal = 0 ∧ t.tmo = 0 ∧ t.fbase = 0 ∧ t.flog = 0 ∧ t.fhead = 0 ∧ t.ftail = 0 ∧ t.savebase = 0 ∧ t.savecnt = 0 ∧ t.lsbase = 0
      ∧ t.budget = 0 ∧ t.intvl = 0 ∧ t.eremain = 0 ∧ t.jobcnt = 0 ∧ t.launches = [] ∧ t.saved = [] ∧ t.heldEvents = [] ∧ t.heldFaults = []
      ∧ (∀ k : Fin 8, t.rings[k].sen = false ∧ t.rings[k].ovr = false ∧ t.rings[k].shead = 0 ∧ t.rings[k].stail = 0)
      ∧ (∀ k : Fin 16, t.drives[k].dv = false) ∧ ∀ k : Fin 8, t.windows[k].ctl = 0 ∧ t.windows[k].len = 0)
  ∧ (∀ rg, (s.region rg).v = false) ∧ s.beryl.blocks = [] ∧ s.beryl.pins = [] ∧ s.dev.merge = []
  ∧ (∀ l : Fin 12, s.dev.links[l].up = false ∧ s.dev.links[l].retry = 0) ∧ s.dev.devnum = 0
  ∧ s.dev.l2.reg = 0 ∧ s.dev.l2.switching = none ∧ (∀ i : Fin 32, s.dev.l2.slices[i] = 0)
  ∧ s.dev.sem.held = false ∧ s.dev.sem.gerr = false
  ∧ s.dev.clk.req = 0 ∧ s.dev.clk.pend = false ∧ s.dev.clk.cur = 0 ∧ s.dev.clk.abnd = false ∧ s.dev.clk.wlim = 0
  ∧ s.dev.granules = [] ∧ s.dev.portDown = 0
  ∧ o.pulseEn = false ∧ o.period = 0 ∧ o.seq = 0 ∧ o.sampler = 0 ∧ o.sample = 0 ∧ o.matched = 0
  ∧ (∀ k : Fin 16, o.sels[k] = 0) ∧ (∀ k : Fin 8, o.slots[k].ctl = 0 ∧ o.slots[k].hits = 0 ∧ o.slots[k].last = 0)
  ∧ o.pulseRing.size = 0 ∧ o.pulseRing.head = 0 ∧ o.pulseRing.tail = 0 ∧ o.pulseRing.lost = false
  ∧ o.sampleRing.size = 0 ∧ o.sampleRing.head = 0 ∧ o.sampleRing.tail = 0 ∧ o.sampleRing.lost = false
  ∧ o.snap.arm = false ∧ o.snap.done = false ∧ o.snap.src = 0
  ∧ m.lock = false ∧ m.clklim = 2900 ∧ m.plim = 1200 ∧ m.busy = false ∧ m.done = false ∧ m.missed = false ∧ m.abuf = 0 ∧ m.btab = 0
  ∧ m.brefu = 0 ∧ m.inlet = 0
  ∧ (∀ g, g < 2 ^ 23 → s.mem.readNat (remapBase + 2 * g) 2 = 1 * 2 ^ 3 + 2 * 2 ^ 6 + 3 * 2 ^ 9 + 4 * 2 ^ 12)

/-- Retirement outside a frame moves pc to the next word and leaves every control register; inside a frame it moves to the next
position, the next iteration, or past the frame, whose last retirement clears v and rf and keeps every other field (01 R38, R40; 04
R122). It changes nothing else than the counts, the wait and the exemption. So do fcvt, tred, tsfu, tnf, tadw, send, send.u, bcp, bcp.ld,
bcp.st, a2a, cred, cred.ls, ofld, the barrier operations, larm, lpat, cncl, draw, trig, smrg and, with the end of its unit, exit retire:
each completes, counts once and goes on at the next word, on every state and operands that meet these conditions. Conversions have no
other condition; a tile form needs clean sources of its formats; a command needs room, legal fields and pages that translate; a barrier
operation an aligned barrier that allows it; a message room and a target of the sender's; what releases, homes that take
the dirty lines; cred and lpat, homes that take theirs
(04 R113; 06 R163; 07 R193, R195, R196; 09 R225
to R237; 13 R329, R334 to R342, R350, R353, R356). -/
def Obligations.RetirementRule : Prop :=
  (∀ (s : State) (tile : Bool),
    let t := s.advance tile
    t.blankFlow = s.blankFlow ∧ SameBytes s t ∧ t.k.pl = s.k.pl ∧ t.core.wait = .none ∧ t.core.exempt = false
    ∧ t.core.retired = s.core.retired + 1 ∧ t.core.retiredTile = (if tile then s.core.retiredTile + 1 else s.core.retiredTile)
    ∧ (s.k.rf = false → t.k = s.k ∧ t.pc = s.pc + 4 ∧ t.core.frame = s.core.frame)
    ∧ (s.k.rf = true → bits t.k.repst 19 0 = bits s.k.repst 19 0
      ∧ (if s.k.pos < s.k.n1 then
          t.k.rf = true ∧ t.k.v = true ∧ t.k.iter = s.k.iter ∧ t.k.pos = s.k.pos + 1 ∧ t.pc = s.k.frameAddr (s.k.pos + 1)
        else if s.k.iter < s.k.k1 then
          t.k.rf = true ∧ t.k.v = true ∧ t.k.iter = s.k.iter + 1 ∧ t.k.pos = 0 ∧ t.pc = s.k.frameAddr 0
        else
          t.k.rf = false ∧ t.k.v = false ∧ t.k.iter = s.k.iter ∧ t.k.pos = s.k.pos ∧ t.pc = s.k.frameAddr (s.k.n1 + 1)
          ∧ t.core.frame = [])))
  ∧ ∀ (s : State),
    let done (i : Instr) : Prop :=
      ∃ t, exec i s = .next t ∧ t.core.retired = s.core.retired + 1 ∧ (s.k.rf = false → t.pc = s.pc + 4)
    let v (r : BitVec 5) : Word64 := s.x r
    let at_ (r : BitVec 5) : Nat := addrOf (s.x r)
    let pt := s.partAt s.part
    (∀ (d a : BitVec 5) (sat : BitVec 1) (src tgt : BitVec 4), wellFormed (.fcvt d a sat src tgt) = true → done (.fcvt d a sat src tgt))
    ∧ (∀ (d a : BitVec 4) (d64 dst fn1 : BitVec 1) (op fn : BitVec 3) (axis : BitVec 2), (s.t a).clean →
      (wellFormed (.tred d a d64 dst op axis) = true → (s.t a).rext ≤ 32 → (s.t a).cext ≤ 32 →
        isFloatCode (s.t a).fmt = true ∨ (isIntCode (s.t a).fmt = true ∧ d64 = 0) → done (.tred d a d64 dst op axis))
      ∧ (isFloatCode (s.t a).fmt = true → done (.tsfu d a fn))
      ∧ (isFloatCode (s.t a).fmt = true ∨ isIntCode (s.t a).fmt = true → fn1 = 0 ∨ d.toNat < 8 → done (.tnf d a fn1)))
    ∧ (∀ (d a b c : BitVec 4) (xh : BitVec 5), wellFormed (.tadw d a b c xh) = true → (s.t a).fmt ∈ [1#5, 2, 3] → (s.t a).scl = false →
      (s.t a).clean → (∀ r ∈ [d, b, c], (s.t r).fmt = 1 ∧ (s.t r).rext = (s.t a).rext ∧ (s.t r).cext = (s.t a).cext ∧ (s.t r).clean) →
      done (.tadw d a b c xh))
    ∧ (∀ (m : BitVec 3) (a b : BitVec 5),
      (s.core.net.filter (fun k => k.part == s.core.unit.ident.part && k.task == s.core.unit.ident.task)).length < 8 →
      (bits (v a) 63 7 = 0 → pt.qmask.getLsbD (bits (v a) 6 4) = true → done (.send m a b))
      ∧ (∀ l, s.launch? = some l → bits (v a) 63 32 = 0 → bits (v a) 31 0 < l.record.units → done (.sendU m a b)))
    ∧ (∀ (d a b : BitVec 5) (ms md mb : XMap), s.inFlight < 32 →
      let n := (v b).toNat
      let bar := at_ (b + 1)
      1 ≤ n → n ≤ 4194304 → bar % 32 = 0 → s.barrierMap bar = .ok mb → s.needPhys false bar mb = .ok () →
      (overlap (at_ a) n (at_ d) n = false → at_ a + n ≤ 2 ^ 56 → at_ d + n ≤ 2 ^ 56 → s.bcpMap true .read (at_ a) n = .ok ms →
        s.bcpMap true .write (at_ d) n = .ok md → done (.bcp d a b))
      ∧ (insideSpace true (at_ a) n → insideSpace false (at_ d) n → s.bcpMap true .read (at_ a) n = .ok ms →
        s.bcpMap false .write (at_ d) n = .ok md → done (.bcpLd d a b))
      ∧ (insideSpace false (at_ a) n → insideSpace true (at_ d) n → s.bcpMap false .read (at_ a) n = .ok ms →
        s.bcpMap true .write (at_ d) n = .ok md → done (.bcpSt d a b)))
    ∧ (∀ (d a b : BitVec 5) (mb ms : XMap), s.inFlight < 32 →
      let w := v (b + 1)
      let csz := bits w 14 0
      let steps := bits w 21 16
      let fits (g : Nat) : Prop := bits (v b) 18 0 + g * csz ≤ 2 ^ 19 ∧ bits (v b) 50 32 + g * csz ≤ 2 ^ 19
      bits (v b) 31 19 = 0 → bits (v b) 63 51 = 0 → bits w 15 15 = 0 → bits w 63 22 = 0 → csz % 16 = 0 → 16 ≤ csz → csz ≤ 16384 →
      1 ≤ steps → steps ≤ 64 → (∃ l, s.launch? = some l ∧ l.record.cls = 2) → at_ d % 32 = 0 → at_ a % 8 = 0 → at_ a + 8 * steps ≤ 2 ^ 56 →
      s.barrierMap (at_ d) = .ok mb → s.engineMap .read (at_ a) (8 * steps) = .ok ms → s.needPhys false (at_ d) mb = .ok () →
      s.needPhys false (at_ a) ms = .ok () → (fits 4 → done (.a2aCl d a b)) ∧ (fits 16 → done (.a2aQ d a b)))
    ∧ (∀ (d a b : BitVec 5) (m0 m0' mb mo ms ms' : XMap), s.inFlight < 32 →
      let bar := at_ (b + 1)
      let home := (linesOf (mo.pa (at_ d)) 64).foldl State.writeBackLine s
      let n := bits (home.mem.read64 (mo.pa (at_ d) + 16)) 10 0
      bits (v b) 63 32 = 0 → bar % 32 = 0 → at_ d % 64 = 0 → s.barrierMap bar = .ok mb → s.engineMap .readWrite (at_ d) 64 = .ok mo →
      s.needPhys false bar mb = .ok () → s.needPhys true (at_ d) mo = .ok () → s.peerOf (mo.pa (at_ d)) = none →
      s.homesAccept (linesOf (mo.pa (at_ d)) 64) = true → home.homeBad (mo.pa (at_ d)) 64 = false →
      (at_ a + 4096 ≤ 2 ^ 56 → insideSpace true (at_ a) (4 * n) → s.bcpMap true .read (at_ a) 4096 = .ok m0 →
        s.bcpMap true .read (at_ a) (4 * n) = .ok ms → done (.cred d a b))
      ∧ (insideSpace false (at_ a) (4 * n) → s.bcpMap false .read (at_ a) 4096 = .ok m0' → s.bcpMap false .read (at_ a) (4 * n) = .ok ms' →
        done (.credLs d a b)))
    ∧ (∀ (d a b : BitVec 5) (mr mw mb : XMap), s.inFlight < 32 →
      let n := (v b).toNat
      let bar := at_ (b + 1)
      bits (v d) 59 48 = 0 → (pt.drives.toList.getD (bits (v d) 63 60) ⟨false, 0, 0, 0⟩).dv = true → at_ a % 4096 = 0 → n % 4096 = 0 →
      4096 ≤ n → n ≤ 4194304 → bar % 32 = 0 → at_ a + n ≤ 2 ^ 56 → s.barrierMap bar = .ok mb → s.needPhys false bar mb = .ok () →
      (s.engineMap .read (at_ a) n = .ok mr → done (.ofldOut d a b)) ∧ (s.engineMap .write (at_ a) n = .ok mw → done (.ofldIn d a b)))
    ∧ (∀ (d a b : BitVec 5) (m : XMap), Releasable s → at_ a % 32 = 0 → s.access .readWrite true [(at_ a, 32)] = .ok m →
      (∀ c, s.dev.barCycle = some c → c.pa ≠ m.pa (at_ a)) →
      let home (rel : Bool) : State := (linesOf (m.pa (at_ a)) 32).foldl State.dropLine (if rel then s.releaseCache 2 else s)
      let r (rel : Bool) : Barrier := (home rel).readBarrier (m.pa (at_ a))
      let n := (s.x b).toInt
      let posts (rel : Bool) : Prop := (r rel).exp ≠ 0 ∧ (r rel).ovf = false ∧ -2 ^ 23 ≤ (r rel).pend + n ∧ (r rel).pend + n < 2 ^ 23
      let arrives : Prop := (r true).exp ≠ 0 ∧ (r true).ovf = false ∧ (r true).arr < (r true).exp
      (bits (v b) 15 0 ≠ 0 → bits (v b) 63 17 = 0 → done (.barInit a b))
      ∧ ((∀ rel, (home rel).homeBad (m.pa (at_ a)) 32 = false) →
        (-2 ^ 23 ≤ n → n < 2 ^ 23 → (posts false → done (.barExp a b)) ∧ (posts true → arrives → done (.barExpArr a b)))
        ∧ (arrives → done (.barArr a))
        ∧ (arrives → (r true).ndrop < (r true).exp → done (.barDrop a))
        ∧ ((r false).phase ≠ (v b).getLsbD 0 → done (.barWait d a b))
        ∧ ((r false).ovf = false → (r false).exp ≠ 0 → done (.barTest d a))))
    ∧ (∀ (d a b : BitVec 5) (width : BitVec 2) (off : BitVec 4), bits (v a) 63 12 = 0 → bits (v a) 11 0 < min pt.poolsize.toNat 4096 →
      (∀ l ∈ pt.launches, l.entry ≠ some (v a).toNat) →
      done (.larm d a) ∧ (wellFormed (.lpat a b width off) = true → Settled s →
        (∀ pa, pa = pt.poolbase.toNat + 128 * (v a).toNat + 8 * off.toNat → s.physHome pa = true → s.homesTake [lineOf pa] = true) →
        done (.lpat a b width off)))
    ∧ (∀ (d a : BitVec 5) (level : BitVec 3), level.toNat ≤ 3 ∨ (level = 4 ∧ s.k.pl ≠ 0) → done (.cncl d a level))
    ∧ (∀ (d : BitVec 5) l, s.launch? = some l → l.record.smode = true → done (.draw d))
    ∧ (Releasable s → done .trig ∧ ∃ t, exec .exit s = .next t ∧ t.core.retired = s.core.retired + 1 ∧ t.core.run = .exited)
    ∧ (∀ (t : BitVec 4) (op : BitVec 2) (xp : BitVec 5) (m : XMap), Settled s →
      let ptr := v xp
      let sh := v (xp + 1)
      let sp := rowSpan (ptrFmt ptr) 0 false (shCols sh)
      mergeFormat op ptr = true → shRows sh ≤ 32 → shCols sh ≤ 32 → shAux sh ≠ 0 →
      addrOf ptr + rangeLen sp (shStride sh) (shAux sh * shRows sh) (shCols sh) ≤ 2 ^ 56 →
      s.access .read true ((rowAddrs (addrOf ptr) (shStride sh) (shAux sh * shRows sh)).map (rowRanges sp (shCols sh))).flatten = .ok m →
      s.readable m → done (.smrg t op xp))

/-! Scalar instructions. -/

/-- The register and immediate forms of opcodes 0x01 to 0x0F write the value of the manual's table and nothing else (04 R103, R105,
R107, R108). -/
def Obligations.IntegerResults : Prop :=
  ∀ (i : Instr) (s : State) (d : BitVec 5) (v : Word64), integerTable s.x i = some (d, v) ∨ immediateTable s.x i = some (d, v) →
    ∃ u, Completes i s u ∧ SetsX s u d v

/-- Division never traps: its corner cases, for any registers that hold them (04 R106). -/
def Obligations.DivisionCorners : Prop :=
  ∀ (s : State) (d a b : BitVec 5), ∃ u v p q, Completes (.div d a b) s u ∧ Completes (.rem d a b) s v ∧ Completes (.divu d a b) s p
    ∧ Completes (.remu d a b) s q
    ∧ (d = 0 → u.x d = 0 ∧ v.x d = 0 ∧ p.x d = 0 ∧ q.x d = 0)
    ∧ (d ≠ 0 →
      (s.x b = 0 → u.x d = 0xFFFFFFFFFFFFFFFF ∧ v.x d = s.x a ∧ p.x d = 0xFFFFFFFFFFFFFFFF ∧ q.x d = s.x a)
      ∧ (s.x a = 0x8000000000000000 → s.x b = -1 → u.x d = 0x8000000000000000 ∧ v.x d = 0)
      ∧ (s.x a = 7 → s.x b = -2 → u.x d = -3 ∧ v.x d = 1 ∧ p.x d = 0 ∧ q.x d = 7)
      ∧ (s.x a = -7 → s.x b = 2 → u.x d = -3 ∧ v.x d = -1 ∧ p.x d = 0x7FFFFFFFFFFFFFFC ∧ q.x d = 1))

/-- The scalar floating-point forms write the value of R109 to R111, rounded once by k.fpmode.rm, and nothing else: no flag and no
trap (04 R104, R109 to R112). -/
def Obligations.FloatResults : Prop :=
  ∀ (i : Instr) (s : State) (f : FFmt) (fn : Nat) (d a b : BitVec 5), floatForm i = some (f, fn, d, a, b) →
    ∃ u, Completes i s u ∧ SetsX s u d (floatValue f s fn d a b)

/-- An arithmetic form with a NaN operand gives the canonical NaN, and so does fmin or fmax with two, and an invalid operation: unlike
infinities added, an infinity times a zero, whatever d holds, two zeros or two infinities divided, and the square root of a value below
-0. A finite non-zero value divided by a zero gives an infinity with the exclusive or of the signs. fmin and fmax return the other
operand beside one NaN. A comparison with a NaN gives 0, and an fp32 form leaves bits [63:32] zero (02 R45; 04 R104, R110, R111). -/
def Obligations.FloatSpecials : Prop :=
  ∀ (s : State) (f : FFmt) (fn : Nat) (d a b : BitVec 5), f = fp32 ∨ f = fp64 →
    let x := floatOperand f s a
    let y := floatOperand f s b
    let gives (n : Nat) : Prop := (floatValue f s fn d a b).toNat = n
    (fn ≤ 3 → x.isNan ∨ y.isNan → gives f.nanBits)
    ∧ (fn = 6 → x.isNan → gives f.nanBits)
    ∧ (fn = 7 → x.isNan ∨ y.isNan ∨ (floatOperand f s d).isNan → gives f.nanBits)
    ∧ (fn = 4 ∨ fn = 5 →
      (x.isNan → y.isNan → gives f.nanBits) ∧ (x.isNan → y.isNan = false → gives (selectedBits f s b))
      ∧ (x.isNan = false → y.isNan → gives (selectedBits f s a)))
    ∧ (∀ g, x = .inf g → (fn = 0 ∧ y = .inf (!g)) ∨ (fn = 1 ∧ y = .inf g) ∨ (fn = 3 ∧ ∃ h, y = .inf h) → gives f.nanBits)
    ∧ (fn = 2 ∨ fn = 7 → ∀ g h e, (x = .inf g ∧ y = .fin h 0 e) ∨ (x = .fin h 0 e ∧ y = .inf g) → gives f.nanBits)
    ∧ (fn = 3 → ∀ g m e h q, x = .fin g m e → y = .fin h 0 q → gives (if m = 0 then f.nanBits else f.infBits (g != h)))
    ∧ (fn = 6 → x = .inf true ∨ (∃ m e, m ≠ 0 ∧ x = .fin true m e) → gives f.nanBits)
    ∧ (8 ≤ fn → x.isNan ∨ y.isNan → floatValue f s fn d a b = 0)
    ∧ (floatValue f s fn d a b).toNat < 2 ^ f.width

/-- Every finite encoding of every format is the rounding of its own value, in every direction (02 R44, R59). -/
def Obligations.RoundingKeepsValues : Prop :=
  ∀ (f : FFmt) (rm : Rm) (sat : Bool) (n : Nat), f ∈ [fp64, fp32, bf16, fp16, fp8e4, fp8e5, fp6e3, fp6e2, fp4] →
    n < 2 ^ f.width → (f.read false n).isFinite = true → f.round rm sat false (f.read false n) = ⟨n, false⟩

/-- fcvt completes for every source and target that a word may name. It reads the source of the table of R113 and writes the value rounded by
k.fpmode.rm, with saturation when the word says so, zero-extended; an integer target is clamped to its range, s32 sign-extended. It sets
k.sticky.nf when a finite value became an infinity, clears no flag, and writes nothing else (02 R59, R60; 04 R113). -/
def Obligations.ConversionResults : Prop :=
  ∀ (s : State) (d a : BitVec 5) (sat : BitVec 1) (src tgt : BitVec 4) (x : FVal), wellFormed (.fcvt d a sat src tgt) = true →
    let v := s.x a
    let ftz := s.k.ftz
    let rm := Rm.ofBits s.k.rm
    (src, x) ∈ [(0#4, FVal.ofInt v.toInt), (1, FVal.ofInt v.toNat), (2, FVal.ofInt (v.setWidth 32).toInt),
      (3, FVal.ofInt (v.setWidth 32).toNat), (4, fp64.read ftz v.toNat), (5, fp32.read ftz (v.setWidth 32).toNat),
      (6, fp16.read ftz (v.setWidth 16).toNat), (7, bf16.read ftz (v.setWidth 16).toNat)] →
    let only (u : State) : Prop := (∀ r, r ≠ d → u.x r = s.x r) ∧ u.blankX.blankSticky = s.blankX.blankSticky ∧ SameBytes s u
    (∀ f, (tgt, f) ∈ [(4#4, fp64), (5, fp32), (6, fp16), (7, bf16)] →
      let y := f.round rm (sat == 1) ftz x
      ∃ u, exec (.fcvt d a sat src tgt) s = .next u.advance ∧ only u ∧ (d ≠ 0 → (u.x d).toNat = y.bits) ∧ y.bits < 2 ^ f.width
        ∧ u.k.sticky = s.k.sticky ||| (if x.isFinite = true ∧ (f.read false y.bits).isFinite = false then 1 else 0))
    ∧ (∀ lo hi : Int, (tgt, lo, hi) ∈ [(0#4, -2 ^ 63, 2 ^ 63 - 1), (1, 0, 2 ^ 64 - 1), (2, -2 ^ 31, 2 ^ 31 - 1), (3, 0, 2 ^ 32 - 1)] →
      ∃ u, exec (.fcvt d a sat src tgt) s = .next u.advance ∧ only u ∧ u.k.sticky = s.k.sticky
        ∧ (d ≠ 0 → ∃ n : Int, lo ≤ n ∧ n ≤ hi ∧ u.x d = BitVec.ofInt 64 n ∧ (x = .nan → n = 0) ∧ (x = .inf true → n = lo)
          ∧ (x = .inf false → n = hi)
          ∧ ∀ g m e, x = .fin g m e → n = max lo (min hi (if g then -(unitRound rm g m e 0 : Int) else (unitRound rm g m e 0 : Int)))))

/-! Control flow. -/

/-- A compare-and-branch goes to pc + 4 * sext(off15) when its condition holds and to the next word otherwise. j and call go to
pc + 4 * sext(off25); call writes the address of the next word to x1. jr and callr go to the low 56 bits of xa, read before xd is written;
a target that is not a multiple of 4 is PC_ALIGN with the target in k.tval, and xd is not written (04 R114 to R116). -/
def Obligations.ControlTransfers : Prop :=
  (∀ (s : State) (a b : BitVec 5) (o : BitVec 15),
    let target (c : Prop) [Decidable c] : BitVec 56 := BitVec.ofInt 56 (s.pc.toNat + if c then 4 * o.toInt else 4)
    (∃ t, exec (.beq a b o) s = .next t ∧ Jumps s t (target (s.x a = s.x b)))
    ∧ (∃ t, exec (.bne a b o) s = .next t ∧ Jumps s t (target (s.x a ≠ s.x b)))
    ∧ (∃ t, exec (.blt a b o) s = .next t ∧ Jumps s t (target ((s.x a).toInt < (s.x b).toInt)))
    ∧ (∃ t, exec (.bge a b o) s = .next t ∧ Jumps s t (target ((s.x b).toInt ≤ (s.x a).toInt))))
  ∧ (∀ (s : State) (o : BitVec 25),
    (∃ t, exec (.j o) s = .next t ∧ Jumps s t (BitVec.ofInt 56 (s.pc.toNat + 4 * o.toInt)))
    ∧ (∃ u t, exec (.call o) s = .next t ∧ SetsX s u 1 ((s.pc + 4).zeroExtend 64)
        ∧ Jumps u t (BitVec.ofInt 56 (s.pc.toNat + 4 * o.toInt))))
  ∧ (∀ (s : State) (d a : BitVec 5),
    ((s.x a).toNat % 4 = 0 →
      (∃ t, exec (.jr a) s = .next t ∧ Jumps s t ((s.x a).setWidth 56))
      ∧ (∃ u t, exec (.callr d a) s = .next t ∧ SetsX s u d ((s.pc + 4).zeroExtend 64) ∧ Jumps u t ((s.x a).setWidth 56)))
    ∧ ((s.x a).toNat % 4 ≠ 0 → TrapsWith (.jr a) s .pcAlign (s.x a) ∧ TrapsWith (.callr d a) s .pcAlign (s.x a)))

/-- rep opens its frame when the checks of R37 pass: k.repbase is the address of the next word, k.repst holds the fields of the
word with iter 0, pos 0 and v 1, rf is 1, and the captured words are those after it; where a word fails, rep traps at itself (01
R37; 04 R121). It waits while the homes do not take the fetch of those words (16 R406). -/
def Obligations.RepOpensFrame : Prop :=
  ∀ (s : State) (n1 : BitVec 4) (k1 : BitVec 8) (std sta stb stc : BitVec 2),
    (s.fetchTaken (s.pc + 4) (n1.toNat + 1) = false → Waits (.rep n1 k1 std sta stb stc) s .other)
    ∧ (s.fetchTaken (s.pc + 4) (n1.toNat + 1) = true →
    (∀ is, s.capture (s.pc + 4) (n1.toNat + 1) = .words is →
      ∃ t, exec (.rep n1 k1 std sta stb stc) s = .next t ∧ t.core.frame = is ∧ is.length = n1.toNat + 1
        ∧ (∀ i ∈ is, tileClass i = true ∧ autoIncrement i = true)
        ∧ t.pc = s.pc + 4 ∧ t.k.repbase = (s.pc + 4).zeroExtend 64 ∧ t.k.rf = true ∧ t.k.pl = s.k.pl
        ∧ t.k.v = true ∧ t.k.iter = 0 ∧ t.k.pos = 0 ∧ t.k.n1 = n1.toNat ∧ t.k.k1 = k1.toNat ∧ t.k.std = std.toNat
        ∧ t.k.sta = sta.toNat ∧ t.k.stb = stb.toNat ∧ t.k.stc = stc.toNat
        ∧ t.core.retired = s.core.retired + 1 ∧ (∀ r, t.x r = s.x r) ∧ (∀ r, t.t r = s.t r) ∧ (∀ m, t.mbox m = s.mbox m)
        ∧ (t.setK s.k).blankFlow.blankMem = s.blankFlow.blankMem ∧ t.core.sb = s.core.sb)
    ∧ (∀ va, s.capture (s.pc + 4) (n1.toNat + 1) = .content va →
        TrapsWith (.rep n1 k1 std sta stb stc) s .repContent (va.zeroExtend 64))
    ∧ (∀ c va p, s.capture (s.pc + 4) (n1.toNat + 1) = .fetchFault c va p →
        TrapsWith (.rep n1 k1 std sta stb stc) s c (va.zeroExtend 64)))

/-! Mailboxes. -/

/-- With a full mailbox mrd returns the value and empties it, mpk returns it, wfm completes; with an empty one the T form traps with
the mailbox's number and the B form waits. mwr stores the value, sets the full bit, and sets k.sticky.mov when the mailbox was full. mclr
clears the full bit and leaves the value; on an empty mailbox it has no effect. mfull writes the eight full bits (01 R33 to R35; 04 R125
to R128). -/
def Obligations.Mailboxes : Prop :=
  (∀ (s : State) (m : BitVec 3) (bt : BitVec 1) (d : BitVec 5),
    ((s.mbox m).full = true →
      (∃ u v, Completes (.mrd m bt d) s v ∧ SetsX s u d (s.mbox m).val ∧ SetsM u v m (s.mbox m).val false false)
      ∧ (∃ u, Completes (.mpk m bt d) s u ∧ SetsX s u d (s.mbox m).val)
      ∧ Completes (.wfm m bt) s s)
    ∧ ((s.mbox m).full = false → bt = 1 →
      TrapsWith (.mrd m bt d) s .mboxEmpty (m.zeroExtend 64) ∧ TrapsWith (.mpk m bt d) s .mboxEmpty (m.zeroExtend 64)
      ∧ TrapsWith (.wfm m bt) s .mboxEmpty (m.zeroExtend 64))
    ∧ ((s.mbox m).full = false → bt = 0 →
      Waits (.mrd m bt d) s .mailbox ∧ Waits (.mpk m bt d) s .mailbox ∧ Waits (.wfm m bt) s .mailbox))
  ∧ (∀ (s : State) (m : BitVec 3) (b : BitVec 5), ∃ u, Completes (.mwr m b) s u ∧ SetsM s u m (s.x b) true (s.mbox m).full)
  ∧ (∀ (s : State) (m : BitVec 3) (d : BitVec 5),
    (∃ u, Completes (.mclr m) s u ∧ SetsM s u m (s.mbox m).val false false ∧ ((s.mbox m).full = false → u = s))
    ∧ (∃ u v, Completes (.mfull d) s u ∧ SetsX s u d v ∧ v.toNat < 256 ∧ ∀ k : Fin 8, v.getLsbD k.val = (s.mbox (BitVec.ofFin k)).full))


/-! Tile arithmetic. -/

/-- tadd, tsub, tmul, tfma, tmax and tmin. On floating-point operands: the result's format and extents, each element computed exactly
from the operands' values and rounded once to nearest-even, nf set when finite operands gave a NaN or an infinity, and nothing else
written. On integer operands: the exact result modulo 2^32, iov set when one lies outside the result format. An instruction that mixes an
integer and a floating-point operand, or takes an untyped one, is BAD_FORMAT with the code of the first operand at fault; a consumed
poisoned row is MACHINE_CHECK with the row, the register and the role in k.tval (07 R179, R181, R182, R184, R185). -/
def Obligations.ElementwiseResults : Prop :=
  (∀ (i : Instr) (s : State) (op : Elementwise), elementTable i = some op →
    let ts := op.srcs.map s.t
    let vals (r c : Nat) : List FVal := ts.map (fun t => t.val s.k.ftz r c)
    (∀ t ∈ ts, isFloatCode t.fmt = true ∧ t.clean) →
    ∃ f u v nf, floatOf (floatTarget op.wide ts) = some f ∧ Completes i s u true ∧ SetsT s u op.dst v nf false
      ∧ IsResult v (floatTarget op.wide ts) (mostRows ts) (mostCols ts)
          (fun r c => BitVec.ofNat 32 (f.round .rne false s.k.ftz (op.float (vals r c))).bits)
      ∧ (nf = true ↔ ∃ r c, r < mostRows ts ∧ c < mostCols ts ∧ (∀ x ∈ vals r c, x.isFinite = true)
          ∧ (f.read false (f.round .rne false s.k.ftz (op.float (vals r c))).bits).isFinite = false))
  ∧ (∀ (i : Instr) (s : State) (op : Elementwise), elementTable i = some op →
    let ts := op.srcs.map s.t
    let exact (r c : Nat) : Int := op.int (ts.map (fun t => t.int r c))
    (∀ t ∈ ts, isIntCode t.fmt = true ∧ t.clean) →
    ∃ u v iov, Completes i s u true ∧ SetsT s u op.dst v false iov
      ∧ IsResult v (intTarget op.minMax ts) (mostRows ts) (mostCols ts) (fun r c => BitVec.ofInt 32 (exact r c))
      ∧ (iov = true ↔ ∃ r c, r < mostRows ts ∧ c < mostCols ts ∧ outside32 (intTarget op.minMax ts) (exact r c)))
  ∧ (∀ (i : Instr) (s : State) (op : Elementwise), elementTable i = some op →
    let kind (r : BitVec 4) : Nat := if isFloatCode (s.t r).fmt then 1 else if isIntCode (s.t r).fmt then 2 else 0
    (∀ a rest, op.srcs = a :: rest → kind a = 0 → TrapsWith i s .badFormat ((s.t a).fmt.zeroExtend 64))
    ∧ (∀ a pre r post, op.srcs = a :: pre ++ r :: post → kind a ≠ 0 → (∀ p ∈ pre, kind p = kind a) → kind r ≠ kind a →
      TrapsWith i s .badFormat ((s.t r).fmt.zeroExtend 64))
    ∧ (∀ pre r post (n : Nat), op.srcs = pre ++ r :: post → (∀ p ∈ op.srcs, ∀ q ∈ op.srcs, kind p ≠ 0 ∧ kind p = kind q) →
      (∀ p ∈ pre, (s.t p).clean) → n < (s.t r).rext → (s.t r).bad n = true → (∀ m, m < n → (s.t r).bad m = false) →
      TrapsWith i s .machineCheck (BitVec.ofNat 64 (n + r.toNat * 2 ^ 5 + pre.length * 2 ^ 9))))

/-- tcmp writes 1 where the condition holds and 0 elsewhere, as z8, and sets no flag; tsel copies the containers that the predicate
selects, with the poison of the rows that supplied them (07 R186, R187). -/
def Obligations.CompareAndSelect : Prop :=
  (∀ (s : State) (d a b : BitVec 4) (cond : BitVec 3), (s.t a).clean → (s.t b).clean →
    let ts := [s.t a, s.t b]
    ((∀ t ∈ ts, isFloatCode t.fmt = true) → ∃ u v e, Completes (.tcmp d a b cond) s u true ∧ SetsT s u d v false false
      ∧ IsResult v 0x0D (mostRows ts) (mostCols ts) e
      ∧ ∀ r c, (holdsF cond ((s.t a).val s.k.ftz r c) ((s.t b).val s.k.ftz r c) → e r c = 1)
        ∧ (¬holdsF cond ((s.t a).val s.k.ftz r c) ((s.t b).val s.k.ftz r c) → e r c = 0))
    ∧ ((∀ t ∈ ts, isIntCode t.fmt = true) → ∃ u v e, Completes (.tcmp d a b cond) s u true ∧ SetsT s u d v false false
      ∧ IsResult v 0x0D (mostRows ts) (mostCols ts) e
      ∧ ∀ r c, (holdsI cond ((s.t a).int r c) ((s.t b).int r c) → e r c = 1)
        ∧ (¬holdsI cond ((s.t a).int r c) ((s.t b).int r c) → e r c = 0)))
  ∧ (∀ (s : State) (d a b c : BitVec 4), (s.t a).scl = false → (s.t b).scl = false → (s.t b).fmt = (s.t a).fmt →
    isIntCode (s.t c).fmt = true → (s.t c).clean →
    let ts := [s.t a, s.t b, s.t c]
    let sel (r k : Nat) : Prop := (s.t c).int r k ≠ 0
    ∃ u v e, Completes (.tsel d a b c) s u true ∧ SetsT s u d v false false
      ∧ HasElems v (s.t a).fmt (mostRows ts) (mostCols ts) e ∧ v.scl = false
      ∧ (∀ r k, (sel r k → e r k = (s.t a).elem r k) ∧ (¬sel r k → e r k = (s.t b).elem r k))
      ∧ ∀ r, v.bad r = true ↔ (r < (s.t a).rext ∧ (s.t a).bad r = true ∧ ∃ k, k < mostCols ts ∧ sel r k)
          ∨ (r < (s.t b).rext ∧ (s.t b).bad r = true ∧ ∃ k, k < mostCols ts ∧ ¬sel r k))

/-- tcvt converts each exact value by k.fpmode.rm, an integer target clamped to its range, and sets nf exactly when a finite value became
an infinity (07 R188; 02 R59, R60). tsc gives a row with a NaN the scale 0xFF and zeros, a row of zeros 0x7F, a row with an infinity 0xFE,
and otherwise floor(log2(amax)) - emax + 127 clamped to 0 to 254; under the scale the elements are rounded with saturation (07 R189). -/
def Obligations.ConvertTiles : Prop :=
  (∀ (s : State) (d a : BitVec 4) (sat : BitVec 1) (tgt : BitVec 5), wellFormed (.tcvt d a sat tgt) = true → (s.t a).clean →
    isFloatCode (s.t a).fmt = true ∨ isIntCode (s.t a).fmt = true →
    let rm := Rm.ofBits s.k.rm
    let x (r c : Nat) : FVal := (s.t a).exact s.k.ftz r c
    ∃ u v e nf, Completes (.tcvt d a sat tgt) s u true ∧ SetsT s u d v nf false ∧ IsResult v tgt (s.t a).rext (s.t a).cext e
      ∧ (∀ f, floatOf tgt = some f → (∀ r c, e r c = BitVec.ofNat 32 (f.round rm (sat == 1) s.k.ftz (x r c)).bits)
        ∧ (nf = true ↔ ∃ r c, r < (s.t a).rext ∧ c < (s.t a).cext ∧ (f.round rm (sat == 1) s.k.ftz (x r c)).toInf = true))
      ∧ (∀ lo hi, intRange tgt = some (lo, hi) → nf = false
        ∧ ∀ r c, ((e r c).toNat : Int) = (x r c).toRange rm lo hi % 2 ^ widthOf tgt))
  ∧ (∀ (s : State) (d a : BitVec 4) (tgt : BitVec 5) (f : FFmt), wellFormed (.tsc d a tgt) = true → floatOf tgt = some f →
    isFloatCode (s.t a).fmt = true → (s.t a).clean →
    let x (r c : Nat) : FVal := (s.t a).val s.k.ftz r c
    ∃ u v e, Completes (.tsc d a tgt) s u true ∧ SetsT s u d v false false
      ∧ HasElems v tgt (s.t a).rext (s.t a).cext e ∧ v.scl = true ∧ v.poison = 0
      ∧ ∀ r, r < (s.t a).rext →
        ((∃ c, c < (s.t a).cext ∧ (x r c).isNan = true) → v.scaleAt r = 0xFF ∧ ∀ c, e r c = 0)
        ∧ ((∀ c, c < (s.t a).cext → (x r c).isNan = false) → v.scaleAt r ≠ 0xFF
          ∧ ((∀ c, c < (s.t a).cext → (x r c).isZero = true) → v.scaleAt r = 0x7F)
          ∧ ((∃ c, c < (s.t a).cext ∧ ((x r c) = .inf true ∨ (x r c) = .inf false)) → v.scaleAt r = 0xFE)
          ∧ (∀ lg : Int, (∀ c, c < (s.t a).cext → (x r c).isFinite = true) →
            (∃ c g m p, c < (s.t a).cext ∧ x r c = .fin g m p ∧ m ≠ 0 ∧ (m.log2 : Int) + p = lg) →
            (∀ c g m p, c < (s.t a).cext → x r c = .fin g m p → m ≠ 0 → (m.log2 : Int) + p ≤ lg) →
            ((v.scaleAt r).toNat : Int) = max 0 (min 254 (lg - scaleBias tgt + 127)))
          ∧ ∀ c, c < (s.t a).cext → e r c = BitVec.ofNat 32 (f.round .rne true false
              (match x r c with
               | .fin g m p => .fin g m (p + 127 - ((v.scaleAt r).toNat : Int))
               | y => y)).bits))

/-- ttr and tbc move containers unchanged; the poison of the result follows the rows that supplied data, and tbc takes its extents from
the template (07 R190, R191). -/
def Obligations.MoveTiles : Prop :=
  ∀ (s : State) (d a b : BitVec 4) (x : BitVec 5),
    ((s.t a).scl = false → ∃ u v, Completes (.ttr d a) s u true ∧ SetsT s u d v false false
      ∧ HasElems v (s.t a).fmt (s.t a).cext (s.t a).rext (fun j i => (s.t a).elem i j) ∧ v.scl = false
      ∧ ∀ j, j < 32 → (v.bad j = true ↔ j < (s.t a).cext ∧ ¬(s.t a).clean))
    ∧ ((s.t a).scl = true → TrapsWith (.ttr d a) s .badFormat ((s.t a).fmt.zeroExtend 64))
    ∧ (∀ (i : Instr) (row col : Nat → Nat),
      (i = .tbcRow d a b ∧ row = (fun _ => 0) ∧ col = id) ∨ (i = .tbcCol d a b ∧ row = id ∧ col = (fun _ => 0))
        ∨ (i = .tbcEl d a b ∧ row = (fun _ => 0) ∧ col = (fun _ => 0)) →
      ∃ u v, Completes i s u true ∧ SetsT s u d v false false
        ∧ HasElems v (s.t a).fmt (s.t b).rext (s.t b).cext (fun r c => (s.t a).elem (row r) (col c)) ∧ v.scl = (s.t a).scl
        ∧ ∀ r, r < 32 → (v.bad r = true ↔ r < (s.t b).rext ∧ (s.t a).bad (row r) = true)
          ∧ (r < (s.t b).rext → v.scaleAt r = (s.t a).scaleAt (row r)))
    ∧ ∃ u v, Completes (.tbcX d b x) s u true ∧ SetsT s u d v false false
      ∧ IsResult v (s.t b).fmt (s.t b).rext (s.t b).cext (fun _ _ => BitVec.ofNat 32 ((s.x x).toNat % 2 ^ widthOf (s.t b).fmt))

/-- tred completes on every floating-point source, and on every integer source but with d64. Each result is the combination of R192 by the
operator of R193, the tree of R66 along a row and ascending rows, rounded to fp32, or an integer modulo 2^32 in the result format; a result
of no element is the identity. It goes to a tile of the axis's extents, or as the final value to a mailbox in its format. nf is set when a
result of finite elements is not finite; no integer result is out of range when iov stays clear (02 R66, R67; 07 R192 to R194). That a
sum of z8 or z32 elements is tested against the ranges of both z32 and s32 is the model's reading (log entry 65). -/
def Obligations.Reductions : Prop :=
  ∀ (s : State) (d a : BitVec 4) (d64 dst : BitVec 1) (op : BitVec 3) (axis : BitVec 2),
    let t := s.t a
    let i : Instr := .tred d a d64 dst op axis
    let count := reduceCount axis t.rext t.cext
    wellFormed i = true → t.clean → t.rext ≤ 32 → t.cext ≤ 32 →
    let goes (f : BitVec 5) (e : Nat → Word32) (box : Word64) (nf iov : Bool) : Prop :=
      (dst = 0 → ∃ u v, exec i s = .next (u.advance true) ∧ SetsT s u d v nf iov
        ∧ IsResult v f (if axis = 0 then t.rext else 1) (if axis = 1 then t.cext else 1) (fun r c => e (r + c)))
      ∧ (dst = 1 → ∃ u v, exec i s = .next (u.advance true)
        ∧ SetsM { s with core.unit.k.sticky := s.k.sticky ||| BitVec.ofNat 64 ((if nf then 1 else 0) + if iov then 2 else 0) } u (d.setWidth 3) v
            true (s.mbox (d.setWidth 3)).full ∧ v = box)
    (isFloatCode t.fmt = true →
      let elem (r c : Nat) : FVal := if op = 3 then (t.val s.k.ftz r c).abs else t.val s.k.ftz r c
      let value (k : Nat) : Option FVal := reduceAt axis (reduceFloat op s.k.ftz) t.rext t.cext elem k
      let bits_ (k : Nat) : Word32 := ((value k).map (fun v => BitVec.ofNat 32 (fp32.round .rne false s.k.ftz v).bits)).getD (reduceNoneFloat op)
      ∃ nf, goes 1 bits_ (if d64 = 1 then BitVec.ofNat 64 (fp64.round .rne false false (fp32.read false (bits_ 0).toNat)).bits
            else (bits_ 0).zeroExtend 64) nf false
        ∧ (nf = true ↔ ∃ k, k < count ∧ (value k).isSome = true ∧ (fp32.read false (bits_ k).toNat).isFinite = false
            ∧ ∀ r c, r < t.rext → c < t.cext → takesPart axis k r c → (t.val s.k.ftz r c).isFinite = true))
    ∧ (isIntCode t.fmt = true → d64 = 0 →
      let f : BitVec 5 := if t.fmt = 0x0D ∨ t.fmt = 0x0F then 0x0F else 0x0C
      let elem (r c : Nat) : Int := if op = 3 then ((t.int r c).natAbs : Int) else t.int r c
      let value (k : Nat) : Option Int := reduceAt axis (reduceInt op) t.rext t.cext elem k
      let bits_ (k : Nat) : Word32 := BitVec.ofInt 32 ((value k).getD (reduceNoneInt op f))
      ∃ iov, goes f bits_ (if f = 0x0F then (bits_ 0).zeroExtend 64 else (bits_ 0).signExtend 64) false iov
        ∧ ((∃ k n, k < count ∧ value k = some n ∧ (outside32 f n ∨ (op = 0 ∧ outside32 0x0C n))) → iov = true)
        ∧ ((∀ r c, r < t.rext → c < t.cext → (t.int r c).natAbs < 2 ^ 21) → iov = false))

/-- tsfu completes on every floating-point source: each element, first converted to fp32, gives an fp32 value with the special cases of R68:
NaN gives the canonical NaN; rcp and sqrt give the exact quotient and root rounded once; rsqrt, exp2, log2, tanh, sinpi and cospi give what
the table says at zeros, infinities and below zero, log2 of 1, exp2 of 128 or more and of -150 or less, and sinpi and cospi at every
multiple of one half. nf is set when a finite element gave a value that is not finite. tnf marks the elements
that are NaN or infinite, as a z8 tile or as one bit in a mailbox, and never sets nf (02 R68; 07 R195, R196). -/
def Obligations.FunctionsAndTests : Prop :=
  ∀ (s : State) (d a : BitVec 4), (s.t a).clean →
    (∀ (fn : BitVec 3), isFloatCode (s.t a).fmt = true →
      let t := s.t a
      let x (r c : Nat) : FVal := fp32.read s.k.ftz (fp32.round .rne false s.k.ftz (t.val s.k.ftz r c)).bits
      let rounded (y : FVal) : Word32 := BitVec.ofNat 32 (fp32.round .rne false s.k.ftz y).bits
      ∃ u v e nf, exec (.tsfu d a fn) s = .next (u.advance true) ∧ SetsT s u d v nf false ∧ IsResult v 1 t.rext t.cext e
        ∧ (nf = true ↔ ∃ r c, r < t.rext ∧ c < t.cext ∧ (t.val s.k.ftz r c).isFinite = true
            ∧ ((x r c).isFinite = false ∨ (fp32.read false (e r c).toNat).isFinite = false))
        ∧ ∀ r c, r < t.rext → c < t.cext →
          ((x r c).isNan = true → e r c = 0x7FC00000)
          ∧ (fn = 0 → e r c = rounded (FVal.div (.fin false 1 0) (x r c)))
          ∧ (fn = 1 → e r c = rounded (x r c).sqrt)
          ∧ (fn = 2 → ((x r c).isZero = true → e r c = if (x r c).sign then 0xFF800000 else 0x7F800000)
            ∧ ((x r c).isNan = false → (x r c).isZero = false → (x r c).sign = true → e r c = 0x7FC00000) ∧ (x r c = .inf false → e r c = 0))
          ∧ (fn = 3 → ((x r c).isZero = true → e r c = 0x3F800000) ∧ (x r c = .inf true → e r c = 0) ∧ (x r c = .inf false → e r c = 0x7F800000)
            ∧ ((x r c).isNan = false → (x r c).lt (FVal.ofInt 128) = false → e r c = 0x7F800000)
            ∧ ((x r c).isNan = false → (FVal.ofInt (-150)).lt (x r c) = false → e r c = 0))
          ∧ (fn = 4 → (x r c = fp32.read false 0x3F800000 → e r c = 0)
            ∧ ((x r c).isZero = true → e r c = 0xFF800000)
            ∧ ((x r c).isNan = false → (x r c).isZero = false → (x r c).sign = true → e r c = 0x7FC00000))
          ∧ (fn = 5 → ((x r c).isZero = true → e r c = if (x r c).sign then 0x80000000 else 0) ∧ (x r c = .inf false → e r c = 0x3F800000) ∧ (x r c = .inf true → e r c = 0xBF800000))
          ∧ (fn = 6 ∨ fn = 7 → x r c = .inf false ∨ x r c = .inf true → e r c = 0x7FC00000)
          ∧ ∀ g m p k, x r c = .fin g m p → m * 2 ^ (p + 149).toNat = k * 2 ^ 148 →
            (fn = 6 → e r c = if k % 2 = 0 then (if g then 0x80000000 else 0) else if (k % 4 = 3) ↔ (g = true) then 0x3F800000 else 0xBF800000)
            ∧ (fn = 7 → e r c = if k % 2 = 1 then 0 else if k % 4 = 0 then 0x3F800000 else 0xBF800000))
    ∧ (isFloatCode (s.t a).fmt = true ∨ isIntCode (s.t a).fmt = true →
      let bad (r c : Nat) : Prop := isFloatCode (s.t a).fmt = true ∧ ((s.t a).val false r c).isFinite = false
      (∃ u v e, exec (.tnf d a 0) s = .next (u.advance true) ∧ SetsT s u d v false false ∧ IsResult v 0x0D (s.t a).rext (s.t a).cext e
        ∧ ∀ r c, r < (s.t a).rext → c < (s.t a).cext → (bad r c → e r c = 1) ∧ (¬bad r c → e r c = 0))
      ∧ (d.toNat < 8 → ∃ u n, exec (.tnf d a 1) s = .next (u.advance true)
        ∧ SetsM s u (d.setWidth 3) n true (s.mbox (d.setWidth 3)).full
        ∧ n.toNat ≤ 1 ∧ (n = 1 ↔ ∃ r c, r < (s.t a).rext ∧ c < (s.t a).cext ∧ bad r c)))

/-- smpl writes one token record, beside the pinned version and the partition, and sets no flag but mov. The token is 0xFFFF_FFFF with the
flag that says why, or the flat index that the generator's value chooses: the first candidate whose running sum of weights exceeds the
threshold, and without one the last whose weight is not zero (07 R197 to R200). -/
def Obligations.Sampling : Prop :=
  ∀ (s : State) (m : BitVec 3) (a : BitVec 4) (x : BitVec 5), isFloatCode (s.t a).fmt = true → (s.t a).clean → (s.t a).rext ≤ 32 →
    (s.t a).cext ≤ 32 →
    let cand (r c : Nat) : FVal := fp32.read s.k.ftz (fp32.round .rne false s.k.ftz ((s.t a).val s.k.ftz r c)).bits
    let inside (r c : Nat) : Prop := r < (s.t a).rext ∧ c < (s.t a).cext
    ∃ u v, Completes (.smpl m a x) s u true ∧ SetsM s u m v true (s.mbox m).full
      ∧ bits v 47 32 = (if s.k.pinned then s.k.pinVer.toNat else 0) ∧ bits v 55 48 = s.part.toNat
      ∧ v.getLsbD 56 = s.k.pinned ∧ bits v 63 59 = 0
      ∧ (v.getLsbD 57 = true ↔ ∃ r c, inside r c ∧ ((cand r c).isNan = true ∨ cand r c = .inf false))
      ∧ (v.getLsbD 58 = true ↔ v.getLsbD 57 = false ∧ ∀ r c, inside r c → cand r c = .inf true)
      ∧ (v.getLsbD 57 = true ∨ v.getLsbD 58 = true → bits v 31 0 = 2 ^ 32 - 1)
      ∧ (v.getLsbD 57 = false → v.getLsbD 58 = false → inside (bits v 31 0 / 32) (bits v 31 0 % 32))
      ∧ (v.getLsbD 57 = false → v.getLsbD 58 = false →
        let cols := (s.t a).cext
        let n := (s.t a).rext * cols
        let l (k : Nat) : FVal := cand (k / cols) (k % cols)
        let flat (k : Nat) : Nat := 32 * (k / cols) + k % cols
        ∀ mx : FVal, (∃ k, k < n ∧ l k = mx) → (∀ k, k < n → mx.below (l k) = false) →
        let p (k : Nat) : FVal := weightOf s.k.ftz mx (l k)
        let sum := runningSum s.k.ftz p
        let u24 := draw24 (s.x x) ((s.x (x + 1)).extractLsb' 32 32) ((s.x (x + 1)).setWidth 32)
        let thr := nearest32 s.k.ftz (FVal.mul (.fin false u24 (-24)) (sum n))
        (∀ k, k < n → thr.lt (sum (k + 1)) = true → (∀ j, j < k → thr.lt (sum (j + 1)) = false) → bits v 31 0 = flat k)
        ∧ ((∀ k, k < n → thr.lt (sum (k + 1)) = false) → ∀ k, k < n → (p k).isZero = false →
          (∀ j, k < j → j < n → (p j).isZero = true) → bits v 31 0 = flat k))

/-! Matrix instructions. -/

/-- mma and mmz: with operands of R155, the accumulator in the format of the result, and KB equal to K, each element is the exact integer
sum modulo 2^32, or the grouped floating-point sum of R62 from the accumulator; with K 0 it is the accumulator (06 R155 to R157; 02
R62 to R65). -/
def Obligations.MatrixResults : Prop :=
  ∀ (s : State) (d a b c : BitVec 4) (stk bc : BitVec 1) (acc : Bool),
    let i : Instr := if acc then .mma d a b c stk bc else .mmz d a b stk bc
    let A := s.t a
    let B := s.t b
    let C := s.t c
    depthOf B bc = A.cext → (bc = 0 → B.scl = false) → A.clean → (∀ n, n < (if bc = 0 then A.cext else widthIn B bc) → B.bad n = false) →
    (acc = true → ∀ n, n < A.rext → C.bad n = false) →
    (isFloatCode A.fmt = true → isFloatCode B.fmt = true → (acc = true → C.fmt = 1) →
      let cin (r n : Nat) : Word32 := if acc then C.elem r n else 0
      let out (r n : Nat) : Nat := rne32Bits s.k.ftz (accumulate s.k.ftz (matrixGroup A.fmt B.fmt) (fp32.read s.k.ftz (cin r n).toNat)
        (List.zipWith FVal.mul (matrixLeft A s.k.ftz r) (matrixRight B s.k.ftz bc A.cext n)))
      ∃ u v nf, Completes i s u true ∧ SetsT s u d v nf false
        ∧ IsResult v 1 A.rext (widthIn B bc) (fun r n => if A.cext = 0 then cin r n else BitVec.ofNat 32 (out r n))
        ∧ (nf = true ↔ ∃ r n, r < A.rext ∧ n < widthIn B bc ∧ A.cext ≠ 0 ∧ (fp32.read s.k.ftz (cin r n).toNat).isFinite = true
            ∧ (∀ x ∈ matrixLeft A s.k.ftz r ++ matrixRight B s.k.ftz bc A.cext n, x.isFinite = true)
            ∧ (fp32.read false (out r n)).isFinite = false))
    ∧ (A.fmt ∈ [0x09#5, 0x0A#5, 0x0D#5] → B.fmt ∈ [0x09#5, 0x0A#5, 0x0D#5] → (acc = true → C.fmt = 0x0C) →
      ∃ u v iov, Completes i s u true ∧ SetsT s u d v false iov
        ∧ IsResult v 0x0C A.rext (widthIn B bc) (fun r n => BitVec.ofInt 32 (matrixSum A B C acc bc r n))
        ∧ (iov = true ↔ ∃ r n, r < A.rext ∧ n < widthIn B bc ∧ outside32 0x0C (matrixSum A B C acc bc r n)))

/-- mmg is mmz with a gathered block as A and tc as the accumulator: the gathered rows placed in a tile give the product that mma of
that tile would give, with the same sticky flags (06 R160, R161). -/
def Obligations.GatheredProduct : Prop :=
  ∀ (s t : State) (d ti b c : BitVec 4) (stk bc : BitVec 1) (hint : BitVec 2) (xp : BitVec 5) (rows : List RowData),
    let p := s.x xp
    let sh := s.x (xp + 1)
    let A := placeRows (ptrFmt p) (ptrBlock p != 0) false (shRows sh) (shCols sh) rows none
    tagOk p = true → (ptrBlock p = 16 → shCols sh ≤ 16) → isIntCode (s.t ti).fmt = true → shRows sh ≤ 32 → shCols sh ≤ 32 →
    depthOf (s.t b) bc = shCols sh → (bc = 0 → (s.t b).scl = false) →
    s.gather p sh (s.t ti) (shRows sh) (shCols sh) hint = .ok (rows, t) → A.clean → (shRows sh ≠ 0 → (s.t ti).bad 0 = false) →
    (∀ n, n < (if bc = 0 then A.cext else widthIn (s.t b) bc) → (s.t b).bad n = false) → (∀ n, n < A.rext → (s.t c).bad n = false) →
    (isFloatCode A.fmt = true ∧ isFloatCode (s.t b).fmt = true ∧ (s.t c).fmt = 1)
      ∨ (A.fmt ∈ [0x09#5, 0x0A#5, 0x0D#5] ∧ (s.t b).fmt ∈ [0x09#5, 0x0A#5, 0x0D#5] ∧ (s.t c).fmt = 0x0C) →
    ∃ u v nf iov, Completes (.mmg d ti b c stk bc hint xp) s u true ∧ SetsT t u d v nf iov
      ∧ (∀ a, a ≠ b → a ≠ c → ∃ w, Completes (.mma d a b c stk bc) (t.setT a A) w true ∧ w.t d = v ∧ w.k.sticky = u.k.sticky)

/-- tadw completes on operands of R163: it writes both moments and the new weights as the pseudocode of R164 says, each operation rounded once,
with the special values of R165: a quotient by zero, operands that are not finite, and a difference that is exactly zero. nf is set when an output
is not finite and everything that fed it was finite. The gradient tile and every other register stay (06 R163 to R165). -/
def Obligations.WeightUpdate : Prop :=
  ∀ (s : State) (d a b c : BitVec 4) (xh : BitVec 5), wellFormed (.tadw d a b c xh) = true →
    let G := s.t a
    let ftz := s.k.ftz
    ((G.fmt = 1 ∨ G.fmt = 2 ∨ G.fmt = 3) ∧ G.scl = false ∧ G.clean) →
    (∀ r ∈ [d, b, c], (s.t r).fmt = 1 ∧ (s.t r).rext = G.rext ∧ (s.t r).cext = G.cext ∧ (s.t r).clean) →
    let scalar (v : Word64) (hi : Bool) : FVal := fp32.read ftz (if hi then v.extractLsb' 32 32 else v.setWidth 32).toNat
    let lr := scalar (s.x xh) false
    let eps := scalar (s.x xh) true
    let b1 := scalar (s.x (xh + 1)) false
    let b2 := scalar (s.x (xh + 1)) true
    let word (x : FVal) : Word32 := BitVec.ofNat 32 (fp32.round .rne false ftz x).bits
    let rne (x : FVal) : FVal := fp32.read false (word x).toNat
    let c1 := rne (FVal.add false (.fin false 1 0) b1.neg)
    let c2 := rne (FVal.add false (.fin false 1 0) b2.neg)
    let g (i j : Nat) : FVal := G.val ftz i j
    let m (i j : Nat) : FVal := (s.t b).val ftz i j
    let v (i j : Nat) : FVal := (s.t c).val ftz i j
    let w (i j : Nat) : FVal := (s.t d).val ftz i j
    let mn (i j : Nat) : FVal := rne (FVal.add false (FVal.mul b1 (m i j)) (FVal.mul c1 (g i j)))
    let vn (i j : Nat) : FVal := rne (FVal.add false (FVal.mul b2 (v i j)) (FVal.mul (FVal.mul c2 (g i j)) (g i j)))
    let q (i j : Nat) : FVal := rne (FVal.add false (rne (vn i j).sqrt) eps)
    let step (i j : Nat) : FVal := FVal.mul lr (mn i j)
    let infinite (e : Word32) : Prop := (fp32.read false e.toNat).isFinite = false
    ∃ (u : State) (e : Nat → Nat → Word32) (nf : Bool), exec (.tadw d a b c xh) s = .next (u.advance true)
      ∧ IsResult (u.t d) 1 G.rext G.cext e
      ∧ IsResult (u.t b) 1 G.rext G.cext (fun i j => word (mn i j))
      ∧ IsResult (u.t c) 1 G.rext G.cext (fun i j => word (vn i j))
      ∧ (∀ i j, i < G.rext → j < G.cext →
        ((w i j).isFinite = true → (step i j).isFinite = true → (q i j).isFinite = true → (q i j).isZero = false →
          (FVal.add false (FVal.mul (w i j) (q i j)) (step i j).neg).isZero = false →
          e i j = word (FVal.div (FVal.add false (FVal.mul (w i j) (q i j)) (step i j).neg) (q i j)))
        ∧ ((w i j).isFinite = true → (step i j).isFinite = true → (q i j).isFinite = true → (q i j).isZero = false →
          (FVal.add false (FVal.mul (w i j) (q i j)) (step i j).neg).isZero = true →
          e i j = if (step i j).isZero = true ∧ (w i j).sign = true ∧ (step i j).sign = (q i j).sign then 0x80000000 else 0)
        ∧ ((q i j).isZero = false → (w i j).isFinite = false ∨ (step i j).isFinite = false ∨ (q i j).isFinite = false →
          e i j = word (FVal.add false (w i j) (FVal.div (step i j) (q i j)).neg))
        ∧ ((q i j).isZero = true → (step i j).isZero = true ∨ (step i j).isNan = true → e i j = 0x7FC00000)
        ∧ ((q i j).isZero = true → (step i j).isZero = false → (step i j).isNan = false →
          e i j = word (FVal.add false (w i j) (.inf (!(step i j).sign)))))
      ∧ (nf = true ↔ ∃ i j, i < G.rext ∧ j < G.cext ∧ (g i j).isFinite = true
          ∧ ((infinite (word (mn i j)) ∧ b1.isFinite = true ∧ (m i j).isFinite = true)
            ∨ (infinite (word (vn i j)) ∧ b2.isFinite = true ∧ (v i j).isFinite = true)
            ∨ (infinite (e i j) ∧ lr.isFinite = true ∧ eps.isFinite = true ∧ b1.isFinite = true ∧ b2.isFinite = true ∧ (m i j).isFinite = true
              ∧ (v i j).isFinite = true ∧ (w i j).isFinite = true)))
      ∧ u.k.sticky = s.k.sticky ||| (if nf then 1 else 0)
      ∧ (∀ r, r ∉ [d, b, c] → u.t r = s.t r) ∧ u.blankT.blankSticky = s.blankT.blankSticky

/-! Scalar loads and stores. -/

/-- ld, ldz and ld.acq: a load that lies within the youngest overlapping store of the buffer takes that store's bytes; one that no older store
overlaps, at its own address or at another one of the same bytes, and on a device page no older device store, takes the bytes that memory shows
through the L1, or at .dev and .sys those at the home; on an uncached or device page those of memory itself. The value goes to the register or the
pair, and nothing but what translating and caching leave behind changes (01 R30; 05 R148, R149, R151; 10 R264; 11 R274, R281, R289). -/
def Obligations.LoadResults : Prop :=
  ∀ (i : Instr) (s : State) (d a : BitVec 5) (sz : BitVec 3) (off : BitVec 12) (signed : Bool) (scope : BitVec 2) (m : XMap),
    loadForm i = some (d, a, sz, off, signed, scope) → wellFormed i = true → s.core.service = none → s.Inv →
    let ea := addrOf (s.x a + off.signExtend 64)
    let n := 2 ^ sz.toNat
    ea + n ≤ 2 ^ 56 → s.access .read false [(ea, n)] (decide (2 ≤ scope.toNat)) = .ok m →
    (∀ e, m.allCached = true → scope.toNat < 2 → youngestOverlap s.core.sb ea n (m.runs ea n) = some e → e.kind.isScalar = true → e.cached = true →
      e.va ≤ ea → ea + n ≤ e.va + e.len →
      let data := (((e.writes.map (·.2)).flatten.drop (ea - e.va)).take n)
      ∃ u, Completes i s u ∧ Accesses s u m (loadedX s d n signed (leNat data)))
    ∧ ((∀ e ∈ s.core.sb ++ s.core.unacked, overlap e.va e.len ea n = false ∧ e.meets (m.runs ea n) = false ∧ (m.device = true → e.device = false)) →
      let t := if scope.toNat < 2 then s else ((m.runs ea n).map (fun r => linesOf r.pa r.len)).flatten.foldl State.writeBackLine s
      let path : LoadPath := if scope.toNat < 2 then .cache else .home
      (∀ k, k < n → t.loadBad m path (ea + k) = false) →
      let cacheable (va : Nat) : Bool := ((m.leaf va).map (fun x => x.attr == 0)).getD false
      let byte (va : Nat) : Byte :=
        if cacheable va = false then t.memByte (m.pa va) else if scope.toNat < 2 then s.cacheByte (m.pa va) else t.mem.read (m.pa va)
      ∃ u, Completes i s u ∧ Accesses s u m (loadedX s d n signed (leNat ((List.range n).map (fun k => byte (ea + k))))))

/-- st and st.rel retire into the store buffer behind the older stores as one entry, whose bytes at their physical addresses are those of the
register or the pair, those of cacheable pages apart from the others; no register changes and no byte yet (01 R27; 05 R148 to R151; 08
R213; 10 R264). -/
def Obligations.StoreRetirement : Prop :=
  ∀ (i : Instr) (s : State) (r a : BitVec 5) (sz : BitVec 3) (off : BitVec 12) (kind : SbKind) (m : XMap),
    storeForm i = some (r, a, sz, off, kind) → wellFormed i = true → s.core.service = none → s.Inv →
    let ea := addrOf (s.x a + off.signExtend 64)
    let n := 2 ^ sz.toNat
    let data := storedBytes s r n
    let cacheable (va : Nat) : Bool := ((m.leaf va).map (fun x => x.attr == 0)).getD false
    ea + n ≤ 2 ^ 56 → s.access .write false [(ea, n)] = .ok m → s.scalarStores < 32 →
    ∃ u e, Completes i s u ∧ u.core.sb = s.core.sb ++ [e] ∧ e.kind = kind ∧ e.va = ea ∧ e.len = n ∧ e.Mine s ∧ e.poison = []
      ∧ (∀ k, k < n → (m.pa (ea + k), data.getD k 0) ∈ cellsOf (if cacheable (ea + k) then e.writes else e.raw))
      ∧ (cellsOf e.writes).length + (cellsOf e.raw).length = n
      ∧ (m.allCached = true → e.cached = true ∧ e.raw = [] ∧ cellsOf e.writes = m.cells (ea, data))
      ∧ u.blankMem = s.blankMem ∧ ∀ b, m.spares b → u.newest b = s.newest b

/-- An access that ends beyond the address space is ADDR_RANGE with its address; one whose translation fails takes the cause of the lowest
failing page, with its lowest accessed byte, and nothing else happens: where an access crosses into a second page, that of the first page
when it fails, whatever the second does, and else that of the second, at its base. One whose home does not yet take the request waits (05
R144, R145, R149; 10 R263, R264, R266; 16 R406). -/
def Obligations.AccessTraps : Prop :=
  ∀ (i : Instr) (s : State) (r a : BitVec 5) (sz : BitVec 3) (off : BitVec 12) (acc : Access),
    ((∃ g sc, loadForm i = some (r, a, sz, off, g, sc)) ∧ acc = .read) ∨ ((∃ k, storeForm i = some (r, a, sz, off, k)) ∧ acc = .write) →
    let ea := addrOf (s.x a + off.signExtend 64)
    let n := 2 ^ sz.toNat
    let atHome : Bool := acc == .read && (s.core.service.isSome || (loadForm i).any (fun l => 2 ≤ l.2.2.2.2.2.toNat))
    (2 ^ 56 < ea + n → TrapsWith i s .addrRange (BitVec.ofNat 64 ea))
    ∧ (ea + n ≤ 2 ^ 56 → ∀ c v p, s.access acc false [(ea, n)] atHome = .error (.trap c v p) → TrapsWith i s c v)
    ∧ (ea + n ≤ 2 ^ 56 → ∀ k, s.access acc false [(ea, n)] atHome = .error (.wait k) → Waits i s k)
    ∧ (ea + n ≤ 2 ^ 56 → s.walkTaken acc ea = true →
      (∀ c, s.translate acc false ea = .error c → TrapsWith i s c (BitVec.ofNat 64 ea))
      ∧ ∀ x c, s.translate acc false ea = .ok x →
        let next := (ea / 4096 + 1) * 4096
        next < ea + n → ea / 2 ^ max 12 x.size ≠ next / 2 ^ max 12 x.size → s.walkTaken acc next = true →
        s.translate acc false next = .error c → TrapsWith i s c (BitVec.ofNat 64 next))
    ∧ (∀ va c, s.core.service = none → s.tlbHit s.part va acc = none → s.walk s.part va = .error c → s.translate acc false va = .error c)
    ∧ (∀ va x, s.core.service = none → s.tlbHit s.part va acc = none → s.walk s.part va = .ok x →
        let denied := (acc = .read ∧ x.pte.getLsbD 5 = false) ∨ (acc = .write ∧ x.pte.getLsbD 6 = false)
          ∨ (s.k.pl = 0 ∧ x.pte.getLsbD 8 = false)
        (denied → s.translate acc false va = .error .protection)
        ∧ (¬denied → acc = .write → x.pte.getLsbD 52 = true → s.translate acc false va = .error .berylWrite)
        ∧ (¬denied → acc = .read → s.translate acc false va = .ok x))

/-- The oldest retired store is performed: its bytes are then the newest, but in pool and table memory, which no store reaches, every
other byte is as it was, and it has left the buffer. A
posted reduction applies its function at the home to the newest value; a remote write leaves for its peer and waits for an answer, or is
dropped with a record when no link reaches the peer. Bytes of uncached and device pages go to memory. A release at .sys first waits for
older remote writes, and from .dev on no dirty byte stays behind. While a home does not take what the store asks of it, nothing happens (01
R27; 10 R264; 11 R280, R289, R292; 12 R296; 16 R406, R426, R427). -/
def Obligations.StoresArePerformed : Prop :=
  ∀ (s : State) (e : SbEntry) (rest : List SbEntry), s.core.sb = e :: rest → s.core.service = none → s.Inv →
    let dev (k : SbKind) : Bool := match k with
      | .release sc => 2 ≤ sc.toNat
      | .ared _ _ _ rel sc => rel && 2 ≤ sc.toNat
      | .rput rel => rel
      | _ => false
    let sys (k : SbKind) : Bool := match k with
      | .release sc => sc == 3
      | .ared _ _ _ rel sc => rel && sc == 3
      | .rput rel => rel
      | _ => false
    (sys e.kind = true → s.core.unacked = []) →
    (s.entryAccepted e = false → exec .storePerformed s = .next s ∧ exec .aredPerform s = .next s ∧ exec .rputSend s = .next s)
    ∧ (s.entryAccepted e = true →
    (∀ sc, e.kind = .scalar ∨ e.kind = .tile ∨ e.kind = .release sc →
      ∃ t, exec .storePerformed s = .next t ∧ t.core.sb = rest ∧ t.blankMem = s.blankMem
        ∧ (e.raw = [] → ∀ a, t.newest a = if s.inPool a 1 = true then s.newest a else (lastCell (cellsOf e.writes) a).getD (s.newest a))
        ∧ (e.writes = [] → dev e.kind = false → ∀ a, t.memByte a =
          if s.inPool a 1 = true then s.memByte a else (lastCell (cellsOf e.raw) a).getD (s.memByte a))
        ∧ (dev e.kind = true → t.core.l1.dirty = []))
    ∧ (∀ op n operand rel sc pa bs, e.kind = .ared op n operand rel sc → e.writes = [(pa, bs)] →
      ((linesOf pa n).foldl State.dropLine (if rel then s.releaseCache sc else s)).homeBad pa n = false →
      ∃ t, exec .aredPerform s = .next t ∧ t.core.sb = rest ∧ t.blankMem = s.blankMem
        ∧ ∀ a, t.newest a = if s.lands pa n a then byteOf (amoFn op n (s.newestNat pa n) (truncTo n operand) 0) (a - pa)
          else s.newest a)
    ∧ (∀ rel, e.kind = .rput rel →
      ((∀ w ∈ e.writes, s.cutOff w.1 = false) →
        ∃ t, exec .rputSend s = .next t ∧ t.core.sb = rest ∧ t.core.unacked = s.core.unacked ++ [e] ∧ (∀ a, t.newest a = s.newest a)
          ∧ ({ t with core.unacked := s.core.unacked } : State).blankMem = s.blankMem)
      ∧ ((∃ w ∈ e.writes, s.cutOff w.1 = true) →
        ∃ t, exec .rputSend s = .next t ∧ t.core.sb = rest ∧ t.core.unacked = s.core.unacked ∧ t.core.unit = s.core.unit
          ∧ ((t.partAt e.part).fhead = (s.partAt e.part).fhead + 1
            ∨ (t.partAt e.part).heldFaults.length = (s.partAt e.part).heldFaults.length + 1))))

/-- amo translates first, which sets ac and dt, and applies its function at the home: the destination receives the old value sign-extended, the
bytes hold the new one, but in pool and table memory (12 R296), and every other byte is as it was; ared retires into the store buffer and writes
no register. A misaligned address is ATOMIC_ALIGN (11 R290 to R292). The function f of 11 R290, operation by operation, on n-byte values: the sums
and the logic wrap to n bytes, the comparisons are signed or unsigned, cas writes only when the old value equals the comparand, and fadd rounds
once to fp32. -/
def Obligations.Atomics : Prop :=
  (∀ (s : State) (d a b : BitVec 5) (ord scope : BitVec 2) (sz : BitVec 1) (op : BitVec 4) (m : XMap),
    let ea := addrOf (s.x a)
    let n := if sz = 1 then 8 else 4
    let walked := s.touchAll .readWrite m
    let old := walked.newestNat (m.pa ea) n
    let new := amoFn op n old (truncTo n (s.x b)) (truncTo n (s.x d))
    s.Inv →
    (ea % n ≠ 0 → TrapsWith (.amo d a b ord scope sz op) s .atomicAlign (BitVec.ofNat 64 ea)
      ∧ TrapsWith (.ared a b ord scope sz op) s .atomicAlign (BitVec.ofNat 64 ea))
    ∧ (ea % n = 0 → s.access .readWrite true [(ea, n)] = .ok m →
      (Settled s → (ordRel ord = true → 2 ≤ scope.toNat → s.homesAccept s.dirtyLines = true) →
        ((linesOf (m.pa ea) n).foldl State.dropLine (if ordRel ord then walked.releaseCache scope else walked)).homeBad (m.pa ea) n
          = false →
        ∃ u, Completes (.amo d a b ord scope sz op) s u ∧ u.x d = (if d = 0 then 0 else BitVec.ofInt 64 (signedOf n old))
          ∧ (∀ r, r ≠ d → u.x r = s.x r) ∧ u.blankX.blankMem = s.blankX.blankMem ∧ u.core.sb = []
          ∧ ∀ q, m.spares q → u.newest q = if s.lands (m.pa ea) n q then byteOf new (q - m.pa ea) else s.newest q)
      ∧ (s.scalarStores < 32 →
        ∃ u e, Completes (.ared a b ord scope sz op) s u ∧ u.core.sb = s.core.sb ++ [e]
          ∧ e.kind = .ared op n (s.x b) (ordRel ord) scope ∧ e.va = ea ∧ e.len = n ∧ e.writes = [(m.pa ea, [])] ∧ e.Mine s
          ∧ u.blankMem = s.blankMem ∧ ∀ q, m.spares q → u.newest q = s.newest q)))
  ∧ (∀ (n old b cmp : Nat), (n = 4 ∨ n = 8) → old < 2 ^ (8 * n) → b < 2 ^ (8 * n) →
    let sgn (v : Nat) : Int := if 2 ^ (8 * n - 1) ≤ v then (v : Int) - 2 ^ (8 * n) else v
    amoFn 0 n old b cmp = (old + b) % 2 ^ (8 * n)
    ∧ sgn (amoFn 1 n old b cmp) = min (sgn old) (sgn b) ∧ sgn (amoFn 2 n old b cmp) = max (sgn old) (sgn b)
    ∧ amoFn 3 n old b cmp = min old b ∧ amoFn 4 n old b cmp = max old b
    ∧ amoFn 5 n old b cmp = old &&& b ∧ amoFn 6 n old b cmp = old ||| b ∧ amoFn 7 n old b cmp = old ^^^ b
    ∧ amoFn 8 n old b cmp = b ∧ amoFn 9 n old b cmp = (if old = cmp then b else old)
    ∧ amoFn 10 4 old b cmp = (fp32.round .rne false false (FVal.add false (fp32.read false old) (fp32.read false b))).bits)

/-- Fences and cache maintenance change no byte's newest value. From .dev on a release leaves no dirty byte in the L1 and an acquire no clean line
and no older copy; a release waits while a home does not take a dirty line, and so does the maintenance of a line; xfence ends the invalidations
of its source path; cwbr and cinv write back the lines of their range at its cacheable pages, and cinv drops them; an empty range does nothing. A
line that cinv.sys takes out of the L2 shows memory again, so the L2 is to hold no older clean copy (10 R246, R268, R269; 11 R280, R281, R288,
R293; 16 R406). -/
def Obligations.Fences : Prop :=
  ∀ (s : State) (scope : BitVec 2) (src dst : BitVec 3) (a b : BitVec 5), s.Inv →
    let keeps (u : State) : Prop := u.blankMem = s.blankMem ∧ (∀ q, u.newest q = s.newest q)
    let released (u : State) (sc : Nat) : Prop := 2 ≤ sc → u.core.l1.dirty = []
    let acquired (u : State) (sc : Nat) : Prop := 2 ≤ sc → u.core.l1.stale = []
      ∧ ∀ n ∈ u.core.l1.sectors, ∃ c ∈ u.core.l1.dirty, lineOf c.1 = sectorLine n
    let taken : Prop := s.homesAccept s.dirtyLines = true
    let va := addrOf (s.x a)
    let n := (s.x b).toNat
    (∃ u, Completes (.fenceAcq scope) s u ∧ keeps u ∧ acquired u scope.toNat ∧ u.core.sb = s.core.sb)
    ∧ (Settled s →
      ((2 ≤ scope.toNat → taken) →
        (∃ u, Completes (.fence scope) s u ∧ keeps u ∧ released u scope.toNat ∧ acquired u scope.toNat)
        ∧ (∃ u, Completes (.fenceRel scope) s u ∧ keeps u ∧ released u scope.toNat))
      ∧ (2 ≤ scope.toNat → ¬taken → Waits (.fence scope) s .other ∧ Waits (.fenceRel scope) s .other)
      ∧ ((src = 0 → taken) → ∃ u, Completes (.xfence src dst) s u ∧ keeps u ∧ (src = 0 → released u 2) ∧ (dst = 0 → acquired u 2)
          ∧ (src ≠ 0 → ∀ e ∈ u.core.invals, e.2 ≠ pathOf src))
      ∧ (s.x b = 0 → Completes (.cwbr a b scope) s s ∧ Completes (.cinv a b scope) s s)
      ∧ (2 ^ 56 < va + n → s.x b ≠ 0 →
          TrapsWith (.cwbr a b scope) s .addrRange (BitVec.ofNat 64 va) ∧ TrapsWith (.cinv a b scope) s .addrRange (BitVec.ofNat 64 va))
      ∧ (∀ m, s.x b ≠ 0 → va + n ≤ 2 ^ 56 → s.rangeBlocks none (blockCount va n) va = .ok m →
          (∀ c v p, s.physCheck false m (m.map (fun e => max va (e.1 * 4096))) = .error (.trap c v p) →
            TrapsWith (.cwbr a b scope) s c v ∧ TrapsWith (.cinv a b scope) s c v)
          ∧ (s.physCheck false m (m.map (fun e => max va (e.1 * 4096))) = .ok () →
            let lows := m.map (fun e => max va (e.1 * 4096))
            let lines := ((m.filter (fun e => e.2.attr == 0)).map (fun e =>
              linesOf (m.pa (max va (e.1 * 4096))) (min (va + n) ((e.1 + 1) * 4096) - max va (e.1 * 4096)))).flatten
            let ready := lows.all (s.walkTaken .read) && s.homesAccept lines
            (ready = false → Waits (.cwbr a b scope) s .other ∧ Waits (.cinv a b scope) s .other)
            ∧ (ready = true → (scope = 3 → ∀ l ∈ s.dev.hier.l2, l.dirty = false → l.under = none) →
            let inRange (pa : Nat) : Prop := ∃ q x, va ≤ q ∧ q < va + n ∧ m.leaf q = some x ∧ x.attr = 0 ∧ m.pa q = pa
            ∃ u v, Completes (.cwbr a b scope) s u ∧ Accesses s u m s.x ∧ Completes (.cinv a b scope) s v ∧ Accesses s v m s.x
              ∧ (2 ≤ scope.toNat → ∀ pa, inRange pa → cellAt u.core.l1.dirty pa = none ∧ cellAt v.core.l1.dirty pa = none
                ∧ ∀ n ∈ v.core.l1.sectors, sectorLine n ≠ lineOf pa)))))

/-! Remote accesses. -/

/-- rget and ramo ask the peer whose aperture holds the address and wait; with the answer they complete: the value goes to the register.
A refusal is PROTECTION and a failure MACHINE_CHECK, each with the address. rput retires into the store buffer (16 R424, R426, R427). -/
def Obligations.RemoteAccesses : Prop :=
  ∀ (s : State) (d a b : BitVec 5) (acq rel : BitVec 1) (sz : BitVec 2) (ord : BitVec 2) (w : BitVec 1) (op : BitVec 4) (m : XMap),
    s.Inv →
    let ea := addrOf (s.x a)
    let reach (acc : Access) (n : Nat) : Prop := ea % n = 0 ∧ s.translateBlocks acc true (blocksOf ea n) = .ok m
      ∧ (s.peerOf (m.pa ea)).isSome = true
    let get : Instr := .rget d a acq sz
    let atom : Instr := .ramo d a b ord w op
    let n := 2 ^ sz.toNat
    let k := if w = 1 then 8 else 4
    (ea % n ≠ 0 → TrapsWith get s .atomicAlign (BitVec.ofNat 64 ea) ∧ TrapsWith (.rput a b rel sz) s .atomicAlign (BitVec.ofNat 64 ea))
    ∧ (reach .read n →
      (s.core.reply = none → s.core.remote = none → Settled s → ((s.peerOf (m.pa ea)).map s.reachable) = some true →
        exec get s = .next { s with core.remote := some ⟨ea, m.pa ea, .get n⟩, core.wait := .other })
      ∧ (s.core.reply = none → s.core.remote = none → Settled s → ((s.peerOf (m.pa ea)).map s.reachable) = some false →
        TrapsWith get s .machineCheck (BitVec.ofNat 64 ea))
      ∧ (∀ v, s.core.reply = some (.value v) →
        ∃ u, Completes get s u ∧ Accesses s.answered u m (fun r => if r = d ∧ d ≠ 0 then BitVec.ofNat 64 (v.toNat % 2 ^ (8 * n)) else s.x r))
      ∧ (s.core.reply = some .refused → TrapsWith get s .protection (BitVec.ofNat 64 ea))
      ∧ (∀ r, s.core.reply = some r → r ≠ .refused → r ≠ .ack → (∀ v, r ≠ .value v) → TrapsWith get s .machineCheck (BitVec.ofNat 64 ea)))
    ∧ (reach .readWrite k →
      (s.core.reply = none → s.core.remote = none → Settled s → s.core.l1.dirty = [] →
        ((s.peerOf (m.pa ea)).map s.reachable) = some true →
        exec atom s = .next { s with core.remote := some ⟨ea, m.pa ea, .atomic op k (s.x b) (s.x d)⟩, core.wait := .other })
      ∧ (∀ v, s.core.reply = some (.value v) →
        ∃ u, Completes atom s u
          ∧ Accesses s.answered u m (fun r => if r = d ∧ d ≠ 0 then BitVec.ofInt 64 (signedOf k (v.toNat % 2 ^ (8 * k))) else s.x r))
      ∧ (s.core.reply = some .refused → TrapsWith atom s .protection (BitVec.ofNat 64 ea)))
    ∧ (reach .write n → s.scalarStores < 32 →
      ∃ u e, Completes (.rput a b rel sz) s u ∧ u.core.sb = s.core.sb ++ [e] ∧ e.kind = .rput (rel == 1) ∧ e.va = ea ∧ e.len = n
        ∧ e.writes = [(m.pa ea, leBytes n (s.x b).toNat)] ∧ e.Mine s ∧ u.blankMem = s.blankMem
        ∧ ∀ q, m.spares q → u.newest q = s.newest q)

/-! Tile memory. -/

/-- tld, tlds and tldi place each memory row in the tile, element by element and scale by scale, a transposing load turned, in the format
of the pointer; a row of tldi lies at the index times the stride from the base; an xe4 load places its decoded row-blocks as fp8e4. The
pointer advances when the word says so, and no other register changes (05 R131, R132, R135, R137, R138, R142, R143). That a tldi of rows
without columns has no window to keep is the model's choice (log entry 64). -/
def Obligations.TileLoads : Prop :=
  ∀ (s : State) (d ti : BitVec 4) (a b : BitVec 5) (ai tr : BitVec 1) (hint esrc : BitVec 2) (dir half : BitVec 1), s.Inv →
    let p := s.x a
    let sh := s.x b
    let f := ptrFmt p
    let scl : Bool := ptrBlock p != 0
    let addr := addrOf p
    let sz := shapeOf esrc (tr == 1) (shRows sh) (shCols sh) (s.t d)
    let sp := rowSpan f (ptrBlock p) (half == 1) sz.mc
    let len := rangeLen sp (shStride sh) sz.mr sz.mc
    let ras := rowAddrs addr (shStride sh) sz.mr
    let turned (e : Nat → Nat → Word32) (i j : Nat) : Word32 := if tr = 1 then e j i else e i j
    needShape esrc p sh = .ok () →
    (∀ m, f ≠ xe4 → needPointer p (half == 1) (tr == 1) true sz.mc = .ok () → addr + len ≤ 2 ^ 56 →
      s.access .read true (ras.map (rowRanges sp sz.mc)).flatten = .ok m → Settled s → s.readable m →
      ∃ u, Completes (.tld d a b ai tr hint esrc dir half) s u true ∧ (∀ q, m.spares q → u.newest q = s.newest q)
        ∧ LoadsTile s u d f scl sz.rext sz.cext
            (turned (fun i j => rowElem (s.seen m) f sp (addr + i * shStride sh) j))
            (fun i => if sz.mc = 0 then 0 else rowScale (s.seen m) sp (addr + i * shStride sh)) (autoStep a b ai dir p sh sz))
    ∧ (needPointer p (half == 1) (tr == 1) false sz.mc = .ok () → len = 0 ∨ addr + len ≤ 2 ^ 19 →
      s.needLocalFree addr len = .ok () → s.core.lsPoison = [] →
      ∃ u, Completes (.tlds d a b ai tr esrc dir half) s u true ∧ u.blankX.blankT = s.blankX.blankT
        ∧ LoadsTile s u d f scl sz.rext sz.cext
            (turned (fun i j => rowElem s.core.ls.read f sp (addr + i * shStride sh) j))
            (fun i => if sz.mc = 0 then 0 else rowScale s.core.ls.read sp (addr + i * shStride sh)) (autoStep a b ai dir p sh sz))
    ∧ (∀ m, tr = 0 → half = 0 → needPointer p false false false sz.mc = .ok () → isIntCode (s.t ti).fmt = true →
      let row (i : Nat) : Nat := (((addr : Int) + (s.t ti).int 0 i * (shStride sh : Int)) % (2 ^ 56 : Int)).toNat
      addr + shAux sh * 4096 ≤ 2 ^ 56 →
      (∀ i, i < sz.mr → shAux sh ≠ 0 → sz.mc ≠ 0 → addr ≤ row i ∧ row i + sp.len ≤ addr + shAux sh * 4096) →
      s.access .read true (((List.range sz.mr).map row).map (rowRanges sp sz.mc)).flatten = .ok m → Settled s → s.readable m →
      (sz.mr ≠ 0 → (s.t ti).bad 0 = false) →
      ∃ u, Completes (.tldi d a b ai hint esrc dir ti) s u true ∧ (∀ q, m.spares q → u.newest q = s.newest q)
        ∧ LoadsTile s u d f scl sz.rext sz.cext (fun i j => rowElem (s.seen m) f sp (row i) j)
            (fun i => if sz.mc = 0 then 0 else rowScale (s.seen m) sp (row i)) (autoStep a b ai dir p sh sz))
    ∧ (∀ rows ranges, f = xe4 → tr = 0 → needPointer p (half == 1) false true sz.mc = .ok () → Settled s → sz.mr ≠ 0 → sz.mc ≠ 0 →
      max (addr + 4 * (shStride sh + (sz.mr - 1) * shAux sh) + 4) (addr + 2 ^ 32 + 141) ≤ 2 ^ 56 →
      s.xeRows p sh sz = .ok (rows, ranges) → (∀ r ∈ rows, r.bad = false) →
      ∃ u, Completes (.tld d a b ai tr hint esrc dir half) s u true
        ∧ LoadsTile s u d 0x04 scl sz.rext sz.cext (fun i j => ((rows.map (·.elems)).getD i []).getD j 0)
            (fun i => (rows.map (·.scale)).getD i 0) (autoStep a b ai dir p sh sz))

/-- tst retires one entry whose bytes are the packed elements of each row, zero-padded, and its scale byte, at the addresses of the rows;
tsts writes them into the local store at once, a later row over an earlier one. That a row without elements has its scale byte alone is the
model's reading (log entry 41). Reading an element back from packed bytes gives its container (02 R47; 05 R132, R138, R140 to R142). -/
def Obligations.TileStores : Prop :=
  (∀ (f : BitVec 5) (es : List Word32) (j : Nat) (e : Word32), es[j]? = some e →
    (unpackElem f (packRow f es) j).toNat = e.toNat % 2 ^ widthOf f)
  ∧ ∀ (s : State) (r : BitVec 4) (a b : BitVec 5) (ai : BitVec 1) (hint esrc : BitVec 2) (dir half : BitVec 1), s.Inv →
    let p := s.x a
    let sh := s.x b
    let t := s.t r
    let f := ptrFmt p
    let addr := addrOf p
    let sz := shapeOf esrc false (shRows sh) (shCols sh) t
    let sp := rowSpan f (ptrBlock p) (half == 1) sz.mc
    let len := rangeLen sp (shStride sh) sz.mr sz.mc
    let last := if sz.mr = 0 then 0 else addr + (sz.mr - 1) * shStride sh + sp.len
    let row (i : Nat) : List (Nat × List Byte) :=
      (if sz.mc = 0 then [] else [(addr + i * shStride sh + sp.elemOff, packRow f ((List.range sz.mc).map (t.elem i)))])
        ++ (sp.scaleOff.toList.map (fun o => (addr + i * shStride sh + o, [if t.scl then t.scaleAt i else 0x7F])))
    let writes := ((List.range sz.mr).map row).flatten
    needPointer p (half == 1) false false sz.mc = .ok () → needShape esrc p sh = .ok () →
    (f = 0 ∨ (f = t.fmt ∧ (t.scl = true → ptrBlock p ≠ 0))) →
    (∀ m, last ≤ 2 ^ 56 → s.access .write true ((rowAddrs addr (shStride sh) sz.mr).map (rowBytes sp)).flatten = .ok m →
      ∃ u, Completes (.tst r a b ai hint esrc dir half) s u true ∧ (∀ x, u.x x = steppedX s (autoStep a b ai dir p sh sz) x)
        ∧ u.blankX.blankMem = s.blankX.blankMem ∧ (∀ q, m.spares q → u.newest q = s.newest q)
        ∧ (writes = [] → u.core.sb = s.core.sb)
        ∧ (writes ≠ [] → ∃ e, u.core.sb = s.core.sb ++ [e] ∧ e.kind = .tile ∧ e.va = addr ∧ e.len = len ∧ e.cached = true ∧ e.Mine s
            ∧ e.raw = [] ∧ cellsOf e.writes = (writes.map m.cells).flatten ∧ (t.poison = 0 → e.poison = [])))
    ∧ (last ≤ 2 ^ 19 → s.needLocalFree addr len = .ok () →
      ∃ u, Completes (.tsts r a b ai esrc dir half) s u true ∧ (∀ x, u.x x = steppedX s (autoStep a b ai dir p sh sz) x)
        ∧ (∀ o, u.core.ls.read o = (lastCell (cellsOf writes) o).getD (s.core.ls.read o))
        ∧ (t.poison = 0 → ∀ g ∈ u.core.lsPoison, g ∈ s.core.lsPoison)
        ∧ ({ u with core.ls := s.core.ls, core.lsPoison := s.core.lsPoison } : State).blankX = s.blankX)

/-! Beryl. -/

/-- bref and brel change one count of one block, that of the unit's partition: bref adds 1 up to the immortal count, brel takes 1 away
unless the count is immortal, and a block whose counts are all 0 is queued once. The null name has no count. vsw.drop ends the unit's
pin and writes 0 (12 R297, R298, R301, R302, R308, R310, R315). -/
def Obligations.BerylReferences : Prop :=
  ∀ (s : State) (a d : BitVec 5) (rg : BitVec 4), s.Inv →
    let n := s.x (a + 1) ++ s.x a
    let p := s.part
    ((s.region rg).usable p = false → Settled s →
      TrapsWith (.bref a rg) s .berylRegion (rg.zeroExtend 64) ∧ TrapsWith (.brel a rg) s .berylRegion (rg.zeroExtend 64))
    ∧ ((s.region rg).usable p = true → Settled s →
      (n = 0 → Completes (.bref a rg) s s ∧ Completes (.brel a rg) s s)
      ∧ (n ≠ 0 → s.beryl.find rg n = none →
        TrapsWith (.bref a rg) s .berylName (n.setWidth 64) ∧ TrapsWith (.brel a rg) s .berylName (n.setWidth 64))
      ∧ (∀ k, n ≠ 0 → s.beryl.find rg n = some k →
        (∃ u, Completes (.bref a rg) s u ∧ { u with beryl := s.beryl } = s ∧ u.beryl.queue = s.beryl.queue
          ∧ (∀ g m, (g, m) ≠ (rg, n) → u.beryl.find g m = s.beryl.find g m)
          ∧ ∃ j, u.beryl.find rg n = some j ∧ { j with counts := k.counts } = k
            ∧ ∀ q, j.count q = if q = p then min (k.count q + 1) (2 ^ 28 - 1) else k.count q)
        ∧ (k.count p = 0 → TrapsWith (.brel a rg) s .berylName (n.setWidth 64))
        ∧ (k.count p ≠ 0 → ∃ u j, Completes (.brel a rg) s u ∧ { u with beryl := s.beryl } = s
          ∧ (∀ g m, (g, m) ≠ (rg, n) → u.beryl.find g m = s.beryl.find g m)
          ∧ u.beryl.find rg n = some j ∧ { j with counts := k.counts, queued := k.queued } = k
          ∧ (∀ q, j.count q = if q = p ∧ k.count q ≠ 2 ^ 28 - 1 then k.count q - 1 else k.count q)
          ∧ (j.queued = true ↔ k.queued = true ∨ ∀ q, j.count q = 0)
          ∧ u.beryl.queue = s.beryl.queue ++ if (∀ q, j.count q = 0) ∧ k.queued = false then [(rg, n)] else [])))
    ∧ (Settled s → ∃ u, Completes (.vswDrop d) s u ∧ u.k.vpin = 0 ∧ u.x d = 0 ∧ (∀ r, r ≠ d → u.x r = s.x r)
      ∧ u.core.oldPins = s.core.oldPins ++ (if s.k.pinned then [s.k.pinEntry] else [])
      ∧ (∀ q, u.newest q = s.newest q)
      ∧ ({ u with core.oldPins := s.core.oldPins, core.unit.k.vpin := s.k.vpin } : State).blankX.blankMem = s.blankX.blankMem)

/-- bloa reads the 2,048 bytes of its source as the home would hold them. A live block of the same prefix, kind and contents gives its
name and takes a reference; otherwise a block with the lowest free ordinal of the prefix comes to be, with the contents in its pool
block, one reference of the unit's partition, and one more on each child of a node. The prefix is that of the hash (12 R298, R299, R301,
R309). The index that the new block takes in its pool is the model's choice (log entry 24). -/
def Obligations.BerylAllocation : Prop :=
  ∀ (s : State) (d a : BitVec 5) (node : BitVec 1) (rg : BitVec 4) (m : XMap), s.Inv → Settled s →
    let i : Instr := .bloa d a node rg
    let src := addrOf (s.x a)
    let r := s.region rg
    let t := ((m.runs src 2048).map (fun r => linesOf r.pa r.len)).flatten.foldl State.writeBackLine s
    let c := (List.range 2048).map (fun k => s.newest (m.pa (src + k)))
    let D := blockHash r.salt (node == 1) c
    wellFormed i = true → r.usable s.part = true → src + 2048 ≤ 2 ^ 56 → s.access .read true [(src, 2048)] true = .ok m →
    (∀ k, k < 2048 → t.badGranule (granuleOf (m.pa (src + k))) = false) →
    (∀ k, node = 1 → s.beryl.deadChild rg (childrenOf c) = some k → TrapsWith i s .berylName (BitVec.ofNat 64 (16 * k)))
    ∧ ((node = 1 → s.beryl.deadChild rg (childrenOf c) = none) →
      (∀ k, t.sameBlock rg D (node == 1) c = some k → ∃ u, Completes i s u ∧ u.x (d + 1) ++ u.x d = k.name
        ∧ k.name.toNat / 4 = D.toNat / 4 ∧ u.beryl = s.beryl.ref rg k.name s.part ∧ (∀ x, x ≠ d → x ≠ d + 1 → u.x x = s.x x)
        ∧ ({ u with beryl := s.beryl } : State).blankX.blankMem = s.blankX.blankMem ∧ ∀ q, m.spares q → u.newest q = s.newest q)
      ∧ (t.sameBlock rg D (node == 1) c = none →
        (s.beryl.freeOrdinal rg D = none → TrapsWith i s .nameCollision (D.setWidth 64))
        ∧ (∀ o, s.beryl.freeOrdinal rg D = some o → s.beryl.freeBlock rg r.nblk = none → TrapsWith i s .berylFull (rg.zeroExtend 64))
        ∧ ∀ o k, s.beryl.freeOrdinal rg D = some o → s.beryl.freeBlock rg r.nblk = some k → ∃ u, Completes i s u
          ∧ u.x (d + 1) ++ u.x d = BitVec.ofNat 128 (D.toNat / 4 * 4 + o)
          ∧ u.beryl = (if node = 1 then childrenOf c else []).foldl (fun b n => b.ref rg n s.part) { s.beryl with blocks := s.beryl.blocks
              ++ [⟨rg, k, BitVec.ofNat 128 (D.toNat / 4 * 4 + o), node == 1, (List.replicate 8 0).set s.part.toNat 1, s.part, false⟩] }
          ∧ (∀ x, x ≠ d → x ≠ d + 1 → u.x x = s.x x)
          ∧ ({ u with beryl := s.beryl } : State).blankX.blankMem = s.blankX.blankMem
          ∧ ∀ q, m.spares q → u.newest q = if r.pool + 2048 * k ≤ q ∧ q < r.pool + 2048 * k + 2048 then c.getD (q - r.pool - 2048 * k) 0
            else s.newest q))

/-- bcas and vpub read a root slot at its home and, when it holds what they expect, replace its name and depth and add 1 to its version;
otherwise they leave it. bcas returns the name it read and changes no count; vpub returns the version in force afterwards and, when it
publishes, releases the slot's reference on the old name. A slot of the other kind, or one with a reserved field set, is BERYL_SLOT
(12 R305 to R308, R311, R312); each first releases, and waits while a home does not take a dirty line (16 R406). Whose count a publication
releases is the model's reading (log entry 26). -/
def Obligations.RootSlots : Prop :=
  ∀ (s : State) (d a b : BitVec 5) (dep : BitVec 3) (m : XMap), s.Inv → Releasable s →
    let va := addrOf (s.x a)
    let new : BitVec 128 := if b = 0 then 0 else s.x (b + 1) ++ s.x b
    let t := (linesOf (m.pa va) 32).foldl State.dropLine (s.releaseCache 2)
    let r := t.readRoot (m.pa va)
    let next : Root := { r with name := new, depth := dep.toNat, ver := r.ver + 1 }
    let slot (w : Option Root) (q : Nat) : Byte :=
      match w with
      | some w => if s.lands (m.pa va) 32 q then w.bytes.getD (q - m.pa va) 0 else s.newest q
      | none => s.newest q
    let cas : Instr := .bcas d a b dep
    let pub : Instr := .vpub d a b dep
    (va % 32 ≠ 0 → TrapsWith cas s .berylSlot (BitVec.ofNat 64 va) ∧ TrapsWith pub s .berylSlot (BitVec.ofNat 64 va))
    ∧ (va % 32 = 0 → s.access .readWrite true [(va, 32)] = .ok m → t.homeBad (m.pa va) 32 = false →
      (r.invalid = true ∨ r.pub = true → TrapsWith cas s .berylSlot (BitVec.ofNat 64 va))
      ∧ (r.invalid = true ∨ r.pub = false → TrapsWith pub s .berylSlot (BitVec.ofNat 64 va))
      ∧ (r.invalid = false → (s.region r.region).usable s.part = true → new = 0 ∨ (s.beryl.find r.region new).isSome = true →
        (wellFormed cas = true → r.pub = false → ∃ u, Completes cas s u ∧ u.x (d + 1) ++ u.x d = r.name ∧ (∀ x, x ≠ d → x ≠ d + 1 → u.x x = s.x x)
          ∧ u.blankX.blankMem = s.blankX.blankMem
          ∧ ∀ q, m.spares q → u.newest q = slot (if r.name = s.x (d + 1) ++ s.x d then some next else none) q)
        ∧ (r.pub = true → r.ver ≠ (s.x d).setWidth 16 → ∃ u, Completes pub s u ∧ u.x d = (if d = 0 then 0 else r.ver.zeroExtend 64)
          ∧ (∀ x, x ≠ d → u.x x = s.x x) ∧ u.blankX.blankMem = s.blankX.blankMem ∧ ∀ q, m.spares q → u.newest q = s.newest q)
        ∧ (r.pub = true → r.ver = (s.x d).setWidth 16 → r.ver = 0xFFFF → TrapsWith pub s .versionLimit 0xFFFF)
        ∧ (r.pub = true → r.ver = (s.x d).setWidth 16 → r.ver ≠ 0xFFFF → ∃ u, Completes pub s u
          ∧ u.x d = (if d = 0 then 0 else (r.ver + 1).zeroExtend 64) ∧ (∀ x, x ≠ d → u.x x = s.x x)
          ∧ u.beryl = s.beryl.unref r.region r.name s.part
          ∧ ({ u with beryl := s.beryl } : State).blankX.blankMem = s.blankX.blankMem
          ∧ ∀ q, m.spares q → u.newest q = slot (some next) q)))

/-- bout retires one entry that names the tree of its slot and the leaves it copies, takes a reference on the root until they are written, and
when it is performed the bytes at its destination are those of the leaves in order. tldb places the rows of one leaf in a tile, row i from byte 64
* i, and steps its leaf register; in slot mode its walk holds the root, with a pin it reads the pinned version and holds nothing. vsw pins the
version that its slot publishes, or none (12 R303, R304, R313 to R317, R319). That a tile without columns has the scales of its rows, and which
count the references of bout and of a walk raise and lower, are the model's readings (log entries 62 and 49). -/
def Obligations.TreesAndPins : Prop :=
  ∀ (s : State) (m : XMap), s.Inv → Settled s →
    let slotAt (a : BitVec 5) : State := (linesOf (m.pa (addrOf (s.x a))) 32).foldl State.dropLine s
    let root (a : BitVec 5) : Root := (slotAt a).readRoot (m.pa (addrOf (s.x a)))
    let good (a : BitVec 5) (pub : Bool) : Prop := addrOf (s.x a) % 32 = 0 ∧ s.access .read true [(addrOf (s.x a), 32)] true = .ok m
      ∧ (slotAt a).homeBad (m.pa (addrOf (s.x a))) 32 = false ∧ (root a).invalid = false ∧ (root a).pub = pub
      ∧ (s.region (root a).region).usable s.part = true
    (∀ (d a b : BitVec 5) (md : XMap), good a false →
      let first := bits (s.x d) 39 0
      let count := bits (s.x d) 52 40
      (count = 0 ∨ 4096 < count ∨ 128 ^ (root a).depth < first + count → TrapsWith (.bout d a b) s .berylTree (s.x d))
      ∧ (1 ≤ count → count ≤ 4096 → first + count ≤ 128 ^ (root a).depth → addrOf (s.x b) + 2048 * count ≤ 2 ^ 56 →
        (slotAt a).access .write true [(addrOf (s.x b), 2048 * count)] = .ok md →
        ∃ u e, Completes (.bout d a b) s u ∧ u.core.sb = [e] ∧ e.kind = .bout (root a).region (root a).name (root a).depth first count
          ∧ e.va = addrOf (s.x b) ∧ e.len = 2048 * count ∧ e.runs = md.runs (addrOf (s.x b)) (2048 * count) ∧ e.Mine s
          ∧ u.beryl = s.beryl.ref (root a).region (root a).name s.part
          ∧ ({ u with beryl := s.beryl } : State).blankMem = s.blankMem
          ∧ ∀ q, m.spares q → md.spares q → u.newest q = s.newest q))
    ∧ (∀ (e : SbEntry) (rest : List SbEntry) (rg : BitVec 4) (name : BitVec 128) (depth first count pa : Nat),
      e.kind = .bout rg name depth first count → e.runs = [⟨pa, 2048 * count⟩] → s.dev.portDown = 0 → s.entryAccepted e = true →
      ∃ t, exec .storePerformed { s with core.sb := e :: rest } = .next t ∧ t.core.sb = rest
        ∧ t.beryl = s.beryl.unref rg name e.part
        ∧ (∀ k, k < 2048 * count →
          t.newest (pa + k) = if s.inPool (pa + k) 1 = true then s.newest (pa + k) else (s.leafBytes (s.leafFrom rg depth name (first + k / 2048))).getD (k % 2048) 0)
        ∧ ∀ q, q < pa ∨ pa + 2048 * count ≤ q → t.newest q = s.newest q)
    ∧ (∀ (d : BitVec 4) (a b : BitVec 5) (ai tr pin : BitVec 1) (hint esrc : BitVec 2) (rg : BitVec 4) (name : BitVec 128) (depth : Nat),
      (pin = 0 ∧ good a false ∧ rg = (root a).region ∧ name = (root a).name ∧ depth = (root a).depth)
        ∨ (pin = 1 ∧ s.k.pinned = true ∧ m = [] ∧ ∃ p, s.beryl.pins.find? (fun p => p.entry == s.k.pinEntry) = some p
            ∧ rg = p.region ∧ name = p.root ∧ depth = p.depth) →
      let f := ptrFmt (s.x a)
      let scl : Bool := ptrBlock (s.x a) != 0
      let lr := s.x b
      let t := if pin = 0 then (slotAt a).touchAll .read m else s
      let leaf := t.leafFrom rg depth name (bits lr 39 0)
      let sz := shapeOf esrc (tr == 1) (bits lr 45 40) (bits lr 51 46) (s.t d)
      let img (o : Nat) : Byte := (t.leafBytes leaf).getD o 0
      let sp := rowSpan f (ptrBlock (s.x a)) false sz.mc
      leafFormat f (ptrLbl (s.x a)) = true → ¬(tr = 1 ∧ scl = true) → (esrc = 0 → bits lr 45 40 ≤ 32 ∧ bits lr 51 46 ≤ 32) →
      (128 ^ depth ≤ bits lr 39 0 → TrapsWith (.tldb d a b ai tr hint esrc pin) s .berylTree (BitVec.ofNat 64 (bits lr 39 0)))
      ∧ (bits lr 39 0 < 128 ^ depth → (∀ o, t.leafBad leaf o = false) → t.homesAccept leaf.lines = true →
        ∃ u, Completes (.tldb d a b ai tr hint esrc pin) s u true
          ∧ (u.t d).key = leaf.name?.map (fun n => .name rg n f (ptrLbl (s.x a)) (tr == 1) sz.rext sz.cext)
          ∧ (pin = 1 → u.beryl.blocks = s.beryl.blocks)
          ∧ (pin = 0 → u.beryl.blocks = ((s.beryl.ref rg name s.part).unref rg name s.part).blocks)
          ∧ u.beryl.blocks.map (fun k => (k.region, k.index, k.name)) = s.beryl.blocks.map (fun k => (k.region, k.index, k.name))
          ∧ LoadsTile s { u with beryl := s.beryl, tick := s.tick } d f scl sz.rext sz.cext
              (fun i j => if tr = 1 then rowElem img f sp (64 * j) i else rowElem img f sp (64 * i) j)
              (fun i => img (64 * i + packed f 32))
              (if ai = 1 then some (b, BitVec.ofNat 64 (bits lr 63 40 * 2 ^ 40 + (bits lr 39 0 + 1) % 2 ^ 40)) else none)))
    ∧ (∀ (d a : BitVec 5), good a true →
      let r := root a
      let holds (u : State) (v : BitVec 16) : Prop := u.x d = (if d = 0 then 0 else v.zeroExtend 64) ∧ (∀ x, x ≠ d → u.x x = s.x x)
        ∧ ∀ q, m.spares q → u.newest q = s.newest q
      (r.ver = 0 ∨ r.name = 0 → ∃ u, Completes (.vsw d a) s u ∧ holds u 0 ∧ u.k.vpin = 0 ∧ u.beryl = s.beryl)
      ∧ (r.ver ≠ 0 → r.name ≠ 0 → s.pinsThis (m.pa (addrOf (s.x a))) r.ver = true →
        ∃ u, Completes (.vsw d a) s u ∧ holds u r.ver ∧ u.k.vpin = s.k.vpin ∧ u.beryl = s.beryl)
      ∧ (r.ver ≠ 0 → r.name ≠ 0 → s.pinsThis (m.pa (addrOf (s.x a))) r.ver = false →
        (∀ p, s.beryl.pins.find? (fun p => p.part == s.part && p.slotPa == m.pa (addrOf (s.x a)) && p.ver == r.ver) = some p →
          ∃ u, Completes (.vsw d a) s u ∧ holds u r.ver ∧ u.k.vpin = pinWord p
            ∧ u.beryl = { s.beryl with pins := s.beryl.pins.map (fun q => if q.entry == p.entry then { q with holders := q.holders + 1 } else q) })
        ∧ (∀ e, s.beryl.pins.find? (fun p => p.part == s.part && p.slotPa == m.pa (addrOf (s.x a)) && p.ver == r.ver) = none →
          s.beryl.freePin = some e →
          ∃ u, Completes (.vsw d a) s u ∧ holds u r.ver
            ∧ u.k.vpin = pinWord ⟨e, s.part, m.pa (addrOf (s.x a)), r.ver, r.name, r.depth, r.region, 1⟩
            ∧ u.beryl.pins = s.beryl.pins ++ [⟨e, s.part, m.pa (addrOf (s.x a)), r.ver, r.name, r.depth, r.region, 1⟩])
        ∧ (s.beryl.pins.find? (fun p => p.part == s.part && p.slotPa == m.pa (addrOf (s.x a)) && p.ver == r.ver) = none →
          s.beryl.freePin = none → TrapsWith (.vsw d a) s .pinLimit (r.ver.zeroExtend 64))))

/-! Detached commands. -/

/-- bcp, bcp.ld, bcp.st, a2a, cred and ofld wait while 32 commands are in flight. Otherwise they check their operands and are then in
flight: the command holds its operands as R342, R350, R353 and R356 name them. A length or a field that is not allowed, overlapping ranges
of a copy, a drive that is not there and a launch that is not concurrent are ENGINE_ARG with the register's value or the class; a barrier,
object or schedule that is not aligned is ATOMIC_ALIGN; cred waits while the home of its object does not take the read (13 R329, R330,
R334, R342, R350, R353, R356; 16 R406). Which register's value is reported
when several are not allowed, where the source of a cred may reach, the bits of an offset in the local store and the permissions of an
object's page are the model's readings (log entries 87, 30, 97 and 99). -/
def Obligations.CommandsIssue : Prop :=
  (∀ (s : State) (d a b : BitVec 5), 32 ≤ s.inFlight →
    ∀ i ∈ [Instr.bcp d a b, .bcpLd d a b, .bcpSt d a b, .a2aCl d a b, .a2aQ d a b, .cred d a b, .credLs d a b, .ofldOut d a b, .ofldIn d a b],
      Waits i s .engine)
  ∧ ∀ (s : State), s.Inv → s.inFlight < 32 →
    (∀ (i : Instr) (d a b : BitVec 5) (sm dm : Bool) (ms md mb : XMap), copyForm i = some (d, a, b, sm, dm) →
      let n := (s.x b).toNat
      let src := addrOf (s.x a)
      let dst := addrOf (s.x d)
      let bar := addrOf (s.x (b + 1))
      (n = 0 ∨ 4194304 < n → TrapsWith i s .engineArg (s.x b))
      ∧ (1 ≤ n → n ≤ 4194304 → sm = true → dm = true → overlap src n dst n = true → TrapsWith i s .engineArg (s.x a))
      ∧ (1 ≤ n → n ≤ 4194304 → (sm = true → dm = true → overlap src n dst n = false) → bar % 32 ≠ 0 →
        TrapsWith i s .atomicAlign (BitVec.ofNat 64 bar))
      ∧ (1 ≤ n → n ≤ 4194304 → (sm = true → dm = true → overlap src n dst n = false) → bar % 32 = 0 → insideSpace sm src n →
        insideSpace dm dst n → s.bcpMap sm .read src n = .ok ms → s.bcpMap dm .write dst n = .ok md → s.barrierMap bar = .ok mb →
        s.needPhys false bar mb = .ok () →
        ∃ u, Completes i s u
          ∧ Issued s u (ms ++ md ++ mb) (.bcp (placeOf sm ms src n) (placeOf dm md dst n) dst n []) (barrierPa bar mb)))
    ∧ (∀ (d a b : BitVec 5) (quad : Bool) (mb ms : XMap),
      let i : Instr := if quad then .a2aQ d a b else .a2aCl d a b
      let v := s.x b
      let w := s.x (b + 1)
      let g := if quad then 16 else 4
      let csz := bits w 14 0
      let steps := bits w 21 16
      let bar := addrOf (s.x d)
      let sched := addrOf (s.x a)
      let bases : Prop := bits v 31 19 = 0 ∧ bits v 63 51 = 0
      let sizes : Prop := bits w 15 15 = 0 ∧ bits w 63 22 = 0 ∧ csz % 16 = 0 ∧ 16 ≤ csz ∧ csz ≤ 16384 ∧ 1 ≤ steps ∧ steps ≤ 64
      (¬bases → TrapsWith i s .engineArg v)
      ∧ (bases → ¬sizes → TrapsWith i s .engineArg w)
      ∧ (∀ l, bases → sizes → s.launch? = some l → l.record.cls ≠ 2 → TrapsWith i s .engineArg (BitVec.ofNat 64 l.record.cls))
      ∧ (bases → sizes → (s.launch?.map (fun l => l.record.cls)) = some 2 →
      (bar % 32 ≠ 0 → TrapsWith i s .atomicAlign (BitVec.ofNat 64 bar))
      ∧ (bar % 32 = 0 → sched % 8 ≠ 0 → TrapsWith i s .atomicAlign (BitVec.ofNat 64 sched))
      ∧ (bar % 32 = 0 → sched % 8 = 0 → sched + 8 * steps ≤ 2 ^ 56 →
      bits v 18 0 + g * csz ≤ 2 ^ 19 → bits v 50 32 + g * csz ≤ 2 ^ 19 → s.barrierMap bar = .ok mb →
      s.engineMap .read sched (8 * steps) = .ok ms → s.needPhys false bar mb = .ok () → s.needPhys false sched ms = .ok () →
      ∃ u, Completes i s u
        ∧ Issued s u (mb ++ ms) (.a2a quad (ms.runs sched (8 * steps)) (bits v 18 0) (bits v 50 32) csz steps none 0) (barrierPa bar mb))))
    ∧ (∀ (d a b : BitVec 5) (memory : Bool) (m0 mb mo ms : XMap),
      let i : Instr := if memory then .cred d a b else .credLs d a b
      let obj := addrOf (s.x d)
      let src := addrOf (s.x a)
      let bar := addrOf (s.x (b + 1))
      let home := (linesOf (mo.pa obj) 64).foldl State.writeBackLine s
      let limits : Prop := bits (s.x b) 63 32 = 0 ∧ bar % 32 = 0 ∧ obj % 64 = 0 ∧ (memory = true → src + 4096 ≤ 2 ^ 56)
      let reached : Prop := s.bcpMap memory .read src 4096 = .ok m0 ∧ s.barrierMap bar = .ok mb ∧ s.engineMap .readWrite obj 64 = .ok mo
        ∧ s.needPhys false bar mb = .ok () ∧ s.needPhys true obj mo = .ok ()
      (bits (s.x b) 63 32 ≠ 0 → TrapsWith i s .engineArg (s.x b))
      ∧ (bits (s.x b) 63 32 = 0 → bar % 32 ≠ 0 → TrapsWith i s .atomicAlign (BitVec.ofNat 64 bar))
      ∧ (bits (s.x b) 63 32 = 0 → bar % 32 = 0 → obj % 64 ≠ 0 → TrapsWith i s .atomicAlign (BitVec.ofNat 64 obj))
      ∧ ∀ n, (s.peerOf (mo.pa obj) = none ∧ home.homeBad (mo.pa obj) 64 = false ∧ n = bits (home.mem.read64 (mo.pa obj + 16)) 10 0)
          ∨ ((s.peerOf (mo.pa obj)).isSome = true ∧ ∃ v, s.core.reply = some (.value v) ∧ n = bits v 10 0) →
      limits → reached →
      (s.peerOf (mo.pa obj) = none → s.homesAccept (linesOf (mo.pa obj) 64) = false → Waits i s .other)
      ∧ ((s.peerOf (mo.pa obj) = none → s.homesAccept (linesOf (mo.pa obj) 64) = true) →
      insideSpace memory src (4 * n) → s.bcpMap memory .read src (4 * n) = .ok ms →
      ∃ u, Completes i s u
        ∧ Issued s.answered u (m0 ++ ms ++ mb ++ mo) (.cred (mo.pa obj) (placeOf memory ms src (4 * n)) (bits (s.x b) 31 0) n none)
            (barrierPa bar mb)))
    ∧ (∀ (d a b : BitVec 5) (out : Bool) (m mb : XMap),
      let i : Instr := if out then .ofldOut d a b else .ofldIn d a b
      let v := s.x d
      let va := addrOf (s.x a)
      let n := (s.x b).toNat
      let bar := addrOf (s.x (b + 1))
      let drive : Prop := bits v 59 48 = 0 ∧ ((s.partAt s.part).drives.toList.getD (bits v 63 60) ⟨false, 0, 0, 0⟩).dv = true
      (¬drive → TrapsWith i s .engineArg v)
      ∧ (drive → va % 4096 ≠ 0 → TrapsWith i s .engineArg (s.x a))
      ∧ (drive → va % 4096 = 0 → n % 4096 ≠ 0 ∨ n < 4096 ∨ 4194304 < n → TrapsWith i s .engineArg (s.x b))
      ∧ (drive → va % 4096 = 0 →
        n % 4096 = 0 → 4096 ≤ n → n ≤ 4194304 → bar % 32 = 0 → va + n ≤ 2 ^ 56 →
        s.engineMap (if out then .read else .write) va n = .ok m → s.barrierMap bar = .ok mb → s.needPhys false bar mb = .ok () →
        ∃ u, Completes i s u
          ∧ Issued s u (m ++ mb) (.ofld out (bits v 63 60) (bits v 47 0) (m.runs va n) (n / 4096) (min 32 (n / 4096)) [] [])
              (barrierPa bar mb)))

/-- sbind binds a stream to its source and its ring, and waits while 32 commands are in flight; the engine places its elements in order while
the ring has room and no older command uses it; qrd takes the next one, unless it is uncorrectable, which is MACHINE_CHECK, and the last one
unbinds the stream; an empty stream makes the B form wait and the T form trap; qavail tells how many have arrived (13 R330, R345 to R348;
14 R374). The address that qrd reports for data that failed in the ring is the model's reading (log entry 86). -/
def Obligations.Streams : Prop :=
  ∀ (s : State) (q : BitVec 2) (a b d : BitVec 5) (esz : BitVec 2) (bt : BitVec 1) (m : XMap), s.Inv →
    let r := s.stream q
    let v := s.x b
    let w := s.x (b + 1)
    let va := addrOf (s.x a)
    let n := bits w 31 0 * 2 ^ esz.toNat
    let size := 2 ^ bits v 23 20
    let others (u : State) : Prop := ∀ p, p ≠ q → u.stream p = s.stream p
    let ringFree : Prop := ∀ c ∈ s.core.cmds, c.id < r.data.order → ∀ l ∈ c.lsRanges, overlap r.lsbase.toNat (2 ^ r.lsz.toNat) l.1 l.2 = false
    (32 ≤ s.inFlight → Waits (.sbind q a b esz) s .engine)
    ∧ (s.inFlight < 32 → 8 ≤ bits v 23 20 → bits v 18 0 % size = 0 → bits v 63 24 = 0 → v.getLsbD 19 = false → bits w 31 0 ≠ 0 →
      bits w 63 32 = 0 → va + n ≤ 2 ^ 56 → bits v 18 0 + size ≤ 2 ^ 19 → s.engineMap .read va n = .ok m → s.needSource va m = .ok () →
      (r.bound = true ∨ (s.ringClash (bits v 18 0) size).isSome = true → TrapsWith (.sbind q a b esz) s .streamBusy (q.zeroExtend 64))
      ∧ (r.bound = false → s.ringClash (bits v 18 0) size = none → ∃ u, Completes (.sbind q a b esz) s u ∧ others u
          ∧ u.stream q = ⟨true, esz, BitVec.ofNat 56 va, BitVec.ofNat 32 (bits w 31 0), 0, BitVec.ofNat 19 (bits v 18 0),
              BitVec.ofNat 4 (bits v 23 20), 0, ⟨m.runs va n, m.map (fun e => (e.1 * 4096, e.2.size)), [], va, s.core.nextCmd⟩⟩
          ∧ Accesses s { u with core.unit.q := s.core.unit.q } m s.x))
    ∧ (r.bound = false → TrapsWith (.qrd q bt d) s .streamUnbound (q.zeroExtend 64) ∧ TrapsWith (.qavail q d) s .streamUnbound (q.zeroExtend 64))
    ∧ (r.bound = true → r.arrived = 0 → (bt = 1 → TrapsWith (.qrd q bt d) s .streamEmpty (q.zeroExtend 64))
        ∧ (bt = 0 → Waits (.qrd q bt d) s .stream))
    ∧ (∀ va, r.bound = true → r.arrived ≠ 0 → r.badElement s.core.lsPoison = some va →
        TrapsWith (.qrd q bt d) s .machineCheck (BitVec.ofNat 64 va))
    ∧ (r.bound = true → r.arrived ≠ 0 → r.badElement s.core.lsPoison = none →
      let slot := r.lsbase.toNat + r.next.toNat * 2 ^ r.esz.toNat % 2 ^ r.lsz.toNat
      ∃ u, Completes (.qrd q bt d) s u ∧ others u
        ∧ u.x d = (if d = 0 then 0 else BitVec.ofNat 64 (leNat ((List.range (2 ^ r.esz.toNat)).map (fun k => s.core.ls.read (slot + k)))))
        ∧ (∀ x, x ≠ d → u.x x = s.x x) ∧ ({ u with core.unit.q := s.core.unit.q } : State).blankX = s.blankX
        ∧ u.stream q = if r.next + 1 = r.count then Stream.unbound else { r with next := r.next + 1, arrived := r.arrived - 1 })
    ∧ (r.bound = true → ∃ u, Completes (.qavail q d) s u ∧ SetsX s u d (BitVec.ofNat 64 (2 ^ 63 + r.arrived.toNat)))
    ∧ (∃ u, Completes (.sunbind q) s u ∧ others u ∧ u.stream q = Stream.unbound ∧ { u with core.unit.q := s.core.unit.q } = s)
    ∧ (let taken : Prop := s.placeTaken (.mem r.data.runs) (r.addr.toNat - r.data.base) (2 ^ r.esz.toNat) = true
      (r.canFill = false ∨ ¬ringFree ∨ ¬taken → exec (.streamElementFill q) s = .next s)
    ∧ (∀ pa, r.canFill = true → ringFree → taken → runsSlice r.data.runs (r.addr.toNat - r.data.base) (2 ^ r.esz.toNat) = [⟨pa, 2 ^ r.esz.toNat⟩] →
      s.peerOf pa = none → s.physOk pa = true → (∀ k, k < 2 ^ r.esz.toNat → s.badGranule (granuleOf (pa + k)) = false) →
      let slot := r.lsbase.toNat + (r.next.toNat + r.arrived.toNat) * 2 ^ r.esz.toNat % 2 ^ r.lsz.toNat
      ∃ t, exec (.streamElementFill q) s = .next t ∧ others t
        ∧ t.stream q = { r with addr := r.addr + BitVec.ofNat 56 (2 ^ r.esz.toNat), arrived := r.arrived + 1 }
        ∧ (∀ o, t.core.ls.read o = if slot ≤ o ∧ o < slot + 2 ^ r.esz.toNat then s.mem.read (pa + (o - slot)) else s.core.ls.read o)
        ∧ { t with core.unit.q := s.core.unit.q, core.ls := s.core.ls, core.lsPoison := s.core.lsPoison } = s))

/-- The barrier operations act at the home on the 32 bytes: post adds to the pending bytes, arrive counts, drop counts a member that leaves as
well, init starts afresh, wait and test return the second word; after each update the barrier completes when every arrival is there, no byte is
pending and something was expected, and its phase turns; a wait that ends leaves no clean line in the L1 (10 R246). A barrier that does not allow
the operation is BARRIER_RANGE, and a wait for the current phase waits. Operations of one cycle apply in the order of their cores and engines, and
the test follows them once; which operations share a cycle the agenda says (the model's choice, log entries 1 and 81) (13 R334 to R341). What
releases waits while a home does not take a dirty line (16 R406). -/
def Obligations.Barriers : Prop :=
  (∀ b : Barrier,
    let due := b.exp ≠ 0 ∧ b.arr = b.exp ∧ b.pend = 0 ∧ b.ovf = false ∧ (b.xp = true ∨ b.nb = true)
    (due → b.settle = ⟨0, false, false, false, 0, b.exp - b.ndrop, !b.phase, b.flt, b.nb, 0, (b.gen + 1) % 2 ^ 32⟩)
    ∧ (¬due → b.settle = b))
  ∧ ∀ (s : State) (d a b : BitVec 5) (m : XMap), s.Inv →
    let va := addrOf (s.x a)
    let pa := m.pa va
    let home (rel : Bool) : State := (linesOf pa 32).foldl State.dropLine (if rel then s.releaseCache 2 else s)
    let r (rel : Bool) : Barrier := (home rel).readBarrier pa
    let n := (s.x b).toInt
    let posts (rel : Bool) : Prop := (r rel).exp ≠ 0 ∧ (r rel).ovf = false ∧ -2 ^ 23 ≤ (r rel).pend + n ∧ (r rel).pend + n < 2 ^ 23
    let arrives (rel : Bool) : Prop := (r rel).exp ≠ 0 ∧ (r rel).ovf = false ∧ (r rel).arr < (r rel).exp
    let writes (i : Instr) (w : Barrier) : Prop := ∃ u, Completes i s u ∧ WritesBarrier s u m pa w
    let alone : Prop := ∀ c, s.dev.barCycle = some c → c.pa ≠ pa
    (va % 32 ≠ 0 → ∀ i, i ∈ [Instr.barArr a, .barDrop a, .barWait d a b, .barTest d a] →
      TrapsWith i s .atomicAlign (BitVec.ofNat 64 va))
    ∧ (∀ c : BarCycle, Releasable s → va % 32 = 0 → s.access .readWrite true [(va, 32)] = .ok m → s.dev.barCycle = some c → c.pa = pa →
      (c.last.1 = 0 ∧ c.last.2 < s.core.num.toNat + 1) → (home true).homeBad pa 32 = false →
      (arrives true → ∃ u, Completes (.barArr a) s u ∧ u.dev.barCycle = some ⟨pa, (0, s.core.num.toNat + 1)⟩
        ∧ WritesBarrier s { u with dev.barCycle := s.dev.barCycle } m pa { r true with arr := (r true).arr + 1 })
      ∧ (¬arrives true → TrapsWith (.barArr a) s .barrierRange (BitVec.ofNat 64 va)))
    ∧ (∀ (c : BarCycle) (rest : List Input), s.agenda = .barrierCycleEnd :: rest → s.dev.barCycle = some c → c.last ≠ (0, 0) →
      let w := (linesOf c.pa 32).foldl State.writeBackLine s
      w.homeBad c.pa 32 = false → ∃ u, step s = .next u ∧ u.dev.barCycle = none ∧ u.agenda = rest
        ∧ ∀ q, u.newest q = if s.lands c.pa 32 q then (w.readBarrier c.pa).settle.bytes.getD (q - c.pa) 0 else s.newest q)
    ∧ (Releasable s → va % 32 = 0 → s.access .readWrite true [(va, 32)] = .ok m → alone →
      (bits (s.x b) 15 0 ≠ 0 → bits (s.x b) 63 17 = 0 →
        writes (.barInit a b) ⟨0, false, false, false, 0, bits (s.x b) 15 0, false, false, (s.x b).getLsbD 16, 0, 0⟩)
      ∧ ((∀ rel, (home rel).homeBad pa 32 = false) →
        (-2 ^ 23 ≤ n → n < 2 ^ 23 →
          (posts false → writes (.barExp a b) ({ r false with pend := (r false).pend + n, xp := true }).settle)
          ∧ (¬posts false → TrapsWith (.barExp a b) s .barrierRange (BitVec.ofNat 64 va))
          ∧ (posts true → arrives true →
            writes (.barExpArr a b) ({ r true with pend := (r true).pend + n, xp := true, arr := (r true).arr + 1 }).settle))
        ∧ (arrives true → writes (.barArr a) ({ r true with arr := (r true).arr + 1 }).settle)
        ∧ (¬arrives true → TrapsWith (.barArr a) s .barrierRange (BitVec.ofNat 64 va))
        ∧ (arrives true → (r true).ndrop < (r true).exp →
          writes (.barDrop a) ({ r true with arr := (r true).arr + 1, ndrop := (r true).ndrop + 1 }).settle)
        ∧ ((r false).phase ≠ (s.x b).getLsbD 0 → ∃ u, Completes (.barWait d a b) s u
          ∧ Accesses s u m (fun x => if x = d ∧ d ≠ 0 then (r false).word1 else s.x x)
          ∧ u.core.l1.stale = [] ∧ ∀ n ∈ u.core.l1.sectors, ∃ c ∈ u.core.l1.dirty, lineOf c.1 = sectorLine n)
        ∧ ((r false).phase = (s.x b).getLsbD 0 → (r false).ovf = false → (r false).exp ≠ 0 → Waits (.barWait d a b) s .barrier)
        ∧ ((r false).ovf = false → (r false).exp ≠ 0 → ∃ u, Completes (.barTest d a) s u
          ∧ Accesses s u m (fun x => if x = d ∧ d ≠ 0 then (r false).word1 else s.x x))
        ∧ ((r false).ovf = true ∨ (r false).exp = 0 → TrapsWith (.barTest d a) s .barrierRange (BitVec.ofNat 64 va))))

/-! The engines at work. -/

/-- What the engines do for a command in flight: a delivery subtracts its bytes from the barrier at its home and marks a failure; a bulk
copy moves its chunks, each all of the copy in one aligned 4 KiB block of the destination, and ends with the last; an exchange starts when
its group agrees and moves one block a step, and a failed one reduces each member's barrier by that member's own bytes; a contribution
reads its source and is applied, the first of a round replacing the data, and an element that meets uncorrectable data poisons its granule
alone; an offload ends page by page, and a page that fails stops it.
Commands whose local-store ranges meet go in the order of their issue, and those of the collective engine start in it; a home that holds
requests while the interleave map changes holds an engine's too, those for its barrier and its object among them; nothing reaches pool or
table memory (12 R296; 13 R329, R331, R333, R335, R343, R351, R353, R354, R356, R357; 16 R406).
The model's readings: a contribution that is dropped sets flt once and subtracts nothing further (log entry 32), the pages of ofld that
cannot be reached (33), the exchange whose schedule cannot be read (28), and the homes that take an engine's requests (37). -/
def Obligations.EngineEvents : Prop :=
  (∀ (s : State) (path : Path) (pa n : Nat) (failed : Bool), s.Inv → (∀ c, s.dev.barCycle = some c → c.pa ≠ pa) → ((linesOf pa 32).foldl State.writeBackLine s).homeBad pa 32 = false →
    let b := ((linesOf pa 32).foldl State.writeBackLine s).readBarrier pa
    let c : Barrier := if -2 ^ 23 ≤ b.pend - n ∧ b.pend - n < 2 ^ 23 then { b with pend := b.pend - n } else { b with ovf := true }
    let t := s.deliver path (some pa) n failed
    t.blankMem = s.blankMem ∧ ∀ q, t.newest q = if s.lands pa 32 q then
      ({ c with flt := c.flt || failed } : Barrier).settle.bytes.getD (q - pa) 0 else s.newest q)
  ∧ (∀ (s : State) (cmd off len : Nat) (peer : PeerPart) (c : Cmd) (src dst : Place) (dstVa total : Nat) (done : List (Nat × Nat)), s.Inv →
    s.cmd cmd = some c → c.kind = .bcp src dst dstVa total done →
    let e : Instr := .bcpChunkDelivery cmd off len peer
    let chunk : Prop := len ≠ 0 ∧ off + len ≤ total ∧ (dstVa + off) / 4096 = (dstVa + off + len - 1) / 4096
      ∧ (off = 0 ∨ (dstVa + off) % 4096 = 0) ∧ (off + len = total ∨ (dstVa + off + len) % 4096 = 0)
      ∧ ∀ d ∈ done, overlap d.1 d.2 off len = false
    let turn : Prop := (∀ k ∈ s.core.cmds.takeWhile (fun k => k.id != cmd), ∀ r ∈ k.lsRanges, ∀ q ∈ c.lsRanges, overlap r.1 r.2 q.1 q.2 = false)
      ∧ ∀ i : BitVec 2, (s.stream i).bound = true → (s.stream i).data.order ≤ cmd → ∀ q ∈ c.lsRanges,
        overlap (s.stream i).lsbase.toNat (2 ^ (s.stream i).lsz.toNat) q.1 q.2 = false
    let taken : Prop := s.placeTaken src off len = true ∧ s.placeTaken dst off len = true ∧ s.barrierTaken c.barrier = true
    (¬chunk ∨ ¬turn ∨ ¬taken → exec e s = .next s)
    ∧ (chunk → turn → taken → (∀ k pa, s.dev.barCycle = some k → c.barrier = some pa → k.pa ≠ pa) →
      (∃ t held, exec e s = .next t ∧ t.core.cmds = (if (((off, len) :: done).map (·.2)).sum = total then s.core.cmds.filter (fun k => k.id != cmd)
          else s.core.cmds.map (fun k => if k.id == cmd then
            { k with kind := .bcp src dst dstVa total ((off, len) :: done), moved := c.moved, held := held } else k))
        ∧ (∀ h ∈ held, (off ≤ h.1 ∧ h.1 < off + len) → False)
        ∧ { t with core.cmds := s.core.cmds, core.ls := s.core.ls, core.lsPoison := s.core.lsPoison }.blankMem = s.blankMem)
      ∧ (∀ pa o, src = .mem [⟨pa, total⟩] → dst = .ls o → c.barrier = none → c.moved = [] → c.held = [] →
        (∀ j, j < total → s.peerOf (pa + j) = none ∧ s.physOk (pa + j) = true) → (∀ k, s.badGranule k = false) → ∃ t, exec e s = .next t
          ∧ ∀ q, t.core.ls.read q = if o + off ≤ q ∧ q < o + off + len then s.mem.read (pa + (q - o)) else s.core.ls.read q)
      ∧ (∀ pa o, src = .ls o → dst = .mem [⟨pa, total⟩] → c.barrier = none → c.moved = [] → c.held = [] → s.peerOf (pa + off) = none → s.physOk (pa + off) = true →
        s.core.lsPoison = [] → ∃ t, exec e s = .next t
          ∧ ∀ q, t.newest q = if s.lands (pa + off) len q then s.core.ls.read (o + (q - pa)) else s.newest q)))
  ∧ (∀ (s : State) (cmd : Nat) (c : Cmd) (quad : Bool) (pa sbase dbase csz nsteps : Nat) (members : List A2aMember), s.cmd cmd = some c →
    c.kind = .a2a quad [⟨pa, 8 * nsteps⟩] sbase dbase csz nsteps none 0 → s.peerOf pa = none → s.physOk pa = true →
    (∀ g, s.badGranule g = false) → nsteps ≠ 0 → members.length = (if quad then 16 else 4) → s.mayStart c = true → s.placeTaken (.mem [⟨pa, 8 * nsteps⟩]) 0 (8 * nsteps) = true →
    (∀ b ∈ c.barrier :: members.map (·.barrier), s.barrierTaken b = true) →
    let ws := (List.range nsteps).map (fun k => s.mem.readNat (pa + 8 * k) 8)
    let me := s.core.num.toNat % if quad then 16 else 4
    let agree := ∀ i m, members[i]? = some m → i ≠ me → m.ended = false ∧ m.schedPa = pa ∧ m.csz = csz ∧ m.nsteps = nsteps
    ((∀ w ∈ ws, permWord quad w = true) → agree →
      exec (.a2aExchangeStart cmd members) s = .next (s.setCmd cmd (.a2a quad [⟨pa, 8 * nsteps⟩] sbase dbase csz nsteps (some ws) 0)))
    ∧ ((∃ w ∈ ws, permWord quad w = false) ∨ ¬agree → ∃ t, exec (.a2aExchangeStart cmd members) s = .next t ∧ t.core.ls = s.core.ls
      ∧ t.core.cmds = s.core.cmds.filter (fun k => k.id != cmd)
      ∧ t = (((members.eraseIdx me).foldl (fun u m => u.deliver .l m.barrier (m.nsteps * m.csz) true) s).deliver .l c.barrier
          (nsteps * csz) true).endCmd cmd))
  ∧ (∀ (s : State) (cmd : Nat) (c : Cmd) (quad : Bool) (sched : List Run) (sbase dbase csz nsteps k src : Nat) (ws : List Nat)
      (incoming : List (Option Byte)) (block : List Byte), s.cmd cmd = some c → c.kind = .a2a quad sched sbase dbase csz nsteps (some ws) k →
    let me := s.core.num.toNat % if quad then 16 else 4
    (List.range (if quad then 16 else 4)).find? (fun i => schedTo (ws.getD k 0) i == me) = some src → s.core.lsPoison = [] → csz ≠ 0 →
    s.barrierTaken c.barrier = true →
    block.length = csz → (if src = me then block = (List.range csz).map (fun j => s.core.ls.read (sbase + me * csz + j))
      else incoming = block.map some) →
    ∃ t, exec (.a2aStep cmd incoming) s = .next t
      ∧ (∀ q, t.core.ls.read q = if dbase + src * csz ≤ q ∧ q < dbase + src * csz + csz then block.getD (q - dbase - src * csz) 0
          else s.core.ls.read q)
      ∧ t.core.cmds = if k + 1 = nsteps then s.core.cmds.filter (fun j => j.id != cmd)
          else s.core.cmds.map (fun j => if j.id == cmd then { j with kind := .a2a quad sched sbase dbase csz nsteps (some ws) (k + 1) } else j))
  ∧ (∀ (s : State) (cmd : Nat) (c : Cmd) (obj o index n : Nat) (acc : Bool) (ds : List (Option Byte)), s.cmd cmd = some c →
    s.barrierTaken c.barrier = true →
    (c.kind = .cred obj (.ls o) index n none → s.core.lsPoison = [] → s.mayStart c = true → exec (.credSourceRead cmd) s
      = .next ((s.deliver .l c.barrier (4 * n) false).setCmd cmd (.cred obj (.ls o) index n
          (some ((List.range (4 * n)).map (fun j => some (s.core.ls.read (o + j))))))))
    ∧ (c.kind = .cred obj (.ls o) index n (some ds) → (s.peerOf obj).isSome = true →
      exec (.credContribution (.own cmd acc)) s = .next ((if acc && !s.cutOff obj then s else s.deliver .l c.barrier 0 true).endCmd cmd))
    ∧ (c.kind = .cred obj (.ls o) index n (some ds) → s.peerOf obj = none →
      (s.objectTaken c.part obj = false → exec (.credContribution (.own cmd acc)) s = .next s)
      ∧ (s.objectTaken c.part obj = true → exec (.credContribution (.own cmd acc)) s
      = .next ((if (s.contribute c.part obj index c.det ds).2 then (s.contribute c.part obj index c.det ds).1
          else (s.contribute c.part obj index c.det ds).1.deliver .l c.barrier 0 true).endCmd cmd)))
    ∧ (∀ pd,
      let home := (linesOf obj 64).foldl State.writeBackLine s
      let h := home.readObject obj
      c.kind = .cred obj (.ls o) index n (some ds) → s.Inv → s.peerOf obj = none → s.physOk obj = true → home.homeBad obj 64 = false →
      s.objectTaken c.part obj = true →
      h.valid = true → h.det = false → c.det = false → ds.length = 4 * h.nelem → h.cnt < h.n →
      home.objectRuns c.part h.data (4 * h.nelem) = some [⟨pd, 4 * h.nelem⟩] → s.peerOf pd = none → s.physOk pd = true → pd % 16 = 0 →
      overlap pd (4 * h.nelem) obj 64 = false → s.inPool obj 64 = false → s.inPool pd (4 * h.nelem) = false →
      let mine (k : Nat) : Option Word32 := heldElem ds k
      let old (k : Nat) : Option Word32 :=
        if home.badGranule (granuleOf (pd + 4 * k)) = true then none else some (BitVec.ofNat 32 (home.mem.readNat (pd + 4 * k) 4))
      let new (k : Nat) : Option Word32 := if h.cnt = 0 then mine k else (old k).bind (fun a => (mine k).map (redElem h a))
      ∃ t, exec (.credContribution (.own cmd acc)) s = .next t ∧ t.core.cmds = s.core.cmds.filter (fun j => j.id != cmd)
        ∧ t.newestNat obj 2 = h.cnt + 1
        ∧ (∀ k v, k < h.nelem → new k = some v → t.newestNat (pd + 4 * k) 4 = v.toNat)
        ∧ (∀ k, k < h.nelem → new k = none → t.badGranule (granuleOf (pd + 4 * k)) = true)
        ∧ (∀ g, s.dev.portDown = 0 → s.core.l1.poison = [] → t.badGranule g = true →
          home.badGranule g = true ∨ ∃ k, k < h.nelem ∧ new k = none ∧ granuleOf (pd + 4 * k) = g)
        ∧ (∀ q, overlap q 1 pd (4 * h.nelem) = false → overlap q 1 obj 8 = false → t.newest q = s.newest q)))
  ∧ (∀ (s : State) (cmd page status : Nat) (data : List Byte) (c : Cmd) (out : Bool) (drive lba pa npages issued : Nat) (ok : List Nat)
      (failed : List (Nat × Nat)), s.cmd cmd = some c → c.id = cmd → c.kind = .ofld out drive lba [⟨pa, 4096 * npages⟩] npages issued ok failed →
    page < issued → issued ≤ npages → page ∉ ok → (∀ f ∈ failed, f.1 ≠ page) →
    s.placeTaken (.mem [⟨pa, 4096 * npages⟩]) (4096 * page) 4096 = true → s.barrierTaken c.barrier = true →
    let kind (i : Nat) (ok : List Nat) (failed : List (Nat × Nat)) : CmdKind := .ofld out drive lba [⟨pa, 4096 * npages⟩] npages i ok failed
    let put (k : CmdKind) : List Cmd := s.core.cmds.map (fun j => if j.id == cmd then { j with kind := k } else j)
    let gone := s.core.cmds.filter (fun j => j.id != cmd)
    let succeeds (t : State) : Prop := t.core.cmds = if failed = [] then
          (if ok.length + 1 < min npages (ok.length + 33) then put (kind (min npages (ok.length + 33)) (ok ++ [page]) []) else gone)
        else if ok.length + 1 + failed.length < issued then put (kind issued (ok ++ [page]) failed) else gone
    let fails (t : State) (st : Nat) : Prop := t.core.cmds =
        if ok.length + failed.length + 1 < issued then put (kind issued ok (failed ++ [(page, st)])) else gone
    (s.physOk (pa + 4096 * page) = true → out = true → ∃ t, exec (.ofldPageCompletion cmd page 0 data) s = .next t ∧ succeeds t
      ∧ (c.barrier = none → failed = [] → ∀ q, t.newest q = s.newest q))
    ∧ (s.physOk (pa + 4096 * page) = true → out = false → data.length = 4096 → s.peerOf (pa + 4096 * page) = none → s.Inv →
      ∃ t, exec (.ofldPageCompletion cmd page 0 data) s = .next t ∧ succeeds t ∧ (c.barrier = none → failed = [] →
        ∀ q, t.newest q = if s.lands (pa + 4096 * page) 4096 q then data.getD (q - pa - 4096 * page) 0 else s.newest q))
    ∧ (status ≠ 0 → ∃ t, exec (.ofldPageCompletion cmd page status data) s = .next t ∧ fails t status)
    ∧ (∃ t, exec (.ofldTimeout cmd page) s = .next t ∧ fails t 0xFFFF)
    ∧ (∀ port : Fin 4, s.core.cmds = [c] → s.cmdPort c = some port.val → ∃ t, exec (.lostLink port) s = .next t ∧ t.core.cmds = []))

/-! Launches and messages. -/

/-- larm arms the record of a pool entry under the next identifier; lpat changes words of an entry that is not live, never its partition;
cncl answers whether it found what it names, and cancels it; trig and exit release what the unit wrote and count for the launch's trigger;
draw takes the next slices; smrg combines partial tiles in order (09 R225 to R236). The model's readings: larm in a disabled partition
answers an identifier (log entry 35), the units that cncl.unit names (36), the record read at its home (61), an entry where no memory or
no domain is, which reads as if nothing were written and takes nothing (68), and the upper bits of cncl's operand, which are ignored (78). -/
def Obligations.LaunchInstructions : Prop :=
  ∀ (s : State) (d a b : BitVec 5), s.Inv →
    let p := s.part
    let pt := s.partAt p
    let v := s.x a
    let entry : Prop := bits v 63 12 = 0 ∧ bits v 11 0 < min pt.poolsize.toNat 4096
    let live : Prop := ∃ l ∈ pt.launches, l.entry = some v.toNat
    let record : Mem := if s.physHome (pt.poolbase.toNat + 128 * v.toNat) = true then s.mem else []
    let regs (u : State) (w : Word64) : Prop := u.x d = (if d = 0 then 0 else w) ∧ ∀ r, r ≠ d → u.x r = s.x r
    (¬entry → TrapsWith (.larm d a) s .launchPool v) ∧ (entry → live → TrapsWith (.larm d a) s .launchState v)
    ∧ (entry → ¬live → ∃ u, Completes (.larm d a) s u ∧ regs u (pt.nextId.zeroExtend 64) ∧ (u.partAt p).nextId = pt.nextId + 1
      ∧ (pt.en = false → (u.partAt p).launches = pt.launches)
      ∧ (∀ ks t, let rec_ : Rec := (List.range 16).map (fun i => record.read64 (pt.poolbase.toNat + 128 * v.toNat + 8 * i))
          pt.en = true → (s.modPart p (fun q => { q with nextId := q.nextId + 1 })).validate p rec_ = (.ok ks, t) →
          ((pt.pending.find? (fun e => e.1 == v.toNat)).elim 0 (·.2)) < rec_.depcnt → ∃ l, (u.partAt p).launches = (t.partAt p).launches ++ [l]
            ∧ l.id = pt.nextId ∧ l.entry = some v.toNat ∧ l.words = rec_ ∧ l.units = []
            ∧ l.phase = .armed (rec_.depcnt - (pt.pending.find? (fun e => e.1 == v.toNat)).elim 0 (·.2)))
      ∧ (∀ e t, let rec_ : Rec := (List.range 16).map (fun i => record.read64 (pt.poolbase.toNat + 128 * v.toNat + 8 * i))
          pt.en = true → (s.modPart p (fun q => { q with nextId := q.nextId + 1 })).validate p rec_ = (.error e, t) →
          (u.partAt p).launches = (t.partAt p).launches))
    ∧ (∀ (width : BitVec 2) (off : BitVec 4), wellFormed (.lpat a b width off) = true →
      let pa := pt.poolbase.toNat + 128 * v.toNat + 8 * off.toNat
      let old := BitVec.ofNat 64 (s.newestNat pa 8)
      let new : Word64 := if width = 0 then s.x b else if width = 1 then old.extractLsb' 32 32 ++ (s.x b).extractLsb' 0 32
        else (s.x b).extractLsb' 0 32 ++ old.extractLsb' 0 32
      let put : Word64 := if off = 4 then new.extractLsb' 40 24 ++ old.extractLsb' 37 3 ++ new.extractLsb' 0 37 else new
      (¬entry → TrapsWith (.lpat a b width off) s .launchPool v) ∧ (entry → live → TrapsWith (.lpat a b width off) s .launchState v)
      ∧ (entry → ¬live → Settled s → s.physHome pa = true → s.homesTake [lineOf pa] = false → Waits (.lpat a b width off) s .other)
      ∧ (entry → ¬live → Settled s → (s.physHome pa = true → s.homesTake [lineOf pa] = true) →
        ∃ u, Completes (.lpat a b width off) s u ∧ u.blankMem = s.blankMem
        ∧ ∀ q, u.newest q = if s.physHome pa = true ∧ s.lands pa 8 q then byteOf put.toNat (q - pa) else s.newest q))
    ∧ (∀ level : BitVec 3,
      (level = 4 → s.k.pl = 0 → ∃ w, TrapsWith (.cncl d a level) s .privilege w)
      ∧ (level = 0 → pt.current (v.setWidth 32) = none → ∃ u, Completes (.cncl d a level) s u ∧ SetsX s u d 0)
      ∧ (∀ e, level = 0 → pt.current (v.setWidth 32) = some e → ∃ t, exec (.cncl d a level) s = .next t ∧ regs t 1
        ∧ (e.2.place = .here → t.core.run = .exited))
      ∧ (1 ≤ level.toNat → level.toNat ≤ 3 → pt.named level.toNat v = [] → ∃ u, Completes (.cncl d a level) s u ∧ SetsX s u d 0)
      ∧ (1 ≤ level.toNat → level.toNat ≤ 3 → pt.named level.toNat v ≠ [] → ∃ t, exec (.cncl d a level) s = .next t ∧ regs t 1
        ∧ ∀ l ∈ (t.partAt p).named level.toNat v, l.cancelled = true)
      ∧ (level = 4 → s.k.pl ≠ 0 → v.extractLsb' 0 3 = p → ∃ t, exec (.cncl d a level) s = .next t ∧ regs t 1
        ∧ ∀ l ∈ (t.partAt p).launches, l.cancelled = true)
      ∧ (level = 4 → s.k.pl ≠ 0 → v.extractLsb' 0 3 ≠ p → ∃ u, Completes (.cncl d a level) s u ∧ SetsX s u d 0))
    ∧ (Releasable s → (∃ u, Completes .trig s u ∧ u.core.unit.trig = true ∧ u.core.l1.dirty = [] ∧ (∀ r, u.x r = s.x r) ∧ (∀ r, u.t r = s.t r))
      ∧ ∃ t, exec .exit s = .next t ∧ t.core.run = .exited ∧ t.core.l1.dirty = [] ∧ t.core.retired = s.core.retired + 1 ∧ t.k.vpin = 0
        ∧ (∀ m, (t.mbox m).full = false) ∧ (∀ q, t.stream q = Stream.unbound) ∧ t.core.frame = [])
    ∧ (s.launch?.filter (fun l => l.record.smode) = none → ∃ w, TrapsWith (.draw d) s .launchState w)
    ∧ (∀ l, s.launch? = some l → l.record.smode = true →
      (l.remaining = 0 → ∃ u, Completes (.draw d) s u ∧ SetsX s u d (BitVec.allOnes 64))
      ∧ (l.remaining ≠ 0 →
        let c := max 1 (l.remaining / (4 * l.record.units))
        let first := l.record.slices - l.remaining
        ∃ u, Completes (.draw d) s u ∧ regs u (BitVec.ofNat 32 c ++ BitVec.ofNat 32 first) ∧ u.core.unit.ident.slice = BitVec.ofNat 32 first
          ∧ ∃ k, (u.partAt p).launch l.id = some k ∧ k.remaining = l.remaining - c))
    ∧ (∀ (t : BitVec 4) (op : BitVec 2) (xp : BitVec 5) (m : XMap), Settled s →
      let ptr := s.x xp
      let sh := s.x (xp + 1)
      let sp := rowSpan (ptrFmt ptr) 0 false (shCols sh)
      let n := shAux sh
      let len := rangeLen sp (shStride sh) (n * shRows sh) (shCols sh)
      let ras := rowAddrs (addrOf ptr) (shStride sh) (n * shRows sh)
      let part (i j k : Nat) : Word32 := rowElem (s.seen m) (ptrFmt ptr) sp (addrOf ptr + (k * shRows sh + i) * shStride sh) j
      mergeFormat op ptr = true → shRows sh ≤ 32 → shCols sh ≤ 32 → n ≠ 0 → addrOf ptr + len ≤ 2 ^ 56 →
      s.access .read true (ras.map (rowRanges sp (shCols sh))).flatten = .ok m → s.readable m →
      let res (i j : Nat) : Flagged := mergeElem op (ptrFmt ptr) s.k.ftz ((List.range n).map (part i j))
      ∃ u, Completes (.smrg t op xp) s u ∧ IsResult (u.t t) (mergeResult op (ptrFmt ptr)) (shRows sh) (shCols sh) (fun i j => (res i j).bits)
        ∧ (∀ r, r ≠ t → u.t r = s.t r) ∧ u.blankT.blankSticky.blankMem = s.blankT.blankSticky.blankMem
        ∧ (u.k.sticky.getLsbD 0 = true ↔ s.k.sticky.getLsbD 0 = true ∨ ∃ i j, i < shRows sh ∧ j < shCols sh ∧ (res i j).nf = true)
        ∧ (u.k.sticky.getLsbD 1 = true ↔ s.k.sticky.getLsbD 1 = true ∨ ∃ i j, i < shRows sh ∧ j < shCols sh ∧ (res i j).iov = true))

/-- send and send.u hand a message to the network interface, or wait while it holds 8 of the unit's; a target that is not the sender's is
SEND_TARGET. An arrival fills an empty mailbox of its target's unit and is refused by a full one; the oldest message of its sender to a
mailbox goes first, a refused one waits for its retry, and one whose target core runs no unit, or whose unit has ended, is dropped with a
record. A unit that left the core and is not yet installed at its new one refuses arrivals, and so does one whose save is not complete (09
R237 to R240; 14 R386, R391). -/
def Obligations.Messages : Prop :=
  ∀ (s : State) (m : BitVec 3) (a b : BitVec 5),
    let v := s.x a
    let id := s.core.unit.ident
    let own := s.core.net.filter (fun k => k.part == id.part && k.task == id.task)
    let sent (toUnit : Bool) (target : Nat) : State :=
      { s with core.net := s.core.net ++ [⟨toUnit, target, m, s.x b, id.part, id.launch, id.task, false⟩] }
    let coreOk : Prop := bits v 63 7 = 0 ∧ (s.partAt s.part).qmask.getLsbD (bits v 6 4) = true
    let unitOk : Prop := bits v 63 32 = 0 ∧ ∃ l, s.launch? = some l ∧ bits v 31 0 < l.record.units
    let runs (part : BitVec 3) (core : Nat) : Prop := ∃ l ∈ (s.partAt part).launches, ∃ u ∈ l.units,
      (u.place = .here ∧ core = s.core.num.toNat) ∨ u.place = .elsewhere core
    let dropped (t : State) (part : BitVec 3) : Prop := (∀ r, t.mbox r = s.mbox r)
      ∧ ((t.partAt part).evhead = (s.partAt part).evhead + 1
        ∨ (t.partAt part).heldEvents.length = (s.partAt part).heldEvents.length + 1)
    (¬coreOk → TrapsWith (.send m a b) s .sendTarget v)
    ∧ (¬unitOk → TrapsWith (.sendU m a b) s .sendTarget v)
    ∧ (coreOk → own.length < 8 → Completes (.send m a b) s (sent false (bits v 6 0)))
    ∧ (unitOk → own.length < 8 → Completes (.sendU m a b) s (sent true (bits v 31 0)))
    ∧ (coreOk → 8 ≤ own.length → Waits (.send m a b) s .network)
    ∧ (unitOk → 8 ≤ own.length → Waits (.sendU m a b) s .network)
    ∧ (∀ src part launch task w,
      let e : Instr := .messageArrival (.inbound src part launch task false s.core.num.toNat m w)
      (runs part s.core.num.toNat → (s.mbox m).full = false → exec e s = .next (s.setMbox m ⟨w, true⟩))
      ∧ (runs part s.core.num.toNat → (s.mbox m).full = true → exec e s = .next s)
      ∧ ∀ core, let f : Instr := .messageArrival (.inbound src part launch task false core m w)
        (¬runs part core → ∃ t, exec f s = .next t ∧ dropped t part) ∧ (runs part core → core ≠ s.core.num.toNat → exec f s = .next s))
    ∧ (∀ src part launch task w target l, (s.partAt part).launch launch = some l → l.units.find? (fun r => r.u == target) = none →
      let e : Instr := .messageArrival (.inbound src part launch task true target m w)
      (l.cancelled = true → ∃ t, exec e s = .next t ∧ dropped t part) ∧ (l.cancelled = false → exec e s = .next s))
    ∧ (∀ src part launch task w target l u, (s.partAt part).launch launch = some l → l.units.find? (fun r => r.u == target) = some u →
      let e : Instr := .messageArrival (.inbound src part launch task true target m w)
      (u.place = .here → (s.mbox m).full = false → exec e s = .next (s.setMbox m ⟨w, true⟩))
      ∧ (u.place = .here → (s.mbox m).full = true → exec e s = .next s)
      ∧ (∀ c, u.place = .elsewhere c → exec e s = .next s)
      ∧ (∀ slot, u.place = .saved slot → (∀ v ∈ (s.partAt part).saved, v.slot = slot → v.image = false) → exec e s = .next s)
      ∧ (∀ c, u.place = .ended c → ∃ t, exec e s = .next t ∧ dropped t part))
    ∧ (∀ i k, s.core.net[i]? = some k →
      (∀ j h, j < i → s.core.net[j]? = some h → ¬(h.part = k.part ∧ h.task = k.task ∧ h.mbox = k.mbox ∧ s.targetOf h = s.targetOf k)) →
      let gone := s.core.net.eraseIdx i
      let held : State := { s with core.net := s.core.net.modify i (fun k => { k with refused := true }) }
      let e : Instr := .messageArrival (.delivered i)
      (k.refused = true → exec e s = .next s)
      ∧ (k.refused = false → k.toUnit = false → runs k.part k.target →
        (k.target = s.core.num.toNat → (s.mbox k.mbox).full = false → ∃ t, exec e s = .next t ∧ t.mbox k.mbox = ⟨k.value, true⟩
          ∧ t.core.net = gone ∧ { t with core.net := s.core.net }.blankM = s.blankM)
        ∧ (k.target = s.core.num.toNat → (s.mbox k.mbox).full = true → exec e s = .next held)
        ∧ (k.target ≠ s.core.num.toNat → exec e s = .next { s with core.net := gone }))
      ∧ (k.toUnit = false → ¬runs k.part k.target →
        (k.refused = false → ∃ t, exec e s = .next t ∧ t.core.net = gone ∧ dropped t k.part)
        ∧ ∃ t, exec (.messageArrival (.dropped i)) s = .next t ∧ t.core.net = gone ∧ dropped t k.part)
      ∧ (∀ l u c f, k.refused = false → k.toUnit = true → (s.partAt k.part).launch k.launch = some l →
        l.units.find? (fun r => r.u == k.target) = some u → u.place = .elsewhere c → f ∈ s.core.forward → f.part = k.part →
        f.task = BitVec.ofNat 32 (l.record.tbase + u.u) → f.installed = false → exec e s = .next held)
      ∧ exec (.messageArrival (.refused i)) s = .next held)
    ∧ (∀ i, exec (.messageRetry i) s = .next { s with core.net := s.core.net.modify i (fun k => { k with refused := false }) })

/-! System instructions and traps. -/

/-- kget reads the identity and control registers at the levels of R20, kset writes those that may be written, with their reserved bits zero, and
a level that is too low is PRIVILEGE; a switch of the interleave map is checked, broadcast, and in force once every slice has it; spt and halt,
and the invalidations of the TLB (01 R19 to R24; 10 R250, R253, R270, R271; 14 R372, R373, R389; 16 R407). The model's choices: the core's own
requests carry the new generation once the table is in force (log entry 37), the pages that hold up tlbi are those that commands and streams hold
(47), and an spt that finds no free slot for the eviction that is due goes on (92). -/
def Obligations.SystemRegisters : Prop :=
  ∀ (s : State) (d a : BitVec 5) (n : BitVec 15),
    let k := s.k
    let id := s.core.unit.ident
    let v := s.x a
    let low (w : Word64) (i : Nat) : Word64 := BitVec.ofNat 64 (w.toNat % 2 ^ i)
    (∀ w, (n, w) ∈ [(0x000#15, id.unit.zeroExtend 64), (0x001, id.launch.zeroExtend 64), (0x002, id.task.zeroExtend 64),
        (0x003, s.core.num.zeroExtend 64), (0x004, id.org0.zeroExtend 64), (0x005, id.org1.zeroExtend 64), (0x006, id.ext0.zeroExtend 64),
        (0x007, id.ext1.zeroExtend 64), (0x008, id.slice.zeroExtend 64), (0x009, id.nslice.zeroExtend 64), (0x00A, id.part.zeroExtend 64),
        (0x00B, if k.vpin.getLsbD 16 then 0x10000 ||| low k.vpin 16 else 0), (0x100, BitVec.ofNat 64 (k.pl.toNat + if k.rf then 4 else 0)), (0x101, k.fpmode), (0x102, k.sticky), (0x103, k.repst),
        (0x104, k.repbase), (0x105, k.vpin), (0x106, k.stkhold)] → ∃ u, Completes (.kget d n) s u ∧ SetsX s u d w)
    ∧ (∀ w, (n, w) ∈ [(0x200#15, k.tvec), (0x201, k.tcause), (0x202, k.epc), (0x203, k.tval), (0x204, k.tdeleg)] →
      (k.pl ≠ 0 → ∃ u, Completes (.kget d n) s u ∧ SetsX s u d w) ∧ (k.pl = 0 → ∃ t, TrapsWith (.kget d n) s .privilege t))
    ∧ (k.pl.toNat < 2 → ∃ t, TrapsWith (.kget d 0x300) s .privilege t)
    ∧ (k.pl.toNat = 2 → ∃ u, Completes (.kget d 0x300) s u ∧ SetsX s u d s.dev.l2.reg)
    ∧ (∀ k', (n, k') ∈ [(0x101#15, { k with fpmode := low v 3 }), (0x102, { k with sticky := low v 3 })] → Completes (.kset a n) s (s.setK k'))
    ∧ (∀ k', (n, k') ∈ [(0x103#15, { k with repst := low v 33 }), (0x104, { k with repbase := BitVec.ofNat 64 (bits v 55 2 * 4) }),
        (0x106, { k with stkhold := BitVec.ofNat 64 (min (bits v 10 0) 1024 + if v.getLsbD 11 then 2 ^ 11 else 0) }),
        (0x200, { k with tvec := BitVec.ofNat 64 (bits v 55 2 * 4) }), (0x201, { k with tcause := low v 10 }),
        (0x202, { k with epc := low v 56 }), (0x203, { k with tval := v })] →
      (k.pl ≠ 0 → Completes (.kset a n) s (s.setK k')) ∧ (k.pl = 0 → ∃ t, TrapsWith (.kset a n) s .privilege t))
    ∧ (k.pl.toNat = 2 → Completes (.kset a 0x204) s (s.setK { k with tdeleg := BitVec.ofNat 64 (bits v 36 1 * 2) }))
    ∧ (k.pl.toNat < 2 → (∃ t, TrapsWith (.kset a 0x204) s .privilege t) ∧ ∃ t, TrapsWith (.kset a 0x300) s .privilege t)
    ∧ (n ∈ [0x100#15, 0x105] → k.pl.toNat < 3 → ∃ t, TrapsWith (.kset a n) s .privilege t)
    ∧ (k.pl.toNat = 2 → s.dev.l2.switching = none →
      (bits v 3 0 ≠ (bits s.dev.l2.reg 3 0 + 1) % 16 → TrapsWith (.kset a 0x300) s .l2mapInvalid 8)
      ∧ (∀ i, bits v 3 0 = (bits s.dev.l2.reg 3 0 + 1) % 16 → s.dev.badEntry (s.readTable (bits v 51 12)) = some i →
        TrapsWith (.kset a 0x300) s .l2mapInvalid (BitVec.ofNat 64 i))
      ∧ (bits v 3 0 = (bits s.dev.l2.reg 3 0 + 1) % 16 → s.dev.badEntry (s.readTable (bits v 51 12)) = none →
        exec (.kset a 0x300) s = .next { s with
          dev.l2.switching := some (BitVec.ofNat 64 (bits v 3 0 + bits v 51 12 * 4096), s.readTable (bits v 51 12)), core.wait := .other }))
    ∧ (∀ reg es, k.pl.toNat = 2 → s.dev.l2.switching = some (reg, es) →
      ((∀ g ∈ s.dev.l2.slices.toList, g.toNat = bits reg 3 0) → s.dev.l2.handoffs = [] →
        Completes (.kset a 0x300) s { s with dev.l2 := { s.dev.l2 with reg := reg, entries := es, switching := none, core := reg.setWidth 4 } })
      ∧ ((∃ g ∈ s.dev.l2.slices.toList, g.toNat ≠ bits reg 3 0) ∨ s.dev.l2.handoffs ≠ [] → Waits (.kset a 0x300) s .other))
    ∧ (let stops : Prop := (s.partAt s.part).pmode = true ∧ k.pl = 0 ∧ s.core.evictReq.isSome = true ∧ (s.partAt s.part).freeSlot.isSome = true
      (stops → exec (.spt a) s = .next { s.advance with core.safe := some (v.setWidth 16) }) ∧ (¬stops → exec (.spt a) s = .next s.advance))
    ∧ (k.pl.toNat = 2 → s.core.sb = [] → ∃ t, exec .halt s = .next t ∧ t.core.run = .halted ∧ t.pc = s.pc + 4
      ∧ t.mgmt.reports = s.mgmt.reports ++ [(s.core.num, 0)] ∧ t.core.retired = s.core.retired + 1)
    ∧ (k.pl.toNat ≠ 2 → ∃ t, TrapsWith .halt s .privilege t)
    ∧ (∀ (i : Instr) (hit : Nat → Nat → Bool) (w : BitVec 7),
      (i = .tlbiAll ∧ hit = fun _ _ => true) ∨ (i = .tlbiVa a ∧ hit = fun b n => b / 2 ^ n == addrOf v / 2 ^ n)
        ∨ (i = .tlbiBlk a w ∧ hit = fun b n => b / 2 ^ max n w.toNat == addrOf v / 2 ^ max n w.toNat) →
      let kept (e : TlbEntry) : Bool := !(e.part == s.part && (List.range (max e.pages 1)).any (fun i => hit (e.vbase + i * 2 ^ e.size) e.size))
      (k.pl = 0 → ∃ t, TrapsWith i s .privilege t)
      ∧ (k.pl ≠ 0 → Settled s → (∃ g ∈ s.heldPages, hit g.1 g.2 = true) → Waits i s .other)
      ∧ (k.pl ≠ 0 → Settled s → (∀ g ∈ s.heldPages, hit g.1 g.2 = false) → ∃ u, Completes i s u
        ∧ u.core.tlb = s.core.tlb.filter kept
        ∧ u.dev.hier.tlb = s.dev.hier.tlb.filter kept
        ∧ u.dev.hier.upper = s.dev.hier.upper.filter (fun e => !(e.part == s.part && hit (e.index * 2 ^ e.lo) e.lo))
        ∧ { u.dev.hier with tlb := s.dev.hier.tlb, upper := s.dev.hier.upper } = s.dev.hier
        ∧ (u.partAt s.part).launches = (s.partAt s.part).launches.map (fun l =>
          { l with xlat := l.xlat.filter (fun e => !hit (e.1 * 4096) e.2.2) })
        ∧ { u with core.tlb := s.core.tlb, parts := s.parts, dev.hier := s.dev.hier } = s))

/-- Taking a trap and returning from one. At unit level a cause that is not delegated enters the handler: k.epc, k.tcause and k.tval are
saved, the level is 1, the frame is left and pc is k.tvec. A delegated one, or one with no handler, parks the unit with its record, and so
does a trap inside the handler; a trap of firmware halts the core. sret restores the level, the frame or pc. No register of the unit
changes. The steps TRAP_ENTRY and REPORT_AND_SUSPEND take the trap that the oldest instruction's fetch or decoding raises, and nothing
else (which traps are theirs is the model's reading, log entry 60) (01 R41; 14 R360 to R365, R370, R371). -/
def Obligations.TrapsAndReturns : Prop :=
  ∀ (s : State) (cause : BitVec 6) (f : Bool) (epc : BitVec 56) (tval : Word64) (paddr : Nat),
    let t := s.takeTrap cause f epc tval paddr
    let same (t : State) : Prop := (∀ r, t.x r = s.x r) ∧ (∀ r, t.t r = s.t r) ∧ (∀ r, t.mbox r = s.mbox r) ∧ (∀ q, t.stream q = s.stream q)
      ∧ t.core.unit.ident = s.core.unit.ident ∧ t.core.frame = [] ∧ t.core.sb = s.core.sb ∧ t.core.rob = [] ∧ t.core.front.decoded = []
    let inCore : Prop := s.k.pl = 0 ∧ s.k.tdeleg.getLsbD cause.toNat = false ∧ s.k.tvec ≠ 0
    same t
    ∧ (inCore → t.core.run = .running ∧ t.pc = s.k.tvec.setWidth 56 ∧ t.k.pl = 1 ∧ t.k.rf = false ∧ t.k.epc = epc.zeroExtend 64 ∧ t.k.tval = tval
      ∧ bits t.k.tcause 5 0 = cause.toNat ∧ t.k.tcause.getLsbD 6 = f ∧ bits t.k.tcause 8 7 = 0 ∧ t.k.tcause.getLsbD 9 = s.k.rf
      ∧ bits t.k.tcause 63 10 = 0 ∧ t.k.repst = s.k.repst ∧ t.k.repbase = s.k.repbase ∧ t.k.sticky = s.k.sticky ∧ t.k.fpmode = s.k.fpmode
      ∧ t.k.vpin = s.k.vpin ∧ t.k.tvec = s.k.tvec ∧ t.k.tdeleg = s.k.tdeleg)
    ∧ (¬inCore → s.k.pl.toNat ≤ 1 → t.core.run = .suspended ⟨cause, f, s.k.pl == 1, tval, paddr⟩ ∧ t.pc = epc ∧ t.k = s.k)
    ∧ (s.k.pl = 2 → t.core.run = .halted ∧ t.k = s.k ∧ t.mgmt.reports = s.mgmt.reports ++ [(s.core.num, cause)])
    ∧ (∀ code : BitVec 15, exec (.trap code) s = .next (s.takeTrap 4 false s.pc (code.zeroExtend 64) 0))
    ∧ exec .brk s = .next (s.takeTrap 5 false s.pc 0 0)
    ∧ (s.k.pl = 0 → ∃ w, TrapsWith .sret s .privilege w)
    ∧ (bits s.k.tcause 8 7 = 3 ∨ s.k.pl.toNat < bits s.k.tcause 8 7 → ∃ w, TrapsWith .sret s .privilege w)
    ∧ (s.k.pl ≠ 0 → bits s.k.tcause 8 7 ≤ s.k.pl.toNat → bits s.k.tcause 8 7 ≠ 3 → s.k.epc.toNat % 4 ≠ 0 → TrapsWith .sret s .pcAlign s.k.epc)
    ∧ (s.k.pl ≠ 0 → bits s.k.tcause 8 7 ≤ s.k.pl.toNat → bits s.k.tcause 8 7 ≠ 3 → s.k.epc.toNat % 4 = 0 →
      let fetched : Prop := s.fetchTaken (s.k.frameAddr 0) (s.k.n1 + 1) = true
      (s.k.v = false → ∃ u, exec .sret s = .next u ∧ u.pc = s.k.epc.setWidth 56 ∧ u.k.pl.toNat = bits s.k.tcause 8 7 ∧ u.k.rf = false
        ∧ { u.k with status := 0 } = { s.k with status := 0 } ∧ u.core.retired = s.core.retired + 1 ∧ u.blankFlow = s.blankFlow)
      ∧ (∀ is, s.k.v = true → s.k.pos ≤ s.k.n1 → s.k.iter ≤ s.k.k1 → fetched → s.capture (s.k.frameAddr 0) (s.k.n1 + 1) = .words is →
        ∃ u, exec .sret s = .next u ∧ u.core.frame = is ∧ u.pc = s.k.frameAddr s.k.pos ∧ u.k.pl.toNat = bits s.k.tcause 8 7
          ∧ u.k.rf = true ∧ u.k.repst = s.k.repst ∧ ∀ r, u.x r = s.x r)
      ∧ (∀ c va p, s.k.v = true → s.k.pos ≤ s.k.n1 → s.k.iter ≤ s.k.k1 → fetched → s.capture (s.k.frameAddr 0) (s.k.n1 + 1) = .fetchFault c va p →
        TrapsWith .sret s c (va.zeroExtend 64))
      ∧ (∀ va, s.k.v = true → s.k.pos ≤ s.k.n1 → s.k.iter ≤ s.k.k1 → fetched → s.capture (s.k.frameAddr 0) (s.k.n1 + 1) = .content va →
        TrapsWith .sret s .repContent (va.zeroExtend 64))
      ∧ (s.k.v = true → s.k.n1 < s.k.pos ∨ s.k.k1 < s.k.iter → TrapsWith .sret s .repContent s.k.repst))
    ∧ (s.frontTrap = none → exec (.trapEntry cause f epc tval) s = .next s ∧ exec (.reportAndSuspend cause f epc tval paddr) s = .next s)
    ∧ (∀ (u : State),
      s.core.run = .running → s.core.safe = none → s.core.exempt = true → s.k.rf = false → epc = s.pc → s.fetchTaken s.pc 1 = true →
      (∃ c, s.fetchWord s.pc = .error (c, paddr) ∧ c.code = cause ∧ f = true ∧ tval = s.pc.zeroExtend 64 ∧ u = s)
        ∨ (∃ w x r, s.fetchWord s.pc = .ok (w, x) ∧ decode w = .error r ∧ cause = Cause.illegalInsn.code ∧ f = false ∧ tval = w.zeroExtend 64
          ∧ paddr = 0 ∧ u = s.fetched s.pc x) →
      (inCore → exec (.trapEntry cause f epc tval) s = .next (u.takeTrap cause f epc tval paddr))
      ∧ (¬inCore → s.k.pl.toNat ≤ 1 → exec (.reportAndSuspend cause f epc tval paddr) s = .next (u.takeTrap cause f epc tval paddr)))

/-! What the memory system, the services and the links do on their own. -/

/-- A page swap, once the capacity page has missed often enough, keeps the contents of every address and exchanges two ways of its group's remap
entry; a port error leaves it as it was and reaches the owner quadrant's log. A port that is down makes its pages uncorrectable, but for lines
that the L2 holds. The scrubber reserves a correctable granule and writes it back unless the reservation is gone. A slice adopts the broadcast
generation once: the lines that leave it go from the L2, a dirty one with its uncorrectable granules poisoned, and its directory, whose entries
pass to the new home by handoff; a redirect gives the core the new generation. A host access and a peer's request are performed at the home, where
they are allowed, and do not reach pool or table memory; an answer ends the wait of the request it belongs to (10 R249, R258, R259; 11 R286; 12
R296; 14 R374, R379; 16 R406, R407, R417, R425, R427). The model's choices: a log entry's bytes and the quadrant that takes it (log entry 10), the
log of a swap that is given up by the owner of its group (58), and what a slice gives up as it adopts a table, with the generation that a redirect
gives the core (37). -/
def Obligations.MemorySystemEvents : Prop :=
  ∀ (s : State), s.Inv →
    (∀ (g way : Nat) (err : Bool), g < 0x7FC000 → 1 ≤ way → way ≤ 4 → s.wayExists g way = true →
      let misses := ((s.dev.hier.misses.find? (fun e => e.1 == (portWay (s.remapOf g) (way - 1), g))).map (·.2)).getD 0
      (misses < s.dev.hier.swapAt → exec (.pageSwap g way err) s = .next s)
      ∧ (s.dev.hier.swapAt ≤ misses → ∃ t, exec (.pageSwap g way err) s = .next t
        ∧ (err = false → s.dev.portDown.getLsbD (way - 1) = false → s.inPool (remapBase + 2 * g) 2 = false → t.blankMem = s.blankMem
          ∧ fastWay (t.remapOf g) = portWay (s.remapOf g) (way - 1) ∧ portWay (t.remapOf g) (way - 1) = fastWay (s.remapOf g)
          ∧ (∀ j, j < 4 → j ≠ way - 1 → portWay (t.remapOf g) j = portWay (s.remapOf g) j)
          ∧ ∀ q, q < remapBase + 2 * g ∨ remapBase + 2 * g + 2 ≤ q → t.newest q = s.newest q)
        ∧ (err = true ∨ s.dev.portDown.getLsbD (way - 1) = true → { t with mgmt.log := s.mgmt.log, mgmt.otherLogs := s.mgmt.otherLogs } = s
          ∧ t.mgmt.log.length = s.mgmt.log.length + (if g % 32 / 4 = 0 then 1 else 0)
          ∧ t.mgmt.otherLogs.map (·.1) = s.mgmt.otherLogs.map (·.1) ++ if g % 32 / 4 = 0 then [] else [g % 32 / 4])))
    ∧ (∀ port : Fin 4, ∃ t, exec (.cxlPortDown port) s = .next t ∧ { t with dev.portDown := s.dev.portDown } = s
      ∧ (∀ i : Fin 4, t.dev.portDown.getLsbD i = (s.dev.portDown.getLsbD i || i == port))
      ∧ ∀ g, s.portOf (64 * g) = some port.val → s.dev.hier.line? (g / 2) = none → t.badGranule g = true)
    ∧ (∀ g, ∃ t, exec (.patrolScrubRead g) s = .next t
      ∧ (s.dev.granule g = some .correctable → g ∈ t.dev.reserved ∧ { t with dev.reserved := s.dev.reserved } = s)
      ∧ (s.dev.granule g = some .uncorrectable → t.mgmt.log.length + t.mgmt.otherLogs.length = s.mgmt.log.length + s.mgmt.otherLogs.length + 1
        ∧ { t with mgmt.log := s.mgmt.log, mgmt.otherLogs := s.mgmt.otherLogs } = s)
      ∧ (s.dev.granule g = none ∨ s.dev.granule g = some .poisoned → t = s))
    ∧ (∀ g, (g ∉ s.dev.reserved → exec (.scrubWriteback g) s = .next s)
      ∧ (g ∈ s.dev.reserved → ∃ t, exec (.scrubWriteback g) s = .next t ∧ t.dev.granule g = none ∧ g ∉ t.dev.reserved
        ∧ (∀ h, h ≠ g → t.dev.granule h = s.dev.granule h) ∧ t.mem = s.mem ∧ t.core = s.core
        ∧ t.dev.reliability = (s.dev.countCorrected (s.memoryBlock g)).reliability))
    ∧ (∀ i : Fin 32, (s.dev.l2.switching = none → exec (.l2mapAdoption i) s = .next s)
      ∧ (∀ reg es, s.dev.l2.switching = some (reg, es) → s.dev.l2.slices[i] = reg.setWidth 4 → exec (.l2mapAdoption i) s = .next s)
      ∧ (∀ reg es, s.dev.l2.switching = some (reg, es) → s.dev.l2.slices[i] ≠ reg.setWidth 4 →
        let leaves (l : Nat) : Prop := (l ∈ s.dev.hier.l2.map (·.line) ∨ l ∈ s.dev.hier.dir.map (·.1))
          ∧ s.dev.homeOf (l * 128) = some i.val ∧ homeSlice (bits reg 51 12) es (l * 128) ≠ some i.val
        ∃ t, exec (.l2mapAdoption i) s = .next t
          ∧ (∀ k : Fin 32, t.dev.l2.slices[k] = if k = i then reg.setWidth 4 else s.dev.l2.slices[k])
          ∧ (∀ h, h ∈ t.dev.l2.handoffs ↔ h ∈ s.dev.l2.handoffs ∨ (leaves h.1 ∧ h.2 = s.dev.hier.recorded h.1))
          ∧ (∀ l, leaves l → t.dev.hier.line? l = none ∧ t.dev.hier.recorded l = 0)
          ∧ (∀ l, ¬leaves l → t.dev.hier.line? l = s.dev.hier.line? l ∧ t.dev.hier.recorded l = s.dev.hier.recorded l)
          ∧ (∀ g, g ∈ t.dev.reserved ↔ g ∈ s.dev.reserved ∧ ¬(leaves (g / 2) ∧ (s.dev.hier.line? (g / 2)).any (·.dirty) = true))
          ∧ (let back (k : Nat) : Prop := leaves (k / 2) ∧ (s.dev.hier.line? (k / 2)).any (·.dirty) = true
            ∀ k v, (k, v) ∈ t.dev.granules ↔ (¬back k ∧ (k, v) ∈ s.dev.granules)
              ∨ (back k ∧ v = .poisoned ∧ ∃ w, w ≠ .correctable ∧ (k, w) ∈ s.dev.granules))
          ∧ { t with dev.l2 := s.dev.l2, dev.hier := s.dev.hier, dev.reserved := s.dev.reserved, dev.granules := s.dev.granules,
                     mem := s.mem } = s
          ∧ ((∀ l ∈ s.dev.hier.l2, l.dirty = false → l.under = none) → t.mem = s.mem)))
    ∧ (∀ line, (s.dev.l2.handoffs.find? (fun e => e.1 == line) = none → exec (.lineHandoff line) s = .next s)
      ∧ (∀ v, s.dev.l2.handoffs.find? (fun e => e.1 == line) = some (line, v) → ∃ t, exec (.lineHandoff line) s = .next t
        ∧ t.dev.hier.recorded line = s.dev.hier.recorded line ||| v ∧ t.dev.l2.handoffs = s.dev.l2.handoffs.filter (fun e => e.1 != line)
        ∧ (s.dev.hier.dir.length < 65536 → t.core.invals = s.core.invals)
        ∧ (∀ e ∈ s.dev.hier.dir, e.1 ≠ line → e.2.getLsbD s.cluster = true → e ∉ t.dev.hier.dir → (e.1, Path.c) ∈ t.core.invals)
        ∧ ((s.dev.hier.dir.map (·.1)).Nodup → ∀ l, (s.dev.hier.recorded l).getLsbD s.cluster = true →
          (t.dev.hier.recorded l).getLsbD s.cluster = true)
        ∧ { t with dev.l2.handoffs := s.dev.l2.handoffs, dev.hier.dir := s.dev.hier.dir, core.invals := s.core.invals } = s))
    ∧ (∀ reg es, s.dev.l2.switching = some (reg, es) → (∃ k : Fin 32, s.dev.l2.slices[k] = reg.setWidth 4) →
      exec .requestRedirect s = .next { s with dev.l2.core := reg.setWidth 4 })
    ∧ ((∀ reg es, s.dev.l2.switching = some (reg, es) → ∀ k : Fin 32, s.dev.l2.slices[k] ≠ reg.setWidth 4) →
      exec .requestRedirect s = .next s)
    ∧ (∀ (pa : Nat) (data : List Byte),
      let allowed : Prop := s.mgmt.boot ≠ .recovery ∧ s.mgmt.boot ≠ .tripped ∧ ∀ b ∈ blocksOf pa (max data.length 1), s.physOk b = true
      (¬allowed → exec (.hostMemoryAccess pa data) s = .next s)
      ∧ (allowed → ∃ t, exec (.hostMemoryAccess pa data) s = .next t ∧ t.blankMem = s.blankMem
        ∧ ∀ q, t.newest q = if s.lands pa data.length q then data.getD (q - pa) 0 else s.newest q))
    ∧ (∀ (dev part pa : Nat) (op : RemoteOp), s.acceptor dev part pa op = none → exec (.inboundRemoteRequest dev part pa op) s = .next s)
    ∧ (∀ (dev part pa n : Nat) (d : List Byte) (f : BitVec 4) (b cmp : Word64) (p : BitVec 3),
      (s.acceptor dev part pa (.get n) = some p → exec (.inboundRemoteRequest dev part pa (.get n)) s = .next s)
      ∧ (s.acceptor dev part pa (.put d) = some p → 8 < d.length ∨ s.homeBad pa d.length = false →
        ∃ t, exec (.inboundRemoteRequest dev part pa (.put d)) s = .next t ∧ t.blankMem = s.blankMem
          ∧ ∀ q, t.newest q = if s.lands pa d.length q then d.getD (q - pa) 0 else s.newest q)
      ∧ (s.acceptor dev part pa (.atomic f n b cmp) = some p → ((linesOf pa n).foldl State.writeBackLine s).homeBad pa n = false →
        ∃ t, exec (.inboundRemoteRequest dev part pa (.atomic f n b cmp)) s = .next t ∧ t.blankMem = s.blankMem
          ∧ ∀ q, t.newest q = if s.lands pa n q then byteOf (amoFn f n (s.newestNat pa n) (truncTo n b) (truncTo n cmp)) (q - pa)
            else s.newest q))
    ∧ (∀ (va task launch : Nat) (r : RemoteReply),
      let old := s.core.unacked.find? (fun e => e.va == va && e.task.toNat == task && e.launch.toNat == launch)
      (old.isSome = true → ∃ t, exec (.remoteResponse va task launch r) s = .next t
        ∧ t.core.unacked.length + 1 = s.core.unacked.length
        ∧ (∀ e, old = some e → r = .ack → s.cutOff (e.writes.headD (0, [])).1 = false → { t with core.unacked := s.core.unacked } = s))
      ∧ (∀ q, old = none → s.core.remote = some q → q.va = va → s.core.unit.ident.task.toNat = task → s.core.unit.ident.launch.toNat = launch →
        s.core.reply = none → exec (.remoteResponse va task launch r) s = .next { s with core.reply := some (if s.cutOff q.pa then .unreachable else r) }))

/-- The reclaimer takes the oldest queued block of its quadrant: with no reference left its name is gone, with its leaf-cache entries, and a
node's references on its children are released; otherwise the block stays and may be queued again. A pin table entry goes with its last
holder, and its reference on the root with it (12 R302, R315, R317). -/
def Obligations.BerylEvents : Prop :=
  ∀ (s : State), s.Inv →
    (∀ q, s.beryl.queue.find? (fun e => ownerOf e.2 == q) = none → exec (.blockReclaim q) s = .next s)
    ∧ (∀ q e k, s.beryl.queue.find? (fun e => ownerOf e.2 == q) = some e → s.beryl.find e.1 e.2 = some k →
      ∃ t, exec (.blockReclaim q) s = .next t ∧ e ∉ t.beryl.queue ∧ { t with beryl := s.beryl } = s
        ∧ ((∀ c ∈ k.counts, c = 0) → t.beryl.find e.1 e.2 = none ∧ (∀ c ∈ t.beryl.leafCache, keyNames c e.1 e.2 = false)
          ∧ (k.node = false → t.beryl.blocks = s.beryl.blocks.filter (fun j => !(j.region == e.1 && j.name == e.2)))
          ∧ (∀ j p, k.node = true → s.beryl.find e.1 j = some p → j ≠ e.2 → j ≠ 0 → p.count k.part < 2 ^ 28 - 1 →
            let uses := (List.range 128).countP (fun c => s.childName (s.blockPa k) c == j)
            ∃ p', t.beryl.find e.1 j = some p' ∧ p'.count k.part = p.count k.part - uses))
        ∧ ((∃ c ∈ k.counts, c ≠ 0) → t.beryl.blocks.map (fun j => { j with queued := false })
            = s.beryl.blocks.map (fun j => { j with queued := false }) ∧ ∃ j, t.beryl.find e.1 e.2 = some j ∧ j.queued = false))
    ∧ (∀ n, n ∉ s.core.oldPins → exec (.pinEntryRelease n) s = .next s)
    ∧ (∀ n p, n ∈ s.core.oldPins → s.beryl.pins.find? (fun p => p.entry == n) = some p →
      ∃ t, exec (.pinEntryRelease n) s = .next t ∧ t.core.oldPins = s.core.oldPins.erase n
        ∧ { t with core.oldPins := s.core.oldPins, beryl := s.beryl } = s
        ∧ (1 < p.holders → t.beryl = { s.beryl with pins := s.beryl.pins.map (fun k =>
            if k.entry = n then { k with holders := k.holders - 1 } else k) })
        ∧ (p.holders ≤ 1 → (∀ k ∈ t.beryl.pins, k.entry ≠ n) ∧ t.beryl.blocks = (s.beryl.unref p.region p.root p.part).blocks))

/-- The core's pipeline. The front end fetches and decodes words along the predicted path, which leaves only translations and lines behind; a walk
sets ac and dt. The next instruction is dispatched within the limits of the reorder buffer, with the physical registers of what it writes; the
oldest that can issue goes to the lowest free engine of its class, or waits for an older result, but not for an older access whose pointer it uses
advanced, nor for one whose bytes it does not meet, at its own address or at another; a matrix instruction that stacks, and would complete, waits
in the merge buffer, and one of another core joins an entry of the same key. An entry completes when it has its result, that of the matrix engine
with its checksum or after its rerun, a store when its translation and permission are checked, and up to four of the oldest retire, each while it
is the oldest; after a wrong prediction, as after a trap, everything younger goes. An entry of the merge buffer is dispatched when its hold ends,
and runs on its oldest contributor's engine when that is free (06 R172; 08 R202 to R212, R214; 09 R236; 10 R263; 11 R274; 12 R308, R320 to R323,
R325). The model's choices: an instruction has its whole effect when it is the oldest (log entry 39), which of several that can complete does so
first (11), the homes that take a fetch (37), and what the predictors hold (69). -/
def Obligations.Pipeline : Prop :=
  ∀ (s : State), s.Inv →
    let fetching : Prop := s.core.run = .running ∧ s.core.safe = none
    (∀ va, (¬fetching ∨ va ≠ s.fetchPc ∨ s.core.front.decoded ≠ [] ∨ s.nextExec.isSome = true ∨ s.fetchTaken va 1 = false
          ∨ (∃ f, s.fetchWord va = .error f) →
        exec (.instructionFetch va) s = .next s)
      ∧ (∀ w x, fetching → va = s.fetchPc → s.core.front.decoded = [] → s.nextExec = none → s.fetchTaken va 1 = true →
        s.fetchWord va = .ok (w, x) →
        ∃ t m, exec (.instructionFetch va) s = .next t ∧ Translated s { t with core.front := s.core.front } ((va.toNat / 4096, x) :: m)
          ∧ t.core.front.decoded.length ≤ 2
          ∧ (∀ i, decode w = .ok i → t.core.front.decoded.head? = some (va, i, s.core.front.predict va i))
          ∧ (∀ e, decode w = .error e → (∀ ea, x.entry = some ea → overlap ea 8 (x.paOf va.toNat) 4 = false) → t.core.front.decoded = [])))
    ∧ (∀ (f : Front) (pc : BitVec 56) (a b : BitVec 5) (o : BitVec 15) (n : BitVec 25),
      let ahead (k : Int) : BitVec 56 := pc + BitVec.ofInt 56 (4 * k)
      (f.history.find? (fun e => e.1 == pc.toNat) = none →
        ∀ i, i ∈ [Instr.beq a b o, .bne a b o, .blt a b o, .bge a b o] → f.predict pc i = if o.toInt < 0 then ahead o.toInt else pc + 4)
      ∧ f.predict pc (.j n) = ahead n.toInt ∧ f.predict pc (.call n) = ahead n.toInt
      ∧ (f.fetched pc (.call n)).returns = ((pc + 4) :: f.returns).take 32
      ∧ (∀ ra rest, f.returns = ra :: rest → f.predict pc (.jr 1) = ra ∧ (f.fetched pc (.jr 1)).returns = rest)
      ∧ (∀ ra, f.targets.find? (fun e => e.1 == pc.toNat) = some (pc.toNat, ra) → f.predict pc (.callr a b) = ra))
    ∧ (∀ (va : BitVec 56) (acc : Access) (x : Xl), s.core.run ≠ .idle → s.core.service = none → s.walk s.part va.toNat = .ok x →
      (leafCheck x acc s.k.pl false = .ok () → ∃ t, exec (.pageWalk va acc) s = .next t ∧ Translated s t [(va.toNat / 4096, x)]
        ∧ (∀ ea, x.entry = some ea → s.inPool ea 8 = false → s.newestNat ea 8 = x.pte.toNat → t.newestNat ea 8 = (x.pte ||| pteBits acc).toNat)
        ∧ ∃ e ∈ t.core.tlb, e.part = s.part ∧ e.size = x.size ∧ e.vbase = va.toNat / 2 ^ x.size * 2 ^ x.size ∧ e.pte = x.pte ||| pteBits acc)
      ∧ (∀ c, leafCheck x acc s.k.pl false = .error c → exec (.pageWalk va acc) s = .next s))
    ∧ (s.core.rob = [] → s.k.rf = false →
      s.dispatchNext = s.core.front.decoded.head?.map (fun d => (d.1, d.2.1, d.2.2, none)))
    ∧ (∀ i, s.core.rob = [] → s.k.rf = true → s.core.frame[s.k.pos]? = some i →
      s.dispatchNext = some (s.k.frameAddr s.k.pos, staggered s.k s.k.iter i, s.k.frameAddr (s.k.pos + 1), some (s.k.iter, s.k.pos)))
    ∧ (∀ (d a b c : BitVec 4) (x : BitVec 5), tilesTaken (.tadw d a b c x) = 3 ∧ tilesTaken (.mma d a b c 0 0) = 1
      ∧ (∀ d64 op ax, tilesTaken (.tred d a d64 1 op ax) = 0) ∧ (∀ m, tilesTaken (.smpl m a x) = 0)
      ∧ (∀ op, tilesTaken (.smrg d op x) = 1)
      ∧ ∀ r off, r ≠ 0 → scalarsTaken (.addi r x off) = 1 ∧ (r ≠ 31 → scalarsTaken (.ld r x 4 (off.setWidth 12)) = 2))
    ∧ (∀ (d : BitVec 4) (a b e : BitVec 5) (n : BitVec 15) (op : BitVec 2) (w : BitVec 3), holdsDispatch (.kset a n) = true
      ∧ holdsDispatch (.smrg d op a) = true ∧ holdsDispatch (.bcas a b e w) = true ∧ holdsDispatch (.vpub a b e w) = true
      ∧ holdsDispatch (.vsw a b) = true ∧ (∀ i, tileClass i = true → holdsDispatch i = false))
    ∧ (∀ (cls : EngineClass) (tiles scalars : Nat),
      (s.dispatchNext = none → exec (.dispatch cls tiles scalars) s = .next s)
      ∧ ∀ pc i nx at_, s.dispatchNext = some (pc, i, nx, at_) →
        let room : Prop := fetching ∧ s.core.rob.length < 256 ∧ (∀ d op xp, i = .smrg d op xp → s.core.rob = []) ∧ (tileClass i = true → (s.core.rob.filter (fun r => tileClass r.instr)).length < 96)
          ∧ scalars ≤ 97 - (s.core.rob.map (fun r => scalarsTaken r.instr)).sum ∧ (∀ r ∈ s.core.rob, holdsDispatch r.instr = false)
          ∧ cls = engineClass i ∧ tiles = tilesTaken i ∧ scalars = scalarsTaken i
        (¬room → exec (.dispatch cls tiles scalars) s = .next s)
        ∧ (room → ∃ t, exec (.dispatch cls tiles scalars) s = .next t
          ∧ t.core.rob = s.core.rob ++ [⟨s.core.front.nextTag, pc, i, at_, nx, none, none, false, none⟩]
          ∧ t.core.front = { s.core.front with
              nextTag := s.core.front.nextTag + 1,
              decoded := if at_.isSome then s.core.front.decoded else s.core.front.decoded.tail }
          ∧ { t with core.rob := s.core.rob, core.front := s.core.front } = s))
    ∧ (∀ (r : RobEntry) (rest : List RobEntry), s.core.rob = r :: rest → r.waits = true → headOnly r.instr = false →
      s.touches r.instr = [] → s.stackAhead r.tag = false →
      let c := engineClass r.instr
      let engines : List Nat := match c with
        | .copy => [0, 1]
        | .matrix => [2]
        | .vector => [3, 4]
        | .scalar => [5]
      let goes (e : Nat) : State := { s with
        core.rob := s.core.rob.map (fun k => if k.tag == r.tag then { k with engine := some e } else k),
        core.busy := if e == 5 then s.core.busy else e :: s.core.busy }
      (s.offerOf r = none ∨ s.matrixPasses r.instr = false →
        (∀ e, engines.find? (fun e => !s.core.busy.contains e) = some e → exec (.issue c none) s = .next (goes e))
        ∧ (engines.find? (fun e => !s.core.busy.contains e) = none → exec (.issue c none) s = .next s))
      ∧ (∀ o, s.offerOf r = some o → s.matrixPasses r.instr = true → rest = [] → s.dev.merge = [] →
        ∃ t, exec (.issue c none) s = .next t ∧ t.core.rob = [{ r with stacked := some 0 }] ∧ t.dev.merge.map (·.offers) = [[o]]
          ∧ { t with core.rob := s.core.rob, dev.merge := s.dev.merge } = s))
    ∧ (∀ (o r : RobEntry) (c : EngineClass), s.core.rob = [o, r] → o.engine.isSome = true → o.complete = false →
      (∃ t ∈ tWrites o.instr, t ∈ tSources r.instr) ∨ (engineClass o.instr ≠ .copy ∧ ∃ x ∈ xWrites o.instr, x ≠ 0 ∧ x ∈ xReads r.instr) →
      exec (.issue c none) s = .next s)
    ∧ (∀ (o r : RobEntry) (e : Nat), s.core.rob = [o, r] → o.tag ≠ r.tag → o.waits = false → r.waits = true → engineClass o.instr = .copy →
      engineClass r.instr = .copy → (∀ t ∈ tWrites o.instr, t ∉ tSources r.instr) → s.core.sb = [] → s.core.cmds = [] →
      (∀ g ∈ s.touches o.instr, ∀ h ∈ (s.afterEarly o).touches r.instr, s.touchMeets g h = false) →
      [0, 1].find? (fun e => !s.core.busy.contains e) = some e →
      exec (.issue .copy none) s = .next { s with core.rob := [o, { r with engine := some e }], core.busy := e :: s.core.busy })
    ∧ (∀ (c : EngineClass) (o : StackOffer), o.core / 4 = s.core.num.toNat / 4 → o.core ≠ s.core.num.toNat → o.rows ≤ 16 → o.part < 8 →
      (∀ i, s.mergeMatch o = none → s.dev.freeMerge = some i → ∃ t, exec (.issue c (some o)) s = .next t ∧ t.core = s.core
        ∧ t.dev.merge.map (fun e => (e.id, e.offers)) = s.dev.merge.map (fun e => (e.id, e.offers)) ++ [(i, [o])])
      ∧ (∀ e, s.mergeMatch o = some e → e.rows + o.rows ≤ 32 → ∃ t, exec (.issue c (some o)) s = .next t ∧ t.core = s.core
        ∧ t.dev.merge.map (fun k => (k.id, k.offers)) = s.dev.merge.map (fun k => (k.id, if k.id = e.id then k.offers ++ [o] else k.offers))
        ∧ (e.rows + o.rows = 32 ∨ e.pri < o.pri ∨ o.hold = 0 → ∀ k ∈ t.dev.merge, k.id = e.id → k.dispatched = true)))
    ∧ (∀ e,
      let done (r : RobEntry) : List RobEntry := s.core.rob.map (fun k => if k.tag == r.tag then { k with complete := true } else k)
      ((∀ r ∈ s.core.rob, r.engine = some e → r.complete = true) → exec (.engineCompletion e) s = .next s)
      ∧ (s.core.mismatch = none → ∃ t, exec (.engineCompletion e) s = .next t ∧ { t with core.rob := s.core.rob, tick := s.tick } = s
        ∧ (t.core.rob = s.core.rob ∨ ∃ r ∈ s.core.rob, r.engine = some e ∧ r.complete = false ∧ t.core.rob = done r))
      ∧ ∀ (r : RobEntry) (rest : List RobEntry), s.core.rob = r :: rest → r.engine = some e → r.complete = false →
        (∀ k ∈ rest, k.engine = some e → k.complete = true) →
        let at_ : State := { s with core.unit.pc := r.pc, core.wait := .none }
        (storesMemory r.instr = true ∧ s.dev.l2.switching = none)
          ∨ (storesMemory r.instr = false ∧ ∀ t, execEarly r.instr at_ = .next t → t.core.wait = .none) →
        (s.core.mismatch = none → exec (.engineCompletion e) s = .next { s with core.rob := done r })
        ∧ (∀ m t, s.core.mismatch = some m → engineClass r.instr = .matrix → execEarly r.instr at_ = .next t →
          t.core.retired ≠ s.core.retired → t.resultRows r.instr ≠ 0 →
          exec (.engineCompletion e) s = .next { s with
            core.mismatch := none, core.reruns := s.core.reruns + 1,
            core.rob := s.core.rob.map (fun k => if k.tag == r.tag then
              { k with complete := true, wrong := match m with
                | .once => k.wrong
                | .twice row => some (row % t.resultRows r.instr) } else k) }))
    ∧ (let n := match s.core.rob with
        | [] => 0
        | r :: _ => if headOnly r.instr then 1 else min 4 (s.core.rob.takeWhile (fun r => r.complete && !headOnly r.instr)).length
      exec .retirement s = .next { s with agenda := (s.core.rob.take n).map (fun r => .retire r.tag) ++ s.agenda })
    ∧ (∀ (tag : Nat) (rest : List Input), s.agenda = .retire tag :: rest →
      let t : State := { s with agenda := rest }
      (s.core.rob.head?.map (·.tag) = some tag → step s = Out.settled (t.turn exec))
      ∧ (s.core.rob.head?.map (·.tag) ≠ some tag → step s = .next t.mergeSettle))
    ∧ (∀ (t : State) (i : Instr) (r : RobEntry) (rest : List RobEntry), t.core.retired ≠ s.core.retired → t.core.rob = r :: rest →
      r.pc = s.pc → r.instr = i → t.core.run = .running →
      (r.next = t.pc → (s.leaveRob t i).core.rob = rest)
      ∧ (opensFrame i = true → (s.leaveRob t i).core.front.decoded = [])
      ∧ (r.next ≠ t.pc → r.at_ = none → (s.leaveRob t i).core.rob = [] ∧ (s.leaveRob t i).core.front.decoded = []))
    ∧ (∀ n, exec (.stackHoldExpiry n) s = .next { s with
        dev.merge := s.dev.merge.map (fun e => if e.id = n then { e with dispatched := true } else e) })
    ∧ (∀ n, (s.dev.merge.find? (fun e => e.id == n && e.dispatched) = none → exec (.stackedOperationIssue n) s = .next s)
      ∧ ∀ e o rest, s.dev.merge.find? (fun e => e.id == n && e.dispatched) = some e → e.offers = o :: rest →
        (o.core = s.core.num.toNat → 2 ∈ s.core.busy → exec (.stackedOperationIssue n) s = .next s)
        ∧ (o.core = s.core.num.toNat → 2 ∉ s.core.busy → ∃ t, exec (.stackedOperationIssue n) s = .next t ∧ t.core.busy = 2 :: s.core.busy
          ∧ t.core.rob = s.core.rob.map (fun r => if r.stacked = some n then { r with stacked := none, engine := some 2 } else r)
          ∧ t.dev.merge = s.dev.merge.filter (fun f => f.id != n))
        ∧ (o.core ≠ s.core.num.toNat → ∃ t, exec (.stackedOperationIssue n) s = .next t ∧ t.core.busy = s.core.busy
          ∧ t.dev.merge = s.dev.merge.filter (fun f => f.id != n)))

/-! The dispatcher and the spill engine. -/

/-- A unit starts with x10 at the parameter pointer and every other scalar register zero, null tiles, empty mailboxes, unbound streams, unit
level, and the vector and delegation of its partition (01 R10, R11; 09 R223). The dispatcher of an enabled partition that is not held starts the
unit of its choice on the preferred core, with the context of its start, and the launch runs; on a core that a time slice has freed for a launch,
its lowest unstarted unit starts; with no free core room is made for an urgent launch that may occupy one core more or where a parked unit holds a
core that a launch needs, on the lowest such core; a concurrent launch starts whole or reserves, also for units that were pre-empted. A unit of a
parallel launch with unstarted units is pre-empted when no core is free. A unit ends once its exit has retired and its own stores and sends have
left; a launch, once all its units and commands have, with its counter incremented (09 R216, R217, R223, R224, R230 to R233, R237; 14 R381). A
start leaves the core it does not use alone, but for the mode of the L1 in its cluster (10 R245) and the local stores that the started core holds,
which go to their images (14 R385). The model's readings: the reserve for the pre-empted units of a concurrent launch (log entry 50), and a
completion counter that cannot be corrected, which is incremented as it is stored (72). -/
def Obligations.UnitsAndLaunches : Prop :=
  (∀ (pt : Part) (l : Launch) (id : Ident),
    let u := unitStartCtx pt l id
    u.pc = BitVec.ofNat 56 l.record.prog ∧ u.ident = id ∧ u.k.pl = 0 ∧ u.k.rf = false ∧ u.k.sticky = 0 ∧ u.k.vpin = 0
    ∧ u.k.stkhold = 64 ∧ u.k.tvec = pt.tvecdef ∧ u.k.tdeleg = pt.tdlgdef
    ∧ (∀ r : Fin 32, u.x[r] = if r.val = 10 then l.record.param else 0)
    ∧ (∀ r : Fin 16, u.t[r] = Tile.null) ∧ (∀ m : Fin 8, (u.m[m]).full = false) ∧ (∀ q : Fin 4, (u.q[q]).bound = false))
  ∧ (∀ (s : State) (p : Fin 8), s.Inv →
    let q := BitVec.ofFin p
    let pt := s.partAt q
    let launches (t : State) : List (BitVec 32) := (t.partAt q).launches.map (·.id)
    let me := s.core.num.toNat
    let others (t : State) (core : Nat) : Prop :=
      core ≠ me → t.core.unit = s.core.unit ∧ t.core.run = s.core.run
        ∧ (core / 4 ≠ me / 4 → (∀ r : Fin 8, ∀ v ∈ (s.parts[r]).saved, v.far = none) → t.core = s.core)
    let started (k : Launch) (u core : Nat) : Prop :=
      k.phase = .running ∧ k.nextUnit = u + 1
      ∧ k.units.getLast? = some ⟨u, if core = me then .here else .elsewhere core, false, 0, core, none, none, false, false⟩
    (∀ core, pt.en = false ∨ pt.held = true → exec (.unitStart p core) s = .next s)
    ∧ (∀ (core : Nat) (l : Launch), pt.en = true → pt.held = false → pt.turnOf core = some l →
      let room : Prop := core ∈ s.emptyCores q ∧ (l.record.maxc = 0 ∨ (l.cores me).length < l.record.maxc) ∧ s.modeOk q l core = true
      (room → ∃ t, exec (.unitStart p core) s = .next t ∧ launches t = launches s ∧ others t core
        ∧ (∀ k ∈ (t.partAt q).launches, k.id = l.id → started k l.nextUnit core)
        ∧ (core = me → t.core.run = .running ∧ t.core.unit = unitStartCtx pt l (l.record.ident l.id q l.nextUnit)))
      ∧ (¬room → exec (.unitStart p core) s = .next s))
    ∧ (∀ core, pt.en = true → pt.held = false → pt.turnOf core = none → s.freeCores q = [] →
      (∀ w task, s.urgent q = some w → s.victim q w = some task → exec (.unitStart p core) s = .next (s.requestEvict q task .priority)
        ∧ 6 ≤ w.pri ∧ (w.record.maxc = 0 ∨ (w.cores me).length < w.record.maxc)
        ∧ ∃ l ∈ pt.launches, l.pri < w.pri ∧ l.record.cls < 2 ∧ ∃ u ∈ l.units, BitVec.ofNat 32 (l.record.tbase + u.u) = task
          ∧ (u.occupies me).isSome = true)
      ∧ (∀ task rest, (s.urgent q).bind (s.victim q) = none → s.parked q = task :: rest →
        exec (.unitStart p core) s = .next (s.requestEvict q task .coreNeed))
      ∧ ((s.urgent q).bind (s.victim q) = none → s.parked q = [] → exec (.unitStart p core) s = .next s))
    ∧ (∀ (core : Nat) (c : Choice), pt.en = true → pt.held = false → pt.turnOf core = none → s.freeCores q ≠ [] → pt.reserve = none →
      s.choose q = some c →
      let l := c.launch
      let cores := s.placement q l
      let reserved : State := s.modPart q (fun k => { k with reserve := some l.id, rounds := c.rounds, deficits := c.deficits })
      let waits : State := match s.parked q with
        | [] => reserved
        | task :: _ => reserved.requestEvict q task .coreNeed
      (l.record.cls ≠ 2 → cores.head? = some core → pt.waitingSaved l = [] → l.nextUnit < l.record.units →
        ∃ t, exec (.unitStart p core) s = .next t ∧ launches t = launches s
          ∧ (∀ k ∈ (t.partAt q).launches, k.id = l.id → started k l.nextUnit core ∧ (l.admitted = false → k.admitted = true))
          ∧ (t.partAt q).eremain = (if l.admitted = true ∨ pt.budget = 0 then pt.eremain else pt.eremain - BitVec.ofNat 64 l.record.energy)
          ∧ (core = me → t.core.run = .running ∧ t.core.unit = unitStartCtx pt l (l.record.ident l.id q l.nextUnit))
          ∧ others t core)
      ∧ (l.record.cls = 2 → l.nextUnit ≠ 0 ∨ cores.length < l.record.units → exec (.unitStart p core) s = .next waits)
      ∧ (l.record.cls = 2 → l.nextUnit = 0 → l.record.units ≤ cores.length →
        ∃ t, exec (.unitStart p core) s = .next t ∧ (t.partAt q).reserve = none
          ∧ ∀ k ∈ (t.partAt q).launches, k.id = l.id → (k.units.map (·.core)).drop (k.units.length - l.record.units) = cores.take l.record.units))
    ∧ (∀ (task : BitVec 32) (l : Launch) (u : UnitRec), pt.findUnit task = some (l, u) →
      (l.record.cls = 1 → l.nextUnit < l.record.units → s.freeCores q = [] →
        exec (.timeSlicePreemption p task) s = .next (s.requestEvict q task .slice))
      ∧ (l.record.cls ≠ 1 ∨ l.record.units ≤ l.nextUnit ∨ s.freeCores q ≠ [] → exec (.timeSlicePreemption p task) s = .next s)
      ∧ (u.place = .exiting me → s.residentIs q task = true →
        let sends := s.core.net.filter (fun m => m.part == s.part && m.task == s.core.unit.ident.task)
        (s.core.run = .exited → Releasable s → sends = [] →
          ∃ t, exec (.unitEnd p task) s = .next t ∧ t.core.run = .idle ∧ t.core.unit = s.core.unit
            ∧ ∀ k ∈ (t.partAt q).launches, k.id = l.id → ∀ r ∈ k.units, r.u = u.u → r.place = .ended false)
        ∧ (s.core.run ≠ .exited ∨ ¬Releasable s ∨ sends ≠ [] → exec (.unitEnd p task) s = .next s))
      ∧ (∀ c, u.place = .elsewhere c ∨ (u.place = .exiting c ∧ (c ≠ me ∨ s.residentIs q task = false)) → ∃ t, exec (.unitEnd p task) s = .next t ∧ t.core.unit = s.core.unit ∧ t.core.run = s.core.run
        ∧ ∀ k ∈ (t.partAt q).launches, k.id = l.id → ∀ r ∈ k.units, r.u = u.u → r.place = .ended false))
    ∧ (∀ (id : BitVec 32) (l : Launch), pt.launch id = some l →
      let whole : Prop := l.cancelled = true ∨ (l.runnable = true ∧ l.units.length = l.record.units)
      let idle : Prop := ∀ c ∈ s.core.cmds, c.part = q → c.launch ≠ id
      (l.endedUnits = l.units.length → whole → idle → ∃ t, exec (.launchCompletion p id) s = .next t
        ∧ t = (s.countUp q l).endLaunch q l (if l.cancelled then 2 else if l.partialEnd then 1 else 0)
        ∧ (∀ k ∈ (t.partAt q).launches, k.id ≠ id) ∧ t.core.unit = s.core.unit)
      ∧ (l.endedUnits ≠ l.units.length ∨ ¬whole ∨ ¬idle → exec (.launchCompletion p id) s = .next s)
      ∧ (l.record.ccaddr = 0 → s.countUp q l = s)
      ∧ (∀ k, l.record.ccaddr ≠ 0 → l.xlat.find? (fun k => k.1 == l.record.ccaddr / 4096) = some k → s.physOk (k.2.1 + l.record.ccaddr % 4096) = true →
        let pa := k.2.1 + l.record.ccaddr % 4096
        ∀ a, (s.countUp q l).newest a = if s.lands pa 8 a then byteOf (s.newestNat pa 8 + 1) (a - pa) else s.newest a)))

/-- Eviction writes the context of a unit whose eviction is requested to a free slot, the tiles outside its live mask as null, and frees the
core, once its stores are performed; the units of a concurrent launch go together, with a slot for each, or stay; restoration takes a unit
back, or refuses a context that breaks its checks; migration moves a running unit to a free core. A resume request ends a suspension, with
the instruction again or at the handler, also before another core has saved the context; an evict request asks for an eviction (14 R366,
R368, R381 to R391; 09 R224, R232, R233; 12 R296; 15 R402; 16 R412). The model's readings: the refused resume actions and the restoration of
a concurrent group, which goes whole (log entry 50), the image of null tiles and of the containers outside the extents (58), the memory
that a partition may use for its slots (68), the pin, which is the dispatcher's and not the image's (76), what the loop keeps of the choice
of a unit that resumes (91), and the mask of a suspended or stopped unit in safe-point mode (92). -/
def Obligations.EvictionAndRestoration : Prop :=
  ∀ (s : State) (p : Fin 8) (task : BitVec 32) (l : Launch) (u : UnitRec),
    let q := BitVec.ofFin p
    let pt := s.partAt q
    let me := s.core.num.toNat
    pt.findUnit task = some (l, u) →
    let stands (t : State) (w : UnitWhere) : Prop := ∀ k ∈ (t.partAt q).launches, k.id = l.id → ∀ r ∈ k.units, r.u = u.u → r.place = w
    let taskOf (k : UnitRec) : BitVec 32 := BitVec.ofNat 32 (l.record.tbase + k.u)
    (∀ (slot : Nat) (live : BitVec 16), l.together u = [u] → u.place = .here → (∀ v ∈ pt.saved, v.slot ≠ slot) → slot < pt.savecnt.toNat → Releasable s →
      s.evictTurn q task = true → s.core.evictReq.isSome = true → s.core.run ≠ .exited → s.core.run ≠ .halted →
      s.mustMigrate q l u = false → s.evictMask q = some live →
      let c := s.core.unit.onlyLive live
      let stopped : Prop := s.core.run.susp.isSome = true ∨ s.core.run = .stopped
      ∃ t, exec (.eviction p task slot) s = .next t ∧ t.core.run = .idle ∧ t.core.evictReq = none ∧ t.core.lsHolder = some (q, task)
        ∧ stands t (.saved slot) ∧ (∃ v, (t.partAt q).saved = pt.saved ++ [v] ∧ v.slot = slot ∧ v.task = task ∧ v.launch = l.id
          ∧ v.image = true ∧ v.pin = (if s.k.pinned then some s.k.pinEntry else none) ∧ v.susp = s.core.run.susp ∧ (v.stopped = true ∨ v.susp.isSome = true ↔ stopped))
        ∧ (l.record.ibt = 0 → s.Inv → s.inPool (pt.slotPa slot) 0x12000 = false →
          (∀ (w : State) j, j < 18 → w.parts = s.parts → w.dev.claims = s.dev.claims → w.dev.l2 = s.dev.l2 → w.dev.cxl = s.dev.cxl →
            w.core.l1.dirty = [] → (∀ a, a < pt.slotPa slot ∨ pt.slotPa slot + 0x12000 ≤ a → w.newest a = s.newest a) →
            w.ownBytes q (pt.slotPa slot + 0x1000 * j) 0x1000 = true) →
          (∀ i b, (c.image (savedStatus s.k s.core.wait) s.core.num s.core.safe.isSome (decide stopped) live)[i]? = some b →
            t.newest (pt.slotPa slot + 0x10000 + i) = b)
          ∧ ∀ i : Fin 16, c.t[i].mapped = true → ∀ k < 4096,
            t.newest (pt.slotPa slot + 0x1000 * i.val + k) = c.t[i].image.getD k 0))
    ∧ (∀ slot c src, l.together u = [u] → u.place = .elsewhere c → (task, src) ∈ pt.evictReqs → s.evictTurn q task = true → s.mustMigrate q l u = false →
      (∀ v ∈ pt.saved, v.slot ≠ slot) → slot < pt.savecnt.toNat →
      let still : Prop := pt.pmode = true ∧ (u.susp.isSome = true ∨ u.stopped = true)
      (still → exec (.eviction p task slot) s = .next s) ∧ (¬still → ∃ t, exec (.eviction p task slot) s = .next t ∧ stands t (.saved slot) ∧ t.core.unit = s.core.unit
        ∧ (∀ e ∈ (t.partAt q).evictReqs, e.1 ≠ task)
        ∧ ∃ v, (t.partAt q).saved = pt.saved ++ [v] ∧ v.slot = slot ∧ v.task = task ∧ v.image = false ∧ v.pin = u.pin
          ∧ v.susp = u.susp.map (·.susp) ∧ v.stopped = u.stopped ∧ v.exempt = u.exempt ∧ v.noted = u.susp ∧ v.enter = none))
    ∧ (∀ slot, u.place = .here ∨ (∃ c, u.place = .elsewhere c) → (∀ v ∈ pt.saved, v.slot ≠ slot) → slot < pt.savecnt.toNat →
      pt.freeSlots.length < (l.together u).length ∨ (∃ k ∈ l.together u, (k = u ∨ k.u ≠ u.u)
        ∧ (∃ c, c < 128 ∧ k.occupies me = some c) ∧ s.evictPending q (taskOf k) k = false) →
      (∀ k ∈ l.together u, (k = u ∨ k.u ≠ u.u) ∧ ∃ c, c < 128 ∧ k.occupies me = some c) → (l.together u).Nodup →
      exec (.eviction p task slot) s = .next s)
    ∧ (∀ slot, l.record.cls = 2 → u ∈ l.together u → s.evictTurn q task = true → pt.pmode = false → (∀ v ∈ pt.saved, v.slot ≠ slot) →
      slot < pt.savecnt.toNat → (l.together u).length ≤ pt.freeSlots.length → ((l.together u).map taskOf).Nodup →
      (∀ k ∈ l.together u, s.evictPending q (taskOf k) k = true ∧ ∃ c, c < 128 ∧ k.place = .elsewhere c) →
      ∃ t, exec (.eviction p task slot) s = .next t ∧ t.core.unit = s.core.unit
        ∧ (t.partAt q).saved.length = pt.saved.length + (l.together u).length
        ∧ ∀ k ∈ (t.partAt q).launches, k.id = l.id → ∀ r ∈ k.units, (∃ m ∈ l.together u, m.u = r.u) → ∃ n, r.place = .saved n)
    ∧ (∀ slot, s.evictTurn q task = false → exec (.eviction p task slot) s = .next s)
    ∧ (∀ slot, (∃ v ∈ pt.saved, v.slot = slot) ∨ pt.savecnt.toNat ≤ slot → exec (.eviction p task slot) s = .next s)
    ∧ (∀ (slot core : Nat) (v : SavedUnit), pt.saved.find? (fun v => v.slot == slot) = some v → v.task = task →
      (v.susp.isSome = true ∨ v.stopped = true ∨ s.mayRestore q l = true) →
      (l.record.cls ≠ 2 → core ∈ s.placement q l → v.image = true → l.units.find? (fun k => k.place == .saved slot) = some u →
        let c := s.slotCtx q v u.u
        (c.restorable = true → ∃ t, exec (.restoration p slot core) s = .next t ∧ (∀ w ∈ (t.partAt q).saved, w.slot ≠ slot)
          ∧ stands t (if core = me then .here else .elsewhere core)
          ∧ (core = me → t.core.unit = (if v.susp.isSome ∨ v.stopped = true then c else c.resumed) ∧ t.core.lsHolder = none
            ∧ t.core.exempt = v.exempt ∧ t.core.evictReq = none ∧ t.core.badX = []
            ∧ t.core.run = match v.susp with
              | some r => .suspended r
              | none => if v.stopped then .stopped else .running)
          ∧ (core ≠ me → t.core.unit = s.core.unit)
          ∧ (∀ ch, v.susp = none → v.stopped = false → s.chosen q l = some ch →
            (t.partAt q).rounds = ch.rounds ∧ (t.partAt q).deficits = ch.deficits))
        ∧ (c.restorable = false → exec (.restoration p slot core) s = .next (s.refusal q u.core v.task l.id)))
      ∧ (l.record.cls ≠ 2 → core ∉ s.placement q l ∨ v.image = false → exec (.restoration p slot core) s = .next s)
      ∧ (l.record.cls = 2 →
        let group := pt.saved.filter (fun w => w.launch == l.id)
        let cores := s.placement q l
        (cores.length < group.length ∨ l.cores me ≠ [] → exec (.restoration p slot core) s = .next s)
        ∧ ((group.zip cores).contains (v, core) = true → group.length ≤ cores.length → l.cores me = [] →
          (∀ w ∈ group, w.image = true ∧ ∃ r, l.units.find? (fun k => k.place == .saved w.slot) = some r ∧ (s.slotCtx q w r.u).restorable = true) →
          ∃ t, exec (.restoration p slot core) s = .next t ∧ (∀ w ∈ (t.partAt q).saved, w.launch ≠ l.id)
            ∧ (t.partAt q).reserve = if pt.reserve = some l.id then none else pt.reserve)))
    ∧ (∀ dest, s.core.unit.ident.part = q → s.core.unit.ident.task = task → s.core.run = .running →
      u.place = .here → Releasable s → (∀ c ∈ s.core.cmds, c.part = q → c.task = task → c.holdsCore = false) → dest ≠ me →
      dest ∈ s.freeCores q → s.modeOk q l dest = true →
      (s.core.evictReq = some .parking → ((s.freeCores q).filter (s.modeOk q l)).head? = some dest) →
      ∃ t, exec (.migration dest) s = .next t ∧ t.core.run = .idle ∧ t.core.forward = s.core.forward ++ [⟨q, task, dest, false⟩]
        ∧ stands t (.elsewhere dest) ∧ t.core.l1.dirty = [])
    ∧ (∃ t, exec (.forwardingEntryExpiry task) s = .next t ∧ { t with core.forward := s.core.forward } = s
      ∧ ∀ e, e ∈ t.core.forward ↔ e ∈ s.core.forward ∧ e.task ≠ task)
    ∧ (s.mgmt.boot = .recovery ∨ s.mgmt.boot = .tripped →
      (∀ action, exec (.resume p task action) s = .next s) ∧ exec (.evict p task) s = .next s)
    ∧ (∀ r : Suspension, s.mgmt.boot ≠ .recovery → s.mgmt.boot ≠ .tripped → u.place = .here → s.core.run = .suspended r →
      exec (.resume p task 0) s = .next { s with core.unit := s.core.unit.resumed, core.run := .running, core.exempt := true }
      ∧ (r.nested = false → s.k.tvec ≠ 0 → ∃ t, exec (.resume p task 1) s = .next t ∧ t.core.run = .running ∧ t.pc = s.k.tvec.setWidth 56
        ∧ t.k.pl = 1 ∧ t.k.epc = s.pc.zeroExtend 64 ∧ t.k.tval = r.tval ∧ bits t.k.tcause 5 0 = r.cause.toNat ∧ t.core.exempt = true
        ∧ ∀ x, t.x x = s.x x)
      ∧ (r.nested = true ∨ s.k.tvec = 0 → exec (.resume p task 1) s = .next (s.refusal q u.core task l.id)))
    ∧ (s.mgmt.boot ≠ .recovery → s.mgmt.boot ≠ .tripped → u.place = .here → s.core.run = .stopped →
      (l.record.cls ≠ 2 → s.core.evictReq = some .debug → exec (.resume p task 0) s = .next { s with
        core.unit := s.core.unit.resumed, core.run := .running, core.exempt := true, core.evictReq := none })
      ∧ exec (.resume p task 1) s = .next (s.refusal q u.core task l.id))
    ∧ (∀ (slot : Nat) (v : SavedUnit), s.mgmt.boot ≠ .recovery → s.mgmt.boot ≠ .tripped → u.place = .saved slot → pt.saved.find? (fun v => v.slot == slot) = some v → v.susp.isSome = true →
      ∃ t, exec (.resume p task 0) s = .next t ∧ ∀ w ∈ (t.partAt q).saved, w.slot = v.slot → w.susp = none ∧ w.stopped = false ∧ w.exempt = true)
    ∧ (∀ (slot : Nat) (v : SavedUnit) (r : Suspension), s.mgmt.boot ≠ .recovery → s.mgmt.boot ≠ .tripped → u.place = .saved slot →
      pt.saved.find? (fun v => v.slot == slot) = some v → v.image = false → v.susp = some r → r.nested = false →
      (∀ f, v.noted = some f → f.noHandler = false → ∃ t, exec (.resume p task 1) s = .next t ∧ t.core.unit = s.core.unit
        ∧ ∀ w ∈ (t.partAt q).saved, w.slot = v.slot → w.susp = none ∧ w.stopped = false ∧ w.exempt = true ∧ w.enter = some f.susp)
      ∧ ((∀ f, v.noted = some f → f.noHandler = true) → exec (.resume p task 1) s = .next (s.refusal q u.core task l.id)))
    ∧ (s.mgmt.boot ≠ .recovery → s.mgmt.boot ≠ .tripped → l.record.cls ≠ 2 → u.place = .here → s.core.evictReq = none →
      exec (.evict p task) s = .next { s with
        core.evictReq := some .supervisor, dev.evictions := s.dev.evictions.filter (· != (q, task)) ++ [(q, task)] })

/-! Partitions, control, observation and management. -/

/-- A submission ring copies its next record and submits it, and counts it, while it is enabled and not overrun; a tail more than a ring's size
ahead sets the overrun and writes a record; srst clears it. Quadrants join a partition parked, park once empty and come back; close ends a job
that has no launch left. Held records are written in order when there is room, and the time-out raises the interrupt. A register write is one
aligned access of its register (09 R242, R243; 14 R365; 16 R409 to R414, R419 to R422). Host requests are carried out by a quadrant's service core
in the order of their arrival. A device in recovery mode or tripped takes none of these writes (18 R441, R447). The model's readings and choices:
the rings of a disabled partition copy nothing (log entry 52), a record where no memory or no domain is is dropped (68), a second tail that
exceeds a ring (103), and the events that write a register do so at once, beside the host requests that wait for a service core (83). -/
def Obligations.RingsAndPartitions : Prop :=
  ∀ (s : State) (p k : Fin 8),
    let q := BitVec.ofFin p
    let pt := s.partAt q
    let r := pt.rings[k]
    let ringAt (t : State) : Ring := (t.partAt q).rings[k]
    let up : Prop := s.mgmt.boot ≠ .recovery ∧ s.mgmt.boot ≠ .tripped
    (pt.en = true → r.sen = true → r.ovr = false → r.shead ≠ r.stail →
      ∃ t, exec (.submissionRecordCopy p k) s = .next t ∧ ringAt t = { r with shead := r.shead + 1 } ∧ (t.partAt q).nextId = pt.nextId + 1
        ∧ t = (({ s with parts := s.parts.set p.val { pt with rings := pt.rings.set k.val { r with shead := r.shead + 1 } } } : State).enterLaunch
            q none (s.readRec (r.sbase.toNat + 128 * (r.shead.toNat % 2 ^ r.slog.toNat)))).2)
    ∧ (pt.en = false ∨ r.sen = false ∨ r.ovr = true ∨ r.shead = r.stail → exec (.submissionRecordCopy p k) s = .next s)
    ∧ (∀ v : BitVec 32, up → ∃ t, exec (.stailWrite p k v) s = .next t ∧ (ringAt t).stail = v ∧ (ringAt t).shead = r.shead
      ∧ ((ringAt t).ovr = true ↔ r.ovr = true ∨ 2 ^ r.slog.toNat < (v - r.shead).toNat)
      ∧ (r.ovr = true ∨ (v - r.shead).toNat ≤ 2 ^ r.slog.toNat → (t.partAt q).evhead = pt.evhead ∧ (t.partAt q).heldEvents = pt.heldEvents))
    ∧ (up → ∃ t, exec (.srst p k) s = .next t ∧ ringAt t = { r with shead := 0, stail := 0, ovr := false }
      ∧ (t.partAt q).launches = pt.launches ∧ t.core = s.core)
    ∧ (∀ (src : Source) (mask : BitVec 8) (en : Bool), up →
      (s.guarded src = false → exec (.qmask src p mask en) s = .next { s with dev.sem.gerr := true })
      ∧ (s.guarded src = true → ∃ t, exec (.qmask src p mask en) s = .next t ∧ (t.partAt q).en = en
        ∧ ∀ i : Fin 8, (pt.qmask.getLsbD i = mask.getLsbD i → (t.partAt q).qmask.getLsbD i = pt.qmask.getLsbD i)
          ∧ (pt.qmask.getLsbD i = false → mask.getLsbD i = true → (∀ o : Fin 8, o ≠ p → (s.partAt (BitVec.ofFin o)).qmask.getLsbD i = false) →
            (t.partAt q).qmask.getLsbD i = true ∧ (t.partAt q).qpark.getLsbD i = true ∧ (t.partAt q).qstate.getLsbD i = true)
          ∧ (pt.qmask.getLsbD i = false → mask.getLsbD i = true → (∃ o : Fin 8, o ≠ p ∧ (s.partAt (BitVec.ofFin o)).qmask.getLsbD i = true) →
            (t.partAt q).qmask.getLsbD i = false ∧ t.dev.sem.gerr = true)
          ∧ (pt.qmask.getLsbD i = true → mask.getLsbD i = false → pt.qstate.getLsbD i = true → pt.unitsOn s.core.num.toNat i = [] →
            (t.partAt q).qmask.getLsbD i = false)
          ∧ (pt.qmask.getLsbD i = true → mask.getLsbD i = false → pt.qstate.getLsbD i = false →
            (t.partAt q).qmask.getLsbD i = true ∧ t.dev.sem.gerr = true)))
    ∧ (∀ (src : Source) (park deep : BitVec 8), up →
      (s.guarded src = false → exec (.qpark src p park deep) s = .next { s with dev.sem.gerr := true })
      ∧ (s.guarded src = true → ∃ t, exec (.qpark src p park deep) s = .next t ∧ (t.partAt q).qpark = park ∧ (t.partAt q).qdeep = deep
        ∧ (t.partAt q).qstate = pt.qstate))
    ∧ (∀ i : Fin 8, pt.qpark.getLsbD i = true → pt.qmask.getLsbD i = true → pt.qstate.getLsbD i = false →
      (pt.unitsOn s.core.num.toNat i = [] → ∃ t, exec (.quadrantParked p i) s = .next t ∧ (t.partAt q).qstate.getLsbD i = true
        ∧ (∀ j : Fin 8, j ≠ i → (t.partAt q).qstate.getLsbD j = pt.qstate.getLsbD j) ∧ t.core.unit = s.core.unit ∧ (t.partAt q).launches = pt.launches
        ∧ (∀ c, c / 16 = i.val → (∀ r : Fin 8, ∀ v ∈ (t.parts[r]).saved, ∀ f, v.far = some f → c ≠ s.core.num.toNat → f.1 ≠ c)
          ∧ (c = s.core.num.toNat → t.core.lsHolder = none)))
      ∧ (pt.unitsOn s.core.num.toNat i ≠ [] → exec (.quadrantParked p i) s = .next s))
    ∧ (∀ i : Fin 8, pt.qpark.getLsbD i = false → pt.qstate.getLsbD i = true →
      ∃ t, exec (.quadrantUnparked p i) s = .next t ∧ (t.partAt q).qstate.getLsbD i = false
        ∧ (∀ j : Fin 8, j ≠ i → (t.partAt q).qstate.getLsbD j = pt.qstate.getLsbD j) ∧ t.core = s.core)
    ∧ (up → ∃ t, exec (.close p) s = .next t ∧ (t.partAt q).launches = pt.launches
      ∧ (pt.launches = [] → (t.partAt q).closing = false ∧ (t.partAt q).jobcnt = pt.jobcnt + 1)
      ∧ (pt.launches ≠ [] → (t.partAt q).closing = true ∧ (t.partAt q).jobcnt = pt.jobcnt))
    ∧ (∀ ws rest, pt.heldEvents = ws :: rest → pt.evRoom = true → ∃ t, exec (.heldEventRecordWrite p) s = .next t
      ∧ (t.partAt q).heldEvents = rest ∧ (t.partAt q).evhead = pt.evhead + 1
      ∧ (s.physHome (pt.evbase.toNat + 32 * (pt.evhead.toNat % 2 ^ pt.evlog.toNat)) = true → s.Inv →
        s.inPool (pt.evbase.toNat + 32 * (pt.evhead.toNat % 2 ^ pt.evlog.toNat)) (wordBytes (s.stamp :: ws)).length = false →
        ∀ n b, (wordBytes (s.stamp :: ws))[n]? = some b → t.newest (pt.evbase.toNat + 32 * (pt.evhead.toNat % 2 ^ pt.evlog.toNat) + n) = b))
    ∧ (pt.heldEvents = [] ∨ pt.evRoom = false → exec (.heldEventRecordWrite p) s = .next s)
    ∧ (∀ ws rest, pt.heldFaults = ws :: rest → pt.faultRoom = true → ∃ t, exec (.heldFaultRecordWrite p) s = .next t
      ∧ (t.partAt q).heldFaults = rest ∧ (t.partAt q).fhead = pt.fhead + 1
      ∧ (s.physHome (pt.fbase.toNat + 64 * (pt.fhead.toNat % 2 ^ pt.flog.toNat)) = true → s.Inv →
        s.inPool (pt.fbase.toNat + 64 * (pt.fhead.toNat % 2 ^ pt.flog.toNat)) (wordBytes ws).length = false →
        ∀ n b, (wordBytes ws)[n]? = some b → t.newest (pt.fbase.toNat + 64 * (pt.fhead.toNat % 2 ^ pt.flog.toNat) + n) = b))
    ∧ (pt.heldFaults = [] ∨ pt.faultRoom = false → exec (.heldFaultRecordWrite p) s = .next s)
    ∧ (∃ t, exec (.eventRingTimeout p) s = .next t ∧ (t.partAt q).irqs = (if pt.tmo ≠ 0 ∧ pt.sinceIrq ≠ 0 then pt.irqs + 1 else pt.irqs)
      ∧ (∀ i : Fin 2, (t.partAt q).portIrqs[i] = if pt.tmo ≠ 0 ∧ pt.sinceIrq ≠ 0 ∧ (pt.irq.toNat = i.val ∨ 2 ≤ pt.irq.toNat)
        then pt.portIrqs[i] + 1 else pt.portIrqs[i])
      ∧ (pt.tmo ≠ 0 → (t.partAt q).sinceIrq = 0) ∧ { t with parts := s.parts } = s)
    ∧ (∀ (src : Source) (v : Word64), s.mgmt.boot = .running →
      let block := deviceBase + 0x100000 + 0x10000 * p.val
      (∃ t, exec (.registerWrite src (block + 0x10) v) s = .next t
        ∧ (t.partAt q) = { pt with troot := BitVec.ofNat 64 (bits v 51 14 * 2 ^ 14 + bits v 0 0) } ∧ t.core = s.core)
      ∧ (∃ t, exec (.registerWrite src (block + 0x50) v) s = .next t ∧ (t.partAt q) = { pt with evtail := v.setWidth 32 } ∧ t.core = s.core)
      ∧ (∀ a, a % 8 ≠ 0 → exec (.registerWrite src a v) s = .next s)
      ∧ (isFirmware src = false → exec (.registerWrite src (block + 0x20) v) s = .next s))
    ∧ (¬up → ∀ (src : Source) (v : Word64) (v' : BitVec 32) (mask deep : BitVec 8) (en : Bool),
      (∀ a, exec (.registerWrite src a v) s = .next s) ∧ exec (.stailWrite p k v') s = .next s ∧ exec (.srst p k) s = .next s
      ∧ exec (.qmask src p mask en) s = .next s ∧ exec (.qpark src p mask deep) s = .next s ∧ exec (.close p) s = .next s)
    ∧ (∀ quadrant : Nat, (∀ h ∈ s.dev.requests, h.quadrant ≠ quadrant) → s.serveHost quadrant = s)
    ∧ (∀ (early late : List HostRequest) (h : HostRequest) (v : Word64), s.dev.requests = early ++ h :: late → h.value = some v →
      (∀ e ∈ early, e.quadrant ≠ h.quadrant) → s.serveHost h.quadrant =
        ({ s with dev.requests := early ++ late } : State).deviceWrite (.port h.port) h.addr v)

/-- The semaphore is granted when it is free, and released, renewed and expired for its owner; a guarded write of one that does not hold it
changes nothing but gerr. A change of the memory clock waits until every partition is held or empty and no command is in flight, or is
abandoned at its limit. The interval restores the energy that remains. Links come up, go down and count their retries (16 R415, R416,
R418, R419, R423). A renewal with a lease of 0 is ignored (the model's choice, log entry 51). A device in recovery mode or tripped takes no
write and brings up no link (18 R441, R447). -/
def Obligations.ControlRegisters : Prop :=
  ∀ (s : State),
    let m := s.dev.sem
    let c := s.dev.clk
    let sem (t : State) : Prop := { t with dev.sem := m } = s
    let up : Prop := s.mgmt.boot ≠ .recovery ∧ s.mgmt.boot ≠ .tripped
    (up → ∀ src owner lease, (m.held = false → lease ≠ 0 → ∃ t, exec (.semaphoreAcquire src owner lease) s = .next t ∧ sem t
        ∧ t.dev.sem = ⟨owner, true, m.gerr, lease⟩)
      ∧ (m.held = true ∨ lease = 0 → exec (.semaphoreAcquire src owner lease) s = .next s))
    ∧ (up → ∀ owner, (m.held = true → m.owner = owner → ∃ t, exec (.semaphoreRelease owner) s = .next t ∧ sem t ∧ t.dev.sem.held = false
          ∧ t.dev.sem.gerr = m.gerr)
      ∧ (m.held = false ∨ m.owner ≠ owner → exec (.semaphoreRelease owner) s = .next s))
    ∧ (up → ∀ owner lease, (m.held = true → m.owner = owner → lease ≠ 0 →
        exec (.semaphoreRenew owner lease) s = .next { s with dev.sem := { m with lease := lease } })
      ∧ (m.held = false ∨ m.owner ≠ owner ∨ lease = 0 → exec (.semaphoreRenew owner lease) s = .next s))
    ∧ (up → ∃ t, exec .semaphoreClearGerr s = .next t ∧ sem t ∧ t.dev.sem = { m with gerr := false })
    ∧ (∃ t, exec .leaseExpiry s = .next t ∧ sem t ∧ t.dev.sem = { m with held := false })
    ∧ (up → ∀ (src : Source) (n : BitVec 3) (point : BitVec 2) (wlim : BitVec 32),
      let mine : Prop := m.held = true ∧ m.owner.extractLsb' 14 2 = (match src with
        | .port k => BitVec.ofNat 2 k.val
        | .service _ => 2)
      (¬mine → exec (.deviceNumber src n) s = .next { s with dev.sem.gerr := true }
        ∧ exec (.req src point wlim) s = .next { s with dev.sem.gerr := true })
      ∧ (mine → exec (.deviceNumber src n) s = .next { s with dev.devnum := n })
      ∧ (mine → exec (.req src point wlim) s = .next { s with
          dev.clk := { c with req := point, wlim := wlim, abnd := false, pend := decide (c.pend = true ∨ point ≠ c.cur) } }))
    ∧ (let free : Prop := (∀ p : Fin 8, s.parts[p].en = false ∨ s.parts[p].held = true ∨ s.parts[p].resident s.core.num.toNat = 0) ∧ s.inFlight = 0
      (c.pend = true → free → ∃ t, exec .hbmPointChange s = .next t ∧ t.dev.clk = { c with cur := c.req, pend := false }
        ∧ (∀ p : Fin 8, t.parts[p] = { s.parts[p] with held := false }) ∧ t.core = s.core ∧ t.mem = s.mem)
      ∧ (c.pend = false ∨ ¬free → exec .hbmPointChange s = .next s))
    ∧ (c.pend = true → c.wlim ≠ 0 → ∃ t, exec .waitLimitExpiry s = .next t ∧ t.dev.clk = { c with pend := false, abnd := true }
      ∧ (∀ p : Fin 8, t.parts[p] = { s.parts[p] with held := false }) ∧ t.core = s.core ∧ t.mem = s.mem)
    ∧ (c.pend = false ∨ c.wlim = 0 → exec .waitLimitExpiry s = .next s)
    ∧ (∀ p : Fin 8, ∃ t, exec (.energyIntervalStart p) s = .next t
      ∧ (t.parts[p]).eremain = (if (s.parts[p]).budgetSet then (s.parts[p]).budget else (s.parts[p]).eremain)
      ∧ (∀ r : Fin 8, r ≠ p → t.parts[r] = s.parts[r]) ∧ t.core = s.core)
    ∧ (∀ (l : Fin 12) (far : BitVec 3),
      let set (k : Link) : State := { s with dev.links := s.dev.links.set l.val k }
      (up → exec (.linkUp l far) s = .next (set { s.dev.links[l] with up := true, far := far }))
      ∧ exec (.linkDown l) s = .next (set { s.dev.links[l] with up := false })
      ∧ exec (.flitCrcRetry l) s = .next (set { s.dev.links[l] with retry := s.dev.links[l].retry + 1 }))
    ∧ (¬up → ∀ (src : Source) (owner : BitVec 16) (lease : BitVec 30) (n far : BitVec 3) (point : BitVec 2) (wlim : BitVec 32) (l : Fin 12),
      exec (.semaphoreAcquire src owner lease) s = .next s ∧ exec (.semaphoreRelease owner) s = .next s
      ∧ exec (.semaphoreRenew owner lease) s = .next s ∧ exec .semaphoreClearGerr s = .next s ∧ exec (.deviceNumber src n) s = .next s
      ∧ exec (.req src point wlim) s = .next s ∧ exec (.linkUp l far) s = .next s)

/-- A pulse numbers itself and writes its record at its ring's head, around the ring's end, when the ring has room, or marks it lost; a
sample does the same with its row. A slot as written takes effect at its activation, its hits aside; through a partition's block only that
partition's slots are reached. A capture that is armed is latched once, and its registers stay until it is armed again (15 R393 to R400,
R403, R404). A device in recovery mode or tripped takes no write of these registers (18 R441, R447). The model's readings and choices: which
slots a partition's block reaches, and that hits and the match bits are cleared at once (log entry 53), the triggers and the arming of the
capture (54), and a record's lines that no memory or domain holds, which are not written (68). -/
def Obligations.Observation : Prop :=
  ∀ (s : State),
    let o := s.obs
    let n := o.snap
    let up : Prop := s.mgmt.boot ≠ .recovery ∧ s.mgmt.boot ≠ .tripped
    let written (r : ObsRing) (bs : List Byte) (t : State) : Prop :=
      let place (i : Nat) : Nat := r.base + (r.head.toNat + i) % r.size.toNat
      r.head.toNat < r.size.toNat → s.Inv → (∀ i, i < bs.length → s.physHome (place i) = true ∧ s.inPool (place i) 1 = false) →
        ∀ i b, bs[i]? = some b → t.newest (place i) = b
    let pulsed (t : State) : Prop := t.obs.seq = o.seq + 1 ∧ t.core.unit = s.core.unit ∧ t.parts = s.parts
      ∧ numAt s.pulseBytes 8 4 = o.seq.toNat ∧ (o.pulseRing.fits s.pulseBytes.length = true → written o.pulseRing s.pulseBytes t)
      ∧ (o.pulseRing.fits s.pulseBytes.length = true → t.obs.pulseRing.lost = false
        ∧ t.obs.pulseRing.head.toNat = (o.pulseRing.head.toNat + s.pulseBytes.length) % o.pulseRing.size.toNat)
      ∧ (o.pulseRing.fits s.pulseBytes.length = false → t.mem = s.mem ∧ t.obs.pulseRing.head = o.pulseRing.head
        ∧ (o.pulseRing.on = true → t.obs.pulseRing.lost = true))
      ∧ (n.onseq = true → o.seq = n.seqMatch → n.arm = true → n.due = none → t.obs.snap.due = some 2)
    (up → ∃ t, exec .now s = .next t ∧ pulsed t)
    ∧ (o.pulseEn = true → ∃ t, exec .pulsePeriod s = .next t ∧ pulsed t)
    ∧ (o.pulseEn = false → exec .pulsePeriod s = .next s)
    ∧ (o.sampler.getLsbD 0 = false → exec .counterSample s = .next s)
    ∧ (o.sampler.getLsbD 0 = true → ∃ t, exec .counterSample s = .next t ∧ t.obs.sample = o.sample + 1 ∧ t.core.unit = s.core.unit
      ∧ numAt s.rowBytes 8 4 = o.sample.toNat ∧ (o.sampleRing.fits s.rowBytes.length = true → written o.sampleRing s.rowBytes t)
      ∧ (o.sampleRing.fits s.rowBytes.length = true →
        t.obs.sampleRing.head.toNat = (o.sampleRing.head.toNat + s.rowBytes.length) % o.sampleRing.size.toNat)
      ∧ (o.sampleRing.fits s.rowBytes.length = false → t.mem = s.mem ∧ t.obs.sampleRing.head = o.sampleRing.head))
    ∧ (up → ∀ base size, (∃ t, exec (.ringBaseSize false base size) s = .next t ∧ t.obs.pulseRing.head = 0 ∧ t.obs.pulseRing.size = size
        ∧ t.obs.sampleRing = o.sampleRing ∧ { t with obs := s.obs } = s)
      ∧ (∃ t, exec (.ringBaseSize true base size) s = .next t ∧ t.obs.sampleRing.head = 0 ∧ t.obs.sampleRing.size = size
        ∧ t.obs.pulseRing = o.pulseRing ∧ { t with obs := s.obs } = s))
    ∧ (up → ∀ (k : Fin 8) (v : Word64) (p : Fin 8),
      let own : Prop := (o.written[k].ctl).extractLsb' 4 3 = BitVec.ofFin p
      (∃ t, exec (.bkpt none k 0 v) s = .next t ∧ t.obs.written[k] = { o.written[k] with
          ctl := BitVec.ofNat 64 (bits v 6 0 + bits v 63 32 * 2 ^ 32) } ∧ t.obs.slots = o.slots)
      ∧ (∃ t, exec (.bkpt none k 1 v) s = .next t ∧ t.obs.written[k] = { o.written[k] with lo := v.setWidth 56 } ∧ t.obs.slots = o.slots)
      ∧ (∃ t, exec (.bkpt none k 2 v) s = .next t ∧ t.obs.written[k] = { o.written[k] with hi := v.setWidth 56 } ∧ t.obs.slots = o.slots)
      ∧ (∀ i, ¬own → exec (.bkpt (some p) k i v) s = .next s)
      ∧ (own → ∃ t, exec (.bkpt (some p) k 0 v) s = .next t ∧ (t.obs.written[k].ctl).extractLsb' 4 3 = BitVec.ofFin p
        ∧ (t.obs.written[k].ctl).extractLsb' 0 4 = v.extractLsb' 0 4 ∧ (t.obs.written[k].ctl).extractLsb' 32 32 = v.extractLsb' 32 32)
      ∧ (∃ t, exec (.breakpointSlotActivation k) s = .next t ∧ (∀ j : Fin 8, t.obs.slots[j] = if j = k then
            { o.written[k] with hits := o.slots[k].hits, last := o.slots[k].last } else o.slots[j]) ∧ { t with obs := s.obs } = s)
      ∧ (∃ t, exec (.hitsClear k) s = .next t ∧ t.obs.slots[k].hits = 0 ∧ t.obs.written[k].hits = 0 ∧ { t with obs := s.obs } = s))
    ∧ (up → ∀ mask, exec (.matchClear mask) s = .next { s with obs.matched := o.matched &&& ~~~ mask })
    ∧ (up → ∀ a b c seq, ∃ t, exec (.arm a b c seq) s = .next t ∧ { t with obs := s.obs } = s ∧ t.obs.snap.arm = true ∧ t.obs.snap.onseq = a
      ∧ t.obs.snap.onbrk = b ∧ t.obs.snap.onmc = c ∧ t.obs.snap.seqMatch = seq ∧ t.obs.snap.done = false)
    ∧ (up → ∃ t, exec .fire s = .next t ∧ { t with obs := s.obs } = s ∧ (n.arm = true → n.due = none → t.obs.snap.due = some 1)
      ∧ (∀ v, n.due = some v → t.obs.snap.due = some v ∨ t.obs.snap.due = some (v ||| 1)) ∧ (n.arm = false → t = s))
    ∧ (¬up → exec .now s = .next s ∧ exec .fire s = .next s ∧ (∀ sampler base size, exec (.ringBaseSize sampler base size) s = .next s)
      ∧ (∀ mask, exec (.matchClear mask) s = .next s) ∧ (∀ k, exec (.hitsClear k) s = .next s)
      ∧ (∀ via k i v, exec (.bkpt via k i v) s = .next s) ∧ ∀ a b c seq, exec (.arm a b c seq) s = .next s)
    ∧ (n.due = none → exec .snapshotLatch s = .next s)
    ∧ (∀ src, n.due = some src → ∃ t, exec .snapshotLatch s = .next t ∧ t.obs.snap.done = true ∧ t.obs.snap.arm = false ∧ t.obs.snap.src = src
      ∧ t.obs.snap.due = none ∧ t.core = s.core ∧ t.mem = s.mem
      ∧ (s.core.service = none → t.readWindow (0x10008 + 0x100 * s.core.num.toNat) = s.core.unit.ident.task.zeroExtend 64
        ∧ t.readWindow (0x10030 + 0x100 * s.core.num.toNat) = s.k.repst))

/-- Clock limits and ceilings move within their range; a trip loses all state but the flash, the fuses and the log; power-on reset leaves only the
flash and the fuses and starts an accepted image, or enters recovery mode. lock freezes clklim and is measured once. An attestation is one at a
time and is written over the buffer of its request, where memory is there. An announcement takes the regions that it may. The management target
answers its commands, and changes the flash only in recovery mode and the minimum only for a signed request. A device in recovery mode or tripped
takes no write of its registers (12 R296; 18 R438, R441 to R450). The model's readings: the range of the ceilings (log entry 9), the measurement
with the lock bit set (55), the responses of identify and of reserved offsets (56), and what power-on reset and a trip do to the log (57). -/
def Obligations.Management : Prop :=
  ∀ (s : State),
    let m := s.mgmt
    let only (t : State) : Prop := { t with mgmt := s.mgmt } = s
    let answers (t : State) (status : Nat) (data : List Byte) : Prop := t.mgmt.response = BitVec.ofNat 8 status :: data
    let up : Prop := m.boot ≠ .recovery ∧ m.boot ≠ .tripped
    (up → ∀ mhz, (m.lock = true → exec (.clklim mhz) s = .next s)
      ∧ (m.lock = false → exec (.clklim mhz) s = .next { s with mgmt.clklim := max 1000 (min mhz.toNat 2900) }))
    ∧ (up → ∀ watts, exec (.plim watts) s = .next { s with mgmt.plim := min watts.toNat 1200 })
    ∧ (¬up → ∀ mhz watts abuf src mask, exec (.clklim mhz) s = .next s ∧ exec (.plim watts) s = .next s ∧ exec (.go abuf) s = .next s
      ∧ exec .lock s = .next s ∧ exec (.bann src mask) s = .next s)
    ∧ (m.boot = .tripped → exec .trip s = .next s ∧ (∀ celsius, exec (.thermalCeilingStep celsius) s = .next s)
      ∧ ∀ mw, exec (.powerCeilingStep mw) s = .next s)
    ∧ (∀ celsius, 110 ≤ celsius → exec (.thermalCeilingStep celsius) s = exec .trip s)
    ∧ (∀ celsius, m.boot ≠ .tripped → celsius < 110 → ∃ t, exec (.thermalCeilingStep celsius) s = .next t ∧ only t ∧ 1000 ≤ t.mgmt.thermal ∧ t.mgmt.thermal ≤ 2900
      ∧ (95 ≤ celsius → t.mgmt.thermal = max 1000 (min (m.thermal - 100) 2900))
      ∧ (celsius < 92 → t.mgmt.thermal = max 1000 (min (m.thermal + 100) 2900))
      ∧ (92 ≤ celsius → celsius < 95 → t.mgmt.hot = m.hot))
    ∧ (∀ mw, m.boot ≠ .tripped → ∃ t, exec (.powerCeilingStep mw) s = .next t ∧ only t ∧ t.mgmt.pmeas = BitVec.ofNat 32 mw
      ∧ t.mgmt.power = if m.plim * 1000 < mw then max 1000 (min (m.power - 100) 2900)
        else if mw < m.plim * 950 then max 1000 (min (m.power + 100) 2900) else m.power)
    ∧ (m.boot ≠ .tripped → ∃ t, exec .trip s = .next t ∧ t.mgmt.boot = .tripped ∧ t.mgmt.flash = m.flash ∧ t.mgmt.fuseMin = m.fuseMin
      ∧ t.mgmt.log.length = m.log.length + 1 ∧ t.mem = [] ∧ t.core.run = .idle ∧ t.parts = State.reset.parts ∧ t.beryl = State.reset.beryl)
    ∧ (up → ∀ abuf, (m.busy = true → exec (.go abuf) s = .next { s with mgmt.missed := true })
      ∧ (m.busy = false → ∃ t, exec (.go abuf) s = .next t ∧ only t ∧ t.mgmt.busy = true ∧ t.mgmt.done = false
        ∧ (abuf < 2 ^ 52 → abuf % 4096 = 0 → t.mgmt.abuf = abuf ∧ t.mgmt.target = abuf)))
    ∧ (m.busy = false → exec .attestationReport s = .next s)
    ∧ (m.busy = true → ∃ t, exec .attestationReport s = .next t ∧ t.mgmt.busy = false ∧ t.mgmt.done = true
      ∧ t.core.unit = s.core.unit ∧ (s.Inv → s.physHome m.target = true → ∀ nonce : List Byte, nonce.length = 32 → m.target % 128 = 0 →
        s.inPool m.target ((s.reportBody nonce).length + 2420) = false →
        (∀ i, i < 32 → nonce[i]? = some (s.newest (m.target + i))) →
        ∀ i b, (s.reportBody nonce ++ fitTo 2420 (Config.mldsaSign (s.reportBody nonce)))[i]? = some b → t.newest (m.target + i) = b))
    ∧ (up → ∃ t, exec .lock s = .next t ∧ t.mgmt.lock = true ∧ (m.lock = true → t = s) ∧ (m.lock = false → m.boot = .booting → t.mgmt.boot = .running
        ∧ t.mgmt.meas2 = Sha3.sha3_256 ({ s with mgmt.lock := true } : State).measured) ∧ t.core = s.core ∧ t.mem = s.mem)
    ∧ (up → ∀ src mask, (s.guarded src = false → exec (.bann src mask) s = .next { s with dev.sem.gerr := true })
      ∧ (s.guarded src = true → ∃ t, exec (.bann src mask) s = .next t ∧ t.mem = s.mem ∧ t.core = s.core
        ∧ ∀ r : Fin 16,
          let refused : Prop := (s.beryl.regions[r]).breaks (s.descriptor r.val) = true ∧ ∃ k ∈ s.beryl.blocks, k.region = BitVec.ofFin r
          t.beryl.regions[r] = (if mask.getLsbD r = true ∧ ¬refused then s.descriptor r.val else s.beryl.regions[r])
          ∧ (t.mgmt.brefu.getLsbD r = true ↔ mask.getLsbD r = true ∧ refused)))
    ∧ (∃ t, exec .powerOnReset s = .next t ∧ t.mgmt.flash = m.flash ∧ t.mgmt.fuseMin = m.fuseMin ∧ t.mgmt.lock = false
      ∧ t.parts = State.reset.parts ∧ t.beryl = State.reset.beryl ∧ t.obs = State.reset.obs
      ∧ (m.bootSlot = none → t.mgmt.boot = .recovery ∧ t.mem = [])
      ∧ (∀ base, m.bootSlot = some base → t.mgmt.boot = .booting ∧ (s.core.service = some 0 → t.core.run = .running ∧ t.k.pl = 2
        ∧ t.pc = BitVec.ofNat 56 (numAt (m.flashBytes base 4096) 0x18 8 % 2 ^ 52))))
    ∧ (∃ t, exec .identify s = .next t ∧ only t ∧ answers t 0 (leBytes 8 (s.mgmtRead 0).toNat ++ leBytes 8 (s.mgmtRead 8).toNat))
    ∧ (∀ off : BitVec 16, m.boot ≠ .tripped → ∃ t, exec (.readRegister off) s = .next t ∧ t.core = s.core ∧ t.mem = s.mem
      ∧ (off.toNat % 8 = 0 → answers t 0 (leBytes 8 (s.mgmtValue off.toNat).toNat))
      ∧ (off.toNat % 8 = 0 → 0x068 < off.toNat → s.mgmtValue off.toNat = 0)
      ∧ (off.toNat % 8 ≠ 0 → answers t 2 []))
    ∧ (∀ i : BitVec 16, ∃ t, exec (.readLog i) s = .next t ∧ only t ∧ (∀ e, m.log[i.toNat]? = some e → answers t 0 e)
      ∧ (m.log.length ≤ i.toNat → answers t 2 []))
    ∧ (∃ t, exec .state s = .next t ∧ only t ∧ answers t 0 [match m.boot with
        | .booting => 0
        | .running => 1
        | .recovery => 2
        | .tripped => 3])
    ∧ (∀ minimum key sig, m.boot ≠ .tripped → ∃ t, exec (.raiseMinimum minimum key sig) s = .next t ∧ only t
      ∧ (s.mayRaise minimum key sig = true → answers t 0 [] ∧ t.mgmt.fuseMin = minimum)
      ∧ (s.mayRaise minimum key sig = false → answers t 1 [] ∧ t.mgmt.fuseMin = m.fuseMin)
      ∧ m.fuseMin.toNat ≤ t.mgmt.fuseMin.toNat)
    ∧ (∀ (slot : Fin 2) (off : BitVec 32) (data : List Byte), m.boot ≠ .tripped →
      let fits : Prop := m.boot = .recovery ∧ 1 ≤ data.length ∧ data.length ≤ 256 ∧ off.toNat + data.length ≤ 0x2000000
      (∃ t, exec (.writeFlash slot off data) s = .next t ∧ only t ∧ (¬fits → answers t 1 [] ∧ t.mgmt.flash = m.flash)
        ∧ (fits → answers t 0 [] ∧ ∀ a, t.mgmt.flashByte a = if 0x2000000 * slot.val + off.toNat ≤ a
            ∧ a < 0x2000000 * slot.val + off.toNat + data.length then data.getD (a - 0x2000000 * slot.val - off.toNat) 0 else m.flashByte a))
      ∧ (∃ t, exec (.eraseSlot slot) s = .next t ∧ only t ∧ (m.boot ≠ .recovery → answers t 1 [] ∧ t.mgmt.flash = m.flash)
        ∧ (m.boot = .recovery → answers t 0 [] ∧ ∀ a, t.mgmt.flashByte a = if 0x2000000 * slot.val ≤ a ∧ a < 0x2000000 * (slot.val + 1) then 0xFF
          else m.flashByte a)))
    ∧ (∃ t, exec .getVendorDefinedMessageSupport s = .next t ∧ only t ∧ answers t 0 (leBytes 4 Config.vendorId.toNat))

end
end

