-- ==== Sys2Proof/Laws/Mem.lean ====
section
/-! SUPPORT. Reads after writes of memory and of the caches' overlays, and the canonical form, which every memory operation
keeps. -/

namespace Sys2Proof.Machine

/-! Lists of cells. -/

theorem cellAt_append (l m : List Host.Cell) (a : Nat) : cellAt (l ++ m) a = (cellAt l a).or (cellAt m a) := by
  induction l with
  | nil => rfl
  | cons c r ih =>
    simp only [List.cons_append, cellAt]
    split
    · rfl
    · exact ih

theorem cellAt_filter (l : List Host.Cell) (p : Nat → Bool) (a : Nat) :
    cellAt (l.filter (fun c => p c.1)) a = if p a then cellAt l a else none := by
  induction l with
  | nil => simp [cellAt]
  | cons c r ih =>
    by_cases hc : c.1 = a
    · subst hc
      by_cases hp : p c.1 <;> simp [cellAt, hp, ih]
    · by_cases hp : p c.1 <;> simp [cellAt, hc, hp, ih]

theorem cellAt_eq_none (l : List Host.Cell) (a : Nat) : cellAt l a = none ↔ ∀ c ∈ l, c.1 ≠ a := by
  induction l with
  | nil => simp [cellAt]
  | cons c r ih =>
    by_cases hc : c.1 = a
    · simp [cellAt, hc]
    · simp [cellAt, hc, ih]

theorem cellAt_mem {l : List Host.Cell} {a : Nat} {b : Byte} (h : cellAt l a = some b) : (a, b) ∈ l := by
  induction l with
  | nil => simp [cellAt] at h
  | cons c r ih =>
    by_cases hc : c.1 = a
    · simp [cellAt, hc] at h
      exact List.mem_cons.2 (.inl (Prod.ext hc.symm h.symm))
    · simp [cellAt, hc] at h
      exact List.mem_cons_of_mem _ (ih h)

theorem cellAt_cellsFrom (bs : List Byte) : ∀ a q : Nat,
    cellAt (cellsFrom a bs) q = if a ≤ q ∧ q < a + bs.length then some (bs.getD (q - a) 0) else none := by
  induction bs with
  | nil => intro a q; simp [cellsFrom, cellAt]
  | cons b r ih =>
    intro a q
    simp only [cellsFrom, cellAt, List.length_cons, ih]
    by_cases hq : a = q
    · subst hq; simp
    · simp only [beq_iff_eq, hq, if_false]
      by_cases h : a + 1 ≤ q ∧ q < a + 1 + r.length
      · rw [if_pos h, if_pos (by omega), show q - a = (q - (a + 1)) + 1 by omega, List.getD_cons_succ]
      · rw [if_neg h, if_neg (by omega)]

theorem mem_cellsFrom {bs : List Byte} {a : Nat} {c : Host.Cell} (h : c ∈ cellsFrom a bs) : a ≤ c.1 ∧ c.1 < a + bs.length := by
  induction bs generalizing a with
  | nil => simp [cellsFrom] at h
  | cons b r ih =>
    rcases List.mem_cons.1 h with rfl | h
    · simp
    · have := ih h; simp only [List.length_cons]; omega

theorem cellsFrom_rising (bs : List Byte) (a : Nat) : (cellsFrom a bs).Pairwise (fun c d => c.1 < d.1) := by
  induction bs generalizing a with
  | nil => exact List.Pairwise.nil
  | cons b r ih => exact List.pairwise_cons.2 ⟨fun c h => (mem_cellsFrom h).1, ih (a + 1)⟩

/-- An overlay after bytes are put into it. -/
theorem cellAt_putCells (m : List Host.Cell) (a q : Nat) (bs : List Byte) :
    cellAt (putCells m a bs) q = if a ≤ q ∧ q < a + bs.length then some (bs.getD (q - a) 0) else cellAt m q := by
  unfold putCells
  rw [cellAt_append, cellAt_append, cellAt_filter m (fun n => decide (n < a)), cellAt_filter m (fun n => decide (a + bs.length ≤ n)),
    cellAt_cellsFrom]
  simp only [decide_eq_true_eq]
  by_cases h1 : q < a
  · rw [if_pos h1, if_neg (by omega), if_neg (by omega), if_neg (by omega)]; simp
  · by_cases h2 : a + bs.length ≤ q
    · rw [if_neg h1, if_neg (by omega), if_pos h2, if_neg (by omega)]; simp
    · rw [if_neg h1, if_pos (by omega), if_neg h2, if_pos (by omega)]; simp

/-- An overlay after bytes are dropped from it. -/
theorem cellAt_dropCells (m : List Host.Cell) (a n q : Nat) :
    cellAt (dropCells m a n) q = if a ≤ q ∧ q < a + n then none else cellAt m q := by
  unfold dropCells
  rw [cellAt_filter m (fun k => !(decide (a ≤ k) && decide (k < a + n)))]
  by_cases h : a ≤ q ∧ q < a + n <;> simp [h]

/-! Home memory. -/

/-- A read after a write: the bytes written inside the range, and every other byte as it was. -/
theorem Mem.read_write (m : Mem) (a q : Nat) (bs : List Byte) :
    (m.write a bs).read q = if a ≤ q ∧ q < a + bs.length then bs.getD (q - a) 0 else m.read q := by
  unfold Mem.read Mem.write
  rw [cellAt_append, cellAt_append, cellAt_filter m (fun n => decide (n < a)), cellAt_filter m (fun n => decide (a + bs.length ≤ n))]
  simp only [decide_eq_true_eq]
  have mid : ∀ (l : List Byte) (p : Nat), (cellAt ((cellsFrom p l).filter (fun c => c.2 != Mem.unlisted c.1)) q).getD (Mem.unlisted q)
      = if p ≤ q ∧ q < p + l.length then l.getD (q - p) 0 else Mem.unlisted q := by
    intro l
    induction l with
    | nil => intro p; simp [cellsFrom, cellAt]
    | cons b r ih =>
      intro p
      simp only [cellsFrom, List.filter_cons, List.length_cons]
      by_cases hq : p = q
      · subst hq
        have hn : cellAt ((cellsFrom (p + 1) r).filter (fun c => c.2 != Mem.unlisted c.1)) p = none := by
          rw [cellAt_eq_none]
          intro c hc
          have := (mem_cellsFrom (List.mem_filter.1 hc).1).1
          omega
        by_cases hb : b = Mem.unlisted p
        · simp [← hb, hn]
        · simp [hb, cellAt]
      · have step : (cellAt (if (b != Mem.unlisted p) = true then (p, b) :: (cellsFrom (p + 1) r).filter (fun c => c.2 != Mem.unlisted c.1)
            else (cellsFrom (p + 1) r).filter (fun c => c.2 != Mem.unlisted c.1)) q)
            = cellAt ((cellsFrom (p + 1) r).filter (fun c => c.2 != Mem.unlisted c.1)) q := by
          split
          · simp [cellAt, hq]
          · rfl
        rw [step, ih]
        by_cases h : p + 1 ≤ q ∧ q < p + 1 + r.length
        · rw [if_pos h, if_pos (by omega), show q - p = (q - (p + 1)) + 1 by omega, List.getD_cons_succ]
        · rw [if_neg h, if_neg (by omega)]
  have out : ¬(a ≤ q ∧ q < a + bs.length) → cellAt ((cellsFrom a bs).filter (fun c => c.2 != Mem.unlisted c.1)) q = none := by
    intro h
    rw [cellAt_eq_none]
    intro c hc e
    have := mem_cellsFrom (List.mem_filter.1 hc).1
    omega
  by_cases h1 : q < a
  · rw [if_pos h1, out (by omega), if_neg (by omega), if_neg (by omega)]; simp
  · by_cases h2 : a + bs.length ≤ q
    · rw [if_neg h1, out (by omega), if_pos h2, if_neg (by omega)]; simp
    · have := mid bs a
      rw [if_neg h1, if_neg h2, if_pos (by omega)]
      rw [if_pos (by omega)] at this
      simpa using this

/-- The canonical form: addresses strictly rising, and no byte listed that an unlisted address reads as. -/
theorem Mem.wf_iff (m : Mem) :
    m.wf = true ↔ m.Pairwise (fun c d => c.1 < d.1) ∧ ∀ c ∈ m, c.2 ≠ Mem.unlisted c.1 := by
  induction m with
  | nil => simp [Mem.wf]
  | cons c r ih =>
    cases r with
    | nil => simp [Mem.wf]
    | cons d r =>
      rw [Mem.wf, Bool.and_eq_true, Bool.and_eq_true, ih, decide_eq_true_eq, bne_iff_ne]
      constructor
      · rintro ⟨⟨h1, h2⟩, h3, h4⟩
        refine ⟨List.pairwise_cons.2 ⟨fun e he => ?_, h3⟩, fun e he => ?_⟩
        · rcases List.mem_cons.1 he with rfl | he
          · exact h2
          · exact Nat.lt_trans h2 ((List.pairwise_cons.1 h3).1 e he)
        · rcases List.mem_cons.1 he with rfl | he
          · exact h1
          · exact h4 e he
      · rintro ⟨h1, h2⟩
        have hp := List.pairwise_cons.1 h1
        exact ⟨⟨h2 c List.mem_cons_self, hp.1 d List.mem_cons_self⟩, hp.2, fun e he => h2 e (List.mem_cons_of_mem _ he)⟩

/-- A write keeps the canonical form. -/
theorem Mem.write_wf (m : Mem) (a : Nat) (bs : List Byte) (h : m.wf = true) : (m.write a bs).wf = true := by
  rw [Mem.wf_iff] at h ⊢
  unfold Mem.write
  refine ⟨?_, ?_⟩
  · rw [List.pairwise_append, List.pairwise_append]
    refine ⟨⟨h.1.filter _, (cellsFrom_rising bs a).filter _, ?_⟩, h.1.filter _, ?_⟩
    · intro c hc d hd
      have h1 := (List.mem_filter.1 hc).2
      have h2 := mem_cellsFrom (List.mem_filter.1 hd).1
      simp only [decide_eq_true_eq] at h1
      omega
    · intro c hc d hd
      have h2 := (List.mem_filter.1 hd).2
      simp only [decide_eq_true_eq] at h2
      rcases List.mem_append.1 hc with hc | hc
      · have h1 := (List.mem_filter.1 hc).2
        simp only [decide_eq_true_eq] at h1
        omega
      · have h1 := mem_cellsFrom (List.mem_filter.1 hc).1
        omega
  · intro c hc
    rcases List.mem_append.1 hc with hc | hc
    · rcases List.mem_append.1 hc with hc | hc
      · exact h.2 c (List.mem_filter.1 hc).1
      · simpa using (List.mem_filter.1 hc).2
    · exact h.2 c (List.mem_filter.1 hc).1

/-- Dropping cells keeps the canonical form. -/
theorem Mem.dropCells_wf (m : Mem) (a n : Nat) (h : m.wf = true) : Mem.wf (dropCells m a n) = true := by
  rw [Mem.wf_iff] at h ⊢
  exact ⟨h.1.filter _, fun c hc => h.2 c (List.mem_filter.1 hc).1⟩

/-- Writes one after another keep the canonical form. -/
theorem Mem.foldl_write_wf (cs : List Host.Cell) (m : Mem) (h : m.wf = true) :
    Mem.wf (cs.foldl (fun m c => m.write c.1 [c.2]) m) = true := by
  induction cs generalizing m with
  | nil => exact h
  | cons c r ih => exact ih _ (m.write_wf c.1 [c.2] h)

/-! Little-endian numbers (R3). -/

@[simp] theorem leBytes_length (n v : Nat) : (leBytes n v).length = n := by
  induction n generalizing v with
  | zero => rfl
  | succ n ih => simp [leBytes, ih]

theorem leBytes_getD (n v k : Nat) (h : k < n) : (leBytes n v).getD k 0 = BitVec.ofNat 8 (v / 256 ^ k) := by
  induction n generalizing v k with
  | zero => omega
  | succ n ih =>
    cases k with
    | zero => simp [leBytes]
    | succ k =>
      rw [leBytes, List.getD_cons_succ, ih (v / 256) k (by omega), Nat.div_div_eq_div_mul, Nat.pow_succ, Nat.mul_comm]

theorem leNat_leBytes (n v : Nat) : leNat (leBytes n v) = v % 256 ^ n := by
  induction n generalizing v with
  | zero => simp [leBytes, leNat, Nat.mod_one]
  | succ n ih =>
    rw [leBytes, leNat, ih, BitVec.toNat_ofNat, Nat.pow_succ' (m := 256), Nat.mod_mul]

theorem leNat_lt (bs : List Byte) : leNat bs < 256 ^ bs.length := by
  induction bs with
  | nil => simp [leNat]
  | cons b r ih =>
    have hb := b.isLt
    simp only [leNat, List.length_cons, Nat.pow_succ]
    omega

@[simp] theorem Mem.readBytes_length (m : Mem) (a n : Nat) : (m.readBytes a n).length = n := by simp [Mem.readBytes]

theorem Mem.readBytes_getD (m : Mem) (a n k : Nat) (h : k < n) : (m.readBytes a n).getD k 0 = m.read (a + k) := by
  simp [Mem.readBytes, h]

/-- The bytes of a write are read back whole. -/
theorem Mem.readBytes_write (m : Mem) (a : Nat) (bs : List Byte) : (m.write a bs).readBytes a bs.length = bs := by
  apply List.ext_getElem
  · simp
  · intro k h1 h2
    simp only [Mem.readBytes, List.getElem_map, List.getElem_range, Mem.read_write]
    rw [if_pos (by simp at h1; omega), Nat.add_sub_cancel_left, List.getD_eq_getElem _ _ h2]

/-- A little-endian number is read back after it is written. -/
theorem Mem.readNat_write (m : Mem) (a n v : Nat) : (m.write a (leBytes n v)).readNat a n = v % 256 ^ n := by
  have := m.readBytes_write a (leBytes n v)
  rw [leBytes_length] at this
  rw [Mem.readNat, this, leNat_leBytes]

end Sys2Proof.Machine
end

