-- ==== Sys2Proof/Laws/Home.lean ====
section
/-! SUPPORT. What the operations over the L1 and home memory do to the newest value of each byte, and the forms that they keep. -/

namespace Sys2Proof.Machine

/-! Lists of lines. -/

theorem mem_linesOf (pa n l : Nat) : l ∈ linesOf pa n ↔ n ≠ 0 ∧ pa / 128 ≤ l ∧ l ≤ (pa + n - 1) / 128 := by
  unfold linesOf
  by_cases h : n = 0
  · simp [h]
  · simp only [beq_iff_eq, h, if_false, List.mem_map, List.mem_range, ne_eq, not_false_eq_true, true_and]
    constructor
    · rintro ⟨i, hi, rfl⟩; omega
    · rintro ⟨h1, h2⟩; exact ⟨l - pa / 128, by omega, by omega⟩

theorem lineOf_mem_linesOf {pa n q : Nat} (h : pa ≤ q ∧ q < pa + n) : lineOf q ∈ linesOf pa n := by
  rw [mem_linesOf]; unfold lineOf; omega

/-! Cells with distinct addresses. -/

/-- No address is listed twice. -/
def Distinct (l : List Host.Cell) : Prop := (l.map (·.1)).Nodup

theorem Distinct.filter {l : List Host.Cell} (h : Distinct l) (p : Host.Cell → Bool) : Distinct (l.filter p) :=
  List.Nodup.sublist (List.filter_sublist.map _) h

theorem Distinct.nil : Distinct [] := List.nodup_nil

theorem Distinct.tail {c : Host.Cell} {l : List Host.Cell} (h : Distinct (c :: l)) : Distinct l := (List.nodup_cons.1 h).2

/-- Writing cells one by one leaves each address with its cell, where it has one. -/
theorem read_foldl_write (l : List Host.Cell) (m : Mem) (q : Nat) (h : Distinct l) :
    Mem.read (l.foldl (fun m c => m.write c.1 [c.2]) m) q = (cellAt l q).getD (m.read q) := by
  induction l generalizing m with
  | nil => rfl
  | cons c r ih =>
    rw [List.foldl_cons, ih _ h.tail, Mem.read_write]
    by_cases hc : c.1 = q
    · subst hc
      have : cellAt r c.1 = none := by
        rw [cellAt_eq_none]
        intro d hd e
        exact (List.nodup_cons.1 h).1 (List.mem_map.2 ⟨d, hd, e⟩)
      simp [cellAt, this]
    · have hn : ¬(c.1 ≤ q ∧ q < c.1 + [c.2].length) := by simp only [List.length_singleton]; omega
      rw [if_neg hn]
      simp [cellAt, hc]

theorem putCells_distinct (m : List Host.Cell) (a : Nat) (bs : List Byte) (h : Distinct m) : Distinct (putCells m a bs) := by
  unfold Distinct putCells
  have hc : (cellsFrom a bs).Pairwise (fun c d => c.1 ≠ d.1) := (cellsFrom_rising bs a).imp (fun h => Nat.ne_of_lt h)
  have hm : m.Pairwise (fun c d => c.1 ≠ d.1) := List.pairwise_map.1 h
  rw [List.Nodup, List.pairwise_map, List.pairwise_append, List.pairwise_append]
  refine ⟨⟨hm.filter _, hc, ?_⟩, hm.filter _, ?_⟩
  · intro c hc' d hd
    have h1 := (List.mem_filter.1 hc').2
    have h2 := mem_cellsFrom hd
    simp only [decide_eq_true_eq] at h1
    omega
  · intro c hc' d hd
    have h2 := (List.mem_filter.1 hd).2
    simp only [decide_eq_true_eq] at h2
    rcases List.mem_append.1 hc' with h | h
    · have h1 := (List.mem_filter.1 h).2
      simp only [decide_eq_true_eq] at h1
      omega
    · have h1 := mem_cellsFrom h
      omega

/-! What an operation over memory may change: what `State.blankMem` blanks. -/

/-- Two states that differ at most in memory, its ECC states, the L1, its invalidations and the TLB. -/
structure MemOnly (s t : State) : Prop where
  rest : t.blankMem = s.blankMem
  stores : t.core.sb = s.core.sb

theorem MemOnly.refl (s : State) : MemOnly s s := ⟨rfl, rfl⟩

theorem MemOnly.trans {s t u : State} (h : MemOnly s t) (k : MemOnly t u) : MemOnly s u :=
  ⟨k.rest.trans h.rest, k.stores.trans h.stores⟩

theorem MemOnly.foldl {α : Type} (f : State → α → State) (hf : ∀ s a, MemOnly s (f s a)) (l : List α) (s : State) :
    MemOnly s (l.foldl f s) := by
  induction l generalizing s with
  | nil => exact MemOnly.refl s
  | cons a r ih => exact (hf s a).trans (ih _)

/-- Two states of the device that differ at most in ECC states, scrub reservations and caches. -/
def Dev.OnlyMem (d e : Dev) : Prop := e = { d with granules := e.granules, reserved := e.reserved, hier := e.hier }

theorem Dev.OnlyMem.refl (d : Dev) : Dev.OnlyMem d d := rfl

theorem Dev.OnlyMem.trans {d e f : Dev} (h : Dev.OnlyMem d e) (k : Dev.OnlyMem e f) : Dev.OnlyMem d f := by
  cases d; cases e; cases f; simp_all [Dev.OnlyMem]

theorem Dev.OnlyMem.foldl {α : Type} (f : Dev → α → Dev) (hf : ∀ d a, Dev.OnlyMem d (f d a)) (l : List α) (d : Dev) :
    Dev.OnlyMem d (l.foldl f d) := by
  induction l generalizing d with
  | nil => exact Dev.OnlyMem.refl d
  | cons a r ih => exact (hf d a).trans (ih _)

theorem l2Enter_onlyMem (s : State) (d : Dev) (line : Nat) : Dev.OnlyMem d (s.l2Enter d line) := by
  unfold State.l2Enter
  split
  · exact Dev.OnlyMem.refl d
  · exact (Dev.OnlyMem.foldl (fun d g => d.setGranule g (some .poisoned)) (fun _ _ => rfl) _ d).trans rfl

theorem poisonHome_onlyMem (s : State) (gs : List Nat) :
    ∃ d, Dev.OnlyMem s.dev d ∧ s.poisonHome gs = { s with dev := d } :=
  ⟨_, Dev.OnlyMem.foldl (fun d g => d.setGranule g (some .poisoned)) (fun _ _ => rfl) _ s.dev, rfl⟩

/-- A state whose device differs at most in those. -/
theorem MemOnly.of_dev {s : State} {d : Dev} (h : Dev.OnlyMem s.dev d) : MemOnly s { s with dev := d } :=
  ⟨by rw [h]; rfl, rfl⟩

theorem poisonHome_memOnly (s : State) (gs : List Nat) : MemOnly s (s.poisonHome gs) := by
  obtain ⟨d, hd, he⟩ := poisonHome_onlyMem s gs
  rw [he]; exact MemOnly.of_dev hd

theorem l2Back_onlyMem (d : Dev) (line : Nat) : Dev.OnlyMem d (d.l2Back line) := rfl

theorem l2Take_onlyMem (d : Dev) (line : Nat) (hint : BitVec 2) : Dev.OnlyMem d (d.l2Take line hint) := by
  unfold Dev.l2Take
  split
  · exact Dev.OnlyMem.refl d
  · exact (Dev.OnlyMem.foldl (fun (d : Dev) (f : L2Line) => d.l2Back f.line) (fun d f => l2Back_onlyMem d f.line) _ d).trans rfl

theorem l2Dirty_onlyMem (d : Dev) (m : Mem) (line : Nat) (hint : BitVec 2) : Dev.OnlyMem d (d.l2Dirty m line hint) :=
  (l2Take_onlyMem d line hint).trans rfl

theorem backDev_onlyMem (s : State) (line : Nat) (cells : List Host.Cell) : Dev.OnlyMem s.dev (s.backDev line cells) := by
  unfold State.backDev
  split
  · exact Dev.OnlyMem.refl _
  · exact ((l2Enter_onlyMem s s.dev line).trans (e := s.l2Enter s.dev line)
      (f := (s.l2Enter s.dev line).writtenCells cells) rfl).trans (l2Dirty_onlyMem _ s.mem line 1)

theorem writeBackLine_eq (s : State) (line : Nat) : ∃ d, Dev.OnlyMem s.dev d ∧
    s.writeBackLine line = { s with
      mem := (s.core.l1.dirty.filter (fun c => lineOf c.1 == line)).foldl (fun m c => m.write c.1 [c.2]) s.mem,
      dev := d,
      core.l1 := { s.core.l1 with
        dirty := s.core.l1.dirty.filter (fun c => lineOf c.1 != line),
        poison := s.core.l1.poison.filter (fun g => lineOf (g * granuleSize) != line) } } := by
  obtain ⟨d, hd, he⟩ := poisonHome_onlyMem { s with
      mem := (s.core.l1.dirty.filter (fun c => lineOf c.1 == line)).foldl (fun m c => m.write c.1 [c.2]) s.mem,
      dev := s.backDev line (s.core.l1.dirty.filter (fun c => lineOf c.1 == line)) }
    (s.core.l1.poison.filter (fun g => lineOf (g * granuleSize) == line))
  refine ⟨d, (backDev_onlyMem s line _).trans hd, ?_⟩
  unfold State.writeBackLine
  simp only [he]

theorem writeBackLine_memOnly (s : State) (line : Nat) : MemOnly s (s.writeBackLine line) := by
  obtain ⟨d, hd, hg⟩ := writeBackLine_eq s line
  rw [hg]; exact (MemOnly.of_dev hd).trans ⟨rfl, rfl⟩

@[simp] theorem writeBackLine_dirty (s : State) (line : Nat) :
    (s.writeBackLine line).core.l1.dirty = s.core.l1.dirty.filter (fun c => lineOf c.1 != line) := by
  obtain ⟨d, -, hg⟩ := writeBackLine_eq s line; rw [hg]

@[simp] theorem writeBackLine_stale (s : State) (line : Nat) : (s.writeBackLine line).core.l1.stale = s.core.l1.stale := by
  obtain ⟨d, -, hg⟩ := writeBackLine_eq s line; rw [hg]

@[simp] theorem writeBackLine_sectors (s : State) (line : Nat) : (s.writeBackLine line).core.l1.sectors = s.core.l1.sectors := by
  obtain ⟨d, -, hg⟩ := writeBackLine_eq s line; rw [hg]

/-- A write-back changes the newest value of no byte. -/
theorem writeBackLine_newest (s : State) (line q : Nat) (h : Distinct s.core.l1.dirty) :
    (s.writeBackLine line).newest q = s.newest q := by
  unfold State.newest
  rw [writeBackLine_dirty, cellAt_filter _ (fun a => lineOf a != line)]
  obtain ⟨d, -, hg⟩ := writeBackLine_eq s line
  have hm : (s.writeBackLine line).mem
      = (s.core.l1.dirty.filter (fun c => lineOf c.1 == line)).foldl (fun m c => m.write c.1 [c.2]) s.mem := by rw [hg]
  rw [hm, read_foldl_write _ _ _ (h.filter _), cellAt_filter _ (fun a => lineOf a == line)]
  by_cases hl : lineOf q = line <;> simp [hl]

theorem writeBackLine_distinct (s : State) (line : Nat) (h : Distinct s.core.l1.dirty) :
    Distinct (s.writeBackLine line).core.l1.dirty := by rw [writeBackLine_dirty]; exact h.filter _

theorem writeBackLine_memWf (s : State) (line : Nat) (h : s.mem.wf = true) : (s.writeBackLine line).mem.wf = true := by
  obtain ⟨d, -, hg⟩ := writeBackLine_eq s line
  rw [hg]; exact Mem.foldl_write_wf _ _ h

/-- The lines of a list written back. -/
theorem writeBackLines (ls : List Nat) (s : State) (h : Distinct s.core.l1.dirty) :
    let t := ls.foldl State.writeBackLine s
    MemOnly s t ∧ (∀ q, t.newest q = s.newest q) ∧ Distinct t.core.l1.dirty ∧ t.core.l1.stale = s.core.l1.stale
      ∧ t.core.l1.sectors = s.core.l1.sectors ∧ (s.mem.wf = true → t.mem.wf = true)
      ∧ t.core.l1.dirty = s.core.l1.dirty.filter (fun c => !ls.contains (lineOf c.1)) := by
  induction ls generalizing s with
  | nil => exact ⟨MemOnly.refl s, fun _ => rfl, h, rfl, rfl, id, by simp⟩
  | cons l r ih =>
    obtain ⟨h1, h2, h3, h4, h5, h6, h7⟩ := ih (s.writeBackLine l) (writeBackLine_distinct s l h)
    refine ⟨(writeBackLine_memOnly s l).trans h1, fun q => (h2 q).trans (writeBackLine_newest s l q h), h3,
      h4.trans (writeBackLine_stale s l), h5.trans (writeBackLine_sectors s l), fun hw => h6 (writeBackLine_memWf s l hw), ?_⟩
    rw [List.foldl_cons, h7, writeBackLine_dirty, List.filter_filter]
    congr 1
    funext c
    simp only [List.contains_cons]
    cases h' : lineOf c.1 == l <;> simp [bne, h']

/-- Once the lines of a range are written back, its bytes read at the home as their newest values. -/
theorem writeBackLines_read (s : State) (pa n q : Nat) (h : Distinct s.core.l1.dirty) (hq : pa ≤ q ∧ q < pa + n) :
    ((linesOf pa n).foldl State.writeBackLine s).mem.read q = s.newest q := by
  obtain ⟨-, h2, -, -, -, -, h7⟩ := writeBackLines (linesOf pa n) s h
  rw [← h2 q, State.newest, h7, cellAt_filter _ (fun a => !(linesOf pa n).contains (lineOf a))]
  simp [lineOf_mem_linesOf hq]

/-- The same as numbers. -/
theorem writeBackLines_readNat (s : State) (pa n : Nat) (h : Distinct s.core.l1.dirty) :
    ((linesOf pa n).foldl State.writeBackLine s).mem.readNat pa n = s.newestNat pa n := by
  unfold Mem.readNat State.newestNat Mem.readBytes
  congr 1
  apply List.map_congr_left
  intro k hk
  exact writeBackLines_read s pa n _ h ⟨by omega, by have := List.mem_range.1 hk; omega⟩

/-! Writes that the home performs. -/

theorem rawWrite_eq (s : State) (pa : Nat) (bs : List Byte) : ∃ d, Dev.OnlyMem s.dev d ∧
    s.rawWrite pa bs = { s with mem := s.mem.write pa bs, dev := d } := by
  refine ⟨_, ?_, rfl⟩
  refine Dev.OnlyMem.trans (e := ((linesOf pa bs.length).foldl s.l2Enter s.dev).written pa bs.length) ?_
    (Dev.OnlyMem.foldl (fun d l => d.l2Dirty s.mem l) (fun d l => l2Dirty_onlyMem d s.mem l 0) _ _)
  exact (Dev.OnlyMem.foldl _ (l2Enter_onlyMem s) _ s.dev).trans rfl

theorem keepCopies_eq (s : State) (path : Path) (pa : Nat) (bs : List Byte) (held : List Nat) : ∃ st iv,
    s.keepCopies path pa bs held = { s with core.l1.stale := st, core.invals := iv }
      ∧ st = (held.foldl (fun (s : State) l => { s with core.l1.stale := s.keepStale l pa bs }) s).core.l1.stale := by
  have key : ∀ (ls : List Nat) (u : State), ∃ st,
      ls.foldl (fun (s : State) l => { s with core.l1.stale := s.keepStale l pa bs }) u = { u with core.l1.stale := st } := by
    intro ls
    induction ls with
    | nil => intro u; exact ⟨u.core.l1.stale, rfl⟩
    | cons l r ih => intro u; obtain ⟨st, hst⟩ := ih { u with core.l1.stale := u.keepStale l pa bs }; exact ⟨st, hst⟩
  obtain ⟨st, hst⟩ := key held s
  refine ⟨st, addInvals path held s.core.invals, ?_, ?_⟩
  · simp only [State.keepCopies, hst]
  · rw [hst]

theorem homeStore_eq (s : State) (path : Path) (pa : Nat) (bs : List Byte) : ∃ stale invals dev, ∃ held : List Nat,
    s.homeStore path pa bs = { ((linesOf pa bs.length).foldl State.writeBackLine s) with
      mem := ((linesOf pa bs.length).foldl State.writeBackLine s).mem.write pa bs, dev := dev,
      core.l1.stale := stale, core.invals := invals }
    ∧ Dev.OnlyMem ((linesOf pa bs.length).foldl State.writeBackLine s).dev dev
    ∧ stale = (held.foldl (fun (s : State) l => { s with core.l1.stale := s.keepStale l pa bs })
        ((linesOf pa bs.length).foldl State.writeBackLine s)).core.l1.stale := by
  simp only [State.homeStore]
  generalize (linesOf pa bs.length).foldl State.writeBackLine s = t
  generalize t.heldLines (linesOf pa bs.length) = held
  obtain ⟨st, iv, hk, hst⟩ := keepCopies_eq t path pa bs held
  obtain ⟨d, hd, hr⟩ := rawWrite_eq (t.keepCopies path pa bs held) pa bs
  rw [hr, hk]
  rw [hk] at hd
  exact ⟨st, iv, _, held, rfl, hd.trans rfl, hst⟩

theorem homeStore_memOnly (s : State) (path : Path) (pa : Nat) (bs : List Byte) (h : Distinct s.core.l1.dirty) :
    MemOnly s (s.homeStore path pa bs) := by
  obtain ⟨st, iv, dv, held, hw, hd, -⟩ := homeStore_eq s path pa bs
  refine (writeBackLines (linesOf pa bs.length) s h).1.trans ((MemOnly.of_dev hd).trans ?_)
  rw [hw]; exact ⟨rfl, rfl⟩

@[simp] theorem homeStore_dirty (s : State) (path : Path) (pa : Nat) (bs : List Byte) :
    (s.homeStore path pa bs).core.l1.dirty = ((linesOf pa bs.length).foldl State.writeBackLine s).core.l1.dirty := by
  obtain ⟨st, iv, dv, held, hw, -⟩ := homeStore_eq s path pa bs; rw [hw]

@[simp] theorem homeStore_mem (s : State) (path : Path) (pa : Nat) (bs : List Byte) :
    (s.homeStore path pa bs).mem = ((linesOf pa bs.length).foldl State.writeBackLine s).mem.write pa bs := by
  obtain ⟨st, iv, dv, held, hw, -⟩ := homeStore_eq s path pa bs; rw [hw]

/-- A write of the home gives its bytes their newest values, and leaves those of every other byte. -/
theorem homeStore_newest (s : State) (path : Path) (pa q : Nat) (bs : List Byte) (h : Distinct s.core.l1.dirty) :
    (s.homeStore path pa bs).newest q = if pa ≤ q ∧ q < pa + bs.length then bs.getD (q - pa) 0 else s.newest q := by
  obtain ⟨-, h2, -, -, -, -, h7⟩ := writeBackLines (linesOf pa bs.length) s h
  unfold State.newest
  rw [homeStore_dirty, homeStore_mem, Mem.read_write]
  by_cases hq : pa ≤ q ∧ q < pa + bs.length
  · rw [if_pos hq, if_pos hq, h7, cellAt_filter _ (fun a => !(linesOf pa bs.length).contains (lineOf a))]
    simp [lineOf_mem_linesOf hq]
  · rw [if_neg hq, if_neg hq]
    exact h2 q

theorem homeStore_distinct (s : State) (path : Path) (pa : Nat) (bs : List Byte) (h : Distinct s.core.l1.dirty) :
    Distinct (s.homeStore path pa bs).core.l1.dirty := by
  rw [homeStore_dirty]; exact (writeBackLines _ s h).2.2.1

theorem homeStore_memWf (s : State) (path : Path) (pa : Nat) (bs : List Byte) (h : Distinct s.core.l1.dirty)
    (hw : s.mem.wf = true) : (s.homeStore path pa bs).mem.wf = true := by
  rw [homeStore_mem]; exact Mem.write_wf _ _ _ ((writeBackLines _ s h).2.2.2.2.2.1 hw)

/-- A home write reads back. -/
theorem homeStore_readNat (s : State) (path : Path) (pa n v : Nat) :
    (s.homeStore path pa (leBytes n v)).mem.readNat pa n = v % 256 ^ n := by
  rw [homeStore_mem, Mem.readNat_write]

/-! Lines given up. -/

theorem dropLine_eq (s : State) (line : Nat) : s.dropLine line = { s.writeBackLine line with
    core.l1.sectors := (s.writeBackLine line).core.l1.sectors.filter (fun n => sectorLine n != line),
    core.l1.stale := (s.writeBackLine line).core.l1.stale.filter (fun c => lineOf c.1 != line),
    core.l1.late := (s.writeBackLine line).core.l1.late.filter (fun e => sectorLine e.1 != line),
    core.icache := (s.writeBackLine line).core.icache.filter (fun e => e.1 != line) } := rfl

theorem dropLines (ls : List Nat) (s : State) (h : Distinct s.core.l1.dirty) :
    let t := ls.foldl State.dropLine s
    MemOnly s t ∧ (∀ q, t.newest q = s.newest q) ∧ Distinct t.core.l1.dirty ∧ (s.mem.wf = true → t.mem.wf = true)
      ∧ t.core.l1.dirty = s.core.l1.dirty.filter (fun c => !ls.contains (lineOf c.1))
      ∧ t.core.l1.sectors = s.core.l1.sectors.filter (fun n => !ls.contains (sectorLine n))
      ∧ t.core.l1.stale = s.core.l1.stale.filter (fun c => !ls.contains (lineOf c.1)) := by
  induction ls generalizing s with
  | nil => exact ⟨MemOnly.refl s, fun _ => rfl, h, id, by simp, by simp, by simp⟩
  | cons l r ih =>
    have hd : Distinct (s.dropLine l).core.l1.dirty := writeBackLine_distinct s l h
    have hn : ∀ q, (s.dropLine l).newest q = s.newest q := fun q => writeBackLine_newest s l q h
    have hm : MemOnly s (s.dropLine l) := (writeBackLine_memOnly s l).trans ⟨rfl, rfl⟩
    obtain ⟨h1, h2, h3, h4, h5, h6, h7⟩ := ih (s.dropLine l) hd
    have fuse : ∀ (a : Nat), (!r.contains a && (a != l)) = !(l :: r).contains a := by
      intro a; simp only [List.contains_cons]; cases h' : a == l <;> simp [bne, h']
    refine ⟨hm.trans h1, fun q => (h2 q).trans (hn q), h3, fun hw => h4 (writeBackLine_memWf s l hw), ?_, ?_, ?_⟩
    · rw [List.foldl_cons, h5, show (s.dropLine l).core.l1.dirty = _ from writeBackLine_dirty s l, List.filter_filter]
      congr 1; funext c; exact fuse _
    · rw [List.foldl_cons, h6, dropLine_eq, writeBackLine_sectors, List.filter_filter]
      congr 1; funext c; exact fuse _
    · rw [List.foldl_cons, h7, dropLine_eq, writeBackLine_stale, List.filter_filter]
      congr 1; funext c; exact fuse _

/-- Once the lines of a range are given up, its bytes read at the home as their newest values. -/
theorem dropLines_read (s : State) (pa n q : Nat) (h : Distinct s.core.l1.dirty) (hq : pa ≤ q ∧ q < pa + n) :
    ((linesOf pa n).foldl State.dropLine s).mem.read q = s.newest q := by
  obtain ⟨-, h2, -, -, h5, -⟩ := dropLines (linesOf pa n) s h
  rw [← h2 q, State.newest, h5, cellAt_filter _ (fun a => !(linesOf pa n).contains (lineOf a))]
  simp [lineOf_mem_linesOf hq]

theorem dropLines_readNat (s : State) (pa n : Nat) (h : Distinct s.core.l1.dirty) :
    ((linesOf pa n).foldl State.dropLine s).mem.readNat pa n = s.newestNat pa n := by
  unfold Mem.readNat State.newestNat Mem.readBytes
  congr 1
  apply List.map_congr_left
  intro k hk
  exact dropLines_read s pa n _ h ⟨by omega, by have := List.mem_range.1 hk; omega⟩

/-- A write of the core that its home performs, wherever it lies. -/
theorem ownHomeStore_spec (s : State) (pa : Nat) (bs : List Byte) (h : Distinct s.core.l1.dirty) :
    let t := s.ownHomeStore pa bs
    MemOnly s t ∧ Distinct t.core.l1.dirty ∧ (s.mem.wf = true → t.mem.wf = true)
      ∧ ∀ q, t.newest q = if pa ≤ q ∧ q < pa + bs.length then bs.getD (q - pa) 0 else s.newest q := by
  obtain ⟨h1, h2, h3, h4, h5, -⟩ := dropLines (linesOf pa bs.length) s h
  obtain ⟨d, hd, hr⟩ := rawWrite_eq ((linesOf pa bs.length).foldl State.dropLine s) pa bs
  have hm : MemOnly ((linesOf pa bs.length).foldl State.dropLine s) (s.ownHomeStore pa bs) := by
    refine (MemOnly.of_dev hd).trans ?_
    simp only [State.ownHomeStore, hr]
    exact ⟨rfl, rfl⟩
  refine ⟨h1.trans hm, h3, fun hw => Mem.write_wf _ _ _ (h4 hw), fun q => ?_⟩
  show (cellAt ((linesOf pa bs.length).foldl State.dropLine s).core.l1.dirty q).getD
    (Mem.read (((linesOf pa bs.length).foldl State.dropLine s).mem.write pa bs) q) = _
  rw [Mem.read_write]
  by_cases hq : pa ≤ q ∧ q < pa + bs.length
  · rw [if_pos hq, if_pos hq, h5, cellAt_filter _ (fun a => !(linesOf pa bs.length).contains (lineOf a))]
    simp [lineOf_mem_linesOf hq]
  · rw [if_neg hq, if_neg hq]; exact h2 q

/-! Writes that reach no pool or table memory (12 R296). -/

theorem inPool_byte {s : State} {pa n q : Nat} (h : s.inPool pa n = false) (hq : pa ≤ q ∧ q < pa + n) : s.inPool q 1 = false := by
  unfold State.inPool at *
  rw [List.any_eq_false] at *
  intro r hr hk
  apply h r hr
  simp only [Bool.and_eq_true, overlap, bne_iff_ne, ne_eq, decide_eq_true_eq] at hk ⊢
  exact ⟨hk.1, ⟨⟨hk.2.1.1.1, by omega⟩, by omega⟩, by omega⟩

/-- A byte once stretches of bytes are written over it. -/
def cover (ws : List (Nat × List Byte)) (q : Nat) (d : Byte) : Byte :=
  ws.foldl (fun d w => if w.1 ≤ q ∧ q < w.1 + w.2.length then w.2.getD (q - w.1) 0 else d) d

theorem cover_cons (w : Nat × List Byte) (ws : List (Nat × List Byte)) (q : Nat) (d : Byte) :
    cover (w :: ws) q d = cover ws q (if w.1 ≤ q ∧ q < w.1 + w.2.length then w.2.getD (q - w.1) 0 else d) := rfl

theorem cover_below (ws : List (Nat × List Byte)) (q : Nat) (d : Byte) (h : ∀ w ∈ ws, q < w.1) : cover ws q d = d := by
  induction ws with
  | nil => rfl
  | cons w r ih =>
    have := h w List.mem_cons_self
    rw [cover_cons, if_neg (by omega), ih (fun v hv => h v (List.mem_cons_of_mem _ hv))]

theorem apart_ge (s : State) (bs : List Byte) (a : Nat) : ∀ w ∈ s.apart a bs, a ≤ w.1 := by
  induction bs generalizing a with
  | nil => intro w hw; simp [State.apart] at hw
  | cons b r ih =>
    intro w hw
    have hi : ∀ w ∈ s.apart (a + 1) r, a ≤ w.1 := fun w hw => Nat.le_of_succ_le (ih (a + 1) w hw)
    rw [State.apart] at hw
    split at hw
    · exact hi w hw
    · split at hw
      · next h =>
        rw [h] at hi
        split at hw
        · rcases List.mem_cons.1 hw with rfl | hw
          · exact Nat.le_refl a
          · exact hi w (List.mem_cons_of_mem _ hw)
        · rcases List.mem_cons.1 hw with rfl | hw
          · exact Nat.le_refl a
          · exact hi w hw
      · rcases List.mem_cons.1 hw with rfl | hw
        · exact Nat.le_refl a
        · simp at hw

theorem cover_apart (s : State) (bs : List Byte) (a q : Nat) (d : Byte) :
    cover (s.apart a bs) q d = if s.lands a bs.length q then bs.getD (q - a) 0 else d := by
  induction bs generalizing a d with
  | nil => rw [State.apart, if_neg (by simp only [State.lands, List.length_nil]; omega)]; rfl
  | cons b r ih =>
    have hge := apart_ge s r (a + 1)
    have hi := fun d => ih (a + 1) d
    rw [State.apart]
    by_cases hp : s.inPool a 1 = true
    · rw [if_pos hp, hi d]
      by_cases hq : q = a
      · subst hq
        rw [if_neg (by simp only [State.lands]; omega), if_neg (by simp [State.lands, hp])]
      · have he : (s.lands (a + 1) r.length q) ↔ (s.lands a (b :: r).length q) := by
          simp only [State.lands, List.length_cons]; constructor <;> rintro ⟨h1, h2, h3⟩ <;> exact ⟨by omega, by omega, h3⟩
        by_cases hl : s.lands a (b :: r).length q
        · obtain ⟨k, hk⟩ : ∃ k, q = a + 1 + k := ⟨q - (a + 1), by have := hl.1; omega⟩
          rw [if_pos (he.2 hl), if_pos hl, hk, show a + 1 + k - (a + 1) = k by omega, show a + 1 + k - a = k + 1 by omega]
          rfl
        · rw [if_neg (fun h => hl (he.1 h)), if_neg hl]
    · have hp' : s.inPool a 1 = false := by simpa using hp
      rw [if_neg hp]
      by_cases hq : q = a
      · subst hq
        rw [if_pos ⟨Nat.le_refl q, by simp only [List.length_cons]; omega, hp'⟩]
        split
        · next h =>
          rw [h] at hge
          split <;> rw [cover_cons, cover_below, if_pos ⟨Nat.le_refl q, by simp only [List.length_cons]; omega⟩]
          · simp
          · exact fun w hw => hge w (List.mem_cons_of_mem _ hw)
          · simp
          · exact fun w hw => hge w hw
        · rw [cover_cons, if_pos ⟨Nat.le_refl q, by simp only [List.length_cons]; omega⟩]
          simp [cover]
      · have hr : (if s.lands a (b :: r).length q then (b :: r).getD (q - a) 0 else d)
            = if s.lands (a + 1) r.length q then r.getD (q - (a + 1)) 0 else d := by
          by_cases hl : s.lands (a + 1) r.length q
          · obtain ⟨k, hk⟩ : ∃ k, q = a + 1 + k := ⟨q - (a + 1), by have := hl.1; omega⟩
            rw [if_pos hl, if_pos ⟨by have := hl.1; omega, by have := hl.2.1; simp only [List.length_cons]; omega, hl.2.2⟩, hk,
              show a + 1 + k - (a + 1) = k by omega, show a + 1 + k - a = k + 1 by omega]
            rfl
          · rw [if_neg hl, if_neg]
            rintro ⟨h1, h2, h3⟩
            exact hl ⟨by omega, by simp only [List.length_cons] at h2; omega, h3⟩
        rw [hr, ← hi d]
        split
        · next k bs' rest h =>
          rw [h]
          split
          · next hk =>
            have hk : k = a + 1 := by simpa using hk
            subst hk
            rw [cover_cons, cover_cons]
            congr 1
            by_cases hin : a + 1 ≤ q ∧ q < a + 1 + bs'.length
            · obtain ⟨k, hk⟩ : ∃ k, q = a + 1 + k := ⟨q - (a + 1), by omega⟩
              rw [if_pos hin, if_pos (by simp only [List.length_cons]; omega), hk, show a + 1 + k - (a + 1) = k by omega,
                show a + 1 + k - a = k + 1 by omega]
              rfl
            · rw [if_neg hin, if_neg (by simp only [List.length_cons]; omega)]
          · rw [cover_cons, if_neg (by simp only [List.length_cons, List.length_nil]; omega)]
        · next h =>
          rw [h, cover_cons, if_neg (by simp only [List.length_cons, List.length_nil]; omega)]

/-- What a write of a path other than the Beryl services writes of each byte. -/
theorem cover_outside (s : State) (pa q : Nat) (bs : List Byte) (d : Byte) :
    cover (s.outside (pa, bs)) q d = if s.lands pa bs.length q then bs.getD (q - pa) 0 else d := by
  unfold State.outside
  split
  · exact cover_apart s bs pa q d
  · next h =>
    have h : s.inPool pa bs.length = false := by simpa using h
    rw [cover_cons]
    by_cases hq : pa ≤ q ∧ q < pa + bs.length
    · rw [if_pos hq, if_pos ⟨hq.1, hq.2, inPool_byte h hq⟩]; rfl
    · rw [if_neg hq, if_neg (fun k => hq ⟨k.1, k.2.1⟩)]; rfl

/-- What one write does: its bytes are the newest, and nothing but memory and the caches changes. -/
def Stores (f : State → Nat × List Byte → State) : Prop :=
  ∀ s w, Distinct s.core.l1.dirty → MemOnly s (f s w) ∧ Distinct (f s w).core.l1.dirty ∧ (s.mem.wf = true → (f s w).mem.wf = true)
    ∧ ∀ q, (f s w).newest q = if w.1 ≤ q ∧ q < w.1 + w.2.length then w.2.getD (q - w.1) 0 else s.newest q

/-- Writes one after another. -/
theorem Stores.foldl {f : State → Nat × List Byte → State} (hf : Stores f) (ws : List (Nat × List Byte)) (s : State)
    (h : Distinct s.core.l1.dirty) :
    let t := ws.foldl f s
    MemOnly s t ∧ Distinct t.core.l1.dirty ∧ (s.mem.wf = true → t.mem.wf = true) ∧ ∀ q, t.newest q = cover ws q (s.newest q) := by
  induction ws generalizing s with
  | nil => exact ⟨MemOnly.refl s, h, id, fun _ => rfl⟩
  | cons w r ih =>
    obtain ⟨k1, k2, k3, k4⟩ := hf s w h
    obtain ⟨h1, h2, h3, h4⟩ := ih (f s w) k2
    exact ⟨k1.trans h1, h2, fun hw => h3 (k3 hw), fun q => by rw [List.foldl_cons, h4, k4, cover_cons]⟩

theorem homeStore_stores (path : Path) : Stores (fun t w => t.homeStore path w.1 w.2) := fun s w h =>
  ⟨homeStore_memOnly s path w.1 w.2 h, homeStore_distinct s path w.1 w.2 h, homeStore_memWf s path w.1 w.2 h,
    fun q => homeStore_newest s path w.1 q w.2 h⟩

/-- A write of the home by another writer than a Beryl service. -/
theorem homeWrite_spec (s : State) (path : Path) (pa : Nat) (bs : List Byte) (h : Distinct s.core.l1.dirty) :
    let t := s.homeWrite path pa bs
    MemOnly s t ∧ Distinct t.core.l1.dirty ∧ (s.mem.wf = true → t.mem.wf = true)
      ∧ ∀ q, t.newest q = if s.lands pa bs.length q then bs.getD (q - pa) 0 else s.newest q := by
  obtain ⟨h1, h2, h3, h4⟩ := (homeStore_stores path).foldl (s.outside (pa, bs)) s h
  exact ⟨h1, h2, h3, fun q => (h4 q).trans (cover_outside s pa q bs _)⟩

/-- A write of the core that its home performs. -/
theorem ownHomeWrite_spec (s : State) (pa : Nat) (bs : List Byte) (h : Distinct s.core.l1.dirty) :
    let t := s.ownHomeWrite pa bs
    MemOnly s t ∧ Distinct t.core.l1.dirty ∧ (s.mem.wf = true → t.mem.wf = true)
      ∧ ∀ q, t.newest q = if s.lands pa bs.length q then bs.getD (q - pa) 0 else s.newest q := by
  have hf : Stores (fun t w => t.ownHomeStore w.1 w.2) := fun s w h => ownHomeStore_spec s w.1 w.2 h
  obtain ⟨h1, h2, h3, h4⟩ := hf.foldl (s.outside (pa, bs)) s h
  exact ⟨h1, h2, h3, fun q => (h4 q).trans (cover_outside s pa q bs _)⟩

/-! Releases. -/

theorem writeBackAll_spec (s : State) (h : Distinct s.core.l1.dirty) :
    MemOnly s s.writeBackAll ∧ (∀ q, s.writeBackAll.newest q = s.newest q) ∧ s.writeBackAll.core.l1.dirty = []
      ∧ s.writeBackAll.core.l1.stale = s.core.l1.stale ∧ s.writeBackAll.core.l1.sectors = s.core.l1.sectors
      ∧ (s.mem.wf = true → s.writeBackAll.mem.wf = true) := by
  obtain ⟨h1, h2, -, h4, h5, h6, h7⟩ := writeBackLines s.dirtyLines s h
  refine ⟨h1, h2, ?_, h4, h5, h6⟩
  unfold State.writeBackAll
  rw [h7, List.filter_eq_nil_iff]
  intro c hc
  simp only [State.dirtyLines, Bool.not_eq_true', List.contains_eq_mem, decide_eq_false_iff_not, not_not, List.mem_dedup]
  exact List.mem_map_of_mem hc

/-! The L1's own writes. -/

/-- A fill changes which sectors the L1 holds and what the caches of the device record; the L1's bytes are as they were. -/
structure Filled (s t : State) : Prop where
  rest : MemOnly s t
  mem : t.mem = s.mem
  dirty : t.core.l1.dirty = s.core.l1.dirty
  stale : t.core.l1.stale = s.core.l1.stale

theorem Filled.trans {s t u : State} (h : Filled s t) (k : Filled t u) : Filled s u :=
  ⟨h.rest.trans k.rest, k.mem.trans h.mem, k.dirty.trans h.dirty, k.stale.trans h.stale⟩

theorem Filled.refl (s : State) : Filled s s := ⟨MemOnly.refl s, rfl, rfl, rfl⟩

theorem Filled.foldl {α : Type} (f : State → α → State) (hf : ∀ s a, Filled s (f s a)) (l : List α) (s : State) :
    Filled s (l.foldl f s) := by
  induction l generalizing s with
  | nil => exact Filled.refl s
  | cons a r ih => exact (hf s a).trans (ih _)

theorem dirFill_filled (s : State) (line c : Nat) : Filled s (s.dirFill line c) := ⟨⟨rfl, rfl⟩, rfl, rfl, rfl⟩

theorem fillHome_filled (s : State) (line : Nat) (hint : BitVec 2) : Filled s (s.fillHome line hint) := by
  have hk : Dev.OnlyMem s.dev ((s.l2Enter s.dev line).l2Take line hint) := (l2Enter_onlyMem s s.dev line).trans (l2Take_onlyMem _ line hint)
  exact Filled.trans ⟨MemOnly.of_dev hk, rfl, rfl, rfl⟩ (dirFill_filled _ line _)

theorem allocHome_filled (s : State) (line : Nat) (hint : BitVec 2) : Filled s (s.allocHome line hint) := by
  have hk : Dev.OnlyMem s.dev (({ s.l2Enter s.dev line with hier := s.dev.hier } : Dev).l2Take line hint) :=
    ((l2Enter_onlyMem s s.dev line).trans (e := s.l2Enter s.dev line)
      (f := { s.l2Enter s.dev line with hier := s.dev.hier }) rfl).trans (l2Take_onlyMem _ line hint)
  exact Filled.trans ⟨MemOnly.of_dev hk, rfl, rfl, rfl⟩ (dirFill_filled _ line _)

theorem fillSectors_filled (s : State) (pa n : Nat) (hint : BitVec 2) : Filled s (s.fillSectors pa n hint) :=
  ⟨⟨rfl, rfl⟩, rfl, rfl, rfl⟩

theorem fillLines_filled (s : State) (pa n : Nat) (hint : BitVec 2 := 0) : Filled s (s.fillLines pa n hint) :=
  (Filled.foldl _ (fun t l => fillHome_filled t l hint) _ s).trans (fillSectors_filled _ pa n hint)

theorem fillForWrite_filled (s : State) (pa n : Nat) (hint : BitVec 2) : Filled s (s.fillForWrite pa n hint) :=
  ((Filled.foldl _ (fun t l => fillHome_filled t l hint) _ s).trans
    (Filled.foldl _ (fun t l => allocHome_filled t l hint) _ _)).trans (fillSectors_filled _ pa n hint)

@[simp] theorem fillLines_newest (s : State) (pa n q : Nat) (hint : BitVec 2) :
    (s.fillLines pa n hint).newest q = s.newest q := by
  unfold State.newest
  rw [(fillLines_filled s pa n hint).dirty, (fillLines_filled s pa n hint).mem]

theorem cacheWrite_newest (s : State) (pa q : Nat) (bs : List Byte) (hint : BitVec 2 := 0) :
    (s.cacheWrite pa bs hint).newest q = if pa ≤ q ∧ q < pa + bs.length then bs.getD (q - pa) 0 else s.newest q := by
  have hf := fillForWrite_filled s pa bs.length hint
  show (cellAt (putCells (s.fillForWrite pa bs.length hint).core.l1.dirty pa bs) q).getD
    ((s.fillForWrite pa bs.length hint).mem.read q) = _
  rw [hf.dirty, hf.mem, cellAt_putCells]
  split <;> rfl

theorem cacheWrite_memOnly (s : State) (pa : Nat) (bs : List Byte) (hint : BitVec 2 := 0) : MemOnly s (s.cacheWrite pa bs hint) :=
  (fillForWrite_filled s pa bs.length hint).rest.trans ⟨rfl, rfl⟩

/-! The L1's form. -/

theorem L1.Ok.distinct {l : L1} (h : l.Ok) : Distinct l.dirty := h.1

theorem L1.ok_of {l : L1} (h : Distinct l.dirty) (k : ∀ q, cellAt l.dirty q = none ∨ cellAt l.stale q = none) : l.Ok := by
  refine ⟨h, fun c hc e he hce => ?_⟩
  rcases k c.1 with k | k
  · exact (cellAt_eq_none _ _).1 k c hc rfl
  · exact (cellAt_eq_none _ _).1 k e he hce.symm

theorem L1.Ok.apart {l : L1} (h : l.Ok) (q : Nat) : cellAt l.dirty q = none ∨ cellAt l.stale q = none := by
  by_cases k : ∃ c ∈ l.dirty, c.1 = q
  · obtain ⟨c, hc, rfl⟩ := k
    exact .inr ((cellAt_eq_none _ _).2 (fun e he hce => h.2 c hc e he hce.symm))
  · exact .inl ((cellAt_eq_none _ _).2 (fun c hc e => k ⟨c, hc, e⟩))

/-- The dirty and the clean lists may shrink. -/
theorem L1.Ok.sub {l k : L1} (h : l.Ok) (hd : k.dirty.Sublist l.dirty) (hs : ∀ e ∈ k.stale, e ∈ l.stale) : k.Ok :=
  ⟨List.Nodup.sublist (hd.map _) h.1, fun c hc e he => h.2 c (hd.mem hc) e (hs e he)⟩

theorem cacheWrite_ok (s : State) (pa : Nat) (bs : List Byte) (h : s.core.l1.Ok) (hint : BitVec 2 := 0) :
    (s.cacheWrite pa bs hint).core.l1.Ok := by
  have hf := fillForWrite_filled s pa bs.length hint
  refine L1.ok_of (putCells_distinct _ _ _ (by rw [hf.dirty]; exact h.distinct)) (fun q => ?_)
  show cellAt (putCells (s.fillForWrite pa bs.length hint).core.l1.dirty pa bs) q = none
    ∨ cellAt (dropCells (s.fillForWrite pa bs.length hint).core.l1.stale pa bs.length) q = none
  rw [hf.dirty, hf.stale, cellAt_putCells, cellAt_dropCells]
  by_cases hq : pa ≤ q ∧ q < pa + bs.length
  · exact .inr (by rw [if_pos hq])
  · rw [if_neg hq, if_neg hq]; exact h.apart q

theorem writeBackLine_ok (s : State) (line : Nat) (h : s.core.l1.Ok) : (s.writeBackLine line).core.l1.Ok :=
  h.sub (by rw [writeBackLine_dirty]; exact List.filter_sublist) (by rw [writeBackLine_stale]; exact fun e he => he)

theorem writeBackLines_ok (ls : List Nat) (s : State) (h : s.core.l1.Ok) : (ls.foldl State.writeBackLine s).core.l1.Ok := by
  induction ls generalizing s with
  | nil => exact h
  | cons l r ih => exact ih _ (writeBackLine_ok s l h)

theorem dropLine_ok (s : State) (line : Nat) (h : s.core.l1.Ok) : (s.dropLine line).core.l1.Ok :=
  (writeBackLine_ok s line h).sub (List.Sublist.refl _) (fun _ he => (List.mem_filter.1 he).1)

theorem dropLines_ok (ls : List Nat) (s : State) (h : s.core.l1.Ok) : (ls.foldl State.dropLine s).core.l1.Ok := by
  induction ls generalizing s with
  | nil => exact h
  | cons l r ih => exact ih _ (dropLine_ok s l h)

theorem ownHomeStore_ok (s : State) (pa : Nat) (bs : List Byte) (h : s.core.l1.Ok) : (s.ownHomeStore pa bs).core.l1.Ok :=
  dropLines_ok _ s h

/-- What a fold of single clean copies lists was listed before, or is among the copies. -/
theorem mem_foldl_putCells (old st : List Host.Cell) (e : Host.Cell) (he : e ∈ old.foldl (fun st c => putCells st c.1 [c.2]) st) :
    e ∈ st ∨ ∃ c ∈ old, c.1 = e.1 := by
  induction old generalizing st with
  | nil => exact .inl he
  | cons c r ih =>
    rcases ih _ he with h | ⟨d, hd, h⟩
    · unfold putCells at h
      rcases List.mem_append.1 h with h | h
      · rcases List.mem_append.1 h with h | h
        · exact .inl (List.mem_filter.1 h).1
        · have := mem_cellsFrom h
          simp only [List.length_singleton] at this
          exact .inr ⟨c, List.mem_cons_self, by omega⟩
      · exact .inl (List.mem_filter.1 h).1
    · exact .inr ⟨d, List.mem_cons_of_mem _ hd, h⟩

/-- The clean copies that a home write keeps lie in the lines that it wrote. -/
theorem keepStale_mem (s : State) (line pa : Nat) (bs : List Byte) (e : Host.Cell) (he : e ∈ s.keepStale line pa bs) :
    e ∈ s.core.l1.stale ∨ (pa ≤ e.1 ∧ e.1 < pa + bs.length) := by
  unfold State.keepStale at he
  dsimp only at he
  have hold : ∀ c ∈ ((cellsFrom pa bs).filter (fun c => lineOf c.1 == line && s.core.l1.sectors.contains (c.1 / 32)
      && (cellAt s.core.l1.dirty c.1).isNone)).map
      (fun c => (c.1, (cellAt s.core.l1.stale c.1).getD (s.mem.read c.1))), pa ≤ c.1 ∧ c.1 < pa + bs.length := by
    intro c hc
    obtain ⟨d, hd, rfl⟩ := List.mem_map.1 hc
    exact mem_cellsFrom (c := d) (List.mem_filter.1 hd).1
  rcases mem_foldl_putCells _ _ e he with h | ⟨d, hd, h⟩
  · exact .inl h
  · have := hold d hd
    exact .inr (by omega)

theorem homeStore_ok (s : State) (path : Path) (pa : Nat) (bs : List Byte) (h : s.core.l1.Ok) :
    (s.homeStore path pa bs).core.l1.Ok := by
  obtain ⟨st, iv, dv, held, hw, -, hst⟩ := homeStore_eq s path pa bs
  have hb := writeBackLines_ok (linesOf pa bs.length) s h
  obtain ⟨-, -, -, -, -, -, h7⟩ := writeBackLines (linesOf pa bs.length) s h.distinct
  generalize htt : (linesOf pa bs.length).foldl State.writeBackLine s = t at *
  have key : ∀ (ls : List Nat) (u : State), u.core.l1.dirty = t.core.l1.dirty →
      (∀ e ∈ u.core.l1.stale, e ∈ t.core.l1.stale ∨ (pa ≤ e.1 ∧ e.1 < pa + bs.length)) →
      ∀ e ∈ (ls.foldl (fun (s : State) l => { s with core.l1.stale := s.keepStale l pa bs }) u).core.l1.stale,
        e ∈ t.core.l1.stale ∨ (pa ≤ e.1 ∧ e.1 < pa + bs.length) := by
    intro ls
    induction ls with
    | nil => exact fun u _ hu => hu
    | cons l r ih =>
      intro u hu hs
      refine ih _ hu (fun e he => ?_)
      rcases keepStale_mem u l pa bs e he with h | h
      · exact hs e h
      · exact .inr h
  have hs := key held t rfl (fun e he => .inl he)
  rw [hw]
  refine ⟨hb.1, fun c hc e he hce => ?_⟩
  rw [hst] at he
  rcases hs e he with h1 | h1
  · exact hb.2 c hc e h1 hce
  · rw [h7] at hc
    have h2 := (List.mem_filter.1 hc).2
    rw [hce] at h2
    simp [lineOf_mem_linesOf h1] at h2

/-- A fill that an engine's write has overtaken brings clean bytes of a line of which nothing is dirty (13 R344 case 4). -/
theorem lateFill_spec (s : State) (sector : Nat) (h : s.core.l1.Ok) :
    MemOnly s (s.lateFill sector) ∧ (s.lateFill sector).core.l1.Ok ∧ ∀ q, (s.lateFill sector).newest q = s.newest q := by
  unfold State.lateFill
  split
  · exact ⟨MemOnly.refl s, h, fun _ => rfl⟩
  · next e _ =>
    split
    · exact ⟨MemOnly.refl s, h, fun _ => rfl⟩
    · next hf =>
      refine ⟨⟨rfl, rfl⟩, ⟨h.1, fun c hc k hk hck => ?_⟩, fun _ => rfl⟩
      rcases mem_foldl_putCells _ _ k hk with hk | ⟨d, hd, hdk⟩
      · exact h.2 c hc k hk hck
      · have hd := mem_cellsFrom (List.mem_filter.1 hd).1
        have hlen := List.length_take_le 32 e.2
        simp only [Bool.or_eq_true, not_or, Bool.not_eq_true', State.fillUnderWay, Bool.and_eq_false_iff, List.any_eq_false] at hf
        have hline : lineOf c.1 = sectorLine sector := by unfold lineOf sectorLine; omega
        have hdirty := hf.1
        simp only [Bool.not_eq_false, Bool.not_eq_true', List.any_eq_false, beq_iff_eq] at hdirty
        exact hdirty.2 c hc hline

/-- Writes that each keep the L1's form keep it together. -/
theorem foldl_ok {α : Type} {f : State → α → State} (hf : ∀ s a, s.core.l1.Ok → (f s a).core.l1.Ok) (l : List α) (s : State)
    (h : s.core.l1.Ok) : (l.foldl f s).core.l1.Ok := by
  induction l generalizing s with
  | nil => exact h
  | cons a r ih => exact ih _ (hf s a h)

theorem homeWrite_ok (s : State) (path : Path) (pa : Nat) (bs : List Byte) (h : s.core.l1.Ok) :
    (s.homeWrite path pa bs).core.l1.Ok := foldl_ok (fun s w h => homeStore_ok s path w.1 w.2 h) _ s h

theorem ownHomeWrite_ok (s : State) (pa : Nat) (bs : List Byte) (h : s.core.l1.Ok) : (s.ownHomeWrite pa bs).core.l1.Ok :=
  foldl_ok (fun s w h => ownHomeStore_ok s w.1 w.2 h) _ s h

end Sys2Proof.Machine
end

