-- ==== Sys2Proof/Laws/State.lean ====
section
/-! SUPPORT. What the register updates leave as it was, one lemma for each field, and what they write. -/

namespace Sys2Proof.Machine

@[simp] theorem State.setX_mem (s : State) (r : BitVec 5) (v : Word64): (s.setX r v).mem = s.mem := by unfold State.setX; split <;> rfl
@[simp] theorem State.setX_parts (s : State) (r : BitVec 5) (v : Word64): (s.setX r v).parts = s.parts := by unfold State.setX; split <;> rfl
@[simp] theorem State.setX_beryl (s : State) (r : BitVec 5) (v : Word64): (s.setX r v).beryl = s.beryl := by unfold State.setX; split <;> rfl
@[simp] theorem State.setX_dev (s : State) (r : BitVec 5) (v : Word64): (s.setX r v).dev = s.dev := by unfold State.setX; split <;> rfl
@[simp] theorem State.setX_mgmt (s : State) (r : BitVec 5) (v : Word64): (s.setX r v).mgmt = s.mgmt := by unfold State.setX; split <;> rfl
@[simp] theorem State.setX_obs (s : State) (r : BitVec 5) (v : Word64): (s.setX r v).obs = s.obs := by unfold State.setX; split <;> rfl
@[simp] theorem State.setX_agenda (s : State) (r : BitVec 5) (v : Word64): (s.setX r v).agenda = s.agenda := by unfold State.setX; split <;> rfl
@[simp] theorem State.setX_tick (s : State) (r : BitVec 5) (v : Word64): (s.setX r v).tick = s.tick := by unfold State.setX; split <;> rfl
@[simp] theorem State.setX_core_l1 (s : State) (r : BitVec 5) (v : Word64): (s.setX r v).core.l1 = s.core.l1 := by unfold State.setX; split <;> rfl
@[simp] theorem State.setX_core_sb (s : State) (r : BitVec 5) (v : Word64): (s.setX r v).core.sb = s.core.sb := by unfold State.setX; split <;> rfl
@[simp] theorem State.setX_core_tlb (s : State) (r : BitVec 5) (v : Word64): (s.setX r v).core.tlb = s.core.tlb := by unfold State.setX; split <;> rfl
@[simp] theorem State.setX_core_ls (s : State) (r : BitVec 5) (v : Word64): (s.setX r v).core.ls = s.core.ls := by unfold State.setX; split <;> rfl
@[simp] theorem State.setX_core_lsPoison (s : State) (r : BitVec 5) (v : Word64): (s.setX r v).core.lsPoison = s.core.lsPoison := by unfold State.setX; split <;> rfl
@[simp] theorem State.setX_core_cmds (s : State) (r : BitVec 5) (v : Word64): (s.setX r v).core.cmds = s.core.cmds := by unfold State.setX; split <;> rfl
@[simp] theorem State.setX_core_net (s : State) (r : BitVec 5) (v : Word64): (s.setX r v).core.net = s.core.net := by unfold State.setX; split <;> rfl
@[simp] theorem State.setX_core_unacked (s : State) (r : BitVec 5) (v : Word64): (s.setX r v).core.unacked = s.core.unacked := by unfold State.setX; split <;> rfl
@[simp] theorem State.setX_core_run (s : State) (r : BitVec 5) (v : Word64): (s.setX r v).core.run = s.core.run := by unfold State.setX; split <;> rfl
@[simp] theorem State.setX_core_service (s : State) (r : BitVec 5) (v : Word64): (s.setX r v).core.service = s.core.service := by unfold State.setX; split <;> rfl
@[simp] theorem State.setX_core_num (s : State) (r : BitVec 5) (v : Word64): (s.setX r v).core.num = s.core.num := by unfold State.setX; split <;> rfl
@[simp] theorem State.setX_core_frame (s : State) (r : BitVec 5) (v : Word64): (s.setX r v).core.frame = s.core.frame := by unfold State.setX; split <;> rfl
@[simp] theorem State.setX_core_evictReq (s : State) (r : BitVec 5) (v : Word64): (s.setX r v).core.evictReq = s.core.evictReq := by unfold State.setX; split <;> rfl
@[simp] theorem State.setX_core_unit_ident (s : State) (r : BitVec 5) (v : Word64): (s.setX r v).core.unit.ident = s.core.unit.ident := by unfold State.setX; split <;> rfl
@[simp] theorem State.setX_core_unit_trig (s : State) (r : BitVec 5) (v : Word64): (s.setX r v).core.unit.trig = s.core.unit.trig := by unfold State.setX; split <;> rfl
@[simp] theorem State.setX_core_wait (s : State) (r : BitVec 5) (v : Word64): (s.setX r v).core.wait = s.core.wait := by unfold State.setX; split <;> rfl
@[simp] theorem State.setX_core_invals (s : State) (r : BitVec 5) (v : Word64): (s.setX r v).core.invals = s.core.invals := by unfold State.setX; split <;> rfl
@[simp] theorem State.setX_core_lsPart (s : State) (r : BitVec 5) (v : Word64): (s.setX r v).core.lsPart = s.core.lsPart := by unfold State.setX; split <;> rfl
@[simp] theorem State.setX_core_lsHolder (s : State) (r : BitVec 5) (v : Word64): (s.setX r v).core.lsHolder = s.core.lsHolder := by unfold State.setX; split <;> rfl
@[simp] theorem State.setX_core_nextCmd (s : State) (r : BitVec 5) (v : Word64): (s.setX r v).core.nextCmd = s.core.nextCmd := by unfold State.setX; split <;> rfl
@[simp] theorem State.setX_core_oldPins (s : State) (r : BitVec 5) (v : Word64): (s.setX r v).core.oldPins = s.core.oldPins := by unfold State.setX; split <;> rfl
@[simp] theorem State.setX_core_forward (s : State) (r : BitVec 5) (v : Word64): (s.setX r v).core.forward = s.core.forward := by unfold State.setX; split <;> rfl
@[simp] theorem State.setX_core_front (s : State) (r : BitVec 5) (v : Word64): (s.setX r v).core.front = s.core.front := by unfold State.setX; split <;> rfl
@[simp] theorem State.setX_core_rob (s : State) (r : BitVec 5) (v : Word64): (s.setX r v).core.rob = s.core.rob := by unfold State.setX; split <;> rfl
@[simp] theorem State.setX_core_busy (s : State) (r : BitVec 5) (v : Word64): (s.setX r v).core.busy = s.core.busy := by unfold State.setX; split <;> rfl
@[simp] theorem State.setX_core_icache (s : State) (r : BitVec 5) (v : Word64): (s.setX r v).core.icache = s.core.icache := by unfold State.setX; split <;> rfl
@[simp] theorem State.setX_core_badX (s : State) (r : BitVec 5) (v : Word64): (s.setX r v).core.badX = s.core.badX := by unfold State.setX; split <;> rfl
@[simp] theorem State.setX_core_mismatch (s : State) (r : BitVec 5) (v : Word64): (s.setX r v).core.mismatch = s.core.mismatch := by unfold State.setX; split <;> rfl
@[simp] theorem State.setX_core_reruns (s : State) (r : BitVec 5) (v : Word64): (s.setX r v).core.reruns = s.core.reruns := by unfold State.setX; split <;> rfl
@[simp] theorem State.setX_t (s : State) (r : BitVec 5) (v : Word64) (a : BitVec 4): (s.setX r v).t a = s.t a := by unfold State.setX; split <;> rfl
@[simp] theorem State.setX_mbox (s : State) (r : BitVec 5) (v : Word64) (a : BitVec 3): (s.setX r v).mbox a = s.mbox a := by unfold State.setX; split <;> rfl
@[simp] theorem State.setX_stream (s : State) (r : BitVec 5) (v : Word64) (a : BitVec 2): (s.setX r v).stream a = s.stream a := by unfold State.setX; split <;> rfl
@[simp] theorem State.setX_pc (s : State) (r : BitVec 5) (v : Word64) : (s.setX r v).pc = s.pc := by unfold State.setX; split <;> rfl
@[simp] theorem State.setX_k (s : State) (r : BitVec 5) (v : Word64) : (s.setX r v).k = s.k := by unfold State.setX; split <;> rfl
@[simp] theorem State.setX_part (s : State) (r : BitVec 5) (v : Word64) : (s.setX r v).part = s.part := by unfold State.setX; split <;> rfl
@[simp] theorem State.setX_partAt (s : State) (r : BitVec 5) (v : Word64) (a : BitVec 3): (s.setX r v).partAt a = s.partAt a := by unfold State.setX; split <;> rfl
@[simp] theorem State.setT_mem (s : State) (r : BitVec 4) (v : Tile): (s.setT r v).mem = s.mem := rfl
@[simp] theorem State.setT_parts (s : State) (r : BitVec 4) (v : Tile): (s.setT r v).parts = s.parts := rfl
@[simp] theorem State.setT_beryl (s : State) (r : BitVec 4) (v : Tile): (s.setT r v).beryl = s.beryl := rfl
@[simp] theorem State.setT_dev (s : State) (r : BitVec 4) (v : Tile): (s.setT r v).dev = s.dev := rfl
@[simp] theorem State.setT_mgmt (s : State) (r : BitVec 4) (v : Tile): (s.setT r v).mgmt = s.mgmt := rfl
@[simp] theorem State.setT_obs (s : State) (r : BitVec 4) (v : Tile): (s.setT r v).obs = s.obs := rfl
@[simp] theorem State.setT_agenda (s : State) (r : BitVec 4) (v : Tile): (s.setT r v).agenda = s.agenda := rfl
@[simp] theorem State.setT_tick (s : State) (r : BitVec 4) (v : Tile): (s.setT r v).tick = s.tick := rfl
@[simp] theorem State.setT_core_l1 (s : State) (r : BitVec 4) (v : Tile): (s.setT r v).core.l1 = s.core.l1 := rfl
@[simp] theorem State.setT_core_sb (s : State) (r : BitVec 4) (v : Tile): (s.setT r v).core.sb = s.core.sb := rfl
@[simp] theorem State.setT_core_tlb (s : State) (r : BitVec 4) (v : Tile): (s.setT r v).core.tlb = s.core.tlb := rfl
@[simp] theorem State.setT_core_ls (s : State) (r : BitVec 4) (v : Tile): (s.setT r v).core.ls = s.core.ls := rfl
@[simp] theorem State.setT_core_lsPoison (s : State) (r : BitVec 4) (v : Tile): (s.setT r v).core.lsPoison = s.core.lsPoison := rfl
@[simp] theorem State.setT_core_cmds (s : State) (r : BitVec 4) (v : Tile): (s.setT r v).core.cmds = s.core.cmds := rfl
@[simp] theorem State.setT_core_net (s : State) (r : BitVec 4) (v : Tile): (s.setT r v).core.net = s.core.net := rfl
@[simp] theorem State.setT_core_unacked (s : State) (r : BitVec 4) (v : Tile): (s.setT r v).core.unacked = s.core.unacked := rfl
@[simp] theorem State.setT_core_run (s : State) (r : BitVec 4) (v : Tile): (s.setT r v).core.run = s.core.run := rfl
@[simp] theorem State.setT_core_service (s : State) (r : BitVec 4) (v : Tile): (s.setT r v).core.service = s.core.service := rfl
@[simp] theorem State.setT_core_num (s : State) (r : BitVec 4) (v : Tile): (s.setT r v).core.num = s.core.num := rfl
@[simp] theorem State.setT_core_frame (s : State) (r : BitVec 4) (v : Tile): (s.setT r v).core.frame = s.core.frame := rfl
@[simp] theorem State.setT_core_evictReq (s : State) (r : BitVec 4) (v : Tile): (s.setT r v).core.evictReq = s.core.evictReq := rfl
@[simp] theorem State.setT_core_unit_ident (s : State) (r : BitVec 4) (v : Tile): (s.setT r v).core.unit.ident = s.core.unit.ident := rfl
@[simp] theorem State.setT_core_unit_trig (s : State) (r : BitVec 4) (v : Tile): (s.setT r v).core.unit.trig = s.core.unit.trig := rfl
@[simp] theorem State.setT_core_wait (s : State) (r : BitVec 4) (v : Tile): (s.setT r v).core.wait = s.core.wait := rfl
@[simp] theorem State.setT_core_invals (s : State) (r : BitVec 4) (v : Tile): (s.setT r v).core.invals = s.core.invals := rfl
@[simp] theorem State.setT_core_lsPart (s : State) (r : BitVec 4) (v : Tile): (s.setT r v).core.lsPart = s.core.lsPart := rfl
@[simp] theorem State.setT_core_lsHolder (s : State) (r : BitVec 4) (v : Tile): (s.setT r v).core.lsHolder = s.core.lsHolder := rfl
@[simp] theorem State.setT_core_nextCmd (s : State) (r : BitVec 4) (v : Tile): (s.setT r v).core.nextCmd = s.core.nextCmd := rfl
@[simp] theorem State.setT_core_oldPins (s : State) (r : BitVec 4) (v : Tile): (s.setT r v).core.oldPins = s.core.oldPins := rfl
@[simp] theorem State.setT_core_forward (s : State) (r : BitVec 4) (v : Tile): (s.setT r v).core.forward = s.core.forward := rfl
@[simp] theorem State.setT_core_front (s : State) (r : BitVec 4) (v : Tile): (s.setT r v).core.front = s.core.front := rfl
@[simp] theorem State.setT_core_rob (s : State) (r : BitVec 4) (v : Tile): (s.setT r v).core.rob = s.core.rob := rfl
@[simp] theorem State.setT_core_busy (s : State) (r : BitVec 4) (v : Tile): (s.setT r v).core.busy = s.core.busy := rfl
@[simp] theorem State.setT_core_icache (s : State) (r : BitVec 4) (v : Tile): (s.setT r v).core.icache = s.core.icache := rfl
@[simp] theorem State.setT_core_badX (s : State) (r : BitVec 4) (v : Tile): (s.setT r v).core.badX = s.core.badX := rfl
@[simp] theorem State.setT_core_mismatch (s : State) (r : BitVec 4) (v : Tile): (s.setT r v).core.mismatch = s.core.mismatch := rfl
@[simp] theorem State.setT_core_reruns (s : State) (r : BitVec 4) (v : Tile): (s.setT r v).core.reruns = s.core.reruns := rfl
@[simp] theorem State.setT_x (s : State) (r : BitVec 4) (v : Tile) (a : BitVec 5): (s.setT r v).x a = s.x a := rfl
@[simp] theorem State.setT_mbox (s : State) (r : BitVec 4) (v : Tile) (a : BitVec 3): (s.setT r v).mbox a = s.mbox a := rfl
@[simp] theorem State.setT_stream (s : State) (r : BitVec 4) (v : Tile) (a : BitVec 2): (s.setT r v).stream a = s.stream a := rfl
@[simp] theorem State.setT_pc (s : State) (r : BitVec 4) (v : Tile) : (s.setT r v).pc = s.pc := rfl
@[simp] theorem State.setT_k (s : State) (r : BitVec 4) (v : Tile) : (s.setT r v).k = s.k := rfl
@[simp] theorem State.setT_part (s : State) (r : BitVec 4) (v : Tile) : (s.setT r v).part = s.part := rfl
@[simp] theorem State.setT_partAt (s : State) (r : BitVec 4) (v : Tile) (a : BitVec 3): (s.setT r v).partAt a = s.partAt a := rfl
@[simp] theorem State.setMbox_mem (s : State) (r : BitVec 3) (v : Mbox): (s.setMbox r v).mem = s.mem := rfl
@[simp] theorem State.setMbox_parts (s : State) (r : BitVec 3) (v : Mbox): (s.setMbox r v).parts = s.parts := rfl
@[simp] theorem State.setMbox_beryl (s : State) (r : BitVec 3) (v : Mbox): (s.setMbox r v).beryl = s.beryl := rfl
@[simp] theorem State.setMbox_dev (s : State) (r : BitVec 3) (v : Mbox): (s.setMbox r v).dev = s.dev := rfl
@[simp] theorem State.setMbox_mgmt (s : State) (r : BitVec 3) (v : Mbox): (s.setMbox r v).mgmt = s.mgmt := rfl
@[simp] theorem State.setMbox_obs (s : State) (r : BitVec 3) (v : Mbox): (s.setMbox r v).obs = s.obs := rfl
@[simp] theorem State.setMbox_agenda (s : State) (r : BitVec 3) (v : Mbox): (s.setMbox r v).agenda = s.agenda := rfl
@[simp] theorem State.setMbox_tick (s : State) (r : BitVec 3) (v : Mbox): (s.setMbox r v).tick = s.tick := rfl
@[simp] theorem State.setMbox_core_l1 (s : State) (r : BitVec 3) (v : Mbox): (s.setMbox r v).core.l1 = s.core.l1 := rfl
@[simp] theorem State.setMbox_core_sb (s : State) (r : BitVec 3) (v : Mbox): (s.setMbox r v).core.sb = s.core.sb := rfl
@[simp] theorem State.setMbox_core_tlb (s : State) (r : BitVec 3) (v : Mbox): (s.setMbox r v).core.tlb = s.core.tlb := rfl
@[simp] theorem State.setMbox_core_ls (s : State) (r : BitVec 3) (v : Mbox): (s.setMbox r v).core.ls = s.core.ls := rfl
@[simp] theorem State.setMbox_core_lsPoison (s : State) (r : BitVec 3) (v : Mbox): (s.setMbox r v).core.lsPoison = s.core.lsPoison := rfl
@[simp] theorem State.setMbox_core_cmds (s : State) (r : BitVec 3) (v : Mbox): (s.setMbox r v).core.cmds = s.core.cmds := rfl
@[simp] theorem State.setMbox_core_net (s : State) (r : BitVec 3) (v : Mbox): (s.setMbox r v).core.net = s.core.net := rfl
@[simp] theorem State.setMbox_core_unacked (s : State) (r : BitVec 3) (v : Mbox): (s.setMbox r v).core.unacked = s.core.unacked := rfl
@[simp] theorem State.setMbox_core_run (s : State) (r : BitVec 3) (v : Mbox): (s.setMbox r v).core.run = s.core.run := rfl
@[simp] theorem State.setMbox_core_service (s : State) (r : BitVec 3) (v : Mbox): (s.setMbox r v).core.service = s.core.service := rfl
@[simp] theorem State.setMbox_core_num (s : State) (r : BitVec 3) (v : Mbox): (s.setMbox r v).core.num = s.core.num := rfl
@[simp] theorem State.setMbox_core_frame (s : State) (r : BitVec 3) (v : Mbox): (s.setMbox r v).core.frame = s.core.frame := rfl
@[simp] theorem State.setMbox_core_evictReq (s : State) (r : BitVec 3) (v : Mbox): (s.setMbox r v).core.evictReq = s.core.evictReq := rfl
@[simp] theorem State.setMbox_core_unit_ident (s : State) (r : BitVec 3) (v : Mbox): (s.setMbox r v).core.unit.ident = s.core.unit.ident := rfl
@[simp] theorem State.setMbox_core_unit_trig (s : State) (r : BitVec 3) (v : Mbox): (s.setMbox r v).core.unit.trig = s.core.unit.trig := rfl
@[simp] theorem State.setMbox_core_wait (s : State) (r : BitVec 3) (v : Mbox): (s.setMbox r v).core.wait = s.core.wait := rfl
@[simp] theorem State.setMbox_core_invals (s : State) (r : BitVec 3) (v : Mbox): (s.setMbox r v).core.invals = s.core.invals := rfl
@[simp] theorem State.setMbox_core_lsPart (s : State) (r : BitVec 3) (v : Mbox): (s.setMbox r v).core.lsPart = s.core.lsPart := rfl
@[simp] theorem State.setMbox_core_lsHolder (s : State) (r : BitVec 3) (v : Mbox): (s.setMbox r v).core.lsHolder = s.core.lsHolder := rfl
@[simp] theorem State.setMbox_core_nextCmd (s : State) (r : BitVec 3) (v : Mbox): (s.setMbox r v).core.nextCmd = s.core.nextCmd := rfl
@[simp] theorem State.setMbox_core_oldPins (s : State) (r : BitVec 3) (v : Mbox): (s.setMbox r v).core.oldPins = s.core.oldPins := rfl
@[simp] theorem State.setMbox_core_forward (s : State) (r : BitVec 3) (v : Mbox): (s.setMbox r v).core.forward = s.core.forward := rfl
@[simp] theorem State.setMbox_core_front (s : State) (r : BitVec 3) (v : Mbox): (s.setMbox r v).core.front = s.core.front := rfl
@[simp] theorem State.setMbox_core_rob (s : State) (r : BitVec 3) (v : Mbox): (s.setMbox r v).core.rob = s.core.rob := rfl
@[simp] theorem State.setMbox_core_busy (s : State) (r : BitVec 3) (v : Mbox): (s.setMbox r v).core.busy = s.core.busy := rfl
@[simp] theorem State.setMbox_core_icache (s : State) (r : BitVec 3) (v : Mbox): (s.setMbox r v).core.icache = s.core.icache := rfl
@[simp] theorem State.setMbox_core_badX (s : State) (r : BitVec 3) (v : Mbox): (s.setMbox r v).core.badX = s.core.badX := rfl
@[simp] theorem State.setMbox_core_mismatch (s : State) (r : BitVec 3) (v : Mbox): (s.setMbox r v).core.mismatch = s.core.mismatch := rfl
@[simp] theorem State.setMbox_core_reruns (s : State) (r : BitVec 3) (v : Mbox): (s.setMbox r v).core.reruns = s.core.reruns := rfl
@[simp] theorem State.setMbox_x (s : State) (r : BitVec 3) (v : Mbox) (a : BitVec 5): (s.setMbox r v).x a = s.x a := rfl
@[simp] theorem State.setMbox_t (s : State) (r : BitVec 3) (v : Mbox) (a : BitVec 4): (s.setMbox r v).t a = s.t a := rfl
@[simp] theorem State.setMbox_stream (s : State) (r : BitVec 3) (v : Mbox) (a : BitVec 2): (s.setMbox r v).stream a = s.stream a := rfl
@[simp] theorem State.setMbox_pc (s : State) (r : BitVec 3) (v : Mbox) : (s.setMbox r v).pc = s.pc := rfl
@[simp] theorem State.setMbox_k (s : State) (r : BitVec 3) (v : Mbox) : (s.setMbox r v).k = s.k := rfl
@[simp] theorem State.setMbox_part (s : State) (r : BitVec 3) (v : Mbox) : (s.setMbox r v).part = s.part := rfl
@[simp] theorem State.setMbox_partAt (s : State) (r : BitVec 3) (v : Mbox) (a : BitVec 3): (s.setMbox r v).partAt a = s.partAt a := rfl
@[simp] theorem State.setStream_mem (s : State) (r : BitVec 2) (v : Stream): (s.setStream r v).mem = s.mem := rfl
@[simp] theorem State.setStream_parts (s : State) (r : BitVec 2) (v : Stream): (s.setStream r v).parts = s.parts := rfl
@[simp] theorem State.setStream_beryl (s : State) (r : BitVec 2) (v : Stream): (s.setStream r v).beryl = s.beryl := rfl
@[simp] theorem State.setStream_dev (s : State) (r : BitVec 2) (v : Stream): (s.setStream r v).dev = s.dev := rfl
@[simp] theorem State.setStream_mgmt (s : State) (r : BitVec 2) (v : Stream): (s.setStream r v).mgmt = s.mgmt := rfl
@[simp] theorem State.setStream_obs (s : State) (r : BitVec 2) (v : Stream): (s.setStream r v).obs = s.obs := rfl
@[simp] theorem State.setStream_agenda (s : State) (r : BitVec 2) (v : Stream): (s.setStream r v).agenda = s.agenda := rfl
@[simp] theorem State.setStream_tick (s : State) (r : BitVec 2) (v : Stream): (s.setStream r v).tick = s.tick := rfl
@[simp] theorem State.setStream_core_l1 (s : State) (r : BitVec 2) (v : Stream): (s.setStream r v).core.l1 = s.core.l1 := rfl
@[simp] theorem State.setStream_core_sb (s : State) (r : BitVec 2) (v : Stream): (s.setStream r v).core.sb = s.core.sb := rfl
@[simp] theorem State.setStream_core_tlb (s : State) (r : BitVec 2) (v : Stream): (s.setStream r v).core.tlb = s.core.tlb := rfl
@[simp] theorem State.setStream_core_ls (s : State) (r : BitVec 2) (v : Stream): (s.setStream r v).core.ls = s.core.ls := rfl
@[simp] theorem State.setStream_core_lsPoison (s : State) (r : BitVec 2) (v : Stream): (s.setStream r v).core.lsPoison = s.core.lsPoison := rfl
@[simp] theorem State.setStream_core_cmds (s : State) (r : BitVec 2) (v : Stream): (s.setStream r v).core.cmds = s.core.cmds := rfl
@[simp] theorem State.setStream_core_net (s : State) (r : BitVec 2) (v : Stream): (s.setStream r v).core.net = s.core.net := rfl
@[simp] theorem State.setStream_core_unacked (s : State) (r : BitVec 2) (v : Stream): (s.setStream r v).core.unacked = s.core.unacked := rfl
@[simp] theorem State.setStream_core_run (s : State) (r : BitVec 2) (v : Stream): (s.setStream r v).core.run = s.core.run := rfl
@[simp] theorem State.setStream_core_service (s : State) (r : BitVec 2) (v : Stream): (s.setStream r v).core.service = s.core.service := rfl
@[simp] theorem State.setStream_core_num (s : State) (r : BitVec 2) (v : Stream): (s.setStream r v).core.num = s.core.num := rfl
@[simp] theorem State.setStream_core_frame (s : State) (r : BitVec 2) (v : Stream): (s.setStream r v).core.frame = s.core.frame := rfl
@[simp] theorem State.setStream_core_evictReq (s : State) (r : BitVec 2) (v : Stream): (s.setStream r v).core.evictReq = s.core.evictReq := rfl
@[simp] theorem State.setStream_core_unit_ident (s : State) (r : BitVec 2) (v : Stream): (s.setStream r v).core.unit.ident = s.core.unit.ident := rfl
@[simp] theorem State.setStream_core_unit_trig (s : State) (r : BitVec 2) (v : Stream): (s.setStream r v).core.unit.trig = s.core.unit.trig := rfl
@[simp] theorem State.setStream_core_wait (s : State) (r : BitVec 2) (v : Stream): (s.setStream r v).core.wait = s.core.wait := rfl
@[simp] theorem State.setStream_core_invals (s : State) (r : BitVec 2) (v : Stream): (s.setStream r v).core.invals = s.core.invals := rfl
@[simp] theorem State.setStream_core_lsPart (s : State) (r : BitVec 2) (v : Stream): (s.setStream r v).core.lsPart = s.core.lsPart := rfl
@[simp] theorem State.setStream_core_lsHolder (s : State) (r : BitVec 2) (v : Stream): (s.setStream r v).core.lsHolder = s.core.lsHolder := rfl
@[simp] theorem State.setStream_core_nextCmd (s : State) (r : BitVec 2) (v : Stream): (s.setStream r v).core.nextCmd = s.core.nextCmd := rfl
@[simp] theorem State.setStream_core_oldPins (s : State) (r : BitVec 2) (v : Stream): (s.setStream r v).core.oldPins = s.core.oldPins := rfl
@[simp] theorem State.setStream_core_forward (s : State) (r : BitVec 2) (v : Stream): (s.setStream r v).core.forward = s.core.forward := rfl
@[simp] theorem State.setStream_core_front (s : State) (r : BitVec 2) (v : Stream): (s.setStream r v).core.front = s.core.front := rfl
@[simp] theorem State.setStream_core_rob (s : State) (r : BitVec 2) (v : Stream): (s.setStream r v).core.rob = s.core.rob := rfl
@[simp] theorem State.setStream_core_busy (s : State) (r : BitVec 2) (v : Stream): (s.setStream r v).core.busy = s.core.busy := rfl
@[simp] theorem State.setStream_core_icache (s : State) (r : BitVec 2) (v : Stream): (s.setStream r v).core.icache = s.core.icache := rfl
@[simp] theorem State.setStream_core_badX (s : State) (r : BitVec 2) (v : Stream): (s.setStream r v).core.badX = s.core.badX := rfl
@[simp] theorem State.setStream_core_mismatch (s : State) (r : BitVec 2) (v : Stream): (s.setStream r v).core.mismatch = s.core.mismatch := rfl
@[simp] theorem State.setStream_core_reruns (s : State) (r : BitVec 2) (v : Stream): (s.setStream r v).core.reruns = s.core.reruns := rfl
@[simp] theorem State.setStream_x (s : State) (r : BitVec 2) (v : Stream) (a : BitVec 5): (s.setStream r v).x a = s.x a := rfl
@[simp] theorem State.setStream_t (s : State) (r : BitVec 2) (v : Stream) (a : BitVec 4): (s.setStream r v).t a = s.t a := rfl
@[simp] theorem State.setStream_mbox (s : State) (r : BitVec 2) (v : Stream) (a : BitVec 3): (s.setStream r v).mbox a = s.mbox a := rfl
@[simp] theorem State.setStream_pc (s : State) (r : BitVec 2) (v : Stream) : (s.setStream r v).pc = s.pc := rfl
@[simp] theorem State.setStream_k (s : State) (r : BitVec 2) (v : Stream) : (s.setStream r v).k = s.k := rfl
@[simp] theorem State.setStream_part (s : State) (r : BitVec 2) (v : Stream) : (s.setStream r v).part = s.part := rfl
@[simp] theorem State.setStream_partAt (s : State) (r : BitVec 2) (v : Stream) (a : BitVec 3): (s.setStream r v).partAt a = s.partAt a := rfl
@[simp] theorem State.setPc_mem (s : State) (v : BitVec 56): (s.setPc v).mem = s.mem := rfl
@[simp] theorem State.setPc_parts (s : State) (v : BitVec 56): (s.setPc v).parts = s.parts := rfl
@[simp] theorem State.setPc_beryl (s : State) (v : BitVec 56): (s.setPc v).beryl = s.beryl := rfl
@[simp] theorem State.setPc_dev (s : State) (v : BitVec 56): (s.setPc v).dev = s.dev := rfl
@[simp] theorem State.setPc_mgmt (s : State) (v : BitVec 56): (s.setPc v).mgmt = s.mgmt := rfl
@[simp] theorem State.setPc_obs (s : State) (v : BitVec 56): (s.setPc v).obs = s.obs := rfl
@[simp] theorem State.setPc_agenda (s : State) (v : BitVec 56): (s.setPc v).agenda = s.agenda := rfl
@[simp] theorem State.setPc_tick (s : State) (v : BitVec 56): (s.setPc v).tick = s.tick := rfl
@[simp] theorem State.setPc_core_l1 (s : State) (v : BitVec 56): (s.setPc v).core.l1 = s.core.l1 := rfl
@[simp] theorem State.setPc_core_sb (s : State) (v : BitVec 56): (s.setPc v).core.sb = s.core.sb := rfl
@[simp] theorem State.setPc_core_tlb (s : State) (v : BitVec 56): (s.setPc v).core.tlb = s.core.tlb := rfl
@[simp] theorem State.setPc_core_ls (s : State) (v : BitVec 56): (s.setPc v).core.ls = s.core.ls := rfl
@[simp] theorem State.setPc_core_lsPoison (s : State) (v : BitVec 56): (s.setPc v).core.lsPoison = s.core.lsPoison := rfl
@[simp] theorem State.setPc_core_cmds (s : State) (v : BitVec 56): (s.setPc v).core.cmds = s.core.cmds := rfl
@[simp] theorem State.setPc_core_net (s : State) (v : BitVec 56): (s.setPc v).core.net = s.core.net := rfl
@[simp] theorem State.setPc_core_unacked (s : State) (v : BitVec 56): (s.setPc v).core.unacked = s.core.unacked := rfl
@[simp] theorem State.setPc_core_run (s : State) (v : BitVec 56): (s.setPc v).core.run = s.core.run := rfl
@[simp] theorem State.setPc_core_service (s : State) (v : BitVec 56): (s.setPc v).core.service = s.core.service := rfl
@[simp] theorem State.setPc_core_num (s : State) (v : BitVec 56): (s.setPc v).core.num = s.core.num := rfl
@[simp] theorem State.setPc_core_frame (s : State) (v : BitVec 56): (s.setPc v).core.frame = s.core.frame := rfl
@[simp] theorem State.setPc_core_evictReq (s : State) (v : BitVec 56): (s.setPc v).core.evictReq = s.core.evictReq := rfl
@[simp] theorem State.setPc_core_unit_ident (s : State) (v : BitVec 56): (s.setPc v).core.unit.ident = s.core.unit.ident := rfl
@[simp] theorem State.setPc_core_unit_trig (s : State) (v : BitVec 56): (s.setPc v).core.unit.trig = s.core.unit.trig := rfl
@[simp] theorem State.setPc_core_wait (s : State) (v : BitVec 56): (s.setPc v).core.wait = s.core.wait := rfl
@[simp] theorem State.setPc_core_invals (s : State) (v : BitVec 56): (s.setPc v).core.invals = s.core.invals := rfl
@[simp] theorem State.setPc_core_lsPart (s : State) (v : BitVec 56): (s.setPc v).core.lsPart = s.core.lsPart := rfl
@[simp] theorem State.setPc_core_lsHolder (s : State) (v : BitVec 56): (s.setPc v).core.lsHolder = s.core.lsHolder := rfl
@[simp] theorem State.setPc_core_nextCmd (s : State) (v : BitVec 56): (s.setPc v).core.nextCmd = s.core.nextCmd := rfl
@[simp] theorem State.setPc_core_oldPins (s : State) (v : BitVec 56): (s.setPc v).core.oldPins = s.core.oldPins := rfl
@[simp] theorem State.setPc_core_forward (s : State) (v : BitVec 56): (s.setPc v).core.forward = s.core.forward := rfl
@[simp] theorem State.setPc_core_front (s : State) (v : BitVec 56): (s.setPc v).core.front = s.core.front := rfl
@[simp] theorem State.setPc_core_rob (s : State) (v : BitVec 56): (s.setPc v).core.rob = s.core.rob := rfl
@[simp] theorem State.setPc_core_busy (s : State) (v : BitVec 56): (s.setPc v).core.busy = s.core.busy := rfl
@[simp] theorem State.setPc_core_icache (s : State) (v : BitVec 56): (s.setPc v).core.icache = s.core.icache := rfl
@[simp] theorem State.setPc_core_badX (s : State) (v : BitVec 56): (s.setPc v).core.badX = s.core.badX := rfl
@[simp] theorem State.setPc_core_mismatch (s : State) (v : BitVec 56): (s.setPc v).core.mismatch = s.core.mismatch := rfl
@[simp] theorem State.setPc_core_reruns (s : State) (v : BitVec 56): (s.setPc v).core.reruns = s.core.reruns := rfl
@[simp] theorem State.setPc_x (s : State) (v : BitVec 56) (a : BitVec 5): (s.setPc v).x a = s.x a := rfl
@[simp] theorem State.setPc_t (s : State) (v : BitVec 56) (a : BitVec 4): (s.setPc v).t a = s.t a := rfl
@[simp] theorem State.setPc_mbox (s : State) (v : BitVec 56) (a : BitVec 3): (s.setPc v).mbox a = s.mbox a := rfl
@[simp] theorem State.setPc_stream (s : State) (v : BitVec 56) (a : BitVec 2): (s.setPc v).stream a = s.stream a := rfl
@[simp] theorem State.setPc_k (s : State) (v : BitVec 56) : (s.setPc v).k = s.k := rfl
@[simp] theorem State.setPc_part (s : State) (v : BitVec 56) : (s.setPc v).part = s.part := rfl
@[simp] theorem State.setPc_partAt (s : State) (v : BitVec 56) (a : BitVec 3): (s.setPc v).partAt a = s.partAt a := rfl
@[simp] theorem State.setK_mem (s : State) (v : KRegs): (s.setK v).mem = s.mem := rfl
@[simp] theorem State.setK_parts (s : State) (v : KRegs): (s.setK v).parts = s.parts := rfl
@[simp] theorem State.setK_beryl (s : State) (v : KRegs): (s.setK v).beryl = s.beryl := rfl
@[simp] theorem State.setK_dev (s : State) (v : KRegs): (s.setK v).dev = s.dev := rfl
@[simp] theorem State.setK_mgmt (s : State) (v : KRegs): (s.setK v).mgmt = s.mgmt := rfl
@[simp] theorem State.setK_obs (s : State) (v : KRegs): (s.setK v).obs = s.obs := rfl
@[simp] theorem State.setK_agenda (s : State) (v : KRegs): (s.setK v).agenda = s.agenda := rfl
@[simp] theorem State.setK_tick (s : State) (v : KRegs): (s.setK v).tick = s.tick := rfl
@[simp] theorem State.setK_core_l1 (s : State) (v : KRegs): (s.setK v).core.l1 = s.core.l1 := rfl
@[simp] theorem State.setK_core_sb (s : State) (v : KRegs): (s.setK v).core.sb = s.core.sb := rfl
@[simp] theorem State.setK_core_tlb (s : State) (v : KRegs): (s.setK v).core.tlb = s.core.tlb := rfl
@[simp] theorem State.setK_core_ls (s : State) (v : KRegs): (s.setK v).core.ls = s.core.ls := rfl
@[simp] theorem State.setK_core_lsPoison (s : State) (v : KRegs): (s.setK v).core.lsPoison = s.core.lsPoison := rfl
@[simp] theorem State.setK_core_cmds (s : State) (v : KRegs): (s.setK v).core.cmds = s.core.cmds := rfl
@[simp] theorem State.setK_core_net (s : State) (v : KRegs): (s.setK v).core.net = s.core.net := rfl
@[simp] theorem State.setK_core_unacked (s : State) (v : KRegs): (s.setK v).core.unacked = s.core.unacked := rfl
@[simp] theorem State.setK_core_run (s : State) (v : KRegs): (s.setK v).core.run = s.core.run := rfl
@[simp] theorem State.setK_core_service (s : State) (v : KRegs): (s.setK v).core.service = s.core.service := rfl
@[simp] theorem State.setK_core_num (s : State) (v : KRegs): (s.setK v).core.num = s.core.num := rfl
@[simp] theorem State.setK_core_frame (s : State) (v : KRegs): (s.setK v).core.frame = s.core.frame := rfl
@[simp] theorem State.setK_core_evictReq (s : State) (v : KRegs): (s.setK v).core.evictReq = s.core.evictReq := rfl
@[simp] theorem State.setK_core_unit_ident (s : State) (v : KRegs): (s.setK v).core.unit.ident = s.core.unit.ident := rfl
@[simp] theorem State.setK_core_unit_trig (s : State) (v : KRegs): (s.setK v).core.unit.trig = s.core.unit.trig := rfl
@[simp] theorem State.setK_core_wait (s : State) (v : KRegs): (s.setK v).core.wait = s.core.wait := rfl
@[simp] theorem State.setK_core_invals (s : State) (v : KRegs): (s.setK v).core.invals = s.core.invals := rfl
@[simp] theorem State.setK_core_lsPart (s : State) (v : KRegs): (s.setK v).core.lsPart = s.core.lsPart := rfl
@[simp] theorem State.setK_core_lsHolder (s : State) (v : KRegs): (s.setK v).core.lsHolder = s.core.lsHolder := rfl
@[simp] theorem State.setK_core_nextCmd (s : State) (v : KRegs): (s.setK v).core.nextCmd = s.core.nextCmd := rfl
@[simp] theorem State.setK_core_oldPins (s : State) (v : KRegs): (s.setK v).core.oldPins = s.core.oldPins := rfl
@[simp] theorem State.setK_core_forward (s : State) (v : KRegs): (s.setK v).core.forward = s.core.forward := rfl
@[simp] theorem State.setK_core_front (s : State) (v : KRegs): (s.setK v).core.front = s.core.front := rfl
@[simp] theorem State.setK_core_rob (s : State) (v : KRegs): (s.setK v).core.rob = s.core.rob := rfl
@[simp] theorem State.setK_core_busy (s : State) (v : KRegs): (s.setK v).core.busy = s.core.busy := rfl
@[simp] theorem State.setK_core_icache (s : State) (v : KRegs): (s.setK v).core.icache = s.core.icache := rfl
@[simp] theorem State.setK_core_badX (s : State) (v : KRegs): (s.setK v).core.badX = s.core.badX := rfl
@[simp] theorem State.setK_core_mismatch (s : State) (v : KRegs): (s.setK v).core.mismatch = s.core.mismatch := rfl
@[simp] theorem State.setK_core_reruns (s : State) (v : KRegs): (s.setK v).core.reruns = s.core.reruns := rfl
@[simp] theorem State.setK_x (s : State) (v : KRegs) (a : BitVec 5): (s.setK v).x a = s.x a := rfl
@[simp] theorem State.setK_t (s : State) (v : KRegs) (a : BitVec 4): (s.setK v).t a = s.t a := rfl
@[simp] theorem State.setK_mbox (s : State) (v : KRegs) (a : BitVec 3): (s.setK v).mbox a = s.mbox a := rfl
@[simp] theorem State.setK_stream (s : State) (v : KRegs) (a : BitVec 2): (s.setK v).stream a = s.stream a := rfl
@[simp] theorem State.setK_pc (s : State) (v : KRegs) : (s.setK v).pc = s.pc := rfl
@[simp] theorem State.setK_part (s : State) (v : KRegs) : (s.setK v).part = s.part := rfl
@[simp] theorem State.setK_partAt (s : State) (v : KRegs) (a : BitVec 3): (s.setK v).partAt a = s.partAt a := rfl
@[simp] theorem State.modPart_mem (s : State) (q : BitVec 3) (f : Part → Part): (s.modPart q f).mem = s.mem := rfl
@[simp] theorem State.modPart_beryl (s : State) (q : BitVec 3) (f : Part → Part): (s.modPart q f).beryl = s.beryl := rfl
@[simp] theorem State.modPart_dev (s : State) (q : BitVec 3) (f : Part → Part): (s.modPart q f).dev = s.dev := rfl
@[simp] theorem State.modPart_mgmt (s : State) (q : BitVec 3) (f : Part → Part): (s.modPart q f).mgmt = s.mgmt := rfl
@[simp] theorem State.modPart_obs (s : State) (q : BitVec 3) (f : Part → Part): (s.modPart q f).obs = s.obs := rfl
@[simp] theorem State.modPart_agenda (s : State) (q : BitVec 3) (f : Part → Part): (s.modPart q f).agenda = s.agenda := rfl
@[simp] theorem State.modPart_tick (s : State) (q : BitVec 3) (f : Part → Part): (s.modPart q f).tick = s.tick := rfl
@[simp] theorem State.modPart_core_l1 (s : State) (q : BitVec 3) (f : Part → Part): (s.modPart q f).core.l1 = s.core.l1 := rfl
@[simp] theorem State.modPart_core_sb (s : State) (q : BitVec 3) (f : Part → Part): (s.modPart q f).core.sb = s.core.sb := rfl
@[simp] theorem State.modPart_core_tlb (s : State) (q : BitVec 3) (f : Part → Part): (s.modPart q f).core.tlb = s.core.tlb := rfl
@[simp] theorem State.modPart_core_ls (s : State) (q : BitVec 3) (f : Part → Part): (s.modPart q f).core.ls = s.core.ls := rfl
@[simp] theorem State.modPart_core_lsPoison (s : State) (q : BitVec 3) (f : Part → Part): (s.modPart q f).core.lsPoison = s.core.lsPoison := rfl
@[simp] theorem State.modPart_core_cmds (s : State) (q : BitVec 3) (f : Part → Part): (s.modPart q f).core.cmds = s.core.cmds := rfl
@[simp] theorem State.modPart_core_net (s : State) (q : BitVec 3) (f : Part → Part): (s.modPart q f).core.net = s.core.net := rfl
@[simp] theorem State.modPart_core_unacked (s : State) (q : BitVec 3) (f : Part → Part): (s.modPart q f).core.unacked = s.core.unacked := rfl
@[simp] theorem State.modPart_core_run (s : State) (q : BitVec 3) (f : Part → Part): (s.modPart q f).core.run = s.core.run := rfl
@[simp] theorem State.modPart_core_service (s : State) (q : BitVec 3) (f : Part → Part): (s.modPart q f).core.service = s.core.service := rfl
@[simp] theorem State.modPart_core_num (s : State) (q : BitVec 3) (f : Part → Part): (s.modPart q f).core.num = s.core.num := rfl
@[simp] theorem State.modPart_core_frame (s : State) (q : BitVec 3) (f : Part → Part): (s.modPart q f).core.frame = s.core.frame := rfl
@[simp] theorem State.modPart_core_evictReq (s : State) (q : BitVec 3) (f : Part → Part): (s.modPart q f).core.evictReq = s.core.evictReq := rfl
@[simp] theorem State.modPart_core_unit_ident (s : State) (q : BitVec 3) (f : Part → Part): (s.modPart q f).core.unit.ident = s.core.unit.ident := rfl
@[simp] theorem State.modPart_core_unit_trig (s : State) (q : BitVec 3) (f : Part → Part): (s.modPart q f).core.unit.trig = s.core.unit.trig := rfl
@[simp] theorem State.modPart_core_wait (s : State) (q : BitVec 3) (f : Part → Part): (s.modPart q f).core.wait = s.core.wait := rfl
@[simp] theorem State.modPart_core_invals (s : State) (q : BitVec 3) (f : Part → Part): (s.modPart q f).core.invals = s.core.invals := rfl
@[simp] theorem State.modPart_core_lsPart (s : State) (q : BitVec 3) (f : Part → Part): (s.modPart q f).core.lsPart = s.core.lsPart := rfl
@[simp] theorem State.modPart_core_lsHolder (s : State) (q : BitVec 3) (f : Part → Part): (s.modPart q f).core.lsHolder = s.core.lsHolder := rfl
@[simp] theorem State.modPart_core_nextCmd (s : State) (q : BitVec 3) (f : Part → Part): (s.modPart q f).core.nextCmd = s.core.nextCmd := rfl
@[simp] theorem State.modPart_core_oldPins (s : State) (q : BitVec 3) (f : Part → Part): (s.modPart q f).core.oldPins = s.core.oldPins := rfl
@[simp] theorem State.modPart_core_forward (s : State) (q : BitVec 3) (f : Part → Part): (s.modPart q f).core.forward = s.core.forward := rfl
@[simp] theorem State.modPart_core_front (s : State) (q : BitVec 3) (f : Part → Part): (s.modPart q f).core.front = s.core.front := rfl
@[simp] theorem State.modPart_core_rob (s : State) (q : BitVec 3) (f : Part → Part): (s.modPart q f).core.rob = s.core.rob := rfl
@[simp] theorem State.modPart_core_busy (s : State) (q : BitVec 3) (f : Part → Part): (s.modPart q f).core.busy = s.core.busy := rfl
@[simp] theorem State.modPart_core_icache (s : State) (q : BitVec 3) (f : Part → Part): (s.modPart q f).core.icache = s.core.icache := rfl
@[simp] theorem State.modPart_core_badX (s : State) (q : BitVec 3) (f : Part → Part): (s.modPart q f).core.badX = s.core.badX := rfl
@[simp] theorem State.modPart_core_mismatch (s : State) (q : BitVec 3) (f : Part → Part): (s.modPart q f).core.mismatch = s.core.mismatch := rfl
@[simp] theorem State.modPart_core_reruns (s : State) (q : BitVec 3) (f : Part → Part): (s.modPart q f).core.reruns = s.core.reruns := rfl
@[simp] theorem State.modPart_x (s : State) (q : BitVec 3) (f : Part → Part) (a : BitVec 5): (s.modPart q f).x a = s.x a := rfl
@[simp] theorem State.modPart_t (s : State) (q : BitVec 3) (f : Part → Part) (a : BitVec 4): (s.modPart q f).t a = s.t a := rfl
@[simp] theorem State.modPart_mbox (s : State) (q : BitVec 3) (f : Part → Part) (a : BitVec 3): (s.modPart q f).mbox a = s.mbox a := rfl
@[simp] theorem State.modPart_stream (s : State) (q : BitVec 3) (f : Part → Part) (a : BitVec 2): (s.modPart q f).stream a = s.stream a := rfl
@[simp] theorem State.modPart_pc (s : State) (q : BitVec 3) (f : Part → Part) : (s.modPart q f).pc = s.pc := rfl
@[simp] theorem State.modPart_k (s : State) (q : BitVec 3) (f : Part → Part) : (s.modPart q f).k = s.k := rfl
@[simp] theorem State.modPart_part (s : State) (q : BitVec 3) (f : Part → Part) : (s.modPart q f).part = s.part := rfl
@[simp] theorem State.ticked_mem (s : State) : (s.ticked).mem = s.mem := rfl
@[simp] theorem State.ticked_parts (s : State) : (s.ticked).parts = s.parts := rfl
@[simp] theorem State.ticked_beryl (s : State) : (s.ticked).beryl = s.beryl := rfl
@[simp] theorem State.ticked_dev (s : State) : (s.ticked).dev = s.dev := rfl
@[simp] theorem State.ticked_mgmt (s : State) : (s.ticked).mgmt = s.mgmt := rfl
@[simp] theorem State.ticked_obs (s : State) : (s.ticked).obs = s.obs := rfl
@[simp] theorem State.ticked_agenda (s : State) : (s.ticked).agenda = s.agenda := rfl
@[simp] theorem State.ticked_core_l1 (s : State) : (s.ticked).core.l1 = s.core.l1 := rfl
@[simp] theorem State.ticked_core_sb (s : State) : (s.ticked).core.sb = s.core.sb := rfl
@[simp] theorem State.ticked_core_tlb (s : State) : (s.ticked).core.tlb = s.core.tlb := rfl
@[simp] theorem State.ticked_core_ls (s : State) : (s.ticked).core.ls = s.core.ls := rfl
@[simp] theorem State.ticked_core_lsPoison (s : State) : (s.ticked).core.lsPoison = s.core.lsPoison := rfl
@[simp] theorem State.ticked_core_cmds (s : State) : (s.ticked).core.cmds = s.core.cmds := rfl
@[simp] theorem State.ticked_core_net (s : State) : (s.ticked).core.net = s.core.net := rfl
@[simp] theorem State.ticked_core_unacked (s : State) : (s.ticked).core.unacked = s.core.unacked := rfl
@[simp] theorem State.ticked_core_run (s : State) : (s.ticked).core.run = s.core.run := rfl
@[simp] theorem State.ticked_core_service (s : State) : (s.ticked).core.service = s.core.service := rfl
@[simp] theorem State.ticked_core_num (s : State) : (s.ticked).core.num = s.core.num := rfl
@[simp] theorem State.ticked_core_frame (s : State) : (s.ticked).core.frame = s.core.frame := rfl
@[simp] theorem State.ticked_core_evictReq (s : State) : (s.ticked).core.evictReq = s.core.evictReq := rfl
@[simp] theorem State.ticked_core_unit_ident (s : State) : (s.ticked).core.unit.ident = s.core.unit.ident := rfl
@[simp] theorem State.ticked_core_unit_trig (s : State) : (s.ticked).core.unit.trig = s.core.unit.trig := rfl
@[simp] theorem State.ticked_core_wait (s : State) : (s.ticked).core.wait = s.core.wait := rfl
@[simp] theorem State.ticked_core_invals (s : State) : (s.ticked).core.invals = s.core.invals := rfl
@[simp] theorem State.ticked_core_lsPart (s : State) : (s.ticked).core.lsPart = s.core.lsPart := rfl
@[simp] theorem State.ticked_core_lsHolder (s : State) : (s.ticked).core.lsHolder = s.core.lsHolder := rfl
@[simp] theorem State.ticked_core_nextCmd (s : State) : (s.ticked).core.nextCmd = s.core.nextCmd := rfl
@[simp] theorem State.ticked_core_oldPins (s : State) : (s.ticked).core.oldPins = s.core.oldPins := rfl
@[simp] theorem State.ticked_core_forward (s : State) : (s.ticked).core.forward = s.core.forward := rfl
@[simp] theorem State.ticked_core_front (s : State) : (s.ticked).core.front = s.core.front := rfl
@[simp] theorem State.ticked_core_rob (s : State) : (s.ticked).core.rob = s.core.rob := rfl
@[simp] theorem State.ticked_core_busy (s : State) : (s.ticked).core.busy = s.core.busy := rfl
@[simp] theorem State.ticked_core_icache (s : State) : (s.ticked).core.icache = s.core.icache := rfl
@[simp] theorem State.ticked_core_badX (s : State) : (s.ticked).core.badX = s.core.badX := rfl
@[simp] theorem State.ticked_core_mismatch (s : State) : (s.ticked).core.mismatch = s.core.mismatch := rfl
@[simp] theorem State.ticked_core_reruns (s : State) : (s.ticked).core.reruns = s.core.reruns := rfl
@[simp] theorem State.ticked_x (s : State) (a : BitVec 5): (s.ticked).x a = s.x a := rfl
@[simp] theorem State.ticked_t (s : State) (a : BitVec 4): (s.ticked).t a = s.t a := rfl
@[simp] theorem State.ticked_mbox (s : State) (a : BitVec 3): (s.ticked).mbox a = s.mbox a := rfl
@[simp] theorem State.ticked_stream (s : State) (a : BitVec 2): (s.ticked).stream a = s.stream a := rfl
@[simp] theorem State.ticked_pc (s : State) : (s.ticked).pc = s.pc := rfl
@[simp] theorem State.ticked_k (s : State) : (s.ticked).k = s.k := rfl
@[simp] theorem State.ticked_part (s : State) : (s.ticked).part = s.part := rfl
@[simp] theorem State.ticked_partAt (s : State) (a : BitVec 3): (s.ticked).partAt a = s.partAt a := rfl
@[simp] theorem State.stick_mem (s : State) (b : Nat) (c : Bool): (s.stick b c).mem = s.mem := by unfold State.stick; split <;> rfl
@[simp] theorem State.stick_parts (s : State) (b : Nat) (c : Bool): (s.stick b c).parts = s.parts := by unfold State.stick; split <;> rfl
@[simp] theorem State.stick_beryl (s : State) (b : Nat) (c : Bool): (s.stick b c).beryl = s.beryl := by unfold State.stick; split <;> rfl
@[simp] theorem State.stick_dev (s : State) (b : Nat) (c : Bool): (s.stick b c).dev = s.dev := by unfold State.stick; split <;> rfl
@[simp] theorem State.stick_mgmt (s : State) (b : Nat) (c : Bool): (s.stick b c).mgmt = s.mgmt := by unfold State.stick; split <;> rfl
@[simp] theorem State.stick_obs (s : State) (b : Nat) (c : Bool): (s.stick b c).obs = s.obs := by unfold State.stick; split <;> rfl
@[simp] theorem State.stick_agenda (s : State) (b : Nat) (c : Bool): (s.stick b c).agenda = s.agenda := by unfold State.stick; split <;> rfl
@[simp] theorem State.stick_tick (s : State) (b : Nat) (c : Bool): (s.stick b c).tick = s.tick := by unfold State.stick; split <;> rfl
@[simp] theorem State.stick_core_l1 (s : State) (b : Nat) (c : Bool): (s.stick b c).core.l1 = s.core.l1 := by unfold State.stick; split <;> rfl
@[simp] theorem State.stick_core_sb (s : State) (b : Nat) (c : Bool): (s.stick b c).core.sb = s.core.sb := by unfold State.stick; split <;> rfl
@[simp] theorem State.stick_core_tlb (s : State) (b : Nat) (c : Bool): (s.stick b c).core.tlb = s.core.tlb := by unfold State.stick; split <;> rfl
@[simp] theorem State.stick_core_ls (s : State) (b : Nat) (c : Bool): (s.stick b c).core.ls = s.core.ls := by unfold State.stick; split <;> rfl
@[simp] theorem State.stick_core_lsPoison (s : State) (b : Nat) (c : Bool): (s.stick b c).core.lsPoison = s.core.lsPoison := by unfold State.stick; split <;> rfl
@[simp] theorem State.stick_core_cmds (s : State) (b : Nat) (c : Bool): (s.stick b c).core.cmds = s.core.cmds := by unfold State.stick; split <;> rfl
@[simp] theorem State.stick_core_net (s : State) (b : Nat) (c : Bool): (s.stick b c).core.net = s.core.net := by unfold State.stick; split <;> rfl
@[simp] theorem State.stick_core_unacked (s : State) (b : Nat) (c : Bool): (s.stick b c).core.unacked = s.core.unacked := by unfold State.stick; split <;> rfl
@[simp] theorem State.stick_core_run (s : State) (b : Nat) (c : Bool): (s.stick b c).core.run = s.core.run := by unfold State.stick; split <;> rfl
@[simp] theorem State.stick_core_service (s : State) (b : Nat) (c : Bool): (s.stick b c).core.service = s.core.service := by unfold State.stick; split <;> rfl
@[simp] theorem State.stick_core_num (s : State) (b : Nat) (c : Bool): (s.stick b c).core.num = s.core.num := by unfold State.stick; split <;> rfl
@[simp] theorem State.stick_core_frame (s : State) (b : Nat) (c : Bool): (s.stick b c).core.frame = s.core.frame := by unfold State.stick; split <;> rfl
@[simp] theorem State.stick_core_evictReq (s : State) (b : Nat) (c : Bool): (s.stick b c).core.evictReq = s.core.evictReq := by unfold State.stick; split <;> rfl
@[simp] theorem State.stick_core_unit_ident (s : State) (b : Nat) (c : Bool): (s.stick b c).core.unit.ident = s.core.unit.ident := by unfold State.stick; split <;> rfl
@[simp] theorem State.stick_core_unit_trig (s : State) (b : Nat) (c : Bool): (s.stick b c).core.unit.trig = s.core.unit.trig := by unfold State.stick; split <;> rfl
@[simp] theorem State.stick_core_wait (s : State) (b : Nat) (c : Bool): (s.stick b c).core.wait = s.core.wait := by unfold State.stick; split <;> rfl
@[simp] theorem State.stick_core_invals (s : State) (b : Nat) (c : Bool): (s.stick b c).core.invals = s.core.invals := by unfold State.stick; split <;> rfl
@[simp] theorem State.stick_core_lsPart (s : State) (b : Nat) (c : Bool): (s.stick b c).core.lsPart = s.core.lsPart := by unfold State.stick; split <;> rfl
@[simp] theorem State.stick_core_lsHolder (s : State) (b : Nat) (c : Bool): (s.stick b c).core.lsHolder = s.core.lsHolder := by unfold State.stick; split <;> rfl
@[simp] theorem State.stick_core_nextCmd (s : State) (b : Nat) (c : Bool): (s.stick b c).core.nextCmd = s.core.nextCmd := by unfold State.stick; split <;> rfl
@[simp] theorem State.stick_core_oldPins (s : State) (b : Nat) (c : Bool): (s.stick b c).core.oldPins = s.core.oldPins := by unfold State.stick; split <;> rfl
@[simp] theorem State.stick_core_forward (s : State) (b : Nat) (c : Bool): (s.stick b c).core.forward = s.core.forward := by unfold State.stick; split <;> rfl
@[simp] theorem State.stick_core_front (s : State) (b : Nat) (c : Bool): (s.stick b c).core.front = s.core.front := by unfold State.stick; split <;> rfl
@[simp] theorem State.stick_core_rob (s : State) (b : Nat) (c : Bool): (s.stick b c).core.rob = s.core.rob := by unfold State.stick; split <;> rfl
@[simp] theorem State.stick_core_busy (s : State) (b : Nat) (c : Bool): (s.stick b c).core.busy = s.core.busy := by unfold State.stick; split <;> rfl
@[simp] theorem State.stick_core_icache (s : State) (b : Nat) (c : Bool): (s.stick b c).core.icache = s.core.icache := by unfold State.stick; split <;> rfl
@[simp] theorem State.stick_core_badX (s : State) (b : Nat) (c : Bool): (s.stick b c).core.badX = s.core.badX := by unfold State.stick; split <;> rfl
@[simp] theorem State.stick_core_mismatch (s : State) (b : Nat) (c : Bool): (s.stick b c).core.mismatch = s.core.mismatch := by unfold State.stick; split <;> rfl
@[simp] theorem State.stick_core_reruns (s : State) (b : Nat) (c : Bool): (s.stick b c).core.reruns = s.core.reruns := by unfold State.stick; split <;> rfl
@[simp] theorem State.stick_x (s : State) (b : Nat) (c : Bool) (a : BitVec 5): (s.stick b c).x a = s.x a := by unfold State.stick; split <;> rfl
@[simp] theorem State.stick_t (s : State) (b : Nat) (c : Bool) (a : BitVec 4): (s.stick b c).t a = s.t a := by unfold State.stick; split <;> rfl
@[simp] theorem State.stick_mbox (s : State) (b : Nat) (c : Bool) (a : BitVec 3): (s.stick b c).mbox a = s.mbox a := by unfold State.stick; split <;> rfl
@[simp] theorem State.stick_stream (s : State) (b : Nat) (c : Bool) (a : BitVec 2): (s.stick b c).stream a = s.stream a := by unfold State.stick; split <;> rfl
@[simp] theorem State.stick_pc (s : State) (b : Nat) (c : Bool) : (s.stick b c).pc = s.pc := by unfold State.stick; split <;> rfl
@[simp] theorem State.stick_part (s : State) (b : Nat) (c : Bool) : (s.stick b c).part = s.part := by unfold State.stick; split <;> rfl
@[simp] theorem State.stick_partAt (s : State) (b : Nat) (c : Bool) (a : BitVec 3): (s.stick b c).partAt a = s.partAt a := by unfold State.stick; split <;> rfl
@[simp] theorem State.retired_mem (s : State) (b : Bool): (s.retired b).mem = s.mem := rfl
@[simp] theorem State.retired_parts (s : State) (b : Bool): (s.retired b).parts = s.parts := rfl
@[simp] theorem State.retired_beryl (s : State) (b : Bool): (s.retired b).beryl = s.beryl := rfl
@[simp] theorem State.retired_dev (s : State) (b : Bool): (s.retired b).dev = s.dev := rfl
@[simp] theorem State.retired_mgmt (s : State) (b : Bool): (s.retired b).mgmt = s.mgmt := rfl
@[simp] theorem State.retired_obs (s : State) (b : Bool): (s.retired b).obs = s.obs := rfl
@[simp] theorem State.retired_agenda (s : State) (b : Bool): (s.retired b).agenda = s.agenda := rfl
@[simp] theorem State.retired_tick (s : State) (b : Bool): (s.retired b).tick = s.tick := rfl
@[simp] theorem State.retired_core_l1 (s : State) (b : Bool): (s.retired b).core.l1 = s.core.l1 := rfl
@[simp] theorem State.retired_core_sb (s : State) (b : Bool): (s.retired b).core.sb = s.core.sb := rfl
@[simp] theorem State.retired_core_tlb (s : State) (b : Bool): (s.retired b).core.tlb = s.core.tlb := rfl
@[simp] theorem State.retired_core_ls (s : State) (b : Bool): (s.retired b).core.ls = s.core.ls := rfl
@[simp] theorem State.retired_core_lsPoison (s : State) (b : Bool): (s.retired b).core.lsPoison = s.core.lsPoison := rfl
@[simp] theorem State.retired_core_cmds (s : State) (b : Bool): (s.retired b).core.cmds = s.core.cmds := rfl
@[simp] theorem State.retired_core_net (s : State) (b : Bool): (s.retired b).core.net = s.core.net := rfl
@[simp] theorem State.retired_core_unacked (s : State) (b : Bool): (s.retired b).core.unacked = s.core.unacked := rfl
@[simp] theorem State.retired_core_run (s : State) (b : Bool): (s.retired b).core.run = s.core.run := rfl
@[simp] theorem State.retired_core_service (s : State) (b : Bool): (s.retired b).core.service = s.core.service := rfl
@[simp] theorem State.retired_core_num (s : State) (b : Bool): (s.retired b).core.num = s.core.num := rfl
@[simp] theorem State.retired_core_frame (s : State) (b : Bool): (s.retired b).core.frame = s.core.frame := rfl
@[simp] theorem State.retired_core_evictReq (s : State) (b : Bool): (s.retired b).core.evictReq = s.core.evictReq := rfl
@[simp] theorem State.retired_core_unit_ident (s : State) (b : Bool): (s.retired b).core.unit.ident = s.core.unit.ident := rfl
@[simp] theorem State.retired_core_unit_trig (s : State) (b : Bool): (s.retired b).core.unit.trig = s.core.unit.trig := rfl
@[simp] theorem State.retired_core_invals (s : State) (b : Bool): (s.retired b).core.invals = s.core.invals := rfl
@[simp] theorem State.retired_core_lsPart (s : State) (b : Bool): (s.retired b).core.lsPart = s.core.lsPart := rfl
@[simp] theorem State.retired_core_lsHolder (s : State) (b : Bool): (s.retired b).core.lsHolder = s.core.lsHolder := rfl
@[simp] theorem State.retired_core_nextCmd (s : State) (b : Bool): (s.retired b).core.nextCmd = s.core.nextCmd := rfl
@[simp] theorem State.retired_core_oldPins (s : State) (b : Bool): (s.retired b).core.oldPins = s.core.oldPins := rfl
@[simp] theorem State.retired_core_forward (s : State) (b : Bool): (s.retired b).core.forward = s.core.forward := rfl
@[simp] theorem State.retired_core_front (s : State) (b : Bool): (s.retired b).core.front = s.core.front := rfl
@[simp] theorem State.retired_core_rob (s : State) (b : Bool): (s.retired b).core.rob = s.core.rob := rfl
@[simp] theorem State.retired_core_busy (s : State) (b : Bool): (s.retired b).core.busy = s.core.busy := rfl
@[simp] theorem State.retired_core_icache (s : State) (b : Bool): (s.retired b).core.icache = s.core.icache := rfl
@[simp] theorem State.retired_core_badX (s : State) (b : Bool): (s.retired b).core.badX = s.core.badX := rfl
@[simp] theorem State.retired_core_mismatch (s : State) (b : Bool): (s.retired b).core.mismatch = s.core.mismatch := rfl
@[simp] theorem State.retired_core_reruns (s : State) (b : Bool): (s.retired b).core.reruns = s.core.reruns := rfl
@[simp] theorem State.retired_x (s : State) (b : Bool) (a : BitVec 5): (s.retired b).x a = s.x a := rfl
@[simp] theorem State.retired_t (s : State) (b : Bool) (a : BitVec 4): (s.retired b).t a = s.t a := rfl
@[simp] theorem State.retired_mbox (s : State) (b : Bool) (a : BitVec 3): (s.retired b).mbox a = s.mbox a := rfl
@[simp] theorem State.retired_stream (s : State) (b : Bool) (a : BitVec 2): (s.retired b).stream a = s.stream a := rfl
@[simp] theorem State.retired_pc (s : State) (b : Bool) : (s.retired b).pc = s.pc := rfl
@[simp] theorem State.retired_k (s : State) (b : Bool) : (s.retired b).k = s.k := rfl
@[simp] theorem State.retired_part (s : State) (b : Bool) : (s.retired b).part = s.part := rfl
@[simp] theorem State.retired_partAt (s : State) (b : Bool) (a : BitVec 3): (s.retired b).partAt a = s.partAt a := rfl

/-! What they write. -/

@[simp] theorem State.x_zero (s : State) : s.x 0#5 = 0#64 := rfl

theorem State.x_eq (s : State) (r : BitVec 5) (h : r ≠ 0) : s.x r = s.core.unit.x[r.toNat]'r.isLt := if_neg h

@[simp] theorem State.setX_zero (s : State) (v : Word64) : s.setX 0#5 v = s := rfl

theorem State.setX_ne (s : State) (d : BitVec 5) (v : Word64) (h : d ≠ 0) :
    s.setX d v = { s with core.unit.x := s.core.unit.x.set d.toNat v d.isLt } := if_neg h

/-- A scalar register after a write: x0 stays zero, the written one holds the value, another one what it held (01 R11). -/
theorem State.setX_x (s : State) (d r : BitVec 5) (v : Word64) :
    (s.setX d v).x r = if r = 0 then 0 else if r = d then v else s.x r := by
  by_cases hr : r = 0
  · rw [if_pos hr, hr]; rfl
  · rw [if_neg hr]
    by_cases hrd : r = d
    · subst hrd
      rw [State.x_eq _ _ hr, State.setX_ne _ _ _ hr, if_pos rfl]
      simp
    · rw [if_neg hrd]
      by_cases hd : d = 0
      · rw [hd]; rfl
      · have h : d.toNat ≠ r.toNat := fun h => hrd (BitVec.eq_of_toNat_eq h.symm)
        rw [State.x_eq _ _ hr, State.x_eq _ _ hr, State.setX_ne _ _ _ hd]
        exact Vector.getElem_set_ne d.isLt r.isLt h

@[simp] theorem State.setT_self (s : State) (d : BitVec 4) (v : Tile) : (s.setT d v).t d = v := by simp [State.setT, State.t]

theorem State.setT_t (s : State) (d r : BitVec 4) (v : Tile) : (s.setT d v).t r = if r = d then v else s.t r := by
  by_cases h : r = d
  · subst h; simp
  · have h' : d.toNat ≠ r.toNat := fun e => h (BitVec.eq_of_toNat_eq e.symm)
    simp [State.setT, State.t, h, Vector.getElem_set_ne _ _ h']

@[simp] theorem State.setMbox_self (s : State) (d : BitVec 3) (v : Mbox) : (s.setMbox d v).mbox d = v := by
  simp [State.setMbox, State.mbox]

theorem State.setMbox_mbox (s : State) (d r : BitVec 3) (v : Mbox) :
    (s.setMbox d v).mbox r = if r = d then v else s.mbox r := by
  by_cases h : r = d
  · subst h; simp
  · have h' : d.toNat ≠ r.toNat := fun e => h (BitVec.eq_of_toNat_eq e.symm)
    simp [State.setMbox, State.mbox, h, Vector.getElem_set_ne _ _ h']

@[simp] theorem State.setStream_self (s : State) (d : BitVec 2) (v : Stream) : (s.setStream d v).stream d = v := by
  simp [State.setStream, State.stream]

theorem State.setStream_stream (s : State) (d r : BitVec 2) (v : Stream) :
    (s.setStream d v).stream r = if r = d then v else s.stream r := by
  by_cases h : r = d
  · subst h; simp
  · have h' : d.toNat ≠ r.toNat := fun e => h (BitVec.eq_of_toNat_eq e.symm)
    simp [State.setStream, State.stream, h, Vector.getElem_set_ne _ _ h']

@[simp] theorem State.setPc_pc (s : State) (v : BitVec 56) : (s.setPc v).pc = v := rfl
@[simp] theorem State.setK_k (s : State) (v : KRegs) : (s.setK v).k = v := rfl
@[simp] theorem State.ticked_tick (s : State) : s.ticked.tick = s.tick + 1 := rfl

theorem State.modPart_partAt (s : State) (q a : BitVec 3) (f : Part → Part) :
    (s.modPart q f).partAt a = if a = q then f (s.partAt q) else s.partAt a := by
  by_cases h : a = q
  · subst h; simp [State.modPart, State.partAt]
  · have h' : q.toNat ≠ a.toNat := fun e => h (BitVec.eq_of_toNat_eq e.symm)
    simp [State.modPart, State.partAt, h, Vector.getElem_set_ne _ _ h']

@[simp] theorem State.modPart_self (s : State) (q : BitVec 3) (f : Part → Part) : (s.modPart q f).partAt q = f (s.partAt q) := by
  simp [State.modPart_partAt]

theorem State.stick_k (s : State) (b : Nat) (c : Bool) :
    (s.stick b c).k = if c then { s.k with sticky := s.k.sticky ||| BitVec.ofNat 64 (2 ^ b) } else s.k := by
  cases c <;> rfl

@[simp] theorem State.stick_false (s : State) (b : Nat) : s.stick b false = s := rfl

@[simp] theorem State.retired_retired (s : State) (b : Bool) : (s.retired b).core.retired = s.core.retired + 1 := rfl
@[simp] theorem State.retired_retiredTile (s : State) (b : Bool) :
    (s.retired b).core.retiredTile = if b then s.core.retiredTile + 1 else s.core.retiredTile := rfl
@[simp] theorem State.retired_wait (s : State) (b : Bool) : (s.retired b).core.wait = .none := rfl
@[simp] theorem State.retired_exempt (s : State) (b : Bool) : (s.retired b).core.exempt = false := rfl

/-! Blanked copies. -/

@[simp] theorem State.setX_blankX (s : State) (d : BitVec 5) (v : Word64) : (s.setX d v).blankX = s.blankX := by
  unfold State.setX; split <;> rfl
@[simp] theorem State.setT_blankT (s : State) (d : BitVec 4) (v : Tile) : (s.setT d v).blankT = s.blankT := rfl
@[simp] theorem State.setMbox_blankM (s : State) (d : BitVec 3) (v : Mbox) : (s.setMbox d v).blankM = s.blankM := rfl
@[simp] theorem State.stick_blankSticky (s : State) (b : Nat) (c : Bool) : (s.stick b c).blankSticky = s.blankSticky := by
  cases c <;> rfl
@[simp] theorem State.retired_blankFlow (s : State) (b : Bool) : (s.retired b).blankFlow = s.blankFlow := rfl
@[simp] theorem State.setPc_blankFlow (s : State) (p : BitVec 56) : (s.setPc p).blankFlow = s.blankFlow := rfl

theorem SameBytes.of_eq (s u : State) (hm : u.mem = s.mem) (hl : u.core.l1 = s.core.l1) : SameBytes s u := by
  intro a; simp [State.cacheByte, hm, hl]

/-- A write of a scalar register is what SetsX says. -/
theorem SetsX.of_setX (s : State) (d : BitVec 5) (v : Word64) : SetsX s (s.setX d v) d v where
  dest := by rw [State.setX_x, if_pos rfl]
  others := by
    intro r h
    rw [State.setX_x, if_neg h]
    split
    · next hr => rw [hr]; rfl
    · rfl
  rest := by simp
  bytes := SameBytes.of_eq _ _ (by simp) (by simp)

/-- A write of a tile register is what SetsT says. -/
theorem SetsT.of_setT (s : State) (d : BitVec 4) (v : Tile) : SetsT s (s.setT d v) d v false false where
  dest := by simp
  others := by intro r h; simp [State.setT_t, h]
  sticky := by simp
  rest := rfl
  bytes := SameBytes.of_eq _ _ rfl rfl

/-- A write of a mailbox is what SetsM says. -/
theorem SetsM.of_setMbox (s : State) (m : BitVec 3) (v : Word64) (full : Bool) : SetsM s (s.setMbox m ⟨v, full⟩) m v full false where
  dest := by simp
  others := by intro r h; simp [State.setMbox_mbox, h]
  sticky := by simp
  rest := rfl
  bytes := SameBytes.of_eq _ _ rfl rfl

end Sys2Proof.Machine
end

