-- ==== Sys2Proof/Laws/Ops.lean ====
section
/-! SUPPORT. What the shared operations of Machine/Ops.lean can do: the ends of an instruction, retirement, taking a trap, and
writes into the L1. -/

namespace Sys2Proof.Machine

/-! Ends of an instruction. -/

@[simp] theorem State.finish_ok (s t : State) : s.finish (.ok t) = .next t := rfl
@[simp] theorem State.finish_trap (s : State) (c : Cause) (v : Word64) (p : Nat) :
    s.finish (.error (.trap c v p)) = .next (s.trapHere c v p) := rfl
@[simp] theorem State.finish_wait (s : State) (k : WaitKind) :
    s.finish (.error (.wait k)) = .next { s with core.wait := k } := rfl
@[simp] theorem State.finish_fault (s : State) (f : Fault) : s.finish (.error (.fault f)) = .fault f := rfl

/-- No instruction ends in a refusal. -/
theorem State.finish_not_refused (s : State) (r : Run? State) (x : Refusal) : s.finish r ≠ .refused x := by
  rcases r with (_ | _ | _) | _ <;> exact fun h => nomatch h

/-- An instruction whose checks ask for no stop of the machine ends in a next state. -/
theorem State.finish_next (s : State) (r : Run? State) (h : ∀ f, r ≠ .error (.fault f)) : ∃ t, s.finish r = .next t := by
  rcases r with (_ | _ | f) | t
  · exact ⟨_, rfl⟩
  · exact ⟨_, rfl⟩
  · exact absurd rfl (h f)
  · exact ⟨t, rfl⟩

/-! Sequences of checks. -/

theorem run_bind_ok {α β : Type} {x : Run? α} {f : α → Run? β} {b : β} : (x >>= f) = .ok b ↔ ∃ a, x = .ok a ∧ f a = .ok b := by
  cases x with
  | error e => exact ⟨fun h => (nomatch h), fun ⟨a, h, _⟩ => (nomatch h)⟩
  | ok a => exact ⟨fun h => ⟨a, rfl, h⟩, fun ⟨_, h, k⟩ => by cases h; exact k⟩

@[simp] theorem run_ok_bind {α β : Type} (a : α) (f : α → Run? β) : ((Except.ok a : Run? α) >>= f) = f a := rfl
@[simp] theorem run_error_bind {α β : Type} (e : Stop) (f : α → Run? β) : ((Except.error e : Run? α) >>= f) = .error e := rfl

@[simp] theorem need_true (c : Cause) (v : Word64) : need true c v = .ok () := rfl
@[simp] theorem need_false (c : Cause) (v : Word64) : need false c v = .error (.trap c v 0) := rfl
theorem need_ok {b : Bool} {c : Cause} {v : Word64} {u : Unit} : need b c v = .ok u ↔ b = true := by
  cases b <;> simp [need]
@[simp] theorem State.needLevel_true (s : State) : s.needLevel true = .ok () := rfl
theorem State.needLevel_false (s : State) :
    s.needLevel false = .error (.trap .privilege (Config.openTval Cause.privilege.code.toNat s.tick) 0) := rfl

/-! Retirement. -/

/-- Outside a frame retirement moves pc on by a word. -/
theorem State.advance_of_rf (s : State) (b : Bool) (h : s.k.rf = false) : s.advance b = (s.retired b).setPc (s.pc + 4) := by
  simp [State.advance, h]

/-- Moving in a frame writes only k.repst. -/
theorem KRegs.withPos_repst (k : KRegs) (iter pos : Nat) (v : Bool) : ∃ w, k.withPos iter pos v = { k with repst := w } := ⟨_, rfl⟩

/-- A write of k.status and k.repst writes only what blankFlow blanks. -/
theorem State.setK_blankFlow (s : State) (a b : Word64) : (s.setK { s.k with status := a, repst := b }).blankFlow = s.blankFlow := rfl

/-- The position after a captured execution writes only what blankFlow blanks. -/
theorem State.nextInFrame_blankFlow (s : State) : s.nextInFrame.blankFlow = s.blankFlow := by
  unfold State.nextInFrame
  dsimp only
  split
  · obtain ⟨w, hw⟩ := KRegs.withPos_repst s.k s.k.iter (s.k.pos + 1) true
    rw [hw, State.setPc_blankFlow]
    exact s.setK_blankFlow _ w
  · split
    · obtain ⟨w, hw⟩ := KRegs.withPos_repst s.k (s.k.iter + 1) 0 true
      rw [hw, State.setPc_blankFlow]
      exact s.setK_blankFlow _ w
    · obtain ⟨w, hw⟩ := KRegs.withPos_repst s.k s.k.iter s.k.pos false
      rw [hw]
      exact s.setK_blankFlow _ w

/-- Retirement writes only what blankFlow blanks. -/
theorem State.advance_blankFlow (s : State) (b : Bool) : (s.advance b).blankFlow = s.blankFlow := by
  unfold State.advance
  dsimp only
  split
  · rw [State.nextInFrame_blankFlow, State.retired_blankFlow]
  · rfl

/-- What retirement leaves as it was, field by field. -/
theorem State.advance_mem (s : State) (b : Bool) : (s.advance b).mem = s.mem := congrArg (·.mem) (s.advance_blankFlow b)
theorem State.advance_parts (s : State) (b : Bool) : (s.advance b).parts = s.parts := congrArg (·.parts) (s.advance_blankFlow b)
theorem State.advance_beryl (s : State) (b : Bool) : (s.advance b).beryl = s.beryl := congrArg (·.beryl) (s.advance_blankFlow b)
theorem State.advance_dev (s : State) (b : Bool) : (s.advance b).dev = s.dev := congrArg (·.dev) (s.advance_blankFlow b)
theorem State.advance_mgmt (s : State) (b : Bool) : (s.advance b).mgmt = s.mgmt := congrArg (·.mgmt) (s.advance_blankFlow b)
theorem State.advance_obs (s : State) (b : Bool) : (s.advance b).obs = s.obs := congrArg (·.obs) (s.advance_blankFlow b)
theorem State.advance_l1 (s : State) (b : Bool) : (s.advance b).core.l1 = s.core.l1 := congrArg (·.core.l1) (s.advance_blankFlow b)
theorem State.advance_sb (s : State) (b : Bool) : (s.advance b).core.sb = s.core.sb := congrArg (·.core.sb) (s.advance_blankFlow b)
theorem State.advance_ls (s : State) (b : Bool) : (s.advance b).core.ls = s.core.ls := congrArg (·.core.ls) (s.advance_blankFlow b)
theorem State.advance_run (s : State) (b : Bool) : (s.advance b).core.run = s.core.run := congrArg (·.core.run) (s.advance_blankFlow b)
theorem State.advance_x (s : State) (b : Bool) (r : BitVec 5) : (s.advance b).x r = s.x r := by
  have h := congrArg (·.core.unit.x) (s.advance_blankFlow b)
  simp only [State.blankFlow] at h
  simp only [State.x, h]
theorem State.advance_t (s : State) (b : Bool) (r : BitVec 4) : (s.advance b).t r = s.t r := by
  have h := congrArg (·.core.unit.t) (s.advance_blankFlow b)
  simp only [State.blankFlow] at h
  simp only [State.t, h]
theorem State.advance_mbox (s : State) (b : Bool) (r : BitVec 3) : (s.advance b).mbox r = s.mbox r := by
  have h := congrArg (·.core.unit.m) (s.advance_blankFlow b)
  simp only [State.blankFlow] at h
  simp only [State.mbox, h]
theorem State.advance_stream (s : State) (b : Bool) (r : BitVec 2) : (s.advance b).stream r = s.stream r := by
  have h := congrArg (·.core.unit.q) (s.advance_blankFlow b)
  simp only [State.blankFlow] at h
  simp only [State.stream, h]

/-- A transfer of control writes pc and the counts. -/
theorem State.jump_jumps (s : State) (target : BitVec 56) : Jumps s (s.jump target) target where
  pc := rfl
  control := rfl
  count := rfl
  rest := rfl
  bytes := SameBytes.of_eq _ _ rfl rfl

/-! Taking a trap (14 R360). -/

/-- The state in which a trap is taken: the snapshot may trigger, and the model's counter has advanced. -/
def State.trapped (s : State) (cause : BitVec 6) : State :=
  (s.trigger 3 (s.obs.snap.onmc && cause == Cause.machineCheck.code)).ticked

theorem State.trapped_core (s : State) (cause : BitVec 6) : (s.trapped cause).core = s.core := by
  unfold State.trapped State.trigger; repeat' split
  all_goals rfl
theorem State.trapped_mem (s : State) (cause : BitVec 6) : (s.trapped cause).mem = s.mem := by
  unfold State.trapped State.trigger; repeat' split
  all_goals rfl
theorem State.trapped_mgmt (s : State) (cause : BitVec 6) : (s.trapped cause).mgmt = s.mgmt := by
  unfold State.trapped State.trigger; repeat' split
  all_goals rfl
theorem State.trapped_k (s : State) (cause : BitVec 6) : (s.trapped cause).k = s.k := by
  simp only [State.k, State.trapped_core]

/-- A trap of firmware halts the core. -/
theorem State.takeTrap_firmware (s : State) (c : BitVec 6) (f : Bool) (e : BitVec 56) (v : Word64) (p : Nat) (h : s.k.pl = 2) :
    s.takeTrap c f e v p = (s.trapped c).haltReport c e := by
  have hk := s.trapped_k c
  unfold State.trapped at *
  simp [State.takeTrap, hk, h]

/-- A trap inside the handler parks the unit. -/
theorem State.takeTrap_nested (s : State) (c : BitVec 6) (f : Bool) (e : BitVec 56) (v : Word64) (p : Nat) (h : s.k.pl = 1) :
    s.takeTrap c f e v p = (s.trapped c).reportSuspend c f e v p := by
  have hk := s.trapped_k c
  unfold State.trapped at *
  simp [State.takeTrap, hk, h]

/-- A delegated cause, or one with no handler, parks the unit. -/
theorem State.takeTrap_delegated (s : State) (c : BitVec 6) (f : Bool) (e : BitVec 56) (v : Word64) (p : Nat) (h : s.k.pl = 0)
    (hd : s.k.tdeleg.getLsbD c.toNat = true ∨ s.k.tvec = 0) : s.takeTrap c f e v p = (s.trapped c).reportSuspend c f e v p := by
  have hk := s.trapped_k c
  unfold State.trapped at *
  rcases hd with hd | hd <;> simp [State.takeTrap, hk, h, hd]

/-- Otherwise the handler of the unit is entered. -/
theorem State.takeTrap_handler (s : State) (c : BitVec 6) (f : Bool) (e : BitVec 56) (v : Word64) (p : Nat) (h : s.k.pl = 0)
    (hd : s.k.tdeleg.getLsbD c.toNat = false) (hv : s.k.tvec ≠ 0) : s.takeTrap c f e v p = (s.trapped c).enterHandler c f e v p := by
  have hk := s.trapped_k c
  unfold State.trapped at *
  simp only [State.takeTrap, hk, h, hd]
  have hz : ¬s.k.tvec = 0#64 := hv
  simp [hz]

/-! Steps. -/

/-- A step takes the first input of the agenda, and settles the product collections after it. -/
theorem step_input (s : State) (i : Input) (r : List Input) (h : s.agenda = i :: r) :
    step s = (({ s with agenda := r } : State).takeInput exec i).settled := by
  simp [step, State.stepWith, h]

/-- With no input left a step is the core's turn. -/
theorem step_turn (s : State) (h : s.agenda = []) : step s = (s.turn exec).settled := by
  simp [step, State.stepWith, h]

end Sys2Proof.Machine
end

