-- ==== Sys2Proof/Laws/PerInstr.lean ====
section
/-! SUPPORT. The family Encoding: an instruction has a word of 03_encoding_and_assembly.md exactly when it is no event of
95_what_each_step_holds.md. One lemma per constructor. -/

namespace Sys2Proof.Laws.Encoding

/-- The encoder gives a word to every instruction word and to no event. -/
def Statement (i : Instr) : Prop := (encode i).isSome = i.isWord

theorem add (d : BitVec 5) (a : BitVec 5) (b : BitVec 5) : Statement (.add d a b) := rfl
theorem sub (d : BitVec 5) (a : BitVec 5) (b : BitVec 5) : Statement (.sub d a b) := rfl
theorem padd (d : BitVec 5) (a : BitVec 5) (b : BitVec 5) : Statement (.padd d a b) := rfl
theorem ptag (d : BitVec 5) (a : BitVec 5) (b : BitVec 5) : Statement (.ptag d a b) := rfl
theorem and (d : BitVec 5) (a : BitVec 5) (b : BitVec 5) : Statement (.and d a b) := rfl
theorem or (d : BitVec 5) (a : BitVec 5) (b : BitVec 5) : Statement (.or d a b) := rfl
theorem xor (d : BitVec 5) (a : BitVec 5) (b : BitVec 5) : Statement (.xor d a b) := rfl
theorem shl (d : BitVec 5) (a : BitVec 5) (b : BitVec 5) : Statement (.shl d a b) := rfl
theorem shr (d : BitVec 5) (a : BitVec 5) (b : BitVec 5) : Statement (.shr d a b) := rfl
theorem sar (d : BitVec 5) (a : BitVec 5) (b : BitVec 5) : Statement (.sar d a b) := rfl
theorem min (d : BitVec 5) (a : BitVec 5) (b : BitVec 5) : Statement (.min d a b) := rfl
theorem max (d : BitVec 5) (a : BitVec 5) (b : BitVec 5) : Statement (.max d a b) := rfl
theorem minu (d : BitVec 5) (a : BitVec 5) (b : BitVec 5) : Statement (.minu d a b) := rfl
theorem maxu (d : BitVec 5) (a : BitVec 5) (b : BitVec 5) : Statement (.maxu d a b) := rfl
theorem mul (d : BitVec 5) (a : BitVec 5) (b : BitVec 5) : Statement (.mul d a b) := rfl
theorem mulh (d : BitVec 5) (a : BitVec 5) (b : BitVec 5) : Statement (.mulh d a b) := rfl
theorem mulhu (d : BitVec 5) (a : BitVec 5) (b : BitVec 5) : Statement (.mulhu d a b) := rfl
theorem div (d : BitVec 5) (a : BitVec 5) (b : BitVec 5) : Statement (.div d a b) := rfl
theorem divu (d : BitVec 5) (a : BitVec 5) (b : BitVec 5) : Statement (.divu d a b) := rfl
theorem rem (d : BitVec 5) (a : BitVec 5) (b : BitVec 5) : Statement (.rem d a b) := rfl
theorem remu (d : BitVec 5) (a : BitVec 5) (b : BitVec 5) : Statement (.remu d a b) := rfl
theorem popc (d : BitVec 5) (a : BitVec 5) : Statement (.popc d a) := rfl
theorem clz (d : BitVec 5) (a : BitVec 5) : Statement (.clz d a) := rfl
theorem ctz (d : BitVec 5) (a : BitVec 5) : Statement (.ctz d a) := rfl
theorem seq (d : BitVec 5) (a : BitVec 5) (b : BitVec 5) : Statement (.seq d a b) := rfl
theorem sne (d : BitVec 5) (a : BitVec 5) (b : BitVec 5) : Statement (.sne d a b) := rfl
theorem slt (d : BitVec 5) (a : BitVec 5) (b : BitVec 5) : Statement (.slt d a b) := rfl
theorem sltu (d : BitVec 5) (a : BitVec 5) (b : BitVec 5) : Statement (.sltu d a b) := rfl
theorem addi (d : BitVec 5) (a : BitVec 5) (i : BitVec 15) : Statement (.addi d a i) := rfl
theorem andi (d : BitVec 5) (a : BitVec 5) (i : BitVec 15) : Statement (.andi d a i) := rfl
theorem ori (d : BitVec 5) (a : BitVec 5) (i : BitVec 15) : Statement (.ori d a i) := rfl
theorem xori (d : BitVec 5) (a : BitVec 5) (i : BitVec 15) : Statement (.xori d a i) := rfl
theorem shli (d : BitVec 5) (a : BitVec 5) (h : BitVec 6) : Statement (.shli d a h) := rfl
theorem shri (d : BitVec 5) (a : BitVec 5) (h : BitVec 6) : Statement (.shri d a h) := rfl
theorem sari (d : BitVec 5) (a : BitVec 5) (h : BitVec 6) : Statement (.sari d a h) := rfl
theorem paddi (d : BitVec 5) (a : BitVec 5) (i : BitVec 15) : Statement (.paddi d a i) := rfl
theorem li (d : BitVec 5) (i : BitVec 15) : Statement (.li d i) := rfl
theorem lih (d : BitVec 5) (a : BitVec 5) (i : BitVec 15) : Statement (.lih d a i) := rfl
theorem slti (d : BitVec 5) (a : BitVec 5) (i : BitVec 15) : Statement (.slti d a i) := rfl
theorem sltiu (d : BitVec 5) (a : BitVec 5) (i : BitVec 15) : Statement (.sltiu d a i) := rfl
theorem seqi (d : BitVec 5) (a : BitVec 5) (i : BitVec 15) : Statement (.seqi d a i) := rfl
theorem muli (d : BitVec 5) (a : BitVec 5) (i : BitVec 15) : Statement (.muli d a i) := rfl
theorem faddS (d : BitVec 5) (a : BitVec 5) (b : BitVec 5) : Statement (.faddS d a b) := rfl
theorem fsubS (d : BitVec 5) (a : BitVec 5) (b : BitVec 5) : Statement (.fsubS d a b) := rfl
theorem fmulS (d : BitVec 5) (a : BitVec 5) (b : BitVec 5) : Statement (.fmulS d a b) := rfl
theorem fdivS (d : BitVec 5) (a : BitVec 5) (b : BitVec 5) : Statement (.fdivS d a b) := rfl
theorem fminS (d : BitVec 5) (a : BitVec 5) (b : BitVec 5) : Statement (.fminS d a b) := rfl
theorem fmaxS (d : BitVec 5) (a : BitVec 5) (b : BitVec 5) : Statement (.fmaxS d a b) := rfl
theorem fsqrtS (d : BitVec 5) (a : BitVec 5) : Statement (.fsqrtS d a) := rfl
theorem ffmaS (d : BitVec 5) (a : BitVec 5) (b : BitVec 5) : Statement (.ffmaS d a b) := rfl
theorem feqS (d : BitVec 5) (a : BitVec 5) (b : BitVec 5) : Statement (.feqS d a b) := rfl
theorem fltS (d : BitVec 5) (a : BitVec 5) (b : BitVec 5) : Statement (.fltS d a b) := rfl
theorem fleS (d : BitVec 5) (a : BitVec 5) (b : BitVec 5) : Statement (.fleS d a b) := rfl
theorem faddD (d : BitVec 5) (a : BitVec 5) (b : BitVec 5) : Statement (.faddD d a b) := rfl
theorem fsubD (d : BitVec 5) (a : BitVec 5) (b : BitVec 5) : Statement (.fsubD d a b) := rfl
theorem fmulD (d : BitVec 5) (a : BitVec 5) (b : BitVec 5) : Statement (.fmulD d a b) := rfl
theorem fdivD (d : BitVec 5) (a : BitVec 5) (b : BitVec 5) : Statement (.fdivD d a b) := rfl
theorem fminD (d : BitVec 5) (a : BitVec 5) (b : BitVec 5) : Statement (.fminD d a b) := rfl
theorem fmaxD (d : BitVec 5) (a : BitVec 5) (b : BitVec 5) : Statement (.fmaxD d a b) := rfl
theorem fsqrtD (d : BitVec 5) (a : BitVec 5) : Statement (.fsqrtD d a) := rfl
theorem ffmaD (d : BitVec 5) (a : BitVec 5) (b : BitVec 5) : Statement (.ffmaD d a b) := rfl
theorem feqD (d : BitVec 5) (a : BitVec 5) (b : BitVec 5) : Statement (.feqD d a b) := rfl
theorem fltD (d : BitVec 5) (a : BitVec 5) (b : BitVec 5) : Statement (.fltD d a b) := rfl
theorem fleD (d : BitVec 5) (a : BitVec 5) (b : BitVec 5) : Statement (.fleD d a b) := rfl
theorem fcvt (d : BitVec 5) (a : BitVec 5) (sat : BitVec 1) (src : BitVec 4) (tgt : BitVec 4) : Statement (.fcvt d a sat src tgt) := rfl
theorem beq (a : BitVec 5) (b : BitVec 5) (o : BitVec 15) : Statement (.beq a b o) := rfl
theorem bne (a : BitVec 5) (b : BitVec 5) (o : BitVec 15) : Statement (.bne a b o) := rfl
theorem blt (a : BitVec 5) (b : BitVec 5) (o : BitVec 15) : Statement (.blt a b o) := rfl
theorem bge (a : BitVec 5) (b : BitVec 5) (o : BitVec 15) : Statement (.bge a b o) := rfl
theorem j (o : BitVec 25) : Statement (.j o) := rfl
theorem call (o : BitVec 25) : Statement (.call o) := rfl
theorem rep (n1 : BitVec 4) (k1 : BitVec 8) (std : BitVec 2) (sta : BitVec 2) (stb : BitVec 2) (stc : BitVec 2) : Statement (.rep n1 k1 std sta stb stc) := rfl
theorem jr (a : BitVec 5) : Statement (.jr a) := rfl
theorem callr (d : BitVec 5) (a : BitVec 5) : Statement (.callr d a) := rfl
theorem mrd (m : BitVec 3) (bt : BitVec 1) (d : BitVec 5) : Statement (.mrd m bt d) := rfl
theorem mpk (m : BitVec 3) (bt : BitVec 1) (d : BitVec 5) : Statement (.mpk m bt d) := rfl
theorem wfm (m : BitVec 3) (bt : BitVec 1) : Statement (.wfm m bt) := rfl
theorem mwr (m : BitVec 3) (b : BitVec 5) : Statement (.mwr m b) := rfl
theorem send (m : BitVec 3) (a : BitVec 5) (b : BitVec 5) : Statement (.send m a b) := rfl
theorem sendU (m : BitVec 3) (a : BitVec 5) (b : BitVec 5) : Statement (.sendU m a b) := rfl
theorem mclr (m : BitVec 3) : Statement (.mclr m) := rfl
theorem mfull (d : BitVec 5) : Statement (.mfull d) := rfl
theorem ld (d : BitVec 5) (a : BitVec 5) (sz : BitVec 3) (off : BitVec 12) : Statement (.ld d a sz off) := rfl
theorem ldz (d : BitVec 5) (a : BitVec 5) (sz : BitVec 3) (off : BitVec 12) : Statement (.ldz d a sz off) := rfl
theorem st (s : BitVec 5) (a : BitVec 5) (sz : BitVec 3) (off : BitVec 12) : Statement (.st s a sz off) := rfl
theorem ldAcq (d : BitVec 5) (a : BitVec 5) (sz : BitVec 3) (scope : BitVec 2) : Statement (.ldAcq d a sz scope) := rfl
theorem stRel (s : BitVec 5) (a : BitVec 5) (sz : BitVec 3) (scope : BitVec 2) : Statement (.stRel s a sz scope) := rfl
theorem amo (d : BitVec 5) (a : BitVec 5) (b : BitVec 5) (ord : BitVec 2) (scope : BitVec 2) (sz : BitVec 1) (op : BitVec 4) : Statement (.amo d a b ord scope sz op) := rfl
theorem ared (a : BitVec 5) (b : BitVec 5) (ord : BitVec 2) (scope : BitVec 2) (sz : BitVec 1) (op : BitVec 4) : Statement (.ared a b ord scope sz op) := rfl
theorem fence (scope : BitVec 2) : Statement (.fence scope) := rfl
theorem fenceAcq (scope : BitVec 2) : Statement (.fenceAcq scope) := rfl
theorem fenceRel (scope : BitVec 2) : Statement (.fenceRel scope) := rfl
theorem xfence (src : BitVec 3) (dst : BitVec 3) : Statement (.xfence src dst) := rfl
theorem cwbr (a : BitVec 5) (b : BitVec 5) (scope : BitVec 2) : Statement (.cwbr a b scope) := rfl
theorem cinv (a : BitVec 5) (b : BitVec 5) (scope : BitVec 2) : Statement (.cinv a b scope) := rfl
theorem bloa (d : BitVec 5) (a : BitVec 5) (node : BitVec 1) (rg : BitVec 4) : Statement (.bloa d a node rg) := rfl
theorem bref (a : BitVec 5) (rg : BitVec 4) : Statement (.bref a rg) := rfl
theorem brel (a : BitVec 5) (rg : BitVec 4) : Statement (.brel a rg) := rfl
theorem bcas (d : BitVec 5) (a : BitVec 5) (b : BitVec 5) (dep : BitVec 3) : Statement (.bcas d a b dep) := rfl
theorem bout (d : BitVec 5) (a : BitVec 5) (b : BitVec 5) : Statement (.bout d a b) := rfl
theorem tldb (d : BitVec 4) (a : BitVec 5) (b : BitVec 5) (ai : BitVec 1) (tr : BitVec 1) (hint : BitVec 2) (esrc : BitVec 2) (pin : BitVec 1) : Statement (.tldb d a b ai tr hint esrc pin) := rfl
theorem vpub (d : BitVec 5) (a : BitVec 5) (b : BitVec 5) (dep : BitVec 3) : Statement (.vpub d a b dep) := rfl
theorem vsw (d : BitVec 5) (a : BitVec 5) : Statement (.vsw d a) := rfl
theorem vswDrop (d : BitVec 5) : Statement (.vswDrop d) := rfl
theorem tld (d : BitVec 4) (a : BitVec 5) (b : BitVec 5) (ai : BitVec 1) (tr : BitVec 1) (hint : BitVec 2) (esrc : BitVec 2) (dir : BitVec 1) (half : BitVec 1) : Statement (.tld d a b ai tr hint esrc dir half) := rfl
theorem tst (s : BitVec 4) (a : BitVec 5) (b : BitVec 5) (ai : BitVec 1) (hint : BitVec 2) (esrc : BitVec 2) (dir : BitVec 1) (half : BitVec 1) : Statement (.tst s a b ai hint esrc dir half) := rfl
theorem tldi (d : BitVec 4) (a : BitVec 5) (b : BitVec 5) (ai : BitVec 1) (hint : BitVec 2) (esrc : BitVec 2) (dir : BitVec 1) (ti : BitVec 4) : Statement (.tldi d a b ai hint esrc dir ti) := rfl
theorem tlds (d : BitVec 4) (a : BitVec 5) (b : BitVec 5) (ai : BitVec 1) (tr : BitVec 1) (esrc : BitVec 2) (dir : BitVec 1) (half : BitVec 1) : Statement (.tlds d a b ai tr esrc dir half) := rfl
theorem tsts (s : BitVec 4) (a : BitVec 5) (b : BitVec 5) (ai : BitVec 1) (esrc : BitVec 2) (dir : BitVec 1) (half : BitVec 1) : Statement (.tsts s a b ai esrc dir half) := rfl
theorem mma (d : BitVec 4) (a : BitVec 4) (b : BitVec 4) (c : BitVec 4) (stk : BitVec 1) (bc : BitVec 1) : Statement (.mma d a b c stk bc) := rfl
theorem mmz (d : BitVec 4) (a : BitVec 4) (b : BitVec 4) (stk : BitVec 1) (bc : BitVec 1) : Statement (.mmz d a b stk bc) := rfl
theorem mmg (d : BitVec 4) (i : BitVec 4) (b : BitVec 4) (c : BitVec 4) (stk : BitVec 1) (bc : BitVec 1) (hint : BitVec 2) (xp : BitVec 5) : Statement (.mmg d i b c stk bc hint xp) := rfl
theorem tadw (d : BitVec 4) (a : BitVec 4) (b : BitVec 4) (c : BitVec 4) (xh : BitVec 5) : Statement (.tadw d a b c xh) := rfl
theorem tadd (d : BitVec 4) (a : BitVec 4) (b : BitVec 4) (w : BitVec 1) : Statement (.tadd d a b w) := rfl
theorem tsub (d : BitVec 4) (a : BitVec 4) (b : BitVec 4) (w : BitVec 1) : Statement (.tsub d a b w) := rfl
theorem tmul (d : BitVec 4) (a : BitVec 4) (b : BitVec 4) (w : BitVec 1) : Statement (.tmul d a b w) := rfl
theorem tfma (d : BitVec 4) (a : BitVec 4) (b : BitVec 4) (c : BitVec 4) (w : BitVec 1) : Statement (.tfma d a b c w) := rfl
theorem tmax (d : BitVec 4) (a : BitVec 4) (b : BitVec 4) (w : BitVec 1) : Statement (.tmax d a b w) := rfl
theorem tmin (d : BitVec 4) (a : BitVec 4) (b : BitVec 4) (w : BitVec 1) : Statement (.tmin d a b w) := rfl
theorem tcmp (d : BitVec 4) (a : BitVec 4) (b : BitVec 4) (cond : BitVec 3) : Statement (.tcmp d a b cond) := rfl
theorem tsel (d : BitVec 4) (a : BitVec 4) (b : BitVec 4) (c : BitVec 4) : Statement (.tsel d a b c) := rfl
theorem tcvt (d : BitVec 4) (a : BitVec 4) (sat : BitVec 1) (tgt : BitVec 5) : Statement (.tcvt d a sat tgt) := rfl
theorem ttr (d : BitVec 4) (a : BitVec 4) : Statement (.ttr d a) := rfl
theorem tred (d : BitVec 4) (a : BitVec 4) (d64 : BitVec 1) (dst : BitVec 1) (op : BitVec 3) (axis : BitVec 2) : Statement (.tred d a d64 dst op axis) := rfl
theorem tsfu (d : BitVec 4) (a : BitVec 4) (fn : BitVec 3) : Statement (.tsfu d a fn) := rfl
theorem tbcRow (d : BitVec 4) (a : BitVec 4) (b : BitVec 4) : Statement (.tbcRow d a b) := rfl
theorem tbcCol (d : BitVec 4) (a : BitVec 4) (b : BitVec 4) : Statement (.tbcCol d a b) := rfl
theorem tbcEl (d : BitVec 4) (a : BitVec 4) (b : BitVec 4) : Statement (.tbcEl d a b) := rfl
theorem tbcX (d : BitVec 4) (b : BitVec 4) (xs : BitVec 5) : Statement (.tbcX d b xs) := rfl
theorem tsc (d : BitVec 4) (a : BitVec 4) (tgt : BitVec 5) : Statement (.tsc d a tgt) := rfl
theorem tnf (d : BitVec 4) (a : BitVec 4) (dst : BitVec 1) : Statement (.tnf d a dst) := rfl
theorem smpl (m : BitVec 3) (a : BitVec 4) (xs : BitVec 5) : Statement (.smpl m a xs) := rfl
theorem bcp (d : BitVec 5) (a : BitVec 5) (b : BitVec 5) : Statement (.bcp d a b) := rfl
theorem bcpLd (d : BitVec 5) (a : BitVec 5) (b : BitVec 5) : Statement (.bcpLd d a b) := rfl
theorem bcpSt (d : BitVec 5) (a : BitVec 5) (b : BitVec 5) : Statement (.bcpSt d a b) := rfl
theorem sbind (q : BitVec 2) (a : BitVec 5) (b : BitVec 5) (esz : BitVec 2) : Statement (.sbind q a b esz) := rfl
theorem qrd (q : BitVec 2) (bt : BitVec 1) (d : BitVec 5) : Statement (.qrd q bt d) := rfl
theorem sunbind (q : BitVec 2) : Statement (.sunbind q) := rfl
theorem qavail (q : BitVec 2) (d : BitVec 5) : Statement (.qavail q d) := rfl
theorem barExp (a : BitVec 5) (b : BitVec 5) : Statement (.barExp a b) := rfl
theorem barExpArr (a : BitVec 5) (b : BitVec 5) : Statement (.barExpArr a b) := rfl
theorem barArr (a : BitVec 5) : Statement (.barArr a) := rfl
theorem barInit (a : BitVec 5) (b : BitVec 5) : Statement (.barInit a b) := rfl
theorem barDrop (a : BitVec 5) : Statement (.barDrop a) := rfl
theorem barWait (d : BitVec 5) (a : BitVec 5) (b : BitVec 5) : Statement (.barWait d a b) := rfl
theorem barTest (d : BitVec 5) (a : BitVec 5) : Statement (.barTest d a) := rfl
theorem a2aCl (d : BitVec 5) (a : BitVec 5) (b : BitVec 5) : Statement (.a2aCl d a b) := rfl
theorem a2aQ (d : BitVec 5) (a : BitVec 5) (b : BitVec 5) : Statement (.a2aQ d a b) := rfl
theorem cred (d : BitVec 5) (a : BitVec 5) (b : BitVec 5) : Statement (.cred d a b) := rfl
theorem credLs (d : BitVec 5) (a : BitVec 5) (b : BitVec 5) : Statement (.credLs d a b) := rfl
theorem ofldOut (d : BitVec 5) (a : BitVec 5) (b : BitVec 5) : Statement (.ofldOut d a b) := rfl
theorem ofldIn (d : BitVec 5) (a : BitVec 5) (b : BitVec 5) : Statement (.ofldIn d a b) := rfl
theorem rget (d : BitVec 5) (a : BitVec 5) (acq : BitVec 1) (sz : BitVec 2) : Statement (.rget d a acq sz) := rfl
theorem rput (a : BitVec 5) (b : BitVec 5) (rel : BitVec 1) (sz : BitVec 2) : Statement (.rput a b rel sz) := rfl
theorem ramo (d : BitVec 5) (a : BitVec 5) (b : BitVec 5) (ord : BitVec 2) (sz : BitVec 1) (op : BitVec 4) : Statement (.ramo d a b ord sz op) := rfl
theorem larm (d : BitVec 5) (a : BitVec 5) : Statement (.larm d a) := rfl
theorem lpat (a : BitVec 5) (b : BitVec 5) (width : BitVec 2) (off : BitVec 4) : Statement (.lpat a b width off) := rfl
theorem cncl (d : BitVec 5) (a : BitVec 5) (level : BitVec 3) : Statement (.cncl d a level) := rfl
theorem trig : Statement .trig := rfl
theorem draw (d : BitVec 5) : Statement (.draw d) := rfl
theorem smrg (d : BitVec 4) (op : BitVec 2) (xp : BitVec 5) : Statement (.smrg d op xp) := rfl
theorem exit : Statement .exit := rfl
theorem trap (code : BitVec 15) : Statement (.trap code) := rfl
theorem sret : Statement .sret := rfl
theorem kget (d : BitVec 5) (k : BitVec 15) : Statement (.kget d k) := rfl
theorem kset (a : BitVec 5) (k : BitVec 15) : Statement (.kset a k) := rfl
theorem brk : Statement .brk := rfl
theorem halt : Statement .halt := rfl
theorem spt (a : BitVec 5) : Statement (.spt a) := rfl
theorem tlbiAll : Statement .tlbiAll := rfl
theorem tlbiVa (a : BitVec 5) : Statement (.tlbiVa a) := rfl
theorem tlbiBlk (a : BitVec 5) (n : BitVec 7) : Statement (.tlbiBlk a n) := rfl
theorem pinEntryRelease (entry : Nat) : Statement (.pinEntryRelease entry) := rfl
theorem blockReclaim (quadrant : Nat) : Statement (.blockReclaim quadrant) := rfl
theorem bcpChunkDelivery (cmd : Nat) (off : Nat) (len : Nat) (peer : PeerPart) : Statement (.bcpChunkDelivery cmd off len peer) := rfl
theorem streamElementFill (q : BitVec 2) : Statement (.streamElementFill q) := rfl
theorem a2aExchangeStart (cmd : Nat) (members : List A2aMember) : Statement (.a2aExchangeStart cmd members) := rfl
theorem a2aStep (cmd : Nat) (incoming : List (Option Byte)) : Statement (.a2aStep cmd incoming) := rfl
theorem credSourceRead (cmd : Nat) : Statement (.credSourceRead cmd) := rfl
theorem credContribution (c : CredSource) : Statement (.credContribution c) := rfl
theorem ofldPageCompletion (cmd : Nat) (page : Nat) (status : Nat) (data : List Byte) : Statement (.ofldPageCompletion cmd page status data) := rfl
theorem ofldTimeout (cmd : Nat) (page : Nat) : Statement (.ofldTimeout cmd page) := rfl
theorem rputSend : Statement .rputSend := rfl
theorem inboundRemoteRequest (dev : Nat) (part : Nat) (pa : Nat) (op : RemoteOp) : Statement (.inboundRemoteRequest dev part pa op) := rfl
theorem remoteResponse (va : Nat) (task : Nat) (launch : Nat) (r : RemoteReply) : Statement (.remoteResponse va task launch r) := rfl
theorem instructionFetch (va : BitVec 56) : Statement (.instructionFetch va) := rfl
theorem dispatch (c : EngineClass) (tiles scalars : Nat) : Statement (.dispatch c tiles scalars) := rfl
theorem issue (c : EngineClass) (offer : Option StackOffer) : Statement (.issue c offer) := rfl
theorem pageWalk (va : BitVec 56) (acc : Access) : Statement (.pageWalk va acc) := rfl
theorem engineCompletion (engine : Nat) : Statement (.engineCompletion engine) := rfl
theorem retirement : Statement .retirement := rfl
theorem storePerformed : Statement .storePerformed := rfl
theorem aredPerform : Statement .aredPerform := rfl
theorem stackHoldExpiry (entry : Nat) : Statement (.stackHoldExpiry entry) := rfl
theorem stackedOperationIssue (entry : Nat) : Statement (.stackedOperationIssue entry) := rfl
theorem trapEntry (cause : BitVec 6) (inFetch : Bool) (epc : BitVec 56) (tval : Word64) : Statement (.trapEntry cause inFetch epc tval) := rfl
theorem reportAndSuspend (cause : BitVec 6) (inFetch : Bool) (epc : BitVec 56) (tval : Word64) (paddr : Nat) : Statement (.reportAndSuspend cause inFetch epc tval paddr) := rfl
theorem heldFaultRecordWrite (p : Fin 8) : Statement (.heldFaultRecordWrite p) := rfl
theorem unitStart (p : Fin 8) (core : Nat) : Statement (.unitStart p core) := rfl
theorem timeSlicePreemption (p : Fin 8) (task : BitVec 32) : Statement (.timeSlicePreemption p task) := rfl
theorem unitEnd (p : Fin 8) (task : BitVec 32) : Statement (.unitEnd p task) := rfl
theorem launchCompletion (p : Fin 8) (launch : BitVec 32) : Statement (.launchCompletion p launch) := rfl
theorem heldEventRecordWrite (p : Fin 8) : Statement (.heldEventRecordWrite p) := rfl
theorem eventRingTimeout (p : Fin 8) : Statement (.eventRingTimeout p) := rfl
theorem messageArrival (e : MsgEvent) : Statement (.messageArrival e) := rfl
theorem messageRetry (i : Nat) : Statement (.messageRetry i) := rfl
theorem eviction (p : Fin 8) (task : BitVec 32) (slot : Nat) : Statement (.eviction p task slot) := rfl
theorem restoration (p : Fin 8) (slot : Nat) (core : Nat) : Statement (.restoration p slot core) := rfl
theorem migration (dest : Nat) : Statement (.migration dest) := rfl
theorem forwardingEntryExpiry (task : BitVec 32) : Statement (.forwardingEntryExpiry task) := rfl
theorem pageSwap (group : Nat) (way : Nat) (portError : Bool) : Statement (.pageSwap group way portError) := rfl
theorem patrolScrubRead (granule : Nat) : Statement (.patrolScrubRead granule) := rfl
theorem scrubWriteback (granule : Nat) : Statement (.scrubWriteback granule) := rfl
theorem l2mapAdoption (slice : Nat) : Statement (.l2mapAdoption slice) := rfl
theorem lineHandoff (line : Nat) : Statement (.lineHandoff line) := rfl
theorem requestRedirect : Statement .requestRedirect := rfl
theorem hostMemoryAccess (pa : Nat) (data : List Byte) : Statement (.hostMemoryAccess pa data) := rfl
theorem submissionRecordCopy (p : Fin 8) (k : Fin 8) : Statement (.submissionRecordCopy p k) := rfl
theorem stailWrite (p : Fin 8) (k : Fin 8) (v : BitVec 32) : Statement (.stailWrite p k v) := rfl
theorem srst (p : Fin 8) (k : Fin 8) : Statement (.srst p k) := rfl
theorem qmask (src : Source) (p : Fin 8) (mask : BitVec 8) (en : Bool) : Statement (.qmask src p mask en) := rfl
theorem qpark (src : Source) (p : Fin 8) (park : BitVec 8) (deep : BitVec 8) : Statement (.qpark src p park deep) := rfl
theorem quadrantParked (p : Fin 8) (q : Fin 8) : Statement (.quadrantParked p q) := rfl
theorem quadrantUnparked (p : Fin 8) (q : Fin 8) : Statement (.quadrantUnparked p q) := rfl
theorem resume (p : Fin 8) (task : BitVec 32) (action : BitVec 1) : Statement (.resume p task action) := rfl
theorem evict (p : Fin 8) (task : BitVec 32) : Statement (.evict p task) := rfl
theorem close (p : Fin 8) : Statement (.close p) := rfl
theorem bkpt (viaPart : Option (Fin 8)) (slot : Fin 8) (word : Fin 4) (v : Word64) : Statement (.bkpt viaPart slot word v) := rfl
theorem breakpointSlotActivation (slot : Fin 8) : Statement (.breakpointSlotActivation slot) := rfl
theorem matchClear (mask : BitVec 8) : Statement (.matchClear mask) := rfl
theorem hitsClear (slot : Fin 8) : Statement (.hitsClear slot) := rfl
theorem registerWrite (src : Source) (addr : Nat) (v : Word64) : Statement (.registerWrite src addr v) := rfl
theorem energyIntervalStart (p : Fin 8) : Statement (.energyIntervalStart p) := rfl
theorem req (src : Source) (point : BitVec 2) (wlim : BitVec 32) : Statement (.req src point wlim) := rfl
theorem hbmPointChange : Statement .hbmPointChange := rfl
theorem waitLimitExpiry : Statement .waitLimitExpiry := rfl
theorem semaphoreAcquire (src : Source) (owner : BitVec 16) (lease : BitVec 30) : Statement (.semaphoreAcquire src owner lease) := rfl
theorem semaphoreRelease (owner : BitVec 16) : Statement (.semaphoreRelease owner) := rfl
theorem semaphoreRenew (owner : BitVec 16) (lease : BitVec 30) : Statement (.semaphoreRenew owner lease) := rfl
theorem semaphoreClearGerr : Statement .semaphoreClearGerr := rfl
theorem leaseExpiry : Statement .leaseExpiry := rfl
theorem deviceNumber (src : Source) (n : BitVec 3) : Statement (.deviceNumber src n) := rfl
theorem linkUp (l : Fin 12) (far : BitVec 3) : Statement (.linkUp l far) := rfl
theorem linkDown (l : Fin 12) : Statement (.linkDown l) := rfl
theorem flitCrcRetry (l : Fin 12) : Statement (.flitCrcRetry l) := rfl
theorem now : Statement .now := rfl
theorem pulsePeriod : Statement .pulsePeriod := rfl
theorem counterSample : Statement .counterSample := rfl
theorem ringBaseSize (sampler : Bool) (base : Nat) (size : BitVec 32) : Statement (.ringBaseSize sampler base size) := rfl
theorem arm (onseq : Bool) (onbrk : Bool) (onmc : Bool) (seqMatch : BitVec 32) : Statement (.arm onseq onbrk onmc seqMatch) := rfl
theorem fire : Statement .fire := rfl
theorem snapshotLatch : Statement .snapshotLatch := rfl
theorem clklim (mhz : BitVec 12) : Statement (.clklim mhz) := rfl
theorem plim (watts : BitVec 11) : Statement (.plim watts) := rfl
theorem thermalCeilingStep (celsius : Nat) : Statement (.thermalCeilingStep celsius) := rfl
theorem powerCeilingStep (milliwatts : Nat) : Statement (.powerCeilingStep milliwatts) := rfl
theorem trip : Statement .trip := rfl
theorem go (abuf : Nat) : Statement (.go abuf) := rfl
theorem attestationReport : Statement .attestationReport := rfl
theorem lock : Statement .lock := rfl
theorem bann (src : Source) (mask : BitVec 16) : Statement (.bann src mask) := rfl
theorem powerOnReset : Statement .powerOnReset := rfl
theorem identify : Statement .identify := rfl
theorem readRegister (off : BitVec 16) : Statement (.readRegister off) := rfl
theorem readLog (index : BitVec 16) : Statement (.readLog index) := rfl
theorem state : Statement .state := rfl
theorem raiseMinimum (minimum : Word64) (key : List Byte) (sig : List Byte) : Statement (.raiseMinimum minimum key sig) := rfl
theorem writeFlash (slot : Fin 2) (off : BitVec 32) (data : List Byte) : Statement (.writeFlash slot off data) := rfl
theorem eraseSlot (slot : Fin 2) : Statement (.eraseSlot slot) := rfl
theorem getVendorDefinedMessageSupport : Statement .getVendorDefinedMessageSupport := rfl
theorem cxlPortDown (port : Fin 4) : Statement (.cxlPortDown port) := rfl
theorem lostLink (port : Fin 4) : Statement (.lostLink port) := rfl

end Sys2Proof.Laws.Encoding
end

