-- ==== Sys2Proof/Laws/Scalar.lean ====
section
/-! SUPPORT. The integer operations of chapter 04 as the manual's formulas. -/

namespace Sys2Proof.Machine

theorem onesBelow_eq (a : Word64) (n : Nat) : onesBelow a n = (List.range n).countP a.getLsbD := by
  induction n with
  | zero => rfl
  | succ n ih => rw [List.range_succ, List.countP_append, onesBelow, ih]; simp

theorem zerosFrom_eq (a : Word64) (n : Nat) :
    zerosFrom a n = ((List.range n).find? (fun k => a.getLsbD (n - 1 - k))).getD n := by
  induction n with
  | zero => rfl
  | succ n ih =>
    rw [List.range_succ_eq_map, zerosFrom, List.find?_cons, Nat.add_sub_cancel, Nat.sub_zero]
    by_cases hb : a.getLsbD n
    · simp [hb]
    · have hk : (fun k => a.getLsbD (n - k)) ∘ Nat.succ = fun k => a.getLsbD (n - 1 - k) := by
        funext k; simp only [Function.comp, Nat.succ_eq_add_one]; congr 1; omega
      simp only [hb, List.find?_map, hk]
      rw [ih]
      cases List.find? (fun k => a.getLsbD (n - 1 - k)) (List.range n) <;> rfl

theorem zerosUp_eq (a : Word64) (n k : Nat) :
    zerosUp a n k = ((List.range n).find? (fun j => a.getLsbD (k + j))).getD n := by
  induction n generalizing k with
  | zero => rfl
  | succ n ih =>
    rw [List.range_succ_eq_map, zerosUp, List.find?_cons]
    simp only [Nat.add_zero]
    by_cases hb : a.getLsbD k
    · simp [hb]
    · have hk : (fun j => a.getLsbD (k + j)) ∘ Nat.succ = fun j => a.getLsbD (k + 1 + j) := by
        funext j; simp only [Function.comp, Nat.succ_eq_add_one]; congr 1; omega
      simp only [hb, List.find?_map, hk]
      rw [ih]
      cases List.find? (fun j => a.getLsbD (k + 1 + j)) (List.range n) <;> rfl

theorem divS_eq (a b : Word64) : divS a b = if b = 0 then BitVec.allOnes 64 else a.sdiv b := by
  unfold divS
  split
  · rfl
  · rw [← BitVec.toInt_inj, BitVec.toInt_ofInt, BitVec.toInt_sdiv]

theorem remS_eq (a b : Word64) : remS a b = if b = 0 then a else a.srem b := by
  unfold remS
  split
  · rfl
  · rw [← BitVec.toInt_srem, BitVec.ofInt_toInt]

theorem sar_eq (a : Word64) (n : Nat) : a.sshiftRight n = BitVec.ofInt 64 (a.toInt / 2 ^ n) := by
  simp [BitVec.sshiftRight, Int.shiftRight_eq_div_pow]

end Sys2Proof.Machine
end

