-- ==== Sys2Proof/Tests/Slice0.lean ====
section
/-! SUPPORT. Tests: the words of every family decoded, each instruction and event on small states with results computed by hand
from the manual, ill-formed words refused, and for every statement states that meet its hypotheses. -/

namespace Sys2Proof.Tests

open Sys2Proof Sys2Proof.Machine

set_option Elab.async false

theorem test_decodeIntegerA :
    decode 0x02BAB800 = .ok (.add 11 21 14) ∧ decode 0x02BAB801 = .ok (.sub 11 21 14) ∧ decode 0x02BAB802 = .ok (.padd 11 21 14)
    ∧ decode 0x02BAB803 = .ok (.ptag 11 21 14) ∧ decode 0x02BAB804 = .ok (.and 11 21 14) ∧ decode 0x02BAB805 = .ok (.or 11 21 14)
    ∧ decode 0x02BAB806 = .ok (.xor 11 21 14) ∧ decode 0x02BAB807 = .ok (.shl 11 21 14) ∧ decode 0x02BAB808 = .ok (.shr 11 21 14)
    ∧ decode 0x02BAB809 = .ok (.sar 11 21 14) ∧ decode 0x02BAB80A = .ok (.min 11 21 14) ∧ decode 0x02BAB80B = .ok (.max 11 21 14)
    ∧ decode 0x02BAB80C = .ok (.minu 11 21 14) ∧ decode 0x02BAB80D = .ok (.maxu 11 21 14) ∧ decode 0x02BAB80E = .ok (.mul 11 21 14)
    ∧ decode 0x02BAB80F = .ok (.mulh 11 21 14) := by decide

theorem test_decodeIntegerB :
    decode 0x02BAB810 = .ok (.mulhu 11 21 14) ∧ decode 0x02BAB811 = .ok (.div 11 21 14) ∧ decode 0x02BAB812 = .ok (.divu 11 21 14)
    ∧ decode 0x02BAB813 = .ok (.rem 11 21 14) ∧ decode 0x02BAB814 = .ok (.remu 11 21 14) ∧ decode 0x02BA8015 = .ok (.popc 11 21)
    ∧ decode 0x02BA8016 = .ok (.clz 11 21) ∧ decode 0x02BA8017 = .ok (.ctz 11 21) ∧ decode 0x02BAB818 = .ok (.seq 11 21 14)
    ∧ decode 0x02BAB819 = .ok (.sne 11 21 14) ∧ decode 0x02BAB81A = .ok (.slt 11 21 14) ∧ decode 0x02BAB81B = .ok (.sltu 11 21 14) := by decide

theorem test_decodeImmediate :
    decode 0x04BADA3C = .ok (.addi 11 21 0x5A3C) ∧ decode 0x06BADA3C = .ok (.andi 11 21 0x5A3C)
    ∧ decode 0x08BADA3C = .ok (.ori 11 21 0x5A3C) ∧ decode 0x0ABADA3C = .ok (.xori 11 21 0x5A3C)
    ∧ decode 0x0CBA802D = .ok (.shli 11 21 45) ∧ decode 0x0EBA802D = .ok (.shri 11 21 45)
    ∧ decode 0x10BA802D = .ok (.sari 11 21 45) ∧ decode 0x12BADA3C = .ok (.paddi 11 21 0x5A3C)
    ∧ decode 0x14B05A3C = .ok (.li 11 0x5A3C) ∧ decode 0x16BADA3C = .ok (.lih 11 21 0x5A3C)
    ∧ decode 0x18BADA3C = .ok (.slti 11 21 0x5A3C) ∧ decode 0x1ABADA3C = .ok (.sltiu 11 21 0x5A3C)
    ∧ decode 0x1CBADA3C = .ok (.seqi 11 21 0x5A3C) ∧ decode 0x1EBADA3C = .ok (.muli 11 21 0x5A3C) := by decide

theorem test_decodeFloatA :
    decode 0x20BAB800 = .ok (.faddS 11 21 14) ∧ decode 0x20BAB801 = .ok (.fsubS 11 21 14)
    ∧ decode 0x20BAB802 = .ok (.fmulS 11 21 14) ∧ decode 0x20BAB803 = .ok (.fdivS 11 21 14)
    ∧ decode 0x20BAB804 = .ok (.fminS 11 21 14) ∧ decode 0x20BAB805 = .ok (.fmaxS 11 21 14)
    ∧ decode 0x20BA8006 = .ok (.fsqrtS 11 21) ∧ decode 0x20BAB807 = .ok (.ffmaS 11 21 14)
    ∧ decode 0x20BAB808 = .ok (.feqS 11 21 14) ∧ decode 0x20BAB809 = .ok (.fltS 11 21 14)
    ∧ decode 0x20BAB80A = .ok (.fleS 11 21 14) ∧ decode 0x22BAB800 = .ok (.faddD 11 21 14)
    ∧ decode 0x22BAB801 = .ok (.fsubD 11 21 14) ∧ decode 0x22BAB802 = .ok (.fmulD 11 21 14)
    ∧ decode 0x22BAB803 = .ok (.fdivD 11 21 14) ∧ decode 0x22BAB804 = .ok (.fminD 11 21 14) := by decide

theorem test_decodeFloatB :
    decode 0x22BAB805 = .ok (.fmaxD 11 21 14) ∧ decode 0x22BA8006 = .ok (.fsqrtD 11 21) ∧ decode 0x22BAB807 = .ok (.ffmaD 11 21 14)
    ∧ decode 0x22BAB808 = .ok (.feqD 11 21 14) ∧ decode 0x22BAB809 = .ok (.fltD 11 21 14)
    ∧ decode 0x22BAB80A = .ok (.fleD 11 21 14) ∧ decode 0x24BA8156 = .ok (.fcvt 11 21 1 5 6) := by decide

theorem test_decodeControl :
    decode 0x31576001 = .ok (.beq 21 14 0x6001) ∧ decode 0x33576001 = .ok (.bne 21 14 0x6001)
    ∧ decode 0x35576001 = .ok (.blt 21 14 0x6001) ∧ decode 0x37576001 = .ok (.bge 21 14 0x6001)
    ∧ decode 0x39234567 = .ok (.j 0x1234567) ∧ decode 0x3B234567 = .ok (.call 0x1234567)
    ∧ decode 0x3D390DA0 = .ok (.rep 9 0xC8 1 2 3 1) ∧ decode 0x3E0A8000 = .ok (.jr 21) ∧ decode 0x3EBA8001 = .ok (.callr 11 21) := by decide

theorem test_decodeMailbox :
    decode 0x416B0000 = .ok (.mrd 5 1 11) ∧ decode 0x416B0001 = .ok (.mpk 5 1 11) ∧ decode 0x41600002 = .ok (.wfm 5 1)
    ∧ decode 0x43407000 = .ok (.mwr 5 14) ∧ decode 0x45557000 = .ok (.send 5 21 14) ∧ decode 0x45557001 = .ok (.sendU 5 21 14)
    ∧ decode 0x47400000 = .ok (.mclr 5) ∧ decode 0x460B0001 = .ok (.mfull 11) := by decide

theorem test_decodeScalarMemory :
    decode 0x48BABABC = .ok (.ld 11 21 3 0xABC) ∧ decode 0x4ABABABC = .ok (.ldz 11 21 3 0xABC)
    ∧ decode 0x4D3ABABC = .ok (.st 19 21 3 0xABC) ∧ decode 0x4EBAB800 = .ok (.ldAcq 11 21 3 2)
    ∧ decode 0x513AB800 = .ok (.stRel 19 21 3 2) := by decide

theorem test_decodeOrdering :
    decode 0x52BAB9D9 = .ok (.amo 11 21 14 3 2 1 9) ∧ decode 0x540AB92A = .ok (.ared 21 14 2 1 0 10)
    ∧ decode 0x56000002 = .ok (.fence 2) ∧ decode 0x56000006 = .ok (.fenceAcq 2) ∧ decode 0x5600000A = .ok (.fenceRel 2)
    ∧ decode 0x56006300 = .ok (.xfence 4 3) ∧ decode 0x580AB804 = .ok (.cwbr 21 14 2) ∧ decode 0x580AB805 = .ok (.cinv 21 14 2) := by decide

theorem test_decodeBeryl :
    decode 0x61AA8019 = .ok (.bloa 26 21 1 9) ∧ decode 0x620D0009 = .ok (.bref 26 9) ∧ decode 0x640D0009 = .ok (.brel 26 9)
    ∧ decode 0x67AAF005 = .ok (.bcas 26 21 28 5) ∧ decode 0x68BAB800 = .ok (.bout 11 21 14)
    ∧ decode 0x6AB57750 = .ok (.tldb 5 21 14 1 1 2 2 1) ∧ decode 0x6CBAF005 = .ok (.vpub 11 21 28 5)
    ∧ decode 0x6EBA8000 = .ok (.vsw 11 21) ∧ decode 0x6EB00001 = .ok (.vswDrop 11) := by decide

theorem test_decodeTileMemory :
    decode 0x70B57758 = .ok (.tld 5 21 14 1 1 2 2 1 1) ∧ decode 0x73357558 = .ok (.tst 9 21 14 1 2 2 1 1)
    ∧ decode 0x74B57559 = .ok (.tldi 5 21 14 1 2 2 1 9) ∧ decode 0x76B57658 = .ok (.tlds 5 21 14 1 1 2 1 1)
    ∧ decode 0x79357458 = .ok (.tsts 9 21 14 1 2 1 1) := by decide

theorem test_decodeMatrix :
    decode 0x90B47980 = .ok (.mma 5 10 3 12 1 1) ∧ decode 0x92B46180 = .ok (.mmz 5 10 3 1 1)
    ∧ decode 0x94AC79DA = .ok (.mmg 5 6 3 12 1 1 2 26) ∧ decode 0x96B4781A = .ok (.tadw 5 10 3 12 26) := by decide

theorem test_decodeVectorA :
    decode 0xA0B46001 = .ok (.tadd 5 10 3 1) ∧ decode 0xA2B46001 = .ok (.tsub 5 10 3 1) ∧ decode 0xA4B46001 = .ok (.tmul 5 10 3 1)
    ∧ decode 0xA6B47801 = .ok (.tfma 5 10 3 12 1) ∧ decode 0xA8B46001 = .ok (.tmax 5 10 3 1)
    ∧ decode 0xAAB46001 = .ok (.tmin 5 10 3 1) ∧ decode 0xACB46006 = .ok (.tcmp 5 10 3 6)
    ∧ decode 0xAEB47800 = .ok (.tsel 5 10 3 12) ∧ decode 0xB0B40028 = .ok (.tcvt 5 10 1 8) ∧ decode 0xB2B40000 = .ok (.ttr 5 10)
    ∧ decode 0xB4B4006A = .ok (.tred 5 10 1 1 2 2) ∧ decode 0xB6B40006 = .ok (.tsfu 5 10 6)
    ∧ decode 0xB8B46000 = .ok (.tbcRow 5 10 3) ∧ decode 0xB8B46001 = .ok (.tbcCol 5 10 3) ∧ decode 0xB8B46002 = .ok (.tbcEl 5 10 3)
    ∧ decode 0xB8A0606F = .ok (.tbcX 5 3 27) := by decide

theorem test_decodeVectorB :
    decode 0xBAB40007 = .ok (.tsc 5 10 7) ∧ decode 0xBCB40001 = .ok (.tnf 5 10 1) ∧ decode 0xBEB4001A = .ok (.smpl 5 10 26) := by decide

theorem test_decodeEngineA :
    decode 0xC0BAB000 = .ok (.bcp 11 21 12) ∧ decode 0xC0BAB001 = .ok (.bcpLd 11 21 12) ∧ decode 0xC0BAB002 = .ok (.bcpSt 11 21 12)
    ∧ decode 0xC2956003 = .ok (.sbind 2 21 12 3) ∧ decode 0xC2AB0004 = .ok (.qrd 2 1 11) ∧ decode 0xC2800005 = .ok (.sunbind 2)
    ∧ decode 0xC28B0006 = .ok (.qavail 2 11) ∧ decode 0xC40AB800 = .ok (.barExp 21 14) ∧ decode 0xC40AB801 = .ok (.barExpArr 21 14)
    ∧ decode 0xC60A8000 = .ok (.barArr 21) ∧ decode 0xC60AB801 = .ok (.barInit 21 14) ∧ decode 0xC80A8000 = .ok (.barDrop 21)
    ∧ decode 0xCABAB800 = .ok (.barWait 11 21 14) ∧ decode 0xCABA8001 = .ok (.barTest 11 21)
    ∧ decode 0xCCBAB000 = .ok (.a2aCl 11 21 12) ∧ decode 0xCCBAB001 = .ok (.a2aQ 11 21 12) := by decide

theorem test_decodeEngineB :
    decode 0xCEBAB000 = .ok (.cred 11 21 12) ∧ decode 0xCEBAB001 = .ok (.credLs 11 21 12)
    ∧ decode 0xD0BAB000 = .ok (.ofldOut 11 21 12) ∧ decode 0xD2BAB000 = .ok (.ofldIn 11 21 12) := by decide

theorem test_decodeRemote :
    decode 0xD4BA8006 = .ok (.rget 11 21 1 2) ∧ decode 0xD60AB806 = .ok (.rput 21 14 1 2)
    ∧ decode 0xD8BAB8F9 = .ok (.ramo 11 21 14 1 1 9) := by decide

theorem test_decodeLaunch :
    decode 0xE0BA8000 = .ok (.larm 11 21) ∧ decode 0xE20AB82C = .ok (.lpat 21 14 2 12) ∧ decode 0xE4BA8004 = .ok (.cncl 11 21 4)
    ∧ decode 0xE6000000 = .ok .trig ∧ decode 0xE8B00000 = .ok (.draw 11) ∧ decode 0xEAA0005A = .ok (.smrg 5 2 26)
    ∧ decode 0xEC000000 = .ok .exit := by decide

theorem test_decodeSystem :
    decode 0xF0005A3C = .ok (.trap 0x5A3C) ∧ decode 0xF2000000 = .ok .sret ∧ decode 0xF4B00203 = .ok (.kget 11 0x203)
    ∧ decode 0xF60A8204 = .ok (.kset 21 0x204) ∧ decode 0xF8000000 = .ok .brk ∧ decode 0xF8000001 = .ok .halt
    ∧ decode 0xF80A8002 = .ok (.spt 21) ∧ decode 0xFA000000 = .ok .tlbiAll ∧ decode 0xFA0A8001 = .ok (.tlbiVa 21)
    ∧ decode 0xFA0A8222 = .ok (.tlbiBlk 21 34) := by decide

/-! The state that most tests start from. -/

/-- The next state of an outcome. -/
def after (o : Out) : Option State :=
  match o with
  | .next t => some t
  | _ => none

/-- What a function shows of the state after an instruction. -/
def sees {α : Type} (i : Instr) (s : State) (f : State → α) : Option α := (after (exec i s)).map f

/-- A leaf of 2 MiB that maps addresses to themselves: readable, writable and executable at every level. -/
def leaf2M : Word64 := pcLeaf 0 + 8

/-- A launch of four units with the unit of task 7 on the modelled core. -/
def labLaunch : Launch :=
  { id := 1, entry := none,
    words := [0x1000, 0x77, 4 + 1 * 2 ^ 32, 1 + 1 * 2 ^ 32 + 1 * 2 ^ 48, 0, 0, 0, 7 * 2 ^ 32, 0, 0, -1, -1, 0, 0, 0, 0],
    phase := .running, readySeq := 0, admitted := true, units := [UnitRec.start 0 .here 0], nextUnit := 1, remaining := 0,
    released := false, partialEnd := false, cancelled := false, nfault := 0, fcause := 0, ftask := 0, faulty := [], hot := none, turns := [], xlat := [] }

/-- Partition 0 with every quadrant, rings of 16 records, a pool of 16 entries and two save slots. -/
def labPart : Part :=
  { Part.reset with en := true, qmask := 0xFF, poolbase := 0x100000, poolsize := 16, evbase := 0x140000, evlog := 4, fbase := 0x150000, flog := 4, savebase := 0x160000, savecnt := 2, nextId := 2, launches := [labLaunch], nextReady := 1 }

/-- A unit of partition 0 that runs at 0x1000 with the low 2 MiB mapped. -/
def lab : State :=
  { State.reset with core.run := .running, core.unit.pc := 0x1000, core.unit.ident := labLaunch.record.ident 1 0 0, core.tlb := [⟨0, 0, 21, leaf2M, 1, (0, [])⟩], parts := State.reset.parts.set 0 labPart }

/-- Scalar registers set. -/
def withX (s : State) (vs : List (BitVec 5 × Word64)) : State := vs.foldl (fun s v => s.setX v.1 v.2) s

/-- Bytes placed in memory. -/
def withMem (s : State) (pa : Nat) (bs : List Byte) : State := { s with mem := s.mem.write pa bs }

/-- A register-form instruction on two values: x3 and pc after it. -/
def onXX (i : BitVec 5 → BitVec 5 → BitVec 5 → Instr) (a b : Word64) : Option (Word64 × BitVec 56) :=
  sees (i 3 1 2) (withX lab [(1, a), (2, b)]) (fun t => (t.x 3, t.pc))

/-- x3 after an instruction with x1 given. -/
def onX (i : BitVec 5 → BitVec 5 → Instr) (a : Word64) : Option Word64 := sees (i 3 1) (withX lab [(1, a)]) (·.x 3)

/-- The two-operand form's x3. -/
def val (i : BitVec 5 → BitVec 5 → BitVec 5 → Instr) (a b : Word64) : Option Word64 := (onXX i a b).map (·.1)

/-- The cause of the trap that an instruction takes, with k.tval, where the unit's handler is at 0x8000. -/
def traps (i : Instr) (s : State) : Option (Word64 × Word64 × BitVec 56) :=
  sees i (s.setK { s.k with tvec := 0x8000 }) (fun t => (t.k.tcause, t.k.tval, t.pc))

/-! Integer and address arithmetic: values by hand from 04 R105 to R108. -/

theorem test_add : onXX .add 0xFFFFFFFFFFFFFFFF 2 = some (1, 0x1004) := by decide
theorem test_add_x0 : sees (.add 0 1 2) (withX lab [(1, 5), (2, 6)]) (fun t => (t.x 0, t.x 1, t.pc)) = some (0, 5, 0x1004) := by decide
theorem test_sub : val .sub 3 5 = some (-2) := by decide
theorem test_padd : val .padd 0x31FFFFFFFFFFFFFF 0x2200000000000002 = some 0x3100000000000001 := by decide
theorem test_ptag : val .ptag 0x3112345678ABCDEF 0xFA7 = some 0xA712345678ABCDEF := by decide
theorem test_and_or_xor : val .and 0xC 0xA = some 8 ∧ val .or 0xC 0xA = some 0xE ∧ val .xor 0xC 0xA = some 6 := by decide
theorem test_shifts : val .shl 3 65 = some 6 ∧ val .shr 0x8000000000000000 63 = some 1
    ∧ val .sar 0x8000000000000000 63 = some (-1) := by decide
theorem test_min_max : val .min (-1) 1 = some (-1) ∧ val .max (-1) 1 = some 1 ∧ val .minu (-1) 1 = some 1
    ∧ val .maxu (-1) 1 = some (-1) := by decide
theorem test_mul : val .mul 0x100000000 0x100000001 = some 0x100000000 ∧ val .mulh (-1) 2 = some (-1)
    ∧ val .mulhu (-1) 2 = some 1 := by decide
theorem test_div : val .div (-7) 2 = some (-3) ∧ val .rem (-7) 2 = some (-1) ∧ val .divu (-7) 2 = some 0x7FFFFFFFFFFFFFFC
    ∧ val .remu (-7) 2 = some 1 := by decide
theorem test_div_zero : val .div 9 0 = some (-1) ∧ val .rem 9 0 = some 9 ∧ val .divu 9 0 = some (-1) ∧ val .remu 9 0 = some 9 := by
  decide
theorem test_counts : onX .popc 0xF0F = some 8 ∧ onX .clz 1 = some 63 ∧ onX .clz 0 = some 64 ∧ onX .ctz 8 = some 3
    ∧ onX .ctz 0 = some 64 := by decide
theorem test_sets : val .seq 4 4 = some 1 ∧ val .sne 4 4 = some 0 ∧ val .slt (-1) 0 = some 1 ∧ val .sltu (-1) 0 = some 0 := by decide
theorem test_addi : onX (.addi · · 0x7FFF) 3 = some 2 := by decide
theorem test_logic_imm : onX (.andi · · 0x7FF0) 0xFF = some 0xF0 ∧ onX (.ori · · 0x4000) 1 = some 0xFFFFFFFFFFFFC001
    ∧ onX (.xori · · 0x7FFF) 0 = some (-1) := by decide
theorem test_shift_imm : onX (.shli · · 63) 3 = some 0x8000000000000000 ∧ onX (.shri · · 56) 0x3100000000000000 = some 0x31
    ∧ onX (.sari · · 4) (-32) = some (-2) := by decide
theorem test_paddi : onX (.paddi · · 0x7FFF) 0x3100000000000000 = some 0x31FFFFFFFFFFFFFF := by decide
theorem test_li_lih : onX (fun d _ => .li d 0x4000) 0 = some 0xFFFFFFFFFFFFC000 ∧ onX (.lih · · 0x24) 1 = some 0x8024 := by decide
theorem test_set_imm : onX (.slti · · 0x7FFF) (-2) = some 1 ∧ onX (.sltiu · · 0x7FFF) (-2) = some 1 ∧ onX (.seqi · · 5) 5 = some 1 := by
  decide
theorem test_muli : onX (.muli · · 0x7FFE) 21 = some (-42) := by decide

/-! Scalar floating point: values by hand from 02 R42 to R61 and 04 R109 to R113. -/

/-- A state that rounds in a direction. -/
def rounding (rm : Word64) (vs : List (BitVec 5 × Word64)) : State := (withX lab vs).setK { lab.k with fpmode := rm }

theorem test_fadd_s : val .faddS 0x3F800000 0x40000000 = some 0x40400000 := by decide
theorem test_fadd_s_nan : val .faddS 0x7F800000 0xFF800000 = some 0x7FC00000 ∧ val .faddS 0x3F800000 0xBF800000 = some 0 := by decide
theorem test_fsub_s : val .fsubS 0x3F800000 0x40000000 = some 0xBF800000 := by decide
theorem test_fsub_s_down : sees (.fsubS 3 1 2) (rounding 4 [(1, 0x3F800000), (2, 0x3F800000)]) (·.x 3) = some 0x80000000 := by decide
theorem test_fmul_s : val .fmulS 0x40000000 0xC0400000 = some 0xC0C00000 := by decide
theorem test_fmul_s_ftz : sees (.fmulS 3 1 2) (rounding 1 [(1, 1), (2, 0x3F800000)]) (·.x 3) = some 0 := by decide
theorem test_fdiv_s : val .fdivS 0x3F800000 0x40400000 = some 0x3EAAAAAB ∧ val .fdivS 0x3F800000 0 = some 0x7F800000 := by decide
theorem test_fmin_fmax_s : val .fminS 0x80000000 0 = some 0x80000000 ∧ val .fmaxS 0x80000000 0 = some 0
    ∧ val .fmaxS 0x7FC00001 0x3F800000 = some 0x3F800000 := by decide
theorem test_fsqrt_s : onX .fsqrtS 0x40800000 = some 0x40000000 ∧ onX .fsqrtS 0xBF800000 = some 0x7FC00000 := by decide +kernel
theorem test_ffma_s : sees (.ffmaS 3 1 2) (withX lab [(1, 0x40000000), (2, 0x40400000), (3, 0x3F800000)]) (·.x 3)
    = some 0x40E00000 := by decide
theorem test_compare_s : val .feqS 0 0x80000000 = some 1 ∧ val .fltS 0xBF800000 0x3F800000 = some 1
    ∧ val .fleS 0x7FC00000 0x7FC00000 = some 0 := by decide
theorem test_fadd_d : val .faddD 0x3FF0000000000000 0x4000000000000000 = some 0x4008000000000000 := by decide
theorem test_fsub_d : val .fsubD 0x3FF0000000000000 0x4000000000000000 = some 0xBFF0000000000000 := by decide
theorem test_fmul_d : val .fmulD 0x4000000000000000 0x4008000000000000 = some 0x4018000000000000 := by decide
theorem test_fdiv_d : val .fdivD 0x3FF0000000000000 0x4008000000000000 = some 0x3FD5555555555555 := by decide
theorem test_fmin_fmax_d : val .fminD 0x3FF0000000000000 0x4000000000000000 = some 0x3FF0000000000000
    ∧ val .fmaxD 0x3FF0000000000000 0x4000000000000000 = some 0x4000000000000000 := by decide
theorem test_fsqrt_d : onX .fsqrtD 0x4000000000000000 = some 0x3FF6A09E667F3BCD := by decide +kernel
theorem test_ffma_d : sees (.ffmaD 3 1 2) (withX lab [(1, 0x4000000000000000), (2, 0x4008000000000000), (3, 0x3FF0000000000000)]) (·.x 3)
    = some 0x401C000000000000 := by decide
theorem test_compare_d : val .feqD 0x3FF0000000000000 0x3FF0000000000000 = some 1 ∧ val .fltD 0 0xBFF0000000000000 = some 0
    ∧ val .fleD 0 0x8000000000000000 = some 1 := by decide +kernel
theorem test_fcvt_int : onX (.fcvt · · 0 5 2) 0xC0200000 = some (-2) ∧ onX (.fcvt · · 0 0 5) 3 = some 0x40400000
    ∧ onX (.fcvt · · 0 5 1) 0xBF800000 = some 0 := by decide
theorem test_fcvt_sticky : sees (.fcvt 3 1 0 5 6) (withX lab [(1, 0x47800000)]) (fun t => (t.x 3, t.k.sticky)) = some (0x7C00, 1)
    ∧ sees (.fcvt 3 1 1 5 6) (withX lab [(1, 0x47800000)]) (fun t => (t.x 3, t.k.sticky)) = some (0x7BFF, 0) := by decide

/-! Control flow: 04 R114 to R121. -/

theorem test_branches : sees (.beq 1 2 0x7FFE) lab (·.pc) = some 0xFF8 ∧ sees (.bne 1 2 3) lab (·.pc) = some 0x1004
    ∧ sees (.blt 1 2 3) (withX lab [(1, -1)]) (·.pc) = some 0x100C ∧ sees (.bge 1 2 3) (withX lab [(1, -1)]) (·.pc) = some 0x1004 := by
  decide
theorem test_jumps : sees (.j 0x1FFFFFF) lab (·.pc) = some 0xFFC ∧ sees (.call 4) lab (fun t => (t.pc, t.x 1)) = some (0x1010, 0x1004) := by
  decide
theorem test_jr : sees (.jr 1) (withX lab [(1, 0xAB00000000002000)]) (·.pc) = some 0x2000
    ∧ traps (.jr 1) (withX lab [(1, 0x2002)]) = some (3, 0x2002, 0x8000) := by decide
theorem test_callr : sees (.callr 1 1) (withX lab [(1, 0x2000)]) (fun t => (t.pc, t.x 1)) = some (0x2000, 0x1004) := by decide

/-! Mailboxes (01 R33 to R36; 04 R124 to R128). -/

/-- lab with mailbox 3 full. -/
def labFull : State := lab.setMbox 3 ⟨0x55, true⟩

theorem test_mrd : sees (.mrd 3 1 4) labFull (fun t => (t.x 4, t.mbox 3, t.pc)) = some (0x55, ⟨0x55, false⟩, 0x1004) := by decide
theorem test_mrd_empty : traps (.mrd 3 1 4) lab = some (0x0D, 3, 0x8000)
    ∧ sees (.mrd 3 0 4) lab (fun t => (t.core.wait, t.pc)) = some (.mailbox, 0x1000) := by decide
theorem test_mpk : sees (.mpk 3 0 4) labFull (fun t => (t.x 4, t.mbox 3)) = some (0x55, ⟨0x55, true⟩) := by decide
theorem test_wfm : sees (.wfm 3 0) labFull (·.pc) = some 0x1004 ∧ sees (.wfm 3 0) lab (·.pc) = some 0x1000 := by decide
theorem test_mwr : sees (.mwr 3 1) (withX labFull [(1, 9)]) (fun t => (t.mbox 3, t.k.sticky)) = some (⟨9, true⟩, 4)
    ∧ sees (.mwr 3 1) (withX lab [(1, 9)]) (fun t => (t.mbox 3, t.k.sticky)) = some (⟨9, true⟩, 0) := by decide
theorem test_mclr_mfull : sees (.mclr 3) labFull (·.mbox 3) = some ⟨0x55, false⟩ ∧ sees (.mfull 4) labFull (·.x 4) = some 8 := by decide

/-! Scalar memory (05 R144 to R151). -/

/-- lab with eight bytes at 0x2000 and x1 there. -/
def labData : State := withX (withMem lab 0x2000 [0xFE, 0xFF, 0xFF, 0xFF, 1, 2, 3, 4]) [(1, 0x2000), (2, 0x1122334455667788), (3, 0x99)]

theorem test_ld : sees (.ld 4 1 2 0) labData (·.x 4) = some (-2) ∧ sees (.ld 4 1 1 4) labData (·.x 4) = some 0x201 := by decide
theorem test_ld_pair : sees (.ld 4 1 4 0) labData (fun t => (t.x 4, t.x 5)) = some (0x04030201FFFFFFFE, 0) := by decide
theorem test_ldz : sees (.ldz 4 1 2 0) labData (·.x 4) = some 0xFFFFFFFE ∧ sees (.ldz 0 1 2 0) labData (·.x 0) = some 0 := by decide
theorem test_ld_traps : traps (.ld 4 1 3 0) (withX lab [(1, 0x31FFFFFFFFFFFFFC)]) = some (9, 0xFFFFFFFFFFFFFC, 0x8000)
    ∧ traps (.ld 4 1 3 0) (withX lab [(1, 0x1FFFFC)]) = some (0x11, 0x200000, 0x8000) := by decide
theorem test_st : sees (.st 2 1 2 8) labData (fun t => t.core.sb.map (fun e => (e.va, e.writes)))
    = some [(0x2008, [(0x2008, [0x88, 0x77, 0x66, 0x55])])] := by decide
theorem test_st_unmapped : traps (.st 2 1 3 0) (withX lab [(1, 0x1FFFFC)]) = some (0x11, 0x200000, 0x8000) := by decide
theorem test_st_forwards : ((after (exec (.st 2 1 3 0) labData)).bind (fun t => sees (.ldz 4 1 0 1) t (·.x 4))) = some 0x77 := by decide
theorem test_ld_acq : sees (.ldAcq 4 1 3 2) labData (·.x 4) = some 0x04030201FFFFFFFE := by decide
theorem test_st_rel : sees (.stRel 2 1 0 2) labData (fun t => t.core.sb.map (fun e => (e.kind, e.len))) = some [(.release 2, 1)] := by decide
theorem test_store_performed : ((after (exec (.st 2 1 1 0) labData)).bind (fun t =>
    sees .storePerformed t (fun u => (u.core.sb.length, u.newest 0x2000, u.newest 0x2001, u.mem.read 0x2000)))) = some (0, 0x88, 0x77, 0xFE) := by
  decide

/-! Atomics, fences and cache maintenance (11 R280 to R294; 10 R268). -/

theorem test_amo : sees (.amo 4 1 2 0 0 0 0) labData (fun t => (t.x 4, t.mem.readNat 0x2000 4)) = some (-2, 0x55667786) := by decide
theorem test_amo_cas : sees (.amo 3 1 2 3 2 0 9) (labData.setX 3 0xFFFFFFFE) (fun t => (t.x 3, t.mem.readNat 0x2000 4)) = some (-2, 0x55667788)
    ∧ traps (.amo 4 1 2 0 0 1 0) (labData.setX 1 0x2004) = some (0x0C, 0x2004, 0x8000) := by decide
theorem test_ared : sees (.ared 1 2 2 1 0 7) labData (fun t => t.core.sb.map (fun e => (e.kind, e.va, e.len)))
    = some [(.ared 7 4 0x1122334455667788 true 1, 0x2000, 4)] := by decide
theorem test_ared_perform : ((after (exec (.ared 1 2 0 0 0 7) labData)).bind (fun t =>
    sees .aredPerform t (fun u => (u.core.sb.length, u.mem.readNat 0x2000 4)))) = some (0, 0xAA998876) := by decide

/-- lab with a dirty byte and a clean older copy in the L1. -/
def labDirty : State := { labData with core.l1 := ⟨[0x100, 0x104], [(0x2000, 7)], [(0x2080, 9)], [], false, []⟩ }

theorem test_fence : sees (.fence 2) labDirty (fun t => (t.mem.read 0x2000, t.core.l1.dirty, t.core.l1.stale)) = some (7, [], []) := by decide
theorem test_fence_acq : sees (.fenceAcq 2) labDirty (fun t => (t.core.l1.dirty, t.core.l1.stale, t.core.l1.sectors))
    = some ([(0x2000, 7)], [], [0x100]) := by decide
theorem test_fence_rel : sees (.fenceRel 2) labDirty (fun t => (t.mem.read 0x2000, t.core.l1.dirty, t.core.l1.stale)) = some (7, [], [(0x2080, 9)])
    ∧ sees (.fenceRel 1) labDirty (fun t => t.core.l1.dirty) = some [(0x2000, 7)] := by decide
theorem test_xfence : sees (.xfence 0 4) labDirty (fun t => (t.core.l1.dirty, t.core.l1.stale)) = some ([], [(0x2080, 9)])
    ∧ sees (.xfence 1 0) labDirty (fun t => (t.core.l1.dirty, t.core.l1.stale)) = some ([(0x2000, 7)], []) := by decide
theorem test_cwbr : sees (.cwbr 1 2 2) (labDirty.setX 2 1) (fun t => (t.mem.read 0x2000, t.core.l1.sectors)) = some (7, [0x100, 0x104]) := by decide
theorem test_cinv : sees (.cinv 1 2 2) (labDirty.setX 2 1) (fun t => (t.mem.read 0x2000, t.core.l1.sectors)) = some (7, [0x104]) := by decide

/-! Remote accesses (16 R424 to R427). -/

/-- lab on device 1 of a system, with device 3 reached by link 0 and x1 in its aperture. -/
def labPeer : State :=
  { withX lab [(1, 0x40000)] with dev.devnum := 1, dev.links := lab.dev.links.set 0 ⟨true, 3, 0⟩, core.tlb := [⟨0, 0x40000, 12, 0x9E1 + 2 ^ 54 + 0xD800000000000, 1, (0, [])⟩] }

theorem test_rget_asks : sees (.rget 3 1 0 3) labPeer (fun t => (t.core.remote, t.core.wait, t.pc))
    = some (some ⟨0x40000, 0xD800000000000, .get 8⟩, .other, 0x1000) := by decide +kernel
theorem test_rget_done : sees (.rget 3 1 0 1) { labPeer with core.remote := some ⟨0x40000, 0xD800000000000, .get 2⟩, core.reply := some (.value 0xABCDEF) } (fun t => (t.x 3, t.core.remote, t.pc))
    = some (0xCDEF, none, 0x1004) := by decide +kernel
theorem test_rput : sees (.rput 1 2 1 0) (labPeer.setX 2 0x1FF) (fun t => t.core.sb.map (fun e => (e.kind, e.len, e.writes.map (·.2))))
    = some [(.rput true, 1, [[0xFF]])] := by decide +kernel
theorem test_ramo : sees (.ramo 3 1 2 0 0 0) { labPeer with core.remote := some ⟨0x40000, 0, .get 1⟩, core.reply := some (.value 0x80000000) } (·.x 3)
    = some 0xFFFFFFFF80000000
    ∧ traps (.ramo 3 1 2 0 0 0) { labPeer with core.reply := some .refused } = some (0x13, 0x40000, 0x8000) := by decide +kernel

/-! Tile memory (05 R130 to R147; 02 R47 to R54). -/

/-- A tile of containers given row by row. -/
def tile (fmt : BitVec 5) (rows : List (List Word32)) : Tile :=
  { Tile.build fmt rows.length (rows.headD []).length (fun _ _ => 0) with rows := rows }

/-- Format, extents, rows and scales of a tile. -/
structure Face where
  fmt : BitVec 5
  r : Nat
  c : Nat
  rows : List (List Word32)
  scale : List Byte
  deriving DecidableEq, Repr

/-- What a tile shows. -/
def face (t : Tile) : Face := ⟨t.fmt, t.rext, t.cext, t.rows, t.scale⟩

/-- Two rows of three s8 elements at 0x2000 and 0x2010, with their pointer in x1 and their shape in x2. -/
def labTile : State :=
  withX (withMem (withMem lab 0x2000 [1, 2, 3]) 0x2010 [0xFF, 5, 6]) [(1, 0x4800000000002000), (2, 0x0000030200000010)]

theorem test_tld : sees (.tld 4 1 2 1 0 0 0 0 0) labTile (fun t => (face (t.t 4), t.x 1))
    = some (⟨9, 2, 3, [[1, 2, 3], [0xFF, 5, 6]], [0, 0]⟩, 0x4800000000002020) := by decide
theorem test_tld_transposed : sees (.tld 4 1 2 1 1 0 0 1 0) labTile (fun t => (face (t.t 4), t.x 1))
    = some (⟨9, 3, 2, [[1, 0xFF], [2, 5], [3, 6]], [0, 0, 0]⟩, 0x4800000000002003) := by decide
theorem test_tld_scaled : sees (.tld 4 1 2 0 0 0 0 0 0)
      (withX (withMem (withMem lab 0x2000 [0xA2]) 0x2010 [0x80]) [(1, 0x4500000000002000), (2, 0x0000020100000040)])
      (fun t => (face (t.t 4), (t.t 4).scl, ((t.t 4).val false 0 1).lt (.fin true 1 0)))
    = some (⟨8, 1, 2, [[2, 0xA]], [0x80]⟩, true, true) := by decide
theorem test_tld_xe4 : sees (.tld 4 1 2 0 0 0 0 0 0)
      (withX (withMem (withMem lab 0x2000 [8]) 0x2008 [0x70, 0x90]) [(1, 0x5800000000002000), (2, 0x0001020100000000)]) (fun t => face (t.t 4))
    = some ⟨4, 1, 2, [[0x38, 0xB9]], [0]⟩ := by decide +kernel
theorem test_tst : sees (.tst 5 1 2 1 0 2 0 0) (labTile.setT 5 (tile 9 [[1, 0x1FE], [3, 4]])) (fun t => (t.core.sb.map (·.writes), t.x 1))
    = some ([[(0x2000, [1, 0xFE]), (0x2010, [3, 4])]], 0x4800000000002020) := by decide
theorem test_tst_format : traps (.tst 5 1 2 0 0 2 0 0) (labTile.setT 5 (tile 0x0D [[1]])) = some (7, 0x4800000000002000, 0x8000) := by decide
theorem test_tlds : sees (.tlds 4 1 2 0 0 0 0 0) { labTile with core.ls := [(0x2001, 7)] } (fun t => (t.t 4).rows) = some [[0, 7, 0], [0, 0, 0]]
    := by decide
theorem test_tlds_range : traps (.tlds 4 1 2 0 0 0 0 0) (labTile.setX 1 0x480000000007FFF0) = some (0x0A, 0x80000, 0x8000) := by decide
theorem test_tsts : sees (.tsts 5 1 2 0 2 0 0) (labTile.setT 5 (tile 9 [[1, 0xFE]])) (fun t => t.core.ls) = some [(0x2000, 1), (0x2001, 0xFE)] := by
  decide
theorem test_tldi : sees (.tldi 4 1 2 0 0 0 0 6) (labTile.setT 6 (tile 9 [[1, 0]])) (fun t => (t.t 4).rows) = some [[0xFF, 5, 6], [1, 2, 3]]
    := by decide

/-! Matrix instructions (chapter 06). -/

/-- lab with tiles t1, t2, t3 and t4. -/
def labTiles (a b c d : Tile) : State := (((lab.setT 1 a).setT 2 b).setT 3 c).setT 4 d

/-- The empty tile. -/
def noTile : Tile := Tile.null

theorem test_mma : sees (.mma 5 1 2 3 0 0) (labTiles (tile 9 [[2, 3]]) (tile 9 [[5], [0xFF]]) (tile 0x0C [[10]]) noTile) (fun t => (face (t.t 5), t.k.sticky))
    = some (⟨0x0C, 1, 1, [[17]], [0]⟩, 0) := by decide
theorem test_mma_overflow : sees (.mma 5 1 2 3 0 1) (labTiles (tile 9 [[1]]) (tile 9 [[1]]) (tile 0x0C [[0x7FFFFFFF]]) noTile)
    (fun t => ((t.t 5).rows, t.k.sticky)) = some ([[0x80000000]], 2) := by decide
theorem test_mmz : sees (.mmz 5 1 2 0 0) (labTiles (tile 1 [[0x3FC00000, 0x3F800000]]) (tile 1 [[0x40000000], [0x3F800000]]) noTile noTile) (fun t => (t.t 5).rows)
    = some [[0x40800000]] := by decide
theorem test_mmz_shape : traps (.mmz 5 1 2 0 0) (labTiles (tile 9 [[1, 2]]) (tile 9 [[1]]) noTile noTile) = some (8, 66, 0x8000) := by decide
theorem test_mmg : sees (.mmg 5 4 2 3 0 0 0 10) (withX ((withMem (labTiles noTile (tile 9 [[1], [1], [1]]) (tile 0x0C [[100]]) (tile 9 [[1]])) 0x2010 [0xFF, 5, 6]))
      [(10, 0x4800000000002000), (11, 0x0000030100000010)]) (fun t => (t.t 5).rows) = some [[110]] := by decide +kernel
theorem test_tadw : sees (.tadw 4 1 2 3 6) (withX (labTiles (tile 1 [[0x40000000]]) (tile 1 [[0]]) (tile 1 [[0]]) (tile 1 [[0x40A00000]])) [(6, 0x3F800000)])
    (fun t => ((t.t 4).rows, (t.t 2).rows, (t.t 3).rows)) = some ([[0x40800000]], [[0x40000000]], [[0x40800000]]) := by decide +kernel

/-! Vector instructions (chapter 07). -/

/-- The rows of t5 after an instruction on t1 and t2. -/
def rows5 (i : Instr) (a b : Tile) : Option (BitVec 5 × List (List Word32)) := sees i (labTiles a b noTile noTile) (fun t => ((t.t 5).fmt, (t.t 5).rows))

theorem test_tadd : rows5 (.tadd 5 1 2 0) (tile 9 [[0x80, 1]]) (tile 0x0D [[0xFF]]) = some (0x0C, [[127, 1]]) := by decide
theorem test_tadd_bf16 : rows5 (.tadd 5 1 2 0) (tile 2 [[0x3F80]]) (tile 2 [[0x3F80]]) = some (2, [[0x4000]])
    ∧ rows5 (.tadd 5 1 2 1) (tile 2 [[0x3F80]]) (tile 2 [[0x3F80]]) = some (1, [[0x40000000]]) := by decide
theorem test_tsub : rows5 (.tsub 5 1 2 0) (tile 1 [[0x3F800000]]) (tile 1 [[0x40000000]]) = some (1, [[0xBF800000]]) := by decide
theorem test_tmul : rows5 (.tmul 5 1 2 0) (tile 0x0A [[0x8]]) (tile 0x0A [[0x8]]) = some (0x0C, [[64]]) := by decide
theorem test_tfma : sees (.tfma 5 1 2 3 0) (labTiles (tile 9 [[3]]) (tile 9 [[4]]) (tile 9 [[0xFF]]) noTile) (fun t => (t.t 5).rows) = some [[11]] := by
  decide
theorem test_tmax_tmin : rows5 (.tmax 5 1 2 0) (tile 0x0D [[200]]) (tile 0x0D [[100]]) = some (0x0F, [[200]])
    ∧ rows5 (.tmin 5 1 2 0) (tile 9 [[200]]) (tile 9 [[100]]) = some (0x0C, [[0xFFFFFFC8]]) := by decide
theorem test_tadd_mixed : traps (.tadd 5 1 2 0) (labTiles (tile 1 [[0]]) (tile 9 [[0]]) noTile noTile) = some (7, 9, 0x8000) := by decide
theorem test_tadd_poison : traps (.tadd 5 1 2 0) (labTiles (tile 9 [[0], [0]]) { tile 9 [[0], [0]] with poison := 2 } noTile noTile)
    = some (0x16, 1 + 2 * 32 + 1 * 512, 0x8000) := by decide
theorem test_tcmp : rows5 (.tcmp 5 1 2 2) (tile 9 [[0xFF, 1]]) (tile 9 [[0, 1]]) = some (0x0D, [[1, 0]])
    ∧ rows5 (.tcmp 5 1 2 6) (tile 1 [[0x7FC00000]]) (tile 1 [[0]]) = some (0x0D, [[1]]) := by decide
theorem test_tsel : sees (.tsel 5 1 2 3) (labTiles (tile 1 [[7, 7]]) (tile 1 [[8, 8]]) (tile 0x0D [[1, 0]]) noTile) (fun t => (t.t 5).rows) = some [[7, 8]] := by
  decide
theorem test_tcvt : rows5 (.tcvt 5 1 0 4) (tile 1 [[0x40000000, 0xC3E00000]]) noTile = some (4, [[0x40, 0xFE]])
    ∧ rows5 (.tcvt 5 1 0 9) (tile 1 [[0x43960000, 0xBFC00000]]) noTile = some (9, [[0x7F, 0xFE]]) := by decide
theorem test_tsc : sees (.tsc 5 1 4) (labTiles (tile 1 [[0x3F800000, 0x44600000]]) noTile noTile noTile) (fun t => face (t.t 5))
    = some ⟨4, 1, 2, [[0x30, 0x7E]], [128]⟩ := by decide
theorem test_ttr : rows5 (.ttr 5 1) (tile 9 [[1, 2, 3]]) noTile = some (9, [[1], [2], [3]]) := by decide
theorem test_tbc : rows5 (.tbcRow 5 1 2) (tile 9 [[1, 2], [3, 4]]) (tile 1 [[0, 0], [0, 0]]) = some (9, [[1, 2], [1, 2]])
    ∧ rows5 (.tbcCol 5 1 2) (tile 9 [[1, 2], [3, 4]]) (tile 1 [[0, 0], [0, 0]]) = some (9, [[1, 1], [3, 3]])
    ∧ rows5 (.tbcEl 5 1 2) (tile 9 [[7, 2]]) (tile 1 [[0, 0]]) = some (9, [[7, 7]]) := by decide
theorem test_tbc_x : sees (.tbcX 5 2 10) (withX (labTiles noTile (tile 9 [[0, 0]]) noTile noTile) [(10, 0x1FE)]) (fun t => face (t.t 5))
    = some ⟨9, 1, 2, [[0xFE, 0xFE]], [0]⟩ := by decide
theorem test_tred : rows5 (.tred 5 1 0 0 0 0) (tile 9 [[1, 2, 3], [0xFF, 0, 0]]) noTile = some (0x0C, [[6], [0xFFFFFFFF]])
    ∧ rows5 (.tred 5 1 0 0 1 1) (tile 9 [[1, 2], [0xFF, 5]]) noTile = some (0x0C, [[1, 5]]) := by decide
theorem test_tred_mailbox : sees (.tred 2 1 1 1 0 2) (labTiles (tile 1 [[0x3F800000, 0x40000000]]) noTile noTile noTile) (fun t => t.mbox 2)
    = some ⟨0x4008000000000000, true⟩ := by decide
theorem test_tsfu : rows5 (.tsfu 5 1 3) (tile 1 [[0x40400000]]) noTile = some (1, [[0x41000000]]) := by decide +kernel
theorem test_tnf : rows5 (.tnf 5 1 0) (tile 1 [[0x7F800000, 0]]) noTile = some (0x0D, [[1, 0]])
    ∧ sees (.tnf 2 1 1) (labTiles (tile 1 [[0x7F800000]]) noTile noTile noTile) (·.mbox 2) = some ⟨1, true⟩ := by decide
theorem test_smpl : sees (.smpl 1 1 20) (labTiles (tile 1 [[0xFF800000, 0x3F800000]]) noTile noTile noTile) (·.mbox 1) = some ⟨1, true⟩ := by decide
theorem test_smpl_nan : sees (.smpl 1 1 20) (labTiles (tile 1 [[0x7FC00000]]) noTile noTile noTile) (·.mbox 1) = some ⟨0x2000000FFFFFFFF, true⟩ := by
  decide

/-! Beryl (chapter 12). -/

/-- Bytes that a little-endian number occupies. -/
def le (n v : Nat) : List Byte := leBytes n v

/-- The value of a register pair. -/
def pairOf (t : State) (r : BitVec 5) : Nat := (t.x (r + 1)).toNat * 2 ^ 64 + (t.x r).toNat

/-- Region 1 with its pool at 0x180000: leaf 0x55 in block 0, and node 0x99 in block 1, whose child 3 is that leaf. The root slot at
0x3000 names the node at depth 1, version 7; x1 points to it, and x4 and x5 hold the node's name. -/
def labBeryl : State :=
  let s := withMem (withMem (withMem lab 0x180000 [1, 2, 3]) (0x180800 + 48) [0x55]) 0x180040 [0xFF, 4, 5]
  { withX (withMem (withMem s 0x3000 [0x99]) 0x3010 [7, 0, 0x11]) [(1, 0x3000), (4, 0x99), (8, 0x55), (10, 0x55)] with beryl := { Beryl.reset with regions := Beryl.reset.regions.set 1 ⟨true, 1, 0, 0, 0x180000, 64⟩, blocks := [⟨1, 0, 0x55, false, [1, 0, 0, 0, 0, 0, 0, 0], 0, false⟩, ⟨1, 1, 0x99, true, [1, 0, 0, 0, 0, 0, 0, 0], 0, false⟩] } }

/-- The same with a publication slot. -/
def labPub : State := withMem labBeryl 0x3012 [0x91]

/-- The counts of partition 0 on the two blocks. -/
def countsOf (t : State) : List Nat := t.beryl.blocks.map (·.count 0)

theorem test_bref : sees (.bref 8 1) labBeryl countsOf = some [2, 1] ∧ traps (.bref 8 2) labBeryl = some (0x1D, 2, 0x8000) := by decide
theorem test_brel : sees (.brel 8 1) labBeryl (fun t => (countsOf t, t.beryl.queue)) = some ([0, 1], [(1, 0x55)])
    ∧ traps (.brel 1 1) labBeryl = some (0x1E, 0x3000, 0x8000) := by decide
theorem test_bcas : sees (.bcas 4 1 8 0) labBeryl (fun t => (pairOf t 4, t.mem.readNat 0x3000 16, t.mem.readNat 0x3010 8)) = some (0x99, 0x55, 0x10008)
    := by decide +kernel
theorem test_bcas_differs : sees (.bcas 10 1 8 0) labBeryl (fun t => (pairOf t 10, t.mem.readNat 0x3000 16, t.mem.readNat 0x3010 8))
    = some (0x99, 0x99, 0x110007) ∧ traps (.bcas 4 1 8 0) labPub = some (0x1F, 0x3000, 0x8000) := by decide +kernel
theorem test_vpub : sees (.vpub 4 1 8 0) (labPub.setX 4 7) (fun t => (t.x 4, t.mem.readNat 0x3000 16, t.mem.readNat 0x3010 8, countsOf t))
    = some (8, 0x55, 0x810008, [1, 0]) := by decide +kernel
theorem test_vpub_differs : sees (.vpub 4 1 8 0) (labPub.setX 4 6) (fun t => (t.x 4, t.mem.readNat 0x3000 16, countsOf t)) = some (7, 0x99, [1, 1])
    := by decide +kernel
theorem test_bout : sees (.bout 6 1 7) (withX labBeryl [(6, 0x10000000003), (7, 0x4000)])
    (fun t => (t.core.sb.map (fun e => (e.kind, e.va, e.len)), countsOf t)) = some ([(.bout 1 0x99 1 3 1, 0x4000, 0x800)], [1, 2]) := by decide
theorem test_bout_tree : traps (.bout 6 1 7) (withX labBeryl [(6, 0x1000000007F), (7, 0x4000)]) = none
    ∨ traps (.bout 6 1 7) (withX labBeryl [(6, 0x10000000080), (7, 0x4000)]) = some (0x20, 0x10000000080, 0x8000) := by decide
theorem test_tldb : sees (.tldb 4 1 6 1 0 0 0 0) (withX labBeryl [(1, 0x4800000000003000), (6, 0x0000C20000000003)]) (fun t => (face (t.t 4), t.x 6))
    = some (⟨9, 2, 3, [[1, 2, 3], [0xFF, 4, 5]], [0, 0]⟩, 0x0000C20000000004) := by decide +kernel
theorem test_tldb_null : sees (.tldb 4 1 6 0 0 0 0 0) (withX labBeryl [(1, 0x4800000000003000), (6, 0x0000410000000002)]) (fun t => (t.t 4).rows)
    = some [[0]] := by decide +kernel
theorem test_vsw : sees (.vsw 6 1) labPub (fun t => (t.x 6, t.k.vpin, countsOf t, t.beryl.pins.length)) = some (7, 0x130007, [1, 2], 1) := by decide +kernel
theorem test_vsw_drop : sees (.vswDrop 6) (labPub.setK { labPub.k with vpin := 0x3130007 }) (fun t => (t.x 6, t.k.vpin, t.core.oldPins))
    = some (0, 0, [3]) := by decide
theorem test_reclaim : sees (.blockReclaim (0x200 / 512 * 4)) { labBeryl with beryl := { labBeryl.beryl with blocks := [⟨1, 0, 0x200, false, List.replicate 8 0, 0, true⟩], queue := [(1, 0x200)] } }
    (fun t => (t.beryl.blocks, t.beryl.queue)) = some ([], []) := by decide
theorem test_pin_release : sees (.pinEntryRelease 3) { labBeryl with beryl.pins := [⟨3, 0, 0x3000, 7, 0x99, 1, 1, 1⟩], core.oldPins := [3] }
    (fun t => (t.beryl.pins, countsOf t, t.core.oldPins)) = some ([], [1, 0], []) := by decide

/-- The digest of the empty message as FIPS 202 gives it. -/
theorem test_sha3 : leNat (Sha3.sha3_256 []) = 0x4A43F8804B0AD882FA493BE44DFF80F562D661A05647C15166D71EBFF8C6FFA7 := by decide +kernel
theorem test_bloa_region : traps (.bloa 4 6 0 9) (labBeryl.setX 6 0x8000) = some (0x1D, 9, 0x8000) := by decide

/-! Barriers (13 R334 to R341). -/

/-- A barrier at 0x2800 that expects 2 arrivals, with one made and xp set; x1 points to it. -/
def labBar : State := withX (withMem lab 0x2800 [0, 0, 0, 1, 1, 0, 2, 0]) [(1, 0x2800), (2, 0x10)]

/-- The two words of the barrier. -/
def barWords (t : State) : Nat × Nat := (t.mem.readNat 0x2800 8, t.mem.readNat 0x2808 8)

theorem test_bar_arr : sees (.barArr 1) labBar barWords = some (0x0002000000000000, 0x100000001) := by decide +kernel
theorem test_bar_arr_range : traps (.barArr 1) lab = some (0x1C, 0, 0x8000) ∧ traps (.barArr 2) labBar = some (0x0C, 0x10, 0x8000) := by decide +kernel
theorem test_bar_exp : sees (.barExp 1 2) labBar barWords = some (0x0002000101000010, 0) := by decide +kernel
theorem test_bar_exp_arr : sees (.barExpArr 1 2) labBar barWords = some (0x0002000201000010, 0) := by decide +kernel
theorem test_bar_drop : sees (.barDrop 1) labBar barWords = some (0x0001000000000000, 0x100000001) := by decide +kernel
theorem test_bar_init : sees (.barInit 1 2) (labBar.setX 2 0x10003) barWords = some (0x0003000000000000, 4)
    ∧ traps (.barInit 1 2) (labBar.setX 2 0x10000) = some (0x1B, 0x10000, 0x8000) := by decide +kernel
theorem test_bar_wait : sees (.barWait 3 1 2) (labBar.setX 2 1) (fun t => (t.x 3, t.pc)) = some (0, 0x1004)
    ∧ sees (.barWait 3 1 2) labBar (fun t => (t.core.wait, t.pc)) = some (.barrier, 0x1000) := by decide +kernel
theorem test_bar_test : sees (.barTest 3 1) (withMem labBar 0x2808 [7, 0, 2, 0, 9]) (·.x 3) = some 0x900020007 := by decide +kernel

/-! Detached commands and streams (13 R329 to R357). -/

/-- Eight bytes at 0x2000; x1 a local-store destination, x2 the source, x3 the length, x4 no barrier. -/
def labCopy : State := withX (withMem lab 0x2000 [1, 2, 3, 4, 5, 6, 7, 8]) [(1, 0x100), (2, 0x2000), (3, 8)]

theorem test_bcp : sees (.bcp 1 2 3) labCopy (fun t => (t.core.cmds.map (·.kind), t.pc))
    = some ([.bcp (.mem [⟨0x2000, 8⟩]) (.mem [⟨0x100, 8⟩]) 0x100 8 []], 0x1004) := by decide +kernel
theorem test_bcp_ld : ((after (exec (.bcpLd 1 2 3) labCopy)).bind (fun t => sees (.bcpChunkDelivery 0 0 8 .taken) t (fun u => (u.core.cmds.length, u.core.ls))))
    = some (0, [(0x100, 1), (0x101, 2), (0x102, 3), (0x103, 4), (0x104, 5), (0x105, 6), (0x106, 7), (0x107, 8)]) := by decide +kernel
theorem test_bcp_st : sees (.bcpSt 2 1 3) labCopy (fun t => t.core.cmds.map (·.kind)) = some [.bcp (.ls 0x100) (.mem [⟨0x2000, 8⟩]) 0x2000 8 []]
    ∧ traps (.bcpSt 2 1 3) (labCopy.setX 3 0) = some (0x1B, 0, 0x8000) := by decide +kernel
theorem test_sbind : sees (.sbind 1 2 6 2) (withX labCopy [(6, 0x800200), (7, 2)]) (fun t => let q := t.stream 1; (q.bound, q.addr, q.count, q.lsbase, q.lsz))
    = some (true, 0x2000, 2, 0x200, 8) := by decide +kernel

/-- Stream 1 bound to two 4-byte elements, with none arrived. -/
def labStream : State := (after (exec (.sbind 1 2 6 2) (withX labCopy [(6, 0x800200), (7, 2)]))).getD lab

theorem test_stream_fill : ((after (exec (.streamElementFill 1) labStream)).bind (fun t => sees (.qrd 1 1 3) t (fun u => (u.x 3, (u.stream 1).next, (u.stream 1).bound))))
    = some (0x04030201, 1, true) := by decide +kernel
theorem test_qrd_empty : traps (.qrd 1 1 3) labStream = some (0x0F, 1, 0x8000) ∧ traps (.qrd 2 1 3) labStream = some (0x0E, 2, 0x8000) := by decide +kernel
theorem test_qavail_sunbind : sees (.qavail 1 3) labStream (·.x 3) = some 0x8000000000000000
    ∧ sees (.sunbind 1) labStream (fun t => (t.stream 1).bound) = some false := by decide +kernel

/-- A concurrent launch; the schedule at 0x2400 rotates four members by one. -/
def labGroup : State :=
  let l : Launch := { labLaunch with words := labLaunch.words.set 4 0x200000000 }
  { withX (withMem lab 0x2400 [0x21, 0x03]) [(1, 0), (2, 0x2400), (6, 0x100000000000), (7, 0x10010)] with parts := lab.parts.set 0 { labPart with launches := [l] } }

theorem test_a2a : sees (.a2aCl 1 2 6) labGroup (fun t => t.core.cmds.map (·.kind)) = some [.a2a false [⟨0x2400, 8⟩] 0 0x1000 16 1 none 0] := by decide +kernel
theorem test_a2a_class : traps (.a2aCl 1 2 6) { labGroup with parts := lab.parts } = some (0x1B, 0, 0x8000) := by decide +kernel
theorem test_a2a_q : sees (.a2aQ 1 2 6) labGroup (fun t => t.core.cmds.length) = some 1 := by decide +kernel

/-- One exchange in flight on member 0. -/
def labExchange : State := { labGroup with core.ls := [(0, 9)], core.cmds := [⟨5, .a2a false [⟨0x2400, 8⟩] 0 0x1000 16 1 none 0, none, 0, 7, 1, false, [], [], []⟩] }

theorem test_a2a_start : sees (.a2aExchangeStart 5 (List.replicate 4 ⟨false, 0x2400, 16, 1, none⟩)) labExchange (fun t => t.core.cmds.map (·.kind))
    = some [.a2a false [⟨0x2400, 8⟩] 0 0x1000 16 1 (some [0x321]) 0] := by decide +kernel
theorem test_a2a_step : ((after (exec (.a2aExchangeStart 5 (List.replicate 4 ⟨false, 0x2400, 16, 1, none⟩)) labExchange)).bind (fun t =>
    sees (.a2aStep 5 (List.replicate 16 (some 0x33))) t (fun u => (u.core.cmds.length, u.core.ls.read 0x1030, u.core.ls.read 0x103F)))) = some (0, 0x33, 0x33) := by
  decide +kernel

/-- A reduction object at 0x2600 for s32 sums of two elements by two contributors, its result at 0x2680. -/
def labObject : State :=
  withX (withMem (withMem (withMem (withMem lab 0x2600 [0, 0, 2, 0, 0x10]) 0x2608 [0x80, 0x26]) 0x2610 [2]) 0x2618 [0, 0x27]) [(1, 0x2600), (2, 0x100), (6, 0), (7, 0)]

theorem test_cred : sees (.credLs 1 2 6) labObject (fun t => t.core.cmds.map (·.kind)) = some [.cred 0x2600 (.ls 0x100) 0 2 none]
    ∧ sees (.cred 1 2 6) (labObject.setX 2 0x2000) (fun t => t.core.cmds.map (·.kind)) = some [.cred 0x2600 (.mem [⟨0x2000, 8⟩]) 0 2 none] := by
  decide +kernel
theorem test_cred_read : sees (.credSourceRead 3) { labObject with core.ls := [(0x100, 5), (0x104, 0xFE)], core.cmds := [⟨3, .cred 0x2600 (.ls 0x100) 0 2 none, none, 0, 7, 1, false, [], [], []⟩] }
    (fun t => t.core.cmds.map (·.kind)) = some [.cred 0x2600 (.ls 0x100) 0 2 (some [some 5, some 0, some 0, some 0, some 0xFE, some 0, some 0, some 0])] := by decide +kernel

/-- Drive 2 on port 1. -/
def labDrive : State :=
  { withX (withMem lab 0x3000 [0x77]) [(1, 0x2000000000000123), (2, 0x3000), (6, 0x1000)] with parts := lab.parts.set 0 { labPart with drives := labPart.drives.set 2 ⟨true, 1, 4, 1⟩ } }

theorem test_ofld : sees (.ofldOut 1 2 6) labDrive (fun t => t.core.cmds.map (·.kind)) = some [.ofld true 2 0x123 [⟨0x3000, 4096⟩] 1 1 [] []]
    ∧ traps (.ofldIn 1 2 6) (labDrive.setX 6 0x1001) = some (0x1B, 0x1001, 0x8000) := by decide +kernel
theorem test_ofld_in : sees (.ofldIn 1 2 6) labDrive (fun t => t.core.cmds.map (·.kind)) = some [.ofld false 2 0x123 [⟨0x3000, 4096⟩] 1 1 [] []] := by decide +kernel

/-- An offload of one page in flight. -/
def labOfld : State := { labDrive with core.cmds := [⟨4, .ofld true 2 0x123 [⟨0x3000, 4096⟩] 1 1 [] [], none, 0, 7, 1, false, [], [], []⟩] }

theorem test_ofld_done : sees (.ofldPageCompletion 4 0 0 []) labOfld (fun t => (t.core.cmds.length, (t.partAt 0).evhead)) = some (0, 0) := by decide +kernel
theorem test_ofld_fails : sees (.ofldTimeout 4 0) labOfld (fun t => (t.core.cmds.length, (t.partAt 0).evhead)) = some (0, 1)
    ∧ sees (.lostLink 1) labOfld (fun t => (t.core.cmds.length, (t.partAt 0).evhead)) = some (0, 1) := by decide +kernel

/-! Launches and messages (chapter 09). -/

/-- A record in pool entry 2: four units of tasks 20 to 23, with one dependency; x1 holds 2. -/
def labPool : State :=
  let put (s : State) (i : Nat) (bs : List Byte) : State := withMem s (0x100100 + 8 * i) bs
  let s := [(0, [0, 0x10]), (1, [0x77]), (2, [4, 0, 0, 0, 1]), (3, [1, 0, 0, 0, 1, 0, 1]), (4, [0, 0, 0, 0, 0, 0, 1]), (7, [0, 0, 0, 0, 20]), (10, List.replicate 16 0xFF)].foldl
    (fun s e => put s e.1 e.2) lab
  withX s [(1, 2), (2, 0x1122334455667788), (5, 16)]

theorem test_larm : sees (.larm 3 1) labPool (fun t => (t.x 3, (t.partAt 0).nextId, (t.partAt 0).launches.map (·.phase))) = some (2, 3, [.running, .armed 1]) := by
  decide +kernel
theorem test_larm_pool : traps (.larm 3 5) labPool = some (0x18, 16, 0x8000) := by decide
theorem test_lpat : sees (.lpat 1 2 1 1) labPool (fun t => t.mem.readNat 0x100108 8) = some 0x55667788
    ∧ sees (.lpat 1 2 0 4) labPool (fun t => t.mem.readNat 0x100120 8) = some 0x1122330455667788 := by decide +kernel
theorem test_cncl : sees (.cncl 3 1 1) (labPool.setX 1 1) (fun t => (t.x 3, t.core.run, (t.partAt 0).launches.map (·.cancelled))) = some (1, .exited, [true])
    ∧ sees (.cncl 3 1 0) (labPool.setX 1 8) (·.x 3) = some 0 := by decide +kernel
theorem test_cncl_job : (traps (.cncl 3 1 4) lab).map (·.1) = some 2 := by decide
theorem test_trig : sees .trig labDirty (fun t => (t.core.unit.trig, t.mem.read 0x2000, t.pc)) = some (true, 7, 0x1004) := by decide +kernel

/-- A sliced launch of one unit with four slices. -/
def labSliced : State :=
  let l : Launch := { labLaunch with words := (labLaunch.words.set 4 0x20000010001).set 5 0x10001, remaining := 4 }
  { lab with parts := lab.parts.set 0 { labPart with launches := [l] } }

theorem test_draw : sees (.draw 3) labSliced (fun t => (t.x 3, t.core.unit.ident.slice, (t.partAt 0).launches.map (·.remaining))) = some (0x100000000, 0, [3]) := by
  decide +kernel
theorem test_draw_static : (traps (.draw 3) lab).map (·.1) = some 0x19 := by decide
theorem test_smrg : sees (.smrg 4 0 10) (withX (withMem (withMem lab 0x2000 [1, 0, 0, 0, 2]) 0x2008 [10, 0, 0, 0, 20]) [(10, 0x6000000000002000), (11, 0x0002020100000008)])
    (fun t => face (t.t 4)) = some ⟨0x0C, 1, 2, [[11, 22]], [0]⟩ := by decide +kernel
theorem test_exit : sees .exit labFull (fun t => (t.core.run, t.mbox 3, (t.partAt 0).launches.map (fun l => l.units.map (·.place))))
    = some (.exited, ⟨0x55, false⟩, [[.exiting 0]]) := by decide +kernel
theorem test_send : sees (.send 5 1 2) (withX lab [(1, 0x11), (2, 9)]) (·.core.net) = some [⟨false, 0x11, 5, 9, 0, 1, 7, false⟩]
    ∧ traps (.send 5 1 2) (lab.setX 1 0x80) = some (0x1A, 0x80, 0x8000) := by decide
theorem test_send_u : sees (.sendU 5 1 2) (withX lab [(1, 3), (2, 9)]) (·.core.net) = some [⟨true, 3, 5, 9, 0, 1, 7, false⟩]
    ∧ traps (.sendU 5 1 2) (lab.setX 1 4) = some (0x1A, 4, 0x8000) := by decide
theorem test_message_in : sees (.messageArrival (.inbound 9 0 1 5 false 0 3 0x42)) lab (·.mbox 3) = some ⟨0x42, true⟩
    ∧ sees (.messageArrival (.inbound 9 0 1 5 false 0 3 0x42)) labFull (·.mbox 3) = some ⟨0x55, true⟩ := by decide
theorem test_message_retry : sees (.messageRetry 0) { lab with core.net := [⟨false, 0x11, 5, 9, 0, 1, 7, true⟩] } (fun t => t.core.net.map (·.refused)) = some [false] := by
  decide

/-! System instructions and traps (chapter 14; 01 R19 to R24). -/

/-- lab at a level. -/
def labAt (pl : BitVec 2) : State := { lab with core.unit.k.status := statusOf pl false }

theorem test_trap : traps (.trap 0x123) lab = some (4, 0x123, 0x8000)
    ∧ sees (.trap 0x123) lab (fun t => (t.core.run, (t.partAt 0).fhead)) = some (.suspended ⟨4, false, false, 0x123, 0⟩, 1) := by decide +kernel
theorem test_brk : traps .brk lab = some (5, 0, 0x8000) := by decide
theorem test_sret : sees .sret { labAt 1 with core.unit.k.epc := 0x2000, core.unit.k.status := 1 } (fun t => (t.pc, t.k.status, t.core.retired)) = some (0x2000, 0, 1)
    ∧ (traps .sret lab).map (·.1) = some 2 := by decide
theorem test_kget : sees (.kget 3 2) lab (·.x 3) = some 7 ∧ sees (.kget 3 0x106) lab (·.x 3) = some 64 ∧ (traps (.kget 3 0x200) lab).map (·.1) = some 2 := by decide
theorem test_kset : sees (.kset 1 0x101) (lab.setX 1 0xFF) (·.k.fpmode) = some 7 ∧ sees (.kset 1 0x200) ((labAt 1).setX 1 0x80FF) (·.k.tvec) = some 0x80FC := by
  decide
theorem test_kset_l2map : sees (.kset 1 0x300) ((labAt 2).setX 1 1) (fun t => (t.dev.l2.switching, t.pc)) = some (some (1, []), 0x1000)
    ∧ sees (.kset 1 0x300) ((labAt 2).setX 1 2) (fun t => t.core.run) = some .halted := by decide
theorem test_halt : sees .halt (labAt 2) (fun t => (t.core.run, t.pc, t.mgmt.reports)) = some (.halted, 0x1004, [(0, 0)]) := by decide
theorem test_spt : sees (.spt 1) (lab.setX 1 3) (fun t => (t.pc, t.core.safe)) = some (0x1004, none)
    ∧ sees (.spt 1) { lab.setX 1 3 with core.evictReq := some .slice, parts := lab.parts.set 0 { labPart with pmode := true } } (·.core.safe) = some (some 3) := by
  decide +kernel
theorem test_tlbi : sees .tlbiAll (labAt 1) (fun t => t.core.tlb.length) = some 0 ∧ (traps .tlbiAll lab).map (·.1) = some 2 := by decide
theorem test_tlbi_va : sees (.tlbiVa 1) ((labAt 1).setX 1 0x1FFFFF) (fun t => t.core.tlb.length) = some 0
    ∧ sees (.tlbiVa 1) ((labAt 1).setX 1 0x200000) (fun t => t.core.tlb.length) = some 1 := by decide
theorem test_tlbi_blk : sees (.tlbiBlk 1 22) ((labAt 1).setX 1 0x200000) (fun t => t.core.tlb.length) = some 0 := by decide

/-! The core and its memory system on their own. -/

theorem test_fetch_event : sees (.instructionFetch 0x1000) lab (fun t => (t.pc, t.core.tlb.length)) = some (0x1000, 1) := by decide
/-- A reorder-buffer entry of an instruction at 0x1000. -/
def robOf (tag : Nat) (i : Instr) (engine : Option Nat) (complete : Bool) : RobEntry := ⟨tag, 0x1000, i, none, 0x1004, engine, none, complete, none⟩
theorem test_dispatch : sees (.dispatch .vector 1 0) { lab with core.front.decoded := [(0x1000, .tadd 1 2 3 0, 0x1004)] } (·.core.rob) = some [robOf 0 (.tadd 1 2 3 0) none false]
    ∧ sees (.dispatch .vector 3 0) { lab with core.front.decoded := [(0x1000, .tadd 1 2 3 0, 0x1004)] } (·.core.rob) = some [] := by decide
theorem test_issue : sees (.issue .vector none) { lab with core.rob := [robOf 4 (.tadd 1 2 3 0) none false] } (fun t => (t.core.rob.map (·.engine), t.core.busy)) = some ([some 3], [3]) := by
  decide +kernel
theorem test_engine_completion : sees (.engineCompletion 3) { lab with core.rob := [robOf 4 (.tadd 1 2 3 0) (some 3) false] } (fun t => t.core.rob.map (·.complete)) = some [true] := by
  decide
theorem test_retirement : sees .retirement { lab with core.rob := [robOf 4 (.tadd 1 2 3 0) (some 3) true, robOf 5 (.tadd 1 2 3 0) none false] } (·.agenda) = some [.retire 4] := by decide
theorem test_stack_hold : ((after (exec (.stackHoldExpiry 2) { lab with dev.merge := [⟨2, [], false⟩] })).bind (fun t =>
    (after (exec (.stackedOperationIssue 2) t)).map (·.dev.merge))) = some [] := by decide
/-- The word at pc is no instruction: ILLEGAL_INSN, code 1, with the word in k.tval (03 R73; 14 R359). -/
theorem test_trap_entry : sees (.trapEntry 1 false 0x1000 0) (lab.setK { lab.k with tvec := 0x8000 }) (fun t => (t.pc, t.k.tcause)) = some (0x8000, 1)
    ∧ sees (.trapEntry 0x16 false 0x1000 5) (lab.setK { lab.k with tvec := 0x8000 }) (·.pc) = some 0x1000 := by decide +kernel
theorem test_report : sees (.reportAndSuspend 1 false 0x1000 0 0) lab (fun t => t.core.run) = some (.suspended ⟨1, false, false, 0, 0⟩) := by decide +kernel
theorem test_rput_send : ((after (exec (.rput 1 2 0 0) (labPeer.setX 2 0x1FF))).bind (fun t => (after (exec .rputSend t)).bind (fun u =>
    (after (exec (.remoteResponse 0x40000 7 1 .ack) u)).map (fun v => (u.core.sb.length, u.core.unacked.length, v.core.unacked.length))))) = some (0, 1, 0) := by decide +kernel
theorem test_inbound : sees (.inboundRemoteRequest 3 0 0x2000 (.put [9])) labPeer (fun t => t.mem.read 0x2000) = some 0
    ∧ sees (.inboundRemoteRequest 3 0 0x2000 (.put [9])) { labPeer with parts := lab.parts.set 0 { labPart with windows := labPart.windows.set 0 ⟨0x200F, 1⟩ } } (fun t => t.mem.read 0x2000) = some 9 := by decide +kernel
theorem test_page_swap : sees (.pageSwap 4 1 false) { lab with dev.cxl := [0x100000, 0, 0, 0] } (fun t => t.remapOf 4) = some (1 + 0 * 8 + 2 * 64 + 3 * 512 + 4 * 4096) := by
  decide +kernel
theorem test_port_down : sees (.cxlPortDown 2) lab (·.dev.portDown) = some 4 := by decide
theorem test_scrub : ((after (exec (.patrolScrubRead 9) { lab with dev.granules := [(9, .correctable)] })).bind (fun t =>
    (after (exec (.scrubWriteback 9) t)).map (fun u => (t.dev.reserved, u.dev.granules, u.dev.reserved)))) = some ([9], [], []) := by decide
theorem test_l2map_adoption : sees (.l2mapAdoption 3) { lab with dev.l2.switching := some (1, []) } (fun t => (t.dev.l2.slices[3], t.dev.l2.slices[2])) = some (1, 0) := by
  decide
theorem test_handoff_redirect : sees (.lineHandoff 7) lab (·.pc) = some 0x1000 ∧ sees .requestRedirect lab (·.pc) = some 0x1000 := by decide
theorem test_host_access : sees (.hostMemoryAccess 0x2000 [9]) lab (fun t => t.mem.read 0x2000) = some 9
    ∧ sees (.hostMemoryAccess 0x2000 [9]) { lab with mgmt.boot := .recovery } (fun t => t.mem.read 0x2000) = some 0 := by decide

/-! The dispatcher, the spill engine and partitions. -/

theorem test_unit_start : sees (.unitStart 0 1) lab (fun t => (t.partAt 0).launches.map (fun l => (l.units.map (·.place), l.nextUnit))) = some [([.here, .elsewhere 1], 2)] := by
  decide +kernel
theorem test_unit_start_here : sees (.unitStart 0 0) { lab with core.run := .idle, parts := lab.parts.set 0 { labPart with launches := [{ labLaunch with units := [], nextUnit := 0 }] } }
    (fun t => (t.core.run, t.pc, t.x 10, t.x 11)) = some (.running, 0x1000, 0x77, 0) := by decide +kernel
theorem test_preemption : sees (.timeSlicePreemption 0 7) lab (·.core.evictReq) = some none := by decide +kernel
theorem test_unit_end : ((after (exec .exit lab)).bind (fun t => sees (.unitEnd 0 7) t (fun u => (u.core.run, (u.partAt 0).launches.map (fun l => l.units.map (·.place))))))
    = some (.idle, [[.ended false]]) := by decide +kernel
theorem test_launch_completion : sees (.launchCompletion 0 1) { lab with parts := lab.parts.set 0 { labPart with launches := [{ labLaunch with units := [⟨0, .ended false, true, 0, 0, none, none, false, false⟩, ⟨1, .ended false, true, 0, 0, none, none, false, false⟩, ⟨2, .ended false, true, 0, 0, none, none, false, false⟩, ⟨3, .ended false, true, 0, 0, none, none, false, false⟩], nextUnit := 4 }] } }
    (fun t => ((t.partAt 0).launches.length, (t.partAt 0).evhead)) = some (0, 1) := by decide +kernel
theorem test_held_event : sees (.heldEventRecordWrite 0) { lab with parts := lab.parts.set 0 { labPart with heldEvents := [[0x1122, 3, 0]] } }
    (fun t => ((t.partAt 0).heldEvents, (t.partAt 0).evhead)) = some ([], 1) := by decide +kernel
theorem test_held_fault : sees (.heldFaultRecordWrite 0) { lab with parts := lab.parts.set 0 { labPart with heldFaults := [[0x1122, 3, 0, 0, 0, 0, 0, 0]] } }
    (fun t => ((t.partAt 0).heldFaults, (t.partAt 0).fhead, t.mem.readNat 0x150000 8)) = some ([], 1, 0x1122) := by decide +kernel
theorem test_ring_timeout : sees (.eventRingTimeout 0) { lab with parts := lab.parts.set 0 { labPart with tmo := 5, sinceIrq := 1 } } (fun t => ((t.partAt 0).irqs, (t.partAt 0).sinceIrq))
    = some (1, 0) := by decide
theorem test_evict : sees (.evict 0 7) lab (·.core.evictReq) = some (some .supervisor) := by decide +kernel
theorem test_migration : sees (.migration 2) lab (fun t => (t.core.run, t.core.forward, (t.partAt 0).launches.map (fun l => l.units.map (·.place)))) = some (.idle, [⟨0, 7, 2, false⟩], [[.elsewhere 2]]) := by
  decide +kernel
theorem test_forwarding : sees (.forwardingEntryExpiry 7) { lab with core.forward := [⟨0, 7, 2, false⟩, ⟨0, 8, 3, true⟩] } (·.core.forward) = some [⟨0, 8, 3, true⟩] := by decide
theorem test_resume : sees (.resume 0 7 0) { lab with core.run := .suspended ⟨4, false, false, 1, 0⟩ } (fun t => (t.core.run, t.core.exempt, t.pc)) = some (.running, true, 0x1000) := by
  decide +kernel
theorem test_resume_refused : sees (.resume 0 7 1) { lab with core.run := .suspended ⟨4, false, false, 1, 0⟩ } (fun t => (t.core.run, (t.partAt 0).fhead))
    = some (.suspended ⟨4, false, false, 1, 0⟩, 1) := by decide +kernel
/-- A ring whose next record asks for partition 5: the copy is rejected with a record. -/
theorem test_submission : sees (.submissionRecordCopy 0 2) { lab with parts := lab.parts.set 0 { labPart with rings := labPart.rings.set 2 ⟨0x100000, 4, true, false, 0, 1⟩ } }
    (fun t => ((t.partAt 0).rings[2].shead, (t.partAt 0).nextId, (t.partAt 0).evhead)) = some (1, 3, 1) := by decide +kernel
theorem test_stail_srst : ((after (exec (.stailWrite 0 2 17) { lab with parts := lab.parts.set 0 { labPart with rings := labPart.rings.set 2 ⟨0x100000, 4, true, false, 0, 1⟩ } })).bind (fun t =>
    (after (exec (.srst 0 2) t)).map (fun u => ((t.partAt 0).rings[2].ovr, (u.partAt 0).rings[2].ovr, (u.partAt 0).rings[2].stail)))) = some (true, false, 0) := by decide +kernel
/-- Control port 0 holds the semaphore. -/
def labSem : State := { lab with dev.sem := ⟨0, true, false, 9⟩ }
theorem test_qmask : sees (.qmask (.port 0) 1 0xFF true) labSem (fun t => ((t.partAt 1).qmask, (t.partAt 1).en, t.dev.sem.gerr)) = some (0, true, true)
    ∧ sees (.qmask (.port 1) 1 0 true) labSem (fun t => ((t.partAt 1).en, t.dev.sem.gerr)) = some (false, true) := by decide +kernel
theorem test_qpark : sees (.qpark (.port 0) 0 2 0) labSem (fun t => (t.partAt 0).qpark) = some 2 := by decide +kernel
theorem test_parked : sees (.quadrantParked 0 1) { lab with parts := lab.parts.set 0 { labPart with qpark := 3 } } (fun t => (t.partAt 0).qstate) = some 2
    ∧ sees (.quadrantParked 0 0) { lab with parts := lab.parts.set 0 { labPart with qpark := 3 } } (fun t => (t.partAt 0).qstate) = some 0 := by decide +kernel
theorem test_unparked : sees (.quadrantUnparked 0 1) { lab with parts := lab.parts.set 0 { labPart with qstate := 2 } } (fun t => (t.partAt 0).qstate) = some 0 := by decide
theorem test_close : sees (.close 0) { lab with parts := lab.parts.set 0 { labPart with launches := [] } } (fun t => ((t.partAt 0).jobcnt, (t.partAt 0).evhead)) = some (1, 1) := by
  decide +kernel
theorem test_register_write : sees (.registerWrite (.port 0) (deviceBase + 0x100050) 5) { lab with mgmt.boot := .running } (fun t => (t.partAt 0).evtail) = some 5 := by decide +kernel

/-- A unit that is evicted and comes back keeps its registers, its mailbox and pc; tile 4 is outside the live mask of a safe point. -/
theorem test_eviction : ((after (exec (.eviction 0 7 0) { labFull.setX 9 0xABC with core.evictReq := some .supervisor })).bind (fun t =>
    (after (exec (.restoration 0 0 0) { t with core.tlb := lab.core.tlb })).map (fun u => (t.core.run, t.mem.readNat (0x160000 + 0x10448) 8, u.core.run, u.x 9, u.mbox 3)))) = some (.idle, 0xABC, .running, 0xABC, ⟨0x55, true⟩) := by decide +kernel

/-! Observation, control and management (chapters 15, 16, 18). -/

/-- A pulse ring of 4,096 bytes at 0x4000. -/
def labRing : State := { lab with parts := lab.parts.set 0 { labPart with qmask := 0 }, obs.pulseRing := ⟨0x4000, 4096, 0, 0, false⟩ }

/-- A pulse record of one core: 16 bytes, the mask, then pc with the run state, and the task (15 R397). -/
theorem test_now : sees .now labRing (fun t => (t.obs.seq, t.obs.pulseRing.head)) = some (1, 48)
    ∧ labRing.pulseBytes.drop 16 = [1, 0, 0, 0, 0, 0, 0, 0, 0, 0, 0, 0, 0, 0, 0, 0, 0, 0x10, 0, 0, 0, 0, 0, 1, 7, 0, 0, 0, 0, 0, 0, 0] := by decide +kernel
theorem test_pulse_period : sees .pulsePeriod labRing (·.obs.seq) = some 0 ∧ sees .pulsePeriod { lab with obs.pulseEn := true } (·.obs.seq) = some 1 := by decide +kernel
theorem test_counter_sample : sees .counterSample { lab with obs.sampler := 1 } (·.obs.sample) = some 1 ∧ sees .counterSample lab (·.obs.sample) = some 0 := by decide +kernel
theorem test_ring_base : sees (.ringBaseSize true 0x4020 4096) lab (fun t => (t.obs.sampleRing.base, t.obs.sampleRing.size)) = some (0x4000, 4096) := by decide +kernel
theorem test_bkpt : sees (.bkpt none 2 0 0xFFFFFFFFFFFFFFFF) lab (fun t => (t.obs.written[2].ctl, t.obs.slots[2].ctl)) = some (0xFFFFFFFF0000007F, 0)
    ∧ sees (.bkpt (some 3) 2 1 5) lab (fun t => t.obs.written[2].lo) = some 0 := by decide
theorem test_slot_activation : ((after (exec (.bkpt none 2 2 0x99) lab)).bind (fun t => (after (exec (.breakpointSlotActivation 2) t)).map (fun u => u.obs.slots[2].hi)))
    = some 0x99 := by decide
theorem test_match_hits : sees (.matchClear 3) { lab with obs.matched := 7 } (·.obs.matched) = some 4
    ∧ sees (.hitsClear 2) { lab with obs.slots := lab.obs.slots.set 2 ⟨0, 0, 0, 5, 0⟩ } (fun t => t.obs.slots[2].hits) = some 0 := by decide
theorem test_snapshot : ((after (exec (.arm false false false 0) lab)).bind (fun t => (after (exec .fire t)).bind (fun u =>
    (after (exec .snapshotLatch u)).map (fun v => (u.obs.snap.due, v.obs.snap.done, v.obs.snap.src, v.readWindow 0x10008))))) = some (some 1, true, 1, 7) := by decide +kernel

/-- A store slot over 0x4000 to 0x47FF in any task of partition 0 stops the unit after a bout that writes there (15 R401, R402). -/
theorem test_store_breakpoint : ((labBeryl.setX 6 0x10000000003).setX 7 0x4700).storedRange (.bout 6 1 7) = some (0x4700, 2048)
    ∧ ({ labData with obs.slots := labData.obs.slots.set 2 ⟨0xB, 0x2003, 0x2003, 0, 0⟩ } : State).storedRange (.st 2 1 2 0) = some (0x2000, 4) := by decide
/-- An instruction slot that traps: BRK with 0x100 and the slot, before the instruction (15 R402). -/
theorem test_instruction_breakpoint : ((after (step { lab with core.unit.k.tvec := 0x8000, obs.slots := lab.obs.slots.set 2 ⟨0xD, 0x1000, 0x1000, 0, 0⟩ })).map
    (fun t => (t.k.tcause, t.k.tval, t.k.epc, t.obs.slots[2].hits, t.obs.matched))) = some (5, 0x102, 0x1000, 1, 4) := by decide +kernel

theorem test_semaphore : sees (.semaphoreAcquire (.port 0) 0x0003 9) lab (·.dev.sem) = some ⟨3, true, false, 9⟩
    ∧ sees (.semaphoreAcquire (.port 0) 0x0003 9) labSem (·.dev.sem) = some ⟨0, true, false, 9⟩ := by decide
theorem test_semaphore_end : sees (.semaphoreRelease 0) labSem (·.dev.sem.held) = some false ∧ sees (.semaphoreRelease 1) labSem (·.dev.sem.held) = some true
    ∧ sees (.semaphoreRenew 0 20) labSem (·.dev.sem.lease) = some 20 ∧ sees .leaseExpiry labSem (·.dev.sem.held) = some false := by decide
theorem test_gerr : ((after (exec (.deviceNumber (.port 1) 5) labSem)).bind (fun t => (after (exec .semaphoreClearGerr t)).map (fun u => (t.dev.devnum, t.dev.sem.gerr, u.dev.sem.gerr))))
    = some (0, true, false) ∧ sees (.deviceNumber (.port 0) 5) labSem (·.dev.devnum) = some 5 := by decide
theorem test_memory_clock : sees (.req (.port 0) 2 9) labSem (·.dev.clk) = some ⟨2, true, 0, false, 9⟩
    ∧ sees .hbmPointChange { State.reset with dev.clk := ⟨2, true, 0, false, 9⟩ } (·.dev.clk) = some ⟨2, false, 2, false, 9⟩
    ∧ sees .waitLimitExpiry { lab with dev.clk := ⟨2, true, 0, false, 9⟩ } (·.dev.clk) = some ⟨2, false, 0, true, 9⟩ := by decide +kernel
theorem test_energy : sees (.energyIntervalStart 0) { lab with parts := lab.parts.set 0 { labPart with budget := 50, budgetSet := true, eremain := 3 } } (fun t => (t.partAt 0).eremain)
    = some 50 := by decide +kernel
theorem test_links : sees (.linkUp 3 5) lab (fun t => t.dev.links[3]) = some ⟨true, 5, 0⟩ ∧ sees (.flitCrcRetry 3) lab (fun t => t.dev.links[3].retry) = some 1
    ∧ sees (.linkDown 0) labPeer (fun t => t.dev.links[0].up) = some false := by decide
theorem test_clocks : sees (.clklim 500) lab (·.mgmt.clklim) = some 1000 ∧ sees (.plim 1300) lab (·.mgmt.plim) = some 1200
    ∧ sees (.thermalCeilingStep 95) lab (·.mgmt.thermal) = some 2800 ∧ sees (.powerCeilingStep 1200001) lab (fun t => (t.mgmt.power, t.mgmt.pmeas)) = some (2800, 1200001) := by
  decide
theorem test_trip : sees .trip { lab with mgmt.fuseMin := 6 } (fun t => (t.mgmt.boot, t.mgmt.fuseMin, t.core.run, t.mgmt.log.length, (t.partAt 0).en)) = some (.tripped, 6, .idle, 1, false) := by
  decide
theorem test_go : sees (.go 0x3000) lab (fun t => (t.mgmt.busy, t.mgmt.abuf)) = some (true, 0x3000) ∧ sees (.go 0x3000) { lab with mgmt.busy := true } (·.mgmt.missed) = some true := by
  decide
theorem test_attestation : sees .attestationReport lab (·.mgmt.done) = some false := by decide +kernel
theorem test_lock : sees .lock { lab with mgmt.lock := true } (·.mgmt.lock) = some true ∧ sees (.clklim 1500) { lab with mgmt.lock := true } (·.mgmt.clklim) = some 2900 := by
  decide
theorem test_bann : sees (.bann (.port 1) 0xFFFF) labSem (·.dev.sem.gerr) = some true := by decide +kernel
theorem test_power_on : sees .powerOnReset { lab with mgmt.fuseMin := 6 } (fun t => (t.mgmt.boot, t.mgmt.fuseMin, t.core.run)) = some (.recovery, 6, .idle) := by decide +kernel
theorem test_identify : sees .identify lab (fun t => t.mgmt.response.length) = some 17 ∧ sees .state lab (·.mgmt.response) = some [0, 0]
    ∧ sees (.readLog 0) lab (·.mgmt.response) = some [2] ∧ sees .getVendorDefinedMessageSupport lab (fun t => t.mgmt.response.length) = some 5 := by decide
theorem test_read_register : sees (.readRegister 0x10) lab (·.mgmt.response) = some [0, 0x54, 0x0B, 0, 0, 0, 0, 0, 0] ∧ sees (.readRegister 0x11) lab (·.mgmt.response) = some [2] := by
  decide +kernel
theorem test_flash : sees (.writeFlash 1 4 [5]) { lab with mgmt.boot := .recovery } (fun t => (t.mgmt.response, t.mgmt.flashByte 0x2000004)) = some ([0], 5)
    ∧ sees (.writeFlash 1 4 [5]) lab (·.mgmt.response) = some [1] := by decide +kernel
theorem test_erase : sees (.eraseSlot 0) lab (·.mgmt.response) = some [1] ∧ sees (.eraseSlot 1) { lab with mgmt.boot := .recovery, mgmt.flash := [(0x2000004, 5)] } (fun t => (t.mgmt.response, t.mgmt.flashByte 0x2000004))
    = some ([0], 0xFF) := by decide +kernel

/-! Field limits: an ill-formed term for each check, and the word that it would be is refused (03 R73, R75). -/

/-- Not well-formed, and its word decodes to the refusal of field limits. -/
def limited (i : Instr) : Bool :=
  !wellFormed i && match (encode i).map decode with
    | some (.error .fieldLimit) => true
    | _ => false

theorem test_limits_fcvt : ([.fcvt 1 2 0 3 3, .fcvt 1 2 0 8 3, .fcvt 1 2 0 3 9, .fcvt 1 2 1 5 2] : List Instr).all limited = true := by decide
theorem test_limits_scalar_memory : ([.ld 2 1 5 0, .ld 3 1 4 0, .ldz 2 1 7 0, .st 3 1 4 0, .ldAcq 3 1 4 0, .stRel 2 1 6 0] : List Instr).all limited = true := by decide
theorem test_limits_atomics : ([.amo 1 2 3 0 0 0 0xB, .amo 1 2 3 0 0 1 0xA, .ared 1 2 0 0 0 8, .ared 1 2 1 0 0 0, .ramo 1 2 3 0 1 0xA, .xfence 5 0, .xfence 0 5] : List Instr).all limited = true := by
  decide
theorem test_limits_beryl : ([.bloa 3 1 0 0, .bloa 0 1 0 0, .bref 3 0, .brel 0 0, .bcas 2 1 3 0, .bcas 2 1 4 6, .vpub 1 2 3 0, .vpub 1 2 4 6, .tldb 1 1 2 0 0 3 0 0, .tldb 1 1 2 0 0 0 3 0] : List Instr).all limited
    = true := by decide
theorem test_limits_tile_memory : ([.tld 1 1 2 1 0 3 0 0 0, .tld 1 1 2 1 0 0 3 0 0, .tld 1 1 2 0 0 0 0 1 0, .tst 1 1 2 1 3 0 0 0, .tldi 1 1 2 0 0 0 1 0, .tlds 1 1 2 1 0 3 0 0, .tsts 1 1 2 0 0 1 0] : List Instr).all limited
    = true := by decide
theorem test_limits_matrix : ([.mmg 1 2 3 4 0 0 3 2, .mmg 1 2 3 4 0 0 0 3, .mmg 1 2 3 4 0 0 0 0, .tadw 1 2 3 4 5, .tadw 1 2 1 4 6, .tadw 1 2 3 1 6, .tadw 1 2 3 3 6] : List Instr).all limited = true := by decide
theorem test_limits_vector : ([.tcmp 1 2 3 7, .tcvt 1 2 0 0, .tcvt 1 2 0 0xB, .tcvt 1 2 0 0x10, .tcvt 1 2 1 9, .tred 1 2 0 0 0 3, .tred 1 2 0 0 4 0, .tred 1 2 0 1 0 0, .tred 1 2 1 0 0 0, .tred 8 2 0 1 0 2, .tsc 1 2 3, .tsc 1 2 9, .tnf 8 1 1, .smpl 1 2 3] : List Instr).all
    limited = true := by decide
theorem test_limits_engines : ([.bcp 1 2 3, .bcpLd 1 2 0, .bcpSt 1 2 5, .sbind 0 1 3 0, .a2aCl 1 2 3, .a2aQ 1 2 0, .cred 1 2 3, .credLs 1 2 3, .ofldOut 1 2 3, .ofldIn 1 2 0] : List Instr).all limited = true := by decide
theorem test_limits_system : ([.lpat 1 2 0 13, .lpat 1 2 3 0, .cncl 1 2 5, .smrg 1 0 3, .smrg 1 0 0, .kget 1 0xC, .kget 1 0x107, .kget 1 0x205, .kset 1 0, .kset 1 0x301, .tlbiBlk 1 11, .tlbiBlk 1 57] : List Instr).all limited = true := by
  decide
/-- Reserved fields that are set, and opcodes that are not assigned, make a word no instruction. -/
theorem test_reserved : [0x00000000, 0x26000000, 0xFC000000, 0xFE000000, 0x02000020, 0x3E000002, 0x40800012].all (fun w => (decode w).toOption.isNone) = true := by
  decide

/-! Steps. -/

theorem test_step_fetches : (after (step ((withX lab [(10, 5), (11, 6)]).withFetchWord 32 0x02A52C02))).map (fun t => (t.x 10, t.pc)) = some (11, 0x1004) := by decide +kernel
theorem test_step_from_reset : (after (step (State.reset.withFetchWord 32 0x02A52C02))).map (·.pc) = some 4 := by decide +kernel
theorem test_step_illegal : (after (step ((lab.setK { lab.k with tvec := 0x8000 }).withFetchWord 32 0))).map (fun t => (t.k.tcause, t.k.tval, t.pc)) = some (1, 0, 0x8000) := by decide +kernel
theorem test_step_fetch_fault : (after (step { lab with core.unit.pc := 0x200000, core.unit.k.tvec := 0x8000 })).map (fun t => (t.k.tcause, t.k.tval, t.k.epc)) = some (0x51, 0x200000, 0x200000) := by
  decide +kernel
theorem test_step_event : (after (step { lab with agenda := [.event .fire, .turn] })).map (fun t => (t.pc, t.agenda)) = some (0x1000, [.turn]) := by decide +kernel

/-! Repeat frames (01 R37 to R41). -/

/-- A word of memory that encodes an instruction. -/
def wordOf (i : Instr) : List Byte := leBytes 4 ((encode i).getD 0).toNat

/-- rep at 0x1000 of the one word after it, twice, tile destinations staggered by 1; tiles t1 and t2 hold one element. -/
def labRep : State :=
  labTiles (tile 9 [[1]]) (tile 9 [[2]]) noTile noTile |> fun s => withMem (withMem s 0x1000 (wordOf (.rep 0 1 1 0 0 0))) 0x1004 (wordOf (.tadd 5 1 2 0))

/-- The state after n steps. -/
def steps : Nat → State → Option State
  | 0, s => some s
  | n + 1, s => (after (step s)).bind (steps n)

theorem test_rep : (steps 1 labRep).map (fun t => (t.pc, t.k.rf, t.k.v, t.core.frame)) = some (0x1004, true, true, [.tadd 5 1 2 0]) := by decide +kernel
theorem test_rep_runs : (steps 3 labRep).map (fun t => ((t.t 5).rows, (t.t 6).rows, t.pc, t.k.rf, t.k.v)) = some ([[3]], [[3]], 0x1008, false, false) := by decide +kernel
theorem test_rep_content : traps (.rep 0 1 1 0 0 0) lab = some (6, 0x1004, 0x8000) := by decide

/-! Witnesses: for every statement with hypotheses, states and operands that meet them, clause by clause. -/

/-- A check of a result that is there. -/
def okIs {ε α : Type} (e : Except ε α) (p : α → Bool) : Bool :=
  match e with
  | .ok a => p a
  | .error _ => false

/-- The trap that a check ends with. -/
def trapIs {α : Type} (e : Run? α) (c : Cause) : Bool :=
  match e with
  | .error (.trap d _ _) => d == c
  | _ => false

/-- The forms of `State.Inv`, as a test. -/
def formed (s : State) : Bool :=
  s.mem.wf && s.core.ls.wf && s.mgmt.flash.wf && decide ((s.core.l1.dirty.map (·.1)).Nodup) && decide (∀ c ∈ s.core.l1.dirty, ∀ e ∈ s.core.l1.stale, c.1 ≠ e.1)
    && decide (s.core.unit.k.status.toNat < 8) && decide (s.core.unit.k.status.toNat % 4 ≠ 3)
    && decide (∀ k ∈ s.beryl.blocks, k.counts.length = 8)

theorem inv_of_formed (s : State) (h : formed s = true) : s.Inv := by
  simp only [formed, Bool.and_eq_true, decide_eq_true_eq] at h
  obtain ⟨⟨⟨⟨⟨⟨⟨a, b⟩, c⟩, d⟩, e⟩, f⟩, g⟩, k⟩ := h
  exact ⟨a, b, c, ⟨d, e⟩, ⟨f, g⟩, k⟩

/-- No granule is uncorrectable where none is listed, no port is down and no dirty data is poisoned. -/
theorem readable_of (s : State) (m : XMap) (h : s.dev.granules = []) (p : s.dev.portDown = 0) (l : s.core.l1.poison = []) : s.readable m ∧ ∀ g, s.badGranule g = false := by
  have b : ∀ g, s.badGranule g = false := by
    intro g
    simp only [State.badGranule, State.portLost, Dev.granule, h, p]
    cases s.portOf (g * granuleSize) <;> simp
  exact ⟨fun va => by simp [State.cacheBad, b, l], b⟩

/-- The core may run its oldest instruction. -/
def ready (s : State) : Bool :=
  s.agenda.isEmpty && s.core.run == .running && s.core.safe.isNone && s.breakHere.isNone

/-- lab with add x10, x10, x11 of the manual's example at pc. -/
def labWord : State := withMem lab 0x1000 [0x02, 0x2C, 0xA5, 0x02]

theorem test_meets_DecodeOfEncode : wellFormed (.padd 10 10 11) = true ∧ encode (.padd 10 10 11) = some 0x02A52C02 := by decide
theorem test_meets_EncodeOfDecode : decode 0x02A52C02 = .ok (.padd 10 10 11) := by decide
theorem test_meets_StepRunsDecoded : ready labWord = true ∧ labWord.k.rf = false ∧ okIs (labWord.fetchWord labWord.pc) (fun w => w.1 == 0x02A52C02) = true
    ∧ labWord.barred (.padd 10 10 11) = false ∧ (List.finRange 8).all (fun k => !labWord.obs.slots[k].en) = true := by decide +kernel
theorem test_meets_StepTrapsOnWord : ready lab = true ∧ lab.k.rf = false ∧ okIs (lab.fetchWord lab.pc) (fun w => (decode w.1).toOption.isNone) = true
    ∧ (lab.fetchWord 0x200000).toOption = none
    ∧ ({ labWord with core.service := some 0 } : State).barred (.tadd 1 2 3 0) = true := by decide +kernel
theorem test_meets_StepRunsCaptured : (steps 1 labRep).map (fun t => (ready t, t.k.rf, t.core.frame[t.k.pos]?, wellFormed (staggered t.k t.k.iter (.tadd 5 1 2 0))))
    = some (true, true, some (.tadd 5 1 2 0), true) := by decide +kernel
theorem test_meets_StepTakesEvent : (Instr.fire).isWord = false ∧ ({ lab with agenda := [.event .fire] } : State).agenda = [.event .fire] := ⟨rfl, rfl⟩
theorem test_meets_StepKeepsInvariant : labWord.Inv ∧ (after (step labWord)).isSome = true := ⟨inv_of_formed _ (by decide +kernel), by decide +kernel⟩
theorem test_meets_RetirementRule : lab.k.rf = false ∧ (steps 1 labRep).map (fun t => (t.k.rf, decide (t.k.pos < t.k.n1), decide (t.k.iter < t.k.k1))) = some (true, false, true)
    ∧ (steps 2 labRep).map (fun t => (t.k.rf, decide (t.k.pos < t.k.n1), decide (t.k.iter < t.k.k1))) = some (true, false, false) := by decide +kernel
theorem test_meets_IntegerResults : (integerTable lab.x (.add 3 1 2)).isSome = true ∧ (immediateTable lab.x (.addi 3 1 5)).isSome = true := by decide
theorem test_meets_DivisionCorners : (withX lab [(1, 7), (2, 0)]).x 2 = 0 ∧ (withX lab [(1, 0x8000000000000000), (2, -1)]).x 1 = 0x8000000000000000
    ∧ (withX lab [(1, 7), (2, -2)]).x 2 = -2 ∧ (withX lab [(1, -7), (2, 2)]).x 1 = -7 := by decide
theorem test_meets_FloatResults : floatForm (.faddS 3 1 2) = some (fp32, 0, 3, 1, 2) ∧ floatForm (.fsqrtD 3 1) = some (fp64, 6, 3, 1, 0) := by decide
theorem test_meets_FloatSpecials : (floatOperand fp32 (withX lab [(1, 0x7FC00000)]) 1).isNan = true := by decide
theorem test_meets_RoundingKeepsValues : (fp16.read false 0x7BFF).isFinite = true ∧ 0x7BFF < 2 ^ fp16.width ∧ (fp8e4.read false 1).isFinite = true := by decide
theorem test_meets_ConversionResults : wellFormed (.fcvt 3 1 0 5 2) = true ∧ wellFormed (.fcvt 3 1 1 5 6) = true := by decide
theorem test_meets_ControlTransfers : (lab.setX 1 0x2000).x 1 % 4 = 0 ∧ (lab.setX 1 0x2001).x 1 % 4 ≠ 0 := by decide
theorem test_meets_RepOpensFrame : labRep.capture (labRep.pc + 4) 1 = .words [.tadd 5 1 2 0] ∧ lab.capture (lab.pc + 4) 1 = .content 0x1004
    ∧ ({ lab with core.unit.pc := 0x1FFFFC } : State).capture 0x200000 1 = .fetchFault .pageFault 0x200000 0 := by decide +kernel
theorem test_meets_Mailboxes : (labFull.mbox 3).full = true ∧ (lab.mbox 3).full = false := by decide

/-- A tile without poison, as `Tile.clean` asks. -/
theorem clean_of (t : Tile) (h : t.poison = 0) : t.clean := by intro i _; simp [Tile.bad, h]

theorem test_meets_ElementwiseResults : (elementTable (.tadd 5 1 2 0)).isSome = true ∧ (tile 1 [[0]]).clean ∧ isFloatCode (tile 1 [[0]]).fmt = true
    ∧ isIntCode (tile 9 [[0]]).fmt = true ∧ (tile 9 [[0]]).clean ∧ ({ tile 9 [[0], [0]] with poison := 2 } : Tile).bad 1 = true
    ∧ isFloatCode (tile 0 [[0]]).fmt = false ∧ isIntCode (tile 0 [[0]]).fmt = false :=
  ⟨by decide, clean_of _ rfl, by decide, by decide, clean_of _ rfl, by decide +kernel⟩
theorem test_meets_CompareAndSelect : (tile 1 [[0]]).clean ∧ (tile 9 [[0]]).clean ∧ (tile 1 [[0]]).scl = false ∧ isIntCode (tile 0x0D [[1]]).fmt = true
    ∧ holdsI 2 (-1) 0 ∧ holdsF 6 .nan .nan := ⟨clean_of _ rfl, clean_of _ rfl, rfl, by decide, by show (-1 : Int) < 0; decide, Or.inl rfl⟩
theorem test_meets_ConvertTiles : wellFormed (.tcvt 5 1 0 4) = true ∧ wellFormed (.tsc 5 1 4) = true ∧ floatOf 4 = some fp8e4 ∧ (tile 1 [[0]]).clean
    ∧ ((tile 1 [[0x7FC00000]]).val false 0 0).isNan = true ∧ ((tile 1 [[0]]).val false 0 0).isZero = true ∧ intRange 9 = some (-128, 127) :=
  ⟨by decide, by decide, by rfl, clean_of _ rfl, by decide +kernel⟩
theorem test_meets_MoveTiles : (tile 9 [[1]]).scl = false ∧ ({ tile 8 [[1]] with scl := true, scale := [127] } : Tile).scl = true := ⟨rfl, rfl⟩
theorem test_meets_Reductions : wellFormed (.tred 5 1 0 0 0 0) = true ∧ wellFormed (.tred 2 1 1 1 0 2) = true ∧ (tile 1 [[0]]).clean ∧ (tile 9 [[1, 2]]).cext ≤ 32
    ∧ isIntCode (tile 9 [[1, 2]]).fmt = true ∧ isFloatCode (tile 1 [[0]]).fmt = true := ⟨by decide, by decide, clean_of _ rfl, by decide +kernel⟩
theorem test_meets_FunctionsAndTests : (tile 1 [[0x7F800000]]).clean ∧ ((tile 1 [[0x7F800000]]).val false 0 0).isFinite = false ∧ (2 : BitVec 4).toNat < 8 :=
  ⟨clean_of _ rfl, by decide, by decide⟩
theorem test_meets_Sampling : isFloatCode (tile 1 [[0]]).fmt = true ∧ (tile 1 [[0]]).clean ∧ (tile 1 [[0]]).rext ≤ 32 ∧ (tile 1 [[0]]).cext ≤ 32 :=
  ⟨by decide, clean_of _ rfl, by decide, by decide⟩
theorem test_meets_MatrixResults : depthOf (tile 9 [[5], [0xFF]]) 0 = (tile 9 [[2, 3]]).cext ∧ (tile 9 [[5], [0xFF]]).scl = false ∧ (tile 9 [[2, 3]]).clean
    ∧ (tile 9 [[2, 3]]).fmt ∈ [0x09#5, 0x0A#5, 0x0D#5] ∧ (tile 0x0C [[10]]).fmt = 0x0C ∧ isFloatCode (tile 1 [[1]]).fmt = true :=
  ⟨by decide, rfl, clean_of _ rfl, by decide +kernel⟩
/-- The state of test_mmg. -/
def labGather : State :=
  withX ((withMem (labTiles noTile (tile 9 [[1], [1], [1]]) (tile 0x0C [[100]]) (tile 9 [[1]])) 0x2010 [0xFF, 5, 6])) [(10, 0x4800000000002000), (11, 0x0000030100000010)]
theorem test_meets_GatheredProduct : tagOk (labGather.x 10) = true ∧ isIntCode (labGather.t 4).fmt = true ∧ depthOf (labGather.t 2) 0 = shCols (labGather.x 11)
    ∧ okIs (labGather.gather (labGather.x 10) (labGather.x 11) (labGather.t 4) 1 3 0) (fun r => (placeRows 9 false false 1 3 r.1 none).poison == 0) = true := by decide +kernel
theorem test_meets_WeightUpdate : wellFormed (.tadw 4 1 2 3 6) = true ∧ (tile 1 [[0x40000000]]).fmt = 1 ∧ (tile 1 [[0x40000000]]).scl = false ∧ (tile 1 [[0x40000000]]).clean :=
  ⟨by decide, by decide, rfl, clean_of _ rfl⟩

theorem labData_inv : labData.Inv := inv_of_formed _ (by decide +kernel)
theorem test_meets_LoadResults : labData.Inv ∧ loadForm (.ld 4 1 2 0) = some (4, 1, 2, 0, true, 0) ∧ loadForm (.ldAcq 4 1 3 2) = some (4, 1, 3, 0, true, 2)
    ∧ okIs (labData.access .read false [(0x2000, 4)]) (fun m => m.allCached && (List.range 4).all (fun k => !labData.loadBad m .cache (0x2000 + k))) = true
    ∧ ((after (exec (.st 2 1 2 0) labData)).bind (fun t => youngestOverlap t.core.sb 0x2001 1 [⟨0x2001, 1⟩])).map (fun e => (e.kind.isScalar, e.cached, e.va, e.len)) = some (true, true, 0x2000, 4) :=
  ⟨labData_inv, by decide, by decide, by decide +kernel⟩
theorem test_meets_StoreRetirement : labData.Inv ∧ storeForm (.st 2 1 2 8) = some (2, 1, 2, 8, .scalar) ∧ labData.core.service = none ∧ labData.scalarStores ≤ 30
    ∧ okIs (labData.access .write false [(0x2008, 4)]) (fun m => m.allCached) = true :=
  ⟨labData_inv, by decide, rfl, by decide, by decide +kernel⟩
/-- A walk of two levels at 0x10000 and 0x14000 to a leaf of 16 GiB with rd, wr, ex and us, or with none of them (10 R261 to R263). -/
def labTable (leaf : Byte) (perm : Byte) : State :=
  { withX (withMem (withMem lab 0x10000 [3, 0x40, 1]) 0x14000 [leaf, perm]) [(1, 0x300000), (2, 9)] with core.tlb := [], parts := lab.parts.set 0 { labPart with troot := 0x10001 } }
theorem test_page_walk : sees (.pageWalk 0x300000 .write) (labTable 0xF5 1) (fun t => (t.mem.readNat 0x14000 8, t.core.tlb.map (fun e => (e.vbase, e.size))))
    = some (0x400000000009F5, [(0, 34)]) := by decide +kernel
theorem test_ld_walks : sees (.ld 4 1 0 0) (labTable 0xF5 1) (fun t => (t.pc, t.mem.readNat 0x14000 8)) = some (0x1004, 0x9F5)
    ∧ traps (.ld 4 1 0 0) (labTable 0x15 0) = some (0x13, 0x300000, 0x8000) := by decide +kernel
theorem test_meets_AccessTraps : 2 ^ 56 < addrOf (-4) + 2 ^ 3 ∧ trapIs (lab.access .read false [(0x1FFFFC, 8)]) .pageFault = true
    ∧ (labTable 0xF5 1).core.service = none ∧ (labTable 0xF5 1).tlbHit 0 0x300000 .read = none ∧ okIs ((labTable 0xF5 1).walk 0 0x300000) (fun x => x.pte.getLsbD 5 && x.pte.getLsbD 8) = true
    ∧ okIs ((labTable 0x15 0).walk 0 0x300000) (fun x => !x.pte.getLsbD 5) = true := by decide +kernel
/-- The stores that labData's unit may have retired. -/
def labStored (i : Instr) : State := (after (exec i labData)).getD lab
theorem test_meets_StoresArePerformed : (labStored (.st 2 1 2 0)).Inv ∧ (labStored (.st 2 1 2 0)).core.sb.map (fun e => (e.kind, e.cached)) = [(.scalar, true)]
    ∧ (labStored (.ared 1 2 2 3 0 7)).core.sb.map (fun e => (e.kind, e.writes)) = [(.ared 7 4 0x1122334455667788 true 3, [(0x2000, [])])] ∧ (labStored (.ared 1 2 2 3 0 7)).core.unacked = []
    ∧ (labStored (.stRel 2 1 0 3)).core.sb.map (·.kind) = [.release 3] :=
  ⟨inv_of_formed _ (by decide +kernel), by decide +kernel⟩
theorem test_meets_Atomics : labData.Inv ∧ Settled labData ∧ 0x2000 % 8 = 0 ∧ 0x2004 % 8 ≠ 0 ∧ labData.scalarStores < 32 ∧ labData.homeBad 0x2000 4 = false
    ∧ okIs (labData.access .readWrite true [(0x2000, 4)]) (fun m => m.pa 0x2000 == 0x2000) = true := ⟨labData_inv, ⟨rfl, rfl⟩, by decide +kernel⟩
theorem test_meets_Fences : labDirty.Inv ∧ Settled labDirty ∧ labDirty.x 3 = 0x99 ∧ 2 ^ 56 < addrOf (-1) + 2 ∧ labDirty.x 4 = 0
    ∧ okIs (labDirty.rangeBlocks none (blockCount 0x2000 0x99) 0x2000) (fun m => m.all (fun e => decide (12 ≤ e.2.size) && e.2.attr == 0)) = true :=
  ⟨inv_of_formed _ (by decide +kernel), ⟨rfl, rfl⟩, by decide +kernel⟩
theorem test_meets_RemoteAccesses : labPeer.Inv ∧ Settled labPeer ∧ labPeer.core.reply = none ∧ labPeer.core.remote = none
    ∧ okIs (labPeer.translateBlocks .readWrite true (blocksOf 0x40000 8)) (fun m => (labPeer.peerOf (m.pa 0x40000)).map labPeer.reachable == some true) = true
    ∧ (labPeer.peerOf 0xD800000000000).map ({ labPeer with dev.links := Dev.reset.links } : State).reachable = some false ∧ 0x40001 % 8 ≠ 0 :=
  ⟨inv_of_formed _ (by decide +kernel), ⟨rfl, rfl⟩, rfl, rfl, by decide +kernel⟩
theorem test_meets_TileLoads : labTile.Inv ∧ Settled labTile ∧ labTile.core.lsPoison = [] ∧ okIs (needShape 0 (labTile.x 1) (labTile.x 2)) (fun _ => true) = true
    ∧ okIs (needPointer (labTile.x 1) false true true 3) (fun _ => true) = true ∧ (∀ m, labTile.readable m)
    ∧ okIs (labTile.access .read true [(0x2000, 3), (0x2010, 3)]) (fun m => m.pa 0x2010 == 0x2010) = true ∧ okIs (labTile.needLocalFree 0x2000 19) (fun _ => true) = true
    ∧ isIntCode (tile 9 [[1, 0]]).fmt = true :=
  ⟨inv_of_formed _ (by decide +kernel), ⟨rfl, rfl⟩, rfl, by decide, by decide, fun m => (readable_of _ m rfl rfl rfl).1, by decide +kernel⟩
theorem test_meets_TileLoads_xe4 : let s := withX (withMem (withMem lab 0x2000 [8]) 0x2008 [0x70, 0x90]) [(1, 0x5800000000002000), (2, 0x0001020100000000)]
    ptrFmt (s.x 1) = xe4 ∧ Settled s ∧ okIs (s.xeRows (s.x 1) (s.x 2) ⟨1, 2, 1, 2⟩) (fun r => r.1.all (fun e => !e.bad)) = true := ⟨by decide, ⟨rfl, rfl⟩, by decide +kernel⟩
theorem test_meets_TileStores : labTile.Inv ∧ labTile.scalarStores < 32 ∧ ptrFmt (labTile.x 1) = (tile 9 [[1, 0x1FE], [3, 4]]).fmt ∧ (tile 9 [[1, 0x1FE], [3, 4]]).scl = false
    ∧ okIs (needPointer (labTile.x 1) false false false 2) (fun _ => true) = true ∧ okIs (labTile.access .write true [(0x2000, 2), (0x2010, 2)]) (fun m => m.all (fun e => decide (12 ≤ e.2.size))) = true :=
  ⟨inv_of_formed _ (by decide +kernel), by decide, by decide, rfl, by decide, by decide +kernel⟩

theorem labBeryl_inv : labBeryl.Inv := inv_of_formed _ (by decide +kernel)
theorem labPub_inv : labPub.Inv := inv_of_formed _ (by decide +kernel)
theorem test_meets_BerylReferences : Settled labBeryl ∧ (labBeryl.region 2).usable 0 = false ∧ (labBeryl.region 1).usable 0 = true ∧ (labBeryl.x 3 ++ labBeryl.x 2 : BitVec 128) = 0
    ∧ (labBeryl.x 9 ++ labBeryl.x 8 : BitVec 128) ≠ 0 ∧ (labBeryl.beryl.find 1 0x55).map (fun k => (k.counts.length, k.count 0)) = some (8, 1) ∧ labBeryl.beryl.find 1 0x3000 = none :=
  ⟨⟨rfl, rfl⟩, by decide +kernel⟩
theorem test_meets_BerylAllocation : labBeryl.Inv ∧ Settled labBeryl ∧ wellFormed (.bloa 4 6 1 1) = true ∧ (labBeryl.region 1).usable 0 = true
    ∧ okIs (labBeryl.access .read true [(0x8000, 2048)]) (fun m => m.all (fun e => decide (12 ≤ e.2.size))) = true ∧ (∀ g, labBeryl.badGranule g = false)
    ∧ labBeryl.beryl.deadChild 1 [0, 0x77] = some 1 ∧ labBeryl.beryl.deadChild 1 [0x55, 0] = none
    ∧ labBeryl.beryl.freeOrdinal 1 8 = some 0 ∧ labBeryl.beryl.freeBlock 1 64 = some 2 ∧ labBeryl.beryl.freeBlock 1 2 = none :=
  ⟨labBeryl_inv, ⟨rfl, rfl⟩, by decide, by decide, by decide +kernel, (readable_of _ [] rfl rfl rfl).2, by decide +kernel⟩
theorem test_meets_RootSlots : labPub.Inv ∧ Settled labPub ∧ 0x3000 % 32 = 0 ∧ 0x3008 % 32 ≠ 0 ∧ okIs (labPub.access .readWrite true [(0x3000, 32)]) (fun m => m.pa 0x3000 == 0x3000) = true
    ∧ labPub.homeBad 0x3000 32 = false ∧ (labBeryl.readRoot 0x3000).invalid = false ∧ (labBeryl.readRoot 0x3000).pub = false ∧ (labPub.readRoot 0x3000).pub = true
    ∧ (labBeryl.readRoot 0x3000).name = 0x99 ∧ (labPub.readRoot 0x3000).ver = 7 ∧ (labPub.readRoot 0x3000).region = 1 ∧ ((withMem labPub 0x3010 [0xFF, 0xFF]).readRoot 0x3000).ver = 0xFFFF
    ∧ ((withMem labPub 0x3013 [1]).readRoot 0x3000).invalid = true ∧ (labPub.beryl.find 1 0x55).isSome = true ∧ wellFormed (.bcas 4 1 8 0) = true :=
  ⟨labPub_inv, ⟨rfl, rfl⟩, by decide +kernel⟩
theorem test_meets_TreesAndPins : labBeryl.Inv ∧ Settled labBeryl ∧ okIs (labBeryl.access .read true [(0x3000, 32)]) (fun m => m.pa 0x3000 == 0x3000) = true
    ∧ (labBeryl.readRoot 0x3000).depth = 1 ∧ okIs (labBeryl.access .write true [(0x4000, 2048)]) (fun m => m.pa 0x4000 == 0x4000) = true
    ∧ leafFormat 9 0 = true ∧ labBeryl.leafFrom 1 1 0x99 3 = .at 0x55 0x180000 ∧ labBeryl.leafFrom 1 1 0x99 2 = .null ∧ labBeryl.leafBad (.at 0x55 0x180000) 0 = false
    ∧ (labPub.readRoot 0x3000).ver ≠ 0 ∧ labPub.pinsThis 0x3000 7 = false ∧ labPub.beryl.freePin = some 0
    ∧ ({ labPub.setK { labPub.k with vpin := 0x3130007 } with beryl.pins := [⟨3, 0, 0x3000, 7, 0x99, 1, 1, 1⟩] } : State).pinsThis 0x3000 7 = true :=
  ⟨labBeryl_inv, ⟨rfl, rfl⟩, by decide +kernel⟩
theorem labCopy_inv : labCopy.Inv := inv_of_formed _ (by decide +kernel)
theorem test_meets_CommandsIssue : labCopy.Inv ∧ labCopy.inFlight < 32 ∧ copyForm (.bcpLd 1 2 3) = some (1, 2, 3, true, false) ∧ insideSpace true 0x2000 8 ∧ insideSpace false 0x100 8
    ∧ okIs (labCopy.bcpMap true .read 0x2000 8) (fun m => m.pa 0x2000 == 0x2000) = true ∧ okIs (labCopy.bcpMap false .write 0x100 8) (·.isEmpty) = true
    ∧ okIs (labCopy.barrierMap 0x2800) (fun m => okIs (labCopy.needPhys false 0x2800 m) (fun _ => true)) = true
    ∧ labGroup.launch?.map (fun l => l.record.cls) = some 2 ∧ okIs (labGroup.engineMap .read 0x2400 8) (fun m => okIs (labGroup.needPhys false 0x2400 m) (fun _ => true)) = true
    ∧ okIs (labObject.credMaps 1 2 6 false) (fun m => m.2.2.pa 0x2600 == 0x2600) = true ∧ bits (labObject.mem.read64 0x2610) 10 0 = 2 ∧ labObject.homeBad 0x2600 64 = false
    ∧ okIs (labDrive.engineMap .read 0x3000 4096) (fun m => m.pa 0x3000 == 0x3000) = true ∧ ((labDrive.partAt 0).drives.toList.getD 2 ⟨false, 0, 0, 0⟩).dv = true :=
  ⟨labCopy_inv, by decide, by decide, by unfold insideSpace; simp, by unfold insideSpace; simp, by decide +kernel⟩
theorem test_meets_Streams : let s := withX labCopy [(6, 0x800200), (7, 2)]
    s.Inv ∧ s.inFlight < 32 ∧ 8 ≤ bits (s.x 6) 23 20 ∧ bits (s.x 7) 31 0 ≠ 0 ∧ (s.stream 1).bound = false ∧ s.ringClash 0x200 256 = none ∧ okIs (s.engineMap .read 0x2000 8) (fun m => m.pa 0x2000 == 0x2000) = true
    ∧ labStream.Inv ∧ (labStream.stream 1).bound = true ∧ (labStream.stream 1).arrived = 0 ∧ (labStream.stream 1).canFill = true
    ∧ runsSlice (labStream.stream 1).data.runs 0 4 = [⟨0x2000, 4⟩] ∧ labStream.peerOf 0x2000 = none ∧ labStream.physOk 0x2000 = true
    ∧ (after (exec (.streamElementFill 1) labStream)).map (fun t => (decide ((t.stream 1).arrived ≠ 0), (t.stream 1).data.bad)) = some (true, []) :=
  ⟨inv_of_formed _ (by decide +kernel), by decide, by decide, by decide, by decide, by decide, by decide +kernel, inv_of_formed _ (by decide +kernel), by decide +kernel⟩
theorem test_meets_Barriers : labBar.Inv ∧ Settled labBar ∧ 0x2800 % 32 = 0 ∧ okIs (labBar.access .readWrite true [(0x2800, 32)]) (fun m => m.pa 0x2800 == 0x2800) = true
    ∧ bits (0x10003 : Word64) 15 0 ≠ 0 ∧ (∀ g, labBar.badGranule g = false) ∧ labBar.readBarrier 0x2800 = ⟨0, true, false, false, 1, 2, false, false, false, 0, 0⟩
    ∧ (lab.readBarrier 0x2800).exp = 0 := ⟨inv_of_formed _ (by decide +kernel), ⟨rfl, rfl⟩, by decide, by decide +kernel, by decide, (readable_of _ [] rfl rfl rfl).2, by decide +kernel, by decide +kernel⟩
theorem test_meets_EngineEvents : labBar.Inv ∧ labBar.homeBad 0x2800 32 = false
    ∧ ((after (exec (.bcpLd 1 2 3) labCopy)).bind (fun t => t.cmd 0)).map (fun c => (c.kind, c.barrier, chunkOk 0x100 8 0 8 [], chunkOk 0x100 8 0 9 [])) = some (.bcp (.mem [⟨0x2000, 8⟩]) (.ls 0x100) 0x100 8 [], none, true, false)
    ∧ (labExchange.cmd 5).map (·.kind) = some (.a2a false [⟨0x2400, 8⟩] 0 0x1000 16 1 none 0) ∧ permWord false 0x321 = true ∧ permWord false 0x322 = false ∧ schedTo 0x321 3 = 0
    ∧ labExchange.peerOf 0x2400 = none ∧ labExchange.physOk 0x2400 = true ∧ (∀ g, labExchange.badGranule g = false)
    ∧ (labOfld.cmd 4).map (fun c => (c.id, c.kind, labOfld.cmdPort c)) = some (4, .ofld true 2 0x123 [⟨0x3000, 4096⟩] 1 1 [] [], some 1) ∧ labOfld.physOk 0x3000 = true :=
  ⟨inv_of_formed _ (by decide +kernel), by decide +kernel, by decide +kernel, by decide, by decide, by decide, by decide, by decide, by decide +kernel, (readable_of _ [] rfl rfl rfl).2, by decide, by decide +kernel⟩
/-- A contribution that has read its source, and one that has not (13 R353). -/
theorem test_cred_contribution : ((after (exec (.credContribution (.own 3 true)) { labObject with core.cmds := [⟨3, .cred 0x2600 (.ls 0x100) 0 2 (some [some 5, some 0, some 0, some 0, some 6, some 0, some 0, some 0]), none, 0, 7, 1, false, [], [], []⟩], core.tlb := [], parts := lab.parts.set 0 { labPart with troot := 0x10001 }, mem := (labObject.mem.write 0x10000 [3, 0x40, 1]).write 0x14000 [0xF5, 1] })).map
    (fun t => (t.core.cmds.length, t.mem.readNat 0x2600 8, t.mem.readNat 0x2680 8))) = some (0, 0x1000020001, 0x600000005) := by decide +kernel
theorem test_meets_LaunchInstructions : labPool.Inv ∧ labPool.x 1 = 2 ∧ (labPart.launches.any (fun l => l.entry == some 2)) = false ∧ ¬bits (labPool.x 5) 11 0 < min labPart.poolsize.toNat 4096
    ∧ okIs (labPool.validate 0 (labPool.readRec 0x100100)).1 (fun ks => ks.isEmpty) = true ∧ (labPart.named 1 1).length = 1 ∧ (labPart.named 1 2) = [] ∧ (labPart.current 7).isSome = true
    ∧ labPart.current 8 = none ∧ labSliced.launch?.map (fun l => (l.record.smode, l.remaining)) = some (true, 4) ∧ lab.launch?.map (fun l => l.record.smode) = some false ∧ Settled lab
    ∧ mergeFormat 0 0x6000000000002000 = true ∧ wellFormed (.lpat 1 2 1 12) = true :=
  ⟨inv_of_formed _ (by decide +kernel), by decide, by decide, by decide, by decide +kernel, by decide, by decide, by decide, by decide, by decide, by decide, ⟨rfl, rfl⟩, by decide, by decide⟩
theorem test_meets_Messages : labPart.qmask.getLsbD 1 = true ∧ bits (0x80 : Word64) 63 7 ≠ 0 ∧ lab.launch?.map (fun l => l.record.units) = some 4 ∧ lab.core.net.length < 8
    ∧ ({ lab with core.net := List.replicate 8 ⟨false, 1, 5, 9, 0, 1, 7, false⟩ } : State).core.net.length = 8
    ∧ ({ lab with core.net := [⟨false, 0, 5, 9, 0, 1, 7, false⟩] } : State).msgFirst 0 = true ∧ lab.runsUnit 0 0 = true ∧ lab.runsUnit 0 1 = false ∧ (lab.mbox 5).full = false := by decide
theorem test_meets_SystemRegisters : lab.k.pl = 0 ∧ (labAt 1).k.pl = 1 ∧ (labAt 2).k.pl.toNat = 2 ∧ (labAt 2).dev.l2.switching = none ∧ (labAt 2).dev.badEntry ((labAt 2).readTable 0) = none
    ∧ (∀ g ∈ ({ labAt 2 with dev.l2.slices := Vector.replicate 32 1 } : State).dev.l2.slices.toList, g.toNat = bits (1 : Word64) 3 0) ∧ (labAt 1).heldPages = [] ∧ Settled (labAt 1)
    ∧ ({ labAt 2 with mem := lab.mem.write 0x20008 [0, 0, 0, 0, 1] } : State).readTable 0x20 ≠ [] := ⟨by decide, by decide, by decide, rfl, by decide, by decide, by decide, ⟨rfl, rfl⟩, by decide +kernel⟩
theorem test_meets_TrapsAndReturns : (lab.setK { lab.k with tvec := 0x8000 }).k.tvec ≠ 0 ∧ (labAt 1).k.pl ≠ 0 ∧ bits (labAt 1).k.tcause 8 7 = 0 ∧ (labAt 1).k.epc.toNat % 4 = 0 ∧ (labAt 1).k.v = false
    ∧ (0x2001 : Word64).toNat % 4 ≠ 0 ∧ (steps 1 labRep).map (fun t => (t.k.v, decide (t.k.pos ≤ t.k.n1), t.capture (t.k.frameAddr 0) (t.k.n1 + 1))) = some (true, true, .words [.tadd 5 1 2 0]) := by decide +kernel
theorem test_meets_MemorySystemEvents : lab.Inv ∧ ({ lab with dev.cxl := [0x100000, 0, 0, 0] } : State).wayExists 4 1 = true ∧ lab.dev.portDown.getLsbD 0 = false
    ∧ ({ lab with dev.granules := [(9, .correctable)] } : State).dev.granule 9 = some .correctable ∧ lab.mgmt.boot ≠ .recovery ∧ lab.physOk 0x2000 = true
    ∧ ({ labPeer with parts := lab.parts.set 0 { labPart with windows := labPart.windows.set 0 ⟨0x200F, 1⟩ } } : State).acceptor 3 0 0x2000 (.put [9]) = some 0
    ∧ labPeer.acceptor 3 0 0x2000 (.put [9]) = none
    ∧ ({ labPeer with core.unacked := (labStored (.st 2 1 2 0)).core.sb } : State).core.unacked.map (fun e => (e.va, e.task, e.launch)) = [(0x2000, 7, 1)] :=
  ⟨inv_of_formed _ (by decide +kernel), by decide +kernel⟩
theorem test_meets_BerylEvents : let s : State := { labBeryl with beryl := { labBeryl.beryl with blocks := [⟨1, 0, 0x200, false, List.replicate 8 0, 0, true⟩], queue := [(1, 0x200)] } }
    s.beryl.queue.find? (fun e => ownerOf e.2 == 4) = some (1, 0x200) ∧ s.beryl.queue.find? (fun e => ownerOf e.2 == 0) = none ∧ (s.beryl.find 1 0x200).map (fun k => (k.node, k.counts)) = some (false, List.replicate 8 0)
    ∧ ({ s with core.oldPins := [3], beryl.pins := [⟨3, 0, 0x3000, 7, 0x99, 1, 1, 2⟩] } : State).beryl.pins.find? (fun p => p.entry == 3) = some ⟨3, 0, 0x3000, 7, 0x99, 1, 1, 2⟩ := by decide
theorem test_meets_Pipeline : ready lab = true ∧ okIs (lab.fetchWord 0x1000) (fun _ => true) = true ∧ (lab.fetchWord 0x200000).toOption = none ∧ lab.core.run ≠ .idle
    ∧ okIs ((labTable 0xF5 1).walk 0 0x300000) (fun x => okIs (leafCheck x .read 0 false) (fun _ => true)) = true
    ∧ okIs ((labTable 0x15 0).walk 0 0x300000) (fun x => !okIs (leafCheck x .read 0 false) (fun _ => true)) = true
    ∧ lab.core.rob.length < 256 ∧ (robOf 4 (.tadd 1 2 3 0) none false).waits = true ∧ (robOf 4 (.tadd 1 2 3 0) (some 3) false).waits = false ∧ lab.dev.freeMerge = some 0 := by decide +kernel
theorem test_meets_UnitsAndLaunches : lab.Inv ∧ labPart.en = true ∧ labPart.held = false ∧ (lab.freeCores 0).head? = some 1 ∧ labPart.reserve = none ∧ (lab.choose 0).map (fun c => (c.launch.id, c.launch.record.cls, c.launch.nextUnit)) = some (1, 0, 1)
    ∧ ({ lab with parts := lab.parts.set 0 { labPart with qmask := 0 } } : State).freeCores 0 = [] ∧ (labPart.findUnit 7).map (fun e => e.2.place) = some .here
    ∧ (labPart.launch 1).map (fun l => (l.endedUnits, l.units.length, l.record.ccaddr)) = some (0, 1, 0)
    ∧ (labGroup.choose 0).map (fun c => (c.launch.record.cls, c.launch.nextUnit)) = some (2, 1) :=
  ⟨inv_of_formed _ (by decide +kernel), by decide, by decide, by decide +kernel, rfl, by decide +kernel⟩
/-- A unit that waits in slot 0, with nothing resident. -/
def labSaved : State := ((after (exec (.eviction 0 7 0) { labFull.setX 9 0xABC with core.evictReq := some .supervisor })).getD lab)
theorem test_meets_EvictionAndRestoration : (labPart.findUnit 7).isSome = true ∧ Settled labFull ∧ ({ labFull with core.evictReq := some .slice } : State).evictMask 0 = some 0xFFFF
    ∧ (lab.partAt 0).savecnt.toNat = 2 ∧ (labPart.findUnit 7).map (fun e => e.1.record.ibt) = some 0
    ∧ ((labSaved.partAt 0).saved.map (fun v => (v.slot, v.task, v.susp)), (labSaved.partAt 0).findUnit 7 |>.map (fun e => (e.2.place, labSaved.mayRestore 0 e.1, (labSaved.placement 0 e.1).contains 0))) = ([(0, 7, none)], some (.saved 0, true, true))
    ∧ ((labSaved.partAt 0).saved.all (fun v => (labSaved.slotCtx 0 v 0).restorable && v.image)) = true ∧ (lab.freeCores 0).contains 2 = true :=
  ⟨by decide, ⟨rfl, rfl⟩, by decide +kernel⟩
theorem test_meets_RingsAndPartitions : labSem.guarded (.port 0) = true ∧ labSem.guarded (.port 1) = false
    ∧ labPart.rings[2].shead = labPart.rings[2].stail ∧ 2 ^ 4 < (17 - 0 : BitVec 32).toNat ∧ labPart.evRoom = true ∧ labPart.faultRoom = true ∧ labPart.unitsOn 0 1 = [] ∧ labPart.unitsOn 0 0 ≠ []
    ∧ isFirmware (.port 0) = false := by decide
theorem test_meets_ControlRegisters : labSem.dev.sem.held = true ∧ labSem.dev.sem.owner = 0 ∧ lab.dev.sem.held = false ∧ lab.dev.clk.pend = false
    ∧ (List.finRange 8).all (fun p => !State.reset.parts[p].en) = true ∧ State.reset.inFlight = 0 := by decide
theorem test_meets_Observation : labRing.obs.pulseRing.fits labRing.pulseBytes.length = true ∧ lab.obs.pulseRing.fits lab.pulseBytes.length = false ∧ ({ lab with obs.snap := { lab.obs.snap with due := some 1 } } : State).obs.snap.due = some 1
    ∧ (lab.obs.written[2].ctl).extractLsb' 4 3 = BitVec.ofFin (0 : Fin 8) ∧ (lab.obs.written[2].ctl).extractLsb' 4 3 ≠ BitVec.ofFin (3 : Fin 8) := by decide +kernel
theorem test_meets_Management : lab.mgmt.lock = false ∧ lab.mgmt.busy = false ∧ lab.mgmt.boot = .booting ∧ lab.exists? 0x3000 = true ∧ 0x3000 % 128 = 0 ∧ labSem.guarded (.port 0) = true ∧ lab.mgmt.bootSlot = none
    ∧ lab.mayRaise 5 [] [] = false ∧ ({ lab with mgmt.boot := .recovery } : State).mgmt.boot = .recovery := by decide +kernel

/-! The clauses that the first witnesses do not meet. -/

/-- The forms of RetirementRule: each family's conditions in a state of its own. -/
theorem test_meets_FormsA : lab.k.rf = false ∧ wellFormed (.fcvt 3 1 0 5 2) = true ∧ (labTiles (tile 1 [[0]]) (tile 1 [[0]]) (tile 1 [[0]]) (tile 1 [[0]])).t 1 = tile 1 [[0]]
    ∧ wellFormed (.tadw 4 1 2 3 6) = true ∧ (tile 1 [[0]]).fmt ∈ [1#5, 2, 3] ∧ (lab.core.net.filter (fun k => k.part == lab.core.unit.ident.part && k.task == lab.core.unit.ident.task)).length < 8
    ∧ bits (0x11 : Word64) 63 7 = 0 ∧ labPart.qmask.getLsbD (bits (0x11 : Word64) 6 4) = true ∧ (lab.launch?.map (fun l => decide (3 < l.record.units))) = some true
    ∧ lab.inFlight < 32 ∧ (labCopy.x 3).toNat = 8 ∧ overlap 0x2000 8 0x2100 8 = false
    ∧ okIs (labCopy.bcpMap true .write 0x2100 8) (fun m => m.pa 0x2100 == 0x2100) = true ∧ okIs (labCopy.bcpMap false .read 0x100 8) (·.isEmpty) = true
    ∧ okIs (labCopy.barrierMap 0x2800) (fun m => okIs (labCopy.needPhys false 0x2800 m) (fun _ => true)) = true := by
  refine ⟨by decide, by decide +kernel⟩
theorem test_meets_FormsB : (labBar.dev.barCycle = none) ∧ Settled labBar ∧ labBar.k.rf = false ∧ okIs (labBar.access .readWrite true [(0x2800, 32)]) (fun m => m.pa 0x2800 == 0x2800) = true
    ∧ (labBar.readBarrier 0x2800).exp ≠ 0 ∧ (labBar.readBarrier 0x2800).arr < (labBar.readBarrier 0x2800).exp ∧ (labBar.readBarrier 0x2800).ndrop < (labBar.readBarrier 0x2800).exp
    ∧ -2 ^ 23 ≤ (labBar.readBarrier 0x2800).pend + (labBar.x 2).toInt ∧ (labBar.readBarrier 0x2800).phase ≠ (1 : Word64).getLsbD 0 :=
  ⟨rfl, ⟨rfl, rfl⟩, by decide +kernel⟩
/-- The state of test_smrg. -/
def labMerge : State :=
  withX (withMem (withMem lab 0x2000 [1, 0, 0, 0, 2]) 0x2008 [10, 0, 0, 0, 20]) [(10, 0x6000000000002000), (11, 0x0002020100000008)]
theorem test_meets_FormsC : Settled labMerge ∧ mergeFormat 0 (labMerge.x 10) = true ∧ shRows (labMerge.x 11) = 1 ∧ shCols (labMerge.x 11) = 2 ∧ shAux (labMerge.x 11) = 2
    ∧ okIs (labMerge.access .read true ((rowAddrs 0x2000 8 2).map (rowRanges (rowSpan 0x0C 0 false 2) 2)).flatten) (fun m => m.pa 0x2008 == 0x2008) = true ∧ (∀ m, labMerge.readable m)
    ∧ labPool.x 1 = 2 ∧ labPart.launches.all (fun l => l.entry != some 2) = true ∧ Settled labPool ∧ labSliced.launch?.map (fun l => l.record.smode) = some true ∧ (labAt 1).k.pl ≠ 0 :=
  ⟨⟨rfl, rfl⟩, by decide, by decide, by decide, by decide, by decide +kernel, fun m => (readable_of _ m rfl rfl rfl).1, by decide, by decide, ⟨rfl, rfl⟩, by decide, by decide⟩
/-- A cycle of barrier operations is open at the barrier, and its end is due (13 R337). -/
theorem test_meets_BarrierCycle : ({ labBar with dev.barCycle := some ⟨0x2800, (0, 0)⟩ } : State).core.num.toNat = 0 ∧ Settled { labBar with dev.barCycle := some ⟨0x2800, (0, 0)⟩ }
    ∧ ({ labBar with dev.barCycle := some ⟨0x2800, (0, 1)⟩, agenda := [.barrierCycleEnd] } : State).homeBad 0x2800 32 = false
    ∧ (after (step { labBar with dev.barCycle := some ⟨0x2800, (0, 1)⟩, agenda := [.barrierCycleEnd] })).map (fun t => (t.dev.barCycle, t.agenda.length)) = some (none, 0) :=
  ⟨by decide, ⟨rfl, rfl⟩, by decide +kernel, by decide +kernel⟩
theorem test_meets_EngineTurns : (labExchange.cmd 5).map labExchange.mayStart = some true ∧ labExchange.cutOff 0x2600 = false ∧ labBar.dev.barCycle = none
    ∧ ((after (exec (.bcpLd 1 2 3) labCopy)).bind (fun t => t.cmd 0)).map (fun c => (c.moved, c.lsRanges)) = some ([], [(0x100, 8)]) := by decide +kernel
/-- Unit 1 of the launch left for core 2, where its context is not yet installed (14 R391). -/
theorem test_meets_MessageMoves : let l : Launch := { labLaunch with units := [UnitRec.start 0 .here 0, UnitRec.start 1 (.elsewhere 2) 2] }
    let s : State := { lab with core.net := [⟨true, 1, 5, 9, 0, 1, 7, false⟩], core.forward := [⟨0, 8, 2, false⟩], parts := lab.parts.set 0 { labPart with launches := [l] } }
    (s.partAt 0).launch 1 = some l ∧ l.units.find? (fun r => r.u == 1) = some (UnitRec.start 1 (.elsewhere 2) 2) ∧ BitVec.ofNat 32 (l.record.tbase + 1) = 8
      ∧ sees (.messageArrival (.delivered 0)) s (fun t => t.core.net.map (·.refused)) = some [true] := by decide +kernel
/-- Launches for the choices of 09 R232 and R233: a freed core, an urgent launch with no core free, and a parked unit. -/
def labTurns : State := { lab with parts := lab.parts.set 0 { labPart with launches := [{ labLaunch with turns := [1] }] } }
@[inherit_doc labTurns] def labUrgent : State :=
  { lab with parts := lab.parts.set 0 { labPart with qmask := 0, launches := [labLaunch, { labLaunch with id := 9, words := labLaunch.words.set 4 0x1C00000000, units := [], nextUnit := 0 }] } }
@[inherit_doc labTurns] def labParked : State := { lab with core.run := .suspended ⟨4, false, false, 1, 0⟩, parts := lab.parts.set 0 { labPart with qmask := 0 } }
theorem test_meets_UnitChoices : ((labTurns.partAt 0).turnOf 1).map (·.id) = some 1 ∧ 1 ∈ labTurns.emptyCores 0 ∧ 0 ∉ labTurns.emptyCores 0 ∧ labUrgent.freeCores 0 = []
    ∧ ((labUrgent.urgent 0).bind (labUrgent.victim 0)) = some 7 ∧ ((labParked.urgent 0).bind (labParked.victim 0)) = none ∧ labParked.parked 0 = [7]
    ∧ labParked.freeCores 0 = [] ∧ ((labUrgent.partAt 0).turnOf 1) = none := by decide +kernel
/-- Concurrent launches with cores for all their units, and with too few; a counter whose page the dispatcher keeps. -/
def labWhole (units : Word64) : State :=
  { lab with core.run := .idle, parts := lab.parts.set 0 { labPart with qmask := 1, launches := [{ labLaunch with words := ((labLaunch.words.set 4 0x200000000).set 2 (units + 2 ^ 32)).set 6 0x2500, units := [], nextUnit := 0, phase := .ready, xlat := [(2, 0x2000, 12)] }] } }
theorem test_meets_ConcurrentStarts : ((labWhole 4).choose 0).map (fun c => (c.launch.record.cls, c.launch.nextUnit, c.launch.record.units, ((labWhole 4).placement 0 c.launch).length)) = some (2, 0, 4, 16)
    ∧ ((labWhole 20).choose 0).map (fun c => (c.launch.record.units, ((labWhole 20).placement 0 c.launch).length)) = some (20, 16)
    ∧ ((labWhole 4).partAt 0).launches.map (fun l => (l.record.ccaddr, (l.xlat.find? (fun k => k.1 == l.record.ccaddr / 4096)))) = [(0x2500, some (2, 0x2000, 12))] := by decide +kernel
/-- A unit on core 2 whose eviction is requested, and a concurrent launch whose unit is saved. -/
def labFar : State :=
  { lab with parts := lab.parts.set 0 { labPart with launches := [{ labLaunch with units := [UnitRec.start 0 (.elsewhere 2) 2] }], evictReqs := [(7, .supervisor)] } }
@[inherit_doc labFar] def labGroupSaved : State :=
  { labSaved with parts := labSaved.parts.set 0 { labSaved.partAt 0 with launches := (labSaved.partAt 0).launches.map (fun l => { l with words := l.words.set 4 0x200000000 }) } }
theorem test_meets_EvictionClauses : let s : State := { labFull with core.evictReq := some .supervisor }
    s.evictTurn 0 7 = true ∧ (List.range 18).all (fun j => s.physHome (0x160000 + 0x1000 * j)) = true
    ∧ ((s.partAt 0).findUnit 7).map (fun e => s.mustMigrate 0 e.1 e.2) = some false
    ∧ (labFar.partAt 0).evictReqs = [(7, .supervisor)] ∧ labFar.evictTurn 0 7 = true ∧ ((labFar.partAt 0).findUnit 7).map (fun e => (e.2.place, labFar.mustMigrate 0 e.1 e.2)) = some (.elsewhere 2, false)
    ∧ ((labSaved.partAt 0).findUnit 7).map (fun e => (e.1.units.find? (fun k => k.place == .saved 0)) == some e.2) = some true
    ∧ lab.mgmt.boot ≠ .recovery ∧ lab.mgmt.boot ≠ .tripped := by decide +kernel
theorem test_meets_GroupRestoration : ((labGroupSaved.partAt 0).findUnit 7).map (fun e => (e.1.record.cls, labGroupSaved.mayRestore 0 e.1, decide (1 ≤ (labGroupSaved.placement 0 e.1).length))) = some (2, true, true)
    ∧ (labGroupSaved.partAt 0).saved.map (fun v => (v.launch, v.image, (labGroupSaved.slotCtx 0 v 0).restorable)) = [(1, true, true)] := by decide +kernel
theorem test_meets_HostRequests : let s : State := { lab with dev.requests := [⟨2, 0, deviceBase + 0x100118, some 5⟩, ⟨0, 1, deviceBase + 0x100050, some 3⟩, ⟨0, 0, deviceBase + 0x100050, some 4⟩] }
    (s.serveHost 0).dev.requests = [⟨2, 0, deviceBase + 0x100118, some 5⟩, ⟨0, 0, deviceBase + 0x100050, some 4⟩] ∧ ((s.serveHost 0).partAt 0).evtail = 3 ∧ (∀ h ∈ s.dev.requests, h.quadrant ≠ 5)
    ∧ lab.physHome 0x140000 = true ∧ lab.physHome 0x150000 = true ∧ lab.mgmt.boot = .booting := by decide +kernel
/-- A reorder buffer with a producer and its consumer, and a tile with a name key whose product may stack. -/
def labQueue : State := { lab with core.rob := [robOf 4 (.tadd 1 2 3 0) (some 3) false, robOf 5 (.tadd 4 1 3 0) none false] }
@[inherit_doc labQueue] def labStack : State :=
  { labTiles (tile 9 [[2, 3]]) { tile 9 [[5], [6]] with key := some (.name 1 0x55 9 0 false 2 1) } (tile 0x0C [[10]]) noTile with core.rob := [robOf 6 (.mma 5 1 2 3 1 0) none false] }
theorem test_meets_PipelineIssue : lab.fetchPc = 0x1000 ∧ lab.core.front.decoded = [] ∧ lab.dispatchNext = none ∧ (steps 1 labRep).map (fun t => t.dispatchNext.isSome) = some true
    ∧ ({ lab with core.front.decoded := [(0x1000, .tadd 1 2 3 0, 0x1004)] } : State).dispatchNext = some (0x1000, .tadd 1 2 3 0, 0x1004, none)
    ∧ headOnly (.tadd 1 2 3 0) = false ∧ lab.touches (.tadd 1 2 3 0) = [] ∧ ({ lab with core.rob := [robOf 4 (.tadd 1 2 3 0) none false] } : State).offerOf (robOf 4 (.tadd 1 2 3 0) none false) = none
    ∧ shares (tWrites (.tadd 1 2 3 0)) (tSources (.tadd 4 1 3 0)) = true ∧ sees (.issue .vector none) labQueue (fun t => t.core.rob.map (·.engine)) = some [some 3, none] := by decide +kernel
theorem test_meets_PipelineStacks : ((labStack.offerOf (robOf 6 (.mma 5 1 2 3 1 0) none false)).map (fun o => (o.tag, o.rows, o.k, o.hold))) = some (6, 1, 2, 64)
    ∧ labStack.matrixPasses (.mma 5 1 2 3 1 0) = true ∧ labStack.stackAhead 6 = false ∧ labStack.dev.merge = []
    ∧ sees (.issue .matrix none) labStack (fun t => (t.core.rob.map (·.stacked), t.dev.merge.map (fun e => e.offers.length))) = some ([some 0], [1]) := by decide +kernel
theorem test_meets_PipelineMerges : let o : StackOffer := ⟨1, 9, .name 1 0x55 9 0 false 2 1, 9, 2, false, false, 1, 0, 0, 64⟩
    (lab.mergeMatch o).isNone = true ∧ lab.dev.freeMerge = some 0
    ∧ (({ lab with dev.merge := [⟨3, [{ o with core := 2 }], false⟩] } : State).mergeMatch o).map (fun e => (e.id, e.rows)) = some (3, 1)
    ∧ ({ lab with dev.merge := [⟨3, [o], true⟩] } : State).dev.merge.find? (fun e => e.id == 3 && e.dispatched) = some ⟨3, [o], true⟩
    ∧ sees (.stackedOperationIssue 3) { lab with dev.merge := [⟨3, [{ o with core := 0 }], true⟩] } (fun t => (t.core.busy, t.dev.merge.length)) = some ([2], 0) := by decide +kernel
theorem test_meets_PipelineLeaves : ({ lab with core.rob := [robOf 4 (.addi 1 0 5) none false] } : State).core.rob.head? = some (robOf 4 (.addi 1 0 5) none false)
    ∧ ((after (exec (.addi 1 0 5) lab)).map (fun t => (t.pc, decide (t.core.retired ≠ lab.core.retired)))) = some (0x1004, true)
    ∧ ((after (exec (.j 4) lab)).map (fun t => decide ((robOf 4 (.j 4) none false).next ≠ t.pc))) = some true := by decide
theorem test_meets_MemoryEvents : lab.dev.hier.swapAt ≤ 0 ∧ ({ lab with dev.hier.swapAt := 2 } : State).dev.hier.swapAt = 2 ∧ ({ lab with dev.l2.switching := some (1, []) } : State).dev.l2.slices[3] ≠ (1 : Word64).setWidth 4
    ∧ ({ lab with dev.l2.handoffs := [(7, 5)] } : State).dev.l2.handoffs.find? (fun e => e.1 == 7) = some (7, 5)
    ∧ sees (.lineHandoff 7) { lab with dev.l2.handoffs := [(7, 5)] } (fun t => (t.dev.hier.recorded 7, t.dev.l2.handoffs)) = some (5, [])
    ∧ ({ lab with dev.l2.switching := some (1, []), dev.l2.slices := lab.dev.l2.slices.set 3 1 } : State).dev.l2.slices[3] = (1 : Word64).setWidth 4
    ∧ labPeer.cutOff 0xD800000000000 = false ∧ ({ labPeer with core.remote := some ⟨0x40000, 0xD800000000000, .get 8⟩ } : State).core.reply = none := by decide +kernel
theorem test_meets_FrontTraps : ({ lab with core.exempt := true } : State).core.run = .running ∧ okIs (lab.fetchWord lab.pc) (fun w => (decode w.1).toOption.isNone) = true
    ∧ ((({ lab with core.unit.pc := 0x200000 } : State).fetchWord 0x200000).toOption = none) ∧ ({ labWord with core.exempt := true } : State).frontTrap.isNone = true := by decide +kernel
theorem test_meets_StreamSource : let s := withX labCopy [(6, 0x800200), (7, 2)]
    okIs (s.engineMap .read 0x2000 8) (fun m => okIs (s.needSource 0x2000 m) (fun _ => true)) = true ∧ labStream.core.cmds = [] ∧ labStream.badGranule (granuleOf 0x2000) = false := by decide +kernel
theorem test_meets_NodeReclaim : (labBeryl.beryl.find 1 0x99).map (fun k => (k.node, labBeryl.childName (labBeryl.blockPa k) 3)) = some (true, 0x55)
    ∧ (labBeryl.beryl.find 1 0x55).map (fun k => decide (k.count 0 < 2 ^ 28 - 1)) = some true ∧ labBeryl.dev.portDown = 0 := by decide +kernel

/-! The clauses on special values, refused fields, homes that hold requests, and units that stand still. -/

theorem test_meets_FloatCorners :
    let x (v : Word64) : FVal := floatOperand fp32 (withX lab [(1, v)]) 1
    (x 0x7FC00000).isNan = true ∧ x 0x7F800000 = .inf false ∧ x 0xFF800000 = .inf true ∧ (x 0x80000000).isZero = true ∧ (x 0x3F800000).isNan = false
      ∧ (match x 0xBF800000 with | .fin true m _ => decide (m ≠ 0) | _ => false) = true
      ∧ (match x 0x80000000 with | .fin true m _ => decide (m = 0) | _ => false) = true := by decide
theorem test_meets_ScaleAndSums :
    (match (tile 1 [[0x40000000]]).val false 0 0 with | .fin _ m p => decide (m ≠ 0 ∧ (m.log2 : Int) + p = 1) | _ => false) = true
      ∧ outside32 0x0C (2 ^ 31) ∧ ¬outside32 0x0F (2 ^ 31) := by
  refine ⟨by decide +kernel, ?_, ?_⟩ <;> simp [outside32]
theorem test_meets_FunctionPoints :
    let x (v : Word32) : FVal := (tile 1 [[v]]).val false 0 0
    x 0x3F800000 = fp32.read false 0x3F800000 ∧ (x 0x43000000).lt (FVal.ofInt 128) = false ∧ (FVal.ofInt (-150)).lt (x 0xC3160000) = false
      ∧ (match x 0xBFC00000 with | .fin g m p => g && decide (m * 2 ^ (p + 149).toNat = 3 * 2 ^ 148) | _ => false) = true
      ∧ (match x 0x80000000 with | .fin g m p => g && decide (m * 2 ^ (p + 149).toNat = 0 * 2 ^ 148) | _ => false) = true := by decide +kernel
/-- One candidate of weight 1: its sum exceeds every threshold. The clause for the case that no sum does is met by no state, since the
threshold is less than 1 times the sum. -/
theorem test_meets_SampledIndex :
    let l : FVal := fp32.read false (fp32.round .rne false false ((tile 1 [[0x40000000]]).val false 0 0)).bits
    let sum := runningSum false (fun _ => weightOf false l l)
    l.below l = false ∧ (nearest32 false (FVal.mul (.fin false (draw24 1 2 3) (-24)) (sum 1))).lt (sum 1) = true := by decide +kernel
theorem test_meets_UpdateCorners :
    let x (v : Word32) : FVal := (tile 1 [[v]]).val false 0 0
    (x 0x7F800000).isFinite = false ∧ (x 0).isZero = true ∧ (x 0x3F800000).isZero = false
      ∧ (FVal.add false (FVal.mul (x 0x3F800000) (x 0x40000000)) (x 0x40000000).neg).isZero = true := by decide +kernel
theorem test_meets_TwoPages :
    let second : Bool := match lab.translate .read false 0x1FFFFC with
      | .ok x => decide (0x1FFFFC / 2 ^ max 12 x.size ≠ 0x200000 / 2 ^ max 12 x.size)
      | .error _ => false
    let fails (va : Nat) : Bool := match lab.translate .read false va with
      | .ok _ => false
      | .error c => c == .pageFault
    second = true ∧ fails 0x200000 = true ∧ fails 0x2FFFFC = true ∧ lab.walkTaken .read 0x1FFFFC = true ∧ lab.walkTaken .read 0x200000 = true
      ∧ (lab.walk 0 0x200000).toOption = none ∧ lab.tlbHit 0 0x200000 .read = none := by decide +kernel
/-- lab while the interleave map changes: the core's generation is the new one, and no slice has it. -/
def labSwitch (s : State) : State := { s with dev.l2.switching := some (1, []), dev.l2.core := 1 }
theorem test_meets_HeldRequests : lab.homesAccept [0x40] = true ∧ (labSwitch lab).homesAccept [0x40] = false ∧ (labSwitch lab).fetchTaken 0x1000 1 = false
    ∧ lab.fetchTaken 0x1000 1 = true ∧ (labSwitch labDirty).homesAccept (labSwitch labDirty).dirtyLines = false
    ∧ (labStored (.st 2 1 2 0)).core.sb.map (labStored (.st 2 1 2 0)).entryAccepted = [true]
    ∧ (labStored (.st 2 1 2 0)).core.sb.map (labSwitch (labStored (.st 2 1 2 0))).entryAccepted = [false] := by decide +kernel
theorem test_meets_Releases : Releasable labDirty ∧ Releasable labBar ∧ Releasable labPub ∧ Releasable labFull :=
  ⟨⟨⟨rfl, rfl⟩, rfl⟩, ⟨⟨rfl, rfl⟩, rfl⟩, ⟨⟨rfl, rfl⟩, rfl⟩, ⟨⟨rfl, rfl⟩, rfl⟩⟩
/-- labCopy with as many commands in flight as there may be. -/
def labBusy : State :=
  { labCopy with core.cmds := List.replicate 32 ⟨5, .bcp (.ls 0) (.mem [⟨0x2400, 16⟩]) 0x2400 16 [], none, 0, 7, 1, false, [], [], []⟩ }
theorem test_meets_RefusedFields : labBusy.inFlight = 32 ∧ sees (.bcp 1 2 3) labBusy (·.core.wait) = some .engine ∧ overlap 0x2000 8 0x2004 8 = true
    ∧ bits (0x80000 : Word64) 31 19 ≠ 0 ∧ bits (0x18010 : Word64) 15 15 ≠ 0 ∧ lab.launch?.map (fun l => l.record.cls) = some 0 ∧ 0x2801 % 32 ≠ 0
    ∧ bits (0x100000000 : Word64) 63 32 ≠ 0 ∧ bits (0x1000000000000 : Word64) 59 48 ≠ 0 ∧ (labDrive.partAt 0).drives.toList.length = 16 ∧ 0x3001 % 4096 ≠ 0
    ∧ traps (.bcp 1 2 3) (withX labCopy [(1, 0x2004)]) = some (0x1B, 0x2000, 0x8000) := by decide +kernel
theorem test_meets_StreamClauses : labStream.placeTaken (.mem (labStream.stream 1).data.runs) 0 4 = true
    ∧ (labSwitch labStream).placeTaken (.mem [⟨0x2000, 4⟩]) 0 4 = true
    ∧ ({ labStream with dev.l2.switching := some (0x1001, []), dev.l2.slices := Vector.replicate 32 1 } : State).placeTaken (.mem [⟨0x2000, 4⟩]) 0 4 = false
    ∧ ((after (exec (.streamElementFill 1) labStream)).map (fun t => ((t.stream 1).badElement [], (t.stream 1).badElement [granuleOf 0x200]))) = some (none, some 0x2000) := by
  decide +kernel
theorem test_meets_MessageClauses : let l : Launch := { labLaunch with cancelled := true, units := [UnitRec.start 0 .here 0, UnitRec.start 1 (.saved 0) 2] }
    let s : State := { lab with parts := lab.parts.set 0 { labPart with launches := [l] } }
    (s.partAt 0).launch 1 = some l ∧ l.units.find? (fun r => r.u == 2) = none ∧ l.units.find? (fun r => r.u == 1) = some (UnitRec.start 1 (.saved 0) 2)
      ∧ (s.partAt 0).saved = [] ∧ sees (.messageArrival (.inbound 9 0 1 7 true 2 5 3)) s (fun t => (t.partAt 0).evhead) = some 1 := by decide +kernel
theorem test_meets_SafePoints : let s : State := { lab with core.evictReq := some .slice, parts := lab.parts.set 0 { labPart with pmode := true } }
    ((s.partAt s.part).pmode, s.k.pl, s.core.evictReq.isSome, (s.partAt s.part).freeSlot.isSome) = (true, 0, true, true)
      ∧ (lab.partAt 0).pmode = false := by decide +kernel
/-- Two loads of one copy pipe: the second uses the pointer that the first advances. -/
def labPointers : State := { labTile with core.rob := [robOf 4 (.tld 4 1 2 1 0 0 0 0 0) (some 0) false, robOf 5 (.tld 5 1 2 0 0 0 0 0 0) none false], core.busy := [0] }
theorem test_meets_PipelineCompletes : sees (.issue .copy none) labPointers (fun t => t.core.rob.map (·.engine)) = some [some 0, some 1]
    ∧ sees (.engineCompletion 5) { labData with core.rob := [robOf 4 (.st 2 1 2 0) (some 5) false] } (fun t => t.core.rob.map (·.complete)) = some [true]
    ∧ sees (.engineCompletion 3) labQueue (fun t => t.core.rob.map (·.complete)) = some [true, false] ∧ lab.nextExec = none := by decide +kernel
/-- A unit that a debug stop holds on the core, and one on core 2 of a partition in safe-point mode. -/
def labStopped : State := { labFull with core.run := .stopped, core.evictReq := some .debug }
theorem test_meets_StoppedUnits : labStopped.core.run = .stopped ∧ ((labStopped.partAt 0).findUnit 7).map (fun e => (e.1.record.cls, e.2.place)) = some (0, .here)
    ∧ sees (.resume 0 7 0) labStopped (fun t => (t.core.run, t.core.evictReq, t.core.exempt)) = some (.running, none, true)
    ∧ (let l : Launch := { labLaunch with units := [{ UnitRec.start 0 (.elsewhere 2) 2 with stopped := true }] }
      let s : State := { lab with parts := lab.parts.set 0 { labPart with pmode := true, launches := [l], evictReqs := [(7, .supervisor)] } }
      sees (.eviction 0 7 0) s (fun t => (t.partAt 0).saved.length) = some 0) := by decide +kernel
theorem test_meets_RecordBytes : labRing.obs.pulseRing.head.toNat < labRing.obs.pulseRing.size.toNat ∧ (List.range 48).all (fun i => labRing.physHome (0x4000 + i % 4096)) = true
    ∧ lab.ownBytes 0 0x160000 0x1000 = true ∧ lab.ownBytes 0 0x140000 32 = true ∧ lab.modeOk 0 labLaunch 1 = true ∧ lab.physOk 0x2500 = true := by decide +kernel
theorem test_meets_DirectoryRoom : lab.dev.hier.dir.length < 65536 ∧ ({ lab with dev.reserved := [9], dev.granules := [(9, .correctable)] } : State).dev.reserved = [9] := by decide

/-! The clauses on pools, homes that do not take a request, units that leave together, and results found wrong. -/

/-- lab while the table changes for every slice, the core's generation being the old one. -/
def labRedirect (s : State) : State := { s with dev.l2.switching := some (0x1001, []), dev.l2.slices := Vector.replicate 32 1 }
theorem test_meets_TakenHomes : lab.homesAccept (linesOf 0x2600 64) = true ∧ (labRedirect lab).homesAccept (linesOf 0x2600 64) = false ∧ lab.homesTake [lineOf 0x100120] = true
    ∧ (labRedirect lab).homesTake [lineOf 0x100120] = false ∧ lab.physHome 0x100120 = true ∧ lab.physHome 0x28000000000 = false
    ∧ lab.barrierTaken (some 0x2800) = true ∧ (labRedirect lab).barrierTaken (some 0x2800) = false ∧ lab.barrierTaken none = true
    ∧ labObject.objectTaken 0 0x2600 = true ∧ (labRedirect labObject).objectTaken 0 0x2600 = false ∧ ([none, some 0x2800].all lab.barrierTaken) = true := by decide +kernel
theorem test_meets_HomeLoads : okIs (labData.access .read false [(0x2000, 4)] true) (fun m => m.pa 0x2000 == 0x2000) = true
    ∧ (match (labSwitch labDirty).access .read false [(0x2000, 4)] true with | .error (.wait k) => k == .other | _ => false) = true
    ∧ (match labData.access .read false [(0x1FFFFC, 8)] true with | .error (.trap c _ _) => c == .pageFault | _ => false) = true
    ∧ okIs (labBeryl.access .read true [(0x8000, 2048)] true) (fun m => m.pa 0x8000 == 0x8000) = true
    ∧ okIs (labPub.access .read true [(0x3000, 32)] true) (fun m => m.pa 0x3000 == 0x3000) = true
    ∧ (labStored (.st 2 1 2 0)).core.sb.all (fun e => !overlap e.va e.len 0x2008 4 && !e.meets [⟨0x2008, 4⟩] && e.meets [⟨0x2000, 4⟩]) = true := by decide +kernel
/-- A store into the pool of a region reaches no byte of it, and one beside it does (12 R296). -/
theorem test_meets_PoolBytes : labBeryl.inPool 0x180000 1 = true ∧ labBeryl.inPool 0x2000 1 = false ∧ labBeryl.lands 0x2000 4 0x2003 ∧ ¬labBeryl.lands 0x180000 4 0x180003
    ∧ labBeryl.inPool (remapBase + 8) 2 = false ∧ labBeryl.inPool 0x160000 0x12000 = false ∧ labBeryl.inPool 0x2600 64 = false
    ∧ (labBeryl.homeWrite .h 0x17FFFE [7, 8, 9, 10]).mem.readNat 0x17FFFE 4 = 0x0201_0807 := by decide +kernel
/-- A contribution of two elements to labObject, whose data and header are in no pool. -/
theorem test_meets_Contributions : let s : State := { labObject with core.cmds := [⟨3, .cred 0x2600 (.ls 0x100) 0 2 (some [some 5, some 0, some 0, some 0, some 6, none, some 0, some 0]), none, 0, 7, 1, false, [], [], []⟩], core.tlb := [], parts := lab.parts.set 0 { labPart with troot := 0x10001 }, mem := (labObject.mem.write 0x10000 [3, 0x40, 1]).write 0x14000 [0xF5, 1] }
    let h := s.readObject 0x2600
    s.Inv ∧ s.physOk 0x2600 = true ∧ s.homeBad 0x2600 64 = false ∧ s.objectTaken 0 0x2600 = true ∧ h.valid = true ∧ h.det = false ∧ h.nelem = 2 ∧ h.cnt < h.n
      ∧ s.objectRuns 0 h.data 8 = some [⟨0x2680, 8⟩] ∧ s.physOk 0x2680 = true ∧ s.inPool 0x2600 64 = false ∧ s.inPool 0x2680 8 = false ∧ overlap 0x2680 8 0x2600 64 = false
      ∧ s.dev.portDown = 0 ∧ s.core.l1.poison = []
      ∧ (heldElem [some 5, some 0, some 0, some 0, some 6, none, some 0, some 0] 0, heldElem [some 5, some 0, some 0, some 0, some 6, none, some 0, some 0] 1) = (some 5, none)
      ∧ sees (.credContribution (.own 3 true)) s (fun t => (t.mem.readNat 0x2680 4, t.badGranule (granuleOf 0x2680))) = some (5, true) :=
  ⟨inv_of_formed _ (by decide +kernel), by decide +kernel⟩
theorem test_meets_WrongResults : let s : State := { labTiles (tile 9 [[2, 3]]) (tile 9 [[5], [6]]) (tile 0x0C [[10]]) noTile with core.rob := [robOf 6 (.mma 5 1 2 3 1 0) (some 2) false] }
    (∀ r ∈ lab.core.rob, r.wrong = none) ∧ s.core.mismatch = none ∧ engineClass (.mma 5 1 2 3 1 0) = .matrix
      ∧ sees (.engineCompletion 2) { s with core.mismatch := some (.twice 5) } (fun t => t.core.rob.map (fun r => (r.complete, r.wrong))) = some [(true, some 0)]
      ∧ sees (.engineCompletion 2) { s with core.mismatch := some .once } (fun t => t.core.rob.map (fun r => (r.complete, r.wrong))) = some [(true, none)]
      ∧ sees (.engineCompletion 2) s (fun t => t.core.rob.map (·.complete)) = some [true] := by decide +kernel
theorem test_meets_RetireTurns : let s : State := { lab with core.rob := [robOf 4 (.addi 1 0 5) none false], agenda := [.retire 4] }
    s.core.rob.head?.map (·.tag) = some 4 ∧ ({ s with core.rob := [robOf 5 (.addi 1 0 5) none false] } : State).core.rob.head?.map (·.tag) ≠ some 4
      ∧ labTile.touchMeets (.memory 0x2000 4) (.memory 0x2010 4) = false ∧ labTile.touchMeets (.memory 0x2000 4) (.memory 0x2002 4) = true := by decide +kernel
/-- A slot in memory that no partition's registers and tables name (14 R383). -/
theorem test_meets_SlotBytes (w : State) (j : Nat) (hj : j < 18) (hp : w.parts = labFull.parts) (hc : w.dev.claims = labFull.dev.claims) (hl : w.dev.l2 = labFull.dev.l2) :
    w.ownBytes 0 (labPart.slotPa 0 + 0x1000 * j) 0x1000 = true := by
  have hm : ∀ (q : BitVec 3) (n : Nat), w.mapsBytes q n 0x1000 = false := by
    intro q n
    have ht : ∀ k : BitVec 3, (labFull.parts[k.toNat]'k.isLt).troot.getLsbD 0 = false := by decide
    unfold State.mapsBytes State.partAt
    rw [hp, ht]; rfl
  have hs : labPart.slotPa 0 = 0x160000 := by decide
  have hb : labFull.dev.l2.tbase = 0 := by decide
  have hk : labFull.dev.claims = [] := by decide
  have hf : w.foreign 0 (labPart.slotPa 0 + 0x1000 * j) 0x1000 = false := by
    unfold State.foreign
    simp [hm, hc, hk]
  have h1 : 0x160000 + 0x1000 * j < 2 ^ 39 := by omega
  have h2 : ¬reservedBase ≤ 0x160000 + 0x1000 * j := by unfold reservedBase; omega
  unfold State.ownBytes
  rw [hf, hs]
  unfold State.physOk State.exists? reserved? inDomain
  rw [hl, hb, if_pos h1]
  simp [h2]
theorem test_meets_LeavingTogether : let far : UnitRec := UnitRec.start 1 (.elsewhere 2) 2
    let l : Launch := { labLaunch with words := labLaunch.words.set 4 0x200000000, units := [UnitRec.start 0 (.elsewhere 3) 3, far], nextUnit := 2 }
    let s (n : Word64) : State := { lab with core.run := .idle, parts := lab.parts.set 0 { labPart with savecnt := n, launches := [l], evictReqs := [(7, .supervisor), (8, .supervisor)] } }
    labLaunch.together (UnitRec.start 0 .here 0) = [UnitRec.start 0 .here 0] ∧ (labFar.partAt 0).launches.map (fun l => (l.together (UnitRec.start 0 (.elsewhere 2) 2)).length) = [1]
      ∧ l.together far = l.units ∧ l.units.Nodup ∧ ((s 2).partAt 0).freeSlots.length = 2 ∧ ((s 1).partAt 0).freeSlots.length = 1
      ∧ (l.units.all (fun k => (s 2).evictPending 0 (BitVec.ofNat 32 (7 + k.u)) k)) = true ∧ (s 2).evictTurn 0 8 = true
      ∧ sees (.eviction 0 8 0) (s 2) (fun t => (t.partAt 0).saved.map (fun v => (v.slot, v.task, v.image))) = some [(0, 8, false), (1, 7, false)]
      ∧ sees (.eviction 0 8 0) (s 1) (fun t => (t.partAt 0).saved.length) = some 0 := by decide +kernel
/-- A unit whose save on core 2 is not complete, and which its handler is to be entered (14 R366). -/
theorem test_meets_NotedResume : let f : FarSuspension := ⟨⟨4, false, false, 1, 0⟩, 0, 0x1000, 0, false⟩
    let v (b : Bool) : SavedUnit := ⟨0, 7, 1, some f.susp, false, false, [], none, false, none, some { f with noHandler := b }, none⟩
    let s (b : Bool) : State := { lab with core.run := .idle, parts := lab.parts.set 0 { labPart with launches := [{ labLaunch with units := [UnitRec.start 0 (.saved 0) 2] }], saved := [v b] } }
    sees (.resume 0 7 1) (s false) (fun t => (t.partAt 0).saved.map (fun w => (w.susp, w.exempt, w.enter))) = some [(none, true, some f.susp)]
      ∧ ((s true).partAt 0).saved.map (fun w => w.noted.map (·.noHandler)) = [some true]
      ∧ sees (.resume 0 7 1) (s true) (fun t => (t.partAt 0).saved.map (·.enter)) = some [none] := by decide +kernel
theorem test_meets_UrgentFacts : (labUrgent.urgent 0).map (fun w => (w.id, decide (6 ≤ w.pri), w.record.maxc)) = some (9, true, 0)
    ∧ ((labSaved.partAt 0).findUnit 7).map (fun e => (labSaved.chosen 0 e.1).isSome) = some true := by decide +kernel
theorem test_meets_RingBytes : lab.physHome (labPart.evbase.toNat + 32 * (labPart.evhead.toNat % 2 ^ labPart.evlog.toNat)) = true ∧ lab.inPool 0x140000 32 = false
    ∧ lab.inPool 0x150000 64 = false ∧ lab.inPool lab.mgmt.target (20000 + 2420) = false ∧ lab.mgmt.target % 128 = 0
    ∧ (List.range 48).all (fun i => !labRing.inPool (0x4000 + i % 4096) 1) = true ∧ ({ lab with dev.hier.dir := [(7, 5), (8, 1)] } : State).dev.hier.dir.map (·.1) = [7, 8]
    ∧ sees (.quadrantParked 0 1) { lab with parts := lab.parts.set 0 { labPart with qpark := 2 } } (fun t => (t.partAt 0).qstate) = some 2 := by decide +kernel

theorem test_scaleOutsideExtents :
    let t : Tile := { Tile.build 6 1 2 (fun _ _ => 8) with scl := true, scale := [255] }
    t.val false 0 1 = .nan ∧ (match t.val false 0 2 with | .fin false 0 _ => true | _ => false) = true := by decide

end Sys2Proof.Tests
end

section
/-! The mailbox instructions (01 R33 to R35; 04 R125 to R128): the check of a mailbox source and the three reads that begin with it,
the local write, and the mask of the full bits. -/

namespace Sys2Proof.Machine

/-! The meaning of each mailbox instruction. -/

theorem exec_mrd (m : BitVec 3) (bt : BitVec 1) (d : BitVec 5) (s : State) : exec (.mrd m bt d) s = execMrd m bt d s :=
  rfl
theorem exec_mpk (m : BitVec 3) (bt : BitVec 1) (d : BitVec 5) (s : State) : exec (.mpk m bt d) s = execMpk m bt d s :=
  rfl
theorem exec_wfm (m : BitVec 3) (bt : BitVec 1) (s : State) : exec (.wfm m bt) s = execWfm m bt s := rfl
theorem exec_mwr (m : BitVec 3) (b : BitVec 5) (s : State) : exec (.mwr m b) s = execMwr m b s := rfl
theorem exec_mclr (m : BitVec 3) (s : State) : exec (.mclr m) s = execMclr m s := rfl
theorem exec_mfull (d : BitVec 5) (s : State) : exec (.mfull d) s = execMfull d s := rfl

/-! The check of a mailbox source (01 R34). -/

theorem State.needFull_of_full {s : State} {m : BitVec 3} (bt : BitVec 1) (h : (s.mbox m).full = true) :
    s.needFull m bt = .ok () := by
  simp [State.needFull, h]

theorem State.needFull_trap_of_empty {s : State} {m : BitVec 3} (h : (s.mbox m).full = false) :
    s.needFull m 1 = .error (.trap .mboxEmpty (m.setWidth 64) 0) := by
  simp [State.needFull, h]

theorem State.needFull_wait_of_empty {s : State} {m : BitVec 3} (h : (s.mbox m).full = false) :
    s.needFull m 0 = .error (.wait .mailbox) := by
  simp [State.needFull, h]

/-- The shape that mrd, mpk and wfm share: the check of mailbox m, then the retirement of u. -/
def ReadsMbox (i : Instr) (s : State) (m : BitVec 3) (bt : BitVec 1) (u : State) : Prop :=
  exec i s = s.finish (do s.needFull m bt; .ok u.advance)

theorem readsMbox_mrd (s : State) (m : BitVec 3) (bt : BitVec 1) (d : BitVec 5) :
    ReadsMbox (.mrd m bt d) s m bt ((s.setX d (s.mbox m).val).setMbox m ⟨(s.mbox m).val, false⟩) := exec_mrd m bt d s
theorem readsMbox_mpk (s : State) (m : BitVec 3) (bt : BitVec 1) (d : BitVec 5) :
    ReadsMbox (.mpk m bt d) s m bt (s.setX d (s.mbox m).val) := exec_mpk m bt d s
theorem readsMbox_wfm (s : State) (m : BitVec 3) (bt : BitVec 1) : ReadsMbox (.wfm m bt) s m bt s := exec_wfm m bt s

section
variable {i : Instr} {s u : State} {m : BitVec 3}

theorem ReadsMbox.completes {bt : BitVec 1} (hi : ReadsMbox i s m bt u) (h : (s.mbox m).full = true) : Completes i s u := by
  rw [Completes, hi, State.needFull_of_full bt h, run_ok_bind, State.finish_ok]

theorem ReadsMbox.traps (hi : ReadsMbox i s m 1 u) (h : (s.mbox m).full = false) :
    TrapsWith i s .mboxEmpty (m.setWidth 64) := by
  refine ⟨0, ?_⟩
  rw [hi, State.needFull_trap_of_empty h, run_error_bind, State.finish_trap]

theorem ReadsMbox.waits (hi : ReadsMbox i s m 0 u) (h : (s.mbox m).full = false) : Waits i s .mailbox := by
  rw [Waits, hi, State.needFull_wait_of_empty h, run_error_bind, State.finish_wait]

end

/-! Writes of a mailbox. -/

/-- Writing back what a mailbox holds changes nothing. -/
@[simp] theorem State.setMbox_mbox_same (s : State) (m : BitVec 3) : s.setMbox m (s.mbox m) = s := by
  simp [State.setMbox, State.mbox]

theorem State.stick_blankM_blankSticky (s : State) (b : Nat) (c : Bool) :
    (s.stick b c).blankM.blankSticky = s.blankM.blankSticky := by
  cases c <;> rfl

/-- A local write is what SetsM says: k.sticky.mov is set when the mailbox was full (01 R35). -/
theorem SetsM.of_mwrite (s : State) (m : BitVec 3) (v : Word64) : SetsM s (s.mwrite m v) m v true (s.mbox m).full where
  dest := by simp [State.mwrite]
  others := by intro r h; simp [State.mwrite, State.setMbox_mbox, h]
  sticky := by
    rw [State.mwrite, State.setMbox_k, State.stick_k]
    cases (s.mbox m).full <;> simp
  rest := by rw [State.mwrite, State.setMbox_blankM, State.stick_blankM_blankSticky]
  bytes := SameBytes.of_eq _ _ (by simp [State.mwrite]) (by simp [State.mwrite])

/-! The full bits (04 R128). -/

/-- A sum of distinct powers of two is the number of the bits that select them. -/
theorem foldl_powers_eq_ofBits (f : Nat → Bool) (n : Nat) :
    ((List.range n).map (fun i => if f i then 2 ^ i else 0)).foldl (· + ·) 0 = Nat.ofBits (fun k : Fin n => f k) := by
  induction n generalizing f with
  | zero => rfl
  | succ n ih =>
    have hstep (i : Nat) : (if f (i + 1) then 2 ^ (i + 1) else 0) = 2 * (if f (i + 1) then 2 ^ i else 0) := by
      split <;> omega
    have ih' := ih (fun i => f (i + 1))
    rw [← List.sum_eq_foldl] at ih' ⊢
    rw [List.range_succ_eq_map, List.map_cons, List.sum_cons, List.map_map, Nat.ofBits_succ, Nat.add_comm]
    congr 1
    · calc ((List.range n).map ((fun i => if f i then 2 ^ i else 0) ∘ Nat.succ)).sum
          = ((List.range n).map (fun i => 2 * (if f (i + 1) then 2 ^ i else 0))).sum :=
            congrArg List.sum (List.map_congr_left fun i _ => hstep i)
        _ = 2 * Nat.ofBits (fun k : Fin n => f (k + 1)) := by rw [List.sum_map_mul_left, ih']
    · cases h : f 0 <;> simp [h]

/-- Bit k of the mask is the full bit of mailbox k. -/
theorem State.fullMask_eq_ofBits (s : State) : s.fullMask = Nat.ofBits (fun k : Fin 8 => (s.mbox (BitVec.ofFin k)).full) := by
  rw [State.fullMask, foldl_powers_eq_ofBits (fun i => (s.mbox (BitVec.ofNat 3 i)).full)]
  congr 1
  funext k
  rw [show BitVec.ofNat 3 k.val = BitVec.ofFin k from BitVec.eq_of_toNat_eq (Nat.mod_eq_of_lt k.isLt)]

theorem State.fullMask_lt (s : State) : s.fullMask < 256 := by
  rw [State.fullMask_eq_ofBits]
  exact Nat.ofBits_lt_two_pow _

theorem State.fullMask_getLsbD (s : State) (k : Fin 8) :
    (BitVec.ofNat 64 s.fullMask).getLsbD k.val = (s.mbox (BitVec.ofFin k)).full := by
  have hk : k.val < 64 := by omega
  rw [BitVec.getLsbD_ofNat, State.fullMask_eq_ofBits, Nat.testBit_ofBits_lt _ _ k.isLt]
  simp [hk]

/-! What each instruction does, by the state of its mailbox. -/

/-- Reads of a full mailbox: mrd empties it, mpk and wfm leave it (01 R33). -/
theorem mailboxReads_of_full (s : State) (m : BitVec 3) (bt : BitVec 1) (d : BitVec 5) (h : (s.mbox m).full = true) :
    (∃ u v, Completes (.mrd m bt d) s v ∧ SetsX s u d (s.mbox m).val ∧ SetsM u v m (s.mbox m).val false false)
    ∧ (∃ u, Completes (.mpk m bt d) s u ∧ SetsX s u d (s.mbox m).val)
    ∧ Completes (.wfm m bt) s s :=
  ⟨⟨_, _, (readsMbox_mrd s m bt d).completes h, SetsX.of_setX s d _, SetsM.of_setMbox _ m _ false⟩,
    ⟨_, (readsMbox_mpk s m bt d).completes h, SetsX.of_setX s d _⟩, (readsMbox_wfm s m bt).completes h⟩

theorem mailboxReads_trap_of_empty (s : State) (m : BitVec 3) (d : BitVec 5) (h : (s.mbox m).full = false) :
    TrapsWith (.mrd m 1 d) s .mboxEmpty (m.setWidth 64) ∧ TrapsWith (.mpk m 1 d) s .mboxEmpty (m.setWidth 64)
    ∧ TrapsWith (.wfm m 1) s .mboxEmpty (m.setWidth 64) :=
  ⟨(readsMbox_mrd s m 1 d).traps h, (readsMbox_mpk s m 1 d).traps h, (readsMbox_wfm s m 1).traps h⟩

theorem mailboxReads_wait_of_empty (s : State) (m : BitVec 3) (d : BitVec 5) (h : (s.mbox m).full = false) :
    Waits (.mrd m 0 d) s .mailbox ∧ Waits (.mpk m 0 d) s .mailbox ∧ Waits (.wfm m 0) s .mailbox :=
  ⟨(readsMbox_mrd s m 0 d).waits h, (readsMbox_mpk s m 0 d).waits h, (readsMbox_wfm s m 0).waits h⟩

theorem mwr_completes (s : State) (m : BitVec 3) (b : BitVec 5) : Completes (.mwr m b) s (s.mwrite m (s.x b)) := exec_mwr m b s
theorem mclr_completes (s : State) (m : BitVec 3) : Completes (.mclr m) s (s.setMbox m ⟨(s.mbox m).val, false⟩) := exec_mclr m s
theorem mfull_completes (s : State) (d : BitVec 5) : Completes (.mfull d) s (s.setX d (BitVec.ofNat 64 s.fullMask)) := exec_mfull d s

/-- Clearing an empty mailbox has no effect (04 R127). -/
theorem State.clearMbox_of_empty (s : State) (m : BitVec 3) (h : (s.mbox m).full = false) :
    s.setMbox m ⟨(s.mbox m).val, false⟩ = s := by
  rw [← h]
  exact s.setMbox_mbox_same m

/-- Settles O20, by the shape that the three reads share and the value of the mask of full bits. -/
theorem mailboxes : Obligations.Mailboxes := by
  refine ⟨fun s m bt d => ⟨mailboxReads_of_full s m bt d, ?trap, ?wait⟩, ?write, fun s m d => ⟨?clear, ?mask⟩⟩
  case trap =>
    rintro h rfl
    exact mailboxReads_trap_of_empty s m d h
  case wait =>
    rintro h rfl
    exact mailboxReads_wait_of_empty s m d h
  case write => exact fun s m b => ⟨_, mwr_completes s m b, SetsM.of_mwrite s m (s.x b)⟩
  case clear => exact ⟨_, mclr_completes s m, SetsM.of_setMbox s m _ false, s.clearMbox_of_empty m⟩
  case mask =>
    have hlt : (BitVec.ofNat 64 s.fullMask).toNat < 256 :=
      (Nat.mod_le ..).trans_lt s.fullMask_lt
    exact ⟨_, _, mfull_completes s d, SetsX.of_setX s d _, hlt, s.fullMask_getLsbD⟩

end Sys2Proof.Machine
end

section
/-! The divisions (04 R105, R106): what each writes, and the rows of the table of corner cases. -/

namespace Sys2Proof.Machine

/-! Each division retires and writes its result, whatever its operands are. -/

theorem div_completes (s : State) (d a b : BitVec 5) : Completes (.div d a b) s (s.setX d (divS (s.x a) (s.x b))) := rfl
theorem rem_completes (s : State) (d a b : BitVec 5) : Completes (.rem d a b) s (s.setX d (remS (s.x a) (s.x b))) := rfl
theorem divu_completes (s : State) (d a b : BitVec 5) : Completes (.divu d a b) s (s.setX d (divU (s.x a) (s.x b))) := rfl
theorem remu_completes (s : State) (d a b : BitVec 5) : Completes (.remu d a b) s (s.setX d (remU (s.x a) (s.x b))) := rfl

/-- A register other than x0 holds what was written to it (01 R11). -/
theorem State.setX_x_same (s : State) {d : BitVec 5} (v : Word64) (h : d ≠ 0) : (s.setX d v).x d = v := by
  rw [State.setX_x, if_neg h, if_pos rfl]

/-! The rows of the table (04 R106). A signed quotient is truncated toward zero and the remainder takes the dividend's sign; the
unsigned forms read -n as 2^64 - n. -/

theorem division_by_zero (a : Word64) :
    divS a 0 = 0xFFFFFFFFFFFFFFFF ∧ remS a 0 = a ∧ divU a 0 = 0xFFFFFFFFFFFFFFFF ∧ remU a 0 = a :=
  ⟨if_pos rfl, if_pos rfl, if_pos rfl, if_pos rfl⟩

/-- The quotient 2^63 is out of the signed range and wraps to the dividend. -/
theorem signedDivision_overflow :
    divS 0x8000000000000000 (-1) = 0x8000000000000000 ∧ remS 0x8000000000000000 (-1) = 0 := by decide

theorem division_seven_by_negTwo :
    divS 7 (-2) = -3 ∧ remS 7 (-2) = 1 ∧ divU 7 (-2) = 0 ∧ remU 7 (-2) = 7 := by decide

theorem division_negSeven_by_two :
    divS (-7) 2 = -3 ∧ remS (-7) 2 = -1 ∧ divU (-7) 2 = 0x7FFFFFFFFFFFFFFC ∧ remU (-7) 2 = 1 := by decide

/-- Settles O13: each division retires whatever its operands are, and its result is the table's row, unless it goes to x0. -/
theorem divisionCorners : Obligations.DivisionCorners := by
  intro s d a b
  refine ⟨_, _, _, _, div_completes s d a b, rem_completes s d a b, divu_completes s d a b, remu_completes s d a b, ?toZero, fun hd => ?rows⟩
  case toZero =>
    rintro rfl
    exact ⟨State.x_zero _, State.x_zero _, State.x_zero _, State.x_zero _⟩
  case rows =>
    simp only [State.setX_x_same s _ hd]
    refine ⟨fun hb => ?byZero, fun ha hb => ?overflow, fun ha hb => ?posByNeg, fun ha hb => ?negByPos⟩
    case byZero => rw [hb]; exact division_by_zero (s.x a)
    case overflow => rw [ha, hb]; exact signedDivision_overflow
    case posByNeg => rw [ha, hb]; exact division_seven_by_negTwo
    case negByPos => rw [ha, hb]; exact division_negSeven_by_two

end Sys2Proof.Machine
end

section
/-! Encoding (03 R69 to R75): the fields of a word, the decoder that its major opcode chooses, and both round trips. -/

namespace Sys2Proof

/-- Two adjacent fields make one. -/
theorem append_eq_fld {w : Word32} {lo m n : Nat} {x : BitVec m} {y : BitVec n} (hx : x = fld w (lo + n) m) (hy : y = fld w lo n) :
    x ++ y = fld w lo (m + n) := by
  rw [hx, hy]
  exact BitVec.extractLsb'_append_extractLsb'_eq_extractLsb' rfl

/-! The major opcode of a word of each format (R70), and the decoder that it chooses (R74). -/

section
variable {w : Word32} {op : BitVec 7}

theorem fields_of_wordSA {d a b : BitVec 5} {fn : BitVec 10} (h : some (wordSA op d a b fn) = some w) :
    fld w 25 7 = op ∧ fld w 20 5 = d ∧ fld w 15 5 = a ∧ fld w 10 5 = b ∧ fld w 0 10 = fn := by
  cases h
  refine ⟨?_, ?_, ?_, ?_, ?_⟩ <;>
    simp (disch := decide) only [BitVec.extractLsb'_append_eq_of_le, BitVec.extractLsb'_append_eq_of_add_le, Nat.reduceSub,
      BitVec.extractLsb'_eq_self]
theorem fields_of_wordSI {d a : BitVec 5} {i : BitVec 15} (h : some (wordSI op d a i) = some w) :
    fld w 25 7 = op ∧ fld w 20 5 = d ∧ fld w 15 5 = a ∧ fld w 0 15 = i := by
  cases h
  refine ⟨?_, ?_, ?_, ?_⟩ <;>
    simp (disch := decide) only [BitVec.extractLsb'_append_eq_of_le, BitVec.extractLsb'_append_eq_of_add_le, Nat.reduceSub,
      BitVec.extractLsb'_eq_self]
theorem fields_of_wordSM {d a : BitVec 5} {sz : BitVec 3} {off : BitVec 12} (h : some (wordSM op d a sz off) = some w) :
    fld w 25 7 = op ∧ fld w 20 5 = d ∧ fld w 15 5 = a ∧ fld w 12 3 = sz ∧ fld w 0 12 = off := by
  cases h
  refine ⟨?_, ?_, ?_, ?_, ?_⟩ <;>
    simp (disch := decide) only [BitVec.extractLsb'_append_eq_of_le, BitVec.extractLsb'_append_eq_of_add_le, Nat.reduceSub,
      BitVec.extractLsb'_eq_self]
theorem fields_of_wordBJ {o : BitVec 25} (h : some (wordBJ op o) = some w) :
    fld w 25 7 = op ∧ fld w 0 25 = o := by
  cases h
  refine ⟨?_, ?_⟩ <;>
    simp (disch := decide) only [BitVec.extractLsb'_append_eq_of_le, BitVec.extractLsb'_append_eq_of_add_le, Nat.reduceSub,
      BitVec.extractLsb'_eq_self]
end

section
variable (op : BitVec 7)

theorem major_wordSA (d a b : BitVec 5) (fn : BitVec 10) : fld (wordSA op d a b fn) 25 7 = op := by
  simp (disch := decide) only [BitVec.extractLsb'_append_eq_of_le, Nat.reduceSub, BitVec.extractLsb'_eq_self]
theorem major_wordSI (d a : BitVec 5) (i : BitVec 15) : fld (wordSI op d a i) 25 7 = op := by
  simp (disch := decide) only [BitVec.extractLsb'_append_eq_of_le, Nat.reduceSub, BitVec.extractLsb'_eq_self]
theorem major_wordSM (d a : BitVec 5) (sz : BitVec 3) (off : BitVec 12) : fld (wordSM op d a sz off) 25 7 = op := by
  simp (disch := decide) only [BitVec.extractLsb'_append_eq_of_le, Nat.reduceSub, BitVec.extractLsb'_eq_self]
theorem major_wordTT (d a b c : BitVec 4) (fn : BitVec 9) : fld (wordTT op d a b c fn) 25 7 = op := by
  simp (disch := decide) only [BitVec.extractLsb'_append_eq_of_le, Nat.reduceSub, BitVec.extractLsb'_eq_self]
theorem major_wordTM (t : BitVec 4) (a b : BitVec 5) (fn : BitVec 11) : fld (wordTM op t a b fn) 25 7 = op := by
  simp (disch := decide) only [BitVec.extractLsb'_append_eq_of_le, Nat.reduceSub, BitVec.extractLsb'_eq_self]
theorem major_wordMX (m : BitVec 3) (bt : BitVec 1) (a b : BitVec 5) (fn : BitVec 11) : fld (wordMX op m bt a b fn) 25 7 = op := by
  simp (disch := decide) only [BitVec.extractLsb'_append_eq_of_le, Nat.reduceSub, BitVec.extractLsb'_eq_self]
theorem major_wordBJ (o : BitVec 25) : fld (wordBJ op o) 25 7 = op := by
  simp (disch := decide) only [BitVec.extractLsb'_append_eq_of_le, Nat.reduceSub, BitVec.extractLsb'_eq_self]
end

section
variable {w : Word32}

theorem decodeFields_eq_decodeInteger (h : fld w 25 7 = 0x01) : decodeFields w = decodeInteger w := by
  unfold decodeFields; rw [h]; rfl
theorem decodeFields_eq_decodeFloat_single (h : fld w 25 7 = 0x10) : decodeFields w = decodeFloat w false := by
  unfold decodeFields; rw [h]; rfl
theorem decodeFields_eq_decodeFloat_double (h : fld w 25 7 = 0x11) : decodeFields w = decodeFloat w true := by
  unfold decodeFields; rw [h]; rfl
theorem decodeFields_eq_decodeStream (h : fld w 25 7 = 0x61) : decodeFields w = decodeStream w := by
  unfold decodeFields; rw [h]; rfl

theorem decodeFields_eq_decodeMailbox (h : fld w 25 7 ∈ [0x20, 0x21, 0x22, 0x23]) : decodeFields w = decodeMailbox w := by
  unfold decodeFields
  generalize fld w 25 7 = k at h
  fin_cases h <;> rfl
theorem decodeFields_eq_decodeOrdering (h : fld w 25 7 ∈ [0x29, 0x2A, 0x2B, 0x2C]) : decodeFields w = decodeOrdering w := by
  unfold decodeFields
  generalize fld w 25 7 = k at h
  fin_cases h <;> rfl
theorem decodeFields_eq_decodeBeryl (h : fld w 25 7 ∈ [0x30, 0x31, 0x32, 0x33, 0x34, 0x35, 0x36, 0x37]) :
    decodeFields w = decodeBeryl w := by
  unfold decodeFields
  generalize fld w 25 7 = k at h
  fin_cases h <;> rfl
theorem decodeFields_eq_decodeTileMemory (h : fld w 25 7 ∈ [0x38, 0x39, 0x3A, 0x3B, 0x3C]) :
    decodeFields w = decodeTileMemory w := by
  unfold decodeFields
  generalize fld w 25 7 = k at h
  fin_cases h <;> rfl
theorem decodeFields_eq_decodeTile (h : fld w 25 7 ∈ [0x48, 0x49, 0x4A, 0x4B, 0x50, 0x51, 0x52, 0x53, 0x54, 0x55, 0x56, 0x57, 0x58,
    0x59, 0x5A, 0x5B, 0x5C, 0x5D, 0x5E, 0x5F, 0x75]) : decodeFields w = decodeTile w := by
  unfold decodeFields
  generalize fld w 25 7 = k at h
  fin_cases h <;> rfl
theorem decodeFields_eq_decodeEngine (h : fld w 25 7 ∈ [0x60, 0x62, 0x63, 0x64, 0x65, 0x66, 0x67, 0x68, 0x69]) :
    decodeFields w = decodeEngine w := by
  unfold decodeFields
  generalize fld w 25 7 = k at h
  fin_cases h <;> rfl
theorem decodeFields_eq_decodeLaunch (h : fld w 25 7 ∈ [0x6A, 0x6B, 0x6C, 0x70, 0x71, 0x72, 0x73, 0x74, 0x76]) :
    decodeFields w = decodeLaunch w := by
  unfold decodeFields
  generalize fld w 25 7 = k at h
  fin_cases h <;> rfl
theorem decodeFields_eq_decodeSystem (h : fld w 25 7 ∈ [0x78, 0x79, 0x7A, 0x7B, 0x7C, 0x7D]) : decodeFields w = decodeSystem w := by
  unfold decodeFields
  generalize fld w 25 7 = k at h
  fin_cases h <;> rfl

end

theorem eq_of_two_bits (x : BitVec 2) : x = 0 ∨ x = 1 ∨ x = 2 ∨ x = 3 := by bv_omega

theorem decodeFields_of_encode {w : Word32} {i : Instr} (h : encode i = some w) : decodeFields w = .ok i := by
  cases i
  case add | sub | padd | ptag | and | or | xor | shl | shr | sar | min | max | minu | maxu | mul | mulh | mulhu | div | divu | rem
      | remu | popc | clz | ctz | seq | sne | slt | sltu =>
    obtain ⟨hop, hd, ha, hb, hfn⟩ := fields_of_wordSA h
    rw [decodeFields_eq_decodeInteger hop, decodeInteger, hd, ha, hb, hfn]
    rfl
  case faddS | fsubS | fmulS | fdivS | fminS | fmaxS | fsqrtS | ffmaS | feqS | fltS | fleS =>
    obtain ⟨hop, hd, ha, hb, hfn⟩ := fields_of_wordSA h
    rw [decodeFields_eq_decodeFloat_single hop, decodeFloat, hd, ha, hb, hfn]
    rfl
  case faddD | fsubD | fmulD | fdivD | fminD | fmaxD | fsqrtD | ffmaD | feqD | fltD | fleD =>
    obtain ⟨hop, hd, ha, hb, hfn⟩ := fields_of_wordSA h
    rw [decodeFields_eq_decodeFloat_double hop, decodeFloat, hd, ha, hb, hfn]
    rfl
  case addi | andi | ori | xori | paddi | li | lih | slti | sltiu | seqi | muli | beq | bne | blt | bge =>
    obtain ⟨hop, hd, ha, hi⟩ := fields_of_wordSI h
    rw [decodeFields, hop, hd, ha, hi]
    rfl
  case ld | ldz | st =>
    obtain ⟨hop, hd, ha, hsz, hoff⟩ := fields_of_wordSM h
    rw [decodeFields, hop, hd, ha, hsz, hoff]
    rfl
  case jr | callr =>
    obtain ⟨hop, hd, ha, hb, hfn⟩ := fields_of_wordSA h
    rw [decodeFields, hop, hd, ha, hb, hfn]
    rfl
  case j | call =>
    obtain ⟨hop, ho⟩ := fields_of_wordBJ h
    rw [decodeFields, hop, ho]
    rfl
  case trig | exit =>
    obtain ⟨hop, ho⟩ := fields_of_wordBJ h
    rw [decodeFields_eq_decodeLaunch (by rw [hop]; decide), decodeLaunch, hop, ho]
    rfl
  case sret =>
    obtain ⟨hop, ho⟩ := fields_of_wordBJ h
    rw [decodeFields_eq_decodeSystem (by rw [hop]; decide), decodeSystem, hop, ho]
    rfl
  case bcp | bcpLd | bcpSt | barExp | barExpArr | barArr | barInit | barDrop | barWait | barTest | a2aCl | a2aQ | cred | credLs
      | ofldOut | ofldIn =>
    obtain ⟨hop, hd, ha, hb, hfn⟩ := fields_of_wordSA h
    rw [decodeFields_eq_decodeEngine (by rw [hop]; decide), decodeEngine, hop, hd, ha, hb, hfn]
    rfl
  case vsw | vswDrop =>
    obtain ⟨hop, hd, ha, hi⟩ := fields_of_wordSI h
    rw [decodeFields_eq_decodeBeryl (by rw [hop]; decide), decodeBeryl, hop, hd, ha, hi]
    rfl
  case trap | kget | kset | brk | halt | spt =>
    obtain ⟨hop, hd, ha, hi⟩ := fields_of_wordSI h
    rw [decodeFields_eq_decodeSystem (by rw [hop]; decide), decodeSystem, hop, hd, ha, hi]
    rfl
  case draw =>
    obtain ⟨hop, hd, ha, hi⟩ := fields_of_wordSI h
    have hai : fld w 0 20 = 0 := (append_eq_fld ha.symm hi.symm).symm
    rw [decodeFields_eq_decodeLaunch (by rw [hop]; decide), decodeLaunch, hop, hd, hai]
    rfl
  case' sbind => rename_i q a b esz; rcases eq_of_two_bits esz with rfl | rfl | rfl | rfl
  all_goals cases h
  case' fcvt => rw [decodeFields, major_wordSA]
  case' rep => rw [decodeFields, major_wordBJ]
  case' ldAcq | stRel => rw [decodeFields, major_wordSM]
  case' shli | shri | sari => rw [decodeFields, major_wordSI]
  case' mrd | mpk | wfm | mwr | send | sendU | mclr | mfull =>
    rw [decodeFields_eq_decodeMailbox (by rw [major_wordMX]; decide), decodeMailbox, major_wordMX]
  case' amo | ared | cwbr | cinv =>
    rw [decodeFields_eq_decodeOrdering (by rw [major_wordSA]; decide), decodeOrdering, major_wordSA]
  case' fence | fenceAcq | fenceRel | xfence =>
    rw [decodeFields_eq_decodeOrdering (by rw [major_wordSI]; decide), decodeOrdering, major_wordSI]
  case' bloa | bref | brel | bcas | bout | vpub =>
    rw [decodeFields_eq_decodeBeryl (by rw [major_wordSA]; decide), decodeBeryl, major_wordSA]
  case' tldb => rw [decodeFields_eq_decodeBeryl (by rw [major_wordTM]; decide), decodeBeryl, major_wordTM]
  case' tld | tst | tldi | tlds | tsts =>
    rw [decodeFields_eq_decodeTileMemory (by rw [major_wordTM]; decide), decodeTileMemory, major_wordTM]
  case' mma | mmz | mmg | tadw | tadd | tsub | tmul | tfma | tmax | tmin | tcmp | tsel | tcvt | ttr | tred | tsfu | tbcRow | tbcCol
      | tbcEl | tbcX | tsc | tnf | smpl | smrg =>
    rw [decodeFields_eq_decodeTile (by rw [major_wordTT]; decide), decodeTile, major_wordTT]
  case' qrd | sunbind | qavail | sbind.inl | sbind.inr.inl | sbind.inr.inr.inl | sbind.inr.inr.inr =>
    rw [decodeFields_eq_decodeStream (major_wordMX ..), decodeStream]
  case' rget | rput | ramo | larm | lpat | cncl =>
    rw [decodeFields_eq_decodeLaunch (by rw [major_wordSA]; decide), decodeLaunch, major_wordSA]
  case' tlbiAll | tlbiVa | tlbiBlk =>
    rw [decodeFields_eq_decodeSystem (by rw [major_wordSI]; decide), decodeSystem, major_wordSI]
  all_goals
    simp (disch := decide) only [BitVec.extractLsb'_append_eq_of_le, BitVec.extractLsb'_append_eq_of_add_le,
      BitVec.extractLsb'_eq_self, Nat.reduceSub, Nat.sub_add_eq, BitVec.reduceToNat, BitVec.reduceExtractLsb', unusedZero, if_true,
      Bool.false_eq_true, if_false, Bool.and_self, beq_self_eq_true, BitVec.ofNat_eq_ofNat, BitVec.reduceBEq, BitVec.reduceAppend]

/-! From a word to its instruction. -/

/-- What unusedZero lets through is its instruction, and then the unused fields are zero (R73). -/
theorem unusedZero_eq_ok_iff {z : Bool} {i j : Instr} : unusedZero z i = .ok j ↔ z = true ∧ i = j := by
  cases z <;> simp [unusedZero]

/-- The same for a word without unused fields. -/
theorem ok_eq_ok_iff {i j : Instr} : (.ok i : Except DecodeError Instr) = .ok j ↔ true = true ∧ i = j := by simp

theorem some_eq_of_eq_fld {w v : Word32} (h : v = fld w 0 32) : some v = some w := by
  rw [h, fld, BitVec.extractLsb'_eq_self]

theorem encode_of_decodeFields {w : Word32} {i : Instr} (h : decodeFields w = .ok i) : encode i = some w := by
  simp only [decodeFields] at h
  split at h
  all_goals try simp only [decodeInteger, decodeFloat, decodeMailbox, decodeOrdering, decodeBeryl, decodeTileMemory, decodeTile,
    decodeEngine, decodeStream, decodeLaunch, decodeSystem, *, Bool.false_eq_true, if_true, if_false, Bool.and_eq_true, beq_iff_eq] at h
  all_goals repeat' split at h
  all_goals simp only [unusedZero_eq_ok_iff, ok_eq_ok_iff, Bool.and_eq_true, beq_iff_eq, reduceCtorEq] at h
  all_goals obtain ⟨hz, rfl⟩ := h
  all_goals apply some_eq_of_eq_fld
  all_goals repeat' with_reducible apply append_eq_fld
  all_goals simp only [← BitVec.toNat_inj, *, Nat.reduceAdd, BitVec.reduceToNat]
  all_goals simp only [← BitVec.toNat_inj, BitVec.extractLsb'_toNat, Nat.shiftRight_eq_div_pow, BitVec.reduceToNat, imp_false] at *; omega

theorem decode_eq_ok_iff {w : Word32} {i : Instr} : decode w = .ok i ↔ decodeFields w = .ok i ∧ wellFormed i = true := by
  unfold decode
  split
  next j hj =>
    rw [hj, Except.ok.injEq]
    split
    next hw => rw [Except.ok.injEq]; exact ⟨fun h => ⟨h, h ▸ hw⟩, fun h => h.1⟩
    next hw => exact ⟨nofun, fun h => absurd (h.1 ▸ h.2) hw⟩
  next e he => rw [he]; exact ⟨nofun, nofun⟩

theorem encode_isSome (i : Instr) : (encode i).isSome = i.isWord := by
  cases i <;> rfl

/-- Settles O1: the fields that the decoder reads of an encoded word are those that the encoder wrote. -/
theorem decodeOfEncode : Obligations.DecodeOfEncode :=
  ⟨fun i hi _ => (encode_isSome i).trans hi, fun _ _ hwf hw => decode_eq_ok_iff.2 ⟨decodeFields_of_encode hw, hwf⟩⟩

theorem decodeFields_ne_ok_of_unassigned {w : Word32} {i : Instr}
    (h : (fld w 25 7).toNat ∈ [0x00, 0x13, 0x14, 0x15, 0x16, 0x17, 0x2D, 0x2E, 0x2F, 0x3D, 0x3E, 0x3F, 0x40, 0x41, 0x42, 0x43, 0x44,
      0x45, 0x46, 0x47, 0x4C, 0x4D, 0x4E, 0x4F, 0x6D, 0x6E, 0x6F, 0x77, 0x7E, 0x7F]) : decodeFields w ≠ .ok i := by
  unfold decodeFields
  generalize (fld w 25 7).toNat = k at h
  fin_cases h <;> exact nofun

/-- Settles O2: a decoded word is the join of the fields that its decoder has read, the zero ones among them. -/
theorem encodeOfDecode : Obligations.EncodeOfDecode := by
  refine ⟨fun w i h => ?encoding, fun w i h hop => ?opcode⟩
  case encoding =>
    obtain ⟨hi, hwf⟩ := decode_eq_ok_iff.1 h
    have he := encode_of_decodeFields hi
    exact ⟨he, hwf, by rw [← encode_isSome, he, Option.isSome_some]⟩
  case opcode =>
    have hmajor : (fld w 25 7).toNat = w.toNat / 2 ^ 25 := by
      rw [BitVec.extractLsb'_toNat, Nat.shiftRight_eq_div_pow, Nat.mod_eq_of_lt (by omega)]
    exact decodeFields_ne_ok_of_unassigned (hmajor ▸ hop) (decode_eq_ok_iff.1 h).1

end Sys2Proof
end

section
/-! What translating leaves behind (10 R263, R265): only what the memory system holds. -/

namespace Sys2Proof.Machine

theorem writeBackLines_memOnly (ls : List Nat) (s : State) : MemOnly s (ls.foldl State.writeBackLine s) :=
  MemOnly.foldl State.writeBackLine writeBackLine_memOnly ls s

/-- A write at the home changes only what the memory system holds, whatever the L1 holds. -/
theorem homeStore_memOnly' (s : State) (path : Path) (pa : Nat) (bs : List Byte) : MemOnly s (s.homeStore path pa bs) := by
  obtain ⟨st, iv, dv, held, hw, hd, -⟩ := homeStore_eq s path pa bs
  refine (writeBackLines_memOnly (linesOf pa bs.length) s).trans ((MemOnly.of_dev hd).trans ?_)
  rw [hw]
  exact ⟨rfl, rfl⟩

theorem homeWrite_memOnly (s : State) (path : Path) (pa : Nat) (bs : List Byte) : MemOnly s (s.homeWrite path pa bs) :=
  MemOnly.foldl (fun t (w : Nat × List Byte) => t.homeStore path w.1 w.2) (fun t w => homeStore_memOnly' t path w.1 w.2) (s.outside (pa, bs)) s

theorem setPteBits_memOnly (s : State) (acc : Access) (x : Xl) (ea : Nat) : MemOnly s (s.setPteBits acc x ea) := by
  unfold State.setPteBits
  split
  · exact MemOnly.refl s
  · exact (writeBackLine_memOnly s (lineOf ea)).trans (homeWrite_memOnly ..)

theorem touch_memOnly (s : State) (acc : Access) (va : Nat) (x : Xl) : MemOnly s (s.touch acc va x) := by
  unfold State.touch
  split
  · exact MemOnly.refl s
  · exact (setPteBits_memOnly s acc x _).trans ⟨rfl, rfl⟩

theorem fetched_memOnly (s : State) (va : BitVec 56) (x : Xl) : MemOnly s (s.fetched va x) := touch_memOnly s .fetch va.toNat x

/-! Fields that no access of the memory system changes. -/

section
variable {s t : State}

theorem MemOnly.rob (h : MemOnly s t) : t.core.rob = s.core.rob := congrArg (·.core.rob) h.rest
theorem MemOnly.badX (h : MemOnly s t) : t.core.badX = s.core.badX := congrArg (·.core.badX) h.rest
theorem MemOnly.mismatch (h : MemOnly s t) : t.core.mismatch = s.core.mismatch := congrArg (·.core.mismatch) h.rest
theorem MemOnly.obs (h : MemOnly s t) : t.obs = s.obs := congrArg (·.obs) h.rest
theorem MemOnly.unit (h : MemOnly s t) : t.core.unit = s.core.unit := congrArg (·.core.unit) h.rest
theorem MemOnly.service (h : MemOnly s t) : t.core.service = s.core.service := congrArg (·.core.service) h.rest
theorem MemOnly.k (h : MemOnly s t) : t.k = s.k := congrArg (·.k) h.unit

end

end Sys2Proof.Machine
end

section
/-! Steps (01 R1; 03 R75, R76): the turn of a running core, and what is looked at after its instruction. -/

namespace Sys2Proof.Machine

/-- Settles O3: each of the words is the encoding of its instruction, which O1 decodes. -/
theorem manualWordsDecode : Obligations.ManualWordsDecode := by
  have dec (i : Instr) (w : Word32) (h : wellFormed i = true ∧ encode i = some w) : decode w = .ok i := decodeOfEncode.2 i w h.1 h.2
  exact ⟨dec _ _ (by decide), dec _ _ (by decide), dec _ _ (by decide), dec _ _ (by decide), dec _ _ (by decide), dec _ _ (by decide),
    dec _ _ (by decide), dec _ _ (by decide), dec _ _ (by decide), dec _ _ (by decide), dec _ _ (by decide), dec _ _ (by decide),
    dec _ _ (by decide), dec _ _ (by decide), dec _ _ (by decide), dec _ _ (by decide)⟩

/-! The turn of a core that runs with no breakpoint at its instruction. -/

section
variable {s : State} (hrun : s.core.run = .running) (hsafe : s.core.safe = none) (hbreak : s.breakHere = none)
include hrun hsafe hbreak

theorem State.turn_of_running (ex : Instr → State → Out) : s.turn ex = if s.k.rf then s.runFrame ex else s.runAtPc ex := by
  simp [State.turn, hrun, hsafe, hbreak]

theorem step_outsideFrame (hagenda : s.agenda = []) (hrf : s.k.rf = false) : step s = (s.runAtPc exec).settled := by
  rw [step_turn s hagenda, State.turn_of_running hrun hsafe hbreak, hrf]
  rfl

theorem step_insideFrame (hagenda : s.agenda = []) (hrf : s.k.rf = true) {i : Instr} (hi : s.core.frame[s.k.pos]? = some i) :
    step s = (s.runCaptured exec).settled := by
  have hne : s.core.frame.isEmpty = false := by
    cases hf : s.core.frame with
    | nil => rw [hf] at hi; simp at hi
    | cons => rfl
  rw [step_turn s hagenda, State.turn_of_running hrun hsafe hbreak, if_pos hrf, State.runFrame, hne]
  rfl

end

/-! The word at pc. -/

section
variable {s : State} (ex : Instr → State → Out)

theorem State.runAtPc_notTaken (h : s.fetchTaken s.pc 1 = false) : s.runAtPc ex = .next s := by simp [State.runAtPc, h]

theorem State.runAtPc_fetchFault (h : s.fetchTaken s.pc 1 = true) {c : Cause} {p : Nat} (hf : s.fetchWord s.pc = .error (c, p)) :
    s.runAtPc ex = .next (s.takeTrap c.code true s.pc (s.pc.setWidth 64) p) := by simp [State.runAtPc, h, hf]

theorem State.runAtPc_illegal (h : s.fetchTaken s.pc 1 = true) {w : Word32} {x : Xl} (hf : s.fetchWord s.pc = .ok (w, x))
    (hw : ∀ i, decode w = .ok i → (s.fetched s.pc x).barred i = true) :
    s.runAtPc ex = .next ((s.fetched s.pc x).trapHere .illegalInsn (w.setWidth 64) 0) := by
  cases hd : decode w with
  | error e => simp [State.runAtPc, h, hf, hd, State.illegal]
  | ok i => simp [State.runAtPc, h, hf, hd, hw i hd, State.illegal]

theorem State.runAtPc_decoded (h : s.fetchTaken s.pc 1 = true) {w : Word32} {x : Xl} (hf : s.fetchWord s.pc = .ok (w, x))
    {i : Instr} (hd : decode w = .ok i) (hb : (s.fetched s.pc x).barred i = false) :
    s.runAtPc ex = (s.fetched s.pc x).runInstr ex i := by simp [State.runAtPc, h, hf, hd, hb]

theorem State.runInstr_good {i : Instr} (h : s.badSource i = none) : s.runInstr ex i = s.watched i (ex i s) := by
  simp [State.runInstr, h]

theorem State.runInstr_bad {i : Instr} {r : BitVec 5} (h : s.badSource i = some r) :
    s.runInstr ex i = .next (s.trapHere .machineCheck (BitVec.ofNat 64 (0x100 + r.toNat)) 0) := by
  simp [State.runInstr, h]

end

theorem MemOnly.barred {s t : State} (h : MemOnly s t) (i : Instr) : t.barred i = s.barred i := by
  simp only [State.barred, h.service]

theorem MemOnly.lacksLevel {s t : State} (h : MemOnly s t) (i : Instr) : t.lacksLevel i = s.lacksLevel i := by
  unfold State.lacksLevel
  rw [h.k]

theorem MemOnly.badSource {s t : State} (h : MemOnly s t) (i : Instr) : t.badSource i = s.badSource i := by
  simp only [State.badSource, h.lacksLevel, h.badX]

/-! What is looked at after an instruction: nothing of it acts where no source is bad, no checksum differs and no slot is enabled. -/

theorem State.discard_blankPipe (s : State) : s.discard.blankPipe = s.blankPipe := rfl

theorem State.leaveRob_blankPipe (s t : State) (i : Instr) : (s.leaveRob t i).blankPipe = t.blankPipe := by
  unfold State.leaveRob
  split
  · rfl
  · dsimp only
    split
    · rfl
    · split <;> rfl

theorem State.mergeSettle_blankPipe (s : State) : s.mergeSettle.blankPipe = s.blankPipe := by
  unfold State.mergeSettle
  split <;> rfl

section
variable {s : State}

theorem State.matching_of_disabled (h : ∀ k : Fin 8, (s.obs.slots[k]).en = false) (store : Bool) (a n : Nat) :
    s.matching store a n = [] := by
  refine List.filter_eq_nil_iff.2 fun k _ => ?_
  have hk : s.slotHits s.obs.slots[k] = false := by simp only [State.slotHits, h k, Bool.false_and]
  simp only [hk, Bool.false_and, Bool.false_eq_true, not_false_eq_true]

theorem State.afterStore_of_disabled (h : ∀ k : Fin 8, (s.obs.slots[k]).en = false) (t : State) (i : Instr) :
    s.afterStore t i = t := by
  unfold State.afterStore
  split
  · rfl
  · rw [State.matching_of_disabled h]
    split <;> rfl

theorem State.renewX_of_good (h : s.core.badX = []) (t : State) (i : Instr) : s.renewX t i = t := by
  simp [State.renewX, h]

theorem State.checksum_of_match (hm : s.core.mismatch = none) (hr : ∀ r ∈ s.core.rob, r.wrong = none) (t : State) (i : Instr) :
    s.checksum t i = t := by
  have hc (r : RobEntry) (h : s.completed i = some r) : r.wrong = none :=
    hr r (List.mem_of_mem_head? (Option.eq_some_of_filter_eq_some h))
  unfold State.checksum
  dsimp only
  split
  · rfl
  · split
    next r hcr => rw [hc r hcr]; rfl
    next => rfl
    next m hcm => rw [hm] at hcm; cases hcm

end

/-- Settles O4: a turn outside a frame is the run of the word at pc, and what translating left behind concerns none of the checks. -/
theorem stepRunsDecoded : Obligations.StepRunsDecoded := by
  intro s w x i hagenda hrun hsafe hbreak hrf hfetch hdecode hbarred
  have hf : MemOnly s (s.fetched s.pc x) := fetched_memOnly s s.pc x
  have hstep := step_outsideFrame hrun hsafe hbreak hagenda hrf
  have hrunAt (ht : s.fetchTaken s.pc 1 = true) : s.runAtPc exec = (s.fetched s.pc x).runInstr exec i :=
    State.runAtPc_decoded exec ht hfetch hdecode ((hf.barred i).trans hbarred)
  refine ⟨fun ht => ?notTaken, fun ht => ⟨fun hg => ?good, fun r hr => ?bad, fun hslots hbadX hmis hrob => ?plain⟩⟩
  case notTaken => rw [hstep, State.runAtPc_notTaken exec ht]; rfl
  case good => rw [hstep, hrunAt ht, State.runInstr_good exec ((hf.badSource i).trans hg)]
  case bad => rw [hstep, hrunAt ht, State.runInstr_bad exec ((hf.badSource i).trans hr)]; rfl
  case plain =>
    have hg : (s.fetched s.pc x).badSource i = none := by
      rw [hf.badSource, State.badSource, hbadX]
      split <;> simp
    rw [hstep, hrunAt ht, State.runInstr_good exec hg]
    refine ⟨fun t hx => ?_, fun e hx => by rw [hx]; rfl⟩
    rw [hx]
    refine ⟨_, rfl, ?_⟩
    rw [State.mergeSettle_blankPipe, State.leaveRob_blankPipe, State.afterStore_of_disabled (by rw [hf.obs]; exact hslots),
      State.renewX_of_good (hf.badX.trans hbadX), State.checksum_of_match (hf.mismatch.trans hmis) (by rw [hf.rob]; exact hrob)]

/-- Settles O5: a word that no instruction is, and a fetch that fails, end the turn in their traps. -/
theorem stepTrapsOnWord : Obligations.StepTrapsOnWord := by
  intro s hagenda hrun hsafe hbreak hrf ht
  have hstep := step_outsideFrame hrun hsafe hbreak hagenda hrf
  refine ⟨fun w x hfetch hw => ?illegal, fun c p hfetch => ?fetchFault⟩
  case illegal =>
    rw [hstep, State.runAtPc_illegal exec ht hfetch fun i hi => ((fetched_memOnly s s.pc x).barred i).trans (hw i hi)]
    rfl
  case fetchFault => rw [hstep, State.runAtPc_fetchFault exec ht hfetch]; rfl

/-- Settles O6: the turn inside a frame is the run of its captured instruction. -/
theorem stepRunsCaptured : Obligations.StepRunsCaptured := by
  intro s i hagenda hrun hsafe hbreak hrf hi
  have hstep := step_insideFrame hrun hsafe hbreak hagenda hrf hi
  refine ⟨fun hwf hg => ?runs, fun hwf => ?illegal⟩
  case runs =>
    have hc : s.runCaptured exec = s.runInstr exec (staggered s.k s.k.iter i) := by simp [State.runCaptured, hi, hwf]
    rw [hstep, hc, State.runInstr_good exec hg]
  case illegal =>
    have hc : s.runCaptured exec = s.illegal ((encode i).getD 0) := by simp [State.runCaptured, hi, hwf]
    rw [hstep, hc]
    rfl

/-- Settles O7: an event is no instruction word, so the input is its meaning. -/
theorem stepTakesEvent : Obligations.StepTakesEvent := by
  intro s e r he hagenda
  rw [step_input s (.event e) r hagenda, State.takeInput, if_neg (by simp [he])]

end Sys2Proof.Machine
end

section
/-! The machine after power-on reset (10 R258; 16 R410; 18 R445). -/

namespace Sys2Proof.Machine

/-- Settles O9: every list of the machine is empty at reset, and k.status is 0. -/
theorem resetHasInvariant : Obligations.ResetHasInvariant where
  memory := rfl
  localStore := rfl
  flash := rfl
  l1 := ⟨List.nodup_nil, nofun⟩
  status := by unfold statusOk; decide
  counts := nofun

theorem reset_partAt (p : BitVec 3) : State.reset.partAt p = Part.reset := Vector.getElem_replicate ..

theorem reset_region (rg : BitVec 4) : State.reset.region rg = ⟨false, 0, 0, 0, 0, 0⟩ := Vector.getElem_replicate ..

/-- Every remap entry reads its reset contents, the low byte at the even address (10 R258). -/
theorem reset_remap (g : Nat) (h : g < 2 ^ 23) : State.reset.mem.readNat (remapBase + 2 * g) 2 = remapReset := by
  have byte (k : Nat) (hk : k < 2) : State.reset.mem.read (remapBase + 2 * g + k) = BitVec.ofNat 8 (remapReset / 256 ^ k) := by
    have hin : remapBase ≤ remapBase + 2 * g + k ∧ remapBase + 2 * g + k < remapBase + 2 ^ 24 := by omega
    have hpar : (remapBase + 2 * g + k) % 2 = k := by unfold remapBase; omega
    rw [show State.reset.mem.read _ = Mem.unlisted (remapBase + 2 * g + k) from rfl, Mem.unlisted, if_pos hin, hpar]
  rw [show State.reset.mem.readNat (remapBase + 2 * g) 2
    = leNat [State.reset.mem.read (remapBase + 2 * g + 0), State.reset.mem.read (remapBase + 2 * g + 1)] from rfl,
    byte 0 (by decide), byte 1 (by decide)]
  decide

/-- Settles O10: the registers of State.reset, the eight partitions by one. -/
theorem resetState : Obligations.ResetState := by
  refine ⟨rfl, rfl, rfl, rfl, rfl, rfl, rfl, rfl, rfl, rfl, fun p => ?part, fun rg => ?region, rfl, rfl, rfl, by decide, rfl,
    rfl, rfl, by decide, rfl, rfl, rfl, rfl, rfl, rfl, rfl, rfl, rfl, rfl, rfl, rfl, rfl, rfl, rfl, by decide, by decide,
    rfl, rfl, rfl, rfl, rfl, rfl, rfl, rfl, rfl, rfl, rfl, rfl, rfl, rfl, rfl, rfl, rfl, rfl, rfl, rfl, rfl, ?remap⟩
  case part =>
    rw [reset_partAt]
    exact ⟨rfl, rfl, rfl, rfl, rfl, rfl, rfl, rfl, rfl, rfl, rfl, rfl, rfl, rfl, rfl, rfl, rfl, rfl, rfl, rfl, rfl, rfl, rfl,
      rfl, rfl, rfl, rfl, rfl, rfl, rfl, rfl, rfl, rfl, by decide, by decide, by decide⟩
  case region => rw [reset_region]
  case remap => exact fun g hg => reset_remap g hg

end Sys2Proof.Machine
end

section
/-! The integer instructions (04 R102 to R108): the operations of the model as the manual's formulas, then one lemma for each of the
two tables. -/

namespace Sys2Proof.Machine

/-! The operations as the manual writes them. -/

theorem minS_eq (a b : Word64) : minS a b = BitVec.ofInt 64 (min a.toInt b.toInt) := by
  rw [minS, min_def, BitVec.slt]
  split <;> split <;> simp_all <;> omega
theorem maxS_eq (a b : Word64) : maxS a b = BitVec.ofInt 64 (max a.toInt b.toInt) := by
  rw [maxS, max_def, BitVec.slt]
  by_cases h : a.toInt < b.toInt
  · simp [h, h.le]
  · by_cases he : a.toInt = b.toInt
    · simp [BitVec.eq_of_toInt_eq he]
    · simp [h, show ¬ a.toInt ≤ b.toInt by omega]
theorem minU_eq (a b : Word64) : minU a b = BitVec.ofNat 64 (min a.toNat b.toNat) := by
  rw [minU, min_def, BitVec.ult]
  split <;> split <;> simp_all <;> omega
theorem maxU_eq (a b : Word64) : maxU a b = BitVec.ofNat 64 (max a.toNat b.toNat) := by
  rw [maxU, max_def, BitVec.ult]
  by_cases h : a.toNat < b.toNat
  · simp [h, h.le]
  · by_cases he : a.toNat = b.toNat
    · simp [BitVec.eq_of_toNat_eq he]
    · simp [h, show ¬ a.toNat ≤ b.toNat by omega]

theorem mulHighU_eq (a b : Word64) : mulHighU a b = (a.zeroExtend 128 * b.zeroExtend 128).extractLsb' 64 64 := by
  have hp : a.toNat * b.toNat < 2 ^ 64 * 2 ^ 64 := Nat.mul_lt_mul'' a.isLt b.isLt
  apply BitVec.eq_of_toNat_eq
  simp only [mulHighU, BitVec.extractLsb'_toNat, Nat.shiftRight_eq_div_pow, BitVec.toNat_ofNat, BitVec.toNat_mul, BitVec.truncate_eq_setWidth, BitVec.toNat_setWidth_of_le (show 64 ≤ 128 by decide)]
  rw [Nat.mod_eq_of_lt (show _ < 2 ^ 128 by omega)]

theorem mulHighS_eq (a b : Word64) : mulHighS a b = (a.signExtend 128 * b.signExtend 128).extractLsb' 64 64 := by
  have hs (x : Word64) : x.signExtend 128 = BitVec.ofInt 128 x.toInt := by
    rw [← BitVec.toInt_inj, BitVec.toInt_signExtend_of_le (by decide), BitVec.toInt_ofInt]
    have hlo := x.le_toInt
    have hhi := x.toInt_lt
    rw [Int.bmod_eq_of_le] <;> omega
  rw [hs, hs, ← BitVec.ofInt_mul]
  rw [mulHighS]
  generalize a.toInt * b.toInt = p
  apply BitVec.eq_of_toNat_eq
  simp only [Nat.reducePow, Int.reducePow, Nat.cast_ofNat, BitVec.extractLsb'_toNat, Nat.shiftRight_eq_div_pow, BitVec.toNat_ofInt]
  omega

theorem divU_eq (a b : Word64) : divU a b = if b = 0 then BitVec.allOnes 64 else a / b := by
  rw [divU]
  split
  · rfl
  · exact BitVec.eq_of_toNat_eq (by simp [Nat.mod_eq_of_lt ((Nat.div_le_self ..).trans_lt a.isLt)])
theorem remU_eq (a b : Word64) : remU a b = if b = 0 then a else a % b := by
  rw [remU]
  split
  · rfl
  · exact BitVec.eq_of_toNat_eq (by simp [Nat.mod_eq_of_lt ((Nat.mod_le ..).trans_lt a.isLt)])
theorem shamt_eq (b : Word64) : shamt b = (b.extractLsb' 0 6).toNat := by simp [shamt]
theorem flag_decide (c : Prop) [Decidable c] : flag (decide c) = truth c := by simp [flag, truth]
theorem flag_slt (a b : Word64) : flag (a.slt b) = truth (a.toInt < b.toInt) := flag_decide _
theorem flag_ult (a b : Word64) : flag (a.ult b) = truth (a.toNat < b.toNat) := flag_decide _
theorem flag_beq (a b : Word64) : flag (a == b) = truth (a = b) := by simp [flag, truth]
theorem flag_bne (a b : Word64) : flag (a != b) = truth (a ≠ b) := by simp [flag, truth]
theorem extractLsb'_zero_eq_setWidth (a : Word64) (n : Nat) : a.extractLsb' 0 n = a.setWidth n := by
  ext k hk
  simp
theorem setWidth_signExtend (i : BitVec 15) : (i.signExtend 64).setWidth 56 = i.signExtend 56 := by
  ext k hk
  simp [BitVec.getElem_signExtend, BitVec.getLsbD_signExtend, hk, show k < 64 by omega]
theorem padd_eq (a b : Word64) : padd a b = a.extractLsb' 56 8 ++ (a.setWidth 56 + b.setWidth 56) := by
  simp [padd, extractLsb'_zero_eq_setWidth]
theorem ptagged_eq (a b : Word64) : ptagged a b = b.setWidth 8 ++ a.setWidth 56 := by
  simp [ptagged, extractLsb'_zero_eq_setWidth]
theorem shl_eq (a : Word64) (n : Nat) : a <<< n = BitVec.ofNat 64 (a.toNat * 2 ^ n) :=
  BitVec.eq_of_toNat_eq (by simp [Nat.shiftLeft_eq])
theorem shr_eq (a : Word64) (n : Nat) : a >>> n = BitVec.ofNat 64 (a.toNat / 2 ^ n) :=
  BitVec.eq_of_toNat_eq (by simp [Nat.shiftRight_eq_div_pow, Nat.mod_eq_of_lt ((Nat.div_le_self ..).trans_lt a.isLt)])
theorem lih_eq (a : Word64) (i : BitVec 15) : a.extractLsb' 0 49 ++ i = a <<< 15 ||| i.zeroExtend 64 := by
  apply BitVec.eq_of_getLsbD_eq
  intro k hk
  rw [BitVec.getLsbD_append]
  by_cases h : k < 15
  · simp [h, hk]
  · have hi : i.getLsbD k = false := BitVec.getLsbD_of_ge i k (by omega)
    have hk' : k < 64 := hk
    simp [h, hk', hi, show k - 15 < 49 by omega, -BitVec.getLsbD_eq_getElem]

/-! The rows of the two tables. -/

theorem writeX_congr (d : BitVec 5) (s : State) {v w : Word64} (h : v = w) : writeX d v s = writeX d w s := by rw [h]

theorem exec_of_integerTable {i : Instr} {s : State} {d : BitVec 5} {v : Word64} (h : integerTable s.x i = some (d, v)) :
    exec i s = writeX d v s := by
  unfold integerTable at h
  split at h
  all_goals cases h
  all_goals refine writeX_congr _ s ?_
  all_goals simp [padd_eq, ptagged_eq, sar_eq, shamt_eq, minS_eq, maxS_eq, minU_eq, maxU_eq, mulHighS_eq, mulHighU_eq, divS_eq, remS_eq, divU_eq, remU_eq, onesBelow_eq, zerosFrom_eq, zerosUp_eq, flag_slt, flag_ult, flag_beq, flag_bne]
theorem exec_of_immediateTable {i : Instr} {s : State} {d : BitVec 5} {v : Word64} (h : immediateTable s.x i = some (d, v)) :
    exec i s = writeX d v s := by
  unfold immediateTable at h
  split at h
  all_goals cases h
  all_goals refine writeX_congr _ s ?_
  all_goals simp [padd_eq, sextImm, setWidth_signExtend, BitVec.toInt_signExtend_of_le, shl_eq, shr_eq, sar_eq, lih_eq, flag_slt, flag_ult, flag_beq]

/-- Settles O12: a row of either table is the value that the instruction writes. -/
theorem integerResults : Obligations.IntegerResults := by
  intro i s d v h
  have hi : exec i s = writeX d v s := h.elim exec_of_integerTable exec_of_immediateTable
  exact ⟨_, hi, SetsX.of_setX s d v⟩

end Sys2Proof.Machine
end

section
/-! Branches, jumps and calls (04 R114 to R116): the targets as the manual's formulas, and where each instruction goes. -/

namespace Sys2Proof.Machine

/-! Targets. -/

theorem State.nextPc_eq (s : State) : s.nextPc = BitVec.ofInt 56 (s.pc.toNat + 4) := by
  rw [BitVec.ofInt_add]
  simp [State.nextPc]

/-- A relative target is pc plus four times the signed offset (04 R114, R115). -/
theorem State.relative_eq {n : Nat} (s : State) (o : BitVec n) (h : n ≤ 56) :
    s.relative o = BitVec.ofInt 56 (s.pc.toNat + 4 * o.toInt) := by
  have hs : o.signExtend 56 = BitVec.ofInt 56 o.toInt := by
    rw [← BitVec.ofInt_toInt (x := o.signExtend 56), BitVec.toInt_signExtend_of_le h]
  rw [State.relative, hs, BitVec.ofInt_add, BitVec.ofInt_mul, BitVec.mul_comm]
  simp

theorem State.link_eq (s : State) : s.link = (s.pc + 4).zeroExtend 64 := rfl

/-- A branch goes to its target or to the next word (04 R114). -/
theorem branch_jumps (s : State) (o : BitVec 15) {b : Bool} {c : Prop} [Decidable c] (h : b = true ↔ c) :
    ∃ t, branch b o s = .next t ∧ Jumps s t (BitVec.ofInt 56 (s.pc.toNat + if c then 4 * o.toInt else 4)) := by
  refine ⟨_, rfl, ?_⟩
  by_cases hc : c
  · rw [if_pos (h.2 hc), if_pos hc, ← s.relative_eq o (by decide)]
    exact s.jump_jumps _
  · rw [if_neg (fun hb => hc (h.1 hb)), if_neg hc, ← s.nextPc_eq]
    exact s.jump_jumps _

/-- The alignment that jr and callr check (04 R116). -/
theorem aligned_iff (v : Word64) : (bits v 1 0 == 0) = true ↔ v.toNat % 4 = 0 := by
  simp [bits]

/-- The shape of jr and callr: the target is checked, then u goes to it. -/
theorem toRegister_jumps (s u : State) {v : Word64} (h : v.toNat % 4 = 0) :
    s.finish (do need (bits v 1 0 == 0) .pcAlign v; .ok (u.jump (v.setWidth 56))) = .next (u.jump (v.setWidth 56)) := by
  rw [(aligned_iff v).2 h]
  rfl
theorem toRegister_traps (s u : State) {v : Word64} (h : v.toNat % 4 ≠ 0) :
    s.finish (do need (bits v 1 0 == 0) .pcAlign v; .ok (u.jump (v.setWidth 56))) = .next (s.trapHere .pcAlign v 0) := by
  rw [Bool.eq_false_iff.2 (fun hb => h ((aligned_iff v).1 hb))]
  rfl

/-- Settles O18, by the targets of the relative forms and the check that jr and callr share. -/
theorem controlTransfers : Obligations.ControlTransfers := by
  refine ⟨fun s a b o => ⟨?beq, ?bne, ?blt, ?bge⟩, fun s o => ⟨?j, ?call⟩, fun s d a => ⟨fun h => ⟨?jr, ?callr⟩, fun h => ⟨?jrTrap, ?callrTrap⟩⟩⟩
  case beq => exact branch_jumps s o beq_iff_eq
  case bne => exact branch_jumps s o bne_iff_ne
  case blt => exact branch_jumps s o BitVec.slt_iff_toInt_lt
  case bge => exact branch_jumps s o (by rw [Bool.not_eq_true', ← Bool.not_eq_true, BitVec.slt_iff_toInt_lt, not_lt])
  case j =>
    rw [← s.relative_eq o (by decide)]
    exact ⟨_, rfl, s.jump_jumps _⟩
  case call =>
    rw [← s.relative_eq o (by decide)]
    exact ⟨_, _, rfl, SetsX.of_setX s 1 s.link, State.jump_jumps _ _⟩
  case jr => exact ⟨_, toRegister_jumps s s h, s.jump_jumps _⟩
  case callr => exact ⟨_, _, toRegister_jumps s (s.setX d s.link) h, SetsX.of_setX s d s.link, State.jump_jumps _ _⟩
  case jrTrap => exact ⟨0, toRegister_traps s s h⟩
  case callrTrap => exact ⟨0, toRegister_traps s (s.setX d s.link) h⟩
end Sys2Proof.Machine
end

section
/-! Encodings and rounding (02 R44, R59): an encoding is a sign beside a magnitude field, it is finite when the field is at most
the largest finite one, and the rounding of its value gives it back. -/

namespace Sys2Proof.Machine

/-- A layout with an exponent and a mantissa field. -/
structure FFmt.Ok (f : FFmt) : Prop where
  exp : 1 ≤ f.E
  man : 1 ≤ f.M

/-- The value of a sign and a magnitude field, exponent above mantissa (R44, R61). -/
def FFmt.readMag (f : FFmt) (ftz s : Bool) (mag : Nat) : FVal :=
  if f.kind == .ieee && mag / 2 ^ f.M == 2 ^ f.E - 1 then (if mag % 2 ^ f.M == 0 then .inf s else .nan)
  else if f.kind == .e4m3 && mag / 2 ^ f.M == 2 ^ f.E - 1 && mag % 2 ^ f.M == 2 ^ f.M - 1 then .nan
  else if mag / 2 ^ f.M == 0 then
    (if ftz && f.ftzApplies then .fin s 0 0 else .fin s (mag % 2 ^ f.M) (1 - (f.bias : Int) - f.M))
  else .fin s (2 ^ f.M + mag % 2 ^ f.M) ((mag / 2 ^ f.M : Nat) - (f.bias : Int) - f.M)

section
variable {f : FFmt} {mag : Nat}

theorem FFmt.sign_field (h : mag < 2 ^ (f.E + f.M)) (s : Bool) :
    (f.signBit s + mag) / 2 ^ (f.E + f.M) = if s then 1 else 0 := by
  cases s <;> simp [FFmt.signBit, Nat.add_div_left, Nat.div_eq_of_lt h]

theorem FFmt.exp_field (h : mag < 2 ^ (f.E + f.M)) (s : Bool) : (f.signBit s + mag) / 2 ^ f.M % 2 ^ f.E = mag / 2 ^ f.M := by
  rw [← Nat.mod_mul_right_div_self, ← pow_add, Nat.add_comm f.M]
  cases s <;> simp [FFmt.signBit, Nat.mod_eq_of_lt h]

theorem FFmt.man_field (s : Bool) : (f.signBit s + mag) % 2 ^ f.M = mag % 2 ^ f.M := by
  have hdvd : 2 ^ f.M ∣ f.signBit s := by
    cases s <;> simp [FFmt.signBit, pow_dvd_pow]
  rw [Nat.add_mod, Nat.mod_eq_zero_of_dvd hdvd, Nat.zero_add, Nat.mod_mod]

/-- Reading an encoding reads its sign and its magnitude field. -/
theorem FFmt.read_signBit_add (h : mag < 2 ^ (f.E + f.M)) (ftz s : Bool) :
    f.read ftz (f.signBit s + mag) = f.readMag ftz s mag := by
  unfold FFmt.read FFmt.readMag
  rw [f.sign_field h, f.exp_field h, f.man_field]
  cases s <;> rfl

/-- Every encoding is a sign beside a magnitude field. -/
theorem FFmt.exists_signBit_add {n : Nat} (h : n < 2 ^ f.width) :
    ∃ s mag, n = f.signBit s + mag ∧ mag < 2 ^ (f.E + f.M) := by
  refine ⟨n / 2 ^ (f.E + f.M) == 1, n % 2 ^ (f.E + f.M), ?_, Nat.mod_lt _ (by positivity)⟩
  have hlt : n / 2 ^ (f.E + f.M) < 2 := by
    rw [Nat.div_lt_iff_lt_mul (by positivity), ← pow_succ']
    rwa [FFmt.width, Nat.add_assoc, Nat.add_comm] at h
  have hdm := Nat.div_add_mod n (2 ^ (f.E + f.M))
  interval_cases hq : n / 2 ^ (f.E + f.M) <;> simp [FFmt.signBit] <;> omega

theorem FFmt.signBit_add_lt (h : mag < 2 ^ (f.E + f.M)) (s : Bool) : f.signBit s + mag < 2 ^ f.width := by
  rw [FFmt.width, Nat.add_assoc, Nat.add_comm 1, pow_succ']
  cases s <;> simp [FFmt.signBit] <;> omega

variable (hf : f.Ok)
include hf

theorem FFmt.maxFinite_lt : f.maxFinite < 2 ^ (f.E + f.M) := by
  have hE : 2 ≤ 2 ^ f.E := le_self_pow₀ (by decide) (by have := hf.exp; omega)
  have hM : 2 ≤ 2 ^ f.M := le_self_pow₀ (by decide) (by have := hf.man; omega)
  unfold FFmt.maxFinite
  rw [pow_add]
  generalize 2 ^ f.E = A at *
  generalize 2 ^ f.M = B at *
  obtain ⟨A, rfl⟩ := Nat.exists_eq_add_of_le hE
  cases f.kind <;> simp only [Nat.add_sub_cancel_left, Nat.add_mul] <;> [skip; rw [show 2 + A - 1 = A + 1 by omega, Nat.add_mul]; skip] <;> omega

/-- An encoding is finite when its magnitude field is at most the largest finite one. -/
theorem FFmt.readMag_isFinite (h : mag < 2 ^ (f.E + f.M)) (ftz s : Bool) :
    (f.readMag ftz s mag).isFinite = true ↔ mag ≤ f.maxFinite := by
  have hE : 2 ≤ 2 ^ f.E := le_self_pow₀ (by decide) (by have := hf.exp; omega)
  have hM : 2 ≤ 2 ^ f.M := le_self_pow₀ (by decide) (by have := hf.man; omega)
  have hdm := Nat.div_add_mod mag (2 ^ f.M)
  have hm := Nat.mod_lt mag (show 0 < 2 ^ f.M by omega)
  have he : mag / 2 ^ f.M < 2 ^ f.E := by
    rwa [Nat.div_lt_iff_lt_mul (by omega), ← pow_add]
  unfold FFmt.readMag FFmt.maxFinite
  rw [pow_add] at *
  generalize mag / 2 ^ f.M = e at *
  generalize mag % 2 ^ f.M = m at *
  generalize 2 ^ f.E = A at *
  generalize 2 ^ f.M = B at *
  subst hdm
  obtain ⟨A, rfl⟩ := Nat.exists_eq_add_of_le' hE
  have hfin : (if (e == 0) = true then (if (ftz && f.ftzApplies) = true then FVal.fin s 0 0 else .fin s m (1 - (f.bias : Int) - f.M))
    else .fin s (B + m) ((e : Int) - f.bias - f.M)).isFinite = true := by
    split
    · split <;> rfl
    · rfl
  generalize (if (e == 0) = true then _ else _ : FVal) = v at *
  have hp : e = A + 1 → B * e = A * B + B := by rintro rfl; ring
  have hp' : e ≠ A + 1 → B * e ≤ A * B := fun hne => by
    rw [Nat.mul_comm]
    exact Nat.mul_le_mul_right B (by omega)
  rw [Nat.add_mul] at h
  rw [show A + 2 - 1 = A + 1 by omega, Nat.add_mul, Nat.add_mul, show A + 2 - 2 = A by omega]
  generalize B * e = p at *
  generalize A * B = q at *
  cases f.kind
  case ieee =>
    by_cases htop : e = A + 1
    · simp [htop]
      have := hp htop
      refine iff_of_false ?_ (by omega)
      split <;> simp [FVal.isFinite]
    · have := hp' htop
      simp [htop, hfin]
      omega
  case e4m3 =>
    by_cases htop : e = A + 1 ∧ m = B - 1
    · have := hp htop.1
      simp [htop, FVal.isFinite]
      omega
    · have h1 : ((e == A + 1) && (m == B - 1)) = false := by simpa using htop
      simp [h1, hfin]
      by_cases hne : e = A + 1
      · have := hp hne
        omega
      · have := hp' hne
        omega
  case finite => 
    by_cases hne : e = A + 1
    · have := hp hne
      simp [hfin]
      omega
    · have := hp' hne
      simp [hfin]
      omega

/-! Rounding (R59). -/

/-- What a rounding gives: a sign beside a magnitude field, past the largest finite one exactly where it says that a finite
value became an infinity. -/
structure Rounded.Encodes (f : FFmt) (r : Rounded) (s : Bool) (mag : Nat) : Prop where
  bits : r.bits = f.signBit s + mag
  lt : mag < 2 ^ (f.E + f.M)
  toInf : r.toInf = true ↔ f.maxFinite < mag

theorem FFmt.maxFinite_lt_infMag (h : f.kind = .ieee) :
    f.maxFinite < (2 ^ f.E - 1) * 2 ^ f.M ∧ (2 ^ f.E - 1) * 2 ^ f.M < 2 ^ (f.E + f.M) := by
  have hE : 2 ≤ 2 ^ f.E := le_self_pow₀ (by decide) (by have := hf.exp; omega)
  have hM : 2 ≤ 2 ^ f.M := le_self_pow₀ (by decide) (by have := hf.man; omega)
  rw [FFmt.maxFinite, h, pow_add]
  obtain ⟨A, hA⟩ := Nat.exists_eq_add_of_le' hE
  generalize 2 ^ f.M = B at *
  rw [hA, show A + 2 - 1 = A + 1 by omega, show A + 2 - 2 = A by omega, Nat.add_mul, Nat.add_mul]
  simp only
  omega

theorem FFmt.overflow_encodes (rm : Rm) (sat s : Bool) : ∃ mag, (f.overflow rm sat s).Encodes f s mag := by
  unfold FFmt.overflow
  dsimp only
  split_ifs with h
  · have hk : f.kind = .ieee := by
      simp only [Bool.and_eq_true, Bool.not_eq_true', Bool.or_eq_false_iff] at h
      simpa [FFmt.saturating] using h.1.2
    have := f.maxFinite_lt_infMag hf hk
    exact ⟨_, rfl, this.2, by simpa using this.1⟩
  · exact ⟨_, rfl, f.maxFinite_lt hf, by simp⟩

/-- The rounding of a finite value. -/
theorem FFmt.round_encodes (rm : Rm) (sat ftz s : Bool) (m : Nat) (e : Int) :
    ∃ mag, (f.round rm sat ftz (.fin s m e)).Encodes f s mag := by
  have hmax := f.maxFinite_lt hf
  have hzero : (⟨f.signBit s, false⟩ : Rounded).Encodes f s 0 := ⟨rfl, by positivity, by simp⟩
  unfold FFmt.round
  dsimp only
  split
  · exact ⟨_, hzero⟩
  · generalize (if unitRound rm s m e _ < 2 ^ f.M then _ else _ : Nat) = mag
    split
    · exact f.overflow_encodes hf rm sat s
    · split
      · exact ⟨_, hzero⟩
      · exact ⟨mag, rfl, by omega, by simpa using by omega⟩

/-- What a finite value rounds to is finite unless it became an infinity. -/
theorem FFmt.read_round_isFinite {v : FVal} (h : v.isFinite = true) (rm : Rm) (sat ftz ftz' : Bool) :
    (f.read ftz' (f.round rm sat ftz v).bits).isFinite = !(f.round rm sat ftz v).toInf := by
  obtain _ | _ | ⟨s, m, e⟩ := v
  · cases h
  · cases h
  · obtain ⟨mag, hr⟩ := f.round_encodes hf rm sat ftz s m e
    rw [hr.bits, FFmt.read_signBit_add hr.lt, Bool.eq_iff_iff, FFmt.readMag_isFinite hf hr.lt, Bool.not_eq_true', ← Bool.not_eq_true, hr.toInf, not_lt]

/-- A rounding says that a value became an infinity when a finite value gave an encoding that is not finite. -/
theorem FFmt.round_toInf_iff (rm : Rm) (sat ftz ftz' : Bool) (v : FVal) :
    (f.round rm sat ftz v).toInf = true ↔ v.isFinite = true ∧ (f.read ftz' (f.round rm sat ftz v).bits).isFinite = false := by
  cases hv : v.isFinite
  · rcases v with _ | s | _
    · simp [FFmt.round]
    · simp only [FFmt.round]
      split <;> simp
    · cases hv
  · simp [FFmt.read_round_isFinite hf hv]

theorem FFmt.round_bits_lt (rm : Rm) (sat ftz : Bool) (v : FVal) : (f.round rm sat ftz v).bits < 2 ^ f.width := by
  have hE : 2 ≤ 2 ^ f.E := le_self_pow₀ (by decide) (by have := hf.exp; omega)
  have hM : 2 ≤ 2 ^ f.M := le_self_pow₀ (by decide) (by have := hf.man; omega)
  obtain _ | s | ⟨s, m, e⟩ := v
  · have hlt : f.nanBits < 2 ^ (f.E + f.M) := by
      unfold FFmt.nanBits
      split
      · have hhalf : 2 ^ (f.M - 1) < 2 ^ f.M := Nat.pow_lt_pow_right (by decide) (by have := hf.man; omega)
        rw [pow_add]
        obtain ⟨A, hA⟩ := Nat.exists_eq_add_of_le' hE
        rw [hA, show A + 2 - 1 = A + 1 by omega, Nat.add_mul, Nat.add_mul]
        omega
      · have : 0 < 2 ^ (f.E + f.M) := by positivity
        omega
      · positivity
    change f.nanBits < _
    simpa [FFmt.signBit] using f.signBit_add_lt hlt false
  · have hinf : (2 ^ f.E - 1) * 2 ^ f.M < 2 ^ (f.E + f.M) := by
      rw [pow_add]
      exact Nat.mul_lt_mul_of_pos_right (by omega) (by omega)
    rw [FFmt.round]
    split
    · exact f.signBit_add_lt (f.maxFinite_lt hf) s
    · exact f.signBit_add_lt hinf s
  · obtain ⟨mag, hr⟩ := f.round_encodes hf rm sat ftz s m e
    rw [hr.bits]
    exact f.signBit_add_lt hr.lt s

/-! The rounding of a value that the format has. -/

/-- A finite magnitude field is a subnormal's mantissa in the lowest unit, or a normal's mantissa with its hidden bit. -/
theorem FFmt.readMag_of_le (h : mag ≤ f.maxFinite) (s : Bool) :
    f.readMag false s mag = if mag / 2 ^ f.M = 0 then .fin s (mag % 2 ^ f.M) (1 - (f.bias : Int) - f.M)
      else .fin s (2 ^ f.M + mag % 2 ^ f.M) ((mag / 2 ^ f.M : Nat) - (f.bias : Int) - f.M) := by
  have hfin := (f.readMag_isFinite hf (h.trans_lt (f.maxFinite_lt hf)) false s).2 h
  unfold FFmt.readMag at hfin ⊢
  split_ifs at hfin ⊢ <;> simp_all [FVal.isFinite]

omit hf in
/-- Units that a value is a multiple of need no rounding. -/
theorem unitRound_of_le (rm : Rm) (s : Bool) (m : Nat) {e q : Int} (h : q = e) : unitRound rm s m e q = m := by
  subst h
  simp [unitRound]

omit hf in
/-- A mantissa without the hidden bit, in the lowest unit, is its own magnitude field. -/
theorem FFmt.round_subnormal (hm : mag < 2 ^ f.M) (hmax : mag ≤ f.maxFinite) (rm : Rm) (sat s : Bool) :
    f.round rm sat false (.fin s mag (1 - (f.bias : Int) - f.M)) = ⟨f.signBit s + mag, false⟩ := by
  by_cases h0 : mag = 0
  · simp [FFmt.round, h0]
  · have hlog : mag.log2 < f.M := (Nat.log2_lt h0).2 hm
    have hq : max ((mag.log2 : Int) + (1 - (f.bias : Int) - f.M) - f.M) (1 - (f.bias : Int) - f.M) = 1 - (f.bias : Int) - f.M :=
      max_eq_right (by omega)
    simp [FFmt.round, h0, hq, unitRound_of_le, hm, Nat.not_lt.2 hmax]

omit hf in
/-- A mantissa with the hidden bit, at an exponent field, is the magnitude field of the two. -/
theorem FFmt.round_normal {e m : Nat} (he : 1 ≤ e) (hm : m < 2 ^ f.M) (hmax : 2 ^ f.M * e + m ≤ f.maxFinite) (rm : Rm) (sat s : Bool) :
    f.round rm sat false (.fin s (2 ^ f.M + m) ((e : Int) - f.bias - f.M)) = ⟨f.signBit s + (2 ^ f.M * e + m), false⟩ := by
  have hpos : 0 < 2 ^ f.M := by positivity
  have hlog : (2 ^ f.M + m).log2 = f.M := by
    rw [Nat.log2_eq_iff (by omega), pow_succ]
    omega
  have hq : max (((2 ^ f.M + m).log2 : Int) + ((e : Int) - f.bias - f.M) - f.M) (1 - (f.bias : Int) - f.M) = (e : Int) - f.bias - f.M := by
    rw [hlog]
    exact (max_eq_left (by omega)).trans (by omega)
  have hunits : ((e : Int) - f.bias - f.M - (1 - (f.bias : Int) - f.M)).toNat = e - 1 := by omega
  have hmag : (e - 1) * 2 ^ f.M + (2 ^ f.M + m) = 2 ^ f.M * e + m := by
    obtain ⟨k, rfl⟩ := Nat.exists_eq_add_of_le' he
    rw [Nat.add_sub_cancel]
    ring
  have h0 : 2 ^ f.M + m ≠ 0 := by omega
  have hbig : ¬ 2 ^ f.M + m < 2 ^ f.M := by omega
  unfold FFmt.round
  dsimp only
  rw [hq, unitRound_of_le rm s _ rfl, hunits, if_neg (by simpa using h0), if_neg hbig, hmag, if_neg (by omega)]
  simp

theorem FFmt.round_readMag (h : mag ≤ f.maxFinite) (rm : Rm) (sat s : Bool) :
    f.round rm sat false (f.readMag false s mag) = ⟨f.signBit s + mag, false⟩ := by
  have hdm := Nat.div_add_mod mag (2 ^ f.M)
  have hm := Nat.mod_lt mag (show 0 < 2 ^ f.M by positivity)
  rw [FFmt.readMag_of_le hf h]
  split
  · rename_i h0
    have hmag : mag % 2 ^ f.M = mag := by rw [h0] at hdm; omega
    rw [hmag] at hm ⊢
    exact f.round_subnormal hm h rm sat s
  · rename_i h0
    rw [FFmt.round_normal (Nat.pos_of_ne_zero h0) hm (hdm.le.trans h), hdm]

/-- A finite encoding rounds to itself, in every direction (02 R44, R59). -/
theorem FFmt.round_read {n : Nat} (hn : n < 2 ^ f.width) (hfin : (f.read false n).isFinite = true) (rm : Rm) (sat : Bool) :
    f.round rm sat false (f.read false n) = ⟨n, false⟩ := by
  obtain ⟨s, mag, rfl, hlt⟩ := f.exists_signBit_add hn
  rw [FFmt.read_signBit_add hlt] at hfin ⊢
  exact FFmt.round_readMag hf ((FFmt.readMag_isFinite hf hlt false s).1 hfin) rm sat s

end

/-- The formats of R44 have both fields. -/
theorem FFmt.ok_of_mem {f : FFmt} (h : f ∈ [fp64, fp32, bf16, fp16, fp8e4, fp8e5, fp6e3, fp6e2, fp4]) : f.Ok := by
  simp only [List.mem_cons, List.not_mem_nil, or_false] at h
  rcases h with rfl | rfl | rfl | rfl | rfl | rfl | rfl | rfl | rfl <;> exact ⟨by decide, by decide⟩

/-- Settles O16: an encoding is a sign beside a magnitude field, and the rounding of its value gives both back. -/
theorem roundingKeepsValues : Obligations.RoundingKeepsValues :=
  fun _ rm sat _ hf hn hfin => FFmt.round_read (FFmt.ok_of_mem hf) hn hfin rm sat

end Sys2Proof.Machine
end

section
/-! Scalar floating point (04 R104, R109 to R113): the values of the table, the special operands, and conversion. -/

namespace Sys2Proof.Machine

/-! Comparisons. -/

/-- The order is asymmetric. -/
theorem FVal.lt_asymm {x y : FVal} (h : x.lt y = true) : y.lt x = false := by
  rcases x with _ | s | ⟨s, m, e⟩ <;> rcases y with _ | t | ⟨t, n, g⟩ <;> simp_all [FVal.lt]
  rw [min_comm]
  omega

theorem FVal.lt_of_isNan {x y : FVal} (h : x.isNan = true ∨ y.isNan = true) : x.lt y = false := by
  rcases x with _ | s | ⟨s, m, e⟩ <;> rcases y with _ | t | ⟨t, n, g⟩ <;> simp_all [FVal.lt, FVal.isNan]

theorem flag_eq_truth {b : Bool} {c : Prop} [Decidable c] (h : b = true ↔ c) : flag b = truth c := by
  simp [flag, truth, h]

theorem FVal.le_iff (x y : FVal) : x.le y = true ↔ (!x.isNan) = true ∧ (!y.isNan) = true ∧ y.lt x = false := by
  cases hx : x.isNan
  · cases hy : y.isNan
    · cases h : x.lt y
      · simp [FVal.le, FVal.eq, h, hx, hy]
      · simp [FVal.le, h, FVal.lt_asymm h]
    · simp [FVal.le, FVal.eq, hy, FVal.lt_of_isNan (.inr hy)]
  · simp [FVal.le, FVal.eq, hx, FVal.lt_of_isNan (.inl hx)]
theorem FVal.eq_iff (x y : FVal) : x.eq y = true ↔ (!x.isNan) = true ∧ (!y.isNan) = true ∧ x.lt y = false ∧ y.lt x = false := by
  simp [FVal.eq, and_assoc]

/-! The model's operands and results. -/

theorem fIn_eq (f : FFmt) (s : State) (r : BitVec 5) : fIn f s r = floatOperand f s r := rfl

theorem State.rdn_eq (s : State) : s.rdn = zeroSumSign s := by
  have h : ∀ b : BitVec 2, (Rm.ofBits b == .rdn) = (b == 2) := by decide
  exact h s.k.rm

/-- fmin and fmax leave an operand as it is, but a subnormal that ftz acts on (04 R111). -/
theorem keepBits_eq {f : FFmt} (hf : f.Ok) (s : State) (r : BitVec 5) : keepBits f s r = selectedBits f s r := by
  unfold keepBits selectedBits
  dsimp only
  rw [fIn_eq, floatOperand]
  have hlt : (s.x r).toNat % 2 ^ f.width < 2 ^ f.width := Nat.mod_lt _ (by positivity)
  obtain ⟨sg, mag, hn, hm⟩ := f.exists_signBit_add hlt
  rw [hn, FFmt.read_signBit_add hm, FFmt.exp_field hm, FFmt.sign_field hm]
  have hsign : (if sg = true then 1 else 0) * 2 ^ (f.E + f.M) = f.signBit sg := by cases sg <;> simp [FFmt.signBit]
  rw [hsign]
  have hE : 2 ≤ 2 ^ f.E := le_self_pow₀ (by decide) (by have := hf.exp; omega)
  have htop : ¬ 0 = 2 ^ f.E - 1 := by omega
  have hpos : 0 < 2 ^ f.M := by positivity
  by_cases he : mag / 2 ^ f.M = 0
  · have hmag : mag % 2 ^ f.M = mag := Nat.mod_eq_of_lt ((Nat.div_eq_zero_iff_lt hpos).1 he)
    cases hz : (s.k.ftz && f.ftzApplies)
    · rcases mag with _ | n <;> simp [FFmt.readMag, he, htop, hz, hmag]
    · simp [FFmt.readMag, he, htop, hz]
  · simp [FFmt.readMag, he]
    split_ifs <;> simp

theorem fPick_eq {f : FFmt} (hf : f.Ok) (pick : FVal → FVal → Bool) (d a b : BitVec 5) (s : State) :
    fPick f pick d a b s = writeX d (selectFloat f s a b pick) s := by
  unfold fPick selectFloat
  simp only [keepBits_eq hf, fIn_eq]
  refine writeX_congr d s (congrArg _ ?_)
  cases (floatOperand f s a).isNan <;> cases (floatOperand f s b).isNan <;> simp

/-! The rows of the table, for either format (04 R109). -/

section
variable (f : FFmt) (d a b : BitVec 5) (s : State)

theorem fAdd_eq : fAdd f d a b s = writeX d (floatValue f s 0 d a b) s := by
  rw [fAdd, State.rdn_eq]
  rfl
theorem fSub_eq : fSub f d a b s = writeX d (floatValue f s 1 d a b) s := by
  rw [fSub, State.rdn_eq]
  rfl
theorem fMul_eq : fOut f d (FVal.mul (fIn f s a) (fIn f s b)) s = writeX d (floatValue f s 2 d a b) s := rfl
theorem fDiv_eq : fOut f d (FVal.div (fIn f s a) (fIn f s b)) s = writeX d (floatValue f s 3 d a b) s := rfl
theorem fMin_eq (hf : f.Ok) : fPick f (fun y x => y.below x) d a b s = writeX d (floatValue f s 4 d a b) s :=
  fPick_eq hf ..
theorem fMax_eq (hf : f.Ok) : fPick f (fun y x => x.below y) d a b s = writeX d (floatValue f s 5 d a b) s :=
  fPick_eq hf ..
theorem fSqrt_eq : fOut f d (FVal.sqrt (fIn f s a)) s = writeX d (floatValue f s 6 d a b) s := rfl
theorem fFma_eq : fFma f d a b s = writeX d (floatValue f s 7 d a b) s := by
  rw [fFma, State.rdn_eq]
  rfl
theorem fEq_eq : writeX d (flag (FVal.eq (fIn f s a) (fIn f s b))) s = writeX d (floatValue f s 8 d a b) s :=
  writeX_congr d s (flag_eq_truth (FVal.eq_iff _ _))
theorem fLt_eq : writeX d (flag (FVal.lt (fIn f s a) (fIn f s b))) s = writeX d (floatValue f s 9 d a b) s :=
  writeX_congr d s (flag_eq_truth Iff.rfl)
theorem fLe_eq : writeX d (flag (FVal.le (fIn f s a) (fIn f s b))) s = writeX d (floatValue f s 10 d a b) s :=
  writeX_congr d s (flag_eq_truth (FVal.le_iff _ _))

end

theorem fp32_ok : fp32.Ok := ⟨by decide, by decide⟩
theorem fp64_ok : fp64.Ok := ⟨by decide, by decide⟩

/-- A scalar floating-point form writes the value of the table. -/
theorem exec_of_floatForm {i : Instr} {s : State} {f : FFmt} {fn : Nat} {d a b : BitVec 5} (h : floatForm i = some (f, fn, d, a, b)) :
    exec i s = writeX d (floatValue f s fn d a b) s := by
  unfold floatForm at h
  split at h
  all_goals cases h
  case h_1 => exact fAdd_eq fp32 ..
  case h_2 => exact fSub_eq fp32 ..
  case h_3 => exact fMul_eq fp32 ..
  case h_4 => exact fDiv_eq fp32 ..
  case h_5 => exact fMin_eq fp32 _ _ _ _ fp32_ok
  case h_6 => exact fMax_eq fp32 _ _ _ _ fp32_ok
  case h_7 => exact fSqrt_eq fp32 ..
  case h_8 => exact fFma_eq fp32 ..
  case h_9 => exact fEq_eq fp32 ..
  case h_10 => exact fLt_eq fp32 ..
  case h_11 => exact fLe_eq fp32 ..
  case h_12 => exact fAdd_eq fp64 ..
  case h_13 => exact fSub_eq fp64 ..
  case h_14 => exact fMul_eq fp64 ..
  case h_15 => exact fDiv_eq fp64 ..
  case h_16 => exact fMin_eq fp64 _ _ _ _ fp64_ok
  case h_17 => exact fMax_eq fp64 _ _ _ _ fp64_ok
  case h_18 => exact fSqrt_eq fp64 ..
  case h_19 => exact fFma_eq fp64 ..
  case h_20 => exact fEq_eq fp64 ..
  case h_21 => exact fLt_eq fp64 ..
  case h_22 => exact fLe_eq fp64 ..

/-- Settles O14, by the rows of the table. -/
theorem floatResults : Obligations.FloatResults :=
  fun _ s f fn d a b h => ⟨_, exec_of_floatForm h, SetsX.of_setX s d (floatValue f s fn d a b)⟩

end Sys2Proof.Machine
end

section
/-! The special operands of the scalar floating-point forms (02 R45; 04 R104, R110, R111). -/

namespace Sys2Proof.Machine

/-! Exact arithmetic with a NaN. -/

theorem FVal.isNan_iff {x : FVal} : x.isNan = true ↔ x = .nan := by cases x <;> simp [FVal.isNan]
@[simp] theorem FVal.isNan_nan : FVal.nan.isNan = true := rfl
theorem FVal.add_nan (z : Bool) {x y : FVal} (h : x = .nan ∨ y = .nan) : FVal.add z x y = .nan := by
  rcases h with rfl | rfl
  · simp [FVal.add]
  · cases x <;> simp [FVal.add]
theorem FVal.mul_nan {x y : FVal} (h : x = .nan ∨ y = .nan) : FVal.mul x y = .nan := by
  rcases h with rfl | rfl
  · simp [FVal.mul]
  · cases x <;> simp [FVal.mul]
theorem FVal.div_nan {x y : FVal} (h : x = .nan ∨ y = .nan) : FVal.div x y = .nan := by
  rcases h with rfl | rfl
  · simp [FVal.div]
  · cases x <;> simp [FVal.div]

/-- An infinity times a zero (R110). -/
theorem FVal.mul_inf_zero {x y : FVal} {g h : Bool} {e : Int}
    (hxy : (x = .inf g ∧ y = .fin h 0 e) ∨ (x = .fin h 0 e ∧ y = .inf g)) : FVal.mul x y = .nan := by
  rcases hxy with ⟨rfl, rfl⟩ | ⟨rfl, rfl⟩ <;> rfl

/-! Results in the two formats of the scalar forms. -/

/-- A format that a register holds and that has infinities. -/
structure FFmt.Scalar (f : FFmt) : Prop extends f.Ok where
  fits : f.width ≤ 64
  infinite : f.saturating = false

theorem fp32_scalar : fp32.Scalar := ⟨fp32_ok, by decide, by decide⟩
theorem fp64_scalar : fp64.Scalar := ⟨fp64_ok, by decide, by decide⟩

theorem selectedBits_lt (f : FFmt) (s : State) (r : BitVec 5) : selectedBits f s r < 2 ^ f.width := by
  have hlt : (s.x r).toNat % 2 ^ f.width < 2 ^ f.width := Nat.mod_lt _ (by positivity)
  unfold selectedBits
  dsimp only
  split
  · exact (Nat.div_mul_le_self ..).trans_lt hlt
  · exact hlt

theorem FFmt.nanBits_lt {f : FFmt} (hf : f.Ok) : f.nanBits < 2 ^ f.width := FFmt.round_bits_lt hf .rne false false .nan

section
variable {f : FFmt} (hf : f.Scalar) (s : State) (d a b : BitVec 5)
include hf

/-- An encoding of the format, in a register. -/
theorem FFmt.Scalar.toNat_ofNat {n : Nat} (hn : n < 2 ^ f.width) : (BitVec.ofNat 64 n).toNat = n :=
  Nat.mod_eq_of_lt (hn.trans_le (Nat.pow_le_pow_right (by decide) hf.fits))

theorem floatResultOf_toNat (v : FVal) : (floatResultOf f s v).toNat = (f.round (Rm.ofBits s.k.rm) false s.k.ftz v).bits :=
  hf.toNat_ofNat (FFmt.round_bits_lt hf.toOk ..)

theorem floatResultOf_nan {v : FVal} (h : v = .nan) : (floatResultOf f s v).toNat = f.nanBits := by
  rw [floatResultOf_toNat hf, h]
  rfl

theorem floatResultOf_inf (g : Bool) : (floatResultOf f s (.inf g)).toNat = f.infBits g := by
  rw [floatResultOf_toNat hf, FFmt.round, hf.infinite]
  rfl

theorem selectFloat_toNat (first : FVal → FVal → Bool) :
    (selectFloat f s a b first).toNat = if (floatOperand f s a).isNan && (floatOperand f s b).isNan then f.nanBits
      else if (floatOperand f s a).isNan || (!(floatOperand f s b).isNan && first (floatOperand f s b) (floatOperand f s a)) then selectedBits f s b
      else selectedBits f s a := by
  refine hf.toNat_ofNat ?_
  split_ifs
  · exact FFmt.nanBits_lt hf.toOk
  · exact selectedBits_lt f s b
  · exact selectedBits_lt f s a

theorem floatValue_lt (fn : Nat) : (floatValue f s fn d a b).toNat < 2 ^ f.width := by
  have hround (v : FVal) : (floatResultOf f s v).toNat < 2 ^ f.width := by
    rw [floatResultOf_toNat hf]
    exact FFmt.round_bits_lt hf.toOk ..
  have htruth (c : Prop) [Decidable c] : (truth c).toNat < 2 ^ f.width := by
    have : 2 ≤ 2 ^ f.width := le_self_pow₀ (by decide) (by rw [FFmt.width]; omega)
    unfold truth
    split
    · exact this
    · exact (by decide : (0 : Nat) < 2).trans_le this
  have hpick (first : FVal → FVal → Bool) : (selectFloat f s a b first).toNat < 2 ^ f.width := by
    rw [selectFloat_toNat hf]
    split_ifs
    · exact FFmt.nanBits_lt hf.toOk
    · exact selectedBits_lt f s b
    · exact selectedBits_lt f s a
  unfold floatValue
  dsimp only
  split
  · exact hround _
  · exact hround _
  · exact hround _
  · exact hround _
  · exact hpick _
  · exact hpick _
  · exact hround _
  · exact hround _
  · exact htruth _
  · exact htruth _
  · exact htruth _

end

/-- Settles O15, by what the exact operations give for each kind of special operand and what that rounds to. -/
theorem floatSpecials : Obligations.FloatSpecials := by
  intro s f fn d a b h
  have hf : f.Scalar := h.elim (· ▸ fp32_scalar) (· ▸ fp64_scalar)
  have hnan {v : FVal} := floatResultOf_nan hf s (v := v)
  have hsel (first) := selectFloat_toNat hf s a b first
  intro x y gives
  simp only [FVal.isNan_iff]
  refine ⟨?arith, ?sqrt, ?fma, ?select, ?infs, ?infZero, ?divZero, ?sqrtNeg, ?compare, floatValue_lt hf s d a b fn⟩
  case arith =>
    intro hfn hxy
    have hneg : x = .nan ∨ y.neg = .nan := hxy.imp_right fun hy => by rw [hy]; rfl
    obtain rfl | rfl | rfl | rfl : fn = 0 ∨ fn = 1 ∨ fn = 2 ∨ fn = 3 := by omega
    · exact hnan (FVal.add_nan _ hxy)
    · exact hnan (FVal.add_nan _ hneg)
    · exact hnan (FVal.mul_nan hxy)
    · exact hnan (FVal.div_nan hxy)
  case sqrt =>
    rintro rfl hx
    refine hnan ?_
    change FVal.sqrt x = _
    rw [hx]
    rfl
  case fma =>
    rintro rfl (hx | hy | hd)
    · exact hnan (FVal.add_nan _ (.inl (FVal.mul_nan (.inl hx))))
    · exact hnan (FVal.add_nan _ (.inl (FVal.mul_nan (.inr hy))))
    · exact hnan (FVal.add_nan _ (.inr hd))
  case select =>
    rintro (rfl | rfl) <;> refine ⟨fun hx hy => (hsel _).trans ?_, fun hx hy => (hsel _).trans ?_, fun hx hy => (hsel _).trans ?_⟩
    all_goals
      rw [show floatOperand f s a = x from rfl, show floatOperand f s b = y from rfl]
      simp [hx, hy]
  case infs =>
    rintro g hx (⟨rfl, hy⟩ | ⟨rfl, hy⟩ | ⟨rfl, t, hy⟩)
    · refine hnan ?_
      change FVal.add _ x y = _
      cases g <;> simp [hx, hy, FVal.add]
    · refine hnan ?_
      change FVal.add _ x y.neg = _
      cases g <;> simp [hx, hy, FVal.add, FVal.neg]
    · refine hnan ?_
      change FVal.div x y = _
      simp [hx, hy, FVal.div]
  case infZero =>
    rintro (rfl | rfl) g t e hxy
    · exact hnan (FVal.mul_inf_zero hxy)
    · exact hnan (FVal.add_nan _ (.inl (FVal.mul_inf_zero hxy)))
  case divZero =>
    rintro rfl g m e t q hx hy
    have hdiv : FVal.div x y = if m = 0 then .nan else .inf (g != t) := by simp [hx, hy, FVal.div]
    change (floatResultOf f s (FVal.div x y)).toNat = _
    rw [hdiv]
    split
    · exact hnan rfl
    · exact floatResultOf_inf hf s _
  case sqrtNeg =>
    rintro rfl hx
    refine hnan ?_
    change FVal.sqrt x = _
    rcases hx with hx | ⟨m, e, hm, hx⟩ <;> simp [hx, FVal.sqrt]
    exact hm
  case compare =>
    intro hfn hxy
    have hlt : x.lt y = false := FVal.lt_of_isNan (by simpa [FVal.isNan_iff] using hxy)
    have hun : ¬ ((!x.isNan) = true ∧ (!y.isNan) = true) := by
      rcases hxy with h | h <;> simp [h, FVal.isNan]
    rcases (show fn = 8 ∨ fn = 9 ∨ 10 ≤ fn by omega) with rfl | rfl | h
    · exact if_neg fun h => hun ⟨h.1, h.2.1⟩
    · exact if_neg (by rw [hlt]; decide)
    · obtain ⟨n, rfl⟩ := Nat.exists_eq_add_of_le' h
      exact if_neg fun h => hun ⟨h.1, h.2.1⟩

end Sys2Proof.Machine
end

section
/-! Scalar conversion (04 R113; 02 R59, R60). -/

namespace Sys2Proof.Machine

theorem fp16_ok : fp16.Ok := ⟨by decide, by decide⟩
theorem bf16_ok : bf16.Ok := ⟨by decide, by decide⟩
theorem fp16_scalar : fp16.Scalar := ⟨fp16_ok, by decide, by decide⟩
theorem bf16_scalar : bf16.Scalar := ⟨bf16_ok, by decide, by decide⟩

/-- The rows of the table of sources. -/
theorem cvtSource_of_mem {src : BitVec 4} {x : FVal} {ftz : Bool} {v : Word64}
    (h : (src, x) ∈ [(0#4, FVal.ofInt v.toInt), (1, FVal.ofInt v.toNat), (2, FVal.ofInt (v.setWidth 32).toInt),
      (3, FVal.ofInt (v.setWidth 32).toNat), (4, fp64.read ftz v.toNat), (5, fp32.read ftz (v.setWidth 32).toNat),
      (6, fp16.read ftz (v.setWidth 16).toNat), (7, bf16.read ftz (v.setWidth 16).toNat)]) :
    cvtSource src ftz v = x := by
  simp only [List.mem_cons, List.not_mem_nil, or_false, Prod.mk.injEq] at h
  rcases h with ⟨rfl, rfl⟩ | ⟨rfl, rfl⟩ | ⟨rfl, rfl⟩ | ⟨rfl, rfl⟩ | ⟨rfl, rfl⟩ | ⟨rfl, rfl⟩ | ⟨rfl, rfl⟩ | ⟨rfl, rfl⟩
  case inr.inr.inr.inr.inl =>
    change fp64.read ftz (v.toNat % 2 ^ fp64.width) = _
    rw [Nat.mod_eq_of_lt (show v.toNat < 2 ^ fp64.width from v.isLt)]
  all_goals first | rfl | exact congrArg _ (BitVec.toNat_setWidth ..).symm

/-- The rows of the table of floating-point targets. -/
theorem cvtFloat_of_mem {tgt : BitVec 4} {f : FFmt} (h : (tgt, f) ∈ [(4#4, fp64), (5, fp32), (6, fp16), (7, bf16)]) :
    cvtFloat tgt = some f ∧ f.Scalar := by
  simp only [List.mem_cons, List.not_mem_nil, or_false, Prod.mk.injEq] at h
  rcases h with ⟨rfl, rfl⟩ | ⟨rfl, rfl⟩ | ⟨rfl, rfl⟩ | ⟨rfl, rfl⟩
  · exact ⟨rfl, fp64_scalar⟩
  · exact ⟨rfl, fp32_scalar⟩
  · exact ⟨rfl, fp16_scalar⟩
  · exact ⟨rfl, bf16_scalar⟩

/-- The rows of the table of integer targets. -/
theorem cvtRange_of_mem {tgt : BitVec 4} {lo hi : Int}
    (h : (tgt, lo, hi) ∈ [(0#4, (-2 ^ 63 : Int), (2 ^ 63 - 1 : Int)), (1, 0, 2 ^ 64 - 1), (2, -2 ^ 31, 2 ^ 31 - 1), (3, 0, 2 ^ 32 - 1)]) :
    cvtFloat tgt = none ∧ cvtRange tgt = (lo, hi) ∧ lo ≤ 0 ∧ 0 ≤ hi := by
  simp only [List.mem_cons, List.not_mem_nil, or_false, Prod.mk.injEq] at h
  rcases h with ⟨rfl, rfl, rfl⟩ | ⟨rfl, rfl, rfl⟩ | ⟨rfl, rfl, rfl⟩ | ⟨rfl, rfl, rfl⟩ <;> exact ⟨rfl, rfl, by decide, by decide⟩

/-! Conversion to an integer range (02 R60). -/

theorem clampInt_eq {lo hi : Int} (h : lo ≤ hi) (i : Int) : clampInt lo hi i = max lo (min hi i) := by
  unfold clampInt
  split <;> [skip; split] <;> omega

theorem FVal.toRange_mem {lo hi : Int} (hlo : lo ≤ 0) (hhi : 0 ≤ hi) (rm : Rm) (x : FVal) :
    lo ≤ x.toRange rm lo hi ∧ x.toRange rm lo hi ≤ hi := by
  rcases x with _ | s | ⟨s, m, e⟩
  · exact ⟨hlo, hhi⟩
  · cases s
    · exact ⟨hlo.trans hhi, le_rfl⟩
    · exact ⟨le_rfl, hlo.trans hhi⟩
  · rw [FVal.toRange, clampInt_eq (hlo.trans hhi)]
    omega

/-! What fcvt leaves. -/

/-- u is s but for scalar register d and k.sticky. -/
def OnlyXSticky (s u : State) (d : BitVec 5) : Prop :=
  (∀ r, r ≠ d → u.x r = s.x r) ∧ u.blankX.blankSticky = s.blankX.blankSticky ∧ SameBytes s u

theorem onlyXSticky_setX_stick (s : State) (d : BitVec 5) (v : Word64) (b : Nat) (c : Bool) :
    OnlyXSticky s ((s.stick b c).setX d v) d := by
  refine ⟨fun r h => ?_, ?_, SameBytes.of_eq _ _ (by simp) (by simp)⟩
  · rw [(SetsX.of_setX _ d v).others r h, State.stick_x]
  · rw [State.setX_blankX]
    cases c <;> rfl

theorem fcvt_completes (s : State) (d a : BitVec 5) (sat : BitVec 1) (src tgt : BitVec 4) :
    let r := fcvtResult sat src tgt s.rm s.k.ftz (s.x a)
    Completes (.fcvt d a sat src tgt) s ((s.stick 0 r.2).setX d r.1) := rfl

/-- Settles O17: the source and the target are rows of their tables; nf is the rounding's own report of an infinity. -/
theorem conversionResults : Obligations.ConversionResults := by
  intro s d a sat src tgt x _ v ftz rm hx only
  have hsrc := cvtSource_of_mem hx
  refine ⟨fun f hf => ?float, fun lo hi hr => ?int⟩
  case float =>
    intro y
    obtain ⟨htgt, hok⟩ := cvtFloat_of_mem hf
    have hy : fcvtResult sat src tgt s.rm s.k.ftz (s.x a) = (BitVec.ofNat 64 y.bits, y.toInf) := by
      simp only [fcvtResult, htgt]
      rw [show cvtSource src s.k.ftz (s.x a) = x from hsrc]
      rfl
    have hlt : y.bits < 2 ^ f.width := FFmt.round_bits_lt hok.toOk ..
    refine ⟨_, fcvt_completes s d a sat src tgt, onlyXSticky_setX_stick .., fun hd => ?_, hlt, ?_⟩
    · rw [State.setX_x_same _ _ hd, hy]
      exact hok.toNat_ofNat hlt
    · rw [State.setX_k, State.stick_k, hy, ← if_congr (FFmt.round_toInf_iff hok.toOk rm (sat == 1) ftz false x) rfl rfl]
      change (if y.toInf = true then _ else s.k : KRegs).sticky = s.k.sticky ||| if y.toInf = true then 1 else 0
      cases y.toInf <;> simp
  case int =>
    obtain ⟨htgt, hrange, hlo, hhi⟩ := cvtRange_of_mem hr
    have hy : fcvtResult sat src tgt s.rm s.k.ftz (s.x a) = (BitVec.ofInt 64 (x.toRange rm lo hi), false) := by
      simp only [fcvtResult, htgt, hrange]
      rw [show cvtSource src s.k.ftz (s.x a) = x from hsrc]
      rfl
    refine ⟨_, fcvt_completes s d a sat src tgt, onlyXSticky_setX_stick .., ?_, fun hd => ?_⟩
    · rw [State.setX_k, hy, State.stick_false]
    · rw [State.setX_x_same _ _ hd, hy]
      obtain ⟨hl, hh⟩ := x.toRange_mem hlo hhi rm
      refine ⟨_, hl, hh, rfl, ?_, ?_, ?_, ?_⟩
      · rintro rfl; rfl
      · rintro rfl; rfl
      · rintro rfl; rfl
      · rintro g m e rfl
        exact clampInt_eq (hlo.trans hhi) _

end Sys2Proof.Machine
end

section
/-! rep (01 R37; 04 R119 to R121): what the capture of the words leaves behind, the fields of k.repst, and the frame that opens. -/

namespace Sys2Proof.Machine

theorem exec_rep (n1 : BitVec 4) (k1 : BitVec 8) (std sta stb stc : BitVec 2) (s : State) :
    exec (.rep n1 k1 std sta stb stc) s = execRep n1 k1 std sta stb stc s := rfl

@[simp] theorem needTaken_true : needTaken true = .ok () := rfl
@[simp] theorem needTaken_false : needTaken false = .error (.wait .other) := rfl

/-! Captured words. -/

/-- Fetching words touches the memory system alone. -/
theorem fetchedAll_memOnly (s : State) (va : BitVec 56) (n : Nat) : MemOnly s (s.fetchedAll va n) := by
  refine MemOnly.foldl _ (fun u i => ?_) _ s
  dsimp only
  split
  · exact fetched_memOnly ..
  · exact MemOnly.refl u

theorem captured_some {w : Word32} {i : Instr} (h : captured w = some i) : tileClass i = true ∧ autoIncrement i = true := by
  unfold captured at h
  split at h
  · split at h
    · next hi => cases h; simpa using hi
    · cases h
  · cases h

/-- Words that pass are as many as asked for, and each may be captured (01 R37). -/
theorem State.capture_words {s : State} {va : BitVec 56} {n : Nat} {is : List Instr} (h : s.capture va n = .words is) :
    is.length = n ∧ ∀ i ∈ is, tileClass i = true ∧ autoIncrement i = true := by
  induction n generalizing va is with
  | zero => cases h; simp
  | succ n ih =>
    rw [State.capture] at h
    split at h
    · cases h
    · split at h
      · cases h
      · next hi =>
        split at h
        · next hrest =>
          cases h
          obtain ⟨hlen, hall⟩ := ih hrest
          simp [hlen, captured_some hi]
          exact hall
        · next hne => exact absurd h (hne _)

/-! The fields of k.repst and k.status as rep writes them (04 R121; 01 R22). -/

theorem repstOf_fields (k : KRegs) (n1 : BitVec 4) (k1 : BitVec 8) (std sta stb stc : BitVec 2)
    (h : k.repst = repstOf n1 k1 std sta stb stc) :
    k.v = true ∧ k.iter = 0 ∧ k.pos = 0 ∧ k.n1 = n1.toNat ∧ k.k1 = k1.toNat ∧ k.std = std.toNat ∧ k.sta = sta.toNat
    ∧ k.stb = stb.toNat ∧ k.stc = stc.toNat := by
  have hn1 := n1.isLt
  have hk1 := k1.isLt
  have hstd := std.isLt
  have hsta := sta.isLt
  have hstb := stb.isLt
  have hstc := stc.isLt
  have hval : k.repst.toNat = n1.toNat + k1.toNat * 2 ^ 4 + std.toNat * 2 ^ 12 + sta.toNat * 2 ^ 14 + stb.toNat * 2 ^ 16
      + stc.toNat * 2 ^ 18 + 2 ^ 32 := by
    rw [h, repstOf, BitVec.toNat_ofNat, Nat.mod_eq_of_lt (by omega)]
  refine ⟨?_, ?_⟩
  · rw [KRegs.v, BitVec.getLsbD, hval, Nat.testBit_eq_decide_div_mod_eq]
    simp only [decide_eq_true_eq]
    omega
  · simp only [KRegs.iter, KRegs.pos, KRegs.n1, KRegs.k1, KRegs.std, KRegs.sta, KRegs.stb, KRegs.stc, bits, hval]
    refine ⟨?_, ?_, ?_, ?_, ?_, ?_, ?_, ?_⟩ <;> omega

theorem statusOf_fields (k : KRegs) (pl : BitVec 2) (rf : Bool) (h : k.status = statusOf pl rf) : k.pl = pl ∧ k.rf = rf := by
  have hall : ∀ (pl : BitVec 2) (rf : Bool),
      (statusOf pl rf).extractLsb' 0 2 = pl ∧ (statusOf pl rf).getLsbD 2 = rf := by decide
  rw [KRegs.pl, KRegs.rf, h]
  exact hall pl rf

/-- The control registers of an opened frame. -/
def repOpened (k : KRegs) (link : Word64) (repst : Word64) : KRegs :=
  { k with repbase := link, repst := repst, status := statusOf k.pl true }

section
variable (n1 : BitVec 4) (k1 : BitVec 8) (std sta stb stc : BitVec 2) (s : State)

/-- The state in which the frame has opened on the captured instructions. -/
def State.opened (is : List Instr) : State :=
  let u := ((s.fetchedAll s.nextPc (n1.toNat + 1)).retired false).setK (repOpened s.k s.link (repstOf n1 k1 std sta stb stc))
  { u.setPc s.nextPc with core.frame := is }

theorem rep_waits (h : s.fetchTaken s.nextPc (n1.toNat + 1) = false) : Waits (.rep n1 k1 std sta stb stc) s .other := by
  rw [Waits, exec_rep, execRep, h, needTaken_false, run_error_bind, State.finish_wait]

theorem rep_of_taken (h : s.fetchTaken s.nextPc (n1.toNat + 1) = true) :
    exec (.rep n1 k1 std sta stb stc) s = s.finish (do
      let is ← (s.capture s.nextPc (n1.toNat + 1)).get
      .ok (s.opened n1 k1 std sta stb stc is)) := by
  rw [exec_rep, execRep, h]
  rfl

variable {s}

theorem rep_opens {is : List Instr} (h : s.fetchTaken s.nextPc (n1.toNat + 1) = true)
    (hc : s.capture s.nextPc (n1.toNat + 1) = .words is) :
    exec (.rep n1 k1 std sta stb stc) s = .next (s.opened n1 k1 std sta stb stc is) := by
  rw [rep_of_taken n1 k1 std sta stb stc s h, hc]
  rfl

end

/-- Settles O19: a capture that passes opens the frame on its words, any other answers at rep itself. -/
theorem repOpensFrame : Obligations.RepOpensFrame := by
  intro s n1 k1 std sta stb stc
  refine ⟨fun h => rep_waits n1 k1 std sta stb stc s h, fun h => ⟨fun is hc => ?opens, fun va hc => ⟨0, ?content⟩, fun c va p hc => ⟨p, ?fault⟩⟩⟩
  case content =>
    rw [rep_of_taken n1 k1 std sta stb stc s h, show s.capture s.nextPc _ = _ from hc]
    exact congrArg (fun v => Host.Outcome.next (s.trapHere .repContent v 0)) (BitVec.ofNat_toNat 64 va)
  case fault =>
    rw [rep_of_taken n1 k1 std sta stb stc s h, show s.capture s.nextPc _ = _ from hc]
    exact congrArg (fun v => Host.Outcome.next (s.trapHere c v p)) (BitVec.ofNat_toNat 64 va)
  case opens =>
    obtain ⟨hlen, hall⟩ := State.capture_words hc
    have hmem := fetchedAll_memOnly s s.nextPc (n1.toNat + 1)
    have hk : (s.opened n1 k1 std sta stb stc is).k = repOpened s.k s.link (repstOf n1 k1 std sta stb stc) := rfl
    obtain ⟨hv, hiter, hpos, hn1, hk1, hstd, hsta, hstb, hstc⟩ := repstOf_fields (s.opened n1 k1 std sta stb stc is).k n1 k1 std sta stb stc (by rw [hk]; rfl)
    obtain ⟨hpl, hrf⟩ := statusOf_fields (s.opened n1 k1 std sta stb stc is).k s.k.pl true (by rw [hk]; rfl)
    refine ⟨_, rep_opens n1 k1 std sta stb stc h hc, rfl, hlen, hall, rfl, rfl, hrf, hpl, hv, hiter, hpos, hn1, hk1, hstd, hsta, hstb, hstc, ?_, ?_, ?_, ?_, ?_, ?_⟩
    · exact congrArg (·.core.retired + 1) hmem.rest
    · exact fun r => congrArg (·.x r) hmem.rest
    · exact fun r => congrArg (·.t r) hmem.rest
    · exact fun r => congrArg (·.mbox r) hmem.rest
    · exact congrArg (fun u => (u.setK s.k).blankFlow) hmem.rest
    · exact hmem.stores

end Sys2Proof.Machine
end

section
/-! Tiles: the tiles that instructions build, the checks of their operands, and the flags of their results (01 R12 to R15, R24;
07 R177 to R182). -/

namespace Sys2Proof.Machine

/-! Containers. -/

@[simp] theorem buildRows_elem (r c : Nat) (f : Nat → Nat → Word32) (i j : Nat) :
    ((buildRows r c f).getD i []).getD j 0 = if i < r ∧ j < c then f i j else 0 := by
  unfold buildRows
  by_cases hi : i < r
  · by_cases hj : j < c <;> simp [List.getD_eq_getElem?_getD, hi, hj]
  · simp [List.getD_eq_getElem?_getD, hi]

/-- A tile whose containers are those of a function of position. -/
theorem HasElems.of_rows {v : Tile} {r c : Nat} {e : Nat → Nat → Word32} (hr : v.rext = r) (hc : v.cext = c)
    (hrows : v.rows = buildRows r c e) (hkey : v.key = none) (hmap : v.mapped = true) : HasElems v v.fmt r c e where
  format := rfl
  rows := hr
  cols := hc
  keyless := hkey
  mapped := hmap
  inside := by
    intro i j hi hj
    rw [Tile.elem, hrows, buildRows_elem, if_pos ⟨hi, hj⟩]
  outside := by
    intro i j h
    rw [Tile.elem, hrows, buildRows_elem, if_neg (by omega)]

theorem HasElems.of_build (f : BitVec 5) (r c : Nat) (e : Nat → Nat → Word32) : HasElems (Tile.build f r c e) f r c e :=
  HasElems.of_rows rfl rfl rfl rfl rfl

theorem IsResult.of_build (f : BitVec 5) (r c : Nat) (e : Nat → Nat → Word32) : IsResult (Tile.build f r c e) f r c e where
  toHasElems := HasElems.of_build f r c e
  unscaled := rfl
  unpoisoned := rfl

theorem flaggedRows_bits (r c : Nat) (g : Nat → Nat → Flagged) :
    (flaggedRows r c g).map (fun row => row.map (·.bits)) = buildRows r c (fun i j => (g i j).bits) := by
  simp [flaggedRows, buildRows, Function.comp_def]

/-- A tile of flagged results holds their containers. -/
theorem tileOf_flaggedRows (f : BitVec 5) (r c : Nat) (g : Nat → Nat → Flagged) :
    tileOf f r c (flaggedRows r c g) = Tile.build f r c (fun i j => (g i j).bits) := by
  rw [tileOf, flaggedRows_bits]
  rfl

/-! Flags. -/

theorem anyNf_flaggedRows (r c : Nat) (g : Nat → Nat → Flagged) :
    anyNf (flaggedRows r c g) = true ↔ ∃ i j, i < r ∧ j < c ∧ (g i j).nf = true := by
  simp [anyNf, flaggedRows]
theorem anyIov_flaggedRows (r c : Nat) (g : Nat → Nat → Flagged) :
    anyIov (flaggedRows r c g) = true ↔ ∃ i j, i < r ∧ j < c ∧ (g i j).iov = true := by
  simp [anyIov, flaggedRows]

/-- A tile written with its flags is what SetsT says (01 R24). -/
theorem SetsT.of_stick (s : State) (d : BitVec 4) (v : Tile) (nf iov : Bool) :
    SetsT s (((s.setT d v).stick 0 nf).stick 1 iov) d v nf iov where
  dest := by simp
  others := by intro r h; simp [State.setT_t, h]
  sticky := by
    cases nf <;> cases iov <;> simp [State.stick_k, BitVec.or_assoc]
  rest := by cases nf <;> cases iov <;> rfl
  bytes := SameBytes.of_eq _ _ (by simp) (by simp)

/-! Checks of the operands. -/

theorem needFormats_ok {ok : BitVec 5 → Bool} {l : List (BitVec 5)} (h : ∀ f ∈ l, ok f = true) : needFormats ok l = .ok () := by
  induction l with
  | nil => rfl
  | cons f l ih =>
    rw [needFormats, if_pos (h f (by simp)), ih fun g hg => h g (by simp [hg])]

theorem needFormats_error {ok : BitVec 5 → Bool} {pre post : List (BitVec 5)} {f : BitVec 5} (hpre : ∀ g ∈ pre, ok g = true)
    (hf : ok f = false) : needFormats ok (pre ++ f :: post) = .error (badFormat f) := by
  induction pre with
  | nil => simp [needFormats, hf]
  | cons g pre ih =>
    rw [List.cons_append, needFormats, if_pos (hpre g (by simp)), ih fun g hg => hpre g (by simp [hg])]

/-- Consumed rows of clean tiles pass (07 R181). -/
theorem State.needClean_ok {s : State} {l : List Consumed} (h : ∀ c ∈ l, ∀ i, i < c.rows → (s.t c.reg).bad i = false) :
    s.needClean l = .ok () := by
  induction l with
  | nil => rfl
  | cons c l ih =>
    have hnone : (List.range c.rows).find? (fun i => (s.t c.reg).bad i) = none := by
      rw [List.find?_eq_none]
      intro i hi
      simp [h c (by simp) i (List.mem_range.1 hi)]
    rw [State.needClean, hnone]
    exact ih fun c hc => h c (by simp [hc])

/-! Poison. -/

/-- Row i is in the mask of the rows that hold it (14 R375). -/
theorem maskOf_getLsbD (rows : List Nat) {i : Nat} (hi : i < 32) : (maskOf rows).getLsbD i = decide (i ∈ rows) := by
  have hsum : (rows.dedup.map (2 ^ ·)).foldl (· + ·) 0 = ∑ k ∈ rows.toFinset, 2 ^ k := by
    rw [← List.sum_eq_foldl, ← List.sum_toFinset _ rows.nodup_dedup]
    congr 1
    ext k
    simp
  have hmem := Finset.ext_iff.1 (Finset.toFinset_bitIndices_sum_two_pow rows.toFinset) i
  rw [List.mem_toFinset, Nat.mem_bitIndices, List.mem_toFinset] at hmem
  rw [maskOf, BitVec.getLsbD_ofNat, hsum, Bool.eq_iff_iff]
  simp [hi, hmem]

end Sys2Proof.Machine
end

section
/-! The elementwise instructions (07 R179, R181, R182, R184, R185). -/

namespace Sys2Proof.Machine

/-- The row of the table is what the instruction computes. -/
theorem exec_of_elementTable {i : Instr} {op : Elementwise} (h : elementTable i = some op) (s : State) :
    exec i s = elementwise op.dst op.srcs op.wide op.minMax op.float op.int s := by
  unfold elementTable at h
  split at h
  all_goals cases h
  all_goals rfl

theorem elementTable_srcs {i : Instr} {op : Elementwise} (h : elementTable i = some op) : op.srcs ≠ [] := by
  unfold elementTable at h
  split at h
  all_goals cases h
  all_goals simp

theorem maxExt_eq (ts : List Tile) : maxExt ts = (mostRows ts, mostCols ts) := by
  simp [maxExt, mostRows, mostCols, List.foldl_map]

/-! The result format (07 R179). -/

theorem arithFormat_float {ts : List Tile} (hne : ts ≠ []) (h : ∀ t ∈ ts, isFloatCode t.fmt = true) (w : BitVec 1) (mm : Bool) :
    arithFormat w mm (ts.map (·.fmt)) = floatTarget w ts := by
  obtain ⟨t, ts, rfl⟩ := List.exists_cons_of_ne_nil hne
  simp only [List.map_cons, arithFormat, h t (by simp), if_true, floatTarget]
  congr 1 <;> simp [and_comm]

theorem floatOf_floatTarget (w : BitVec 1) (ts : List Tile) :
    ∃ f, floatOf (floatTarget w ts) = some f ∧ f.Ok := by
  unfold floatTarget
  split
  · exact ⟨bf16, rfl, bf16_ok⟩
  · split
    · exact ⟨fp16, rfl, fp16_ok⟩
    · exact ⟨fp32, rfl, fp32_ok⟩

theorem not_isFloatCode_of_isIntCode : ∀ {f : BitVec 5}, isIntCode f = true → isFloatCode f = false := by decide

theorem arithFormat_int {ts : List Tile} (hne : ts ≠ []) (h : ∀ t ∈ ts, isIntCode t.fmt = true) (w : BitVec 1) (mm : Bool) :
    arithFormat w mm (ts.map (·.fmt)) = intTarget mm ts := by
  obtain ⟨t, ts, rfl⟩ := List.exists_cons_of_ne_nil hne
  simp only [List.map_cons, arithFormat, not_isFloatCode_of_isIntCode (h t (by simp)), Bool.false_eq_true, if_false, intTarget]
  congr 1
  simp

theorem intTarget_eq (mm : Bool) (ts : List Tile) : intTarget mm ts = 0x0F ∨ intTarget mm ts = 0x0C := by
  unfold intTarget
  split <;> simp

theorem floatOf_intTarget (mm : Bool) (ts : List Tile) : floatOf (intTarget mm ts) = none := by
  rcases intTarget_eq mm ts with h | h <;> rw [h] <;> rfl

/-- A result in s32 or z32 wraps, and sets iov when it lies outside (07 R179). -/
theorem intResult_of_32 {f : BitVec 5} (h : f = 0x0F ∨ f = 0x0C) (n : Int) :
    (intResult f n).bits = BitVec.ofInt 32 n ∧ (intResult f n).nf = false ∧ ((intResult f n).iov = true ↔ outside32 f n) := by
  rcases h with rfl | rfl
  · refine ⟨rfl, rfl, ?_⟩
    simp [intResult, intRange, outside32]
    omega
  · refine ⟨rfl, rfl, ?_⟩
    simp [intResult, intRange, outside32]
    omega

/-! The kinds of the operands (07 R182). -/

/-- Floating point, integer or neither. -/
def kindOf (f : BitVec 5) : Nat := if isFloatCode f then 1 else if isIntCode f then 2 else 0

theorem sameKind_iff {f g : BitVec 5} (hf : kindOf f ≠ 0) :
    (isArith g && isFloatCode g == isFloatCode f) = true ↔ kindOf g = kindOf f := by
  unfold kindOf isArith at *
  cases h1 : isFloatCode f <;> cases h2 : isFloatCode g <;> cases h3 : isIntCode f <;> cases h4 : isIntCode g <;> simp_all

theorem needOneKind_ok {fs : List (BitVec 5)} (h : ∀ f ∈ fs, ∀ g ∈ fs, kindOf f ≠ 0 ∧ kindOf f = kindOf g) : needOneKind fs = .ok () := by
  refine needFormats_ok fun g hg => ?_
  obtain ⟨f, fs, rfl⟩ := List.exists_cons_of_ne_nil (List.ne_nil_of_mem hg)
  exact (sameKind_iff (h f (by simp) g hg).1).2 (h f (by simp) g hg).2.symm

theorem needOneKind_float {fs : List (BitVec 5)} (h : ∀ f ∈ fs, isFloatCode f = true) : needOneKind fs = .ok () :=
  needOneKind_ok fun f hf g hg => by simp [kindOf, h f hf, h g hg]
theorem needOneKind_int {fs : List (BitVec 5)} (h : ∀ f ∈ fs, isIntCode f = true) : needOneKind fs = .ok () :=
  needOneKind_ok fun f hf g hg => by
    simp [kindOf, h f hf, h g hg, not_isFloatCode_of_isIntCode (h f hf), not_isFloatCode_of_isIntCode (h g hg)]

theorem needOneKind_untyped {f : BitVec 5} (h : kindOf f = 0) (fs : List (BitVec 5)) :
    needOneKind (f :: fs) = .error (badFormat f) := by
  refine needFormats_error (ok := fun g => isArith g && isFloatCode g == isFloatCode f) (pre := []) (by simp) ?_
  unfold kindOf at h
  unfold isArith
  cases h1 : isFloatCode f <;> cases h2 : isIntCode f <;> simp_all

theorem needOneKind_mixed {f g : BitVec 5} {pre : List (BitVec 5)} (hf : kindOf f ≠ 0) (hpre : ∀ p ∈ pre, kindOf p = kindOf f)
    (hg : kindOf g ≠ kindOf f) (post : List (BitVec 5)) : needOneKind (f :: pre ++ g :: post) = .error (badFormat g) := by
  refine needFormats_error (ok := fun g => isArith g && isFloatCode g == isFloatCode f) (pre := f :: pre) (fun p hp => (sameKind_iff hf).2 ?_) ?_
  · rcases List.mem_cons.1 hp with rfl | hp
    · rfl
    · exact hpre p hp
  · rw [Bool.eq_false_iff]
    exact fun h => hg ((sameKind_iff hf).1 h)

/-! The consumed rows (07 R181). -/

theorem needClean_allRows {s : State} {srcs : List (BitVec 4)} (h : ∀ r ∈ srcs, (s.t r).clean) :
    s.needClean (srcs.mapIdx (fun i r => s.allRows r i)) = .ok () := by
  refine State.needClean_ok fun c hc i hi => ?_
  obtain ⟨k, hk, rfl⟩ := List.mem_mapIdx.1 hc
  exact h _ (List.getElem_mem hk) i hi

/-- The first poisoned row of an operand, when the operands before it are clean. -/
theorem State.needClean_error {s : State} {pre post : List Consumed} {c : Consumed} {n : Nat}
    (hpre : ∀ p ∈ pre, ∀ i, i < p.rows → (s.t p.reg).bad i = false) (hn : n < c.rows) (hbad : (s.t c.reg).bad n = true)
    (hmin : ∀ m, m < n → (s.t c.reg).bad m = false) :
    s.needClean (pre ++ c :: post) = .error (.trap .machineCheck (poisonVal n c.reg.toNat c.role 0) (s.t c.reg).origin) := by
  have hfind : (List.range c.rows).find? (fun i => (s.t c.reg).bad i) = some n := by
    rw [List.find?_range_eq_some]
    exact ⟨hbad, List.mem_range.2 hn, fun m hm => by simp [hmin m hm]⟩
  induction pre with
  | nil => simp only [List.nil_append, State.needClean, hfind]
  | cons p pre ih =>
    have hnone : (List.range p.rows).find? (fun i => (s.t p.reg).bad i) = none := by
      rw [List.find?_eq_none]
      intro i hi
      simp [hpre p (by simp) i (List.mem_range.1 hi)]
    rw [List.cons_append, State.needClean, hnone]
    exact ih fun p hp => hpre p (by simp [hp])

/-! The instruction: its three ends. -/

section
variable {i : Instr} {s : State} {op : Elementwise} (h : elementTable i = some op)
include h

theorem elementwise_traps {c : Cause} {v : Word64} {p : Nat}
    (herr : needOneKind ((op.srcs.map s.t).map (·.fmt)) = .error (.trap c v p)) : TrapsWith i s c v := by
  refine ⟨p, ?_⟩
  rw [exec_of_elementTable h, elementwise]
  simp only [herr]
  rfl

theorem elementwise_poisoned {c : Cause} {v : Word64} {p : Nat} (hk : needOneKind ((op.srcs.map s.t).map (·.fmt)) = .ok ())
    (herr : s.needClean (op.srcs.mapIdx (fun i r => s.allRows r i)) = .error (.trap c v p)) : TrapsWith i s c v := by
  refine ⟨p, ?_⟩
  rw [exec_of_elementTable h, elementwise]
  simp only [hk, run_ok_bind, herr]
  rfl

theorem elementwise_float_completes {f : FFmt} (hts : ∀ t ∈ op.srcs.map s.t, isFloatCode t.fmt = true ∧ t.clean)
    (hf : floatOf (floatTarget op.wide (op.srcs.map s.t)) = some f) :
    let ts := op.srcs.map s.t
    let vals (r c : Nat) : List FVal := ts.map (fun t => t.val s.k.ftz r c)
    Completes i s (s.writeFlagged op.dst (floatTarget op.wide ts) (mostRows ts) (mostCols ts)
      (flaggedRows (mostRows ts) (mostCols ts) (fun r c => floatResult f s.k.ftz ((vals r c).all (·.isFinite)) (op.float (vals r c))))) true := by
  have hne : op.srcs.map s.t ≠ [] := by simpa using elementTable_srcs h
  have hk : needOneKind ((op.srcs.map s.t).map (·.fmt)) = .ok () :=
    needOneKind_float fun g hg => by obtain ⟨t, ht, rfl⟩ := List.mem_map.1 hg; exact (hts t ht).1
  have hc : s.needClean (op.srcs.mapIdx (fun i r => s.allRows r i)) = .ok () :=
    needClean_allRows fun r hr => (hts _ (List.mem_map_of_mem hr)).2
  intro ts vals
  rw [Completes, exec_of_elementTable h, elementwise]
  simp only [hk, run_ok_bind, hc, arithFormat_float hne fun t ht => (hts t ht).1, maxExt_eq, hf]
  rfl

theorem elementwise_int_completes (hts : ∀ t ∈ op.srcs.map s.t, isIntCode t.fmt = true ∧ t.clean) :
    let ts := op.srcs.map s.t
    Completes i s (s.writeFlagged op.dst (intTarget op.minMax ts) (mostRows ts) (mostCols ts)
      (flaggedRows (mostRows ts) (mostCols ts) (fun r c => intResult (intTarget op.minMax ts) (op.int (ts.map (fun t => t.int r c)))))) true := by
  have hne : op.srcs.map s.t ≠ [] := by simpa using elementTable_srcs h
  have hk : needOneKind ((op.srcs.map s.t).map (·.fmt)) = .ok () :=
    needOneKind_int fun g hg => by obtain ⟨t, ht, rfl⟩ := List.mem_map.1 hg; exact (hts t ht).1
  have hc : s.needClean (op.srcs.mapIdx (fun i r => s.allRows r i)) = .ok () :=
    needClean_allRows fun r hr => (hts _ (List.mem_map_of_mem hr)).2
  intro ts
  rw [Completes, exec_of_elementTable h, elementwise]
  simp only [hk, run_ok_bind, hc, arithFormat_int hne fun t ht => (hts t ht).1, maxExt_eq, floatOf_intTarget]
  rfl

end

/-- A tile of flagged results is written with the flags that some element raised. -/
theorem SetsT.of_writeFlagged (s : State) (d : BitVec 4) (f : BitVec 5) (r c : Nat) (g : Nat → Nat → Flagged) :
    SetsT s (s.writeFlagged d f r c (flaggedRows r c g)) d (Tile.build f r c (fun i j => (g i j).bits))
      (anyNf (flaggedRows r c g)) (anyIov (flaggedRows r c g)) := by
  rw [← tileOf_flaggedRows]
  exact SetsT.of_stick ..

/-- No element raises a flag that none of them can. -/
theorem anyNf_eq_false {r c : Nat} {g : Nat → Nat → Flagged} (h : ∀ i j, (g i j).nf = false) : anyNf (flaggedRows r c g) = false := by
  simp [Bool.eq_false_iff, anyNf_flaggedRows, h]
theorem anyIov_eq_false {r c : Nat} {g : Nat → Nat → Flagged} (h : ∀ i j, (g i j).iov = false) : anyIov (flaggedRows r c g) = false := by
  simp [Bool.eq_false_iff, anyIov_flaggedRows, h]

/-- Settles O21, by the three ends of an elementwise instruction. -/
theorem elementwiseResults : Obligations.ElementwiseResults := by
  refine ⟨fun i s op h => ?float, fun i s op h => ?int, fun i s op h => ?traps⟩
  case float =>
    intro ts vals hts
    obtain ⟨f, hf, hok⟩ := floatOf_floatTarget op.wide ts
    have hiov := anyIov_eq_false (r := mostRows ts) (c := mostCols ts)
      (g := fun r c => floatResult f s.k.ftz ((vals r c).all (·.isFinite)) (op.float (vals r c))) fun _ _ => rfl
    refine ⟨f, _, _, _, hf, elementwise_float_completes h hts hf, hiov ▸ SetsT.of_writeFlagged .., IsResult.of_build .., ?_⟩
    rw [anyNf_flaggedRows]
    simp [floatResult]
  case int =>
    intro ts exact hts
    have hres := intResult_of_32 (intTarget_eq op.minMax ts)
    have hnf := anyNf_eq_false (r := mostRows ts) (c := mostCols ts)
      (g := fun r c => intResult (intTarget op.minMax ts) (op.int (ts.map (fun t => t.int r c)))) fun _ _ => (hres _).2.1
    refine ⟨_, _, _, elementwise_int_completes h hts, hnf ▸ SetsT.of_writeFlagged .., ?_, ?_⟩
    · simp only [(hres _).1]
      exact IsResult.of_build ..
    · rw [anyIov_flaggedRows]
      simp only [(hres _).2.2]
      rfl
  case traps =>
    intro kind
    refine ⟨fun a rest hs ha => ?_, fun a pre r post hs ha hpre hr => ?_, fun pre r post n hs hkind hclean hn hbad hmin => ?_⟩
    · refine elementwise_traps h (p := 0) ?_
      rw [hs]
      exact needOneKind_untyped ha _
    · refine elementwise_traps h (p := 0) ?_
      rw [hs]
      simp only [List.map_append, List.map_cons]
      refine needOneKind_mixed ha (fun p hp => ?_) hr _
      simp only [List.mem_map, exists_exists_and_eq_and] at hp
      obtain ⟨q, hq, rfl⟩ := hp
      exact hpre q hq
    · have hk : needOneKind ((op.srcs.map s.t).map (·.fmt)) = .ok () := by
        refine needOneKind_ok fun f hf g hg => ?_
        simp only [List.mem_map, exists_exists_and_eq_and] at hf hg
        obtain ⟨p, hp, rfl⟩ := hf
        obtain ⟨q, hq, rfl⟩ := hg
        exact hkind p hp q hq
      have hval : BitVec.ofNat 64 (n + r.toNat * 2 ^ 5 + pre.length * 2 ^ 9) = poisonVal n r.toNat pre.length 0 := by simp [poisonVal]
      rw [hval]
      refine elementwise_poisoned h (p := (s.t r).origin) hk ?_
      rw [hs, List.mapIdx_append, List.mapIdx_cons, Nat.zero_add]
      refine State.needClean_error (fun p hp i hi => ?_) hn hbad hmin
      obtain ⟨k, hk, rfl⟩ := List.mem_mapIdx.1 hp
      exact hclean _ (List.getElem_mem hk) i hi

end Sys2Proof.Machine
end

section
/-! Comparison and selection of tiles (07 R186, R187). -/

namespace Sys2Proof.Machine

/-! Conditions (07 R186). -/

theorem condF_iff (cond : BitVec 3) (a b : FVal) : condF cond a b = true ↔ holdsF cond a b := by
  have hlt := cond.isLt
  unfold condF holdsF
  generalize cond.toNat = n at *
  interval_cases n
  · simp [FVal.eq_iff, and_assoc]
  · cases ha : a.isNan <;> cases hb : b.isNan <;> simp [FVal.eq, ha, hb] <;> tauto
  · rfl
  · simp [FVal.le_iff, and_assoc]
  · rfl
  · simp [FVal.le_iff, and_assoc]; tauto
  · simp
  · simp

theorem condI_iff (cond : BitVec 3) (a b : Int) : condI cond a b = true ↔ holdsI cond a b := by
  have hlt := cond.isLt
  unfold condI holdsI
  generalize cond.toNat = n at *
  interval_cases n <;> simp

theorem bitWord_of {b : Bool} {p : Prop} (h : b = true ↔ p) : (p → bitWord b = 1) ∧ (¬p → bitWord b = 0) := by
  cases b <;> simp_all [bitWord]

/-! The extents of several sources. -/

theorem le_foldl_max (l : List Nat) (n : Nat) : n ≤ l.foldl max n ∧ ∀ m ∈ l, m ≤ l.foldl max n := by
  induction l generalizing n with
  | nil => simp
  | cons k l ih =>
    obtain ⟨h1, h2⟩ := ih (max n k)
    simp only [List.foldl_cons, List.mem_cons, forall_eq_or_imp]
    exact ⟨by omega, by omega, h2⟩

theorem rext_le_mostRows {t : Tile} {ts : List Tile} (h : t ∈ ts) : t.rext ≤ mostRows ts :=
  (le_foldl_max _ 0).2 _ (List.mem_map_of_mem h)

/-! tcmp. -/

/-- The containers that tcmp writes. -/
def cmpElem (cond : BitVec 3) (ftz : Bool) (ta tb : Tile) (i j : Nat) : Word32 :=
  bitWord (if isFloatCode ta.fmt then condF cond (ta.val ftz i j) (tb.val ftz i j) else condI cond (ta.int i j) (tb.int i j))

theorem tcmp_completes {s : State} {a b : BitVec 4} (d : BitVec 4) (cond : BitVec 3) (ha : (s.t a).clean) (hb : (s.t b).clean)
    (hk : needOneKind [(s.t a).fmt, (s.t b).fmt] = .ok ()) :
    Completes (.tcmp d a b cond) s
      (s.setT d (Tile.build 0x0D (mostRows [s.t a, s.t b]) (mostCols [s.t a, s.t b]) (cmpElem cond s.k.ftz (s.t a) (s.t b)))) true := by
  have hc : s.needClean [s.allRows a 0, s.allRows b 1] = .ok () :=
    State.needClean_ok fun c hc => by
      rcases List.mem_pair.1 hc with rfl | rfl
      · exact ha
      · exact hb
  change execTcmp d a b cond s = _
  rw [execTcmp]
  simp only [hk, hc, run_ok_bind, maxExt_eq]
  rfl

/-! tsel. -/

/-- The containers and the poison of a selection. -/
def selTile (ta tb tc : Tile) : Tile :=
  let ts := [ta, tb, tc]
  let sel (i j : Nat) : Bool := tc.int i j != 0
  let p := movedPoison (mostRows ts) ta tb (fun i => (List.range (mostCols ts)).any (sel i))
    (fun i => (List.range (mostCols ts)).any (fun j => !sel i j))
  { Tile.build ta.fmt (mostRows ts) (mostCols ts) (fun i j => if sel i j then ta.elem i j else tb.elem i j) with
    poison := p.1, origin := p.2 }

theorem tsel_completes {s : State} {a b c : BitVec 4} (d : BitVec 4) (ha : (s.t a).scl = false) (hb : (s.t b).scl = false)
    (hab : (s.t b).fmt = (s.t a).fmt) (hint : isIntCode (s.t c).fmt = true) (hc : (s.t c).clean) :
    Completes (.tsel d a b c) s (s.setT d (selTile (s.t a) (s.t b) (s.t c))) true := by
  have hclean : s.needClean [s.allRows c 2] = .ok () :=
    State.needClean_ok fun x hx => by rw [List.mem_singleton.1 hx]; exact hc
  change execTsel d a b c s = _
  rw [execTsel]
  simp only [ha, hb, hab, hint, hclean, maxExt_eq]
  rw [bne_self_eq_false]
  rfl

/-- A row of a moved result is poisoned when a poisoned row supplied it (14 R375). -/
theorem movedPoison_getLsbD {ta tb : Tile} {r : Nat} (hra : ta.rext ≤ r) (hrb : tb.rext ≤ r) (fromA fromB : Nat → Bool) (i : Nat) :
    (movedPoison r ta tb fromA fromB).1.getLsbD i = true ↔
      (i < ta.rext ∧ ta.bad i = true ∧ fromA i = true) ∨ (i < tb.rext ∧ tb.bad i = true ∧ fromB i = true) := by
  by_cases hi : i < 32
  · rw [movedPoison, maskOf_getLsbD _ hi]
    simp only [decide_eq_true_eq, List.mem_append, List.mem_filter, List.mem_range, Bool.and_eq_true]
    constructor
    · rintro (⟨-, ⟨h1, h2⟩, h3⟩ | ⟨-, ⟨h1, h2⟩, h3⟩)
      · exact .inl ⟨h2, h1, h3⟩
      · exact .inr ⟨h2, h1, h3⟩
    · rintro (⟨h2, h1, h3⟩ | ⟨h2, h1, h3⟩)
      · exact .inl ⟨h2.trans_le hra, ⟨h1, h2⟩, h3⟩
      · exact .inr ⟨h2.trans_le hrb, ⟨h1, h2⟩, h3⟩
  · simp [Tile.bad, BitVec.getLsbD_of_ge _ i (Nat.le_of_not_lt hi)]

/-- Settles O22, by the conditions of tcmp and the poison of a moved result. -/
theorem compareAndSelect : Obligations.CompareAndSelect := by
  refine ⟨fun s d a b cond ha hb => ⟨fun hts => ?float, fun hts => ?int⟩, fun s d a b c ha hb hab hint hc => ?sel⟩
  case float =>
    have hk : needOneKind [(s.t a).fmt, (s.t b).fmt] = .ok () := needOneKind_float (by simpa using hts)
    refine ⟨_, _, _, tcmp_completes d cond ha hb hk, SetsT.of_setT .., IsResult.of_build .., fun r c => ?_⟩
    rw [cmpElem, if_pos (hts (s.t a) (by simp))]
    exact bitWord_of (condF_iff ..)
  case int =>
    have hk : needOneKind [(s.t a).fmt, (s.t b).fmt] = .ok () := needOneKind_int (by simpa using hts)
    refine ⟨_, _, _, tcmp_completes d cond ha hb hk, SetsT.of_setT .., IsResult.of_build .., fun r c => ?_⟩
    rw [cmpElem, if_neg (by simp [not_isFloatCode_of_isIntCode (hts (s.t a) (by simp))])]
    exact bitWord_of (condI_iff ..)
  case sel =>
    intro ts sel
    refine ⟨_, _, _, tsel_completes d ha hb hab hint hc, SetsT.of_setT .., HasElems.of_rows rfl rfl rfl rfl rfl, rfl, fun r k => ?_, fun r => ?_⟩
    · refine ⟨fun h => if_pos (by simpa using h), fun h => if_neg (by simpa [sel] using h)⟩
    · refine (movedPoison_getLsbD (rext_le_mostRows (by simp)) (rext_le_mostRows (by simp)) _ _ r).trans ?_
      simp [sel, ts]

end Sys2Proof.Machine
end

section
/-! The exact order of values (02 R42): a finite value is a rational number, and its exponent grows with it. -/

namespace Sys2Proof.Machine

/-- The number that a finite value is. -/
def FVal.rat : FVal → ℚ
  | .fin s m e => (signed s m : ℚ) * 2 ^ e
  | _ => 0

theorem FVal.signed_mul (s : Bool) (m k : Nat) : signed s (m * k) = signed s m * k := by
  cases s <;> simp [signed]

theorem FVal.lt_fin_iff (s t : Bool) (m n : Nat) (e g : Int) :
    (FVal.fin s m e).lt (.fin t n g) = true ↔ (FVal.fin s m e).rat < (FVal.fin t n g).rat := by
  have hscale (k : Int) (h : min e g ≤ k) : (2 : ℚ) ^ k = 2 ^ (k - min e g).toNat * 2 ^ (min e g) := by
    rw [← zpow_natCast, ← zpow_add₀ (by norm_num)]
    congr 1
    omega
  have hq : (0 : ℚ) < 2 ^ (min e g) := by positivity
  rw [FVal.rat, FVal.rat, hscale e (min_le_left ..), hscale g (min_le_right ..), ← mul_assoc, ← mul_assoc, mul_lt_mul_iff_left₀ hq]
  simp only [FVal.lt, decide_eq_true_eq, FVal.signed_mul]
  exact_mod_cast Iff.rfl

/-- The exponent of the leading bit is monotone. -/
theorem log2_add_le {m n : Nat} {e g : Int} (hm : m ≠ 0) (h : (m : ℚ) * 2 ^ e ≤ n * 2 ^ g) : (m.log2 : Int) + e ≤ n.log2 + g := by
  have h1 : (2 : ℚ) ^ ((m.log2 : Int) + e) ≤ m * 2 ^ e := by
    rw [zpow_add₀ (by norm_num), zpow_natCast]
    exact mul_le_mul_of_nonneg_right (by exact_mod_cast Nat.log2_self_le hm) (by positivity)
  have h2 : (n : ℚ) * 2 ^ g < 2 ^ ((n.log2 : Int) + 1 + g) := by
    rw [zpow_add₀ (by norm_num)]
    refine mul_lt_mul_of_pos_right ?_ (by positivity)
    have : n < 2 ^ (n.log2 + 1) := Nat.lt_log2_self
    exact_mod_cast this
  have := (zpow_lt_zpow_iff_right₀ (by norm_num : (1 : ℚ) < 2)).1 ((h1.trans h).trans_lt h2)
  omega

/-! The largest magnitude of a row (07 R189). -/

/-- The larger magnitude, as tsc goes along a row. -/
def absMax (m v : FVal) : FVal := if m.lt v.abs then v.abs else m

theorem FVal.lt_inf_false_left (v : FVal) : (FVal.inf false).lt v = false := by
  rcases v with _ | t | ⟨t, n, g⟩ <;> simp [FVal.lt]

/-- An infinity on the way is the largest magnitude. -/
theorem foldl_absMax_inf {l : List FVal} (m : FVal)
    (h : m = .inf false ∨ (m.isFinite = true ∧ ∃ v ∈ l, v = .inf true ∨ v = .inf false)) : l.foldl absMax m = .inf false := by
  induction l generalizing m with
  | nil => simpa using h
  | cons v l ih =>
    rw [List.foldl_cons]
    refine ih _ ?_
    rcases h with rfl | ⟨hm, w, hw, hinf⟩
    · exact .inl (by rw [absMax, FVal.lt_inf_false_left, if_neg (by simp)])
    · obtain _ | _ | ⟨s, k, p⟩ := m <;> cases hm
      obtain _ | t | ⟨t, n, g⟩ := v
      · refine .inr ⟨rfl, w, ?_, hinf⟩
        rcases List.mem_cons.1 hw with rfl | hw
        · simp at hinf
        · exact hw
      · exact .inl rfl
      · refine .inr ⟨?_, w, ?_, hinf⟩
        · unfold absMax
          split <;> rfl
        · rcases List.mem_cons.1 hw with rfl | hw
          · simp at hinf
          · exact hw

/-- Among finite values the largest magnitude is that of one of them, or the start, and none exceeds it. -/
theorem foldl_absMax_fin {l : List FVal} (hl : ∀ v ∈ l, v.isFinite = true) (m : Nat) (e : Int) :
    ∃ n g, l.foldl absMax (.fin false m e) = .fin false n g ∧ ((n = m ∧ g = e) ∨ ∃ s, FVal.fin s n g ∈ l)
      ∧ (m : ℚ) * 2 ^ e ≤ n * 2 ^ g ∧ ∀ s k p, FVal.fin s k p ∈ l → (k : ℚ) * 2 ^ p ≤ n * 2 ^ g := by
  induction l generalizing m e with
  | nil => exact ⟨m, e, rfl, .inl ⟨rfl, rfl⟩, le_rfl, by simp⟩
  | cons v l ih =>
    have hl' : ∀ v ∈ l, v.isFinite = true := fun w hw => hl w (by simp [hw])
    obtain ⟨s, k, p, rfl⟩ : ∃ s k p, v = .fin s k p := by
      have hv := hl v (by simp)
      obtain _ | _ | ⟨s, k, p⟩ := v <;> cases hv
      exact ⟨s, k, p, rfl⟩
    have hlt := FVal.lt_fin_iff false false m k e p
    simp only [FVal.rat, FVal.signed, Bool.false_eq_true, if_false, Int.cast_natCast] at hlt
    rw [List.foldl_cons, absMax, FVal.abs]
    split
    · next h =>
      obtain ⟨n, g, hr, hmem, hle, hall⟩ := ih hl' k p
      refine ⟨n, g, hr, .inr ?_, (hlt.1 h).le.trans hle, fun s' k' p' hk => ?_⟩
      · rcases hmem with ⟨rfl, rfl⟩ | ⟨s', hs⟩
        · exact ⟨s, by simp⟩
        · exact ⟨s', by simp [hs]⟩
      · rcases List.mem_cons.1 hk with hk | hk
        · cases hk
          exact hle
        · exact hall s' k' p' hk
    · next h =>
      obtain ⟨n, g, hr, hmem, hle, hall⟩ := ih hl' m e
      refine ⟨n, g, hr, hmem.imp_right fun ⟨s', hs⟩ => ⟨s', by simp [hs]⟩, hle, fun s' k' p' hk => ?_⟩
      rcases List.mem_cons.1 hk with hk | hk
      · cases hk
        exact (not_lt.1 fun hc => h (hlt.2 hc)).trans hle
      · exact hall s' k' p' hk

end Sys2Proof.Machine
end

section
/-! Conversion of tiles (07 R188, R189). -/

namespace Sys2Proof.Machine

/-! One operand. -/

theorem needClean_one {s : State} {a : BitVec 4} (h : (s.t a).clean) (role : Nat) : s.needClean [s.allRows a role] = .ok () :=
  State.needClean_ok fun x hx => by rw [List.mem_singleton.1 hx]; exact h

theorem needFormats_one {ok : BitVec 5 → Bool} {f : BitVec 5} (h : ok f = true) : needFormats ok [f] = .ok () :=
  needFormats_ok (by simpa using h)

theorem isArith_of {f : BitVec 5} (h : isFloatCode f = true ∨ isIntCode f = true) : isArith f = true := by
  simpa [isArith] using h

/-! tcvt (07 R188). -/

theorem tcvt_completes {s : State} {a : BitVec 4} (d : BitVec 4) (sat : BitVec 1) (tgt : BitVec 5) (hc : (s.t a).clean)
    (hf : isFloatCode (s.t a).fmt = true ∨ isIntCode (s.t a).fmt = true) :
    Completes (.tcvt d a sat tgt) s (s.writeFlagged d tgt (s.t a).rext (s.t a).cext
      (flaggedRows (s.t a).rext (s.t a).cext (convertElem (Rm.ofBits s.k.rm) (sat == 1) s.k.ftz (s.t a) tgt))) true := by
  change execTcvt d a sat tgt s = _
  rw [execTcvt]
  simp only [needFormats_one (isArith_of hf), needClean_one hc, run_ok_bind]
  rfl

theorem convertElem_float {f : FFmt} {tgt : BitVec 5} (h : floatOf tgt = some f) (rm : Rm) (sat ftz : Bool) (t : Tile) (i j : Nat) :
    convertElem rm sat ftz t tgt i j =
      ⟨BitVec.ofNat 32 (f.round rm sat ftz (t.exact ftz i j)).bits, (f.round rm sat ftz (t.exact ftz i j)).toInf, false⟩ := by
  unfold convertElem
  rw [h]
  rfl

theorem floatOf_eq_none_of_intRange : ∀ {c : BitVec 5} {r : Int × Int}, intRange c = some r → floatOf c = none ∧ widthOf c ≤ 32 := by
  intro c r h
  have hall : ∀ c : BitVec 5, (intRange c).isSome = true → floatOf c = none ∧ widthOf c ≤ 32 := by decide
  exact hall c (by rw [h]; rfl)

theorem convertElem_int {tgt : BitVec 5} {lo hi : Int} (h : intRange tgt = some (lo, hi)) (rm : Rm) (sat ftz : Bool) (t : Tile) (i j : Nat) :
    convertElem rm sat ftz t tgt i j =
      ⟨BitVec.ofNat 32 (((t.exact ftz i j).toRange rm lo hi) % 2 ^ widthOf tgt).toNat, false, false⟩ := by
  unfold convertElem
  rw [(floatOf_eq_none_of_intRange h).1, h]
  rfl

theorem convertElem_iov (rm : Rm) (sat ftz : Bool) (t : Tile) (tgt : BitVec 5) (i j : Nat) :
    (convertElem rm sat ftz t tgt i j).iov = false := by
  unfold convertElem
  dsimp only
  split <;> rfl

/-- The container of a converted integer, in two's complement of the target's width. -/
theorem container_toNat {w : Nat} (hw : w ≤ 32) (n : Int) : ((BitVec.ofNat 32 (n % 2 ^ w).toNat).toNat : Int) = n % 2 ^ w := by
  have hpos : (0 : Int) < 2 ^ w := by positivity
  have h0 := Int.emod_nonneg n hpos.ne'
  have h1 := Int.emod_lt_of_pos n hpos
  have h2 : (2 : Int) ^ w ≤ 2 ^ 32 := pow_le_pow_right₀ (by decide) hw
  rw [BitVec.toNat_ofNat, Nat.mod_eq_of_lt (by omega)]
  omega

/-! tsc (07 R189). -/

/-- The scale that tsc chooses for a row of numbers. -/
def tscScale (tgt : BitVec 5) (vals : List FVal) : Int :=
  match vals.foldl absMax (.fin false 0 0) with
  | .fin _ m e => if m == 0 then 0x7F else clampInt 0 254 ((m.log2 : Int) + e - tscEmax tgt + 127)
  | _ => 254

/-- A value under a scale. -/
def FVal.unscale (sc : Int) : FVal → FVal
  | .fin s m e => .fin s m (e + 127 - sc)
  | v => v

theorem tscRow_of_nan (tgt : BitVec 5) {vals : List FVal} (h : ∃ v ∈ vals, v.isNan = true) :
    tscRow tgt vals = (0xFF, vals.map (fun _ => 0)) := by
  have hany : vals.any (·.isNan) = true := by simpa using h
  rw [tscRow, if_pos hany]

theorem tscRow_of_numbers {tgt : BitVec 5} {f : FFmt} (hf : floatOf tgt = some f) {vals : List FVal}
    (h : ∀ v ∈ vals, v.isNan = false) :
    tscRow tgt vals = (BitVec.ofInt 8 (tscScale tgt vals),
      vals.map (fun v => BitVec.ofNat 32 (f.round .rne true false (v.unscale (tscScale tgt vals))).bits)) := by
  have hany : vals.any (·.isNan) = false := by simpa using h
  rw [tscRow, if_neg (by simp [hany])]
  simp only [hf]
  rfl

theorem tscScale_mem (tgt : BitVec 5) (vals : List FVal) : 0 ≤ tscScale tgt vals ∧ tscScale tgt vals ≤ 254 := by
  unfold tscScale
  split
  · split
    · decide
    · rw [clampInt_eq (by decide)]
      omega
  · decide

theorem tscScale_toNat (tgt : BitVec 5) (vals : List FVal) :
    ((BitVec.ofInt 8 (tscScale tgt vals)).toNat : Int) = tscScale tgt vals := by
  have h := tscScale_mem tgt vals
  rw [BitVec.toNat_ofInt]
  omega

theorem tscEmax_eq : ∀ tgt, tscEmax tgt = scaleBias tgt := by decide

theorem tscScale_inf (tgt : BitVec 5) {vals : List FVal} (h : ∃ v ∈ vals, v = .inf true ∨ v = .inf false) : tscScale tgt vals = 254 := by
  rw [tscScale, foldl_absMax_inf _ (.inr ⟨rfl, h⟩)]

theorem tscScale_zero (tgt : BitVec 5) {vals : List FVal} (h : ∀ v ∈ vals, v.isZero = true) : tscScale tgt vals = 0x7F := by
  have hfin : ∀ v ∈ vals, v.isFinite = true := fun v hv => by
    have := h v hv
    cases v <;> simp_all [FVal.isZero, FVal.isFinite]
  obtain ⟨n, g, hr, hmem, -⟩ := foldl_absMax_fin hfin 0 0
  have hn : n = 0 := by
    rcases hmem with ⟨rfl, -⟩ | ⟨s, hs⟩
    · rfl
    · simpa [FVal.isZero] using h _ hs
  rw [tscScale, hr, hn]
  rfl

/-- The scale follows the largest exponent of the row. -/
theorem tscScale_log {tgt : BitVec 5} {vals : List FVal} {lg : Int} (hfin : ∀ v ∈ vals, v.isFinite = true)
    (hex : ∃ s m p, FVal.fin s m p ∈ vals ∧ m ≠ 0 ∧ (m.log2 : Int) + p = lg)
    (hle : ∀ s m p, FVal.fin s m p ∈ vals → m ≠ 0 → (m.log2 : Int) + p ≤ lg) :
    tscScale tgt vals = max 0 (min 254 (lg - scaleBias tgt + 127)) := by
  obtain ⟨n, g, hr, hmem, -, hall⟩ := foldl_absMax_fin hfin 0 0
  obtain ⟨s, m, p, hm, hm0, hlg⟩ := hex
  have hbig := hall s m p hm
  have hn : n ≠ 0 := by
    rintro rfl
    have : (0 : ℚ) < m * 2 ^ p := by positivity
    simp only [Nat.cast_zero, zero_mul] at hbig
    exact absurd hbig (not_le.2 this)
  have hlog : (n.log2 : Int) + g = lg := by
    refine le_antisymm ?_ (hlg ▸ log2_add_le hm0 hbig)
    rcases hmem with ⟨rfl, -⟩ | ⟨s', hs⟩
    · exact absurd rfl hn
    · exact hle s' n g hs hn
  rw [tscScale, hr]
  simp only [beq_iff_eq, hn, if_false]
  rw [clampInt_eq (by decide), hlog, tscEmax_eq]

/-- The tile of rows with their scales. -/
def tscTile (tgt : BitVec 5) (ftz : Bool) (t : Tile) : Tile :=
  let rows := (List.range t.rext).map (fun i => tscRow tgt ((List.range t.cext).map (fun j => t.val ftz i j)))
  { Tile.build tgt t.rext t.cext (fun _ _ => 0) with scl := true, rows := rows.map (·.2), scale := rows.map (·.1) }

theorem tsc_completes {s : State} {a : BitVec 4} (d : BitVec 4) (tgt : BitVec 5) (hc : (s.t a).clean) (hf : isFloatCode (s.t a).fmt = true) :
    Completes (.tsc d a tgt) s (s.setT d (tscTile tgt s.k.ftz (s.t a))) true := by
  change execTsc d a tgt s = _
  rw [execTsc]
  simp only [needFormats_one hf, needClean_one hc, run_ok_bind]
  rfl

/-- The row of values that tsc converts, and its containers. -/
def Tile.vals (t : Tile) (ftz : Bool) (i : Nat) : List FVal := (List.range t.cext).map (fun j => t.val ftz i j)

@[inherit_doc Tile.vals] def tscElem (tgt : BitVec 5) (ftz : Bool) (t : Tile) (i j : Nat) : Word32 := (tscRow tgt (t.vals ftz i)).2.getD j 0

theorem tscRow_length (tgt : BitVec 5) (vals : List FVal) : (tscRow tgt vals).2.length = vals.length := by
  unfold tscRow
  split <;> simp

theorem tscTile_rows (tgt : BitVec 5) (ftz : Bool) (t : Tile) :
    (tscTile tgt ftz t).rows = buildRows t.rext t.cext (tscElem tgt ftz t) := by
  simp only [tscTile, buildRows, List.map_map]
  refine List.map_congr_left fun i _ => ?_
  refine List.ext_getElem (by simp [tscRow_length]) fun j h1 h2 => ?_
  simp only [List.getElem_map, List.getElem_range, tscElem, Function.comp]
  exact (List.getD_eq_getElem _ 0 h1).symm

theorem Tile.mem_vals {t : Tile} {ftz : Bool} {i : Nat} {v : FVal} : v ∈ t.vals ftz i ↔ ∃ j, j < t.cext ∧ t.val ftz i j = v := by
  simp [Tile.vals]

theorem Tile.forall_vals {t : Tile} {ftz : Bool} {i : Nat} {p : FVal → Prop} :
    (∀ v ∈ t.vals ftz i, p v) ↔ ∀ j, j < t.cext → p (t.val ftz i j) := by
  simp [Tile.vals]

theorem Tile.exists_vals {t : Tile} {ftz : Bool} {i : Nat} {p : FVal → Prop} :
    (∃ v ∈ t.vals ftz i, p v) ↔ ∃ j, j < t.cext ∧ p (t.val ftz i j) := by
  simp [Tile.vals]

theorem tscElem_of_nan (tgt : BitVec 5) {ftz : Bool} {t : Tile} {i : Nat} (h : ∃ v ∈ t.vals ftz i, v.isNan = true) (j : Nat) :
    tscElem tgt ftz t i j = 0 := by
  rw [tscElem, tscRow_of_nan tgt h]
  by_cases hj : j < (t.vals ftz i).length <;> simp [List.getD_eq_getElem?_getD, hj]

theorem tscElem_of_numbers {tgt : BitVec 5} {f : FFmt} (hf : floatOf tgt = some f) {ftz : Bool} {t : Tile} {i : Nat}
    (h : ∀ v ∈ t.vals ftz i, v.isNan = false) {j : Nat} (hj : j < t.cext) :
    tscElem tgt ftz t i j =
      BitVec.ofNat 32 (f.round .rne true false ((t.val ftz i j).unscale (tscScale tgt (t.vals ftz i)))).bits := by
  rw [tscElem, tscRow_of_numbers hf h]
  simp [List.getD_eq_getElem?_getD, Tile.vals, hj]

theorem tscTile_scaleAt (tgt : BitVec 5) (ftz : Bool) (t : Tile) {i : Nat} (h : i < t.rext) :
    (tscTile tgt ftz t).scaleAt i = (tscRow tgt (t.vals ftz i)).1 := by
  simp [tscTile, Tile.scaleAt, List.getD_eq_getElem?_getD, h, Tile.vals]

/-- Settles O23, by the conversion of one element and the scale that a row of numbers gets. -/
theorem convertTiles : Obligations.ConvertTiles := by
  refine ⟨fun s d a sat tgt _ hc hf => ?tcvt, fun s d a tgt f _ htgt hf hc => ?tsc⟩
  case tcvt =>
    intro rm x
    have hiov := anyIov_eq_false (r := (s.t a).rext) (c := (s.t a).cext)
      (g := convertElem rm (sat == 1) s.k.ftz (s.t a) tgt) fun _ _ => convertElem_iov ..
    refine ⟨_, _, _, _, tcvt_completes d sat tgt hc hf, hiov ▸ SetsT.of_writeFlagged .., IsResult.of_build .., fun f h => ⟨fun r c => ?_, ?_⟩,
      fun lo hi h => ⟨?_, fun r c => ?_⟩⟩
    · rw [convertElem_float h]
    · rw [anyNf_flaggedRows]
      simp only [convertElem_float h]
      rfl
    · exact anyNf_eq_false fun i j => by rw [convertElem_int h]
    · rw [convertElem_int h]
      exact container_toNat (floatOf_eq_none_of_intRange h).2 _
  case tsc =>
    intro x
    refine ⟨_, _, _, tsc_completes d tgt hc hf, SetsT.of_setT .., HasElems.of_rows rfl rfl (tscTile_rows ..) rfl rfl, rfl, rfl, fun r hr => ⟨fun hnan => ?_, fun hnum => ?_⟩⟩
    all_goals rw [tscTile_scaleAt tgt _ _ hr]
    · have hnan : ∃ v ∈ (s.t a).vals s.k.ftz r, v.isNan = true := Tile.exists_vals.2 hnan
      exact ⟨congrArg Prod.fst (tscRow_of_nan tgt hnan), tscElem_of_nan tgt hnan⟩
    · have hnum : ∀ v ∈ (s.t a).vals s.k.ftz r, v.isNan = false := Tile.forall_vals.2 hnum
      have hscale := tscScale_toNat tgt ((s.t a).vals s.k.ftz r)
      have hmem := tscScale_mem tgt ((s.t a).vals s.k.ftz r)
      rw [tscRow_of_numbers htgt hnum]
      refine ⟨fun hff => ?_, fun hz => ?_, fun hinf => ?_, fun lg hfin hex hle => ?_, fun c hlt => ?_⟩
      · have h255 : (255 : Int) = tscScale tgt ((s.t a).vals s.k.ftz r) := by
          rw [← hscale, show BitVec.ofInt 8 _ = _ from hff]
          rfl
        omega
      · exact congrArg (BitVec.ofInt 8) (tscScale_zero tgt (Tile.forall_vals.2 hz))
      · exact congrArg (BitVec.ofInt 8) (tscScale_inf tgt (Tile.exists_vals.2 hinf))
      · rw [hscale]
        refine tscScale_log (Tile.forall_vals.2 hfin) ?_ ?_
        · obtain ⟨c, g, m, p, hlt, hx, hm, hlg⟩ := hex
          exact ⟨g, m, p, Tile.mem_vals.2 ⟨c, hlt, hx⟩, hm, hlg⟩
        · intro g m p hv
          obtain ⟨c, hlt, hx⟩ := Tile.mem_vals.1 hv
          exact hle c g m p hlt hx
      · rw [tscElem_of_numbers htgt hnum hlt, hscale]
        cases hx : x r c <;> simp only [x] at hx <;> rw [hx] <;> rfl

end Sys2Proof.Machine
end

section
/-! Moves of tiles (07 R190, R191). -/

namespace Sys2Proof.Machine

/-! ttr. -/

/-- The transposed tile, poisoned as a whole. -/
def Tile.transposed (t : Tile) : Tile :=
  { Tile.build t.fmt t.cext t.rext (fun j i => t.elem i j) with
    poison := if (List.range t.rext).any t.bad then maskOf (List.range t.cext) else 0
    origin := if (List.range t.rext).any t.bad then t.origin else 0 }

theorem ttr_completes {s : State} {a : BitVec 4} (d : BitVec 4) (h : (s.t a).scl = false) :
    Completes (.ttr d a) s (s.setT d (s.t a).transposed) true := by
  change execTtr d a s = _
  rw [execTtr]
  simp only [h]
  rfl

theorem ttr_traps {s : State} {a : BitVec 4} (d : BitVec 4) (h : (s.t a).scl = true) :
    TrapsWith (.ttr d a) s .badFormat ((s.t a).fmt.zeroExtend 64) := by
  refine ⟨0, ?_⟩
  change execTtr d a s = _
  rw [execTtr]
  simp only [h]
  rfl

theorem Tile.not_clean_iff (t : Tile) : ¬t.clean ↔ (List.range t.rext).any t.bad = true := by
  simp [Tile.clean]

theorem Tile.transposed_bad (t : Tile) {j : Nat} (hj : j < 32) : t.transposed.bad j = true ↔ j < t.cext ∧ ¬t.clean := by
  rw [Tile.not_clean_iff]
  simp only [Tile.transposed, Tile.bad]
  split
  · rename_i h
    rw [maskOf_getLsbD _ hj]
    simp [h]
  · rename_i h
    simp [h]

/-! tbc. -/

/-- The tile of a source element for each position. -/
def Tile.broadcasted (ta tb : Tile) (src : Nat → Nat → Nat × Nat) : Tile :=
  let row (i : Nat) : Nat := (src i 0).1
  let bad := (List.range tb.rext).filter (fun i => ta.bad (row i))
  { Tile.build ta.fmt tb.rext tb.cext (fun i j => ta.elem (src i j).1 (src i j).2) with
    scl := ta.scl, scale := (List.range tb.rext).map (fun i => ta.scaleAt (row i))
    poison := maskOf bad, origin := if bad.isEmpty then 0 else ta.origin }

theorem broadcast_eq (d a b : BitVec 4) (src : Nat → Nat → Nat × Nat) (s : State) :
    broadcast d a b src s = .next ((s.setT d ((s.t a).broadcasted (s.t b) src)).advance true) := rfl

theorem Tile.broadcasted_bad (ta tb : Tile) (src : Nat → Nat → Nat × Nat) {r : Nat} (hr : r < 32) :
    (ta.broadcasted tb src).bad r = true ↔ r < tb.rext ∧ ta.bad (src r 0).1 = true := by
  simp [Tile.broadcasted, Tile.bad, maskOf_getLsbD _ hr]

theorem Tile.broadcasted_scaleAt (ta tb : Tile) (src : Nat → Nat → Nat × Nat) {r : Nat} (hr : r < tb.rext) :
    (ta.broadcasted tb src).scaleAt r = ta.scaleAt (src r 0).1 := by
  simp [Tile.broadcasted, Tile.scaleAt, List.getD_eq_getElem?_getD, hr]

/-- Settles O24, by the transposed and the broadcast tile. -/
theorem moveTiles : Obligations.MoveTiles := by
  intro s d a b x
  refine ⟨fun h => ⟨_, _, ttr_completes d h, SetsT.of_setT .., HasElems.of_rows rfl rfl rfl rfl rfl, rfl, fun j => (s.t a).transposed_bad⟩,
    ttr_traps d, fun i row col hi => ?tbc, _, _, rfl, SetsT.of_setT .., IsResult.of_build ..⟩
  case tbc =>
    have hexec : Completes i s (s.setT d ((s.t a).broadcasted (s.t b) (fun i j => (row i, col j)))) true := by
      rcases hi with ⟨rfl, rfl, rfl⟩ | ⟨rfl, rfl, rfl⟩ | ⟨rfl, rfl, rfl⟩ <;> exact broadcast_eq ..
    exact ⟨_, _, hexec, SetsT.of_setT .., HasElems.of_rows rfl rfl rfl rfl rfl, rfl, fun r hr =>
      ⟨Tile.broadcasted_bad _ _ _ hr, Tile.broadcasted_scaleAt _ _ _⟩⟩

end Sys2Proof.Machine
end

section
/-! The fixed order of a reduction (02 R66, R67; 07 R192): the model's lists, and the values of the definition of the order. -/

namespace Sys2Proof.Machine

section
variable {α : Type} (op : α → α → α)

/-! The tree along a row. -/

/-- One level combines the positions two by two. -/
theorem treeLevel_getElem? (l : List α) (j : Nat) :
    (treeLevel op l)[j]? = match l[2 * j]?, l[2 * j + 1]? with
      | some a, some b => some (op a b)
      | some a, none => some a
      | none, w => w := by
  induction l using treeLevel.induct generalizing j with
  | case1 a b r ih =>
    rw [treeLevel]
    cases j with
    | zero => rfl
    | succ j => rw [List.getElem?_cons_succ, ih]; rfl
  | case2 l h =>
    rcases l with _ | ⟨a, _ | ⟨b, r⟩⟩
    · simp [treeLevel]
    · cases j <;> simp [treeLevel]
    · exact absurd rfl (h a b r)

theorem treeNode_succ_getElem? (l : List α) (n j : Nat) :
    treeNode op (fun k => (treeLevel op l)[k]?) n j = treeNode op (fun k => l[k]?) (n + 1) j := by
  induction n generalizing j with
  | zero => rw [treeNode, treeLevel_getElem?]; rfl
  | succ n ih => rw [treeNode, ih, ih]; rfl

theorem treeReduce_eq (l : List α) : treeReduce op l = treeNode op (fun k => l[k]?) 5 0 := by
  rw [treeReduce, List.head?_eq_getElem?]
  simp only [← treeNode_succ_getElem? op]
  rfl

/-! The chain of the rows. -/

theorem chainReduce_concat (l : List α) (a : α) :
    chainReduce op (l ++ [a]) = match chainReduce op l with
      | some b => some (op b a)
      | none => some a := by
  cases l <;> simp [chainReduce]

theorem chainReduce_filterMap (f : Nat → Option α) (n : Nat) : chainReduce op ((List.range n).filterMap f) = ascending op f n := by
  induction n with
  | zero => rfl
  | succ n ih =>
    rw [List.range_succ, List.filterMap_append, ascending, ← ih]
    cases h : f n with
    | none => simp [h]; split <;> simp_all
    | some a =>
      rw [List.filterMap_cons_some h, List.filterMap_nil, chainReduce_concat]
      cases chainReduce op (List.filterMap f (List.range n)) <;> rfl

/-- A row of a tile by the tree. -/
theorem treeReduce_row (c : Nat) (f : Nat → α) :
    treeReduce op ((List.range c).map f) = treeNode op (fun j => if j < c then some (f j) else none) 5 0 := by
  rw [treeReduce_eq]
  congr 1
  funext k
  by_cases hk : k < c <;> simp [hk]

end

/-- The positions that result k combines (07 R192). -/
def redGroup (axis : BitVec 2) (t : Tile) (k : Nat) : List (List (Nat × Nat)) :=
  match axis.toNat with
  | 0 => [(List.range t.cext).map (fun j => (k, j))]
  | 1 => (List.range t.rext).map (fun i => [(i, k)])
  | _ => (List.range t.rext).map (fun i => (List.range t.cext).map (fun j => (i, j)))

theorem redGroups_eq (axis : BitVec 2) (t : Tile) :
    redGroups axis t = (List.range (reduceCount axis t.rext t.cext)).map (redGroup axis t) := by
  unfold redGroups reduceCount redGroup
  generalize axis.toNat = n
  match n with
  | 0 => rfl
  | 1 => rfl
  | n + 2 => rfl

section
variable {α : Type} (op : α → α → α)

/-- The value of a group is the result of the definition. -/
theorem redOne_redGroup (at_ : Nat × Nat → α) (axis : BitVec 2) (t : Tile) (k : Nat) :
    redOne op at_ (redGroup axis t k) = reduceAt axis op t.rext t.cext (fun i j => at_ (i, j)) k := by
  have hrow (i : Nat) : treeReduce op (List.map at_ ((List.range t.cext).map (fun j => (i, j)))) =
      treeNode op (fun j => if j < t.cext then some (at_ (i, j)) else none) 5 0 := by
    rw [List.map_map]
    exact treeReduce_row op t.cext _
  unfold redGroup reduceAt redOne
  generalize axis.toNat = n
  match n with
  | 0 =>
    change chainReduce op ([(List.range t.cext).map (fun j => (k, j))].filterMap _) =
      treeNode op (fun j => if j < t.cext then some (at_ (k, j)) else none) 5 0
    rw [List.filterMap_cons, hrow]
    cases treeNode op (fun j => if j < t.cext then some (at_ (k, j)) else none) 5 0 <;> rfl
  | 1 =>
    change chainReduce op (((List.range t.rext).map (fun i => [(i, k)])).filterMap _) = _
    rw [List.filterMap_map]
    exact chainReduce_filterMap op (fun i => some (at_ (i, k))) t.rext
  | n + 2 =>
    change chainReduce op (((List.range t.rext).map (fun i => (List.range t.cext).map (fun j => (i, j)))).filterMap _) = ascending op _ t.rext
    rw [List.filterMap_map, ← chainReduce_filterMap]
    exact congrArg _ (List.filterMap_congr fun i _ => hrow i)

end

/-- The positions of a group are those that take part in its result. -/
theorem redGroup_all (p : Nat × Nat → Bool) {axis : BitVec 2} {t : Tile} {k : Nat} (hk : k < reduceCount axis t.rext t.cext) :
    (redGroup axis t k).all (fun row => row.all p) = true ↔
      ∀ r c, r < t.rext → c < t.cext → takesPart axis k r c → p (r, c) = true := by
  unfold reduceCount at hk
  unfold redGroup takesPart
  generalize axis.toNat = n at *
  match n with
  | 0 =>
    simp only [List.all_cons, List.all_nil, Bool.and_true, List.all_map, List.all_eq_true, List.mem_range, Function.comp] at *
    exact ⟨fun h r c _ hc hr => hr ▸ h c hc, fun h c hc => h k c hk hc rfl⟩
  | 1 =>
    simp only [List.all_map, List.all_eq_true, List.mem_range, Function.comp, List.all_cons, List.all_nil, Bool.and_true] at *
    exact ⟨fun h r c hr _ hc => hc ▸ h r hr, fun h r hr => h r k hr hk rfl⟩
  | n + 2 =>
    simp only [List.all_map, List.all_eq_true, List.mem_range, Function.comp] at *
    exact ⟨fun h r c hr hc _ => h r hr c hc, fun h r hr c hc => h r c hr hc trivial⟩

/-! Two reductions side by side. -/

/-- Results that are both absent, or related, after combining at most n elements. -/
def Option.Within {α β : Type} (R : Nat → α → β → Prop) (n : Nat) : Option α → Option β → Prop
  | none, none => True
  | some a, some b => ∃ m, m ≤ n ∧ R m a b
  | _, _ => False

/-- Two results combined, an absent one left out. -/
def Option.combine {α : Type} (op : α → α → α) : Option α → Option α → Option α
  | some a, some b => some (op a b)
  | some a, none => some a
  | none, w => w

theorem treeNode_succ {α : Type} (op : α → α → α) (v : Nat → Option α) (l j : Nat) :
    treeNode op v (l + 1) j = Option.combine op (treeNode op v l (2 * j)) (treeNode op v l (2 * j + 1)) := rfl
theorem ascending_succ {α : Type} (op : α → α → α) (v : Nat → Option α) (n : Nat) :
    ascending op v (n + 1) = Option.combine op (ascending op v n) (v n) := rfl

section
variable {α β : Type} {R : Nat → α → β → Prop} {f : α → α → α} {g : β → β → β}
  (hR : ∀ m n a a' b b', R m a b → R n a' b' → R (m + n) (f a a') (g b b'))
include hR

theorem combine_within {m n : Nat} {a a' : Option α} {b b' : Option β} (h : Option.Within R m a b) (h' : Option.Within R n a' b') :
    Option.Within R (m + n) (Option.combine f a a') (Option.combine g b b') := by
  rcases a with _ | a <;> rcases b with _ | b
  case none.none =>
    rcases a' with _ | a' <;> rcases b' with _ | b'
    · exact h'
    · exact h'.elim
    · exact h'.elim
    · obtain ⟨k, hk, hr⟩ := h'
      exact ⟨k, by omega, hr⟩
  case none.some => exact h.elim
  case some.none => exact h.elim
  case some.some =>
    obtain ⟨k, hk, hr⟩ := h
    rcases a' with _ | a' <;> rcases b' with _ | b'
    · exact ⟨k, by omega, hr⟩
    · exact h'.elim
    · exact h'.elim
    · obtain ⟨k', hk', hr'⟩ := h'
      exact ⟨k + k', by omega, hR _ _ _ _ _ _ hr hr'⟩

theorem treeNode_within {v : Nat → Option α} {w : Nat → Option β} (h : ∀ j, Option.Within R 1 (v j) (w j)) (l j : Nat) :
    Option.Within R (2 ^ l) (treeNode f v l j) (treeNode g w l j) := by
  induction l generalizing j with
  | zero => exact h j
  | succ l ih =>
    rw [treeNode_succ, treeNode_succ, pow_succ, Nat.mul_two]
    exact combine_within hR (ih _) (ih _)

theorem ascending_within {v : Nat → Option α} {w : Nat → Option β} {k n : Nat} (h : ∀ j, j < n → Option.Within R k (v j) (w j)) :
    Option.Within R (n * k) (ascending f v n) (ascending g w n) := by
  induction n with
  | zero => trivial
  | succ n ih =>
    rw [ascending_succ, ascending_succ, Nat.succ_mul]
    exact combine_within hR (ih fun j hj => h j (by omega)) (h n (by omega))

/-- Reductions of related elements are related; the results of a tile of at most 32 rows combine at most 2^10 of them. -/
theorem reduceAt_within {axis : BitVec 2} {r c : Nat} (hr : r ≤ 32) {x : Nat → Nat → α} {y : Nat → Nat → β} {k : Nat}
    (hk : k < reduceCount axis r c) (h : ∀ i j, i < r → j < c → R 1 (x i j) (y i j)) :
    Option.Within R (2 ^ 10) (reduceAt axis f r c x k) (reduceAt axis g r c y k) := by
  have hmono {n : Nat} (hn : n ≤ 2 ^ 10) {a : Option α} {b : Option β} (h : Option.Within R n a b) : Option.Within R (2 ^ 10) a b := by
    rcases a with _ | a <;> rcases b with _ | b
    · trivial
    · exact h
    · exact h
    · obtain ⟨m, hm, hr⟩ := h
      exact ⟨m, by omega, hr⟩
  have hrow (i : Nat) (hi : i < r) := treeNode_within hR (v := fun j => if j < c then some (x i j) else none)
    (w := fun j => if j < c then some (y i j) else none) (fun j => by
      by_cases hj : j < c
      · simp only [hj, if_true]
        exact ⟨1, le_rfl, h i j hi hj⟩
      · simp only [hj, if_false]
        trivial) 5 0
  unfold reduceCount at hk
  unfold reduceAt
  generalize axis.toNat = n at *
  match n with
  | 0 => exact hmono (by decide) (hrow k hk)
  | 1 => exact hmono (by omega) (ascending_within hR (k := 1) fun i hi => ⟨1, le_rfl, h i k hi hk⟩)
  | n + 2 => exact hmono (by omega) (ascending_within hR (k := 2 ^ 5) fun i hi => hrow i hi)

end
end Sys2Proof.Machine
end

section
/-! tred (02 R66, R67; 07 R192 to R194): the results with their flags, and where they go. -/

namespace Sys2Proof.Machine

/-! Floating-point results. -/

theorem redF_eq (op : BitVec 3) (ftz : Bool) : redF op ftz = reduceFloat op ftz := rfl

/-- Element i, j as a reduction takes it. -/
def redElemF (op : BitVec 3) (ftz : Bool) (t : Tile) (i j : Nat) : FVal := if op = 3 then (t.val ftz i j).abs else t.val ftz i j

/-- Result k of a floating-point reduction. -/
def redValueF (op : BitVec 3) (axis : BitVec 2) (ftz : Bool) (t : Tile) (k : Nat) : Option FVal :=
  reduceAt axis (reduceFloat op ftz) t.rext t.cext (redElemF op ftz t) k

@[inherit_doc redValueF] def redFlaggedF (op : BitVec 3) (axis : BitVec 2) (ftz : Bool) (t : Tile) (k : Nat) : Flagged :=
  match redValueF op axis ftz t k with
  | none => ⟨reduceNoneFloat op, false, false⟩
  | some v => floatResult fp32 ftz ((redGroup axis t k).all (fun row => row.all (fun p => (t.val ftz p.1 p.2).isFinite))) v

theorem idF_eq (op : BitVec 3) : BitVec.ofNat 32 (idF op) = reduceNoneFloat op := by
  have hlt := op.isLt
  unfold idF reduceNoneFloat
  generalize op.toNat = n at *
  interval_cases n <;> rfl

theorem redResults_float {t : Tile} (h : isFloatCode t.fmt = true) (op : BitVec 3) (axis : BitVec 2) (ftz : Bool) :
    redResults op axis ftz t = (List.range (reduceCount axis t.rext t.cext)).map (redFlaggedF op axis ftz t) := by
  rw [redResults, redGroups_eq, List.map_map]
  refine List.map_congr_left fun k _ => ?_
  have hone : redOne (redF op ftz) (fun p => if op == 3 then (t.val ftz p.1 p.2).abs else t.val ftz p.1 p.2) (redGroup axis t k) =
      redValueF op axis ftz t k := by
    rw [redOne_redGroup, redF_eq]
    simp only [beq_iff_eq]
    rfl
  simp only [Function.comp, h, if_true, hone, redFlaggedF, ← idF_eq] <;> rfl

/-! Integer results. -/

/-- The result format of an integer reduction (07 R193). -/
def redIntFormat (t : Tile) : BitVec 5 := if t.fmt = 0x0D ∨ t.fmt = 0x0F then 0x0F else 0x0C

theorem redIntFormat_eq (t : Tile) : redIntFormat t = 0x0F ∨ redIntFormat t = 0x0C := by
  unfold redIntFormat
  split <;> simp

@[inherit_doc redElemF] def redElemI (op : BitVec 3) (t : Tile) (i j : Nat) : Int := if op = 3 then ((t.int i j).natAbs : Int) else t.int i j

/-- An element with the overflow that it shows itself. -/
def redLeaf (op : BitVec 3) (t : Tile) (i j : Nat) : IntAcc :=
  (redElemI op t i j, (intResult (redIntFormat t) (redElemI op t i j)).iov || (op == 0 && (intResult 0x0C (redElemI op t i j)).iov))

/-- Result k of an integer reduction, as the model accumulates it, and exactly. -/
def redAcc (op : BitVec 3) (axis : BitVec 2) (t : Tile) (k : Nat) : Option IntAcc :=
  reduceAt axis (redI op (redIntFormat t)) t.rext t.cext (redLeaf op t) k
@[inherit_doc redAcc] def redValueI (op : BitVec 3) (axis : BitVec 2) (t : Tile) (k : Nat) : Option Int :=
  reduceAt axis (reduceInt op) t.rext t.cext (redElemI op t) k

@[inherit_doc redAcc] def redFlaggedI (op : BitVec 3) (axis : BitVec 2) (t : Tile) (k : Nat) : Flagged :=
  match redAcc op axis t k with
  | none => ⟨BitVec.ofInt 32 (reduceNoneInt op (redIntFormat t)), false, false⟩
  | some v => ⟨BitVec.ofInt 32 v.1, false, v.2⟩

theorem idI_eq (op : BitVec 3) {f : BitVec 5} (h : f = 0x0F ∨ f = 0x0C) : idI op f = reduceNoneInt op f := by
  unfold idI reduceNoneInt
  generalize op.toNat = n
  rcases h with rfl | rfl
  · match n with
    | 0 => rfl
    | 1 => rfl
    | 2 => rfl
    | n + 3 => rfl
  · match n with
    | 0 => rfl
    | 1 => rfl
    | 2 => rfl
    | n + 3 => rfl

theorem redResults_int {t : Tile} (h : isFloatCode t.fmt = false) (op : BitVec 3) (axis : BitVec 2) (ftz : Bool) :
    redResults op axis ftz t = (List.range (reduceCount axis t.rext t.cext)).map (redFlaggedI op axis t) := by
  rw [redResults, redGroups_eq, List.map_map]
  refine List.map_congr_left fun k _ => ?_
  have hfmt : (if (t.fmt == 0x0D || t.fmt == 0x0F) = true then 0x0F else 0x0C : BitVec 5) = redIntFormat t := by
    simp [redIntFormat]
  have hone : redOne (redI op (redIntFormat t)) (fun p =>
      ((if (op == 3) = true then ((t.int p.1 p.2).natAbs : Int) else t.int p.1 p.2),
        (intResult (redIntFormat t) (if (op == 3) = true then ((t.int p.1 p.2).natAbs : Int) else t.int p.1 p.2)).iov
          || (op == 0 && (intResult 0x0C (if (op == 3) = true then ((t.int p.1 p.2).natAbs : Int) else t.int p.1 p.2)).iov)))
      (redGroup axis t k) = redAcc op axis t k := by
    rw [redOne_redGroup]
    simp only [beq_iff_eq]
    rfl
  simp only [Function.comp, h, Bool.false_eq_true, if_false, hfmt, hone, redFlaggedI, ← idI_eq op (redIntFormat_eq t)] <;> rfl

/-! The accumulated integers beside the exact ones. -/

/-- An integer read back in a result format from its container. -/
theorem intElem_ofInt {f : BitVec 5} (h : f = 0x0F ∨ f = 0x0C) (n : Int) :
    BitVec.ofInt 32 (intElem f (BitVec.ofInt 32 n)) = BitVec.ofInt 32 n ∧ (¬ outside32 f n → intElem f (BitVec.ofInt 32 n) = n) := by
  have htoNat : ((BitVec.ofInt 32 n).toNat : Int) = n % 2 ^ 32 := by
    rw [BitVec.toNat_ofInt]
    omega
  have hlt := (BitVec.ofInt 32 n).isLt
  rcases h with rfl | rfl
  · have hval : intElem 0x0F (BitVec.ofInt 32 n) = n % 2 ^ 32 := by
      rw [← htoNat, ← Nat.mod_eq_of_lt hlt]
      simp [intElem, intRange, widthOf]
    rw [hval]
    refine ⟨BitVec.eq_of_toNat_eq (by simp [BitVec.toNat_ofInt]), fun hin => ?_⟩
    simp only [outside32, if_true] at hin
    omega
  · have hval : intElem 0x0C (BitVec.ofInt 32 n) = n.bmod (2 ^ 32) := by
      rw [← BitVec.toInt_ofInt, BitVec.toInt_eq_toNat_cond]
      unfold intElem
      rw [show widthOf 0x0C = 32 from rfl, show intRange 0x0C = some (-2 ^ 31, 2 ^ 31 - 1) from rfl, Nat.mod_eq_of_lt hlt]
      simp only [Int.reducePow, Int.reduceNeg, Int.reduceLT, decide_true, Bool.true_and, decide_eq_true_eq]
      split <;> split <;> omega
    rw [hval]
    refine ⟨BitVec.eq_of_toInt_eq (by simp), fun hin => ?_⟩
    simp [outside32] at hin
    rw [Int.bmod_eq_of_le] <;> omega

/-- What an accumulated integer is of the exact one: congruent, equal while nothing has overflowed, and equal where the operator
makes no sum; with elements below 2^21 no sum of at most 2^10 of them overflows. -/
structure IntRel (op : BitVec 3) (f : BitVec 5) (small : Prop) (n : Nat) (acc : IntAcc) (v : Int) : Prop where
  wraps : BitVec.ofInt 32 acc.1 = BitVec.ofInt 32 v
  exact : acc.2 = false → acc.1 = v ∧ ¬ outside32 f v ∧ (op = 0 → ¬ outside32 0x0C v)
  noSum : op ≠ 0 → acc.1 = v
  bound : small → n ≤ 2 ^ 10 → acc.2 = false ∧ v.natAbs ≤ n * (2 ^ 21 - 1) ∧ (f = 0x0F → 0 ≤ v)

theorem not_outside32_of_bound {f : BitVec 5} {v : Int} (h : v.natAbs < 2 ^ 31) (h0 : f = 0x0F → 0 ≤ v) : ¬ outside32 f v := by
  unfold outside32
  split
  · next hf => have := h0 hf; omega
  · omega

theorem intResult_iov_false {f : BitVec 5} (h : f = 0x0F ∨ f = 0x0C) {n : Int} : (intResult f n).iov = false ↔ ¬ outside32 f n := by
  rw [← (intResult_of_32 h n).2.2, Bool.not_eq_true]

section
variable {op : BitVec 3} {f : BitVec 5} {small : Prop} (hf : f = 0x0F ∨ f = 0x0C)
include hf

/-- A sum, wrapped in the result format. -/
theorem IntRel.sum (h0 : op = 0) {m n : Nat} {a a' : IntAcc} {b b' : Int} (h : IntRel op f small m a b) (h' : IntRel op f small n a' b') :
    IntRel op f small (m + n) (intElem f (intResult f (a.1 + a'.1)).bits,
      a.2 || a'.2 || (intResult f (a.1 + a'.1)).iov || (intResult 0x0C (a.1 + a'.1)).iov) (b + b') := by
  obtain ⟨hbits, -, hiov⟩ := intResult_of_32 hf (a.1 + a'.1)
  obtain ⟨hcong, hback⟩ := intElem_ofInt hf (a.1 + a'.1)
  rw [hbits]
  refine ⟨?_, fun hov => ?_, fun hne => absurd h0 hne, fun hs hn => ?_⟩
  · rw [hcong, BitVec.ofInt_add, BitVec.ofInt_add, h.wraps, h'.wraps]
  · simp only [Bool.or_eq_false_iff] at hov
    obtain ⟨⟨⟨ha, ha'⟩, hof⟩, ho⟩ := hov
    rw [intResult_iov_false hf] at hof
    rw [intResult_iov_false (.inr rfl)] at ho
    obtain ⟨rfl, -⟩ := h.exact ha
    obtain ⟨rfl, -⟩ := h'.exact ha'
    exact ⟨hback hof, hof, fun _ => ho⟩
  · obtain ⟨ha, hb, hp⟩ := h.bound hs (by omega)
    obtain ⟨ha', hb', hp'⟩ := h'.bound hs (by omega)
    have hlt : (b + b').natAbs ≤ (m + n) * (2 ^ 21 - 1) := by rw [Nat.add_mul]; omega
    have hmax : (m + n) * (2 ^ 21 - 1) ≤ 2 ^ 10 * (2 ^ 21 - 1) := Nat.mul_le_mul_right _ hn
    have hpos : f = 0x0F → 0 ≤ b + b' := fun hff => add_nonneg (hp hff) (hp' hff)
    rw [(h.exact ha).1, (h'.exact ha').1, ha, ha', (intResult_iov_false hf).2 (not_outside32_of_bound (by omega) hpos),
      (intResult_iov_false (.inr rfl)).2 (not_outside32_of_bound (by omega) (fun h => absurd h (by decide)))]
    exact ⟨rfl, hlt, hpos⟩

omit hf in
/-- One of two values, chosen. -/
theorem IntRel.pick (h0 : op ≠ 0) {m n : Nat} {a a' : IntAcc} {b b' : Int} (h : IntRel op f small m a b) (h' : IntRel op f small n a' b')
    {g : Int → Int → Int} (hg : ∀ x y, g x y = x ∨ g x y = y) : IntRel op f small (m + n) (g a.1 a'.1, a.2 || a'.2) (g b b') := by
  rw [h.noSum h0, h'.noSum h0]
  refine ⟨rfl, fun hov => ?_, fun _ => rfl, fun hs hn => ?_⟩
  · simp only [Bool.or_eq_false_iff] at hov
    obtain ⟨-, hin, -⟩ := h.exact hov.1
    obtain ⟨-, hin', -⟩ := h'.exact hov.2
    refine ⟨rfl, ?_, fun hop => absurd hop h0⟩
    rcases hg b b' with hp | hp <;> rwa [hp]
  · obtain ⟨ha, hb, hp⟩ := h.bound hs (by omega)
    obtain ⟨ha', hb', hp'⟩ := h'.bound hs (by omega)
    refine ⟨by simp [ha, ha'], ?_, fun hff => ?_⟩
    · have hadd := Nat.add_mul m n (2 ^ 21 - 1)
      rcases hg b b' with hq | hq <;> rw [hq, hadd]
      · exact hb.trans (Nat.le_add_right ..)
      · exact hb'.trans (Nat.le_add_left ..)
    · rcases hg b b' with hq | hq <;> rw [hq]
      · exact hp hff
      · exact hp' hff

theorem IntRel.node (m n : Nat) (a a' : IntAcc) (b b' : Int) (h : IntRel op f small m a b) (h' : IntRel op f small n a' b') :
    IntRel op f small (m + n) (redI op f a a') (reduceInt op b b') := by
  have hop : op = 0 ↔ op.toNat = 0 := by rw [← BitVec.toNat_inj]; rfl
  unfold redI reduceInt
  generalize op.toNat = k at *
  match k with
  | 0 => exact IntRel.sum hf (hop.2 rfl) h h'
  | 1 => exact IntRel.pick (fun h0 => by simpa using hop.1 h0) h h' (g := max) fun x y => by omega
  | 2 => exact IntRel.pick (fun h0 => by simpa using hop.1 h0) h h' (g := min) fun x y => by omega
  | k + 3 => exact IntRel.pick (fun h0 => by simpa using hop.1 h0) h h' (g := max) fun x y => by omega

end

/-- The integers of an unsigned format. -/
theorem Tile.int_nonneg {t : Tile} (h : t.fmt = 0x0D ∨ t.fmt = 0x0F) (i j : Nat) : 0 ≤ t.int i j := by
  rcases h with h | h <;> simp [Tile.int, h, intElem, intRange] <;> exact Int.emod_nonneg _ (by positivity)

theorem IntRel.leaf {op : BitVec 3} {t : Tile} {i j : Nat} {small : Prop} (hs : small → (t.int i j).natAbs < 2 ^ 21) :
    IntRel op (redIntFormat t) small 1 (redLeaf op t i j) (redElemI op t i j) := by
  have hf := redIntFormat_eq t
  have habs : (redElemI op t i j).natAbs = (t.int i j).natAbs := by
    unfold redElemI
    split <;> simp only [Int.natAbs_natCast]
  have hpos : redIntFormat t = 0x0F → 0 ≤ redElemI op t i j := by
    unfold redIntFormat redElemI
    split
    · next h =>
      have := t.int_nonneg h i j
      split <;> omega
    · simp
  refine ⟨rfl, fun hov => ⟨rfl, ?_⟩, fun _ => rfl, fun h _ => ⟨?_, ?_, hpos⟩⟩
  · simp only [redLeaf, Bool.or_eq_false_iff, Bool.and_eq_false_iff, intResult_iov_false hf, intResult_iov_false (.inr rfl)] at hov
    exact ⟨hov.1, fun h0 => hov.2.resolve_left (by simp [h0])⟩
  · have := hs h
    simp only [redLeaf, Bool.or_eq_false_iff, Bool.and_eq_false_iff, intResult_iov_false hf, intResult_iov_false (.inr rfl)]
    exact ⟨not_outside32_of_bound (by omega) hpos, .inr (not_outside32_of_bound (by omega) (fun h => absurd h (by decide)))⟩
  · have := hs h
    omega

/-! Where the results go (07 R192, R194). -/

/-- The results as rows of a tile. -/
def redRows (axis : BitVec 2) (rs : List Flagged) : List (List Flagged) := if axis == 0 then rs.map (fun r => [r]) else [rs]

section
variable {axis : BitVec 2} {t : Tile} {g : Nat → Flagged}

/-- The extents of the results' tile. -/
def redRext (axis : BitVec 2) (t : Tile) : Nat := if axis = 0 then t.rext else 1
@[inherit_doc redRext] def redCext (axis : BitVec 2) (t : Tile) : Nat := if axis = 1 then t.cext else 1

theorem axis_cases (axis : BitVec 2) (t : Tile) :
    (axis = 0 ∧ reduceCount axis t.rext t.cext = t.rext) ∨ (axis = 1 ∧ reduceCount axis t.rext t.cext = t.cext)
    ∨ (axis ≠ 0 ∧ axis ≠ 1 ∧ reduceCount axis t.rext t.cext = 1) := by
  have hall : axis = 0 ∨ axis = 1 ∨ axis = 2 ∨ axis = 3 := by revert axis; decide
  rcases hall with rfl | rfl | rfl | rfl
  · exact .inl ⟨rfl, rfl⟩
  · exact .inr (.inl ⟨rfl, rfl⟩)
  · exact .inr (.inr ⟨by decide, by decide, rfl⟩)
  · exact .inr (.inr ⟨by decide, by decide, rfl⟩)

theorem redRows_eq :
    redRows axis ((List.range (reduceCount axis t.rext t.cext)).map g) =
      flaggedRows (redRext axis t) (redCext axis t) (fun i j => g (i + j)) := by
  rcases axis_cases axis t with ⟨rfl, hn⟩ | ⟨rfl, hn⟩ | ⟨h0, h1, hn⟩
  · rw [hn]
    simp [redRows, flaggedRows, redRext, redCext]
  · rw [hn]
    simp [redRows, flaggedRows, redRext, redCext]
  · rw [hn, redRext, redCext, if_neg h0, if_neg h1]
    simp [redRows, flaggedRows, show ¬ axis = 0#2 from h0]

theorem redPos_lt {i j : Nat} (hi : i < redRext axis t) (hj : j < redCext axis t) : i + j < reduceCount axis t.rext t.cext := by
  rcases axis_cases axis t with ⟨rfl, hn⟩ | ⟨rfl, hn⟩ | ⟨h0, h1, hn⟩
  · rw [hn]
    simp [redRext, redCext] at hi hj
    omega
  · rw [hn]
    simp [redRext, redCext] at hi hj
    omega
  · rw [redRext, if_neg h0] at hi
    rw [redCext, if_neg h1] at hj
    omega

/-- Some result raises a flag. -/
theorem exists_redRows {p : Nat → Prop} :
    (∃ i j, i < redRext axis t ∧ j < redCext axis t ∧ p (i + j)) ↔ ∃ k, k < reduceCount axis t.rext t.cext ∧ p k := by
  rcases axis_cases axis t with ⟨rfl, hn⟩ | ⟨rfl, hn⟩ | ⟨h0, h1, hn⟩
  · rw [hn]
    simp [redRext, redCext]
  · rw [hn]
    simp [redRext, redCext]
  · rw [hn, redRext, redCext, if_neg h0, if_neg h1]
    simp

end

section
variable {s : State} {a : BitVec 4} {op : BitVec 3} {axis : BitVec 2} {d64 : BitVec 1} {g : Nat → Flagged} (d : BitVec 4)
  (hc : (s.t a).clean) (hf : (isArith (s.t a).fmt && (d64 == 0 || isFloatCode (s.t a).fmt)) = true)
  (hrs : redResults op axis s.k.ftz (s.t a) = (List.range (reduceCount axis (s.t a).rext (s.t a).cext)).map g)
include hc hf hrs

/-- The flags of the results, set. -/
def State.redFlags (s : State) (axis : BitVec 2) (t : Tile) (g : Nat → Flagged) : State :=
  let rows := flaggedRows (redRext axis t) (redCext axis t) (fun i j => g (i + j))
  (s.stick 0 (anyNf rows)).stick 1 (anyIov rows)

theorem tred_tile_completes :
    Completes (.tred d a d64 0 op axis) s ((s.redFlags axis (s.t a) g).setT d (Tile.build (redFormat (s.t a)) (redRext axis (s.t a))
      (redCext axis (s.t a)) (fun i j => (g (i + j)).bits))) true := by
  have hrows : (if (axis == 0) = true then ((List.range _).map g).map (fun r => [r]) else [(List.range _).map g]) = _ :=
    redRows_eq (axis := axis) (t := s.t a) (g := g)
  have hext : (if (axis == 0) = true then ((s.t a).rext, 1) else if (axis == 1) = true then (1, (s.t a).cext) else (1, 1)) =
      (redRext axis (s.t a), redCext axis (s.t a)) := by
    rcases axis_cases axis (s.t a) with ⟨rfl, -⟩ | ⟨rfl, -⟩ | ⟨h0, h1, -⟩
    · rfl
    · rfl
    · rw [redRext, redCext, if_neg h0, if_neg h1, if_neg (by simpa using h0), if_neg (by simpa using h1)]
  have hk := needFormats_one (ok := fun f => isArith f && (d64 == 0 || isFloatCode f)) hf
  change execTred d a d64 0 op axis s = _
  rw [execTred]
  simp only [hk, needClean_one hc, run_ok_bind, hrs, hrows, hext, tileOf_flaggedRows]
  rfl

theorem tred_box_completes (hn : reduceCount axis (s.t a).rext (s.t a).cext = 1) :
    Completes (.tred d a d64 1 op axis) s ((s.redFlags axis (s.t a) g).mwrite (d.setWidth 3) (redMailbox (redFormat (s.t a)) d64 (g 0).bits)) true := by
  have hrows : (if (axis == 0) = true then ((List.range _).map g).map (fun r => [r]) else [(List.range _).map g]) = _ :=
    redRows_eq (axis := axis) (t := s.t a) (g := g)
  have hhead : ((((List.range (reduceCount axis (s.t a).rext (s.t a).cext)).map g).head?.map (·.bits)).getD 0) = (g 0).bits := by
    rw [hn]
    rfl
  have hk := needFormats_one (ok := fun f => isArith f && (d64 == 0 || isFloatCode f)) hf
  change execTred d a d64 1 op axis s = _
  rw [execTred]
  simp only [hk, needClean_one hc, run_ok_bind, hrs, hrows, hhead]
  rfl

end

/-! The two ends as the statement puts them. -/

/-- Two flags set are a value of k.sticky. -/
theorem State.stick_stick (s : State) (nf iov : Bool) : (s.stick 0 nf).stick 1 iov =
    { s with core.unit.k.sticky := s.k.sticky ||| BitVec.ofNat 64 ((if nf then 1 else 0) + if iov then 2 else 0) } := by
  have hrest : (s.stick 0 nf).stick 1 iov = { s with core.unit.k.sticky := ((s.stick 0 nf).stick 1 iov).k.sticky } := by
    cases nf <;> cases iov <;> rfl
  have hsticky : ((s.stick 0 nf).stick 1 iov).k.sticky =
      s.k.sticky ||| BitVec.ofNat 64 ((if nf then 1 else 0) + if iov then 2 else 0) := by
    cases nf <;> cases iov <;> simp [State.stick_k, BitVec.or_assoc]
  rw [hrest, hsticky]

theorem State.setT_stick (s : State) (d : BitVec 4) (v : Tile) (b : Nat) (c : Bool) : (s.stick b c).setT d v = (s.setT d v).stick b c := by
  cases c <;> rfl

/-- A mailbox takes the one result of the whole tile. -/
theorem reduceCount_of_box {d a : BitVec 4} {d64 : BitVec 1} {op : BitVec 3} {axis : BitVec 2}
    (hw : wellFormed (.tred d a d64 1 op axis) = true) (t : Tile) : reduceCount axis t.rext t.cext = 1 := by
  have hax : axis = 2 := by
    simp only [wellFormed, Bool.and_eq_true, Bool.or_eq_true] at hw
    obtain ⟨⟨⟨-, haxis⟩, -⟩, -⟩ := hw
    simpa using haxis
  rw [hax]
  rfl

/-- What tred does, from the results and their flags: it writes them as a tile, or the final value to a mailbox. -/
theorem tred_goes {s : State} {a : BitVec 4} {op : BitVec 3} {axis : BitVec 2} {d64 dst : BitVec 1} {g : Nat → Flagged} (d : BitVec 4)
    (hw : wellFormed (.tred d a d64 dst op axis) = true) (hc : (s.t a).clean)
    (hf : (isArith (s.t a).fmt && (d64 == 0 || isFloatCode (s.t a).fmt)) = true)
    (hrs : redResults op axis s.k.ftz (s.t a) = (List.range (reduceCount axis (s.t a).rext (s.t a).cext)).map g) :
    ∃ nf iov, (nf = true ↔ ∃ k, k < reduceCount axis (s.t a).rext (s.t a).cext ∧ (g k).nf = true)
      ∧ (iov = true ↔ ∃ k, k < reduceCount axis (s.t a).rext (s.t a).cext ∧ (g k).iov = true)
      ∧ (dst = 0 → ∃ u v, Completes (.tred d a d64 dst op axis) s u true ∧ SetsT s u d v nf iov
        ∧ IsResult v (redFormat (s.t a)) (redRext axis (s.t a)) (redCext axis (s.t a)) (fun r c => (g (r + c)).bits))
      ∧ (dst = 1 → ∃ u, Completes (.tred d a d64 dst op axis) s u true
        ∧ SetsM { s with core.unit.k.sticky := s.k.sticky ||| BitVec.ofNat 64 ((if nf then 1 else 0) + if iov then 2 else 0) } u
            (d.setWidth 3) (redMailbox (redFormat (s.t a)) d64 (g 0).bits) true (s.mbox (d.setWidth 3)).full) := by
  refine ⟨anyNf (flaggedRows (redRext axis (s.t a)) (redCext axis (s.t a)) (fun i j => g (i + j))),
    anyIov (flaggedRows (redRext axis (s.t a)) (redCext axis (s.t a)) (fun i j => g (i + j))), ?_, ?_, ?_, ?_⟩
  · rw [anyNf_flaggedRows]
    exact exists_redRows (p := fun k => (g k).nf = true)
  · rw [anyIov_flaggedRows]
    exact exists_redRows (p := fun k => (g k).iov = true)
  · rintro rfl
    refine ⟨_, _, tred_tile_completes d hc hf hrs, ?_, IsResult.of_build ..⟩
    rw [State.redFlags, State.setT_stick, State.setT_stick]
    exact SetsT.of_stick ..
  · rintro rfl
    refine ⟨_, tred_box_completes d hc hf hrs (reduceCount_of_box hw _), ?_⟩
    rw [← State.stick_stick]
    have hset := SetsM.of_mwrite (s.redFlags axis (s.t a) g) (d.setWidth 3) (redMailbox (redFormat (s.t a)) d64 (g 0).bits)
    rwa [State.redFlags, State.stick_mbox, State.stick_mbox] at hset

theorem redFormat_float {t : Tile} (h : isFloatCode t.fmt = true) : redFormat t = 1 := by simp [redFormat, h]
theorem redFormat_int {t : Tile} (h : isIntCode t.fmt = true) : redFormat t = redIntFormat t := by
  simp [redFormat, redIntFormat, not_isFloatCode_of_isIntCode h]

theorem redMailbox_float (d64 : BitVec 1) (b : Word32) :
    redMailbox 1 d64 b = if d64 = 1 then BitVec.ofNat 64 (fp64.round .rne false false (fp32.read false b.toNat)).bits else b.zeroExtend 64 := by
  simp [redMailbox]
theorem redMailbox_int {f : BitVec 5} (h : f = 0x0F ∨ f = 0x0C) (b : Word32) :
    redMailbox f 0 b = if f = 0x0F then b.zeroExtend 64 else b.signExtend 64 := by
  rcases h with rfl | rfl <;> rfl

/-- The container of an fp32 result reads back as its encoding. -/
theorem fp32_container (rm : Rm) (sat ftz : Bool) (v : FVal) :
    (BitVec.ofNat 32 (fp32.round rm sat ftz v).bits).toNat = (fp32.round rm sat ftz v).bits :=
  Nat.mod_eq_of_lt (FFmt.round_bits_lt fp32_ok rm sat ftz v)

/-- A floating-point result and its flag (07 R193). -/
theorem redFlaggedF_spec {op : BitVec 3} {axis : BitVec 2} {ftz : Bool} {t : Tile} {k : Nat} (hk : k < reduceCount axis t.rext t.cext) :
    let b := ((redValueF op axis ftz t k).map (fun v => BitVec.ofNat 32 (fp32.round .rne false ftz v).bits)).getD (reduceNoneFloat op)
    (redFlaggedF op axis ftz t k).bits = b ∧ ((redFlaggedF op axis ftz t k).nf = true ↔ (redValueF op axis ftz t k).isSome = true
      ∧ (fp32.read false b.toNat).isFinite = false
      ∧ ∀ r c, r < t.rext → c < t.cext → takesPart axis k r c → (t.val ftz r c).isFinite = true) := by
  unfold redFlaggedF
  cases redValueF op axis ftz t k with
  | none => simp
  | some v =>
    refine ⟨rfl, ?_⟩
    rw [← redGroup_all (fun p => (t.val ftz p.1 p.2).isFinite) hk]
    simp only [Option.map_some, Option.getD_some, fp32_container, Option.isSome_some, true_and]
    simp only [floatResult, Bool.and_eq_true, Bool.not_eq_true']
    exact and_comm

theorem redFlaggedF_iov (op : BitVec 3) (axis : BitVec 2) (ftz : Bool) (t : Tile) (k : Nat) : (redFlaggedF op axis ftz t k).iov = false := by
  unfold redFlaggedF
  cases redValueF op axis ftz t k <;> rfl

/-- An integer result and its flag: its bits are those of the exact result, and it overflows when that lies outside, but never with
small elements. -/
theorem redFlaggedI_spec {op : BitVec 3} {axis : BitVec 2} {t : Tile} {k : Nat} (hr : t.rext ≤ 32) (hk : k < reduceCount axis t.rext t.cext) :
    (redFlaggedI op axis t k).bits = BitVec.ofInt 32 ((redValueI op axis t k).getD (reduceNoneInt op (redIntFormat t)))
    ∧ (∀ n, redValueI op axis t k = some n → (outside32 (redIntFormat t) n ∨ (op = 0 ∧ outside32 0x0C n)) →
      (redFlaggedI op axis t k).iov = true)
    ∧ ((∀ r c, r < t.rext → c < t.cext → (t.int r c).natAbs < 2 ^ 21) → (redFlaggedI op axis t k).iov = false) := by
  have hrel : Option.Within (IntRel op (redIntFormat t) (∀ r c, r < t.rext → c < t.cext → (t.int r c).natAbs < 2 ^ 21)) (2 ^ 10)
      (redAcc op axis t k) (redValueI op axis t k) :=
    reduceAt_within (IntRel.node (redIntFormat_eq t)) hr hk fun i j hi hj => IntRel.leaf fun h => h i j hi hj
  unfold redFlaggedI
  cases hacc : redAcc op axis t k with
  | none =>
    cases hval : redValueI op axis t k with
    | none => exact ⟨rfl, fun _ h => (Option.some_ne_none _ h.symm).elim, fun _ => rfl⟩
    | some n => rw [hacc, hval] at hrel; exact hrel.elim
  | some acc =>
    cases hval : redValueI op axis t k with
    | none => rw [hacc, hval] at hrel; exact hrel.elim
    | some v =>
      rw [hacc, hval] at hrel
      obtain ⟨m, hm, hrel⟩ := hrel
      refine ⟨hrel.wraps, fun n hn hout => ?_, fun hs => (hrel.bound hs hm).1⟩
      cases hn
      rw [← Bool.not_eq_false]
      intro hov
      obtain ⟨-, hin, hin0⟩ := hrel.exact hov
      rcases hout with h | ⟨h0, h⟩
      · exact hin h
      · exact hin0 h0 h

theorem redFlaggedI_nf (op : BitVec 3) (axis : BitVec 2) (t : Tile) (k : Nat) : (redFlaggedI op axis t k).nf = false := by
  unfold redFlaggedI
  cases redAcc op axis t k <;> rfl

/-- A result is known by its containers inside the extents. -/
theorem IsResult.congr {v : Tile} {f : BitVec 5} {r c : Nat} {e e' : Nat → Nat → Word32} (h : IsResult v f r c e)
    (heq : ∀ i j, i < r → j < c → e i j = e' i j) : IsResult v f r c e' :=
  { h with inside := fun i j hi hj => (h.inside i j hi hj).trans (heq i j hi hj) }

/-- Settles O25: the results are those of the definition of the order, with their flags, and go where tred writes them. -/
theorem reductions : Obligations.Reductions := by
  intro s d a d64 dst op axis t i count hw hc hr _ goes
  refine ⟨fun hfl => ?float, fun hint h64 => ?int⟩
  case float =>
    intro elem value bits_
    have harith : (isArith (s.t a).fmt && (d64 == 0 || isFloatCode (s.t a).fmt)) = true := by
      simp [isArith, show isFloatCode (s.t a).fmt = true from hfl]
    have hspec {k : Nat} (hk : k < count) := redFlaggedF_spec (op := op) (ftz := s.k.ftz) hk
    obtain ⟨nf, iov, hnf, hiov, htile, hbox⟩ := tred_goes d hw hc harith (redResults_float hfl op axis s.k.ftz)
    obtain rfl : iov = false := by
      rw [← Bool.not_eq_true, hiov]
      simp [redFlaggedF_iov]
    refine ⟨nf, ⟨fun h0 => ?_, fun h1 => ?_⟩, hnf.trans ⟨?_, ?_⟩⟩
    · obtain ⟨u, v, hex, hset, hres⟩ := htile h0
      exact ⟨u, v, hex, hset, redFormat_float hfl ▸ hres.congr fun r c h1 h2 => (hspec (redPos_lt h1 h2)).1⟩
    · subst h1
      obtain ⟨u, hex, hset⟩ := hbox rfl
      have h0 : 0 < count := by rw [show count = 1 from reduceCount_of_box hw _]; decide
      refine ⟨u, _, hex, hset, ?_⟩
      rw [redFormat_float hfl, (hspec h0).1, redMailbox_float]
      rfl
    · rintro ⟨k, hk, h⟩
      exact ⟨k, hk, (hspec hk).2.1 h⟩
    · rintro ⟨k, hk, h⟩
      exact ⟨k, hk, (hspec hk).2.2 h⟩
  case int =>
    intro f elem value bits_
    have hfl : isFloatCode t.fmt = false := not_isFloatCode_of_isIntCode hint
    have harith : (isArith (s.t a).fmt && (d64 == 0 || isFloatCode (s.t a).fmt)) = true := by
      simp [isArith, show isIntCode (s.t a).fmt = true from hint, h64]
    have hspec {k : Nat} (hk : k < count) := redFlaggedI_spec (op := op) hr hk
    obtain ⟨nf, iov, hnf, hiov, htile, hbox⟩ := tred_goes d hw hc harith (redResults_int hfl op axis s.k.ftz)
    obtain rfl : nf = false := by
      rw [← Bool.not_eq_true, hnf]
      simp [redFlaggedI_nf]
    refine ⟨iov, ⟨fun h0 => ?_, fun h1 => ?_⟩, ?_, fun hs => ?_⟩
    · obtain ⟨u, v, hex, hset, hres⟩ := htile h0
      rw [redFormat_int hint] at hres
      exact ⟨u, v, hex, hset, hres.congr fun r c h1 h2 => (hspec (redPos_lt h1 h2)).1⟩
    · subst h1 h64
      obtain ⟨u, hex, hset⟩ := hbox rfl
      have h0 : 0 < count := by rw [show count = 1 from reduceCount_of_box hw _]; decide
      refine ⟨u, _, hex, hset, ?_⟩
      rw [redFormat_int hint, (hspec h0).1, redMailbox_int (redIntFormat_eq _)]
      rfl
    · rintro ⟨k, n, hk, hval, hout⟩
      exact hiov.2 ⟨k, hk, (hspec hk).2.1 n hval hout⟩
    · rw [← Bool.not_eq_true, hiov]
      rintro ⟨k, hk, h⟩
      rw [(hspec hk).2.2 hs] at h
      cases h

end Sys2Proof.Machine
end

section
/-! Special functions and tests of tiles (02 R68; 07 R195, R196). -/

namespace Sys2Proof.Machine

/-! Results that do not depend on the argument. -/

/-- An fp32 result, rounded to nearest-even. -/
def rounded32 (ftz : Bool) (y : FVal) : Word32 := BitVec.ofNat 32 (fp32.round .rne false ftz y).bits

theorem rounded32_nan : ∀ ftz, rounded32 ftz .nan = 0x7FC00000 := by decide
theorem rounded32_inf : ∀ ftz s, rounded32 ftz (.inf s) = if s then 0xFF800000 else 0x7F800000 := by decide
theorem rounded32_zero : ∀ ftz s, rounded32 ftz (.fin s 0 0) = if s then 0x80000000 else 0 := by decide
theorem rounded32_one : ∀ ftz s, rounded32 ftz (.fin s 1 0) = if s then 0xBF800000 else 0x3F800000 := by decide

/-! fp32 arguments. -/

/-- A finite fp32 value is a multiple of the smallest subnormal. -/
theorem fp32_read_exp {ftz : Bool} {n : Nat} {s : Bool} {m : Nat} {p : Int} (hn : n < 2 ^ fp32.width) (h : fp32.read ftz n = .fin s m p) :
    -149 ≤ p := by
  obtain ⟨sg, mag, rfl, hlt⟩ := fp32.exists_signBit_add hn
  rw [FFmt.read_signBit_add hlt] at h
  have hbias : (fp32.bias : Int) = 127 := by decide
  have hM : (fp32.M : Int) = 23 := rfl
  unfold FFmt.readMag at h
  rw [hbias, hM] at h
  split_ifs at h with h1 h2 h3 h4 h5
  · cases h; omega
  · cases h; omega
  · cases h
    have : 0 < mag / 2 ^ fp32.M := Nat.pos_of_ne_zero (by simpa using h4)
    generalize mag / 2 ^ fp32.M = q at *
    omega

/-- Only a finite value rounds to a finite one. -/
theorem isFinite_of_round32 {ftz : Bool} {v : FVal} (h : (fp32.read ftz (fp32.round .rne false ftz v).bits).isFinite = true) :
    v.isFinite = true := by
  rcases v with _ | s | ⟨s, m, e⟩
  · revert h ftz; decide
  · revert h s ftz; decide
  · rfl

/-! The functions (02 R68). -/

theorem sfuApply_nan : ∀ fn, sfuApply fn .nan = .nan := by decide

theorem toFix_eq {m : Nat} {p : Int} (hp : -149 ≤ p) : toFix m p = m * 2 ^ (p + 149).toNat * 2 ^ 171 := by
  rw [toFix, sfuP, Nat.mul_assoc, ← pow_add]
  congr 2
  omega

/-- One half in fixed point. -/
def sfuHalf : Nat := 2 ^ (sfuP - 1)

theorem sfuOne_eq : sfuOne = 2 * sfuHalf := by
  rw [sfuHalf, ← pow_succ', Nat.sub_add_cancel (by decide), sfuOne]
theorem sfuHalf_pos : 0 < sfuHalf := Nat.pow_pos (by decide)
theorem sfuHalf_eq : sfuHalf = 2 ^ 148 * 2 ^ 171 := by
  rw [sfuHalf, ← pow_add]
  exact congrArg (2 ^ ·) (by decide : sfuP - 1 = 148 + 171)

/-- A multiple of one half, in fixed point, by the quarter of the circle that it lies in. -/
theorem toFix_mod_of_half {m k : Nat} {p : Int} (hp : -149 ≤ p) (h : m * 2 ^ (p + 149).toNat = k * 2 ^ 148) :
    toFix m p % (2 * sfuOne) = (k % 4) * sfuHalf := by
  rw [toFix_eq hp, h, Nat.mul_assoc, ← sfuHalf_eq, sfuOne_eq, ← Nat.mul_assoc]
  exact Nat.mul_mod_mul_right ..

theorem sinHalf_half (s : Bool) : sinHalf s sfuHalf = .fin s 1 0 := by
  have := sfuHalf_pos
  rw [sinHalf, if_neg (by simp; omega), if_pos (by simp [sfuOne_eq])]

/-- The quarters of the circle in units of its quarter. -/
theorem quarters (U : Nat) (h : 0 < U) : U % (2 * U) = U ∧ 2 * U % (2 * U) = 0 ∧ 3 * U % (2 * U) = U := by
  have h1 : U % (2 * U) = U := Nat.mod_eq_of_lt (by omega)
  exact ⟨h1, Nat.mod_self _, by rw [show 3 * U = U + 2 * U by ring, Nat.add_mod_right, h1]⟩

/-- sinpi at a multiple of one half. -/
theorem sfuSinpi_of_half {g : Bool} {m k : Nat} {p : Int} (hp : -149 ≤ p) (h : m * 2 ^ (p + 149).toNat = k * 2 ^ 148) :
    sfuSinpi (.fin g m p) = if k % 2 = 0 then .fin g 0 0 else .fin (g != decide (k % 4 = 3)) 1 0 := by
  have hk : k % 4 < 4 := Nat.mod_lt _ (by decide)
  have h2 : k % 2 = k % 4 % 2 := by omega
  have hpos := sfuHalf_pos
  obtain ⟨q1, q2, q3⟩ := quarters sfuHalf hpos
  have hsin (s : Bool) := sinHalf_half s
  simp only [sfuSinpi, toFix_mod_of_half hp h, h2]
  simp only [sfuOne_eq]
  generalize k % 4 = j at *
  generalize sfuHalf = U at *
  clear h2
  interval_cases j
  · simp
  · simp [q1, hpos.ne', hsin, show ¬ 2 * U ≤ U by omega]
  · simp
  · simp [q3, hpos.ne', hsin, show 2 * U ≤ 3 * U by omega]

/-- cospi at a multiple of one half. -/
theorem sfuCospi_of_half {g : Bool} {m k : Nat} {p : Int} (hp : -149 ≤ p) (h : m * 2 ^ (p + 149).toNat = k * 2 ^ 148) :
    sfuCospi (.fin g m p) = if k % 2 = 1 then .fin false 0 0 else .fin (k % 4 != 0) 1 0 := by
  have hk : k % 4 < 4 := Nat.mod_lt _ (by decide)
  have h2 : k % 2 = k % 4 % 2 := by omega
  have hpos := sfuHalf_pos
  have hsin (s : Bool) := sinHalf_half s
  simp only [sfuCospi, toFix_mod_of_half hp h, h2]
  simp only [sfuOne_eq]
  generalize k % 4 = j at *
  generalize sfuHalf = U at *
  clear h2
  interval_cases j
  · simp [hsin, hpos.ne']
  · simp [show U ≤ 2 * U by omega]
  · simp [hsin, hpos.ne', show ¬ 2 * U < U by omega, show 2 * U - U = U by omega]
  · simp [show ¬ 3 * U ≤ 2 * U by omega, show 2 * (2 * U) - 3 * U = U by omega]

/-! exp2 of large arguments. -/

theorem toFix_cast {m : Nat} {p : Int} (hp : -149 ≤ p) : (toFix m p : ℚ) = m * 2 ^ p * sfuOne := by
  have hP : (sfuP : Int) = 320 := rfl
  have hexp : ((p + sfuP).toNat : Int) = p + sfuP := by omega
  rw [toFix, sfuOne, Nat.cast_mul, Nat.cast_pow, Nat.cast_pow, ← zpow_natCast, hexp, zpow_add₀ (by norm_num), zpow_natCast, ← mul_assoc]
  rfl

/-- A magnitude of at least n, in fixed point. -/
theorem le_toFix {m : Nat} {p : Int} (hp : -149 ≤ p) {n : Nat} (h : (n : ℚ) ≤ m * 2 ^ p) : n * sfuOne ≤ toFix m p := by
  have hmul := mul_le_mul_of_nonneg_right h (Nat.cast_nonneg (α := ℚ) sfuOne)
  rw [← toFix_cast hp] at hmul
  exact_mod_cast hmul

theorem sfuExp2_of_ge {x : FVal} (hexp : ∀ s m p, x = .fin s m p → -149 ≤ p) (hn : x.isNan = false)
    (h : x.lt (FVal.ofInt 128) = false) : sfuExp2 x = .inf false := by
  rcases x with _ | s | ⟨s, m, p⟩
  · cases hn
  · cases s
    · rfl
    · cases h
  · have hp := hexp s m p rfl
    have hle : (128 : ℚ) ≤ (FVal.fin s m p).rat := by
      rw [Bool.eq_false_iff, Ne, FVal.ofInt, FVal.lt_fin_iff, not_lt] at h
      simpa [FVal.rat, FVal.signed] using h
    have hs : s = false := by
      rw [← Bool.not_eq_true]
      rintro rfl
      have hneg : (FVal.fin true m p).rat ≤ 0 := by
        simp [FVal.rat, FVal.signed]
        positivity
      linarith
    subst hs
    have hfix := le_toFix (n := 128) hp (by simpa [FVal.rat, FVal.signed] using hle)
    have hm : m ≠ 0 := by
      rintro rfl
      simp [FVal.rat, FVal.signed] at hle
      linarith
    simp [sfuExp2, hm, hfix]

theorem sfuExp2_of_le {x : FVal} (hexp : ∀ s m p, x = .fin s m p → -149 ≤ p) (hn : x.isNan = false)
    (h : (FVal.ofInt (-150)).lt x = false) : sfuExp2 x = .fin false 0 0 := by
  rcases x with _ | s | ⟨s, m, p⟩
  · cases hn
  · cases s
    · cases h
    · rfl
  · have hp := hexp s m p rfl
    have hle : (FVal.fin s m p).rat ≤ -150 := by
      rw [Bool.eq_false_iff, Ne, FVal.ofInt, FVal.lt_fin_iff, not_lt] at h
      simpa [FVal.rat, FVal.signed] using h
    have hs : s = true := by
      rw [← Bool.not_eq_false]
      rintro rfl
      have hpos : 0 ≤ (FVal.fin false m p).rat := by
        simp [FVal.rat, FVal.signed]
        positivity
      linarith
    subst hs
    have hfix := le_toFix (n := 150) hp (by simp [FVal.rat, FVal.signed] at hle; push_cast; linarith)
    have hm : m ≠ 0 := by
      rintro rfl
      simp [FVal.rat, FVal.signed] at hle
      linarith
    simp [sfuExp2, hm, hfix]

/-! The other special cases, by the kind of the argument. -/

theorem sfuRsqrt_special (x : FVal) :
    (x.isZero = true → sfuRsqrt x = .inf x.sign)
    ∧ (x.isNan = false → x.isZero = false → x.sign = true → sfuRsqrt x = .nan) ∧ (x = .inf false → sfuRsqrt x = .fin false 0 0) := by
  rcases x with _ | s | ⟨s, m, p⟩ <;> simp [sfuRsqrt, FVal.isZero, FVal.isNan, FVal.sign] <;> simp_all

theorem sfuExp2_special (x : FVal) :
    (x.isZero = true → sfuExp2 x = .fin false 1 0) ∧ (x = .inf true → sfuExp2 x = .fin false 0 0)
    ∧ (x = .inf false → sfuExp2 x = .inf false) := by
  rcases x with _ | s | ⟨s, m, p⟩ <;> simp [sfuExp2, FVal.isZero] <;> simp_all

theorem sfuLog2_special (x : FVal) :
    (x.isZero = true → sfuLog2 x = .inf true)
    ∧ (x.isNan = false → x.isZero = false → x.sign = true → sfuLog2 x = .nan) := by
  rcases x with _ | s | ⟨s, m, p⟩
  · exact ⟨fun h => (nomatch h), fun h => (nomatch h)⟩
  · exact ⟨fun h => (nomatch h), fun _ _ h => if_pos h⟩
  · exact ⟨fun h => if_pos h, fun _ h0 hs => (if_neg (Bool.eq_false_iff.1 h0)).trans (if_pos hs)⟩

theorem rounded32_log2_one : ∀ ftz, rounded32 ftz (sfuLog2 (fp32.read false 0x3F800000)) = 0 := by decide

theorem sfuTanh_special (x : FVal) :
    (x.isZero = true → sfuTanh x = .fin x.sign 0 0) ∧ ∀ s, x = .inf s → sfuTanh x = .fin s 1 0 := by
  rcases x with _ | s | ⟨s, m, p⟩ <;> simp [sfuTanh, FVal.isZero, FVal.sign] <;> simp_all

/-! tsfu (07 R195). -/

theorem tsfu_completes {s : State} {a : BitVec 4} (d : BitVec 4) (fn : BitVec 3) (hc : (s.t a).clean) (hf : isFloatCode (s.t a).fmt = true) :
    Completes (.tsfu d a fn) s (s.writeFlagged d 0x01 (s.t a).rext (s.t a).cext
      (flaggedRows (s.t a).rext (s.t a).cext (fun i j => sfuElem fn s.k.ftz ((s.t a).val s.k.ftz i j)))) true := by
  change execTsfu d a fn s = _
  rw [execTsfu]
  simp only [needFormats_one hf, needClean_one hc, run_ok_bind]
  rfl

/-- The argument of a function, converted to fp32 (02 R68). -/
def arg32 (ftz : Bool) (v : FVal) : FVal := fp32.read ftz (fp32.round .rne false ftz v).bits

theorem arg32_exp {ftz : Bool} {v : FVal} (s : Bool) (m : Nat) (p : Int) (h : arg32 ftz v = .fin s m p) : -149 ≤ p :=
  fp32_read_exp (FFmt.round_bits_lt fp32_ok ..) h

theorem sfuElem_bits (fn : BitVec 3) (ftz : Bool) (v : FVal) : (sfuElem fn ftz v).bits = rounded32 ftz (sfuApply fn (arg32 ftz v)) := rfl

theorem sfuElem_nf (fn : BitVec 3) (ftz : Bool) (v : FVal) :
    (sfuElem fn ftz v).nf = true ↔ v.isFinite = true
      ∧ ((arg32 ftz v).isFinite = false ∨ (fp32.read false (sfuElem fn ftz v).bits.toNat).isFinite = false) := by
  rw [sfuElem_bits, rounded32, fp32_container]
  simp only [sfuElem, toFp32, Bool.or_eq_true, Bool.and_eq_true, Bool.not_eq_true']
  rw [FFmt.round_toInf_iff fp32_ok .rne false ftz ftz v]
  change (_ ∧ (arg32 ftz v).isFinite = false) ∨ ((arg32 ftz v).isFinite = true ∧ _) ↔ _
  constructor
  · rintro (⟨h1, h2⟩ | ⟨h1, h2⟩)
    · exact ⟨h1, .inl h2⟩
    · exact ⟨isFinite_of_round32 h1, .inr h2⟩
  · rintro ⟨h1, h2 | h2⟩
    · exact .inl ⟨h1, h2⟩
    · cases h3 : (arg32 ftz v).isFinite
      · exact .inl ⟨h1, rfl⟩
      · exact .inr ⟨rfl, h2⟩

/-- A container that a condition makes 0. -/
theorem sinSign_cases (g : Bool) (k : Nat) :
    (if g != decide (k % 4 = 3) then 0xBF800000 else 0x3F800000 : Word32) = if (k % 4 = 3) ↔ (g = true) then 0x3F800000 else 0xBF800000 := by
  by_cases hk : k % 4 = 3 <;> cases g <;> simp [hk]

/-! tnf (07 R196). -/

theorem tnf_tile_completes {s : State} {a : BitVec 4} (d : BitVec 4) (hc : (s.t a).clean) (hf : isArith (s.t a).fmt = true) :
    Completes (.tnf d a 0) s (s.setT d (Tile.build 0x0D (s.t a).rext (s.t a).cext (fun i j => bitWord ((s.t a).nonFinite i j)))) true := by
  change execTnf d a 0 s = _
  rw [execTnf]
  simp only [needFormats_one hf, needClean_one hc, run_ok_bind]
  rfl

/-- The bit that tnf writes to a mailbox. -/
def anyNonFinite (t : Tile) : Bool := (List.range t.rext).any (fun i => (List.range t.cext).any (fun j => t.nonFinite i j))

theorem tnf_box_completes {s : State} {a : BitVec 4} (d : BitVec 4) (hc : (s.t a).clean) (hf : isArith (s.t a).fmt = true) :
    Completes (.tnf d a 1) s (s.mwrite (d.setWidth 3) (if anyNonFinite (s.t a) then 1 else 0)) true := by
  change execTnf d a 1 s = _
  rw [execTnf]
  simp only [needFormats_one hf, needClean_one hc, run_ok_bind]
  rfl

theorem Tile.nonFinite_iff (t : Tile) (i j : Nat) :
    t.nonFinite i j = true ↔ isFloatCode t.fmt = true ∧ (t.val false i j).isFinite = false := by
  simp [Tile.nonFinite]

/-- Settles O26, by the special cases of each function and the test of one element. -/
theorem functionsAndTests : Obligations.FunctionsAndTests := by
  refine fun s d a hc => ⟨fun fn hf => ?sfu, fun hf => ⟨?tile, fun _ => ?box⟩⟩
  case sfu =>
    intro t x rounded
    have hiov := anyIov_eq_false (r := t.rext) (c := t.cext) (g := fun i j => sfuElem fn s.k.ftz (t.val s.k.ftz i j)) fun _ _ => rfl
    refine ⟨_, _, _, _, tsfu_completes d fn hc hf, hiov ▸ SetsT.of_writeFlagged .., IsResult.of_build .., ?_, fun r c _ _ => ?_⟩
    · rw [anyNf_flaggedRows]
      simp only [sfuElem_nf]
      rfl
    · simp only [sfuElem_bits]
      have hexp := arg32_exp (ftz := s.k.ftz) (v := t.val s.k.ftz r c)
      change _ ∧ _
      refine ⟨fun h => ?nan, ?rcp, ?sqrt, ?rsqrt, ?exp2, ?log2, ?tanh, ?circInf, fun g m p k hx hk => ⟨?sinpi, ?cospi⟩⟩
      case nan =>
        have hval : sfuApply fn (x r c) = .nan := (congrArg (sfuApply fn) (FVal.isNan_iff.1 h)).trans (sfuApply_nan fn)
        exact (congrArg (rounded32 _) hval).trans (rounded32_nan ..)
      case rcp => rintro rfl; rfl
      case sqrt => rintro rfl; rfl
      case rsqrt =>
        rintro rfl
        obtain ⟨h1, h2, h3⟩ := sfuRsqrt_special (x r c)
        refine ⟨fun h => ?_, fun hn hz hs => ?_, fun h => ?_⟩
        · exact (congrArg (rounded32 _) (h1 h)).trans (rounded32_inf ..)
        · exact (congrArg (rounded32 _) (h2 hn hz hs)).trans (rounded32_nan ..)
        · exact (congrArg (rounded32 _) (h3 h)).trans (rounded32_zero ..)
      case exp2 =>
        rintro rfl
        obtain ⟨h1, h2, h3⟩ := sfuExp2_special (x r c)
        refine ⟨fun h => ?_, fun h => ?_, fun h => ?_, fun hn hlt => ?_, fun hn hlt => ?_⟩
        · exact (congrArg (rounded32 _) (h1 h)).trans (rounded32_one ..)
        · exact (congrArg (rounded32 _) (h2 h)).trans (rounded32_zero ..)
        · exact (congrArg (rounded32 _) (h3 h)).trans (rounded32_inf ..)
        · exact (congrArg (rounded32 _) (sfuExp2_of_ge hexp hn hlt)).trans (rounded32_inf ..)
        · exact (congrArg (rounded32 _) (sfuExp2_of_le hexp hn hlt)).trans (rounded32_zero ..)
      case log2 =>
        rintro rfl
        obtain ⟨h1, h2⟩ := sfuLog2_special (x r c)
        refine ⟨fun h => ?_, fun h => ?_, fun hn hz hs => ?_⟩
        · exact (congrArg (fun v => rounded32 _ (sfuLog2 v)) h).trans (rounded32_log2_one ..)
        · exact (congrArg (rounded32 _) (h1 h)).trans (rounded32_inf ..)
        · exact (congrArg (rounded32 _) (h2 hn hz hs)).trans (rounded32_nan ..)
      case tanh =>
        rintro rfl
        obtain ⟨h1, h2⟩ := sfuTanh_special (x r c)
        refine ⟨fun h => ?_, fun h => ?_, fun h => ?_⟩
        · exact (congrArg (rounded32 _) (h1 h)).trans (rounded32_zero ..)
        · exact (congrArg (rounded32 _) (h2 _ h)).trans (rounded32_one ..)
        · exact (congrArg (rounded32 _) (h2 _ h)).trans (rounded32_one ..)
      case circInf =>
        rintro (rfl | rfl) (h | h)
        · exact (congrArg (fun v => rounded32 _ (sfuSinpi v)) h).trans (rounded32_nan ..)
        · exact (congrArg (fun v => rounded32 _ (sfuSinpi v)) h).trans (rounded32_nan ..)
        · exact (congrArg (fun v => rounded32 _ (sfuCospi v)) h).trans (rounded32_nan ..)
        · exact (congrArg (fun v => rounded32 _ (sfuCospi v)) h).trans (rounded32_nan ..)
      case sinpi =>
        rintro rfl
        have hval : sfuApply 6 (x r c) = _ := (congrArg sfuSinpi hx).trans (sfuSinpi_of_half (hexp g m p hx) hk)
        refine (congrArg (rounded32 _) hval).trans ?_
        split
        · exact rounded32_zero ..
        · rw [rounded32_one, sinSign_cases]
      case cospi =>
        rintro rfl
        have hval : sfuApply 7 (x r c) = _ := (congrArg sfuCospi hx).trans (sfuCospi_of_half (hexp g m p hx) hk)
        refine (congrArg (rounded32 _) hval).trans ?_
        split
        · exact rounded32_zero ..
        · rw [rounded32_one]
          by_cases h4 : k % 4 = 0 <;> simp [h4]
  case tile =>
    refine ⟨_, _, _, tnf_tile_completes d hc (isArith_of hf), SetsT.of_setT .., IsResult.of_build .., fun r c _ _ => ?_⟩
    exact bitWord_of (Tile.nonFinite_iff _ r c)
  case box =>
    refine ⟨_, _, tnf_box_completes d hc (isArith_of hf), SetsM.of_mwrite .., ?_, ?_⟩
    · split <;> decide
    · have hany : anyNonFinite (s.t a) = true ↔ ∃ r c, r < (s.t a).rext ∧ c < (s.t a).cext ∧ (s.t a).nonFinite r c = true := by
        simp [anyNonFinite]
      simp only [Tile.nonFinite_iff] at hany
      rw [← hany]
      cases anyNonFinite (s.t a) <;> simp

end Sys2Proof.Machine
end

section
/-! Sampling (07 R197 to R200): the generator, the candidates and their order, and the token that they give. -/

namespace Sys2Proof.Machine

/-! The generator (07 R198). -/

theorem rotateLeft_eq_rotl (v : Word32) {n : Nat} (h : n < 32) : v.rotateLeft n = rotl v n := by
  rw [BitVec.rotateLeft_def, Nat.mod_eq_of_lt h, rotl]

/-- One round of the model's generator, with its constant. -/
def genStep (v : Word32 × Word32 × Word32 × Word32) (k : Word32) : Word32 × Word32 × Word32 × Word32 :=
  let (a, b, c, d) := v
  let a := a + b + k
  let d := (d ^^^ a).rotateLeft 16
  let c := c + d
  let b := (b ^^^ c).rotateLeft 12
  let a := a + b
  let d := (d ^^^ a).rotateLeft 8
  let c := c + d
  let b := (b ^^^ c).rotateLeft 7
  (a, b, c, d)

/-- The generator as a function: as an equation between its values the kernel would compare the words themselves. -/
theorem genRounds_succ_fun (n : Nat) : genRounds (n + 1) = fun r v =>
    Prod.casesOn v fun a v => Prod.casesOn v fun b v => Prod.casesOn v fun c d =>
      genRounds n (r + 1) (genStep (a, b, c, d) (genK r)) := rfl

theorem genStep_eq (v : Word32 × Word32 × Word32 × Word32) (r : Nat) : genStep v (genK r) = drawRound v r := by
  obtain ⟨a, b, c, d⟩ := v
  simp only [genStep, rotateLeft_eq_rotl _ (show 16 < 32 by decide), rotateLeft_eq_rotl _ (show 12 < 32 by decide),
    rotateLeft_eq_rotl _ (show 8 < 32 by decide), rotateLeft_eq_rotl _ (show 7 < 32 by decide), genK, drawRound]

theorem genRounds_succ (n r : Nat) (v : Word32 × Word32 × Word32 × Word32) :
    genRounds (n + 1) r v = genRounds n (r + 1) (drawRound v r) := by
  rw [genRounds_succ_fun, ← genStep_eq]

theorem genRounds_zero_fun : genRounds 0 = fun _ v => v.1 := rfl

theorem genRounds_eq (n r : Nat) (v : Word32 × Word32 × Word32 × Word32) :
    genRounds n r v = ((List.range' r n).foldl drawRound v).1 := by
  induction n generalizing r v with
  | zero => rw [genRounds_zero_fun, List.range'_zero, List.foldl_nil]
  | succ n ih => rw [genRounds_succ, ih, List.range'_succ, List.foldl_cons]

theorem genU24_eq (seed : Word64) (seq step : Word32) : genU24 seed seq step = draw24 seed seq step := by
  rw [genU24, draw24, genRounds_eq, List.range_eq_range']
  generalize ((List.range' 0 10).foldl drawRound (seed.setWidth 32, seed.extractLsb' 32 32, seq, step)).1 + seed.setWidth 32 = o
  have := o.isLt
  rw [BitVec.extractLsb'_toNat, Nat.shiftRight_eq_div_pow]
  omega

/-! The order of candidates (02 R42; 07 R199). -/

/-- A candidate's place: -inf below every finite value, and -0 below +0. -/
def FVal.place : FVal → WithBot ℚ ×ₗ ℕ
  | .fin s m e => toLex (((FVal.fin s m e).rat : WithBot ℚ), if m = 0 ∧ s = true then 0 else 1)
  | _ => toLex (⊥, 0)

/-- A finite value or -inf. -/
def FVal.low (x : FVal) : Prop := x.isFinite = true ∨ x = .inf true

theorem FVal.low_iff {x : FVal} : x.low ↔ x.isNan = false ∧ x ≠ .inf false := by
  rcases x with _ | s | ⟨s, m, e⟩
  · simp [FVal.low, FVal.isNan, FVal.isFinite]
  · cases s <;> simp [FVal.low, FVal.isNan, FVal.isFinite]
  · simp [FVal.low, FVal.isNan, FVal.isFinite]

theorem FVal.rat_eq_zero {s : Bool} {m : Nat} {e : Int} : (FVal.fin s m e).rat = 0 ↔ m = 0 := by
  have hpow : (2 : ℚ) ^ e ≠ 0 := by positivity
  cases s <;> simp [FVal.rat, FVal.signed, hpow]

theorem FVal.below_iff {x y : FVal} (hx : x.low) (hy : y.low) : x.below y = true ↔ x.place < y.place := by
  rcases x with _ | s | ⟨s, m, e⟩
  · simp [FVal.low, FVal.isFinite] at hx
  · obtain rfl : s = true := by simpa [FVal.low, FVal.isFinite] using hx
    rcases y with _ | t | ⟨t, n, g⟩
    · simp [FVal.low, FVal.isFinite] at hy
    · obtain rfl : t = true := by simpa [FVal.low, FVal.isFinite] using hy
      simp [FVal.below, FVal.lt, FVal.isZero]
    · simp [FVal.below, FVal.lt, FVal.place, Prod.Lex.lt_iff]
  · rcases y with _ | t | ⟨t, n, g⟩
    · simp [FVal.low, FVal.isFinite] at hy
    · obtain rfl : t = true := by simpa [FVal.low, FVal.isFinite] using hy
      simp [FVal.below, FVal.lt, FVal.place, Prod.Lex.lt_iff, FVal.isZero]
    · simp only [FVal.below, FVal.place, Prod.Lex.lt_iff, Bool.or_eq_true, FVal.lt_fin_iff, ofLex_toLex, WithBot.coe_lt_coe, WithBot.coe_inj]
      refine or_congr Iff.rfl ?_
      have hm := FVal.rat_eq_zero (s := s) (m := m) (e := e)
      have hn := FVal.rat_eq_zero (s := t) (m := n) (e := g)
      generalize (FVal.fin s m e).rat = a at *
      generalize (FVal.fin t n g).rat = b at *
      simp only [FVal.isZero, FVal.sign, Bool.and_eq_true, beq_iff_eq, Bool.not_eq_true']
      constructor
      · rintro ⟨⟨⟨h1, h2⟩, h3⟩, h4⟩
        rw [hm.2 h1, hn.2 h2]
        simp [h1, h3, h4]
      · rintro ⟨rfl, hlt⟩
        split_ifs at hlt with h1 h2
        · omega
        · have h0 := hn.1 (hm.2 h1.1)
          exact ⟨⟨⟨h1.1, h0⟩, h1.2⟩, by simpa [h0] using h2⟩
        · omega
        · omega

/-! An fp32 value has one form. -/

/-- The form of a finite fp32 value: a zero, a subnormal, or a mantissa with its hidden bit. -/
def Form32 (ftz : Bool) (m : Nat) (p : Int) : Prop :=
  (m = 0 ∧ p = if ftz then 0 else -149) ∨ (m ≠ 0 ∧ m < 2 ^ 24 ∧ -149 ≤ p ∧ (p = -149 ∨ 2 ^ 23 ≤ m))

theorem fp32_read_form {ftz : Bool} {n : Nat} {s : Bool} {m : Nat} {p : Int} (hn : n < 2 ^ fp32.width) (h : fp32.read ftz n = .fin s m p) :
    Form32 ftz m p := by
  obtain ⟨sg, mag, rfl, hlt⟩ := fp32.exists_signBit_add hn
  rw [FFmt.read_signBit_add hlt] at h
  have hbias : (fp32.bias : Int) = 127 := by decide
  have hM : (fp32.M : Int) = 23 := rfl
  have hmod : mag % 2 ^ fp32.M < 2 ^ 23 := Nat.mod_lt _ (by decide)
  have hfloor : (2 : Nat) ^ fp32.M = 2 ^ 23 := rfl
  have happ : fp32.ftzApplies = true := rfl
  unfold FFmt.readMag at h
  rw [hbias, hM, happ, Bool.and_true] at h
  split_ifs at h with h1 h2 h3 h4 h5
  · cases h
    exact .inl ⟨rfl, by simp [h5]⟩
  · cases h
    by_cases h0 : mag % 2 ^ fp32.M = 0
    · exact .inl ⟨h0, by simp [h5]⟩
    · exact .inr ⟨h0, by omega, by omega, .inl (by omega)⟩
  · cases h
    have : 0 < mag / 2 ^ fp32.M := Nat.pos_of_ne_zero (by simpa using h4)
    generalize mag / 2 ^ fp32.M = q at *
    exact .inr ⟨by omega, by omega, by omega, .inr (by omega)⟩

theorem Form32.inj_of_le {ftz : Bool} {m n : Nat} {p g : Int} (h : Form32 ftz m p) (k : Form32 ftz n g) (hpg : p ≤ g)
    (heq : (m : ℚ) * 2 ^ p = n * 2 ^ g) : m = n ∧ p = g := by
  have hshift : (m : ℚ) = n * 2 ^ (g - p).toNat := by
    have hexp : (((g - p).toNat : Nat) : Int) = g - p := by omega
    refine mul_right_cancel₀ (b := (2 : ℚ) ^ p) (by positivity) ?_
    rw [heq, mul_assoc, ← zpow_natCast, hexp, ← zpow_add₀ (by norm_num), sub_add_cancel]
  have hnat : m = n * 2 ^ (g - p).toNat := by exact_mod_cast hshift
  have hpow : 0 < 2 ^ (g - p).toNat := by positivity
  rcases h with ⟨rfl, hp⟩ | ⟨hm, hlt, hp, -⟩
  · have hn : n = 0 := by
      rcases Nat.mul_eq_zero.1 hnat.symm with h | h
      · exact h
      · omega
    subst hn
    rcases k with ⟨-, hg⟩ | ⟨hn, -⟩
    · exact ⟨rfl, hp.trans hg.symm⟩
    · exact absurd rfl hn
  · by_cases heq' : p = g
    · subst heq'
      exact ⟨by simpa using hnat, rfl⟩
    · have hn : n ≠ 0 := by
        rintro rfl
        simp at hnat
        exact hm hnat
      have hbig : 2 ^ 23 ≤ n := by
        rcases k with ⟨h0, -⟩ | ⟨-, -, -, hg | h⟩
        · exact absurd h0 hn
        · omega
        · exact h
      have htwo : 2 ≤ 2 ^ (g - p).toNat := le_self_pow₀ (by decide) (by omega)
      have : 2 ^ 23 * 2 ≤ n * 2 ^ (g - p).toNat := Nat.mul_le_mul hbig htwo
      omega

theorem Form32.inj {ftz : Bool} {m n : Nat} {p g : Int} (h : Form32 ftz m p) (k : Form32 ftz n g)
    (heq : (m : ℚ) * 2 ^ p = n * 2 ^ g) : m = n ∧ p = g := by
  rcases le_total p g with hpg | hpg
  · exact h.inj_of_le k hpg heq
  · obtain ⟨h1, h2⟩ := k.inj_of_le h hpg heq.symm
    exact ⟨h1.symm, h2.symm⟩

theorem FVal.sign_eq_of_rat {s t : Bool} {m n : Nat} {p g : Int} (hm : m ≠ 0) (h : (FVal.fin s m p).rat = (FVal.fin t n g).rat) :
    s = t := by
  have h1 : (0 : ℚ) < m * 2 ^ p := by positivity
  have h2 : (0 : ℚ) ≤ n * 2 ^ g := by positivity
  cases s <;> cases t <;> simp only [FVal.rat, FVal.signed, Bool.false_eq_true, if_false, if_true, Int.cast_neg, Int.cast_natCast] at h ⊢
  · linarith
  · linarith

/-- Candidates at the same place are the same. -/
theorem FVal.eq_of_place {ftz : Bool} {x y : FVal} (hx : x.low) (hy : y.low) (fx : ∀ s m p, x = .fin s m p → Form32 ftz m p)
    (fy : ∀ s m p, y = .fin s m p → Form32 ftz m p) (h : x.place = y.place) : x = y := by
  rcases x with _ | s | ⟨s, m, p⟩
  · simp [FVal.low, FVal.isFinite] at hx
  · obtain rfl : s = true := by simpa [FVal.low, FVal.isFinite] using hx
    rcases y with _ | t | ⟨t, n, g⟩
    · simp [FVal.low, FVal.isFinite] at hy
    · obtain rfl : t = true := by simpa [FVal.low, FVal.isFinite] using hy
      rfl
    · simp [FVal.place] at h
  · rcases y with _ | t | ⟨t, n, g⟩
    · simp [FVal.low, FVal.isFinite] at hy
    · simp [FVal.place] at h
    · simp only [FVal.place, EmbeddingLike.apply_eq_iff_eq, Prod.mk.injEq, WithBot.coe_inj] at h
      obtain ⟨hrat, hflag⟩ := h
      have hm := FVal.rat_eq_zero (s := s) (m := m) (e := p)
      have hn := FVal.rat_eq_zero (s := t) (m := n) (e := g)
      have hst : s = t := by
        by_cases h0 : m = 0
        · have h1 : n = 0 := hn.1 (hrat ▸ hm.2 h0)
          subst h0 h1
          cases s <;> cases t <;> simp_all
        · exact FVal.sign_eq_of_rat h0 hrat
      subst hst
      have hval : (m : ℚ) * 2 ^ p = n * 2 ^ g := by
        cases s <;> simpa [FVal.rat, FVal.signed] using hrat
      obtain ⟨rfl, rfl⟩ := (fx s m p rfl).inj (fy s n g rfl) hval
      rfl

/-! The largest candidate. -/

theorem vmax_eq {x y : FVal} (hx : x.low) (hy : y.low) : vmax x y = if x.place < y.place then y else x := by
  rw [vmax, if_neg (by simp [(FVal.low_iff.1 hx).1, (FVal.low_iff.1 hy).1])]
  exact if_congr (FVal.below_iff hx hy) rfl rfl

theorem foldl_vmax {l : List FVal} {x : FVal} (hx : x.low) (hl : ∀ y ∈ l, y.low) :
    (l.foldl vmax x ∈ x :: l) ∧ ∀ y ∈ x :: l, y.place ≤ (l.foldl vmax x).place := by
  induction l generalizing x with
  | nil => simp
  | cons y l ih =>
    have hy := hl y (by simp)
    rw [List.foldl_cons, vmax_eq hx hy]
    split
    · next h =>
      obtain ⟨hmem, hall⟩ := ih hy fun z hz => hl z (by simp [hz])
      refine ⟨List.mem_cons_of_mem _ hmem, fun z hz => ?_⟩
      rcases List.mem_cons.1 hz with rfl | hz
      · exact h.le.trans (hall y (by simp))
      · exact hall z hz
    · next h =>
      obtain ⟨hmem, hall⟩ := ih hx fun z hz => hl z (by simp [hz])
      refine ⟨?_, fun z hz => ?_⟩
      · rcases List.mem_cons.1 hmem with h | h
        · rw [h]; simp
        · simp [h]
      · rcases List.mem_cons.1 hz with rfl | hz
        · exact hall z (by simp)
        · rcases List.mem_cons.1 hz with rfl | hz
          · exact (not_lt.1 h).trans (hall x (by simp))
          · exact hall z (by simp [hz])


/-! The token (07 R199). -/

theorem flatten_rows {α : Type} (rows cols : Nat) (f : Nat → Nat → α) :
    ((List.range rows).map fun i => (List.range cols).map fun j => f i j).flatten
      = (List.range (rows * cols)).map fun k => f (k / cols) (k % cols) := by
  induction rows with
  | zero => simp
  | succ rows ih =>
    rw [List.range_succ, List.map_append, List.flatten_append, ih, Nat.succ_mul, List.range_add, List.map_append, List.map_map]
    refine congrArg _ ?_
    rw [List.map_singleton, List.flatten_singleton]
    refine List.map_congr_left fun j hj => ?_
    have hlt := List.mem_range.1 hj
    rw [Function.comp_apply, Nat.mul_comm, Nat.mul_add_div (by omega), Nat.div_eq_of_lt hlt, Nat.mul_add_mod, Nat.mod_eq_of_lt hlt, Nat.add_zero]

/-- The candidates of the source: n of them, each with its flat index. -/
def candidates (n : Nat) (flat : Nat → Nat) (l : Nat → FVal) : List (Nat × FVal) := (List.range n).map fun k => (flat k, l k)

/-- The sum of the candidates' weights under w and, newest first, each flat index with its weight and running sum, as the model collects
them. -/
def weighed (ftz : Bool) (w : FVal → FVal) (cands : List (Nat × FVal)) : FVal × List (Nat × FVal × FVal) :=
  cands.foldl (fun acc c => (addRne ftz acc.1 (w c.2), (c.1, w c.2, addRne ftz acc.1 (w c.2)) :: acc.2)) (.fin false 0 0, [])

theorem weighed_candidates (ftz : Bool) (flat : Nat → Nat) (l : Nat → FVal) (w : FVal → FVal) (n : Nat) :
    weighed ftz w (candidates n flat l) = (runningSum ftz (fun k => w (l k)) n,
      ((List.range n).map fun k => (flat k, w (l k), runningSum ftz (fun k => w (l k)) (k + 1))).reverse) := by
  induction n with
  | zero => rfl
  | succ n ih =>
    rw [weighed] at ih ⊢
    rw [candidates, List.range_succ, List.map_append, List.map_append, List.foldl_append, ← candidates, ih, List.reverse_append]
    rfl

/-- The model's choice among what it has collected, with its flags. -/
def pickToken (thr : FVal) (r : List (Nat × FVal × FVal)) : Nat × Bool × Bool :=
  match r.reverse.find? (fun e => thr.lt e.2.2) with
  | some e => (e.1, false, false)
  | none => (((r.find? (fun e => !e.2.1.isZero)).map (·.1)).getD 0, false, false)

/-- The index that is chosen of n: the first past the threshold, or else the last with a weight (07 R199). -/
def chosenIndex (n : Nat) (flat : Nat → Nat) (past weighty : Nat → Bool) : Nat :=
  match (List.range n).find? past with
  | some k => flat k
  | none => (((List.range n).reverse.find? weighty).map flat).getD 0

theorem pickToken_eq (thr : FVal) (n : Nat) (flat : Nat → Nat) (w sum : Nat → FVal) :
    pickToken thr ((List.range n).map fun k => (flat k, w k, sum (k + 1))).reverse
      = (chosenIndex n flat (fun k => thr.lt (sum (k + 1))) (fun k => !(w k).isZero), false, false) := by
  rw [pickToken, List.reverse_reverse, List.find?_map, ← List.map_reverse, List.find?_map, chosenIndex]
  simp only [Function.comp_def]
  cases (List.range n).find? fun k => thr.lt (sum (k + 1)) with
  | some k => rfl
  | none => simp only [Option.map_none, Option.map_map, Function.comp_def]

theorem chosenIndex_first {n : Nat} {flat : Nat → Nat} {past weighty : Nat → Bool} {k : Nat} (hk : k < n) (hp : past k = true)
    (hb : ∀ j, j < k → past j = false) : chosenIndex n flat past weighty = flat k := by
  have : (List.range n).find? past = some k := by
    rw [List.find?_range_eq_some]
    exact ⟨hp, List.mem_range.2 hk, fun j hj => by simp [hb j hj]⟩
  rw [chosenIndex, this]

theorem chosenIndex_last {n : Nat} {flat : Nat → Nat} {past weighty : Nat → Bool} {k : Nat} (hno : ∀ j, j < n → past j = false)
    (hk : k < n) (hw : weighty k = true) (ha : ∀ j, k < j → j < n → weighty j = false) :
    chosenIndex n flat past weighty = flat k := by
  have hnone : (List.range n).find? past = none := by
    simp only [List.find?_eq_none, List.mem_range]
    exact fun j hj => by simp [hno j hj]
  have hsome : (List.range n).reverse.find? weighty = some k := by
    obtain ⟨m, rfl⟩ : ∃ m, n = k + 1 + m := ⟨n - (k + 1), by omega⟩
    rw [List.range_add, List.reverse_append, List.range_succ, List.reverse_append, List.find?_append, List.find?_eq_none.2]
    · simp [hw]
    · simp only [List.mem_reverse, List.mem_map, List.mem_range]
      rintro j ⟨i, hi, rfl⟩
      simp [ha (k + 1 + i) (by omega) (by omega)]
  rw [chosenIndex, hnone, hsome]
  rfl

theorem chosenIndex_eq (n : Nat) (flat : Nat → Nat) (past weighty : Nat → Bool) :
    (∃ k, k < n ∧ chosenIndex n flat past weighty = flat k) ∨ chosenIndex n flat past weighty = 0 := by
  rw [chosenIndex]
  split
  · next k h => exact .inl ⟨k, List.mem_range.1 (List.mem_of_find?_eq_some h), rfl⟩
  · cases h : (List.range n).reverse.find? weighty with
    | none => exact .inr rfl
    | some k => exact .inl ⟨k, by simpa using List.mem_of_find?_eq_some h, rfl⟩

theorem smplToken_notNumber {ftz : Bool} {u n : Nat} {flat : Nat → Nat} {l : Nat → FVal}
    (h : ∃ k, k < n ∧ ((l k).isNan = true ∨ l k = .inf false)) :
    smplToken ftz u (candidates n flat l) = (0xFFFFFFFF, true, false) := by
  obtain ⟨k, hk, h⟩ := h
  rw [smplToken, if_pos]
  simp only [candidates, List.any_map, List.any_eq_true, List.mem_range, Function.comp_apply, Bool.or_eq_true, beq_iff_eq]
  exact ⟨k, hk, h⟩

/-- Candidates of which none is NaN or +inf. -/
theorem any_notNumber {n : Nat} {flat : Nat → Nat} {l : Nat → FVal} (h : ∀ k, k < n → (l k).low) :
    ((candidates n flat l).any fun c => c.2.isNan || c.2 == .inf false) = false := by
  simp only [candidates, List.any_map, List.any_eq_false, List.mem_range, Function.comp_apply, Bool.or_eq_true, beq_iff_eq]
  intro k hk hbad
  obtain ⟨h1, h2⟩ := FVal.low_iff.1 (h k hk)
  simp [h1, h2] at hbad

theorem map_snd_candidates (n : Nat) (flat : Nat → Nat) (l : Nat → FVal) : (candidates n flat l).map (·.2) = (List.range n).map l := by
  simp [candidates, Function.comp_def]

/-- The largest candidate as the model finds it. -/
theorem exists_foldl_vmax {n : Nat} {l : Nat → FVal} (hl : ∀ k, k < n → (l k).low) (hn : 0 < n) :
    ∃ v vs, (List.range n).map l = v :: vs ∧ (∃ k, k < n ∧ l k = vs.foldl vmax v) ∧ ∀ k, k < n → (l k).place ≤ (vs.foldl vmax v).place := by
  obtain ⟨m, rfl⟩ : ∃ m, n = m + 1 := ⟨n - 1, by omega⟩
  have hsplit : (List.range (m + 1)).map l = l 0 :: (List.range m).map (fun k => l (k + 1)) := by
    rw [List.range_succ_eq_map, List.map_cons, List.map_map]
    rfl
  have hmem (y : FVal) (hy : y ∈ (List.range m).map fun k => l (k + 1)) : y.low := by
    obtain ⟨k, hk, rfl⟩ := List.mem_map.1 hy
    exact hl _ (by simpa using hk)
  obtain ⟨hin, hall⟩ := foldl_vmax (hl 0 hn) hmem
  rw [← hsplit] at hin hall
  obtain ⟨k, hk, hkl⟩ := List.mem_map.1 hin
  exact ⟨_, _, hsplit, ⟨k, List.mem_range.1 hk, hkl⟩, fun k hk => hall _ (List.mem_map.2 ⟨k, List.mem_range.2 hk, rfl⟩)⟩

theorem smplToken_allLowest {ftz : Bool} {u n : Nat} {flat : Nat → Nat} {l : Nat → FVal} (h : ∀ k, k < n → l k = .inf true) :
    smplToken ftz u (candidates n flat l) = (0xFFFFFFFF, false, true) := by
  have hl (k : Nat) (hk : k < n) : (l k).low := .inr (h k hk)
  rw [smplToken, if_neg (by simp [any_notNumber hl]), map_snd_candidates]
  rcases Nat.eq_zero_or_pos n with rfl | hn
  · rfl
  · obtain ⟨v, vs, hvs, ⟨k, hk, hmx⟩, -⟩ := exists_foldl_vmax hl hn
    simp only [hvs, ← hmx, h k hk]
    rfl

/-- The threshold of the generator's value (07 R199). -/
def threshold (ftz : Bool) (u : Nat) (total : FVal) : FVal := nearest32 ftz (FVal.mul (.fin false u (-24)) total)

theorem smplToken_chosen {ftz : Bool} {u n : Nat} {flat : Nat → Nat} {l : Nat → FVal} {mx : FVal} (hl : ∀ k, k < n → (l k).low)
    (hform : ∀ k s m p, l k = .fin s m p → Form32 ftz m p) (hsome : ∃ k, k < n ∧ l k ≠ .inf true) (hmem : ∃ k, k < n ∧ l k = mx)
    (hmax : ∀ k, k < n → mx.below (l k) = false) :
    smplToken ftz u (candidates n flat l) = (chosenIndex n flat
      (fun k => (threshold ftz u (runningSum ftz (fun k => weightOf ftz mx (l k)) n)).lt (runningSum ftz (fun k => weightOf ftz mx (l k)) (k + 1)))
      (fun k => !(weightOf ftz mx (l k)).isZero), false, false) := by
  obtain ⟨k0, hk0, hfin⟩ := hsome
  obtain ⟨km, hkm, rfl⟩ := hmem
  have hne : l km ≠ .inf true := by
    intro h
    have hbelow := (FVal.below_iff (hl km hkm) (hl k0 hk0)).not.1 (by simp [hmax k0 hk0])
    rcases hc : l k0 with _ | s | ⟨s, m, p⟩
    · have := hl k0 hk0
      simp [hc, FVal.low, FVal.isFinite] at this
    · have := hl k0 hk0
      simp [hc, FVal.low, FVal.isFinite] at this
      exact hfin (this ▸ hc)
    · simp [h, hc, FVal.place, Prod.Lex.lt_iff] at hbelow
  obtain ⟨v, vs, hvs, ⟨k, hk, hmx⟩, hge⟩ := exists_foldl_vmax hl (by omega)
  have heq : vs.foldl vmax v = l km := by
    rw [← hmx]
    refine FVal.eq_of_place (hl k hk) (hl km hkm) (hform k) (hform km) (le_antisymm ?_ ?_)
    · exact not_lt.1 ((FVal.below_iff (hl km hkm) (hl k hk)).not.1 (by simp [hmax k hk]))
    · exact hmx ▸ hge km hkm
  rw [smplToken, if_neg (by simp [any_notNumber hl]), map_snd_candidates]
  simp only [hvs, heq]
  rw [if_neg (by simpa using hne)]
  change pickToken (threshold ftz u (weighed ftz (weightOf ftz (l km)) (candidates n flat l)).1)
    (weighed ftz (weightOf ftz (l km)) (candidates n flat l)).2 = _
  rw [weighed_candidates]
  exact pickToken_eq ..

/-! The record (07 R200). -/

/-- The record of a token and its two flags, with the version's word and the partition (07 R200). -/
def tokenRecord (t : Nat × Bool × Bool) (ver part : Nat) : Word64 :=
  BitVec.ofNat 64 (t.1 + ver % 2 ^ 16 * 2 ^ 32 + part * 2 ^ 48 + ver / 2 ^ 16 * 2 ^ 56 + (if t.2.1 then 2 ^ 57 else 0) + if t.2.2 then 2 ^ 58 else 0)

theorem smpl_completes {s : State} {a : BitVec 4} (m : BitVec 3) (x : BitVec 5) (hf : isFloatCode (s.t a).fmt = true) (hc : (s.t a).clean) :
    Completes (.smpl m a x) s (s.mwrite m (tokenRecord
      (smplToken s.k.ftz (draw24 (s.x x) ((s.x (x + 1)).extractLsb' 32 32) ((s.x (x + 1)).setWidth 32))
        (candidates ((s.t a).rext * (s.t a).cext) (fun k => 32 * (k / (s.t a).cext) + k % (s.t a).cext)
          (fun k => arg32 s.k.ftz ((s.t a).val s.k.ftz (k / (s.t a).cext) (k % (s.t a).cext)))))
      s.k.idVer.toNat s.part.toNat)) true := by
  change execSmpl m a x s = _
  rw [execSmpl]
  simp only [needFormats_one (ok := isFloatCode) hf, needClean_one hc, run_ok_bind, flatten_rows, genU24_eq]
  rfl

/-- The fields of a token's record. -/
structure TokenFields (v : Word64) (t : Nat × Bool × Bool) (pin : Bool) (ver part : Nat) : Prop where
  token : bits v 31 0 = t.1
  version : bits v 47 32 = if pin then ver else 0
  partition : bits v 55 48 = part
  pinned : v.getLsbD 56 = pin
  notNumber : v.getLsbD 57 = t.2.1
  none : v.getLsbD 58 = t.2.2
  high : bits v 63 59 = 0

theorem tokenFields (t : Nat × Bool × Bool) (k : KRegs) {part : Nat} (ht : t.1 < 2 ^ 32) (hp : part < 8) :
    TokenFields (tokenRecord t k.idVer.toNat part) t k.pinned k.pinVer.toNat part := by
  have hver : k.idVer.toNat = if k.pinned then 2 ^ 16 + k.pinVer.toNat else 0 := by
    have := k.pinVer.isLt
    rw [KRegs.idVer]
    split
    · rw [BitVec.toNat_ofNat, Nat.mod_eq_of_lt (by omega)]
    · rfl
  have hpin := k.pinVer.isLt
  rw [hver]
  generalize k.pinVer.toNat = ver at *
  obtain ⟨tok, nonf, emp⟩ := t
  constructor <;> cases k.pinned <;> cases nonf <;> cases emp <;>
    simp only [tokenRecord, bits, BitVec.toNat_ofNat, BitVec.getLsbD, Nat.testBit_eq_decide_div_mod_eq, if_true, if_false, Bool.false_eq_true,
      decide_eq_true_eq, decide_eq_false_iff_not] at ht ⊢ <;> omega

/-- A source's candidates by their place in it: what holds of each is what holds at each of their numbers. -/
theorem forall_candidate {rows cols : Nat} {P : Nat → Nat → Prop} :
    (∀ r c, r < rows ∧ c < cols → P r c) ↔ ∀ k, k < rows * cols → P (k / cols) (k % cols) := by
  constructor
  · intro h k hk
    have hpos : 0 < cols := Nat.pos_of_ne_zero fun h => by simp [h] at hk
    exact h _ _ ⟨Nat.div_lt_of_lt_mul (by rwa [Nat.mul_comm]), Nat.mod_lt _ hpos⟩
  · rintro h r c ⟨hr, hc⟩
    have hlt : cols * r + c < rows * cols := by
      have := Nat.mul_le_mul_left cols (show r + 1 ≤ rows from hr)
      rw [Nat.mul_succ] at this
      rw [Nat.mul_comm rows]
      omega
    have := h _ hlt
    rwa [Nat.mul_add_div (by omega), Nat.div_eq_of_lt hc, Nat.mul_add_mod, Nat.mod_eq_of_lt hc, Nat.add_zero] at this

theorem exists_largest {n : Nat} {l : Nat → FVal} (hl : ∀ k, k < n → (l k).low) (hn : 0 < n) :
    ∃ mx, (∃ k, k < n ∧ l k = mx) ∧ ∀ k, k < n → mx.below (l k) = false := by
  obtain ⟨v, vs, -, ⟨k, hk, hmx⟩, hge⟩ := exists_foldl_vmax hl hn
  refine ⟨_, ⟨k, hk, hmx⟩, fun j hj => ?_⟩
  have := (FVal.below_iff (hl k hk) (hl j hj)).not.2 (not_lt.2 (hmx ▸ hge j hj))
  simpa [hmx] using this

/-- The candidates hold one that is no number, or nothing above -inf, or something to choose. -/
theorem candidates_cases (n : Nat) (l : Nat → FVal) :
    (∃ k, k < n ∧ ((l k).isNan = true ∨ l k = .inf false)) ∨ (∀ k, k < n → (l k).low) ∧ ((∀ k, k < n → l k = .inf true) ∨ ∃ k, k < n ∧ l k ≠ .inf true) := by
  by_cases h : ∃ k, k < n ∧ ((l k).isNan = true ∨ l k = .inf false)
  · exact .inl h
  · push Not at h
    refine .inr ⟨fun k hk => FVal.low_iff.2 ⟨by simpa using (h k hk).1, (h k hk).2⟩, ?_⟩
    by_cases h : ∃ k, k < n ∧ l k ≠ .inf true
    · exact .inr h
    · push Not at h
      exact .inl h

theorem smplToken_flags {ftz : Bool} {u n : Nat} {flat : Nat → Nat} {l : Nat → FVal} (hform : ∀ k s m p, l k = .fin s m p → Form32 ftz m p) :
    ((smplToken ftz u (candidates n flat l)).2.1 = true ↔ ∃ k, k < n ∧ ((l k).isNan = true ∨ l k = .inf false))
    ∧ ((smplToken ftz u (candidates n flat l)).2.2 = true
        ↔ (smplToken ftz u (candidates n flat l)).2.1 = false ∧ ∀ k, k < n → l k = .inf true)
    ∧ ((smplToken ftz u (candidates n flat l)).2.1 = true ∨ (smplToken ftz u (candidates n flat l)).2.2 = true →
        (smplToken ftz u (candidates n flat l)).1 = 2 ^ 32 - 1) := by
  rcases candidates_cases n l with h | ⟨hl, h | h⟩
  · rw [smplToken_notNumber h]
    simp [h]
  · rw [smplToken_allLowest h]
    have : ¬∃ k, k < n ∧ ((l k).isNan = true ∨ l k = .inf false) := by
      rintro ⟨k, hk, hbad⟩
      simp [h k hk, FVal.isNan] at hbad
    simp only [this, iff_false]
    simpa using h
  · obtain ⟨k, hk, hne⟩ := h
    obtain ⟨mx, hmem, hmax⟩ := exists_largest hl (by omega)
    rw [smplToken_chosen hl hform ⟨k, hk, hne⟩ hmem hmax]
    have : ¬∃ k, k < n ∧ ((l k).isNan = true ∨ l k = .inf false) := by
      rintro ⟨k, hk, hbad⟩
      have := FVal.low_iff.1 (hl k hk)
      simp [this] at hbad
    simp only [this, iff_false]
    simpa using ⟨k, hk, hne⟩

/-- What the token is where no flag says why there is none. -/
theorem smplToken_unflagged {ftz : Bool} {u n : Nat} {flat : Nat → Nat} {l : Nat → FVal}
    (h1 : (smplToken ftz u (candidates n flat l)).2.1 = false) (h2 : (smplToken ftz u (candidates n flat l)).2.2 = false) :
    (∀ k, k < n → (l k).low) ∧ ∃ k, k < n ∧ l k ≠ .inf true := by
  rcases candidates_cases n l with h | ⟨hl, h | h⟩
  · simp [smplToken_notNumber h] at h1
  · simp [smplToken_allLowest h] at h2
  · exact ⟨hl, h⟩

theorem smplToken_inside {ftz : Bool} {u n : Nat} {flat : Nat → Nat} {l : Nat → FVal} (hform : ∀ k s m p, l k = .fin s m p → Form32 ftz m p)
    (h1 : (smplToken ftz u (candidates n flat l)).2.1 = false) (h2 : (smplToken ftz u (candidates n flat l)).2.2 = false) :
    0 < n ∧ ((∃ k, k < n ∧ (smplToken ftz u (candidates n flat l)).1 = flat k) ∨ (smplToken ftz u (candidates n flat l)).1 = 0) := by
  obtain ⟨hl, k, hk, hne⟩ := smplToken_unflagged h1 h2
  obtain ⟨mx, hmem, hmax⟩ := exists_largest hl (by omega)
  rw [smplToken_chosen hl hform ⟨k, hk, hne⟩ hmem hmax]
  exact ⟨by omega, chosenIndex_eq ..⟩

theorem smplToken_lt {ftz : Bool} {u n : Nat} {flat : Nat → Nat} {l : Nat → FVal} (hform : ∀ k s m p, l k = .fin s m p → Form32 ftz m p)
    (hflat : ∀ k, k < n → flat k < 2 ^ 32) : (smplToken ftz u (candidates n flat l)).1 < 2 ^ 32 := by
  by_cases h : (smplToken ftz u (candidates n flat l)).2.1 = true ∨ (smplToken ftz u (candidates n flat l)).2.2 = true
  · rw [(smplToken_flags hform).2.2 h]
    decide
  · simp only [not_or, Bool.not_eq_true] at h
    obtain ⟨-, ⟨k, hk, h⟩ | h⟩ := smplToken_inside hform h.1 h.2
    · exact h ▸ hflat k hk
    · rw [h]; decide

/-- Settles O27, by what the candidates are: one that is no number, nothing above -inf, or a choice by the running sums. -/
theorem sampling : Obligations.Sampling := by
  intro s m a x hf hc hr hcx cand inside
  have hform (k : Nat) (sg : Bool) (mt : Nat) (p : Int)
      (h : cand (k / (s.t a).cext) (k % (s.t a).cext) = .fin sg mt p) : Form32 s.k.ftz mt p :=
    fp32_read_form (FFmt.round_bits_lt fp32_ok ..) h
  have hplace (k : Nat) (hk : k < (s.t a).rext * (s.t a).cext) : inside (k / (s.t a).cext) (k % (s.t a).cext) :=
    forall_candidate.1 (fun _ _ h => h) k hk
  have hflat (k : Nat) (hk : k < (s.t a).rext * (s.t a).cext) : 32 * (k / (s.t a).cext) + k % (s.t a).cext < 2 ^ 32 := by
    have := hplace k hk
    omega
  obtain ⟨t, v, hcomp, ⟨htok, hver, hpart, hpin, hnot, hnone, hhigh⟩, ht⟩ : ∃ t v, Completes (.smpl m a x) s (s.mwrite m v) true
      ∧ TokenFields v t s.k.pinned s.k.pinVer.toNat s.part.toNat ∧ t = smplToken _ _ (candidates _ _ _) :=
    ⟨_, _, smpl_completes m x hf hc, tokenFields _ s.k (smplToken_lt hform hflat) s.part.isLt, rfl⟩
  obtain ⟨h57, h58, hnone32⟩ := ht ▸ smplToken_flags hform
  have hinside := ht ▸ smplToken_inside hform
  refine ⟨_, v, hcomp, SetsM.of_mwrite .., hver, hpart, hpin, hhigh, ?is57, ?is58, ?noToken, ?place, ?choice⟩
  case is57 =>
    rw [hnot]
    refine h57.trans (not_iff_not.1 ?_)
    push Not
    exact (forall_candidate (P := fun r c => (cand r c).isNan ≠ true ∧ cand r c ≠ .inf false)).symm
  case is58 =>
    rw [hnone, hnot]
    exact h58.trans (and_congr Iff.rfl (forall_candidate (P := fun r c => cand r c = .inf true)).symm)
  case noToken =>
    rw [hnot, hnone, htok]
    exact hnone32
  case place =>
    rw [hnot, hnone, htok]
    intro h1 h2
    obtain ⟨hpos, ⟨k, hk, hk'⟩ | h0⟩ := hinside h1 h2
    · rw [hk']
      have := hplace k hk
      omega
    · rw [h0]
      simpa using hplace 0 hpos
  case choice =>
    rw [hnot, hnone, htok]
    intro h1 h2 cols n l flat mx hmem hmax p sum u24 thr
    obtain ⟨hl, hsome⟩ := smplToken_unflagged (ht ▸ h1) (ht ▸ h2)
    rw [ht, smplToken_chosen hl hform hsome hmem hmax]
    exact ⟨fun k hk hp hb => chosenIndex_first hk hp hb,
      fun hno k hk hw ha => chosenIndex_last hno hk (congrArg not hw) fun j hj hjn => congrArg not (ha j hj hjn)⟩

end Sys2Proof.Machine
end

section
/-! The matrix product: the checks of its operands and its elements (06 R154 to R157, R171; 02 R62 to R65). -/

namespace Sys2Proof.Machine

/-! The checks. -/

/-- The format that the accumulator must have is that of C, where there is one. -/
def accFits (C : Option Tile) (k : AccKind) : Bool := (C.map (fun c => c.fmt == k.fmt)).getD true

theorem need_scales {B : Tile} {bc : BitVec 1} (hb : bc = 0 → B.scl = false) : (!(bc == 0 && B.scl)) = true := by
  rcases BitVec.eq_zero_or_eq_one bc with rfl | rfl
  · simp [hb rfl]
  · rfl

theorem needMatrixFormats_ok {A B : Tile} {C : Option Tile} {bc : BitVec 1} {k : AccKind} (hk : accKind A.fmt B.fmt = .ok k)
    (hb : bc = 0 → B.scl = false) (hc : accFits C k = true) : needMatrixFormats A B C bc = .ok k := by
  have hneed (v : Word64) : need (!(bc == 0 && B.scl)) .badFormat v = .ok () := by rw [need_scales hb]; rfl
  cases C with
  | none => simp only [needMatrixFormats, hk, hneed, run_ok_bind]
  | some c =>
    have hfit (v : Word64) : need (c.fmt == k.fmt) .badFormat v = .ok () := by rw [show (c.fmt == k.fmt) = true from hc]; rfl
    simp only [needMatrixFormats, hk, hneed, hfit, run_ok_bind]

/-- The accumulation of floating-point operands. -/
theorem accKind_float : ∀ {f g : BitVec 5}, isFloatCode f = true → isFloatCode g = true → accKind f g = .ok (.float (matrixGroup f g)) := by
  decide

theorem accKind_int {f g : BitVec 5} (hf : f ∈ [0x09#5, 0x0A#5, 0x0D#5]) (hg : g ∈ [0x09#5, 0x0A#5, 0x0D#5]) : accKind f g = .ok .int := by
  revert f g
  decide

theorem bShape_eq (B : Tile) (bc : BitVec 1) : bShape B bc = (depthOf B bc, widthIn B bc) := by
  rcases BitVec.eq_zero_or_eq_one bc with rfl | rfl <;> rfl

theorem needK_ok {A B : Tile} {bc : BitVec 1} (h : depthOf B bc = A.cext) : needK A B bc = .ok () := by
  simp [needK, bShape_eq, h, need]

/-! The elements. -/

/-- An element of the accumulator, zero without one. -/
def accElem (C : Option Tile) (i j : Nat) : Word32 := (C.map (fun c => c.elem i j)).getD 0

/-- A dropped scale of B changes nothing where B has none. -/
theorem scl_and {B : Tile} {bc : BitVec 1} (hb : bc = 0 → B.scl = false) : { B with scl := B.scl && bc == 1 } = B := by
  have : (B.scl && bc == 1) = B.scl := by
    rcases BitVec.eq_zero_or_eq_one bc with rfl | rfl
    · simp [hb rfl]
    · simp
  rw [this]

theorem matrixRight_eq (B : Tile) (ftz : Bool) (bc : BitVec 1) (k j : Nat) :
    (List.range k).map (fun n => B.val ftz (if bc == 0 then (n, j) else (j, n)).1 (if bc == 0 then (n, j) else (j, n)).2)
      = matrixRight B ftz bc k j := by
  rcases BitVec.eq_zero_or_eq_one bc with rfl | rfl <;> rfl

/-- An element of a floating-point product, of one or more terms. -/
theorem productCell_float {A B : Tile} {C : Option Tile} {bc : BitVec 1} (g : Nat) (ftz : Bool) (hb : bc = 0 → B.scl = false)
    (h0 : A.cext ≠ 0) (i j : Nat) :
    productCell (.float g) ftz A B C bc i j =
      let as := matrixLeft A ftz i
      let bs := matrixRight B ftz bc A.cext j
      let cin := fp32.read ftz (accElem C i j).toNat
      let r := rne32Bits ftz (accumulate ftz g cin (List.zipWith FVal.mul as bs))
      ⟨BitVec.ofNat 32 r, cin.isFinite && as.all (·.isFinite) && bs.all (·.isFinite) && !(fp32.read false r).isFinite, false⟩ := by
  rw [← matrixRight_eq, matrixLeft]
  simp only [productCell, scl_and hb, beq_iff_eq, h0, if_false]
  rfl

theorem productCell_empty {A : Tile} (k : AccKind) (ftz : Bool) (B : Tile) (C : Option Tile) (bc : BitVec 1) (h0 : A.cext = 0) (i j : Nat) :
    productCell k ftz A B C bc i j = ⟨accElem C i j, false, false⟩ := by
  simp only [productCell, h0, beq_self_eq_true, if_true]
  rfl

/-- The integer of the accumulator. -/
def accInt (C : Option Tile) (i j : Nat) : Int := (C.map (fun c => c.int i j)).getD 0

/-- An exact integer element. -/
def intSum (A B : Tile) (C : Option Tile) (bc : BitVec 1) (i j : Nat) : Int :=
  accInt C i j + ((List.range A.cext).map (fun n => A.int i n * if bc = 0 then B.int n j else B.int j n)).sum

theorem productCell_int {A B : Tile} {C : Option Tile} {bc : BitVec 1} (ftz : Bool) (h0 : A.cext ≠ 0) (i j : Nat) :
    productCell .int ftz A B C bc i j = intResult 0x0C (intSum A B C bc i j) := by
  have hterm (n : Nat) : B.int (if bc = 0 then (n, j) else (j, n)).1 (if bc = 0 then (n, j) else (j, n)).2
      = if bc = 0 then B.int n j else B.int j n := by
    rcases BitVec.eq_zero_or_eq_one bc with rfl | rfl <;> rfl
  have hfold (l : List Int) (c : Int) : l.foldl (· + ·) c = c + l.sum := by
    induction l generalizing c with
    | nil => simp
    | cons a l ih => rw [List.foldl_cons, ih, List.sum_cons, add_assoc]
  simp only [productCell, beq_iff_eq, h0, if_false, intSum, hterm, hfold]
  rfl

/-- An element in s32 is the word that holds it. -/
theorem ofInt_intElem_s32 (w : Word32) : BitVec.ofInt 32 (intElem 0x0C w) = w ∧ ¬outside32 0x0C (intElem 0x0C w) := by
  have hval : intElem 0x0C w = w.toInt := by
    have := w.isLt
    have hw : widthOf 0x0C = 32 := rfl
    have hr : intRange 0x0C = some (-2 ^ 31, 2 ^ 31 - 1) := rfl
    rw [intElem, hw, hr, BitVec.toInt_eq_toNat_cond]
    simp only [Bool.and_eq_true, decide_eq_true_eq]
    split_ifs <;> omega
  rw [hval]
  have h1 := BitVec.toInt_lt (x := w)
  have h2 := BitVec.le_toInt (x := w)
  refine ⟨BitVec.ofInt_toInt, ?_⟩
  simp [outside32]
  omega

/-- The encoding of a floating-point element of one or more terms. -/
def floatSum (g : Nat) (ftz : Bool) (A B : Tile) (C : Option Tile) (bc : BitVec 1) (i j : Nat) : Nat :=
  rne32Bits ftz (accumulate ftz g (fp32.read ftz (accElem C i j).toNat)
    (List.zipWith FVal.mul (matrixLeft A ftz i) (matrixRight B ftz bc A.cext j)))

theorem productCell_float_bits {A B : Tile} {C : Option Tile} {bc : BitVec 1} (g : Nat) (ftz : Bool) (hb : bc = 0 → B.scl = false) (i j : Nat) :
    (productCell (.float g) ftz A B C bc i j).bits = (if A.cext = 0 then accElem C i j else BitVec.ofNat 32 (floatSum g ftz A B C bc i j))
    ∧ (productCell (.float g) ftz A B C bc i j).iov = false := by
  by_cases h0 : A.cext = 0
  · rw [productCell_empty _ _ _ _ _ h0, if_pos h0]
    exact ⟨rfl, rfl⟩
  · rw [productCell_float g ftz hb h0, if_neg h0]
    exact ⟨rfl, rfl⟩

theorem productCell_float_nf {A B : Tile} {C : Option Tile} {bc : BitVec 1} (g : Nat) (ftz : Bool) (hb : bc = 0 → B.scl = false) (i j : Nat) :
    (productCell (.float g) ftz A B C bc i j).nf = true ↔ A.cext ≠ 0 ∧ (fp32.read ftz (accElem C i j).toNat).isFinite = true
      ∧ (∀ x ∈ matrixLeft A ftz i ++ matrixRight B ftz bc A.cext j, x.isFinite = true)
      ∧ (fp32.read false (floatSum g ftz A B C bc i j)).isFinite = false := by
  by_cases h0 : A.cext = 0
  · simp [productCell_empty _ _ _ _ _ h0, h0]
  · rw [productCell_float g ftz hb h0]
    simp [h0, floatSum, or_imp, forall_and, and_assoc]

theorem productCell_int_fields {A : Tile} {C : Option Tile} {bc : BitVec 1} (ftz : Bool) (B : Tile) (hc : ∀ c, C = some c → c.fmt = 0x0C) (i j : Nat) :
    (productCell .int ftz A B C bc i j).bits = BitVec.ofInt 32 (intSum A B C bc i j)
    ∧ (productCell .int ftz A B C bc i j).nf = false
    ∧ ((productCell .int ftz A B C bc i j).iov = true ↔ outside32 0x0C (intSum A B C bc i j)) := by
  by_cases h0 : A.cext = 0
  · have hsum : intSum A B C bc i j = accInt C i j := by simp [intSum, h0]
    have hacc : BitVec.ofInt 32 (accInt C i j) = accElem C i j ∧ ¬outside32 0x0C (accInt C i j) := by
      cases C with
      | none => exact ⟨rfl, by simp [accInt, outside32]⟩
      | some c =>
        have : c.int i j = intElem 0x0C (c.elem i j) := by rw [Tile.int, hc c rfl]
        change BitVec.ofInt 32 (c.int i j) = c.elem i j ∧ ¬outside32 0x0C (c.int i j)
        rw [this]
        exact ofInt_intElem_s32 _
    rw [productCell_empty _ _ _ _ _ h0, hsum]
    exact ⟨hacc.1.symm, rfl, iff_of_false (by simp) hacc.2⟩
  · rw [productCell_int ftz h0]
    exact intResult_of_32 (.inr rfl) _

/-! The instructions. -/

theorem bRows_eq (A B : Tile) (bc : BitVec 1) : bRows A B bc = if bc = 0 then A.cext else widthIn B bc := by
  rcases BitVec.eq_zero_or_eq_one bc with rfl | rfl <;> rfl

theorem needMatrixRows {s : State} {a b : BitVec 4} {bc : BitVec 1} (ha : (s.t a).clean)
    (hb : ∀ n, n < (if bc = 0 then (s.t a).cext else widthIn (s.t b) bc) → (s.t b).bad n = false) {l : List Consumed}
    (hl : ∀ c ∈ l, ∀ i, i < c.rows → (s.t c.reg).bad i = false) :
    s.needClean (⟨a, 0, (s.t a).rext⟩ :: ⟨b, 1, bRows (s.t a) (s.t b) bc⟩ :: l) = .ok () := by
  refine State.needClean_ok fun c hc i hi => ?_
  rcases List.mem_cons.1 hc with rfl | hc
  · exact ha i hi
  · rcases List.mem_cons.1 hc with rfl | hc
    · exact hb i (bRows_eq .. ▸ hi)
    · exact hl c hc i hi

theorem product_completes {s : State} {d a b c : BitVec 4} {stk bc : BitVec 1} {acc : Bool} {k : AccKind}
    (hk : accKind (s.t a).fmt (s.t b).fmt = .ok k) (hshape : depthOf (s.t b) bc = (s.t a).cext) (hscl : bc = 0 → (s.t b).scl = false)
    (ha : (s.t a).clean) (hb : ∀ n, n < (if bc = 0 then (s.t a).cext else widthIn (s.t b) bc) → (s.t b).bad n = false)
    (hc : acc = true → ∀ n, n < (s.t a).rext → (s.t c).bad n = false) (hfit : acc = true → (s.t c).fmt = k.fmt) :
    Completes (if acc then .mma d a b c stk bc else .mmz d a b stk bc) s
      (s.product d k (s.t a) (s.t b) (if acc then some (s.t c) else none) bc) true := by
  cases acc with
  | true =>
    change execMma d a b c stk bc s = _
    rw [execMma]
    simp only [needMatrixFormats_ok hk hscl (C := some (s.t c)) (by simp [accFits, hfit rfl]), needK_ok hshape, run_ok_bind,
      needMatrixRows ha hb (l := [⟨c, 2, (s.t a).rext⟩]) (by simpa using hc rfl)]
    rfl
  | false =>
    change execMmz d a b stk bc s = _
    rw [execMmz]
    simp only [needMatrixFormats_ok hk hscl (C := none) rfl, needK_ok hshape, run_ok_bind, needMatrixRows ha hb (l := []) (by simp)]
    rfl

/-- What a product writes. -/
theorem product_setsT (s : State) (d : BitVec 4) (k : AccKind) (A B : Tile) (C : Option Tile) (bc : BitVec 1) :
    SetsT s (s.product d k A B C bc) d (Tile.build k.fmt A.rext (widthIn B bc) (fun i j => (productCell k s.k.ftz A B C bc i j).bits))
      (anyNf (flaggedRows A.rext (widthIn B bc) (productCell k s.k.ftz A B C bc)))
      (anyIov (flaggedRows A.rext (widthIn B bc) (productCell k s.k.ftz A B C bc))) := by
  rw [State.product, bShape_eq]
  exact SetsT.of_writeFlagged ..

/-- Settles O28, by the element of a floating-point and of an integer product. -/
theorem matrixResults : Obligations.MatrixResults := by
  intro s d a b c stk bc acc i A B C hshape hscl ha hb hc
  constructor
  · intro hfa hfb hfc cin out
    have hcin : accElem (if acc then some C else none) = cin := by
      cases acc <;> rfl
    have hout : floatSum (matrixGroup A.fmt B.fmt) s.k.ftz A B (if acc then some C else none) bc = out := by
      cases acc <;> rfl
    have hbits := productCell_float_bits (A := A) (C := if acc then some C else none) (matrixGroup A.fmt B.fmt) s.k.ftz hscl
    have hiov := anyIov_eq_false (r := A.rext) (c := widthIn B bc) fun r n => (hbits r n).2
    refine ⟨_, _, _, product_completes (accKind_float hfa hfb) hshape hscl ha hb hc hfc, hiov ▸ product_setsT .., ?_, ?_⟩
    · simp only [(hbits _ _).1, hcin, hout]
      exact IsResult.of_build ..
    · rw [anyNf_flaggedRows]
      simp only [productCell_float_nf _ _ hscl, hcin, hout]
  · intro hfa hfb hfc
    have hcell := productCell_int_fields (A := A) (C := if acc then some C else none) (bc := bc) s.k.ftz B (by
      cases acc with
      | true => exact fun c h => Option.some.inj h ▸ hfc rfl
      | false => exact fun c h => nomatch h)
    have hsum : intSum A B (if acc then some C else none) bc = matrixSum A B C acc bc := by
      cases acc <;> rfl
    rw [hsum] at hcell
    have hnf := anyNf_eq_false (r := A.rext) (c := widthIn B bc) fun r n => (hcell r n).2.1
    refine ⟨_, _, _, product_completes (accKind_int hfa hfb) hshape hscl ha hb hc hfc, hnf ▸ product_setsT .., ?_, ?_⟩
    · simp only [(hcell _ _).1]
      exact IsResult.of_build ..
    · rw [anyIov_flaggedRows]
      simp only [(hcell _ _).2.2]

end Sys2Proof.Machine
end

section
/-! The performance of retired stores leaves the unit's registers (01 R27). -/

namespace Sys2Proof.Machine

/-- Two states whose unit is the same. -/
structure SameUnit (s t : State) : Prop where
  unit : t.core.unit = s.core.unit

theorem SameUnit.refl (s : State) : SameUnit s s := ⟨rfl⟩

theorem SameUnit.trans {s t u : State} (h : SameUnit s t) (k : SameUnit t u) : SameUnit s u := ⟨k.unit.trans h.unit⟩

theorem MemOnly.sameUnit {s t : State} (h : MemOnly s t) : SameUnit s t := ⟨h.unit⟩

theorem SameUnit.foldl {α : Type} (f : State → α → State) (hf : ∀ s a, SameUnit s (f s a)) (l : List α) (s : State) :
    SameUnit s (l.foldl f s) := by
  induction l generalizing s with
  | nil => exact SameUnit.refl s
  | cons a r ih => exact (hf s a).trans (ih _)

theorem SameUnit.t {s t : State} (h : SameUnit s t) (r : BitVec 4) : t.t r = s.t r := by rw [State.t, State.t, h.unit]
theorem SameUnit.k {s t : State} (h : SameUnit s t) : t.k = s.k := by rw [State.k, State.k, h.unit]

/-! Writes. -/

theorem dropLines_memOnly (ls : List Nat) (s : State) : MemOnly s (ls.foldl State.dropLine s) :=
  MemOnly.foldl State.dropLine (fun t l => (writeBackLine_memOnly t l).trans ⟨rfl, rfl⟩) ls s

theorem ownHomeStore_memOnly' (s : State) (pa : Nat) (bs : List Byte) : MemOnly s (s.ownHomeStore pa bs) := by
  obtain ⟨d, hd, hr⟩ := rawWrite_eq ((linesOf pa bs.length).foldl State.dropLine s) pa bs
  refine (dropLines_memOnly (linesOf pa bs.length) s).trans ((MemOnly.of_dev hd).trans ?_)
  simp only [State.ownHomeStore, hr]
  exact ⟨rfl, rfl⟩

theorem ownHomeWrite_memOnly (s : State) (pa : Nat) (bs : List Byte) : MemOnly s (s.ownHomeWrite pa bs) :=
  MemOnly.foldl (fun t (w : Nat × List Byte) => t.ownHomeStore w.1 w.2) (fun t w => ownHomeStore_memOnly' t w.1 w.2) _ s

theorem memWriteLine_memOnly (s : State) (l : Nat) (cells : List Host.Cell) : MemOnly s (s.memWriteLine l cells) := by
  unfold State.memWriteLine
  split <;> exact ⟨rfl, rfl⟩

theorem memWrite_memOnly (s : State) (pa : Nat) (bs : List Byte) : MemOnly s (s.memWrite pa bs) :=
  (MemOnly.of_dev (d := s.dev.written pa bs.length) rfl).trans
    (MemOnly.foldl (fun t l => t.memWriteLine l ((cellsFrom pa bs).filter (fun c => lineOf c.1 == l)))
      (fun t l => memWriteLine_memOnly t l _) _ _)

theorem performWrite_memOnly (s : State) (cached : Bool) (w : Nat × List Byte) (hint : BitVec 2) : MemOnly s (s.performWrite cached w hint) := by
  unfold State.performWrite
  split
  · exact homeWrite_memOnly ..
  · cases cached with
    | false => exact MemOnly.foldl (fun t (w : Nat × List Byte) => t.memWrite w.1 w.2) (fun t w => memWrite_memOnly t w.1 w.2) _ s
    | true => exact MemOnly.foldl (fun t (w : Nat × List Byte) => t.cacheWrite w.1 w.2 hint) (fun t w => cacheWrite_memOnly t w.1 w.2 hint) _ s

/-- Bytes of a store that are written one stretch after another. -/
theorem performWrites_memOnly (cached : Bool) (hint : BitVec 2) (l : List (Nat × List Byte)) (s : State) :
    MemOnly s (l.foldl (fun s w => s.performWrite cached w hint) s) :=
  MemOnly.foldl (fun t (w : Nat × List Byte) => t.performWrite cached w hint) (fun t w => performWrite_memOnly t cached w hint) l s

theorem markL1_memOnly (s : State) (gs : List Nat) : MemOnly s (s.markL1 gs) := ⟨rfl, rfl⟩

theorem releaseCache_memOnly (s : State) (scope : BitVec 2) : MemOnly s (s.releaseCache scope) := by
  unfold State.releaseCache
  split
  · exact writeBackLines_memOnly _ s
  · exact MemOnly.refl s

theorem recordWrite_memOnly (s : State) (pa : Nat) (bs : List Byte) : MemOnly s (s.recordWrite pa bs) := by
  unfold State.recordWrite
  split
  · exact homeWrite_memOnly ..
  · exact MemOnly.refl s

/-! Records. -/

theorem modPart_sameUnit (s : State) (p : BitVec 3) (f : Part → Part) : SameUnit s (s.modPart p f) := ⟨rfl⟩

theorem putFault_sameUnit (s : State) (p : BitVec 3) (ws : List Word64) : SameUnit s (s.putFault p ws) :=
  (recordWrite_memOnly ..).sameUnit.trans ⟨rfl⟩

theorem faultRecord_sameUnit (s : State) (p : BitVec 3) (ws : List Word64) : SameUnit s (s.faultRecord p ws) := by
  unfold State.faultRecord
  dsimp only
  split
  · exact putFault_sameUnit ..
  · exact modPart_sameUnit ..

theorem faultLog_sameUnit (s : State) (p : BitVec 3) (type : Nat) (cause : BitVec 6) (inFetch nested : Bool) (pl : BitVec 2) (core : BitVec 7)
    (task launch : BitVec 32) (epc : BitVec 56) (tval repst : Word64) (paddr : Nat) :
    SameUnit s (s.faultLog p type cause inFetch nested pl core task launch epc tval repst paddr) :=
  (faultRecord_sameUnit ..).trans ⟨rfl⟩

theorem postedError_sameUnit (s : State) (p : BitVec 3) (cause : Cause) (task launch : BitVec 32) (tval : Word64) (paddr : Nat) :
    SameUnit s (s.postedError p cause task launch tval paddr) := faultLog_sameUnit ..

theorem logEntry_sameUnit (s : State) (q : Nat) (e : List Byte) : SameUnit s (s.logEntry q e) := by
  unfold State.logEntry
  split <;> exact ⟨rfl⟩

/-! Performance. -/

theorem applyAred_sameUnit (s : State) (e : SbEntry) (op : BitVec 4) (n : Nat) (operand : Word64) (pa : Nat) :
    SameUnit s (s.applyAred e op n operand pa) := by
  unfold State.applyAred
  refine (dropLines_memOnly (linesOf pa n) s).sameUnit.trans ?_
  dsimp only
  split
  · exact (logEntry_sameUnit ..).trans (postedError_sameUnit ..)
  · exact (ownHomeWrite_memOnly ..).sameUnit.trans ⟨rfl⟩

theorem writeLeaf_memOnly (s : State) (e : SbEntry) (rg : BitVec 4) (root : BitVec 128) (depth j off : Nat) :
    MemOnly s (s.writeLeaf e rg root depth j off) := by
  unfold State.writeLeaf
  refine MemOnly.trans (MemOnly.foldl (fun t (p : Nat × Nat × Nat) =>
    t.performWrite true (p.1, ((s.leafBytes (s.leafFrom rg depth root j)).drop p.2.1).take p.2.2))
    (fun t p => performWrite_memOnly t true _ 0) _ s) (markL1_memOnly ..)

/-- A release before a store's own effect. -/
theorem releaseIf_sameUnit (b : Bool) (s : State) (scope : BitVec 2) : SameUnit s (if b then s.releaseCache scope else s) := by
  split
  · exact (releaseCache_memOnly s scope).sameUnit
  · exact SameUnit.refl s

/-- A remote write leaves for its peer, or is dropped with a record (16 R426, R427). -/
theorem sendWrite_sameUnit (t : State) (e : SbEntry) :
    SameUnit t (if e.writes.any (fun w => t.cutOff w.1) then t.postedError e.part .machineCheck e.task e.launch (BitVec.ofNat 64 e.va) 0
      else { t with core.unacked := t.core.unacked ++ [e] }) := by
  split
  · exact postedError_sameUnit ..
  · exact ⟨rfl⟩

theorem performEntry_sameUnit (s : State) (e : SbEntry) : SameUnit s (s.performEntry e) := by
  unfold State.performEntry
  cases e.kind with
  | scalar => exact (((performWrites_memOnly true ..).trans (performWrites_memOnly false 0 ..)).trans (markL1_memOnly ..)).sameUnit
  | tile => exact (((performWrites_memOnly true ..).trans (performWrites_memOnly false 0 ..)).trans (markL1_memOnly ..)).sameUnit
  | release scope =>
    refine ((releaseCache_memOnly s scope).trans (MemOnly.trans ?_ (performWrites_memOnly false 0 ..))).sameUnit
    split
    · exact MemOnly.foldl (fun t (w : Nat × List Byte) => t.ownHomeWrite w.1 w.2) (fun t w => ownHomeWrite_memOnly t w.1 w.2) _ _
    · exact performWrites_memOnly true 0 ..
  | ared op n operand rel scope =>
    refine (releaseIf_sameUnit rel s scope).trans ?_
    cases e.writes with
    | nil => exact SameUnit.refl _
    | cons w ws => exact applyAred_sameUnit ..
  | rput rel =>
    exact (releaseIf_sameUnit rel s 3).trans (sendWrite_sameUnit _ e)
  | bout rg root depth first count =>
    exact (MemOnly.foldl (fun t i => t.writeLeaf e rg root depth (first + i) (blockSize * i)) (fun t i => writeLeaf_memOnly ..) _ s).sameUnit.trans ⟨rfl⟩

theorem drainOne_sameUnit (s : State) : SameUnit s s.drainOne := by
  unfold State.drainOne
  cases s.core.sb with
  | nil => exact SameUnit.refl s
  | cons e r =>
    dsimp only
    split
    · exact SameUnit.refl s
    · exact SameUnit.trans (t := { s with core.sb := r }) ⟨rfl⟩ (performEntry_sameUnit ..)

theorem drainN_sameUnit (n : Nat) (s : State) : SameUnit s (s.drainN n) := by
  induction n generalizing s with
  | zero => exact SameUnit.refl s
  | succ n ih => exact (drainOne_sameUnit s).trans (ih s.drainOne)

theorem settleIf_sameUnit {s t : State} {before : SbEntry → Bool} (h : s.settleIf before = .ok t) : SameUnit s t := by
  unfold State.settleIf at h
  dsimp only at h
  split at h
  · cases h
  · cases h
    exact drainN_sameUnit ..

theorem settleAll_sameUnit {s t : State} (h : s.settleAll = .ok t) : SameUnit s t := by
  unfold State.settleAll at h
  dsimp only at h
  split at h
  · cases h
    exact drainN_sameUnit ..
  · cases h

theorem settle_sameUnit {s t : State} {va n : Nat} {rs : List Run} (h : s.settle va n rs = .ok t) : SameUnit s t := settleIf_sameUnit h

/-! What reading leaves behind. -/

theorem touchAll_memOnly (s : State) (acc : Access) (m : XMap) : MemOnly s (s.touchAll acc m) :=
  MemOnly.foldl (fun t (e : Nat × Xl) => t.touch acc (e.1 * 4096) e.2) (fun t e => touch_memOnly t acc _ _) m s

theorem readTouch_memOnly (s : State) (m : XMap) (ranges : List (Nat × Nat)) (hint : BitVec 2) : MemOnly s (s.readTouch m ranges hint) :=
  (touchAll_memOnly s .read m).trans
    (MemOnly.foldl (fun t (r : Nat × Nat) => (m.runs r.1 r.2).foldl (fun t q => t.fillLines q.pa q.len hint) t)
      (fun t r => MemOnly.foldl (fun t (q : Run) => t.fillLines q.pa q.len hint) (fun t q => (fillLines_filled t q.pa q.len hint).rest) _ t) _ _)

theorem gather_sameUnit {s t : State} {p sh : Word64} {ti : Tile} {mr mc : Nat} {hint : BitVec 2} {rows : List RowData}
    (h : s.gather p sh ti mr mc hint = .ok (rows, t)) : SameUnit s t := by
  unfold State.gather at h
  obtain ⟨-, -, h⟩ := run_bind_ok.1 h
  dsimp only at h
  split at h
  · cases h
  · obtain ⟨m, -, h⟩ := run_bind_ok.1 h
    split at h
    · obtain ⟨u, hu, h⟩ := run_bind_ok.1 h
      cases h
      exact (settleAll_sameUnit hu).trans (readTouch_memOnly ..).sameUnit
    · obtain ⟨u, hu, h⟩ := run_bind_ok.1 h
      cases h
      exact (settle_sameUnit hu).trans (readTouch_memOnly ..).sameUnit

end Sys2Proof.Machine
end
section
/-! The gathered product (06 R160 to R162). -/

namespace Sys2Proof.Machine

theorem needGather_ok {p : Word64} {mc : Nat} {ti : Tile} (ht : tagOk p = true) (hb : ptrBlock p = 16 → mc ≤ 16)
    (hf : isFloatCode (ptrFmt p) = true ∨ ptrFmt p ∈ [0x09#5, 0x0A#5, 0x0D#5]) (hi : isIntCode ti.fmt = true) : needGather p mc ti = .ok () := by
  have htag : (tagOk p && !(ptrBlock p == 16 && decide (16 < mc))) = true := by
    simpa [ht, ← imp_iff_not_or] using hb
  have hfmt : (!(ptrFmt p == 0x0E || ptrFmt p == 0x0C || ptrFmt p == 0x0F)) = true ∧ (!(ptrFmt p == 0 || ptrFmt p == xe4)) = true := by
    generalize ptrFmt p = f at hf
    revert f
    decide
  have hindex : indexFormat ti.fmt = true := hi
  simp only [needGather, htag, hfmt.1, hfmt.2, hindex, need, if_true, run_ok_bind]

theorem needGathered_ok {A : Tile} (h : A.clean) : needGathered A = .ok () := by
  have : (List.range A.rext).find? A.bad = none := by
    rw [List.find?_eq_none]
    intro i hi
    simp [h i (List.mem_range.1 hi)]
  rw [needGathered, this]

theorem needIndex_ok {s : State} {ti : BitVec 4} {mr : Nat} (h : mr ≠ 0 → (s.t ti).bad 0 = false) : s.needIndex ti mr = .ok () := by
  rw [State.needIndex, if_neg]
  intro hbad
  simp only [Bool.and_eq_true, bne_iff_ne, ne_eq] at hbad
  simp [h hbad.1] at hbad

theorem mmg_completes {s t : State} {d ti b c : BitVec 4} {stk bc : BitVec 1} {hint : BitVec 2} {xp : BitVec 5} {rows : List RowData}
    {p sh : Word64} {A : Tile} {k : AccKind} (hp : s.x xp = p) (hsh : s.x (xp + 1) = sh)
    (hplace : placeRows (ptrFmt p) (ptrBlock p != 0) false (shRows sh) (shCols sh) rows none = A) (htag : tagOk p = true)
    (hblock : ptrBlock p = 16 → shCols sh ≤ 16) (hindex : isIntCode (s.t ti).fmt = true) (hrows : shRows sh ≤ 32) (hcols : shCols sh ≤ 32)
    (hshape : depthOf (s.t b) bc = shCols sh) (hscl : bc = 0 → (s.t b).scl = false)
    (hgather : s.gather p sh (s.t ti) (shRows sh) (shCols sh) hint = .ok (rows, t)) (hA : A.clean) (hti : shRows sh ≠ 0 → (s.t ti).bad 0 = false)
    (hB : ∀ n, n < (if bc = 0 then A.cext else widthIn (s.t b) bc) → (s.t b).bad n = false) (hC : ∀ n, n < A.rext → (s.t c).bad n = false)
    (hk : accKind (ptrFmt p) (s.t b).fmt = .ok k) (hfa : isFloatCode (ptrFmt p) = true ∨ ptrFmt p ∈ [0x09#5, 0x0A#5, 0x0D#5])
    (hfc : (s.t c).fmt = k.fmt) : Completes (.mmg d ti b c stk bc hint xp) s (t.product d k A (s.t b) (some (s.t c)) bc) true := by
  change execMmg d ti b c stk bc hint xp s = _
  have hformats : needMatrixFormats { Tile.null with fmt := ptrFmt p } (s.t b) (some (s.t c)) bc = .ok k :=
    needMatrixFormats_ok hk hscl (by simp [accFits, hfc])
  have hneedK : needK { Tile.null with cext := shCols sh } (s.t b) bc = .ok () := needK_ok hshape
  have hsize : (decide (shRows sh ≤ 32) && decide (shCols sh ≤ 32)) = true := by simp [hrows, hcols]
  have hclean : s.needClean [⟨b, 1, bRows A (s.t b) bc⟩, ⟨c, 2, A.rext⟩] = .ok () := by
    refine State.needClean_ok fun x hx i hi => ?_
    rcases List.mem_cons.1 hx with rfl | hx
    · exact hB i (bRows_eq A (s.t b) bc ▸ hi)
    · obtain rfl := List.mem_singleton.1 hx
      exact hC i hi
  have hext : A.rext = shRows sh := hplace ▸ rfl
  have hindexed : s.needIndex ti A.rext = .ok () := needIndex_ok fun h => hti (hext ▸ h)
  rw [execMmg]
  simp only [hp, hsh, needGather_ok htag hblock hfa hindex, hformats, hneedK, hsize, need, if_true, hgather, hplace, needGathered_ok hA, hclean,
    hindexed, run_ok_bind]
  rfl

/-- Settles O29: both give the product of the same tiles, over the state that the gather leaves. -/
theorem gatheredProduct : Obligations.GatheredProduct := by
  intro s t d ti b c stk bc hint xp rows p sh A htag hblock hindex hrows hcols hshape hscl hgather hA hti hB hC hfmt
  obtain ⟨k, hk, hfa, hfc⟩ : ∃ k, accKind A.fmt (s.t b).fmt = .ok k ∧ (isFloatCode A.fmt = true ∨ A.fmt ∈ [0x09#5, 0x0A#5, 0x0D#5])
      ∧ (s.t c).fmt = k.fmt := by
    rcases hfmt with ⟨ha, hb, hc⟩ | ⟨ha, hb, hc⟩
    · exact ⟨_, accKind_float ha hb, .inl ha, hc⟩
    · exact ⟨_, accKind_int ha hb, .inr ha, hc⟩
  have hunit := gather_sameUnit hgather
  have hcompletes := mmg_completes rfl rfl rfl htag hblock hindex hrows hcols hshape hscl hgather hA hti hB hC hk hfa hfc
    (d := d) (stk := stk) (A := A)
  refine ⟨_, _, _, _, hcompletes, product_setsT .., fun a hab hac => ?_⟩
  have hb : (t.setT a A).t b = s.t b := by rw [State.setT_t, if_neg hab.symm, hunit.t]
  have hc : (t.setT a A).t c = s.t c := by rw [State.setT_t, if_neg hac.symm, hunit.t]
  have ha : (t.setT a A).t a = A := State.setT_self ..
  have hmma := product_completes (s := t.setT a A) (d := d) (a := a) (b := b) (c := c) (stk := stk) (bc := bc) (acc := true) (k := k)
    (by rw [ha, hb]; exact hk) (by rw [ha, hb]; exact hshape) (by rw [hb]; exact hscl) (by rw [ha]; exact hA) (by rw [ha, hb]; exact hB)
    (by rw [ha, hc]; exact fun _ => hC) (by rw [hc]; exact fun _ => hfc)
  rw [ha, hb, if_pos rfl, hc, if_pos rfl] at hmma
  have hset := product_setsT (t.setT a A) d k A (s.t b) (some (s.t c)) bc
  exact ⟨_, hmma, hset.dest, hset.sticky.trans (product_setsT t d k A (s.t b) (some (s.t c)) bc).sticky.symm⟩

end Sys2Proof.Machine
end

section
/-! The weight update (06 R163 to R165): each of its operations is rounded once. -/

namespace Sys2Proof.Machine

/-! Rounding a rounded value. -/

/-- Under ftz a result rounds as without, unless it is subnormal (02 R61). -/
theorem round32_ftz {v : FVal} (h : 2 ^ 23 ≤ (fp32.round .rne false false v).bits % 2 ^ 31) :
    fp32.round .rne false true v = fp32.round .rne false false v := by
  rcases v with _ | s | ⟨s, m, e⟩
  · rfl
  · rfl
  · have hsign : fp32.signBit s % 2 ^ 31 = 0 := by cases s <;> rfl
    have hmax : fp32.maxFinite < 2 ^ 31 := by decide
    have hM : (2 : Nat) ^ fp32.M = 2 ^ 23 := rfl
    have happ : fp32.ftzApplies = true := rfl
    unfold FFmt.round at h ⊢
    dsimp only at h ⊢
    simp only [happ, hM, Bool.false_and, Bool.true_and, Bool.false_eq_true, if_false, decide_eq_true_eq] at h ⊢
    generalize (if unitRound .rne s m e _ < 2 ^ 23 then _ else _ : Nat) = mag at h ⊢
    split_ifs at h ⊢ with h1 h2 h3
    · rfl
    · rfl
    · simp only at h
      omega
    · rfl

/-- What a finite value rounds to: an infinity, a zero, or an encoding that is not subnormal under ftz. -/
theorem round32_cases (ftz s : Bool) (m : Nat) (e : Int) :
    (fp32.round .rne false ftz (.fin s m e)).bits = fp32.infBits s ∨ (fp32.round .rne false ftz (.fin s m e)).bits = fp32.signBit s
    ∨ ∃ mag, mag ≤ fp32.maxFinite ∧ (fp32.round .rne false ftz (.fin s m e)).bits = fp32.signBit s + mag ∧ (ftz = true → 2 ^ 23 ≤ mag) := by
  have hM : (2 : Nat) ^ fp32.M = 2 ^ 23 := rfl
  have happ : fp32.ftzApplies = true := rfl
  unfold FFmt.round
  dsimp only
  rw [happ, Bool.and_true, hM]
  generalize (if unitRound .rne s m e _ < 2 ^ 23 then _ else _ : Nat) = mag
  split_ifs with h1 h2 h3
  · exact .inr (.inl rfl)
  · exact .inl rfl
  · exact .inr (.inl rfl)
  · exact .inr (.inr ⟨mag, by omega, rfl, fun hftz => by simpa [hftz] using h3⟩)

theorem rounded32_infBits (ftz s : Bool) : rounded32 ftz (fp32.read false (BitVec.ofNat 32 (fp32.infBits s)).toNat) = BitVec.ofNat 32 (fp32.infBits s) := by
  revert ftz s
  decide

theorem rounded32_signBit (ftz s : Bool) : rounded32 ftz (fp32.read false (BitVec.ofNat 32 (fp32.signBit s)).toNat) = BitVec.ofNat 32 (fp32.signBit s) := by
  revert ftz s
  decide

theorem toNat_rounded32 (ftz : Bool) (x : FVal) : (rounded32 ftz x).toNat = (fp32.round .rne false ftz x).bits := by
  rw [rounded32, BitVec.toNat_ofNat]
  exact Nat.mod_eq_of_lt (FFmt.round_bits_lt fp32_ok ..)

/-- What has been rounded once is not changed by rounding it again. -/
theorem rounded32_read (ftz : Bool) (x : FVal) : rounded32 ftz (fp32.read false (rounded32 ftz x).toNat) = rounded32 ftz x := by
  rcases x with _ | s | ⟨s, m, e⟩
  · rw [rounded32_nan]
    cases ftz <;> decide
  · rw [rounded32_inf]
    cases ftz <;> cases s <;> decide
  · rcases round32_cases ftz s m e with h | h | ⟨mag, hle, h, hftz⟩
    · have hx : rounded32 ftz (.fin s m e) = BitVec.ofNat 32 (fp32.infBits s) := by rw [rounded32, h]
      rw [hx, rounded32_infBits]
    · have hx : rounded32 ftz (.fin s m e) = BitVec.ofNat 32 (fp32.signBit s) := by rw [rounded32, h]
      rw [hx, rounded32_signBit]
    · have hlt := hle.trans_lt (FFmt.maxFinite_lt fp32_ok)
      have hround : fp32.round .rne false false (fp32.readMag false s mag) = ⟨fp32.signBit s + mag, false⟩ := FFmt.round_readMag fp32_ok hle ..
      rw [toNat_rounded32, h, FFmt.read_signBit_add hlt, rounded32, rounded32, h]
      cases ftz with
      | false => rw [hround]
      | true =>
        have hsign : fp32.signBit s % 2 ^ 31 = 0 := by cases s <;> rfl
        have hmod : mag < 2 ^ 31 := hlt
        rw [round32_ftz, hround]
        rw [hround]
        have := hftz rfl
        simp only
        omega

/-! The elements. -/

/-- A value rounded once, read back. -/
theorem rne32_eq (ftz : Bool) (x : FVal) : rne32 ftz x = fp32.read false (rounded32 ftz x).toNat := by
  rw [rne32, rne32Bits, toNat_rounded32]

theorem rounded32_rne32 (ftz : Bool) (x : FVal) : rounded32 ftz (rne32 ftz x) = rounded32 ftz x := by
  rw [rne32_eq, rounded32_read]

/-- The encoding that a weight takes: w - u / q, rounded once (06 R164, R165). -/
def newWeight (ftz : Bool) (w u q : FVal) : Word32 :=
  rounded32 ftz (if q.isZero then
    rne32 ftz (FVal.add false w (if u.isZero then FVal.nan else (if q.isZero && !u.isZero && !u.isNan then FVal.inf u.sign else u).neg))
    else subQuotient ftz w u q)

theorem exists_fin {x : FVal} (h : x.isFinite = true) : ∃ s m e, x = .fin s m e := by
  rcases x with _ | s | ⟨s, m, e⟩
  · cases h
  · cases h
  · exact ⟨s, m, e, rfl⟩

theorem rounded32_of_zero (ftz s : Bool) (e : Int) : rounded32 ftz (.fin s 0 e) = if s then 0x80000000 else 0 := by
  have h : fp32.round .rne false ftz (.fin s 0 e) = fp32.round .rne false ftz (.fin s 0 0) := by
    simp only [FFmt.round, beq_self_eq_true, if_true]
  rw [rounded32, h]
  exact rounded32_zero ftz s

theorem newWeight_of_quotient {w u q : FVal} (ftz : Bool) (h0 : q.isZero = false) : newWeight ftz w u q = rounded32 ftz (subQuotient ftz w u q) := by
  rw [newWeight, h0, if_neg (by simp)]

theorem newWeight_quotient {ftz : Bool} {w u q : FVal} (hw : w.isFinite = true) (hu : u.isFinite = true) (hq : q.isFinite = true)
    (h0 : q.isZero = false) (hnum : (FVal.add false (FVal.mul w q) u.neg).isZero = false) :
    newWeight ftz w u q = rounded32 ftz (FVal.div (FVal.add false (FVal.mul w q) u.neg) q) := by
  obtain ⟨sw, mw, ew, rfl⟩ := exists_fin hw
  obtain ⟨su, mu, eu, rfl⟩ := exists_fin hu
  obtain ⟨sq, mq, eq, rfl⟩ := exists_fin hq
  have hmq : (mq == 0) = false := h0
  rw [newWeight_of_quotient ftz h0, subQuotient]
  simp only [hmq, hnum, Bool.false_eq_true, if_false, rounded32_rne32]

/-- A product that equals a zero has a zero factor. -/
theorem mantissa_eq_zero {sw su sq : Bool} {mw mq : Nat} {ew eu eq : Int} (hq : mq ≠ 0)
    (h : (FVal.add false (FVal.mul (.fin sw mw ew) (.fin sq mq eq)) (FVal.fin su 0 eu).neg).isZero = true) : mw = 0 := by
  simp only [FVal.mul, FVal.neg, FVal.add, FVal.ofSigned] at h
  split at h
  · next hsum =>
    have hzero (b : Bool) : FVal.signed b (0 * 2 ^ (eu - min (ew + eq) eu).toNat) = 0 := by cases b <;> simp [FVal.signed]
    rw [hzero, add_zero, beq_iff_eq] at hsum
    have hprod : mw * mq * 2 ^ (ew + eq - min (ew + eq) eu).toNat = 0 := by
      cases h : sw != sq <;> rw [h] at hsum <;> simpa [FVal.signed] using hsum
    simpa [hq] using hprod
  · next hsum =>
    exact absurd (by simpa [FVal.isZero] using h) (by simpa using hsum)

theorem newWeight_difference {ftz : Bool} {w u q : FVal} (hw : w.isFinite = true) (hu : u.isFinite = true) (hq : q.isFinite = true)
    (h0 : q.isZero = false) (hnum : (FVal.add false (FVal.mul w q) u.neg).isZero = true) :
    newWeight ftz w u q = if u.isZero = true ∧ w.sign = true ∧ u.sign = q.sign then 0x80000000 else 0 := by
  obtain ⟨sw, mw, ew, rfl⟩ := exists_fin hw
  obtain ⟨su, mu, eu, rfl⟩ := exists_fin hu
  obtain ⟨sq, mq, eq, rfl⟩ := exists_fin hq
  have hmq : (mq == 0) = false := h0
  rw [newWeight_of_quotient ftz h0, subQuotient]
  simp only [hmq, hnum, Bool.false_eq_true, if_false, if_true]
  by_cases hmu : mu = 0
  · subst hmu
    obtain rfl := mantissa_eq_zero (by simpa using hmq) hnum
    have hadd : FVal.add false (.fin sw 0 ew) (FVal.fin (su != sq) 0 0).neg = .fin (sw && su == sq) 0 (min ew 0) := by
      cases sw <;> cases su <;> cases sq <;> simp [FVal.add, FVal.neg, FVal.ofSigned, FVal.signed]
    rw [if_pos (by rfl), hadd, rounded32_rne32, rounded32_of_zero]
    simp [FVal.isZero, FVal.sign]
  · rw [if_neg (by simpa using hmu), rounded32_of_zero, if_neg (by simp), if_neg (by simp [FVal.isZero, hmu])]

theorem newWeight_notFinite {ftz : Bool} {w u q : FVal} (h0 : q.isZero = false)
    (h : w.isFinite = false ∨ u.isFinite = false ∨ q.isFinite = false) :
    newWeight ftz w u q = rounded32 ftz (FVal.add false w (FVal.div u q).neg) := by
  rw [newWeight_of_quotient ftz h0]
  unfold subQuotient
  split
  · simp [FVal.isFinite] at h
  · exact rounded32_rne32 ..

theorem newWeight_zeroByZero {ftz : Bool} {u q : FVal} (w : FVal) (h0 : q.isZero = true) (hu : u.isZero = true ∨ u.isNan = true) :
    newWeight ftz w u q = 0x7FC00000 := by
  have hadd : FVal.add false w .nan = .nan := by cases w <;> rfl
  rw [newWeight, if_pos h0, rounded32_rne32, ← rounded32_nan ftz]
  rcases hu with hu | hu
  · rw [if_pos hu, hadd]
  · obtain rfl := FVal.isNan_iff.1 hu
    simp [FVal.isNan, FVal.isZero, FVal.neg, hadd]

theorem newWeight_byZero {ftz : Bool} {u q : FVal} (w : FVal) (h0 : q.isZero = true) (hu : u.isZero = false) (hn : u.isNan = false) :
    newWeight ftz w u q = rounded32 ftz (FVal.add false w (.inf (!u.sign))) := by
  simp [newWeight, h0, hu, hn, rounded32_rne32, FVal.neg]

/-! The instruction. -/

/-- One output of an element, with its flag: what the element's formula gives, fed by scalars and by tiles (06 R164). -/
def tadwCell (s : State) (d a b c : BitVec 4) (xh : BitVec 5) (part : FVal × FVal × FVal → FVal) (scalars : List FVal) (tiles : List Tile)
    (i j : Nat) : Flagged :=
  floatResult fp32 s.k.ftz (scalars.all (·.isFinite) && tiles.all (fun x => (x.val s.k.ftz i j).isFinite))
    (part (tadwElem s.k.ftz (tadwScalars s.k.ftz (s.x xh) (s.x (xh + 1))) ((s.t d).val s.k.ftz i j) ((s.t a).val s.k.ftz i j)
      ((s.t b).val s.k.ftz i j) ((s.t c).val s.k.ftz i j)))

theorem needTadwShape_ok {g : Tile} {l : List (BitVec 4 × Tile)} (h : ∀ e ∈ l, e.2.rext = g.rext ∧ e.2.cext = g.cext) :
    needTadwShape g l = .ok () := by
  induction l with
  | nil => rfl
  | cons e l ih =>
    have he : (e.2.rext == g.rext && e.2.cext == g.cext) = true := by simp [h e (by simp)]
    rw [needTadwShape, he, ih fun e he => h e (by simp [he])]
    rfl

theorem tadw_completes {s : State} {d a b c : BitVec 4} (xh : BitVec 5)
    (hg : ((s.t a).fmt = 1 ∨ (s.t a).fmt = 2 ∨ (s.t a).fmt = 3) ∧ (s.t a).scl = false ∧ (s.t a).clean)
    (hr : ∀ r ∈ [d, b, c], (s.t r).fmt = 1 ∧ (s.t r).rext = (s.t a).rext ∧ (s.t r).cext = (s.t a).cext ∧ (s.t r).clean) :
    let K := tadwScalars s.k.ftz (s.x xh) (s.x (xh + 1))
    let out := fun part scalars tiles => flaggedRows (s.t a).rext (s.t a).cext (tadwCell s d a b c xh part scalars tiles)
    Completes (.tadw d a b c xh) s
      (((s.writeFlagged d 0x01 (s.t a).rext (s.t a).cext (out (·.2.2) [K.lr, K.eps, K.b1, K.b2] [s.t d, s.t a, s.t b, s.t c])).writeFlagged
        b 0x01 (s.t a).rext (s.t a).cext (out (·.1) [K.b1] [s.t b, s.t a])).writeFlagged
        c 0x01 (s.t a).rext (s.t a).cext (out (·.2.1) [K.b2] [s.t c, s.t a])) true := by
  obtain ⟨hfmt, hscl, hclean⟩ := hg
  simp only [List.mem_cons, List.not_mem_nil, or_false, forall_eq_or_imp, forall_eq] at hr
  obtain ⟨⟨hd, hdr, hdc, hdClean⟩, ⟨hb, hbr, hbc, hbClean⟩, hc, hcr, hcc, hcClean⟩ := hr
  have hformats : needTadwFormats (s.t a) (s.t b) (s.t c) (s.t d) = .ok () := by
    have : (((s.t a).fmt == 0x01 || (s.t a).fmt == 0x02 || (s.t a).fmt == 0x03) && !(s.t a).scl) = true := by
      simpa [hscl, or_assoc] using hfmt
    simp only [needTadwFormats, this, hd, hb, hc, need, if_true, beq_self_eq_true, run_ok_bind]
  have hshape : needTadwShape (s.t a) [(d, s.t d), (b, s.t b), (c, s.t c)] = .ok () :=
    needTadwShape_ok (by simp [hdr, hdc, hbr, hbc, hcr, hcc])
  have hrows : s.needClean [⟨a, 0, (s.t a).rext⟩, ⟨b, 1, (s.t a).rext⟩, ⟨c, 2, (s.t a).rext⟩, ⟨d, 3, (s.t a).rext⟩] = .ok () := by
    refine State.needClean_ok ?_
    simp only [List.mem_cons, List.not_mem_nil, or_false, forall_eq_or_imp, forall_eq]
    exact ⟨hclean, hbr ▸ hbClean, hcr ▸ hcClean, hdr ▸ hdClean⟩
  change execTadw d a b c xh s = _
  rw [execTadw]
  simp only [hformats, hshape, hrows, run_ok_bind]
  rfl

theorem bits_low32 (v : Word64) : bits v 31 0 = (v.setWidth 32).toNat := by simp [bits]

theorem bits_high32 (v : Word64) : bits v 63 32 = (v.extractLsb' 32 32).toNat := by
  have := v.isLt
  rw [BitVec.extractLsb'_toNat, Nat.shiftRight_eq_div_pow]
  rfl

/-- What three flagged tiles leave in the three registers, and the flags. -/
theorem writeFlagged_three {s : State} {d b c : BitVec 4} {rows cols : Nat} (f : BitVec 5) (g₁ g₂ g₃ : Nat → Nat → Flagged)
    (hdb : d ≠ b) (hdc : d ≠ c) (hbc : b ≠ c) (hiov : ∀ i j, (g₁ i j).iov = false ∧ (g₂ i j).iov = false ∧ (g₃ i j).iov = false) :
    let u := ((s.writeFlagged d f rows cols (flaggedRows rows cols g₁)).writeFlagged b f rows cols (flaggedRows rows cols g₂)).writeFlagged
      c f rows cols (flaggedRows rows cols g₃)
    let nf := anyNf (flaggedRows rows cols g₁) || anyNf (flaggedRows rows cols g₂) || anyNf (flaggedRows rows cols g₃)
    u.t d = Tile.build f rows cols (fun i j => (g₁ i j).bits) ∧ u.t b = Tile.build f rows cols (fun i j => (g₂ i j).bits)
    ∧ u.t c = Tile.build f rows cols (fun i j => (g₃ i j).bits) ∧ u.k.sticky = s.k.sticky ||| (if nf then 1 else 0)
    ∧ (∀ r, r ∉ [d, b, c] → u.t r = s.t r) ∧ u.blankT.blankSticky = s.blankT.blankSticky := by
  intro u nf
  have h1 := SetsT.of_writeFlagged s d f rows cols g₁
  have h2 := SetsT.of_writeFlagged (s.writeFlagged d f rows cols (flaggedRows rows cols g₁)) b f rows cols g₂
  have h3 := SetsT.of_writeFlagged ((s.writeFlagged d f rows cols (flaggedRows rows cols g₁)).writeFlagged b f rows cols
    (flaggedRows rows cols g₂)) c f rows cols g₃
  refine ⟨?_, ?_, h3.dest, ?_, fun r hr => ?_, h3.rest.trans (h2.rest.trans h1.rest)⟩
  · exact (h3.others d hdc).trans ((h2.others d hdb).trans h1.dest)
  · exact (h3.others b hbc).trans h2.dest
  · refine h3.sticky.trans ?_
    rw [h2.sticky, h1.sticky, anyIov_eq_false fun i j => (hiov i j).1, anyIov_eq_false fun i j => (hiov i j).2.1,
      anyIov_eq_false fun i j => (hiov i j).2.2, BitVec.or_assoc, BitVec.or_assoc]
    change _ = s.k.sticky ||| (if anyNf (flaggedRows rows cols g₁) || anyNf (flaggedRows rows cols g₂) || anyNf (flaggedRows rows cols g₃) then 1 else 0)
    congr 1
    cases anyNf (flaggedRows rows cols g₁) <;> cases anyNf (flaggedRows rows cols g₂) <;> cases anyNf (flaggedRows rows cols g₃) <;> rfl
  · simp only [List.mem_cons, List.not_mem_nil, or_false, not_or] at hr
    exact (h3.others r hr.2.2).trans ((h2.others r hr.2.1).trans (h1.others r hr.1))

theorem toNat_ofNat_round32 (ftz : Bool) (x : FVal) : (BitVec.ofNat 32 (fp32.round .rne false ftz x).bits).toNat = (fp32.round .rne false ftz x).bits :=
  toNat_rounded32 ftz x

theorem floatResult_nf (ftz fed : Bool) (x : FVal) :
    (floatResult fp32 ftz fed x).nf = true ↔ fed = true ∧ (fp32.read false (rounded32 ftz x).toNat).isFinite = false := by
  simp [floatResult, toNat_rounded32]

/-- Settles O30, by the elements of the three outputs. -/
theorem weightUpdate : Obligations.WeightUpdate := by
  intro s d a b c xh hwf G ftz hg hr scalar lr eps b1 b2 word rne c1 c2 g m v w mn vn q step infinite
  have hrne : rne = rne32 ftz := funext fun x => (rne32_eq ftz x).symm
  have hK : tadwScalars ftz (s.x xh) (s.x (xh + 1)) = ⟨lr, eps, b1, b2, rne32 ftz (FVal.add false (.fin false 1 0) b1.neg),
      rne32 ftz (FVal.add false (.fin false 1 0) b2.neg)⟩ := by
    simp only [tadwScalars, bits_low32, bits_high32]
    rfl
  have hcompletes := tadw_completes xh hg hr
  rw [show tadwScalars s.k.ftz (s.x xh) (s.x (xh + 1)) = _ from hK] at hcompletes
  have helem (i j : Nat) : (tadwElem ftz (tadwScalars ftz (s.x xh) (s.x (xh + 1))) (w i j) (g i j) (m i j) (v i j)).1 = mn i j
      ∧ (tadwElem ftz (tadwScalars ftz (s.x xh) (s.x (xh + 1))) (w i j) (g i j) (m i j) (v i j)).2.1 = vn i j
      ∧ word (tadwElem ftz (tadwScalars ftz (s.x xh) (s.x (xh + 1))) (w i j) (g i j) (m i j) (v i j)).2.2
        = newWeight ftz (w i j) (step i j) (q i j) := by
    rw [hK]
    simp only [mn, vn, q, step, c1, c2, hrne]
    exact ⟨rfl, rfl, rfl⟩
  have hdistinct : d ≠ b ∧ d ≠ c ∧ b ≠ c := by
    simp only [wellFormed, Bool.and_eq_true, bne_iff_ne] at hwf
    tauto
  obtain ⟨hdb, hdc, hbc⟩ := hdistinct
  obtain ⟨htd, htb, htc, hsticky, hothers, hrest⟩ := writeFlagged_three (s := s) (rows := G.rext) (cols := G.cext) 1
    (tadwCell s d a b c xh (·.2.2) [lr, eps, b1, b2] [s.t d, s.t a, s.t b, s.t c]) (tadwCell s d a b c xh (·.1) [b1] [s.t b, s.t a])
    (tadwCell s d a b c xh (·.2.1) [b2] [s.t c, s.t a]) hdb hdc hbc fun _ _ => ⟨rfl, rfl, rfl⟩
  have hword (i j : Nat) : (tadwCell s d a b c xh (·.2.2) [lr, eps, b1, b2] [s.t d, s.t a, s.t b, s.t c] i j).bits
      = newWeight ftz (w i j) (step i j) (q i j) := (helem i j).2.2
  have hmoment (i j : Nat) : (tadwCell s d a b c xh (·.1) [b1] [s.t b, s.t a] i j).bits = word (mn i j)
      ∧ (tadwCell s d a b c xh (·.2.1) [b2] [s.t c, s.t a] i j).bits = word (vn i j) :=
    ⟨congrArg word (helem i j).1, congrArg word (helem i j).2.1⟩
  refine ⟨_, fun i j => newWeight ftz (w i j) (step i j) (q i j), _, ?_, ?_, ?_, ?_, fun i j _ _ => ?elem, ?nf, hsticky, hothers, hrest⟩
  · exact hcompletes
  · rw [htd]
    simp only [hword]
    exact IsResult.of_build ..
  · rw [htb]
    simp only [(hmoment _ _).1]
    exact IsResult.of_build ..
  · rw [htc]
    simp only [(hmoment _ _).2]
    exact IsResult.of_build ..
  case elem =>
    exact ⟨newWeight_quotient, newWeight_difference, newWeight_notFinite, newWeight_zeroByZero _, newWeight_byZero _⟩
  case nf =>
    have hweight (i j : Nat) : (tadwCell s d a b c xh (·.2.2) [lr, eps, b1, b2] [s.t d, s.t a, s.t b, s.t c] i j).nf = true
        ↔ ((lr.isFinite = true ∧ eps.isFinite = true ∧ b1.isFinite = true ∧ b2.isFinite = true) ∧ (w i j).isFinite = true
          ∧ (g i j).isFinite = true ∧ (m i j).isFinite = true ∧ (v i j).isFinite = true) ∧ infinite (newWeight ftz (w i j) (step i j) (q i j)) := by
      rw [← (helem i j).2.2, tadwCell, floatResult_nf]
      simp only [List.all_cons, List.all_nil, Bool.and_true, Bool.and_eq_true]
      exact Iff.rfl
    have hfirst (i j : Nat) : (tadwCell s d a b c xh (·.1) [b1] [s.t b, s.t a] i j).nf = true
        ↔ (b1.isFinite = true ∧ (m i j).isFinite = true ∧ (g i j).isFinite = true) ∧ infinite (word (mn i j)) := by
      rw [← (helem i j).1, tadwCell, floatResult_nf]
      simp only [List.all_cons, List.all_nil, Bool.and_true, Bool.and_eq_true]
      exact Iff.rfl
    have hsecond (i j : Nat) : (tadwCell s d a b c xh (·.2.1) [b2] [s.t c, s.t a] i j).nf = true
        ↔ (b2.isFinite = true ∧ (v i j).isFinite = true ∧ (g i j).isFinite = true) ∧ infinite (word (vn i j)) := by
      rw [← (helem i j).2.1, tadwCell, floatResult_nf]
      simp only [List.all_cons, List.all_nil, Bool.and_true, Bool.and_eq_true]
      exact Iff.rfl
    simp only [Bool.or_eq_true, anyNf_flaggedRows, hweight, hfirst, hsecond]
    constructor
    · rintro ((⟨i, j, hi, hj, ⟨⟨hlr, heps, hb1, hb2⟩, hw, hg, hm, hv⟩, hinf⟩ | ⟨i, j, hi, hj, ⟨hb1, hm, hg⟩, hinf⟩)
        | ⟨i, j, hi, hj, ⟨hb2, hv, hg⟩, hinf⟩)
      · exact ⟨i, j, hi, hj, hg, .inr (.inr ⟨hinf, hlr, heps, hb1, hb2, hm, hv, hw⟩)⟩
      · exact ⟨i, j, hi, hj, hg, .inl ⟨hinf, hb1, hm⟩⟩
      · exact ⟨i, j, hi, hj, hg, .inr (.inl ⟨hinf, hb2, hv⟩)⟩
    · rintro ⟨i, j, hi, hj, hg, ⟨hinf, hb1, hm⟩ | ⟨hinf, hb2, hv⟩ | ⟨hinf, hlr, heps, hb1, hb2, hm, hv, hw⟩⟩
      · exact .inl (.inr ⟨i, j, hi, hj, ⟨hb1, hm, hg⟩, hinf⟩)
      · exact .inr ⟨i, j, hi, hj, ⟨hb2, hv, hg⟩, hinf⟩
      · exact .inl (.inl ⟨i, j, hi, hj, ⟨⟨hlr, heps, hb1, hb2⟩, hw, hg, hm, hv⟩, hinf⟩)

end Sys2Proof.Machine
end

section
/-! The memory system's operations (10 R244 to R249, R263 to R265): each keeps the form of the L1 and of memory, and all but the
bytes that it writes. -/

namespace Sys2Proof.Machine

/-- t is s after operations of the memory system that keep the forms of the L1 and of memory and, but where `w` says so, the newest
value of every byte. -/
structure Writes (w : Nat → Prop) (s t : State) : Prop where
  rest : MemOnly s t
  form : s.core.l1.Ok → t.core.l1.Ok
  memory : s.core.l1.Ok → s.mem.wf = true → t.mem.wf = true
  bytes : s.core.l1.Ok → ∀ q, ¬w q → t.newest q = s.newest q

/-- Operations that write no byte. -/
abbrev Quiet (s t : State) : Prop := Writes (fun _ => False) s t

section
variable {w v : Nat → Prop} {s t u : State}

theorem Writes.refl (w : Nat → Prop) (s : State) : Writes w s s := ⟨MemOnly.refl s, id, fun _ => id, fun _ _ _ => rfl⟩

theorem Writes.trans (h : Writes w s t) (k : Writes w t u) : Writes w s u where
  rest := h.rest.trans k.rest
  form hs := k.form (h.form hs)
  memory hs hw := k.memory (h.form hs) (h.memory hs hw)
  bytes hs q hq := (k.bytes (h.form hs) q hq).trans (h.bytes hs q hq)

theorem Writes.mono (h : Writes w s t) (hwv : ∀ q, w q → v q) : Writes v s t where
  rest := h.rest
  form := h.form
  memory := h.memory
  bytes hs q hq := h.bytes hs q fun hw => hq (hwv q hw)

theorem Writes.quiet (h : Quiet s t) : Writes w s t := h.mono fun _ hq => hq.elim

theorem Writes.foldl {α : Type} {w : Nat → Prop} (f : State → α → State) (l : List α) (hf : ∀ s, ∀ a ∈ l, Writes w s (f s a)) (s : State) :
    Writes w s (l.foldl f s) := by
  induction l generalizing s with
  | nil => exact Writes.refl w s
  | cons a l ih => exact (hf s a (by simp)).trans (ih (fun s b hb => hf s b (by simp [hb])) _)

/-- The invariant is kept by what only the memory system does. -/
theorem Writes.inv (h : Writes w s t) (hs : s.Inv) : t.Inv where
  memory := h.memory hs.l1 hs.memory
  localStore := by
    have : t.core.ls = s.core.ls := congrArg (·.core.ls) h.rest.rest
    exact this ▸ hs.localStore
  flash := by
    have : t.mgmt = s.mgmt := congrArg (·.mgmt) h.rest.rest
    exact this ▸ hs.flash
  l1 := h.form hs.l1
  status := by rw [h.rest.unit]; exact hs.status
  counts := by
    have : t.beryl = s.beryl := congrArg (·.beryl) h.rest.rest
    exact this ▸ hs.counts

end

/-- A change of nothing that reads as a byte. -/
theorem Filled.quiet {s t : State} (h : Filled s t) : Quiet s t where
  rest := h.rest
  form hs := ⟨by rw [h.dirty]; exact hs.1, by rw [h.dirty, h.stale]; exact hs.2⟩
  memory _ hw := by rw [h.mem]; exact hw
  bytes _ q _ := by rw [State.newest, State.newest, h.dirty, h.mem]

theorem fillLines_quiet (s : State) (pa n : Nat) (hint : BitVec 2) : Quiet s (s.fillLines pa n hint) := (fillLines_filled s pa n hint).quiet

theorem writeBackLine_quiet (s : State) (line : Nat) : Quiet s (s.writeBackLine line) where
  rest := writeBackLine_memOnly s line
  form := writeBackLine_ok s line
  memory _ := writeBackLine_memWf s line
  bytes hs q _ := writeBackLine_newest s line q hs.distinct

theorem writeBackLines_quiet (ls : List Nat) (s : State) : Quiet s (ls.foldl State.writeBackLine s) :=
  Writes.foldl State.writeBackLine ls (fun s l _ => writeBackLine_quiet s l) s

theorem dropLine_quiet (s : State) (line : Nat) : Quiet s (s.dropLine line) where
  rest := (writeBackLine_memOnly s line).trans ⟨rfl, rfl⟩
  form := dropLine_ok s line
  memory _ hw := writeBackLine_memWf s line hw
  bytes hs q _ := writeBackLine_newest s line q hs.distinct

theorem dropLines_quiet (ls : List Nat) (s : State) : Quiet s (ls.foldl State.dropLine s) :=
  Writes.foldl State.dropLine ls (fun s l _ => dropLine_quiet s l) s

theorem writeBackAll_quiet (s : State) : Quiet s s.writeBackAll := writeBackLines_quiet _ s

theorem releaseCache_quiet (s : State) (scope : BitVec 2) : Quiet s (s.releaseCache scope) := by
  unfold State.releaseCache
  split
  · exact writeBackAll_quiet s
  · exact Writes.refl _ s

theorem dropClean_quiet (s : State) : Quiet s s.dropClean where
  rest := ⟨rfl, rfl⟩
  form hs := hs.sub (List.Sublist.refl _) fun e he => nomatch he
  memory _ := id
  bytes _ _ _ := rfl

theorem acquire_quiet (s : State) (scope : BitVec 2) : Quiet s (s.acquire scope) := by
  unfold State.acquire
  split
  · exact dropClean_quiet s
  · exact Writes.refl _ s

/-- A write at the home, by any writer but a Beryl service. -/
theorem homeWrite_writes (s : State) (path : Path) (pa : Nat) (bs : List Byte) :
    Writes (fun q => s.lands pa bs.length q) s (s.homeWrite path pa bs) where
  rest := homeWrite_memOnly s path pa bs
  form := homeWrite_ok s path pa bs
  memory hs := (homeWrite_spec s path pa bs hs.distinct).2.2.1
  bytes hs q hq := by rw [(homeWrite_spec s path pa bs hs.distinct).2.2.2 q, if_neg hq]

theorem ownHomeWrite_writes (s : State) (pa : Nat) (bs : List Byte) :
    Writes (fun q => s.lands pa bs.length q) s (s.ownHomeWrite pa bs) where
  rest := ownHomeWrite_memOnly s pa bs
  form := ownHomeWrite_ok s pa bs
  memory hs := (ownHomeWrite_spec s pa bs hs.distinct).2.2.1
  bytes hs q hq := by rw [(ownHomeWrite_spec s pa bs hs.distinct).2.2.2 q, if_neg hq]

/-! Translation. -/

/-- The bytes of a table entry. -/
def inEntry (ea q : Nat) : Prop := ea ≤ q ∧ q < ea + 8

theorem setPteBits_writes (s : State) (acc : Access) (x : Xl) (ea : Nat) : Writes (inEntry ea) s (s.setPteBits acc x ea) := by
  unfold State.setPteBits
  split
  · exact Writes.refl _ s
  · refine (Writes.quiet (writeBackLine_quiet s (lineOf ea))).trans ((homeWrite_writes _ .h ea _).mono fun q hq => ?_)
    have hlen (n : Nat) : (leBytes 8 n).length = 8 := rfl
    rw [hlen] at hq
    exact ⟨hq.1, hq.2.1⟩

theorem touch_writes (s : State) (acc : Access) (va : Nat) (x : Xl) : Writes (fun q => ∃ ea, x.entry = some ea ∧ inEntry ea q) s (s.touch acc va x) := by
  unfold State.touch
  split
  · exact Writes.refl _ s
  · next ea h =>
    refine ((setPteBits_writes s acc x ea).mono fun q hq => ⟨ea, h, hq⟩).trans ?_
    exact ⟨⟨rfl, rfl⟩, id, fun _ => id, fun _ _ _ => rfl⟩

/-- An address outside the entries that the translations were read from (10 R263). -/
theorem XMap.spares_iff {m : XMap} {q : Nat} : m.spares q ↔ ¬∃ e ∈ m, ∃ ea, e.2.entry = some ea ∧ inEntry ea q := by
  simp only [XMap.spares, XMap.walked, List.mem_filterMap, inEntry, not_exists, not_and, not_lt]
  constructor
  · intro h e he ea hea hle
    have := h ea ⟨e, he, hea⟩
    omega
  · rintro h ea ⟨e, he, hea⟩
    have := h e he ea hea
    omega

theorem touchAll_writes (s : State) (acc : Access) (m : XMap) : Writes (fun q => ¬m.spares q) s (s.touchAll acc m) :=
  Writes.foldl (fun t (e : Nat × Xl) => t.touch acc (e.1 * 4096) e.2) m (fun t e he => (touch_writes t acc _ e.2).mono fun q ⟨ea, hea, hq⟩ hs =>
    XMap.spares_iff.1 hs ⟨e, he, ea, hea, hq⟩) s

end Sys2Proof.Machine
end

section
/-! Scalar loads and stores (05 R148 to R151; 01 R27, R30; 10 R264; 11 R274, R281). -/

namespace Sys2Proof.Machine

/-! Older stores. -/

theorem depthOf?_eq_zero {before : SbEntry → Bool} {l : List SbEntry} (h : ∀ e ∈ l, before e = false) : depthOf? before l = 0 := by
  induction l with
  | nil => rfl
  | cons e l ih => simp [depthOf?, ih fun e he => h e (by simp [he]), h e (by simp)]

/-- Nothing is performed for an access that no older store concerns (01 R30). -/
theorem settleIf_of_none {s : State} {before : SbEntry → Bool} (h : ∀ e ∈ s.core.sb ++ s.core.unacked, before e = false) :
    s.settleIf before = .ok s := by
  rw [State.settleIf, depthOf?_eq_zero fun e he => h e (by simp [he])]
  have hnone : ((s.drainN 0).core.sb ++ (s.drainN 0).core.unacked).any before = false := by
    simpa [State.drainN, or_imp, forall_and] using h
  simp only [hnone, Bool.false_eq_true, if_false]
  rfl

/-! Loads. -/

theorem setLoaded_x (s : State) (d : BitVec 5) (sz : BitVec 3) (signed : Bool) (bs : List Byte) (r : BitVec 5) :
    (s.setLoaded d sz signed bs).x r = loadedX s d (2 ^ sz.toNat) signed (leNat bs) r := by
  have hd : d + 1 ≠ d := by bv_omega
  unfold State.setLoaded loadedX
  simp only [sizeBytes, beq_iff_eq]
  split
  · rw [State.setPair, State.setX_x, State.setX_x]
    by_cases h : r = d
    · subst h
      rw [if_pos rfl, if_pos rfl, if_neg hd.symm]
      split_ifs <;> rfl
    · rw [if_neg h, if_neg h]
      split_ifs <;> rfl
  · rw [State.setX_x]

theorem setLoaded_blankX (s : State) (d : BitVec 5) (sz : BitVec 3) (signed : Bool) (bs : List Byte) :
    (s.setLoaded d sz signed bs).blankX = s.blankX := by
  unfold State.setLoaded
  dsimp only
  split
  · rw [State.setPair, State.setX_blankX, State.setX_blankX]
  · rw [State.setX_blankX]

/-- The way a load of a scope reads. -/
def loadPath (scope : BitVec 2) : LoadPath := if 2 ≤ scope.toNat then .home else .cache

theorem load_completes {i : Instr} {s s1 : State} {d a : BitVec 5} {sz : BitVec 3} {off : BitVec 12} {signed : Bool} {scope : BitVec 2}
    {bs : List Byte} (hi : loadForm i = some (d, a, sz, off, signed, scope))
    (h : s.load (loadPath scope) (addrOf (s.x a + off.signExtend 64)) (2 ^ sz.toNat) = .ok (bs, s1)) :
    Completes i s ((s1.acquire scope).setLoaded d sz signed bs) := by
  unfold loadForm at hi
  split at hi
  · cases hi
    change execLd _ _ _ _ s = _
    rw [execLd, State.ea, sizeBytes]
    change s.finish (s.load (loadPath 0) _ _ >>= _) = _
    rw [h]
    rfl
  · cases hi
    change execLdz _ _ _ _ s = _
    rw [execLdz, State.ea, sizeBytes]
    change s.finish (s.load (loadPath 0) _ _ >>= _) = _
    rw [h]
    rfl
  · cases hi
    change execLdAcq _ _ _ _ s = _
    rw [execLdAcq, State.ea, sizeBytes]
    change s.finish (s.load (loadPath _) _ _ >>= _) = _
    rw [h]
    rfl
  · cases hi

/-- What a load leaves: its registers, and what an access leaves behind. -/
theorem accesses_of_load {s s1 : State} {m : XMap} (hs : s.Inv) (h : Writes (fun q => ¬m.spares q) s s1) (d : BitVec 5) (sz : BitVec 3)
    (signed : Bool) (bs : List Byte) : Accesses s (s1.setLoaded d sz signed bs) m (loadedX s d (2 ^ sz.toNat) signed (leNat bs)) := by
  have hx (r : BitVec 5) : s1.x r = s.x r := by rw [State.x, State.x, h.rest.unit]
  have hblank := setLoaded_blankX s1 d sz signed bs
  refine ⟨fun r => ?_, ?_, ?_, fun q hq => ?_⟩
  · rw [setLoaded_x]
    simp only [loadedX, hx]
  · have hmem := congrArg State.blankMem hblank
    have hrest := congrArg State.blankX h.rest.rest
    exact (show _ = s1.blankX.blankMem from hmem).trans hrest
  · have : (s1.setLoaded d sz signed bs).core.sb = s1.core.sb := congrArg (·.core.sb) hblank
    exact this.trans h.rest.stores
  · have : (s1.setLoaded d sz signed bs).blankX.newest q = s1.blankX.newest q := by rw [hblank]
    exact this.trans (h.bytes hs.l1 q (not_not.2 hq))

/-- An access inside the address space. -/
theorem needAddr_ok {va n : Nat} (h : va + n ≤ 2 ^ 56) : needAddr va n = .ok () := by
  rw [needAddr, decide_eq_true (show va + n ≤ vaEnd from h)]
  rfl

theorem loadPath_home (scope : BitVec 2) : (loadPath scope == LoadPath.home) = decide (2 ≤ scope.toNat) := by
  unfold loadPath
  split
  · next h => rw [decide_eq_true h]; rfl
  · next h => rw [decide_eq_false h]; rfl

/-- A load of a unit reads its bytes once its translations are found (05 R149). -/
theorem load_of_loadBytes {s s1 : State} {m : XMap} {scope : BitVec 2} {va n : Nat} {bs : List Byte} (hserv : s.core.service = none)
    (hend : va + n ≤ 2 ^ 56) (hacc : s.access .read false [(va, n)] (decide (2 ≤ scope.toNat)) = .ok m)
    (h : s.loadBytes m (loadPath scope) va n = .ok (bs, s1)) : s.load (loadPath scope) va n = .ok (bs, s1.touchAll .read m) := by
  rw [State.load]
  simp only [needAddr_ok hend, loadPath_home, hserv, Option.isSome_none, Bool.or_false, hacc, h, run_ok_bind, Bool.false_eq_true, if_false]

/-- The bytes that a load takes from an older store (01 R30). -/
theorem loadBytes_forwarded {s : State} {m : XMap} {va n : Nat} {bs : List Byte} (hall : m.allCached = true)
    (hf : s.forwarded va n (m.runs va n) = some bs) : s.loadBytes m .cache va n = .ok (bs, s) := by
  rw [State.loadBytes]
  simp only [hall, hf]
  rfl

/-- The state that a load reads in, at the home or through the L1. -/
def State.loadState (s : State) (m : XMap) (path : LoadPath) (va n : Nat) : State :=
  if path = .home then ((m.runs va n).map (fun r => linesOf r.pa r.len)).flatten.foldl State.writeBackLine s else s

/-- What a load leaves in the caches. -/
def State.loadFills (s : State) (m : XMap) (path : LoadPath) (va n : Nat) : State :=
  if path = .cache then
    m.foldl (fun s e => if e.2.attr == 0 then ((m.runs va n).filter (fun r => r.pa / 4096 == m.pa (e.1 * 4096) / 4096)).foldl
      (fun s r => s.fillLines r.pa r.len) s else s) s
  else s

theorem loadState_quiet (s : State) (m : XMap) (path : LoadPath) (va n : Nat) : Quiet s (s.loadState m path va n) := by
  unfold State.loadState
  split
  · exact writeBackLines_quiet _ s
  · exact Writes.refl _ s

theorem loadFills_quiet (s : State) (m : XMap) (path : LoadPath) (va n : Nat) : Quiet s (s.loadFills m path va n) := by
  unfold State.loadFills
  split
  · refine Writes.foldl _ _ (fun t e _ => ?_) s
    split
    · exact Writes.foldl _ _ (fun t r _ => fillLines_quiet t r.pa r.len 0) t
    · exact Writes.refl _ t
  · exact Writes.refl _ s

/-- The bytes that a load reads which no older store concerns. -/
theorem loadBytes_read {s : State} {m : XMap} {path : LoadPath} {va n : Nat}
    (hnone : ∀ e ∈ s.core.sb ++ s.core.unacked, overlap e.va e.len va n = false ∧ e.meets (m.runs va n) = false ∧ (m.device = true → e.device = false))
    (hgood : ∀ k, k < n → (s.loadState m path va n).loadBad m path (va + k) = false) :
    s.loadBytes m path va n = .ok ((List.range n).map (fun k => (s.loadState m path va n).loadByte m path (va + k)),
      (s.loadState m path va n).loadFills m path va n) := by
  have hyoung : s.forwarded va n (m.runs va n) = none := by
    have : s.core.sb.filter (fun e => overlap e.va e.len va n || e.meets (m.runs va n)) = [] := by
      rw [List.filter_eq_nil_iff]
      intro e he
      simp [hnone e (by simp [he])]
    simp [State.forwarded, youngestOverlap, this]
  have hsettle : s.settleIf (fun e => overlap e.va e.len va n || e.meets (m.runs va n) || (m.device && e.device)) = .ok s :=
    settleIf_of_none fun e he => by
      obtain ⟨h1, h2, h3⟩ := hnone e he
      cases hd : m.device <;> simp_all
  have hbad : (List.range n).find? (fun i => (s.loadState m path va n).loadBad m path (va + i)) = none := by
    rw [List.find?_eq_none]
    exact fun k hk => by simp [hgood k (List.mem_range.1 hk)]
  rw [State.loadBytes]
  have hforward : (if m.allCached && path == .cache then s.forwarded va n (m.runs va n) else none) = none := by
    rw [hyoung, ite_self]
  have hstate : (if path == .home then ((m.runs va n).map (fun r => linesOf r.pa r.len)).flatten.foldl State.writeBackLine s else s)
      = s.loadState m path va n := by cases path <;> rfl
  simp only [hforward, hsettle, run_ok_bind, hstate, hbad]
  cases path <;> rfl

/-- Settles O31: the load takes an older store's bytes, or reads where its scope says. -/
theorem loadResults : Obligations.LoadResults := by
  intro i s d a sz off signed scope m hi hwf hserv hs ea n hend hacc
  constructor
  · intro e hall hscope hyoung hkind hcached hlo hhi data
    have hpath : loadPath scope = .cache := if_neg (by omega)
    have hforward : s.forwarded ea n (m.runs ea n) = some data := by
      simp only [State.forwarded, hyoung, hkind, hcached, hlo, hhi, decide_true, Bool.and_self, if_true]
      rfl
    have hload := load_of_loadBytes hserv hend hacc (hpath.symm ▸ loadBytes_forwarded hall hforward)
    refine ⟨_, load_completes hi hload, accesses_of_load hs ?_ ..⟩
    exact (touchAll_writes s .read m).trans (Writes.quiet (acquire_quiet _ _))
  · intro hnone t path hgood cacheable byte
    have hpath : path = loadPath scope := by
      by_cases h : scope.toNat < 2
      · rw [show path = _ from if_pos h, loadPath, if_neg (by omega)]
      · rw [show path = _ from if_neg h, loadPath, if_pos (by omega)]
    have hstate : t = s.loadState m path ea n := by
      by_cases h : scope.toNat < 2
      · rw [show t = _ from if_pos h, show path = _ from if_pos h]
        rfl
      · rw [show t = _ from if_neg h, show path = _ from if_neg h]
        rfl
    have hbyte (va : Nat) : byte va = (s.loadState m path ea n).loadByte m path va := by
      rw [← hstate]
      change (if cacheable va = false then _ else if scope.toNat < 2 then _ else _) = if !(cacheable va) then _ else if path == .cache then _ else _
      cases cacheable va with
      | false => rfl
      | true =>
        by_cases h : scope.toNat < 2
        · rw [show path = _ from if_pos h, show t = _ from if_pos h, if_pos h]
          rfl
        · rw [show path = _ from if_neg h, if_neg h]
          rfl
    have hread := loadBytes_read (s := s) (m := m) (path := path) hnone (by rw [← hstate]; exact hgood)
    have hload := load_of_loadBytes hserv hend hacc (hpath ▸ hread)
    refine ⟨_, load_completes hi hload, ?_⟩
    simp only [hbyte, hpath]
    refine accesses_of_load hs ?_ ..
    exact (Writes.quiet (loadState_quiet ..)).trans ((Writes.quiet (loadFills_quiet ..)).trans
      ((touchAll_writes _ .read m).trans (Writes.quiet (acquire_quiet _ _))))

end Sys2Proof.Machine
end

section
/-! Accesses that cross blocks (05 R145; 10 R266): the 4 KiB blocks of an access, the pieces of its bytes, and the translations that
it finds for them. -/

namespace Sys2Proof.Machine

/-! Blocks. -/

/-- The first address of the block after that of an address. -/
def nextBlock (va : Nat) : Nat := (va / 4096 + 1) * 4096

theorem lt_nextBlock (va : Nat) : va < nextBlock va := by unfold nextBlock; omega

theorem blocksOf_zero (va : Nat) : blocksOf va 0 = [] := rfl

theorem blocksOf_pos (va : Nat) {n : Nat} (h : 0 < n) : blocksOf va n = va :: blocksOf (nextBlock va) (n - (nextBlock va - va)) := by
  have hblock : nextBlock va / 4096 = va / 4096 + 1 := by unfold nextBlock; omega
  have hlt := lt_nextBlock va
  rw [blocksOf, if_neg (by simpa using h.ne'), List.range_succ_eq_map, List.map_cons, List.map_map]
  refine congrArg₂ _ rfl ?_
  by_cases hn : n ≤ nextBlock va - va
  · have hlast : (va + n - 1) / 4096 - va / 4096 = 0 := by unfold nextBlock at hn; omega
    rw [hlast, Nat.sub_eq_zero_of_le hn, blocksOf_zero]
    rfl
  · have hcount : (va + n - 1) / 4096 - va / 4096 = (nextBlock va + (n - (nextBlock va - va)) - 1) / 4096 - nextBlock va / 4096 + 1 := by
      have : nextBlock va + (n - (nextBlock va - va)) - 1 = va + n - 1 := by omega
      rw [this, hblock]
      unfold nextBlock at hn
      omega
    rw [blocksOf, if_neg (by simp; omega), hcount]
    refine List.map_congr_left fun i _ => ?_
    rw [Function.comp_apply, if_neg (by simp), hblock]
    split
    · next h => rw [beq_iff_eq.1 h]; rfl
    · rw [Nat.succ_eq_add_one, Nat.add_assoc, Nat.add_comm 1]

/-- Every address of an access has its block among them. -/
theorem exists_blocksOf {va n q : Nat} (h1 : va ≤ q) (h2 : q < va + n) : ∃ b ∈ blocksOf va n, b / 4096 = q / 4096 := by
  induction n using Nat.strong_induction_on generalizing va with
  | _ n ih =>
    have hlt := lt_nextBlock va
    rw [blocksOf_pos va (by omega)]
    by_cases hq : q < nextBlock va
    · exact ⟨va, by simp, by unfold nextBlock at hq; omega⟩
    · obtain ⟨b, hb, hbq⟩ := ih (n - (nextBlock va - va)) (by omega) (va := nextBlock va) (by omega) (by omega)
      exact ⟨b, by simp [hb], hbq⟩

theorem exists_addBlock (v : Nat) (l : List Nat) (n : Nat) :
    (∃ b ∈ addBlock v l, b / 4096 = n) ↔ v / 4096 = n ∨ ∃ b ∈ l, b / 4096 = n := by
  induction l with
  | nil => simp [addBlock]
  | cons a l ih =>
    rw [addBlock]
    split
    · simp
    · split
      · next h =>
        have hmin : min v a / 4096 = v / 4096 := by have := beq_iff_eq.1 h; omega
        have := beq_iff_eq.1 h
        simp only [List.mem_cons, exists_eq_or_imp, hmin, this]
        tauto
      · simp only [List.mem_cons, exists_eq_or_imp, ih]
        tauto

theorem exists_foldl_addBlock (bs acc : List Nat) (n : Nat) :
    (∃ b ∈ bs.foldl (fun acc b => addBlock b acc) acc, b / 4096 = n) ↔ (∃ b ∈ acc, b / 4096 = n) ∨ ∃ b ∈ bs, b / 4096 = n := by
  induction bs generalizing acc with
  | nil => simp
  | cons a bs ih =>
    rw [List.foldl_cons, ih, exists_addBlock]
    simp only [List.mem_cons, exists_eq_or_imp]
    exact or_assoc.trans or_left_comm |>.trans (by rw [or_left_comm])

/-- The same for the ranges of one access. -/
theorem exists_blocksOfAll {ranges : List (Nat × Nat)} {r : Nat × Nat} (hr : r ∈ ranges) {q : Nat} (h1 : r.1 ≤ q) (h2 : q < r.1 + r.2) :
    ∃ b ∈ blocksOfAll ranges, b / 4096 = q / 4096 := by
  obtain ⟨b, hb, hbq⟩ := exists_blocksOf h1 h2
  rw [blocksOfAll, exists_foldl_addBlock]
  exact .inr ⟨b, List.mem_flatten.2 ⟨_, List.mem_map.2 ⟨r, hr, rfl⟩, hb⟩, hbq⟩

/-! Translations. -/

theorem translateFrom_blocks {s : State} {acc : Access} {cacheOnly : Bool} {bs : List Nat} {last : Option (Nat × Xl)} {m : XMap}
    (h : s.translateFrom acc cacheOnly last bs = .ok m) : m.map (·.1) = bs.map (· / 4096) := by
  induction bs generalizing last m with
  | nil => cases h; rfl
  | cons b bs ih =>
    unfold State.translateFrom at h
    split at h
    · obtain ⟨k, hk, h⟩ := run_bind_ok.1 h
      cases h
      simp [ih hk]
    · obtain ⟨-, -, h⟩ := run_bind_ok.1 h
      split at h
      · cases h
      · obtain ⟨k, hk, h⟩ := run_bind_ok.1 h
        cases h
        simp [ih hk]

theorem access_blocks {s : State} {acc : Access} {cacheOnly atHome : Bool} {ranges : List (Nat × Nat)} {m : XMap}
    (h : s.access acc cacheOnly ranges atHome = .ok m) : m.map (·.1) = (blocksOfAll ranges).map (· / 4096) := by
  obtain ⟨k, hk, h⟩ := run_bind_ok.1 h
  obtain ⟨-, -, h⟩ := run_bind_ok.1 h
  obtain ⟨-, -, h⟩ := run_bind_ok.1 h
  cases h
  exact translateFrom_blocks hk

/-- The map knows an address. -/
def XMap.knows (m : XMap) (va : Nat) : Prop := (m.leaf va).isSome = true

theorem XMap.knows_iff {m : XMap} {va : Nat} : m.knows va ↔ ∃ e ∈ m, e.1 = va / 4096 := by
  simp [XMap.knows, XMap.leaf, List.find?_isSome]

theorem access_knows {s : State} {acc : Access} {cacheOnly atHome : Bool} {ranges : List (Nat × Nat)} {m : XMap}
    (h : s.access acc cacheOnly ranges atHome = .ok m) {r : Nat × Nat} (hr : r ∈ ranges) {q : Nat} (h1 : r.1 ≤ q) (h2 : q < r.1 + r.2) :
    m.knows q := by
  obtain ⟨b, hb, hbq⟩ := exists_blocksOfAll hr h1 h2
  have : q / 4096 ∈ m.map (·.1) := by
    rw [access_blocks h, ← hbq]
    exact List.mem_map.2 ⟨b, hb, rfl⟩
  obtain ⟨e, he, heq⟩ := List.mem_map.1 this
  exact XMap.knows_iff.2 ⟨e, he, heq⟩

theorem XMap.leaf_congr (m : XMap) {a b : Nat} (h : a / 4096 = b / 4096) : m.leaf a = m.leaf b := by rw [XMap.leaf, XMap.leaf, h]

/-- Inside a block physical addresses run with virtual ones (10 R262). -/
theorem XMap.pa_add {m : XMap} {va k : Nat} (hk : m.knows va) (h : (va + k) / 4096 = va / 4096) : m.pa (va + k) = m.pa va + k := by
  obtain ⟨x, hx⟩ := Option.isSome_iff_exists.1 hk
  rw [XMap.pa, XMap.pa, m.leaf_congr h, hx]
  have hpow : ∃ c, 2 ^ max 12 x.size = 4096 * c := ⟨2 ^ (max 12 x.size - 12), by rw [show 4096 = 2 ^ 12 from rfl, ← pow_add]; congr 1; omega⟩
  obtain ⟨c, hc⟩ := hpow
  simp only [Option.map_some, Option.getD_some, Xl.paOf, hc]
  have hdvd (a : Nat) : a % (4096 * c) = a / 4096 % c * 4096 + a % 4096 := by
    rw [Nat.mod_mul, Nat.mul_comm 4096, Nat.add_comm]
  rw [hdvd, hdvd, h]
  omega

/-! Pieces. -/

/-- Bytes cut at the borders of blocks, with their virtual addresses. -/
def piecesOf (va : Nat) (bs : List Byte) : List (Nat × List Byte) :=
  (blocksOf va bs.length).map (fun b => (b, (bs.drop (b - va)).take (min (va + bs.length) ((b / 4096 + 1) * 4096) - b)))

theorem XMap.split_eq (m : XMap) (w : Nat × List Byte) : m.split w = (piecesOf w.1 w.2).map (fun q => (m.pa q.1, q.2)) := by
  rw [XMap.split, piecesOf, List.map_map]
  rfl

theorem piecesOf_nil (va : Nat) : piecesOf va [] = [] := rfl

theorem le_of_mem_blocksOf {va n b : Nat} (h : b ∈ blocksOf va n) : va ≤ b := by
  induction n using Nat.strong_induction_on generalizing va with
  | _ n ih =>
    by_cases h0 : n = 0
    · subst h0
      exact nomatch h
    · have hlt := lt_nextBlock va
      rw [blocksOf_pos va (by omega)] at h
      rcases List.mem_cons.1 h with rfl | h
      · exact le_rfl
      · exact hlt.le.trans (ih _ (by omega) h)

theorem piecesOf_cons (va : Nat) {bs : List Byte} (h : bs ≠ []) :
    piecesOf va bs = (va, bs.take (nextBlock va - va)) :: piecesOf (nextBlock va) (bs.drop (nextBlock va - va)) := by
  have hpos : 0 < bs.length := List.length_pos_of_ne_nil h
  have hlt := lt_nextBlock va
  rw [piecesOf, blocksOf_pos va hpos, List.map_cons, piecesOf, List.length_drop]
  refine congrArg₂ _ ?_ ?_
  · rw [Nat.sub_self, List.drop_zero]
    refine congrArg _ ?_
    change bs.take (min (va + bs.length) (nextBlock va) - va) = _
    by_cases hn : bs.length ≤ nextBlock va - va
    · rw [List.take_of_length_le (by omega), List.take_of_length_le hn]
    · rw [Nat.min_eq_right (by omega)]
  · refine List.map_congr_left fun b hb => ?_
    have hge : nextBlock va ≤ b := le_of_mem_blocksOf hb
    rw [List.drop_drop]
    have h1 : nextBlock va - va + (b - nextBlock va) = b - va := by omega
    have h2 : min (va + bs.length) ((b / 4096 + 1) * 4096) - b
        = min (nextBlock va + (bs.length - (nextBlock va - va))) ((b / 4096 + 1) * 4096) - b := by
      omega
    rw [h1, h2]

/-- Induction over the pieces of bytes. -/
theorem piecesOf_induction {P : Nat → List Byte → Prop} (hnil : ∀ va, P va [])
    (hcons : ∀ va bs, bs ≠ [] → P (nextBlock va) (bs.drop (nextBlock va - va)) → P va bs) (va : Nat) (bs : List Byte) : P va bs := by
  induction hn : bs.length using Nat.strong_induction_on generalizing va bs with
  | _ n ih =>
    by_cases h : bs = []
    · exact h ▸ hnil va
    · have hpos : 0 < bs.length := List.length_pos_of_ne_nil h
      have hlt := lt_nextBlock va
      exact hcons va bs h (ih _ (by rw [List.length_drop]; omega) _ _ rfl)

/-- A piece is a stretch of the bytes that lies in one block. -/
structure IsPiece (va : Nat) (bs : List Byte) (w : Nat × List Byte) : Prop where
  low : va ≤ w.1
  high : w.1 + w.2.length ≤ va + bs.length
  bytes : ∀ j, j < w.2.length → w.2.getD j 0 = bs.getD (w.1 - va + j) 0
  block : ∀ j, j < w.2.length → (w.1 + j) / 4096 = w.1 / 4096
  pos : w.2 ≠ []

theorem isPiece_of_mem {va : Nat} {bs : List Byte} {w : Nat × List Byte} (h : w ∈ piecesOf va bs) : IsPiece va bs w := by
  revert h
  refine piecesOf_induction (P := fun va bs => w ∈ piecesOf va bs → IsPiece va bs w) (fun va h => nomatch h) (fun va bs hne ih h => ?_) va bs
  have hlt := lt_nextBlock va
  have hpos : 0 < bs.length := List.length_pos_of_ne_nil hne
  rw [piecesOf_cons va hne] at h
  rcases List.mem_cons.1 h with rfl | h
  · have hlen : (bs.take (nextBlock va - va)).length ≤ nextBlock va - va := List.length_take_le _ _
    refine ⟨le_rfl, by simp, fun j hj => ?_, fun j hj => ?_, ?_⟩
    · simp only [List.length_take, lt_min_iff] at hj
      simp [List.getD_eq_getElem?_getD, List.getElem?_take, hj.1]
    · have : j < nextBlock va - va := lt_of_lt_of_le hj hlen
      simp only
      unfold nextBlock at this
      omega
    · intro h0
      have : (bs.take (nextBlock va - va)).length = 0 := congrArg List.length h0
      rw [List.length_take] at this
      omega
  · by_cases hc : nextBlock va - va ≤ bs.length
    · obtain ⟨hlow, hhigh, hbytes, hblock, hpos⟩ := ih h
      rw [List.length_drop] at hhigh
      refine ⟨by omega, by omega, fun j hj => ?_, hblock, hpos⟩
      rw [hbytes j hj]
      simp only [List.getD_eq_getElem?_getD, List.getElem?_drop]
      congr 2
      omega
    · rw [List.drop_eq_nil_of_le (by omega), piecesOf_nil] at h
      exact nomatch h

/-- Every byte lies in a piece. -/
theorem exists_piecesOf {va : Nat} {bs : List Byte} {q : Nat} (h1 : va ≤ q) (h2 : q < va + bs.length) :
    ∃ w ∈ piecesOf va bs, w.1 ≤ q ∧ q < w.1 + w.2.length := by
  revert h1 h2
  refine piecesOf_induction (P := fun va bs => va ≤ q → q < va + bs.length → ∃ w ∈ piecesOf va bs, w.1 ≤ q ∧ q < w.1 + w.2.length)
    (fun va h1 h2 => ?_) (fun va bs hne ih h1 h2 => ?_) va bs
  · simp only [List.length_nil] at h2
    omega
  · have hlt := lt_nextBlock va
    rw [piecesOf_cons va hne]
    by_cases hq : q < nextBlock va
    · exact ⟨_, List.mem_cons_self, h1, by simp only [List.length_take]; omega⟩
    · obtain ⟨w, hw, hwq⟩ := ih (by omega) (by rw [List.length_drop]; omega)
      exact ⟨w, List.mem_cons_of_mem _ hw, hwq⟩

theorem sum_piecesOf (va : Nat) (bs : List Byte) : ((piecesOf va bs).map (·.2.length)).sum = bs.length := by
  refine piecesOf_induction (P := fun va bs => ((piecesOf va bs).map (·.2.length)).sum = bs.length) (fun va => rfl) (fun va bs hne ih => ?_) va bs
  rw [piecesOf_cons va hne, List.map_cons, List.sum_cons, ih, List.length_take, List.length_drop]
  omega

/-- Bytes inside one block are one piece. -/
theorem piecesOf_block {va : Nat} {bs : List Byte} (hne : bs ≠ []) (h : ∀ j, j < bs.length → (va + j) / 4096 = va / 4096) :
    piecesOf va bs = [(va, bs)] := by
  have hlen : bs.length ≤ nextBlock va - va := by
    by_contra hlt
    have := h (nextBlock va - va) (by omega)
    unfold nextBlock at this
    omega
  rw [piecesOf_cons va hne, List.take_of_length_le hlen, List.drop_eq_nil_of_le hlen, piecesOf_nil]

theorem XMap.split_piece {m : XMap} {va : Nat} {bs : List Byte} {w : Nat × List Byte} (h : IsPiece va bs w) : m.split w = [(m.pa w.1, w.2)] := by
  rw [XMap.split_eq, piecesOf_block h.pos h.block]
  rfl

theorem XMap.cells_append (m : XMap) (va : Nat) (l r : List Byte) : m.cells (va, l ++ r) = m.cells (va, l) ++ m.cells (va + l.length, r) := by
  simp only [XMap.cells, List.mapIdx_append]
  congr 2
  funext k b
  rw [Nat.add_comm k, Nat.add_assoc]

/-- The cells of bytes inside one block. -/
theorem XMap.cells_block {m : XMap} {va : Nat} {bs : List Byte} (hk : m.knows va) (h : ∀ j, j < bs.length → (va + j) / 4096 = va / 4096) :
    m.cells (va, bs) = cellsFrom (m.pa va) bs := by
  have hcells (l : List Byte) (a : Nat) : cellsFrom a l = l.mapIdx (fun k b => (a + k, b)) := by
    induction l generalizing a with
    | nil => rfl
    | cons b l ih =>
      rw [cellsFrom, ih, List.mapIdx_cons]
      congr 2
      funext k b
      rw [Nat.add_assoc, Nat.add_comm 1]
  rw [hcells, XMap.cells]
  refine List.ext_getElem (by simp) fun i h1 h2 => ?_
  simp only [List.getElem_mapIdx]
  rw [XMap.pa_add hk (h i (by simpa using h1))]

/-- The physical writes of bytes are their bytes at their physical addresses. -/
theorem XMap.cellsOf_split {m : XMap} {va : Nat} {bs : List Byte} (hk : ∀ k, k < bs.length → m.knows (va + k)) :
    cellsOf (m.split (va, bs)) = m.cells (va, bs) := by
  revert hk
  refine piecesOf_induction (P := fun va bs => (∀ k, k < bs.length → m.knows (va + k)) → cellsOf (m.split (va, bs)) = m.cells (va, bs))
    (fun va _ => rfl) (fun va bs hne ih hk => ?_) va bs
  have hlt := lt_nextBlock va
  have hpos : 0 < bs.length := List.length_pos_of_ne_nil hne
  have hhead : ∀ j, j < (bs.take (nextBlock va - va)).length → (va + j) / 4096 = va / 4096 := by
    intro j hj
    have := lt_of_lt_of_le hj (List.length_take_le _ _)
    unfold nextBlock at this
    omega
  have hrest : cellsOf (m.split (nextBlock va, bs.drop (nextBlock va - va))) = m.cells (nextBlock va, bs.drop (nextBlock va - va)) := by
    refine ih fun k hk' => ?_
    rw [List.length_drop] at hk'
    have := hk (nextBlock va - va + k) (by omega)
    rwa [show va + (nextBlock va - va + k) = nextBlock va + k by omega] at this
  have hcut : m.cells (va, bs) = cellsFrom (m.pa va) (bs.take (nextBlock va - va)) ++ m.cells (nextBlock va, bs.drop (nextBlock va - va)) := by
    conv_lhs => rw [← List.take_append_drop (nextBlock va - va) bs]
    rw [XMap.cells_append, XMap.cells_block (by simpa using hk 0 hpos) hhead]
    by_cases hc : nextBlock va - va ≤ bs.length
    · rw [List.length_take, Nat.min_eq_left hc, show va + (nextBlock va - va) = nextBlock va by omega]
    · rw [List.drop_eq_nil_of_le (by omega)]
      rfl
  rw [hcut, ← hrest, XMap.split_eq, piecesOf_cons va hne, XMap.split_eq]
  rfl

/-! Stores. -/

theorem cellsFrom_length (a : Nat) (bs : List Byte) : (cellsFrom a bs).length = bs.length := by
  induction bs generalizing a with
  | nil => rfl
  | cons b bs ih => simp [cellsFrom, ih]

theorem mem_cellsFrom_iff {a : Nat} {bs : List Byte} {c : Host.Cell} : c ∈ cellsFrom a bs ↔ ∃ j, j < bs.length ∧ c = (a + j, bs.getD j 0) := by
  induction bs generalizing a with
  | nil => simp [cellsFrom]
  | cons b bs ih =>
    rw [cellsFrom, List.mem_cons, ih]
    constructor
    · rintro (rfl | ⟨j, hj, rfl⟩)
      · exact ⟨0, by simp, by simp⟩
      · exact ⟨j + 1, by simpa using hj, by rw [Nat.add_assoc, Nat.add_comm 1]; rfl⟩
    · rintro ⟨_ | j, hj, rfl⟩
      · exact .inl (by simp)
      · exact .inr ⟨j, by simpa using hj, by rw [Nat.add_assoc, Nat.add_comm 1]; rfl⟩

theorem cellsOf_append (l r : List (Nat × List Byte)) : cellsOf (l ++ r) = cellsOf l ++ cellsOf r := by simp [cellsOf]

/-- The writes of chosen pieces of a store's bytes. -/
def chosenWrites (m : XMap) (p : Nat × List Byte → Bool) (va : Nat) (bs : List Byte) : List (Nat × List Byte) :=
  (((piecesOf va bs).filter p).map m.split).flatten

theorem chosenWrites_eq (m : XMap) (p : Nat × List Byte → Bool) (va : Nat) (bs : List Byte) :
    chosenWrites m p va bs = ((piecesOf va bs).filter p).map (fun w => (m.pa w.1, w.2)) := by
  have hsplit : ((piecesOf va bs).filter p).map m.split = ((piecesOf va bs).filter p).map (fun w => [(m.pa w.1, w.2)]) :=
    List.map_congr_left fun w hw => XMap.split_piece (isPiece_of_mem (List.mem_filter.1 hw).1)
  rw [chosenWrites, hsplit, ← List.flatMap_def, List.map_eq_flatMap]

theorem chosenWrites_all {m : XMap} {p : Nat × List Byte → Bool} {va : Nat} {bs : List Byte} (hp : ∀ w ∈ piecesOf va bs, p w = true) :
    chosenWrites m p va bs = m.split (va, bs) := by
  rw [chosenWrites_eq, List.filter_eq_self.2 hp, XMap.split_eq]

theorem chosenWrites_none {m : XMap} {p : Nat × List Byte → Bool} {va : Nat} {bs : List Byte} (hp : ∀ w ∈ piecesOf va bs, p w = false) :
    chosenWrites m p va bs = [] := by
  have : (piecesOf va bs).filter p = [] := List.filter_eq_nil_iff.2 fun w hw => by simp [hp w hw]
  rw [chosenWrites_eq, this]
  rfl

theorem length_cellsOf_chosenWrites (m : XMap) (p : Nat × List Byte → Bool) (va : Nat) (bs : List Byte) :
    (cellsOf (chosenWrites m p va bs)).length + (cellsOf (chosenWrites m (fun w => !p w) va bs)).length = bs.length := by
  rw [chosenWrites_eq, chosenWrites_eq, ← sum_piecesOf va bs]
  generalize piecesOf va bs = l
  induction l with
  | nil => rfl
  | cons w l ih =>
    cases hp : p w <;> simp [hp, cellsOf, cellsFrom_length] <;> simp [cellsOf, cellsFrom_length] at ih <;> omega

/-- A stored byte lies among the writes of its piece. -/
theorem mem_cellsOf_chosenWrites {m : XMap} {p : Nat × List Byte → Bool} {va : Nat} {bs : List Byte} {k : Nat} (hk : k < bs.length)
    (hknows : ∀ k, k < bs.length → m.knows (va + k)) (hp : ∀ w ∈ piecesOf va bs, w.1 / 4096 = (va + k) / 4096 → p w = true) :
    (m.pa (va + k), bs.getD k 0) ∈ cellsOf (chosenWrites m p va bs) := by
  obtain ⟨w, hw, hlo, hhi⟩ := exists_piecesOf (va := va) (bs := bs) (q := va + k) (by omega) (by omega)
  have hpiece := isPiece_of_mem hw
  obtain ⟨j, hj⟩ : ∃ j, va + k = w.1 + j := ⟨va + k - w.1, by omega⟩
  have hjlt : j < w.2.length := by omega
  have hblock := hpiece.block j hjlt
  have hlow := hpiece.low
  have hhigh := hpiece.high
  have hknow : m.knows w.1 := by
    have := hknows (w.1 - va) (by omega)
    rwa [show va + (w.1 - va) = w.1 by omega] at this
  have hcell : (m.pa (va + k), bs.getD k 0) ∈ cellsFrom (m.pa w.1) w.2 := by
    rw [mem_cellsFrom_iff]
    refine ⟨j, hjlt, ?_⟩
    rw [hj, XMap.pa_add hknow hblock, hpiece.bytes j hjlt, show w.1 - va + j = k by omega]
  rw [chosenWrites_eq, cellsOf, List.mem_flatten]
  refine ⟨_, List.mem_map.2 ⟨_, List.mem_map.2 ⟨w, List.mem_filter.2 ⟨hw, hp w hw ?_⟩, rfl⟩, rfl⟩, hcell⟩
  rw [hj, hblock]

/-- A page of cacheable memory holds the address. -/
def XMap.cachedAt (m : XMap) (va : Nat) : Bool := ((m.leaf va).map (fun x => x.attr == 0)).getD false

theorem storeEntry_eq (s : State) (m : XMap) (kind : SbKind) (va : Nat) (bs : List Byte) :
    s.storeEntry m kind va bs =
      { kind := kind, va := va, len := bs.length, writes := chosenWrites m (fun w => m.cachedAt w.1) va bs,
        raw := chosenWrites m (fun w => !m.cachedAt w.1) va bs, runs := [], cached := m.allCached, device := m.device,
        poison := [], part := s.core.unit.ident.part, task := s.core.unit.ident.task, launch := s.core.unit.ident.launch } := rfl

theorem XMap.cachedAt_of_allCached {m : XMap} (h : m.allCached = true) {va : Nat} (hk : m.knows va) : m.cachedAt va = true := by
  obtain ⟨x, hx⟩ := Option.isSome_iff_exists.1 hk
  rw [XMap.cachedAt, hx]
  simp only [XMap.leaf, Option.map_eq_some_iff] at hx
  obtain ⟨e, he, rfl⟩ := hx
  exact List.all_eq_true.1 h e (List.mem_of_find?_eq_some he)

theorem store_completes {i : Instr} {s u : State} {r a : BitVec 5} {sz : BitVec 3} {off : BitVec 12} {kind : SbKind}
    (hi : storeForm i = some (r, a, sz, off, kind))
    (h : s.store kind (addrOf (s.x a + off.signExtend 64)) (storedBytes s r (2 ^ sz.toNat)) = .ok u) : Completes i s u := by
  have hdata : s.storeData r sz = storedBytes s r (2 ^ sz.toNat) := by
    simp only [State.storeData, storedBytes, sizeBytes, beq_iff_eq]
  unfold storeForm at hi
  split at hi
  · cases hi
    change execSt _ _ _ _ s = _
    rw [execSt, State.ea, hdata, h]
    rfl
  · cases hi
    change execStRel _ _ _ _ s = _
    rw [execStRel, State.ea, hdata, h]
    rfl
  · cases hi

theorem storedBytes_length (s : State) (r : BitVec 5) (n : Nat) : (storedBytes s r n).length = n := by
  unfold storedBytes
  split
  · next h => rw [List.length_append, leBytes_length, leBytes_length, h]
  · exact leBytes_length ..

/-- A buffer with room takes a store and performs none (08 R213). -/
theorem pushStore_of_room {s : State} {e : SbEntry} (h : s.scalarStores < 32) : s.pushStore e = .ok { s with core.sb := s.core.sb ++ [e] } := by
  have hroom : (e.kind.buffered && decide (32 ≤ s.scalarStores)) = false := by simp [h]
  simp only [State.pushStore, hroom, Bool.false_eq_true, if_false]

/-- A store of a unit retires once its translations are found (05 R149). -/
theorem store_ok {s : State} {kind : SbKind} {va : Nat} {bs : List Byte} {m : XMap} (hserv : s.core.service = none)
    (hend : va + bs.length ≤ 2 ^ 56) (hacc : s.access .write false [(va, bs.length)] = .ok m) (hroom : s.scalarStores < 32) :
    s.store kind va bs = .ok { s.touchAll .write m with core.sb := s.core.sb ++ [s.storeEntry m kind va bs] } := by
  have hsb : (s.touchAll .write m).core.sb = s.core.sb := (touchAll_memOnly ..).stores
  have hroom' : (s.touchAll .write m).scalarStores < 32 := by rwa [State.scalarStores, hsb]
  rw [State.store]
  simp only [needAddr_ok hend, hacc, hserv, Option.isSome_none, Bool.false_and, run_ok_bind, Bool.false_eq_true, if_false,
    pushStore_of_room hroom', hsb]

/-- Settles O32, by the entry that a store retires as. -/
theorem storeRetirement : Obligations.StoreRetirement := by
  intro i s r a sz off kind m hi hwf hserv hs ea n data cacheable hend hacc hroom
  have hlen : data.length = n := storedBytes_length ..
  have hstore : s.store kind ea data = _ := store_ok hserv (by rw [hlen]; exact hend) (by rw [hlen]; exact hacc) hroom
  have hknows (k : Nat) (hk : k < data.length) : m.knows (ea + k) :=
    access_knows hacc (r := (ea, n)) (by simp) (by simp) (by simpa [hlen] using hk)
  have hblock {w : Nat × List Byte} {k : Nat} (h : w.1 / 4096 = (ea + k) / 4096) : m.cachedAt w.1 = m.cachedAt (ea + k) := by
    rw [XMap.cachedAt, XMap.cachedAt, m.leaf_congr h]
  have hw := touchAll_writes s .write m
  refine ⟨_, s.storeEntry m kind ea data, store_completes hi hstore, rfl, rfl, rfl, hlen, ⟨rfl, rfl, rfl⟩, rfl, fun k hk => ?_, ?_, fun hall => ?_, ?_, ?_⟩
  · rw [storeEntry_eq]
    change (m.pa (ea + k), data.getD k 0) ∈ cellsOf (if m.cachedAt (ea + k) then _ else _)
    cases hc : m.cachedAt (ea + k) with
    | true => exact mem_cellsOf_chosenWrites (by omega) hknows fun w _ h => (hblock h).trans hc
    | false => exact mem_cellsOf_chosenWrites (by omega) hknows fun w _ h => by rw [hblock h, hc]; rfl
  · rw [storeEntry_eq, ← hlen]
    exact length_cellsOf_chosenWrites ..
  · have hcached (w : Nat × List Byte) (hmem : w ∈ piecesOf ea data) : m.cachedAt w.1 = true := by
      have hpiece := isPiece_of_mem hmem
      have hpos := List.length_pos_of_ne_nil hpiece.pos
      have hlow := hpiece.low
      have hhigh := hpiece.high
      refine XMap.cachedAt_of_allCached hall ?_
      have := hknows (w.1 - ea) (by omega)
      rwa [show ea + (w.1 - ea) = w.1 by omega] at this
    refine ⟨hall, chosenWrites_none fun w hmem => congrArg not (hcached w hmem), ?_⟩
    rw [storeEntry_eq, chosenWrites_all hcached]
    exact XMap.cellsOf_split hknows
  · exact hw.rest.rest
  · intro b hb
    exact hw.bytes hs.l1 b (not_not.2 hb)

end Sys2Proof.Machine
end

section
/-! Where an access traps (05 R144, R145, R149; 10 R263, R264, R266; 16 R406). -/

namespace Sys2Proof.Machine

/-- The loads and the stores with the kind of their access. -/
def AccessForm (i : Instr) (r a : BitVec 5) (sz : BitVec 3) (off : BitVec 12) (acc : Access) : Prop :=
  ((∃ g sc, loadForm i = some (r, a, sz, off, g, sc)) ∧ acc = .read) ∨ ((∃ k, storeForm i = some (r, a, sz, off, k)) ∧ acc = .write)

/-- The access is one that its home performs. -/
def performedAtHome (i : Instr) (s : State) (acc : Access) : Bool :=
  acc == .read && (s.core.service.isSome || (loadForm i).any (fun l => 2 ≤ l.2.2.2.2.2.toNat))

/-- The checks of a load or a store: its range, and its access. -/
def accessChecks (s : State) (acc : Access) (va n : Nat) (atHome : Bool) : Run? XMap :=
  needAddr va n >>= fun _ => s.access acc false [(va, n)] atHome

theorem load_stops {s : State} {path : LoadPath} {va n : Nat} {e : Stop}
    (h : accessChecks s .read va n (path == .home || s.core.service.isSome) = .error e) : s.load path va n = .error e := by
  rw [accessChecks] at h
  rw [State.load]
  cases ha : needAddr va n with
  | error f =>
    rw [ha] at h
    cases h
    rfl
  | ok u =>
    rw [ha, run_ok_bind] at h
    rw [run_ok_bind, h]
    rfl

theorem store_stops {s : State} {kind : SbKind} {va : Nat} {bs : List Byte} {e : Stop}
    (h : accessChecks s .write va bs.length false = .error e) : s.store kind va bs = .error e := by
  rw [accessChecks] at h
  rw [State.store]
  cases ha : needAddr va bs.length with
  | error f =>
    rw [ha] at h
    cases h
    rfl
  | ok u =>
    rw [ha, run_ok_bind] at h
    rw [run_ok_bind, h]
    rfl

/-- A load is its reading, and what it does with what was read. -/
theorem exec_loadForm {i : Instr} {s : State} {d a : BitVec 5} {sz : BitVec 3} {off : BitVec 12} {signed : Bool} {scope : BitVec 2}
    (hi : loadForm i = some (d, a, sz, off, signed, scope)) :
    ∃ f, exec i s = s.finish (s.load (loadPath scope) (addrOf (s.x a + off.signExtend 64)) (2 ^ sz.toNat) >>= f) := by
  unfold loadForm at hi
  split at hi <;> cases hi
  all_goals exact ⟨_, rfl⟩

theorem exec_storeForm {i : Instr} {s : State} {r a : BitVec 5} {sz : BitVec 3} {off : BitVec 12} {kind : SbKind}
    (hi : storeForm i = some (r, a, sz, off, kind)) :
    ∃ f, exec i s = s.finish (s.store kind (addrOf (s.x a + off.signExtend 64)) (storedBytes s r (2 ^ sz.toNat)) >>= f) := by
  have hdata : s.storeData r sz = storedBytes s r (2 ^ sz.toNat) := by
    simp only [State.storeData, storedBytes, sizeBytes, beq_iff_eq]
  rw [← hdata]
  unfold storeForm at hi
  split at hi <;> cases hi
  all_goals exact ⟨_, rfl⟩

/-- A load or a store ends with what its checks end with. -/
theorem exec_stops {i : Instr} {s : State} {r a : BitVec 5} {sz : BitVec 3} {off : BitVec 12} {acc : Access}
    (hi : AccessForm i r a sz off acc) {e : Stop}
    (h : accessChecks s acc (addrOf (s.x a + off.signExtend 64)) (2 ^ sz.toNat) (performedAtHome i s acc) = .error e) :
    exec i s = s.finish (.error e) := by
  rcases hi with ⟨⟨g, sc, hi⟩, rfl⟩ | ⟨⟨k, hi⟩, rfl⟩
  · obtain ⟨f, hf⟩ := exec_loadForm (s := s) hi
    have hpath : performedAtHome i s .read = (loadPath sc == LoadPath.home || s.core.service.isSome) := by
      rw [loadPath_home, performedAtHome, hi, Bool.or_comm]
      rfl
    rw [hf, load_stops (hpath ▸ h)]
    rfl
  · obtain ⟨f, hf⟩ := exec_storeForm (s := s) hi
    rw [hf, store_stops]
    · rfl
    · rw [storedBytes_length]
      exact h

theorem accessChecks_inside {s : State} {acc : Access} {va n : Nat} {atHome : Bool} (h : va + n ≤ 2 ^ 56) :
    accessChecks s acc va n atHome = s.access acc false [(va, n)] atHome := by
  rw [accessChecks, needAddr_ok h, run_ok_bind]

theorem accessChecks_beyond {s : State} {acc : Access} {va n : Nat} {atHome : Bool} (h : 2 ^ 56 < va + n) :
    accessChecks s acc va n atHome = .error (.trap .addrRange (BitVec.ofNat 64 va) 0) := by
  rw [accessChecks, needAddr, decide_eq_false (show ¬va + n ≤ vaEnd from not_le.2 h)]
  rfl

/-! The blocks of one range. -/

theorem addBlock_of_lt {v : Nat} {l : List Nat} (h : ∀ b ∈ l, b / 4096 < v / 4096) : addBlock v l = l ++ [v] := by
  induction l with
  | nil => rfl
  | cons b l ih =>
    have hb := h b (by simp)
    rw [addBlock, if_neg (by omega), if_neg (by simp; omega), ih fun c hc => h c (by simp [hc])]
    rfl

theorem foldl_addBlock_of_sorted {l acc : List Nat} (h : (acc ++ l).Pairwise (fun a b => a / 4096 < b / 4096)) :
    l.foldl (fun acc b => addBlock b acc) acc = acc ++ l := by
  induction l generalizing acc with
  | nil => simp
  | cons b l ih =>
    have hb : ∀ c ∈ acc, c / 4096 < b / 4096 := fun c hc => (List.pairwise_append.1 h).2.2 c hc b (by simp)
    rw [List.foldl_cons, addBlock_of_lt hb, ih (by simpa using h), List.append_assoc]
    rfl

theorem blocksOf_sorted (va n : Nat) : (blocksOf va n).Pairwise (fun a b => a / 4096 < b / 4096) := by
  induction n using Nat.strong_induction_on generalizing va with
  | _ n ih =>
    by_cases h0 : n = 0
    · subst h0
      exact List.Pairwise.nil
    · have hlt := lt_nextBlock va
      rw [blocksOf_pos va (by omega), List.pairwise_cons]
      refine ⟨fun b hb => ?_, ih _ (by omega) _⟩
      have := le_of_mem_blocksOf hb
      unfold nextBlock at this
      omega

theorem blocksOfAll_singleton (va n : Nat) : blocksOfAll [(va, n)] = blocksOf va n := by
  have := foldl_addBlock_of_sorted (l := blocksOf va n) (acc := []) (by simpa using blocksOf_sorted va n)
  simpa [blocksOfAll] using this

/-! Failing translations (10 R266). -/

theorem access_of_first {s : State} {acc : Access} {va n : Nat} {atHome : Bool} {c : Cause} (hn : 0 < n) (ht : s.walkTaken acc va = true)
    (h : s.translate acc false va = .error c) : s.access acc false [(va, n)] atHome = .error (.trap c (BitVec.ofNat 64 va) 0) := by
  rw [State.access, blocksOfAll_singleton, blocksOf_pos va hn, State.translateBlocks, State.translateFrom]
  simp only [samePage, ht, needTaken_true, h, run_ok_bind, run_error_bind]

theorem access_of_second {s : State} {acc : Access} {va n : Nat} {atHome : Bool} {c : Cause} {x : Xl} (ht : s.walkTaken acc va = true)
    (hx : s.translate acc false va = .ok x) (hn : nextBlock va < va + n)
    (hpage : va / 2 ^ max 12 x.size ≠ nextBlock va / 2 ^ max 12 x.size) (ht' : s.walkTaken acc (nextBlock va) = true)
    (h : s.translate acc false (nextBlock va) = .error c) :
    s.access acc false [(va, n)] atHome = .error (.trap c (BitVec.ofNat 64 (nextBlock va)) 0) := by
  have hlt := lt_nextBlock va
  have hother : samePage (some (va, x)) (nextBlock va) = none := if_neg (by simpa using hpage)
  rw [State.access, blocksOfAll_singleton, blocksOf_pos va (by omega), blocksOf_pos (nextBlock va) (by omega), State.translateBlocks,
    State.translateFrom]
  simp only [samePage.eq_2, ht, needTaken_true, hx, run_ok_bind]
  rw [State.translateFrom]
  simp only [hother, ht', needTaken_true, h, run_ok_bind, run_error_bind]

/-! One translation (10 R263, R264). -/

theorem translate_of_walk {s : State} {acc : Access} {va : Nat} (hserv : s.core.service = none) (hmiss : s.tlbHit s.part va acc = none) :
    s.translate acc false va = (do
      let x ← s.walk s.part va
      leafCheck x acc s.k.pl false
      .ok x) := by
  rw [State.translate]
  simp only [hserv, hmiss, Option.isSome_none, Bool.false_eq_true, if_false]

/-- The page denies a scalar access: reading, writing, or any access at unit level. -/
def denied (x : Xl) (acc : Access) (pl : BitVec 2) : Prop :=
  (acc = .read ∧ x.pte.getLsbD 5 = false) ∨ (acc = .write ∧ x.pte.getLsbD 6 = false) ∨ (pl = 0 ∧ x.pte.getLsbD 8 = false)

theorem leafCheck_scalar (x : Xl) {acc : Access} (pl : BitVec 2) (hacc : acc = .read ∨ acc = .write) [Decidable (denied x acc pl)] :
    leafCheck x acc pl false = if denied x acc pl then .error .protection else if accStores acc && x.by? then .error .berylWrite else .ok () := by
  have hperm : ((!accReads acc || x.pte.getLsbD 5) && (!accStores acc || x.pte.getLsbD 6) && (acc != .fetch || x.pte.getLsbD 7)
      && (pl != 0 || x.pte.getLsbD 8)) = !(decide (denied x acc pl)) := by
    rw [Bool.eq_iff_iff, Bool.not_eq_true', decide_eq_false_iff_not, denied]
    generalize x.pte.getLsbD 5 = read, x.pte.getLsbD 6 = write, x.pte.getLsbD 8 = unit
    rcases hacc with rfl | rfl
    · cases read <;> cases unit <;> simp [accReads, accStores]
    · cases write <;> cases unit <;> simp [accReads, accStores]
  have hfetch : (false || acc == .fetch) = false := by rcases hacc with rfl | rfl <;> rfl
  rw [leafCheck]
  simp only [hperm, hfetch, Bool.false_and, Bool.not_not, decide_eq_true_eq, Bool.false_eq_true, if_false]

/-- Settles O33, by the first check that fails. -/
theorem accessTraps : Obligations.AccessTraps := by
  intro i s r a sz off acc hi ea n atHome
  have hi : AccessForm i r a sz off acc := hi
  have hacc : acc = .read ∨ acc = .write := by
    rcases hi with ⟨-, h⟩ | ⟨-, h⟩
    · exact .inl h
    · exact .inr h
  have hpos : 0 < n := Nat.two_pow_pos _
  have hstop {e : Stop} (hend : ea + n ≤ 2 ^ 56) (h : s.access acc false [(ea, n)] atHome = .error e) : exec i s = s.finish (.error e) :=
    exec_stops hi ((accessChecks_inside hend).trans h)
  refine ⟨fun h => ⟨0, exec_stops hi (accessChecks_beyond h)⟩, fun hend c v p h => ⟨p, hstop hend h⟩, fun hend k h => hstop hend h,
    fun hend ht => ⟨fun c h => ⟨0, hstop hend (access_of_first hpos ht h)⟩, ?second⟩, ?walk, ?leaf⟩
  case second =>
    intro x c hx next hn hpage ht' h
    exact ⟨0, hstop hend (access_of_second ht hx hn hpage ht' h)⟩
  case walk =>
    intro va c hserv hmiss hwalk
    rw [translate_of_walk hserv hmiss, hwalk]
    rfl
  case leaf =>
    intro va x hserv hmiss hwalk d
    classical
    have hd : d ↔ denied x acc s.k.pl := Iff.rfl
    have ht := translate_of_walk (acc := acc) hserv hmiss
    rw [hwalk] at ht
    change _ = (leafCheck x acc s.k.pl false >>= fun _ => .ok x) at ht
    rw [leafCheck_scalar x s.k.pl hacc] at ht
    refine ⟨fun h => ?_, fun h hw hby => ?_, fun h hr => ?_⟩
    · rw [ht, if_pos (hd.1 h)]
      rfl
    · rw [ht, if_neg (hd.not.1 h), hw, show (accStores .write && x.by?) = true from hby]
      rfl
    · rw [ht, if_neg (hd.not.1 h), hr]
      rfl

end Sys2Proof.Machine
end

section
/-! The oldest retired store (01 R27; 10 R264; 11 R292; 16 R426, R427). -/

namespace Sys2Proof.Machine

/-! Bytes written one after another. -/

theorem lastCell_cellsFrom (bs : List Byte) (a q : Nat) :
    lastCell (cellsFrom a bs) q = if a ≤ q ∧ q < a + bs.length then some (bs.getD (q - a) 0) else none := by
  have hsame : lastCell (cellsFrom a bs) q = cellAt (cellsFrom a bs) q := by
    induction bs generalizing a with
    | nil => rfl
    | cons b r ih =>
      have hlast : lastCell (cellsFrom a (b :: r)) q = (lastCell (cellsFrom (a + 1) r) q).or (cellAt [(a, b)] q) := by
        simp only [lastCell, cellsFrom, List.reverse_cons, cellAt_append]
      have hfirst : cellAt (cellsFrom a (b :: r)) q = (cellAt [(a, b)] q).or (cellAt (cellsFrom (a + 1) r) q) :=
        cellAt_append [(a, b)] _ q
      rw [hlast, hfirst, ih, cellAt_cellsFrom]
      by_cases h : a = q
      · subst h; simp [cellAt]
      · simp [cellAt, h]
  rw [hsame, cellAt_cellsFrom]

theorem lastCell_cellsOf_cons (w : Nat × List Byte) (ws : List (Nat × List Byte)) (q : Nat) :
    lastCell (cellsOf (w :: ws)) q = (lastCell (cellsOf ws) q).or (lastCell (cellsFrom w.1 w.2) q) := by
  simp only [lastCell, cellsOf, List.map_cons, List.flatten_cons, List.reverse_append, cellAt_append]

/-- f writes w as a path other than the Beryl services does (12 R296), in the view v of memory, on states that meet P. -/
def Lays (v : State → Nat → Byte) (P : State → Prop) (f : State → Nat × List Byte → State) : Prop :=
  ∀ s w, P s → MemOnly s (f s w) ∧ P (f s w) ∧ ∀ q, v (f s w) q = if s.lands w.1 w.2.length q then w.2.getD (q - w.1) 0 else v s q

theorem MemOnly.inPool {s t : State} (h : MemOnly s t) (pa n : Nat) : t.inPool pa n = s.inPool pa n := by
  have : t.beryl = s.beryl := congrArg (·.beryl) h.rest
  rw [State.inPool, State.inPool, this]

theorem Lays.foldl {v : State → Nat → Byte} {P : State → Prop} {f : State → Nat × List Byte → State} (hf : Lays v P f)
    (ws : List (Nat × List Byte)) (s : State) (hs : P s) :
    MemOnly s (ws.foldl f s) ∧ P (ws.foldl f s)
      ∧ ∀ q, v (ws.foldl f s) q = if s.inPool q 1 = true then v s q else (lastCell (cellsOf ws) q).getD (v s q) := by
  induction ws generalizing s with
  | nil => exact ⟨MemOnly.refl s, hs, fun q => by simp [cellsOf, lastCell, cellAt]⟩
  | cons w ws ih =>
    obtain ⟨hm, hp, hv⟩ := hf s w hs
    obtain ⟨km, kp, kv⟩ := ih (f s w) hp
    refine ⟨hm.trans km, kp, fun q => ?_⟩
    rw [List.foldl_cons, kv, hm.inPool, hv, lastCell_cellsOf_cons, lastCell_cellsFrom]
    by_cases hq : s.inPool q 1 = true
    · simp [State.lands, hq]
    · have hq' : s.inPool q 1 = false := by simpa using hq
      by_cases hw : w.1 ≤ q ∧ q < w.1 + w.2.length
      · rw [if_neg hq, if_neg hq, if_pos ⟨hw.1, hw.2, hq'⟩, if_pos hw]
        cases lastCell (cellsOf ws) q <;> rfl
      · rw [if_neg hq, if_neg hq, if_neg (fun h => hw ⟨h.1, h.2.1⟩), if_neg hw, Option.or_none]

/-! Writes into the L1. -/

/-- A state whose core is no service core and whose L1 has its form. -/
def Plain (s : State) : Prop := s.core.service = none ∧ s.core.l1.Ok

theorem cacheWrite_stores (hint : BitVec 2) : Stores (fun s w => s.cacheWrite w.1 w.2 hint) := fun s w h =>
  ⟨cacheWrite_memOnly s w.1 w.2 hint, by
    have hf := fillForWrite_filled s w.1 w.2.length hint
    exact putCells_distinct _ _ _ (by rw [hf.dirty]; exact h), by
    have hf := fillForWrite_filled s w.1 w.2.length hint
    intro hw
    change (s.fillForWrite w.1 w.2.length hint).mem.wf = true
    rw [hf.mem]; exact hw,
    fun q => cacheWrite_newest s w.1 q w.2 hint⟩

theorem performWrite_lays (hint : BitVec 2) : Lays State.newest Plain (fun s w => s.performWrite true w hint) := by
  rintro s w ⟨hsvc, hl1⟩
  have hm := performWrite_memOnly s true w hint
  have heq : s.performWrite true w hint = (s.outside w).foldl (fun s w => s.cacheWrite w.1 w.2 hint) s := by
    simp [State.performWrite, hsvc]
  refine ⟨hm, ⟨hm.service.trans hsvc, ?_⟩, fun q => ?_⟩
  · change (s.performWrite true w hint).core.l1.Ok
    rw [heq]
    exact foldl_ok (f := fun s (w : Nat × List Byte) => s.cacheWrite w.1 w.2 hint) (fun s w h => cacheWrite_ok s w.1 w.2 h hint) _ s hl1
  · change (s.performWrite true w hint).newest q = _
    rw [heq]
    exact (((cacheWrite_stores hint).foldl (s.outside w) s hl1.distinct).2.2.2 q).trans (cover_outside s w.1 q w.2 _)

theorem ownHomeWrite_lays : Lays State.newest Plain (fun s w => s.ownHomeWrite w.1 w.2) := by
  rintro s w ⟨hsvc, hl1⟩
  have hm := ownHomeWrite_memOnly s w.1 w.2
  exact ⟨hm, ⟨hm.service.trans hsvc, ownHomeWrite_ok s w.1 w.2 hl1⟩, (ownHomeWrite_spec s w.1 w.2 hl1.distinct).2.2.2⟩

/-! Writes at memory, below the L2 (10 R264). -/

theorem getD_set_cells (cells : List Host.Cell) (bs : List Byte) (a : Nat) (hbs : bs.length = 128) (hd : Distinct cells)
    (hl : ∀ c ∈ cells, lineOf c.1 = lineOf a) :
    (cells.foldl (fun bs c => bs.set (c.1 % 128) c.2) bs).getD (a % 128) 0 = (cellAt cells a).getD (bs.getD (a % 128) 0) := by
  induction cells generalizing bs with
  | nil => rfl
  | cons c r ih =>
    have hline : c.1 / 128 = a / 128 := hl c List.mem_cons_self
    rw [List.foldl_cons, ih _ (by simpa using hbs) hd.tail (fun e he => hl e (List.mem_cons_of_mem _ he))]
    by_cases h : c.1 = a
    · have hr : cellAt r a = none := (cellAt_eq_none r a).2 fun e he hea =>
        (List.nodup_cons.1 hd).1 (List.mem_map.2 ⟨e, he, hea.trans h.symm⟩)
      have hlt : a % 128 < bs.length := by omega
      simp [cellAt, h, hr, List.getD_eq_getElem?_getD, hlt]
    · have hne : c.1 % 128 ≠ a % 128 := by omega
      simp [cellAt, h, List.getD_eq_getElem?_getD, List.getElem?_set_ne hne]

theorem memWriteLine_memByte (s : State) (l : Nat) (cells : List Host.Cell) (a : Nat) (hd : Distinct cells)
    (hl : ∀ c ∈ cells, lineOf c.1 = l) : (s.memWriteLine l cells).memByte a = (cellAt cells a).getD (s.memByte a) := by
  have hother (h : lineOf a ≠ l) : cellAt cells a = none := (cellAt_eq_none cells a).2 fun c hc hca => h (hca ▸ hl c hc)
  unfold State.memWriteLine
  split
  · next hnone =>
    have hread : (cells.foldl (fun m c => m.write c.1 [c.2]) s.mem).read a = (cellAt cells a).getD (s.mem.read a) :=
      read_foldl_write cells s.mem a hd
    by_cases h : lineOf a = l
    · simp [State.memByte, h, hnone, hread]
    · simp only [State.memByte, hread, hother h, Option.getD_none]
  · next e hsome =>
    have hline (k : Nat) (bs : List Byte) : Hier.line? { s.dev.hier with
        l2 := s.dev.hier.l2.map (fun e => if e.line == l then { e with under := some bs } else e) } k
        = (s.dev.hier.line? k).map (fun e => if e.line == l then { e with under := some bs } else e) := by
      simp only [Hier.line?, List.find?_map]
      congr 2
      funext e
      simp only [Function.comp_apply]
      split <;> rfl
    have hof : e.line = l := by simpa using List.find?_some hsome
    by_cases h : lineOf a = l
    · subst h
      have hbelow := getD_set_cells cells ((List.range 128).map fun i => s.memByte (lineOf a * 128 + i)) a (by simp) hd hl
      have hmod : lineOf a * 128 + a % 128 = a := by unfold lineOf; omega
      have hlt : a % 128 < 128 := Nat.mod_lt _ (by decide)
      rw [State.memByte, hline, hsome]
      simp only [Option.map_some, hof, beq_self_eq_true, if_true, Option.bind_some, Option.getD_some]
      rw [hbelow, List.getD_eq_getElem?_getD, List.getElem?_map, List.getElem?_range hlt, Option.map_some, Option.getD_some, hmod]
    · have hkeep (bs : List Byte) : ((s.dev.hier.line? (lineOf a)).map
          (fun (e : L2Line) => if e.line == l then { e with under := some bs } else e)) = s.dev.hier.line? (lineOf a) := by
        cases hf : s.dev.hier.line? (lineOf a) with
        | none => rfl
        | some f =>
          have : f.line = lineOf a := by simpa using List.find?_some hf
          simp [this, h]
      rw [State.memByte, hline, hkeep, hother h]
      rfl

theorem cellsFrom_distinct (a : Nat) (bs : List Byte) : Distinct (cellsFrom a bs) :=
  List.pairwise_map.2 ((cellsFrom_rising bs a).imp fun h => Nat.ne_of_lt h)

theorem memWriteLines_memByte (cells : List Host.Cell) (hd : Distinct cells) (ls : List Nat) (s : State) (a : Nat) :
    (ls.foldl (fun s l => s.memWriteLine l (cells.filter (fun c => lineOf c.1 == l))) s).memByte a
      = if lineOf a ∈ ls then (cellAt cells a).getD (s.memByte a) else s.memByte a := by
  induction ls generalizing s with
  | nil => rfl
  | cons l r ih =>
    have hstep : (s.memWriteLine l (cells.filter (fun c => lineOf c.1 == l))).memByte a
        = if lineOf a = l then (cellAt cells a).getD (s.memByte a) else s.memByte a := by
      rw [memWriteLine_memByte s l _ a (hd.filter _) (fun c hc => by simpa using (List.mem_filter.1 hc).2),
        cellAt_filter cells (fun q => lineOf q == l)]
      by_cases h : lineOf a = l <;> simp [h]
    rw [List.foldl_cons, ih, hstep]
    by_cases h : lineOf a = l
    · rw [if_pos h, if_pos (List.mem_cons.2 (Or.inl h))]
      cases cellAt cells a <;> simp
    · simp only [List.mem_cons, h, false_or, if_false]

theorem memWrite_memByte (s : State) (pa : Nat) (bs : List Byte) (a : Nat) :
    (s.memWrite pa bs).memByte a = if pa ≤ a ∧ a < pa + bs.length then bs.getD (a - pa) 0 else s.memByte a := by
  have h := memWriteLines_memByte (cellsFrom pa bs) (cellsFrom_distinct pa bs) (linesOf pa bs.length)
    { s with dev := s.dev.written pa bs.length } a
  refine h.trans ?_
  rw [cellAt_cellsFrom]
  by_cases ha : pa ≤ a ∧ a < pa + bs.length
  · rw [if_pos (lineOf_mem_linesOf ha), if_pos ha, if_pos ha]; rfl
  · rw [if_neg ha, if_neg ha]
    split <;> rfl

theorem memWrites_memByte (ws : List (Nat × List Byte)) (s : State) (a : Nat) :
    (ws.foldl (fun s w => s.memWrite w.1 w.2) s).memByte a = cover ws a (s.memByte a) := by
  induction ws generalizing s with
  | nil => rfl
  | cons w r ih => rw [List.foldl_cons, ih, cover_cons, memWrite_memByte]

theorem performWrite_lays_memory : Lays State.memByte (fun s => s.core.service = none) (fun s w => s.performWrite false w) := by
  intro s w hsvc
  have hm := performWrite_memOnly s false w 0
  have heq : s.performWrite false w = (s.outside w).foldl (fun s w => s.memWrite w.1 w.2) s := by
    simp [State.performWrite, hsvc]
  refine ⟨hm, hm.service.trans hsvc, fun q => ?_⟩
  change (s.performWrite false w).memByte q = _
  rw [heq, memWrites_memByte, cover_outside]

/-! The parts of a partition's registers. -/

@[simp] theorem partAt_modPart (s : State) (p : BitVec 3) (f : Part → Part) : (s.modPart p f).partAt p = f (s.partAt p) := by
  simp [State.partAt, State.modPart]

theorem MemOnly.parts {s t : State} (h : MemOnly s t) : t.parts = s.parts := congrArg (·.parts) h.rest

theorem MemOnly.partAt {s t : State} (h : MemOnly s t) (p : BitVec 3) : t.partAt p = s.partAt p := by
  rw [State.partAt, State.partAt, h.parts]

theorem MemOnly.unacked {s t : State} (h : MemOnly s t) : t.core.unacked = s.core.unacked := congrArg (·.core.unacked) h.rest

/-- One more record of posted errors is in the partition's ring, or waits for room in it (14 R365). -/
def Recorded (s t : State) (p : BitVec 3) : Prop :=
  (t.partAt p).fhead = (s.partAt p).fhead + 1 ∨ (t.partAt p).heldFaults.length = (s.partAt p).heldFaults.length + 1

theorem faultRecord_spec (s : State) (p : BitVec 3) (ws : List Word64) :
    Recorded s (s.faultRecord p ws) p ∧ (s.faultRecord p ws).core.sb = s.core.sb ∧ (s.faultRecord p ws).core.unacked = s.core.unacked := by
  unfold State.faultRecord
  dsimp only
  split
  · have hm := recordWrite_memOnly s ((s.partAt p).fbase.toNat + 64 * ((s.partAt p).fhead.toNat % (ringSize (s.partAt p).flog).getD 1))
      (wordBytes ws)
    exact ⟨Or.inl (by rw [State.putFault, partAt_modPart, hm.partAt]), hm.stores, hm.unacked⟩
  · exact ⟨Or.inr (by simp), rfl, rfl⟩

theorem postedError_spec (s : State) (p : BitVec 3) (cause : Cause) (task launch : BitVec 32) (tval : Word64) (paddr : Nat) :
    Recorded s (s.postedError p cause task launch tval paddr) p ∧ (s.postedError p cause task launch tval paddr).core.sb = s.core.sb
      ∧ (s.postedError p cause task launch tval paddr).core.unacked = s.core.unacked := faultRecord_spec s p _

/-! Performance, one kind of store after another. -/

theorem memWrite_core (s : State) (pa : Nat) (bs : List Byte) : (s.memWrite pa bs).core = s.core := by
  have hline (t : State) (l : Nat) (cells : List Host.Cell) : (t.memWriteLine l cells).core = t.core := by
    unfold State.memWriteLine
    split <;> rfl
  have hlines (ls : List Nat) (t : State) :
      (ls.foldl (fun s l => s.memWriteLine l ((cellsFrom pa bs).filter (fun c => lineOf c.1 == l))) t).core = t.core := by
    induction ls generalizing t with
    | nil => rfl
    | cons l r ih => rw [List.foldl_cons, ih, hline]
  exact hlines _ _

theorem performWrites_core (ws : List (Nat × List Byte)) (s : State) (h : s.core.service = none) :
    (ws.foldl (fun s w => s.performWrite false w) s).core = s.core := by
  have hone (s : State) (w : Nat × List Byte) (h : s.core.service = none) : (s.performWrite false w).core = s.core := by
    have hall (vs : List (Nat × List Byte)) (t : State) : (vs.foldl (fun s w => s.memWrite w.1 w.2) t).core = t.core := by
      induction vs generalizing t with
      | nil => rfl
      | cons v r ih => rw [List.foldl_cons, ih, memWrite_core]
    simp [State.performWrite, h, hall]
  induction ws generalizing s with
  | nil => rfl
  | cons w r ih => rw [List.foldl_cons, ih _ (by rw [hone s w h]; exact h), hone s w h]

theorem ownHomeWrites_clean (ws : List (Nat × List Byte)) (s : State) (h : s.core.l1.dirty = []) :
    (ws.foldl (fun s w => s.ownHomeWrite w.1 w.2) s).core.l1.dirty = [] := by
  have hstore (s : State) (w : Nat × List Byte) (h : s.core.l1.dirty = []) : (s.ownHomeStore w.1 w.2).core.l1.dirty = [] := by
    obtain ⟨-, -, -, -, hd, -⟩ := dropLines (linesOf w.1 w.2.length) s (by rw [h]; exact Distinct.nil)
    obtain ⟨d, -, hr⟩ := rawWrite_eq ((linesOf w.1 w.2.length).foldl State.dropLine s) w.1 w.2
    simp only [State.ownHomeStore, hr]
    exact hd.trans (by rw [h]; rfl)
  have hwrite (s : State) (w : Nat × List Byte) (h : s.core.l1.dirty = []) : (s.ownHomeWrite w.1 w.2).core.l1.dirty = [] :=
    List.foldlRecOn (motive := fun (t : State) => t.core.l1.dirty = []) _ _ h fun t ht v _ => hstore t v ht
  exact List.foldlRecOn (motive := fun (t : State) => t.core.l1.dirty = []) ws _ h fun t ht v _ => hwrite t v ht

/-- Stores to cacheable pages, written by f, and then those to others. -/
theorem stores_laid {f : State → Nat × List Byte → State} (hf : Lays State.newest Plain f) (s : State) (hs : Plain s)
    (ws raw : List (Nat × List Byte)) :
    MemOnly s (raw.foldl (fun s w => s.performWrite false w) (ws.foldl f s))
    ∧ (raw = [] → ∀ a, (raw.foldl (fun s w => s.performWrite false w) (ws.foldl f s)).newest a
        = if s.inPool a 1 = true then s.newest a else (lastCell (cellsOf ws) a).getD (s.newest a))
    ∧ (ws = [] → ∀ a, (raw.foldl (fun s w => s.performWrite false w) (ws.foldl f s)).memByte a
        = if s.inPool a 1 = true then s.memByte a else (lastCell (cellsOf raw) a).getD (s.memByte a)) := by
  obtain ⟨hm, hp, hn⟩ := hf.foldl ws s hs
  obtain ⟨km, -, kn⟩ := performWrite_lays_memory.foldl raw (ws.foldl f s) hp.1
  exact ⟨hm.trans km, fun h => by subst h; exact hn, fun h => by subst h; exact kn⟩

/-- A state with another store buffer. -/
def State.withStores (s : State) (r : List SbEntry) : State := { s with core.sb := r }

theorem lines_withStores (f : State → Nat → State) (hf : ∀ s r l, f (s.withStores r) l = (f s l).withStores r) (ls : List Nat) (s : State)
    (r : List SbEntry) : ls.foldl f (s.withStores r) = (ls.foldl f s).withStores r := by
  induction ls generalizing s with
  | nil => rfl
  | cons l ls ih => rw [List.foldl_cons, List.foldl_cons, hf, ih]

theorem dropLines_withStores (ls : List Nat) (s : State) (r : List SbEntry) :
    ls.foldl State.dropLine (s.withStores r) = (ls.foldl State.dropLine s).withStores r :=
  lines_withStores State.dropLine (fun _ _ _ => rfl) ls s r

theorem releaseCache_withStores (s : State) (scope : BitVec 2) (r : List SbEntry) :
    (s.withStores r).releaseCache scope = (s.releaseCache scope).withStores r := by
  unfold State.releaseCache
  split
  · exact lines_withStores State.writeBackLine (fun _ _ _ => rfl) s.dirtyLines s r
  · rfl

section
variable {s : State} {e : SbEntry} {rest : List SbEntry}

theorem drainOne_of_refused (hsb : s.core.sb = e :: rest) (h : s.entryAccepted e = false) : s.drainOne = s := by
  simp [State.drainOne, hsb, h]

theorem drainOne_of_accepted (hsb : s.core.sb = e :: rest) (hack : e.kind.sysRelease = true → s.core.unacked = [])
    (h : s.entryAccepted e = true) : s.drainOne = (s.withStores rest).performEntry e := by
  have hwait : (e.kind.sysRelease && !s.core.unacked.isEmpty) = false := by
    cases hk : e.kind.sysRelease
    · rfl
    · simp [hack hk]
  simp [State.drainOne, hsb, h, hwait, State.withStores]

end

/-- t is s after a store, whose bytes lie at cacheable pages or at others; one with a release at .dev or beyond leaves nothing dirty. -/
structure Performed (s t : State) (e : SbEntry) (released : Prop) : Prop where
  rest : MemOnly s t
  cached : e.raw = [] → ∀ a, t.newest a = if s.inPool a 1 = true then s.newest a else (lastCell (cellsOf e.writes) a).getD (s.newest a)
  raw : e.writes = [] → ¬released → ∀ a, t.memByte a
    = if s.inPool a 1 = true then s.memByte a else (lastCell (cellsOf e.raw) a).getD (s.memByte a)
  clean : released → t.core.l1.dirty = []

theorem performEntry_unordered (s : State) (e : SbEntry) (h : e.kind = .scalar ∨ e.kind = .tile) (hs : Plain s) :
    Performed s (s.performEntry e) e False := by
  have hp : s.performEntry e = (e.raw.foldl (fun s w => s.performWrite false w)
      (e.writes.foldl (fun s w => s.performWrite true w e.hint) s)).markL1 e.poison := by
    unfold State.performEntry
    rcases h with hk | hk <;> rw [hk]
  obtain ⟨hm, hn, hb⟩ := stores_laid (performWrite_lays e.hint) s hs e.writes e.raw
  rw [hp]
  exact ⟨hm.trans (markL1_memOnly _ _), hn, fun hw _ => hb hw, False.elim⟩

theorem performEntry_release (s : State) (e : SbEntry) (sc : BitVec 2) (hk : e.kind = .release sc) (hs : Plain s) :
    Performed s (s.performEntry e) e (2 ≤ sc.toNat) := by
  have hp : s.performEntry e = e.raw.foldl (fun s w => s.performWrite false w)
      (if 2 ≤ sc.toNat then e.writes.foldl (fun s w => s.ownHomeWrite w.1 w.2) (s.releaseCache sc)
        else e.writes.foldl (fun s w => s.performWrite true w) (s.releaseCache sc)) := by
    unfold State.performEntry
    rw [hk]
  rw [hp]
  by_cases hsc : 2 ≤ sc.toNat
  · have hr : s.releaseCache sc = s.writeBackAll := if_pos hsc
    have hq := writeBackAll_quiet s
    have hs' : Plain s.writeBackAll := ⟨hq.rest.service.trans hs.1, hq.form hs.2⟩
    obtain ⟨-, hn, hclean, -⟩ := writeBackAll_spec s hs.2.distinct
    obtain ⟨km, kn, -⟩ := stores_laid ownHomeWrite_lays s.writeBackAll hs' e.writes e.raw
    rw [if_pos hsc, hr]
    refine ⟨hq.rest.trans km, fun hraw a => ?_, fun _ hd => absurd hsc hd, fun _ => ?_⟩
    · rw [kn hraw a, hq.rest.inPool, hn a]
    · rw [performWrites_core _ _ (ownHomeWrite_lays.foldl e.writes s.writeBackAll hs').2.1.1]
      exact ownHomeWrites_clean _ _ hclean
  · have hr : s.releaseCache sc = s := if_neg hsc
    obtain ⟨hm, hn, hb⟩ := stores_laid (performWrite_lays 0) s hs e.writes e.raw
    rw [if_neg hsc, hr]
    exact ⟨hm, hn, fun hw _ => hb hw, fun hd => absurd hd hsc⟩

theorem MemOnly.lands {s t : State} (h : MemOnly s t) (pa n q : Nat) : t.lands pa n q ↔ s.lands pa n q := by
  simp only [State.lands, h.inPool]

theorem ownHomeWrite_number (s : State) (pa n v : Nat) (hs : s.core.l1.Ok) (a : Nat) :
    (s.ownHomeWrite pa (leBytes n v)).newest a = if s.lands pa n a then byteOf v (a - pa) else s.newest a := by
  refine ((ownHomeWrite_spec s pa (leBytes n v) hs.distinct).2.2.2 a).trans ?_
  rw [leBytes_length]
  by_cases h : s.lands pa n a
  · rw [if_pos h, if_pos h, leBytes_getD _ _ _ (by have := h.2.1; have := h.1; omega), byteOf]
  · rw [if_neg h, if_neg h]

/-- A posted reduction applied at its home (11 R292). -/
theorem applyAred_good (s : State) (e : SbEntry) (op : BitVec 4) (n : Nat) (operand : Word64) (pa : Nat) (hs : s.core.l1.Ok)
    (hgood : ((linesOf pa n).foldl State.dropLine s).homeBad pa n = false) :
    MemOnly s (s.applyAred e op n operand pa)
    ∧ ∀ a, (s.applyAred e op n operand pa).newest a
        = if s.lands pa n a then byteOf (amoFn op n (s.newestNat pa n) (truncTo n operand) 0) (a - pa) else s.newest a := by
  have hq := dropLines_quiet (linesOf pa n) s
  have heq : s.applyAred e op n operand pa = (((linesOf pa n).foldl State.dropLine s).ownHomeWrite pa
      (leBytes n (amoFn op n (s.newestNat pa n) (truncTo n operand) 0))).dirKeep (linesOf pa n) 0 := by
    unfold State.applyAred
    simp only [hgood, Bool.false_eq_true, if_false, dropLines_readNat s pa n hs.distinct]
  rw [heq]
  refine ⟨hq.rest.trans ((ownHomeWrite_memOnly ..).trans ⟨rfl, rfl⟩), fun a => ?_⟩
  refine (ownHomeWrite_number _ pa n _ (hq.form hs) a).trans ?_
  rw [if_congr (hq.rest.lands pa n a) rfl rfl, hq.bytes hs a id]

theorem releaseIf_quiet (b : Bool) (s : State) (scope : BitVec 2) : Quiet s (if b then s.releaseCache scope else s) := by
  split
  · exact releaseCache_quiet s scope
  · exact Writes.refl _ s

theorem releaseIf_withStores (b : Bool) (s : State) (scope : BitVec 2) (r : List SbEntry) :
    (if b then (s.withStores r).releaseCache scope else s.withStores r) = (if b then s.releaseCache scope else s).withStores r := by
  split
  · exact releaseCache_withStores s scope r
  · rfl

theorem performEntry_ared (s : State) (rest : List SbEntry) (e : SbEntry) (op : BitVec 4) (n : Nat) (operand : Word64) (rel : Bool)
    (sc : BitVec 2) (pa : Nat) (bs : List Byte) (hk : e.kind = .ared op n operand rel sc) (hw : e.writes = [(pa, bs)])
    (hs : s.core.l1.Ok) (hgood : ((linesOf pa n).foldl State.dropLine (if rel then s.releaseCache sc else s)).homeBad pa n = false) :
    MemOnly (s.withStores rest) ((s.withStores rest).performEntry e)
    ∧ ∀ a, ((s.withStores rest).performEntry e).newest a
        = if s.lands pa n a then byteOf (amoFn op n (s.newestNat pa n) (truncTo n operand) 0) (a - pa) else s.newest a := by
  have hq := releaseIf_quiet rel (s.withStores rest) sc
  have hgood' : ((linesOf pa n).foldl State.dropLine
      (if rel then (s.withStores rest).releaseCache sc else s.withStores rest)).homeBad pa n = false := by
    rw [releaseIf_withStores, dropLines_withStores]
    exact hgood
  have hp : (s.withStores rest).performEntry e
      = (if rel then (s.withStores rest).releaseCache sc else s.withStores rest).applyAred e op n operand pa := by
    unfold State.performEntry
    rw [hk]
    simp only [hw]
  have hnew (a : Nat) : (if rel then (s.withStores rest).releaseCache sc else s.withStores rest).newest a = s.newest a := hq.bytes hs a id
  have hnat : (if rel then (s.withStores rest).releaseCache sc else s.withStores rest).newestNat pa n = s.newestNat pa n := by
    simp only [State.newestNat, hnew]
  obtain ⟨hm, hn⟩ := applyAred_good _ e op n operand pa (hq.form hs) hgood'
  rw [hp]
  refine ⟨hq.rest.trans hm, fun a => (hn a).trans ?_⟩
  rw [if_congr (hq.rest.lands pa n a) rfl rfl, hnat, hnew]
  rfl

theorem MemOnly.cutOff {s t : State} (h : MemOnly s t) (pa : Nat) : t.cutOff pa = s.cutOff pa := by
  have := congrArg (fun u : State => u.cutOff pa) h.rest
  exact this

/-- A remote write sent, or dropped with a record (16 R426, R427). -/
theorem performEntry_rput (s : State) (e : SbEntry) (rel : Bool) (hk : e.kind = .rput rel) (hs : s.core.l1.Ok) :
    ((∀ w ∈ e.writes, s.cutOff w.1 = false) →
      (s.performEntry e).core.sb = s.core.sb ∧ (s.performEntry e).core.unacked = s.core.unacked ++ [e]
        ∧ (∀ a, (s.performEntry e).newest a = s.newest a)
        ∧ ({ s.performEntry e with core.unacked := s.core.unacked } : State).blankMem = s.blankMem)
    ∧ ((∃ w ∈ e.writes, s.cutOff w.1 = true) →
      (s.performEntry e).core.sb = s.core.sb ∧ (s.performEntry e).core.unacked = s.core.unacked
        ∧ (s.performEntry e).core.unit = s.core.unit ∧ Recorded s (s.performEntry e) e.part) := by
  have hq := releaseIf_quiet rel s 3
  obtain ⟨r, hr⟩ : ∃ r, r = (if rel then s.releaseCache 3 else s) := ⟨_, rfl⟩
  rw [← hr] at hq
  have hp : s.performEntry e = if e.writes.any (fun w => r.cutOff w.1) then
      r.postedError e.part .machineCheck e.task e.launch (BitVec.ofNat 64 e.va) 0
      else { r with core.unacked := r.core.unacked ++ [e] } := by
    unfold State.performEntry
    rw [hk, hr]
  have hcut (w : Nat × List Byte) : r.cutOff w.1 = s.cutOff w.1 := hq.rest.cutOff w.1
  rw [hp]
  simp only [hcut]
  constructor
  · intro h
    rw [if_neg (by simpa using h)]
    refine ⟨hq.rest.stores, by rw [← hq.rest.unacked], fun a => hq.bytes hs a id, ?_⟩
    have := hq.rest.rest
    rw [← hq.rest.unacked]
    exact this
  · intro h
    rw [if_pos (by simpa using h)]
    obtain ⟨hrec, hsb, hun⟩ := postedError_spec r e.part .machineCheck e.task e.launch (BitVec.ofNat 64 e.va) 0
    refine ⟨hsb.trans hq.rest.stores, hun.trans hq.rest.unacked, (postedError_sameUnit ..).unit.trans hq.rest.unit, ?_⟩
    rw [Recorded, hq.rest.partAt] at hrec
    exact hrec

/-! The obligation. -/

theorem exec_storePerformed (s : State) (e : SbEntry) (rest : List SbEntry) (hsb : s.core.sb = e :: rest)
    (hk : ∀ op n v rel sc, e.kind ≠ .ared op n v rel sc) (hr : ∀ rel, e.kind ≠ .rput rel) : exec .storePerformed s = .next s.drainOne := by
  change execStorePerformed s = _
  unfold execStorePerformed
  rw [hsb]
  dsimp only
  split
  · next h => exact absurd h (hk _ _ _ _ _)
  · next h => exact absurd h (hr _)
  · rfl

theorem exec_performs_refused (s : State) (e : SbEntry) (rest : List SbEntry) (hsb : s.core.sb = e :: rest) (h : s.entryAccepted e = false) :
    exec .storePerformed s = .next s ∧ exec .aredPerform s = .next s ∧ exec .rputSend s = .next s := by
  have hd := drainOne_of_refused hsb h
  refine ⟨?_, ?_, ?_⟩
  · change execStorePerformed s = _
    simp only [execStorePerformed, hsb, hd]
    split <;> rfl
  · change execAredPerform s = _
    simp only [execAredPerform, hsb, hd]
    split <;> rfl
  · change execRputSend s = _
    simp only [execRputSend, hsb, hd]
    split <;> rfl

/-- Settles O34: the oldest store of each kind, performed by the step that names its kind. -/
theorem storesArePerformed : Obligations.StoresArePerformed := by
  intro s e rest hsb hsvc hinv dev sys hack
  have hack' : e.kind.sysRelease = true → s.core.unacked = [] := fun h => hack (by
    rw [← h]
    change (match e.kind with | _ => _) = _
    cases e.kind <;> rfl)
  refine ⟨exec_performs_refused s e rest hsb, fun hacc => ?_⟩
  have hdrain := drainOne_of_accepted hsb hack' hacc
  refine ⟨fun sc hk => ?_, fun op n operand rel sc pa bs hk hw hgood => ?_, fun rel hk => ?_⟩
  · have hexec : exec .storePerformed s = .next ((s.withStores rest).performEntry e) := by
      rw [exec_storePerformed s e rest hsb (fun _ _ _ _ _ h => by rw [h] at hk; simp at hk) (fun _ h => by rw [h] at hk; simp at hk), hdrain]
    have hplain : Plain (s.withStores rest) := ⟨hsvc, hinv.l1⟩
    obtain ⟨released, h, hd⟩ : ∃ released, Performed (s.withStores rest) ((s.withStores rest).performEntry e) e released
        ∧ (dev e.kind = true ↔ released) := by
      rcases hk with hk | hk | hk
      · exact ⟨False, performEntry_unordered _ e (Or.inl hk) hplain, by simp [dev, hk]⟩
      · exact ⟨False, performEntry_unordered _ e (Or.inr hk) hplain, by simp [dev, hk]⟩
      · exact ⟨2 ≤ sc.toNat, performEntry_release _ e sc hk hplain, by simp [dev, hk]⟩
    exact ⟨_, hexec, h.rest.stores, h.rest.rest, h.cached, fun hw hf => h.raw hw fun hr => by simp [hd.2 hr] at hf,
      fun ht => h.clean (hd.1 ht)⟩
  · obtain ⟨hm, hn⟩ := performEntry_ared s rest e op n operand rel sc pa bs hk hw hinv.l1 hgood
    refine ⟨(s.withStores rest).performEntry e, ?_, hm.stores, hm.rest, hn⟩
    rw [← hdrain]
    change execAredPerform s = _
    simp only [execAredPerform, hsb, hk]
  · obtain ⟨hsent, hcut⟩ := performEntry_rput (s.withStores rest) e rel hk hinv.l1
    have hexec : exec .rputSend s = .next ((s.withStores rest).performEntry e) := by
      rw [← hdrain]
      change execRputSend s = _
      simp only [execRputSend, hsb, hk]
    exact ⟨fun h => ⟨_, hexec, hsent h⟩, fun h => ⟨_, hexec, hcut h⟩⟩

end Sys2Proof.Machine
end

section
/-! Atomics and posted reductions (11 R290 to R292). -/

namespace Sys2Proof.Machine

/-! Waiting for nothing. -/

theorem drainAll_of_empty {s : State} (h : s.core.sb = []) : s.drainAll = s := by simp [State.drainAll, h, State.drainN]

theorem settleStores_of_empty {s : State} (h : s.core.sb = []) : s.settleStores = .ok s := by
  simp [State.settleStores, drainAll_of_empty h, h]

theorem Settled.settleIf {s : State} (h : Settled s) (before : SbEntry → Bool) : s.settleIf before = .ok s :=
  settleIf_of_none (by simp [h.stores, h.acks])

theorem Settled.settleAll {s : State} (h : Settled s) : s.settleAll = .ok s := by
  simp [State.settleAll, drainAll_of_empty h.stores, h.stores, h.acks]

theorem MemOnly.settled {s t : State} (h : MemOnly s t) (hs : Settled s) : Settled t :=
  ⟨h.stores.trans hs.stores, h.unacked.trans hs.acks⟩

/-- What a release waits for, when every older store is performed: its dirty lines to be taken (16 R406). -/
theorem release_of_settled {s : State} (h : Settled s) (scope : BitVec 2) :
    s.release scope = if scope.toNat < 2 ∨ s.homesAccept s.dirtyLines = true then .ok (s.releaseCache scope) else .error (.wait .other) := by
  simp [State.release, drainAll_of_empty h.stores, h.stores, h.acks]

/-! Translating leaves no line dirty that was clean. -/

theorem homeWrite_dirty (s : State) (path : Path) (pa : Nat) (bs : List Byte) :
    (s.homeWrite path pa bs).core.l1.dirty.Sublist s.core.l1.dirty :=
  List.foldlRecOn (motive := fun (t : State) => t.core.l1.dirty.Sublist s.core.l1.dirty) (s.outside (pa, bs))
    (fun (t : State) (w : Nat × List Byte) => t.homeStore path w.1 w.2) (List.Sublist.refl _)
    fun t ht w _ => by
      have hlines (ls : List Nat) (u : State) : (ls.foldl State.writeBackLine u).core.l1.dirty.Sublist u.core.l1.dirty :=
        List.foldlRecOn (motive := fun (v : State) => v.core.l1.dirty.Sublist u.core.l1.dirty) ls State.writeBackLine (List.Sublist.refl _)
          fun v hv l _ => by rw [writeBackLine_dirty]; exact List.filter_sublist.trans hv
      rw [homeStore_dirty]
      exact (hlines _ t).trans ht

theorem touch_dirty (s : State) (acc : Access) (va : Nat) (x : Xl) : (s.touch acc va x).core.l1.dirty.Sublist s.core.l1.dirty := by
  unfold State.touch
  split
  · exact List.Sublist.refl _
  · next ea _ =>
    change (s.setPteBits acc x ea).core.l1.dirty.Sublist _
    unfold State.setPteBits
    split
    · exact List.Sublist.refl _
    · exact (homeWrite_dirty _ _ _ _).trans (by rw [writeBackLine_dirty]; exact List.filter_sublist)

theorem touchAll_dirty (s : State) (acc : Access) (m : XMap) : (s.touchAll acc m).core.l1.dirty.Sublist s.core.l1.dirty :=
  List.foldlRecOn (motive := fun (t : State) => t.core.l1.dirty.Sublist s.core.l1.dirty) m _ (List.Sublist.refl _)
    fun t ht e _ => (touch_dirty t acc _ _).trans ht

theorem MemOnly.homesAccept {s t : State} (h : MemOnly s t) (ls : List Nat) : t.homesAccept ls = s.homesAccept ls := by
  have := congrArg (fun u : State => u.homesAccept ls) h.rest
  exact this

theorem homesAccept_subset {s : State} {ls ks : List Nat} (h : s.homesAccept ls = true) (hs : ∀ k ∈ ks, k ∈ ls) : s.homesAccept ks = true := by
  simp only [State.homesAccept, Bool.or_eq_true, List.all_eq_true] at h ⊢
  exact h.imp_right fun h k hk => h k (hs k hk)

theorem touchAll_taken {s : State} (h : s.homesAccept s.dirtyLines = true) (acc : Access) (m : XMap) :
    (s.touchAll acc m).homesAccept (s.touchAll acc m).dirtyLines = true := by
  rw [(touchAll_memOnly s acc m).homesAccept]
  refine homesAccept_subset h fun k hk => ?_
  simp only [State.dirtyLines, List.mem_dedup, List.mem_map] at hk ⊢
  obtain ⟨c, hc, hk⟩ := hk
  exact ⟨c, (touchAll_dirty s acc m).subset hc, hk⟩

/-! amo (11 R290, R291). -/

theorem needAligned_ok {ea n : Nat} (h : ea % n = 0) : needAligned ea n = .ok () := by
  rw [needAligned, show (ea % n == 0) = true by simpa using h]
  rfl

theorem needAligned_error {ea n : Nat} (h : ea % n ≠ 0) : needAligned ea n = .error (.trap .atomicAlign (BitVec.ofNat 64 ea) 0) := by
  rw [needAligned, show (ea % n == 0) = false by simpa using h]
  rfl

/-- The state in which an amo applies its function: its lines are home. -/
def State.atHome (s : State) (rel : Bool) (scope : BitVec 2) (pa n : Nat) : State :=
  (linesOf pa n).foldl State.dropLine (if rel then s.releaseCache scope else s)

theorem atHome_quiet (s : State) (rel : Bool) (scope : BitVec 2) (pa n : Nat) : Quiet s (s.atHome rel scope pa n) :=
  (releaseIf_quiet rel s scope).trans (dropLines_quiet _ _)

theorem atHome_readNat (s : State) (rel : Bool) (scope : BitVec 2) (pa n : Nat) (h : s.core.l1.Ok) :
    (s.atHome rel scope pa n).mem.readNat pa n = s.newestNat pa n := by
  have hq := releaseIf_quiet rel s scope
  rw [State.atHome, dropLines_readNat _ _ _ (hq.form h).distinct, State.newestNat, State.newestNat]
  simp only [fun a => hq.bytes h a id]

theorem amo_completes {s : State} {d a b : BitVec 5} {ord scope : BitVec 2} {sz : BitVec 1} {op : BitVec 4} {m : XMap} {ea n pa : Nat}
    (hea : ea = addrOf (s.x a)) (hn : n = amoBytes sz) (hpa : pa = m.pa ea) (hal : ea % n = 0)
    (hacc : s.access .readWrite true [(ea, n)] = .ok m) (hset : Settled s)
    (htake : ordRel ord = true → 2 ≤ scope.toNat → s.homesAccept s.dirtyLines = true)
    (hgood : ((s.touchAll .readWrite m).atHome (ordRel ord) scope pa n).homeBad pa n = false) :
    let t := (s.touchAll .readWrite m).atHome (ordRel ord) scope pa n
    let old := t.mem.readNat pa n
    let u := (t.ownHomeWrite pa (leBytes n (amoFn op n old (truncTo n (s.x b)) (truncTo n (s.x d))))).setX d (BitVec.ofInt 64 (signedOf n old))
    Completes (.amo d a b ord scope sz op) s (if ordAcq ord then u.acquire scope else u) := by
  subst hea hn hpa
  have hw := (touchAll_memOnly s .readWrite m).settled hset
  have hrel (h : ordRel ord = true) : (s.touchAll .readWrite m).release scope = .ok ((s.touchAll .readWrite m).releaseCache scope) := by
    rw [release_of_settled hw, if_pos]
    by_cases hsc : 2 ≤ scope.toNat
    · exact Or.inr (touchAll_taken (htake h hsc) _ _)
    · exact Or.inl (by omega)
  change execAmo d a b ord scope sz op s = _
  rw [execAmo]
  simp only [needAligned_ok hal, hacc, settleStores_of_empty hw.stores, State.settle, hw.settleIf, run_ok_bind]
  cases hr : ordRel ord with
  | false =>
    rw [hr] at hgood
    simp only [State.atHome, Bool.false_eq_true, if_false] at hgood
    simp only [hgood, Bool.false_eq_true, if_false]
    rfl
  | true =>
    rw [hr] at hgood
    simp only [State.atHome, if_true] at hgood
    simp only [hrel hr, run_ok_bind, hgood, Bool.false_eq_true, if_true, if_false]
    rfl

/-- What an amo leaves: its bytes at the home, its destination, and what the memory system holds. -/
theorem amo_leaves {s : State} {m : XMap} (hs : s.Inv) (hset : Settled s) (acq rel : Bool) (scope : BitVec 2) (d : BitVec 5) (v : Word64)
    (pa n new : Nat) (u : State)
    (hu : u = ((((s.touchAll .readWrite m).atHome rel scope pa n).ownHomeWrite pa (leBytes n new)).setX d v)) :
    let w := if acq then u.acquire scope else u
    w.x d = (if d = 0 then 0 else v) ∧ (∀ r, r ≠ d → w.x r = s.x r) ∧ w.blankX.blankMem = s.blankX.blankMem ∧ w.core.sb = []
      ∧ ∀ q, m.spares q → w.newest q = if s.lands pa n q then byteOf new (q - pa) else s.newest q := by
  have hwalk := touchAll_writes s .readWrite m
  have hhome := atHome_quiet (s.touchAll .readWrite m) rel scope pa n
  have hform := hhome.form (hwalk.form hs.l1)
  obtain ⟨t, ht⟩ : ∃ t, t = ((s.touchAll .readWrite m).atHome rel scope pa n).ownHomeWrite pa (leBytes n new) := ⟨_, rfl⟩
  have hm : MemOnly s t := ht ▸ hwalk.rest.trans (hhome.rest.trans (ownHomeWrite_memOnly ..))
  have hblank : u.blankX = t.blankX := by rw [hu, ht, State.setX_blankX]
  have hx (r : BitVec 5) : u.x r = if r = d ∧ d ≠ 0 then v else s.x r := by
    have htx : t.x r = s.x r := by rw [State.x, State.x, hm.unit]
    have hzero : s.x 0 = 0 := rfl
    rw [hu, ← ht, State.setX_x, htx]
    by_cases hr : r = 0
    · subst hr
      rw [if_pos rfl, if_neg fun h => h.2 h.1.symm, hzero]
    · rw [if_neg hr]
      by_cases hd : r = d
      · rw [if_pos hd, if_pos ⟨hd, hd ▸ hr⟩]
      · rw [if_neg hd, if_neg fun h => hd h.1]
  have hkeep : MemOnly u (if acq then u.acquire scope else u) ∧ ∀ q, (if acq then u.acquire scope else u).newest q = u.newest q := by
    split
    · refine ⟨(acquire_quiet u scope).rest, fun q => ?_⟩
      unfold State.acquire
      split <;> rfl
    · exact ⟨MemOnly.refl u, fun _ => rfl⟩
  obtain ⟨hrest, hnew⟩ := hkeep
  have hxw (r : BitVec 5) : (if acq then u.acquire scope else u).x r = u.x r := by rw [State.x, State.x, hrest.unit]
  refine ⟨?_, fun r hr => ?_, ?_, ?_, fun q hq => ?_⟩
  · rw [hxw, hx]
    by_cases hd : d = 0
    · subst hd; simp [State.x]
    · rw [if_pos ⟨rfl, hd⟩, if_neg hd]
  · rw [hxw, hx, if_neg fun h => hr h.1]
  · have h1 := congrArg State.blankX hrest.rest
    have h2 := congrArg State.blankMem hblank
    have h3 := congrArg State.blankX hm.rest
    exact (show _ = u.blankX.blankMem from h1).trans ((show u.blankX.blankMem = t.blankX.blankMem from h2).trans h3)
  · have : u.core.sb = t.core.sb := congrArg (·.core.sb) hblank
    rw [hrest.stores, this, hm.stores, hset.stores]
  · have : u.newest q = t.newest q := by
      have := congrArg (fun c : State => c.newest q) hblank
      exact this
    rw [hnew, this, ht, ownHomeWrite_number _ _ _ _ hform, if_congr ((hwalk.rest.trans hhome.rest).lands pa n q) rfl rfl,
      hhome.bytes (hwalk.form hs.l1) q id, hwalk.bytes hs.l1 q (not_not.2 hq)]

/-! ared (11 R292). -/

theorem ared_completes {s : State} {a b : BitVec 5} {ord scope : BitVec 2} {sz : BitVec 1} {op : BitVec 4} {m : XMap} {ea n : Nat}
    (hea : ea = addrOf (s.x a)) (hn : n = amoBytes sz) (hal : ea % n = 0) (hacc : s.access .readWrite true [(ea, n)] = .ok m)
    (hroom : s.scalarStores < 32) :
    Completes (.ared a b ord scope sz op) s ((s.touchAll .readWrite m).withStores (s.core.sb ++
      [{ kind := .ared op n (s.x b) (ordRel ord) scope, va := ea, len := n, writes := [(m.pa ea, [])], runs := [], raw := [], cached := true,
         device := false, poison := [], part := s.core.unit.ident.part, task := s.core.unit.ident.task,
         launch := s.core.unit.ident.launch }])) := by
  subst hea hn
  have hsb : (s.touchAll .readWrite m).core.sb = s.core.sb := (touchAll_memOnly ..).stores
  have hroom' : (s.touchAll .readWrite m).scalarStores < 32 := by rwa [State.scalarStores, hsb]
  change execAred a b ord scope sz op s = _
  rw [execAred]
  simp only [needAligned_ok hal, hacc, run_ok_bind, pushStore_of_room hroom', hsb]
  rfl

/-! The functions of 11 R290. -/

theorem amoFn_values (n old b cmp : Nat) (hold : old < 2 ^ (8 * n)) (hb : b < 2 ^ (8 * n)) :
    amoFn 0 n old b cmp = (old + b) % 2 ^ (8 * n)
    ∧ signedOf n (amoFn 1 n old b cmp) = min (signedOf n old) (signedOf n b)
    ∧ signedOf n (amoFn 2 n old b cmp) = max (signedOf n old) (signedOf n b)
    ∧ amoFn 3 n old b cmp = min old b ∧ amoFn 4 n old b cmp = max old b
    ∧ amoFn 5 n old b cmp = old &&& b ∧ amoFn 6 n old b cmp = old ||| b ∧ amoFn 7 n old b cmp = old ^^^ b
    ∧ amoFn 8 n old b cmp = b ∧ amoFn 9 n old b cmp = (if old = cmp then b else old)
    ∧ amoFn 10 4 old b cmp = (fp32.round .rne false false (FVal.add false (fp32.read false old) (fp32.read false b))).bits := by
  refine ⟨rfl, ?_, ?_, rfl, rfl, rfl, rfl, rfl, rfl, ?_, rfl⟩
  · change signedOf n (if signedOf n b < signedOf n old then b else old) = _
    split <;> omega
  · change signedOf n (if signedOf n old < signedOf n b then b else old) = _
    split <;> omega
  · change (if old == cmp then b else old) = _
    simp only [beq_iff_eq]

/-- Settles O35. -/
theorem atomics : Obligations.Atomics := by
  refine ⟨fun s d a b ord scope sz op m => ?_, fun n old b cmp hn hold hb => amoFn_values n old b cmp hold hb⟩
  intro ea n walked old new hs
  have hn : n = amoBytes sz := by simp only [n, amoBytes, beq_iff_eq]
  refine ⟨fun hal => ⟨⟨0, ?_⟩, ⟨0, ?_⟩⟩, fun hal hacc => ⟨fun hset htake hgood => ?_, fun hroom => ?_⟩⟩
  · change execAmo d a b ord scope sz op s = _
    rw [execAmo]
    simp only [← hn]
    rw [needAligned_error hal]
    rfl
  · change execAred a b ord scope sz op s = _
    rw [execAred]
    simp only [← hn]
    rw [needAligned_error hal]
    rfl
  · have hform := (touchAll_writes s .readWrite m).form hs.l1
    have hdone := amo_completes (d := d) (b := b) (op := op) rfl hn rfl hal hacc hset htake hgood
    dsimp only at hdone
    rw [atHome_readNat _ _ _ _ _ hform] at hdone
    exact ⟨_, hdone, amo_leaves hs hset (ordAcq ord) (ordRel ord) scope d _ (m.pa ea) n new _ rfl⟩
  · have hwalk := touchAll_writes s .readWrite m
    exact ⟨_, _, ared_completes rfl hn hal hacc hroom, rfl, rfl, rfl, rfl, rfl, ⟨rfl, rfl, rfl⟩, hwalk.rest.rest,
      fun q hq => hwalk.bytes hs.l1 q (not_not.2 hq)⟩

end Sys2Proof.Machine
end

section
/-! Fences and cache maintenance (10 R246, R268, R269; 11 R280, R281, R288, R293). -/

namespace Sys2Proof.Machine

/-! Old copies in the L2 (10 R248). -/

/-- No clean line of the L2 has older bytes below it. -/
def NoOld (d : Dev) : Prop := ∀ e ∈ d.hier.l2, e.dirty = false → e.under = none

theorem NoOld.of_eq {d e : Dev} (h : NoOld d) (he : e.hier.l2 = d.hier.l2) : NoOld e := fun f hf => h f (he ▸ hf)

theorem foldl_l2 {α : Type} (f : Dev → α → Dev) (hf : ∀ d a, (f d a).hier.l2 = d.hier.l2) (l : List α) (d : Dev) :
    (l.foldl f d).hier.l2 = d.hier.l2 := by
  induction l generalizing d with
  | nil => rfl
  | cons a l ih => rw [List.foldl_cons, ih, hf]

theorem l2Enter_l2 (s : State) (d : Dev) (line : Nat) : (s.l2Enter d line).hier.l2 = d.hier.l2 := by
  have hmiss (h : Hier) : (s.missed h line).l2 = h.l2 := by
    unfold State.missed
    split <;> rfl
  unfold State.l2Enter
  split
  · rfl
  · exact (hmiss _).trans (foldl_l2 (fun d g => d.setGranule g (some .poisoned)) (fun _ _ => rfl) _ d)

theorem mem_pushBounded {α : Type} {slice : α → Option Nat} {may : α → Bool} {x y : α} {l : List α} {last : Bool}
    (h : y ∈ pushBounded slice may x l last) : y = x ∨ y ∈ l := by
  have hroom {r : List α} (hr : roomFor slice may x l = some r) (hy : y ∈ r) : y ∈ l := by
    unfold roomFor at hr
    split at hr
    · cases hr; exact hy
    · split at hr
      · cases hr
        exact List.mem_reverse.1 (List.mem_of_mem_eraseP (List.mem_reverse.1 hy))
      · cases hr
  unfold pushBounded at h
  split at h
  · exact Or.inr h
  · next r hr =>
    split at h
    · rcases List.mem_append.1 h with h | h
      · exact Or.inr (hroom hr h)
      · exact Or.inl (List.mem_singleton.1 h)
    · rcases List.mem_cons.1 h with h | h
      · exact Or.inl h
      · exact Or.inr (hroom hr h)

theorem NoOld.take {d : Dev} (h : NoOld d) (line : Nat) (hint : BitVec 2) : NoOld (d.l2Take line hint) := by
  unfold Dev.l2Take
  split
  · exact h
  · intro e he hclean
    rcases mem_pushBounded he with he | he
    · cases hl : d.hier.line? line with
      | none => rw [he, hl]; rfl
      | some f =>
        rw [hl] at he
        exact h e (he ▸ List.mem_of_find?_eq_some hl) hclean
    · exact h e (List.mem_filter.1 he).1 hclean

theorem NoOld.dirtied {d : Dev} (h : NoOld d) (m : Mem) (line : Nat) (hint : BitVec 2) : NoOld (d.l2Dirty m line hint) := by
  intro e he hclean
  obtain ⟨f, hf, rfl⟩ := List.mem_map.1 he
  split_ifs at hclean ⊢
  exact h.take line hint f hf hclean

theorem NoOld.cleaned {d : Dev} (h : NoOld d) (line : Nat) : NoOld (d.l2Clean line) := by
  unfold Dev.l2Clean
  split
  · intro e he hclean
    obtain ⟨f, hf, rfl⟩ := List.mem_map.1 he
    split_ifs at hclean ⊢
    · rfl
    · exact h f hf hclean
  · exact h

theorem NoOld.writeBackLine {s : State} (h : NoOld s.dev) (line : Nat) : NoOld (s.writeBackLine line).dev := by
  have hback (cells : List Host.Cell) : NoOld (s.backDev line cells) := by
    unfold State.backDev
    split
    · exact h
    · exact NoOld.dirtied (d := (s.l2Enter s.dev line).writtenCells cells) (NoOld.of_eq h (l2Enter_l2 s s.dev line)) s.mem line 1
  exact NoOld.of_eq (hback (s.core.l1.dirty.filter (fun c => lineOf c.1 == line)))
    (foldl_l2 (fun d g => d.setGranule g (some .poisoned)) (fun _ _ => rfl) _ _)

theorem NoOld.writeBackLines {s : State} (h : NoOld s.dev) (ls : List Nat) : NoOld (ls.foldl State.writeBackLine s).dev :=
  List.foldlRecOn (motive := fun (t : State) => NoOld t.dev) ls State.writeBackLine h fun _ ht l _ => ht.writeBackLine l

theorem NoOld.dropLines {s : State} (h : NoOld s.dev) (ls : List Nat) : NoOld (ls.foldl State.dropLine s).dev :=
  List.foldlRecOn (motive := fun (t : State) => NoOld t.dev) ls State.dropLine h fun _ ht l _ => ht.writeBackLine l

theorem NoOld.homeStore {s : State} (h : NoOld s.dev) (path : Path) (pa : Nat) (bs : List Byte) : NoOld (s.homeStore path pa bs).dev := by
  have hkeep (t : State) (held : List Nat) : (t.keepCopies path pa bs held).dev = t.dev :=
    List.foldlRecOn (motive := fun (u : State) => u.dev = t.dev) held (fun (s : State) l => { s with core.l1.stale := s.keepStale l pa bs })
      rfl fun _ hu _ _ => hu
  have hraw (t : State) (ht : NoOld t.dev) : NoOld (t.rawWrite pa bs).dev :=
    List.foldlRecOn (motive := fun (d : Dev) => NoOld d) _ (fun d l => d.l2Dirty t.mem l)
      (NoOld.of_eq ht (foldl_l2 t.l2Enter (fun d l => l2Enter_l2 t d l) _ t.dev)) fun _ hd l _ => hd.dirtied t.mem l 0
  exact NoOld.of_eq (hraw _ (by rw [hkeep]; exact h.writeBackLines _)) rfl

theorem NoOld.touchAll {s : State} (h : NoOld s.dev) (acc : Access) (m : XMap) : NoOld (s.touchAll acc m).dev := by
  refine List.foldlRecOn (motive := fun (t : State) => NoOld t.dev) m _ h fun t ht e _ => ?_
  unfold State.touch
  split
  · exact ht
  · next ea _ =>
    refine NoOld.of_eq (d := (t.setPteBits acc e.2 ea).dev) ?_ rfl
    unfold State.setPteBits
    split
    · exact ht
    · exact List.foldlRecOn (motive := fun (u : State) => NoOld u.dev) _ (fun (t : State) (w : Nat × List Byte) => t.homeStore .h w.1 w.2)
        (ht.writeBackLine _) fun _ hu w _ => hu.homeStore .h w.1 w.2

/-! Maintenance at the home (10 R268). -/

theorem l2Clean_line {d : Dev} (h : NoOld d) (line : Nat) : ∀ e, (d.l2Clean line).hier.line? line = some e → e.dirty = false ∧ e.under = none := by
  have hclean (e : L2Line) (he : (d.l2Clean line).hier.line? line = some e) : e.dirty = false := by
    unfold Dev.l2Clean at he
    split at he
    · obtain ⟨f, hf, rfl⟩ := List.mem_map.1 (List.mem_of_find?_eq_some he)
      have := List.find?_some he
      split_ifs at this ⊢ with hl
      · rfl
      · exact absurd this hl
    · next hd =>
      rw [he] at hd
      simpa using hd
  exact fun e he => ⟨hclean e he, h.cleaned line e (List.mem_of_find?_eq_some he) (hclean e he)⟩

/-- The L1 is not concerned, and no byte changes unless an older copy would show. -/
theorem maintainHome_quiet (s : State) (drop : Bool) (line : Nat) (h : drop = true → NoOld s.dev) :
    Quiet s (s.maintainHome drop line) ∧ (s.maintainHome drop line).core = s.core ∧ (NoOld s.dev → NoOld (s.maintainHome drop line).dev) := by
  have hdev : Dev.OnlyMem s.dev (s.dev.l2Clean line) := by
    unfold Dev.l2Clean
    split
    · exact (l2Back_onlyMem s.dev line).trans rfl
    · exact Dev.OnlyMem.refl _
  have hc : Quiet s { s with dev := s.dev.l2Clean line } := ⟨MemOnly.of_dev hdev, id, fun _ => id, fun _ _ _ => rfl⟩
  unfold State.maintainHome
  cases drop with
  | false => exact ⟨hc, rfl, fun hn => hn.cleaned line⟩
  | true =>
    rw [if_pos rfl]
    have hn := h rfl
    have hdrop : Quiet { s with dev := s.dev.l2Clean line } (({ s with dev := s.dev.l2Clean line } : State).l2Drop line)
        ∧ (({ s with dev := s.dev.l2Clean line } : State).l2Drop line).core = s.core
        ∧ NoOld (({ s with dev := s.dev.l2Clean line } : State).l2Drop line).dev := by
      unfold State.l2Drop
      split
      · exact ⟨Writes.refl _ _, rfl, hn.cleaned line⟩
      · next e he =>
        obtain ⟨hd, hu⟩ := l2Clean_line hn line e he
        simp only [hd, hu, Bool.false_eq_true, if_false, Option.map_none, Option.getD_none]
        exact ⟨⟨⟨rfl, rfl⟩, id, fun _ => id, fun _ _ _ => rfl⟩, trivial, fun f hf => hn.cleaned line f (List.mem_filter.1 hf).1⟩
    obtain ⟨hq, hcore, hno⟩ := hdrop
    exact ⟨(hc.trans hq).trans ⟨⟨rfl, rfl⟩, id, fun _ => id, fun _ _ _ => rfl⟩, hcore, fun _ => hno⟩

theorem maintainHomes_quiet (drop : Bool) (ls : List Nat) (s : State) (h : drop = true → NoOld s.dev) :
    Quiet s (ls.foldl (fun s l => s.maintainHome drop l) s) ∧ (ls.foldl (fun s l => s.maintainHome drop l) s).core = s.core := by
  induction ls generalizing s with
  | nil => exact ⟨Writes.refl _ s, rfl⟩
  | cons l ls ih =>
    obtain ⟨hq, hc, hn⟩ := maintainHome_quiet s drop l h
    obtain ⟨kq, kc⟩ := ih (s.maintainHome drop l) fun hd => hn (h hd)
    exact ⟨hq.trans kq, kc.trans hc⟩

/-! Fences. -/

theorem dropClean_acquired {s : State} : s.dropClean.core.l1.stale = []
    ∧ ∀ n ∈ s.dropClean.core.l1.sectors, ∃ c ∈ s.dropClean.core.l1.dirty, lineOf c.1 = sectorLine n := by
  refine ⟨rfl, fun n hn => ?_⟩
  obtain ⟨c, hc, hl⟩ := List.any_eq_true.1 (List.mem_filter.1 hn).2
  exact ⟨c, hc, by simpa using hl⟩

theorem acquire_acquired (s : State) (scope : BitVec 2) (h : 2 ≤ scope.toNat) : (s.acquire scope).core.l1.stale = []
    ∧ ∀ n ∈ (s.acquire scope).core.l1.sectors, ∃ c ∈ (s.acquire scope).core.l1.dirty, lineOf c.1 = sectorLine n := by
  rw [State.acquire, if_pos h]
  exact dropClean_acquired

theorem acquire_dirty (s : State) (scope : BitVec 2) : (s.acquire scope).core.l1.dirty = s.core.l1.dirty := by
  unfold State.acquire
  split <;> rfl

theorem releaseCache_released (s : State) (hs : s.core.l1.Ok) (scope : BitVec 2) (h : 2 ≤ scope.toNat) :
    (s.releaseCache scope).core.l1.dirty = [] := by
  rw [State.releaseCache, if_pos h]
  exact (writeBackAll_spec s hs.distinct).2.2.1

section
variable {s : State} {scope : BitVec 2}

theorem release_taken (h : Settled s) (ht : 2 ≤ scope.toNat → s.homesAccept s.dirtyLines = true) :
    s.release scope = .ok (s.releaseCache scope) := by
  rw [release_of_settled h, if_pos]
  by_cases hsc : 2 ≤ scope.toNat
  · exact Or.inr (ht hsc)
  · exact Or.inl (by omega)

theorem release_waits (h : Settled s) (hsc : 2 ≤ scope.toNat) (ht : ¬s.homesAccept s.dirtyLines = true) :
    s.release scope = .error (.wait .other) := by
  rw [release_of_settled h, if_neg]
  rintro (h | h)
  · omega
  · exact ht h

theorem fence_completes (h : Settled s) (ht : 2 ≤ scope.toNat → s.homesAccept s.dirtyLines = true) :
    Completes (.fence scope) s ((s.releaseCache scope).acquire scope) := by
  change execFence scope s = _
  rw [execFence, release_taken h ht]
  rfl

theorem fenceRel_completes (h : Settled s) (ht : 2 ≤ scope.toNat → s.homesAccept s.dirtyLines = true) :
    Completes (.fenceRel scope) s (s.releaseCache scope) := by
  change execFenceRel scope s = _
  rw [execFenceRel, release_taken h ht]
  rfl

theorem fences_wait (h : Settled s) (hsc : 2 ≤ scope.toNat) (ht : ¬s.homesAccept s.dirtyLines = true) :
    Waits (.fence scope) s .other ∧ Waits (.fenceRel scope) s .other := by
  constructor
  · change execFence scope s = _
    rw [execFence, release_waits h hsc ht]
    rfl
  · change execFenceRel scope s = _
    rw [execFenceRel, release_waits h hsc ht]
    rfl

end

/-! Invalidations of a path (10 R249; 11 R293). -/

theorem invalDone_quiet (s : State) (line : Nat) : Quiet s (s.invalDone line) :=
  (dropLine_quiet s line).trans ⟨⟨rfl, rfl⟩, id, fun _ => id, fun _ _ _ => rfl⟩

theorem invalDone_invals (s : State) (line : Nat) : (s.invalDone line).core.invals = s.core.invals.filter (fun e => e.1 != line) := rfl

theorem completeInvals_quiet (s : State) (p : Path) : Quiet s (s.completeInvals p) :=
  Writes.foldl State.invalDone _ (fun s l _ => invalDone_quiet s l) s

/-- None of the path is left. -/
theorem completeInvals_invals (s : State) (p : Path) : ∀ e ∈ (s.completeInvals p).core.invals, e.2 ≠ p := by
  have hfold (ls : List Nat) (t : State) : ∀ e ∈ (ls.foldl State.invalDone t).core.invals, e ∈ t.core.invals ∧ e.1 ∉ ls := by
    induction ls generalizing t with
    | nil => exact fun e he => ⟨he, by simp⟩
    | cons l ls ih =>
      intro e he
      obtain ⟨h1, h2⟩ := ih (t.invalDone l) e he
      rw [invalDone_invals, List.mem_filter] at h1
      exact ⟨h1.1, by simpa [h2] using h1.2⟩
  intro e he hp
  obtain ⟨h1, h2⟩ := hfold _ s e he
  exact h2 (List.mem_map.2 ⟨e, List.mem_filter.2 ⟨h1, by simpa using hp⟩, rfl⟩)

/-- What xfence waits for of its source. -/
def State.fenceSource (s : State) (src : BitVec 3) : State := if src = 0 then s.releaseCache 2 else s.completeInvals (pathOf src)

theorem fenceSource_quiet (s : State) (src : BitVec 3) : Quiet s (s.fenceSource src) := by
  unfold State.fenceSource
  split
  · exact releaseCache_quiet s 2
  · exact completeInvals_quiet s _

theorem xfence_completes {s : State} {src dst : BitVec 3} (h : Settled s) (ht : src = 0 → s.homesAccept s.dirtyLines = true) :
    Completes (.xfence src dst) s (if dst = 0 then (s.fenceSource src).acquire 2 else s.fenceSource src) := by
  change execXfence src dst s = _
  rw [execXfence]
  by_cases hs : src = 0
  · simp only [hs, beq_self_eq_true, if_true, release_taken h fun _ => ht hs, State.fenceSource, run_ok_bind, beq_iff_eq]
    rfl
  · have hs' : (src == 0) = false := by simpa using hs
    simp only [hs', hs, Bool.false_eq_true, if_false, State.fenceSource, beq_iff_eq]
    rfl

/-! Maintenance of a range (10 R268, R269). -/

/-- The lines of a maintenance range, at its cacheable pages. -/
def XMap.rangeLines (m : XMap) (va n : Nat) : List Nat :=
  ((m.filter (fun e => e.2.attr == 0)).map (fun e =>
    linesOf (m.pa (max va (e.1 * 4096))) (min (va + n) ((e.1 + 1) * 4096) - max va (e.1 * 4096)))).flatten

/-- Every byte of the range at a cacheable page lies in one of the lines. -/
theorem XMap.lineOf_mem_rangeLines {m : XMap} {va n q : Nat} {x : Xl} (hq : va ≤ q ∧ q < va + n) (hx : m.leaf q = some x) (hattr : x.attr = 0) :
    lineOf (m.pa q) ∈ m.rangeLines va n := by
  have hmem : (q / 4096, x) ∈ m := by
    simp only [XMap.leaf, Option.map_eq_some_iff] at hx
    obtain ⟨e, he, rfl⟩ := hx
    have := List.find?_some he
    have he1 : e.1 = q / 4096 := by simpa using this
    exact he1 ▸ List.mem_of_find?_eq_some he
  obtain ⟨lo, hlo⟩ : ∃ lo, lo = max va (q / 4096 * 4096) := ⟨_, rfl⟩
  have hblock : lo / 4096 = q / 4096 := by omega
  obtain ⟨k, hk⟩ : ∃ k, q = lo + k := ⟨q - lo, by omega⟩
  have hknows : m.knows lo := by rw [XMap.knows, m.leaf_congr hblock, hx]; rfl
  have hpa : m.pa q = m.pa lo + k := by rw [hk]; exact XMap.pa_add hknows (by rw [← hk, hblock])
  refine List.mem_flatten.2 ⟨_, List.mem_map.2 ⟨(q / 4096, x), List.mem_filter.2 ⟨hmem, by simpa using hattr⟩, rfl⟩, ?_⟩
  simp only [← hlo]
  exact lineOf_mem_linesOf ⟨by omega, by omega⟩

/-- What the maintenance of lines leaves. -/
def State.maintained (s : State) (m : XMap) (lines : List Nat) (scope : BitVec 2) (drop : Bool) : State :=
  let t := s.touchAll .read m
  let u := if 2 ≤ scope.toNat then lines.foldl (if drop then State.dropLine else State.writeBackLine) t else t
  if scope = 3 then lines.foldl (fun s l => s.maintainHome drop l) u else u

section
variable {s : State} {m : XMap} {va n : Nat} {scope : BitVec 2} {drop : Bool}

theorem maintain_zero : s.maintain va 0 scope drop = .ok s := rfl

theorem maintain_beyond (hn : n ≠ 0) (h : 2 ^ 56 < va + n) : s.maintain va n scope drop = .error (.trap .addrRange (BitVec.ofNat 64 va) 0) := by
  have haddr : needAddr va n = .error (.trap .addrRange (BitVec.ofNat 64 va) 0) := by
    rw [needAddr, decide_eq_false (show ¬va + n ≤ vaEnd from Nat.not_le.2 h)]
    rfl
  rw [State.maintain, if_neg (by simpa using hn), haddr]
  rfl

theorem maintain_unchecked {e : Stop} (hn : n ≠ 0) (h : va + n ≤ 2 ^ 56) (hm : s.rangeBlocks none (blockCount va n) va = .ok m)
    (hp : s.physCheck false m (m.map (fun e => max va (e.1 * 4096))) = .error e) : s.maintain va n scope drop = .error e := by
  rw [State.maintain, if_neg (by simpa using hn), needAddr_ok h]
  simp only [run_ok_bind, hm, hp]
  rfl

theorem maintain_checked (hn : n ≠ 0) (h : va + n ≤ 2 ^ 56) (hm : s.rangeBlocks none (blockCount va n) va = .ok m)
    (hp : s.physCheck false m (m.map (fun e => max va (e.1 * 4096))) = .ok ()) (hs : Settled s) :
    s.maintain va n scope drop
      = if ((m.map (fun e => max va (e.1 * 4096))).all (s.walkTaken .read) && s.homesAccept (m.rangeLines va n)) = true
        then .ok (s.maintained m (m.rangeLines va n) scope drop) else .error (.wait .other) := by
  have hlines : (((m.filter (fun e => e.2.attr == 0)).map (fun e =>
      (m.pa (max va (e.1 * 4096)), min (va + n) ((e.1 + 1) * 4096) - max va (e.1 * 4096)))).map (fun r => linesOf r.1 r.2)).flatten
      = m.rangeLines va n := by
    rw [List.map_map]
    rfl
  rw [State.maintain, if_neg (by simpa using hn), needAddr_ok h]
  simp only [run_ok_bind, hm, hp, State.settle, hs.settleIf, hlines]
  cases hr : ((m.map (fun e => max va (e.1 * 4096))).all (s.walkTaken .read) && s.homesAccept (m.rangeLines va n)) with
  | false => rfl
  | true =>
    simp only [needTaken_true, run_ok_bind, if_true, State.maintained, beq_iff_eq]

end

/-- The lines given up, or written back, in the L1. -/
def State.keepLines (s : State) (lines : List Nat) (drop : Bool) : State := lines.foldl (if drop then State.dropLine else State.writeBackLine) s

theorem keepLines_quiet (s : State) (lines : List Nat) (drop : Bool) : Quiet s (s.keepLines lines drop) := by
  cases drop with
  | false => exact writeBackLines_quiet lines s
  | true => exact dropLines_quiet lines s

theorem keepLines_noOld {s : State} (h : NoOld s.dev) (lines : List Nat) (drop : Bool) : NoOld (s.keepLines lines drop).dev := by
  cases drop with
  | false => exact h.writeBackLines lines
  | true => exact h.dropLines lines

theorem keepLines_clean {s : State} (hs : s.core.l1.Ok) {lines : List Nat} {pa : Nat} (h : lineOf pa ∈ lines) (drop : Bool) :
    cellAt (s.keepLines lines drop).core.l1.dirty pa = none
    ∧ (drop = true → ∀ n ∈ (s.keepLines lines drop).core.l1.sectors, sectorLine n ≠ lineOf pa) := by
  have hnone : cellAt (s.core.l1.dirty.filter (fun c => !lines.contains (lineOf c.1))) pa = none := by
    rw [cellAt_filter _ (fun a => !lines.contains (lineOf a))]
    simp [h]
  cases drop with
  | false =>
    obtain ⟨-, -, -, -, -, -, hd⟩ := writeBackLines lines s hs.distinct
    exact ⟨by rw [State.keepLines, if_neg (by decide), hd]; exact hnone, fun h => nomatch h⟩
  | true =>
    obtain ⟨-, -, -, -, hd, hsec, -⟩ := dropLines lines s hs.distinct
    refine ⟨by rw [State.keepLines, if_pos rfl, hd]; exact hnone, fun _ n hn hl => ?_⟩
    rw [State.keepLines, if_pos rfl, hsec, List.mem_filter] at hn
    simp [hl, h] at hn

theorem maintained_spec {s : State} (hs : s.Inv) (m : XMap) (lines : List Nat) (scope : BitVec 2) (drop : Bool)
    (hold : scope = 3 → NoOld s.dev) :
    Writes (fun q => ¬m.spares q) s (s.maintained m lines scope drop)
    ∧ (2 ≤ scope.toNat → ∀ pa, lineOf pa ∈ lines → cellAt (s.maintained m lines scope drop).core.l1.dirty pa = none
      ∧ (drop = true → ∀ n ∈ (s.maintained m lines scope drop).core.l1.sectors, sectorLine n ≠ lineOf pa)) := by
  have hw := touchAll_writes s .read m
  obtain ⟨u, hu⟩ : ∃ u, u = (if 2 ≤ scope.toNat then (s.touchAll .read m).keepLines lines drop else s.touchAll .read m) := ⟨_, rfl⟩
  have huq : Quiet (s.touchAll .read m) u := by
    rw [hu]
    split
    · exact keepLines_quiet _ lines drop
    · exact Writes.refl _ _
  have hun (h : NoOld s.dev) : NoOld u.dev := by
    rw [hu]
    split
    · exact keepLines_noOld (h.touchAll .read m) lines drop
    · exact h.touchAll .read m
  have heq : s.maintained m lines scope drop = if scope = 3 then lines.foldl (fun s l => s.maintainHome drop l) u else u := by
    rw [hu]
    rfl
  have hhome : Quiet u (s.maintained m lines scope drop) ∧ (s.maintained m lines scope drop).core = u.core := by
    rw [heq]
    split
    · next h3 => exact maintainHomes_quiet drop lines u fun _ => hun (hold h3)
    · exact ⟨Writes.refl _ u, rfl⟩
  refine ⟨hw.trans (Writes.quiet (huq.trans hhome.1)), fun hsc pa hpa => ?_⟩
  rw [hhome.2, hu, if_pos hsc]
  exact keepLines_clean (hw.form hs.l1) hpa drop

theorem Writes.accesses {s u : State} {m : XMap} (h : Writes (fun q => ¬m.spares q) s u) (hs : s.Inv) : Accesses s u m s.x where
  regs r := by rw [State.x, State.x, h.rest.unit]
  rest := congrArg State.blankX h.rest.rest
  stores := h.rest.stores
  bytes q hq := h.bytes hs.l1 q (not_not.2 hq)

section
variable {s : State} {a b : BitVec 5} {scope : BitVec 2}

theorem cwbr_completes {u : State} (h : s.maintain (addrOf (s.x a)) (s.x b).toNat scope false = .ok u) : Completes (.cwbr a b scope) s u := by
  change execCwbr a b scope s = _
  rw [execCwbr, h]
  rfl

theorem cinv_completes {u : State} (h : s.maintain (addrOf (s.x a)) (s.x b).toNat scope true = .ok u) : Completes (.cinv a b scope) s u := by
  change execCinv a b scope s = _
  rw [execCinv, h]
  rfl

theorem maintenance_stops {e : Stop} (h : ∀ drop, s.maintain (addrOf (s.x a)) (s.x b).toNat scope drop = .error e) :
    exec (.cwbr a b scope) s = s.finish (.error e) ∧ exec (.cinv a b scope) s = s.finish (.error e) := by
  constructor
  · change execCwbr a b scope s = _
    rw [execCwbr, h false]
    rfl
  · change execCinv a b scope s = _
    rw [execCinv, h true]
    rfl

theorem maintenance_traps {c : Cause} {v : Word64} {p : Nat}
    (h : ∀ drop, s.maintain (addrOf (s.x a)) (s.x b).toNat scope drop = .error (.trap c v p)) :
    TrapsWith (.cwbr a b scope) s c v ∧ TrapsWith (.cinv a b scope) s c v :=
  ⟨⟨p, (maintenance_stops h).1⟩, ⟨p, (maintenance_stops h).2⟩⟩

end

/-- Settles O36: every fence is quiet, and the maintenance of lines is when the L2 holds no older clean copy. -/
theorem fences : Obligations.Fences := by
  intro s scope src dst a b hs keeps released acquired taken va n
  have hkeeps {u : State} (h : Quiet s u) : keeps u := ⟨h.rest.rest, fun q => h.bytes hs.l1 q id⟩
  have hrel := releaseCache_quiet s scope
  have hreleased (sc : BitVec 2) : released (s.releaseCache sc) sc.toNat := releaseCache_released s hs.l1 sc
  refine ⟨⟨s.acquire scope, rfl, hkeeps (acquire_quiet s scope), acquire_acquired s scope, (acquire_quiet s scope).rest.stores⟩, fun hset => ?_⟩
  refine ⟨fun ht => ⟨⟨_, fence_completes hset ht, hkeeps (hrel.trans (acquire_quiet _ scope)), fun hsc => ?_, acquire_acquired _ scope⟩,
    ⟨_, fenceRel_completes hset ht, hkeeps hrel, hreleased scope⟩⟩, fun hsc ht => fences_wait hset hsc ht, fun ht => ?_, fun hb => ?_,
    fun hend hb => ?_, fun m hb hend hm => ⟨fun c v p hp => ?_, ?_⟩⟩
  case refine_1 =>
    rw [acquire_dirty]
    exact hreleased scope hsc
  case refine_2 =>
    have hq := fenceSource_quiet s src
    refine ⟨_, xfence_completes hset ht, hkeeps (hq.trans ?_), fun h _ => ?_, fun h => ?_, fun h => ?_⟩
    · split
      · exact acquire_quiet _ 2
      · exact Writes.refl _ _
    · have hd : (s.fenceSource src).core.l1.dirty = [] := by
        rw [State.fenceSource, if_pos h]
        exact hreleased 2 (by decide)
      split
      · rw [acquire_dirty]; exact hd
      · exact hd
    · rw [if_pos h]
      exact acquire_acquired _ 2
    · have hi : ∀ e ∈ (s.fenceSource src).core.invals, e.2 ≠ pathOf src := by
        rw [State.fenceSource, if_neg h]
        exact completeInvals_invals s _
      split
      · exact hi
      · exact hi
  case refine_3 =>
    have hz : (s.x b).toNat = 0 := by rw [hb]; rfl
    exact ⟨cwbr_completes (by rw [hz]; exact maintain_zero), cinv_completes (by rw [hz]; exact maintain_zero)⟩
  all_goals have hn : n ≠ 0 := fun h => hb (BitVec.eq_of_toNat_eq h)
  · exact maintenance_traps fun drop => maintain_beyond hn hend
  · exact maintenance_traps fun drop => maintain_unchecked hn hend hm hp
  · intro hp lows lines ready
    refine ⟨fun hr => ?_, ?_⟩
    · have hwait (drop : Bool) : s.maintain va n scope drop = .error (.wait .other) := by
        rw [maintain_checked hn hend hm hp hset]
        exact if_neg (Bool.eq_false_iff.1 hr)
      exact maintenance_stops hwait
    · intro hr hold inRange
      have hdone (drop : Bool) : s.maintain va n scope drop = .ok (s.maintained m (m.rangeLines va n) scope drop) := by
        rw [maintain_checked hn hend hm hp hset]
        exact if_pos hr
      have hspec (drop : Bool) := maintained_spec hs m (m.rangeLines va n) scope drop hold
      refine ⟨_, _, cwbr_completes (hdone false), (hspec false).1.accesses hs, cinv_completes (hdone true), (hspec true).1.accesses hs,
        fun hsc pa hpa => ?_⟩
      obtain ⟨q, x, hlo, hhi, hleaf, hattr, rfl⟩ := hpa
      have hline := XMap.lineOf_mem_rangeLines ⟨hlo, hhi⟩ hleaf hattr
      obtain ⟨hv, hsec⟩ := (hspec true).2 hsc _ hline
      exact ⟨((hspec false).2 hsc _ hline).1, hv, hsec rfl⟩

end Sys2Proof.Machine
end

section
/-! Remote accesses (16 R424, R426, R427). -/

namespace Sys2Proof.Machine

section
variable {s : State} {acc : Access} {ea n : Nat} {m : XMap}

theorem remoteMap_misaligned (h : ea % n ≠ 0) : s.remoteMap acc ea n = .error (.trap .atomicAlign (BitVec.ofNat 64 ea) 0) := by
  rw [State.remoteMap, needAligned_error h]
  rfl

theorem remoteMap_ok (hal : ea % n = 0) (hm : s.translateBlocks acc true (blocksOf ea n) = .ok m) (hp : (s.peerOf (m.pa ea)).isSome = true) :
    s.remoteMap acc ea n = .ok (m.pa ea, m) := by
  simp only [State.remoteMap, needAligned_ok hal, hm, hp, need_true, run_ok_bind]

end

/-- A request whose peer a link reaches waits; one that none reaches fails. -/
theorem ask_reached {s : State} {ea pa : Nat} {op : RemoteOp} {b : Bool} (h : s.core.remote = none)
    (hp : ((s.peerOf pa).map s.reachable) = some b) : s.ask ea pa op
      = if b then .next { s with core.remote := some ⟨ea, pa, op⟩, core.wait := .other }
        else .next (s.trapHere .machineCheck (BitVec.ofNat 64 ea) 0) := by
  unfold State.ask
  rw [h, hp]
  cases b <;> rfl

theorem replyValue_failed {ea : Nat} {r : RemoteReply} (h1 : r ≠ .refused) (h2 : r ≠ .ack) (h3 : ∀ v, r ≠ .value v) :
    replyValue ea r = .error (.trap .machineCheck (BitVec.ofNat 64 ea) 0) := by
  cases r with
  | value v => exact absurd rfl (h3 v)
  | refused => exact absurd rfl h1
  | ack => exact absurd rfl h2
  | _ => rfl

/-- What a remote access leaves with its answer: its destination, and what translating leaves behind. -/
theorem answered_accesses {s : State} (hs : s.Inv) (acc : Access) (m : XMap) (d : BitVec 5) (v : Word64) (acq : Bool) :
    Accesses s.answered (if acq then ((s.answered.touchAll acc m).setX d v).acquire 3 else (s.answered.touchAll acc m).setX d v) m
      (fun r => if r = d ∧ d ≠ 0 then v else s.x r) := by
  have hw := touchAll_writes s.answered acc m
  obtain ⟨t, ht⟩ : ∃ t, t = s.answered.touchAll acc m := ⟨_, rfl⟩
  rw [← ht] at hw ⊢
  have hform : s.answered.core.l1.Ok := hs.l1
  have hset : Accesses s.answered (t.setX d v) m (fun r => if r = d ∧ d ≠ 0 then v else s.x r) := by
    have hblank : (t.setX d v).blankX = t.blankX := State.setX_blankX t d v
    have hx (r : BitVec 5) : t.x r = s.x r := by rw [State.x, State.x, hw.rest.unit]; rfl
    refine ⟨fun r => ?_, ?_, ?_, fun q hq => ?_⟩
    · have hzero : s.x 0 = 0 := rfl
      rw [State.setX_x, hx]
      by_cases hr : r = 0
      · subst hr
        rw [if_pos rfl, if_neg fun h => h.2 h.1.symm, hzero]
      · rw [if_neg hr]
        by_cases hd : r = d
        · rw [if_pos hd, if_pos ⟨hd, hd ▸ hr⟩]
        · rw [if_neg hd, if_neg fun h => hd h.1]
    · rw [hblank]
      exact congrArg State.blankX hw.rest.rest
    · have : (t.setX d v).core.sb = t.core.sb := congrArg (·.core.sb) hblank
      exact this.trans hw.rest.stores
    · have : (t.setX d v).blankX.newest q = t.blankX.newest q := by rw [hblank]
      exact this.trans (hw.bytes hform q (not_not.2 hq))
  split
  · have hq := acquire_quiet (t.setX d v) 3
    have hbytes (q : Nat) : ((t.setX d v).acquire 3).newest q = (t.setX d v).newest q := rfl
    exact ⟨fun r => by rw [← hset.regs r, State.x, State.x, hq.rest.unit], (congrArg State.blankX hq.rest.rest).trans hset.rest,
      hq.rest.stores.trans hset.stores, fun q hspare => (hbytes q).trans (hset.bytes q hspare)⟩
  · exact hset

section
variable {s : State} {d a b : BitVec 5} {acq : BitVec 1} {sz ord : BitVec 2} {w : BitVec 1} {op : BitVec 4} {n : Nat} {m : XMap}

theorem exec_rget_reply {r : RemoteReply} (hn : n = 2 ^ sz.toNat) (hm : s.remoteMap .read (addrOf (s.x a)) n = .ok (m.pa (addrOf (s.x a)), m))
    (hr : s.core.reply = some r) : exec (.rget d a acq sz) s = s.finish (s.rgetDone d (acq == 1) (addrOf (s.x a)) n m r) := by
  subst hn
  change execRget d a acq sz s = _
  simp only [execRget, hm, hr]

theorem exec_rget_ask (hn : n = 2 ^ sz.toNat) (hm : s.remoteMap .read (addrOf (s.x a)) n = .ok (m.pa (addrOf (s.x a)), m))
    (hr : s.core.reply = none) (hs : Settled s) : exec (.rget d a acq sz) s = s.ask (addrOf (s.x a)) (m.pa (addrOf (s.x a))) (.get n) := by
  subst hn
  change execRget d a acq sz s = _
  simp only [execRget, hm, hr, State.settleRemote, hs.settleIf]

theorem exec_ramo_reply {r : RemoteReply} (hn : n = amoBytes w)
    (hm : s.remoteMap .readWrite (addrOf (s.x a)) n = .ok (m.pa (addrOf (s.x a)), m))
    (hr : s.core.reply = some r) : exec (.ramo d a b ord w op) s = s.finish (s.ramoDone d ord (addrOf (s.x a)) n m r) := by
  subst hn
  change execRamo d a b ord w op s = _
  simp only [execRamo, hm, hr]

theorem exec_ramo_ask (hn : n = amoBytes w) (hm : s.remoteMap .readWrite (addrOf (s.x a)) n = .ok (m.pa (addrOf (s.x a)), m))
    (hr : s.core.reply = none) (hs : Settled s) (hclean : s.core.l1.dirty = []) :
    exec (.ramo d a b ord w op) s = s.ask (addrOf (s.x a)) (m.pa (addrOf (s.x a))) (.atomic op n (s.x b) (s.x d)) := by
  subst hn
  have hlines : s.dirtyLines = [] := by simp [State.dirtyLines, hclean]
  have hrel : s.release 3 = .ok s := by
    rw [release_taken hs fun _ => by simp [hlines, State.homesAccept], State.releaseCache, if_pos (by decide), State.writeBackAll, hlines]
    rfl
  change execRamo d a b ord w op s = _
  simp only [execRamo, hm, hr, settleStores_of_empty hs.stores, State.settleRemote, hs.settleIf, run_ok_bind, hrel, ite_self]

theorem rput_completes {rel : BitVec 1} (hn : n = 2 ^ sz.toNat) (hm : s.remoteMap .write (addrOf (s.x a)) n = .ok (m.pa (addrOf (s.x a)), m))
    (hroom : s.scalarStores < 32) :
    Completes (.rput a b rel sz) s ((s.touchAll .write m).withStores (s.core.sb ++
      [{ kind := .rput (rel == 1), va := addrOf (s.x a), len := n, writes := [(m.pa (addrOf (s.x a)), leBytes n (s.x b).toNat)], raw := [],
         runs := [], cached := true, device := false, poison := [], part := s.core.unit.ident.part, task := s.core.unit.ident.task,
         launch := s.core.unit.ident.launch }])) := by
  subst hn
  have hsb : (s.touchAll .write m).core.sb = s.core.sb := (touchAll_memOnly ..).stores
  have hroom' : (s.touchAll .write m).scalarStores < 32 := by rwa [State.scalarStores, hsb]
  change execRput a b rel sz s = _
  rw [execRput]
  simp only [hm, run_ok_bind, pushStore_of_room hroom', hsb]
  rfl

end

/-- Settles O37. -/
theorem remoteAccesses : Obligations.RemoteAccesses := by
  intro s d a b acq rel sz ord w op m hs ea reach get atom n k
  have hk : k = amoBytes w := by simp only [k, amoBytes, beq_iff_eq]
  have hmap (acc : Access) (j : Nat) (h : reach acc j) : s.remoteMap acc ea j = .ok (m.pa ea, m) := remoteMap_ok h.1 h.2.1 h.2.2
  refine ⟨fun hal => ⟨⟨0, ?_⟩, ⟨0, ?_⟩⟩, fun h => ⟨fun hr hrem hset hp => ?_, fun hr hrem hset hp => ⟨0, ?_⟩, fun v hr => ⟨_, ?_,
      answered_accesses hs .read m d _ (acq == 1)⟩, fun hr => ⟨0, ?_⟩, fun r hr h1 h2 h3 => ⟨0, ?_⟩⟩,
    fun h => ⟨fun hr hrem hset hclean hp => ?_, fun v hr => ⟨_, ?_, answered_accesses hs .readWrite m d _ (ordAcq ord)⟩, fun hr => ⟨0, ?_⟩⟩,
    fun h hroom => ?_⟩
  · change execRget d a acq sz s = _
    simp only [execRget]
    rw [remoteMap_misaligned hal]
    rfl
  · change execRput a b rel sz s = _
    simp only [execRput]
    rw [remoteMap_misaligned hal]
    rfl
  · exact (exec_rget_ask rfl (hmap .read n h) hr hset).trans (ask_reached hrem hp)
  · exact (exec_rget_ask rfl (hmap .read n h) hr hset).trans (ask_reached hrem hp)
  · rw [Completes, exec_rget_reply rfl (hmap .read n h) hr]
    rfl
  · rw [exec_rget_reply rfl (hmap .read n h) hr]
    rfl
  · rw [exec_rget_reply rfl (hmap .read n h) hr, State.rgetDone, replyValue_failed h1 h2 h3]
    rfl
  · exact (exec_ramo_ask hk (hmap .readWrite k h) hr hset hclean).trans (ask_reached hrem hp)
  · rw [Completes, exec_ramo_reply hk (hmap .readWrite k h) hr]
    rfl
  · rw [exec_ramo_reply hk (hmap .readWrite k h) hr]
    rfl
  · have hw := touchAll_writes s .write m
    exact ⟨_, _, rput_completes rfl (hmap .write n h) hroom, rfl, rfl, rfl, rfl, rfl, ⟨rfl, rfl, rfl⟩, hw.rest.rest,
      fun q hq => hw.bytes hs.l1 q (not_not.2 hq)⟩

end Sys2Proof.Machine
end

section
/-! Counts of Beryl blocks (12 R297, R298, R301, R302, R308, R310). -/

namespace Sys2Proof.Machine

/-! The block of a name. -/

theorem Beryl.find_modBlock (b : Beryl) (rg g : BitVec 4) (n m : BitVec 128) (f : Block → Block)
    (hf : ∀ k, (f k).region = k.region ∧ (f k).name = k.name) :
    (b.modBlock rg n f).find g m = if g = rg ∧ m = n then (b.find g m).map f else b.find g m := by
  have hcomp : ((fun k : Block => k.region == g && k.name == m) ∘ fun k => if k.region == rg && k.name == n then f k else k)
      = fun k => k.region == g && k.name == m := by
    funext k
    simp only [Function.comp_apply]
    split
    · rw [(hf k).1, (hf k).2]
    · rfl
  simp only [Beryl.find, Beryl.modBlock, List.find?_map, hcomp]
  cases hk : b.blocks.find? (fun k => k.region == g && k.name == m) with
  | none => simp
  | some k =>
    have hmatch : k.region = g ∧ k.name = m := by simpa using List.find?_some hk
    obtain ⟨rfl, rfl⟩ := hmatch
    simp only [Option.map_some, Bool.and_eq_true, beq_iff_eq]
    split <;> rfl

theorem Beryl.find_setCount (b : Beryl) (rg g : BitVec 4) (n m : BitVec 128) (p : BitVec 3) (f : Block → Nat) (h : ¬(g = rg ∧ m = n)) :
    (b.modBlock rg n (fun k => k.setCount p (f k))).find g m = b.find g m := by
  rw [b.find_modBlock rg g n m (fun k => k.setCount p (f k)) fun _ => ⟨rfl, rfl⟩, if_neg h]

theorem Block.count_setCount {k : Block} (h : k.counts.length = 8) (p q : BitVec 3) (v : Nat) :
    (k.setCount p v).count q = if q = p then v else k.count q := by
  have hp : p.toNat < k.counts.length := h ▸ p.isLt
  simp only [Block.count, Block.setCount, List.getD_eq_getElem?_getD, List.getElem?_set, hp, if_true]
  by_cases hq : q = p
  · subst hq; simp
  · have : p.toNat ≠ q.toNat := fun he => hq (BitVec.eq_of_toNat_eq he.symm)
    simp [this, hq]

/-- A block that no partition refers to. -/
theorem Block.unreferenced {k : Block} (h : k.counts.length = 8) : k.counts.all (· == 0) = true ↔ ∀ q, k.count q = 0 := by
  simp only [List.all_eq_true, beq_iff_eq, Block.count, List.getD_eq_getElem?_getD]
  constructor
  · intro hz q
    have hq : q.toNat < k.counts.length := h ▸ q.isLt
    rw [List.getElem?_eq_getElem hq, Option.getD_some]
    exact hz _ (List.getElem_mem hq)
  · intro hz c hc
    obtain ⟨i, hi, rfl⟩ := List.getElem_of_mem hc
    have := hz (BitVec.ofNat 3 i)
    have hmod : i % 2 ^ 3 = i := Nat.mod_eq_of_lt (by omega)
    rwa [BitVec.toNat_ofNat, hmod, List.getElem?_eq_getElem hi, Option.getD_some] at this

theorem State.Inv.counts_of_find {s : State} (hs : s.Inv) {rg : BitVec 4} {n : BitVec 128} {k : Block} (h : s.beryl.find rg n = some k) :
    k.counts.length = 8 := hs.counts k (List.mem_of_find?_eq_some h)

/-! References taken (12 R301). -/

theorem Beryl.ref_other (b : Beryl) (rg g : BitVec 4) (n m : BitVec 128) (p : BitVec 3) (h : (g, m) ≠ (rg, n)) :
    (b.ref rg n p).find g m = b.find g m := by
  unfold Beryl.ref
  split
  · rfl
  · exact b.find_setCount rg g n m p _ fun he => h (Prod.ext he.1 he.2)

theorem Beryl.ref_queue (b : Beryl) (rg : BitVec 4) (n : BitVec 128) (p : BitVec 3) : (b.ref rg n p).queue = b.queue := by
  unfold Beryl.ref
  split <;> rfl

theorem Beryl.ref_find {b : Beryl} {rg : BitVec 4} {n : BitVec 128} {k : Block} (p : BitVec 3) (hn : n ≠ 0) (h : b.find rg n = some k) :
    (b.ref rg n p).find rg n = some (k.setCount p (min (k.count p + 1) immortal)) := by
  rw [Beryl.ref, if_neg (by simpa using hn),
    b.find_modBlock rg rg n n (fun k => k.setCount p (min (k.count p + 1) immortal)) fun _ => ⟨rfl, rfl⟩, if_pos ⟨rfl, rfl⟩, h]
  rfl

/-! References released (12 R301, R302). -/

/-- The block after a release of one reference. -/
def Block.released (k : Block) (p : BitVec 3) : Block :=
  if k.count p == 0 || k.count p == immortal then k else k.setCount p (k.count p - 1)

theorem Block.released_fields (k : Block) (p : BitVec 3) :
    (k.released p).region = k.region ∧ (k.released p).name = k.name ∧ (k.released p).counts.length = k.counts.length
      ∧ { k.released p with counts := k.counts } = k := by
  unfold Block.released
  split
  · exact ⟨rfl, rfl, rfl, rfl⟩
  · exact ⟨rfl, rfl, List.length_set, rfl⟩

theorem Block.count_released {k : Block} (h : k.counts.length = 8) (p q : BitVec 3) (hp : k.count p ≠ 0) :
    (k.released p).count q = if q = p ∧ k.count q ≠ 2 ^ 28 - 1 then k.count q - 1 else k.count q := by
  unfold Block.released
  by_cases hi : k.count p = immortal
  · rw [if_pos (by simp [hi]), if_neg]
    rintro ⟨rfl, h2⟩
    exact h2 hi
  · rw [if_neg (by simp [hi, hp]), count_setCount h]
    by_cases hq : q = p
    · subst hq
      rw [if_pos rfl, if_pos ⟨rfl, hi⟩]
    · rw [if_neg hq, if_neg fun h => hq h.1]

/-- The block is queued when its last reference goes, and once. -/
def Block.enqueued (k : Block) : Block := if k.counts.all (· == 0) && !k.queued then { k with queued := true } else k

section
variable {b : Beryl} {rg : BitVec 4} {n : BitVec 128} {k : Block}

theorem Beryl.enqueue_find (h : b.find rg n = some k) : (b.enqueue rg n).find rg n = some k.enqueued := by
  unfold Beryl.enqueue Block.enqueued
  rw [h]
  dsimp only
  split
  · have := b.find_modBlock rg rg n n (fun k => { k with queued := true }) fun _ => ⟨rfl, rfl⟩
    rw [if_pos ⟨rfl, rfl⟩, h] at this
    exact this
  · exact h

theorem Beryl.enqueue_queue (h : b.find rg n = some k) :
    (b.enqueue rg n).queue = b.queue ++ if k.counts.all (· == 0) && !k.queued then [(rg, n)] else [] := by
  unfold Beryl.enqueue
  rw [h]
  dsimp only
  split
  · rfl
  · exact (List.append_nil _).symm

theorem Beryl.enqueue_other (b : Beryl) (rg g : BitVec 4) (n m : BitVec 128) (h : ¬(g = rg ∧ m = n)) : (b.enqueue rg n).find g m = b.find g m := by
  unfold Beryl.enqueue
  split
  · rfl
  · split
    · have := b.find_modBlock rg g n m (fun k => { k with queued := true }) fun _ => ⟨rfl, rfl⟩
      rw [if_neg h] at this
      exact this
    · rfl

theorem Beryl.unref_eq (b : Beryl) (rg : BitVec 4) (n : BitVec 128) (p : BitVec 3) (hn : n ≠ 0) :
    b.unref rg n p = (b.modBlock rg n (·.released p)).enqueue rg n := by
  rw [Beryl.unref, if_neg (by simpa using hn)]
  rfl

theorem Beryl.unref_other (b : Beryl) (rg g : BitVec 4) (n m : BitVec 128) (p : BitVec 3) (hn : n ≠ 0) (h : (g, m) ≠ (rg, n)) :
    (b.unref rg n p).find g m = b.find g m := by
  have hne : ¬(g = rg ∧ m = n) := fun he => h (Prod.ext he.1 he.2)
  rw [b.unref_eq rg n p hn, Beryl.enqueue_other _ rg g n m hne,
    b.find_modBlock rg g n m (·.released p) fun k => ⟨(k.released_fields p).1, (k.released_fields p).2.1⟩, if_neg hne]

theorem Beryl.released_find (p : BitVec 3) (h : b.find rg n = some k) : (b.modBlock rg n (·.released p)).find rg n = some (k.released p) := by
  rw [b.find_modBlock rg rg n n (·.released p) fun k => ⟨(k.released_fields p).1, (k.released_fields p).2.1⟩, if_pos ⟨rfl, rfl⟩, h]
  rfl

theorem Beryl.unref_find (p : BitVec 3) (hn : n ≠ 0) (h : b.find rg n = some k) : (b.unref rg n p).find rg n = some (k.released p).enqueued := by
  rw [b.unref_eq rg n p hn]
  exact Beryl.enqueue_find (Beryl.released_find p h)

theorem Beryl.unref_queue (p : BitVec 3) (hn : n ≠ 0) (h : b.find rg n = some k) :
    (b.unref rg n p).queue = b.queue ++ if (k.released p).counts.all (· == 0) && !(k.released p).queued then [(rg, n)] else [] := by
  rw [b.unref_eq rg n p hn, Beryl.enqueue_queue (Beryl.released_find p h)]
  rfl

end

theorem Block.enqueued_fields (k : Block) : k.enqueued.counts = k.counts ∧ { k.enqueued with queued := k.queued } = k
    ∧ (k.enqueued.queued = (k.queued || k.counts.all (· == 0))) := by
  unfold Block.enqueued
  split
  · next h =>
    obtain ⟨hz, hq⟩ := Bool.and_eq_true_iff.1 h
    exact ⟨rfl, rfl, by rw [hz, Bool.or_true]⟩
  · next h =>
    refine ⟨rfl, rfl, ?_⟩
    cases hq : k.queued with
    | true => rfl
    | false => simpa [hq] using h

/-! The instructions. -/

section
variable {s : State} {a : BitVec 5} {rg : BitVec 4} {n : BitVec 128}

theorem needRegion_ok (h : (s.region rg).usable s.part = true) : s.needRegion rg = .ok () := by rw [State.needRegion, h]; rfl

theorem needRegion_error (h : (s.region rg).usable s.part = false) :
    s.needRegion rg = .error (.trap .berylRegion (rg.zeroExtend 64) 0) := by rw [State.needRegion, h]; rfl

theorem needLive_ok (h : n = 0 ∨ (s.beryl.find rg n).isSome = true) : s.needLive rg n = .ok () := by
  have : (n == 0 || s.beryl.live rg n) = true := by simpa [Beryl.live] using h
  rw [State.needLive, this]
  rfl

theorem needLive_error (hn : n ≠ 0) (h : s.beryl.find rg n = none) : s.needLive rg n = .error (.trap .berylName (n.setWidth 64) 0) := by
  have : (n == 0 || s.beryl.live rg n) = false := by simpa [Beryl.live, h] using hn
  rw [State.needLive, this]
  rfl

theorem bref_completes (hs : Settled s) (hr : (s.region rg).usable s.part = true)
    (hn : s.pair a = 0 ∨ (s.beryl.find rg (s.pair a)).isSome = true) :
    Completes (.bref a rg) s { s with beryl := s.beryl.ref rg (s.pair a) s.part } := by
  change execBref a rg s = _
  simp only [execBref, hs.settleAll, needRegion_ok hr, needLive_ok hn, run_ok_bind]
  rfl

theorem brel_completes (hs : Settled s) (hr : (s.region rg).usable s.part = true)
    (hn : s.pair a = 0 ∨ (s.beryl.find rg (s.pair a)).isSome = true)
    (hc : (s.pair a == 0 || ((s.beryl.find rg (s.pair a)).map (·.count s.part)).getD 0 != 0) = true) :
    Completes (.brel a rg) s { s with beryl := s.beryl.unref rg (s.pair a) s.part } := by
  change execBrel a rg s = _
  simp only [execBrel, hs.settleAll, needRegion_ok hr, needLive_ok hn, hc, need_true, run_ok_bind]
  rfl

theorem counts_trap {e : Stop} (hs : Settled s) (h : s.needRegion rg = .error e ∨ s.needRegion rg = .ok () ∧ s.needLive rg (s.pair a) = .error e) :
    exec (.bref a rg) s = s.finish (.error e) ∧ exec (.brel a rg) s = s.finish (.error e) := by
  constructor
  · change execBref a rg s = _
    rcases h with h | ⟨h, k⟩
    · simp only [execBref, hs.settleAll, h, run_ok_bind, run_error_bind]
    · simp only [execBref, hs.settleAll, h, k, run_ok_bind, run_error_bind]
  · change execBrel a rg s = _
    rcases h with h | ⟨h, k⟩
    · simp only [execBrel, hs.settleAll, h, run_ok_bind, run_error_bind]
    · simp only [execBrel, hs.settleAll, h, k, run_ok_bind, run_error_bind]

theorem brel_trap (hs : Settled s) (hr : (s.region rg).usable s.part = true) (hn : s.pair a ≠ 0) {k : Block}
    (hk : s.beryl.find rg (s.pair a) = some k) (hc : k.count s.part = 0) : TrapsWith (.brel a rg) s .berylName ((s.pair a).setWidth 64) := by
  have hfail : (s.pair a == 0 || ((s.beryl.find rg (s.pair a)).map (·.count s.part)).getD 0 != 0) = false := by simpa [hk, hc] using hn
  refine ⟨0, ?_⟩
  change execBrel a rg s = _
  simp only [execBrel, hs.settleAll, needRegion_ok hr, needLive_ok (Or.inr (by rw [hk]; rfl)), hfail, need_false, run_ok_bind, run_error_bind]
  rfl

end

/-! vsw.drop (12 R315). -/

theorem vswDrop_completes {s : State} (hs : Settled s) (d : BitVec 5) : Completes (.vswDrop d) s (((s.switchPin none).setX d 0).acquire 2) := by
  change execVswDrop d s = _
  simp only [execVswDrop, hs.settleAll, run_ok_bind]
  rfl

theorem vswDrop_leaves (s : State) (d : BitVec 5) :
    let u := ((s.switchPin none).setX d 0).acquire 2
    u.k.vpin = 0 ∧ u.x d = 0 ∧ (∀ r, r ≠ d → u.x r = s.x r)
      ∧ u.core.oldPins = s.core.oldPins ++ (if s.k.pinned then [s.k.pinEntry] else [])
      ∧ (∀ q, u.newest q = s.newest q)
      ∧ ({ u with core.oldPins := s.core.oldPins, core.unit.k.vpin := s.k.vpin } : State).blankX.blankMem = s.blankX.blankMem := by
  have hx (r : BitVec 5) : (((s.switchPin none).setX d 0).acquire 2).x r = if r = 0 then 0 else if r = d then 0 else s.x r :=
    State.setX_x (s.switchPin none) d r 0
  refine ⟨?_, ?_, fun r hr => ?_, ?_, fun q => ?_, ?_⟩
  · unfold State.setX; split <;> rfl
  · rw [hx, if_pos rfl, ite_self]
  · rw [hx, if_neg hr]
    split
    · next h => rw [h]; rfl
    · rfl
  · unfold State.setX; split <;> rfl
  · unfold State.setX; split <;> rfl
  · unfold State.setX; split <;> rfl

/-- Settles O40: what taking and releasing a reference does to the block of its name. -/
theorem berylReferences : Obligations.BerylReferences := by
  intro s a d rg hs n p
  have himm : immortal = 2 ^ 28 - 1 := rfl
  refine ⟨fun hr hset => ?_, fun hr hset => ⟨fun hn => ?_, fun hn hk => ?_, fun k hn hk => ⟨?_, fun hc => brel_trap hset hr hn hk hc, fun hc => ?_⟩⟩,
    fun hset => ⟨_, vswDrop_completes hset d, vswDrop_leaves s d⟩⟩
  · have h := counts_trap (a := a) hset (Or.inl (needRegion_error hr))
    exact ⟨⟨0, h.1⟩, ⟨0, h.2⟩⟩
  · have hn' : s.pair a = 0 := hn
    refine ⟨(bref_completes hset hr (Or.inl hn)).trans ?_, (brel_completes hset hr (Or.inl hn) (by simp [hn'])).trans ?_⟩
    · rw [hn']; rfl
    · rw [hn']; rfl
  · have h := counts_trap (a := a) hset (Or.inr ⟨needRegion_ok hr, needLive_error hn hk⟩)
    exact ⟨⟨0, h.1⟩, ⟨0, h.2⟩⟩
  · have hlen := hs.counts_of_find hk
    refine ⟨_, bref_completes hset hr (Or.inr (by rw [show s.beryl.find rg (s.pair a) = some k from hk]; rfl)), rfl, Beryl.ref_queue ..,
      fun g m h => Beryl.ref_other s.beryl rg g n m p h, _, Beryl.ref_find p hn hk, rfl, fun q => ?_⟩
    rw [Block.count_setCount hlen, himm]
    by_cases hq : q = p
    · rw [if_pos hq, if_pos hq, hq]
    · rw [if_neg hq, if_neg hq]
  · have hlen := hs.counts_of_find hk
    have hk' : s.beryl.find rg (s.pair a) = some k := hk
    obtain ⟨hreg, hname, hlen', hsame⟩ := k.released_fields p
    have hlen' := hlen'.trans hlen
    obtain ⟨hcnt, hback, hqd⟩ := (k.released p).enqueued_fields
    have hcount (q : BitVec 3) : (k.released p).enqueued.count q = (k.released p).count q := by rw [Block.count, hcnt]; rfl
    have hzero : (k.released p).counts.all (· == 0) = true ↔ ∀ q, (k.released p).enqueued.count q = 0 := by
      rw [Block.unreferenced hlen']
      simp only [hcount]
    have hqk : (k.released p).queued = k.queued := by
      have := congrArg Block.queued hsame
      exact this
    refine ⟨_, (k.released p).enqueued, brel_completes hset hr (Or.inr (by rw [hk']; rfl)) (by simp [hk', show k.count s.part ≠ 0 from hc]), rfl,
      fun g m h => Beryl.unref_other s.beryl rg g n m p hn h, Beryl.unref_find p hn hk, ?_, fun q => ?_, ?_, ?_⟩
    · have h1 := congrArg (fun j : Block => { j with counts := k.counts, queued := k.queued }) hback
      have h2 := congrArg (fun j : Block => { j with queued := k.queued }) hsame
      exact Eq.trans h1 h2
    · rw [hcount, Block.count_released hlen p q hc]
    · rw [hqd, hqk, Bool.or_eq_true, hzero]
    · refine (Beryl.unref_queue p hn hk).trans ?_
      rw [hqk]
      congr 1
      simp only [← hzero, Bool.and_eq_true, Bool.not_eq_true']

end Sys2Proof.Machine
end

section
/-! The reclaimer and the pin table (12 R302, R315, R317). -/

namespace Sys2Proof.Machine

/-! What releasing a reference leaves. -/

theorem Beryl.enqueue_keeps (b : Beryl) (rg : BitVec 4) (n : BitVec 128) :
    (b.enqueue rg n).leafCache = b.leafCache ∧ (b.enqueue rg n).pins = b.pins
      ∧ ∀ e ∈ (b.enqueue rg n).queue, e ∈ b.queue ∨ e = (rg, n) ∧ (b.find rg n).isSome = true := by
  unfold Beryl.enqueue
  split
  · exact ⟨rfl, rfl, fun e he => Or.inl he⟩
  · next k hk =>
    split
    · refine ⟨rfl, rfl, fun e he => ?_⟩
      rcases List.mem_append.1 he with he | he
      · exact Or.inl he
      · exact Or.inr ⟨List.mem_singleton.1 he, by rw [hk]; rfl⟩
    · exact ⟨rfl, rfl, fun e he => Or.inl he⟩

theorem Beryl.unref_keeps (b : Beryl) (rg : BitVec 4) (n : BitVec 128) (p : BitVec 3) :
    (b.unref rg n p).leafCache = b.leafCache ∧ (b.unref rg n p).pins = b.pins
      ∧ ∀ e ∈ (b.unref rg n p).queue, e ∈ b.queue ∨ e = (rg, n) ∧ (b.find rg n).isSome = true := by
  by_cases hn : n = 0
  · rw [Beryl.unref, if_pos (by simp [hn])]
    exact ⟨rfl, rfl, fun e he => Or.inl he⟩
  · rw [b.unref_eq rg n p hn]
    obtain ⟨h1, h2, h3⟩ := (b.modBlock rg n (·.released p)).enqueue_keeps rg n
    refine ⟨h1, h2, fun e he => (h3 e he).imp_right fun h => ⟨h.1, ?_⟩⟩
    have := h.2
    rwa [b.find_modBlock rg rg n n (·.released p) fun k => ⟨(k.released_fields p).1, (k.released_fields p).2.1⟩, if_pos ⟨rfl, rfl⟩,
      Option.isSome_map] at this

theorem Beryl.unref_find_none {b : Beryl} {rg g : BitVec 4} {n m : BitVec 128} (p : BitVec 3) (h : b.find g m = none) :
    (b.unref rg n p).find g m = none := by
  by_cases hn : n = 0
  · rw [Beryl.unref, if_pos (by simp [hn])]
    exact h
  · by_cases he : (g, m) = (rg, n)
    · obtain ⟨rfl, rfl⟩ := Prod.mk.inj he
      rw [b.unref_eq g m p hn]
      have hmod : (b.modBlock g m (·.released p)).find g m = none := by
        rw [b.find_modBlock g g m m (·.released p) fun k => ⟨(k.released_fields p).1, (k.released_fields p).2.1⟩, if_pos ⟨rfl, rfl⟩, h]
        rfl
      simpa only [Beryl.enqueue, hmod] using hmod
    · rw [Beryl.unref_other b rg g n m p hn he, h]

/-! The children of a node. -/

/-- The references of a node on its children, released. -/
def Beryl.unrefAll (b : Beryl) (rg : BitVec 4) (p : BitVec 3) (ns : List (BitVec 128)) : Beryl := ns.foldl (fun b n => b.unref rg n p) b

theorem Beryl.unrefAll_keeps (rg : BitVec 4) (p : BitVec 3) (ns : List (BitVec 128)) (b : Beryl) (g : BitVec 4) (m : BitVec 128)
    (h : b.find g m = none) :
    (b.unrefAll rg p ns).find g m = none ∧ (b.unrefAll rg p ns).leafCache = b.leafCache
      ∧ ((g, m) ∈ (b.unrefAll rg p ns).queue → (g, m) ∈ b.queue) := by
  induction ns generalizing b with
  | nil => exact ⟨h, rfl, id⟩
  | cons n ns ih =>
    obtain ⟨h1, h2, h3⟩ := ih (b.unref rg n p) (Beryl.unref_find_none p h)
    obtain ⟨k1, -, k3⟩ := b.unref_keeps rg n p
    refine ⟨h1, h2.trans k1, fun hq => ?_⟩
    rcases k3 _ (h3 hq) with hb | ⟨he, hs⟩
    · exact hb
    · obtain ⟨rfl, rfl⟩ := Prod.mk.inj he
      rw [h] at hs
      cases hs

/-- A child loses one reference for each time that the node names it. -/
theorem Beryl.unrefAll_find (rg : BitVec 4) (p : BitVec 3) (ns : List (BitVec 128)) (b : Beryl) (m : BitVec 128) (k : Block) (hm : m ≠ 0)
    (hk : b.find rg m = some k) (hlen : k.counts.length = 8) (hlt : k.count p < 2 ^ 28 - 1) :
    ∃ j, (b.unrefAll rg p ns).find rg m = some j ∧ j.count p = k.count p - ns.countP (· == m) := by
  induction ns generalizing b k with
  | nil => exact ⟨k, hk, by simp⟩
  | cons n ns ih =>
    by_cases hn : n = m
    · subst hn
      obtain ⟨hcnt, -, -⟩ := (k.released p).enqueued_fields
      have hcount : (k.released p).enqueued.count p = k.count p - 1 := by
        rw [Block.count, hcnt, ← Block.count]
        by_cases hz : k.count p = 0
        · rw [Block.released, if_pos (by simp [hz])]
          omega
        · rw [Block.count_released hlen p p hz, if_pos ⟨rfl, by omega⟩]
      obtain ⟨j, hj, hc⟩ := ih (b.unref rg n p) _ (Beryl.unref_find p hm hk) (by rw [hcnt, (k.released_fields p).2.2.1]; exact hlen)
        (by rw [hcount]; omega)
      refine ⟨j, hj, ?_⟩
      rw [hc, hcount, List.countP_cons_of_pos (by simp)]
      omega
    · have hsame : (b.unref rg n p).find rg m = some k := by
        by_cases hz : n = 0
        · rw [Beryl.unref, if_pos (by simp [hz])]
          exact hk
        · rw [Beryl.unref_other b rg rg n m p hz fun he => hn (Prod.mk.inj he).2.symm, hk]
      obtain ⟨j, hj, hc⟩ := ih (b.unref rg n p) k hsame hlen hlt
      exact ⟨j, hj, by rw [hc, List.countP_cons_of_neg (by simpa using hn)]⟩

/-! The reclaimer (12 R302). -/

/-- The names and contents that the Beryl services keep without a block. -/
def Beryl.without (b : Beryl) (rg : BitVec 4) (n : BitVec 128) : Beryl :=
  { b with blocks := b.blocks.filter (fun j => !(j.region == rg && j.name == n)), leafCache := b.leafCache.filter (fun c => !keyNames c rg n) }

theorem Beryl.without_find (b : Beryl) (rg : BitVec 4) (n : BitVec 128) : (b.without rg n).find rg n = none := by
  simp only [Beryl.find, Beryl.without, List.find?_eq_none, List.mem_filter]
  rintro x ⟨-, hx⟩ hfound
  rw [hfound] at hx
  cases hx

theorem Beryl.without_find_other (b : Beryl) (rg : BitVec 4) {n m : BitVec 128} (h : m ≠ n) : (b.without rg n).find rg m = b.find rg m := by
  simp only [Beryl.find, Beryl.without, List.find?_filter]
  congr 1
  funext j
  by_cases hj : j.name = m
  · have hne : (m == n) = false := by simpa using h
    simp only [hj, hne, Bool.and_false, Bool.not_false, true_and, beq_self_eq_true, Bool.and_true, Bool.decide_eq_true]
  · have hne : (j.name == m) = false := by simpa using hj
    simp [hne]

/-- The children that a node names. -/
def State.kids (s : State) (k : Block) : List (BitVec 128) := if k.node then (List.range 128).map (s.childName (s.blockPa k)) else []

/-- What the reclaimer leaves of the Beryl services' state, once it has taken an entry of its queue. -/
def State.reclaimed (s : State) (e : BitVec 4 × BitVec 128) (k : Block) : Beryl :=
  let b : Beryl := { s.beryl with queue := s.beryl.queue.filter (fun f => f != e) }
  if k.counts.all (· == 0) then (b.without e.1 e.2).unrefAll e.1 k.part (s.kids k)
  else b.modBlock e.1 e.2 (fun k => { k with queued := false })

theorem blockReclaim_exec {s : State} {q : Nat} {e : BitVec 4 × BitVec 128} {k : Block}
    (hq : s.beryl.queue.find? (fun e => ownerOf e.2 == q) = some e) (hk : s.beryl.find e.1 e.2 = some k) :
    exec (.blockReclaim q) s = .next { s with beryl := s.reclaimed e k } := by
  have hname : k.region = e.1 ∧ k.name = e.2 := by simpa using List.find?_some hk
  have hk' : ({ s.beryl with queue := s.beryl.queue.filter (fun f => f != e) } : Beryl).find e.1 e.2 = some k := hk
  obtain ⟨h1, h2⟩ := hname
  change execBlockReclaim q s = _
  simp only [execBlockReclaim, hq, hk', State.reclaim, h1, h2, State.reclaimed]
  split <;> rfl

theorem childName_uses (s : State) (pa : Nat) (j : BitVec 128) :
    ((List.range 128).map (s.childName pa)).countP (· == j) = (List.range 128).countP (fun c => s.childName pa c == j) :=
  List.countP_map

theorem reclaimed {s : State} (hs : s.Inv) {e : BitVec 4 × BitVec 128} {k : Block} (b : Beryl)
    (hb : b = (({ s.beryl with queue := s.beryl.queue.filter (fun f => f != e) } : Beryl).without e.1 e.2).unrefAll e.1 k.part (s.kids k)) :
    e ∉ b.queue ∧ b.find e.1 e.2 = none ∧ (∀ c ∈ b.leafCache, keyNames c e.1 e.2 = false)
      ∧ (k.node = false → b.blocks = s.beryl.blocks.filter (fun j => !(j.region == e.1 && j.name == e.2)))
      ∧ ∀ j p, k.node = true → s.beryl.find e.1 j = some p → j ≠ e.2 → j ≠ 0 → p.count k.part < 2 ^ 28 - 1 →
        ∃ p', b.find e.1 j = some p' ∧ p'.count k.part = p.count k.part
          - (List.range 128).countP (fun c => s.childName (s.blockPa k) c == j) := by
  have hnone := ({ s.beryl with queue := s.beryl.queue.filter (fun f => f != e) } : Beryl).without_find e.1 e.2
  obtain ⟨h1, h2, h3⟩ := Beryl.unrefAll_keeps e.1 k.part (s.kids k) _ e.1 e.2 hnone
  rw [← hb] at h1 h2 h3
  refine ⟨fun he => ?_, h1, fun c hc => ?_, fun hleaf => ?_, fun j p hnode hj hne hz hlt => ?_⟩
  · have := h3 he
    simp [Beryl.without] at this
  · rw [h2] at hc
    simpa using (List.mem_filter.1 hc).2
  · rw [hb, State.kids, hleaf]
    rfl
  · have hfind : (({ s.beryl with queue := s.beryl.queue.filter (fun f => f != e) } : Beryl).without e.1 e.2).find e.1 j = some p :=
      (Beryl.without_find_other _ e.1 hne).trans hj
    have hkids : s.kids k = (List.range 128).map (s.childName (s.blockPa k)) := by rw [State.kids, hnode]; rfl
    obtain ⟨p', hp', hc⟩ := Beryl.unrefAll_find e.1 k.part (s.kids k) _ j p hz hfind (hs.counts_of_find hj) hlt
    refine ⟨p', hb ▸ hp', ?_⟩
    rw [hc, hkids, childName_uses]

/-! The pin table (12 R315, R317). -/

theorem Beryl.unref_withPins (b : Beryl) (ps : List Pin) (rg : BitVec 4) (n : BitVec 128) (p : BitVec 3) :
    ({ b with pins := ps } : Beryl).unref rg n p = { b.unref rg n p with pins := ps } := by
  have henq (c : Beryl) : ({ c with pins := ps } : Beryl).enqueue rg n = { c.enqueue rg n with pins := ps } := by
    have hfind : ({ c with pins := ps } : Beryl).find rg n = c.find rg n := rfl
    unfold Beryl.enqueue
    rw [hfind]
    cases c.find rg n with
    | none => rfl
    | some k =>
      dsimp only
      split <;> rfl
  unfold Beryl.unref
  split
  · rfl
  · exact henq (b.modBlock rg n (·.released p))

/-- The pin table with one holder of an entry fewer. -/
def Beryl.letGo (b : Beryl) (n : Nat) : Beryl :=
  { b with pins := b.pins.map (fun k => if k.entry == n then { k with holders := k.holders - 1 } else k) }

/-- Settles O53. -/
theorem berylEvents : Obligations.BerylEvents := by
  intro s hs
  refine ⟨fun q hq => ?_, fun q e k hq hk => ⟨_, blockReclaim_exec hq hk, ?_⟩, fun n hn => ?_, fun n p hn hp => ?_⟩
  · change execBlockReclaim q s = _
    simp only [execBlockReclaim, hq]
  · have hlen := hs.counts_of_find hk
    unfold State.reclaimed
    by_cases hz : k.counts.all (· == 0) = true
    · have hall : ∀ c ∈ k.counts, c = 0 := by simpa using hz
      rw [if_pos hz]
      obtain ⟨h1, h2, h3, h4, h5⟩ := reclaimed hs (e := e) (k := k) _ rfl
      exact ⟨h1, rfl, fun _ => ⟨h2, h3, h4, h5⟩, fun ⟨c, hc, hne⟩ => absurd (hall c hc) hne⟩
    · rw [if_neg hz]
      refine ⟨?_, rfl, fun hall => absurd (by simpa using hall) hz, fun _ => ⟨?_, ?_⟩⟩
      · change e ∉ s.beryl.queue.filter (fun f => f != e)
        simp
      · simp only [Beryl.modBlock, List.map_map]
        refine List.map_congr_left fun j _ => ?_
        simp only [Function.comp_apply]
        split <;> rfl
      · have := ({ s.beryl with queue := s.beryl.queue.filter (fun f => f != e) } : Beryl).find_modBlock e.1 e.1 e.2 e.2
          (fun k => { k with queued := false }) fun _ => ⟨rfl, rfl⟩
        rw [if_pos ⟨rfl, rfl⟩] at this
        refine ⟨{ k with queued := false }, this.trans ?_, rfl⟩
        rw [show ({ s.beryl with queue := s.beryl.queue.filter (fun f => f != e) } : Beryl).find e.1 e.2 = some k from hk]
        rfl
  · change execPinEntryRelease n s = _
    simp [execPinEntryRelease, hn]
  · have hc : s.core.oldPins.contains n = true := by simpa using hn
    by_cases hh : 1 < p.holders
    · refine ⟨{ s with core.oldPins := s.core.oldPins.erase n, beryl := s.beryl.letGo n }, ?_, rfl, rfl, fun _ => ?_, fun h => absurd hh (Nat.not_lt.2 h)⟩
      · change execPinEntryRelease n s = _
        simp only [execPinEntryRelease, hc, hp, hh, Bool.not_true, Bool.false_eq_true, if_true, if_false]
        rfl
      · simp only [Beryl.letGo, beq_iff_eq]
    · refine ⟨{ s with core.oldPins := s.core.oldPins.erase n,
                       beryl := { s.beryl.unref p.region p.root p.part with pins := s.beryl.pins.filter (fun k => k.entry != n) } },
        ?_, rfl, rfl, fun h => absurd h hh, fun _ => ⟨fun k hk => by simpa using (List.mem_filter.1 hk).2, rfl⟩⟩
      change execPinEntryRelease n s = _
      simp only [execPinEntryRelease, hc, hp, hh, Bool.not_true, Bool.false_eq_true, if_false, Beryl.unref_withPins]

end Sys2Proof.Machine
end

section
/-! Bytes read at the home through translations, and Beryl allocation (12 R298, R299, R301, R309). -/

namespace Sys2Proof.Machine

/-! Physical runs. -/

theorem XMap.runs_zero (m : XMap) (va : Nat) : m.runs va 0 = [] := rfl

theorem XMap.runs_cons (m : XMap) (va : Nat) {n : Nat} (h : 0 < n) :
    m.runs va n = ⟨m.pa va, min n (nextBlock va - va)⟩ :: m.runs (nextBlock va) (n - (nextBlock va - va)) := by
  have hlt := lt_nextBlock va
  rw [XMap.runs, blocksOf_pos va h, List.map_cons, XMap.runs]
  congr 1
  · change (⟨_, min (va + n) (nextBlock va) - va⟩ : Run) = _
    congr 1
    omega
  · by_cases hn : nextBlock va - va ≤ n
    · rw [show nextBlock va + (n - (nextBlock va - va)) = va + n by omega]
    · rw [show n - (nextBlock va - va) = 0 by omega]
      rfl

theorem runs_induction {P : Nat → Nat → Prop} (hzero : ∀ va, P va 0)
    (hcons : ∀ va n, 0 < n → P (nextBlock va) (n - (nextBlock va - va)) → P va n) (va n : Nat) : P va n := by
  induction n using Nat.strong_induction_on generalizing va with
  | _ n ih =>
    have hlt := lt_nextBlock va
    by_cases h : n = 0
    · subst h; exact hzero va
    · exact hcons va n (by omega) (ih _ (by omega) _)

section
variable {m : XMap} {va n : Nat}

theorem XMap.pa_run (hk : m.knows va) {k : Nat} (h : k < nextBlock va - va) : m.pa (va + k) = m.pa va + k :=
  XMap.pa_add hk (by unfold nextBlock at h; omega)

/-- The bytes of the runs, one after another, are those of the virtual addresses. -/
theorem XMap.runs_bytes {α : Type} (f : Nat → α) (hk : ∀ k, k < n → m.knows (va + k)) :
    ((m.runs va n).map (fun r => (List.range r.len).map (fun i => f (r.pa + i)))).flatten = (List.range n).map (fun k => f (m.pa (va + k))) := by
  revert hk
  refine runs_induction (P := fun va n => (∀ k, k < n → m.knows (va + k)) →
    ((m.runs va n).map (fun r => (List.range r.len).map (fun i => f (r.pa + i)))).flatten = (List.range n).map (fun k => f (m.pa (va + k))))
    (fun va _ => rfl) (fun va n hn ih hk => ?_) va n
  have hlt := lt_nextBlock va
  have hfirst : (List.range (min n (nextBlock va - va))).map (fun i => f (m.pa va + i))
      = (List.range (min n (nextBlock va - va))).map (fun k => f (m.pa (va + k))) :=
    List.map_congr_left fun k h => by
      have := List.mem_range.1 h
      rw [XMap.pa_run (show m.knows va from hk 0 hn) (by omega)]
  have hrest := ih fun k hk' => by
    have := hk (nextBlock va - va + k) (by omega)
    rwa [show va + (nextBlock va - va + k) = nextBlock va + k by omega] at this
  rw [m.runs_cons va hn, List.map_cons, List.flatten_cons, hrest, hfirst]
  by_cases hle : n ≤ nextBlock va - va
  · rw [Nat.min_eq_left hle, show n - (nextBlock va - va) = 0 by omega]
    simp
  · obtain ⟨c, hc⟩ : ∃ c, n = nextBlock va - va + c := ⟨n - (nextBlock va - va), by omega⟩
    rw [Nat.min_eq_right (by omega), hc, List.range_add, List.map_append, List.map_map, show nextBlock va - va + c - (nextBlock va - va) = c by omega]
    congr 1
    refine List.map_congr_left fun k _ => ?_
    simp only [Function.comp_apply]
    rw [show va + (nextBlock va - va + k) = nextBlock va + k by omega]

/-- Every byte of the virtual range lies in one of the runs. -/
theorem XMap.exists_run (hk : ∀ k, k < n → m.knows (va + k)) {k : Nat} (h : k < n) :
    ∃ r ∈ m.runs va n, r.pa ≤ m.pa (va + k) ∧ m.pa (va + k) < r.pa + r.len := by
  revert h
  revert k
  revert hk
  refine runs_induction (P := fun va n => (∀ k, k < n → m.knows (va + k)) → ∀ {k : Nat}, k < n →
    ∃ r ∈ m.runs va n, r.pa ≤ m.pa (va + k) ∧ m.pa (va + k) < r.pa + r.len) (fun va _ k h => absurd h (Nat.not_lt_zero k))
    (fun va n hn ih hk k h => ?_) va n
  have hlt := lt_nextBlock va
  rw [m.runs_cons va hn]
  by_cases hin : k < nextBlock va - va
  · refine ⟨_, List.mem_cons_self, ?_⟩
    rw [XMap.pa_run (show m.knows va from hk 0 hn) hin]
    dsimp only
    omega
  · obtain ⟨r, hr, hb⟩ := ih (fun j hj => by
        have := hk (nextBlock va - va + j) (by omega)
        rwa [show va + (nextBlock va - va + j) = nextBlock va + j by omega] at this) (k := k - (nextBlock va - va)) (by omega)
    rw [show nextBlock va + (k - (nextBlock va - va)) = va + k by omega] at hb
    exact ⟨r, List.mem_cons_of_mem _ hr, hb⟩

end

/-- The lines of a virtual range. -/
def XMap.linesOf (m : XMap) (va n : Nat) : List Nat := ((m.runs va n).map (fun r => Machine.linesOf r.pa r.len)).flatten

/-- Once the lines of a range are written back, its bytes read at the home as their newest values. -/
theorem homeRead_newest {s : State} (hs : s.core.l1.Ok) {m : XMap} {va n : Nat} (hk : ∀ k, k < n → m.knows (va + k)) :
    ((m.runs va n).map (fun r => ((m.linesOf va n).foldl State.writeBackLine s).homeRead r.pa r.len)).flatten
      = (List.range n).map (fun k => s.newest (m.pa (va + k))) := by
  obtain ⟨-, hnew, -, -, -, -, hdirty⟩ := writeBackLines (m.linesOf va n) s hs.distinct
  refine (XMap.runs_bytes (fun q => ((m.linesOf va n).foldl State.writeBackLine s).mem.read q) hk).trans ?_
  refine List.map_congr_left fun k h => ?_
  obtain ⟨r, hr, hlo, hhi⟩ := XMap.exists_run hk (List.mem_range.1 h)
  have hline : lineOf (m.pa (va + k)) ∈ m.linesOf va n :=
    List.mem_flatten.2 ⟨_, List.mem_map.2 ⟨r, hr, rfl⟩, lineOf_mem_linesOf ⟨hlo, hhi⟩⟩
  rw [← hnew, State.newest, hdirty, cellAt_filter _ (fun a => !(m.linesOf va n).contains (lineOf a))]
  simp [hline]

/-! Names in register pairs (12 R298). -/

theorem name_halves (n : BitVec 128) : ((n >>> 64).setWidth 64 : BitVec 64) ++ (n.setWidth 64 : BitVec 64) = n := by
  ext i hi
  simp only [BitVec.getElem_append, BitVec.getElem_setWidth, BitVec.getLsbD_ushiftRight]
  split
  · rw [BitVec.getLsbD_eq_getElem]
  · rw [show 64 + (i - 64) = i by omega, BitVec.getLsbD_eq_getElem]

/-- A register pair that may be written. -/
theorem pairReg_spec {d : BitVec 5} (h : pairReg d = true) : d ≠ 0 ∧ d + 1 ≠ 0 := by
  revert d
  decide

theorem setName_x (s : State) {d : BitVec 5} (h : pairReg d = true) (n : BitVec 128) :
    (s.setName d n).x (d + 1) ++ (s.setName d n).x d = n ∧ ∀ r, r ≠ d → r ≠ d + 1 → (s.setName d n).x r = s.x r := by
  obtain ⟨h0, h1⟩ := pairReg_spec h
  have hne : d ≠ d + 1 := by bv_omega
  have hx (r : BitVec 5) : (s.setName d n).x r = if r = 0 then (0 : Word64) else if r = d + 1 then (n >>> 64).setWidth 64
      else if r = 0 then 0 else if r = d then n.setWidth 64 else s.x r := by
    rw [State.setName, State.setPair, State.setX_x, State.setX_x]
  refine ⟨?_, fun r hr hr' => ?_⟩
  · rw [hx, hx, if_neg h1, if_pos rfl, if_neg h0, if_neg hne, if_neg h0, if_pos rfl]
    exact name_halves n
  · rw [hx]
    by_cases hz : r = 0
    · subst hz; rfl
    · rw [if_neg hz, if_neg hr', if_neg hz, if_neg hr]

theorem setName_blankX (s : State) (d : BitVec 5) (n : BitVec 128) : (s.setName d n).blankX = s.blankX := by
  rw [State.setName, State.setPair, State.setX_blankX, State.setX_blankX]

/-! bloa (12 R309). -/

/-- The source of a bloa is home, as the home holds it. -/
def State.sourceHome (s : State) (m : XMap) (src : Nat) : State := (m.linesOf src blockSize).foldl State.writeBackLine s

/-- The contents of the source. -/
def State.sourceBytes (s : State) (m : XMap) (src : Nat) : List Byte := (List.range blockSize).map (fun k => s.newest (m.pa (src + k)))

/-- What a bloa answers once its source is read. -/
def State.allocates (s : State) (d : BitVec 5) (node : BitVec 1) (rg : BitVec 4) (m : XMap) (c : List Byte) : Run? State :=
  match if node == 1 then s.beryl.deadChild rg (childrenOf c) else none with
  | some i => .error (.trap .berylName (BitVec.ofNat 64 (16 * i)) 0)
  | none => do
    let r ← s.lookupBlock rg (node == 1) c
    .ok ((r.2.touchAll .read m).setName d r.1).advance

theorem exec_bloa {s : State} {d a : BitVec 5} {node : BitVec 1} {rg : BitVec 4} {m : XMap} (hinv : s.Inv) (hs : Settled s)
    (hr : (s.region rg).usable s.part = true) (hend : addrOf (s.x a) + blockSize ≤ 2 ^ 56)
    (hacc : s.access .read true [(addrOf (s.x a), blockSize)] true = .ok m)
    (hgood : ∀ k, k < blockSize → (s.sourceHome m (addrOf (s.x a))).badGranule (granuleOf (m.pa (addrOf (s.x a) + k))) = false) :
    exec (.bloa d a node rg) s
      = s.finish ((s.sourceHome m (addrOf (s.x a))).allocates d node rg m (s.sourceBytes m (addrOf (s.x a)))) := by
  have hknows (k : Nat) (hk : k < blockSize) : m.knows (addrOf (s.x a) + k) :=
    access_knows hacc (List.mem_singleton.2 rfl) (by omega) (by simpa using hk)
  have hfind : (List.range blockSize).find? (fun i => (s.sourceHome m (addrOf (s.x a))).badGranule (granuleOf (m.pa (addrOf (s.x a) + i)))) = none := by
    rw [List.find?_eq_none]
    exact fun k hk => by simp [hgood k (List.mem_range.1 hk)]
  have hbytes := homeRead_newest hinv.l1 hknows
  unfold State.sourceHome XMap.linesOf at hfind
  unfold XMap.linesOf at hbytes
  change execBloa d a node rg s = _
  simp only [execBloa, hs.settleAll, needRegion_ok hr, needAddr_ok hend, hacc, run_ok_bind, hfind, hbytes]
  rfl

theorem sourceHome_quiet (s : State) (m : XMap) (src : Nat) : Quiet s (s.sourceHome m src) := writeBackLines_quiet _ s

theorem MemOnly.beryl {s t : State} (h : MemOnly s t) : t.beryl = s.beryl := congrArg (·.beryl) h.rest

/-- A block in use already. -/
theorem lookupBlock_same {s : State} {rg : BitVec 4} {node : Bool} {c : List Byte} {k : Block}
    (h : s.sameBlock rg (blockHash (s.region rg).salt node c) node c = some k) :
    s.lookupBlock rg node c = .ok (k.name, { s with beryl := s.beryl.ref rg k.name s.part }) := by
  simp only [State.lookupBlock, h]

theorem lookupBlock_collision {s : State} {rg : BitVec 4} {node : Bool} {c : List Byte}
    (h : s.sameBlock rg (blockHash (s.region rg).salt node c) node c = none)
    (ho : s.beryl.freeOrdinal rg (blockHash (s.region rg).salt node c) = none) :
    s.lookupBlock rg node c = .error (.trap .nameCollision ((blockHash (s.region rg).salt node c).setWidth 64) 0) := by
  simp only [State.lookupBlock, h, ho]

theorem lookupBlock_full {s : State} {rg : BitVec 4} {node : Bool} {c : List Byte} {o : Nat}
    (h : s.sameBlock rg (blockHash (s.region rg).salt node c) node c = none)
    (ho : s.beryl.freeOrdinal rg (blockHash (s.region rg).salt node c) = some o) (hi : s.beryl.freeBlock rg (s.region rg).nblk = none) :
    s.lookupBlock rg node c = .error (.trap .berylFull (rg.setWidth 64) 0) := by
  simp only [State.lookupBlock, h, ho, hi]

/-- The state after a new block of a pool is made. -/
def State.newBlock (s : State) (rg : BitVec 4) (node : Bool) (c : List Byte) (o i : Nat) : State :=
  { s.homeStore .h ((s.region rg).pool + blockSize * i) c with
    beryl := (if node then childrenOf c else []).foldl (fun b n => b.ref rg n s.part) { s.beryl with
      blocks := s.beryl.blocks ++ [⟨rg, i, nameOf (blockHash (s.region rg).salt node c) o, node, (List.replicate 8 0).set s.part.toNat 1, s.part, false⟩] } }

theorem lookupBlock_new {s : State} {rg : BitVec 4} {node : Bool} {c : List Byte} {o i : Nat}
    (h : s.sameBlock rg (blockHash (s.region rg).salt node c) node c = none)
    (ho : s.beryl.freeOrdinal rg (blockHash (s.region rg).salt node c) = some o) (hi : s.beryl.freeBlock rg (s.region rg).nblk = some i) :
    s.lookupBlock rg node c = .ok (nameOf (blockHash (s.region rg).salt node c) o, s.newBlock rg node c o i) := by
  have hb : (s.homeStore .h ((s.region rg).pool + blockSize * i) c).beryl = s.beryl := (homeStore_memOnly' ..).beryl
  simp only [State.lookupBlock, h, ho, hi, hb, State.newBlock]

/-- What a bloa leaves: the name in its pair, and what its block and its translations leave behind. -/
theorem allocated_leaves {s w : State} (hw : MemOnly s w) (hl1 : w.core.l1.Ok) (b : Beryl) {d : BitVec 5} (hd : pairReg d = true)
    (n : BitVec 128) (m : XMap) :
    let u := ((({ w with beryl := b } : State).touchAll .read m).setName d n)
    u.x (d + 1) ++ u.x d = n ∧ u.beryl = b ∧ (∀ x, x ≠ d → x ≠ d + 1 → u.x x = s.x x)
      ∧ ({ u with beryl := s.beryl } : State).blankX.blankMem = s.blankX.blankMem ∧ ∀ q, m.spares q → u.newest q = w.newest q := by
  obtain ⟨t, ht⟩ : ∃ t, t = (({ w with beryl := b } : State).touchAll .read m) := ⟨_, rfl⟩
  have htw : Writes (fun q => ¬m.spares q) { w with beryl := b } t := ht ▸ touchAll_writes _ .read m
  have hblank := setName_blankX t d n
  obtain ⟨hname, hother⟩ := setName_x t hd n
  intro u
  have hu : u = t.setName d n := by rw [ht]
  rw [hu]
  refine ⟨hname, ?_, fun x h1 h2 => ?_, ?_, fun q hq => ?_⟩
  · have : (t.setName d n).beryl = t.beryl := congrArg (·.beryl) hblank
    exact this.trans htw.rest.beryl
  · have hx : ({ w with beryl := b } : State).x x = s.x x := by
      have : w.x x = s.x x := by rw [State.x, State.x, hw.unit]
      exact this
    rw [hother x h1 h2, ← hx, State.x, State.x, htw.rest.unit]
  · have h1 := congrArg (fun c : State => ({ c with beryl := s.beryl } : State).blankMem) hblank
    have h2 := congrArg (fun c : State => ({ c with beryl := s.beryl } : State).blankX) htw.rest.rest
    have h3 := congrArg (fun c : State => ({ c with beryl := s.beryl } : State).blankX) hw.rest
    exact Eq.trans h1 (Eq.trans h2 h3)
  · have h1 := congrArg (fun c : State => c.newest q) hblank
    exact Eq.trans h1 (htw.bytes hl1 q (not_not.2 hq))

/-- Settles O41. -/
theorem berylAllocation : Obligations.BerylAllocation := by
  intro s d a node rg m hs hset i src r t c D hwf hr hend hacc hgood
  have hd : pairReg d = true := hwf
  have hq := sourceHome_quiet s m src
  have hexec : exec i s = s.finish (t.allocates d node rg m c) := exec_bloa hs hset hr hend hacc hgood
  have hber : t.beryl = s.beryl := hq.rest.beryl
  have hpart : t.part = s.part := by
    have := congrArg (fun c : State => c.part) hq.rest.rest
    exact this
  have hreg : t.region rg = s.region rg := by rw [State.region, State.region, hber]
  have hhash : blockHash (t.region rg).salt (node == 1) c = D := by rw [hreg]
  refine ⟨fun k hn hk => ⟨0, ?_⟩, fun hdead => ?_⟩
  · rw [hexec, State.allocates, hber, hn]
    simp only [beq_self_eq_true, if_true, hk]
    rfl
  have hlive : (if node == 1 then t.beryl.deadChild rg (childrenOf c) else none) = none := by
    rw [hber]
    split
    · next h => exact hdead (by simpa using h)
    · rfl
  have hgo : t.allocates d node rg m c = (do
      let r ← t.lookupBlock rg (node == 1) c
      .ok ((r.2.touchAll .read m).setName d r.1).advance) := by
    rw [State.allocates, hlive]
  refine ⟨fun k hk => ?_, fun hnone => ⟨fun ho => ⟨0, ?_⟩, fun o ho hi => ⟨0, ?_⟩, fun o k ho hk => ?_⟩⟩
  · have hlook := lookupBlock_same (s := t) (rg := rg) (node := node == 1) (c := c) (by rw [hhash]; exact hk)
    obtain ⟨hname, hb, hx, hrest, hnew⟩ := allocated_leaves hq.rest (hq.form hs.l1) (t.beryl.ref rg k.name t.part) hd k.name m
    refine ⟨_, ?_, hname, ?_, hb.trans (by rw [hber, hpart]), hx, hrest, fun q hspare => (hnew q hspare).trans (hq.bytes hs.l1 q id)⟩
    · rw [Completes, hexec, hgo, hlook]
      rfl
    · have := List.find?_some hk
      simp only [Bool.and_eq_true, beq_iff_eq] at this
      exact this.1.1.2
  · rw [hexec, hgo, lookupBlock_collision (by rw [hhash]; exact hnone) (by rw [hhash, hber]; exact ho), hhash]
    rfl
  · rw [hexec, hgo, lookupBlock_full (o := o) (by rw [hhash]; exact hnone) (by rw [hhash, hber]; exact ho) (by rw [hber, hreg]; exact hi)]
    rfl
  · have hlook := lookupBlock_new (s := t) (rg := rg) (node := node == 1) (c := c) (o := o) (i := k) (by rw [hhash]; exact hnone)
      (by rw [hhash, hber]; exact ho) (by rw [hber, hreg]; exact hk)
    have hform := hq.form hs.l1
    obtain ⟨hname, hb, hx, hrest, hnew⟩ := allocated_leaves (hq.rest.trans (homeStore_memOnly' t .h ((t.region rg).pool + blockSize * k) c))
      (homeStore_ok t .h _ c hform) (t.newBlock rg (node == 1) c o k).beryl hd (nameOf D o) m
    refine ⟨_, ?_, hname, hb.trans ?_, hx, hrest, fun q hspare => (hnew q hspare).trans ?_⟩
    · rw [Completes, hexec, hgo, hlook, hhash]
      rfl
    · simp only [State.newBlock, hhash, hber, hpart, beq_iff_eq]
      rfl
    · have hlen : c.length = blockSize := by simp [c, blockSize]
      rw [homeStore_newest t .h _ q c hform.distinct, hlen, show t.newest q = s.newest q from hq.bytes hs.l1 q id, hreg, Nat.sub_sub]
      rfl

end Sys2Proof.Machine
end

section
/-! A counterexample to O43: a service core's bout over its own tree (12 R313; 16 R408). -/

namespace Sys2Proof.Machine

/-- One piece of a leaf, written to a single run, as a service core writes it: at the home (16 R408). -/
theorem writeLeaf_service {s : State} {p : BitVec 3} (hsvc : s.core.service = some p) {e : SbEntry} {pa n off : Nat} (hruns : e.runs = [⟨pa, n⟩])
    (hin : off + blockSize ≤ n) (rg : BitVec 4) (root : BitVec 128) (depth j : Nat) :
    ∃ gs, s.writeLeaf e rg root depth j off
      = (s.homeWrite .h (pa + off) ((s.leafBytes (s.leafFrom rg depth root j)).take blockSize)).markL1 gs := by
  have hlt : off < off + blockSize := by unfold blockSize; omega
  unfold State.writeLeaf
  simp only [hruns, List.foldl_cons, List.foldl_nil, Nat.zero_add, Nat.zero_max, Nat.min_eq_right hin, hlt, if_true, List.nil_append, Nat.sub_zero,
    Nat.sub_self, List.drop_zero, Nat.add_sub_cancel_left, State.performWrite, hsvc, Option.isSome_some]
  exact ⟨_, rfl⟩

/-- A service core with one live leaf, at address 0, outside every region in force: its first byte is 1 and its other bytes are 0. -/
def loneLeaf : State :=
  { State.reset with
    mem := [(0, 1)]
    core.service := some 0
    beryl.blocks := [⟨1, 0, 4, false, List.replicate 8 0, 0, false⟩] }

/-- A bout of two leaves of that tree, to addresses from 1 on. -/
def overlappingBout : SbEntry :=
  { kind := .bout 1 4 0 0 2, va := 1, len := 2 * blockSize, writes := [], raw := [], runs := [⟨1, 2048 * 2⟩], cached := true, device := false,
    poison := [], part := 0, task := 0, launch := 0 }

theorem loneLeaf_inv : loneLeaf.Inv where
  memory := by decide
  localStore := resetHasInvariant.localStore
  flash := resetHasInvariant.flash
  l1 := resetHasInvariant.l1
  status := resetHasInvariant.status
  counts := by
    intro k hk
    rw [List.mem_singleton.1 hk]
    rfl

/-- The tree has one leaf, whatever its number, wherever only memory and the caches differ. -/
theorem loneLeaf_leaf {t : State} (h : t.beryl = loneLeaf.beryl) (j : Nat) : t.leafFrom 1 0 4 j = .at 4 0 := by
  rw [State.leafFrom, h]
  simp only [State.blockPa, State.region, h]
  rfl

/-- States of the counterexample's bout: nothing but memory and the caches differs, and the L1 holds nothing dirty. -/
structure Midway (s : State) : Prop where
  rest : MemOnly loneLeaf s
  clean : s.core.l1.dirty = []

/-- Each leaf copies, to its destination, what memory shows at the block when its turn comes. -/
theorem Midway.writeLeaf {s : State} (hs : Midway s) (j off : Nat) (hin : off + blockSize ≤ 2048 * 2) :
    Midway (s.writeLeaf overlappingBout 1 4 0 j off)
      ∧ ∀ i, i < blockSize → (s.writeLeaf overlappingBout 1 4 0 j off).mem.read (1 + off + i) = s.mem.read i := by
  obtain ⟨gs, heq⟩ := writeLeaf_service (s := s) (e := overlappingBout) hs.rest.service rfl hin 1 4 0 j
  have hlen : (s.leafBytes (.at 4 0)).length = blockSize := by simp [State.leafBytes]
  rw [loneLeaf_leaf hs.rest.beryl, List.take_of_length_le (Nat.le_of_eq hlen)] at heq
  have hclean : (s.homeWrite .h (1 + off) (s.leafBytes (.at 4 0))).core.l1.dirty = [] := by
    have := homeWrite_dirty s .h (1 + off) (s.leafBytes (.at 4 0))
    rw [hs.clean] at this
    exact List.sublist_nil.1 this
  rw [heq]
  refine ⟨⟨hs.rest.trans ((homeWrite_memOnly ..).trans (markL1_memOnly _ _)), hclean⟩, fun i hi => ?_⟩
  have hnew := (homeWrite_spec s .h (1 + off) (s.leafBytes (.at 4 0)) (by rw [hs.clean]; exact Distinct.nil)).2.2.2 (1 + off + i)
  have hpool : s.inPool (1 + off + i) 1 = false := (hs.rest.inPool _ _).trans rfl
  rw [State.newest, hclean, hlen, if_pos ⟨by omega, by omega, hpool⟩, Nat.add_sub_cancel_left, State.leafBytes,
    Mem.readBytes_getD _ _ _ _ hi, Nat.zero_add] at hnew
  exact hnew

theorem performEntry_bout (s : State) {e : SbEntry} {rg : BitVec 4} {root : BitVec 128} {depth first count : Nat}
    (h : e.kind = .bout rg root depth first count) : ∃ b k, s.performEntry e
      = { (List.range count).foldl (fun s i => s.writeLeaf e rg root depth (first + i) (blockSize * i)) s with beryl := b, tick := k } := by
  unfold State.performEntry
  rw [h]
  exact ⟨_, _, rfl⟩

/-- The second leaf carries the first one's first byte to its second byte. -/
theorem overlappingBout_performed : ∃ t, exec .storePerformed { loneLeaf with core.sb := [overlappingBout] } = .next t ∧ t.newest 2050 = 1 := by
  have h0 : Midway loneLeaf := ⟨MemOnly.refl _, rfl⟩
  obtain ⟨h1, hread⟩ := h0.writeLeaf 0 0 (by decide)
  obtain ⟨h2, hread'⟩ := h1.writeLeaf 1 blockSize (by decide)
  have hacc : ({ loneLeaf with core.sb := [overlappingBout] } : State).entryAccepted overlappingBout = true := rfl
  have hexec := exec_storePerformed { loneLeaf with core.sb := [overlappingBout] } overlappingBout [] rfl (fun _ _ _ _ _ h => nomatch h)
    (fun _ h => nomatch h)
  rw [drainOne_of_accepted (e := overlappingBout) (rest := []) rfl (fun h => nomatch h) hacc] at hexec
  obtain ⟨b, k, hp⟩ := performEntry_bout loneLeaf (e := overlappingBout) rfl
  refine ⟨_, hexec.trans (congrArg Host.Outcome.next hp), ?_⟩
  have hkeep (s : State) (q : Nat) : ({ s with beryl := b, tick := k } : State).newest q = s.newest q := rfl
  rw [hkeep]
  have hnew (s : State) (h : s.core.l1.dirty = []) (q : Nat) : s.newest q = s.mem.read q := by rw [State.newest, h]; rfl
  have hlast : ((loneLeaf.writeLeaf overlappingBout 1 4 0 0 0).writeLeaf overlappingBout 1 4 0 1 blockSize).newest 2050 = 1 := by
    rw [hnew _ h2.clean, show 2050 = 1 + blockSize + 1 by decide, hread' 1 (by decide)]
    exact (hread 0 (by decide)).trans rfl
  have hfold : (List.range 2).foldl (fun s i => s.writeLeaf overlappingBout 1 4 0 (0 + i) (blockSize * i)) loneLeaf
      = (loneLeaf.writeLeaf overlappingBout 1 4 0 0 0).writeLeaf overlappingBout 1 4 0 1 blockSize := by
    simp only [show List.range 2 = [0, 1] from rfl, List.foldl_cons, List.foldl_nil, Nat.zero_add, Nat.mul_zero, Nat.mul_one]
  rw [← hfold] at hlast
  exact hlast

/-- Refutes O43: nothing in the statement keeps a service core's bout from writing over the block that it copies. A service core writes at the
home, so that with a block at address 0 (of a region that is not in force, which 12 R296 does not protect) and a destination from address 1 on
the second leaf is read after the first one has changed it. -/
theorem not_treesAndPins : ¬ Obligations.TreesAndPins := by
  intro h
  obtain ⟨-, hbout, -⟩ := h loneLeaf [] loneLeaf_inv ⟨rfl, rfl⟩
  obtain ⟨t, ht, -, -, hbytes, -⟩ := hbout overlappingBout [] 1 4 0 0 2 1 rfl rfl rfl (by decide)
  obtain ⟨u, hu, h1⟩ := overlappingBout_performed
  have htu : t = u := by
    have := ht.symm.trans hu
    cases this
    rfl
  have hclaim : t.newest 2050 = 0 := by
    have := hbytes 2049 (by decide)
    rw [if_neg (by decide), loneLeaf_leaf rfl, State.leafBytes, Mem.readBytes_getD _ _ _ _ (by decide)] at this
    exact this
  rw [htu, h1] at hclaim
  exact absurd hclaim (by decide)

end Sys2Proof.Machine
end

section
/-! Tile loads (05 R131 to R143). -/

namespace Sys2Proof.Machine

/-! Rows placed in a tile (05 R135). -/

section
variable {fmt : BitVec 5} {scl tr : Bool} {rext cext : Nat} {rows : List RowData} {key : Option StackKey}

/-- Element (i, j) of rows that were read. -/
def rowsElem (rows : List RowData) (i j : Nat) : Word32 := ((rows.map (·.elems)).getD i []).getD j 0

theorem rowsElem_eq (rows : List RowData) (i j : Nat) : ((rows[i]?).map (fun r => r.elems.getD j 0)).getD 0 = rowsElem rows i j := by
  simp only [rowsElem, List.getD_eq_getElem?_getD, List.getElem?_map]
  cases rows[i]? <;> simp

/-- Rows without uncorrectable bytes. -/
structure CleanRows (rows : List RowData) : Prop where
  whole : ∀ r ∈ rows, r.bad = false
  columns : ∀ r ∈ rows, r.badCols = []

/-- No row of the tile is poisoned. -/
def noBadRow (tr : Bool) (rows : List RowData) : Prop :=
  ∀ i, (if tr then rows.any (fun r => r.badCols.contains i) else ((rows[i]?).map (·.bad)).getD false) = false

theorem noBadRow_straight (h : ∀ r ∈ rows, r.bad = false) : noBadRow false rows := by
  intro i
  rw [if_neg (by decide)]
  cases hr : rows[i]? with
  | none => rfl
  | some r => exact h r (List.mem_of_getElem? hr)

theorem CleanRows.noBadRow (h : CleanRows rows) (tr : Bool) : noBadRow tr rows := by
  cases tr with
  | false => exact noBadRow_straight h.whole
  | true =>
    intro i
    rw [if_pos rfl, List.any_eq_false]
    exact fun r hr => by simp [h.columns r hr]

theorem placeRows_poison (h : noBadRow tr rows) : (placeRows fmt scl tr rext cext rows key).poison = 0 := by
  have : (List.range rext).filter (fun i => if tr then rows.any (fun r => r.badCols.contains i) else ((rows[i]?).map (·.bad)).getD false) = [] :=
    List.filter_eq_nil_iff.2 fun i _ => by rw [h i]; decide
  unfold placeRows
  dsimp only
  rw [this]
  rfl

theorem placeRows_elem (h : noBadRow tr rows) (i j : Nat) :
    (placeRows fmt scl tr rext cext rows key).elem i j
      = if i < rext ∧ j < cext then (if tr then rowsElem rows j i else rowsElem rows i j) else 0 := by
  have hb (i : Nat) : ((if tr then rows.any (fun r => r.badCols.contains i) else ((rows[i]?).map (·.bad)).getD false) = true) = False := by
    rw [h i]; simp
  unfold placeRows Tile.elem
  simp only [buildRows_elem, hb, if_false, rowsElem_eq]

theorem placeRows_scaleAt {i : Nat} (hi : i < rext) :
    (placeRows fmt scl tr rext cext rows key).scaleAt i = if scl then (rows.map (·.scale)).getD i 0 else 0 := by
  unfold placeRows Tile.scaleAt
  simp only [List.getD_eq_getElem?_getD, List.getElem?_map, List.getElem?_range hi, Option.map_some, Option.getD_some]

end

/-! Rows read (05 R132, R135). -/

section
variable {rd : Reader} {f : BitVec 5} {sp : RowSpan} {mc : Nat}

theorem wholeRow_clean (h : ∀ a, rd.bad a = none) (ra : Nat) : (rd.wholeRow f sp mc ra).bad = false ∧ (rd.wholeRow f sp mc ra).badCols = [] := by
  have hb : (List.range sp.elemLen).filter (fun i => (rd.bad (ra + sp.elemOff + i)).isSome) = [] :=
    List.filter_eq_nil_iff.2 fun i _ => by simp [h]
  unfold Reader.wholeRow
  simp only [hb]
  refine ⟨?_, by simp⟩
  cases sp.scaleOff with
  | none => rfl
  | some o => simp [h]

theorem row_clean (h : ∀ a, rd.bad a = none) (ra : Nat) : (rd.row f sp mc ra).bad = false ∧ (rd.row f sp mc ra).badCols = [] := by
  unfold Reader.row
  split
  · exact ⟨rfl, rfl⟩
  · exact wholeRow_clean h ra

theorem rows_clean (h : ∀ a, rd.bad a = none) (ras : List Nat) : CleanRows (ras.map (rd.row f sp mc)) := by
  constructor
  · intro r hr
    obtain ⟨ra, -, rfl⟩ := List.mem_map.1 hr
    exact (row_clean h ra).1
  · intro r hr
    obtain ⟨ra, -, rfl⟩ := List.mem_map.1 hr
    exact (row_clean h ra).2

theorem row_elems {ra j : Nat} (hj : j < mc) : (rd.row f sp mc ra).elems.getD j 0 = rowElem rd.byte f sp ra j := by
  have hmc : (mc == 0) = false := by simpa using Nat.ne_zero_of_lt hj
  simp only [Reader.row, hmc, Bool.false_eq_true, if_false, Reader.wholeRow, unpackRow, List.getD_eq_getElem?_getD, List.getElem?_map,
    List.getElem?_range hj, Option.map_some, Option.getD_some]
  rfl

theorem row_scale (ra : Nat) : (rd.row f sp mc ra).scale = if mc = 0 then 0 else rowScale rd.byte sp ra := by
  unfold Reader.row
  simp only [beq_iff_eq]
  split
  · rfl
  · rfl

theorem rowsElem_rows {ra : Nat → Nat} {mr i j : Nat} (hi : i < mr) (hj : j < mc) :
    rowsElem (((List.range mr).map ra).map (rd.row f sp mc)) i j = rowElem rd.byte f sp (ra i) j := by
  rw [← row_elems hj]
  simp only [rowsElem, List.getD_eq_getElem?_getD, List.getElem?_map, List.getElem?_range hi, Option.map_some, Option.getD_some]

theorem scale_rows {ra : Nat → Nat} {mr i : Nat} (hi : i < mr) :
    ((((List.range mr).map ra).map (rd.row f sp mc)).map (·.scale)).getD i 0 = if mc = 0 then 0 else rowScale rd.byte sp (ra i) := by
  rw [← row_scale (f := f)]
  simp only [List.getD_eq_getElem?_getD, List.getElem?_map, List.getElem?_range hi, Option.map_some, Option.getD_some]

end

/-! What a load leaves (05 R138). -/

theorem autoInc_x (s : State) (st : Option (BitVec 5 × Word64)) (r : BitVec 5) : (s.autoInc st).x r = steppedX s st r := by
  unfold State.autoInc steppedX
  cases st with
  | none => rfl
  | some qv =>
    have hzero : s.x 0 = 0 := rfl
    dsimp only
    rw [State.setX_x]
    by_cases hr : r = 0
    · subst hr
      rw [if_pos rfl, if_neg fun h => h.2 h.1.symm, hzero]
    · rw [if_neg hr]
      by_cases hd : r = qv.1
      · rw [if_pos hd, if_pos ⟨hd, hd ▸ hr⟩]
      · rw [if_neg hd, if_neg fun h => hd h.1]

theorem autoInc_blankX (s : State) (st : Option (BitVec 5 × Word64)) : (s.autoInc st).blankX = s.blankX := by
  unfold State.autoInc
  split
  · exact State.setX_blankX ..
  · rfl

theorem autoInc_t (s : State) (st : Option (BitVec 5 × Word64)) (r : BitVec 4) : (s.autoInc st).t r = s.t r := by
  have := congrArg (fun c : State => c.t r) (autoInc_blankX s st)
  exact this

/-- A tile with the placed elements and scales, in place of d. -/
structure Placed (t : Tile) (f : BitVec 5) (scl : Bool) (r c : Nat) (e : Nat → Nat → Word32) (sc : Nat → Byte) : Prop where
  format : t.fmt = f ∧ t.rext = r ∧ t.cext = c ∧ t.scl = scl ∧ t.mapped = true
  clean : t.poison = 0
  inside : ∀ i j, i < r → j < c → t.elem i j = e i j
  outside : ∀ i j, r ≤ i ∨ c ≤ j → t.elem i j = 0
  scales : ∀ i, i < r → t.scaleAt i = if scl then sc i else 0

theorem Placed.of_placeRows {f : BitVec 5} {scl tr : Bool} {r c : Nat} {rows : List RowData} {key : Option StackKey} {e : Nat → Nat → Word32}
    {sc : Nat → Byte} (h : noBadRow tr rows) (he : ∀ i j, i < r → j < c → (if tr then rowsElem rows j i else rowsElem rows i j) = e i j)
    (hsc : scl = true → ∀ i, i < r → (rows.map (·.scale)).getD i 0 = sc i) : Placed (placeRows f scl tr r c rows key) f scl r c e sc where
  format := ⟨rfl, rfl, rfl, rfl, rfl⟩
  clean := placeRows_poison h
  inside i j hi hj := by rw [placeRows_elem h, if_pos ⟨hi, hj⟩, he i j hi hj]
  outside i j hij := by rw [placeRows_elem h, if_neg (by omega)]
  scales i hi := by
    rw [placeRows_scaleAt hi]
    cases scl with
    | false => rfl
    | true => rw [if_pos rfl, if_pos rfl, hsc rfl i hi]

/-- A tile register written, after what reading changed. -/
theorem loadsTile {s w : State} (hw : MemOnly s w) {d : BitVec 4} {t : Tile} {f : BitVec 5} {scl : Bool} {r c : Nat} {e : Nat → Nat → Word32}
    {sc : Nat → Byte} (h : Placed t f scl r c e sc) (st : Option (BitVec 5 × Word64)) : LoadsTile s ((w.setT d t).autoInc st) d f scl r c e sc st := by
  have ht : ((w.setT d t).autoInc st).t d = t := by rw [autoInc_t, State.setT_t, if_pos rfl]
  have hblank := autoInc_blankX (w.setT d t) st
  have hx (x : BitVec 5) : w.x x = s.x x := by rw [State.x, State.x, hw.unit]
  refine ⟨by rw [ht]; exact h.format, by rw [ht]; exact h.clean, by rw [ht]; exact h.inside, by rw [ht]; exact h.outside,
    by rw [ht]; exact h.scales, fun q hq => ?_, fun x => ?_, ?_, ?_⟩
  · rw [autoInc_t, State.setT_t, if_neg hq, State.t, State.t, hw.unit]
  · rw [autoInc_x]
    unfold steppedX
    simp only [State.setT_x, hx]
  · have h1 := congrArg (fun c : State => c.blankT.blankMem) hblank
    have h2 := congrArg (fun c : State => c.blankX.blankT) hw.rest
    exact Eq.trans h1 h2
  · have h1 := congrArg (fun c : State => c.core.sb) hblank
    exact Eq.trans h1 hw.stores

theorem loaded_newest {s : State} {d : BitVec 4} {t : Tile} {st : Option (BitVec 5 × Word64)} (q : Nat) :
    ((s.setT d t).autoInc st).newest q = s.newest q := by
  have := congrArg (fun c : State => c.newest q) (autoInc_blankX (s.setT d t) st)
  exact this

theorem readTouch_writes (s : State) (m : XMap) (ranges : List (Nat × Nat)) (hint : BitVec 2) :
    Writes (fun q => ¬m.spares q) s (s.readTouch m ranges hint) :=
  (touchAll_writes s .read m).trans (Writes.quiet (Writes.foldl (fun t (r : Nat × Nat) => (m.runs r.1 r.2).foldl (fun t q => t.fillLines q.pa q.len hint) t)
    ranges (fun t r _ => Writes.foldl (fun t (q : Run) => t.fillLines q.pa q.len hint) _ (fun t q _ => fillLines_quiet t q.pa q.len hint) t) _))

/-! The forms. -/

theorem shapeOf_straight (esrc : BitVec 2) (rows cols : Nat) (old : Tile) :
    (shapeOf esrc false rows cols old).rext = (shapeOf esrc false rows cols old).mr
      ∧ (shapeOf esrc false rows cols old).cext = (shapeOf esrc false rows cols old).mc := by
  unfold shapeOf
  split <;> exact ⟨rfl, rfl⟩

theorem shapeOf_turned (esrc : BitVec 2) (rows cols : Nat) (old : Tile) :
    (shapeOf esrc true rows cols old).rext = (shapeOf esrc true rows cols old).mc
      ∧ (shapeOf esrc true rows cols old).cext = (shapeOf esrc true rows cols old).mr := by
  unfold shapeOf
  split <;> exact ⟨rfl, rfl⟩

/-- The rows of a clean source, placed straight or turned. -/
theorem Placed.of_rows {rd : Reader} (hclean : ∀ a, rd.bad a = none) {f : BitVec 5} {scl tr : Bool} (hscl : tr = true → scl = false) {sp : RowSpan}
    {esrc : BitVec 2} {n c : Nat} {old : Tile} {ra : Nat → Nat} (key : Option StackKey) :
    Placed (placeRows f scl tr (shapeOf esrc tr n c old).rext (shapeOf esrc tr n c old).cext
        (((List.range (shapeOf esrc tr n c old).mr).map ra).map (rd.row f sp (shapeOf esrc tr n c old).mc)) key)
      f scl (shapeOf esrc tr n c old).rext (shapeOf esrc tr n c old).cext
      (fun i j => if tr then rowElem rd.byte f sp (ra j) i else rowElem rd.byte f sp (ra i) j)
      (fun i => if (shapeOf esrc tr n c old).mc = 0 then 0 else rowScale rd.byte sp (ra i)) := by
  cases tr with
  | false =>
    obtain ⟨hr, hc⟩ := shapeOf_straight esrc n c old
    exact Placed.of_placeRows ((rows_clean hclean _).noBadRow false) (fun i j hi hj => rowsElem_rows (hr ▸ hi) (hc ▸ hj))
      (fun _ i hi => scale_rows (hr ▸ hi))
  | true =>
    obtain ⟨hr, hc⟩ := shapeOf_turned esrc n c old
    exact Placed.of_placeRows ((rows_clean hclean _).noBadRow true) (fun i j hi hj => rowsElem_rows (hc ▸ hj) (hr ▸ hi))
      (fun hs => by rw [hscl rfl] at hs; cases hs)

theorem needPointer_turned {p : Word64} {half xe4Ok : Bool} {mc : Nat} (h : needPointer p half true xe4Ok mc = .ok ()) :
    (ptrBlock p != 0) = false ∧ ptrFmt p ≠ xe4 := by
  have h := need_ok.1 h
  simp only [Bool.and_eq_true] at h
  obtain ⟨⟨⟨⟨-, h⟩, -⟩, -⟩, -⟩ := h
  simpa using h

theorem needPointer_notXe4 {p : Word64} {half tr : Bool} {mc : Nat} (h : needPointer p half tr false mc = .ok ()) : ptrFmt p ≠ xe4 := by
  have h := need_ok.1 h
  simp only [Bool.and_eq_true] at h
  obtain ⟨⟨⟨-, h⟩, -⟩, -⟩ := h
  simpa using h

theorem memReader_clean {s : State} {m : XMap} (h : s.readable m) (a : Nat) : (s.memReader m).bad a = none := by
  simp [State.memReader, h (a % vaEnd)]

theorem lsReader_clean {s : State} (h : s.core.lsPoison = []) (a : Nat) : s.lsReader.bad a = none := by
  simp [State.lsReader, h]

section
variable {s : State} {d ti : BitVec 4} {a b : BitVec 5} {ai tr : BitVec 1} {hint esrc : BitVec 2} {dir half : BitVec 1} {sz : Shape} {sp : RowSpan}

theorem tld_completes {m : XMap} (hsz : sz = shapeOf esrc (tr == 1) (shRows (s.x b)) (shCols (s.x b)) (s.t d))
    (hsp : sp = rowSpan (ptrFmt (s.x a)) (ptrBlock (s.x a)) (half == 1) sz.mc) (hshape : needShape esrc (s.x a) (s.x b) = .ok ())
    (hf : ptrFmt (s.x a) ≠ xe4) (hp : needPointer (s.x a) (half == 1) (tr == 1) true sz.mc = .ok ())
    (hend : addrOf (s.x a) + rangeLen sp (shStride (s.x b)) sz.mr sz.mc ≤ 2 ^ 56)
    (hacc : s.access .read true ((rowAddrs (addrOf (s.x a)) (shStride (s.x b)) sz.mr).map (rowRanges sp sz.mc)).flatten = .ok m) (hs : Settled s) :
    Completes (.tld d a b ai tr hint esrc dir half) s
      (((s.readTouch m ((rowAddrs (addrOf (s.x a)) (shStride (s.x b)) sz.mr).map (rowRanges sp sz.mc)).flatten hint).setT d
        (placeRows (ptrFmt (s.x a)) (ptrBlock (s.x a) != 0) (tr == 1) sz.rext sz.cext
          ((rowAddrs (addrOf (s.x a)) (shStride (s.x b)) sz.mr).map ((s.memReader m).row (ptrFmt (s.x a)) sp sz.mc))
          (s.rangeKey m (s.x a) (s.x b) (tr == 1) sz sp.elemOff))).autoInc (autoStep a b ai dir (s.x a) (s.x b) sz)) true := by
  subst hsz hsp
  have hf' : (ptrFmt (s.x a) == xe4) = false := by simpa using hf
  change execTld d a b ai tr hint esrc dir half s = _
  simp only [execTld, hp, hshape, hf', needAddr_ok hend, hacc, State.settle, hs.settleIf, run_ok_bind, Bool.false_eq_true, if_false]
  rfl

theorem needLocal_ok {addr len : Nat} (h : len = 0 ∨ addr + len ≤ 2 ^ 19) : needLocal addr len = .ok () := by
  have : (len == 0 || decide (addr + len ≤ lsSize)) = true := by
    simp only [Bool.or_eq_true, beq_iff_eq]
    exact h.imp_right decide_eq_true
  rw [needLocal, this]
  rfl

theorem tlds_completes (hsz : sz = shapeOf esrc (tr == 1) (shRows (s.x b)) (shCols (s.x b)) (s.t d))
    (hsp : sp = rowSpan (ptrFmt (s.x a)) (ptrBlock (s.x a)) (half == 1) sz.mc) (hshape : needShape esrc (s.x a) (s.x b) = .ok ())
    (hp : needPointer (s.x a) (half == 1) (tr == 1) false sz.mc = .ok ())
    (hend : rangeLen sp (shStride (s.x b)) sz.mr sz.mc = 0 ∨ addrOf (s.x a) + rangeLen sp (shStride (s.x b)) sz.mr sz.mc ≤ 2 ^ 19)
    (hfree : s.needLocalFree (addrOf (s.x a)) (rangeLen sp (shStride (s.x b)) sz.mr sz.mc) = .ok ()) :
    Completes (.tlds d a b ai tr esrc dir half) s
      ((s.setT d (placeRows (ptrFmt (s.x a)) (ptrBlock (s.x a) != 0) (tr == 1) sz.rext sz.cext
        ((rowAddrs (addrOf (s.x a)) (shStride (s.x b)) sz.mr).map (s.lsReader.row (ptrFmt (s.x a)) sp sz.mc)) none)).autoInc
        (autoStep a b ai dir (s.x a) (s.x b) sz)) true := by
  subst hsz hsp
  change execTlds d a b ai tr esrc dir half s = _
  simp only [execTlds, hp, hshape, needLocal_ok hend, hfree, run_ok_bind]
  rfl

/-- A gather whose rows lie in their window. -/
theorem gather_ok {m : XMap} {p sh : Word64} {t : Tile} {mr mc : Nat} (hsp : sp = rowSpan (ptrFmt p) (ptrBlock p) false mc)
    (hend : addrOf p + shAux sh * 4096 ≤ 2 ^ 56)
    (hwin : ∀ ra ∈ gatherRows p sh t mr, shAux sh ≠ 0 → mc ≠ 0 → addrOf p ≤ ra ∧ ra + sp.len ≤ addrOf p + shAux sh * 4096)
    (hacc : s.access .read true ((gatherRows p sh t mr).map (rowRanges sp mc)).flatten = .ok m) (hs : Settled s) :
    s.gather p sh t mr mc hint = .ok ((gatherRows p sh t mr).map ((s.memReader m).row (ptrFmt p) sp mc),
      s.readTouch m ((gatherRows p sh t mr).map (rowRanges sp mc)).flatten hint) := by
  subst hsp
  have hfind : (gatherRows p sh t mr).find? (fun ra => shAux sh * 4096 != 0 && mc != 0 && (decide (ra < addrOf p)
      || decide (addrOf p + shAux sh * 4096 < ra + (rowSpan (ptrFmt p) (ptrBlock p) false mc).len))) = none := by
    rw [List.find?_eq_none]
    intro ra hra
    have h := hwin ra hra
    by_cases h1 : shAux sh = 0
    · simp [h1]
    · by_cases h2 : mc = 0
      · simp [h2]
      · obtain ⟨hlo, hhi⟩ := h h1 h2
        simp [Nat.not_lt.2 hlo, Nat.not_lt.2 hhi]
  simp only [State.gather, needAddr_ok hend, hfind, hacc, hs.settleAll, State.settle, hs.settleIf, run_ok_bind]
  split <;> rfl

theorem tldi_completes {rows : List RowData} {s1 : State} (hsz : sz = shapeOf esrc false (shRows (s.x b)) (shCols (s.x b)) (s.t d))
    (hshape : needShape esrc (s.x a) (s.x b) = .ok ()) (hp : needPointer (s.x a) false false false sz.mc = .ok ())
    (hint' : isIntCode (s.t ti).fmt = true) (hg : s.gather (s.x a) (s.x b) (s.t ti) sz.mr sz.mc hint = .ok (rows, s1))
    (hbad : sz.mr ≠ 0 → (s.t ti).bad 0 = false) :
    Completes (.tldi d a b ai hint esrc dir ti) s
      ((s1.setT d (placeRows (ptrFmt (s.x a)) (ptrBlock (s.x a) != 0) false sz.rext sz.cext rows none)).autoInc
        (autoStep a b ai dir (s.x a) (s.x b) sz)) true := by
  subst hsz
  change execTldi d a b ai hint esrc dir ti s = _
  simp only [execTldi, hp, hshape, indexFormat, hint', hg, needIndex_ok hbad, run_ok_bind, Bool.not_true, Bool.false_eq_true, if_false]
  rfl

end

/-! xe4 loads (05 R137). -/

theorem loadXe4_ok {s : State} {d : BitVec 4} {a b : BitVec 5} {ai dir : BitVec 1} {hint esrc : BitVec 2} {sz : Shape} {rows : List RowData}
    {ranges : List (Nat × Nat)} (hsz : sz = shapeOf esrc false (shRows (s.x b)) (shCols (s.x b)) (s.t d)) (hr : sz.mr ≠ 0) (hc : sz.mc ≠ 0)
    (hend : max (addrOf (s.x a) + 4 * (shStride (s.x b) + (sz.mr - 1) * shAux (s.x b)) + 4) (addrOf (s.x a) + 2 ^ 32 + 141) ≤ 2 ^ 56)
    (hs : Settled s) (hrows : s.xeRows (s.x a) (s.x b) sz = .ok (rows, ranges)) :
    ∃ w, MemOnly s w ∧ loadXe4 d a b ai dir hint esrc s
      = .ok (((w.setT d (placeRows 0x04 (ptrBlock (s.x a) != 0) false sz.rext sz.cext rows none)).autoInc
        (autoStep a b ai dir (s.x a) (s.x b) sz)).advance true) := by
  subst hsz
  obtain ⟨sz, hsz⟩ : ∃ sz, sz = shapeOf esrc false (shRows (s.x b)) (shCols (s.x b)) (s.t d) := ⟨_, rfl⟩
  rw [← hsz] at hr hc hend hrows ⊢
  have hlen : xeLen (s.x a) (s.x b) sz
      = max (addrOf (s.x a) + 4 * (shStride (s.x b) + (sz.mr - 1) * shAux (s.x b)) + 4) (addrOf (s.x a) + 2 ^ 32 + 141) - addrOf (s.x a) := by
    simp [xeLen, hr, hc]
  have hpos : (xeLen (s.x a) (s.x b) sz == 0) = false := by
    rw [hlen]
    simp only [beq_eq_false_iff_ne]
    omega
  have haddr : needAddr (addrOf (s.x a)) (xeLen (s.x a) (s.x b) sz) = .ok () := needAddr_ok (by rw [hlen]; omega)
  obtain ⟨w, hw, hread⟩ : ∃ w, MemOnly s w ∧ (match s.access .read true ranges with
      | .ok m => s.readTouch m ranges hint
      | .error _ => s) = w := by
    cases s.access .read true ranges with
    | ok m => exact ⟨_, readTouch_memOnly s m ranges hint, rfl⟩
    | error e => exact ⟨_, MemOnly.refl s, rfl⟩
  refine ⟨w, hw, ?_⟩
  simp only [loadXe4, ← hsz, haddr, State.settleLocal, hs.settleIf, hpos, hrows, run_ok_bind, Bool.false_eq_true, if_false, ← hread] <;> rfl

theorem tldXe4_completes {s w : State} {d : BitVec 4} {a b : BitVec 5} {ai tr : BitVec 1} {hint esrc : BitVec 2} {dir half : BitVec 1} {sz : Shape}
    (hsz : sz = shapeOf esrc (tr == 1) (shRows (s.x b)) (shCols (s.x b)) (s.t d)) (hshape : needShape esrc (s.x a) (s.x b) = .ok ())
    (hf : ptrFmt (s.x a) = xe4) (hp : needPointer (s.x a) (half == 1) (tr == 1) true sz.mc = .ok ())
    (h : loadXe4 d a b ai dir hint esrc s = .ok (w.advance true)) : Completes (.tld d a b ai tr hint esrc dir half) s w true := by
  subst hsz
  change execTld d a b ai tr hint esrc dir half s = _
  simp only [execTld, hp, hshape, hf, beq_self_eq_true, if_true, h, run_ok_bind]
  rfl

/-- Settles O38: each form reads its rows from its space and places them. -/
theorem tileLoads : Obligations.TileLoads := by
  intro s d ti a b ai tr hint esrc dir half hs p sh f scl addr sz sp len ras turned hshape
  have hturn (rd : Nat → Byte) (ra : Nat → Nat) : (fun i j => if (tr == 1) = true then rowElem rd f sp (ra j) i else rowElem rd f sp (ra i) j)
      = turned (fun i j => rowElem rd f sp (ra i) j) := by
    funext i j
    simp only [turned, beq_iff_eq]
  refine ⟨fun m hf hp hend hacc hset hread => ?_, fun hp hend hfree hpois => ?_, ?_, fun rows ranges hf htr hp hset hr hc hend hrows hgood => ?_⟩
  · have hscl : (tr == 1) = true → scl = false := fun h => (needPointer_turned (h ▸ hp)).1
    have hw := readTouch_writes s m (ras.map (rowRanges sp sz.mc)).flatten hint
    refine ⟨_, tld_completes rfl rfl hshape hf hp hend hacc hset, fun q hq => ?_, ?_⟩
    · rw [loaded_newest]
      exact hw.bytes hs.l1 q (not_not.2 hq)
    · rw [← hturn]
      exact loadsTile hw.rest (Placed.of_rows (memReader_clean hread) hscl (ra := fun i => addr + i * shStride sh) _) _
  · have hscl : (tr == 1) = true → scl = false := fun h => (needPointer_turned (h ▸ hp)).1
    refine ⟨_, tlds_completes rfl rfl hshape hp hend hfree, ?_, ?_⟩
    · have := congrArg State.blankT (autoInc_blankX (s.setT d (placeRows f scl (tr == 1) sz.rext sz.cext
        (ras.map (s.lsReader.row f sp sz.mc)) none)) (autoStep a b ai dir p sh sz))
      exact this
    · rw [← hturn]
      exact loadsTile (MemOnly.refl s) (Placed.of_rows (lsReader_clean hpois) hscl (ra := fun i => addr + i * shStride sh) none) _
  · intro m htr hhalf hp hint' row hend hwin hacc hset hread hbad
    have hsz : sz = shapeOf esrc false (shRows sh) (shCols sh) (s.t d) := by simp only [sz, htr]; rfl
    have hsp : sp = rowSpan (ptrFmt p) (ptrBlock p) false sz.mc := by simp only [sp, hhalf]; rfl
    have hras : gatherRows p sh (s.t ti) sz.mr = (List.range sz.mr).map row := rfl
    have hg := gather_ok (hint := hint) hsp hend (fun ra hra h1 h2 => by
      rw [hras] at hra
      obtain ⟨i, hi, rfl⟩ := List.mem_map.1 hra
      exact hwin i (List.mem_range.1 hi) h1 h2) hacc hset
    have hw := readTouch_writes s m ((gatherRows p sh (s.t ti) sz.mr).map (rowRanges sp sz.mc)).flatten hint
    refine ⟨_, tldi_completes hsz hshape hp hint' hg hbad, fun q hq => ?_, loadsTile hw.rest ?_ _⟩
    · rw [loaded_newest]
      exact hw.bytes hs.l1 q (not_not.2 hq)
    · rw [hras, hsz]
      exact Placed.of_rows (memReader_clean hread) (tr := false) (fun h => nomatch h) (ra := row) none
  · have hsz : sz = shapeOf esrc false (shRows sh) (shCols sh) (s.t d) := by simp only [sz, htr]; rfl
    have hp' : needPointer p (half == 1) (tr == 1) true sz.mc = .ok () := by rw [htr]; exact hp
    obtain ⟨w, hw, hload⟩ := loadXe4_ok (ai := ai) (dir := dir) (hint := hint) hsz hr hc hend hset hrows
    refine ⟨_, tldXe4_completes rfl hshape hf hp' hload, loadsTile hw (Placed.of_placeRows (noBadRow_straight hgood) (fun i j _ _ => ?_) fun _ i _ => rfl) _⟩
    rw [if_neg (by decide)]
    rfl

end Sys2Proof.Machine
end

section
/-! A counterexample to O39: a tile store whose rows are longer than the span of the row (05 R132, R140, R144). -/

namespace Sys2Proof.Machine

/-- The entry that a tst retires as (05 R141). -/
def State.tileEntry (s : State) (t : Tile) (p sh : Word64) (sz : Shape) (sp : RowSpan) (hint : BitVec 2) (m : XMap) : SbEntry :=
  { kind := .tile, va := addrOf p, len := rangeLen sp (shStride sh) sz.mr sz.mc,
    writes := ((wrapWrites (tileWrites t (ptrFmt p) sp sz.mc (rowAddrs (addrOf p) (shStride sh) sz.mr))).map m.split).flatten,
    raw := [], runs := [], cached := true, device := false,
    poison := ((wrapWrites (poisonWrites t (ptrFmt p) sp sz.mc (rowAddrs (addrOf p) (shStride sh) sz.mr))).map (fun w =>
      ((m.split w).map (fun q => granulesOf q.1 q.2.length)).flatten)).flatten.dedup,
    part := s.core.unit.ident.part, task := s.core.unit.ident.task, launch := s.core.unit.ident.launch, hint := hint }

theorem tst_completes {s : State} {r : BitVec 4} {a b : BitVec 5} {ai : BitVec 1} {hint esrc : BitVec 2} {dir half : BitVec 1} {sz : Shape}
    {sp : RowSpan} {m : XMap} (hsz : sz = shapeOf esrc false (shRows (s.x b)) (shCols (s.x b)) (s.t r))
    (hsp : sp = rowSpan (ptrFmt (s.x a)) (ptrBlock (s.x a)) (half == 1) sz.mc) (hp : needPointer (s.x a) (half == 1) false false sz.mc = .ok ())
    (ht : needStorable (s.x a) (s.t r) = .ok ()) (hshape : needShape esrc (s.x a) (s.x b) = .ok ())
    (hend : addrOf (s.x a) + rangeLen sp (shStride (s.x b)) sz.mr sz.mc ≤ 2 ^ 56)
    (hacc : s.access .write true ((rowAddrs (addrOf (s.x a)) (shStride (s.x b)) sz.mr).map (rowBytes sp)).flatten = .ok m)
    (hne : (s.tileEntry (s.t r) (s.x a) (s.x b) sz sp hint m).writes.isEmpty = false) :
    Completes (.tst r a b ai hint esrc dir half) s (((s.touchAll .write m).withStores (s.core.sb ++
      [s.tileEntry (s.t r) (s.x a) (s.x b) sz sp hint m])).autoInc (autoStep a b ai dir (s.x a) (s.x b) sz)) true := by
  subst hsz hsp
  have hsb : (s.touchAll .write m).core.sb = s.core.sb := (touchAll_memOnly ..).stores
  have hpush (t : State) (e : SbEntry) (h : e.kind = .tile) : t.pushStore e = .ok (t.withStores (t.core.sb ++ [e])) := by
    simp [State.pushStore, h, SbKind.buffered, State.withStores]
  change execTst r a b ai hint esrc dir half s = _
  unfold State.tileEntry at hne ⊢
  simp only [execTst, hp, ht, hshape, needAddr_ok hend, hacc, hne, run_ok_bind, Bool.false_eq_true, if_false]
  rw [hpush _ _ rfl, hsb]
  rfl

/-- A pointer to rows in blocks of 32 fp8e4 elements with their scales, 33 bytes before the end of the address space. -/
def lastRow : Word64 := 0x25FFFFFFFFFFFFDF

/-- A row of 40 elements: more than the 32 that the span of its block holds. -/
def wideTile : Tile := { Tile.null with fmt := 4, rext := 1, cext := 40, mapped := true }

/-- A unit whose TLB holds the last page of the address space and the first one. -/
def wideStore : State :=
  { State.reset with
    core.tlb := [⟨0, 2 ^ 56 - 4096, 12, 0x400000000011F1, 1, (0, [])⟩, ⟨0, 0, 12, 0x400000000021F1, 1, (0, [])⟩]
    core.unit.t := Vector.replicate 16 wideTile
    core.unit.x := (Vector.replicate 32 0).set 1 lastRow }

/-- The translations of the store: both pages. -/
def widePages : XMap := [(0, ⟨0x400000000021F1, 12, none⟩), (2 ^ 44 - 1, ⟨0x400000000011F1, 12, none⟩)]

theorem wideStore_inv : wideStore.Inv where
  memory := by decide
  localStore := resetHasInvariant.localStore
  flash := resetHasInvariant.flash
  l1 := resetHasInvariant.l1
  status := resetHasInvariant.status
  counts := fun k hk => nomatch hk

theorem wideStore_access : wideStore.access .write true ((rowAddrs (addrOf lastRow) 0 1).map (rowBytes (rowSpan 4 32 false 40))).flatten
    = .ok widePages := by rfl

/-- The store's entry. -/
def wideEntry : SbEntry := wideStore.tileEntry wideTile lastRow 0 ⟨1, 40, 1, 40⟩ (rowSpan 4 32 false 40) 0 widePages

/-- The writes that the statement gives the row: 40 elements and the scale byte. -/
def wideWrites : List (Nat × List Byte) := [(addrOf lastRow, packRow 4 ((List.range 40).map (wideTile.elem 0))), (addrOf lastRow + 32, [0x7F])]

/-- Beyond the last page the entry's bytes lie one after another from address 0, and those of the statement all at 0: no page translates them. -/
theorem wideEntry_cells : (cellsOf wideEntry.writes)[34]?.map (·.1) = some 1 ∧ (wideWrites.map widePages.cells).flatten[34]?.map (·.1) = some 0 := by
  decide

theorem wideStore_completes : Completes (.tst 0 1 2 0 0 2 0 0) wideStore ((wideStore.touchAll .write widePages).withStores [wideEntry]) true :=
  tst_completes (s := wideStore) (r := 0) (a := 1) (b := 2) (ai := 0) (hint := 0) (esrc := 2) (dir := 0) (half := 0)
    (sz := ⟨1, 40, 1, 40⟩) (sp := rowSpan 4 32 false 40) (m := widePages) (by decide) (by decide) (by rfl) (by rfl) (by rfl) (by decide)
    wideStore_access (by decide)

/-- Refutes O39: the statement bounds the range of the store by the spans of its rows, and the elements of a tile may be more than a span holds.
Those that lie beyond the address space have no translation, and the store and the statement place them differently. -/
theorem not_tileStores : ¬ Obligations.TileStores := by
  intro h
  obtain ⟨htst, -⟩ := h.2 wideStore 0 1 2 0 0 2 0 0 wideStore_inv (by rfl) (by rfl) (Or.inr ⟨by decide, fun h => nomatch h⟩)
  obtain ⟨u, hu, -, -, -, -, hentry⟩ := htst widePages (by decide) wideStore_access
  obtain ⟨e, hsb, -, -, -, -, -, -, hcells, -⟩ := hentry (by decide)
  have hsame : u.core.sb = [wideEntry] := by
    have heq : (u.advance true) = _ := Host.Outcome.next.inj (hu.symm.trans wideStore_completes)
    have hsbs := congrArg (·.core.sb) heq
    rw [State.advance_sb, State.advance_sb] at hsbs
    exact hsbs
  have he : e = wideEntry := by
    rw [hsame] at hsb
    exact (List.singleton_inj.1 hsb).symm
  have hwrites := congrArg (fun l : List Host.Cell => l[34]?.map (·.1)) (he ▸ hcells)
  exact absurd (wideEntry_cells.1.symm.trans (hwrites.trans wideEntry_cells.2)) (by decide)

end Sys2Proof.Machine
end

section
/-! Traps and sret (14 R360 to R371; 01 R41). -/

namespace Sys2Proof.Machine

/-! Taking a trap. -/

/-- t has the unit and the store buffer of s: what logging a trap leaves. -/
structure SameCore (s t : State) : Prop where
  unit : t.core.unit = s.core.unit
  stores : t.core.sb = s.core.sb

theorem faultLog_sameCore (s : State) (p : BitVec 3) (type : Nat) (cause : BitVec 6) (f nested : Bool) (pl : BitVec 2) (core : BitVec 7)
    (task launch : BitVec 32) (epc : BitVec 56) (tval repst : Word64) (paddr : Nat) :
    SameCore s (s.faultLog p type cause f nested pl core task launch epc tval repst paddr) :=
  ⟨(faultRecord_sameUnit s p _).unit, (faultRecord_spec s p _).2.1⟩

/-- What a trap leaves as it was: every register of the unit, its identity and the stores; and what it discards (14 R360; 08 R208). -/
structure Parked (s t : State) : Prop where
  regs : ∀ r, t.x r = s.x r
  tiles : ∀ r, t.t r = s.t r
  mboxes : ∀ r, t.mbox r = s.mbox r
  streams : ∀ q, t.stream q = s.stream q
  ident : t.core.unit.ident = s.core.unit.ident
  frame : t.core.frame = []
  stores : t.core.sb = s.core.sb
  rob : t.core.rob = []
  front : t.core.front.decoded = []

theorem SameCore.park {s t : State} (h : SameCore s t) (run : RunState) (pc : BitVec 56) : Parked s (t.park run pc) where
  regs r := by
    have hx := congrArg (fun u : UnitCtx => if r = 0 then 0 else u.x[r.toNat]'r.isLt) h.unit
    exact hx
  tiles r := by
    have ht := congrArg (fun u : UnitCtx => u.t[r.toNat]'r.isLt) h.unit
    exact ht
  mboxes r := by
    have hm := congrArg (fun u : UnitCtx => u.m[r.toNat]'r.isLt) h.unit
    exact hm
  streams q := by
    have hq := congrArg (fun u : UnitCtx => u.q[q.toNat]'q.isLt) h.unit
    exact hq
  ident := by
    have hi := congrArg (·.ident) h.unit
    exact hi
  frame := rfl
  stores := h.stores
  rob := rfl
  front := rfl

/-- Writing control registers leaves what a trap leaves. -/
theorem SameCore.park_setK {s t : State} (h : SameCore s t) (k : KRegs) (run : RunState) (pc : BitVec 56) : Parked s ((t.setK k).park run pc) :=
  let ⟨regs, tiles, mboxes, streams, ident, _, stores, _, _⟩ := h.park run pc
  ⟨regs, tiles, mboxes, streams, ident, rfl, stores, rfl, rfl⟩

theorem State.trapped_sameCore (s : State) (c : BitVec 6) : SameCore s (s.trapped c) :=
  ⟨congrArg (·.unit) (s.trapped_core c), congrArg (·.sb) (s.trapped_core c)⟩

theorem SameCore.trans {s t u : State} (h : SameCore s t) (h' : SameCore t u) : SameCore s u := ⟨h'.unit.trans h.unit, h'.stores.trans h.stores⟩

theorem SameCore.k {s t : State} (h : SameCore s t) : t.k = s.k := congrArg (·.k) h.unit

section
variable (s : State) (c : BitVec 6) (f : Bool) (epc : BitVec 56) (tval : Word64) (paddr : Nat)

theorem State.reportSuspend_eq : ∃ t, SameCore s t ∧ s.reportSuspend c f epc tval paddr = t.park (.suspended ⟨c, f, s.k.pl == 1, tval, paddr⟩) epc := by
  have h := faultLog_sameCore s s.core.unit.ident.part 0 c f (s.k.pl == 1) s.k.pl s.core.num s.core.unit.ident.task s.core.unit.ident.launch
    epc tval s.k.repst paddr
  refine ⟨_, ?_, rfl⟩
  exact ⟨h.unit, h.stores⟩

/-- The control registers at the entry of the handler (14 R361, R362). -/
def KRegs.entered (k : KRegs) : KRegs :=
  { k with
    epc := BitVec.ofNat 64 epc.toNat,
    tcause := BitVec.ofNat 64 (c.toNat + (if f then 2 ^ 6 else 0) + k.pl.toNat * 2 ^ 7 + if k.rf then 2 ^ 9 else 0),
    tval := tval,
    status := statusOf 1 false }

theorem State.enterHandler_eq : ∃ t, SameCore s t
    ∧ s.enterHandler c f epc tval paddr = (t.setK (s.k.entered c f epc tval)).park .running (s.k.tvec.setWidth 56) := by
  refine ⟨_, ?_, rfl⟩
  split
  · exact faultLog_sameCore ..
  · exact ⟨rfl, rfl⟩

/-- The fields of k.tcause at the entry from unit level. -/
theorem entered_fields (k : KRegs) (h : k.pl = 0) : (k.entered c f epc tval).pl = 1 ∧ (k.entered c f epc tval).rf = false
    ∧ bits (k.entered c f epc tval).tcause 5 0 = c.toNat ∧ (k.entered c f epc tval).tcause.getLsbD 6 = f
    ∧ bits (k.entered c f epc tval).tcause 8 7 = 0 ∧ (k.entered c f epc tval).tcause.getLsbD 9 = k.rf
    ∧ bits (k.entered c f epc tval).tcause 63 10 = 0 := by
  have hc := c.isLt
  have hval : (k.entered c f epc tval).tcause.toNat = c.toNat + (if f then 2 ^ 6 else 0) + if k.rf then 2 ^ 9 else 0 := by
    simp only [KRegs.entered, h, BitVec.toNat_ofNat, show (0 : BitVec 2).toNat = 0 from rfl]
    split <;> split <;> omega
  obtain ⟨hpl, hrf⟩ := statusOf_fields (k.entered c f epc tval) 1 false rfl
  refine ⟨hpl, hrf, ?_, ?_, ?_, ?_, ?_⟩
  · rw [bits, hval]
    split <;> split <;> omega
  · rw [BitVec.getLsbD, hval, Nat.testBit_eq_decide_div_mod_eq]
    cases f <;> simp <;> split <;> omega
  · rw [bits, hval]
    split <;> split <;> omega
  · rw [BitVec.getLsbD, hval, Nat.testBit_eq_decide_div_mod_eq]
    cases k.rf <;> simp <;> split <;> omega
  · rw [bits, hval]
    split <;> split <;> omega

/-- The trap enters the handler of the unit (14 R360). -/
def State.Handled (s : State) (c : BitVec 6) : Prop := s.k.pl = 0 ∧ s.k.tdeleg.getLsbD c.toNat = false ∧ s.k.tvec ≠ 0

theorem takeTrap_handled (h : s.Handled c) : ∃ t, SameCore s t
    ∧ s.takeTrap c f epc tval paddr = (t.setK (s.k.entered c f epc tval)).park .running (s.k.tvec.setWidth 56) := by
  obtain ⟨t, ht, heq⟩ := State.enterHandler_eq (s.trapped c) c f epc tval paddr
  rw [s.trapped_k c] at heq
  exact ⟨t, (s.trapped_sameCore c).trans ht, (s.takeTrap_handler c f epc tval paddr h.1 h.2.1 h.2.2).trans heq⟩

theorem takeTrap_suspends (h : ¬s.Handled c) (hpl : s.k.pl.toNat ≤ 1) : ∃ t, SameCore s t
    ∧ s.takeTrap c f epc tval paddr = t.park (.suspended ⟨c, f, s.k.pl == 1, tval, paddr⟩) epc := by
  obtain ⟨t, ht, heq⟩ := State.reportSuspend_eq (s.trapped c) c f epc tval paddr
  rw [s.trapped_k c] at heq
  refine ⟨t, (s.trapped_sameCore c).trans ht, Eq.trans ?_ heq⟩
  have hlevel : s.k.pl = 0 ∨ s.k.pl = 1 := by
    generalize s.k.pl = l at hpl
    revert l
    decide
  rcases hlevel with h0 | h1
  · refine s.takeTrap_delegated c f epc tval paddr h0 ?_
    by_contra hno
    obtain ⟨hd, hv⟩ := not_or.1 hno
    exact h ⟨h0, by simpa using hd, hv⟩
  · exact s.takeTrap_nested c f epc tval paddr h1

theorem takeTrap_halts (h : s.k.pl = 2) : ∃ t, SameCore s t ∧ t.mgmt = s.mgmt ∧ t.core.num = s.core.num
    ∧ s.takeTrap c f epc tval paddr = t.haltReport c epc :=
  ⟨s.trapped c, s.trapped_sameCore c, s.trapped_mgmt c, congrArg (·.num) (s.trapped_core c), s.takeTrap_firmware c f epc tval paddr h⟩

/-- The registers are those before the trap, whatever it does. -/
theorem takeTrap_parked : Parked s (s.takeTrap c f epc tval paddr) := by
  have hcore := s.trapped_sameCore c
  have hsuspend : Parked s ((s.trapped c).reportSuspend c f epc tval paddr) := by
    obtain ⟨t, ht, heq⟩ := State.reportSuspend_eq (s.trapped c) c f epc tval paddr
    exact heq ▸ (hcore.trans ht).park _ _
  change Parked s (if (s.trapped c).k.pl == 2 then (s.trapped c).haltReport c epc
    else if (s.trapped c).k.pl == 1 then (s.trapped c).reportSuspend c f epc tval paddr
    else if (s.trapped c).k.tdeleg.getLsbD c.toNat || (s.trapped c).k.tvec == 0 then (s.trapped c).reportSuspend c f epc tval paddr
    else (s.trapped c).enterHandler c f epc tval paddr)
  split_ifs
  · let h := hcore.park .halted epc
    exact { h with }
  · exact hsuspend
  · exact hsuspend
  · obtain ⟨t, ht, heq⟩ := State.enterHandler_eq (s.trapped c) c f epc tval paddr
    exact heq ▸ (hcore.trans ht).park_setK _ _ _

end

/-! sret (14 R371). -/

theorem ppl_eq (k : KRegs) : k.ppl.toNat = bits k.tcause 8 7 := by
  rw [KRegs.ppl, BitVec.extractLsb'_toNat, Nat.shiftRight_eq_div_pow, bits]

theorem needLevel_true (s : State) : s.needLevel true = .ok () := rfl

/-- What sret needs before it returns. -/
structure Returns (k : KRegs) : Prop where
  level : k.pl ≠ 0
  lower : bits k.tcause 8 7 ≤ k.pl.toNat
  legal : bits k.tcause 8 7 ≠ 3
  aligned : k.epc.toNat % 4 = 0

section
variable {s : State}

theorem sret_privilege (h : s.k.pl = 0 ∨ bits s.k.tcause 8 7 = 3 ∨ s.k.pl.toNat < bits s.k.tcause 8 7) : ∃ w, TrapsWith .sret s .privilege w := by
  refine ⟨Config.openTval Cause.privilege.code.toNat s.tick, 0, ?_⟩
  change execSret s = _
  unfold execSret
  by_cases h0 : s.k.pl = 0
  · simp only [h0, bne_self_eq_false]
    rfl
  · have hbad : (s.k.ppl != 3 && decide (s.k.ppl.toNat ≤ s.k.pl.toNat)) = false := by
      rw [← ppl_eq] at h
      rcases h with h | h | h
      · exact absurd h h0
      · simp [show s.k.ppl = 3 from BitVec.eq_of_toNat_eq h]
      · simp [h]
    simp only [bne_iff_ne.2 h0, hbad]
    rfl

/-- sret at a level that may return. -/
theorem sret_checked (hl : s.k.pl ≠ 0) (hlow : bits s.k.tcause 8 7 ≤ s.k.pl.toNat) (h3 : bits s.k.tcause 8 7 ≠ 3) :
    exec .sret s = s.finish (do
      need (bits s.k.epc 1 0 == 0) .pcAlign s.k.epc
      if s.k.v then
        let t ← s.refetchFrame
        .ok (((t.retired false).setK { s.k with status := statusOf s.k.ppl true }).setPc (s.k.frameAddr s.k.pos))
      else .ok (((s.retired false).setK { s.k with status := statusOf s.k.ppl false }).setPc (s.k.epc.setWidth 56))) := by
  have hgood : (s.k.ppl != 3 && decide (s.k.ppl.toNat ≤ s.k.pl.toNat)) = true := by
    rw [← ppl_eq] at hlow h3
    simpa [hlow] using fun h : s.k.ppl = 3 => h3 (congrArg BitVec.toNat h)
  change execSret s = _
  unfold execSret
  simp only [bne_iff_ne.2 hl, hgood]
  rfl

theorem epc_low (k : KRegs) : bits k.epc 1 0 = k.epc.toNat % 4 := by rw [bits, Nat.pow_zero, Nat.div_one]; rfl

theorem sret_misaligned (hl : s.k.pl ≠ 0) (hlow : bits s.k.tcause 8 7 ≤ s.k.pl.toNat) (h3 : bits s.k.tcause 8 7 ≠ 3) (h : s.k.epc.toNat % 4 ≠ 0) :
    TrapsWith .sret s .pcAlign s.k.epc := by
  refine ⟨0, ?_⟩
  rw [sret_checked hl hlow h3, epc_low, beq_eq_false_iff_ne.2 h, need_false, run_error_bind]
  rfl

theorem sret_outside (h : Returns s.k) (hv : s.k.v = false) :
    exec .sret s = .next (((s.retired false).setK { s.k with status := statusOf s.k.ppl false }).setPc (s.k.epc.setWidth 56)) := by
  rw [sret_checked h.level h.lower h.legal, epc_low, beq_iff_eq.2 h.aligned, need_true, run_ok_bind, if_neg (by simp [hv])]
  rfl

theorem sret_inside (h : Returns s.k) (hv : s.k.v = true) : exec .sret s = s.finish (do
    let t ← s.refetchFrame
    .ok (((t.retired false).setK { s.k with status := statusOf s.k.ppl true }).setPc (s.k.frameAddr s.k.pos))) := by
  rw [sret_checked h.level h.lower h.legal, epc_low, beq_iff_eq.2 h.aligned, need_true, run_ok_bind, if_pos hv]

/-- The frame is fetched again when its position lies inside it and its homes take the fetch (01 R41; 16 R406). -/
theorem refetchFrame_taken (hp : s.k.pos ≤ s.k.n1) (hi : s.k.iter ≤ s.k.k1) (ht : s.fetchTaken (s.k.frameAddr 0) (s.k.n1 + 1) = true) :
    s.refetchFrame = (do
      let is ← (s.capture (s.k.frameAddr 0) (s.k.n1 + 1)).get
      .ok { s.fetchedAll (s.k.frameAddr 0) (s.k.n1 + 1) with core.frame := is }) := by
  unfold State.refetchFrame
  rw [if_neg (by simp; omega)]
  simp only [ht, needTaken_true, run_ok_bind]

theorem sret_beyond (h : Returns s.k) (hv : s.k.v = true) (hp : s.k.n1 < s.k.pos ∨ s.k.k1 < s.k.iter) : TrapsWith .sret s .repContent s.k.repst := by
  refine ⟨0, ?_⟩
  rw [sret_inside h hv, State.refetchFrame, if_pos (by simpa using hp), run_error_bind]
  rfl

/-- The state in which sret has returned into the frame of the words that were fetched again. -/
def State.refetched (s : State) (is : List Instr) : State :=
  let t : State := { s.fetchedAll (s.k.frameAddr 0) (s.k.n1 + 1) with core.frame := is }
  ((t.retired false).setK { s.k with status := statusOf s.k.ppl true }).setPc (s.k.frameAddr s.k.pos)

theorem sret_refetched {is : List Instr} (h : Returns s.k) (hv : s.k.v = true) (hp : s.k.pos ≤ s.k.n1) (hi : s.k.iter ≤ s.k.k1)
    (ht : s.fetchTaken (s.k.frameAddr 0) (s.k.n1 + 1) = true) (hc : s.capture (s.k.frameAddr 0) (s.k.n1 + 1) = .words is) :
    exec .sret s = .next (s.refetched is) := by
  rw [sret_inside h hv, refetchFrame_taken hp hi ht, hc]
  rfl

/-- What sret does once its checks have passed, by what the frame's words are (01 R41; 14 R371). -/
theorem sret_returns (h : Returns s.k) :
    (s.k.v = false → ∃ u, exec .sret s = .next u ∧ u.pc = s.k.epc.setWidth 56 ∧ u.k.pl.toNat = bits s.k.tcause 8 7 ∧ u.k.rf = false
        ∧ { u.k with status := 0 } = { s.k with status := 0 } ∧ u.core.retired = s.core.retired + 1 ∧ u.blankFlow = s.blankFlow)
      ∧ (∀ is, s.k.v = true → s.k.pos ≤ s.k.n1 → s.k.iter ≤ s.k.k1 → s.fetchTaken (s.k.frameAddr 0) (s.k.n1 + 1) = true →
        s.capture (s.k.frameAddr 0) (s.k.n1 + 1) = .words is →
        ∃ u, exec .sret s = .next u ∧ u.core.frame = is ∧ u.pc = s.k.frameAddr s.k.pos ∧ u.k.pl.toNat = bits s.k.tcause 8 7
          ∧ u.k.rf = true ∧ u.k.repst = s.k.repst ∧ ∀ r, u.x r = s.x r)
      ∧ (∀ c va p, s.k.v = true → s.k.pos ≤ s.k.n1 → s.k.iter ≤ s.k.k1 → s.fetchTaken (s.k.frameAddr 0) (s.k.n1 + 1) = true →
        s.capture (s.k.frameAddr 0) (s.k.n1 + 1) = .fetchFault c va p → TrapsWith .sret s c (va.zeroExtend 64))
      ∧ (∀ va, s.k.v = true → s.k.pos ≤ s.k.n1 → s.k.iter ≤ s.k.k1 → s.fetchTaken (s.k.frameAddr 0) (s.k.n1 + 1) = true →
        s.capture (s.k.frameAddr 0) (s.k.n1 + 1) = .content va → TrapsWith .sret s .repContent (va.zeroExtend 64))
      ∧ (s.k.v = true → s.k.n1 < s.k.pos ∨ s.k.k1 < s.k.iter → TrapsWith .sret s .repContent s.k.repst) := by
  have hlevel (k : KRegs) (rf : Bool) (hk : k.status = statusOf s.k.ppl rf) : k.pl.toNat = bits s.k.tcause 8 7 ∧ k.rf = rf := by
    obtain ⟨hpl, hrf⟩ := statusOf_fields k s.k.ppl rf hk
    exact ⟨by rw [hpl, ppl_eq], hrf⟩
  refine ⟨fun hv => ?outside, fun is hv hp hi ht hc => ?inside, fun c va p hv hp hi ht hc => ⟨p, ?fault⟩, fun va hv hp hi ht hc => ⟨0, ?content⟩,
    sret_beyond h⟩
  case outside =>
    obtain ⟨hpl, hrf⟩ := hlevel { s.k with status := statusOf s.k.ppl false } false rfl
    exact ⟨_, sret_outside h hv, rfl, hpl, hrf, rfl, rfl, rfl⟩
  case inside =>
    obtain ⟨hpl, hrf⟩ := hlevel { s.k with status := statusOf s.k.ppl true } true rfl
    have hmem := fetchedAll_memOnly s (s.k.frameAddr 0) (s.k.n1 + 1)
    exact ⟨_, sret_refetched h hv hp hi ht hc, rfl, rfl, hpl, hrf, rfl, fun r => congrArg (·.x r) hmem.rest⟩
  case fault =>
    rw [sret_inside h hv, refetchFrame_taken hp hi ht, hc]
    exact congrArg (fun v => Host.Outcome.next (s.trapHere c v p)) (BitVec.ofNat_toNat 64 va)
  case content =>
    rw [sret_inside h hv, refetchFrame_taken hp hi ht, hc]
    exact congrArg (fun v => Host.Outcome.next (s.trapHere .repContent v 0)) (BitVec.ofNat_toNat 64 va)

end

/-! The steps TRAP_ENTRY and REPORT_AND_SUSPEND (14 R362, R364). -/

theorem inCore_iff (s : State) (c : BitVec 6) : s.inCore c = true ↔ s.Handled c := by
  simp [State.inCore, State.Handled, and_assoc]

theorem breakHere_of_exempt {s : State} (h : s.core.exempt = true) : s.breakHere = none := by
  rw [State.breakHere, h]
  rfl

/-- The oldest instruction traps in its fetch or its decoding (03 R76; 10 R264). -/
def State.FrontTraps (s : State) (cause : BitVec 6) (f : Bool) (tval : Word64) (paddr : Nat) (u : State) : Prop :=
  (∃ c, s.fetchWord s.pc = .error (c, paddr) ∧ c.code = cause ∧ f = true ∧ tval = s.pc.zeroExtend 64 ∧ u = s)
    ∨ (∃ w x r, s.fetchWord s.pc = .ok (w, x) ∧ decode w = .error r ∧ cause = Cause.illegalInsn.code ∧ f = false ∧ tval = w.zeroExtend 64
      ∧ paddr = 0 ∧ u = s.fetched s.pc x)

theorem frontTrap_spec {s u : State} {cause : BitVec 6} {f : Bool} {tval : Word64} {paddr : Nat} (hrun : s.core.run = .running)
    (hsafe : s.core.safe = none) (hex : s.core.exempt = true) (hrf : s.k.rf = false) (ht : s.fetchTaken s.pc 1 = true)
    (h : s.FrontTraps cause f tval paddr u) : ∃ c : Cause, c.code = cause ∧ s.frontTrap = some (c, f, tval, paddr, u) := by
  have hgo : (s.core.run != .running || s.core.safe.isSome || s.breakHere.isSome) = false := by
    rw [hrun, hsafe, breakHere_of_exempt hex]
    rfl
  unfold State.frontTrap
  simp only [hgo, hrf, ht, Bool.false_eq_true, if_false, Bool.not_true]
  rcases h with ⟨c, hf, hc, rfl, rfl, rfl⟩ | ⟨w, x, r, hf, hd, rfl, rfl, rfl, rfl, rfl⟩
  · exact ⟨c, hc, by simp [hf]⟩
  · exact ⟨.illegalInsn, rfl, by simp [hf, hd]⟩

section
variable {s u : State} {cause : BitVec 6} {f : Bool} {tval : Word64} {paddr : Nat} {c : Cause}

theorem exec_trapEntry (hc : c.code = cause) (hf : s.frontTrap = some (c, f, tval, paddr, u)) (hin : s.Handled cause) :
    exec (.trapEntry cause f s.pc tval) s = .next (u.takeTrap cause f s.pc tval paddr) := by
  change execTrapEntry cause f s.pc tval s = _
  simp [execTrapEntry, hf, hc, (inCore_iff s cause).2 hin]

theorem exec_reportAndSuspend (hc : c.code = cause) (hf : s.frontTrap = some (c, f, tval, paddr, u)) (hin : ¬s.Handled cause)
    (hpl : s.k.pl.toNat ≤ 1) : exec (.reportAndSuspend cause f s.pc tval paddr) s = .next (u.takeTrap cause f s.pc tval paddr) := by
  have hno : s.inCore cause = false := Bool.eq_false_iff.2 fun h => hin ((inCore_iff s cause).1 h)
  change execReportAndSuspend cause f s.pc tval paddr s = _
  simp [execReportAndSuspend, hf, hc, hno, hpl]

end

/-- Settles O51: a trap is taken in a state that keeps the unit, and sret returns once its checks have passed. -/
theorem trapsAndReturns : Obligations.TrapsAndReturns := by
  intro s cause f epc tval paddr t same inCore
  refine ⟨?_, ?_, ?_, ?_, ?_, ?_, ?_, ?_, ?_, ?_, ?_, ?_⟩
  · obtain ⟨regs, tiles, mboxes, streams, ident, frame, stores, rob, front⟩ := takeTrap_parked s cause f epc tval paddr
    exact ⟨regs, tiles, mboxes, streams, ident, frame, stores, rob, front⟩
  · intro hin
    obtain ⟨v, hv, heq⟩ := takeTrap_handled s cause f epc tval paddr hin
    obtain ⟨hpl, hrf, hcode, hfetch, hlevel, hrep, hrest⟩ := entered_fields cause f epc tval s.k hin.1
    have ht : t = _ := heq
    rw [ht]
    exact ⟨rfl, rfl, hpl, hrf, BitVec.ofNat_toNat 64 epc, rfl, hcode, hfetch, hlevel, hrep, hrest, rfl, rfl, rfl, rfl, rfl, rfl, rfl⟩
  · intro hin hpl
    obtain ⟨v, hv, heq⟩ := takeTrap_suspends s cause f epc tval paddr hin hpl
    have ht : t = _ := heq
    rw [ht]
    exact ⟨rfl, rfl, hv.k⟩
  · intro hpl
    obtain ⟨v, hv, hm, hn, heq⟩ := takeTrap_halts s cause f epc tval paddr hpl
    have ht : t = _ := heq
    rw [ht]
    refine ⟨rfl, hv.k, ?_⟩
    rw [← hm, ← hn]
    rfl
  · exact fun code => rfl
  · rfl
  · exact fun h => sret_privilege (.inl h)
  · exact fun h => sret_privilege (.inr h)
  · exact sret_misaligned
  · intro hl hlow h3 ha
    exact sret_returns ⟨hl, hlow, h3, ha⟩
  · intro hf
    constructor
    · change execTrapEntry cause f epc tval s = _
      rw [execTrapEntry, hf]
    · change execReportAndSuspend cause f epc tval paddr s = _
      rw [execReportAndSuspend, hf]
  · intro u hrun hsafe hex hrf hepc ht hfront
    obtain ⟨c, hc, hf⟩ := frontTrap_spec hrun hsafe hex hrf ht hfront
    subst hepc
    exact ⟨exec_trapEntry hc hf, exec_reportAndSuspend hc hf⟩

end Sys2Proof.Machine
end

section
/-! Messages (09 R237 to R240; 14 R386, R391). -/

namespace Sys2Proof.Machine

/-! Completion records (09 R242, R243). -/

/-- A completion record has been written in the event ring, or is held. -/
def Logged (s t : State) (p : BitVec 3) : Prop :=
  (t.partAt p).evhead = (s.partAt p).evhead + 1 ∨ (t.partAt p).heldEvents.length = (s.partAt p).heldEvents.length + 1

/-- t is s but for what the memory system holds, the partitions, and the model's counter: what records of partitions change. -/
structure PartsOnly (s t : State) : Prop where
  rest : { t.blankMem with parts := s.parts, tick := s.tick } = s.blankMem
  stores : t.core.sb = s.core.sb

theorem PartsOnly.refl (s : State) : PartsOnly s s := ⟨rfl, rfl⟩

theorem PartsOnly.trans {s t u : State} (h : PartsOnly s t) (k : PartsOnly t u) : PartsOnly s u :=
  ⟨(congrArg (fun v : State => { v with parts := s.parts, tick := s.tick }) k.rest).trans h.rest, k.stores.trans h.stores⟩

theorem MemOnly.partsOnly {s t : State} (h : MemOnly s t) : PartsOnly s t :=
  ⟨congrArg (fun v : State => { v with parts := s.parts, tick := s.tick }) h.rest, h.stores⟩

theorem modPart_partsOnly (s : State) (p : BitVec 3) (f : Part → Part) : PartsOnly s (s.modPart p f) := ⟨rfl, rfl⟩
theorem ticked_partsOnly (s : State) : PartsOnly s s.ticked := ⟨rfl, rfl⟩

theorem PartsOnly.unit {s t : State} (h : PartsOnly s t) : t.core.unit = s.core.unit := by
  have hu := congrArg (·.core.unit) h.rest
  exact hu
theorem PartsOnly.net {s t : State} (h : PartsOnly s t) : t.core.net = s.core.net := by
  have hn := congrArg (·.core.net) h.rest
  exact hn
theorem PartsOnly.mbox {s t : State} (h : PartsOnly s t) (r : BitVec 3) : t.mbox r = s.mbox r := by
  rw [State.mbox, State.mbox, h.unit]

theorem putEvent_partsOnly (s : State) (p : BitVec 3) (ws : List Word64) : PartsOnly s (s.putEvent p ws) := by
  unfold State.putEvent
  exact (recordWrite_memOnly s _ _).partsOnly.trans (modPart_partsOnly _ p _)

theorem eventRecord_partsOnly (s : State) (p : BitVec 3) (ws : List Word64) : PartsOnly s (s.eventRecord p ws) := by
  unfold State.eventRecord
  dsimp only
  split
  · exact putEvent_partsOnly s p ws
  · exact modPart_partsOnly ..

theorem Part.countIrq_evhead (q : Part) : q.countIrq.evhead = q.evhead := by
  rw [Part.countIrq]
  split <;> rfl

theorem eventRecord_logged (s : State) (p : BitVec 3) (ws : List Word64) : Logged s (s.eventRecord p ws) p := by
  unfold State.eventRecord
  dsimp only
  split
  · left
    rw [State.putEvent, partAt_modPart, (recordWrite_memOnly ..).partAt, Part.countIrq_evhead]
  · exact Or.inr (by simp)

/-! The pieces of a delivery. -/

/-- The message is dropped with a record (09 R240). -/
theorem dropRecord_spec (s : State) (k : Msg) (core : Nat) : PartsOnly s (s.dropRecord k core) ∧ Logged s (s.dropRecord k core) k.part :=
  ⟨(eventRecord_partsOnly s _ _).trans (ticked_partsOnly _), eventRecord_logged s _ _⟩

/-- A core runs a unit of the partition, as far as the dispatcher knows (09 R240). -/
def State.Runs (s : State) (p : BitVec 3) (core : Nat) : Prop :=
  ∃ l ∈ (s.partAt p).launches, ∃ u ∈ l.units, (u.place = .here ∧ core = s.core.num.toNat) ∨ u.place = .elsewhere core

theorem runsUnit_iff (s : State) (p : BitVec 3) (core : Nat) : s.runsUnit p core = true ↔ s.Runs p core := by
  simp only [State.runsUnit, State.Runs, List.any_eq_true]
  refine exists_congr fun l => and_congr_right fun _ => exists_congr fun u => and_congr_right fun _ => ?_
  cases u.place with
  | elsewhere c => simpa using eq_comm
  | _ => simp

theorem not_runsUnit {s : State} {p : BitVec 3} {core : Nat} (h : ¬s.Runs p core) : s.runsUnit p core = false :=
  Bool.eq_false_iff.2 fun hr => h ((runsUnit_iff s p core).1 hr)

/-- A message was dropped: no mailbox changed, and a record says so. -/
def Dropped (s t : State) (p : BitVec 3) : Prop := (∀ r, t.mbox r = s.mbox r) ∧ Logged s t p

theorem dropRecord_dropped (s : State) (k : Msg) (core : Nat) : Dropped s (s.dropRecord k core) k.part :=
  ⟨(dropRecord_spec s k core).1.mbox, (dropRecord_spec s k core).2⟩

theorem arrive_empty {s : State} {m : BitVec 3} (h : (s.mbox m).full = false) (v : Word64) : s.arrive m v = some (s.setMbox m ⟨v, true⟩) := by
  rw [State.arrive, h]
  rfl
theorem arrive_full {s : State} {m : BitVec 3} (h : (s.mbox m).full = true) (v : Word64) : s.arrive m v = none := by
  rw [State.arrive, h]
  rfl

section
variable {s : State} {k : Msg}

theorem receive_dropped (hk : k.toUnit = false) (h : ¬s.Runs k.part k.target) : s.receive k = some (s.dropRecord k k.target) := by
  simp [State.receive, hk, not_runsUnit h]
theorem receive_here (hk : k.toUnit = false) (h : s.Runs k.part k.target) (hc : k.target = s.core.num.toNat) :
    s.receive k = s.arrive k.mbox k.value := by
  have hr := (runsUnit_iff ..).2 h
  rw [hc] at hr
  simp [State.receive, hk, hr, hc]
theorem receive_elsewhere (hk : k.toUnit = false) (h : s.Runs k.part k.target) (hc : k.target ≠ s.core.num.toNat) : s.receive k = some s := by
  simp [State.receive, hk, (runsUnit_iff ..).2 h, hc]
theorem receive_noUnit {l : Launch} (hk : k.toUnit = true) (hl : (s.partAt k.part).launch k.launch = some l)
    (hu : l.units.find? (fun u => u.u == k.target) = none) : s.receive k = if l.cancelled then some (s.dropRecord k 0) else none := by
  simp [State.receive, hk, hl, hu]
theorem receive_unit {l : Launch} {u : UnitRec} (hk : k.toUnit = true) (hl : (s.partAt k.part).launch k.launch = some l)
    (hu : l.units.find? (fun u => u.u == k.target) = some u) : s.receive k = match u.place with
      | .here => s.arrive k.mbox k.value
      | .elsewhere _ => if s.core.moving k.part (BitVec.ofNat 32 (l.record.tbase + u.u)) then none else some s
      | .saved slot => if s.slotFull k.part slot then s.arriveSaved k.part slot k.mbox k.value else none
      | _ => some (s.dropRecord k u.core) := by
  simp [State.receive, hk, hl, hu] <;> rfl

end

/-! Sending (09 R237). -/

section
variable {s : State} {m : BitVec 3} {a b : BitVec 5}

theorem pushMsg_ok (h : s.ownSends.length < 8) (toUnit : Bool) (target : Nat) (v : Word64) :
    s.pushMsg toUnit target m v = .ok { s with core.net := s.core.net ++ [⟨toUnit, target, m, v, s.core.unit.ident.part,
      s.core.unit.ident.launch, s.core.unit.ident.task, false⟩] } := by
  rw [State.pushMsg, if_pos h]
theorem pushMsg_wait (h : 8 ≤ s.ownSends.length) (toUnit : Bool) (target : Nat) (v : Word64) :
    s.pushMsg toUnit target m v = .error (.wait .network) := by
  rw [State.pushMsg, if_neg (by omega)]

theorem send_target (h : ¬(bits (s.x a) 63 7 = 0 ∧ (s.partAt s.part).qmask.getLsbD (bits (s.x a) 6 4) = true)) :
    TrapsWith (.send m a b) s .sendTarget (s.x a) := by
  have hno : (bits (s.x a) 63 7 == 0 && (s.partAt s.part).qmask.getLsbD (bits (s.x a) 6 4)) = false :=
    Bool.eq_false_iff.2 fun hb => h (by simpa using hb)
  refine ⟨0, ?_⟩
  change execSend m a b s = _
  rw [execSend]
  simp only [hno, need_false, run_error_bind]
  rfl

theorem send_pushes (h : bits (s.x a) 63 7 = 0 ∧ (s.partAt s.part).qmask.getLsbD (bits (s.x a) 6 4) = true) :
    exec (.send m a b) s = s.finish (do
      let t ← s.pushMsg false (bits (s.x a) 6 0) m (s.x b)
      .ok t.advance) := by
  have hyes : (bits (s.x a) 63 7 == 0 && (s.partAt s.part).qmask.getLsbD (bits (s.x a) 6 4)) = true := by
    simpa using h
  change execSend m a b s = _
  rw [execSend]
  simp only [hyes, need_true, run_ok_bind]

/-- The unit that a word names is one of the sender's launch. -/
def State.NamesUnit (s : State) (v : Word64) : Prop := bits v 63 32 = 0 ∧ ∃ l, s.launch? = some l ∧ bits v 31 0 < l.record.units

theorem namesUnit_iff (s : State) (v : Word64) :
    (bits v 63 32 == 0 && decide (bits v 31 0 < (s.launch?.map (fun l => l.record.units)).getD 0)) = true ↔ s.NamesUnit v := by
  rw [State.NamesUnit]
  cases s.launch? <;> simp

theorem sendU_target (h : ¬s.NamesUnit (s.x a)) : TrapsWith (.sendU m a b) s .sendTarget (s.x a) := by
  refine ⟨0, ?_⟩
  change execSendU m a b s = _
  rw [execSendU]
  simp only [Bool.eq_false_iff.2 fun hn => h ((namesUnit_iff s (s.x a)).1 hn), need_false, run_error_bind]
  rfl

theorem sendU_pushes (h : s.NamesUnit (s.x a)) : exec (.sendU m a b) s = s.finish (do
    let t ← s.pushMsg true (bits (s.x a) 31 0) m (s.x b)
    .ok t.advance) := by
  change execSendU m a b s = _
  rw [execSendU]
  simp only [(namesUnit_iff s (s.x a)).2 h, need_true, run_ok_bind]

end

/-! Arrivals from other cores (09 R238, R240). -/

theorem exec_inbound (s : State) (src : Nat) (p : BitVec 3) (launch task : BitVec 32) (toUnit : Bool) (target : Nat) (m : BitVec 3) (w : Word64) :
    exec (.messageArrival (.inbound src p launch task toUnit target m w)) s
      = .next (s.inboundMsg ⟨toUnit, target, m, w, p, launch, task, false⟩) := rfl

theorem inbound_some {s t : State} {src : Nat} {p : BitVec 3} {launch task : BitVec 32} {toUnit : Bool} {target : Nat} {m : BitVec 3} {w : Word64}
    (h : s.receive ⟨toUnit, target, m, w, p, launch, task, false⟩ = some t) :
    exec (.messageArrival (.inbound src p launch task toUnit target m w)) s = .next t := by
  rw [exec_inbound, State.inboundMsg, h, Option.getD_some]

theorem inbound_none {s : State} {src : Nat} {p : BitVec 3} {launch task : BitVec 32} {toUnit : Bool} {target : Nat} {m : BitVec 3} {w : Word64}
    (h : s.receive ⟨toUnit, target, m, w, p, launch, task, false⟩ = none) :
    exec (.messageArrival (.inbound src p launch task toUnit target m w)) s = .next s := by
  rw [exec_inbound, State.inboundMsg, h, Option.getD_none]

theorem slotFull_false {s : State} {p : BitVec 3} {slot : Nat} (h : ∀ v ∈ (s.partAt p).saved, v.slot = slot → v.image = false) :
    s.slotFull p slot = false := by
  simpa [State.slotFull] using h

/-! Messages of the unit's own interface (09 R238). -/

section
variable {s : State} {i : Nat} {k : Msg}

/-- The oldest message of its sender to one mailbox of one target. -/
theorem msgFirst_of_oldest (hk : s.core.net[i]? = some k)
    (h : ∀ j g, j < i → s.core.net[j]? = some g → ¬(g.part = k.part ∧ g.task = k.task ∧ g.mbox = k.mbox ∧ s.targetOf g = s.targetOf k)) :
    s.msgFirst i = true := by
  rw [State.msgFirst, hk]
  simp only [Bool.not_eq_true', List.any_eq_false]
  intro g hg
  obtain ⟨j, hj⟩ := List.mem_iff_getElem?.1 hg
  rw [List.getElem?_take] at hj
  split at hj
  · next hlt => simpa [and_assoc] using h j g hlt hj
  · cases hj

theorem exec_delivered_refused (hk : s.core.net[i]? = some k) (hr : k.refused = true) : exec (.messageArrival (.delivered i)) s = .next s := by
  change execMessageArrival (.delivered i) s = _
  simp [execMessageArrival, hk, hr]

theorem exec_delivered (hk : s.core.net[i]? = some k) (hfirst : s.msgFirst i = true) (hr : k.refused = false) :
    exec (.messageArrival (.delivered i)) s = .next (s.deliverMsg i k) := by
  change execMessageArrival (.delivered i) s = _
  simp [execMessageArrival, hk, hr, hfirst]

theorem deliverMsg_received {t : State} (h : s.receive k = some t) : s.deliverMsg i k = t.takeMsg i := by rw [State.deliverMsg, h]
theorem deliverMsg_refused (h : s.receive k = none) : s.deliverMsg i k = s.refuseMsg i := by rw [State.deliverMsg, h]

theorem exec_dropped (hk : s.core.net[i]? = some k) (hfirst : s.msgFirst i = true) (hu : k.toUnit = false) (h : ¬s.Runs k.part k.target) :
    exec (.messageArrival (.dropped i)) s = .next ((s.takeMsg i).dropRecord k k.target) := by
  change execMessageArrival (.dropped i) s = _
  simp [execMessageArrival, hk, hfirst, hu, not_runsUnit h]

end

/-- Settles O49: what a message does is decided by where its target is, and by whether the mailbox there is empty. -/
theorem messages : Obligations.Messages := by
  intro s m a b v id own sent coreOk unitOk runs dropped
  refine ⟨send_target, sendU_target, ?_, ?_, ?_, ?_, ?_, ?_, ?_, ?_, ?_⟩
  · intro hok hlen
    rw [Completes, send_pushes hok, pushMsg_ok hlen]
    rfl
  · intro hok hlen
    rw [Completes, sendU_pushes hok, pushMsg_ok hlen]
    rfl
  · intro hok hlen
    rw [Waits, send_pushes hok, pushMsg_wait hlen]
    rfl
  · intro hok hlen
    rw [Waits, sendU_pushes hok, pushMsg_wait hlen]
    rfl
  · intro src p launch task w e
    refine ⟨fun hr hf => inbound_some ?_, fun hr hf => inbound_none ?_, ?_⟩
    · exact (receive_here (k := ⟨false, _, m, w, p, launch, task, false⟩) rfl hr rfl).trans (arrive_empty hf w)
    · exact (receive_here (k := ⟨false, _, m, w, p, launch, task, false⟩) rfl hr rfl).trans (arrive_full hf w)
    · intro core f
      refine ⟨fun hr => ⟨_, inbound_some (receive_dropped (k := ⟨false, core, m, w, p, launch, task, false⟩) rfl hr), ?_⟩,
        fun hr hc => inbound_some (receive_elsewhere (k := ⟨false, core, m, w, p, launch, task, false⟩) rfl hr hc)⟩
      exact dropRecord_dropped s ⟨false, core, m, w, p, launch, task, false⟩ core
  · intro src p launch task w target l hl hu e
    have hrec := receive_noUnit (k := ⟨true, target, m, w, p, launch, task, false⟩) rfl hl hu
    constructor
    · intro hc
      rw [hc] at hrec
      exact ⟨_, inbound_some hrec, dropRecord_dropped s _ 0⟩
    · intro hc
      rw [hc] at hrec
      exact inbound_none hrec
  · intro src p launch task w target l u hl hu e
    have hrec := receive_unit (k := ⟨true, target, m, w, p, launch, task, false⟩) rfl hl hu
    refine ⟨fun hp hf => ?_, fun hp hf => ?_, fun c hp => ?_, fun slot hp hs => ?_, fun c hp => ?_⟩
    all_goals rw [hp] at hrec
    · exact inbound_some (hrec.trans (arrive_empty hf w))
    · exact inbound_none (hrec.trans (arrive_full hf w))
    · dsimp only at hrec
      split at hrec
      · exact inbound_none hrec
      · exact inbound_some hrec
    · exact inbound_none (hrec.trans (if_neg (Bool.eq_false_iff.1 (slotFull_false hs))))
    · exact ⟨_, inbound_some hrec, dropRecord_dropped s _ u.core⟩
  · intro i k hk hold gone held e
    have hfirst := msgFirst_of_oldest hk hold
    refine ⟨exec_delivered_refused hk, fun hr hu hruns => ⟨fun hc hf => ?_, fun hc hf => ?_, fun hc => ?_⟩, fun hu hruns => ⟨fun hr => ?_, ?_⟩,
      fun l u c f hr hu hl hfind hp hf hpart htask hinst => ?_, ?_⟩
    · have hrec := (receive_here hu hruns hc).trans (arrive_empty hf k.value)
      refine ⟨_, (exec_delivered hk hfirst hr).trans (congrArg _ (deliverMsg_received hrec)), ?_, rfl, ?_⟩
      · exact (State.setMbox_mbox ..).trans (if_pos rfl)
      · exact State.setMbox_blankM ..
    · have hrec := (receive_here hu hruns hc).trans (arrive_full hf k.value)
      exact (exec_delivered hk hfirst hr).trans (congrArg _ (deliverMsg_refused hrec))
    · exact (exec_delivered hk hfirst hr).trans (congrArg _ (deliverMsg_received (receive_elsewhere hu hruns hc)))
    · obtain ⟨hparts, hlog⟩ := dropRecord_spec s k k.target
      exact ⟨_, (exec_delivered hk hfirst hr).trans (congrArg _ (deliverMsg_received (receive_dropped hu hruns))),
        congrArg (fun l : List Msg => l.eraseIdx i) hparts.net, hparts.mbox, hlog⟩
    · obtain ⟨hparts, hlog⟩ := dropRecord_spec (s.takeMsg i) k k.target
      exact ⟨_, exec_dropped hk hfirst hu hruns, hparts.net, hparts.mbox, hlog⟩
    · have hmoving : s.core.moving k.part (BitVec.ofNat 32 (l.record.tbase + u.u)) = true :=
        List.any_eq_true.2 ⟨f, hf, by simp [hpart, htask, hinst]⟩
      have hrec := receive_unit hu hl hfind
      rw [hp] at hrec
      exact (exec_delivered hk hfirst hr).trans (congrArg _ (deliverMsg_refused (hrec.trans (if_pos hmoving))))
    · change execMessageArrival (.refused i) s = _
      simp [execMessageArrival, hfirst, State.refuseMsg, held]
  · exact fun i => rfl

end Sys2Proof.Machine
end

section
/-! kget, kset, spt, halt and tlbi (01 R19 to R24; 10 R250, R253, R270, R271; 14 R372, R373, R389). -/

namespace Sys2Proof.Machine

/-! Levels (01 R20). -/

theorem needLevel_ok {s : State} {b : Bool} (h : b = true) : s.needLevel b = .ok () := by rw [h]; rfl

/-- The k.tval of PRIVILEGE, which the manual leaves open. -/
def State.levelVal (s : State) : Word64 := Config.openTval Cause.privilege.code.toNat s.tick

theorem needLevel_error {s : State} {b : Bool} (h : b = false) : s.needLevel b = .error (.trap .privilege s.levelVal 0) := by rw [h]; rfl

theorem pl_eq_two {k : KRegs} : k.pl = 2 ↔ k.pl.toNat = 2 := ⟨fun h => congrArg BitVec.toNat h, fun h => BitVec.eq_of_toNat_eq h⟩
theorem pl_pos {k : KRegs} (h : k.pl ≠ 0) : 1 ≤ k.pl.toNat := Nat.pos_of_ne_zero fun h0 => h (BitVec.eq_of_toNat_eq h0)

/-! kget (14 R372). -/

section
variable {s : State} {d a : BitVec 5} {n : BitVec 15}

theorem kget_completes (h : readLevel n.toNat ≤ s.k.pl.toNat) : Completes (.kget d n) s (s.setX d (s.kread n.toNat)) := by
  change execKget d n s = _
  rw [execKget, needLevel_ok (decide_eq_true h), run_ok_bind]
  rfl

theorem kget_privilege (h : s.k.pl.toNat < readLevel n.toNat) : ∃ t, TrapsWith (.kget d n) s .privilege t := by
  refine ⟨s.levelVal, 0, ?_⟩
  change execKget d n s = _
  rw [execKget, needLevel_error (decide_eq_false (by omega)), run_error_bind]
  rfl

/-- The registers that every level reads, with their values (01 R19, R20). -/
def unitRegs (s : State) : List (BitVec 15 × Word64) :=
  let k := s.k
  let id := s.core.unit.ident
  [(0x000#15, id.unit.zeroExtend 64), (0x001, id.launch.zeroExtend 64), (0x002, id.task.zeroExtend 64),
    (0x003, s.core.num.zeroExtend 64), (0x004, id.org0.zeroExtend 64), (0x005, id.org1.zeroExtend 64), (0x006, id.ext0.zeroExtend 64),
    (0x007, id.ext1.zeroExtend 64), (0x008, id.slice.zeroExtend 64), (0x009, id.nslice.zeroExtend 64), (0x00A, id.part.zeroExtend 64),
    (0x00B, if k.vpin.getLsbD 16 then 0x10000 ||| BitVec.ofNat 64 (k.vpin.toNat % 2 ^ 16) else 0),
    (0x100, BitVec.ofNat 64 (k.pl.toNat + if k.rf then 4 else 0)), (0x101, k.fpmode), (0x102, k.sticky), (0x103, k.repst),
    (0x104, k.repbase), (0x105, k.vpin), (0x106, k.stkhold)]

theorem idVer_eq (k : KRegs) : k.idVer = if k.vpin.getLsbD 16 then 0x10000 ||| BitVec.ofNat 64 (k.vpin.toNat % 2 ^ 16) else 0 := by
  have hor : BitVec.ofNat 64 (2 ^ 16 + k.pinVer.toNat) = 0x10000 ||| BitVec.ofNat 64 (k.vpin.toNat % 2 ^ 16) := by
    apply BitVec.eq_of_toNat_eq
    have hver : k.pinVer.toNat = k.vpin.toNat % 2 ^ 16 := by
      rw [KRegs.pinVer, BitVec.extractLsb'_toNat, Nat.shiftRight_zero]
    have hlow : k.vpin.toNat % 2 ^ 16 < 2 ^ 16 := Nat.mod_lt _ (by decide)
    have hadd := Nat.two_pow_add_eq_or_of_lt hlow 1
    rw [hver, BitVec.toNat_or, BitVec.toNat_ofNat, BitVec.toNat_ofNat, Nat.mod_eq_of_lt (by omega), Nat.mod_eq_of_lt (b := 2 ^ 64) (by omega)]
    simpa using hadd
  rw [KRegs.idVer, hor, KRegs.pinned]

theorem unitRegs_read (s : State) : ∀ p ∈ unitRegs s, readLevel p.1.toNat = 0 ∧ s.kread p.1.toNat = p.2 := by
  simp only [unitRegs, List.forall_mem_cons]
  exact ⟨⟨rfl, rfl⟩, ⟨rfl, rfl⟩, ⟨rfl, rfl⟩, ⟨rfl, rfl⟩, ⟨rfl, rfl⟩, ⟨rfl, rfl⟩, ⟨rfl, rfl⟩, ⟨rfl, rfl⟩, ⟨rfl, rfl⟩, ⟨rfl, rfl⟩, ⟨rfl, rfl⟩,
    ⟨rfl, idVer_eq s.k⟩, ⟨rfl, rfl⟩, ⟨rfl, rfl⟩, ⟨rfl, rfl⟩, ⟨rfl, rfl⟩, ⟨rfl, rfl⟩, ⟨rfl, rfl⟩, ⟨rfl, rfl⟩, fun p hp => nomatch hp⟩

/-- The registers that supervisor level reads (14 R361). -/
def handlerRegs (k : KRegs) : List (BitVec 15 × Word64) :=
  [(0x200#15, k.tvec), (0x201, k.tcause), (0x202, k.epc), (0x203, k.tval), (0x204, k.tdeleg)]

theorem handlerRegs_read (s : State) : ∀ p ∈ handlerRegs s.k, readLevel p.1.toNat = 1 ∧ s.kread p.1.toNat = p.2 := by
  simp only [handlerRegs, List.forall_mem_cons]
  exact ⟨⟨rfl, rfl⟩, ⟨rfl, rfl⟩, ⟨rfl, rfl⟩, ⟨rfl, rfl⟩, ⟨rfl, rfl⟩, fun p hp => nomatch hp⟩

/-! kset (14 R372). -/

/-- A register of the unit, not k.l2map. -/
theorem kset_completes (hn : n ≠ 0x300) (h : writeLevel n.toNat ≤ s.k.pl.toNat) : Completes (.kset a n) s (s.setK (s.k.write n.toNat (s.x a))) := by
  change execKset a n s = _
  rw [execKset, if_neg (by simp [show ¬n = 0x300#15 from hn]), needLevel_ok (decide_eq_true h), run_ok_bind]
  rfl

theorem kset_privilege (h : s.k.pl.toNat < writeLevel n.toNat) (hn : n = 0x300 → s.k.pl.toNat < 2) : ∃ t, TrapsWith (.kset a n) s .privilege t := by
  have hl2 : ¬(n == 0x300 && s.k.pl == 2) = true := by
    intro hb
    obtain ⟨hn', hpl⟩ := (Bool.and_eq_true _ _).mp hb
    have := hn (eq_of_beq hn')
    have := pl_eq_two.1 (eq_of_beq hpl)
    omega
  refine ⟨s.levelVal, 0, ?_⟩
  change execKset a n s = _
  rw [execKset, if_neg hl2, needLevel_error (decide_eq_false (by omega)), run_error_bind]
  rfl

/-- The registers that a unit writes, with what they then hold (01 R23, R24). -/
def unitWrites (k : KRegs) (v : Word64) : List (BitVec 15 × KRegs) :=
  [(0x101#15, { k with fpmode := BitVec.ofNat 64 (v.toNat % 2 ^ 3) }), (0x102, { k with sticky := BitVec.ofNat 64 (v.toNat % 2 ^ 3) })]

theorem unitWrites_write (k : KRegs) (v : Word64) : ∀ p ∈ unitWrites k v, p.1 ≠ 0x300 ∧ writeLevel p.1.toNat = 0 ∧ k.write p.1.toNat v = p.2 := by
  simp only [unitWrites, List.forall_mem_cons]
  exact ⟨⟨by decide, rfl, rfl⟩, ⟨by decide, rfl, rfl⟩, fun p hp => nomatch hp⟩

/-- The registers that supervisor level writes (01 R39; 12 R321; 14 R361). -/
def handlerWrites (k : KRegs) (v : Word64) : List (BitVec 15 × KRegs) :=
  [(0x103#15, { k with repst := BitVec.ofNat 64 (v.toNat % 2 ^ 33) }), (0x104, { k with repbase := BitVec.ofNat 64 (bits v 55 2 * 4) }),
    (0x106, { k with stkhold := BitVec.ofNat 64 (min (bits v 10 0) 1024 + if v.getLsbD 11 then 2 ^ 11 else 0) }),
    (0x200, { k with tvec := BitVec.ofNat 64 (bits v 55 2 * 4) }), (0x201, { k with tcause := BitVec.ofNat 64 (v.toNat % 2 ^ 10) }),
    (0x202, { k with epc := BitVec.ofNat 64 (v.toNat % 2 ^ 56) }), (0x203, { k with tval := v })]

theorem handlerWrites_write (k : KRegs) (v : Word64) :
    ∀ p ∈ handlerWrites k v, p.1 ≠ 0x300 ∧ writeLevel p.1.toNat = 1 ∧ k.write p.1.toNat v = p.2 := by
  simp only [handlerWrites, List.forall_mem_cons]
  exact ⟨⟨by decide, rfl, rfl⟩, ⟨by decide, rfl, rfl⟩, ⟨by decide, rfl, rfl⟩, ⟨by decide, rfl, rfl⟩, ⟨by decide, rfl, rfl⟩,
    ⟨by decide, rfl, rfl⟩, ⟨by decide, rfl, rfl⟩, fun p hp => nomatch hp⟩

/-! The interleave map (10 R253; 16 R407). -/

theorem kset_l2map (h : s.k.pl = 2) : exec (.kset a 0x300) s = s.ksetL2map (s.x a) := by
  change execKset a 0x300 s = _
  rw [execKset, if_pos (by simp [h])]

theorem ksetL2map_stale {v : Word64} (hs : s.dev.l2.switching = none) (h : bits v 3 0 ≠ (bits s.dev.l2.reg 3 0 + 1) % 16) :
    s.ksetL2map v = .next (s.trapHere .l2mapInvalid 8 0) := by
  rw [State.ksetL2map, hs]
  simp only [State.needL2map, beq_eq_false_iff_ne.2 h, need_false, run_error_bind]
  rfl

theorem ksetL2map_bad {v : Word64} {i : Nat} (hs : s.dev.l2.switching = none) (h : bits v 3 0 = (bits s.dev.l2.reg 3 0 + 1) % 16)
    (hb : s.dev.badEntry (s.readTable (bits v 51 12)) = some i) : s.ksetL2map v = .next (s.trapHere .l2mapInvalid (BitVec.ofNat 64 i) 0) := by
  rw [State.ksetL2map, hs]
  simp only [State.needL2map, beq_iff_eq.2 h, need_true, run_ok_bind, hb]
  rfl

theorem ksetL2map_good {v : Word64} (hs : s.dev.l2.switching = none) (h : bits v 3 0 = (bits s.dev.l2.reg 3 0 + 1) % 16)
    (hb : s.dev.badEntry (s.readTable (bits v 51 12)) = none) : s.ksetL2map v = .next { s with
      dev.l2.switching := some (BitVec.ofNat 64 (bits v 3 0 + bits v 51 12 * 4096), s.readTable (bits v 51 12)), core.wait := .other } := by
  rw [State.ksetL2map, hs]
  simp only [State.needL2map, beq_iff_eq.2 h, need_true, run_ok_bind, hb, l2mapOf]

/-- Every slice has acknowledged the table that is being broadcast, and every handoff is complete (16 R407). -/
theorem ksetL2map_done {v reg : Word64} {es : List (Word64 × Word64)} (hs : s.dev.l2.switching = some (reg, es))
    (h : (∀ g ∈ s.dev.l2.slices.toList, g.toNat = bits reg 3 0) ∧ s.dev.l2.handoffs = []) : s.ksetL2map v = .next
      (State.advance { s with dev.l2 := { s.dev.l2 with reg := reg, entries := es, switching := none, core := reg.setWidth 4 } }) := by
  have hall : (s.dev.l2.slices.all (fun g => g.toNat == bits reg 3 0) && s.dev.l2.handoffs.isEmpty) = true := by
    rw [← Vector.all_toList, Bool.and_eq_true, List.all_eq_true, List.isEmpty_iff]
    exact ⟨fun g hg => beq_iff_eq.2 (h.1 g hg), h.2⟩
  simp only [State.ksetL2map, hs, hall, if_true]

theorem ksetL2map_waits {v reg : Word64} {es : List (Word64 × Word64)} (hs : s.dev.l2.switching = some (reg, es))
    (h : (∃ g ∈ s.dev.l2.slices.toList, g.toNat ≠ bits reg 3 0) ∨ s.dev.l2.handoffs ≠ []) :
    s.ksetL2map v = .next { s with core.wait := .other } := by
  have hno : (s.dev.l2.slices.all (fun g => g.toNat == bits reg 3 0) && s.dev.l2.handoffs.isEmpty) = false := by
    rw [← Vector.all_toList, Bool.and_eq_false_iff]
    rcases h with ⟨g, hg, hne⟩ | h
    · exact Or.inl (List.all_eq_false.2 ⟨g, hg, by simpa using hne⟩)
    · exact Or.inr (by simpa using h)
  simp only [State.ksetL2map, hs, hno, Bool.false_eq_true, if_false]

/-! spt and halt (14 R373, R389). -/

theorem exec_spt (s : State) (a : BitVec 5) : exec (.spt a) s = if (s.partAt s.part).pmode && s.k.pl == 0 && s.core.evictReq.isSome
      && (s.partAt s.part).freeSlot.isSome then .next { s.advance with core.safe := some ((s.x a).setWidth 16) } else .next s.advance := rfl

theorem halt_level (h : s.k.pl.toNat ≠ 2) : ∃ t, TrapsWith .halt s .privilege t := by
  refine ⟨s.levelVal, 0, ?_⟩
  change execHalt s = _
  rw [execHalt, needLevel_error (beq_eq_false_iff_ne.2 fun hpl => h (pl_eq_two.1 hpl)), run_error_bind]
  rfl

theorem halt_completes (h : s.k.pl.toNat = 2) (hsb : s.core.sb = []) : exec .halt s = .next ((s.retired false).haltReport 0 (s.pc + 4)) := by
  change execHalt s = _
  rw [execHalt, needLevel_ok (beq_iff_eq.2 (pl_eq_two.2 h)), run_ok_bind, settleStores_of_empty hsb, run_ok_bind]
  rfl

/-! tlbi (10 R270, R271). -/

/-- The state without the translations that a tlbi removes. -/
def State.flushed (s : State) (hit : Nat → Nat → Bool) : State :=
  ({ s with core.tlb := s.core.tlb.filter (fun e => !(e.part == s.part && e.hitBy hit)), dev.hier := s.dev.hier.flush s.part hit } : State).modPart
    s.part (fun q => { q with launches := q.launches.map (fun l => { l with xlat := l.xlat.filter (fun k => !hit (k.1 * 4096) k.2.2) }) })

theorem flushed_launches (s : State) (hit : Nat → Nat → Bool) : ((s.flushed hit).partAt s.part).launches
    = (s.partAt s.part).launches.map (fun l => { l with xlat := l.xlat.filter (fun e => !hit (e.1 * 4096) e.2.2) }) := by
  rw [State.flushed, partAt_modPart]
  rfl

theorem tlbi_level {hit : Nat → Nat → Bool} (h : s.k.pl = 0) : tlbi hit s = .next (s.trapHere .privilege s.levelVal 0) := by
  rw [tlbi, needLevel_error (by simp [h]), run_error_bind]
  rfl

theorem tlbi_waits {hit : Nat → Nat → Bool} (h : s.k.pl ≠ 0) (hs : Settled s) (hg : ∃ g ∈ s.heldPages, hit g.1 g.2 = true) :
    tlbi hit s = .next { s with core.wait := .other } := by
  have hany : s.heldPages.any (fun g => hit g.1 g.2) = true := List.any_eq_true.2 hg
  rw [tlbi, needLevel_ok (bne_iff_ne.2 h), run_ok_bind, hs.settleAll, run_ok_bind]
  simp only [hany, if_true, run_error_bind]
  rfl

theorem tlbi_completes {hit : Nat → Nat → Bool} (h : s.k.pl ≠ 0) (hs : Settled s) (hg : ∀ g ∈ s.heldPages, hit g.1 g.2 = false) :
    tlbi hit s = .next (s.flushed hit).advance := by
  have hany : s.heldPages.any (fun g => hit g.1 g.2) = false := List.any_eq_false.2 fun g hg' => by simp [hg g hg']
  rw [tlbi, needLevel_ok (bne_iff_ne.2 h), run_ok_bind, hs.settleAll, run_ok_bind]
  simp only [hany, Bool.false_eq_true, if_false]
  rfl

/-- The three forms, by what they remove. -/
theorem exec_tlbi {i : Instr} {hit : Nat → Nat → Bool} {w : BitVec 7}
    (h : (i = .tlbiAll ∧ hit = fun _ _ => true) ∨ (i = .tlbiVa a ∧ hit = fun b n => b / 2 ^ n == addrOf (s.x a) / 2 ^ n)
      ∨ (i = .tlbiBlk a w ∧ hit = fun b n => b / 2 ^ max n w.toNat == addrOf (s.x a) / 2 ^ max n w.toNat)) : exec i s = tlbi hit s := by
  rcases h with ⟨rfl, rfl⟩ | ⟨rfl, rfl⟩ | ⟨rfl, rfl⟩
  · rfl
  · have hhit : (fun b n => pagesMeet b n (addrOf (s.x a)) 0) = fun b n => b / 2 ^ n == addrOf (s.x a) / 2 ^ n := by
      funext b n
      rw [pagesMeet, Nat.max_zero]
    exact congrArg (tlbi · s) hhit
  · rfl

end

/-- Settles O50: a register by its row in the tables of those that a level reads and writes, the rest instruction by instruction. -/
theorem systemRegisters : Obligations.SystemRegisters := by
  intro s d a n k id v low
  refine ⟨fun w hw => ?_, fun w hw => ?_, fun h => ?_, fun h => ?_, fun k' hk => ?_, fun k' hk => ?_, fun h => ?_, fun h => ⟨?_, ?_⟩,
    fun hn h => ?_, fun h hs => ⟨fun hv => ?_, fun i hv hb => ?_, fun hv hb => ?_⟩, fun reg es h hs => ⟨fun hg hh => ?_, fun hw => ?_⟩, ?_,
    fun h hsb => ?_, halt_level, fun i hit w hi => ?_⟩
  · obtain ⟨hlevel, hval⟩ := unitRegs_read s _ hw
    exact ⟨_, kget_completes (hlevel ▸ Nat.zero_le _), hval ▸ SetsX.of_setX s d _⟩
  · obtain ⟨hlevel, hval⟩ := handlerRegs_read s _ hw
    exact ⟨fun h => ⟨_, kget_completes (hlevel ▸ pl_pos h), hval ▸ SetsX.of_setX s d _⟩, fun h => kget_privilege (by rw [hlevel, h]; decide)⟩
  · exact kget_privilege h
  · exact ⟨_, kget_completes (Nat.le_of_eq h.symm), SetsX.of_setX s d _⟩
  · obtain ⟨hne, hlevel, hval⟩ := unitWrites_write k v _ hk
    rw [show k' = k.write n.toNat v from hval.symm]
    exact kset_completes hne (hlevel ▸ Nat.zero_le _)
  · obtain ⟨hne, hlevel, hval⟩ := handlerWrites_write k v _ hk
    rw [show k' = k.write n.toNat v from hval.symm]
    exact ⟨fun h => kset_completes hne (hlevel ▸ pl_pos h), fun h => kset_privilege (by rw [hlevel, h]; decide) fun hn => absurd hn hne⟩
  · exact kset_completes (by decide) (Nat.le_of_eq h.symm)
  · exact kset_privilege h fun hn => absurd hn (by decide)
  · exact kset_privilege h fun _ => h
  · have hnever : writeLevel n.toNat = 3 ∧ n ≠ 0x300 := by
      rcases List.mem_pair.1 hn with rfl | rfl <;> decide
    exact kset_privilege (hnever.1 ▸ h) fun hn => absurd hn hnever.2
  · exact ⟨0, (kset_l2map (pl_eq_two.2 h)).trans (ksetL2map_stale hs hv)⟩
  · exact ⟨0, (kset_l2map (pl_eq_two.2 h)).trans (ksetL2map_bad hs hv hb)⟩
  · exact (kset_l2map (pl_eq_two.2 h)).trans (ksetL2map_good hs hv hb)
  · exact (kset_l2map (pl_eq_two.2 h)).trans (ksetL2map_done hs ⟨hg, hh⟩)
  · exact (kset_l2map (pl_eq_two.2 h)).trans (ksetL2map_waits hs hw)
  · intro stops
    have hiff : ((s.partAt s.part).pmode && s.k.pl == 0 && s.core.evictReq.isSome && (s.partAt s.part).freeSlot.isSome) = true ↔ stops := by
      simp only [Bool.and_eq_true, beq_iff_eq, and_assoc, stops, k]
    exact ⟨fun h => (exec_spt s a).trans (if_pos (hiff.2 h)), fun h => (exec_spt s a).trans (if_neg fun hb => h (hiff.1 hb))⟩
  · exact ⟨_, halt_completes h hsb, rfl, rfl, rfl, rfl⟩
  · have hexec := exec_tlbi hi
    exact ⟨fun h => ⟨s.levelVal, 0, hexec.trans (tlbi_level h)⟩, fun h hs hg => hexec.trans (tlbi_waits h hs hg),
      fun h hs hg => ⟨_, hexec.trans (tlbi_completes h hs hg), rfl, rfl, rfl, rfl, flushed_launches s hit, rfl⟩⟩

end Sys2Proof.Machine
end

section
/-! Semaphore, memory clock, energy interval and links (16 R415 to R423). -/

namespace Sys2Proof.Machine

/-! What the device's registers take (18 R441, R447; 16 R419). -/

/-- The device answers at its ports. -/
def State.Up (s : State) : Prop := s.mgmt.boot ≠ .recovery ∧ s.mgmt.boot ≠ .tripped

theorem deviceUp_iff (s : State) : s.deviceUp = true ↔ s.Up := by simp [State.deviceUp, State.Up]

theorem ifUp_up {s : State} (h : s.Up) (t : State) : s.ifUp t = t := if_pos ((deviceUp_iff s).2 h)
theorem ifUp_down {s : State} (h : ¬s.Up) (t : State) : s.ifUp t = s := if_neg fun hu => h ((deviceUp_iff s).1 hu)

/-- The semaphore is held by the source's kind. -/
def State.Mine (s : State) (src : Source) : Prop := s.dev.sem.held = true ∧ s.dev.sem.owner.extractLsb' 14 2 = (match src with
  | .port k => BitVec.ofNat 2 k.val
  | .service _ => 2)

theorem guarded_iff (s : State) (src : Source) : s.guarded src = true ↔ s.Mine src := by
  have howner : s.dev.sem.owner.toNat / 2 ^ 14 = (s.dev.sem.owner.extractLsb' 14 2).toNat := by
    rw [BitVec.extractLsb'_toNat, Nat.shiftRight_eq_div_pow]
    omega
  have hcode : BitVec.ofNat 2 (sourceCode src) = (match src with
      | .port k => BitVec.ofNat 2 k.val
      | .service _ => 2) ∧ sourceCode src < 4 := by
    cases src with
    | port k => exact ⟨rfl, by simp only [sourceCode]; omega⟩
    | service q => exact ⟨rfl, show 2 < 4 by decide⟩
  unfold State.Mine
  rw [State.guarded, Bool.and_eq_true, beq_iff_eq, howner, ← hcode.1]
  refine and_congr_right fun _ => ⟨fun h => BitVec.eq_of_toNat_eq ?_, fun h => ?_⟩
  · rw [h, BitVec.toNat_ofNat, Nat.mod_eq_of_lt hcode.2]
  · rw [h, BitVec.toNat_ofNat, Nat.mod_eq_of_lt hcode.2]

theorem guard_mine {s : State} {src : Source} (h : s.Mine src) (f : State → State) : s.guard src f = f s := if_pos ((guarded_iff s src).2 h)
theorem guard_other {s : State} {src : Source} (h : ¬s.Mine src) (f : State → State) : s.guard src f = { s with dev.sem.gerr := true } :=
  if_neg fun hg => h ((guarded_iff s src).1 hg)

/-! The semaphore (16 R418). -/

section
variable {s : State} {src : Source} {owner : BitVec 16} {lease : BitVec 30}

theorem acquire_grants (hu : s.Up) (h : s.dev.sem.held = false) (hl : lease ≠ 0) : exec (.semaphoreAcquire src owner lease) s
    = .next { s with dev.sem := ⟨owner, true, s.dev.sem.gerr, lease⟩ } := by
  change Host.Outcome.next (s.ifUp _) = _
  rw [ifUp_up hu, h, if_neg (by simpa using hl)]

theorem acquire_ignored (h : ¬s.Up ∨ s.dev.sem.held = true ∨ lease = 0) : exec (.semaphoreAcquire src owner lease) s = .next s := by
  change Host.Outcome.next (s.ifUp _) = _
  by_cases hu : s.Up
  · rw [ifUp_up hu, if_pos (by simpa using h.resolve_left (not_not.2 hu))]
  · rw [ifUp_down hu]

theorem holds_iff : s.holds owner = true ↔ s.dev.sem.held = true ∧ s.dev.sem.owner = owner := by simp [State.holds]

theorem release_held (hu : s.Up) (h : s.dev.sem.held = true) (ho : s.dev.sem.owner = owner) :
    exec (.semaphoreRelease owner) s = .next { s with dev.sem.held := false } := by
  change Host.Outcome.next (s.ifUp _) = _
  rw [ifUp_up hu, if_pos (holds_iff.2 ⟨h, ho⟩)]

theorem release_ignored (h : ¬s.Up ∨ s.dev.sem.held = false ∨ s.dev.sem.owner ≠ owner) : exec (.semaphoreRelease owner) s = .next s := by
  change Host.Outcome.next (s.ifUp _) = _
  by_cases hu : s.Up
  · rw [ifUp_up hu, if_neg ?_]
    rw [holds_iff]
    rcases h.resolve_left (not_not.2 hu) with h | h
    · simp [h]
    · exact fun hh => h hh.2
  · rw [ifUp_down hu]

theorem renew_held (hu : s.Up) (h : s.dev.sem.held = true) (ho : s.dev.sem.owner = owner) (hl : lease ≠ 0) :
    exec (.semaphoreRenew owner lease) s = .next { s with dev.sem := { s.dev.sem with lease := lease } } := by
  change Host.Outcome.next (s.ifUp _) = _
  rw [ifUp_up hu, if_pos ?_]
  rw [Bool.and_eq_true, holds_iff]
  exact ⟨⟨h, ho⟩, bne_iff_ne.2 hl⟩

theorem renew_ignored (h : ¬s.Up ∨ s.dev.sem.held = false ∨ s.dev.sem.owner ≠ owner ∨ lease = 0) :
    exec (.semaphoreRenew owner lease) s = .next s := by
  change Host.Outcome.next (s.ifUp _) = _
  by_cases hu : s.Up
  · rw [ifUp_up hu, if_neg ?_]
    rw [Bool.and_eq_true, holds_iff, bne_iff_ne]
    rcases h.resolve_left (not_not.2 hu) with h | h | h
    · simp [h]
    · exact fun hh => h hh.1.2
    · exact fun hh => hh.2 h
  · rw [ifUp_down hu]

theorem clearGerr_up (hu : s.Up) : exec .semaphoreClearGerr s = .next { s with dev.sem.gerr := false } := by
  change Host.Outcome.next (s.ifUp _) = _
  rw [ifUp_up hu]

/-! Guarded writes (16 R416, R419, R423). -/

theorem deviceNumber_up (hu : s.Up) (n : BitVec 3) :
    exec (.deviceNumber src n) s = .next (s.guard src (fun t => { t with dev.devnum := n })) := by
  change Host.Outcome.next (s.ifUp _) = _
  rw [ifUp_up hu]

theorem req_up (hu : s.Up) (point : BitVec 2) (wlim : BitVec 32) :
    exec (.req src point wlim) s = .next (s.guard src (fun t => t.setReq point wlim)) := by
  change Host.Outcome.next (s.ifUp _) = _
  rw [ifUp_up hu]

theorem setReq_eq (point : BitVec 2) (wlim : BitVec 32) : s.setReq point wlim = { s with dev.clk := { s.dev.clk with
    req := point, wlim := wlim, abnd := false, pend := decide (s.dev.clk.pend = true ∨ point ≠ s.dev.clk.cur) } } := by
  have hpend : (s.dev.clk.pend || point != s.dev.clk.cur) = decide (s.dev.clk.pend = true ∨ point ≠ s.dev.clk.cur) := by
    rw [Bool.eq_iff_iff]
    simp
  rw [State.setReq, hpend]

/-! The memory clock (16 R416). -/

/-- Every partition is held or empty, and no command is in flight. -/
def State.Free (s : State) : Prop :=
  (∀ p : Fin 8, s.parts[p].en = false ∨ s.parts[p].held = true ∨ s.parts[p].resident s.core.num.toNat = 0) ∧ s.inFlight = 0

theorem clockFree_iff (s : State) : s.clockFree = true ↔ s.Free := by
  rw [State.clockFree, State.Free, Bool.and_eq_true, beq_iff_eq, Vector.all_toList, Vector.all_eq_true]
  refine and_congr_left fun _ => ⟨fun h p => ?_, fun h i hi => ?_⟩
  · simpa [or_assoc] using h p.val p.isLt
  · simpa [or_assoc] using h ⟨i, hi⟩

theorem unhold_parts (s : State) (p : Fin 8) : s.unhold.parts[p] = { s.parts[p] with held := false } := by
  simp [State.unhold]

theorem pointChange_free (hp : s.dev.clk.pend = true) (h : s.Free) : exec .hbmPointChange s
    = .next (State.unhold { s with dev.clk := { s.dev.clk with cur := s.dev.clk.req, pend := false } }) := by
  change Host.Outcome.next (if _ then _ else _) = _
  rw [if_pos (by rw [hp, (clockFree_iff s).2 h]; rfl)]

theorem pointChange_ignored (h : s.dev.clk.pend = false ∨ ¬s.Free) : exec .hbmPointChange s = .next s := by
  change Host.Outcome.next (if _ then _ else _) = _
  rw [if_neg ?_]
  rw [Bool.and_eq_true, clockFree_iff]
  rcases h with h | h
  · simp [h]
  · exact fun hh => h hh.2

theorem waitLimit_expires (hp : s.dev.clk.pend = true) (hw : s.dev.clk.wlim ≠ 0) : exec .waitLimitExpiry s
    = .next (State.unhold { s with dev.clk := { s.dev.clk with pend := false, abnd := true } }) := by
  change Host.Outcome.next (if _ then _ else _) = _
  rw [if_pos (by rw [hp, bne_iff_ne.2 hw]; rfl)]

theorem waitLimit_ignored (h : s.dev.clk.pend = false ∨ s.dev.clk.wlim = 0) : exec .waitLimitExpiry s = .next s := by
  change Host.Outcome.next (if _ then _ else _) = _
  rw [if_neg]
  rcases h with h | h <;> simp [h]

/-! Energy (16 R415). -/

/-- A partition at the start of its interval. -/
def State.intervalPart (s : State) (p : Fin 8) (k : Part) : Part :=
  if k.budgetSet then { k with eremain := k.budget, ecount := k.ecount + Config.energyUsed p.val s.tick } else k

theorem intervalStart (p : Fin 8) : ∃ t, exec (.energyIntervalStart p) s = .next t
    ∧ (t.parts[p]).eremain = (if (s.parts[p]).budgetSet then (s.parts[p]).budget else (s.parts[p]).eremain)
    ∧ (∀ r : Fin 8, r ≠ p → t.parts[r] = s.parts[r]) ∧ t.core = s.core := by
  refine ⟨_, rfl, ?_, fun r hr => ?_, rfl⟩
  · refine (congrArg Part.eremain (partAt_modPart s (BitVec.ofFin p) (State.intervalPart s p))).trans ?_
    change Part.eremain (if (s.parts[p]).budgetSet then _ else s.parts[p]) = _
    split <;> rfl
  · exact Vector.getElem_set_ne p.isLt _ fun h => hr (Fin.ext h.symm)

/-! A device that does not answer (18 R441, R447). -/

theorem down_ignores (h : ¬s.Up) (src : Source) (owner : BitVec 16) (lease : BitVec 30) (n far : BitVec 3) (point : BitVec 2) (wlim : BitVec 32)
    (l : Fin 12) : exec (.semaphoreAcquire src owner lease) s = .next s ∧ exec (.semaphoreRelease owner) s = .next s
      ∧ exec (.semaphoreRenew owner lease) s = .next s ∧ exec .semaphoreClearGerr s = .next s ∧ exec (.deviceNumber src n) s = .next s
      ∧ exec (.req src point wlim) s = .next s ∧ exec (.linkUp l far) s = .next s :=
  have hd (t : State) : Host.Outcome.next (s.ifUp t) = (Host.Outcome.next s : Out) := congrArg _ (ifUp_down h t)
  ⟨hd _, hd _, hd _, hd _, hd _, hd _, hd _⟩

theorem linkUp_up (hu : s.Up) (l : Fin 12) (far : BitVec 3) : exec (.linkUp l far) s = .next (s.modLink l (fun k => { k with up := true, far := far })) := by
  change Host.Outcome.next (s.ifUp _) = _
  rw [ifUp_up hu]

end

/-- Settles O58: each write by whether the device answers, and by whether its source or owner holds the semaphore. -/
theorem controlRegisters : Obligations.ControlRegisters := by
  intro s m c sem up
  refine ⟨fun hu src owner lease => ⟨fun h hl => ⟨_, acquire_grants hu h hl, rfl, rfl⟩, fun h => acquire_ignored (.inr h)⟩,
    fun hu owner => ⟨fun h ho => ⟨_, release_held hu h ho, rfl, rfl, rfl⟩, fun h => release_ignored (.inr h)⟩,
    fun hu owner lease => ⟨renew_held hu, fun h => renew_ignored (.inr h)⟩, fun hu => ⟨_, clearGerr_up hu, rfl, rfl⟩, ⟨_, rfl, rfl, rfl⟩,
    ?guarded, ⟨fun hp hf => ⟨_, pointChange_free hp hf, rfl, unhold_parts _, rfl, rfl⟩, pointChange_ignored⟩,
    fun hp hw => ⟨_, waitLimit_expires hp hw, rfl, unhold_parts _, rfl, rfl⟩, waitLimit_ignored, ?energy, ?links, ?down⟩
  case guarded =>
    intro hu src n point wlim mine
    refine ⟨fun hm => ⟨?_, ?_⟩, fun hm => ?_, fun hm => ?_⟩
    · rw [deviceNumber_up hu, guard_other hm]
    · rw [req_up hu, guard_other hm]
    · rw [deviceNumber_up hu, guard_mine hm]
    · rw [req_up hu, guard_mine hm, setReq_eq]
  case energy => exact intervalStart
  case links =>
    intro l far set
    exact ⟨fun hu => linkUp_up hu l far, rfl, rfl⟩
  case down => exact down_ignores

end Sys2Proof.Machine
end

section
/-! Clocks, trip, boot, lock, attestation, announcements and the management target (18 R438 to R450). -/

namespace Sys2Proof.Machine

/-! Announcements (18 R443). -/

/-- The change of the region that memory describes is refused: a name of the region is live. -/
def State.Refused (s : State) (r : Fin 16) : Prop :=
  (s.beryl.regions[r]).breaks (s.descriptor r.val) = true ∧ ∃ k ∈ s.beryl.blocks, k.region = BitVec.ofFin r

theorem refused_iff (s : State) (r : Fin 16) :
    ((s.beryl.regions[r]).breaks (s.descriptor r.val) && s.beryl.blocks.any (fun k => k.region == BitVec.ofFin r)) = true ↔ s.Refused r := by
  simp [State.Refused]

/-- t is s but for regions and what an announcement reports. -/
structure Announced (s t : State) : Prop where
  mem : t.mem = s.mem
  core : t.core = s.core
  btab : t.mgmt.btab = s.mgmt.btab
  blocks : t.beryl.blocks = s.beryl.blocks

theorem Announced.trans {s t u : State} (h : Announced s t) (k : Announced t u) : Announced s u :=
  ⟨k.mem.trans h.mem, k.core.trans h.core, k.btab.trans h.btab, k.blocks.trans h.blocks⟩

theorem Announced.descriptor {s t : State} (h : Announced s t) (r : Nat) : t.descriptor r = s.descriptor r := by
  rw [State.descriptor, State.descriptor, h.mem, h.btab]

theorem Announced.refused {s t : State} (h : Announced s t) {r : Fin 16} (hr : t.beryl.regions[r] = s.beryl.regions[r]) :
    t.Refused r ↔ s.Refused r := by
  rw [State.Refused, State.Refused, hr, h.descriptor, h.blocks]

theorem bit_of_two_pow (r a : Fin 16) : (BitVec.ofNat 16 (2 ^ a.val)).getLsbD r.val = decide (r = a) := by
  revert r a
  decide

section
variable (s : State) (a : Fin 16)

theorem announceOne_refused (h : s.Refused a) : s.announceOne a = { s with mgmt.brefu := s.mgmt.brefu ||| BitVec.ofNat 16 (2 ^ a.val) } := by
  unfold State.announceOne
  dsimp only
  rw [if_pos ((refused_iff s a).2 h)]

theorem announceOne_taken (h : ¬s.Refused a) :
    s.announceOne a = { s with beryl.regions := s.beryl.regions.set a.val (s.descriptor a.val) } := by
  unfold State.announceOne
  dsimp only
  rw [if_neg fun hb => h ((refused_iff s a).1 hb)]

theorem announceOne_spec : Announced s (s.announceOne a)
    ∧ (¬s.Refused a → (s.announceOne a).beryl.regions[a] = s.descriptor a.val)
    ∧ (∀ r : Fin 16, r ≠ a ∨ s.Refused a → (s.announceOne a).beryl.regions[r] = s.beryl.regions[r])
    ∧ ∀ r : Fin 16, (s.announceOne a).mgmt.brefu.getLsbD r.val = true ↔ s.mgmt.brefu.getLsbD r.val = true ∨ r = a ∧ s.Refused a := by
  by_cases h : s.Refused a
  · rw [announceOne_refused s a h]
    refine ⟨⟨rfl, rfl, rfl, rfl⟩, fun hn => absurd h hn, fun r _ => rfl, fun r => ?_⟩
    change (s.mgmt.brefu ||| BitVec.ofNat 16 (2 ^ a.val)).getLsbD r.val = true ↔ _
    rw [BitVec.getLsbD_or, bit_of_two_pow]
    simp [h]
  · rw [announceOne_taken s a h]
    refine ⟨⟨rfl, rfl, rfl, rfl⟩, fun _ => ?_, fun r hr => ?_, fun r => ?_⟩
    · exact Vector.getElem_set_self a.isLt
    · exact Vector.getElem_set_ne a.isLt r.isLt fun hv => (hr.resolve_right h) (Fin.ext hv.symm)
    · simp [h]

end

theorem announceAll_spec (l : List (Fin 16)) (s : State) (hl : l.Nodup) : Announced s (l.foldl State.announceOne s)
    ∧ (∀ r ∈ l, ¬s.Refused r → (l.foldl State.announceOne s).beryl.regions[r] = s.descriptor r.val)
    ∧ (∀ r : Fin 16, r ∉ l ∨ s.Refused r → (l.foldl State.announceOne s).beryl.regions[r] = s.beryl.regions[r])
    ∧ ∀ r : Fin 16, (l.foldl State.announceOne s).mgmt.brefu.getLsbD r.val = true ↔ s.mgmt.brefu.getLsbD r.val = true ∨ r ∈ l ∧ s.Refused r := by
  induction l generalizing s with
  | nil => exact ⟨⟨rfl, rfl, rfl, rfl⟩, fun r hr => (nomatch hr), fun r _ => rfl, fun r => by simp⟩
  | cons a l ih =>
    obtain ⟨ha, hl⟩ := List.nodup_cons.1 hl
    obtain ⟨hkeep, hnew, hold, hbit⟩ := announceOne_spec s a
    obtain ⟨hkeep', hnew', hold', hbit'⟩ := ih (s.announceOne a) hl
    have hsame (r : Fin 16) (hr : r ≠ a) : (s.announceOne a).Refused r ↔ s.Refused r := by
      have hregion := hold r (Or.inl hr)
      exact Announced.refused hkeep hregion
    rw [List.foldl_cons]
    refine ⟨hkeep.trans hkeep', fun r hr hn => ?_, fun r hr => ?_, fun r => ?_⟩
    · by_cases hra : r = a
      · subst hra
        exact (hold' r (.inl ha)).trans (hnew hn)
      · rw [hnew' r ((List.mem_cons.1 hr).resolve_left hra) (mt (hsame r hra).1 hn), hkeep.descriptor]
    · by_cases hra : r = a
      · subst hra
        exact (hold' r (.inl ha)).trans (hold r (.inr (hr.resolve_left fun hn => hn List.mem_cons_self)))
      · refine (hold' r (hr.imp (fun hn hm => hn (List.mem_cons_of_mem a hm)) (hsame r hra).2)).trans (hold r (.inl hra))
    · rw [hbit', hbit]
      by_cases hra : r = a
      · subst hra
        simp [ha]
      · simp [hra, hsame r hra]

theorem bann_mine {s : State} {src : Source} (hu : s.Up) (hg : s.guarded src = true) (mask : BitVec 16) :
    ∃ t, exec (.bann src mask) s = .next t ∧ t.mem = s.mem ∧ t.core = s.core ∧ ∀ r : Fin 16,
      (mask.getLsbD r = true ∧ ¬s.Refused r → t.beryl.regions[r] = s.descriptor r.val)
      ∧ (¬(mask.getLsbD r = true ∧ ¬s.Refused r) → t.beryl.regions[r] = s.beryl.regions[r])
      ∧ (t.mgmt.brefu.getLsbD r = true ↔ mask.getLsbD r = true ∧ s.Refused r) := by
  obtain ⟨l, hl⟩ : ∃ l, l = (List.finRange 16).filter (fun r => mask.getLsbD r.val) := ⟨_, rfl⟩
  have hmem (r : Fin 16) : r ∈ l ↔ mask.getLsbD r = true := by simp [hl]
  obtain ⟨hkeep, hnew, hold, hbit⟩ := announceAll_spec l { s with mgmt.brefu := 0 } (hl ▸ (List.nodup_finRange 16).filter _)
  refine ⟨_, ?_, hkeep.mem, hkeep.core, fun r => ⟨fun h => ?_, fun h => ?_, ?_⟩⟩
  · change Host.Outcome.next (s.ifUp _) = _
    rw [ifUp_up hu, State.guard, if_pos hg, State.announce, ← hl]
  · exact hnew r ((hmem r).2 h.1) h.2
  · exact hold r (by rw [hmem]; tauto)
  · rw [hbit, hmem]
    exact or_iff_right (by simp)

theorem bann_other {s : State} {src : Source} (hu : s.Up) (hg : s.guarded src = false) (mask : BitVec 16) :
    exec (.bann src mask) s = .next { s with dev.sem.gerr := true } := by
  change Host.Outcome.next (s.ifUp _) = _
  rw [ifUp_up hu, State.guard, if_neg (Bool.eq_false_iff.1 hg)]

/-! Clocks and power (18 R438, R441, R442). -/

section
variable {s : State}

theorem clklim_up (hu : s.Up) (mhz : BitVec 12) : exec (.clklim mhz) s
    = .next (if s.mgmt.lock then s else { s with mgmt.clklim := max 1000 (min mhz.toNat 2900) }) := by
  change Host.Outcome.next (s.ifUp _) = _
  rw [ifUp_up hu]
  rfl

theorem plim_up (hu : s.Up) (watts : BitVec 11) : exec (.plim watts) s = .next { s with mgmt.plim := min watts.toNat 1200 } := by
  change Host.Outcome.next (s.ifUp _) = _
  rw [ifUp_up hu]

theorem trip_tripped (h : s.mgmt.boot = .tripped) : exec .trip s = .next s := by
  change Host.Outcome.next (if _ then _ else _) = _
  rw [if_pos (beq_iff_eq.2 h)]

theorem trip_trips (h : s.mgmt.boot ≠ .tripped) : exec .trip s = .next s.tripped := by
  change Host.Outcome.next (if _ then _ else _) = _
  rw [if_neg (by simpa using h)]

theorem thermal_tripped (h : s.mgmt.boot = .tripped) (celsius : Nat) : exec (.thermalCeilingStep celsius) s = .next s := by
  change Host.Outcome.next (if _ then _ else _) = _
  rw [if_pos (beq_iff_eq.2 h)]

theorem thermal_trip {celsius : Nat} (h : 110 ≤ celsius) : exec (.thermalCeilingStep celsius) s = exec .trip s := by
  change Host.Outcome.next (if _ then _ else if _ then _ else _) = Host.Outcome.next (if _ then _ else _)
  rw [if_pos h]

/-- The ceiling falls from 95 degrees on, until the junction is below 92 (18 R441). -/
def State.heated (s : State) (celsius : Nat) : Bool := decide (95 ≤ celsius) || (s.mgmt.hot && decide (92 ≤ celsius))

theorem thermal_step (hb : s.mgmt.boot ≠ .tripped) {celsius : Nat} (h : celsius < 110) : exec (.thermalCeilingStep celsius) s
    = .next { s with mgmt.hot := s.heated celsius, mgmt.thermal := stepCeiling s.mgmt.thermal (s.heated celsius),
                     mgmt.inlet := if Config.form == 0 then 0 else Config.inlet s.tick } := by
  change Host.Outcome.next (if _ then _ else if _ then _ else _) = _
  rw [if_neg (by simpa using hb), if_neg (by omega)]
  rfl

theorem stepCeiling_range (c : Nat) (down : Bool) : 1000 ≤ stepCeiling c down ∧ stepCeiling c down ≤ 2900 := by
  rw [stepCeiling, clampClock]
  omega

theorem power_tripped (h : s.mgmt.boot = .tripped) (mw : Nat) : exec (.powerCeilingStep mw) s = .next s := by
  change Host.Outcome.next (if _ then _ else _) = _
  rw [if_pos (beq_iff_eq.2 h)]

theorem power_step (h : s.mgmt.boot ≠ .tripped) (mw : Nat) : exec (.powerCeilingStep mw) s = .next { s with
    mgmt.pmeas := BitVec.ofNat 32 mw,
    mgmt.power := if s.mgmt.plim * 1000 < mw then stepCeiling s.mgmt.power true
      else if mw < s.mgmt.plim * 950 then stepCeiling s.mgmt.power false else s.mgmt.power } := by
  change Host.Outcome.next (if _ then _ else _) = _
  rw [if_neg (by simpa using h)]

/-! Attestation and lock (18 R442, R449). -/

theorem go_up (hu : s.Up) (abuf : Nat) : exec (.go abuf) s = .next (s.setGo abuf) := by
  change Host.Outcome.next (s.ifUp _) = _
  rw [ifUp_up hu]

theorem lock_up (hu : s.Up) : exec .lock s = .next s.setLock := by
  change Host.Outcome.next (s.ifUp _) = _
  rw [ifUp_up hu]

theorem attestation_idle (h : s.mgmt.busy = false) : exec .attestationReport s = .next s := by
  change Host.Outcome.next (if _ then _ else _) = _
  rw [h]
  rfl

/-- The state in which the request has ended. -/
def State.attested (s : State) : State := { s with mgmt.busy := false, mgmt.done := true }

/-- The signed report (18 R450). -/
def State.signed (s : State) (nonce : List Byte) : List Byte := s.reportBody nonce ++ fitTo 2420 (Config.mldsaSign (s.reportBody nonce))

theorem attestation_busy (h : s.mgmt.busy = true) : exec .attestationReport s = .next (if s.physHome s.mgmt.target then
    s.attested.homeWrite .h s.mgmt.target (s.signed ((s.writeBackLine (lineOf s.mgmt.target)).mem.readBytes s.mgmt.target 32)) else s.attested) := by
  change execAttestationReport s = _
  unfold execAttestationReport
  rw [h]
  cases hp : s.physHome s.mgmt.target <;> rfl

/-- The nonce is read as the core's cache would show it: its line is written back. -/
theorem nonce_read (hs : s.core.l1.Ok) {nonce : List Byte} {pa : Nat} (hlen : nonce.length = 32) (ha : pa % 128 = 0)
    (hn : ∀ i, i < 32 → nonce[i]? = some (s.newest (pa + i))) : (s.writeBackLine (lineOf pa)).mem.readBytes pa 32 = nonce := by
  obtain ⟨-, hnew, -, -, -, -, hdirty⟩ := writeBackLines [lineOf pa] s hs.distinct
  refine List.ext_getElem? fun i => ?_
  by_cases hi : i < 32
  · have hline : lineOf (pa + i) = lineOf pa := by
      rw [lineOf, lineOf]
      omega
    have hnone : cellAt (s.writeBackLine (lineOf pa)).core.l1.dirty (pa + i) = none := by
      have hd : (s.writeBackLine (lineOf pa)).core.l1.dirty = _ := hdirty
      rw [hd, cellAt_filter _ (fun a => !([lineOf pa] : List Nat).contains (lineOf a))]
      simp [hline]
    have hread : (s.writeBackLine (lineOf pa)).mem.read (pa + i) = s.newest (pa + i) := by
      rw [← hnew]
      change _ = (cellAt (s.writeBackLine (lineOf pa)).core.l1.dirty (pa + i)).getD _
      rw [hnone]
      rfl
    rw [hn i hi, Mem.readBytes, List.getElem?_map, List.getElem?_range hi, Option.map_some, hread]
  · have hshort : ((s.writeBackLine (lineOf pa)).mem.readBytes pa 32).length = 32 := by simp [Mem.readBytes]
    rw [List.getElem?_eq_none (by omega), List.getElem?_eq_none (by omega)]

theorem inPool_sub {pa n i : Nat} (h : s.inPool pa n = false) (hi : i < n) : s.inPool (pa + i) 1 = false := by
  rw [State.inPool, List.any_eq_false] at h ⊢
  intro r hr
  have hno := h r hr
  simp only [overlap, Bool.and_eq_true, bne_iff_ne, decide_eq_true_eq, not_and] at hno ⊢
  intro hv h1 h2
  have := hno hv
  omega

theorem attested_report (hs : s.Inv) (h : s.mgmt.busy = true) (hp : s.physHome s.mgmt.target = true) {nonce : List Byte} (hlen : nonce.length = 32)
    (ha : s.mgmt.target % 128 = 0) (hpool : s.inPool s.mgmt.target ((s.reportBody nonce).length + 2420) = false)
    (hn : ∀ i, i < 32 → nonce[i]? = some (s.newest (s.mgmt.target + i))) {t : State} (ht : exec .attestationReport s = .next t) (i : Nat) (b : Byte)
    (hb : (s.signed nonce)[i]? = some b) : t.newest (s.mgmt.target + i) = b := by
  rw [attestation_busy h, if_pos hp, nonce_read hs.l1 hlen ha hn] at ht
  cases ht
  obtain ⟨-, -, -, hbytes⟩ := homeWrite_spec s.attested .h s.mgmt.target (s.signed nonce) hs.l1.distinct
  have hlength : (s.signed nonce).length = (s.reportBody nonce).length + 2420 := by simp [State.signed, fitTo]
  obtain ⟨hi, hval⟩ := List.getElem?_eq_some_iff.1 hb
  have hin : s.inPool (s.mgmt.target + i) 1 = false := inPool_sub hpool (hlength ▸ hi)
  rw [hbytes, if_pos ⟨Nat.le_add_right _ _, Nat.add_lt_add_left hi _, hin⟩, Nat.add_sub_cancel_left, List.getD_eq_getElem?_getD, hb, Option.getD_some]

/-! The management target (18 R447, R448). -/

theorem wordBytes_cons (w : Word64) (ws : List Word64) : wordBytes (w :: ws) = leBytes 8 w.toNat ++ wordBytes ws := rfl

theorem identify_answers (s : State) : exec .identify s = .next (s.respond 0 (leBytes 8 (s.mgmtRead 0).toNat ++ leBytes 8 (s.mgmtRead 8).toNat)) := by
  have hvalue (off : Nat) (h : off = 0 ∨ off = 8) : s.mgmtValue off = s.mgmtRead off := by
    rcases h with rfl | rfl <;> simp [State.mgmtValue]
  change Host.Outcome.next (s.respond 0 (wordBytes [s.mgmtValue 0, s.mgmtValue 8])) = _
  rw [hvalue 0 (.inl rfl), hvalue 8 (.inr rfl), wordBytes_cons, wordBytes_cons, show wordBytes [] = [] from rfl, List.append_nil]

theorem unlessTripped_up (h : s.mgmt.boot ≠ .tripped) (t : State) : s.unlessTripped t = t := if_neg (by simpa using h)

/-- An offset beyond the registers reads as zero. -/
theorem mgmtValue_beyond {off : Nat} (h : 0x068 < off) : s.mgmtValue off = 0 := by
  have hread : s.mgmtRead off = 0 := by
    unfold State.mgmtRead
    dsimp only
    split <;> try omega
    rfl
  rw [State.mgmtValue, hread, ite_self]

theorem unlisted_slot {a : Nat} (h : a < 0x4000000) : Mem.unlisted a = 0 := by
  rw [Mem.unlisted, if_neg]
  rw [remapBase]
  omega

theorem write_flashByte (m : Mgmt) (base : Nat) (data : List Byte) (a : Nat) :
    ({ m with flash := m.flash.write base (data.map (~~~ ·)) } : Mgmt).flashByte a
      = if base ≤ a ∧ a < base + data.length then data.getD (a - base) 0 else m.flashByte a := by
  rw [Mgmt.flashByte, Mem.read_write, List.length_map]
  split
  · next h =>
    have hlt : a - base < data.length := by omega
    simp [List.getD_eq_getElem?_getD, hlt]
  · rfl

theorem erase_flashByte (m : Mgmt) (slot : Fin 2) (a : Nat) :
    ({ m with flash := dropCells m.flash (slotBase slot) 0x2000000 } : Mgmt).flashByte a
      = if 0x2000000 * slot.val ≤ a ∧ a < 0x2000000 * (slot.val + 1) then 0xFF else m.flashByte a := by
  rw [Mgmt.flashByte, Mem.read, cellAt_dropCells, slotBase]
  by_cases h : 0x2000000 * slot.val ≤ a ∧ a < 0x2000000 * (slot.val + 1)
  · have hs := slot.isLt
    rw [if_pos h, if_pos (by omega), Option.getD_none, unlisted_slot (by omega)]
    rfl
  · rw [if_neg h, if_neg (by omega)]
    rfl

theorem mayRaise_le {minimum : Word64} {key sig : List Byte} (h : s.mayRaise minimum key sig = true) : s.mgmt.fuseMin.toNat ≤ minimum.toNat := by
  rw [State.mayRaise, Bool.and_eq_true] at h
  exact of_decide_eq_true h.2

/-! Boot (18 R445). -/

/-- Everything but the flash and the fuses is as after reset. -/
def State.poweredOn (s : State) : State :=
  { State.reset with
    core := s.core.blank, agenda := s.agenda, tick := s.tick, dev := { Dev.reset with cxl := s.dev.cxl },
    mgmt := { Mgmt.reset with flash := s.mgmt.flash, fuseMin := s.mgmt.fuseMin } }

theorem powerOnReset_none (h : s.mgmt.bootSlot = none) : exec .powerOnReset s = .next { s.poweredOn with mgmt.boot := .recovery } := by
  change execPowerOnReset s = _
  rw [execPowerOnReset, h]
  rfl

theorem powerOnReset_some {base : Nat} (h : s.mgmt.bootSlot = some base) : exec .powerOnReset s = .next { s.poweredOn with
    core := s.core.blank.booted (numAt (s.mgmt.flashBytes base 4096) 0x18 8 % 2 ^ 52)
    mem := s.poweredOn.mem.write (numAt (s.mgmt.flashBytes base 4096) 0x18 8 % 2 ^ 52)
      (s.mgmt.flashBytes (base + 4096) (numAt (s.mgmt.flashBytes base 4096) 0x10 4))
    mgmt.meas1 := Sha3.sha3_256 ((s.mgmt.flashBytes base 4096).take 0xED4)
    mgmt.svn := BitVec.ofNat 64 (numAt (s.mgmt.flashBytes base 4096) 8 8) } := by
  change execPowerOnReset s = _
  rw [execPowerOnReset, h]
  rfl

theorem booted_service {c : Core} {load : Nat} (h : c.service = some 0) : c.booted load = { c with
    run := .running, unit := { UnitCtx.reset with pc := BitVec.ofNat 56 load, k := { KRegs.reset with status := statusOf 2 false } } } :=
  if_pos (beq_iff_eq.2 h)

end

/-- Settles O60: the registers by whether the device answers, the report by the bytes that its home writes, the flash byte by byte. -/
theorem management : Obligations.Management := by
  intro s m only answers up
  refine ⟨?clklim, plim_up, ?down, ?tripped, fun _ h => thermal_trip h, ?thermal, ?power, ?trip, ?go, attestation_idle, ?report, ?lock, ?bann, ?reset,
    ⟨_, identify_answers s, rfl, rfl⟩, ?register, ?log, ⟨_, rfl, rfl, rfl⟩, ?minimum, ?flash, ⟨_, rfl, rfl, rfl⟩⟩
  case clklim =>
    intro hu mhz
    rw [clklim_up hu]
    exact ⟨fun h => by rw [if_pos h], fun h => by rw [if_neg (Bool.eq_false_iff.1 h)]⟩
  case down =>
    intro hu mhz watts abuf src mask
    have hd (t : State) : Host.Outcome.next (s.ifUp t) = (Host.Outcome.next s : Out) := congrArg _ (ifUp_down hu t)
    exact ⟨hd _, hd _, hd _, hd _, hd _⟩
  case tripped => exact fun h => ⟨trip_tripped h, thermal_tripped h, power_tripped h⟩
  case thermal =>
    intro celsius hb h
    obtain ⟨hlo, hhi⟩ := stepCeiling_range m.thermal (s.heated celsius)
    refine ⟨_, thermal_step hb h, rfl, hlo, hhi, fun h95 => ?_, fun h92 => ?_, fun h92 h95 => ?_⟩
    · have hh : s.heated celsius = true := by simp [State.heated, h95]
      exact congrArg (stepCeiling m.thermal) hh
    · have hh : s.heated celsius = false := by
        simp [State.heated]
        omega
      exact congrArg (stepCeiling m.thermal) hh
    · change s.heated celsius = _
      simp [State.heated, Nat.not_le.2 h95, h92, m]
  case power => exact fun mw hb => ⟨_, power_step hb mw, rfl, rfl, rfl⟩
  case trip => exact fun hb => ⟨_, trip_trips hb, rfl, rfl, rfl, List.length_append, rfl, rfl, rfl, rfl⟩
  case go =>
    intro hu abuf
    rw [go_up hu]
    refine ⟨fun h => ?_, fun h => ?_⟩
    · rw [State.setGo, if_pos h]
    · rw [State.setGo, if_neg (Bool.eq_false_iff.1 h)]
      refine ⟨_, rfl, rfl, rfl, rfl, fun hlt ha => ?_⟩
      have hpa : abuf % 2 ^ 52 / 4096 * 4096 = abuf := by omega
      exact ⟨hpa, hpa⟩
  case report =>
    intro h
    obtain ⟨t, ht⟩ : ∃ t, exec .attestationReport s = .next t := ⟨_, attestation_busy h⟩
    have hfields : t.mgmt = s.attested.mgmt ∧ t.core.unit = s.core.unit := by
      have heq := Host.Outcome.next.inj (ht.symm.trans (attestation_busy h))
      rw [heq]
      split
      · have hm := homeWrite_memOnly s.attested .h s.mgmt.target (s.signed ((s.writeBackLine (lineOf s.mgmt.target)).mem.readBytes s.mgmt.target 32))
        exact ⟨congrArg (·.mgmt) hm.rest, hm.unit⟩
      · exact ⟨rfl, rfl⟩
    refine ⟨t, ht, congrArg (·.busy) hfields.1, congrArg (·.done) hfields.1, hfields.2, fun hs hp nonce hlen ha hpool hn => ?_⟩
    exact attested_report hs h hp hlen ha hpool hn ht
  case lock =>
    intro hu
    refine ⟨_, lock_up hu, ?_⟩
    by_cases hl : s.mgmt.lock = true
    · rw [State.setLock, if_pos hl]
      exact ⟨hl, fun _ => rfl, fun h => absurd hl (Bool.eq_false_iff.1 h), rfl, rfl⟩
    · rw [State.setLock, if_neg hl]
      refine ⟨rfl, fun h => absurd h hl, fun _ hb => ⟨?_, rfl⟩, rfl, rfl⟩
      exact if_pos (beq_iff_eq.2 hb)
  case bann =>
    intro hu src mask
    refine ⟨fun hg => bann_other hu hg mask, fun hg => ?_⟩
    obtain ⟨t, ht, hmem, hcore, hr⟩ := bann_mine hu hg mask
    refine ⟨t, ht, hmem, hcore, fun r => ?_⟩
    obtain ⟨hnew, hold, hbit⟩ := hr r
    intro refused
    refine ⟨?_, hbit⟩
    split
    · next h => exact hnew h
    · next h => exact hold h
  case reset =>
    cases hb : m.bootSlot with
    | none =>
      refine ⟨_, powerOnReset_none hb, rfl, rfl, rfl, rfl, rfl, rfl, fun _ => ⟨rfl, rfl⟩, fun base h => nomatch h⟩
    | some base =>
      refine ⟨_, powerOnReset_some hb, rfl, rfl, rfl, rfl, rfl, rfl, (nomatch ·), fun b h => ?_⟩
      cases h
      refine ⟨rfl, fun hs => ?_⟩
      have hbooted := booted_service (c := s.core.blank) (load := numAt (m.flashBytes base 4096) 0x18 8 % 2 ^ 52) hs
      exact ⟨congrArg (·.run) hbooted, congrArg (·.unit.k.pl) hbooted, congrArg (·.unit.pc) hbooted⟩
  case register =>
    intro off hb
    refine ⟨_, congrArg Host.Outcome.next (unlessTripped_up hb _), ?_⟩
    by_cases h : off.toNat % 8 = 0
    · rw [if_pos (beq_iff_eq.2 h)]
      refine ⟨rfl, rfl, fun _ => ?_, fun _ => mgmtValue_beyond, fun hn => absurd h hn⟩
      change _ :: wordBytes [s.mgmtValue off.toNat] = _
      rw [wordBytes_cons, show wordBytes [] = [] from rfl, List.append_nil]
    · rw [if_neg (by simpa using h)]
      exact ⟨rfl, rfl, fun h' => absurd h' h, fun h' => absurd h' h, fun _ => rfl⟩
  case log =>
    intro i
    refine ⟨_, rfl, ?_⟩
    cases he : s.mgmt.log[i.toNat]? with
    | none => exact ⟨rfl, fun e h => (nomatch h), fun _ => rfl⟩
    | some e =>
      refine ⟨rfl, fun e' h => ?_, fun h => ?_⟩
      · cases h
        rfl
      · rw [List.getElem?_eq_none h] at he
        cases he
  case minimum =>
    intro minimum key sig hb
    refine ⟨_, congrArg Host.Outcome.next (unlessTripped_up hb _), ?_⟩
    by_cases hr : s.mayRaise minimum key sig = true
    · rw [if_pos hr]
      exact ⟨rfl, fun _ => ⟨rfl, rfl⟩, fun h => absurd hr (Bool.eq_false_iff.1 h), mayRaise_le hr⟩
    · rw [if_neg hr]
      exact ⟨rfl, fun h => absurd h hr, fun _ => ⟨rfl, rfl⟩, Nat.le_refl _⟩
  case flash =>
    intro slot off data hb fits
    refine ⟨⟨_, congrArg Host.Outcome.next (unlessTripped_up hb _), ?_⟩, ⟨_, congrArg Host.Outcome.next (unlessTripped_up hb _), ?_⟩⟩
    · have hiff : (s.mgmt.boot == .recovery && decide (1 ≤ data.length) && decide (data.length ≤ 256)
          && decide (off.toNat + data.length ≤ 0x2000000)) = true ↔ fits := by
        simp only [Bool.and_eq_true, beq_iff_eq, decide_eq_true_eq, and_assoc, fits, m]
      by_cases hf : fits
      · rw [if_pos (hiff.2 hf)]
        refine ⟨rfl, fun h => absurd hf h, fun _ => ⟨rfl, fun a => ?_⟩⟩
        have hbyte := write_flashByte m (slotBase slot + off.toNat) data a
        rw [slotBase, ← Nat.sub_sub] at hbyte
        exact hbyte
      · rw [if_neg (mt hiff.1 hf)]
        exact ⟨rfl, fun _ => ⟨rfl, rfl⟩, fun h => absurd h hf⟩
    · by_cases hr : m.boot = .recovery
      · rw [if_pos (beq_iff_eq.2 hr)]
        exact ⟨rfl, fun h => absurd hr h, fun _ => ⟨rfl, erase_flashByte m slot⟩⟩
      · rw [if_neg (by simpa using hr)]
        exact ⟨rfl, fun _ => ⟨rfl, rfl⟩, fun h => absurd h hr⟩

end Sys2Proof.Machine
end

section
/-! The issue of detached commands (13 R329 to R334, R342, R350, R353, R356). -/

namespace Sys2Proof.Machine

/-! Translations taken one after another. -/

theorem XMap.spares_append {m k : XMap} {q : Nat} : (m ++ k).spares q ↔ m.spares q ∧ k.spares q := by
  simp only [XMap.spares, XMap.walked, List.filterMap_append, List.mem_append, or_imp, forall_and]

theorem XMap.pages_append (m k : XMap) : (m ++ k).pages = m.pages ++ k.pages := List.map_append

theorem Writes.touchAll {s t : State} {m : XMap} (h : Writes (fun q => ¬m.spares q) s t) (acc : Access) (k : XMap) :
    Writes (fun q => ¬(m ++ k).spares q) s (t.touchAll acc k) :=
  (h.mono fun _ hq hs => hq (XMap.spares_append.1 hs).1).trans
    ((touchAll_writes t acc k).mono fun _ hq hs => hq (XMap.spares_append.1 hs).2)

/-! The issue itself (13 R329). -/

theorem MemOnly.launch? {s t : State} (h : MemOnly s t) : t.launch? = s.launch? := by
  rw [State.launch?, State.launch?, State.part, State.part, h.unit, h.partAt]

theorem issue_issued {s t : State} {m : XMap} (h : Writes (fun q => ¬m.spares q) s t) (hs : s.Inv) (kind : CmdKind) (bar : Option Nat) :
    Issued s (t.issue kind bar m.pages) m kind bar := by
  have hcmds : t.core.cmds = s.core.cmds := congrArg (·.core.cmds) h.rest.rest
  have hnext : t.core.nextCmd = s.core.nextCmd := congrArg (·.core.nextCmd) h.rest.rest
  have hident : t.core.unit.ident = s.core.unit.ident := congrArg (·.ident) h.rest.unit
  have hacc := h.accesses hs
  refine ⟨⟨t.core.nextCmd, kind, bar, t.core.unit.ident.part, t.core.unit.ident.task, t.core.unit.ident.launch,
    (t.launch?.map (fun l => l.record.det)).getD false, m.pages, [], []⟩, ?_, ?_, hnext, rfl, rfl, ?_, ?_, ?_, ?_, rfl, rfl, rfl, ?_⟩
  · rw [← hcmds]
    rfl
  · rw [← hnext]
    rfl
  · rw [hident]
  · rw [hident]
  · rw [hident]
  · rw [h.rest.launch?]
  · rw [← hcmds, ← hnext]
    exact ⟨hacc.regs, hacc.rest, hacc.stores, hacc.bytes⟩

/-! Checks that the commands share. -/

theorem needCommand_ok {s : State} (h : s.inFlight < 32) : s.needCommand = .ok () := if_pos h
theorem needCommand_wait {s : State} (h : 32 ≤ s.inFlight) : s.needCommand = .error (.wait .engine) := if_neg (by omega)

theorem need_yes {b : Bool} {c : Cause} {v : Word64} (h : b = true) : need b c v = .ok () := by rw [h, need_true]
theorem need_no {b : Bool} {c : Cause} {v : Word64} (h : b = false) : need b c v = .error (.trap c v 0) := by rw [h, need_false]

theorem needBarAlign_ok {va : Nat} (h : va % 32 = 0) : needBarAlign va = .ok () := need_yes (beq_iff_eq.2 h)
theorem needBarAlign_error {va : Nat} (h : va % 32 ≠ 0) : needBarAlign va = .error (.trap .atomicAlign (BitVec.ofNat 64 va) 0) :=
  need_no (beq_eq_false_iff_ne.2 h)

theorem needPlaces_ok {sm dm : Bool} {src dst n : Nat} (hs : insideSpace sm src n) (hd : insideSpace dm dst n) : needPlaces sm dm src dst n = .ok () := by
  have hmem {va : Nat} (h : insideSpace true va n) : needAddr va n = .ok () := needAddr_ok h
  have hls {off : Nat} (h : insideSpace false off n) : needLocal off n = .ok () := needLocal_ok h
  cases sm <;> cases dm
  · rw [needPlaces]
    simp [hls hs, hls hd]
  · rw [needPlaces]
    simp [hls hs, hmem hd]
  · rw [needPlaces]
    simp [hmem hs, hls hd]
  · rw [needPlaces]
    simp [hmem hs, hmem hd]

/-! bcp (13 R342). -/

section
variable {s : State} {i : Instr} {d a b : BitVec 5} {sm dm : Bool}

theorem exec_copy (h : copyForm i = some (d, a, b, sm, dm)) : exec i s = s.finish (s.bcpIssue d a b sm dm) := by
  cases i <;> simp only [copyForm, Option.some.injEq, Prod.mk.injEq, reduceCtorEq] at h <;> obtain ⟨rfl, rfl, rfl, rfl, rfl⟩ := h <;> rfl

theorem bcp_length (hc : s.inFlight < 32) (h : (s.x b).toNat = 0 ∨ 4194304 < (s.x b).toNat) :
    s.bcpIssue d a b sm dm = .error (.trap .engineArg (s.x b) 0) := by
  have hno : (decide (1 ≤ (s.x b).toNat) && decide ((s.x b).toNat ≤ 4194304)) = false := by
    simp
    omega
  simp only [State.bcpIssue, needCommand_ok hc, need_no hno, run_ok_bind, run_error_bind]

/-- A length that a copy may have, and ranges in memory that do not overlap. -/
def State.CopyArgs (s : State) (d a b : BitVec 5) (sm dm : Bool) : Prop :=
  1 ≤ (s.x b).toNat ∧ (s.x b).toNat ≤ 4194304
    ∧ (sm = true → dm = true → overlap (addrOf (s.x a)) (s.x b).toNat (addrOf (s.x d)) (s.x b).toNat = false)

theorem lengthOk {n : Nat} (h1 : 1 ≤ n) (h2 : n ≤ 4194304) : (decide (1 ≤ n) && decide (n ≤ 4194304)) = true := by simp [h1, h2]

theorem bcp_overlap (hc : s.inFlight < 32) (h1 : 1 ≤ (s.x b).toNat) (h2 : (s.x b).toNat ≤ 4194304) (hsm : sm = true) (hdm : dm = true)
    (h : overlap (addrOf (s.x a)) (s.x b).toNat (addrOf (s.x d)) (s.x b).toNat = true) :
    s.bcpIssue d a b sm dm = .error (.trap .engineArg (s.x a) 0) := by
  simp only [State.bcpIssue, needCommand_ok hc, need_yes (lengthOk h1 h2), hsm, hdm, h, Bool.and_self, Bool.not_true, need_false, run_ok_bind,
    run_error_bind]

theorem apart_ok (h : s.CopyArgs d a b sm dm) : (!(sm && dm && overlap (addrOf (s.x a)) (s.x b).toNat (addrOf (s.x d)) (s.x b).toNat)) = true := by
  have ho := h.2.2
  cases sm <;> cases dm <;> simp_all

theorem bcp_align (hc : s.inFlight < 32) (h : s.CopyArgs d a b sm dm) (hb : addrOf (s.x (b + 1)) % 32 ≠ 0) :
    s.bcpIssue d a b sm dm = .error (.trap .atomicAlign (BitVec.ofNat 64 (addrOf (s.x (b + 1)))) 0) := by
  simp only [State.bcpIssue, needCommand_ok hc, need_yes (lengthOk h.1 h.2.1), need_yes (apart_ok h), needBarAlign_error hb, run_ok_bind, run_error_bind]

/-- The state in which a copy has been issued. -/
def State.copyIssued (s : State) (d a b : BitVec 5) (sm dm : Bool) (ms md mb : XMap) : State :=
  (((s.touchAll .read ms).touchAll .write md).touchAll .readWrite mb).issue
    (.bcp (placeOf sm ms (addrOf (s.x a)) (s.x b).toNat) (placeOf dm md (addrOf (s.x d)) (s.x b).toNat) (addrOf (s.x d)) (s.x b).toNat [])
    (barrierPa (addrOf (s.x (b + 1))) mb) (ms ++ md ++ mb).pages

theorem bcp_issues {ms md mb : XMap} (hc : s.inFlight < 32) (h : s.CopyArgs d a b sm dm) (hb : addrOf (s.x (b + 1)) % 32 = 0)
    (hsrc : insideSpace sm (addrOf (s.x a)) (s.x b).toNat) (hdst : insideSpace dm (addrOf (s.x d)) (s.x b).toNat)
    (hms : s.bcpMap sm .read (addrOf (s.x a)) (s.x b).toNat = .ok ms) (hmd : s.bcpMap dm .write (addrOf (s.x d)) (s.x b).toNat = .ok md)
    (hmb : s.barrierMap (addrOf (s.x (b + 1))) = .ok mb) (hp : s.needPhys false (addrOf (s.x (b + 1))) mb = .ok ()) :
    s.bcpIssue d a b sm dm = .ok (s.copyIssued d a b sm dm ms md mb).advance := by
  simp only [State.bcpIssue, needCommand_ok hc, need_yes (lengthOk h.1 h.2.1), need_yes (apart_ok h), needBarAlign_ok hb, needPlaces_ok hsrc hdst,
    hms, hmd, hmb, hp, run_ok_bind, State.copyIssued, XMap.pages_append]
  rfl

theorem copyIssued_issued (hs : s.Inv) (ms md mb : XMap) : Issued s (s.copyIssued d a b sm dm ms md mb) (ms ++ md ++ mb)
    (.bcp (placeOf sm ms (addrOf (s.x a)) (s.x b).toNat) (placeOf dm md (addrOf (s.x d)) (s.x b).toNat) (addrOf (s.x d)) (s.x b).toNat [])
    (barrierPa (addrOf (s.x (b + 1))) mb) :=
  issue_issued (((touchAll_writes s .read ms).touchAll .write md).touchAll .readWrite mb) hs _ _

/-! All-to-all (13 R350). -/

/-- The local-store bases of an exchange are inside their fields. -/
def basesOk (v : Word64) : Prop := bits v 31 19 = 0 ∧ bits v 63 51 = 0

/-- The chunk size and the steps of an exchange are ones that it may have. -/
def sizesOk (w : Word64) : Prop :=
  bits w 15 15 = 0 ∧ bits w 63 22 = 0 ∧ bits w 14 0 % 16 = 0 ∧ 16 ≤ bits w 14 0 ∧ bits w 14 0 ≤ 16384 ∧ 1 ≤ bits w 21 16 ∧ bits w 21 16 ≤ 64

theorem bases_iff (v : Word64) : (bits v 31 19 == 0 && bits v 63 51 == 0) = true ↔ basesOk v := by simp [basesOk]

theorem sizes_iff (w : Word64) : (bits w 15 15 == 0 && bits w 63 22 == 0 && bits w 14 0 % 16 == 0 && decide (16 ≤ bits w 14 0)
    && decide (bits w 14 0 ≤ 16384) && decide (1 ≤ bits w 21 16) && decide (bits w 21 16 ≤ 64)) = true ↔ sizesOk w := by
  simp [sizesOk, and_assoc]

/-- What an exchange needs of its registers and of its launch. -/
structure A2aArgs (s : State) (b : BitVec 5) : Prop where
  room : s.inFlight < 32
  bases : basesOk (s.x b)
  sizes : sizesOk (s.x (b + 1))
  cls : (s.launch?.map (fun l => l.record.cls)) = some 2

section
variable {quad : Bool}

theorem a2a_bases (hc : s.inFlight < 32) (h : ¬basesOk (s.x b)) : s.a2aIssue d a b quad = .error (.trap .engineArg (s.x b) 0) := by
  have hno : (bits (s.x b) 31 19 == 0 && bits (s.x b) 63 51 == 0) = false := Bool.eq_false_iff.2 (mt (bases_iff _).1 h)
  simp only [State.a2aIssue, needCommand_ok hc, need_no hno, run_ok_bind, run_error_bind]

theorem a2a_sizes (hc : s.inFlight < 32) (hb : basesOk (s.x b)) (h : ¬sizesOk (s.x (b + 1))) :
    s.a2aIssue d a b quad = .error (.trap .engineArg (s.x (b + 1)) 0) := by
  simp only [State.a2aIssue, needCommand_ok hc, need_yes ((bases_iff _).2 hb), need_no (Bool.eq_false_iff.2 (mt (sizes_iff _).1 h)), run_ok_bind,
    run_error_bind]

theorem a2a_class (hc : s.inFlight < 32) (hb : basesOk (s.x b)) (h : sizesOk (s.x (b + 1))) {l : Launch} (hl : s.launch? = some l)
    (hcls : l.record.cls ≠ 2) : s.a2aIssue d a b quad = .error (.trap .engineArg (BitVec.ofNat 64 l.record.cls) 0) := by
  simp only [State.a2aIssue, needCommand_ok hc, need_yes ((bases_iff _).2 hb), need_yes ((sizes_iff _).2 h), hl, Option.map_some, Option.getD_some,
    need_no (beq_eq_false_iff_ne.2 hcls), run_ok_bind, run_error_bind]

/-- An exchange whose registers and launch are in order. -/
theorem a2a_checked (h : A2aArgs s b) : s.a2aIssue d a b quad = (do
    needBarAlign (addrOf (s.x d))
    need (addrOf (s.x a) % 8 == 0) .atomicAlign (BitVec.ofNat 64 (addrOf (s.x a)))
    needAddr (addrOf (s.x a)) (8 * bits (s.x (b + 1)) 21 16)
    needLocal (bits (s.x b) 18 0) (groupSize quad * bits (s.x (b + 1)) 14 0)
    needLocal (bits (s.x b) 50 32) (groupSize quad * bits (s.x (b + 1)) 14 0)
    let mb ← s.barrierMap (addrOf (s.x d))
    let ms ← s.engineMap .read (addrOf (s.x a)) (8 * bits (s.x (b + 1)) 21 16)
    s.needPhys false (addrOf (s.x d)) mb
    s.needPhys false (addrOf (s.x a)) ms
    .ok ((((s.touchAll .readWrite mb).touchAll .read ms).issue (.a2a quad (ms.runs (addrOf (s.x a)) (8 * bits (s.x (b + 1)) 21 16))
      (bits (s.x b) 18 0) (bits (s.x b) 50 32) (bits (s.x (b + 1)) 14 0) (bits (s.x (b + 1)) 21 16) none 0) (barrierPa (addrOf (s.x d)) mb)
      (mb.pages ++ ms.pages)).advance)) := by
  have hcls : (s.launch?.map (fun l => l.record.cls)).getD 0 = 2 := by rw [h.cls, Option.getD_some]
  simp only [State.a2aIssue, needCommand_ok h.room, need_yes ((bases_iff _).2 h.bases), need_yes ((sizes_iff _).2 h.sizes), hcls, beq_self_eq_true,
    need_true, run_ok_bind]

theorem a2a_align (h : A2aArgs s b) (hb : addrOf (s.x d) % 32 ≠ 0) :
    s.a2aIssue d a b quad = .error (.trap .atomicAlign (BitVec.ofNat 64 (addrOf (s.x d))) 0) := by
  rw [a2a_checked h, needBarAlign_error hb, run_error_bind]

theorem a2a_schedule (h : A2aArgs s b) (hb : addrOf (s.x d) % 32 = 0) (hs : addrOf (s.x a) % 8 ≠ 0) :
    s.a2aIssue d a b quad = .error (.trap .atomicAlign (BitVec.ofNat 64 (addrOf (s.x a))) 0) := by
  rw [a2a_checked h, needBarAlign_ok hb, run_ok_bind, need_no (beq_eq_false_iff_ne.2 hs), run_error_bind]

/-- The state in which an exchange has been issued. -/
def State.a2aIssued (s : State) (d a b : BitVec 5) (quad : Bool) (mb ms : XMap) : State :=
  ((s.touchAll .readWrite mb).touchAll .read ms).issue (.a2a quad (ms.runs (addrOf (s.x a)) (8 * bits (s.x (b + 1)) 21 16))
    (bits (s.x b) 18 0) (bits (s.x b) 50 32) (bits (s.x (b + 1)) 14 0) (bits (s.x (b + 1)) 21 16) none 0) (barrierPa (addrOf (s.x d)) mb)
    (mb ++ ms).pages

theorem a2a_issues (h : A2aArgs s b) {mb ms : XMap} (hb : addrOf (s.x d) % 32 = 0) (hs : addrOf (s.x a) % 8 = 0)
    (hend : addrOf (s.x a) + 8 * bits (s.x (b + 1)) 21 16 ≤ 2 ^ 56)
    (hsrc : bits (s.x b) 18 0 + groupSize quad * bits (s.x (b + 1)) 14 0 ≤ 2 ^ 19)
    (hdst : bits (s.x b) 50 32 + groupSize quad * bits (s.x (b + 1)) 14 0 ≤ 2 ^ 19) (hmb : s.barrierMap (addrOf (s.x d)) = .ok mb)
    (hms : s.engineMap .read (addrOf (s.x a)) (8 * bits (s.x (b + 1)) 21 16) = .ok ms) (hpb : s.needPhys false (addrOf (s.x d)) mb = .ok ())
    (hps : s.needPhys false (addrOf (s.x a)) ms = .ok ()) : s.a2aIssue d a b quad = .ok (s.a2aIssued d a b quad mb ms).advance := by
  rw [a2a_checked h]
  simp only [needBarAlign_ok hb, need_yes (beq_iff_eq.2 hs), needAddr_ok hend, needLocal_ok (Or.inr hsrc), needLocal_ok (Or.inr hdst), hmb, hms, hpb, hps,
    run_ok_bind, State.a2aIssued, XMap.pages_append]

theorem a2aIssued_issued (hs : s.Inv) (mb ms : XMap) : Issued s (s.a2aIssued d a b quad mb ms) (mb ++ ms)
    (.a2a quad (ms.runs (addrOf (s.x a)) (8 * bits (s.x (b + 1)) 21 16)) (bits (s.x b) 18 0) (bits (s.x b) 50 32) (bits (s.x (b + 1)) 14 0)
      (bits (s.x (b + 1)) 21 16) none 0) (barrierPa (addrOf (s.x d)) mb) :=
  issue_issued ((touchAll_writes s .readWrite mb).touchAll .read ms) hs _ _

end

theorem exec_a2a (s : State) (d a b : BitVec 5) (quad : Bool) :
    exec (if quad then .a2aQ d a b else .a2aCl d a b) s = s.finish (s.a2aIssue d a b quad) := by
  cases quad <;> rfl

/-! Offload (13 R356). -/

theorem exec_ofld (s : State) (d a b : BitVec 5) (out : Bool) :
    exec (if out then .ofldOut d a b else .ofldIn d a b) s = s.finish (s.ofldIssue d a b out) := by
  cases out <;> rfl

section
variable {out : Bool}

/-- The drive that a word names is there. -/
def State.HasDrive (s : State) (v : Word64) : Prop :=
  bits v 59 48 = 0 ∧ ((s.partAt s.part).drives.toList.getD (bits v 63 60) ⟨false, 0, 0, 0⟩).dv = true

theorem bits_top4 (v : Word64) : bits v 63 60 < 16 := Nat.mod_lt _ (by decide)

theorem hasDrive_iff (v : Word64) : (bits v 59 48 == 0
    && ((s.partAt s.part).drives[bits v 63 60 % 16]'(Nat.mod_lt _ (by decide))).dv) = true ↔ s.HasDrive v := by
  have hget : (s.partAt s.part).drives.toList.getD (bits v 63 60) ⟨false, 0, 0, 0⟩
      = (s.partAt s.part).drives[bits v 63 60 % 16]'(Nat.mod_lt _ (by decide)) := by
    have hlt := bits_top4 v
    simp [List.getD_eq_getElem?_getD, hlt, Nat.mod_eq_of_lt hlt]
  rw [State.HasDrive, hget, Bool.and_eq_true, beq_iff_eq]

/-- What an offload needs of its registers. -/
structure OfldArgs (s : State) (d a b : BitVec 5) : Prop where
  room : s.inFlight < 32
  drive : s.HasDrive (s.x d)
  page : addrOf (s.x a) % 4096 = 0
  whole : (s.x b).toNat % 4096 = 0
  least : 4096 ≤ (s.x b).toNat
  most : (s.x b).toNat ≤ 4194304

theorem ofld_drive (hc : s.inFlight < 32) (h : ¬s.HasDrive (s.x d)) : s.ofldIssue d a b out = .error (.trap .engineArg (s.x d) 0) := by
  simp only [State.ofldIssue, needCommand_ok hc, need_no (Bool.eq_false_iff.2 (mt (hasDrive_iff _).1 h)), run_ok_bind, run_error_bind]

theorem ofld_page (hc : s.inFlight < 32) (hd : s.HasDrive (s.x d)) (h : addrOf (s.x a) % 4096 ≠ 0) :
    s.ofldIssue d a b out = .error (.trap .engineArg (s.x a) 0) := by
  simp only [State.ofldIssue, needCommand_ok hc, need_yes ((hasDrive_iff _).2 hd), need_no (beq_eq_false_iff_ne.2 h), run_ok_bind, run_error_bind]

theorem ofld_length (hc : s.inFlight < 32) (hd : s.HasDrive (s.x d)) (hp : addrOf (s.x a) % 4096 = 0)
    (h : (s.x b).toNat % 4096 ≠ 0 ∨ (s.x b).toNat < 4096 ∨ 4194304 < (s.x b).toNat) :
    s.ofldIssue d a b out = .error (.trap .engineArg (s.x b) 0) := by
  have hno : ((s.x b).toNat % 4096 == 0 && decide (4096 ≤ (s.x b).toNat) && decide ((s.x b).toNat ≤ 4194304)) = false := by
    simp
    omega
  simp only [State.ofldIssue, needCommand_ok hc, need_yes ((hasDrive_iff _).2 hd), need_yes (beq_iff_eq.2 hp), need_no hno, run_ok_bind, run_error_bind]

/-- The state in which an offload has been issued. -/
def State.ofldIssued (s : State) (d a b : BitVec 5) (out : Bool) (m mb : XMap) : State :=
  ((s.touchAll (if out then .read else .write) m).touchAll .readWrite mb).issue (.ofld out (bits (s.x d) 63 60) (bits (s.x d) 47 0)
    (m.runs (addrOf (s.x a)) (s.x b).toNat) ((s.x b).toNat / 4096) (min 32 ((s.x b).toNat / 4096)) [] [])
    (barrierPa (addrOf (s.x (b + 1))) mb) (m ++ mb).pages

theorem ofld_issues (h : OfldArgs s d a b) {m mb : XMap} (hb : addrOf (s.x (b + 1)) % 32 = 0) (hend : addrOf (s.x a) + (s.x b).toNat ≤ 2 ^ 56)
    (hm : s.engineMap (if out then .read else .write) (addrOf (s.x a)) (s.x b).toNat = .ok m)
    (hmb : s.barrierMap (addrOf (s.x (b + 1))) = .ok mb) (hp : s.needPhys false (addrOf (s.x (b + 1))) mb = .ok ()) :
    s.ofldIssue d a b out = .ok (s.ofldIssued d a b out m mb).advance := by
  have hlen : ((s.x b).toNat % 4096 == 0 && decide (4096 ≤ (s.x b).toNat) && decide ((s.x b).toNat ≤ 4194304)) = true := by
    simp [h.whole, h.least, h.most]
  simp only [State.ofldIssue, needCommand_ok h.room, need_yes ((hasDrive_iff _).2 h.drive), need_yes (beq_iff_eq.2 h.page), need_yes hlen,
    needBarAlign_ok hb, needAddr_ok hend, hm, hmb, hp, run_ok_bind, State.ofldIssued, XMap.pages_append]

theorem ofldIssued_issued (hs : s.Inv) (m mb : XMap) : Issued s (s.ofldIssued d a b out m mb) (m ++ mb)
    (.ofld out (bits (s.x d) 63 60) (bits (s.x d) 47 0) (m.runs (addrOf (s.x a)) (s.x b).toNat) ((s.x b).toNat / 4096)
      (min 32 ((s.x b).toNat / 4096)) [] []) (barrierPa (addrOf (s.x (b + 1))) mb) :=
  issue_issued ((touchAll_writes s _ m).touchAll .readWrite mb) hs _ _

end

/-! cred (13 R353). -/

section
variable {memory : Bool}

theorem exec_cred (s : State) (d a b : BitVec 5) (memory : Bool) :
    exec (if memory then .cred d a b else .credLs d a b) s = s.credStart d a b memory := by
  cases memory <;> rfl

theorem cred_error {e : Stop} (h : s.credMaps d a b memory = .error e) : s.credStart d a b memory = s.finish (.error e) := by
  rw [State.credStart, h]

theorem credMaps_index (hc : s.inFlight < 32) (h : bits (s.x b) 63 32 ≠ 0) : s.credMaps d a b memory = .error (.trap .engineArg (s.x b) 0) := by
  simp only [State.credMaps, needCommand_ok hc, need_no (beq_eq_false_iff_ne.2 h), run_ok_bind, run_error_bind]

theorem credMaps_barrier (hc : s.inFlight < 32) (hi : bits (s.x b) 63 32 = 0) (h : addrOf (s.x (b + 1)) % 32 ≠ 0) :
    s.credMaps d a b memory = .error (.trap .atomicAlign (BitVec.ofNat 64 (addrOf (s.x (b + 1)))) 0) := by
  simp only [State.credMaps, needCommand_ok hc, need_yes (beq_iff_eq.2 hi), needBarAlign_error h, run_ok_bind, run_error_bind]

theorem credMaps_object (hc : s.inFlight < 32) (hi : bits (s.x b) 63 32 = 0) (hb : addrOf (s.x (b + 1)) % 32 = 0) (h : addrOf (s.x d) % 64 ≠ 0) :
    s.credMaps d a b memory = .error (.trap .atomicAlign (BitVec.ofNat 64 (addrOf (s.x d))) 0) := by
  simp only [State.credMaps, needCommand_ok hc, need_yes (beq_iff_eq.2 hi), needBarAlign_ok hb, need_no (beq_eq_false_iff_ne.2 h), run_ok_bind,
    run_error_bind]

/-- What cred needs before it asks for nelem. -/
structure CredArgs (s : State) (d a b : BitVec 5) (memory : Bool) (m0 mb mo : XMap) : Prop where
  room : s.inFlight < 32
  index : bits (s.x b) 63 32 = 0
  barrier : addrOf (s.x (b + 1)) % 32 = 0
  object : addrOf (s.x d) % 64 = 0
  source : memory = true → addrOf (s.x a) + 4096 ≤ 2 ^ 56
  readsSource : s.bcpMap memory .read (addrOf (s.x a)) 4096 = .ok m0
  readsBarrier : s.barrierMap (addrOf (s.x (b + 1))) = .ok mb
  readsObject : s.engineMap .readWrite (addrOf (s.x d)) 64 = .ok mo
  physBarrier : s.needPhys false (addrOf (s.x (b + 1))) mb = .ok ()
  physObject : s.needPhys true (addrOf (s.x d)) mo = .ok ()

variable {m0 mb mo ms : XMap}

theorem credMaps_ok (h : CredArgs s d a b memory m0 mb mo) : s.credMaps d a b memory = .ok (m0, mb, mo) := by
  obtain ⟨room, index, barrier, object, source, hms, hmb, hmo, hpb, hpo⟩ := h
  rw [State.credMaps]
  cases memory with
  | true =>
    simp only [needCommand_ok room, need_yes (beq_iff_eq.2 index), needBarAlign_ok barrier, need_yes (beq_iff_eq.2 object), if_true,
      needAddr_ok (source rfl), hms, hmb, hmo, hpb, hpo, run_ok_bind]
  | false =>
    simp only [needCommand_ok room, need_yes (beq_iff_eq.2 index), needBarAlign_ok barrier, need_yes (beq_iff_eq.2 object), Bool.false_eq_true, if_false,
      hms, hmb, hmo, hpb, hpo, run_ok_bind]

/-- How nelem is known: read at the object's home, or answered by the peer (13 R353; 16 R428). -/
def State.Nelem (s : State) (pa n : Nat) : Prop :=
  (s.peerOf pa = none ∧ ((linesOf pa 64).foldl State.writeBackLine s).homeBad pa 64 = false
      ∧ n = bits (((linesOf pa 64).foldl State.writeBackLine s).mem.read64 (pa + 16)) 10 0)
    ∨ ((s.peerOf pa).isSome = true ∧ ∃ v, s.core.reply = some (.value v) ∧ n = bits v 10 0)

theorem readNelem_known {va pa n : Nat} (h : s.Nelem pa n) (ht : s.peerOf pa = none → s.homesAccept (linesOf pa 64) = true) :
    s.readNelem va pa = .nelem n := by
  rcases h with ⟨hp, hb, rfl⟩ | ⟨hp, v, hr, rfl⟩
  · simp [State.readNelem, hp, hb, ht hp, nelemOf]
  · simp [State.readNelem, hp, hr, nelemOf]

theorem readNelem_waits {va pa : Nat} (hp : s.peerOf pa = none) (ht : s.homesAccept (linesOf pa 64) = false) :
    s.readNelem va pa = .stop (.wait .other) := by
  simp [State.readNelem, hp, ht]

/-- The state in which a contribution has been issued. -/
def State.credIssued (s : State) (d a b : BitVec 5) (memory : Bool) (m0 ms mb mo : XMap) (n : Nat) : State :=
  ((((s.touchAll .read m0).touchAll .read ms).touchAll .readWrite mb).touchAll .readWrite mo).issue
    (.cred (mo.pa (addrOf (s.x d))) (placeOf memory ms (addrOf (s.x a)) (4 * n)) (bits (s.x b) 31 0) n none)
    (barrierPa (addrOf (s.x (b + 1))) mb) (m0 ++ ms ++ mb ++ mo).pages

theorem cred_issues {n : Nat} (hin : insideSpace memory (addrOf (s.x a)) (4 * n)) (hms : s.bcpMap memory .read (addrOf (s.x a)) (4 * n) = .ok ms) :
    s.credIssue d a b memory (m0, mb, mo) n = .ok (s.credIssued d a b memory m0 ms mb mo n).advance := by
  rw [State.credIssue]
  cases memory with
  | true =>
    simp only [if_true, needAddr_ok (va := addrOf (s.x a)) (n := 4 * n) hin, hms, run_ok_bind, State.credIssued, placeOf, XMap.pages_append]
  | false =>
    simp only [Bool.false_eq_true, if_false, needLocal_ok (addr := addrOf (s.x a)) (len := 4 * n) hin, hms, run_ok_bind, State.credIssued, placeOf,
      XMap.pages_append]

theorem credStart_waits (h : CredArgs s d a b memory m0 mb mo) (hp : s.peerOf (mo.pa (addrOf (s.x d))) = none)
    (ht : s.homesAccept (linesOf (mo.pa (addrOf (s.x d))) 64) = false) : s.credStart d a b memory = .next { s with core.wait := .other } := by
  simp only [State.credStart, credMaps_ok h, readNelem_waits hp ht, State.finish_wait]

/-- The end of a request changes no translation. -/
theorem translateFrom_answered (s : State) (acc : Access) (c : Bool) (bs : List Nat) (l : Option (Nat × Xl)) :
    s.answered.translateFrom acc c l bs = s.translateFrom acc c l bs := by
  have htranslate (va : Nat) : s.answered.translate acc c va = s.translate acc c va := rfl
  have htaken (va : Nat) : s.answered.walkTaken acc va = s.walkTaken acc va := rfl
  induction bs generalizing l with
  | nil => rfl
  | cons b r ih => simp only [State.translateFrom, htranslate, htaken, ih]

theorem bcpMap_answered (s : State) (memory : Bool) (acc : Access) (va n : Nat) : s.answered.bcpMap memory acc va n = s.bcpMap memory acc va n := by
  cases memory with
  | false => rfl
  | true => exact translateFrom_answered s acc true (blocksOf va n) none

theorem credStart_issues (h : CredArgs s d a b memory m0 mb mo) {n : Nat} (hn : s.Nelem (mo.pa (addrOf (s.x d))) n)
    (ht : s.peerOf (mo.pa (addrOf (s.x d))) = none → s.homesAccept (linesOf (mo.pa (addrOf (s.x d))) 64) = true)
    (hin : insideSpace memory (addrOf (s.x a)) (4 * n)) (hms : s.bcpMap memory .read (addrOf (s.x a)) (4 * n) = .ok ms) :
    s.credStart d a b memory = .next (s.answered.credIssued d a b memory m0 ms mb mo n).advance := by
  have hissue := cred_issues (s := s.answered) (d := d) (a := a) (b := b) (m0 := m0) (mb := mb) (mo := mo) (n := n) hin ((bcpMap_answered ..).trans hms)
  simp only [State.credStart, credMaps_ok h, readNelem_known hn ht]
  change s.answered.finish (s.answered.credIssue d a b memory (m0, mb, mo) n) = _
  rw [hissue]
  rfl

theorem credIssued_issued (hs : s.Inv) (n : Nat) : Issued s (s.credIssued d a b memory m0 ms mb mo n) (m0 ++ ms ++ mb ++ mo)
    (.cred (mo.pa (addrOf (s.x d))) (placeOf memory ms (addrOf (s.x a)) (4 * n)) (bits (s.x b) 31 0) n none) (barrierPa (addrOf (s.x (b + 1))) mb) :=
  issue_issued ((((touchAll_writes s .read m0).touchAll .read ms).touchAll .readWrite mb).touchAll .readWrite mo) hs _ _

end

end

/-- Settles O44: the checks of R334 one after another, then the issue of a command that holds its operands. -/
theorem commandsIssue : Obligations.CommandsIssue := by
  refine ⟨?wait, fun s hs hc => ⟨?bcp, ?a2a, ?cred, ?ofld⟩⟩
  case wait =>
    intro s d a b h
    have hb (sm dm : Bool) : s.finish (s.bcpIssue d a b sm dm) = .next { s with core.wait := .engine } := by
      rw [State.bcpIssue, needCommand_wait h, run_error_bind, State.finish_wait]
    have ha (quad : Bool) : s.finish (s.a2aIssue d a b quad) = .next { s with core.wait := .engine } := by
      rw [State.a2aIssue, needCommand_wait h, run_error_bind, State.finish_wait]
    have hc (memory : Bool) : s.credStart d a b memory = .next { s with core.wait := .engine } := by
      rw [cred_error (e := .wait .engine) (by rw [State.credMaps, needCommand_wait h, run_error_bind]), State.finish_wait]
    have ho (out : Bool) : s.finish (s.ofldIssue d a b out) = .next { s with core.wait := .engine } := by
      rw [State.ofldIssue, needCommand_wait h, run_error_bind, State.finish_wait]
    simp only [List.forall_mem_cons]
    exact ⟨hb true true, hb true false, hb false true, ha false, ha true, hc true, hc false, ho true, ho false, fun i hi => nomatch hi⟩
  case bcp =>
    intro i d a b sm dm ms md mb hi n src dst bar
    have hex := exec_copy (s := s) hi
    refine ⟨fun h => ⟨0, ?_⟩, fun h1 h2 hsm hdm h => ⟨0, ?_⟩, fun h1 h2 ho h => ⟨0, ?_⟩, fun h1 h2 ho hb hsrc hdst hms hmd hmb hp => ?_⟩
    · rw [hex, bcp_length hc h]
      rfl
    · rw [hex, bcp_overlap hc h1 h2 hsm hdm h]
      rfl
    · rw [hex, bcp_align hc ⟨h1, h2, ho⟩ h]
      rfl
    · refine ⟨_, ?_, copyIssued_issued hs ms md mb⟩
      rw [Completes, hex, bcp_issues hc ⟨h1, h2, ho⟩ hb hsrc hdst hms hmd hmb hp]
      rfl
  case a2a =>
    intro d a b quad mb ms i v w g csz steps bar sched bases sizes
    have hex : exec i s = s.finish (s.a2aIssue d a b quad) := exec_a2a s d a b quad
    refine ⟨fun h => ⟨0, ?_⟩, fun hb h => ⟨0, ?_⟩, fun l hb hz hl hcls => ⟨0, ?_⟩, fun hb hz hcls => ?_⟩
    · rw [hex, a2a_bases hc h]
      rfl
    · rw [hex, a2a_sizes hc hb h]
      rfl
    · rw [hex, a2a_class hc hb hz hl hcls]
      rfl
    have hargs : A2aArgs s b := ⟨hc, hb, hz, hcls⟩
    refine ⟨fun h => ⟨0, ?_⟩, fun h h' => ⟨0, ?_⟩, fun h h' hend hsrc hdst hmb hms hpb hps => ?_⟩
    · rw [hex, a2a_align hargs h]
      rfl
    · rw [hex, a2a_schedule hargs h h']
      rfl
    · refine ⟨_, ?_, a2aIssued_issued hs mb ms⟩
      rw [Completes, hex, a2a_issues hargs h h' hend hsrc hdst hmb hms hpb hps]
      rfl
  case cred =>
    intro d a b memory m0 mb mo ms i obj src bar home limits reached
    have hex : exec i s = s.credStart d a b memory := exec_cred s d a b memory
    refine ⟨fun h => ⟨0, ?_⟩, fun h h' => ⟨0, ?_⟩, fun h h' h'' => ⟨0, ?_⟩, fun n hn hl hr => ?_⟩
    · rw [hex, cred_error (credMaps_index hc h)]
      rfl
    · rw [hex, cred_error (credMaps_barrier hc h h')]
      rfl
    · rw [hex, cred_error (credMaps_object hc h h' h'')]
      rfl
    obtain ⟨hindex, hbar, hobj, hsrc⟩ := hl
    obtain ⟨hm0, hmb, hmo, hpb, hpo⟩ := hr
    have hargs : CredArgs s d a b memory m0 mb mo := ⟨hc, hindex, hbar, hobj, hsrc, hm0, hmb, hmo, hpb, hpo⟩
    refine ⟨fun hp ht => ?_, fun ht hin hms => ?_⟩
    · rw [Waits, hex]
      exact credStart_waits hargs hp ht
    · refine ⟨_, ?_, credIssued_issued (s := s.answered) ⟨hs.memory, hs.localStore, hs.flash, hs.l1, hs.status, hs.counts⟩ n⟩
      rw [Completes, hex]
      exact credStart_issues hargs hn ht hin hms
  case ofld =>
    intro d a b out m mb i v va n bar drive
    have hex : exec i s = s.finish (s.ofldIssue d a b out) := exec_ofld s d a b out
    refine ⟨fun h => ⟨0, ?_⟩, fun hd h => ⟨0, ?_⟩, fun hd hp h => ⟨0, ?_⟩, fun hd hp hw hlo hhi hb hend hm hmb hpb => ?_⟩
    · rw [hex, ofld_drive hc h]
      rfl
    · rw [hex, ofld_page hc hd h]
      rfl
    · rw [hex, ofld_length hc hd hp h]
      rfl
    · refine ⟨_, ?_, ofldIssued_issued hs m mb⟩
      rw [Completes, hex, ofld_issues ⟨hc, hd, hp, hw, hlo, hhi⟩ hb hend hm hmb hpb]
      rfl

end Sys2Proof.Machine
end

section
/-! Streams (13 R345 to R348). -/

namespace Sys2Proof.Machine

section
variable {s : State} {q : BitVec 2} {a b d : BitVec 5} {esz : BitVec 2} {bt : BitVec 1}

/-! sbind (13 R346). -/

theorem sbind_waits (h : 32 ≤ s.inFlight) : Waits (.sbind q a b esz) s .engine := by
  change execSbind q a b esz s = _
  rw [execSbind, needCommand_wait h, run_error_bind, State.finish_wait]

/-- What sbind needs of its registers and its source. -/
structure SbindArgs (s : State) (a b : BitVec 5) (esz : BitVec 2) (m : XMap) : Prop where
  room : s.inFlight < 32
  least : 8 ≤ bits (s.x b) 23 20
  aligned : bits (s.x b) 18 0 % 2 ^ bits (s.x b) 23 20 = 0
  upper : bits (s.x b) 63 24 = 0
  bit19 : (s.x b).getLsbD 19 = false
  some : bits (s.x (b + 1)) 31 0 ≠ 0
  count : bits (s.x (b + 1)) 63 32 = 0
  range : addrOf (s.x a) + bits (s.x (b + 1)) 31 0 * 2 ^ esz.toNat ≤ 2 ^ 56
  ring : bits (s.x b) 18 0 + 2 ^ bits (s.x b) 23 20 ≤ 2 ^ 19
  reads : s.engineMap .read (addrOf (s.x a)) (bits (s.x (b + 1)) 31 0 * 2 ^ esz.toNat) = .ok m
  source : s.needSource (addrOf (s.x a)) m = .ok ()

/-- The stream that sbind binds. -/
def State.boundStream (s : State) (a b : BitVec 5) (esz : BitVec 2) (m : XMap) : Stream :=
  ⟨true, esz, BitVec.ofNat 56 (addrOf (s.x a)), BitVec.ofNat 32 (bits (s.x (b + 1)) 31 0), 0, BitVec.ofNat 19 (bits (s.x b) 18 0),
    BitVec.ofNat 4 (bits (s.x b) 23 20), 0,
    ⟨m.runs (addrOf (s.x a)) (bits (s.x (b + 1)) 31 0 * 2 ^ esz.toNat), m.pages, [], addrOf (s.x a), s.core.nextCmd⟩⟩

theorem sbind_checked {m : XMap} (h : SbindArgs s a b esz m) : exec (.sbind q a b esz) s = s.finish (do
    need (!(s.stream q).bound && (s.ringClash (bits (s.x b) 18 0) (2 ^ bits (s.x b) 23 20)).isNone) .streamBusy (q.setWidth 64)
    .ok ((s.touchAll .read m).setStream q (s.boundStream a b esz m)).advance) := by
  obtain ⟨room, least, aligned, upper, bit19, some, count, range, ring, reads, source⟩ := h
  have hring : (decide (8 ≤ bits (s.x b) 23 20) && bits (s.x b) 18 0 % 2 ^ bits (s.x b) 23 20 == 0 && bits (s.x b) 63 24 == 0
      && !(s.x b).getLsbD 19) = true := by
    simp only [Bool.and_eq_true, decide_eq_true_eq, beq_iff_eq, Bool.not_eq_true']
    exact ⟨⟨⟨least, aligned⟩, upper⟩, bit19⟩
  have hcount : (bits (s.x (b + 1)) 31 0 != 0 && bits (s.x (b + 1)) 63 32 == 0) = true := by
    simp only [Bool.and_eq_true, bne_iff_ne, beq_iff_eq]
    exact ⟨some, count⟩
  change execSbind q a b esz s = _
  rw [execSbind]
  simp only [needCommand_ok room, need_yes hring, need_yes hcount, needAddr_ok range, needLocal_ok (Or.inr ring), reads, source, run_ok_bind]
  rfl

theorem sbind_busy {m : XMap} (h : SbindArgs s a b esz m)
    (hb : (s.stream q).bound = true ∨ (s.ringClash (bits (s.x b) 18 0) (2 ^ bits (s.x b) 23 20)).isSome = true) :
    TrapsWith (.sbind q a b esz) s .streamBusy (q.zeroExtend 64) := by
  have hno : (!(s.stream q).bound && (s.ringClash (bits (s.x b) 18 0) (2 ^ bits (s.x b) 23 20)).isNone) = false := by
    rcases hb with hb | hb
    · simp [hb]
    · rw [Option.isSome_iff_exists] at hb
      obtain ⟨i, hi⟩ := hb
      simp [hi]
  refine ⟨0, ?_⟩
  rw [sbind_checked h, need_no hno, run_error_bind]
  rfl

theorem sbind_completes {m : XMap} (h : SbindArgs s a b esz m) (hb : (s.stream q).bound = false)
    (hc : s.ringClash (bits (s.x b) 18 0) (2 ^ bits (s.x b) 23 20) = none) :
    Completes (.sbind q a b esz) s ((s.touchAll .read m).setStream q (s.boundStream a b esz m)) := by
  rw [Completes, sbind_checked h, hb, hc]
  rfl

theorem sbind_accesses (hs : s.Inv) (m : XMap) (r : Stream) :
    Accesses s { (s.touchAll .read m).setStream q r with core.unit.q := s.core.unit.q } m s.x := by
  have hw := touchAll_writes s .read m
  have hacc := hw.accesses hs
  rw [← hw.rest.unit]
  exact ⟨hacc.regs, hacc.rest, hacc.stores, hacc.bytes⟩

theorem touchAll_stream (m : XMap) (acc : Access) (p : BitVec 2) : (s.touchAll acc m).stream p = s.stream p := by
  rw [State.stream, State.stream, (touchAll_memOnly ..).unit]

/-! qrd, qavail and sunbind (13 R347). -/

theorem needBound_ok (h : (s.stream q).bound = true) : s.needBound q = .ok () := need_yes h
theorem needBound_error (h : (s.stream q).bound = false) : s.needBound q = .error (.trap .streamUnbound (q.setWidth 64) 0) := need_no h

theorem qrd_unbound (h : (s.stream q).bound = false) : TrapsWith (.qrd q bt d) s .streamUnbound (q.zeroExtend 64) := by
  refine ⟨0, ?_⟩
  change execQrd q bt d s = _
  rw [execQrd, needBound_error h, run_error_bind]
  rfl

theorem qavail_unbound (h : (s.stream q).bound = false) : TrapsWith (.qavail q d) s .streamUnbound (q.zeroExtend 64) := by
  refine ⟨0, ?_⟩
  change execQavail q d s = _
  rw [execQavail, needBound_error h, run_error_bind]
  rfl

theorem qavail_completes (h : (s.stream q).bound = true) :
    Completes (.qavail q d) s (s.setX d (BitVec.ofNat 64 (2 ^ 63 + (s.stream q).arrived.toNat))) := by
  change execQavail q d s = _
  rw [execQavail, needBound_ok h, run_ok_bind]
  rfl

theorem qrd_empty_traps (h : (s.stream q).bound = true) (ha : (s.stream q).arrived = 0) :
    TrapsWith (.qrd q 1 d) s .streamEmpty (q.zeroExtend 64) := by
  refine ⟨0, ?_⟩
  change execQrd q 1 d s = _
  rw [execQrd, needBound_ok h, run_ok_bind]
  simp only [ha, beq_self_eq_true, if_true, run_error_bind]
  rfl

theorem qrd_empty_waits (h : (s.stream q).bound = true) (ha : (s.stream q).arrived = 0) : Waits (.qrd q 0 d) s .stream := by
  change execQrd q 0 d s = _
  rw [execQrd, needBound_ok h, run_ok_bind]
  simp only [ha, beq_self_eq_true, if_true]
  rfl

theorem qrd_bad {va : Nat} (h : (s.stream q).bound = true) (ha : (s.stream q).arrived ≠ 0) (hbad : (s.stream q).badElement s.core.lsPoison = some va) :
    TrapsWith (.qrd q bt d) s .machineCheck (BitVec.ofNat 64 va) := by
  refine ⟨(s.stream q).paOf va, ?_⟩
  change execQrd q bt d s = _
  rw [execQrd, needBound_ok h, run_ok_bind]
  simp only [beq_eq_false_iff_ne.2 ha, Bool.false_eq_true, if_false, hbad]
  rfl

/-- The stream after its next element was taken. -/
def Stream.taken (r : Stream) : Stream := if r.next + 1 = r.count then Stream.unbound else { r with next := r.next + 1, arrived := r.arrived - 1 }

theorem qrd_completes (h : (s.stream q).bound = true) (ha : (s.stream q).arrived ≠ 0) (hok : (s.stream q).badElement s.core.lsPoison = none) :
    Completes (.qrd q bt d) s ((s.setStream q (s.stream q).taken).setX d
      (BitVec.ofNat 64 (leNat (s.core.ls.readBytes ((s.stream q).offset (s.stream q).next.toNat) (2 ^ (s.stream q).esz.toNat))))) := by
  change execQrd q bt d s = _
  rw [execQrd, needBound_ok h, run_ok_bind]
  simp only [beq_eq_false_iff_ne.2 ha, Bool.false_eq_true, if_false, hok, Stream.taken, beq_iff_eq]
  rfl

/-! The engine's fills (13 R346, R348). -/

/-- No command that was issued before the stream was bound uses its ring. -/
def State.RingFree (s : State) (r : Stream) : Prop :=
  ∀ c ∈ s.core.cmds, c.id < r.data.order → ∀ l ∈ c.lsRanges, overlap r.lsbase.toNat (2 ^ r.lsz.toNat) l.1 l.2 = false

theorem ringTurn_iff (r : Stream) : s.ringTurn r = true ↔ s.RingFree r := by
  simp [State.ringTurn, State.RingFree]

theorem fill_not_due (h : (s.stream q).canFill = false ∨ ¬s.RingFree (s.stream q) ∨ ¬s.placeTaken (.mem (s.stream q).data.runs)
    ((s.stream q).addr.toNat - (s.stream q).data.base) (2 ^ (s.stream q).esz.toNat) = true) : exec (.streamElementFill q) s = .next s := by
  change execStreamElementFill q s = _
  rw [execStreamElementFill]
  dsimp only
  rw [if_pos]
  rw [← ringTurn_iff] at h
  simpa [or_assoc] using h

theorem stretches_ok (b : Byte) (bs : List Byte) (i : Nat) : stretches ((b :: bs).map Moved.ok) i = [(i, b :: bs)] := by
  induction bs generalizing b i with
  | nil => rfl
  | cons c r ih =>
    rw [List.map_cons, stretches, ih]
    simp

theorem badOffsets_ok (bs : List Byte) : badOffsets (bs.map Moved.ok) = [] := by
  rw [badOffsets, List.filter_eq_nil_iff]
  intro i hi
  have hlt : i < bs.length := by simpa using hi
  simp [List.getD_eq_getElem?_getD, hlt]

/-- Good bytes reach the local store as they are. -/
theorem moveToLs_ok (off : Nat) (b : Byte) (bs : List Byte) : s.moveToLs off ((b :: bs).map Moved.ok) = s.lsWrite off (b :: bs) := by
  rw [State.moveToLs, stretches_ok, badOffsets_ok]
  rfl

/-- A run of good memory of this device. -/
theorem moveRun_good {pa n : Nat} (hp : s.peerOf pa = none) (ho : s.physOk pa = true) (hg : ∀ k, k < n → s.badGranule (granuleOf (pa + k)) = false)
    (peer : PeerPart) (i : Nat) : s.moveRun ⟨pa, n⟩ peer i = (s.mem.readBytes pa n).map Moved.ok := by
  have hcut : s.cutOff pa = false := by rw [State.cutOff, hp]; rfl
  rw [State.moveRun, Mem.readBytes, List.map_map]
  simp only [hcut, hp, ho, Bool.false_eq_true, if_false, Option.isSome_none, Bool.not_true]
  exact List.map_congr_left fun k hk => by simp [hg k (List.mem_range.1 hk)]

/-- The stream after its next element arrived. -/
def Stream.filled (r : Stream) : Stream := { r with addr := r.addr + BitVec.ofNat 56 (2 ^ r.esz.toNat), arrived := r.arrived + 1 }

theorem fill_good {pa : Nat} (hc : (s.stream q).canFill = true) (hf : s.RingFree (s.stream q))
    (ht : s.placeTaken (.mem (s.stream q).data.runs) ((s.stream q).addr.toNat - (s.stream q).data.base) (2 ^ (s.stream q).esz.toNat) = true)
    (hr : runsSlice (s.stream q).data.runs ((s.stream q).addr.toNat - (s.stream q).data.base) (2 ^ (s.stream q).esz.toNat)
      = [⟨pa, 2 ^ (s.stream q).esz.toNat⟩])
    (hp : s.peerOf pa = none) (ho : s.physOk pa = true) (hg : ∀ k, k < 2 ^ (s.stream q).esz.toNat → s.badGranule (granuleOf (pa + k)) = false) :
    exec (.streamElementFill q) s = .next ((s.lsWrite ((s.stream q).offset ((s.stream q).next.toNat + (s.stream q).arrived.toNat))
      (s.mem.readBytes pa (2 ^ (s.stream q).esz.toNat))).setStream q (s.stream q).filled) := by
  obtain ⟨byte, bytes, hbytes⟩ : ∃ byte bytes, s.mem.readBytes pa (2 ^ (s.stream q).esz.toNat) = byte :: bytes :=
    List.exists_cons_of_ne_nil (by simp [Mem.readBytes])
  have hmove : (s.moveFrom (.mem [⟨pa, 2 ^ (s.stream q).esz.toNat⟩]) (2 ^ (s.stream q).esz.toNat) .taken).map
      (fun m => if m == .failed then .bad else m) = (byte :: bytes).map Moved.ok := by
    rw [State.moveFrom, State.moveRuns, State.moveRuns, moveRun_good hp ho hg, hbytes, List.append_nil, List.map_map]
    rfl
  change execStreamElementFill q s = _
  rw [execStreamElementFill]
  dsimp only
  rw [if_neg (by simp [hc, (ringTurn_iff _).2 hf, ht]), hr, hmove, moveToLs_ok, badOffsets_ok, hbytes]
  rfl

end

/-- Settles O45: sbind, qrd and the fills each by what the stream register holds. -/
theorem streams : Obligations.Streams := by
  intro s q a b d esz bt m hs r v w va n size others ringFree
  refine ⟨sbind_waits, fun hroom h1 h2 h3 h4 h5 h6 h7 h8 h9 h10 => ?sbind, fun h => ⟨qrd_unbound h, qavail_unbound h⟩, fun h ha => ⟨?_, ?_⟩,
    fun va => qrd_bad, ?qrd, fun h => ⟨_, qavail_completes h, SetsX.of_setX s d _⟩, ⟨_, rfl, fun p hp => ?_, State.setStream_self s q _, rfl⟩, fill_not_due, ?fill⟩
  case sbind =>
    have hargs : SbindArgs s a b esz m := ⟨hroom, h1, h2, h3, h4, h5, h6, h7, h8, h9, h10⟩
    refine ⟨sbind_busy hargs, fun hb hc => ⟨_, sbind_completes hargs hb hc, fun p hp => ?_, State.setStream_self .., sbind_accesses hs m _⟩⟩
    rw [State.setStream_stream, if_neg hp, touchAll_stream]
  · rintro rfl
    exact qrd_empty_traps h ha
  · rintro rfl
    exact qrd_empty_waits h ha
  case qrd =>
    intro h ha hok slot
    have hset := SetsX.of_setX (s.setStream q r.taken) d (BitVec.ofNat 64 (leNat (s.core.ls.readBytes (r.offset r.next.toNat) (2 ^ r.esz.toNat))))
    refine ⟨_, qrd_completes h ha hok, fun p hp => ?_, hset.dest, hset.others, ?_, ?_⟩
    · rw [State.setX_stream, State.setStream_stream, if_neg hp]
    · have hrest := congrArg (fun u : State => { u with core.unit.q := s.core.unit.q }) hset.rest
      exact hrest
    · rw [State.setX_stream, State.setStream_self]
      rfl
  · rw [State.setStream_stream, if_neg hp]
  case fill =>
    intro pa hc hf ht hr hp ho hg slot
    refine ⟨_, fill_good hc hf ht hr hp ho hg, fun p hp => ?_, State.setStream_self .., fun o => ?_, rfl⟩
    · rw [State.setStream_stream, if_neg hp]
      rfl
    · change (s.core.ls.write _ _).read o = _
      rw [Mem.read_write, show (s.mem.readBytes pa (2 ^ r.esz.toNat)).length = 2 ^ r.esz.toNat by simp [Mem.readBytes]]
      refine ite_congr rfl (fun hin => ?_) (fun _ => rfl)
      exact Mem.readBytes_getD _ _ _ _ (Nat.sub_lt_left_of_lt_add hin.1 hin.2)

end Sys2Proof.Machine
end

section
/-! What the dispatcher's operations leave as it was: they write records and tables in memory and change the partitions (09 R217 to R243). -/

namespace Sys2Proof.Machine

/-- t is s after operations of a dispatcher: memory with its caches, the partitions and the model's counter may differ, in their forms. -/
structure Dispatched (s t : State) : Prop extends PartsOnly s t where
  form : s.core.l1.Ok → t.core.l1.Ok
  memory : s.core.l1.Ok → s.mem.wf = true → t.mem.wf = true
  dirty : t.core.l1.dirty.Sublist s.core.l1.dirty
  ids : ∀ q, (t.partAt q).nextId = (s.partAt q).nextId

section
variable {s t u : State}

theorem Dispatched.refl (s : State) : Dispatched s s := ⟨PartsOnly.refl s, id, fun _ => id, List.Sublist.refl _, fun _ => rfl⟩

theorem Dispatched.trans (h : Dispatched s t) (k : Dispatched t u) : Dispatched s u :=
  ⟨h.toPartsOnly.trans k.toPartsOnly, fun hs => k.form (h.form hs), fun hs hw => k.memory (h.form hs) (h.memory hs hw), k.dirty.trans h.dirty,
    fun q => (k.ids q).trans (h.ids q)⟩

theorem Dispatched.foldl {α : Type} (f : State → α → State) (l : List α) (hf : ∀ s, ∀ a ∈ l, Dispatched s (f s a)) (s : State) :
    Dispatched s (l.foldl f s) :=
  List.foldlRecOn (motive := fun (t : State) => Dispatched s t) l f (Dispatched.refl s) fun t ht a ha => ht.trans (hf t a ha)

theorem Writes.dispatched {w : Nat → Prop} (h : Writes w s t) (hd : t.core.l1.dirty.Sublist s.core.l1.dirty) : Dispatched s t :=
  ⟨h.rest.partsOnly, h.form, h.memory, hd, fun q => by rw [h.rest.partAt]⟩

/-- A change of one partition that leaves its next identifier. -/
theorem modPart_dispatched (s : State) (p : BitVec 3) (f : Part → Part) (hf : (f (s.partAt p)).nextId = (s.partAt p).nextId) :
    Dispatched s (s.modPart p f) where
  toPartsOnly := modPart_partsOnly s p f
  form := id
  memory _ := id
  dirty := List.Sublist.refl _
  ids q := by
    rw [State.modPart_partAt]
    split
    · next h => rw [hf, h]
    · rfl

theorem ticked_dispatched (s : State) : Dispatched s s.ticked := ⟨ticked_partsOnly s, id, fun _ => id, List.Sublist.refl _, fun _ => rfl⟩

theorem Dispatched.inv (h : Dispatched s t) (hs : s.Inv) : t.Inv where
  memory := h.memory hs.l1 hs.memory
  localStore := by
    have hls := congrArg (·.core.ls) h.rest
    exact (show t.core.ls = s.core.ls from hls) ▸ hs.localStore
  flash := by
    have hm := congrArg (·.mgmt) h.rest
    exact (show t.mgmt = s.mgmt from hm) ▸ hs.flash
  l1 := h.form hs.l1
  status := h.unit ▸ hs.status
  counts := by
    have hb := congrArg (·.beryl) h.rest
    exact (show t.beryl = s.beryl from hb) ▸ hs.counts

end

/-! Memory (10 R254, R257, R263). -/

theorem homeWrite_dispatched (s : State) (path : Path) (pa : Nat) (bs : List Byte) : Dispatched s (s.homeWrite path pa bs) :=
  (homeWrite_writes s path pa bs).dispatched (homeWrite_dirty s path pa bs)

theorem recordWrite_dispatched (s : State) (pa : Nat) (bs : List Byte) : Dispatched s (s.recordWrite pa bs) := by
  unfold State.recordWrite
  split
  · exact homeWrite_dispatched ..
  · exact Dispatched.refl s

theorem setPteBits_dirty (s : State) (acc : Access) (x : Xl) (ea : Nat) : (s.setPteBits acc x ea).core.l1.dirty.Sublist s.core.l1.dirty := by
  unfold State.setPteBits
  split
  · exact List.Sublist.refl _
  · exact (homeWrite_dirty _ _ _ _).trans (by rw [writeBackLine_dirty]; exact List.filter_sublist)

theorem walkBits_dispatched (s : State) (acc : Access) (x : Xl) : Dispatched s (s.walkBits acc x) := by
  unfold State.walkBits
  split
  · exact Dispatched.refl s
  · exact (setPteBits_writes ..).dispatched (setPteBits_dirty ..)

/-! Records (09 R242, R243; 14 R365). -/

theorem Part.countIrq_nextId (q : Part) : q.countIrq.nextId = q.nextId := by
  rw [Part.countIrq]
  split <;> rfl
theorem Part.countIrq_launches (q : Part) : q.countIrq.launches = q.launches := by
  rw [Part.countIrq]
  split <;> rfl

theorem putEvent_dispatched (s : State) (p : BitVec 3) (ws : List Word64) : Dispatched s (s.putEvent p ws) := by
  unfold State.putEvent
  exact (recordWrite_dispatched ..).trans (modPart_dispatched _ p _ (Part.countIrq_nextId _))

theorem putFault_dispatched (s : State) (p : BitVec 3) (ws : List Word64) : Dispatched s (s.putFault p ws) := by
  unfold State.putFault
  exact (recordWrite_dispatched ..).trans (modPart_dispatched _ p _ rfl)

theorem eventRecord_dispatched (s : State) (p : BitVec 3) (ws : List Word64) : Dispatched s (s.eventRecord p ws) := by
  unfold State.eventRecord
  dsimp only
  split
  · exact putEvent_dispatched ..
  · exact modPart_dispatched _ p _ rfl

theorem faultRecord_dispatched (s : State) (p : BitVec 3) (ws : List Word64) : Dispatched s (s.faultRecord p ws) := by
  unfold State.faultRecord
  dsimp only
  split
  · exact putFault_dispatched ..
  · exact modPart_dispatched _ p _ rfl

theorem completion_dispatched (s : State) (p : BitVec 3) (ident : BitVec 32) (level status nfault : Nat) (cause : BitVec 6) (ftask : BitVec 32)
    (aux : Word64) : Dispatched s (s.completion p ident level status nfault cause ftask aux) :=
  (eventRecord_dispatched s p _).trans (ticked_dispatched _)

theorem faultLog_dispatched (s : State) (p : BitVec 3) (type : Nat) (cause : BitVec 6) (f nested : Bool) (pl : BitVec 2) (core : BitVec 7)
    (task launch : BitVec 32) (epc : BitVec 56) (tval repst : Word64) (paddr : Nat) :
    Dispatched s (s.faultLog p type cause f nested pl core task launch epc tval repst paddr) :=
  (faultRecord_dispatched s p _).trans (ticked_dispatched _)

theorem putEvent_launches (s : State) (p q : BitVec 3) (ws : List Word64) : ((s.putEvent p ws).partAt q).launches = (s.partAt q).launches := by
  unfold State.putEvent
  rw [State.modPart_partAt]
  split
  · next h => rw [Part.countIrq_launches, (recordWrite_memOnly ..).partAt, h]
  · rw [(recordWrite_memOnly ..).partAt]

theorem putFault_launches (s : State) (p q : BitVec 3) (ws : List Word64) : ((s.putFault p ws).partAt q).launches = (s.partAt q).launches := by
  unfold State.putFault
  rw [State.modPart_partAt]
  split
  · next h => rw [(recordWrite_memOnly ..).partAt, h]
  · rw [(recordWrite_memOnly ..).partAt]

theorem completion_launches (s : State) (p q : BitVec 3) (ident : BitVec 32) (level status nfault : Nat) (cause : BitVec 6) (ftask : BitVec 32)
    (aux : Word64) : ((s.completion p ident level status nfault cause ftask aux).partAt q).launches = (s.partAt q).launches := by
  change ((s.eventRecord p _).partAt q).launches = _
  unfold State.eventRecord
  dsimp only
  split
  · exact putEvent_launches ..
  · rw [State.modPart_partAt]
    split
    · next h => rw [h]
    · rfl

theorem faultLog_launches (s : State) (p q : BitVec 3) (type : Nat) (cause : BitVec 6) (f nested : Bool) (pl : BitVec 2) (core : BitVec 7)
    (task launch : BitVec 32) (epc : BitVec 56) (tval repst : Word64) (paddr : Nat) :
    ((s.faultLog p type cause f nested pl core task launch epc tval repst paddr).partAt q).launches = (s.partAt q).launches := by
  change ((s.faultRecord p _).partAt q).launches = _
  unfold State.faultRecord
  dsimp only
  split
  · exact putFault_launches ..
  · rw [State.modPart_partAt]
    split
    · next h => rw [h]
    · rfl

/-! The dispatcher's tables (09 R217, R220, R241). -/

theorem dispPa_dispatched {s t : State} {p : BitVec 3} {l : Launch} {va pa : Nat} (h : s.dispPa p l va = .ok (pa, t)) : Dispatched s t := by
  unfold State.dispPa at h
  split at h
  · next k _ =>
    cases hp : s.dispPhys (k.2.1 + va % 4096) <;> rw [hp] at h <;> cases h
    exact Dispatched.refl s
  · cases hx : s.dispLeaf p va <;> rw [hx] at h <;> cases h
    exact (walkBits_dispatched ..).trans (modPart_dispatched _ p _ rfl)

theorem dispWrite_dispatched (s : State) (p : BitVec 3) (l : Launch) (va : Nat) (f : Nat → State → List Byte) : Dispatched s (s.dispWrite p l va f) := by
  unfold State.dispWrite
  split
  · next h => exact (dispPa_dispatched h).trans (homeWrite_dispatched ..)
  · exact faultLog_dispatched ..

theorem busyEntry_dispatched (s : State) (p : BitVec 3) (l : Launch) (u : UnitRec) (ended : Bool) : Dispatched s (s.busyEntry p l u ended) := by
  unfold State.busyEntry
  split
  · exact Dispatched.refl s
  · exact (dispWrite_dispatched ..).trans (ticked_dispatched _)

theorem sliceEntry_dispatched (s : State) (p : BitVec 3) (l : Launch) (slice core u : Nat) : Dispatched s (s.sliceEntry p l slice core u) := by
  unfold State.sliceEntry
  split
  · exact Dispatched.refl s
  · exact dispWrite_dispatched ..

theorem countUp_dispatched (s : State) (p : BitVec 3) (l : Launch) : Dispatched s (s.countUp p l) := by
  unfold State.countUp
  split
  · exact Dispatched.refl s
  · exact dispWrite_dispatched ..

theorem dispBlocks_dispatched (p : BitVec 3) (bs : List Nat) (s : State) : Dispatched s (s.dispBlocks p bs).2 := by
  induction bs generalizing s with
  | nil => exact Dispatched.refl s
  | cons b r ih =>
    rw [State.dispBlocks]
    split
    · exact Dispatched.refl s
    · next x _ => exact (walkBits_dispatched s .readWrite x).trans (ih _)

theorem dispRange_dispatched (s : State) (p : BitVec 3) (va n : Nat) : Dispatched s (s.dispRange p va n).2 := by
  unfold State.dispRange
  split
  · exact Dispatched.refl s
  · split
    · exact Dispatched.refl s
    · exact dispBlocks_dispatched ..

theorem tablesBad_dispatched (s : State) (p : BitVec 3) (r : Rec) : Dispatched s (s.tablesBad p r).2 := by
  have h1 := dispRange_dispatched s p r.ccaddr 8
  unfold State.tablesBad
  split
  · next h => rw [h] at h1; exact h1
  · next k1 s1 h =>
    rw [h] at h1
    have h2 := dispRange_dispatched s1 p r.ibt r.ibtLen
    split
    · next h' => rw [h'] at h2; exact h1.trans h2
    · next h' => rw [h'] at h2; exact h1.trans h2

theorem validate_dispatched (s : State) (p : BitVec 3) (r : Rec) : Dispatched s (s.validate p r).2 := by
  have ht := tablesBad_dispatched s p r
  unfold State.validate
  dsimp only
  split
  · exact Dispatched.refl s
  · split
    · next h => rw [h] at ht; exact ht
    · next h =>
      rw [h] at ht
      repeat' split
      all_goals exact ht

/-! Endings, readiness and triggers (09 R216, R217, R224, R225, R230). -/

theorem phaseHold_dispatched (s : State) (p : BitVec 3) : Dispatched s (s.phaseHold p) := by
  unfold State.phaseHold
  split
  · exact modPart_dispatched _ p _ rfl
  · exact Dispatched.refl s

theorem closeLevel_dispatched (s : State) (p : BitVec 3) (level id : Nat) : Dispatched s (s.closeLevel p level id) := by
  unfold State.closeLevel
  dsimp only
  generalize (if level == 2 then (s.partAt p).openGraph id else (s.partAt p).openPhase id) = opened
  split
  · split
    · exact Dispatched.refl s
    · split
      · exact ((modPart_dispatched s p _ (by rfl)).trans (completion_dispatched ..)).trans (phaseHold_dispatched ..)
      · exact (modPart_dispatched s p _ (by rfl)).trans (completion_dispatched ..)
  · exact Dispatched.refl s

theorem closeJob_dispatched (s : State) (p : BitVec 3) : Dispatched s (s.closeJob p) := by
  unfold State.closeJob
  dsimp only
  split
  · exact (modPart_dispatched s p _ (by rfl)).trans (completion_dispatched ..)
  · exact Dispatched.refl s

theorem endLaunch_dispatched (s : State) (p : BitVec 3) (l : Launch) (status : Nat) : Dispatched s (s.endLaunch p l status) := by
  unfold State.endLaunch
  exact ((((modPart_dispatched s p _ (by rfl)).trans (completion_dispatched ..)).trans (closeLevel_dispatched ..)).trans
    (closeLevel_dispatched ..)).trans (closeJob_dispatched ..)

theorem makeReady_dispatched (s : State) (p : BitVec 3) (id : BitVec 32) : Dispatched s (s.makeReady p id).1 := by
  unfold State.makeReady
  dsimp only
  split
  · exact Dispatched.refl s
  · split
    · exact endLaunch_dispatched ..
    · dsimp only
      exact modPart_dispatched s p _ (by rfl)

theorem releaseEntry_dispatched (s : State) (p : BitVec 3) (entry : Nat) : Dispatched s (s.releaseEntry p entry).1 := by
  unfold State.releaseEntry
  dsimp only
  split
  · dsimp only
    exact modPart_dispatched s p _ (by rfl)
  · split
    · split
      · exact makeReady_dispatched ..
      · dsimp only
        exact modPart_dispatched s p _ (by rfl)
    · exact Dispatched.refl s

theorem releaseLoop_dispatched (p : BitVec 3) (n : Nat) (es : List Nat) (s : State) : Dispatched s (State.releaseLoop p n es s) := by
  induction n generalizing es s with
  | zero => exact Dispatched.refl s
  | succ n ih =>
    cases es with
    | nil => exact Dispatched.refl s
    | cons e r => exact (releaseEntry_dispatched s p e).trans (ih _ _)

theorem releaseAll_dispatched (s : State) (p : BitVec 3) (es : List Nat) : Dispatched s (s.releaseAll p es) := releaseLoop_dispatched ..

theorem checkTrigger_dispatched (s : State) (p : BitVec 3) (id : BitVec 32) : Dispatched s (s.checkTrigger p id) := by
  unfold State.checkTrigger
  split
  · exact Dispatched.refl s
  · split
    · exact Dispatched.refl s
    · exact (modPart_dispatched s p _ (by rfl)).trans (releaseAll_dispatched ..)

end Sys2Proof.Machine
end

section
/-! larm, lpat and cncl (09 R225 to R229). -/

namespace Sys2Proof.Machine

/-! Pool entries (09 R225, R228). -/

/-- The word names an entry of the pool. -/
def State.Entry (s : State) (v : Word64) : Prop := bits v 63 12 = 0 ∧ bits v 11 0 < min (s.partAt s.part).poolsize.toNat 4096

/-- A live launch was armed from the entry. -/
def State.Live (s : State) (v : Word64) : Prop := ∃ l ∈ (s.partAt s.part).launches, l.entry = some v.toNat

section
variable {s : State} {v : Word64}

theorem entry_iff : (bits v 63 12 == 0 && decide (bits v 11 0 < (s.partAt s.part).poolEntries)) = true ↔ s.Entry v := by
  simp [State.Entry, Part.poolEntries]

theorem live_iff : (s.partAt s.part).launches.any (fun l => l.entry == some v.toNat) = true ↔ s.Live v := by simp [State.Live]

theorem needEntry_pool (h : ¬s.Entry v) : s.needEntry v = .error (.trap .launchPool v 0) := by
  rw [State.needEntry, need_no (Bool.eq_false_iff.2 (mt entry_iff.1 h)), run_error_bind]

theorem needEntry_live (h : s.Entry v) (hl : s.Live v) : s.needEntry v = .error (.trap .launchState v 0) := by
  rw [State.needEntry, need_yes (entry_iff.2 h), run_ok_bind, live_iff.2 hl]
  rfl

theorem needEntry_ok (h : s.Entry v) (hl : ¬s.Live v) : s.needEntry v = .ok () := by
  rw [State.needEntry, need_yes (entry_iff.2 h), run_ok_bind, Bool.eq_false_iff.2 (mt live_iff.1 hl)]
  rfl

end

/-! Arming (09 R219 to R225). -/

/-- The state in which the next identifier is taken. -/
def State.numbered (s : State) (p : BitVec 3) : State := s.modPart p (fun q => { q with nextId := q.nextId + 1 })

/-- Releases that an entry remembers. -/
def Part.pendingOf (q : Part) (i : Nat) : Nat := (q.pending.find? (fun e => e.1 == i)).elim 0 (·.2)

/-- What the entry remembers is taken. -/
def State.cleared (s : State) (p : BitVec 3) (entry : Option Nat) : State :=
  s.modPart p (fun q => { q with pending := q.pending.filter (fun e => some e.1 != entry) })

/-- The launch as it is armed. -/
def armedLaunch (id : BitVec 32) (entry : Option Nat) (words : Rec) (wait : Nat) (ks : List Kept) : Launch :=
  { id := id, entry := entry, words := words, phase := .armed wait, readySeq := 0, admitted := false, units := [],
    nextUnit := 0, remaining := words.slices, released := false, partialEnd := false, cancelled := false, nfault := 0,
    fcause := 0, ftask := 0, faulty := [], hot := none, turns := [], xlat := ks }

section
variable (s : State) (p : BitVec 3)

theorem enterLaunch_disabled (entry : Option Nat) (words : Rec) (h : (s.partAt p).en = false) :
    s.enterLaunch p entry words = ((s.partAt p).nextId, s.numbered p) := by
  unfold State.enterLaunch
  dsimp only
  rw [if_pos (by simp [h])]
  rfl

theorem enterLaunch_rejected {entry : Option Nat} {words : Rec} {e : Reject} {t : State} (h : (s.partAt p).en = true)
    (hv : (s.numbered p).validate p words = (.error e, t)) :
    s.enterLaunch p entry words = ((s.partAt p).nextId, (t.cleared p entry).completion p (s.partAt p).nextId 1 e.status 0 0 0 e.aux) := by
  have hv' : (s.modPart p (fun q => { q with nextId := q.nextId + 1 })).validate p words = (.error e, t) := hv
  unfold State.enterLaunch
  dsimp only
  rw [if_neg (by simp [h]), hv']
  rfl

/-- The state in which the launch is armed. -/
def State.armed (s t : State) (p : BitVec 3) (i : Nat) (words : Rec) (ks : List Kept) : State :=
  (t.cleared p (some i)).modPart p (fun q => { q with launches := q.launches
    ++ [armedLaunch (s.partAt p).nextId (some i) words (words.depcnt - (s.partAt p).pendingOf i) ks] })

theorem enterLaunch_waits {i : Nat} {words : Rec} {ks : List Kept} {t : State} (h : (s.partAt p).en = true)
    (hv : (s.numbered p).validate p words = (.ok ks, t)) (hw : words.depcnt - (s.partAt p).pendingOf i ≠ 0) :
    s.enterLaunch p (some i) words = ((s.partAt p).nextId, s.armed t p i words ks) := by
  have hv' : (s.modPart p (fun q => { q with nextId := q.nextId + 1 })).validate p words = (.ok ks, t) := hv
  unfold State.enterLaunch
  dsimp only
  rw [if_neg (by simp [h]), hv']
  dsimp only
  rw [if_neg (by simpa [Part.pendingOf] using hw)]
  rfl

theorem enterLaunch_ready {i : Nat} {words : Rec} {ks : List Kept} {t : State} (h : (s.partAt p).en = true)
    (hv : (s.numbered p).validate p words = (.ok ks, t)) (hw : words.depcnt - (s.partAt p).pendingOf i = 0) :
    s.enterLaunch p (some i) words = ((s.partAt p).nextId, ((s.armed t p i words ks).makeReady p (s.partAt p).nextId).1.releaseAll p
      ((s.armed t p i words ks).makeReady p (s.partAt p).nextId).2) := by
  have hv' : (s.modPart p (fun q => { q with nextId := q.nextId + 1 })).validate p words = (.ok ks, t) := hv
  unfold State.enterLaunch
  dsimp only
  rw [if_neg (by simp [h]), hv']
  dsimp only
  rw [if_pos (by simpa [Part.pendingOf] using hw)]
  rfl

/-- An identifier is taken and the rest is the dispatcher's. -/
theorem enterLaunch_spec (i : Nat) (words : Rec) : (s.enterLaunch p (some i) words).1 = (s.partAt p).nextId
    ∧ Dispatched (s.numbered p) (s.enterLaunch p (some i) words).2 := by
  by_cases hen : (s.partAt p).en = true
  · have hval := validate_dispatched (s.numbered p) p words
    obtain ⟨r, t, hv⟩ : ∃ r t, (s.numbered p).validate p words = (r, t) := ⟨_, _, rfl⟩
    rw [hv] at hval
    have hclear : Dispatched t (t.cleared p (some i)) := modPart_dispatched t p _ (by rfl)
    cases r with
    | error e =>
      rw [enterLaunch_rejected s p hen hv]
      exact ⟨rfl, (hval.trans hclear).trans (completion_dispatched ..)⟩
    | ok ks =>
      have harmed : Dispatched t (s.armed t p i words ks) := hclear.trans (modPart_dispatched _ p _ (by rfl))
      by_cases hw : words.depcnt - (s.partAt p).pendingOf i = 0
      · rw [enterLaunch_ready s p hen hv hw]
        exact ⟨rfl, ((hval.trans harmed).trans (makeReady_dispatched ..)).trans (releaseAll_dispatched ..)⟩
      · rw [enterLaunch_waits s p hen hv hw]
        exact ⟨rfl, hval.trans harmed⟩
  · rw [enterLaunch_disabled s p _ _ (Bool.eq_false_iff.2 hen)]
    exact ⟨rfl, Dispatched.refl _⟩

end

/-! larm (09 R228). -/

section
variable {s : State} {d a : BitVec 5}

theorem larm_pool (h : ¬s.Entry (s.x a)) : TrapsWith (.larm d a) s .launchPool (s.x a) := by
  refine ⟨0, ?_⟩
  change execLarm d a s = _
  rw [execLarm]
  simp only [needEntry_pool h, run_error_bind]
  rfl

theorem larm_live (h : s.Entry (s.x a)) (hl : s.Live (s.x a)) : TrapsWith (.larm d a) s .launchState (s.x a) := by
  refine ⟨0, ?_⟩
  change execLarm d a s = _
  rw [execLarm]
  simp only [needEntry_live h hl, run_error_bind]
  rfl

/-- The record that larm reads. -/
def State.recordOf (s : State) (v : Word64) : Rec := s.readRec ((s.partAt s.part).entryPa v.toNat)

/-- The state in which larm has entered the record. -/
def State.entered (s : State) (v : Word64) : State := (s.enterLaunch s.part (some v.toNat) (s.recordOf v)).2

theorem larm_completes (h : s.Entry (s.x a)) (hl : ¬s.Live (s.x a)) :
    Completes (.larm d a) s ((s.entered (s.x a)).setX d ((s.partAt s.part).nextId.zeroExtend 64)) := by
  have hid := (enterLaunch_spec s s.part (s.x a).toNat (s.recordOf (s.x a))).1
  change execLarm d a s = _
  rw [execLarm]
  simp only [needEntry_ok h hl, run_ok_bind]
  change Host.Outcome.next ((State.setX _ d ((s.enterLaunch s.part (some (s.x a).toNat) (s.recordOf (s.x a))).1.setWidth 64)).advance) = _
  rw [hid]
  rfl

theorem entered_dispatched (v : Word64) : Dispatched (s.numbered s.part) (s.entered v) := (enterLaunch_spec ..).2

/-- The record is read at the entry's home (log entries 61, 68). -/
theorem recordOf_eq (v : Word64) : s.recordOf v = (List.range 16).map (fun i =>
    (if s.physHome ((s.partAt s.part).poolbase.toNat + 128 * v.toNat) = true then s.mem else [] : Mem).read64
      ((s.partAt s.part).poolbase.toNat + 128 * v.toNat + 8 * i)) := by
  have hview (pa : Nat) : (s.recordView pa).mem = if s.physHome pa = true then s.mem else [] := by
    rw [State.recordView]
    split <;> rfl
  rw [State.recordOf, State.readRec, hview]
  rfl

theorem PartsOnly.x {s t : State} (h : PartsOnly s t) (r : BitVec 5) : t.x r = s.x r := by rw [State.x, State.x, h.unit]
theorem PartsOnly.k {s t : State} (h : PartsOnly s t) : t.k = s.k := by rw [State.k, State.k, h.unit]

end

/-! lpat (09 R228). -/

/-- The word that lpat leaves, as bit fields. -/
def lpatWord (old xb : Word64) (width : BitVec 2) (off : BitVec 4) : Word64 :=
  let new : Word64 := if width = 0 then xb else if width = 1 then old.extractLsb' 32 32 ++ xb.extractLsb' 0 32
    else xb.extractLsb' 0 32 ++ old.extractLsb' 0 32
  if off = 4 then new.extractLsb' 40 24 ++ old.extractLsb' 37 3 ++ new.extractLsb' 0 37 else new

theorem toNat_append_add {n m : Nat} (x : BitVec n) (y : BitVec m) : (x ++ y).toNat = x.toNat * 2 ^ m + y.toNat := by
  rw [BitVec.toNat_append, ← Nat.shiftLeft_add_eq_or_of_lt y.isLt, Nat.shiftLeft_eq]

theorem bits_extract (w : Word64) (lo len : Nat) : (w.extractLsb' lo len).toNat = w.toNat / 2 ^ lo % 2 ^ len := by
  rw [BitVec.extractLsb'_toNat, Nat.shiftRight_eq_div_pow]

/-- The two merges of an entry's word: the word as it is written, but for the partition's bits of word 4. -/
theorem merged_word (old n : Word64) (off : BitVec 4) :
    (if off.toNat == 4 then BitVec.ofNat 64 (n.toNat / 2 ^ 40 * 2 ^ 40 + bits old 39 37 * 2 ^ 37 + n.toNat % 2 ^ 37) else BitVec.ofNat 64 n.toNat)
      = if off = 4 then n.extractLsb' 40 24 ++ old.extractLsb' 37 3 ++ n.extractLsb' 0 37 else n := by
  have hoff : (off.toNat == 4) = decide (off = 4) := by
    rw [Bool.eq_iff_iff]
    simp [← BitVec.toNat_inj]
  rw [hoff]
  by_cases h : off = 4
  · have ho := old.isLt
    have hn := n.isLt
    rw [if_pos h, decide_eq_true h, if_pos rfl]
    apply BitVec.eq_of_toNat_eq
    rw [toNat_append_add, toNat_append_add, bits_extract, bits_extract, bits_extract, BitVec.toNat_ofNat, bits]
    omega
  · rw [if_neg h, decide_eq_false h, if_neg (by decide), BitVec.ofNat_toNat, BitVec.setWidth_eq]

theorem patched_eq (old xb : Word64) (width : BitVec 2) (off : BitVec 4) : patched old xb width.toNat off.toNat = lpatWord old xb width off := by
  have hwidth : ∀ w : BitVec 2, w = 0 ∨ w = 1 ∨ w = 2 ∨ w = 3 := by decide
  have hlow : bits old 63 32 * 2 ^ 32 + bits xb 31 0 = (old.extractLsb' 32 32 ++ xb.extractLsb' 0 32 : Word64).toNat := by
    rw [toNat_append_add, bits_extract, bits_extract, bits, bits]
  have hhigh : bits xb 31 0 * 2 ^ 32 + bits old 31 0 = (xb.extractLsb' 0 32 ++ old.extractLsb' 0 32 : Word64).toNat := by
    rw [toNat_append_add, bits_extract, bits_extract, bits, bits]
  rcases hwidth width with rfl | rfl | rfl | rfl
  · exact merged_word old xb off
  · refine Eq.trans ?_ (merged_word old (old.extractLsb' 32 32 ++ xb.extractLsb' 0 32) off)
    rw [← hlow]
    rfl
  · refine Eq.trans ?_ (merged_word old (xb.extractLsb' 0 32 ++ old.extractLsb' 0 32) off)
    rw [← hhigh]
    rfl
  · refine Eq.trans ?_ (merged_word old (xb.extractLsb' 0 32 ++ old.extractLsb' 0 32) off)
    rw [← hhigh]
    rfl

section
variable {s : State} {a b : BitVec 5} {width : BitVec 2} {off : BitVec 4}

theorem lpat_pool (h : ¬s.Entry (s.x a)) : TrapsWith (.lpat a b width off) s .launchPool (s.x a) := by
  refine ⟨0, ?_⟩
  change execLpat a b width off s = _
  rw [execLpat]
  simp only [needEntry_pool h, run_error_bind]
  rfl

theorem lpat_live (h : s.Entry (s.x a)) (hl : s.Live (s.x a)) : TrapsWith (.lpat a b width off) s .launchState (s.x a) := by
  refine ⟨0, ?_⟩
  change execLpat a b width off s = _
  rw [execLpat]
  simp only [needEntry_live h hl, run_error_bind]
  rfl

/-- The physical address of a word of an entry. -/
def State.wordPa (s : State) (v : Word64) (off : BitVec 4) : Nat := (s.partAt s.part).poolbase.toNat + 128 * v.toNat + 8 * off.toNat

theorem lpat_waits (h : s.Entry (s.x a)) (hl : ¬s.Live (s.x a)) (hs : Settled s) (hp : s.physHome (s.wordPa (s.x a) off) = true)
    (ht : s.homesTake [lineOf (s.wordPa (s.x a) off)] = false) : Waits (.lpat a b width off) s .other := by
  have hp' : s.physHome ((s.partAt s.part).entryPa (s.x a).toNat + 8 * off.toNat) = true := hp
  have ht' : s.homesTake [lineOf ((s.partAt s.part).entryPa (s.x a).toNat + 8 * off.toNat)] = false := ht
  change execLpat a b width off s = _
  rw [execLpat]
  simp only [needEntry_ok h hl, hs.settleIf, run_ok_bind, hp', ht', Bool.not_true, Bool.or_self, needTaken_false, run_error_bind, State.finish_wait]

/-- The state in which lpat has written its word. -/
def State.patchedAt (s : State) (pa : Nat) (xb : Word64) (width : BitVec 2) (off : BitVec 4) : State :=
  if s.physHome pa then ((linesOf pa 8).foldl State.dropLine s).ownHomeWrite pa
    (leBytes 8 (lpatWord (BitVec.ofNat 64 (s.newestNat pa 8)) xb width off).toNat) else s

theorem lpat_completes (hi : s.Inv) (h : s.Entry (s.x a)) (hl : ¬s.Live (s.x a)) (hs : Settled s)
    (ht : s.physHome (s.wordPa (s.x a) off) = true → s.homesTake [lineOf (s.wordPa (s.x a) off)] = true) :
    Completes (.lpat a b width off) s (s.patchedAt (s.wordPa (s.x a) off) (s.x b) width off) := by
  have htaken : (!s.physHome (s.wordPa (s.x a) off) || s.homesTake [lineOf (s.wordPa (s.x a) off)]) = true := by
    cases hp : s.physHome (s.wordPa (s.x a) off) with
    | false => rfl
    | true => simp [ht hp]
  have hpa : (s.partAt s.part).entryPa (s.x a).toNat + 8 * off.toNat = s.wordPa (s.x a) off := rfl
  have hword : ((linesOf (s.wordPa (s.x a) off) 8).foldl State.dropLine s).mem.read64 (s.wordPa (s.x a) off)
      = BitVec.ofNat 64 (s.newestNat (s.wordPa (s.x a) off) 8) := congrArg (BitVec.ofNat 64) (dropLines_readNat s _ 8 hi.l1.distinct)
  change execLpat a b width off s = _
  rw [execLpat]
  simp only [needEntry_ok h hl, hs.settleIf, run_ok_bind, hpa, htaken, needTaken_true, hword, patched_eq]
  rfl

theorem patchedAt_writes (pa : Nat) (xb : Word64) (hs : s.core.l1.Ok) : MemOnly s (s.patchedAt pa xb width off)
    ∧ ∀ q, (s.patchedAt pa xb width off).newest q = if s.physHome pa = true ∧ s.lands pa 8 q then
      byteOf (lpatWord (BitVec.ofNat 64 (s.newestNat pa 8)) xb width off).toNat (q - pa) else s.newest q := by
  unfold State.patchedAt
  by_cases hp : s.physHome pa = true
  · have hq := dropLines_quiet (linesOf pa 8) s
    rw [if_pos hp]
    refine ⟨hq.rest.trans (ownHomeWrite_memOnly ..), fun q => ?_⟩
    rw [ownHomeWrite_number _ _ _ _ (hq.form hs)]
    simp only [hp, true_and, hq.rest.lands, hq.bytes hs q id]
  · rw [if_neg hp]
    exact ⟨MemOnly.refl s, fun q => by simp [hp]⟩

end

end Sys2Proof.Machine
end

section
/-! Cancellation and the tables of the dispatcher, by what they do to the launches (09 R220, R229, R241). -/

namespace Sys2Proof.Machine

/-! The translations that a launch keeps are the only thing that writing its tables changes in it (09 R220). -/

/-- The launch without the translations that the dispatcher keeps for it. -/
def Launch.bare (l : Launch) : Launch := { l with xlat := [] }

/-- The launches of every partition differ in their kept translations at most. -/
structure SameLaunches (s t : State) : Prop where
  bare : ∀ q, (t.partAt q).launches.map Launch.bare = (s.partAt q).launches.map Launch.bare

section
variable {s t u : State}

theorem SameLaunches.refl (s : State) : SameLaunches s s := ⟨fun _ => rfl⟩

theorem SameLaunches.trans (h : SameLaunches s t) (k : SameLaunches t u) : SameLaunches s u := ⟨fun q => (k.bare q).trans (h.bare q)⟩

theorem SameLaunches.of_eq (h : ∀ q, (t.partAt q).launches = (s.partAt q).launches) : SameLaunches s t :=
  ⟨fun q => by rw [h q]⟩

theorem SameLaunches.foldl {α : Type} (f : State → α → State) (l : List α) (hf : ∀ s, ∀ a ∈ l, SameLaunches s (f s a)) (s : State) :
    SameLaunches s (l.foldl f s) :=
  List.foldlRecOn (motive := fun (t : State) => SameLaunches s t) l f (SameLaunches.refl s) fun t ht a ha => ht.trans (hf t a ha)

/-- A launch after is a launch before, but for its translations. -/
theorem SameLaunches.mem (h : SameLaunches s t) {q : BitVec 3} {l : Launch} (hl : l ∈ (t.partAt q).launches) :
    ∃ k ∈ (s.partAt q).launches, k.bare = l.bare := by
  have hm : l.bare ∈ (s.partAt q).launches.map Launch.bare := h.bare q ▸ List.mem_map_of_mem hl
  simpa using hm

theorem find_bare (ls : List Launch) (id : BitVec 32) :
    (ls.find? (fun l => l.id == id)).map Launch.bare = (ls.map Launch.bare).find? (fun l => l.id == id) := by
  rw [List.find?_map]
  rfl

/-- The launch of an identifier after is that before, but for its translations. -/
theorem SameLaunches.launch (h : SameLaunches s t) (q : BitVec 3) (id : BitVec 32) :
    ((t.partAt q).launch id).map Launch.bare = ((s.partAt q).launch id).map Launch.bare := by
  rw [Part.launch, Part.launch, find_bare, find_bare, h.bare q]

end

theorem MemOnly.sameLaunches {s t : State} (h : MemOnly s t) : SameLaunches s t := SameLaunches.of_eq fun q => by rw [h.partAt]

theorem modXlat_sameLaunches (s : State) (p : BitVec 3) (id : BitVec 32) (f : Launch → List (Nat × Nat × Nat)) :
    SameLaunches s (s.modPart p (fun q => q.modLaunch id (fun k => { k with xlat := f k }))) := ⟨fun q => by
  rw [State.modPart_partAt]
  split
  · next h =>
    rw [h, Part.modLaunch, List.map_map]
    refine List.map_congr_left fun l _ => ?_
    rw [Function.comp_apply]
    split <;> rfl
  · rfl⟩

theorem walkBits_memOnly (s : State) (acc : Access) (x : Xl) : MemOnly s (s.walkBits acc x) := by
  unfold State.walkBits
  split
  · exact MemOnly.refl s
  · exact setPteBits_memOnly ..

theorem dispPa_sameLaunches {s t : State} {p : BitVec 3} {l : Launch} {va pa : Nat} (h : s.dispPa p l va = .ok (pa, t)) : SameLaunches s t := by
  unfold State.dispPa at h
  split at h
  · next k _ =>
    cases hp : s.dispPhys (k.2.1 + va % 4096) <;> rw [hp] at h <;> cases h
    exact SameLaunches.refl s
  · cases hx : s.dispLeaf p va <;> rw [hx] at h <;> cases h
    exact (walkBits_memOnly ..).sameLaunches.trans (modXlat_sameLaunches ..)

theorem dispWrite_sameLaunches (s : State) (p : BitVec 3) (l : Launch) (va : Nat) (f : Nat → State → List Byte) :
    SameLaunches s (s.dispWrite p l va f) := by
  unfold State.dispWrite
  split
  · next h => exact (dispPa_sameLaunches h).trans (homeWrite_memOnly ..).sameLaunches
  · exact SameLaunches.of_eq fun q => faultLog_launches ..

theorem busyEntry_sameLaunches (s : State) (p : BitVec 3) (l : Launch) (u : UnitRec) (ended : Bool) : SameLaunches s (s.busyEntry p l u ended) := by
  unfold State.busyEntry
  split
  · exact SameLaunches.refl s
  · exact (dispWrite_sameLaunches ..).trans ⟨fun _ => rfl⟩

theorem sliceEntry_sameLaunches (s : State) (p : BitVec 3) (l : Launch) (slice core u : Nat) : SameLaunches s (s.sliceEntry p l slice core u) := by
  unfold State.sliceEntry
  split
  · exact SameLaunches.refl s
  · exact dispWrite_sameLaunches ..

/-! Cancellation (09 R229). -/

/-- A launch as it may go on: it keeps its name and its record, and stays cancelled. -/
def Launch.Follows (k l : Launch) : Prop := l.id = k.id ∧ l.words = k.words ∧ (k.cancelled = true → l.cancelled = true)

/-- The instruction that follows in s follows in t, with the same scalar registers. -/
structure Undisturbed (s t : State) : Prop where
  x : ∀ r, t.x r = s.x r
  pc : t.pc = s.pc
  retired : t.core.retired = s.core.retired

theorem Undisturbed.trans {s t u : State} (h : Undisturbed s t) (k : Undisturbed t u) : Undisturbed s u :=
  ⟨fun r => (k.x r).trans (h.x r), k.pc.trans h.pc, k.retired.trans h.retired⟩

theorem Dispatched.undisturbed {s t : State} (h : Dispatched s t) : Undisturbed s t where
  x := h.x
  pc := congrArg UnitCtx.pc h.unit
  retired := by
    have hcore := congrArg (·.core.retired) h.rest
    exact hcore

/-- t is s after cancellations in partition p: no register changes, and each launch follows one that was there. -/
structure Cancels (p : BitVec 3) (s t : State) : Prop extends Undisturbed s t where
  follows : ∀ l ∈ (t.partAt p).launches, ∃ k ∈ (s.partAt p).launches, k.Follows l

section
variable {p : BitVec 3} {s t u : State}

theorem Launch.Follows.refl (k : Launch) : k.Follows k := ⟨rfl, rfl, fun h => h⟩

theorem Launch.Follows.trans {j k l : Launch} (h : j.Follows k) (h' : k.Follows l) : j.Follows l := by
  obtain ⟨hid, hw, hc⟩ := h
  obtain ⟨hid', hw', hc'⟩ := h'
  exact ⟨hid'.trans hid, hw'.trans hw, fun h => hc' (hc h)⟩

theorem Launch.Follows.of_bare {k l : Launch} (h : k.bare = l.bare) : k.Follows l :=
  ⟨(congrArg Launch.id h).symm, (congrArg Launch.words h).symm, fun hc => (congrArg Launch.cancelled h).symm.trans hc⟩

theorem Cancels.refl (p : BitVec 3) (s : State) : Cancels p s s := ⟨⟨fun _ => rfl, rfl, rfl⟩, fun l hl => ⟨l, hl, Launch.Follows.refl l⟩⟩

theorem Cancels.trans (h : Cancels p s t) (k : Cancels p t u) : Cancels p s u where
  toUndisturbed := h.toUndisturbed.trans k.toUndisturbed
  follows l hl := by
    obtain ⟨m, hm, hml⟩ := k.follows l hl
    obtain ⟨j, hj, hjm⟩ := h.follows m hm
    exact ⟨j, hj, hjm.trans hml⟩

theorem Cancels.foldl {α : Type} (f : State → α → State) (l : List α) (hf : ∀ s, ∀ a ∈ l, Cancels p s (f s a)) (s : State) :
    Cancels p s (l.foldl f s) :=
  List.foldlRecOn (motive := fun (t : State) => Cancels p s t) l f (Cancels.refl p s) fun t ht a ha => ht.trans (hf t a ha)

theorem Cancels.of_same (hu : Undisturbed s t) (h : (t.partAt p).launches = (s.partAt p).launches) : Cancels p s t :=
  ⟨hu, fun l hl => ⟨l, h ▸ hl, Launch.Follows.refl l⟩⟩

theorem Dispatched.cancels (h : Dispatched s t) (hl : SameLaunches s t) : Cancels p s t where
  toUndisturbed := h.undisturbed
  follows l hm := by
    obtain ⟨k, hk, hb⟩ := hl.mem hm
    exact ⟨k, hk, Launch.Follows.of_bare hb⟩

/-- Changing the launches of an identifier, in a way in which each follows itself. -/
theorem modLaunch_cancels (s : State) (p : BitVec 3) (id : BitVec 32) (f : Launch → Launch) (hf : ∀ k : Launch, k.Follows (f k)) :
    Cancels p s (s.modPart p (fun q => q.modLaunch id f)) where
  toUndisturbed := ⟨fun _ => rfl, rfl, rfl⟩
  follows l hl := by
    rw [State.modPart_self, Part.modLaunch] at hl
    obtain ⟨k, hk, rfl⟩ := List.mem_map.1 hl
    refine ⟨k, hk, ?_⟩
    split
    · exact hf k
    · exact Launch.Follows.refl k

theorem modPart_cancels (s : State) (p : BitVec 3) (f : Part → Part) (hf : (f (s.partAt p)).launches = (s.partAt p).launches) :
    Cancels p s (s.modPart p f) := Cancels.of_same ⟨fun _ => rfl, rfl, rfl⟩ (by rw [State.modPart_self, hf])

theorem setPlace_cancels (s : State) (p : BitVec 3) (l : BitVec 32) (u : Nat) (w : UnitWhere) : Cancels p s (s.setPlace p l u w) :=
  modLaunch_cancels s p l _ fun _ => ⟨rfl, rfl, id⟩

theorem stopUnit_cancels (p : BitVec 3) (s : State) : Cancels p s s.stopUnit := Cancels.of_same ⟨fun _ => rfl, rfl, rfl⟩ rfl

theorem dropSaved_cancels (s : State) (p : BitVec 3) (task : BitVec 32) : Cancels p s (s.dropSaved p task) := by
  unfold State.dropSaved
  split
  · exact Cancels.refl p s
  · exact (modPart_cancels s p _ (by rfl)).trans (Cancels.of_same ⟨fun _ => rfl, rfl, rfl⟩ rfl)

theorem busyEntry_cancels (s : State) (p : BitVec 3) (l : Launch) (u : UnitRec) (ended : Bool) : Cancels p s (s.busyEntry p l u ended) :=
  (busyEntry_dispatched ..).cancels (busyEntry_sameLaunches ..)

theorem releasePin_cancels (s : State) (p : BitVec 3) (l : BitVec 32) (u : UnitRec) : Cancels p s (s.releasePin p l u) :=
  (modLaunch_cancels s p l (fun k => k.modUnit u.u (fun r => { r with pin := none, susp := none, stopped := false, exempt := false }))
    fun _ => ⟨rfl, rfl, id⟩).trans (Cancels.of_same ⟨fun _ => rfl, rfl, rfl⟩ rfl)

theorem withdraw_cancels (p : BitVec 3) (s : State) (c : Nat) : Cancels p s (s.withdraw c) := Cancels.of_same ⟨fun _ => rfl, rfl, rfl⟩ rfl

theorem cancelUnit_cancels (s : State) (p : BitVec 3) (l : Launch) (u : UnitRec) : Cancels p s (s.cancelUnit p l u) := by
  have hreq := modPart_cancels s p (fun q => { q with evictReqs := q.evictReqs.filter (fun e => e.1 != BitVec.ofNat 32 (l.record.tbase + u.u)) })
    (by rfl)
  unfold State.cancelUnit
  dsimp only
  split
  · exact (hreq.trans (stopUnit_cancels ..)).trans (setPlace_cancels ..)
  · exact ((hreq.trans (withdraw_cancels ..)).trans (releasePin_cancels ..)).trans (setPlace_cancels ..)
  · exact ((hreq.trans (dropSaved_cancels ..)).trans (setPlace_cancels ..)).trans (busyEntry_cancels ..)
  · exact hreq

/-- The step of a cancellation that marks the launch. -/
def State.markCancelled (s : State) (p : BitVec 3) (l : Launch) : State :=
  s.modPart p (fun q =>
    { q.modLaunch l.id (fun k => { k with cancelled := true, entry := if k.phase == .running then k.entry else none }) with
      reserve := if q.reserve == some l.id then none else q.reserve })

theorem cancelLaunch_eq (s : State) (p : BitVec 3) (l : Launch) :
    s.cancelLaunch p l = l.units.foldl (fun t u => t.cancelUnit p l u) (s.markCancelled p l) := rfl

theorem markCancelled_marks (s : State) (p : BitVec 3) (l : Launch) : Cancels p s (s.markCancelled p l)
    ∧ ∀ k ∈ ((s.markCancelled p l).partAt p).launches, k.id = l.id → k.cancelled = true := by
  have hlist : ((s.markCancelled p l).partAt p).launches = (s.partAt p).launches.map
      (fun k => if k.id == l.id then { k with cancelled := true, entry := if k.phase == .running then k.entry else none } else k) := by
    rw [State.markCancelled, State.modPart_self]
    rfl
  refine ⟨⟨⟨fun _ => rfl, rfl, rfl⟩, fun k hk => ?_⟩, fun k hk hid => ?_⟩
  · obtain ⟨j, hj, rfl⟩ := List.mem_map.1 (hlist ▸ hk)
    refine ⟨j, hj, ?_⟩
    split
    · exact ⟨rfl, rfl, fun _ => rfl⟩
    · exact Launch.Follows.refl j
  · obtain ⟨j, hj, rfl⟩ := List.mem_map.1 (hlist ▸ hk)
    split at hid
    · next h => rw [if_pos h]
    · next h => exact absurd (beq_iff_eq.2 hid) h

theorem Cancels.marked (h : Cancels p s t) {id : BitVec 32} (hs : ∀ k ∈ (s.partAt p).launches, k.id = id → k.cancelled = true) :
    ∀ k ∈ (t.partAt p).launches, k.id = id → k.cancelled = true := fun k hk hid => by
  obtain ⟨j, hj, hji, _, hc⟩ := h.follows k hk
  exact hc (hs j hj (hji ▸ hid))

theorem cancelLaunch_marks (s : State) (p : BitVec 3) (l : Launch) : Cancels p s (s.cancelLaunch p l)
    ∧ ∀ k ∈ ((s.cancelLaunch p l).partAt p).launches, k.id = l.id → k.cancelled = true := by
  obtain ⟨hmark, hmarked⟩ := markCancelled_marks s p l
  have hunits := Cancels.foldl (p := p) (fun t u => t.cancelUnit p l u) l.units (fun t u _ => cancelUnit_cancels t p l u) (s.markCancelled p l)
  rw [cancelLaunch_eq]
  exact ⟨hmark.trans hunits, hunits.marked hmarked⟩

/-- Every launch of the list, and all of its name, is cancelled. -/
theorem cancelLaunches_marks (p : BitVec 3) (ls : List Launch) (s : State) : Cancels p s (ls.foldl (fun s l => s.cancelLaunch p l) s)
    ∧ ∀ k ∈ ((ls.foldl (fun s l => s.cancelLaunch p l) s).partAt p).launches, k.id ∈ ls.map Launch.id → k.cancelled = true := by
  induction ls generalizing s with
  | nil => exact ⟨Cancels.refl p s, fun k _ h => absurd h (by simp)⟩
  | cons l r ih =>
    obtain ⟨hl, hlm⟩ := cancelLaunch_marks s p l
    obtain ⟨hr, hrm⟩ := ih (s.cancelLaunch p l)
    rw [List.foldl_cons]
    refine ⟨hl.trans hr, fun k hk hid => ?_⟩
    rcases List.mem_cons.1 hid with h | h
    · exact hr.marked hlm k hk h
    · exact hrm k hk h

theorem closeJob_cancels (s : State) (p : BitVec 3) : Cancels p s (s.closeJob p) := by
  refine Cancels.of_same (closeJob_dispatched s p).undisturbed ?_
  unfold State.closeJob
  dsimp only
  split
  · rw [completion_launches, State.modPart_self]
  · rfl

theorem cancelAll_marks (s : State) (p : BitVec 3) (ls : List Launch) (job : Bool) : Cancels p s (s.cancelAll p ls job)
    ∧ ∀ k ∈ ((s.cancelAll p ls job).partAt p).launches, k.id ∈ ls.map Launch.id → k.cancelled = true := by
  obtain ⟨hall, hmarked⟩ := cancelLaunches_marks p ls s
  unfold State.cancelAll
  dsimp only
  cases job with
  | false => exact ⟨hall, hmarked⟩
  | true =>
    rw [if_pos rfl]
    have hjob := (modPart_cancels (ls.foldl (fun s l => s.cancelLaunch p l) s) p (fun q => { q with jobCancel := true }) (by rfl)).trans
      (closeJob_cancels _ p)
    refine ⟨hall.trans hjob, fun k hk hid => ?_⟩
    obtain ⟨j, hj, hji, _, hc⟩ := hjob.follows k hk
    exact hc (hmarked j hj (hji ▸ hid))

/-- Whether a cncl names a launch is said by the name and the record. -/
theorem Launch.Follows.named {k l : Launch} (h : k.Follows l) {q r : Part} (level : Nat) (v : Word64) (hk : k ∈ q.launches)
    (hl : l ∈ r.named level v) : k ∈ q.named level v := by
  obtain ⟨hid, hw, _⟩ := h
  rw [Part.named, List.mem_filter] at hl ⊢
  refine ⟨hk, ?_⟩
  have hn := hl.2
  simpa only [Launch.graph, Launch.phaseId, Launch.record, hid, hw] using hn

/-- After the cancellation of what a level names, whatever it names is cancelled. -/
theorem cancelAll_named (s : State) (p : BitVec 3) (level : Nat) (v : Word64) (job : Bool) :
    ∀ l ∈ ((s.cancelAll p ((s.partAt p).named level v) job).partAt p).named level v, l.cancelled = true := fun l hl => by
  obtain ⟨hc, hmarked⟩ := cancelAll_marks s p ((s.partAt p).named level v) job
  obtain ⟨k, hk, hkl⟩ := hc.follows l (List.mem_of_mem_filter hl)
  exact hmarked l (List.mem_of_mem_filter hl) (List.mem_map.2 ⟨k, hkl.named level v hk hl, hkl.1.symm⟩)

end

end Sys2Proof.Machine
end

section
/-! cncl, trig, exit and draw (09 R226, R229 to R231, R234). -/

namespace Sys2Proof.Machine

/-! cncl (09 R229). -/

/-- What cncl leaves before its level's effects: the answer in xd, and pc moved. -/
def State.cnclAnswer (s : State) (d : BitVec 5) (w : Word64) : State := (s.setX d w).advance

section
variable {s : State} {d a : BitVec 5} {level : BitVec 3}

theorem cnclAnswer_x (s : State) (d : BitVec 5) (w : Word64) : (s.cnclAnswer d w).x d = (if d = 0 then 0 else w)
    ∧ ∀ r, r ≠ d → (s.cnclAnswer d w).x r = s.x r := by
  obtain ⟨h, h', _⟩ := SetsX.of_setX s d w
  rw [State.cnclAnswer]
  exact ⟨(State.advance_x ..).trans h, fun r hr => (State.advance_x ..).trans (h' r hr)⟩

theorem cnclAnswer_partAt (s : State) (d : BitVec 5) (w : Word64) (p : BitVec 3) : (s.cnclAnswer d w).partAt p = s.partAt p := by
  have hblank : (s.setX d w).blankX = s.blankX := State.setX_blankX s d w
  have hx : (s.setX d w).parts = s.parts := by simpa using congrArg State.parts hblank
  have h : (s.cnclAnswer d w).parts = s.parts := (State.advance_parts (s.setX d w) false).trans hx
  rw [State.partAt, State.partAt, h]

theorem cncl_privilege (h : s.k.pl = 0) : ∃ w, TrapsWith (.cncl d a 4) s .privilege w := by
  refine ⟨s.levelVal, 0, ?_⟩
  change execCncl d a 4 s = _
  rw [execCncl, needLevel_error (by simp [h])]
  rfl

/-- What cncl answers: whether it finds what it names. -/
def State.cnclFinds (s : State) (level : BitVec 3) (v : Word64) : Bool :=
  if level == 0 then ((s.partAt s.part).current (v.setWidth 32)).isSome
  else if level == 4 then v.extractLsb' 0 3 == s.part else !((s.partAt s.part).named level.toNat v).isEmpty

theorem cncl_exec (h : level = 4 → s.k.pl ≠ 0) : exec (.cncl d a level) s
    = .next ((s.cnclAnswer d (if s.cnclFinds level (s.x a) then 1 else 0)).cancelFrom s.part level (s.x a)) := by
  have hlevel : (!(level == 4 && s.k.pl == 0)) = true := by
    by_cases h4 : level = 4
    · rw [beq_eq_false_iff_ne.2 (h h4), Bool.and_false]
      rfl
    · rw [beq_eq_false_iff_ne.2 h4, Bool.false_and]
      rfl
  change execCncl d a level s = _
  rw [execCncl, needLevel_ok hlevel]
  rfl

/-- A cncl that names nothing answers 0 and has no effect. -/
theorem cncl_misses (h : level = 4 → s.k.pl ≠ 0) (hf : s.cnclFinds level (s.x a) = false)
    (he : (s.cnclAnswer d 0).cancelFrom s.part level (s.x a) = s.cnclAnswer d 0) :
    ∃ u, Completes (.cncl d a level) s u ∧ SetsX s u d 0 := by
  refine ⟨s.setX d 0, ?_, SetsX.of_setX s d 0⟩
  rw [Completes, cncl_exec h, hf, if_neg (by decide), he]
  rfl

theorem cancelUnitOf_undisturbed (s : State) (p : BitVec 3) (e : Launch × UnitRec) : Undisturbed s (s.cancelUnitOf p e) :=
  ((cancelUnit_cancels s p e.1 e.2).trans (modLaunch_cancels _ p e.1.id (fun l => { l with partialEnd := true })
    fun _ => ⟨rfl, rfl, id⟩)).toUndisturbed.trans (checkTrigger_dispatched ..).undisturbed

/-- The effects of a cncl change no register and not where the unit goes on. -/
theorem cancelFrom_undisturbed (s : State) (p : BitVec 3) (level : BitVec 3) (v : Word64) : Undisturbed s (s.cancelFrom p level v) := by
  unfold State.cancelFrom
  split
  · cases (s.partAt p).current (v.setWidth 32) with
    | none => exact (Dispatched.refl s).undisturbed
    | some e => exact cancelUnitOf_undisturbed s p e
  · split
    · exact (Dispatched.refl s).undisturbed
    · exact (cancelAll_marks ..).1.toUndisturbed

/-- A cncl that finds what it names answers 1, and its effects change no register. -/
theorem cncl_hits {P : State → Prop} (h : level = 4 → s.k.pl ≠ 0) (hf : s.cnclFinds level (s.x a) = true)
    (hP : P ((s.cnclAnswer d 1).cancelFrom s.part level (s.x a))) :
    ∃ t, exec (.cncl d a level) s = .next t ∧ (t.x d = (if d = 0 then 0 else 1) ∧ ∀ r, r ≠ d → t.x r = s.x r) ∧ P t := by
  obtain ⟨hd, hr⟩ := cnclAnswer_x s d 1
  have hx := (cancelFrom_undisturbed (s.cnclAnswer d 1) s.part level (s.x a)).x
  exact ⟨_, by rw [cncl_exec h, hf, if_pos rfl], ⟨(hx d).trans hd, fun r hne => (hx r).trans (hr r hne)⟩, hP⟩

theorem unit_not_top : (0 : BitVec 3) = 4 → s.k.pl ≠ 0 := fun h => absurd h (by decide)

theorem cnclFinds_unit (v : Word64) : s.cnclFinds 0 v = ((s.partAt s.part).current (v.setWidth 32)).isSome := rfl

theorem cancelFrom_unit (t : State) (p : BitVec 3) (v : Word64) :
    t.cancelFrom p 0 v = ((t.partAt p).current (v.setWidth 32)).elim t (t.cancelUnitOf p) := rfl

theorem cncl_unit_misses (h : (s.partAt s.part).current ((s.x a).setWidth 32) = none) :
    ∃ u, Completes (.cncl d a 0) s u ∧ SetsX s u d 0 := by
  refine cncl_misses unit_not_top ?_ ?_
  · rw [cnclFinds_unit, h]
    rfl
  · rw [cancelFrom_unit, cnclAnswer_partAt, h]
    rfl

/-- The unit that is resident executes nothing more. -/
theorem cancelUnitOf_here (s : State) (p : BitVec 3) (e : Launch × UnitRec) (h : e.2.place = .here) : (s.cancelUnitOf p e).core.run = .exited := by
  have hstop : (s.cancelUnit p e.1 e.2).core.run = .exited := by
    unfold State.cancelUnit
    dsimp only
    rw [h]
    rfl
  have hrun := congrArg (·.core.run) (checkTrigger_dispatched
    ((s.cancelUnit p e.1 e.2).modPart p (fun q => q.modLaunch e.1.id (fun l => { l with partialEnd := true }))) p e.1.id).rest
  exact (show (s.cancelUnitOf p e).core.run = (s.cancelUnit p e.1 e.2).core.run from hrun).trans hstop

theorem cncl_unit_hits {e : Launch × UnitRec} (h : (s.partAt s.part).current ((s.x a).setWidth 32) = some e) :
    ∃ t, exec (.cncl d a 0) s = .next t ∧ (t.x d = (if d = 0 then 0 else 1) ∧ ∀ r, r ≠ d → t.x r = s.x r)
      ∧ (e.2.place = .here → t.core.run = .exited) := by
  have heff : (s.cnclAnswer d 1).cancelFrom s.part 0 (s.x a) = (s.cnclAnswer d 1).cancelUnitOf s.part e := by
    rw [cancelFrom_unit, cnclAnswer_partAt, h]
    rfl
  refine cncl_hits unit_not_top ?_ ?_
  · rw [cnclFinds_unit, h]
    rfl
  · rw [heff]
    exact cancelUnitOf_here _ _ _

theorem cnclFinds_level (h1 : 1 ≤ level.toNat) (h3 : level.toNat ≤ 3) (v : Word64) :
    s.cnclFinds level v = !((s.partAt s.part).named level.toNat v).isEmpty := by
  have h0 : (level == 0) = false := by
    rw [beq_eq_false_iff_ne]
    rintro rfl
    exact absurd h1 (by decide)
  have h4 : (level == 4) = false := by
    rw [beq_eq_false_iff_ne]
    rintro rfl
    exact absurd h3 (by decide)
  rw [State.cnclFinds, h0, h4]
  rfl

theorem cancelFrom_level (t : State) (p : BitVec 3) (h1 : 1 ≤ level.toNat) (h3 : level.toNat ≤ 3) (v : Word64) :
    t.cancelFrom p level v = t.cancelAll p ((t.partAt p).named level.toNat v) false := by
  have h0 : (level == 0) = false := by
    rw [beq_eq_false_iff_ne]
    rintro rfl
    exact absurd h1 (by decide)
  have h4 : (level == 4) = false := by
    rw [beq_eq_false_iff_ne]
    rintro rfl
    exact absurd h3 (by decide)
  rw [State.cancelFrom, h0, h4]
  rfl

theorem not_top_of_le (h3 : level.toNat ≤ 3) : level = 4 → s.k.pl ≠ 0 := by
  rintro rfl
  exact absurd h3 (by decide)

theorem cncl_level_misses (h1 : 1 ≤ level.toNat) (h3 : level.toNat ≤ 3) (h : (s.partAt s.part).named level.toNat (s.x a) = []) :
    ∃ u, Completes (.cncl d a level) s u ∧ SetsX s u d 0 := by
  refine cncl_misses (not_top_of_le h3) ?_ ?_
  · rw [cnclFinds_level h1 h3, h]
    rfl
  · rw [cancelFrom_level _ _ h1 h3, cnclAnswer_partAt, h]
    rfl

theorem cncl_level_hits (h1 : 1 ≤ level.toNat) (h3 : level.toNat ≤ 3) (h : (s.partAt s.part).named level.toNat (s.x a) ≠ []) :
    ∃ t, exec (.cncl d a level) s = .next t ∧ (t.x d = (if d = 0 then 0 else 1) ∧ ∀ r, r ≠ d → t.x r = s.x r)
      ∧ ∀ l ∈ (t.partAt s.part).named level.toNat (s.x a), l.cancelled = true := by
  have hcut := cancelFrom_level (s.cnclAnswer d 1) s.part h1 h3 (s.x a)
  refine cncl_hits (P := fun t => ∀ l ∈ (t.partAt s.part).named level.toNat (s.x a), l.cancelled = true) (not_top_of_le h3) ?_ ?_
  · rw [cnclFinds_level h1 h3]
    simpa using h
  · rw [hcut]
    exact cancelAll_named _ _ _ _ _

theorem cncl_job_hits (h : s.k.pl ≠ 0) (hp : (s.x a).extractLsb' 0 3 = s.part) :
    ∃ t, exec (.cncl d a 4) s = .next t ∧ (t.x d = (if d = 0 then 0 else 1) ∧ ∀ r, r ≠ d → t.x r = s.x r)
      ∧ ∀ l ∈ (t.partAt s.part).launches, l.cancelled = true := by
  have hall (q : Part) : q.named (4 : BitVec 3).toNat (s.x a) = q.launches := List.filter_eq_self.2 fun _ _ => rfl
  have hcut : (s.cnclAnswer d 1).cancelFrom s.part 4 (s.x a)
      = (s.cnclAnswer d 1).cancelAll s.part (((s.cnclAnswer d 1).partAt s.part).named (4 : BitVec 3).toNat (s.x a)) true := by
    rw [State.cancelFrom, hp]
    simp
  have hmarks := cancelAll_named (s.cnclAnswer d 1) s.part (4 : BitVec 3).toNat (s.x a) true
  refine cncl_hits (P := fun t => ∀ l ∈ (t.partAt s.part).launches, l.cancelled = true) (fun _ => h) ?_ ?_
  · rw [State.cnclFinds, hp]
    simp
  · rw [hcut]
    rw [hall] at hmarks
    exact hmarks

theorem cncl_job_misses (h : s.k.pl ≠ 0) (hp : (s.x a).extractLsb' 0 3 ≠ s.part) : ∃ u, Completes (.cncl d a 4) s u ∧ SetsX s u d 0 := by
  refine cncl_misses (fun _ => h) ?_ ?_
  · simp [State.cnclFinds, hp]
  · simp [State.cancelFrom, hp]

end

/-! trig and exit (09 R230, R231). -/

section
variable {s : State}

theorem Releasable.release (h : Releasable s) : s.release 2 = .ok (s.releaseCache 2) := release_taken h.toSettled fun _ => h.taken

/-- The state in which the unit has triggered. -/
def State.triggered (s : State) : State :=
  (State.modMine { s.releaseCache 2 with core.unit.trig := true } (fun u => { u with triggered := true })).checkTrigger s.part s.core.unit.ident.launch

/-- The state in which the unit has left. -/
def State.left (s : State) : State :=
  ((((s.releaseCache 2).retired false).stopUnit).modMine (fun u => { u with place := .exiting s.core.num.toNat })).checkTrigger s.part
    s.core.unit.ident.launch

theorem trig_completes (h : Releasable s) : Completes .trig s s.triggered := by
  change execTrig s = _
  rw [execTrig]
  simp only [h.release, run_ok_bind]
  rfl

theorem exit_leaves (h : Releasable s) : exec .exit s = .next s.left := by
  change execExit s = _
  rw [execExit]
  simp only [h.release, run_ok_bind]
  rfl

theorem modMine_dispatched (s : State) (f : UnitRec → UnitRec) : Dispatched s (s.modMine f) :=
  modPart_dispatched s s.core.unit.ident.part (fun q => q.modLaunch s.core.unit.ident.launch (fun l => l.modUnit s.core.unit.ident.unit.toNat f))
    (by rfl)

theorem triggered_dispatched : Dispatched { s.releaseCache 2 with core.unit.trig := true } s.triggered :=
  (modMine_dispatched ..).trans (checkTrigger_dispatched ..)

theorem left_dispatched : Dispatched ((s.releaseCache 2).retired false).stopUnit s.left := (modMine_dispatched ..).trans (checkTrigger_dispatched ..)

end

/-! draw (09 R226, R234). -/

section
variable {s : State} {d : BitVec 5} {l : Launch}

theorem draw_state (h : s.launch?.filter (fun l => l.record.smode) = none) : ∃ w, TrapsWith (.draw d) s .launchState w := by
  refine ⟨Config.openTval Cause.launchState.code.toNat s.tick, 0, ?_⟩
  change execDraw d s = _
  rw [execDraw]
  simp only [h]
  rfl

theorem drawn_launch (hl : s.launch? = some l) (hm : l.record.smode = true) : s.launch?.filter (fun l => l.record.smode) = some l := by
  rw [hl, Option.filter_some, if_pos hm]

theorem draw_empty (hl : s.launch? = some l) (hm : l.record.smode = true) (h0 : l.remaining = 0) :
    Completes (.draw d) s (s.setX d (BitVec.allOnes 64)) := by
  change execDraw d s = _
  rw [execDraw]
  simp only [drawn_launch hl hm, h0, beq_self_eq_true, if_true]
  rfl

/-- The state in which a draw has taken its slices. -/
def State.drew (s : State) (l : Launch) : State :=
  { s.drawFor s.part l s.core.unit.ident.unit.toNat s.core.num.toNat with core.unit.ident.slice := BitVec.ofNat 32 (l.record.slices - l.remaining) }

theorem draw_takes (hl : s.launch? = some l) (hm : l.record.smode = true) (h0 : l.remaining ≠ 0) :
    Completes (.draw d) s ((s.drew l).setX d (BitVec.ofNat 32 l.chunk ++ BitVec.ofNat 32 (l.record.slices - l.remaining))) := by
  have hval : BitVec.ofNat 64 (l.chunk % 2 ^ 32 * 2 ^ 32 + (l.record.slices - l.remaining) % 2 ^ 32)
      = (BitVec.ofNat 32 l.chunk ++ BitVec.ofNat 32 (l.record.slices - l.remaining) : Word64) := by
    apply BitVec.eq_of_toNat_eq
    rw [toNat_append_add, BitVec.toNat_ofNat, BitVec.toNat_ofNat, BitVec.toNat_ofNat]
    omega
  have hz : (l.remaining == 0) = false := beq_eq_false_iff_ne.2 h0
  change execDraw d s = _
  rw [execDraw]
  simp only [drawn_launch hl hm, hz]
  rw [← hval]
  rfl

/-- The counter of the launch as a draw leaves it, before its entries are written. -/
def State.counted (s : State) (p : BitVec 3) (l : Launch) (u : Nat) : State :=
  s.modPart p (fun q => q.modLaunch l.id (fun k =>
    { k.modUnit u (fun r => { r with drawn := r.drawn + l.chunk }) with remaining := k.remaining - l.chunk }))

theorem drawFor_entries (s : State) (p : BitVec 3) (l : Launch) (u core : Nat) :
    Dispatched (s.counted p l u) (s.drawFor p l u core) ∧ SameLaunches (s.counted p l u) (s.drawFor p l u core) :=
  ⟨Dispatched.foldl (fun t i => t.sliceEntry p l (l.record.slices - l.remaining + i) core u) _ (fun t _ _ => sliceEntry_dispatched ..) _,
    SameLaunches.foldl (fun t i => t.sliceEntry p l (l.record.slices - l.remaining + i) core u) _ (fun t _ _ => sliceEntry_sameLaunches ..) _⟩

theorem find_map_id (ls : List Launch) (id : BitVec 32) (f : Launch → Launch) (hf : ∀ k, (f k).id = k.id) :
    (ls.map (fun l => if l.id == id then f l else l)).find? (fun l => l.id == id) = (ls.find? (fun l => l.id == id)).map f := by
  induction ls with
  | nil => rfl
  | cons k r ih =>
    rw [List.map_cons, List.find?_cons, List.find?_cons]
    by_cases h : (k.id == id) = true
    · rw [if_pos h, hf, h]
      rfl
    · rw [if_neg h, Bool.eq_false_iff.2 h]
      exact ih

theorem drew_launch (hl : s.launch? = some l) :
    ∃ k, ((s.drew l).partAt s.part).launch l.id = some k ∧ k.remaining = l.remaining - l.chunk := by
  have hid : s.core.unit.ident.launch = l.id := by
    have hfind : (s.partAt s.part).launches.find? (fun k => k.id == s.core.unit.ident.launch) = some l := hl
    have hit : (l.id == s.core.unit.ident.launch) = true := List.find?_some (p := fun k : Launch => k.id == s.core.unit.ident.launch) hfind
    exact (beq_iff_eq.1 hit).symm
  have hfound : (s.partAt s.part).launch l.id = some l := hid ▸ hl
  have hcounted : ((s.counted s.part l s.core.unit.ident.unit.toNat).partAt s.part).launch l.id = some
      { l.modUnit s.core.unit.ident.unit.toNat (fun r => { r with drawn := r.drawn + l.chunk }) with remaining := l.remaining - l.chunk } := by
    rw [State.counted, State.modPart_self]
    exact (find_map_id (s.partAt s.part).launches l.id (fun k => { k.modUnit s.core.unit.ident.unit.toNat
      (fun r => { r with drawn := r.drawn + l.chunk }) with remaining := k.remaining - l.chunk }) fun _ => rfl).trans (congrArg (Option.map _) hfound)
  have hsame := (drawFor_entries s s.part l s.core.unit.ident.unit.toNat s.core.num.toNat).2.launch s.part l.id
  rw [hcounted] at hsame
  obtain ⟨k, hk, hb⟩ := Option.map_eq_some_iff.1 hsame
  exact ⟨k, hk, congrArg Launch.remaining hb⟩

theorem drew_x (r : BitVec 5) : (s.drew l).x r = s.x r :=
  (drawFor_entries s s.part l s.core.unit.ident.unit.toNat s.core.num.toNat).1.x r

end

end Sys2Proof.Machine
end

section
/-! smrg, and the launch instructions settled (09 R225 to R236). -/

namespace Sys2Proof.Machine

/-! smrg (09 R235, R236). -/

/-- The rows that smrg reads. -/
def mergeRows (rd : Reader) (p sh : Word64) : List RowData :=
  (rowAddrs (addrOf p) (shStride sh) (shAux sh * shRows sh)).map (rd.row (ptrFmt p) (rowSpan (ptrFmt p) 0 false (shCols sh)) (shCols sh))

/-- The containers of an element's partials in the rows, lowest slice first. -/
def partialsOf (rows : List RowData) (sh : Word64) (i j : Nat) : List Word32 :=
  (List.range (shAux sh)).map (fun k => ((rows[k * shRows sh + i]?).map (fun r => r.elems.getD j 0)).getD 0)

/-- The partials by their addresses. -/
def partialsAt (byte : Nat → Byte) (p sh : Word64) (i j : Nat) : List Word32 :=
  (List.range (shAux sh)).map (fun k => rowElem byte (ptrFmt p) (rowSpan (ptrFmt p) 0 false (shCols sh))
    (addrOf p + (k * shRows sh + i) * shStride sh) j)

section
variable {s : State} {d : BitVec 4} {op : BitVec 2} {xp : BitVec 5} {m : XMap}

theorem partialsOf_mergeRows (rd : Reader) (p sh : Word64) {i j : Nat} (hi : i < shRows sh) (hj : j < shCols sh) :
    partialsOf (mergeRows rd p sh) sh i j = partialsAt rd.byte p sh i j := by
  refine List.map_congr_left fun k hk => ?_
  have hrow : k * shRows sh + i < shAux sh * shRows sh := calc
    k * shRows sh + i < (k + 1) * shRows sh := by rw [Nat.succ_mul]; omega
    _ ≤ shAux sh * shRows sh := Nat.mul_le_mul_right _ (List.mem_range.1 hk)
  simp only [mergeRows, rowAddrs, List.getElem?_map, List.getElem?_range hrow, Option.map_some, Option.getD_some]
  exact row_elems hj

/-- The merged elements of readable partials. -/
def mergedRows (s : State) (m : XMap) (op : BitVec 2) (p sh : Word64) : List (List Flagged) :=
  flaggedRows (shRows sh) (shCols sh) (fun i j => mergeElem op (ptrFmt p) s.k.ftz (partialsOf (mergeRows (s.memReader m) p sh) sh i j))

theorem mergedRows_eq (s : State) (m : XMap) (op : BitVec 2) (p sh : Word64) : mergedRows s m op p sh
    = flaggedRows (shRows sh) (shCols sh) (fun i j => mergeElem op (ptrFmt p) s.k.ftz (partialsAt (s.seen m) p sh i j)) := by
  refine List.map_congr_left fun i hi => List.map_congr_left fun j hj => ?_
  exact congrArg (mergeElem op (ptrFmt p) s.k.ftz) (partialsOf_mergeRows (s.memReader m) p sh (List.mem_range.1 hi) (List.mem_range.1 hj))

/-- The span of a partial's row, and the ranges that smrg reads. -/
abbrev mergeSpan (p sh : Word64) : RowSpan := rowSpan (ptrFmt p) 0 false (shCols sh)
@[inherit_doc mergeSpan] abbrev mergeRanges (p sh : Word64) : List (Nat × Nat) :=
  ((rowAddrs (addrOf p) (shStride sh) (shAux sh * shRows sh)).map (rowRanges (mergeSpan p sh) (shCols sh))).flatten

theorem smrg_completes (hs : Settled s) (hf : mergeFormat op (s.x xp) = true) (hr : shRows (s.x (xp + 1)) ≤ 32)
    (hc : shCols (s.x (xp + 1)) ≤ 32) (hn : shAux (s.x (xp + 1)) ≠ 0)
    (hend : addrOf (s.x xp) + rangeLen (mergeSpan (s.x xp) (s.x (xp + 1))) (shStride (s.x (xp + 1)))
      (shAux (s.x (xp + 1)) * shRows (s.x (xp + 1))) (shCols (s.x (xp + 1))) ≤ 2 ^ 56)
    (hacc : s.access .read true (mergeRanges (s.x xp) (s.x (xp + 1))) = .ok m) (hread : s.readable m) :
    Completes (.smrg d op xp) s ((s.readTouch m (mergeRanges (s.x xp) (s.x (xp + 1)))).writeFlagged d (mergeResult op (ptrFmt (s.x xp)))
      (shRows (s.x (xp + 1))) (shCols (s.x (xp + 1))) (mergedRows s m op (s.x xp) (s.x (xp + 1)))) := by
  have hshape : (decide (shRows (s.x (xp + 1)) ≤ 32) && decide (shCols (s.x (xp + 1)) ≤ 32) && shAux (s.x (xp + 1)) != 0) = true := by
    rw [decide_eq_true hr, decide_eq_true hc, bne_iff_ne.2 hn]
    rfl
  have hclean : CleanRows (mergeRows (s.memReader m) (s.x xp) (s.x (xp + 1))) := rows_clean (memReader_clean hread) _
  have hfind : (List.range (shAux (s.x (xp + 1)) * shRows (s.x (xp + 1)))).find?
      (fun i => (((mergeRows (s.memReader m) (s.x xp) (s.x (xp + 1)))[i]?).map (·.bad)).getD false) = none := by
    refine List.find?_eq_none.2 fun i _ => ?_
    cases hrow : (mergeRows (s.memReader m) (s.x xp) (s.x (xp + 1)))[i]? with
    | none => simp
    | some r => simp [hclean.1 r (List.mem_of_getElem? hrow)]
  change execSmrg d op xp s = _
  rw [execSmrg]
  simp only [need_yes hf, need_yes hshape, needAddr_ok hend, hacc, State.settle, hs.settleIf, run_ok_bind]
  change s.finish (match (List.range (shAux (s.x (xp + 1)) * shRows (s.x (xp + 1)))).find?
      (fun i => (((mergeRows (s.memReader m) (s.x xp) (s.x (xp + 1)))[i]?).map (·.bad)).getD false) with
    | some i => _
    | none => _) = _
  rw [hfind]
  rfl

/-- What k.sticky.nf and k.sticky.iov are after a result with flags. -/
theorem sticky_flags (w : Word64) (nf iov : Bool) :
    ((w ||| BitVec.ofNat 64 ((if nf then 1 else 0) + if iov then 2 else 0)).getLsbD 0 = true ↔ w.getLsbD 0 = true ∨ nf = true)
    ∧ ((w ||| BitVec.ofNat 64 ((if nf then 1 else 0) + if iov then 2 else 0)).getLsbD 1 = true ↔ w.getLsbD 1 = true ∨ iov = true) := by
  rw [BitVec.getLsbD_or, BitVec.getLsbD_or, Bool.or_eq_true, Bool.or_eq_true]
  cases nf <;> cases iov <;> exact ⟨or_congr Iff.rfl (by decide), or_congr Iff.rfl (by decide)⟩

/-- The merged tile and its flags (09 R235). -/
theorem smrg_result (hs : Settled s) (hf : mergeFormat op (s.x xp) = true) (hr : shRows (s.x (xp + 1)) ≤ 32)
    (hc : shCols (s.x (xp + 1)) ≤ 32) (hn : shAux (s.x (xp + 1)) ≠ 0)
    (hend : addrOf (s.x xp) + rangeLen (mergeSpan (s.x xp) (s.x (xp + 1))) (shStride (s.x (xp + 1)))
      (shAux (s.x (xp + 1)) * shRows (s.x (xp + 1))) (shCols (s.x (xp + 1))) ≤ 2 ^ 56)
    (hacc : s.access .read true (mergeRanges (s.x xp) (s.x (xp + 1))) = .ok m) (hread : s.readable m) :
    let res (i j : Nat) : Flagged := mergeElem op (ptrFmt (s.x xp)) s.k.ftz (partialsAt (s.seen m) (s.x xp) (s.x (xp + 1)) i j)
    ∃ u, Completes (.smrg d op xp) s u
      ∧ IsResult (u.t d) (mergeResult op (ptrFmt (s.x xp))) (shRows (s.x (xp + 1))) (shCols (s.x (xp + 1))) (fun i j => (res i j).bits)
      ∧ (∀ r, r ≠ d → u.t r = s.t r) ∧ u.blankT.blankSticky.blankMem = s.blankT.blankSticky.blankMem
      ∧ (u.k.sticky.getLsbD 0 = true
        ↔ s.k.sticky.getLsbD 0 = true ∨ ∃ i j, i < shRows (s.x (xp + 1)) ∧ j < shCols (s.x (xp + 1)) ∧ (res i j).nf = true)
      ∧ (u.k.sticky.getLsbD 1 = true
        ↔ s.k.sticky.getLsbD 1 = true ∨ ∃ i j, i < shRows (s.x (xp + 1)) ∧ j < shCols (s.x (xp + 1)) ∧ (res i j).iov = true) := by
  intro res
  have hread' := readTouch_memOnly s m (mergeRanges (s.x xp) (s.x (xp + 1))) 0
  have hcomp := smrg_completes (d := d) hs hf hr hc hn hend hacc hread
  rw [mergedRows_eq] at hcomp
  obtain ⟨hdest, hothers, hsticky, hrest, -⟩ := SetsT.of_writeFlagged (s.readTouch m (mergeRanges (s.x xp) (s.x (xp + 1)))) d
    (mergeResult op (ptrFmt (s.x xp))) (shRows (s.x (xp + 1))) (shCols (s.x (xp + 1))) res
  rw [hread'.k] at hsticky
  obtain ⟨hnf, hiov⟩ := sticky_flags s.k.sticky (anyNf (flaggedRows (shRows (s.x (xp + 1))) (shCols (s.x (xp + 1))) res))
    (anyIov (flaggedRows (shRows (s.x (xp + 1))) (shCols (s.x (xp + 1))) res))
  refine ⟨_, hcomp, ?_, fun r hne => (hothers r hne).trans (by rw [State.t, hread'.unit]; rfl), ?_, ?_, ?_⟩
  · rw [hdest]
    exact IsResult.of_build ..
  · have hm := congrArg (fun c : State => c.blankT.blankSticky) hread'.rest
    have hw := congrArg State.blankMem hrest
    exact hw.trans hm
  · rw [hsticky, ← anyNf_flaggedRows]
    exact hnf
  · rw [hsticky, ← anyIov_flaggedRows]
    exact hiov

end

/-! The obligation. -/

/-- Registers after larm: xd has the identifier. -/
theorem larm_regs {s : State} {d : BitVec 5} (v w : Word64) : ((s.entered v).setX d w).x d = (if d = 0 then 0 else w)
    ∧ ∀ r, r ≠ d → ((s.entered v).setX d w).x r = s.x r := by
  obtain ⟨h, h', _⟩ := SetsX.of_setX (s.entered v) d w
  exact ⟨h, fun r hr => (h' r hr).trans ((entered_dispatched v).x r)⟩

theorem entered_disabled {s : State} {v : Word64} (h : (s.partAt s.part).en = false) : ((s.entered v).partAt s.part).launches = (s.partAt s.part).launches := by
  rw [State.entered, enterLaunch_disabled s s.part _ _ h, State.numbered, State.modPart_self]

theorem entered_rejected {s t : State} {v : Word64} {e : Reject} (h : (s.partAt s.part).en = true)
    (hv : (s.numbered s.part).validate s.part (s.recordOf v) = (.error e, t)) :
    ((s.entered v).partAt s.part).launches = (t.partAt s.part).launches := by
  rw [State.entered, enterLaunch_rejected s s.part h hv, completion_launches, State.cleared, State.modPart_self]

theorem entered_armed {s t : State} {v : Word64} {ks : List Kept} (h : (s.partAt s.part).en = true)
    (hv : (s.numbered s.part).validate s.part (s.recordOf v) = (.ok ks, t)) (hw : (s.partAt s.part).pendingOf v.toNat < (s.recordOf v).depcnt) :
    ((s.entered v).partAt s.part).launches = (t.partAt s.part).launches ++ [armedLaunch (s.partAt s.part).nextId (some v.toNat) (s.recordOf v)
      ((s.recordOf v).depcnt - (s.partAt s.part).pendingOf v.toNat) ks] := by
  rw [State.entered, enterLaunch_waits s s.part h hv (by omega), State.armed, State.modPart_self, State.cleared, State.modPart_self]

theorem entered_nextId {s : State} (v : Word64) : ((s.entered v).partAt s.part).nextId = (s.partAt s.part).nextId + 1 := by
  rw [(entered_dispatched v).ids, State.numbered, State.modPart_self]

theorem triggered_unit {s : State} : s.triggered.core.unit = { s.core.unit with trig := true } := by
  rw [(triggered_dispatched (s := s)).unit]
  exact congrArg (fun u : UnitCtx => { u with trig := true }) (releaseCache_memOnly s 2).unit

theorem triggered_clean {s : State} (h : s.core.l1.Ok) : s.triggered.core.l1.dirty = [] :=
  List.sublist_nil.1 (releaseCache_released s h 2 (by decide) ▸ (triggered_dispatched (s := s)).dirty)

/-- What exit leaves of the unit and of its core. -/
theorem left_core {s : State} (h : s.core.l1.Ok) : s.left.core.run = .exited ∧ s.left.core.l1.dirty = []
    ∧ s.left.core.retired = s.core.retired + 1 ∧ s.left.k.vpin = 0 ∧ (∀ m, (s.left.mbox m).full = false)
    ∧ (∀ q, s.left.stream q = Stream.unbound) ∧ s.left.core.frame = [] := by
  have hd := left_dispatched (s := s)
  have hclean : ((s.releaseCache 2).retired false).stopUnit.core.l1.dirty = [] := releaseCache_released s h 2 (by decide)
  have hrun := congrArg (·.core.run) hd.rest
  have hret := congrArg (·.core.retired) hd.rest
  have hframe := congrArg (·.core.frame) hd.rest
  have hret' : (s.releaseCache 2).core.retired = s.core.retired := by
    have := congrArg (·.core.retired) (releaseCache_memOnly s 2).rest
    exact this
  refine ⟨hrun, List.sublist_nil.1 (hclean ▸ hd.dirty), ?_, ?_, fun m => ?_, fun q => ?_, hframe⟩
  · exact Eq.trans hret (congrArg (· + 1) hret')
  · rw [State.k, hd.unit]
    rfl
  · rw [State.mbox, hd.unit]
    simp [State.stopUnit]
  · rw [State.stream, hd.unit]
    simp [State.stopUnit]

theorem setX_partAt (s : State) (d : BitVec 5) (w : Word64) (p : BitVec 3) : (s.setX d w).partAt p = s.partAt p := by
  have hblank : (s.setX d w).blankX = s.blankX := State.setX_blankX s d w
  have hx : (s.setX d w).parts = s.parts := by simpa using congrArg State.parts hblank
  rw [State.partAt, State.partAt, hx]

theorem draw_regs {s : State} {d : BitVec 5} {l : Launch} (w : Word64) : ((s.drew l).setX d w).x d = (if d = 0 then 0 else w)
    ∧ ∀ r, r ≠ d → ((s.drew l).setX d w).x r = s.x r := by
  obtain ⟨h, h', _⟩ := SetsX.of_setX (s.drew l) d w
  exact ⟨h, fun r hr => (h' r hr).trans (drew_x r)⟩

/-- Settles O48: each instruction by its equation, and what its effects leave of the registers, the L1 and the launches. -/
theorem launchInstructions : Obligations.LaunchInstructions := by
  intro s d a b hi p pt v entry live record regs
  refine ⟨larm_pool, larm_live, fun he hl => ?larm, fun width off hwf => ?lpat, fun level => ?cncl, fun hrel => ⟨?trig, ?exit⟩, draw_state,
    fun l hl hm => ⟨fun h0 => ⟨_, draw_empty hl hm h0, SetsX.of_setX ..⟩, fun h0 => ?draw⟩, fun t op xp m hs => ?smrg⟩
  case larm =>
    refine ⟨_, larm_completes he hl, larm_regs _ _, ?_, fun hen => ?_, ?_, ?_⟩
    · rw [setX_partAt]
      exact entered_nextId v
    · rw [setX_partAt]
      exact entered_disabled hen
    · intro ks t rec_ hen hv hw
      have hrec : s.recordOf v = rec_ := recordOf_eq v
      rw [setX_partAt, entered_armed (v := v) hen (hrec ▸ hv) (hrec ▸ hw), hrec]
      exact ⟨_, rfl, rfl, rfl, rfl, rfl, rfl⟩
    · intro e t rec_ hen hv
      rw [setX_partAt]
      have hrec : s.recordOf v = rec_ := recordOf_eq v
      exact entered_rejected hen (hrec ▸ hv)
  case lpat =>
    intro pa old new put
    refine ⟨lpat_pool, lpat_live, fun he hl hs => lpat_waits he hl hs, fun he hl hs ht => ?_⟩
    obtain ⟨hrest, hbytes⟩ := patchedAt_writes (off := off) (width := width) pa (s.x b) hi.l1
    exact ⟨_, lpat_completes hi he hl hs ht, hrest.rest, hbytes⟩
  case cncl =>
    refine ⟨?_, ?_, ?_, fun h1 h3 => cncl_level_misses h1 h3, fun h1 h3 => cncl_level_hits h1 h3, ?_, ?_⟩
    · rintro rfl
      exact cncl_privilege
    · rintro rfl
      exact cncl_unit_misses
    · rintro e rfl
      exact cncl_unit_hits
    · rintro rfl
      exact cncl_job_hits
    · rintro rfl
      exact cncl_job_misses
  case trig =>
    exact ⟨_, trig_completes hrel, by rw [triggered_unit], triggered_clean hi.l1, fun r => by rw [State.x, triggered_unit]; rfl,
      fun r => by rw [State.t, triggered_unit]; rfl⟩
  case exit => exact ⟨_, exit_leaves hrel, left_core hi.l1⟩
  case draw =>
    intro c first
    refine ⟨_, draw_takes hl hm h0, draw_regs _, ?_, ?_⟩
    · have hblank : ((s.drew l).setX d (BitVec.ofNat 32 c ++ BitVec.ofNat 32 first)).blankX = (s.drew l).blankX := State.setX_blankX ..
      exact congrArg (·.core.unit.ident.slice) hblank
    · rw [setX_partAt]
      exact drew_launch hl
  case smrg =>
    intro ptr sh sp n len ras part hf hr hc hn hend hacc hread res
    exact smrg_result hs hf hr hc hn hend hacc hread

end Sys2Proof.Machine
end

section
/-! Retirement, and the forms that only have to complete (01 R38, R40; 04 R122). -/

namespace Sys2Proof.Machine

/-! Retirement (01 R38, R40; 04 R122). -/

section
variable {k : KRegs}

/-- The fields of k.repst after a move in the frame. -/
theorem withPos_fields (k : KRegs) {iter pos : Nat} (v : Bool) (hi : iter < 2 ^ 8) (hp : pos < 2 ^ 4) :
    bits (k.withPos iter pos v).repst 19 0 = bits k.repst 19 0 ∧ (k.withPos iter pos v).iter = iter ∧ (k.withPos iter pos v).pos = pos
      ∧ (k.withPos iter pos v).v = v := by
  have hlow : bits k.repst 19 0 < 2 ^ 20 := by
    rw [bits]
    exact Nat.mod_lt _ (by decide)
  obtain ⟨n, hn, hlt, hnum⟩ : ∃ n, n = bits k.repst 19 0 + iter * 2 ^ 20 + pos * 2 ^ 28 + (if v then 2 ^ 32 else 0) ∧ n < 2 ^ 33
      ∧ (k.withPos iter pos v).repst = BitVec.ofNat 64 n := ⟨_, rfl, by cases v <;> simp <;> omega, rfl⟩
  have hval : (k.withPos iter pos v).repst.toNat = n := by
    rw [hnum, BitVec.toNat_ofNat]
    omega
  have hbit : (k.withPos iter pos v).v = decide (n / 2 ^ 32 % 2 = 1) := by
    rw [KRegs.v, BitVec.getLsbD, hval, Nat.testBit_eq_decide_div_mod_eq]
  refine ⟨?_, ?_, ?_, ?_⟩
  · rw [bits, hval, hn]
    cases v <;> simp <;> omega
  · rw [KRegs.iter, bits, hval, hn]
    cases v <;> simp <;> omega
  · rw [KRegs.pos, bits, hval, hn]
    cases v <;> simp <;> omega
  · rw [hbit, hn]
    cases v <;> simp <;> omega

theorem withPos_pl (k : KRegs) (iter pos : Nat) (v : Bool) : (k.withPos iter pos v).pl = k.pl := by
  rw [KRegs.withPos, KRegs.pl, KRegs.pl]

theorem withPos_rf (k : KRegs) (iter pos : Nat) (v : Bool) : (k.withPos iter pos v).rf = k.rf := by
  rw [KRegs.withPos, KRegs.rf, KRegs.rf]

theorem KRegs.iter_lt (k : KRegs) : k.iter < 2 ^ 8 := by
  rw [KRegs.iter, bits]
  exact Nat.mod_lt _ (by decide)
theorem KRegs.pos_lt (k : KRegs) : k.pos < 2 ^ 4 := by
  rw [KRegs.pos, bits]
  exact Nat.mod_lt _ (by decide)
theorem KRegs.k1_lt (k : KRegs) : k.k1 < 2 ^ 8 := by
  rw [KRegs.k1, bits]
  exact Nat.mod_lt _ (by decide)
theorem KRegs.n1_lt (k : KRegs) : k.n1 < 2 ^ 4 := by
  rw [KRegs.n1, bits]
  exact Nat.mod_lt _ (by decide)

end

section
variable {s : State} {b : Bool}

theorem advance_of_frame (h : s.k.rf = true) : s.advance b = (s.retired b).nextInFrame := by
  unfold State.advance
  dsimp only
  exact if_pos h

/-- The next position of an iteration. -/
theorem nextInFrame_pos (h : s.k.pos < s.k.n1) : s.nextInFrame = (s.setK (s.k.withPos s.k.iter (s.k.pos + 1) true)).setPc (s.k.frameAddr (s.k.pos + 1)) := by
  unfold State.nextInFrame
  dsimp only
  rw [if_pos h]

/-- The next iteration. -/
theorem nextInFrame_iter (h : ¬s.k.pos < s.k.n1) (hk : s.k.iter < s.k.k1) :
    s.nextInFrame = (s.setK (s.k.withPos (s.k.iter + 1) 0 true)).setPc (s.k.frameAddr 0) := by
  unfold State.nextInFrame
  dsimp only
  rw [if_neg h, if_pos hk]

/-- The control registers past the frame. -/
def KRegs.closed (k : KRegs) : KRegs := { k.withPos k.iter k.pos false with status := statusOf k.pl false }

/-- The end of the frame. -/
theorem nextInFrame_end (h : ¬s.k.pos < s.k.n1) (hk : ¬s.k.iter < s.k.k1) :
    s.nextInFrame = { (s.setK s.k.closed).setPc (s.k.frameAddr (s.k.n1 + 1)) with core.frame := [] } := by
  unfold State.nextInFrame
  dsimp only
  rw [if_neg h, if_neg hk]
  rfl

/-- Where an execution of the frame is followed by the next, and what k.repst and k.status are then. -/
theorem nextInFrame_fields (hrf : s.k.rf = true) : bits s.nextInFrame.k.repst 19 0 = bits s.k.repst 19 0 ∧ s.nextInFrame.k.pl = s.k.pl
    ∧ if s.k.pos < s.k.n1 then s.nextInFrame.k.rf = true ∧ s.nextInFrame.k.v = true ∧ s.nextInFrame.k.iter = s.k.iter
          ∧ s.nextInFrame.k.pos = s.k.pos + 1 ∧ s.nextInFrame.pc = s.k.frameAddr (s.k.pos + 1)
      else if s.k.iter < s.k.k1 then s.nextInFrame.k.rf = true ∧ s.nextInFrame.k.v = true ∧ s.nextInFrame.k.iter = s.k.iter + 1
          ∧ s.nextInFrame.k.pos = 0 ∧ s.nextInFrame.pc = s.k.frameAddr 0
      else s.nextInFrame.k.rf = false ∧ s.nextInFrame.k.v = false ∧ s.nextInFrame.k.iter = s.k.iter ∧ s.nextInFrame.k.pos = s.k.pos
          ∧ s.nextInFrame.pc = s.k.frameAddr (s.k.n1 + 1) ∧ s.nextInFrame.core.frame = [] := by
  have hn := s.k.n1_lt
  have hk1 := s.k.k1_lt
  by_cases hp : s.k.pos < s.k.n1
  · obtain ⟨hlow, hi, hpos, hv⟩ := withPos_fields s.k true s.k.iter_lt (show s.k.pos + 1 < 2 ^ 4 by omega)
    rw [if_pos hp, nextInFrame_pos hp]
    exact ⟨hlow, withPos_pl .., (withPos_rf ..).trans hrf, hv, hi, hpos, rfl⟩
  · by_cases hk : s.k.iter < s.k.k1
    · obtain ⟨hlow, hi, hpos, hv⟩ := withPos_fields s.k true (show s.k.iter + 1 < 2 ^ 8 by omega) (show 0 < 2 ^ 4 by decide)
      rw [if_neg hp, if_pos hk, nextInFrame_iter hp hk]
      exact ⟨hlow, withPos_pl .., (withPos_rf ..).trans hrf, hv, hi, hpos, rfl⟩
    · obtain ⟨hlow, hi, hpos, hv⟩ := withPos_fields s.k false s.k.iter_lt s.k.pos_lt
      obtain ⟨hpl, hrf'⟩ := statusOf_fields s.k.closed s.k.pl false rfl
      rw [if_neg hp, if_neg hk, nextInFrame_end hp hk]
      exact ⟨hlow, hpl, hrf', hv, hi, hpos, rfl, rfl⟩

theorem advance_sameBytes (s : State) (b : Bool) : SameBytes s (s.advance b) :=
  SameBytes.of_eq s _ (s.advance_mem b) (s.advance_l1 b)

theorem advance_counts (s : State) (b : Bool) : (s.advance b).core.wait = .none ∧ (s.advance b).core.exempt = false
    ∧ (s.advance b).core.retired = s.core.retired + 1 ∧ (s.advance b).core.retiredTile = if b then s.core.retiredTile + 1 else s.core.retiredTile := by
  by_cases hrf : s.k.rf = true
  · rw [advance_of_frame hrf]
    by_cases hp : (s.retired b).k.pos < (s.retired b).k.n1
    · rw [nextInFrame_pos hp]
      exact ⟨rfl, rfl, rfl, rfl⟩
    · by_cases hk : (s.retired b).k.iter < (s.retired b).k.k1
      · rw [nextInFrame_iter hp hk]
        exact ⟨rfl, rfl, rfl, rfl⟩
      · rw [nextInFrame_end hp hk]
        exact ⟨rfl, rfl, rfl, rfl⟩
  · rw [State.advance_of_rf s b (Bool.eq_false_iff.2 hrf)]
    exact ⟨rfl, rfl, rfl, rfl⟩

/-- Retirement as a whole. -/
theorem advance_rule (s : State) (tile : Bool) : (s.advance tile).blankFlow = s.blankFlow ∧ SameBytes s (s.advance tile)
    ∧ (s.advance tile).k.pl = s.k.pl ∧ (s.advance tile).core.wait = .none ∧ (s.advance tile).core.exempt = false
    ∧ (s.advance tile).core.retired = s.core.retired + 1
    ∧ (s.advance tile).core.retiredTile = (if tile then s.core.retiredTile + 1 else s.core.retiredTile)
    ∧ (s.k.rf = false → (s.advance tile).k = s.k ∧ (s.advance tile).pc = s.pc + 4 ∧ (s.advance tile).core.frame = s.core.frame) := by
  obtain ⟨hwait, hex, hret, htile⟩ := advance_counts s tile
  refine ⟨s.advance_blankFlow tile, advance_sameBytes s tile, ?_, hwait, hex, hret, htile, fun hrf => ?_⟩
  · by_cases hrf : s.k.rf = true
    · rw [advance_of_frame hrf]
      exact (nextInFrame_fields (s := s.retired tile) hrf).2.1
    · rw [State.advance_of_rf s tile (Bool.eq_false_iff.2 hrf)]
      rfl
  · rw [State.advance_of_rf s tile hrf]
    exact ⟨rfl, rfl, rfl⟩

end

end Sys2Proof.Machine
end

section
/-! The forms that complete under plain conditions (13 R334 to R341, R353; 09 R225 to R237). -/

namespace Sys2Proof.Machine

/-- The instruction completes: it counts once and goes on at the next word. -/
def Done (i : Instr) (s : State) : Prop :=
  ∃ t, exec i s = .next t ∧ t.core.retired = s.core.retired + 1 ∧ (s.k.rf = false → t.pc = s.pc + 4)

/-- Where the unit stands, and what retirement looks at, is as it was. -/
structure SameFlow (s u : State) : Prop where
  status : u.k.status = s.k.status
  pc : u.pc = s.pc
  retired : u.core.retired = s.core.retired

section
variable {s t u : State} {i : Instr}

theorem SameFlow.refl (s : State) : SameFlow s s := ⟨rfl, rfl, rfl⟩

theorem SameFlow.trans (h : SameFlow s t) (k : SameFlow t u) : SameFlow s u :=
  ⟨k.status.trans h.status, k.pc.trans h.pc, k.retired.trans h.retired⟩

theorem SameFlow.of_parts (hu : u.core.unit = s.core.unit) (hr : u.core.retired = s.core.retired) : SameFlow s u :=
  ⟨congrArg (fun c : UnitCtx => c.k.status) hu, congrArg UnitCtx.pc hu, hr⟩

theorem MemOnly.sameFlow (h : MemOnly s u) : SameFlow s u := by
  have hr := congrArg (·.core.retired) h.rest
  exact SameFlow.of_parts h.unit hr

theorem Dispatched.sameFlow (h : Dispatched s u) : SameFlow s u := SameFlow.of_parts h.unit h.undisturbed.retired

theorem setX_sameFlow (s : State) (d : BitVec 5) (w : Word64) : SameFlow s (s.setX d w) := by
  have h : (s.setX d w).blankX = s.blankX := State.setX_blankX s d w
  have hs := congrArg (·.k.status) h
  have hp := congrArg (·.pc) h
  have hr := congrArg (·.core.retired) h
  exact ⟨hs, hp, hr⟩

theorem stick_sameFlow (s : State) (b : Nat) (c : Bool) : SameFlow s (s.stick b c) := by
  unfold State.stick
  split <;> exact ⟨rfl, rfl, rfl⟩

theorem SetsT.sameFlow {d : BitVec 4} {v : Tile} {nf iov : Bool} (h : SetsT s u d v nf iov) : SameFlow s u := by
  have hs := congrArg (·.k.status) h.rest
  have hp := congrArg (·.pc) h.rest
  have hr := congrArg (·.core.retired) h.rest
  exact ⟨hs, hp, hr⟩

theorem SetsM.sameFlow {m : BitVec 3} {v : Word64} {full mov : Bool} (h : SetsM s u m v full mov) : SameFlow s u := by
  have hs := congrArg (·.k.status) h.rest
  have hp := congrArg (·.pc) h.rest
  have hr := congrArg (·.core.retired) h.rest
  exact ⟨hs, hp, hr⟩

theorem SameFlow.advanced (h : SameFlow s u) (tile : Bool) :
    (u.advance tile).core.retired = s.core.retired + 1 ∧ (s.k.rf = false → (u.advance tile).pc = s.pc + 4) := by
  obtain ⟨-, -, -, -, -, hret, -, hnext⟩ := advance_rule u tile
  refine ⟨by rw [hret, h.retired], fun hrf => ?_⟩
  have hrf' : u.k.rf = false := by rw [KRegs.rf, h.status]; exact hrf
  rw [(hnext hrf').2.1, h.pc]

theorem Completes.done {tile : Bool} (h : Completes i s u tile) (hf : SameFlow s u) : Done i s := ⟨_, h, hf.advanced tile⟩

end

/-! Conversions and tiles. -/

section
variable {s : State}

theorem fcvt_done (d a : BitVec 5) (sat : BitVec 1) (src tgt : BitVec 4) : Done (.fcvt d a sat src tgt) s :=
  Completes.done (u := (s.stick 0 (fcvtResult sat src tgt s.rm s.k.ftz (s.x a)).2).setX d (fcvtResult sat src tgt s.rm s.k.ftz (s.x a)).1) rfl
    ((stick_sameFlow ..).trans (setX_sameFlow ..))

theorem tred_done {d a : BitVec 4} {d64 dst : BitVec 1} {op : BitVec 3} {axis : BitVec 2} (hw : wellFormed (.tred d a d64 dst op axis) = true)
    (hc : (s.t a).clean) (hf : isFloatCode (s.t a).fmt = true ∨ (isIntCode (s.t a).fmt = true ∧ d64 = 0)) : Done (.tred d a d64 dst op axis) s := by
  have hbit : ∀ b : BitVec 1, b = 0 ∨ b = 1 := by decide
  obtain ⟨g, hres⟩ : ∃ g : Nat → Flagged, redResults op axis s.k.ftz (s.t a)
      = (List.range (reduceCount axis (s.t a).rext (s.t a).cext)).map g := by
    cases hfl : isFloatCode (s.t a).fmt with
    | true => exact ⟨_, redResults_float hfl op axis s.k.ftz⟩
    | false => exact ⟨_, redResults_int hfl op axis s.k.ftz⟩
  have harith : (isArith (s.t a).fmt && (d64 == 0 || isFloatCode (s.t a).fmt)) = true := by
    rcases hf with hf | ⟨hf, h64⟩
    · simp [isArith, hf]
    · simp [isArith, hf, h64]
  obtain ⟨nf, iov, -, -, htile, hbox⟩ := tred_goes d hw hc harith hres
  rcases hbit dst with h | h
  · obtain ⟨u, v, hex, hset, -⟩ := htile h
    exact hex.done hset.sameFlow
  · obtain ⟨u, hex, hset⟩ := hbox h
    obtain ⟨hs, hp, hret⟩ := hset.sameFlow
    exact hex.done ⟨hs, hp, hret⟩

theorem writeFlagged_sameFlow (s : State) (d : BitVec 4) (f : BitVec 5) (r c : Nat) (g : Nat → Nat → Flagged) :
    SameFlow s (s.writeFlagged d f r c (flaggedRows r c g)) := (SetsT.of_writeFlagged s d f r c g).sameFlow

theorem tsfu_done {a : BitVec 4} (d : BitVec 4) (fn : BitVec 3) (hc : (s.t a).clean) (hf : isFloatCode (s.t a).fmt = true) : Done (.tsfu d a fn) s :=
  (tsfu_completes d fn hc hf).done (writeFlagged_sameFlow ..)

theorem tnf_done {a : BitVec 4} (d : BitVec 4) (fn : BitVec 1) (hc : (s.t a).clean)
    (hf : isFloatCode (s.t a).fmt = true ∨ isIntCode (s.t a).fmt = true) : Done (.tnf d a fn) s := by
  have hbit : ∀ b : BitVec 1, b = 0 ∨ b = 1 := by decide
  have harith : isArith (s.t a).fmt = true := by
    rw [isArith, Bool.or_eq_true]
    exact hf
  rcases hbit fn with rfl | rfl
  · exact (tnf_tile_completes d hc harith).done ⟨rfl, rfl, rfl⟩
  · exact (tnf_box_completes d hc harith).done (SetsM.of_mwrite ..).sameFlow

theorem tadw_done {d a b c : BitVec 4} (xh : BitVec 5) (hf : (s.t a).fmt ∈ [1#5, 2, 3]) (hscl : (s.t a).scl = false) (hc : (s.t a).clean)
    (hr : ∀ r ∈ [d, b, c], (s.t r).fmt = 1 ∧ (s.t r).rext = (s.t a).rext ∧ (s.t r).cext = (s.t a).cext ∧ (s.t r).clean) :
    Done (.tadw d a b c xh) s :=
  (tadw_completes xh ⟨by simpa using hf, hscl, hc⟩ hr).done
    (((writeFlagged_sameFlow ..).trans (writeFlagged_sameFlow ..)).trans (writeFlagged_sameFlow ..))

/-! Messages and commands. -/

theorem send_done {m : BitVec 3} {a b : BitVec 5} (hroom : s.ownSends.length < 8)
    (h : bits (s.x a) 63 7 = 0 ∧ (s.partAt s.part).qmask.getLsbD (bits (s.x a) 6 4) = true) : Done (.send m a b) s :=
  Completes.done (u := { s with core.net := s.core.net ++ [⟨false, bits (s.x a) 6 0, m, s.x b, s.core.unit.ident.part,
    s.core.unit.ident.launch, s.core.unit.ident.task, false⟩] }) (by rw [Completes, send_pushes h, pushMsg_ok hroom]; rfl) ⟨rfl, rfl, rfl⟩

theorem sendU_done {m : BitVec 3} {a b : BitVec 5} (hroom : s.ownSends.length < 8) (h : s.NamesUnit (s.x a)) : Done (.sendU m a b) s :=
  Completes.done (u := { s with core.net := s.core.net ++ [⟨true, bits (s.x a) 31 0, m, s.x b, s.core.unit.ident.part,
    s.core.unit.ident.launch, s.core.unit.ident.task, false⟩] }) (by rw [Completes, sendU_pushes h, pushMsg_ok hroom]; rfl) ⟨rfl, rfl, rfl⟩

theorem issue_sameFlow (s : State) (kind : CmdKind) (bar : Option Nat) (pages : List (Nat × Nat)) : SameFlow s (s.issue kind bar pages) :=
  ⟨rfl, rfl, rfl⟩

theorem touchAll_sameFlow (s : State) (acc : Access) (m : XMap) : SameFlow s (s.touchAll acc m) := (touchAll_memOnly s acc m).sameFlow

theorem copyIssued_sameFlow (d a b : BitVec 5) (sm dm : Bool) (ms md mb : XMap) : SameFlow s (s.copyIssued d a b sm dm ms md mb) :=
  (((touchAll_sameFlow s .read ms).trans (touchAll_sameFlow _ .write md)).trans (touchAll_sameFlow _ .readWrite mb)).trans (issue_sameFlow ..)

theorem a2aIssued_sameFlow (d a b : BitVec 5) (quad : Bool) (mb ms : XMap) : SameFlow s (s.a2aIssued d a b quad mb ms) :=
  ((touchAll_sameFlow s .readWrite mb).trans (touchAll_sameFlow _ .read ms)).trans (issue_sameFlow ..)

theorem ofldIssued_sameFlow (d a b : BitVec 5) (out : Bool) (m mb : XMap) : SameFlow s (s.ofldIssued d a b out m mb) :=
  ((touchAll_sameFlow s _ m).trans (touchAll_sameFlow _ .readWrite mb)).trans (issue_sameFlow ..)

theorem credIssued_sameFlow (s : State) (d a b : BitVec 5) (memory : Bool) (m0 ms mb mo : XMap) (n : Nat) :
    SameFlow s (s.credIssued d a b memory m0 ms mb mo n) :=
  ((((touchAll_sameFlow s .read m0).trans (touchAll_sameFlow _ .read ms)).trans (touchAll_sameFlow _ .readWrite mb)).trans
    (touchAll_sameFlow _ .readWrite mo)).trans (issue_sameFlow ..)

theorem answered_sameFlow (s : State) : SameFlow s s.answered := ⟨rfl, rfl, rfl⟩

end

/-! Barrier operations (13 R338 to R340). -/

/-- The core's view of a barrier at its home, after its dirty lines are taken when the form releases. -/
def State.barHome (s : State) (pa : Nat) (rel : Bool) : State := (linesOf pa 32).foldl State.dropLine (if rel then s.releaseCache 2 else s)

section
variable {s : State} {va : Nat} {m : XMap} {rel : Bool}

theorem dropLines_rest (ls : List Nat) (s : State) : MemOnly s (ls.foldl State.dropLine s) := (dropLines_quiet ls s).rest

theorem releaseIf_memOnly (s : State) (rel : Bool) : MemOnly s (if rel then s.releaseCache 2 else s) := by
  cases rel with
  | false => exact MemOnly.refl s
  | true => exact releaseCache_memOnly s 2

theorem barHome_memOnly (s : State) (pa : Nat) (rel : Bool) : MemOnly s (s.barHome pa rel) :=
  (releaseIf_memOnly s rel).trans (dropLines_rest _ _)

theorem MemOnly.barCycle {s t : State} (h : MemOnly s t) : t.dev.barCycle = s.dev.barCycle := by
  have hd := congrArg (·.dev.barCycle) h.rest
  exact hd

/-- No cycle is open at the barrier. -/
def State.NoCycleAt (s : State) (pa : Nat) : Prop := ∀ c, s.dev.barCycle = some c → c.pa ≠ pa

theorem joinBarCycle_of_none {pa : Nat} (h : s.NoCycleAt pa) (key : Nat × Nat) : s.joinBarCycle pa key = s := by
  unfold State.joinBarCycle
  split
  · rfl
  · next c hc => rw [if_pos (by simpa using h c hc)]

theorem endBarCycleAt_of_none {pa : Nat} (h : s.NoCycleAt pa) : s.endBarCycleAt pa = s := by
  have hno : s.dev.barCycle.any (fun c => c.pa == pa) = false := by
    cases hc : s.dev.barCycle with
    | none => rfl
    | some c => simpa using h c hc
  rw [State.endBarCycleAt, hno]
  rfl

theorem needBarrier_ok (ha : va % 32 = 0) (hm : s.access .readWrite true [(va, 32)] = .ok m) : s.needBarrier va = .ok m := by
  rw [State.needBarrier, need_yes (beq_iff_eq.2 ha), run_ok_bind, hm]

theorem barrierAt_ok {pa : Nat} (t : State) (h : ((linesOf pa 32).foldl State.dropLine t).homeBad pa 32 = false) :
    t.barrierAt va pa = .ok (((linesOf pa 32).foldl State.dropLine t).readBarrier pa, (linesOf pa 32).foldl State.dropLine t) := by
  unfold State.barrierAt
  dsimp only
  rw [h]
  rfl

theorem barrierOp_ok {op : Barrier → Run? Barrier} {b : Barrier} (hr : Releasable s) (ha : va % 32 = 0)
    (hm : s.access .readWrite true [(va, 32)] = .ok m) (hc : s.NoCycleAt (m.pa va)) (hb : (s.barHome (m.pa va) rel).homeBad (m.pa va) 32 = false)
    (hop : op ((s.barHome (m.pa va) rel).readBarrier (m.pa va)) = .ok b) :
    s.barrierOp va rel op = .ok ((((s.barHome (m.pa va) rel).ownHomeWrite (m.pa va)
      ((s.barHome (m.pa va) rel).barTest (m.pa va) b).bytes).touchAll .readWrite m).advance) := by
  have hcycle : (s.releaseCache 2).NoCycleAt (m.pa va) := fun c h => hc c ((releaseCache_memOnly s 2).barCycle ▸ h)
  rw [State.barrierOp, needBarrier_ok ha hm, run_ok_bind, hr.toSettled.settleAll, run_ok_bind]
  cases rel with
  | false =>
    have hat : s.barrierAt va (m.pa va) = .ok ((s.barHome (m.pa va) false).readBarrier (m.pa va), s.barHome (m.pa va) false) := barrierAt_ok s hb
    simp only [Bool.false_eq_true, if_false, run_ok_bind, joinBarCycle_of_none hc, hat, hop]
  | true =>
    have hat : (s.releaseCache 2).barrierAt va (m.pa va) = .ok ((s.barHome (m.pa va) true).readBarrier (m.pa va), s.barHome (m.pa va) true) :=
      barrierAt_ok (s.releaseCache 2) hb
    simp only [if_true, hr.release, run_ok_bind, joinBarCycle_of_none hcycle, hat, hop]

/-- The operation on the barrier succeeds, so its instruction completes. -/
theorem barrierOp_done {i : Instr} {op : Barrier → Run? Barrier} {b : Barrier} (hi : exec i s = s.finish (s.barrierOp va rel op))
    (hr : Releasable s) (ha : va % 32 = 0) (hm : s.access .readWrite true [(va, 32)] = .ok m) (hc : s.NoCycleAt (m.pa va))
    (hb : (s.barHome (m.pa va) rel).homeBad (m.pa va) 32 = false) (hop : op ((s.barHome (m.pa va) rel).readBarrier (m.pa va)) = .ok b) : Done i s :=
  Completes.done (u := ((s.barHome (m.pa va) rel).ownHomeWrite (m.pa va) ((s.barHome (m.pa va) rel).barTest (m.pa va) b).bytes).touchAll .readWrite m)
    (by rw [Completes, hi, barrierOp_ok hr ha hm hc hb hop]; rfl)
    (((barHome_memOnly s _ rel).trans (ownHomeWrite_memOnly ..)).sameFlow.trans (touchAll_sameFlow ..))

/-! What the operations ask of the barrier (13 R339). -/

/-- Bytes may be posted to the barrier. -/
def Barrier.Posts (r : Barrier) (n : Int) : Prop := r.exp ≠ 0 ∧ r.ovf = false ∧ -2 ^ 23 ≤ r.pend + n ∧ r.pend + n < 2 ^ 23

/-- A unit may arrive at the barrier. -/
def Barrier.Arrives (r : Barrier) : Prop := r.exp ≠ 0 ∧ r.ovf = false ∧ r.arr < r.exp

theorem Barrier.Arrives.posted {r : Barrier} (h : r.Arrives) (n : Int) : ({ r with pend := r.pend + n, xp := true } : Barrier).Arrives := h

/-- What bar.wait leaves of the L1: its acquire, with the fills that may still arrive (log entry 80). -/
def State.waited (s : State) : State := { s.dropClean with core.l1.late := s.lateFills }

theorem waited_sameFlow (s : State) : SameFlow s s.waited := ⟨rfl, rfl, rfl⟩

theorem needRange_ok {c : Bool} (h : c = true) (va : Nat) : needRange c va = .ok () := by rw [needRange, need_yes h]

theorem post_ok {r : Barrier} {n : Int} (h : r.Posts n) (va : Nat) : r.post va n = .ok { r with pend := r.pend + n, xp := true } := by
  obtain ⟨hexp, hovf, hlo, hhi⟩ := h
  have hok : (r.exp != 0 && !r.ovf && pendOk (r.pend + n)) = true := by
    simp only [hovf, pendOk, decide_eq_true hlo, decide_eq_true hhi, bne_iff_ne.2 hexp]
    rfl
  rw [Barrier.post, needRange_ok hok]
  rfl

theorem arrive_ok {r : Barrier} (h : r.Arrives) (va : Nat) : r.arrive va = .ok { r with arr := r.arr + 1 } := by
  obtain ⟨hexp, hovf, harr⟩ := h
  have hok : (r.exp != 0 && !r.ovf && decide (r.arr < r.exp)) = true := by
    simp only [hovf, decide_eq_true harr, bne_iff_ne.2 hexp]
    rfl
  rw [Barrier.arrive, needRange_ok hok]
  rfl

theorem drop_ok {r : Barrier} (h : r.Arrives) (hd : r.ndrop < r.exp) (va : Nat) :
    r.drop va = .ok { r with arr := r.arr + 1, ndrop := r.ndrop + 1 } := by
  rw [Barrier.drop, needRange_ok (decide_eq_true hd), run_ok_bind, arrive_ok h]
  rfl

theorem needPosted_ok {v : Word64} (hlo : -2 ^ 23 ≤ v.toInt) (hhi : v.toInt < 2 ^ 23) : needPosted v = .ok () := by
  have hok : pendOk v.toInt = true := by rw [pendOk, decide_eq_true hlo, decide_eq_true hhi]; rfl
  rw [needPosted, need_yes hok]

/-! The barrier instructions. -/

section
variable {d a b : BitVec 5} (hr : Releasable s) (ha : addrOf (s.x a) % 32 = 0)
  (hm : s.access .readWrite true [(addrOf (s.x a), 32)] = .ok m) (hc : s.NoCycleAt (m.pa (addrOf (s.x a))))
include hr ha hm hc

theorem barInit_done (hset : bits (s.x b) 15 0 ≠ 0) (hres : bits (s.x b) 63 17 = 0) : Done (.barInit a b) s := by
  have hok : (bits (s.x b) 15 0 != 0 && bits (s.x b) 63 17 == 0) = true := by
    rw [bne_iff_ne.2 hset, beq_iff_eq.2 hres]
    rfl
  have hcycle : (s.releaseCache 2).NoCycleAt (m.pa (addrOf (s.x a))) := fun c h => hc c ((releaseCache_memOnly s 2).barCycle ▸ h)
  refine Completes.done (tile := false) (u := ((s.releaseCache 2).ownHomeWrite (m.pa (addrOf (s.x a))) (barrierOf ((s.x b).setWidth 17)).bytes).touchAll .readWrite m) ?_
    (((releaseCache_memOnly s 2).trans (ownHomeWrite_memOnly ..)).sameFlow.trans (touchAll_sameFlow ..))
  change execBarInit a b s = _
  rw [execBarInit]
  simp only [need_yes hok, needBarrier_ok ha hm, hr.toSettled.settleAll, hr.release, joinBarCycle_of_none hcycle, run_ok_bind]
  rfl

section
variable (hb : ∀ rel, (s.barHome (m.pa (addrOf (s.x a))) rel).homeBad (m.pa (addrOf (s.x a))) 32 = false)
include hb

theorem barExp_done (hlo : -2 ^ 23 ≤ (s.x b).toInt) (hhi : (s.x b).toInt < 2 ^ 23)
    (hp : ((s.barHome (m.pa (addrOf (s.x a))) false).readBarrier (m.pa (addrOf (s.x a)))).Posts (s.x b).toInt) : Done (.barExp a b) s := by
  refine barrierOp_done (op := fun r => r.post (addrOf (s.x a)) (s.x b).toInt) ?_ hr ha hm hc (hb false) (post_ok hp _)
  change execBarExp a b s = _
  rw [execBarExp, needPosted_ok hlo hhi]
  rfl

theorem barExpArr_done (hlo : -2 ^ 23 ≤ (s.x b).toInt) (hhi : (s.x b).toInt < 2 ^ 23)
    (hp : ((s.barHome (m.pa (addrOf (s.x a))) true).readBarrier (m.pa (addrOf (s.x a)))).Posts (s.x b).toInt)
    (hv : ((s.barHome (m.pa (addrOf (s.x a))) true).readBarrier (m.pa (addrOf (s.x a)))).Arrives) : Done (.barExpArr a b) s := by
  refine barrierOp_done (op := fun r => r.post (addrOf (s.x a)) (s.x b).toInt >>= fun r => r.arrive (addrOf (s.x a))) ?_ hr ha hm hc (hb true)
    (by rw [post_ok hp, run_ok_bind]; exact arrive_ok (hv.posted _) _)
  change execBarExpArr a b s = _
  rw [execBarExpArr, needPosted_ok hlo hhi]
  rfl

theorem barArr_done (hv : ((s.barHome (m.pa (addrOf (s.x a))) true).readBarrier (m.pa (addrOf (s.x a)))).Arrives) : Done (.barArr a) s :=
  barrierOp_done (op := fun r => r.arrive (addrOf (s.x a))) rfl hr ha hm hc (hb true) (arrive_ok hv _)

theorem barDrop_done (hv : ((s.barHome (m.pa (addrOf (s.x a))) true).readBarrier (m.pa (addrOf (s.x a)))).Arrives)
    (hd : ((s.barHome (m.pa (addrOf (s.x a))) true).readBarrier (m.pa (addrOf (s.x a)))).ndrop
      < ((s.barHome (m.pa (addrOf (s.x a))) true).readBarrier (m.pa (addrOf (s.x a)))).exp) : Done (.barDrop a) s :=
  barrierOp_done (op := fun r => r.drop (addrOf (s.x a))) rfl hr ha hm hc (hb true) (drop_ok hv hd _)

/-- The barrier as bar.wait and bar.test read it. -/
theorem readsBarrier : (s.endBarCycleAt (m.pa (addrOf (s.x a)))).barrierAt (addrOf (s.x a)) (m.pa (addrOf (s.x a)))
    = .ok ((s.barHome (m.pa (addrOf (s.x a))) false).readBarrier (m.pa (addrOf (s.x a))), s.barHome (m.pa (addrOf (s.x a))) false) := by
  rw [endBarCycleAt_of_none hc]
  exact barrierAt_ok s (hb false)

theorem barWait_done (hp : ((s.barHome (m.pa (addrOf (s.x a))) false).readBarrier (m.pa (addrOf (s.x a)))).phase ≠ (s.x b).getLsbD 0) :
    Done (.barWait d a b) s := by
  have hread := readsBarrier hr ha hm hc hb
  have hphase := bne_iff_ne.2 hp
  refine Completes.done (tile := false) (u := ((s.barHome (m.pa (addrOf (s.x a))) false).touchAll .readWrite m).waited.setX d
    ((s.barHome (m.pa (addrOf (s.x a))) false).readBarrier (m.pa (addrOf (s.x a)))).word1) ?_
    ((((barHome_memOnly s _ false).sameFlow.trans (touchAll_sameFlow ..)).trans (waited_sameFlow _)).trans (setX_sameFlow ..))
  change execBarWait d a b s = _
  rw [execBarWait]
  simp only [needBarrier_ok ha hm, hr.toSettled.settleAll, hread, hphase, run_ok_bind, if_true]
  rfl

theorem barTest_done (hv : ((s.barHome (m.pa (addrOf (s.x a))) false).readBarrier (m.pa (addrOf (s.x a)))).ovf = false)
    (he : ((s.barHome (m.pa (addrOf (s.x a))) false).readBarrier (m.pa (addrOf (s.x a)))).exp ≠ 0) : Done (.barTest d a) s := by
  have hread := readsBarrier hr ha hm hc hb
  have hok : (!((s.barHome (m.pa (addrOf (s.x a))) false).readBarrier (m.pa (addrOf (s.x a)))).ovf
      && ((s.barHome (m.pa (addrOf (s.x a))) false).readBarrier (m.pa (addrOf (s.x a)))).exp != 0) = true := by
    rw [hv, bne_iff_ne.2 he]
    rfl
  refine Completes.done (tile := false) (u := ((s.barHome (m.pa (addrOf (s.x a))) false).touchAll .readWrite m).setX d
    ((s.barHome (m.pa (addrOf (s.x a))) false).readBarrier (m.pa (addrOf (s.x a)))).word1) ?_
    (((barHome_memOnly s _ false).sameFlow.trans (touchAll_sameFlow ..)).trans (setX_sameFlow ..))
  change execBarTest d a s = _
  rw [execBarTest]
  simp only [needBarrier_ok ha hm, hr.toSettled.settleAll, hread, needRange_ok hok, run_ok_bind]
  rfl

end

end

end

end Sys2Proof.Machine
end

section
/-! The retirement rule settled (01 R38, R40; 04 R122; 13 R329, R353; 09 R225 to R237). -/

namespace Sys2Proof.Machine

section
variable {s : State} {d a b : BitVec 5}

theorem issue_done {i : Instr} {r : Run? State} {u : State} (hi : exec i s = s.finish r) (hr : r = .ok u.advance) (hf : SameFlow s u) : Done i s :=
  Completes.done (tile := false) (by rw [Completes, hi, hr]; rfl) hf

theorem exit_done (hr : Releasable s) : ∃ t, exec .exit s = .next t ∧ t.core.retired = s.core.retired + 1 ∧ t.core.run = .exited := by
  have hret := (left_dispatched (s := s)).undisturbed.retired
  have hret' := (releaseCache_memOnly s 2).sameFlow.retired
  have hrun := congrArg (·.core.run) (left_dispatched (s := s)).rest
  exact ⟨_, exit_leaves hr, Eq.trans hret (congrArg (· + 1) hret'), hrun⟩

theorem trig_done (hr : Releasable s) : Done .trig s := by
  obtain ⟨h1, h2, h3⟩ := (releaseCache_memOnly s 2).sameFlow
  exact (trig_completes hr).done (SameFlow.trans (t := { s.releaseCache 2 with core.unit.trig := true }) ⟨h1, h2, h3⟩ triggered_dispatched.sameFlow)

theorem draw_done {l : Launch} (hl : s.launch? = some l) (hm : l.record.smode = true) : Done (.draw d) s := by
  by_cases h0 : l.remaining = 0
  · exact (draw_empty hl hm h0).done (setX_sameFlow ..)
  · have hdrawn := (drawFor_entries s s.part l s.core.unit.ident.unit.toNat s.core.num.toNat).1.sameFlow
    have hdrew : SameFlow s (s.drew l) := ⟨hdrawn.status, hdrawn.pc, hdrawn.retired⟩
    exact (draw_takes hl hm h0).done (hdrew.trans (setX_sameFlow ..))

theorem cncl_done {level : BitVec 3} (h : level = 4 → s.k.pl ≠ 0) : Done (.cncl d a level) s := by
  have hu := cancelFrom_undisturbed (s.cnclAnswer d (if s.cnclFinds level (s.x a) then 1 else 0)) s.part level (s.x a)
  obtain ⟨hret, hpc⟩ := (setX_sameFlow s d (if s.cnclFinds level (s.x a) then 1 else 0)).advanced false
  exact ⟨_, cncl_exec h, hu.retired.trans hret, fun hrf => hu.pc.trans (hpc hrf)⟩

theorem larm_done (h : s.Entry (s.x a)) (hl : ¬s.Live (s.x a)) : Done (.larm d a) s := by
  obtain ⟨h1, h2, h3⟩ := (entered_dispatched (s := s) (s.x a)).sameFlow
  exact (larm_completes h hl).done (SameFlow.trans ⟨h1, h2, h3⟩ (setX_sameFlow ..))

theorem lpat_done {width : BitVec 2} {off : BitVec 4} (h : s.Entry (s.x a)) (hl : ¬s.Live (s.x a)) (hs : Settled s)
    (ht : s.physHome (s.wordPa (s.x a) off) = true → s.homesTake [lineOf (s.wordPa (s.x a) off)] = true) : Done (.lpat a b width off) s := by
  have htaken : (!s.physHome (s.wordPa (s.x a) off) || s.homesTake [lineOf (s.wordPa (s.x a) off)]) = true := by
    cases hp : s.physHome (s.wordPa (s.x a) off) with
    | false => rfl
    | true => simp [ht hp]
  have hpa : (s.partAt s.part).entryPa (s.x a).toNat + 8 * off.toNat = s.wordPa (s.x a) off := rfl
  refine Completes.done (tile := false) (u := if s.physHome (s.wordPa (s.x a) off) then
    ((linesOf (s.wordPa (s.x a) off) 8).foldl State.dropLine s).ownHomeWrite (s.wordPa (s.x a) off)
      (leBytes 8 (patched (((linesOf (s.wordPa (s.x a) off) 8).foldl State.dropLine s).mem.read64 (s.wordPa (s.x a) off)) (s.x b) width.toNat
        off.toNat).toNat) else s) ?_ ?_
  · change execLpat a b width off s = _
    rw [execLpat]
    simp only [needEntry_ok h hl, hs.settleIf, run_ok_bind, hpa, htaken, needTaken_true]
    rfl
  · split
    · exact ((dropLines_rest _ s).trans (ownHomeWrite_memOnly ..)).sameFlow
    · exact SameFlow.refl s

theorem smrg_done {t : BitVec 4} {op : BitVec 2} {xp : BitVec 5} {m : XMap} (hs : Settled s) (hf : mergeFormat op (s.x xp) = true)
    (hr : shRows (s.x (xp + 1)) ≤ 32) (hc : shCols (s.x (xp + 1)) ≤ 32) (hn : shAux (s.x (xp + 1)) ≠ 0)
    (hend : addrOf (s.x xp) + rangeLen (mergeSpan (s.x xp) (s.x (xp + 1))) (shStride (s.x (xp + 1)))
      (shAux (s.x (xp + 1)) * shRows (s.x (xp + 1))) (shCols (s.x (xp + 1))) ≤ 2 ^ 56)
    (hacc : s.access .read true (mergeRanges (s.x xp) (s.x (xp + 1))) = .ok m) (hread : s.readable m) : Done (.smrg t op xp) s := by
  have hcomp := smrg_completes (d := t) hs hf hr hc hn hend hacc hread
  rw [mergedRows_eq] at hcomp
  exact hcomp.done ((readTouch_memOnly ..).sameFlow.trans (writeFlagged_sameFlow ..))

end

/-- Settles O11: retirement by the branch of the frame, each form by the state that it completes in. -/
theorem retirementRule : Obligations.RetirementRule := by
  refine ⟨fun s tile => ?_, fun s => ?_⟩
  · intro t
    obtain ⟨hflow, hbytes, hpl, hwait, hex, hret, htile, hnext⟩ := advance_rule s tile
    refine ⟨hflow, hbytes, hpl, hwait, hex, hret, htile, hnext, fun hrf => ?_⟩
    obtain ⟨hlow, -, hfields⟩ := nextInFrame_fields (s := s.retired tile) hrf
    have ht : t = (s.retired tile).nextInFrame := advance_of_frame hrf
    rw [ht]
    exact ⟨hlow, hfields⟩
  · intro done v at_ pt
    refine ⟨fun d a sat src tgt _ => fcvt_done d a sat src tgt, fun d a d64 dst fn1 op fn axis hc => ⟨fun hw _ _ hf => tred_done hw hc hf,
      fun hf => tsfu_done d fn hc hf, fun hf _ => tnf_done d fn1 hc hf⟩, fun d a b c xh _ hf hscl hc hr => tadw_done xh hf hscl hc hr,
      fun m a b hroom => ⟨fun h1 h2 => send_done hroom ⟨h1, h2⟩, fun l hl h1 h2 => sendU_done hroom ⟨h1, l, hl, h2⟩⟩,
      ?copies, ?exchanges, ?contributions, ?offloads, ?barriers, ?entries, fun d a level h => ?cancel, fun d l hl hm => draw_done hl hm,
      fun hr => ⟨trig_done hr, exit_done hr⟩, ?merge⟩
    case copies =>
      intro d a b ms md mb hroom n bar h1 h2 hal hmb hp
      refine ⟨fun hov hsrc hdst hms hmd => ?_, fun hsrc hdst hms hmd => ?_, fun hsrc hdst hms hmd => ?_⟩
      · exact issue_done rfl (bcp_issues (sm := true) (dm := true) hroom ⟨h1, h2, fun _ _ => hov⟩ hal hsrc hdst hms hmd hmb hp)
          (copyIssued_sameFlow ..)
      · exact issue_done rfl (bcp_issues hroom ⟨h1, h2, fun _ h => nomatch h⟩ hal hsrc hdst hms hmd hmb hp) (copyIssued_sameFlow ..)
      · exact issue_done rfl (bcp_issues hroom ⟨h1, h2, fun h => nomatch h⟩ hal hsrc hdst hms hmd hmb hp) (copyIssued_sameFlow ..)
    case exchanges =>
      intro d a b mb ms hroom w csz steps fits hb1 hb2 hw1 hw2 hsz1 hsz2 hsz3 hst1 hst2 hcls hd ha hend hmb hms hpb hps
      have hargs : A2aArgs s b := by
        obtain ⟨l, hl, hc⟩ := hcls
        exact ⟨hroom, ⟨hb1, hb2⟩, ⟨hw1, hw2, hsz1, hsz2, hsz3, hst1, hst2⟩, by rw [hl]; exact congrArg some hc⟩
      exact ⟨fun hf => issue_done rfl (a2a_issues (quad := false) hargs hd ha hend hf.1 hf.2 hmb hms hpb hps) (a2aIssued_sameFlow ..),
        fun hf => issue_done rfl (a2a_issues (quad := true) hargs hd ha hend hf.1 hf.2 hmb hms hpb hps) (a2aIssued_sameFlow ..)⟩
    case contributions =>
      intro d a b m0 m0' mb mo ms ms' hroom bar home n hidx hbar hobj hmb hmo hpb hpo hpeer hacc hgood
      have hn : s.Nelem (mo.pa (at_ d)) n := Or.inl ⟨hpeer, hgood, rfl⟩
      refine ⟨fun hend hin hm0 hms => ?_, fun hin hm0 hms => ?_⟩
      · have hargs : CredArgs s d a b true m0 mb mo := ⟨hroom, hidx, hbar, hobj, fun _ => hend, hm0, hmb, hmo, hpb, hpo⟩
        exact Completes.done (tile := false) (credStart_issues hargs hn (fun _ => hacc) hin hms)
          ((answered_sameFlow s).trans (credIssued_sameFlow ..))
      · have hargs : CredArgs s d a b false m0' mb mo := ⟨hroom, hidx, hbar, hobj, (fun h => nomatch h), hm0, hmb, hmo, hpb, hpo⟩
        exact Completes.done (tile := false) (credStart_issues hargs hn (fun _ => hacc) hin hms)
          ((answered_sameFlow s).trans (credIssued_sameFlow ..))
    case offloads =>
      intro d a b mr mw mb hroom n bar hlow hdv hpage hwhole hleast hmost hbar hend hmb hp
      have hargs : OfldArgs s d a b := ⟨hroom, ⟨hlow, hdv⟩, hpage, hwhole, hleast, hmost⟩
      exact ⟨fun hm => issue_done rfl (ofld_issues (out := true) hargs hbar hend hm hmb hp) (ofldIssued_sameFlow ..),
        fun hm => issue_done rfl (ofld_issues (out := false) hargs hbar hend hm hmb hp) (ofldIssued_sameFlow ..)⟩
    case barriers =>
      intro d a b m hr ha hm hc home r n posts arrives
      refine ⟨fun h1 h2 => barInit_done hr ha hm hc h1 h2, fun hb => ⟨fun hlo hhi => ⟨fun hp => barExp_done hr ha hm hc hb hlo hhi hp,
        fun hp hv => barExpArr_done hr ha hm hc hb hlo hhi hp hv⟩, fun hv => barArr_done hr ha hm hc hb hv,
        fun hv hd => barDrop_done hr ha hm hc hb hv hd, fun hp => barWait_done hr ha hm hc hb hp, fun hv he => barTest_done hr ha hm hc hb hv he⟩⟩
    case entries =>
      intro d a b width off h1 h2 hl
      have hentry : s.Entry (s.x a) := ⟨h1, h2⟩
      have hlive : ¬s.Live (s.x a) := fun ⟨l, hm, he⟩ => hl l hm he
      refine ⟨larm_done hentry hlive, fun _ hs ht => ?_⟩
      exact lpat_done hentry hlive hs (ht _ rfl)
    case cancel =>
      refine cncl_done fun h4 => ?_
      rcases h with h | ⟨-, h⟩
      · exact absurd h (by rw [h4]; decide)
      · exact h
    case merge =>
      intro t op xp m hs ptr sh sp hf hr hc hn hend hacc hread
      exact smrg_done hs hf hr hc hn hend hacc hread

end Sys2Proof.Machine
end

section
/-! Page swaps, port failures and scrubbing (10 R258, R259; 14 R374, R379, R380). -/

namespace Sys2Proof.Machine

/-! The reliability log (14 R379, R380; 10 R259; log entry 10). -/

/-- One entry is added: to the log of quadrant 0, or to those of the others. -/
structure LogsOne (quadrant : Nat) (s t : State) : Prop where
  rest : { t with mgmt.log := s.mgmt.log, mgmt.otherLogs := s.mgmt.otherLogs } = s
  own : t.mgmt.log.length = s.mgmt.log.length + (if quadrant = 0 then 1 else 0)
  others : t.mgmt.otherLogs.map (·.1) = s.mgmt.otherLogs.map (·.1) ++ if quadrant = 0 then [] else [quadrant]

theorem logEntry_logs (s : State) (quadrant : Nat) (e : List Byte) : LogsOne quadrant s (s.logEntry quadrant e) := by
  unfold State.logEntry
  by_cases h : quadrant = 0
  · rw [if_pos (beq_iff_eq.2 h)]
    exact ⟨rfl, by simp [h], by simp [h]⟩
  · rw [if_neg (mt beq_iff_eq.1 h)]
    exact ⟨rfl, by simp [h], by simp [h]⟩

theorem LogsOne.total {quadrant : Nat} {s t : State} (h : LogsOne quadrant s t) :
    t.mgmt.log.length + t.mgmt.otherLogs.length = s.mgmt.log.length + s.mgmt.otherLogs.length + 1 := by
  have hothers := congrArg List.length h.others
  rw [List.length_map, List.length_append, List.length_map] at hothers
  rw [hothers, h.own]
  split <;> simp <;> omega

/-! Page swap (10 R258, R259). -/

theorem remapOf_lt (s : State) (g : Nat) : s.remapOf g < 2 ^ 16 := by
  have h := leNat_lt (s.mem.readBytes (remapBase + 2 * g) 2)
  rw [Mem.readBytes_length] at h
  exact h

/-- A remap entry from its five ways, with its top bit. -/
def wayEntry (f a b c d t : Nat) : Nat := f + 8 * a + 64 * b + 512 * c + 4096 * d + 32768 * t

section
variable {f a b c d t : Nat}

theorem wayEntry_ways (hf : f < 8) (ha : a < 8) (hb : b < 8) (hc : c < 8) (hd : d < 8) (ht : t < 2) : wayEntry f a b c d t < 2 ^ 16
    ∧ fastWay (wayEntry f a b c d t) = f ∧ portWay (wayEntry f a b c d t) 0 = a ∧ portWay (wayEntry f a b c d t) 1 = b
    ∧ portWay (wayEntry f a b c d t) 2 = c ∧ portWay (wayEntry f a b c d t) 3 = d := by
  simp only [wayEntry, fastWay, portWay, Nat.reduceMul, Nat.reduceAdd, Nat.reducePow]
  omega

theorem exists_wayEntry {e : Nat} (he : e < 2 ^ 16) :
    ∃ f a b c d t, f < 8 ∧ a < 8 ∧ b < 8 ∧ c < 8 ∧ d < 8 ∧ t < 2 ∧ e = wayEntry f a b c d t :=
  ⟨e % 8, e / 8 % 8, e / 64 % 8, e / 512 % 8, e / 4096 % 8, e / 32768, by omega, by omega, by omega, by omega, by omega, by omega, by
    rw [wayEntry]
    omega⟩

theorem swapEntry_wayEntry (hf : f < 8) (ha : a < 8) (hb : b < 8) (hc : c < 8) (hd : d < 8) (ht : t < 2) :
    swapEntry (wayEntry f a b c d t) 0 = wayEntry a f b c d t ∧ swapEntry (wayEntry f a b c d t) 1 = wayEntry b a f c d t
    ∧ swapEntry (wayEntry f a b c d t) 2 = wayEntry c a b f d t ∧ swapEntry (wayEntry f a b c d t) 3 = wayEntry d a b c f t := by
  obtain ⟨-, h, h0, h1, h2, h3⟩ := wayEntry_ways hf ha hb hc hd ht
  simp only [swapEntry, h, h0, h1, h2, h3]
  simp only [wayEntry, Nat.reduceMul, Nat.reduceAdd, Nat.reducePow]
  omega

end

/-- What holds of the four ports. -/
theorem ports_four {P : Nat → Prop} (h0 : P 0) (h1 : P 1) (h2 : P 2) (h3 : P 3) : ∀ k, k < 4 → P k
  | 0, _ => h0
  | 1, _ => h1
  | 2, _ => h2
  | 3, _ => h3

/-- A remap entry with two ways exchanged: every other port keeps its way. -/
theorem swapEntry_ways {e j : Nat} (hj : j < 4) (he : e < 2 ^ 16) : swapEntry e j < 2 ^ 16 ∧ fastWay (swapEntry e j) = portWay e j
    ∧ portWay (swapEntry e j) j = fastWay e ∧ ∀ k, k < 4 → k ≠ j → portWay (swapEntry e j) k = portWay e k := by
  obtain ⟨f, a, b, c, d, t, hf, ha, hb, hc, hd, ht, rfl⟩ := exists_wayEntry he
  obtain ⟨-, p, p0, p1, p2, p3⟩ := wayEntry_ways hf ha hb hc hd ht
  obtain ⟨s0, s1, s2, s3⟩ := swapEntry_wayEntry hf ha hb hc hd ht
  refine ports_four (P := fun j => swapEntry (wayEntry f a b c d t) j < 2 ^ 16
    ∧ fastWay (swapEntry (wayEntry f a b c d t) j) = portWay (wayEntry f a b c d t) j
    ∧ portWay (swapEntry (wayEntry f a b c d t) j) j = fastWay (wayEntry f a b c d t)
    ∧ ∀ k, k < 4 → k ≠ j → portWay (swapEntry (wayEntry f a b c d t) j) k = portWay (wayEntry f a b c d t) k) ?_ ?_ ?_ ?_ j hj
  · obtain ⟨q, r, r0, r1, r2, r3⟩ := wayEntry_ways ha hf hb hc hd ht
    rw [s0, p, p0]
    exact ⟨q, r, r0, ports_four (fun h => absurd rfl h) (fun _ => r1.trans p1.symm) (fun _ => r2.trans p2.symm) fun _ => r3.trans p3.symm⟩
  · obtain ⟨q, r, r0, r1, r2, r3⟩ := wayEntry_ways hb ha hf hc hd ht
    rw [s1, p, p1]
    exact ⟨q, r, r1, ports_four (fun _ => r0.trans p0.symm) (fun h => absurd rfl h) (fun _ => r2.trans p2.symm) fun _ => r3.trans p3.symm⟩
  · obtain ⟨q, r, r0, r1, r2, r3⟩ := wayEntry_ways hc ha hb hf hd ht
    rw [s2, p, p2]
    exact ⟨q, r, r2, ports_four (fun _ => r0.trans p0.symm) (fun _ => r1.trans p1.symm) (fun h => absurd rfl h) fun _ => r3.trans p3.symm⟩
  · obtain ⟨q, r, r0, r1, r2, r3⟩ := wayEntry_ways hd ha hb hc hf ht
    rw [s3, p, p3]
    exact ⟨q, r, r3, ports_four (fun _ => r0.trans p0.symm) (fun _ => r1.trans p1.symm) (fun _ => r2.trans p2.symm) fun h => absurd rfl h⟩

section
variable {s : State} {g way : Nat} {err : Bool}

/-- The misses of the page that a port's frame of a group holds. -/
def State.missesAt (s : State) (g j : Nat) : Nat := ((s.dev.hier.misses.find? (fun e => e.1 == (portWay (s.remapOf g) j, g))).map (·.2)).getD 0

/-- The pages of the two frames change places; what memory holds under their addresses follows the entry. -/
def State.movedFrames (s : State) (g j : Nat) : State :=
  { s with dev := (({ s with dev.hier.misses := s.dev.hier.misses.filter (fun m => m.1 != (portWay (s.remapOf g) j, g)) } : State).dev.moved
      (g * 65536 + fastWay (s.remapOf g) * 2 ^ 39)).moved (g * 65536 + portWay (s.remapOf g) j * 2 ^ 39) }

/-- The group and the way exist. -/
structure Swappable (s : State) (g way : Nat) : Prop where
  group : g < 0x7FC000
  least : 1 ≤ way
  most : way ≤ 4
  there : s.wayExists g way = true

theorem pageSwap_exec (h : Swappable s g way) : exec (.pageSwap g way err) s = .next (
    if !s.dev.hier.mayswap g (portWay (s.remapOf g) (way - 1)) then s
    else if err || s.dev.portDown.getLsbD (way - 1) then s.logEntry (g % 32 / 4) (logBytes 0 g)
    else (s.movedFrames g (way - 1)).homeWrite .h (remapBase + 2 * g) (leBytes 2 (swapEntry (s.remapOf g) (way - 1)))) := by
  have hg : g % 2 ^ 23 = g := Nat.mod_eq_of_lt (by have := h.group; omega)
  have hno : (decide (way < 1) || decide (4 < way) || decide (0x7FC000 ≤ g) || !s.wayExists g way) = false := by
    simp [h.there, h.group, h.most, Nat.ne_of_gt h.least]
  change execPageSwap g way err s = _
  unfold execPageSwap
  dsimp only
  rw [hg, hno]
  rfl

theorem mayswap_iff (s : State) (g j : Nat) : s.dev.hier.mayswap g (portWay (s.remapOf g) j) = decide (s.dev.hier.swapAt ≤ s.missesAt g j) := rfl

theorem pageSwap_stays (h : Swappable s g way) (hm : s.missesAt g (way - 1) < s.dev.hier.swapAt) : exec (.pageSwap g way err) s = .next s := by
  rw [pageSwap_exec h, mayswap_iff, decide_eq_false (by omega)]
  rfl

theorem pageSwap_fails (h : Swappable s g way) (hm : s.dev.hier.swapAt ≤ s.missesAt g (way - 1))
    (he : err = true ∨ s.dev.portDown.getLsbD (way - 1) = true) : exec (.pageSwap g way err) s = .next (s.logEntry (g % 32 / 4) (logBytes 0 g)) := by
  rw [pageSwap_exec h, mayswap_iff, decide_eq_true hm, if_neg (by decide), if_pos (by simpa using he)]

theorem pageSwap_swaps (h : Swappable s g way) (hm : s.dev.hier.swapAt ≤ s.missesAt g (way - 1)) (he : err = false)
    (hp : s.dev.portDown.getLsbD (way - 1) = false) : exec (.pageSwap g way err) s
      = .next ((s.movedFrames g (way - 1)).homeWrite .h (remapBase + 2 * g) (leBytes 2 (swapEntry (s.remapOf g) (way - 1)))) := by
  rw [pageSwap_exec h, mayswap_iff, decide_eq_true hm, if_neg (by decide), if_neg (by simp [he, hp])]

theorem movedFrames_memOnly (s : State) (g j : Nat) : MemOnly s (s.movedFrames g j) := ⟨rfl, rfl⟩

theorem homeWrite_outside {pa : Nat} {bs : List Byte} (h : s.inPool pa bs.length = false) (path : Path) :
    s.homeWrite path pa bs = s.homeStore path pa bs := by
  rw [State.homeWrite, State.outside, h]
  rfl

/-- The entry after a swap. -/
theorem swapped_entry (hi : s.Inv) (j : Nat) (hpool : s.inPool (remapBase + 2 * g) 2 = false) (v : Nat) (hv : v < 2 ^ 16) :
    let t := (s.movedFrames g j).homeWrite .h (remapBase + 2 * g) (leBytes 2 v)
    t.blankMem = s.blankMem ∧ t.remapOf g = v ∧ ∀ q, q < remapBase + 2 * g ∨ remapBase + 2 * g + 2 ≤ q → t.newest q = s.newest q := by
  intro t
  have hmoved := movedFrames_memOnly s g j
  have hpool' : (s.movedFrames g j).inPool (remapBase + 2 * g) (leBytes 2 v).length = false := by
    rw [leBytes_length, hmoved.inPool]
    exact hpool
  have ht : t = (s.movedFrames g j).homeStore .h (remapBase + 2 * g) (leBytes 2 v) := homeWrite_outside hpool' .h
  have hdist : Distinct (s.movedFrames g j).core.l1.dirty := hi.l1.distinct
  rw [ht]
  refine ⟨(hmoved.trans (homeStore_memOnly _ .h _ _ hdist)).rest, ?_, fun q hq => ?_⟩
  · rw [State.remapOf, homeStore_readNat]
    omega
  · rw [homeStore_newest _ _ _ _ _ hdist, leBytes_length, if_neg (by omega)]
    rfl

end

/-! A port that is down (10 R259). -/

theorem cxlPortDown_exec (s : State) (port : Fin 4) :
    exec (.cxlPortDown port) s = .next { s with dev.portDown := s.dev.portDown ||| BitVec.ofNat 4 (2 ^ port.val) } := rfl

theorem portDown_bits (v : BitVec 4) (port i : Fin 4) : (v ||| BitVec.ofNat 4 (2 ^ port.val)).getLsbD i = (v.getLsbD i || i == port) := by
  have hbit : ∀ port i : Fin 4, (BitVec.ofNat 4 (2 ^ port.val)).getLsbD i = (i == port) := by decide
  rw [BitVec.getLsbD_or, hbit]

theorem badGranule_of_down {s : State} {port : Fin 4} {g : Nat} (hp : s.portOf (64 * g) = some port.val) (hd : s.dev.portDown.getLsbD port = true)
    (hl : s.dev.hier.line? (g / 2) = none) : s.badGranule g = true := by
  have hlost : s.portLost g = true := by
    rw [State.portLost, show g * granuleSize = 64 * g from Nat.mul_comm ..]
    simp only [hp]
    exact hd
  rw [State.badGranule, hlost, hl]
  simp

/-! The scrubber (14 R374, R379). -/

theorem patrolScrubRead_exec (s : State) (g : Nat) : exec (.patrolScrubRead g) s = .next (match s.dev.granule g with
    | some .correctable => { s with dev.reserved := g :: s.dev.reserved.filter (· != g) }
    | some .uncorrectable => s.logEntry (scrubQuadrant g) (logBytes 1 g)
    | _ => s) := rfl

theorem setGranule_none_granule (d : Dev) (g h : Nat) : (d.setGranule g none).granule h = if h = g then none else d.granule h := by
  rw [Dev.granule, Dev.setGranule]
  by_cases hg : h = g
  · have hnone : (d.granules.filter (fun e => e.1 != g)).find? (fun e => e.1 == h) = none := by
      simp [List.find?_eq_none, hg]
    rw [if_pos hg]
    exact congrArg (Option.map _) hnone
  · have hsame : (d.granules.filter (fun e => e.1 != g)).find? (fun e => e.1 == h) = d.granules.find? (fun e => e.1 == h) := by
      rw [List.find?_filter]
      refine List.find?_congr fun e _ => ?_
      by_cases he : e.1 = h
      · simp [he, hg]
      · simp [he]
    rw [if_neg hg]
    exact congrArg (Option.map _) hsame

theorem scrubWriteback_exec (s : State) (g : Nat) : exec (.scrubWriteback g) s = .next (if s.dev.reserved.contains g then
    { s with dev := ({ s.dev.setGranule g none with reserved := s.dev.reserved.filter (· != g) } : Dev).countCorrected (s.memoryBlock g) } else s) := rfl

/-- A scrubbed granule: written back, its reservation gone, its correction counted. -/
theorem scrubbed (s : State) (g : Nat) : let t : State :=
    { s with dev := ({ s.dev.setGranule g none with reserved := s.dev.reserved.filter (· != g) } : Dev).countCorrected (s.memoryBlock g) }
    t.dev.granule g = none ∧ g ∉ t.dev.reserved ∧ (∀ h, h ≠ g → t.dev.granule h = s.dev.granule h)
      ∧ t.dev.reliability = (s.dev.countCorrected (s.memoryBlock g)).reliability := by
  intro t
  have hgran (h : Nat) : t.dev.granule h = if h = g then none else s.dev.granule h := setGranule_none_granule s.dev g h
  refine ⟨by rw [hgran, if_pos rfl], ?_, fun h hne => by rw [hgran, if_neg hne], rfl⟩
  change g ∉ s.dev.reserved.filter (· != g)
  simp

end Sys2Proof.Machine
end

section
/-! The interleave table as slices take it, and the directory (10 R249; 11 R286; 16 R406, R407). -/

namespace Sys2Proof.Machine

/-! A slice gives lines up (10 R248; 14 R374, R379). -/

/-- The first element of a key, when the elements of some keys are left out. -/
theorem find_filter_key {α : Type} (key : α → Nat) (xs : List α) (gone : Nat → Bool) (l : Nat) :
    (xs.filter (fun e => !gone (key e))).find? (fun e => key e == l) = if gone l then none else xs.find? (fun e => key e == l) := by
  induction xs with
  | nil => simp
  | cons e r ih =>
    rw [List.filter_cons]
    by_cases hg : gone (key e) = true
    · rw [if_neg (by simp [hg]), ih]
      by_cases hl : key e = l
      · rw [← hl, if_pos hg, if_pos hg]
      · rw [List.find?_cons_of_neg (by simpa using hl)]
    · rw [if_pos (by simp [hg])]
      by_cases hl : key e = l
      · rw [List.find?_cons_of_pos (by simpa using hl), List.find?_cons_of_pos (by simpa using hl), if_neg (hl ▸ hg)]
      · rw [List.find?_cons_of_neg (by simpa using hl), List.find?_cons_of_neg (by simpa using hl), ih]

/-- Whether the slice holds the line dirty. -/
def Hier.dirtyLine (h : Hier) (l : Nat) : Bool := (h.line? l).any (·.dirty)

/-- The granules after the dirty ones among lines were written back. -/
def grainsBack (back : Nat → Bool) (gs : List (Nat × Granule)) : List (Nat × Granule) :=
  gs.filterMap (fun e => if !back (e.1 / 2) then some e else if e.2 == .correctable then none else some (e.1, .poisoned))

theorem mem_grainsBack {back : Nat → Bool} {gs : List (Nat × Granule)} {k : Nat} {v : Granule} : (k, v) ∈ grainsBack back gs
    ↔ (back (k / 2) = false ∧ (k, v) ∈ gs) ∨ (back (k / 2) = true ∧ v = .poisoned ∧ ∃ w, w ≠ .correctable ∧ (k, w) ∈ gs) := by
  rw [grainsBack, List.mem_filterMap]
  constructor
  · rintro ⟨⟨k', w⟩, hmem, he⟩
    cases hb : back (k' / 2) with
    | false =>
      simp only [hb, Bool.not_false, if_true, Option.some.injEq] at he
      cases he
      exact Or.inl ⟨hb, hmem⟩
    | true =>
      simp only [hb, Bool.not_true, Bool.false_eq_true, if_false] at he
      split at he
      · cases he
      · next hw =>
        cases he
        exact Or.inr ⟨hb, rfl, w, fun h => hw (beq_iff_eq.2 h), hmem⟩
  · rintro (⟨hb, hmem⟩ | ⟨hb, rfl, w, hw, hmem⟩)
    · exact ⟨(k, v), hmem, by simp [hb]⟩
    · exact ⟨(k, w), hmem, by simp [hb, hw]⟩

theorem grainsBack_grainsBack (f g : Nat → Bool) (gs : List (Nat × Granule)) (h : ∀ l, f l = true → g l = false) :
    grainsBack g (grainsBack f gs) = grainsBack (fun l => f l || g l) gs := by
  rw [grainsBack, grainsBack, grainsBack, List.filterMap_filterMap]
  refine List.filterMap_congr fun e _ => ?_
  cases hf : f (e.1 / 2) with
  | false => simp
  | true =>
    cases hc : (e.2 == Granule.correctable) with
    | false => simp [h _ hf]
    | true => simp

theorem grainsBack_none (f : Nat → Bool) (gs : List (Nat × Granule)) (h : ∀ l, f l = false) : grainsBack f gs = gs := by
  have hsome : (fun e : Nat × Granule => if !f (e.1 / 2) then some e else if e.2 == .correctable then none else some (e.1, .poisoned)) = some := by
    funext e
    simp [h]
  rw [grainsBack, hsome, List.filterMap_some]

/-- t is s after its slice gave up the lines that a test names. -/
structure GivenUp (gone : Nat → Bool) (s t : State) : Prop where
  lines : t.dev.hier.l2 = s.dev.hier.l2.filter (fun e => !gone e.line)
  reserved : t.dev.reserved = s.dev.reserved.filter (fun g => !(gone (g / 2) && s.dev.hier.dirtyLine (g / 2)))
  granules : t.dev.granules = grainsBack (fun l => gone l && s.dev.hier.dirtyLine l) s.dev.granules
  memory : (∀ l ∈ s.dev.hier.l2, l.dirty = false → l.under = none) → t.mem = s.mem
  rest : { t with dev.hier.l2 := s.dev.hier.l2, dev.reserved := s.dev.reserved, dev.granules := s.dev.granules, mem := s.mem } = s

section
variable {s t u : State}

theorem GivenUp.refl (s : State) : GivenUp (fun _ => false) s s where
  lines := (List.filter_eq_self.2 fun _ _ => rfl).symm
  reserved := (List.filter_eq_self.2 fun _ _ => rfl).symm
  granules := (grainsBack_none _ _ fun _ => rfl).symm
  memory _ := rfl
  rest := rfl

/-- A line of the slice after lines were given up. -/
theorem GivenUp.line? {gone : Nat → Bool} (h : GivenUp gone s t) (l : Nat) : t.dev.hier.line? l = if gone l then none else s.dev.hier.line? l := by
  rw [Hier.line?, Hier.line?, h.lines]
  exact find_filter_key L2Line.line _ gone l

theorem GivenUp.dirtyLine {gone : Nat → Bool} (h : GivenUp gone s t) (l : Nat) :
    t.dev.hier.dirtyLine l = (!gone l && s.dev.hier.dirtyLine l) := by
  rw [Hier.dirtyLine, Hier.dirtyLine, h.line?]
  cases gone l <;> rfl

theorem l2Drop_givenUp (s : State) (line : Nat) : GivenUp (fun l => l == line) s (s.l2Drop line) := by
  unfold State.l2Drop
  split
  · next hnone =>
    have hdirty : ∀ l, (l == line && s.dev.hier.dirtyLine l) = false := fun l => by
      by_cases hl : l = line
      · simp [hl, Hier.dirtyLine, hnone]
      · simp [hl]
    have hlines : ∀ e ∈ s.dev.hier.l2, (!(e.line == line)) = true := fun e he => by
      have hne := List.find?_eq_none.1 hnone e he
      simpa using hne
    have hreserved : s.dev.reserved.filter (fun g => !(g / 2 == line && s.dev.hier.dirtyLine (g / 2))) = s.dev.reserved :=
      List.filter_eq_self.2 fun g _ => by rw [hdirty]; rfl
    exact ⟨(List.filter_eq_self.2 hlines).symm, hreserved.symm, (grainsBack_none _ _ hdirty).symm, fun _ => rfl, rfl⟩
  · next e he =>
    have hmem : e ∈ s.dev.hier.l2 := List.mem_of_find?_eq_some he
    have hdirty (l : Nat) : (l == line && s.dev.hier.dirtyLine l) = (l == line && e.dirty) := by
      by_cases hl : l = line
      · simp [hl, Hier.dirtyLine, he]
      · rw [beq_eq_false_iff_ne.2 hl]
        rfl
    dsimp only
    by_cases hd : e.dirty = true
    · rw [if_pos hd]
      simp only [hd, Bool.and_true] at hdirty
      refine ⟨rfl, ?_, ?_, fun _ => rfl, rfl⟩
      · simp only [hdirty]
        rfl
      · simp only [hdirty]
        rfl
    · rw [if_neg hd]
      have hnone : ∀ l, (l == line && s.dev.hier.dirtyLine l) = false := fun l => by rw [hdirty, Bool.eq_false_iff.2 hd, Bool.and_false]
      have hreserved : s.dev.reserved.filter (fun g => !(g / 2 == line && s.dev.hier.dirtyLine (g / 2))) = s.dev.reserved :=
        List.filter_eq_self.2 fun g _ => by rw [hnone]; rfl
      have hgrains := grainsBack_none (fun l => l == line && s.dev.hier.dirtyLine l) s.dev.granules hnone
      cases hu : e.under with
      | none => exact ⟨rfl, hreserved.symm, hgrains.symm, fun _ => rfl, rfl⟩
      | some bs =>
        refine ⟨rfl, hreserved.symm, hgrains.symm, fun h => ?_, rfl⟩
        rw [h e hmem (Bool.eq_false_iff.2 hd)] at hu
        cases hu

theorem GivenUp.trans {f g : Nat → Bool} (h : GivenUp f s t) (k : GivenUp g t u) : GivenUp (fun l => f l || g l) s u where
  lines := by
    rw [k.lines, h.lines, List.filter_filter]
    refine List.filter_congr fun e _ => ?_
    simp [Bool.and_comm]
  reserved := by
    rw [k.reserved, h.reserved, List.filter_filter]
    refine List.filter_congr fun e _ => ?_
    rw [h.dirtyLine]
    cases f (e / 2) <;> cases g (e / 2) <;> simp
  granules := by
    rw [k.granules, h.granules, grainsBack_grainsBack]
    · congr 1
      funext l
      rw [h.dirtyLine]
      cases f l <;> cases g l <;> simp
    · intro l hl
      rw [h.dirtyLine, (Bool.and_eq_true_iff.1 hl).1]
      simp
  memory hs := by
    refine (k.memory fun l hl => hs l ?_).trans (h.memory hs)
    exact List.mem_of_mem_filter (h.lines ▸ hl)
  rest := by
    have hk := congrArg (fun c : State => { c with dev.hier.l2 := s.dev.hier.l2, dev.reserved := s.dev.reserved, dev.granules := s.dev.granules, mem := s.mem })
      k.rest
    exact Eq.trans hk h.rest

theorem l2Drops_givenUp (ls : List Nat) (s : State) : GivenUp (fun l => ls.contains l) s (ls.foldl State.l2Drop s) := by
  induction ls generalizing s with
  | nil => exact GivenUp.refl s
  | cons a r ih =>
    rw [List.foldl_cons]
    have h := (l2Drop_givenUp s a).trans (ih (s.l2Drop a))
    simpa only [List.contains_cons] using h

end

/-! A slice adopts the table (16 R407). -/

section
variable {s : State} {i : Fin 32} {reg : Word64} {es : List (Word64 × Word64)}

/-- The line leaves the slice under the table that is broadcast. -/
def State.Leaves (s : State) (i : Nat) (reg : Word64) (es : List (Word64 × Word64)) (l : Nat) : Prop :=
  (l ∈ s.dev.hier.l2.map (·.line) ∨ l ∈ s.dev.hier.dir.map (·.1))
    ∧ s.dev.homeOf (l * 128) = some i ∧ homeSlice (bits reg 51 12) es (l * 128) ≠ some i

theorem contains_leaving (l : Nat) : (s.leaving i reg es).contains l = true ↔ s.Leaves i reg es l := by
  rw [List.contains_iff_mem, State.leaving, List.mem_filter, List.mem_dedup, List.mem_append]
  simp [State.Leaves]

/-- The slice's state after it adopted. -/
def State.adopted (s : State) (i : Nat) (reg : Word64) (es : List (Word64 × Word64)) : State :=
  let t := (s.leaving i reg es).foldl State.l2Drop s
  { t with dev := { t.dev with
      hier.dir := t.dev.hier.dir.filter (fun e => !(s.leaving i reg es).contains e.1),
      l2.slices := t.dev.l2.slices.setIfInBounds i (reg.setWidth 4),
      l2.handoffs := t.dev.l2.handoffs ++ (s.leaving i reg es).map (fun l => (l, t.dev.hier.recorded l)) } }

theorem adoption_none (h : s.dev.l2.switching = none) : exec (.l2mapAdoption i) s = .next s := by
  change execL2mapAdoption i s = _
  unfold execL2mapAdoption
  rw [h]

theorem adoption_again (h : s.dev.l2.switching = some (reg, es)) (hs : s.dev.l2.slices[i] = reg.setWidth 4) : exec (.l2mapAdoption i) s = .next s := by
  change execL2mapAdoption i s = _
  unfold execL2mapAdoption
  rw [h]
  dsimp only
  rw [if_pos (by simpa using hs)]

theorem adoption_adopts (h : s.dev.l2.switching = some (reg, es)) (hs : s.dev.l2.slices[i] ≠ reg.setWidth 4) :
    exec (.l2mapAdoption i) s = .next (s.adopted i reg es) := by
  change execL2mapAdoption i s = _
  unfold execL2mapAdoption
  rw [h]
  dsimp only
  rw [if_neg (by simpa using hs)]
  rfl

theorem leavingDrops (s : State) (i : Nat) (reg : Word64) (es : List (Word64 × Word64)) :
    GivenUp (fun l => (s.leaving i reg es).contains l) s ((s.leaving i reg es).foldl State.l2Drop s) := l2Drops_givenUp ..

theorem GivenUp.dir {gone : Nat → Bool} {s t : State} (h : GivenUp gone s t) : t.dev.hier.dir = s.dev.hier.dir := by
  have hdir := congrArg (·.dev.hier.dir) h.rest
  exact hdir

theorem GivenUp.recorded {gone : Nat → Bool} {s t : State} (h : GivenUp gone s t) (l : Nat) : t.dev.hier.recorded l = s.dev.hier.recorded l := by
  rw [Hier.recorded, Hier.recorded, h.dir]

theorem drops_l2 (s : State) (i : Nat) (reg : Word64) (es : List (Word64 × Word64)) : ((s.leaving i reg es).foldl State.l2Drop s).dev.l2 = s.dev.l2 :=
  congrArg (·.dev.l2) (leavingDrops s i reg es).rest

theorem adopted_slices (k : Fin 32) : (s.adopted i reg es).dev.l2.slices[k] = if k = i then reg.setWidth 4 else s.dev.l2.slices[k] := by
  change (((s.leaving i reg es).foldl State.l2Drop s).dev.l2.slices.setIfInBounds i (reg.setWidth 4))[k] = _
  rw [drops_l2, Fin.getElem_fin, Vector.getElem_setIfInBounds]
  simp only [Fin.val_inj, eq_comm (a := i)]
  rfl

theorem adopted_handoffs (h : Nat × BitVec 32) : h ∈ (s.adopted i reg es).dev.l2.handoffs
    ↔ h ∈ s.dev.l2.handoffs ∨ (s.Leaves i reg es h.1 ∧ h.2 = s.dev.hier.recorded h.1) := by
  change h ∈ ((s.leaving i reg es).foldl State.l2Drop s).dev.l2.handoffs
    ++ (s.leaving i reg es).map (fun l => (l, ((s.leaving i reg es).foldl State.l2Drop s).dev.hier.recorded l)) ↔ _
  rw [drops_l2, List.mem_append, List.mem_map, ← contains_leaving, List.contains_iff_mem]
  refine or_congr Iff.rfl ⟨?_, fun ⟨hl, hv⟩ => ⟨h.1, hl, ?_⟩⟩
  · rintro ⟨l, hl, rfl⟩
    exact ⟨hl, (leavingDrops s i reg es).recorded l⟩
  · rw [(leavingDrops s i reg es).recorded, ← hv]

theorem adopted_recorded (l : Nat) : (s.adopted i reg es).dev.hier.recorded l
    = if (s.leaving i reg es).contains l then 0 else s.dev.hier.recorded l := by
  have hdir : (s.adopted i reg es).dev.hier.dir = s.dev.hier.dir.filter (fun e => !(s.leaving i reg es).contains e.1) :=
    congrArg (List.filter (fun e : Nat × BitVec 32 => !(s.leaving i reg es).contains e.1)) (leavingDrops s i reg es).dir
  rw [Hier.recorded, hdir, find_filter_key Prod.fst]
  split <;> rfl

theorem adopted_rest : ({ s.adopted i reg es with dev.l2 := s.dev.l2, dev.hier := s.dev.hier, dev.reserved := s.dev.reserved,
                                                  dev.granules := s.dev.granules, mem := s.mem } : State) = s := by
  have hrest := congrArg (fun d : State => { d with dev.l2 := s.dev.l2, dev.hier := s.dev.hier }) (leavingDrops s i reg es).rest
  exact hrest

theorem adopted_mem (h : ∀ l ∈ s.dev.hier.l2, l.dirty = false → l.under = none) : (s.adopted i reg es).mem = s.mem :=
  (leavingDrops s i reg es).memory h

/-- A dirty line that leaves is written back. -/
def State.LeavesDirty (s : State) (i : Nat) (reg : Word64) (es : List (Word64 × Word64)) (l : Nat) : Prop :=
  s.Leaves i reg es l ∧ (s.dev.hier.line? l).any (·.dirty) = true

theorem leavesDirty_iff (l : Nat) : ((s.leaving i reg es).contains l && s.dev.hier.dirtyLine l) = true ↔ s.LeavesDirty i reg es l := by
  rw [Bool.and_eq_true, contains_leaving]
  rfl

theorem adopted_reserved (g : Nat) : g ∈ (s.adopted i reg es).dev.reserved ↔ g ∈ s.dev.reserved ∧ ¬s.LeavesDirty i reg es (g / 2) := by
  change g ∈ ((s.leaving i reg es).foldl State.l2Drop s).dev.reserved ↔ _
  rw [(leavingDrops s i reg es).reserved, List.mem_filter, Bool.not_eq_true', ← Bool.not_eq_true, leavesDirty_iff]

theorem adopted_granules (k : Nat) (v : Granule) : (k, v) ∈ (s.adopted i reg es).dev.granules
    ↔ (¬s.LeavesDirty i reg es (k / 2) ∧ (k, v) ∈ s.dev.granules)
      ∨ (s.LeavesDirty i reg es (k / 2) ∧ v = .poisoned ∧ ∃ w, w ≠ .correctable ∧ (k, w) ∈ s.dev.granules) := by
  change (k, v) ∈ ((s.leaving i reg es).foldl State.l2Drop s).dev.granules ↔ _
  rw [(leavingDrops s i reg es).granules, mem_grainsBack, leavesDirty_iff, ← Bool.not_eq_true, leavesDirty_iff]

theorem adopted_line (l : Nat) : (s.adopted i reg es).dev.hier.line? l
    = if (s.leaving i reg es).contains l then none else s.dev.hier.line? l := (leavingDrops s i reg es).line? l

end

/-! A directory entry set (10 R249; 11 R286). -/

section
variable {s : State} {line : Nat} {v : BitVec 32}

/-- An entry waits for the invalidation of its line. -/
def State.dirWaits (s : State) (line : Nat) (e : Nat × BitVec 32) : Bool := e.1 != line && s.core.invals.any (fun i => i.1 == e.1)

/-- The entries that may be given up. -/
def State.dirLive (s : State) (line : Nat) : List (Nat × BitVec 32) := s.dev.hier.dir.filter (fun e => !s.dirWaits line e)

/-- The entries that the directory keeps, with the one that is set. -/
def State.dirKept (s : State) (line : Nat) (v : BitVec 32) : List (Nat × BitVec 32) := s.dev.dirPut line v (s.dirLive line)

/-- Those that it gives up, and the modelled cluster invalidates. -/
def State.dirGone (s : State) (line : Nat) (v : BitVec 32) : List (Nat × BitVec 32) :=
  if (s.dirLive line).length < sliceLines then []
  else (s.dirLive line).filter (fun e => e.1 != line && e.2.getLsbD s.cluster && !(s.dirKept line v).contains e)

theorem dirSet_eq (s : State) (line : Nat) (v : BitVec 32) : s.dirSet line v =
    { s with dev.hier.dir := s.dirKept line v ++ s.dev.hier.dir.filter (s.dirWaits line) ++ (s.dirGone line v).map (fun e => (e.1, s.clusterBit)),
             core.invals := addInvals .c ((s.dirGone line v).map (·.1)) s.core.invals } := rfl

/-- A full slice always has an element to displace. -/
theorem pushBounded_any {α : Type} (slice : α → Option Nat) (x : α) (l : List α) : ∃ r, pushBounded slice (fun _ => true) x l = x :: r
    ∧ (∀ e ∈ r, e ∈ l) ∧ (l.length < sliceLines → r = l) := by
  have hroom : ∃ r, roomFor slice (fun _ => true) x l = some r ∧ (∀ e ∈ r, e ∈ l) ∧ (l.length < sliceLines → r = l) := by
    unfold roomFor
    by_cases hfew : (decide (l.length < sliceLines) || decide ((l.filter (fun e => slice e == slice x)).length < sliceLines)) = true
    · rw [if_pos hfew]
      exact ⟨l, rfl, fun _ => id, fun _ => rfl⟩
    · simp only [Bool.or_eq_true, decide_eq_true_eq, not_or, Nat.not_lt] at hfew
      have hany : l.any (fun e => slice e == slice x && true) = true := by
        obtain ⟨e, he⟩ := List.exists_mem_of_length_pos (Nat.lt_of_lt_of_le (by decide) hfew.2)
        obtain ⟨hmem, hslice⟩ := List.mem_filter.1 he
        exact List.any_eq_true.2 ⟨e, hmem, by rw [hslice]; rfl⟩
      rw [if_neg (by simp; omega), if_pos hany]
      refine ⟨_, rfl, fun e he => ?_, fun h => absurd h (by omega)⟩
      exact List.mem_reverse.1 (List.mem_of_mem_eraseP (List.mem_reverse.1 he))
  obtain ⟨r, hr, hmem, hsame⟩ := hroom
  refine ⟨r, ?_, hmem, hsame⟩
  rw [pushBounded, hr]
  rfl

theorem mem_addInvals {path : Path} {ls : List Nat} {iv : List (Nat × Path)} {l : Nat} (h : l ∈ ls) : (l, path) ∈ addInvals path ls iv := by
  have hkeeps (ls : List Nat) (iv : List (Nat × Path)) {e : Nat × Path} (he : e ∈ iv) : e ∈ addInvals path ls iv :=
    List.foldlRecOn (motive := fun (t : List (Nat × Path)) => e ∈ t) ls _ he fun t ht a _ => by
      split
      · exact ht
      · exact List.mem_append_left _ ht
  induction ls generalizing iv with
  | nil => cases h
  | cons a r ih =>
    rw [addInvals, List.foldl_cons]
    rcases List.mem_cons.1 h with rfl | h
    · refine hkeeps r _ ?_
      split
      · next hc => exact List.contains_iff_mem.1 hc
      · exact List.mem_append_right _ (by simp)
    · exact ih h

/-- What the directory keeps: the entry that is set, and others of those it may give up. -/
theorem dirKept_spec (s : State) (line : Nat) (v : BitVec 32) :
    (∀ e ∈ s.dirKept line v, e = (line, v) ∨ (e ∈ s.dirLive line ∧ e.1 ≠ line))
    ∧ (v ≠ 0 → ∃ r, s.dirKept line v = (line, v) :: r) ∧ (v = 0 → ∀ e ∈ s.dirKept line v, e.1 ≠ line)
    ∧ ((s.dirLive line).length < sliceLines → ∀ e ∈ s.dirLive line, e.1 ≠ line → e ∈ s.dirKept line v) := by
  have hrest (e : Nat × BitVec 32) : e ∈ (s.dirLive line).filter (fun e => e.1 != line) ↔ e ∈ s.dirLive line ∧ e.1 ≠ line := by
    rw [List.mem_filter, bne_iff_ne]
  by_cases hv : v = 0
  · have hkept : s.dirKept line v = (s.dirLive line).filter (fun e => e.1 != line) := by
      rw [State.dirKept, Dev.dirPut, if_pos (beq_iff_eq.2 hv)]
    rw [hkept]
    exact ⟨fun e he => Or.inr ((hrest e).1 he), fun h => absurd hv h, fun _ e he => ((hrest e).1 he).2, fun _ e he hne => (hrest e).2 ⟨he, hne⟩⟩
  · obtain ⟨r, hr, hsub, hsame⟩ := pushBounded_any (fun e : Nat × BitVec 32 => s.dev.homeOf (e.1 * 128)) (line, v)
      ((s.dirLive line).filter (fun e => e.1 != line))
    have hkept : s.dirKept line v = (line, v) :: r := by
      rw [State.dirKept, Dev.dirPut, if_neg (mt beq_iff_eq.1 hv)]
      exact hr
    rw [hkept]
    refine ⟨fun e he => ?_, fun _ => ⟨r, rfl⟩, fun h => absurd h hv, fun hl e he hne => ?_⟩
    · rcases List.mem_cons.1 he with rfl | he
      · exact Or.inl rfl
      · exact Or.inr ((hrest e).1 (hsub e he))
    · rw [hsame (Nat.lt_of_le_of_lt (List.length_filter_le ..) hl)]
      exact List.mem_cons_of_mem _ ((hrest e).2 ⟨he, hne⟩)

theorem mem_dirGone {e : Nat × BitVec 32} : e ∈ s.dirGone line v ↔ sliceLines ≤ (s.dirLive line).length ∧ e ∈ s.dirLive line ∧ e.1 ≠ line
    ∧ e.2.getLsbD s.cluster = true ∧ e ∉ s.dirKept line v := by
  unfold State.dirGone
  by_cases h : (s.dirLive line).length < sliceLines
  · rw [if_pos h]
    exact ⟨fun he => absurd he List.not_mem_nil, fun he => absurd he.1 (by omega)⟩
  · rw [if_neg h, List.mem_filter]
    simp [Nat.not_lt.1 h, and_assoc]

/-- An entry of the directory waits, is kept, is given up, or does not concern the modelled cluster. -/
theorem dirSet_entry {e : Nat × BitVec 32} (he : e ∈ s.dev.hier.dir) (hne : e.1 ≠ line) (hbit : e.2.getLsbD s.cluster = true) :
    e ∈ s.dev.hier.dir.filter (s.dirWaits line) ∨ e ∈ s.dirKept line v ∨ e ∈ s.dirGone line v := by
  by_cases hw : s.dirWaits line e = true
  · exact Or.inl (List.mem_filter.2 ⟨he, hw⟩)
  · have hlive : e ∈ s.dirLive line := List.mem_filter.2 ⟨he, by rw [Bool.eq_false_iff.2 hw]; rfl⟩
    by_cases hk : e ∈ s.dirKept line v
    · exact Or.inr (Or.inl hk)
    · refine Or.inr (Or.inr (mem_dirGone.2 ⟨?_, hlive, hne, hbit, hk⟩))
      by_contra hlen
      exact hk ((dirKept_spec s line v).2.2.2 (by omega) e hlive hne)

theorem recorded_append (h : Hier) (l : Nat) {a b : List (Nat × BitVec 32)} (hd : h.dir = a ++ b) (ha : ∀ e ∈ b, e.1 ≠ l) :
    h.recorded l = ((a.find? (fun e => e.1 == l)).map (·.2)).getD 0 := by
  have hb : b.find? (fun e => e.1 == l) = none := List.find?_eq_none.2 fun e he => by simpa using ha e he
  rw [Hier.recorded, hd, List.find?_append, hb, Option.or_none]

/-- The line that is set records what it was set to. -/
theorem dirSet_recorded_self : (s.dirSet line v).dev.hier.recorded line = v := by
  obtain ⟨-, hset, hclear, -⟩ := dirKept_spec s line v
  have hothers : ∀ e ∈ s.dev.hier.dir.filter (s.dirWaits line) ++ (s.dirGone line v).map (fun e => (e.1, s.clusterBit)), e.1 ≠ line := by
    intro e he
    rcases List.mem_append.1 he with he | he
    · have hw := (List.mem_filter.1 he).2
      rw [State.dirWaits, Bool.and_eq_true, bne_iff_ne] at hw
      exact hw.1
    · obtain ⟨k, hk, rfl⟩ := List.mem_map.1 he
      exact (mem_dirGone.1 hk).2.2.1
  rw [recorded_append _ line (a := s.dirKept line v) (by rw [dirSet_eq, List.append_assoc]) hothers]
  by_cases hv : v = 0
  · have hnone : (s.dirKept line v).find? (fun e => e.1 == line) = none :=
      List.find?_eq_none.2 fun e he => by simpa using hclear hv e he
    rw [hnone, hv]
    rfl
  · obtain ⟨r, hr⟩ := hset hv
    rw [hr, List.find?_cons_of_pos (by simp)]
    rfl

/-- The bit of a cluster is recorded when some entry of the line is there and all of them have it. -/
theorem recorded_bit {h : Hier} {l c : Nat} (hsome : ∃ e ∈ h.dir, e.1 = l) (hall : ∀ e ∈ h.dir, e.1 = l → e.2.getLsbD c = true) :
    (h.recorded l).getLsbD c = true := by
  obtain ⟨e, he, hl⟩ := hsome
  obtain ⟨k, hk⟩ : ∃ k, h.dir.find? (fun e => e.1 == l) = some k := by
    rw [← Option.isSome_iff_exists, List.find?_isSome]
    exact ⟨e, he, beq_iff_eq.2 hl⟩
  have hkey : (k.1 == l) = true := List.find?_some (p := fun e : Nat × BitVec 32 => e.1 == l) hk
  rw [Hier.recorded, hk]
  exact hall k (List.mem_of_find?_eq_some hk) (beq_iff_eq.1 hkey)

theorem entry_of_recorded {h : Hier} {l c : Nat} (hb : (h.recorded l).getLsbD c = true) : ∃ e ∈ h.dir, e.1 = l ∧ e.2.getLsbD c = true := by
  rw [Hier.recorded] at hb
  cases hf : h.dir.find? (fun e => e.1 == l) with
  | none => rw [hf] at hb; simp at hb
  | some e =>
    have hkey : (e.1 == l) = true := List.find?_some (p := fun e : Nat × BitVec 32 => e.1 == l) hf
    rw [hf] at hb
    exact ⟨e, List.mem_of_find?_eq_some hf, beq_iff_eq.1 hkey, hb⟩

theorem clusterBit_set (s : State) : s.clusterBit.getLsbD s.cluster = true := by
  have hc : s.cluster < 32 := by
    have := s.core.num.isLt
    rw [State.cluster]
    omega
  rw [State.clusterBit, BitVec.getLsbD_ofNat]
  simp [hc, Nat.testBit_two_pow_self]

/-- The modelled cluster's bit stays on every line that had it (11 R286). -/
theorem dirSet_recorded_bit (hn : (s.dev.hier.dir.map (·.1)).Nodup) {l : Nat} (hne : l ≠ line)
    (hb : (s.dev.hier.recorded l).getLsbD s.cluster = true) : ((s.dirSet line v).dev.hier.recorded l).getLsbD s.cluster = true := by
  obtain ⟨e, he, hel, hbit⟩ := entry_of_recorded hb
  have hunique : ∀ k ∈ s.dev.hier.dir, k.1 = l → k = e := fun k hk hkl => List.inj_on_of_nodup_map hn hk he (hkl.trans hel.symm)
  have hkept : ∀ k ∈ s.dirKept line v, k.1 = l → k = e := fun k hk hkl => by
    rcases (dirKept_spec s line v).1 k hk with rfl | ⟨hlive, -⟩
    · exact absurd hkl.symm hne
    · exact hunique k (List.mem_of_mem_filter hlive) hkl
  refine recorded_bit ?_ fun k hk hkl => ?_
  · rcases dirSet_entry (v := v) he (hel ▸ hne) hbit with h | h | h
    · exact ⟨e, List.mem_append_left _ (List.mem_append_right _ h), hel⟩
    · exact ⟨e, List.mem_append_left _ (List.mem_append_left _ h), hel⟩
    · exact ⟨(e.1, s.clusterBit), List.mem_append_right _ (List.mem_map.2 ⟨e, h, rfl⟩), hel⟩
  · rw [dirSet_eq] at hk
    rcases List.mem_append.1 hk with hk | hk
    · rcases List.mem_append.1 hk with hk | hk
      · rw [hkept k hk hkl]
        exact hbit
      · rw [hunique k (List.mem_of_mem_filter hk) hkl]
        exact hbit
    · obtain ⟨j, -, rfl⟩ := List.mem_map.1 hk
      exact clusterBit_set s

/-- An entry of the modelled cluster that is no longer there is being invalidated. -/
theorem dirSet_invals {e : Nat × BitVec 32} (he : e ∈ s.dev.hier.dir) (hne : e.1 ≠ line) (hbit : e.2.getLsbD s.cluster = true)
    (hout : e ∉ (s.dirSet line v).dev.hier.dir) : (e.1, Path.c) ∈ (s.dirSet line v).core.invals := by
  rcases dirSet_entry (v := v) he hne hbit with h | h | h
  · exact absurd (List.mem_append_left _ (List.mem_append_right _ h)) hout
  · exact absurd (List.mem_append_left _ (List.mem_append_left _ h)) hout
  · exact mem_addInvals (List.mem_map.2 ⟨e, h, rfl⟩)

theorem dirSet_room (h : s.dev.hier.dir.length < 65536) : (s.dirSet line v).core.invals = s.core.invals := by
  have hgone : s.dirGone line v = [] := if_pos (Nat.lt_of_le_of_lt (List.length_filter_le ..) h)
  rw [dirSet_eq, hgone]
  rfl

end

/-! Handoffs and redirects (16 R406, R407). -/

section
variable {s : State} {line : Nat} {v : BitVec 32}

theorem lineHandoff_none (h : s.dev.l2.handoffs.find? (fun e => e.1 == line) = none) : exec (.lineHandoff line) s = .next s := by
  change execLineHandoff line s = _
  unfold execLineHandoff
  rw [h]

/-- The new home has the line's entry. -/
def State.handedOff (s : State) (line : Nat) (v : BitVec 32) : State :=
  { s.dirSet line (s.dev.hier.recorded line ||| v) with dev.l2.handoffs := s.dev.l2.handoffs.filter (fun f => f.1 != line) }

theorem lineHandoff_some (h : s.dev.l2.handoffs.find? (fun e => e.1 == line) = some (line, v)) :
    exec (.lineHandoff line) s = .next (s.handedOff line v) := by
  change execLineHandoff line s = _
  unfold execLineHandoff
  rw [h]
  rfl

theorem requestRedirect_exec (s : State) : exec .requestRedirect s = .next (match s.dev.l2.switching with
    | some (reg, _) => if s.dev.l2.slices.any (fun g => g == reg.setWidth 4) then { s with dev.l2.core := reg.setWidth 4 } else s
    | none => s) := rfl

theorem anySlice_iff (g : BitVec 4) : s.dev.l2.slices.any (fun k => k == g) = true ↔ ∃ k : Fin 32, s.dev.l2.slices[k] = g := by
  rw [Vector.any_iff_exists]
  exact ⟨fun ⟨i, hi, h⟩ => ⟨⟨i, hi⟩, beq_iff_eq.1 h⟩, fun ⟨k, h⟩ => ⟨k, k.isLt, beq_iff_eq.2 h⟩⟩

end

end Sys2Proof.Machine
end

section
/-! Accesses from outside, answers, and the memory system's events settled (10 R249, R258, R259; 14 R374, R379; 16 R406, R407, R417, R425, R427). -/

namespace Sys2Proof.Machine

/-! Accesses of the control ports (16 R417). -/

section
variable {s : State} {pa : Nat} {data : List Byte}

/-- The device answers, and every block of the access is memory that it may reach. -/
def State.HostMay (s : State) (pa n : Nat) : Prop :=
  s.mgmt.boot ≠ .recovery ∧ s.mgmt.boot ≠ .tripped ∧ ∀ b ∈ blocksOf pa (max n 1), s.physOk b = true

theorem hostMay_iff (n : Nat) : (!s.deviceUp || !((blocksOf pa (max n 1)).all s.physOk)) = false ↔ s.HostMay pa n := by
  simp [State.HostMay, State.deviceUp, and_assoc]

theorem hostAccess_refused (h : ¬s.HostMay pa data.length) : exec (.hostMemoryAccess pa data) s = .next s := by
  change execHostMemoryAccess pa data s = _
  rw [execHostMemoryAccess, if_pos (Bool.ne_false_iff.1 (mt (hostMay_iff data.length).1 h))]

theorem hostAccess_performed (hi : s.Inv) (h : s.HostMay pa data.length) : ∃ t, exec (.hostMemoryAccess pa data) s = .next t
    ∧ t.blankMem = s.blankMem ∧ ∀ q, t.newest q = if s.lands pa data.length q then data.getD (q - pa) 0 else s.newest q := by
  have hno := (hostMay_iff (s := s) (pa := pa) data.length).2 h
  by_cases he : data = []
  · have hq := writeBackLine_quiet s (lineOf pa)
    refine ⟨s.writeBackLine (lineOf pa), ?_, hq.rest.rest, fun q => ?_⟩
    · change execHostMemoryAccess pa data s = _
      rw [execHostMemoryAccess, hno, he]
      rfl
    · have hnot : ¬s.lands pa data.length q := fun hl => by
        have h1 := hl.1
        have h2 := hl.2.1
        rw [he] at h2
        simp at h2
        omega
      rw [hq.bytes hi.l1 q id, if_neg hnot]
  · obtain ⟨hrest, -, -, hbytes⟩ := homeWrite_spec s .h pa data hi.l1.distinct
    refine ⟨s.homeWrite .h pa data, ?_, hrest.rest, hbytes⟩
    change execHostMemoryAccess pa data s = _
    rw [execHostMemoryAccess, hno, if_neg (by decide), if_neg (by simpa using he)]

/-! What peers ask (16 R425, R427). -/

theorem remoteRequest_none {dev part : Nat} {op : RemoteOp} (h : s.acceptor dev part pa op = none) :
    exec (.inboundRemoteRequest dev part pa op) s = .next s := by
  change execInboundRemoteRequest dev part pa op s = _
  rw [execInboundRemoteRequest, h]

theorem remoteRequest_get {dev part n : Nat} {p : BitVec 3} (h : s.acceptor dev part pa (.get n) = some p) :
    exec (.inboundRemoteRequest dev part pa (.get n)) s = .next s := by
  change execInboundRemoteRequest dev part pa (.get n) s = _
  rw [execInboundRemoteRequest, h]

theorem remoteRequest_put {dev part : Nat} {p : BitVec 3} (h : s.acceptor dev part pa (.put data) = some p)
    (hgood : 8 < data.length ∨ s.homeBad pa data.length = false) :
    exec (.inboundRemoteRequest dev part pa (.put data)) s = .next (s.homeWrite .h pa data) := by
  have hno : (decide (data.length ≤ 8) && s.homeBad pa data.length) = false := by
    rcases hgood with h | h
    · rw [decide_eq_false (by omega), Bool.false_and]
    · rw [h, Bool.and_false]
  change execInboundRemoteRequest dev part pa (.put data) s = _
  rw [execInboundRemoteRequest, h]
  dsimp only
  rw [hno]
  rfl

/-- A write of a number at the home, by another writer than the core. -/
theorem homeWrite_number (s : State) (path : Path) (pa n v : Nat) (hs : s.core.l1.Ok) (a : Nat) :
    (s.homeWrite path pa (leBytes n v)).newest a = if s.lands pa n a then byteOf v (a - pa) else s.newest a := by
  refine ((homeWrite_spec s path pa (leBytes n v) hs.distinct).2.2.2 a).trans ?_
  rw [leBytes_length]
  by_cases h : s.lands pa n a
  · rw [if_pos h, if_pos h, leBytes_getD _ _ _ (by have := h.2.1; have := h.1; omega), byteOf]
  · rw [if_neg h, if_neg h]

theorem remoteRequest_atomic {dev part n : Nat} {f : BitVec 4} {b cmp : Word64} {p : BitVec 3} (hi : s.Inv)
    (h : s.acceptor dev part pa (.atomic f n b cmp) = some p) (hgood : ((linesOf pa n).foldl State.writeBackLine s).homeBad pa n = false) :
    ∃ t, exec (.inboundRemoteRequest dev part pa (.atomic f n b cmp)) s = .next t ∧ t.blankMem = s.blankMem
      ∧ ∀ q, t.newest q = if s.lands pa n q then byteOf (amoFn f n (s.newestNat pa n) (truncTo n b) (truncTo n cmp)) (q - pa) else s.newest q := by
  have hq := writeBackLines_quiet (linesOf pa n) s
  have hread := writeBackLines_readNat s pa n hi.l1.distinct
  refine ⟨((linesOf pa n).foldl State.writeBackLine s).homeWrite .h pa (leBytes n (amoFn f n (s.newestNat pa n) (truncTo n b) (truncTo n cmp))),
    ?_, (hq.rest.trans (homeWrite_memOnly ..)).rest, fun q => ?_⟩
  · change execInboundRemoteRequest dev part pa (.atomic f n b cmp) s = _
    rw [execInboundRemoteRequest, h]
    dsimp only
    rw [hgood, hread]
    rfl
  · rw [homeWrite_number _ _ _ _ _ (hq.form hi.l1)]
    simp only [hq.rest.lands, hq.bytes hi.l1 q id]

/-! Answers (16 R427). -/

theorem removeFirst_length {α : Type} {f : α → Bool} {l : List α} {a : α} (ha : a ∈ l) (hf : f a = true) :
    (removeFirst f l).length + 1 = l.length := by
  induction l with
  | nil => cases ha
  | cons b r ih =>
    rw [removeFirst]
    by_cases hb : f b = true
    · rw [if_pos hb]
      rfl
    · rw [if_neg hb, List.length_cons, List.length_cons]
      rcases List.mem_cons.1 ha with rfl | ha
      · exact absurd hf hb
      · rw [ih ha]

theorem rputAnswer_unacked (e : SbEntry) (he : e ∈ s.core.unacked) (r : RemoteReply) :
    (s.rputAnswer e r).core.unacked.length + 1 = s.core.unacked.length := by
  have hone := removeFirst_length (f := fun u : SbEntry => u.va == e.va && u.task == e.task && u.launch == e.launch) he (by simp)
  have hlog (t : State) (cause : Cause) : (t.postedError e.part cause e.task e.launch (BitVec.ofNat 64 e.va) 0).core.unacked = t.core.unacked :=
    (postedError_spec t e.part cause e.task e.launch (BitVec.ofNat 64 e.va) 0).2.2
  cases r with
  | value v => exact hone
  | ack => exact hone
  | refused => exact (congrArg (fun l : List SbEntry => l.length + 1) (hlog _ _)).trans hone
  | unreachable => exact (congrArg (fun l : List SbEntry => l.length + 1) (hlog _ _)).trans hone
  | uncorrectable => exact (congrArg (fun l : List SbEntry => l.length + 1) (hlog _ _)).trans hone

theorem response_write {va task launch : Nat} {r : RemoteReply} {e : SbEntry}
    (h : s.core.unacked.find? (fun e => e.va == va && e.task.toNat == task && e.launch.toNat == launch) = some e) :
    exec (.remoteResponse va task launch r) s = .next (s.rputAnswer e (s.answerOf (e.writes.headD (0, [])).1 r)) := by
  change execRemoteResponse va task launch r s = _
  rw [execRemoteResponse, h]

theorem rputAnswer_acked {e : SbEntry} (h : s.cutOff (e.writes.headD (0, [])).1 = false) :
    { s.rputAnswer e (s.answerOf (e.writes.headD (0, [])).1 .ack) with core.unacked := s.core.unacked } = s := by
  rw [State.answerOf, h]
  rfl

theorem response_read {va task launch : Nat} {r : RemoteReply} {q : RemoteReq}
    (h : s.core.unacked.find? (fun e => e.va == va && e.task.toNat == task && e.launch.toNat == launch) = none)
    (hq : s.core.remote = some q) (hva : q.va = va) (ht : s.core.unit.ident.task.toNat = task) (hl : s.core.unit.ident.launch.toNat = launch)
    (hr : s.core.reply = none) : exec (.remoteResponse va task launch r) s
      = .next { s with core.reply := some (if s.cutOff q.pa then .unreachable else r) } := by
  change execRemoteResponse va task launch r s = _
  rw [execRemoteResponse, h, hq]
  dsimp only
  rw [if_pos (by simp [hva, ht, hl, hr])]
  rfl

end

/-! The obligation. -/

/-- Settles O52: each event by its equation and by what its parts leave. -/
theorem memorySystemEvents : Obligations.MemorySystemEvents := by
  intro s hi
  refine ⟨fun g way err hg h1 h4 hex => ?swap, fun port => ?down, fun g => ?patrol, fun g => ?scrub, fun i => ⟨adoption_none, fun reg es => adoption_again,
    fun reg es hsw hne => ?adopt⟩, fun line => ⟨lineHandoff_none, fun v hv => ?handoff⟩, fun reg es hsw hany => ?redirect, fun hno => ?refuse,
    fun pa data => ⟨hostAccess_refused, hostAccess_performed hi⟩, fun dev part pa op => remoteRequest_none, fun dev part pa n d f b cmp p =>
      ⟨remoteRequest_get, fun hacc hgood => ?put, remoteRequest_atomic hi⟩, fun va task launch r => ?answer⟩
  case swap =>
    intro misses
    have hs : Swappable s g way := ⟨hg, h1, h4, hex⟩
    refine ⟨pageSwap_stays hs, fun hm => ?_⟩
    cases hfail : (err || s.dev.portDown.getLsbD (way - 1)) with
    | true =>
      have he : err = true ∨ s.dev.portDown.getLsbD (way - 1) = true := by simpa using hfail
      obtain ⟨hrest, hown, hothers⟩ := logEntry_logs s (g % 32 / 4) (logBytes 0 g)
      refine ⟨_, pageSwap_fails hs hm he, fun h1 h2 => ?_, fun _ => ⟨hrest, hown, hothers⟩⟩
      rw [h1, h2] at hfail
      cases hfail
    | false =>
      obtain ⟨he, hp⟩ := Bool.or_eq_false_iff.1 hfail
      obtain ⟨hlt, hfast, hport, hrest⟩ := swapEntry_ways (show way - 1 < 4 by omega) (remapOf_lt s g)
      refine ⟨_, pageSwap_swaps hs hm he hp, fun _ _ hpool => ?_, fun h => ?_⟩
      · obtain ⟨hblank, hentry, hbytes⟩ := swapped_entry hi (way - 1) hpool (swapEntry (s.remapOf g) (way - 1)) hlt
        rw [hentry]
        exact ⟨hblank, hfast, hport, hrest, hbytes⟩
      · rw [he, hp] at h
        simp at h
  case down =>
    refine ⟨_, cxlPortDown_exec s port, rfl, portDown_bits s.dev.portDown port, fun g hp hl => ?_⟩
    refine badGranule_of_down (port := port) hp ?_ hl
    exact (portDown_bits s.dev.portDown port port).trans (by simp)
  case patrol =>
    refine ⟨_, patrolScrubRead_exec s g, fun h => ?_, fun h => ?_, fun h => ?_⟩
    · rw [h]
      exact ⟨List.mem_cons_self .., rfl⟩
    · rw [h]
      have hlog := logEntry_logs s (scrubQuadrant g) (logBytes 1 g)
      exact ⟨hlog.total, hlog.rest⟩
    · rcases h with h | h <;> rw [h]
  case scrub =>
    refine ⟨fun h => ?_, fun h => ?_⟩
    · rw [scrubWriteback_exec, if_neg (by simpa using h)]
    · obtain ⟨h1, h2, h3, h4⟩ := scrubbed s g
      exact ⟨_, by rw [scrubWriteback_exec, if_pos (by simpa using h)], h1, h2, h3, rfl, rfl, h4⟩
  case adopt =>
    intro leaves
    refine ⟨_, adoption_adopts hsw hne, adopted_slices, adopted_handoffs, fun l hl => ?_, fun l hl => ?_, adopted_reserved, ?_, adopted_rest, adopted_mem⟩
    · rw [adopted_line, adopted_recorded, if_pos ((contains_leaving l).2 hl), if_pos ((contains_leaving l).2 hl)]
      exact ⟨rfl, rfl⟩
    · rw [adopted_line, adopted_recorded, if_neg (mt (contains_leaving l).1 hl), if_neg (mt (contains_leaving l).1 hl)]
      exact ⟨rfl, rfl⟩
    · intro back k v
      exact adopted_granules k v
  case handoff =>
    refine ⟨_, lineHandoff_some hv, dirSet_recorded_self, rfl, dirSet_room, fun e he hne hbit hout => dirSet_invals he hne hbit hout,
      fun hn l hbit => ?_, rfl⟩
    by_cases hl : l = line
    · subst hl
      change ((s.dirSet l _).dev.hier.recorded l).getLsbD _ = true
      rw [dirSet_recorded_self, BitVec.getLsbD_or, hbit]
      rfl
    · exact dirSet_recorded_bit hn hl hbit
  case redirect =>
    rw [requestRedirect_exec, hsw]
    exact congrArg Host.Outcome.next (if_pos (anySlice_iff _ |>.2 hany))
  case refuse =>
    rw [requestRedirect_exec]
    cases hsw : s.dev.l2.switching with
    | none => rfl
    | some e =>
      obtain ⟨reg, es⟩ := e
      exact congrArg Host.Outcome.next (if_neg fun h => by
        obtain ⟨k, hk⟩ := (anySlice_iff _).1 h
        exact hno reg es hsw k hk)
  case put =>
    obtain ⟨hrest, -, -, hbytes⟩ := homeWrite_spec s .h pa d hi.l1.distinct
    exact ⟨_, remoteRequest_put hacc hgood, hrest.rest, hbytes⟩
  case answer =>
    intro old
    refine ⟨fun h => ?_, fun q hnone hq hva ht hl hr => response_read hnone hq hva ht hl hr⟩
    obtain ⟨e, he⟩ := Option.isSome_iff_exists.1 h
    refine ⟨_, response_write he, rputAnswer_unacked e (List.mem_of_find?_eq_some he) _, fun k hk hack hcut => ?_⟩
    have hke : e = k := Option.some.inj (he.symm.trans hk)
    subst hke hack
    exact rputAnswer_acked hcut

end Sys2Proof.Machine
end

section
/-! A counterexample to O47: a poisoned element beside a Beryl pool (12 R296; 13 R333). -/

namespace Sys2Proof.Machine

/-- A contribution of four elements, none of them correctable, to an object at address 0. -/
def blindCred : Cmd :=
  { id := 0, kind := .cred 0 (.ls 0) 0 4 (some (List.replicate 16 none)), barrier := none, part := 0, task := 0, launch := 0, det := false,
    vpages := [], moved := [] }

/-- The translation service's entries for the lowest 2^45 addresses: a table, whose first leaf maps 2^34 addresses to themselves, readable and
writable at unit level. -/
def lowPages : List UpperEntry := [⟨0, 45, 0, 3⟩, ⟨0, 34, 0, 0x175⟩]

/-- An object at address 0, of one contribution to four elements at address 256, before a pool of one block at address 272. -/
def besidePool : State :=
  { State.reset with
    mem := [(2, 1), (9, 1), (16, 4)]
    core.cmds := [blindCred]
    parts := State.reset.parts.set 0 { State.reset.partAt 0 with troot := 1 }
    dev.hier.upper := lowPages
    beryl.regions := State.reset.beryl.regions.set 0 ⟨true, 0, 0, 0, 272, 1⟩ }

theorem besidePool_inv : besidePool.Inv where
  memory := by decide
  localStore := resetHasInvariant.localStore
  flash := resetHasInvariant.flash
  l1 := resetHasInvariant.l1
  status := resetHasInvariant.status
  counts := fun k hk => nomatch hk

/-- The lines of the object hold nothing dirty. -/
theorem besidePool_home : (linesOf 0 64).foldl State.writeBackLine besidePool = besidePool := by rfl

/-- The object as its home reads it. -/
theorem besidePool_object : besidePool.readObject 0 = ⟨0, 1, 0, 0, false, 256, 4, 0, true⟩ := by rfl

theorem besidePool_walk : besidePool.walk 0 256 = .ok ⟨0x175, 34, some 0⟩ := by
  have h0 : besidePool.dev.hier.upper? 0 ⟨45, 11, [], 14⟩ 256 = some 3 := by decide
  have h1 : besidePool.dev.hier.upper? 0 ⟨34, 11, [5], 16⟩ 256 = some 0x175 := by decide
  have hok : leafOk 0x175 ⟨34, 11, [5], 16⟩ = true := by decide
  have htab : tableOk 3 ⟨45, 11, [], 14⟩ = true := by decide
  rw [State.walk, show (besidePool.partAt 0).troot = 1 by rfl]
  simp only [walkLevels]
  rw [State.walkFrom, State.walkFrom, h0, h1]
  simp [hok, htab]
  decide

theorem besidePool_leaf : besidePool.dispLeaf 0 256 = .ok ⟨0x175, 34, some 0⟩ := by
  have hcheck : leafCheck ⟨0x175, 34, some 0⟩ .readWrite 0 true = .ok () := by decide
  have hphys : besidePool.dispPhys 256 = .ok () := by rfl
  rw [State.dispLeaf, besidePool_walk]
  simp only [bind, Except.bind, hcheck, show Xl.paOf ⟨0x175, 34, some 0⟩ 256 = 256 by decide, hphys]

theorem besidePool_runs : besidePool.objectRuns 0 256 16 = some [⟨256, 16⟩] := by
  have hphys : besidePool.physOk 256 = true := by rfl
  rw [State.objectRuns, if_neg (by decide), show blocksOf 256 16 = [256] by decide, List.foldr_cons, List.foldr_nil, besidePool_leaf]
  simp only [show Xl.paOf ⟨0x175, 34, some 0⟩ 256 = 256 by decide, hphys, if_true]
  decide

/-- The contribution leaves the granule of its elements as it was: the pool reaches into it. -/
theorem besidePool_granule : ∃ t, exec (.credContribution (.own 0 true)) besidePool = .next t ∧ t.badGranule 4 = false := ⟨_, rfl, by rfl⟩

/-- Refutes O47: an element that meets uncorrectable data poisons its granule only where no pool or table memory lies (12 R296). The pool of a
region in force may begin within the granule of the last elements, as the statement's hypotheses keep it from the elements alone. -/
theorem not_engineEvents : ¬ Obligations.EngineEvents := by
  intro h
  obtain ⟨-, -, -, -, hcred, -⟩ := h
  obtain ⟨-, -, -, hown⟩ := hcred besidePool 0 blindCred 0 0 0 4 true (List.replicate 16 none) rfl rfl
  obtain ⟨t, ht, -, -, -, hbad, -⟩ := by
    have hown := hown 256
    dsimp only at hown
    rw [besidePool_home, besidePool_object] at hown
    exact hown rfl besidePool_inv rfl rfl (by decide) rfl rfl rfl rfl rfl (by decide) besidePool_runs rfl rfl rfl rfl (by decide) (by decide)
  obtain ⟨u, hu, hgood⟩ := besidePool_granule
  obtain rfl : t = u := by
    have := ht.symm.trans hu
    cases this
    rfl
  exact absurd ((hbad 0 (by decide) rfl).symm.trans hgood) (by decide)

end Sys2Proof.Machine
end

section
/-! The start of a unit (09 R223, R230, R232; 14 R385): what it does to the launches and to the core. -/

namespace Sys2Proof.Machine

/-! What goes before a start: local stores go to their images, and the L1's mode may switch. -/

/-- t is s after such preparations: in the partitions only the saved units may differ, and the unit of the core is the same. -/
structure Prepared (s t : State) : Prop where
  unit : t.core.unit = s.core.unit
  run : t.core.run = s.core.run
  num : t.core.num = s.core.num
  parts : ∀ q, ∃ v, t.partAt q = { s.partAt q with saved := v }

section
variable {s t u : State}

theorem Prepared.refl (s : State) : Prepared s s := ⟨rfl, rfl, rfl, fun _ => ⟨_, rfl⟩⟩

theorem Prepared.trans (h : Prepared s t) (k : Prepared t u) : Prepared s u where
  unit := k.unit.trans h.unit
  run := k.run.trans h.run
  num := k.num.trans h.num
  parts q := by
    obtain ⟨v, hv⟩ := h.parts q
    obtain ⟨w, hw⟩ := k.parts q
    exact ⟨w, by rw [hw, hv]⟩

theorem Prepared.foldl {α : Type} (f : State → α → State) (l : List α) (hf : ∀ s, ∀ a ∈ l, Prepared s (f s a)) (s : State) : Prepared s (l.foldl f s) :=
  List.foldlRecOn (motive := fun (t : State) => Prepared s t) l f (Prepared.refl s) fun t ht a ha => ht.trans (hf t a ha)

theorem MemOnly.prepared (h : MemOnly s t) : Prepared s t where
  unit := h.unit
  run := congrArg (·.core.run) h.rest
  num := congrArg (·.core.num) h.rest
  parts q := ⟨(s.partAt q).saved, h.partAt q⟩

theorem Prepared.launches (h : Prepared s t) (q : BitVec 3) : (t.partAt q).launches = (s.partAt q).launches := by
  obtain ⟨v, hv⟩ := h.parts q
  rw [hv]

/-- A change of the core alone that keeps its unit. -/
theorem Prepared.of_core (hparts : t.parts = s.parts) (hunit : t.core.unit = s.core.unit) (hrun : t.core.run = s.core.run)
    (hnum : t.core.num = s.core.num) : Prepared s t := ⟨hunit, hrun, hnum, fun q => ⟨(s.partAt q).saved, by rw [State.partAt, hparts]; rfl⟩⟩

end

theorem poisonHome_writes (s : State) (gs : List Nat) : Writes (fun _ => True) s (s.poisonHome gs) :=
  ⟨poisonHome_memOnly s gs, fun h => h, fun _ h => h, fun _ _ h => (h trivial).elim⟩

theorem homeWrite_anywhere (s : State) (path : Path) (pa : Nat) (bs : List Byte) : Writes (fun _ => True) s (s.homeWrite path pa bs) :=
  (homeWrite_writes s path pa bs).mono fun _ _ => trivial

theorem moveToMem_writes (s : State) (path : Path) (pa : Nat) (ms : List Moved) : Writes (fun _ => True) s (s.moveToMem path pa ms) := by
  unfold State.moveToMem
  have hwrites := Writes.foldl (fun s (w : Nat × List Byte) => s.homeWrite path (pa + w.1) w.2) (stretches ms 0)
    (fun s w _ => homeWrite_anywhere s path (pa + w.1) w.2) s
  exact hwrites.trans (poisonHome_writes _ _)

theorem slotWrite_writes (s : State) (p : BitVec 3) (pa : Nat) (bs : List Byte) : Writes (fun _ => True) s (s.slotWrite p pa bs) := by
  unfold State.slotWrite
  split
  · exact homeWrite_anywhere ..
  · exact Writes.refl _ s

theorem putLsImage_writes (s : State) (p : BitVec 3) (pa : Nat) (bytes : Nat → List Moved) : Writes (fun _ => True) s (s.putLsImage p pa bytes) := by
  unfold State.putLsImage
  refine Writes.foldl _ _ (fun t i _ => ?_) s
  split
  · exact moveToMem_writes ..
  · exact Writes.refl _ t

theorem lsSaved_writes (s : State) (p : BitVec 3) (v : SavedUnit) (bytes : Nat → List Moved) : Writes (fun _ => True) s (s.lsSaved p v bytes) := by
  unfold State.lsSaved State.slotOr
  exact (putLsImage_writes ..).trans (slotWrite_writes ..)

theorem lsHolder_prepared (s : State) (h : Option (BitVec 3 × BitVec 32)) : Prepared s { s with core.lsHolder := h } := Prepared.of_core rfl rfl rfl rfl

theorem writeOutLs_prepared (s : State) : Prepared s s.writeOutLs := by
  unfold State.writeOutLs
  split
  · exact Prepared.refl s
  · split
    · exact lsHolder_prepared s none
    · exact (lsSaved_writes ..).rest.prepared.trans (lsHolder_prepared _ none)

/-- A change of the saved units of one partition. -/
theorem modSaved_prepared (s : State) (p : BitVec 3) (f : Part → Part) (hf : ∀ q, ∃ v, f q = { q with saved := v }) : Prepared s (s.modPart p f) where
  unit := rfl
  run := rfl
  num := rfl
  parts q := by
    rw [State.modPart_partAt]
    split
    · next h =>
      obtain ⟨v, hv⟩ := hf (s.partAt p)
      exact ⟨v, by rw [hv, h]⟩
    · exact ⟨(s.partAt q).saved, rfl⟩

theorem writeOutFar_prepared (s : State) (core : Nat) : Prepared s (s.writeOutFar core) := by
  unfold State.writeOutFar
  refine Prepared.foldl _ _ (fun t i _ => ?_) s
  refine Prepared.foldl _ _ (fun t v _ => ?_) t
  exact (lsSaved_writes ..).rest.prepared.trans (modSaved_prepared _ _ _ fun q => ⟨_, rfl⟩)

theorem enterLs_prepared (s : State) (p : BitVec 3) : Prepared s (s.enterLs p) := by
  unfold State.enterLs
  refine (writeOutLs_prepared s).trans ?_
  generalize s.writeOutLs = t
  dsimp only
  split <;> exact Prepared.of_core rfl rfl rfl rfl

theorem l1Mode_writes (s : State) (fused : Bool) : Quiet s (s.l1Mode fused) := by
  unfold State.l1Mode
  split
  · exact Writes.refl _ s
  · refine ((writeBackAll_quiet s).trans (dropClean_quiet _)).trans ?_
    exact { rest := ⟨rfl, rfl⟩, form := fun h => h.sub (List.Sublist.refl _) (fun e he => nomatch he), memory := fun _ h => h, bytes := fun _ _ _ => rfl }

theorem occupyFar_prepared (s : State) (l : Launch) (core : Nat) : Prepared s (s.occupyFar l core) := by
  unfold State.occupyFar
  dsimp only
  split
  · exact (writeOutFar_prepared ..).trans (l1Mode_writes ..).rest.prepared
  · exact writeOutFar_prepared ..

/-- With no local store held on another core there is none to write out. -/
theorem writeOutFar_of_none (s : State) (core : Nat) (h : ∀ r : Fin 8, ∀ v ∈ (s.parts[r]).saved, v.far = none) : s.writeOutFar core = s := by
  unfold State.writeOutFar
  refine List.foldlRecOn (motive := fun (t : State) => t = s) _ _ rfl fun t ht i _ => ?_
  subst ht
  have hnone : (t.partAt (BitVec.ofFin i)).saved.filter (fun v => v.far.any (fun f => f.1 == core)) = [] := by
    rw [List.filter_eq_nil_iff]
    intro v hv
    rw [h i v hv]
    exact Bool.false_ne_true
  simp only [hnone, List.foldl_nil]

/-- The unit that comes to the modelled core, and its partitions (09 R223, R230). -/
theorem install_core (s : State) (p : BitVec 3) (fused : Bool) (u : UnitCtx) : (s.install p fused u).core.unit = u
    ∧ (s.install p fused u).core.run = .running ∧ (s.install p fused u).core.num = s.core.num
    ∧ ∀ q, ∃ v, (s.install p fused u).partAt q = { s.partAt q with saved := v } := by
  have hpre := (enterLs_prepared s p).trans (l1Mode_writes (s.enterLs p) fused).rest.prepared
  have hacq (t : State) := (acquire_quiet t 2).rest.prepared
  unfold State.install
  dsimp only
  refine ⟨(hacq _).unit, (hacq _).run, (hacq _).num.trans hpre.num, fun q => ?_⟩
  obtain ⟨v, hv⟩ := (hacq _).parts q
  obtain ⟨w, hw⟩ := hpre.parts q
  exact ⟨v, hv.trans (congrArg (fun r : Part => { r with saved := v }) hw)⟩

/-! The start itself. -/

/-- The launch after the start of its unit u on a core (09 R221, R223). -/
def Launch.begun (k : Launch) (u core me : Nat) : Launch :=
  { k with units := k.units ++ [UnitRec.start u (if core = me then .here else .elsewhere core) core], nextUnit := u + 1, phase := .running }

/-- What a start leaves of a partition. -/
theorem startOn_parts (s : State) (p : BitVec 3) (l : Launch) (u core : Nat) : (s.startOn p l u core).core.num = s.core.num
    ∧ ∃ v, (s.startOn p l u core).partAt p
      = { (s.partAt p).modLaunch l.id (fun k => k.begun u core s.core.num.toNat) with saved := v } := by
  unfold State.startOn
  dsimp only
  rw [State.modPart_self]
  by_cases h : core = s.core.num.toNat
  · subst h
    obtain ⟨-, -, hnum, hparts⟩ := install_core s p l.record.l1m (unitStartCtx (s.partAt p) l (l.record.ident l.id p u))
    obtain ⟨v, hv⟩ := hparts p
    rw [if_pos (beq_self_eq_true _)]
    refine ⟨hnum, v, ?_⟩
    rw [hv]
    simp only [Part.modLaunch, Launch.begun, beq_self_eq_true, if_true]
  · rw [if_neg (by rw [beq_iff_eq]; exact h)]
    have hpre := occupyFar_prepared s l core
    obtain ⟨v, hv⟩ := hpre.parts p
    refine ⟨hpre.num, v, ?_⟩
    rw [hv]
    simp only [Part.modLaunch, Launch.begun, beq_iff_eq, h, if_false]

theorem startOn_here (s : State) (p : BitVec 3) (l : Launch) (u core : Nat) (h : core = s.core.num.toNat) :
    (s.startOn p l u core).core.run = .running
      ∧ (s.startOn p l u core).core.unit = unitStartCtx (s.partAt p) l (l.record.ident l.id p u) := by
  obtain ⟨hunit, hrun, -⟩ := install_core s p l.record.l1m (unitStartCtx (s.partAt p) l (l.record.ident l.id p u))
  unfold State.startOn
  dsimp only
  rw [if_pos (beq_iff_eq.2 h)]
  exact ⟨hrun, hunit⟩

theorem startOn_far (s : State) (p : BitVec 3) (l : Launch) (u core : Nat) (h : core ≠ s.core.num.toNat) :
    (s.startOn p l u core).core.unit = s.core.unit ∧ (s.startOn p l u core).core.run = s.core.run
      ∧ (core / 4 ≠ s.core.num.toNat / 4 → (∀ r : Fin 8, ∀ v ∈ (s.parts[r]).saved, v.far = none) → (s.startOn p l u core).core = s.core) := by
  have hpre := occupyFar_prepared s l core
  unfold State.startOn
  dsimp only
  rw [if_neg (by rw [beq_iff_eq]; exact h)]
  refine ⟨hpre.unit, hpre.run, fun hfar hnone => ?_⟩
  change (s.occupyFar l core).core = s.core
  rw [State.occupyFar, writeOutFar_of_none s core hnone, if_neg]
  rw [State.inCluster, beq_iff_eq]
  exact hfar

end Sys2Proof.Machine
end

section
/-! The dispatcher's choices and the ends of units and launches (09 R216, R217, R231, R232). -/

namespace Sys2Proof.Machine

/-! Who waits, and who makes room (09 R232). -/

/-- A fold that keeps what it has or takes the next one ends with one of the list. -/
theorem foldl_choice_mem {α : Type} (f : Option α → α → Option α) (hf : ∀ acc e, f acc e = some e ∨ f acc e = acc) (ls : List α) (r : α)
    (h : ls.foldl f none = some r) : r ∈ ls := by
  have hinv : ∀ r, ls.foldl f none = some r → r ∈ ls := by
    refine List.foldlRecOn (motive := fun (acc : Option α) => ∀ r, acc = some r → r ∈ ls) ls f (fun _ h => nomatch h) fun acc ih e he r hr => ?_
    rcases hf acc e with hnew | hold
    · rw [hnew] at hr
      cases hr
      exact he
    · exact ih r (hold ▸ hr)
  exact hinv r h

theorem firstReady_mem {ls : List Launch} {w : Launch} (h : firstReady ls = some w) : w ∈ ls := by
  refine foldl_choice_mem _ (fun acc e => ?_) ls w h
  cases acc with
  | none => exact .inl rfl
  | some b =>
    dsimp only
    split
    · exact .inl rfl
    · exact .inr rfl

/-- The launch that waits urgently: of priority 6 or 7, and it may occupy one core more. -/
theorem urgent_spec {s : State} {p : BitVec 3} {w : Launch} (h : s.urgent p = some w) :
    6 ≤ w.pri ∧ (w.record.maxc = 0 ∨ (w.cores s.core.num.toNat).length < w.record.maxc) := by
  obtain ⟨pri, hpri, hw⟩ := List.exists_of_findSome?_eq_some h
  have hmem := (List.mem_filter.1 (firstReady_mem hw)).2
  rw [Bool.and_eq_true, beq_iff_eq] at hmem
  obtain ⟨hp, hmore⟩ := hmem
  have h6 : 6 ≤ pri := by
    simp only [List.mem_cons, List.not_mem_nil, or_false] at hpri
    omega
  have hmaxc : s.maxcOk w = true := by
    simp only [State.wantsMore, Bool.and_eq_true] at hmore
    exact hmore.2
  rw [State.maxcOk, Bool.or_eq_true, beq_iff_eq, decide_eq_true_eq] at hmaxc
  exact ⟨hp ▸ h6, hmaxc⟩

/-- The unit that is pre-empted: one of a weakly parallel or parallel launch of lower priority that occupies a core. -/
theorem victim_spec {s : State} {p : BitVec 3} {w : Launch} {task : BitVec 32} (h : s.victim p w = some task) :
    ∃ l ∈ (s.partAt p).launches, l.pri < w.pri ∧ l.record.cls < 2 ∧ ∃ u ∈ l.units, BitVec.ofNat 32 (l.record.tbase + u.u) = task
      ∧ (u.occupies s.core.num.toNat).isSome = true := by
  unfold State.victim at h
  obtain ⟨e, he, htask⟩ := Option.map_eq_some_iff.1 h
  have hmem := foldl_choice_mem _ (fun acc e => by
    cases acc with
    | none => exact .inl rfl
    | some b =>
      dsimp only
      split
      · exact .inl rfl
      · exact .inr rfl) _ e he
  obtain ⟨l, hl, hunit⟩ := List.mem_flatMap.1 hmem
  obtain ⟨hlmem, hlow⟩ := List.mem_filter.1 hl
  rw [Bool.and_eq_true, decide_eq_true_eq, decide_eq_true_eq] at hlow
  obtain ⟨u, hu, hat⟩ := List.mem_filterMap.1 hunit
  refine ⟨l, hlmem, hlow.1, hlow.2, u, hu, ?_⟩
  have hin (c : Nat) (hc : (if s.modeOkWithout p w (BitVec.ofNat 32 (l.record.tbase + u.u)) c then
      some (l.pri, c, BitVec.ofNat 32 (l.record.tbase + u.u)) else none) = some e) : BitVec.ofNat 32 (l.record.tbase + u.u) = task := by
    split at hc
    · cases hc
      exact htask
    · cases hc
  cases hplace : u.place with
  | here =>
    rw [hplace] at hat
    exact ⟨hin _ hat, by rw [UnitRec.occupies, hplace]; rfl⟩
  | elsewhere c =>
    rw [hplace] at hat
    exact ⟨hin _ hat, by rw [UnitRec.occupies, hplace]; rfl⟩
  | _ => rw [hplace] at hat; cases hat

/-! What the endings leave of the launches (09 R216, R217, R224, R230). -/

/-- Each launch of the partition after is one before, with the same identifier and the same units. -/
structure SameUnits (p : BitVec 3) (s t : State) : Prop where
  units : ∀ l ∈ (t.partAt p).launches, ∃ k ∈ (s.partAt p).launches, l.id = k.id ∧ l.units = k.units

section
variable {p : BitVec 3} {s t u : State}

theorem SameUnits.refl (p : BitVec 3) (s : State) : SameUnits p s s := ⟨fun l hl => ⟨l, hl, rfl, rfl⟩⟩

theorem SameUnits.trans (h : SameUnits p s t) (k : SameUnits p t u) : SameUnits p s u := ⟨fun l hl => by
  obtain ⟨m, hm, hid, hus⟩ := k.units l hl
  obtain ⟨j, hj, hid', hus'⟩ := h.units m hm
  exact ⟨j, hj, hid.trans hid', hus.trans hus'⟩⟩

theorem SameUnits.of_eq (h : (t.partAt p).launches = (s.partAt p).launches) : SameUnits p s t := ⟨fun l hl => ⟨l, h ▸ hl, rfl, rfl⟩⟩

theorem SameLaunches.sameUnits (h : SameLaunches s t) : SameUnits p s t := ⟨fun l hl => by
  obtain ⟨k, hk, hb⟩ := h.mem hl
  exact ⟨k, hk, (congrArg Launch.id hb).symm, (congrArg Launch.units hb).symm⟩⟩

/-- A change of the partition that changes no launch's identifier and units, and may take launches away. -/
theorem modPart_sameUnits (s : State) (p : BitVec 3) (f : Part → Part)
    (hf : ∀ l ∈ (f (s.partAt p)).launches, ∃ k ∈ (s.partAt p).launches, l.id = k.id ∧ l.units = k.units) : SameUnits p s (s.modPart p f) := by
  refine ⟨fun l hl => ?_⟩
  rw [State.modPart_self] at hl
  exact hf l hl

theorem modLaunch_sameUnits (q : Part) (id : BitVec 32) (f : Launch → Launch) (hf : ∀ k, (f k).id = k.id ∧ (f k).units = k.units) :
    ∀ l ∈ (q.modLaunch id f).launches, ∃ k ∈ q.launches, l.id = k.id ∧ l.units = k.units := by
  intro l hl
  obtain ⟨k, hk, rfl⟩ := List.mem_map.1 hl
  refine ⟨k, hk, ?_⟩
  split
  · exact hf k
  · exact ⟨rfl, rfl⟩

theorem completion_sameUnits (s : State) (p q : BitVec 3) (ident : BitVec 32) (level status nfault : Nat) (cause : BitVec 6) (ftask : BitVec 32)
    (aux : Word64) : SameUnits q s (s.completion p ident level status nfault cause ftask aux) := SameUnits.of_eq (completion_launches ..)

theorem phaseHold_sameUnits (s : State) (p : BitVec 3) : SameUnits p s (s.phaseHold p) := by
  unfold State.phaseHold
  split
  · exact modPart_sameUnits s p _ fun l hl => ⟨l, hl, rfl, rfl⟩
  · exact SameUnits.refl p s

theorem closeLevel_sameUnits (s : State) (p : BitVec 3) (level id : Nat) : SameUnits p s (s.closeLevel p level id) := by
  unfold State.closeLevel
  dsimp only
  generalize (if level == 2 then (s.partAt p).openGraph id else (s.partAt p).openPhase id) = opened
  split
  · split
    · exact SameUnits.refl p s
    · have hclosed := (modPart_sameUnits s p (fun q => { q with endings := q.endings.filter (fun e => !(e.1 == level && e.2.1 == id)) })
        fun l hl => ⟨l, hl, rfl, rfl⟩)
      split
      · exact (hclosed.trans (completion_sameUnits ..)).trans (phaseHold_sameUnits ..)
      · exact hclosed.trans (completion_sameUnits ..)
  · exact SameUnits.refl p s

theorem closeJob_sameUnits (s : State) (p : BitVec 3) : SameUnits p s (s.closeJob p) := by
  unfold State.closeJob
  dsimp only
  split
  · exact (modPart_sameUnits s p _ fun l hl => ⟨l, hl, rfl, rfl⟩).trans (completion_sameUnits ..)
  · exact SameUnits.refl p s

/-- The partition as a launch ends. -/
theorem endLaunch_units (s : State) (p : BitVec 3) (l : Launch) (status : Nat) : SameUnits p s (s.endLaunch p l status)
    ∧ ∀ k ∈ ((s.endLaunch p l status).partAt p).launches, k.id ≠ l.id := by
  unfold State.endLaunch
  dsimp only
  generalize hf : (fun q : Part => ({ q with launches := q.launches.filter (fun k => k.id != l.id), unwritten := _, endings := _, reserve := _ } : Part)) = f
  have hlist : ((s.modPart p f).partAt p).launches = (s.partAt p).launches.filter (fun k => k.id != l.id) := by
    rw [State.modPart_self, ← hf]
  have hafter := (((completion_sameUnits (s.modPart p f) p p l.id 1 status l.nfault l.fcause l.ftask (BitVec.ofNat 64 l.endedUnits)).trans
    (closeLevel_sameUnits _ p 2 l.graph)).trans (closeLevel_sameUnits _ p 3 l.phaseId)).trans (closeJob_sameUnits _ p)
  refine ⟨SameUnits.trans ⟨fun k hk => ⟨k, ?_, rfl, rfl⟩⟩ hafter, fun k hk => ?_⟩
  · rw [hlist] at hk
    exact (List.mem_filter.1 hk).1
  · obtain ⟨j, hj, hid, -⟩ := hafter.units k hk
    rw [hlist] at hj
    rw [hid]
    exact bne_iff_ne.1 (List.mem_filter.1 hj).2

theorem makeReady_sameUnits (s : State) (p : BitVec 3) (id : BitVec 32) : SameUnits p s (s.makeReady p id).1 := by
  unfold State.makeReady
  dsimp only
  split
  · exact SameUnits.refl p s
  · split
    · exact (endLaunch_units ..).1
    · dsimp only
      refine modPart_sameUnits s p _ ?_
      exact modLaunch_sameUnits (s.partAt p) id (fun k => { k with phase := _, readySeq := _, hot := _, released := _ }) fun k => ⟨rfl, rfl⟩

theorem releaseEntry_sameUnits (s : State) (p : BitVec 3) (entry : Nat) : SameUnits p s (s.releaseEntry p entry).1 := by
  unfold State.releaseEntry
  dsimp only
  split
  · dsimp only
    refine modPart_sameUnits s p _ ?_
    exact fun l hl => ⟨l, hl, rfl, rfl⟩
  · split
    · split
      · exact makeReady_sameUnits ..
      · dsimp only
        refine modPart_sameUnits s p _ ?_
        refine modLaunch_sameUnits _ _ _ ?_
        exact fun k => ⟨rfl, rfl⟩
    · exact SameUnits.refl p s

theorem releaseLoop_sameUnits (p : BitVec 3) (n : Nat) (es : List Nat) (s : State) : SameUnits p s (State.releaseLoop p n es s) := by
  induction n generalizing es s with
  | zero => exact SameUnits.refl p s
  | succ n ih =>
    cases es with
    | nil => exact SameUnits.refl p s
    | cons e r => exact (releaseEntry_sameUnits s p e).trans (ih _ _)

theorem checkTrigger_sameUnits (s : State) (p : BitVec 3) (id : BitVec 32) : SameUnits p s (s.checkTrigger p id) := by
  unfold State.checkTrigger
  split
  · exact SameUnits.refl p s
  · split
    · exact SameUnits.refl p s
    · refine (modPart_sameUnits s p _ ?_).trans (releaseLoop_sameUnits ..)
      refine modLaunch_sameUnits _ id _ ?_
      exact fun k => ⟨rfl, rfl⟩

end

end Sys2Proof.Machine
end

section
/-! The dispatcher's events (09 R217, R223, R224, R231 to R233; 14 R381). -/

namespace Sys2Proof.Machine

/-- The context of a unit at its start (01 R10, R11; 09 R223). -/
theorem unitStartCtx_fields (pt : Part) (l : Launch) (id : Ident) :
    let u := unitStartCtx pt l id
    u.pc = BitVec.ofNat 56 l.record.prog ∧ u.ident = id ∧ u.k.pl = 0 ∧ u.k.rf = false ∧ u.k.sticky = 0 ∧ u.k.vpin = 0
    ∧ u.k.stkhold = 64 ∧ u.k.tvec = pt.tvecdef ∧ u.k.tdeleg = pt.tdlgdef
    ∧ (∀ r : Fin 32, u.x[r] = if r.val = 10 then l.record.param else 0)
    ∧ (∀ r : Fin 16, u.t[r] = Tile.null) ∧ (∀ m : Fin 8, (u.m[m]).full = false) ∧ (∀ q : Fin 4, (u.q[q]).bound = false) := by
  refine ⟨rfl, rfl, rfl, (by decide : KRegs.rf KRegs.reset = false), rfl, rfl, rfl, rfl, rfl, fun r => ?_, fun r => ?_, fun m => ?_, fun q => ?_⟩
  · change ((Vector.replicate 32 (0 : Word64)).set 10 l.record.param)[r.val] = _
    rw [Vector.getElem_set, Vector.getElem_replicate]
    simp only [eq_comm]
  · exact Vector.getElem_replicate ..
  · exact congrArg Mbox.full (Vector.getElem_replicate ..)
  · exact congrArg Stream.bound (Vector.getElem_replicate ..)

/-! UNIT_START (09 R232, R233). -/

section
variable {s : State} {p : Fin 8} {core : Nat}

theorem unitStart_refused (h : (s.partAt (BitVec.ofFin p)).en = false ∨ (s.partAt (BitVec.ofFin p)).held = true) :
    exec (.unitStart p core) s = .next s := by
  change execUnitStart p core s = _
  unfold execUnitStart
  dsimp only
  rw [if_pos]
  rcases h with h | h <;> simp [h]

variable (hen : (s.partAt (BitVec.ofFin p)).en = true) (hheld : (s.partAt (BitVec.ofFin p)).held = false)
include hen hheld

theorem unitStart_turn {l : Launch} (hturn : (s.partAt (BitVec.ofFin p)).turnOf core = some l) :
    exec (.unitStart p core) s = .next (if (s.emptyCores (BitVec.ofFin p)).contains core && s.maxcOk l && s.modeOk (BitVec.ofFin p) l core
      then s.startTurn (BitVec.ofFin p) l core else s) := by
  change execUnitStart p core s = _
  unfold execUnitStart
  dsimp only
  rw [if_neg (by simp [hen, hheld]), hturn]

variable (hturn : (s.partAt (BitVec.ofFin p)).turnOf core = none)
include hturn

theorem unitStart_full (hfree : s.freeCores (BitVec.ofFin p) = []) :
    exec (.unitStart p core) s = .next (s.makeRoom (BitVec.ofFin p)) := by
  change execUnitStart p core s = _
  unfold execUnitStart
  dsimp only
  rw [if_neg (by simp [hen, hheld]), hturn]
  dsimp only
  rw [if_pos (List.isEmpty_iff.2 hfree)]

theorem unitStart_choice {c : Choice} (hfree : s.freeCores (BitVec.ofFin p) ≠ []) (hres : (s.partAt (BitVec.ofFin p)).reserve = none)
    (hc : s.choose (BitVec.ofFin p) = some c) : exec (.unitStart p core) s = .next (
      if c.launch.record.cls ≠ 2 then s.startOne (BitVec.ofFin p) c core
      else if c.launch.nextUnit = 0 then s.startGroup (BitVec.ofFin p) c
      else (s.reserveFor (BitVec.ofFin p) c).requestParked (BitVec.ofFin p)) := by
  change execUnitStart p core s = _
  unfold execUnitStart
  dsimp only
  rw [if_neg (by simp [hen, hheld]), hturn]
  dsimp only
  rw [if_neg (by rw [List.isEmpty_iff]; exact hfree), hres, hc]
  simp only [Option.bind_none, bne_iff_ne, beq_iff_eq]

end

/-! What a start does to the launches. -/

/-- The launch as a start of its unit u leaves it. -/
def Launch.Started (k : Launch) (u core me : Nat) : Prop :=
  k.phase = .running ∧ k.nextUnit = u + 1
    ∧ k.units.getLast? = some ⟨u, if core = me then .here else .elsewhere core, false, 0, core, none, none, false, false⟩

theorem Launch.begun_started (k : Launch) (u core me : Nat) : (k.begun u core me).Started u core me :=
  ⟨rfl, rfl, List.getLast?_concat⟩

theorem modLaunch_ids (q : Part) (id : BitVec 32) (f : Launch → Launch) (hf : ∀ k, (f k).id = k.id) :
    (q.modLaunch id f).launches.map (·.id) = q.launches.map (·.id) := by
  rw [Part.modLaunch, List.map_map]
  refine List.map_congr_left fun k _ => ?_
  rw [Function.comp_apply]
  split
  · exact hf k
  · rfl

/-- The launches of an identifier are changed, and no others. -/
theorem modLaunch_named {q : Part} {id : BitVec 32} {f : Launch → Launch} {k : Launch}
    (hk : k ∈ (q.modLaunch id f).launches) (hid : k.id = id) : ∃ j ∈ q.launches, j.id = id ∧ k = f j := by
  obtain ⟨j, hj, rfl⟩ := List.mem_map.1 hk
  split at hid
  · next h => exact ⟨j, hj, beq_iff_eq.1 h, by rw [if_pos h]⟩
  · next h => exact absurd (beq_iff_eq.2 hid) h

/-- A start on a core: the launches of that identifier start, and each keeps whether it is admitted. -/
theorem startOn_launches (s : State) (p : BitVec 3) (l : Launch) (u core : Nat) :
    ((s.startOn p l u core).partAt p).launches.map (·.id) = (s.partAt p).launches.map (·.id)
    ∧ ((s.startOn p l u core).partAt p).eremain = (s.partAt p).eremain
    ∧ ((s.startOn p l u core).partAt p).reserve = (s.partAt p).reserve
    ∧ ∀ k ∈ ((s.startOn p l u core).partAt p).launches, k.id = l.id →
      ∃ j ∈ (s.partAt p).launches, j.id = l.id ∧ k = j.begun u core s.core.num.toNat := by
  obtain ⟨-, v, hv⟩ := startOn_parts s p l u core
  rw [hv]
  exact ⟨modLaunch_ids _ _ _ fun _ => rfl, rfl, rfl, fun k hk hid => modLaunch_named hk hid⟩

theorem charge_launches (q : Part) (l : Launch) : (q.charge l).launches.map (·.id) = q.launches.map (·.id)
    ∧ (l.admitted = false → ∀ k ∈ (q.charge l).launches, k.id = l.id → k.admitted = true)
    ∧ (q.charge l).eremain = if l.admitted = true ∨ q.budget = 0 then q.eremain else q.eremain - BitVec.ofNat 64 l.record.energy := by
  unfold Part.charge
  cases hadm : l.admitted with
  | true => exact ⟨rfl, fun h => absurd h (by decide), (if_pos (.inl rfl)).symm⟩
  | false =>
    rw [if_neg (by decide)]
    dsimp only
    have hids := modLaunch_ids q l.id (fun k => { k with admitted := true }) fun _ => rfl
    have hall : ∀ k ∈ (q.modLaunch l.id (fun k => { k with admitted := true })).launches, k.id = l.id → k.admitted = true := fun k hk hid => by
      obtain ⟨j, -, -, rfl⟩ := modLaunch_named hk hid
      rfl
    by_cases hb : q.budget = 0
    · rw [if_pos (beq_iff_eq.2 hb), if_pos (.inr hb)]
      exact ⟨hids, fun _ => hall, rfl⟩
    · rw [if_neg (by rw [beq_iff_eq]; exact hb), if_neg (by rintro (h | h); exacts [absurd h (by decide), hb h])]
      exact ⟨hids, fun _ => hall, rfl⟩

/-- What a start leaves of a core that is not the modelled one (10 R245; 14 R385). -/
def FarStart (s t : State) (core : Nat) : Prop :=
  core ≠ s.core.num.toNat → t.core.unit = s.core.unit ∧ t.core.run = s.core.run
    ∧ (core / 4 ≠ s.core.num.toNat / 4 → (∀ r : Fin 8, ∀ v ∈ (s.parts[r]).saved, v.far = none) → t.core = s.core)

/-- A change of a partition that leaves its saved units goes before a start. -/
theorem startOn_farStart (s : State) (p : BitVec 3) (f : Part → Part) (hf : (f (s.partAt p)).saved = (s.partAt p).saved) (l : Launch) (u core : Nat) :
    FarStart s ((s.modPart p f).startOn p l u core) core := fun hne => by
  obtain ⟨hunit, hrun, hcore⟩ := startOn_far (s.modPart p f) p l u core hne
  refine ⟨hunit, hrun, fun hfar hnone => hcore hfar fun r v hv => ?_⟩
  have hpart := State.modPart_partAt s p (BitVec.ofFin r) f
  change (s.modPart p f).parts[r] = _ at hpart
  rw [hpart] at hv
  split at hv
  · next h =>
    rw [hf, ← h] at hv
    exact hnone r v hv
  · exact hnone r v hv

/-- The context that the modelled core then holds. -/
theorem startOn_hereStart (s : State) (p : BitVec 3) (f : Part → Part)
    (hf : (f (s.partAt p)).tvecdef = (s.partAt p).tvecdef ∧ (f (s.partAt p)).tdlgdef = (s.partAt p).tdlgdef) (l : Launch) (u core : Nat)
    (h : core = s.core.num.toNat) : ((s.modPart p f).startOn p l u core).core.run = .running
      ∧ ((s.modPart p f).startOn p l u core).core.unit = unitStartCtx (s.partAt p) l (l.record.ident l.id p u) := by
  obtain ⟨hrun, hunit⟩ := startOn_here (s.modPart p f) p l u core h
  refine ⟨hrun, hunit.trans ?_⟩
  rw [State.modPart_self, unitStartCtx, unitStartCtx, hf.1, hf.2]

theorem charge_saved (q : Part) (l : Launch) : (q.charge l).saved = q.saved := by
  unfold Part.charge
  split
  · rfl
  · dsimp only
    split <;> rfl

theorem charge_defaults (q : Part) (l : Launch) : (q.charge l).tvecdef = q.tvecdef ∧ (q.charge l).tdlgdef = q.tdlgdef := by
  unfold Part.charge
  split
  · exact ⟨rfl, rfl⟩
  · dsimp only
    split <;> exact ⟨rfl, rfl⟩

/-- A partition before the start on a core that a time slice has freed for the launch. -/
def Part.turned (q : Part) (l : Launch) (core : Nat) : Part :=
  { (q.charge l).modLaunch l.id (fun k => { k with turns := k.turns.erase core }) with
    deficits := setDeficit q.deficits l.pri l.graph (deficitOf q.deficits l.pri l.graph - 1) }

/-- A partition before the start of n units of the dispatcher's choice. -/
def Part.chosen (q : Part) (c : Choice) (n : Int) : Part :=
  { q.charge c.launch with
    rounds := c.rounds, deficits := setDeficit c.deficits c.launch.pri c.launch.graph (deficitOf c.deficits c.launch.pri c.launch.graph - n) }

theorem turned_ids (q : Part) (l : Launch) (core : Nat) : (q.turned l core).launches.map (·.id) = q.launches.map (·.id) :=
  (modLaunch_ids (q.charge l) l.id (fun k => { k with turns := k.turns.erase core }) fun _ => rfl).trans (charge_launches q l).1

/-- The start on a core that a time slice has freed. -/
theorem startTurn_starts (s : State) (p : BitVec 3) (l : Launch) (core : Nat) :
    ((s.startTurn p l core).partAt p).launches.map (·.id) = (s.partAt p).launches.map (·.id)
    ∧ FarStart s (s.startTurn p l core) core
    ∧ (∀ k ∈ ((s.startTurn p l core).partAt p).launches, k.id = l.id → k.Started l.nextUnit core s.core.num.toNat)
    ∧ (core = s.core.num.toNat → (s.startTurn p l core).core.run = .running
      ∧ (s.startTurn p l core).core.unit = unitStartCtx (s.partAt p) l (l.record.ident l.id p l.nextUnit)) := by
  obtain ⟨hl, -, -, hk⟩ := startOn_launches (s.modPart p (·.turned l core)) p l l.nextUnit core
  rw [State.modPart_self] at hl hk
  refine ⟨hl.trans (turned_ids ..), startOn_farStart s p (·.turned l core) (charge_saved ..) l l.nextUnit core, fun k hkm hid => ?_,
    startOn_hereStart s p (·.turned l core) (charge_defaults ..) l l.nextUnit core⟩
  obtain ⟨j, -, -, rfl⟩ := hk k hkm hid
  exact j.begun_started ..

/-- The start of one unit of the dispatcher's choice (09 R232; 16 R415). -/
theorem startOne_starts (s : State) (p : BitVec 3) (c : Choice) (core : Nat) (hhead : (s.placement p c.launch).head? = some core)
    (hsaved : (s.partAt p).waitingSaved c.launch = []) (hunit : c.launch.nextUnit < c.launch.record.units) :
    ((s.startOne p c core).partAt p).launches.map (·.id) = (s.partAt p).launches.map (·.id)
    ∧ (∀ k ∈ ((s.startOne p c core).partAt p).launches, k.id = c.launch.id → k.Started c.launch.nextUnit core s.core.num.toNat
      ∧ (c.launch.admitted = false → k.admitted = true))
    ∧ ((s.startOne p c core).partAt p).eremain = (if c.launch.admitted = true ∨ (s.partAt p).budget = 0 then (s.partAt p).eremain
        else (s.partAt p).eremain - BitVec.ofNat 64 c.launch.record.energy)
    ∧ (core = s.core.num.toNat → (s.startOne p c core).core.run = .running
      ∧ (s.startOne p c core).core.unit = unitStartCtx (s.partAt p) c.launch (c.launch.record.ident c.launch.id p c.launch.nextUnit))
    ∧ FarStart s (s.startOne p c core) core := by
  have heq : s.startOne p c core = (s.modPart p (·.chosen c 1)).startOn p c.launch c.launch.nextUnit core := by
    unfold State.startOne
    dsimp only
    rw [if_neg (by simp [hhead, hsaved, Launch.hasUnstarted, hunit])]
    rfl
  obtain ⟨hids, hadm, hremain⟩ := charge_launches (s.partAt p) c.launch
  obtain ⟨hl, he, -, hk⟩ := startOn_launches (s.modPart p (·.chosen c 1)) p c.launch c.launch.nextUnit core
  rw [State.modPart_self] at hl hk he
  rw [heq]
  refine ⟨hl.trans hids, fun k hkm hid => ?_, he.trans hremain, startOn_hereStart s p (·.chosen c 1) (charge_defaults ..) c.launch c.launch.nextUnit core,
    startOn_farStart s p (·.chosen c 1) (charge_saved ..) c.launch c.launch.nextUnit core⟩
  obtain ⟨j, hj, hjid, rfl⟩ := hk k hkm hid
  exact ⟨j.begun_started .., fun h => hadm h j hj hjid⟩

/-- The units of a concurrent launch start one after another on their cores (09 R233). -/
theorem startEach (p : BitVec 3) (l : Launch) (cores : List Nat) (n : Nat) (s : State) :
    let t := (List.range n).foldl (fun t i => t.startOn p l i (cores.getD i 0)) s
    (t.partAt p).reserve = (s.partAt p).reserve
    ∧ ∀ k ∈ (t.partAt p).launches, k.id = l.id → ∃ j : Launch, k.units.map (·.core) = j.units.map (·.core) ++ (List.range n).map (cores.getD · 0) := by
  induction n with
  | zero => exact ⟨rfl, fun k _ _ => ⟨k, (List.append_nil _).symm⟩⟩
  | succ n ih =>
    simp only [List.range_succ, List.foldl_append, List.foldl_cons, List.foldl_nil]
    obtain ⟨hres, hk⟩ := ih
    obtain ⟨-, -, hres', hk'⟩ := startOn_launches ((List.range n).foldl (fun t i => t.startOn p l i (cores.getD i 0)) s) p l n (cores.getD n 0)
    refine ⟨hres'.trans hres, fun k hkm hid => ?_⟩
    obtain ⟨j, hj, hjid, rfl⟩ := hk' k hkm hid
    obtain ⟨i, hi⟩ := hk j hj hjid
    refine ⟨i, ?_⟩
    rw [Launch.begun, List.map_append, hi, List.map_append, List.append_assoc]
    rfl

theorem take_eq_range_map (cores : List Nat) {n : Nat} (h : n ≤ cores.length) : (List.range n).map (cores.getD · 0) = cores.take n := by
  refine List.ext_getElem (by simp [Nat.min_eq_left h]) fun i hi _ => ?_
  have hn : i < n := by simpa using hi
  simp [List.getD_eq_getElem?_getD, List.getElem?_eq_getElem (Nat.lt_of_lt_of_le hn h)]

/-- A concurrent launch starts whole when cores enough are free (09 R233). -/
theorem startGroup_starts (s : State) (p : BitVec 3) (c : Choice) (h : c.launch.record.units ≤ (s.placement p c.launch).length) :
    ((s.startGroup p c).partAt p).reserve = none
    ∧ ∀ k ∈ ((s.startGroup p c).partAt p).launches, k.id = c.launch.id →
      (k.units.map (·.core)).drop (k.units.length - c.launch.record.units) = (s.placement p c.launch).take c.launch.record.units := by
  have hall : s.startAll p c = (List.range c.launch.record.units).foldl (fun t i => t.startOn p c.launch i ((s.placement p c.launch).getD i 0))
      (s.modPart p (fun q => { q.chosen c c.launch.record.units with reserve := none })) := by
    unfold State.startAll
    dsimp only
    rw [if_neg (by omega)]
    rfl
  obtain ⟨hres, hk⟩ := startEach p c.launch (s.placement p c.launch) c.launch.record.units
    (s.modPart p (fun q => { q.chosen c c.launch.record.units with reserve := none }))
  rw [← hall, State.modPart_self] at hres
  rw [← hall] at hk
  have hgroup : s.startGroup p c = s.startAll p c := by
    unfold State.startGroup
    dsimp only
    rw [hres, if_neg (by simp)]
  rw [hgroup]
  refine ⟨hres, fun k hkm hid => ?_⟩
  obtain ⟨j, hj⟩ := hk k hkm hid
  rw [take_eq_range_map _ h] at hj
  have hlen : k.units.length = j.units.length + c.launch.record.units := by
    have := congrArg List.length hj
    simpa [Nat.min_eq_left h] using this
  rw [hj, hlen, Nat.add_sub_cancel, List.drop_append_of_le_length (by simp), List.drop_of_length_le (by simp), List.nil_append]

/-- A concurrent launch that finds too few cores reserves what becomes free (09 R233; 14 R364). -/
theorem startGroup_reserves (s : State) (p : BitVec 3) (c : Choice) (h : (s.placement p c.launch).length < c.launch.record.units) :
    s.startGroup p c = (s.reserveFor p c).requestParked p := by
  have hall : s.startAll p c = s.reserveFor p c := by
    unfold State.startAll
    dsimp only
    rw [if_pos h]
    rfl
  unfold State.startGroup
  rw [hall]
  dsimp only
  rw [State.reserveFor, State.modPart_self, if_pos (beq_self_eq_true _)]

/-- A reservation does not change who is parked. -/
theorem parked_reserveFor (s : State) (p : BitVec 3) (c : Choice) : (s.reserveFor p c).parked p = s.parked p := by
  unfold State.parked State.evictPending State.reserveFor
  dsimp only
  rw [State.modPart_self]
  rfl

end Sys2Proof.Machine
end

section
/-! Ends of units and launches (09 R216, R217, R231, R237), and the dispatcher's events together. -/

namespace Sys2Proof.Machine

/-! TIME_SLICE_PREEMPTION (09 R232). -/

theorem timeSlice_exec {s : State} {p : Fin 8} {task : BitVec 32} {l : Launch} {u : UnitRec}
    (h : (s.partAt (BitVec.ofFin p)).findUnit task = some (l, u)) : exec (.timeSlicePreemption p task) s
      = .next (if l.record.cls = 1 ∧ l.nextUnit < l.record.units ∧ s.freeCores (BitVec.ofFin p) = [] then s.requestEvict (BitVec.ofFin p) task .slice
        else s) := by
  change execTimeSlicePreemption p task s = _
  unfold execTimeSlicePreemption
  dsimp only
  rw [h]
  simp only [Launch.hasUnstarted, Bool.and_eq_true, beq_iff_eq, decide_eq_true_eq, List.isEmpty_iff, and_assoc]

/-! UNIT_END (09 R231, R241). -/

/-- The end of a unit once nothing of it is left on its core. -/
def State.ended (s : State) (p : BitVec 3) (l : Launch) (u : UnitRec) : State :=
  ((s.setPlace p l.id u.u (.ended false)).busyEntry p l u true).checkTrigger p l.id

theorem setPlace_places (s : State) (p : BitVec 3) (id : BitVec 32) (u : Nat) (w : UnitWhere) :
    ∀ k ∈ ((s.setPlace p id u w).partAt p).launches, k.id = id → ∀ r ∈ k.units, r.u = u → r.place = w := by
  intro k hk hid r hr hru
  rw [State.setPlace, State.modPart_self] at hk
  obtain ⟨j, -, -, rfl⟩ := modLaunch_named hk hid
  obtain ⟨x, -, rfl⟩ := List.mem_map.1 hr
  split at hru
  · next h => rw [if_pos h]
  · next h => exact absurd (beq_iff_eq.2 hru) h

theorem ended_spec (s : State) (p : BitVec 3) (l : Launch) (u : UnitRec) : (s.ended p l u).core.unit = s.core.unit
    ∧ (s.ended p l u).core.run = s.core.run
    ∧ ∀ k ∈ ((s.ended p l u).partAt p).launches, k.id = l.id → ∀ r ∈ k.units, r.u = u.u → r.place = .ended false := by
  have hplace : PartsOnly s (s.setPlace p l.id u.u (.ended false)) := modPart_partsOnly ..
  have hafter := (busyEntry_dispatched (s.setPlace p l.id u.u (.ended false)) p l u true).trans (checkTrigger_dispatched _ p l.id)
  have hall := hplace.trans hafter.toPartsOnly
  have hunits := SameUnits.trans (busyEntry_sameLaunches (s.setPlace p l.id u.u (.ended false)) p l u true).sameUnits
    (checkTrigger_sameUnits _ p l.id)
  refine ⟨hall.unit, ?_, fun k hk hid r hr hru => ?_⟩
  · have hrun := congrArg (·.core.run) hall.rest
    exact hrun
  · obtain ⟨j, hj, hji, hus⟩ := hunits.units k hk
    exact setPlace_places s p l.id u.u _ j hj (hji ▸ hid) r (hus ▸ hr) hru

section
variable {s : State} {p : Fin 8} {task : BitVec 32} {l : Launch} {u : UnitRec}

/-- A unit that has exited still waits for its stores, its remote writes and its sends. -/
theorem drained_iff (s : State) : (s.core.run == .exited && s.drained && s.homesAccept s.dirtyLines) = true ↔ s.core.run = .exited
    ∧ Releasable s ∧ s.core.net.filter (fun m => m.part == s.part && m.task == s.core.unit.ident.task) = [] := by
  rw [State.drained, State.ownSends]
  simp only [Bool.and_eq_true, List.isEmpty_iff, beq_iff_eq]
  constructor
  · rintro ⟨⟨hrun, ⟨hsb, hun⟩, hnet⟩, hacc⟩
    exact ⟨hrun, ⟨⟨hsb, hun⟩, hacc⟩, hnet⟩
  · rintro ⟨hrun, ⟨⟨hsb, hun⟩, hacc⟩, hnet⟩
    exact ⟨⟨hrun, ⟨hsb, hun⟩, hnet⟩, hacc⟩

variable (h : (s.partAt (BitVec.ofFin p)).findUnit task = some (l, u))
include h

/-- The end of the unit that the modelled core holds. -/
theorem unitEnd_here (hplace : u.place = .exiting s.core.num.toNat) (hres : s.residentIs (BitVec.ofFin p) task = true) :
    exec (.unitEnd p task) s = .next (if s.core.run == .exited && s.drained && s.homesAccept s.dirtyLines then
      ({ s.releaseCache 2 with core.run := .idle, core.lsPart := some (BitVec.ofFin p) } : State).ended (BitVec.ofFin p) l u else s) := by
  change execUnitEnd p task s = _
  unfold execUnitEnd
  simp only [h, hplace, hres, beq_self_eq_true, Bool.and_self, if_true]
  rfl

/-- The end of a unit of another core. -/
theorem unitEnd_far {c : Nat} (hplace : u.place = .elsewhere c ∨ (u.place = .exiting c ∧ (c ≠ s.core.num.toNat ∨ s.residentIs (BitVec.ofFin p) task = false))) :
    ∃ t : State, exec (.unitEnd p task) s = .next (t.ended (BitVec.ofFin p) l u) ∧ t.core.unit = s.core.unit ∧ t.core.run = s.core.run := by
  have hexec : exec (.unitEnd p task) s = execUnitEnd p task s := rfl
  unfold execUnitEnd at hexec
  dsimp only at hexec
  rw [h] at hexec
  rcases hplace with hplace | ⟨hplace, hother⟩
  · exact ⟨s.releasePin (BitVec.ofFin p) l.id u, hexec.trans (by simp only [hplace]; rfl), rfl, rfl⟩
  · have hnot : (c == s.core.num.toNat && s.residentIs (BitVec.ofFin p) task) = false := by
      rcases hother with hc | hr
      · rw [beq_false_of_ne hc, Bool.false_and]
      · rw [hr, Bool.and_false]
    refine ⟨s, hexec.trans ?_, rfl, rfl⟩
    simp only [hplace, hnot, Bool.false_eq_true, if_false]
    rfl

end

/-! LAUNCH_COMPLETION (09 R217). -/

theorem launchCompletion_exec {s : State} {p : Fin 8} {id : BitVec 32} {l : Launch} (h : (s.partAt (BitVec.ofFin p)).launch id = some l) :
    exec (.launchCompletion p id) s = .next (if l.endedUnits = l.units.length
        ∧ (l.cancelled = true ∨ (l.runnable = true ∧ l.units.length = l.record.units))
        ∧ (∀ c ∈ s.core.cmds, c.part = BitVec.ofFin p → c.launch ≠ id) then
      (s.countUp (BitVec.ofFin p) l).endLaunch (BitVec.ofFin p) l (if l.cancelled then 2 else if l.partialEnd then 1 else 0) else s) := by
  have hidle : (!s.core.cmds.any (fun c => c.part == BitVec.ofFin p && c.launch == id)) = true
      ↔ ∀ c ∈ s.core.cmds, c.part = BitVec.ofFin p → c.launch ≠ id := by
    simp
  change execLaunchCompletion p id s = _
  unfold execLaunchCompletion
  dsimp only
  rw [h]
  dsimp only
  simp only [Bool.and_eq_true, hidle, Bool.or_eq_true, beq_iff_eq, and_assoc]

/-- The completion counter, incremented at its home (09 R217). -/
theorem countUp_counts {s : State} {p : BitVec 3} {id : BitVec 32} {l : Launch} (hi : s.Inv) (h : (s.partAt p).launch id = some l)
    {k : Nat × Nat × Nat} (hne : l.record.ccaddr ≠ 0) (hk : l.xlat.find? (fun k => k.1 == l.record.ccaddr / 4096) = some k)
    (hphys : s.physOk (k.2.1 + l.record.ccaddr % 4096) = true) (a : Nat) :
    (s.countUp p l).newest a = if s.lands (k.2.1 + l.record.ccaddr % 4096) 8 a then
      byteOf (s.newestNat (k.2.1 + l.record.ccaddr % 4096) 8 + 1) (a - (k.2.1 + l.record.ccaddr % 4096)) else s.newest a := by
  have hid : l.id = id := beq_iff_eq.1 (List.find?_some (p := fun l : Launch => l.id == id) h)
  have hpa : s.dispPa p l l.record.ccaddr = .ok (k.2.1 + l.record.ccaddr % 4096, s) := by
    unfold State.dispPa
    rw [hid, h, Option.getD_some, hk]
    dsimp only
    rw [State.dispPhys, if_pos hphys]
    rfl
  have heq : s.countUp p l = s.homeWrite .h (k.2.1 + l.record.ccaddr % 4096) (leBytes 8 (s.newestNat (k.2.1 + l.record.ccaddr % 4096) 8 + 1)) := by
    unfold State.countUp State.dispWrite
    rw [if_neg (by rw [beq_iff_eq]; exact hne), hpa]
    dsimp only
    rw [writeBackLines_readNat s _ _ hi.l1.distinct]
  rw [heq, homeWrite_number _ _ _ _ _ hi.l1]

/-- Settles O55: each event of the dispatcher by its own equation; a start by what it does to the launches of its identifier and, on the modelled
core, to the unit; an end by what the records after it leave of the launches. -/
theorem unitsAndLaunches : Obligations.UnitsAndLaunches := by
  refine ⟨unitStartCtx_fields, fun s p hi => ?_⟩
  dsimp only
  refine ⟨fun core => unitStart_refused, fun core l hen hheld hturn => ?_, fun core hen hheld hturn hfree => ?_,
    fun core c hen hheld hturn hfree hres hc => ?_, fun task l u hu => ?_, fun id l hl => ?_⟩
  · rw [unitStart_turn hen hheld hturn]
    have hroom : (s.emptyCores (BitVec.ofFin p)).contains core && s.maxcOk l && s.modeOk (BitVec.ofFin p) l core
        ↔ (core ∈ s.emptyCores (BitVec.ofFin p) ∧ (l.record.maxc = 0 ∨ (l.cores s.core.num.toNat).length < l.record.maxc)
          ∧ s.modeOk (BitVec.ofFin p) l core = true) := by
      simp [State.maxcOk, and_assoc]
    refine ⟨fun h => ⟨_, by rw [if_pos (hroom.2 h)], startTurn_starts ..⟩, fun h => by rw [if_neg fun hc => h (hroom.1 hc)]⟩
  · rw [unitStart_full hen hheld hturn hfree, State.makeRoom, State.requestParked]
    refine ⟨fun w task hw hv => ?_, fun task rest hn hp => ?_, fun hn hp => ?_⟩
    · obtain ⟨h6, hmax⟩ := urgent_spec hw
      refine ⟨?_, h6, hmax, victim_spec hv⟩
      rw [hw, Option.bind_some, hv]
    · rw [hn, hp]
    · rw [hn, hp]
  · rw [unitStart_choice hen hheld hturn hfree hres hc]
    have hwaits : (s.reserveFor (BitVec.ofFin p) c).requestParked (BitVec.ofFin p)
        = match s.parked (BitVec.ofFin p) with
          | [] => s.reserveFor (BitVec.ofFin p) c
          | task :: _ => (s.reserveFor (BitVec.ofFin p) c).requestEvict (BitVec.ofFin p) task .coreNeed := by
      rw [State.requestParked, parked_reserveFor]
      cases s.parked (BitVec.ofFin p) <;> rfl
    refine ⟨fun hcls hhead hsaved hunit => ?_, fun hcls hfew => ?_, fun hcls hnext henough => ?_⟩
    · rw [if_pos hcls]
      exact ⟨_, rfl, startOne_starts s (BitVec.ofFin p) c core hhead hsaved hunit⟩
    · rw [if_neg (not_not_intro hcls)]
      by_cases hnext : c.launch.nextUnit = 0
      · rw [if_pos hnext, startGroup_reserves _ _ _ (hfew.resolve_left (not_not_intro hnext)), hwaits]
        rfl
      · rw [if_neg hnext, hwaits]
        rfl
    · rw [if_neg (not_not_intro hcls), if_pos hnext]
      exact ⟨_, rfl, startGroup_starts s (BitVec.ofFin p) c henough⟩
  · refine ⟨fun hcls hunit hfree => ?_, fun hno => ?_, fun hplace hres => ⟨fun hrun hrel hnet => ?_, fun hno => ?_⟩, fun c hplace => ?_⟩
    · rw [timeSlice_exec hu, if_pos ⟨hcls, hunit, hfree⟩]
    · rw [timeSlice_exec hu, if_neg]
      rintro ⟨hcls, hunit, hfree⟩
      rcases hno with h | h | h
      · exact h hcls
      · omega
      · exact h hfree
    · rw [unitEnd_here hu hplace hres, if_pos ((drained_iff s).2 ⟨hrun, hrel, hnet⟩)]
      obtain ⟨hunit, hidle, hends⟩ := ended_spec ({ s.releaseCache 2 with core.run := .idle, core.lsPart := some (BitVec.ofFin p) } : State)
        (BitVec.ofFin p) l u
      exact ⟨_, rfl, hidle, hunit.trans (releaseCache_memOnly s 2).unit, hends⟩
    · rw [unitEnd_here hu hplace hres, if_neg]
      intro hgo
      obtain ⟨hrun, hrel, hnet⟩ := (drained_iff s).1 hgo
      rcases hno with h | h | h
      · exact h hrun
      · exact h hrel
      · exact h hnet
    · obtain ⟨t, ht, hunit, hrun⟩ := unitEnd_far hu hplace
      obtain ⟨hunit', hrun', hends⟩ := ended_spec t (BitVec.ofFin p) l u
      exact ⟨_, ht, hunit'.trans hunit, hrun'.trans hrun, hends⟩
  · have hid : l.id = id := beq_iff_eq.1 (List.find?_some (p := fun l : Launch => l.id == id) hl)
    refine ⟨fun hends hwhole hidle => ?_, fun hno => ?_, fun hzero => ?_, fun k hne hk hphys a => countUp_counts hi hl hne hk hphys a⟩
    · rw [launchCompletion_exec hl, if_pos ⟨hends, hwhole, hidle⟩]
      refine ⟨_, rfl, rfl, fun k hk => hid ▸ (endLaunch_units ..).2 k hk, ?_⟩
      exact ((countUp_dispatched s (BitVec.ofFin p) l).trans (endLaunch_dispatched ..)).unit
    · rw [launchCompletion_exec hl, if_neg]
      rintro ⟨hends, hwhole, hidle⟩
      rcases hno with h | h | h
      · exact h hends
      · exact h hwhole
      · exact h hidle
    · rw [State.countUp, hzero, if_pos (beq_self_eq_true _)]

end Sys2Proof.Machine
end

section
/-! A counterexample to O56: a tile whose scale is longer than the slot has room for (14 R384). -/

namespace Sys2Proof.Machine

/-! What an eviction leaves as it was: the bytes of pool and table memory (12 R296). -/

/-- No newest byte of pool and table memory differs. -/
structure Spares (s t : State) : Prop where
  pool : ∀ q n, t.inPool q n = s.inPool q n
  form : s.core.l1.Ok → t.core.l1.Ok
  bytes : s.core.l1.Ok → ∀ q, s.inPool q 1 = true → t.newest q = s.newest q

section
variable {s t u : State}

theorem Spares.refl (s : State) : Spares s s := ⟨fun _ _ => rfl, fun h => h, fun _ _ _ => rfl⟩

theorem Spares.trans (h : Spares s t) (k : Spares t u) : Spares s u where
  pool q n := (k.pool q n).trans (h.pool q n)
  form hs := k.form (h.form hs)
  bytes hs q hq := (k.bytes (h.form hs) q ((h.pool q 1).trans hq)).trans (h.bytes hs q hq)

theorem Spares.foldl {α : Type} (f : State → α → State) (l : List α) (hf : ∀ s, ∀ a ∈ l, Spares s (f s a)) (s : State) : Spares s (l.foldl f s) :=
  List.foldlRecOn (motive := fun (t : State) => Spares s t) l f (Spares.refl s) fun t ht a ha => ht.trans (hf t a ha)

theorem Writes.spares {w : Nat → Prop} (h : Writes w s t) (hw : ∀ q, w q → s.inPool q 1 = false) : Spares s t where
  pool := h.rest.inPool
  form := h.form
  bytes hs q hq := h.bytes hs q fun hwq => by rw [hw q hwq] at hq; cases hq

/-- A change beside memory and the L1. -/
theorem Spares.of_eq (hb : t.beryl = s.beryl) (hl : t.core.l1 = s.core.l1) (hm : t.mem = s.mem) : Spares s t where
  pool q n := by rw [State.inPool, State.inPool, hb]
  form hs := hl ▸ hs
  bytes _ q _ := by rw [State.newest, State.newest, hl, hm]

end

theorem slotWrite_spares (s : State) (p : BitVec 3) (pa : Nat) (bs : List Byte) : Spares s (s.slotWrite p pa bs) := by
  unfold State.slotWrite
  split
  · exact (homeWrite_writes s .h pa bs).spares fun q hq => hq.2.2
  · exact Spares.refl s

theorem saveCtx_spares (s : State) (p : BitVec 3) (pa : Nat) (u : UnitCtx) (bytes : List Byte) : Spares s (s.saveCtx p pa u bytes) := by
  unfold State.saveCtx
  dsimp only
  refine ((Spares.foldl _ _ (fun t i _ => ?_) s).trans (slotWrite_spares ..)).trans (slotWrite_spares ..)
  split
  · exact slotWrite_spares ..
  · exact Spares.refl t

theorem modPart_spares (s : State) (p : BitVec 3) (f : Part → Part) : Spares s (s.modPart p f) := Spares.of_eq rfl rfl rfl

theorem giveTurn_spares (s : State) (p : BitVec 3) (l : Launch) (src : Option EvictSource) (core : Nat) : Spares s (s.giveTurn p l src core) := by
  unfold State.giveTurn
  split
  · exact modPart_spares ..
  · exact Spares.refl s

theorem freed_spares (t : State) (h : Option (BitVec 3 × BitVec 32)) (p : Option (BitVec 3)) :
    Spares t { t.freeCore with core.lsHolder := h, core.lsPart := p } := Spares.of_eq rfl rfl rfl

/-- An eviction of a launch without idle/busy entries writes the slot alone. -/
theorem evictHere_spares (s : State) (p : BitVec 3) (l : Launch) (u : UnitRec) (task : BitVec 32) (slot : Nat) (live : BitVec 16)
    (h : l.record.ibt = 0) : Spares s (s.evictHere p l u task slot live) := by
  have hbusy (t : State) : t.busyEntry p l u false = t := by rw [State.busyEntry, if_pos (beq_iff_eq.2 h)]
  unfold State.evictHere
  dsimp only
  refine Spares.trans ?_ (freed_spares _ _ _)
  rw [hbusy]
  refine Spares.trans ?_ (giveTurn_spares ..)
  refine Spares.trans ?_ (modPart_spares ..)
  refine Spares.trans ?_ (modPart_spares ..)
  refine Spares.trans ?_ (saveCtx_spares ..)
  exact (releaseCache_quiet s 2).spares fun q hq => hq.elim

theorem dropRequest_spares (s : State) (p : BitVec 3) (l : Launch) (u : UnitRec) : Spares s (s.dropRequest p l u) := by
  unfold State.dropRequest
  dsimp only
  split
  · split
    · exact Spares.of_eq rfl rfl rfl
    · exact Spares.refl s
  · split
    · exact Spares.of_eq rfl rfl rfl
    · exact Spares.refl s
  · exact Spares.refl s

theorem dropRequests_spares (s : State) (p : BitVec 3) : Spares s (s.dropRequests p) :=
  Spares.foldl _ _ (fun t e _ => dropRequest_spares t p e.1 e.2) s

/-- The eviction of the resident unit alone, when it need wait for nothing (14 R382). -/
theorem eviction_here {s : State} {p : Fin 8} {task : BitVec 32} {slot : Nat} {l : Launch} {u : UnitRec} {live : BitVec 16}
    (hu : (s.partAt (BitVec.ofFin p)).findUnit task = some (l, u)) (htask : BitVec.ofNat 32 (l.record.tbase + u.u) = task)
    (hmates : l.together u = [u]) (hplace : u.place = .here) (hfree : ∀ v ∈ (s.partAt (BitVec.ofFin p)).saved, v.slot ≠ slot)
    (hslot : slot < (s.partAt (BitVec.ofFin p)).savecnt.toNat) (hrel : Releasable s) (hturn : s.evictTurn (BitVec.ofFin p) task = true)
    (hreq : s.core.evictReq.isSome = true) (hexit : s.core.run ≠ .exited) (hhalt : s.core.run ≠ .halted)
    (hmig : s.mustMigrate (BitVec.ofFin p) l u = false) (hmask : s.evictMask (BitVec.ofFin p) = some live) :
    exec (.eviction p task slot) s = .next ((s.evictHere (BitVec.ofFin p) l u task slot live).dropRequests (BitVec.ofFin p)) := by
  have hone : s.evictOne (BitVec.ofFin p) l u slot = some (s.evictHere (BitVec.ofFin p) l u task slot live) := by
    obtain ⟨⟨hsb, hun⟩, hacc⟩ := hrel
    have hpend : s.evictPending (BitVec.ofFin p) (BitVec.ofNat 32 (l.record.tbase + u.u)) u = true := by
      rw [State.evictPending, hplace]
      exact hreq
    unfold State.evictOne
    dsimp only
    rw [if_neg (by rw [hpend, hmig]; decide)]
    simp only [hplace, drainAll_of_empty hsb, hsb, hun, hacc, hmask, htask, beq_false_of_ne hexit, beq_false_of_ne hhalt, List.isEmpty_nil,
      Bool.not_true, Bool.or_false, Bool.false_eq_true, if_false, Option.map_some]
  have hnone : (l.together u).filter (fun k => k.u != u.u) = [] := by rw [hmates, List.filter_cons_of_neg (by simp)]; rfl
  change execEviction p task slot s = _
  unfold execEviction
  dsimp only
  have hany : (s.partAt (BitVec.ofFin p)).saved.any (fun v => v.slot == slot) = false := by simpa using hfree
  rw [if_neg (by rw [hany, hturn, decide_eq_false (by omega)]; decide), hu]
  dsimp only
  rw [hnone, List.map_nil]
  have hcore : (byCore s.core.num.toNat []).map (·.2) = [] := by
    rw [byCore]
    simp
  rw [hcore, List.length_nil, if_neg (Nat.not_lt_zero _), List.zip_nil_left, State.evictEach, List.foldl_cons, List.foldl_nil, Option.bind_some, hone]
  rfl

/-! The state of the counterexample. -/

/-- A tile with a scale of 8,200 bytes. -/
def tallTile : Tile := { Tile.null with scale := List.replicate 8200 1, mapped := true }

/-- A launch with one unit, which is on the modelled core. -/
def loneLaunch : Launch :=
  { id := 0, entry := none, words := [], phase := .running, readySeq := 0, admitted := true, units := [UnitRec.start 0 .here 0], nextUnit := 1,
    remaining := 0, released := false, partialEnd := false, cancelled := false, nfault := 0, fcause := 0, ftask := 0, faulty := [], hot := none,
    turns := [], xlat := [] }

/-- A running unit with such tiles, whose eviction is requested: its save pool has one slot, at address 0, and a pool of one block follows it. -/
def tallUnit : State :=
  { State.reset with
    core.run := .running
    core.evictReq := some .supervisor
    core.unit.t := Vector.replicate 16 tallTile
    parts := State.reset.parts.set 0 { State.reset.partAt 0 with savecnt := 1, launches := [loneLaunch] }
    beryl.regions := State.reset.beryl.regions.set 0 ⟨true, 0, 0, 0, 0x12000, 1⟩ }

theorem tallUnit_inv : tallUnit.Inv where
  memory := by decide
  localStore := resetHasInvariant.localStore
  flash := resetHasInvariant.flash
  l1 := resetHasInvariant.l1
  status := resetHasInvariant.status
  counts := fun k hk => nomatch hk

theorem tallUnit_part : tallUnit.partAt 0 = { State.reset.partAt 0 with savecnt := 1, launches := [loneLaunch] } := rfl

/-- The spill engine may use the whole slot. -/
theorem tallUnit_ownBytes {w : State} (hparts : w.parts = tallUnit.parts) (hclaims : w.dev.claims = tallUnit.dev.claims)
    (hl2 : w.dev.l2 = tallUnit.dev.l2) {j : Nat} (hj : j < 18) : w.ownBytes 0 (0x1000 * j) 0x1000 = true := by
  have hmaps (q : BitVec 3) : w.mapsBytes q (0x1000 * j) 0x1000 = false := by
    have hroot : (w.partAt q).troot.getLsbD 0 = false := by
      rw [State.partAt, hparts]
      revert q
      decide
    rw [State.mapsBytes, hroot, Bool.false_and]
  have hphys : w.physOk (0x1000 * j) = true := by
    have hdom : inDomain w.dev.l2.tbase w.dev.l2.entries (0x1000 * j) = true := by
      rw [hl2]
      rfl
    have hres : reserved? (0x1000 * j) = false := by
      rw [reserved?, decide_eq_false (by unfold reservedBase; omega), Bool.false_and]
    rw [State.physOk, hdom, hres, State.exists?, if_pos (by omega)]
    rfl
  rw [State.ownBytes, hphys, State.foreign, hclaims]
  simp only [hmaps, Bool.and_false]
  rfl

theorem getElem?_append_of_some {α : Type} {l r : List α} {i : Nat} {a : α} (h : l[i]? = some a) : (l ++ r)[i]? = some a := by
  rw [List.getElem?_append_left (List.getElem?_eq_some_iff.1 h).1, h]

theorem tallTile_head : tallTile.head[0x2000]? = some 1 := by
  have hlen : (leBytes 4 tallTile.tagWord ++ leBytes 4 tallTile.poison.toNat ++ leBytes 8 tallTile.origin).length = 16 := by
    simp [leBytes_length]
  rw [Tile.head, show tallTile.mapped = true from rfl, if_pos rfl, padTo]
  refine getElem?_append_of_some (getElem?_append_of_some ?_)
  rw [List.getElem?_append_right (by rw [hlen]; decide), hlen, padTo]
  refine getElem?_append_of_some ?_
  rw [show tallTile.scale = List.replicate 8200 1 from rfl, List.getElem?_replicate, if_pos (by decide)]

/-- The slot's image has a byte of the scale where the slot has ended. -/
theorem tallTile_image (u : UnitCtx) (h : u.t[0] = tallTile) (status : Word64) (core : BitVec 7) (spt susp : Bool) (live : BitVec 16) :
    (u.image status core spt susp live)[0x2000]? = some 1 := by
  have hlist : ∃ r, u.t.toList = tallTile :: r := by
    have h0 : u.t.toList[0]? = some tallTile := by simp [h]
    cases hl : u.t.toList with
    | nil => rw [hl] at h0; cases h0
    | cons a r => rw [hl] at h0; cases h0; exact ⟨r, rfl⟩
  obtain ⟨r, hr⟩ := hlist
  rw [UnitCtx.image, padTo]
  iterate 10 refine getElem?_append_of_some ?_
  rw [hr, List.flatMap_cons]
  exact getElem?_append_of_some tallTile_head

/-- Refutes O56: a tile's scale may have more bytes than a tile of 32 rows, and then the image of the context goes beyond the slot, where the
pool of a Beryl region may lie, which no path but the Beryl services writes (12 R296). -/
theorem not_evictionAndRestoration : ¬ Obligations.EvictionAndRestoration := by
  intro h
  have hu : (tallUnit.partAt 0).findUnit 0 = some (loneLaunch, UnitRec.start 0 .here 0) := rfl
  obtain ⟨hevict, -⟩ := h tallUnit 0 0 loneLaunch (UnitRec.start 0 .here 0) hu
  have hrel : Releasable tallUnit := ⟨⟨rfl, rfl⟩, rfl⟩
  have hmig : tallUnit.mustMigrate 0 loneLaunch (UnitRec.start 0 .here 0) = false := by
    rw [State.mustMigrate]
    exact Bool.and_false _
  have hfree : ∀ v ∈ (tallUnit.partAt 0).saved, v.slot ≠ 0 := fun v hv => nomatch hv
  have hslot : 0 < (tallUnit.partAt 0).savecnt.toNat := by decide
  have hexit : tallUnit.core.run ≠ .exited := fun h => nomatch h
  have hhalt : tallUnit.core.run ≠ .halted := fun h => nomatch h
  obtain ⟨t, ht, -, -, -, -, -, himage⟩ := hevict 0 0xFFFF rfl rfl hfree hslot hrel rfl rfl hexit hhalt hmig rfl
  have hbase : (tallUnit.partAt 0).slotPa 0 = 0 := rfl
  obtain ⟨hbytes, -⟩ := himage rfl tallUnit_inv (by decide) fun w j hj hparts hclaims hl2 _ _ _ => by
    change w.ownBytes 0 ((tallUnit.partAt 0).slotPa 0 + 0x1000 * j) 0x1000 = true
    rw [hbase, Nat.zero_add]
    exact tallUnit_ownBytes hparts hclaims hl2 hj
  have hexec := eviction_here (p := 0) (task := 0) hu rfl rfl rfl hfree hslot hrel rfl rfl hexit hhalt hmig (live := 0xFFFF) rfl
  have heq := Host.Outcome.next.inj (ht.symm.trans hexec)
  have hspares := (evictHere_spares tallUnit 0 loneLaunch (UnitRec.start 0 .here 0) 0 0 0xFFFF rfl).trans (dropRequests_spares _ 0)
  have hold : t.newest 0x12000 = 0 := by
    rw [heq]
    exact (hspares.bytes tallUnit_inv.l1 0x12000 (by decide)).trans rfl
  have hnew := hbytes 0x2000 1 (tallTile_image _ rfl _ _ _ _ _)
  exact absurd (hold.symm.trans hnew) (by decide)

end Sys2Proof.Machine
end

section
/-! A counterexample to O54: a word whose line the walk of its own fetch writes back (10 R249, R263; 11 R284). -/

namespace Sys2Proof.Machine

/-- The translation service's entries for the lowest 2^45 addresses: a table at address 0, whose first leaf maps 2^34 addresses to themselves and
may be executed at unit level. -/
def codePages : List UpperEntry := [⟨0, 45, 0, 3⟩, ⟨0, 34, 0, 0x1F5⟩]

/-- A unit at address 64. Its home memory is empty, and its L1 holds the last byte of the word j 0 there, not yet written back. -/
def lateCode : State :=
  { State.reset with
    core.run := .running
    core.unit.pc := 64
    core.l1.dirty := [(67, 0x38)]
    parts := State.reset.parts.set 0 { State.reset.partAt 0 with troot := 1 }
    dev.hier.upper := codePages }

theorem lateCode_inv : lateCode.Inv where
  memory := by decide
  localStore := resetHasInvariant.localStore
  flash := resetHasInvariant.flash
  l1 := ⟨by decide, fun _ _ e he => nomatch he⟩
  status := resetHasInvariant.status
  counts := fun k hk => nomatch hk

theorem lateCode_walk : lateCode.walk 0 64 = .ok ⟨0x1F5, 34, some 0⟩ := by
  have h0 : lateCode.dev.hier.upper? 0 ⟨45, 11, [], 14⟩ 64 = some 3 := by decide
  have h1 : lateCode.dev.hier.upper? 0 ⟨34, 11, [5], 16⟩ 64 = some 0x1F5 := by decide
  have hok : leafOk 0x1F5 ⟨34, 11, [5], 16⟩ = true := by decide
  have htab : tableOk 3 ⟨45, 11, [], 14⟩ = true := by decide
  rw [State.walk, show (lateCode.partAt 0).troot = 1 by rfl]
  simp only [walkLevels]
  rw [State.walkFrom, State.walkFrom, h0, h1]
  simp [hok, htab]
  decide

/-- The first fetch finds the word of the home, which is no instruction. -/
theorem lateCode_word : lateCode.fetchWord 64 = .ok (0, ⟨0x1F5, 34, some 0⟩) := by
  have hcheck : leafCheck ⟨0x1F5, 34, some 0⟩ .fetch 0 true = .ok () := by decide
  have hx : lateCode.translate .fetch true 64 = .ok ⟨0x1F5, 34, some 0⟩ := by
    rw [State.translate]
    simp only [show lateCode.core.service = none from rfl, show lateCode.part = 0 from rfl, show lateCode.tlbHit 0 64 .fetch = none from rfl, show lateCode.k.pl = 0 from rfl, lateCode_walk, Option.isSome_none, Bool.false_eq_true, if_false, bind,
      Except.bind, hcheck]
  have hpa : Xl.paOf ⟨0x1F5, 34, some 0⟩ 64 = 64 := by decide
  rw [State.fetchWord, show (64 : BitVec 56).toNat = 64 from rfl, hx]
  simp only [hpa]
  rfl

/-- The second one finds the word that the walk of the first has written back with its line. -/
theorem lateCode_decodes : ∃ t, exec (.instructionFetch 64) lateCode = .next t ∧ t.core.front.decoded.length = 1 := ⟨_, rfl, by rfl⟩

/-- Refutes O54: a word that is no instruction may lie in the line of the table entry whose walk its fetch makes. Setting ac in that entry writes
the line back first (10 R263), and the second word that the front end fetches is the same address with the newer bytes. -/
theorem not_pipeline : ¬ Obligations.Pipeline := by
  intro h
  obtain ⟨hfetch, -⟩ := h lateCode lateCode_inv
  obtain ⟨t, -, ht, -, -, -, hnone⟩ := (hfetch 64).2 0 ⟨0x1F5, 34, some 0⟩ ⟨rfl, rfl⟩ rfl rfl rfl rfl lateCode_word
  obtain ⟨u, hu, hone⟩ := lateCode_decodes
  obtain rfl : t = u := Host.Outcome.next.inj (ht.symm.trans hu)
  have := hnone _ (by rfl : decode 0 = .error .illegalOpcode) fun ea hea => by
    cases hea
    decide
  rw [this] at hone
  exact absurd hone (by decide)

end Sys2Proof.Machine
end

section
/-! A counterexample to O8: a group whose second context changes while the first one comes back (09 R224; 10 R245; 14 R387). -/

namespace Sys2Proof.Machine

/-- A saved unit that had stopped for the debugger, of task and slot n. -/
def stoppedUnit (n : Nat) : SavedUnit :=
  { slot := n, task := BitVec.ofNat 32 n, launch := 0, susp := none, stopped := true, exempt := false, streams := [], pin := none, image := true,
    far := none, noted := none, enter := none }

/-- The record of such a unit. -/
def savedRec (n : Nat) : UnitRec := { UnitRec.start n (.saved n) 0 with u := n }

/-- A concurrent launch of two units, both in their slots, in the fused mode of the L1. -/
def pairLaunch : Launch := { loneLaunch with words := [0, 0, 0, 0, 2 ^ 33 + 2 ^ 40], units := [savedRec 0, savedRec 1], nextUnit := 2 }

/-- Core 1, with no unit. The launch's partition has its quadrant, and both slots hold 0 at home; the L1 has a byte for the saved k.status in the
second, not yet written back, whose level is no level. -/
def pairSaved : State :=
  { State.reset with
    agenda := [.event (.restoration 0 0 0)]
    core.num := 1
    core.l1.dirty := [(0x22550, 3)]
    parts := State.reset.parts.set 0
      { State.reset.partAt 0 with qmask := 1, savecnt := 2, launches := [pairLaunch], saved := [stoppedUnit 0, stoppedUnit 1] } }

theorem pairSaved_inv : pairSaved.Inv where
  memory := by decide
  localStore := resetHasInvariant.localStore
  flash := resetHasInvariant.flash
  l1 := ⟨by decide, fun _ _ e he => nomatch he⟩
  status := resetHasInvariant.status
  counts := fun k hk => nomatch hk

theorem pairSaved_step : ∃ t, step pairSaved = .next t ∧ t.core.unit.k.status = 3 := ⟨_, rfl, by rfl⟩

/-- Refutes O8: the checks of a group's contexts come before any of them is back (14 R387 step 1). The first unit comes to a core of the modelled
core's cluster, and the switch of the L1's mode that its launch asks for writes the dirty bytes of the second unit's slot back. The second unit is
then restored with a level that is no level. -/
theorem not_stepKeepsInvariant : ¬ Obligations.StepKeepsInvariant := by
  intro h
  obtain ⟨t, hstep, hstatus⟩ := pairSaved_step
  have hlevel := (h pairSaved t pairSaved_inv hstep).status.2
  rw [hstatus] at hlevel
  exact hlevel rfl

end Sys2Proof.Machine
end
